-- ==== Sys2Proof/Word.lean ====
section
/-!
DEFINITION. The word types of the machine (00_scope R4, 02_encoding R26) and their plainest views.
-/

namespace Sys2Proof

/-- A vector register, and an instruction word: 32 bits. -/
abbrev Word := BitVec 32

/-- A warp register, a pair of vector registers, an address as it is computed: 64 bits. -/
abbrev DWord := BitVec 64

/-- One byte of memory. -/
abbrev Byte := BitVec 8

end Sys2Proof
end

