-- ==== Sys2Proof/Config.lean ====
section
/-!
DEFINITION. What the spec leaves to the device: free values. Each is a constant without a body, so nothing can be
proved of its value (assumption log 5 and the entries named below). A counter argument makes each use a fresh value.
-/

namespace Sys2Proof.Config

/-- Clk that pass in one step of the model, less one (R419, log 5). -/
opaque stepClk : Nat → Nat

/-- R12: by how much %clock of a core lags the package's elapsed clk, before it is bounded by 64 (log 6). -/
opaque clockLag : Nat → Nat

/-- A result of a special-function word that R123 and R124 bound and do not fix: function, operand, use (log 7). -/
opaque sfuPick : Nat → Word → Nat

/-- R152: whether a sealed unit read under another partition key or fold key is misdirected (0), uncorrectable (1) or
accepted; it depends on the data and the two pairs of keys alone (log 8). -/
opaque foldOutcome : Nat × BitVec 16 → Nat × BitVec 16 → List Byte → Nat

/-- R151: the bytes of a unit decrypted under other keys: the two pairs of keys, column, unit, byte (log 8). -/
opaque decryptByte : Nat × BitVec 16 → Nat × BitVec 16 → Nat → List Byte → Nat → Byte

/-- R391: which of the differing replicas of a leaf an access at a moment uses: the moment and the entry of its own address
(log 26). -/
opaque replicaPick : Nat → Nat → Nat

/-- R406: the SHA-384 measurement of index 1 boot ROM, 2 firmware, 3 Zarkin OS, 4 fused configuration, with the version of the
image in flash (log 22). -/
opaque measurement : Nat → Nat → Nat

/-- R324: which of a frame's mappings that disagree system software wrote last, by the mappings and their bits (log 19). -/
opaque affinityPick : List (Nat × Nat) → Nat

/-- R14: over which slice of a partition's a line of L2 hashes, before it is reduced to their number (log 21). -/
opaque l2Hash : Nat → Nat

/-- R290: whether an access to a sector of tier 0 at a moment activates a row (log 17). -/
opaque demandActivates : Nat → Nat → Bool

/-- R419: the bank and the clk at which a pseudo-channel's refresh turn begins, before they are reduced to 16 banks and to
tREFIpb: stack and channel (log 17). -/
opaque refreshBank : Nat → Nat → Nat
opaque refreshStart : Nat → Nat → Nat

/-- R399: the next pointer of the semaphore's capability (log 22). -/
opaque nextCapability : BitVec 8

/-- A free number, by the counter of free values (log 5). -/
opaque freeNat : Nat → Nat

/-- A free word, by the counter of free values (log 5). -/
opaque freeWord : Nat → Word

/-- A free yes or no, by the counter of free values (log 5). -/
opaque freeBool : Nat → Bool

end Sys2Proof.Config
end

