-- ==== Sys2Proof/Syntax.lean ====
section
/-!
DEFINITION. The instruction syntax: one constructor of `Instr` per row of spec/opcode_table.json.
294 rows have an encoding (02_encoding R26 to R49); their constructors carry the fields of their word.
114 rows are events: acts of an engine, of the scheduler, of system software or of a host, which have no
encoding; their constructors carry what identifies the act.
-/

namespace Sys2Proof

/-- Clause header (R29): length, wait mask, flags A and B, yield, collective. -/
structure HeaderArgs where
  len : BitVec 4
  wait : BitVec 12
  fa : BitVec 4
  fb : BitVec 4
  y : Bool
  c : Bool
  deriving DecidableEq, Repr

/-- Hint word (R40). -/
structure HintArgs where
  stall : BitVec 4
  cache : BitVec 2
  reuse : BitVec 2
  deriving DecidableEq, Repr

/-- Extension word (R41). -/
structure ExtArgs where
  ext : BitVec 26
  deriving DecidableEq, Repr

/-- Arithmetic prefix (R42, R43). -/
structure ArithPrefixArgs where
  mask : BitVec 3
  z : Bool
  rnd : BitVec 3
  v4 : BitVec 6
  deriving DecidableEq, Repr

/-- Memory prefix (R42, R44). -/
structure MemPrefixArgs where
  scope : BitVec 2
  order : BitVec 2
  v4 : BitVec 6
  deriving DecidableEq, Repr

/-- Format V3 with two sources (R45). -/
structure V3Args where
  vd : BitVec 6
  va : BitVec 6
  vb : BitVec 6
  guard : BitVec 3
  neg : Bool
  deriving DecidableEq, Repr

/-- Format V3 whose vb is unused and 0 (R45). -/
structure V2Args where
  vd : BitVec 6
  va : BitVec 6
  guard : BitVec 3
  neg : Bool
  deriving DecidableEq, Repr

/-- Format VI (R45). -/
structure VIArgs where
  vd : BitVec 6
  va : BitVec 6
  imm : BitVec 6
  guard : BitVec 3
  neg : Bool
  deriving DecidableEq, Repr

/-- MOVI: format VI with va unused (R100). -/
structure VI0Args where
  vd : BitVec 6
  imm : BitVec 6
  guard : BitVec 3
  neg : Bool
  deriving DecidableEq, Repr

/-- Format W, three warp registers (R45, R105). -/
structure W3Args where
  wd : BitVec 5
  wa : BitVec 5
  wb : BitVec 5
  guard : BitVec 3
  deriving DecidableEq, Repr

/-- WMOV (R105). -/
structure W2Args where
  wd : BitVec 5
  wa : BitVec 5
  guard : BitVec 3
  deriving DecidableEq, Repr

/-- WMOVI, a 14-bit immediate in [16:3] (R105). -/
structure WIArgs where
  wd : BitVec 5
  imm : BitVec 14
  guard : BitVec 3
  deriving DecidableEq, Repr

/-- V2W: pair index k, source form s (R106). -/
structure WVArgs where
  wd : BitVec 5
  k : BitVec 5
  s : Bool
  guard : BitVec 3
  deriving DecidableEq, Repr

/-- W2V: pair index k (R106). -/
structure VWArgs where
  k : BitVec 5
  wa : BitVec 5
  guard : BitVec 3
  deriving DecidableEq, Repr

/-- WLEA with its shift (R105). -/
structure WLArgs where
  wd : BitVec 5
  wa : BitVec 5
  wb : BitVec 5
  sh : BitVec 4
  guard : BitVec 3
  deriving DecidableEq, Repr

/-- Special-function word (R123). -/
structure SfuArgs where
  vd : BitVec 6
  va : BitVec 6
  guard : BitVec 3
  fs : Bool
  deriving DecidableEq, Repr

/-- Cross-lane word with an index operand: register, or immediate when imm (R130, R131). -/
structure X3Args where
  vd : BitVec 6
  va : BitVec 6
  vb : BitVec 6
  miss : BitVec 3
  imm : Bool
  deriving DecidableEq, Repr

/-- Cross-lane word without an index operand (R131, R132). -/
structure X2Args where
  vd : BitVec 6
  va : BitVec 6
  miss : BitVec 3
  deriving DecidableEq, Repr

/-- VANY, VALL (R132). -/
structure XVoteArgs where
  pa : BitVec 3
  miss : BitVec 3
  deriving DecidableEq, Repr

/-- VBAL (R132). -/
structure XBalArgs where
  vd : BitVec 6
  pa : BitVec 3
  deriving DecidableEq, Repr

/-- REDI, REDF with their operation (R133). -/
structure XRedArgs where
  vd : BitVec 6
  va : BitVec 6
  op : BitVec 6
  miss : BitVec 3
  deriving DecidableEq, Repr

/-- LMASK with its selector (R135). -/
structure XMaskArgs where
  vd : BitVec 6
  sel : BitVec 6
  deriving DecidableEq, Repr

/-- SGSET (R136). -/
structure XSetArgs where
  imm : BitVec 6
  miss : BitVec 3
  deriving DecidableEq, Repr

/-- Format CMP (R45, R73, R74). -/
structure CmpArgs where
  type : BitVec 2
  ctype : BitVec 3
  pd1 : BitVec 3
  pd2 : BitVec 3
  va : BitVec 6
  vb : BitVec 6
  guard : BitVec 3
  deriving DecidableEq, Repr

/-- Predicate logic, two sources (R76). -/
structure P3Args where
  pd : BitVec 3
  pa : BitVec 3
  pb : BitVec 3
  guard : BitVec 3
  neg : Bool
  deriving DecidableEq, Repr

/-- Predicate logic, one source (R76). -/
structure P2Args where
  pd : BitVec 3
  pa : BitVec 3
  guard : BitVec 3
  neg : Bool
  deriving DecidableEq, Repr

/-- PSETI (R76). -/
structure PIArgs where
  pd : BitVec 3
  imm : Bool
  guard : BitVec 3
  neg : Bool
  deriving DecidableEq, Repr

/-- Format B (R47). -/
structure BrArgs where
  guard : BitVec 3
  neg : Bool
  off : BitVec 18
  deriving DecidableEq, Repr

/-- BRX, CALLX (R78). -/
structure CtlJArgs where
  va : BitVec 6
  guard : BitVec 3
  neg : Bool
  deriving DecidableEq, Repr

/-- Control word without operands (R78). -/
structure CtlGArgs where
  guard : BitVec 3
  neg : Bool
  deriving DecidableEq, Repr

/-- BKPT (R86). -/
structure CtlBArgs where
  code : BitVec 6
  guard : BitVec 3
  neg : Bool
  deriving DecidableEq, Repr

/-- Format M with a destination and fs (R45, R160, R189, R211). -/
structure MArgs where
  vd : BitVec 6
  wb : BitVec 5
  vo : BitVec 6
  mode : Bool
  guard : BitVec 3
  fs : Bool
  deriving DecidableEq, Repr

/-- Format M with a source, fs 0 (R162, R191). -/
structure MSArgs where
  vs : BitVec 6
  wb : BitVec 5
  vo : BitVec 6
  mode : Bool
  guard : BitVec 3
  deriving DecidableEq, Repr

/-- Scratchpad word with fs (R163). -/
structure SpArgs where
  vd : BitVec 6
  vo : BitVec 6
  guard : BitVec 3
  fs : Bool
  deriving DecidableEq, Repr

/-- Scratchpad store (R163). -/
structure SpSArgs where
  vs : BitVec 6
  vo : BitVec 6
  guard : BitVec 3
  deriving DecidableEq, Repr

/-- FENCE (R192). -/
structure FenArgs where
  sc : Bool
  guard : BitVec 3
  deriving DecidableEq, Repr

/-- Cache control (R166). -/
structure McArgs where
  wb : BitVec 5
  vo : BitVec 6
  mode : Bool
  guard : BitVec 3
  deriving DecidableEq, Repr

/-- QSEL, QERR (R211). -/
structure QbArgs where
  vq : BitVec 6
  guard : BitVec 3
  fs : Bool
  deriving DecidableEq, Repr

/-- GANG (R223). -/
structure GangFArgs where
  wm : BitVec 5
  g : BitVec 6
  guard : BitVec 3
  deriving DecidableEq, Repr

/-- MMAS, MMAG (R234). -/
structure MmaArgs where
  va : BitVec 6
  wc : BitVec 5
  tile : BitVec 3
  keep : Bool
  kbc : BitVec 2
  guard : BitVec 3
  fs : Bool
  deriving DecidableEq, Repr

/-- ACZ (R239). -/
structure TileArgs where
  tile : BitVec 3
  guard : BitVec 3
  fs : Bool
  deriving DecidableEq, Repr

/-- ACRD, ACWR (R239). -/
structure TileVArgs where
  vd : BitVec 6
  vp : BitVec 6
  tile : BitVec 3
  guard : BitVec 3
  fs : Bool
  deriving DecidableEq, Repr

/-- ACST, ACLD (R239). -/
structure TileKArgs where
  k : BitVec 3
  tile : BitVec 3
  guard : BitVec 3
  fs : Bool
  deriving DecidableEq, Repr

/-- MPRG (R241). -/
structure MprgArgs where
  vd : BitVec 6
  clr : Bool
  guard : BitVec 3
  deriving DecidableEq, Repr

/-- A word of format E with a guard only. -/
structure G0Args where
  guard : BitVec 3
  deriving DecidableEq, Repr

/-- CPYIN, CPYMC (R255, R259). -/
structure CpyPArgs where
  k : BitVec 3
  pd : BitVec 3
  ws : BitVec 5
  guard : BitVec 3
  deriving DecidableEq, Repr

/-- CPYOUT, CPYQ2 (R256, R257). -/
structure KWArgs where
  k : BitVec 3
  ws : BitVec 5
  guard : BitVec 3
  deriving DecidableEq, Repr

/-- Row command (R269). -/
structure KWrArgs where
  k : BitVec 3
  ws : BitVec 5
  guard : BitVec 3
  deriving DecidableEq, Repr

/-- ROWMAJ (R269). -/
structure RowMajArgs where
  k : BitVec 3
  ws : BitVec 5
  wc : BitVec 5
  guard : BitVec 3
  deriving DecidableEq, Repr

/-- RINGDEF (R253). -/
structure RingDefArgs where
  ring : BitVec 3
  wd : BitVec 5
  guard : BitVec 3
  deriving DecidableEq, Repr

/-- AWAITF (R261). -/
structure AwaitArgs where
  vd : BitVec 6
  ring : BitVec 3
  guard : BitVec 3
  fs : Bool
  deriving DecidableEq, Repr

/-- RELS (R262). -/
structure RelsArgs where
  va : BitVec 6
  ring : BitVec 3
  guard : BitVec 3
  deriving DecidableEq, Repr

/-- CPYST, ROWST (R264, R282). -/
structure StatVArgs where
  vd : BitVec 6
  ws : BitVec 5
  guard : BitVec 3
  deriving DecidableEq, Repr

/-- BARA, BARW (R295). -/
structure BarFArgs where
  bar : BitVec 4
  vc : BitVec 6
  guard : BitVec 3
  deriving DecidableEq, Repr

/-- BARS (R295). -/
structure BarsArgs where
  vd : BitVec 6
  bar : BitVec 4
  guard : BitVec 3
  deriving DecidableEq, Repr

/-- A destination and an address pair (R295, R330). -/
structure PairQArgs where
  vd : BitVec 6
  va : BitVec 6
  guard : BitVec 3
  fs : Bool
  deriving DecidableEq, Repr

/-- WAITV (R295). -/
structure WaitvArgs where
  vt : BitVec 6
  all : Bool
  k : BitVec 3
  vc : BitVec 6
  guard : BitVec 3
  deriving DecidableEq, Repr

/-- TLWAIT (R295). -/
structure TlwArgs where
  wn : BitVec 5
  tl : BitVec 2
  guard : BitVec 3
  deriving DecidableEq, Repr

/-- TLRD (R295). -/
structure TlrArgs where
  vd : BitVec 6
  tl : BitVec 2
  guard : BitVec 3
  deriving DecidableEq, Repr

/-- SLEEP (R295). -/
structure SlpArgs where
  vt : BitVec 6
  guard : BitVec 3
  deriving DecidableEq, Repr

/-- Range command (R318, R319). -/
structure RangeFArgs where
  wa : BitVec 5
  wb : BitVec 5
  ws : BitVec 5
  guard : BitVec 3
  deriving DecidableEq, Repr

/-- TQRY.op (R330). -/
structure QOpArgs where
  vd : BitVec 6
  ws : BitVec 5
  guard : BitVec 3
  fs : Bool
  deriving DecidableEq, Repr

/-- ENQ (R362). -/
structure EnqFArgs where
  pd : BitVec 3
  queue : BitVec 3
  vs : BitVec 6
  guard : BitVec 3
  deriving DecidableEq, Repr

/-- STQ (R362). -/
structure StqFArgs where
  vd : BitVec 6
  queue : BitVec 3
  guard : BitVec 3
  deriving DecidableEq, Repr

/-- DLAUNCH (R362). -/
structure DlArgs where
  pd : BitVec 3
  wd : BitVec 5
  wh : BitVec 5
  guard : BitVec 3
  deriving DecidableEq, Repr

/-- TRAP (R373). -/
structure TrapFArgs where
  code : BitVec 6
  guard : BitVec 3
  deriving DecidableEq, Repr

/-- SYSC (R373). -/
structure SyscFArgs where
  vd : BitVec 6
  va : BitVec 6
  guard : BitVec 3
  fs : Bool
  deriving DecidableEq, Repr

/-- S2V (R373). -/
structure S2vFArgs where
  vd : BitVec 6
  num : BitVec 6
  guard : BitVec 3
  deriving DecidableEq, Repr

/-- V2S (R373). -/
structure V2sFArgs where
  va : BitVec 6
  num : BitVec 6
  guard : BitVec 3
  deriving DecidableEq, Repr

/-- TLBI (R373). -/
structure TlbiFArgs where
  va : BitVec 6
  guard : BitVec 3
  deriving DecidableEq, Repr

/-- What an invalidation of translations covers (R393). -/
inductive InvScope where
  | page (va : Nat)
  | range (va len : Nat)
  | all
  deriving DecidableEq, Repr

/-- The resources and settings of a lifecycle command (R402, R405). -/
structure PartSpec where
  number : Nat
  cores : List Nat
  slices : List Nat
  /-- tier shares in units of 64 MiB -/
  shares : List Nat
  activates : Nat
  prioCeiling : Nat
  root : Nat
  fqBase : Nat
  fqDepth : Nat
  deriving DecidableEq, Repr

/-- One setting of a partition that system software writes (R334, R338, R378, R381, R403), or %pkg of the package (R406). -/
inductive Setting where
  | promotionHw (hw : Bool)
  | poolHw (hw : Bool)
  | faultHw (hw : Bool)
  | promoteAt (n : Nat)
  | demoteAt (n : Nat)
  | errorLimit (n : Nat)
  | poolWait (ticks : Nat)
  | watchdog (ticks : BitVec 32)
  | faultQueue (base depth : Nat)
  | faultTaken (consumer : Nat)
  | bandwidth (agent bytes ticks : Nat)
  | root (pa : BitVec 64)
  | pkg (n : BitVec 8)
  deriving DecidableEq, Repr

/-- One access of service core number core (R24): a load, a store of the given bytes, or a fence, each of an order (R171)
and a scope, 2 for .pkg or 3 for .sys (R170), a fence with its sc form (R179). The lists hold bytes. -/
inductive ServiceAccess where
  | load (core va size order scope : Nat)
  | store (core va : Nat) (bytes : List Nat) (order scope : Nat)
  | fence (core order scope : Nat) (sc : Bool)
  deriving DecidableEq, Repr

/-- The operations and events of the opcode table, in its order (each constructor's rule is named by LAWS.json's row). -/
inductive Instr where
  /-- CLAUSE_HEADER, R29. -/
  | clauseHeader (o : HeaderArgs)
  /-- HINT, R40. -/
  | hint (o : HintArgs)
  /-- IMMEDIATE_EXTENSION, R41. -/
  | immediateExtension (o : ExtArgs)
  /-- ARITHMETIC_PREFIX, R43. -/
  | arithmeticPrefix (o : ArithPrefixArgs)
  /-- MEMORY_PREFIX, R44. -/
  | memoryPrefix (o : MemPrefixArgs)
  /-- IADD, R94. -/
  | iadd (o : V3Args)
  /-- ISUB, R94. -/
  | isub (o : V3Args)
  /-- IMUL, R94. -/
  | imul (o : V3Args)
  /-- IMULHS, R94. -/
  | imulhs (o : V3Args)
  /-- IMULHU, R94. -/
  | imulhu (o : V3Args)
  /-- IMINS, R94. -/
  | imins (o : V3Args)
  /-- IMAXS, R94. -/
  | imaxs (o : V3Args)
  /-- IMINU, R94. -/
  | iminu (o : V3Args)
  /-- IMAXU, R94. -/
  | imaxu (o : V3Args)
  /-- IADDSS, R94. -/
  | iaddss (o : V3Args)
  /-- ISUBSS, R94. -/
  | isubss (o : V3Args)
  /-- IADD_I, R94. -/
  | iaddI (o : VIArgs)
  /-- ISUB_I, R94. -/
  | isubI (o : VIArgs)
  /-- IMUL_I, R94. -/
  | imulI (o : VIArgs)
  /-- IMULHS_I, R94. -/
  | imulhsI (o : VIArgs)
  /-- IMULHU_I, R94. -/
  | imulhuI (o : VIArgs)
  /-- IMINS_I, R94. -/
  | iminsI (o : VIArgs)
  /-- IMAXS_I, R94. -/
  | imaxsI (o : VIArgs)
  /-- IMINU_I, R94. -/
  | iminuI (o : VIArgs)
  /-- IMAXU_I, R94. -/
  | imaxuI (o : VIArgs)
  /-- IADDSS_I, R94. -/
  | iaddssI (o : VIArgs)
  /-- ISUBSS_I, R94. -/
  | isubssI (o : VIArgs)
  /-- AND, R95. -/
  | and (o : V3Args)
  /-- OR, R95. -/
  | or (o : V3Args)
  /-- XOR, R95. -/
  | xor (o : V3Args)
  /-- ANDN, R95. -/
  | andn (o : V3Args)
  /-- ORN, R95. -/
  | orn (o : V3Args)
  /-- XNOR, R95. -/
  | xnor (o : V3Args)
  /-- SHL, R95. -/
  | shl (o : V3Args)
  /-- SHR, R95. -/
  | shr (o : V3Args)
  /-- SAR, R95. -/
  | sar (o : V3Args)
  /-- ROTL, R95. -/
  | rotl (o : V3Args)
  /-- ROTR, R95. -/
  | rotr (o : V3Args)
  /-- AND_I, R95. -/
  | andI (o : VIArgs)
  /-- OR_I, R95. -/
  | orI (o : VIArgs)
  /-- XOR_I, R95. -/
  | xorI (o : VIArgs)
  /-- ANDN_I, R95. -/
  | andnI (o : VIArgs)
  /-- ORN_I, R95. -/
  | ornI (o : VIArgs)
  /-- XNOR_I, R95. -/
  | xnorI (o : VIArgs)
  /-- SHL_I, R95. -/
  | shlI (o : VIArgs)
  /-- SHR_I, R95. -/
  | shrI (o : VIArgs)
  /-- SAR_I, R95. -/
  | sarI (o : VIArgs)
  /-- ROTL_I, R95. -/
  | rotlI (o : VIArgs)
  /-- ROTR_I, R95. -/
  | rotrI (o : VIArgs)
  /-- POPC, R96. -/
  | popc (o : V2Args)
  /-- CLZ, R96. -/
  | clz (o : V2Args)
  /-- CTZ, R96. -/
  | ctz (o : V2Args)
  /-- BREV, R96. -/
  | brev (o : V2Args)
  /-- BFEZ, R97. -/
  | bfez (o : V3Args)
  /-- BFES, R97. -/
  | bfes (o : V3Args)
  /-- BFI, R97. -/
  | bfi (o : V3Args)
  /-- FSHL, R96. -/
  | fshl (o : V3Args)
  /-- BSEL, R98. -/
  | bsel (o : V3Args)
  /-- BSWAP, R96. -/
  | bswap (o : V2Args)
  /-- IMAD, R99. -/
  | imad (o : V3Args)
  /-- IMADHS, R99. -/
  | imadhs (o : V3Args)
  /-- IMADHU, R99. -/
  | imadhu (o : V3Args)
  /-- IMADW, R99. -/
  | imadw (o : V3Args)
  /-- IMADWS, R99. -/
  | imadws (o : V3Args)
  /-- ISAD, R99. -/
  | isad (o : V3Args)
  /-- IDP4, R99. -/
  | idp4 (o : V3Args)
  /-- IDP4Z, R99. -/
  | idp4z (o : V3Args)
  /-- MOV, R100. -/
  | mov (o : V2Args)
  /-- MOVI, R100. -/
  | movi (o : VI0Args)
  /-- SEL, R101. -/
  | sel (o : V3Args)
  /-- SEXT8, R100. -/
  | sext8 (o : V2Args)
  /-- SEXT16, R100. -/
  | sext16 (o : V2Args)
  /-- ZEXT8, R100. -/
  | zext8 (o : V2Args)
  /-- ZEXT16, R100. -/
  | zext16 (o : V2Args)
  /-- ADD64, R100. -/
  | add64 (o : V3Args)
  /-- SUB64, R100. -/
  | sub64 (o : V3Args)
  /-- SHL64, R100. -/
  | shl64 (o : V3Args)
  /-- SHR64, R100. -/
  | shr64 (o : V3Args)
  /-- WADD, R105. -/
  | wadd (o : W3Args)
  /-- WSUB, R105. -/
  | wsub (o : W3Args)
  /-- WMUL, R105. -/
  | wmul (o : W3Args)
  /-- WAND, R105. -/
  | wand (o : W3Args)
  /-- WOR, R105. -/
  | wor (o : W3Args)
  /-- WXOR, R105. -/
  | wxor (o : W3Args)
  /-- WSHL, R105. -/
  | wshl (o : W3Args)
  /-- WSHR, R105. -/
  | wshr (o : W3Args)
  /-- WMOV, R105. -/
  | wmov (o : W2Args)
  /-- WMOVI, R105. -/
  | wmovi (o : WIArgs)
  /-- V2W, R106. -/
  | v2w (o : WVArgs)
  /-- W2V, R106. -/
  | w2v (o : VWArgs)
  /-- WLEA, R105. -/
  | wlea (o : WLArgs)
  /-- FADD, R116. -/
  | fadd (o : V3Args)
  /-- FSUB, R116. -/
  | fsub (o : V3Args)
  /-- FMUL, R116. -/
  | fmul (o : V3Args)
  /-- FMIN, R117. -/
  | fmin (o : V3Args)
  /-- FMAX, R117. -/
  | fmax (o : V3Args)
  /-- FMINM, R117. -/
  | fminm (o : V3Args)
  /-- FMAXM, R117. -/
  | fmaxm (o : V3Args)
  /-- FCPYSGN, R116. -/
  | fcpysgn (o : V3Args)
  /-- FABS, R116. -/
  | fabs (o : V2Args)
  /-- FNEG, R116. -/
  | fneg (o : V2Args)
  /-- FSAT, R117. -/
  | fsat (o : V2Args)
  /-- FFMA, R118. -/
  | ffma (o : V3Args)
  /-- FFMS, R118. -/
  | ffms (o : V3Args)
  /-- FNMA, R118. -/
  | fnma (o : V3Args)
  /-- HADD2, R119. -/
  | hadd2 (o : V3Args)
  /-- HMUL2, R119. -/
  | hmul2 (o : V3Args)
  /-- HFMA2, R119. -/
  | hfma2 (o : V3Args)
  /-- HMIN2, R119. -/
  | hmin2 (o : V3Args)
  /-- HMAX2, R119. -/
  | hmax2 (o : V3Args)
  /-- BADD2, R119. -/
  | badd2 (o : V3Args)
  /-- BMUL2, R119. -/
  | bmul2 (o : V3Args)
  /-- BFMA2, R119. -/
  | bfma2 (o : V3Args)
  /-- BMIN2, R119. -/
  | bmin2 (o : V3Args)
  /-- BMAX2, R119. -/
  | bmax2 (o : V3Args)
  /-- F2IS, R121. -/
  | f2is (o : V2Args)
  /-- F2IZ, R121. -/
  | f2iz (o : V2Args)
  /-- IS2F, R120. -/
  | is2f (o : V2Args)
  /-- IZ2F, R120. -/
  | iz2f (o : V2Args)
  /-- F2H2, R120. -/
  | f2h2 (o : V3Args)
  /-- H2FL, R120. -/
  | h2fl (o : V2Args)
  /-- H2FH, R120. -/
  | h2fh (o : V2Args)
  /-- F2B2, R120. -/
  | f2b2 (o : V3Args)
  /-- B2FL, R120. -/
  | b2fl (o : V2Args)
  /-- B2FH, R120. -/
  | b2fh (o : V2Args)
  /-- FRND, R120. -/
  | frnd (o : V2Args)
  /-- FCLASS, R122. -/
  | fclass (o : V2Args)
  /-- FEXP, R122. -/
  | fexp (o : V2Args)
  /-- FLDEXP, R120. -/
  | fldexp (o : V3Args)
  /-- RCP, R123. -/
  | rcp (o : SfuArgs)
  /-- RSQ, R123. -/
  | rsq (o : SfuArgs)
  /-- SQRT, R123. -/
  | sqrt (o : SfuArgs)
  /-- EX2, R123. -/
  | ex2 (o : SfuArgs)
  /-- LG2, R123. -/
  | lg2 (o : SfuArgs)
  /-- SINT, R123. -/
  | sint (o : SfuArgs)
  /-- COST, R123. -/
  | cost (o : SfuArgs)
  /-- TANH, R123. -/
  | tanh (o : SfuArgs)
  /-- LOGI, R123. -/
  | logi (o : SfuArgs)
  /-- SFU_COMPLETE, R123. Here and in every other completion, bit 16 k + i of `keep` keeps the i-th destination register of
  the operation's k-th thread, where another instruction has written it since (R35). -/
  | sfuComplete (op keep : Nat)
  /-- SHFI, R131. -/
  | shfi (o : X3Args)
  /-- SHFU, R131. -/
  | shfu (o : X3Args)
  /-- SHFD, R131. -/
  | shfd (o : X3Args)
  /-- SHFX, R131. -/
  | shfx (o : X3Args)
  /-- QSWX, R131. -/
  | qswx (o : X2Args)
  /-- QSWY, R131. -/
  | qswy (o : X2Args)
  /-- QSWD, R131. -/
  | qswd (o : X2Args)
  /-- QBC, R131. -/
  | qbc (o : X3Args)
  /-- VANY, R132. -/
  | vany (o : XVoteArgs)
  /-- VALL, R132. -/
  | vall (o : XVoteArgs)
  /-- VBAL, R132. -/
  | vbal (o : XBalArgs)
  /-- MATCH, R132. -/
  | matchX (o : X2Args)
  /-- REDI, R133. -/
  | redi (o : XRedArgs)
  /-- REDF, R134. -/
  | redf (o : XRedArgs)
  /-- LMASK, R135. -/
  | lmask (o : XMaskArgs)
  /-- SGSET, R136. -/
  | sgset (o : XSetArgs)
  /-- CEQ, R73. -/
  | ceq (o : CmpArgs)
  /-- CNE, R73. -/
  | cne (o : CmpArgs)
  /-- CLT, R73. -/
  | clt (o : CmpArgs)
  /-- CLE, R73. -/
  | cle (o : CmpArgs)
  /-- CGT, R73. -/
  | cgt (o : CmpArgs)
  /-- CGE, R73. -/
  | cge (o : CmpArgs)
  /-- CTANY, R73. -/
  | ctany (o : CmpArgs)
  /-- CTNONE, R73. -/
  | ctnone (o : CmpArgs)
  /-- PAND, R76. -/
  | pand (o : P3Args)
  /-- POR, R76. -/
  | por (o : P3Args)
  /-- PXOR, R76. -/
  | pxor (o : P3Args)
  /-- PANDN, R76. -/
  | pandn (o : P3Args)
  /-- PNOT, R76. -/
  | pnot (o : P2Args)
  /-- PMOV, R76. -/
  | pmov (o : P2Args)
  /-- PSETI, R76. -/
  | pseti (o : PIArgs)
  /-- BRA, R77. -/
  | bra (o : BrArgs)
  /-- CALL, R77. -/
  | call (o : BrArgs)
  /-- BRX, R79. -/
  | brx (o : CtlJArgs)
  /-- CALLX, R79. -/
  | callx (o : CtlJArgs)
  /-- RET, R79. -/
  | ret (o : CtlGArgs)
  /-- EXIT, R82. -/
  | exit (o : CtlGArgs)
  /-- DEMOTE, R83. -/
  | demote (o : CtlGArgs)
  /-- YIELD, R84. -/
  | yield (o : CtlGArgs)
  /-- NOP, R85. -/
  | nop (o : CtlGArgs)
  /-- BKPT, R86. -/
  | bkpt (o : CtlBArgs)
  /-- LD8Z, R160. -/
  | ld8z (o : MArgs)
  /-- LD8S, R160. -/
  | ld8s (o : MArgs)
  /-- LD16Z, R160. -/
  | ld16z (o : MArgs)
  /-- LD16S, R160. -/
  | ld16s (o : MArgs)
  /-- LD32, R160. -/
  | ld32 (o : MArgs)
  /-- LD64, R160. -/
  | ld64 (o : MArgs)
  /-- LD128, R160. -/
  | ld128 (o : MArgs)
  /-- LDF32, R161. -/
  | ldf32 (o : MArgs)
  /-- LDFB16, R161. -/
  | ldfb16 (o : MArgs)
  /-- LOAD_COMPLETE, R160. -/
  | loadComplete (op keep : Nat)
  /-- REGISTER_SPILL, R141. -/
  | registerSpill (wg : Nat) (warp : Nat) (lane : Nat) (regs : BitVec 64)
  /-- ST8, R162. -/
  | st8 (o : MSArgs)
  /-- ST16, R162. -/
  | st16 (o : MSArgs)
  /-- ST32, R162. -/
  | st32 (o : MSArgs)
  /-- ST64, R162. -/
  | st64 (o : MSArgs)
  /-- ST128, R162. -/
  | st128 (o : MSArgs)
  /-- DEFERRED_STORE_PERFORM, R420. -/
  | deferredStorePerform (op : Nat)
  /-- LDS32, R163. -/
  | lds32 (o : SpArgs)
  /-- LDS64, R163. -/
  | lds64 (o : SpArgs)
  /-- LDS128, R163. -/
  | lds128 (o : SpArgs)
  /-- STS32, R163. -/
  | sts32 (o : SpSArgs)
  /-- STS64, R163. -/
  | sts64 (o : SpSArgs)
  /-- STS128, R163. -/
  | sts128 (o : SpSArgs)
  /-- ATSADD, R164. -/
  | atsadd (o : SpArgs)
  /-- ATSMAX, R164. -/
  | atsmax (o : SpArgs)
  /-- SPAD_LOAD_COMPLETE, R163. -/
  | spadLoadComplete (op keep : Nat)
  /-- AADD, R189. -/
  | aadd (o : MArgs)
  /-- AMINS, R189. -/
  | amins (o : MArgs)
  /-- AMAXS, R189. -/
  | amaxs (o : MArgs)
  /-- AMINZ, R189. -/
  | aminz (o : MArgs)
  /-- AMAXZ, R189. -/
  | amaxz (o : MArgs)
  /-- AAND, R189. -/
  | aand (o : MArgs)
  /-- AOR, R189. -/
  | aor (o : MArgs)
  /-- AXOR, R189. -/
  | axor (o : MArgs)
  /-- ASWP, R189. -/
  | aswp (o : MArgs)
  /-- ACAS, R189. -/
  | acas (o : MArgs)
  /-- AINCW, R189. -/
  | aincw (o : MArgs)
  /-- ADECW, R189. -/
  | adecw (o : MArgs)
  /-- AFADD, R190. -/
  | afadd (o : MArgs)
  /-- AADD64, R189. -/
  | aadd64 (o : MArgs)
  /-- ACAS64, R189. -/
  | acas64 (o : MArgs)
  /-- ASWP64, R189. -/
  | aswp64 (o : MArgs)
  /-- ATOM_COMPLETE, R189. -/
  | atomComplete (op keep : Nat)
  /-- RADD, R191. -/
  | radd (o : MSArgs)
  /-- RMINS, R191. -/
  | rmins (o : MSArgs)
  /-- RMAXS, R191. -/
  | rmaxs (o : MSArgs)
  /-- RMINZ, R191. -/
  | rminz (o : MSArgs)
  /-- RMAXZ, R191. -/
  | rmaxz (o : MSArgs)
  /-- RAND, R191. -/
  | rand (o : MSArgs)
  /-- ROR, R191. -/
  | ror (o : MSArgs)
  /-- RXOR, R191. -/
  | rxor (o : MSArgs)
  /-- RSWP, R191. -/
  | rswp (o : MSArgs)
  /-- RFADD, R191. -/
  | rfadd (o : MSArgs)
  /-- RADD64, R191. -/
  | radd64 (o : MSArgs)
  /-- FENCE, R192. -/
  | fence (o : FenArgs)
  /-- CFLUSH, R166. -/
  | cflush (o : McArgs)
  /-- CWB, R166. -/
  | cwb (o : McArgs)
  /-- CINV, R166. -/
  | cinv (o : McArgs)
  /-- PFL2, R166. -/
  | pfl2 (o : McArgs)
  /-- PFL1, R166. -/
  | pfl1 (o : McArgs)
  /-- QST, R213. -/
  | qst (o : MArgs)
  /-- QSEL, R215. -/
  | qsel (o : QbArgs)
  /-- QERR, R216. -/
  | qerr (o : QbArgs)
  /-- SBCHK, R217. -/
  | sbchk (o : MArgs)
  /-- MTA, R218. -/
  | mta (o : MArgs)
  /-- QBLK_COMPLETE, R211. -/
  | qblkComplete (op keep : Nat)
  /-- GANG, R223. -/
  | gang (o : GangFArgs)
  /-- MMAS, R234. -/
  | mmas (o : MmaArgs)
  /-- MMAG, R234. -/
  | mmag (o : MmaArgs)
  /-- RENDEZVOUS_ACCEPT, R224. -/
  | rendezvousAccept (wg : Nat) (gang : Nat)
  /-- RENDEZVOUS_TIMEOUT, R226. -/
  | rendezvousTimeout (wg : Nat) (gang : Nat)
  /-- MATRIX_OP_START, R233. -/
  | matrixOpStart (core : Nat)
  /-- MATRIX_K_STEP, R232. -/
  | matrixKStep (core : Nat)
  /-- B_FETCH_FAULT, R235. -/
  | bFetchFault (core : Nat)
  /-- MATRIX_REISSUE, R237. -/
  | matrixReissue (wg : Nat) (gang : Nat)
  /-- MATRIX_OP_COMPLETE, R233. -/
  | matrixOpComplete (core : Nat)
  /-- ACZ, R239. -/
  | acz (o : TileArgs)
  /-- ACRD, R239. -/
  | acrd (o : TileVArgs)
  /-- ACWR, R239. -/
  | acwr (o : TileVArgs)
  /-- ACST, R240. -/
  | acst (o : TileKArgs)
  /-- ACLD, R240. -/
  | acld (o : TileKArgs)
  /-- TILE_TRANSFER_COMPLETE, R239. -/
  | tileTransferComplete (op keep : Nat)
  /-- MPRG, R241. -/
  | mprg (o : MprgArgs)
  /-- MREL, R241. -/
  | mrel (o : G0Args)
  /-- CPYIN, R255. -/
  | cpyin (o : CpyPArgs)
  /-- CPYOUT, R256. -/
  | cpyout (o : KWArgs)
  /-- CPYMC, R259. -/
  | cpymc (o : CpyPArgs)
  /-- CPYQ2, R258. -/
  | cpyq2 (o : KWArgs)
  /-- RINGDEF, R253. -/
  | ringdef (o : RingDefArgs)
  /-- AWAITF, R261. -/
  | awaitf (o : AwaitArgs)
  /-- RELS, R262. -/
  | rels (o : RelsArgs)
  /-- CPYST, R264. -/
  | cpyst (o : StatVArgs)
  /-- COPY_COMMAND_START, R245. -/
  | copyCommandStart (core : Nat)
  /-- COPY_TRANSLATION_FAULT, R249. -/
  | copyTranslationFault (core : Nat) (num : Nat)
  /-- COPY_OP_COMPLETE, R249. -/
  | copyOpComplete (core : Nat) (num : Nat)
  /-- MULTICAST_DELIVERY, R260. -/
  | multicastDelivery (core : Nat) (num : Nat) (member : Nat)
  /-- RELEASE_REPORT_ARRIVAL, R263. -/
  | releaseReportArrival (idx : Nat)
  /-- AWAITF_SERVICE, R261. -/
  | awaitfService (op keep : Nat)
  /-- AWAITF_TIMEOUT, R261. -/
  | awaitfTimeout (op keep : Nat)
  /-- ROWCPY, R280. -/
  | rowcpy (o : KWrArgs)
  /-- ROWFILL, R280. -/
  | rowfill (o : KWrArgs)
  /-- ROWAND, R280. -/
  | rowand (o : KWrArgs)
  /-- ROWOR, R280. -/
  | rowor (o : KWrArgs)
  /-- ROWNOT, R280. -/
  | rownot (o : KWrArgs)
  /-- ROWMAJ, R280. -/
  | rowmaj (o : RowMajArgs)
  /-- ROWSAXPY, R281. -/
  | rowsaxpy (o : KWrArgs)
  /-- ROWST, R282. -/
  | rowst (o : StatVArgs)
  /-- ROW_PLAN, R273. -/
  | rowPlan (core : Nat) (num : Nat)
  /-- ROW_STACK_ACCEPT, R272. -/
  | rowStackAccept (core : Nat) (num : Nat)
  /-- ROW_SWEEP, R285. -/
  | rowSweep (core : Nat) (num : Nat)
  /-- ROW_STEP, R280. -/
  | rowStep (core : Nat) (num : Nat)
  /-- ROW_RESUME, R288. -/
  | rowResume (core : Nat) (num : Nat)
  /-- PER_BANK_REFRESH_DUE, R291. -/
  | perBankRefreshDue (stack : Nat) (pch : Nat)
  /-- POSTPONED_REFRESH_ISSUE, R291. -/
  | postponedRefreshIssue (stack : Nat) (pch : Nat)
  /-- ALL_BANK_REFRESH, R291. -/
  | allBankRefresh (stack : Nat) (pch : Nat)
  /-- BARA, R299. -/
  | bara (o : BarFArgs)
  /-- BARW, R299. -/
  | barw (o : BarFArgs)
  /-- BARS, R303. -/
  | bars (o : BarsArgs)
  /-- WARM, R304. -/
  | warm (o : PairQArgs)
  /-- WARM_COMPLETE, R304. -/
  | warmComplete (op keep : Nat)
  /-- WWAIT, R306. -/
  | wwait (o : G0Args)
  /-- SPURIOUS_TRIGGER, R305. -/
  | spuriousTrigger (wg : Nat) (warp : Nat) (lane : Nat)
  /-- WWAIT_TIMEOUT, R306. -/
  | wwaitTimeout (wg : Nat) (warp : Nat) (lane : Nat)
  /-- WAITV, R307. -/
  | waitv (o : WaitvArgs)
  /-- WAITV_EVALUATION, R307. -/
  | waitvEvaluation (wg : Nat) (warp : Nat) (lane : Nat)
  /-- WAITV_DEADLINE, R307. -/
  | waitvDeadline (wg : Nat) (warp : Nat) (lane : Nat)
  /-- TLWAIT, R309. -/
  | tlwait (o : TlwArgs)
  /-- TLRD, R310. -/
  | tlrd (o : TlrArgs)
  /-- SLEEP, R311. -/
  | sleep (o : SlpArgs)
  /-- SLEEP_EXPIRY, R311. -/
  | sleepExpiry (wg : Nat) (warp : Nat) (lane : Nat)
  /-- BARRIER_TIMER_EXPIRY, R302. -/
  | barrierTimerExpiry (wg : Nat) (bar : Nat)
  /-- PIN, R323. -/
  | pin (o : RangeFArgs)
  /-- UNPIN, R323. -/
  | unpin (o : RangeFArgs)
  /-- TAFF, R324. -/
  | taff (o : RangeFArgs)
  /-- MIGR, R325. -/
  | migr (o : RangeFArgs)
  /-- PGCNT, R331. -/
  | pgcnt (o : PairQArgs)
  /-- TWIN, R328. -/
  | twin (o : RangeFArgs)
  /-- TQRY, R332. -/
  | tqry (o : PairQArgs)
  /-- TQRY_OP, R333. -/
  | tqryOp (o : QOpArgs)
  /-- QUERY_COMPLETE, R330. -/
  | queryComplete (op keep : Nat)
  /-- TIER_OP_COMPLETE, R322. -/
  | tierOpComplete (core : Nat) (num : Nat)
  /-- MOVE_COPY_PHASE, R326. -/
  | moveCopyPhase (move : Nat)
  /-- MOVE_SWITCH, R326. -/
  | moveSwitch (move : Nat)
  /-- MOVE_COMMIT, R326. -/
  | moveCommit (move : Nat)
  /-- MOVE_RETIRE, R326. -/
  | moveRetire (move : Nat)
  /-- COUNTER_HALVING, R317. -/
  | counterHalving
  /-- PROMOTION_POLICY, R334. -/
  | promotionPolicy (part : Nat) (page : Nat)
  /-- FRAME_RETIREMENT, R334. -/
  | frameRetirement (part : Nat) (page : Nat)
  /-- POOL_REMOTE_REQUEST, R336. -/
  | poolRemoteRequest (granule : Nat) (excl : Bool)
  /-- POOL_GRANT, R336. -/
  | poolGrant (granule : Nat) (excl : Bool)
  /-- POOL_WAIT_LIMIT_EXPIRY, R338. -/
  | poolWaitLimitExpiry (op : Nat)
  /-- POOL_STATE_CHANGE, R338. -/
  | poolStateChange (granule : Nat) (state : Nat)
  /-- ENQ, R363. -/
  | enq (o : EnqFArgs)
  /-- STQ, R364. -/
  | stq (o : StqFArgs)
  /-- IDEMB, R365. -/
  | idemb (o : G0Args)
  /-- IDEME, R365. -/
  | ideme (o : G0Args)
  /-- DLAUNCH, R366. -/
  | dlaunch (o : DlArgs)
  /-- DESCRIPTOR_READ_COMPLETE, R366. -/
  | descriptorReadComplete (launch : Nat)
  /-- TRAP, R377. -/
  | trap (o : TrapFArgs)
  /-- SYSC, R382. -/
  | sysc (o : SyscFArgs)
  /-- SYSC_COMPLETE, R382. -/
  | syscComplete (op : Nat) (result : BitVec 64) (keep : Nat)
  /-- FCALL, R384. -/
  | fcall (o : G0Args)
  /-- RETT, R376. -/
  | rett (o : G0Args)
  /-- S2V, R386. -/
  | s2v (o : S2vFArgs)
  /-- V2S, R387. -/
  | v2s (o : V2sFArgs)
  /-- TLBI, R394. -/
  | tlbi (o : TlbiFArgs)
  /-- ISSUE_GROUP_FORMATION, R65. -/
  | issueGroupFormation (core : Nat) (picker : Nat)
  /-- YIELD_MARK_EXPIRY, R69. -/
  | yieldMarkExpiry (wg : Nat) (warp : Nat) (lane : Nat)
  /-- COLLECTIVE_STALL_TIMEOUT, R71. -/
  | collectiveStallTimeout (wg : Nat) (warp : Nat) (lane : Nat)
  /-- COLLECTIVE_HOLD_TIMEOUT, R72. -/
  | collectiveHoldTimeout (group : Nat)
  /-- TRAP_ENTRY, R375. -/
  | trapEntry (wg : Nat) (warp : Nat) (lane : Nat)
  /-- FAULT_RECORD_QUEUED, R379. -/
  | faultRecordQueued (core : Nat)
  /-- RESUME_ACTION, R380. -/
  | resumeAction (part : Nat) (seq : Nat)
  /-- SKIP_ACTION, R380. -/
  | skipAction (part : Nat) (seq : Nat)
  /-- DELIVER_ACTION, R380. -/
  | deliverAction (part : Nat) (seq : Nat)
  /-- KILL_ACTION, R380. -/
  | killAction (part : Nat) (seq : Nat)
  /-- ENGINE_FAULT_SERVICE, R249. -/
  | engineFaultService (part : Nat) (seq : Nat) (stop : Bool)
  /-- WATCHDOG_EXPIRY, R381. -/
  | watchdogExpiry (wg : Nat)
  /-- TLB_INVALIDATION, R393. -/
  | tlbInvalidation (part : Nat) (scope : InvScope)
  /-- WORKGROUP_START, R347. -/
  | workgroupStart (handle : Nat) (stage : Nat) (cores : List Nat)
  /-- STEAL_REQUEST, R351. -/
  | stealRequest (core : Nat)
  /-- PREEMPTION_REQUEST, R354. -/
  | preemptionRequest (handle : Nat) (stage : Nat)
  /-- DRAIN_BOUND_EXPIRY, R356. -/
  | drainBoundExpiry (wg : Nat)
  /-- WORKGROUP_SAVE, R357. -/
  | workgroupSave (wg : Nat)
  /-- WORKGROUP_FLUSH, R361. -/
  | workgroupFlush (wg : Nat)
  /-- WORKGROUP_RESUME, R358. -/
  | workgroupResume (wg : Nat) (core : Nat)
  /-- WORKGROUP_END, R353. -/
  | workgroupEnd (wg : Nat)
  /-- PIPELINE_COMPLETE, R353. -/
  | pipelineComplete (part : Nat) (handle : Nat)
  /-- BANDWIDTH_WINDOW_RELEASE, R403. -/
  | bandwidthWindowRelease (part : Nat)
  /-- PACKAGE_RESET, R406. -/
  | packageReset
  /-- GET_VERSION, R406. -/
  | getVersion (port : Nat)
  /-- GET_CAPABILITIES, R406. -/
  | getCapabilities (port : Nat)
  /-- NEGOTIATE_ALGORITHMS, R406. -/
  | negotiateAlgorithms (port : Nat) (asym : Nat) (hash : Nat)
  /-- GET_DIGESTS, R406. -/
  | getDigests (port : Nat)
  /-- GET_CERTIFICATE, R406. -/
  | getCertificate (port : Nat) (slot : Nat)
  /-- CHALLENGE, R406. -/
  | challenge (port : Nat) (nonce : Nat)
  /-- GET_MEASUREMENTS, R406. -/
  | getMeasurements (port : Nat) (index : Nat)
  /-- DEVICE_STATUS_WRITE, R398. -/
  | deviceStatusWrite (port : Nat) (fn : Nat) (vf : Nat) (val : Nat)
  /-- SEMAPHORE_CLAIM, R400. -/
  | semaphoreClaim (port0 : Bool) (port1 : Bool)
  /-- LEASE_RENEW, R399. -/
  | leaseRenew (port : Nat)
  /-- SEMAPHORE_RELEASE, R399. -/
  | semaphoreRelease (port : Nat)
  /-- LEASE_EXPIRY, R400. -/
  | leaseExpiry
  /-- CREATE_PARTITION, R405. -/
  | createPartition (port : Nat) (seq : Nat) (spec : PartSpec)
  /-- RESIZE_REMOVE_CORES, R405. -/
  | resizeRemoveCores (port : Nat) (seq : Nat) (part : Nat) (cores : List Nat)
  /-- RESIZE_REMOVE_SLICES, R405. -/
  | resizeRemoveSlices (port : Nat) (seq : Nat) (part : Nat) (slices : List Nat)
  /-- RESIZE_SHRINK_TIER_SHARE, R405. -/
  | resizeShrinkTierShare (port : Nat) (seq : Nat) (part : Nat) (tier : Nat) (share : Nat)
  /-- DESTROY_PARTITION, R405. -/
  | destroyPartition (port : Nat) (seq : Nat) (part : Nat)
  /-- SET_POWER_LIMIT, R409. -/
  | setPowerLimit (port : Nat) (seq : Nat) (watts : Nat)
  /-- FIRMWARE_UPDATE, R401. -/
  | firmwareUpdate (port : Nat) (seq : Nat) (version : Nat)
  /-- HOST_LAUNCH, R401. -/
  | hostLaunch (port : Nat) (part : Nat) (desc : BitVec 64)
  /-- CAPABILITY_TABLE_READ, R404. -/
  | capabilityTableRead (part : Nat)
  /-- POWER_CONTROLLER_UPDATE, R409. -/
  | powerControllerUpdate (factor : Nat)
  /-- THERMAL_THROTTLE, R409. -/
  | thermalThrottle (die : Nat)
  /-- THERMAL_RESET, R409. -/
  | thermalReset (die : Nat)
  /-- LIFETIME_COUNTER_FLUSH, R407. -/
  | lifetimeCounterFlush
  /-- RESERVED_OPCODE, R26. -/
  | reservedOpcode (word : BitVec 32)
  /-- SERVICE_CORE_ACCESS, R24. -/
  | serviceCoreAccess (part : Nat) (acc : ServiceAccess)
  /-- STORE_ACKNOWLEDGEMENT, R172. -/
  | storeAcknowledgement (op : Nat)
  /-- LINE_EVICTION, R145. -/
  | lineEviction (core : Nat) (l2 : Bool) (line : Nat)
  /-- REFRESH_END, R291. -/
  | refreshEnd (stack : Nat) (pch : Nat)
  /-- TIER_COMMAND_ACCEPT, R321. -/
  | tierCommandAccept (core : Nat) (num : Nat)
  /-- FRAME_GENERATION_CHANGE, R185. -/
  | frameGenerationChange (frame : Nat) (gen : Nat)
  /-- TLB_ENTRY_DROP, R392. -/
  | tlbEntryDrop (core : Nat) (page : Nat)
  /-- POWER_LOSS, R407. -/
  | powerLoss
  /-- MIGR_HOST_REPORT, R325. -/
  | migrHostReport (core : Nat) (num : Nat) (moved : Bool)
  /-- MANAGEMENT_PAGE_MOVE, R318. -/
  | managementPageMove (part : Nat) (page : Nat) (tier : Nat) (frame : Nat)
  /-- PARTITION_SETTING_WRITE, R334. -/
  | partitionSettingWrite (part : Nat) (setting : Setting)
  /-- RESIZE_ADD_RESOURCES, R405. -/
  | resizeAddResources (port : Nat) (seq : Nat) (part : Nat) (spec : PartSpec)
  deriving DecidableEq, Repr

end Sys2Proof
end

