-- ==== Sys2Proof/Machine/State.lean ====
section
/-!
DEFINITION. The state of one TD-CR9A package as plain data (01_machine R10 to R20 and each chapter's state), the
reasons for which the model stops, and the state after package reset (17_host R406, assumption log 2, 3).
Addresses inside keys are natural numbers; what software sees as a word is a bit vector.
-/

namespace Sys2Proof.Machine

/-- Why the machine stops. Only the model itself stops so: the spec gives none of these an effect. -/
inductive Fault where
  /-- Raised by `step` when the agenda holds a word instead of an event: the model's own misuse. Safe: no run of the
  device does this. -/
  | agendaWord
  deriving DecidableEq, Repr

/-- Why an instruction has no meaning here. -/
inductive Refusal where
  /-- Raised by an arm of `exec` whose instruction has no meaning yet. Safe. -/
  | notModelled (mnemonic : String)
  /-- Raised by `exec` of a word when no issue group is in flight: a word has no effect without the threads that
  reach it (R66). `step` never asks for this. Safe. -/
  | noIssueGroup
  deriving DecidableEq, Repr

/-! ## Threads -/

/-- A thread's name: its workgroup, its warp's number in the workgroup and its home lane (R18). -/
structure TRef where
  wg : Nat
  warp : Nat
  lane : Nat
  deriving DecidableEq, Repr

/-- The part of a clause that a thread stands in: the header's address and fields, and the words left (R29, R62). -/
structure ClauseCtx where
  hdr : DWord
  left : Nat
  fa : BitVec 4
  fb : BitVec 4
  y : Bool
  c : Bool
  deriving DecidableEq, Repr

/-- Where a fault's record and its resumptions stand (R369): the recorded pc, the resume point and the next address,
each with what is left of the clause there; none stands for a clause start. -/
structure Site where
  pc : DWord
  resume : DWord
  resumeIn : Option ClauseCtx
  next : DWord
  nextIn : Option ClauseCtx
  deriving DecidableEq, Repr

/-- R63. A parked thread keeps whether it was a helper. -/
inductive Status where
  | live
  | helper
  | parked (wasHelper : Bool)
  | exited
  deriving DecidableEq, Repr

/-- One WAITV condition (R307). -/
structure Cond where
  idx : Nat
  cond : Nat
  addr : Nat
  cmp : Word
  deriving DecidableEq, Repr

/-- R296: the hold of a thread that executed a wait word. -/
inductive Hold where
  /-- a BARW whose arrival counted in the present phase (R299) -/
  | barrier (b : Nat) (site : Site)
  /-- a held arrival (R298); `wait` says it came from BARW -/
  | arrival (b cnt : Nat) (wait : Bool) (since : Nat) (site : Site)
  | wwait (since : Nat)
  /-- R307: the enabled conditions, `.all`, the result register, the deadline in %ref ticks, the conditions that held at
  the last evaluation -/
  | waitv (conds : List Cond) (all : Bool) (vt : Nat) (deadline : Option Nat) (met : Nat) (site : Site)
  | tlwait (tl : Nat) (n : Nat)
  | sleep (until_ : Nat)
  deriving DecidableEq, Repr

/-- R304: a watch on a 128 B line. -/
structure Watch where
  line : Nat
  va : Nat
  coherent : Bool
  triggered : Bool
  order : Nat
  deriving DecidableEq, Repr

/-- R375: how far trap entry of a parked thread has come; `gang`: one record for its gang is still to be queued
(R235). -/
inductive Entry where
  | none
  | pending
  | gang
  /-- R380: the fetch of the handler has failed, and the record that says so is still to be queued -/
  | failed
  | recorded
  deriving DecidableEq, Repr

/-- A fault that a thread takes at the next clause start it reaches: of a spill (R141) or of a B fetch (R235). `pc`: the
word it records, none for the clause start itself; `flags`: the completion flags that fall then; `gang`: the gang whose
B fetch it was. -/
structure Late where
  code : BitVec 8
  addr : DWord
  reg : Nat
  mprog : Nat
  gen : BitVec 16
  pc : Option DWord
  flags : List (Option Nat)
  gang : Option Nat
  /-- when it was raised (R378) -/
  raised : Nat
  deriving DecidableEq, Repr

/-- One thread (R19). -/
structure Thread where
  warp : Nat
  lane : Nat
  pc : DWord
  /-- what is left of the clause when the thread stands at a resume point (R62) -/
  mid : Option ClauseCtx
  depth : Nat
  v : Vector Word 64
  /-- R35: how often each register has been written -/
  writes : Vector Nat 64
  /-- bit n: the store does not hold vn (R141) -/
  cold : BitVec 64
  p : BitVec 8
  flags : Vector Nat 12
  fpstat : BitVec 5
  status : Status
  /-- the issue group in flight that holds the thread -/
  group : Option Nat
  hold : Option Hold
  watch : Option Watch
  /-- R69: formations that have passed over the yield-marked thread -/
  yieldMark : Option Nat
  /-- R69: the clk at which the thread last became ready, and whether it was not ready when the pickers last looked -/
  readyAt : Nat
  unready : Bool
  /-- R71: since when the thread waits at a collective clause start -/
  collSince : Option Nat
  /-- R127: %sgw as read at the clause start -/
  sgw : Nat
  fcode : BitVec 8
  fpc : DWord
  faddr : DWord
  finfo : BitVec 32
  /-- R378: the generation that the fault's record carries -/
  fgen : BitVec 16
  /-- R378, R379: the moment when the fault was raised, noted at the end of the step -/
  raised : Option Nat
  /-- the outstanding operation whose fault is recorded, none for a fault of a word's issue -/
  forder : Option Nat
  site : Site
  /-- R127: the sub-group width of the clause in which the fault was raised -/
  siteSgw : Nat
  entry : Entry
  tpc : DWord
  tnext : DWord
  inh : Bool
  /-- R381: the status of a thread that the watchdog has stopped; its holds and records are kept -/
  watchdog : Option Status
  /-- R235, R381: the hold of a thread that has entered a handler from it -/
  kept : Option Hold
  restart : Option DWord
  taint : Bool
  /-- R224: matrix-product words issued since the warp's GANG -/
  products : Nat
  /-- R384: SYSC operations below this number must complete before a later one is delivered -/
  fcall : Nat
  late : Option Late
  deriving DecidableEq, Repr

/-! ## Memory -/

/-- R146. -/
inductive PageClass where
  | priv
  | readShared
  | coherent
  deriving DecidableEq, Repr

/-- A leaf page table entry with the page it maps (R388, R389). -/
structure Leaf where
  vbase : Nat
  size : Nat
  pa : Nat
  /-- physical address of the entry that the walk read -/
  pte : Nat
  gen : BitVec 16
  fold : BitVec 16
  format : Nat
  cls : PageClass
  open_ : Bool
  pin : Bool
  nodemote : Bool
  pref : Nat
  r : Bool
  w : Bool
  x : Bool
  metaBase : DWord
  deriving DecidableEq, Repr

/-- A TLB entry, tagged by partition (R392). -/
structure TlbEntry where
  part : Nat
  leaf : Leaf
  deriving DecidableEq, Repr

/-- R152: why a poisoned unit is poisoned. -/
inductive Poison where
  | uncorrectable
  | misdirected
  deriving DecidableEq, Repr

/-- R335. -/
inductive PoolState where
  | invalid
  | shared
  | exclusive
  | pinned
  | transfer
  deriving DecidableEq, Repr

/-- R315, R317: a home agent's entry for one frame. -/
structure Frame where
  base : Nat
  size : Nat
  owner : Option Nat
  gen : BitVec 16
  fold : BitVec 16
  pins : Nat
  rd : Nat
  wr : Nat
  errors : Nat
  retired : Bool
  /-- R324: the affinity bits of each of its mappings as the last TAFF left them, that of the command first -/
  affinity : List (Nat × Nat)
  deriving DecidableEq, Repr

/-- R335 to R337: the directory entry of one 4 KiB pool granule. -/
structure Granule where
  addr : Nat
  state : PoolState
  /-- R338: the accesses of fetches, fills and engines that are held for it: the agent, whether it writes, and since when -/
  held : List (List Nat × Bool × Nat)
  /-- a transfer request of another package that waits: exclusive or not (R337, R422) -/
  deferred : Option Bool
  /-- R339: another package may have stored to it since this one held it -/
  stale : Bool
  /-- since when a local request waits, and whether it is exclusive -/
  request : Option (Nat × Bool)
  deriving DecidableEq, Repr

/-- R145, R151, R152: one L1 line with the class, generation, fold key and seal of the page it was accessed through; each
valid byte with its offset, value and dirty bit. -/
structure L1Line where
  line : Nat
  cls : PageClass
  /-- R185: the generation under which its bytes were read or written -/
  gen : BitVec 16
  fold : BitVec 16
  open_ : Bool
  bytes : List (Nat × Byte × Bool)
  deriving DecidableEq, Repr

/-- R339: what another package has stored in a pool granule, which this one finds at its next grant: 4,096 bytes, the keys
of each 64 B unit (0 for none, and the fold key) and the poisoned units, by their number in the granule. -/
structure PoolNews where
  granule : Nat
  bytes : List Byte
  keys : List (Nat × BitVec 16)
  bad : List (Nat × Poison)
  deriving DecidableEq, Repr

/-- R14, R145, R151, R152: one L2 sector of 128 B, the fold key it was filled or written under and whether its page was open,
and its poisoned 64 B units. -/
structure L2Sector where
  sector : Nat
  fold : BitVec 16
  open_ : Bool
  dirty : Bool
  data : List Byte
  bad : List (Nat × Poison)
  deriving DecidableEq, Repr

/-- An access of a thread or engine after translation (R156 steps 1 to 4). -/
structure Access where
  va : Nat
  pa : Nat
  size : Nat
  leaf : Leaf
  order : Nat
  scope : Nat
  deriving DecidableEq, Repr

/-! ## Outstanding operations of threads (R33, R34, R162) -/

/-- What an outstanding operation does when it completes. -/
inductive OpKind where
  /-- R123: function, operand, rounding mode; `zero` when the mask predicate was false under z -/
  | sfu (fn : Nat) (a : Word) (rnd : Nat) (zero : Bool)
  /-- R160: the load word's func; R161: the access to the metadata entry of a decoding load -/
  | load (func : Nat) (acc : Access) (entry : Option Access)
  /-- R163, R164: func, offset, operand -/
  | spad (func addr : Nat) (x : Word) (helper : Bool)
  /-- R189: func, operand, compare operand -/
  | atom (func : Nat) (acc : Access) (x c : DWord) (helper : Bool)
  /-- R162: bytes to write -/
  | store (acc : Access) (bytes : List Byte)
  /-- R191 -/
  | redm (func : Nat) (acc : Access) (x : DWord)
  /-- R213: report and %fpstat bits; the two stores are operations of their own -/
  | qblk (result : List Word) (fp : BitVec 5)
  /-- R217: SBCHK of an entry -/
  | sbchk (format : Nat) (acc : Access)
  | warm (acc : Access)
  /-- R331: PGCNT (0), R332: TQRY (1), R333: TQRY.op (2) with the result taken at issue -/
  | query (kind va : Nat) (leaf : Option Leaf) (result : List Word)
  | sysc (num : Word) (args : List Word) (waitFor : Nat)
  | awaitf (ring : Nat) (since : Nat)
  /-- R239: ACZ 3, ACRD 4, ACWR 5, ACST 6, ACLD 7, with the position or command -/
  | tile (func tile : Nat) (pos : Word) (src : List Word) (cmd : List DWord)
  /-- R166: CFLUSH 1, CWB 2, CINV 3 -/
  | cache (func : Nat) (acc : Access)
  /-- R192: a FENCE: the parts of it that still wait for earlier accesses, acquire, release and sc -/
  | fence (acq rel sc : Bool) (scope : Nat)
  /-- a suppressed long-latency word (R83), completed at issue -/
  | nothing
  deriving DecidableEq, Repr

/-- One outstanding operation. Its number is its place in the program order of its thread. -/
structure PendingOp where
  id : Nat
  /-- the number of the first operation of the same word of the same issue group (R157, R188) -/
  word : Nat
  who : List TRef
  /-- the flag of each thread of `who` it counts on: 0 to 11, or none (R34) -/
  flag : Option Nat
  issued : Nat
  kind : OpKind
  /-- first destination register and how many -/
  dst : Nat
  ndst : Nat
  /-- R35: for each thread, how often each destination register had been written at issue -/
  old : List (List Nat)
  site : Site
  /-- R127: the sub-group width of the word's clause, for each thread -/
  widths : List Nat
  /-- R178: the core whose threads see the store already, and its place among the stores that were so seen; other agents
  see it once its home slice has acknowledged it -/
  seen : Option (Nat × Nat)
  /-- R420: since when a store waits for pool ownership -/
  waiting : Option Nat
  reported : Bool
  deriving DecidableEq, Repr

/-! ## Barriers, rings, gangs -/

/-- R297. -/
structure Barrier where
  phase : Bool
  arrivals : List TRef
  count : Nat
  fixed : Bool
  timer : Option Nat
  deriving DecidableEq, Repr

/-- R251. -/
inductive SlotState where
  | free
  | claimed
  | filled (phase err : Bool)
  | taken
  deriving DecidableEq, Repr

/-- R250, R251: a defined slot ring. -/
structure Ring where
  base : Nat
  slotBytes : Nat
  n : Nat
  readers : Nat
  mc : Bool
  srcm : Nat
  cmask : BitVec 16
  claim : Nat
  take : Nat
  release : Nat
  slots : List SlotState
  takeMask : BitVec 32
  relMasks : List (BitVec 32)
  /-- R259: the last release counter heard from each member, and the members that have ended or been flushed -/
  heard : List (Nat × Nat)
  gone : List Nat
  /-- identity, new at each definition and after a flush (R265) -/
  ident : Nat
  deriving DecidableEq, Repr

/-- One thread's issue of a matrix-product word (R224). -/
structure Arrival where
  who : TRef
  row : Nat
  guard : Bool
  /-- func, tile, keep, kbc -/
  func : Nat
  tile : Nat
  keep : Bool
  kbc : Nat
  control : DWord
  bAddr : DWord
  gang : BitVec 32
  /-- A registers; [] is a zero row -/
  regs : List Word
  flag : Option Nat
  since : Nat
  group : Nat
  site : Site
  /-- the word is the thread's n-th since its warp's GANG -/
  n : Nat
  deriving DecidableEq, Repr

/-- One accepted matrix-product operation (R232). -/
structure MatOp where
  id : Nat
  wg : Nat
  gang : Nat
  func : Nat
  tile : Nat
  keep : Bool
  kbc : Nat
  control : DWord
  bAddr : DWord
  /-- A rows: the row, counted from the operation's first, and its registers -/
  rows : List (Nat × List Word)
  issuers : List Arrival
  /-- the k-step it performs next -/
  first : Nat
  running : Bool
  finished : Bool
  /-- R237: it is the re-issue of an interrupted operation -/
  again : Bool
  deriving DecidableEq, Repr

/-- The state of a gang (R222, R231, R235, R236), named by its list word (g and members). -/
structure Gang where
  key : Nat
  steps : Nat
  pend : Bool
  tile : Nat
  kbc : Nat
  /-- R231: afmt, kb and rows -/
  held : Option (Nat × Nat × List (Nat × List Word))
  arrivals : List Arrival
  /-- R235: interrupted and cancelled operations kept for re-issue -/
  latch : List MatOp
  /-- R235: issuing threads that have not resumed since; once one has parked, whether it was inside a handler -/
  waiting : List (TRef × Option Bool)
  /-- R235, R378: the record that is still to be queued for the gang, and the threads that it is for -/
  report : Option (Late × List TRef)
  /-- R235: false while a fault that found every issuing thread exited waits for the resume action -/
  answered : Bool
  deriving DecidableEq, Repr

/-- One warp (R19). -/
structure Warp where
  id : Nat
  /-- 0 general, 1 copy, 2 matrix, 3 epilogue (R348) -/
  role : Nat
  budget : Nat
  picker : Nat
  slot : Nat
  w : Vector DWord 32
  sgw : Nat
  gang : BitVec 32
  /-- R104: its registers at the beginning of the clk, while two of its groups issue in that clk -/
  before : Option (Vector DWord 32)
  deriving DecidableEq, Repr

/-- R342: a stage descriptor. -/
structure Stage where
  entry : DWord
  threads : Nat
  roles : List Nat
  budgets : List Nat
  home : Nat
  pbase : Nat
  psz : Nat
  sbase : Nat
  idem : Bool
  coh : Nat
  orsv : Nat
  omask : BitVec 5
  inq : Nat
  win : Nat
  split : Nat
  barto : Nat
  colto : Nat
  grid : Nat
  arg : DWord
  rings : List DWord
  /-- next %wg value, home slots in use and the resident times of the last 16 ended workgroups (R348, R355) -/
  nextWg : Nat
  slotsUsed : List Nat
  times : List Nat
  deriving DecidableEq, Repr

/-- R341, R345: a work queue; positions started but not yet consumed. Its counters stand in its header in memory. -/
structure Queue where
  qbase : Nat
  depth : Nat
  started : List Nat
  deriving DecidableEq, Repr

/-- R341: a resident pipeline. -/
structure Pipeline where
  handle : Nat
  prio : Nat
  bound : Nat
  done : Nat
  stages : List Stage
  queues : List (Option Queue)
  deriving DecidableEq, Repr

/-- Where a workgroup stands (R349 to R361). -/
inductive Place where
  | resident
  | saved
  | flushed
  deriving DecidableEq, Repr

/-- R356: what the scheduler has decided for a victim: drained since a moment under a bound in µs, saved or flushed; a
workgroup to be saved or flushed issues no more words (R357, R361). -/
inductive Verdict where
  | none
  | drain (since bound : Nat)
  | save
  | flush
  deriving DecidableEq, Repr

/-- One workgroup (R17, R347). -/
structure Workgroup where
  id : Nat
  part : Nat
  handle : Nat
  stage : Nat
  member : Nat
  cohort : Nat
  csz : Nat
  seq : BitVec 32
  pos : BitVec 32
  item : List Word
  slot : Nat
  core : Nat
  place : Place
  started : Nat
  resident : Nat
  verdict : Verdict
  /-- R355: the latest IDEMB of any of its threads, else its start or restart -/
  idembAt : Nat
  /-- R381: the moment from which the watchdog counts, and the moment of an expiry whose record is still to be queued -/
  watchFrom : Nat
  watchReport : Option Nat
  marks : List Nat
  tvec : DWord
  /-- bytes of its window, and where the window lies in the core's portion (R143, R349) -/
  window : Nat
  winBase : Nat
  split : Nat
  scratch : List Host.Cell
  /-- nonzero tile elements by tile × 16384 + row × 128 + column -/
  tiles : List (Nat × Word)
  ownsTiles : Bool
  barriers : Vector Barrier 16
  rings : Vector (Option Ring) 8
  gangs : List Gang
  warps : List Warp
  threads : List Thread
  colto : Nat
  barto : Nat
  omask : BitVec 5
  idem : Bool
  home : Nat
  sbase : Nat
  deriving DecidableEq, Repr

/-! ## Issue groups -/

/-- A modifier word that has been read and not yet applied (R37). -/
structure Mods where
  hint : Option (DWord × HintArgs)
  arith : Option (DWord × ArithPrefixArgs)
  mem : Option (DWord × MemPrefixArgs)
  ext : Option (DWord × BitVec 26)
  deriving DecidableEq, Repr

/-- An issue group in flight (R65 to R67). -/
structure Group where
  id : Nat
  core : Nat
  picker : Nat
  /-- address of the next word -/
  pc : DWord
  atHeader : Bool
  ctx : ClauseCtx
  members : List TRef
  mods : Mods
  /-- the group's word could not issue (R67) -/
  held : Bool
  /-- R72: since when the members hold at an XLANE word for a parked one -/
  collHold : Option Nat
  /-- R224: the members have issued the matrix-product word at which the group holds -/
  sent : Bool
  deriving DecidableEq, Repr

/-! ## Engines -/

/-- Where an engine operation stands. -/
inductive Stage4 where
  | queued
  | offered
  | accepted
  | running
  /-- R288: from a moment on it performs a row step, before it looks at the queues again -/
  | resumed (ready : Nat)
  /-- R288: since when it is suspended, and since when its queues have been empty -/
  | suspended (since quiet : Nat)
  | faulted
  | done
  deriving DecidableEq, Repr

/-- A copy operation (R249, R254 to R260): kind 0 CPYIN, 1 CPYOUT, 2 CPYMC, 3 CPYQ2. -/
structure CopyOp where
  core : Nat
  num : Nat
  wg : Nat
  warp : Nat
  kind : Nat
  cmd : List DWord
  order : Nat
  scope : Nat
  reserved : Bool
  ring : Nat
  slot : Nat
  phase : Bool
  ident : Nat
  stage : Stage4
  fault : Nat
  partial_ : Bool
  dropped : BitVec 16
  exc : BitVec 5
  /-- units of the operation done so far, and the page format of its source once read -/
  units : Nat
  fmt : Option Nat
  /-- the ring at issue: base, slot bytes, n, mc, srcm, cmask -/
  shape : List Nat
  /-- CPYMC: members still to be delivered to, and the slot bytes read -/
  deliver : List Nat
  data : List Byte
  /-- R265: the window as it stood when the workgroup was flushed -/
  snap : Option (List Byte)
  handle : Nat
  pipeStage : Nat
  cohort : Nat
  homeSlot : Nat
  issuedBy : Nat
  part : Nat
  window : Nat
  deriving DecidableEq, Repr

/-- A row operation (R270 to R282). -/
structure RowOp where
  core : Nat
  num : Nat
  part : Nat
  wg : Nat
  warp : Nat
  handle : Nat
  homeSlot : Nat
  func : Nat
  cmd : List DWord
  wc : DWord
  order : Nat
  scope : Nat
  stage : Stage4
  /-- 0 subarray, 1 stack, 2 fallback, 3 not yet planned -/
  path : Nat
  /-- physical rows of dst, A, B, C -/
  rows : List (List Nat)
  leaves : List (List Leaf)
  coeffs : List Word
  swept : Bool
  upc : Nat
  susp : Nat
  /-- R277: the destination is to adopt the source's fold key, and has -/
  rekey : Bool
  adopted : Bool
  fault : Nat
  exc : BitVec 5
  lanes : List Word
  dstRead : Bool
  /-- R275: the pseudo-channels of the row step in progress, and its end -/
  busyOn : List (Nat × Nat)
  busyUntil : Nat
  issuedBy : Nat
  deriving DecidableEq, Repr

/-- A tier operation (R319 to R329). -/
structure TierOp where
  core : Nat
  num : Nat
  part : Nat
  wg : Nat
  warp : Nat
  handle : Nat
  homeSlot : Nat
  func : Nat
  addr : Nat
  len : Nat
  arg : BitVec 4
  cursor : Nat
  stage : Stage4
  fault : Nat
  done : Nat
  skipped : Nat
  sat : Bool
  host : Bool
  /-- moves of this operation not yet retired, pages forwarded to Zarkin OS -/
  moves : List Nat
  forwarded : Nat
  order : Nat
  scope : Nat
  issuedBy : Nat
  deriving DecidableEq, Repr

/-- Status of one number of a timeline: two words, high then low (R264, R282, R333). -/
structure OpStatus where
  num : Nat
  hi : Word
  lo : Word
  deriving DecidableEq, Repr

/-- A core's timeline (R23): numbers completed but not yet retired. -/
structure Timeline where
  next : Nat
  retired : Nat
  completed : List Nat
  deriving DecidableEq, Repr

/-- A page move (R326). -/
structure Move where
  id : Nat
  part : Nat
  leaf : Leaf
  target : Nat
  /-- 0 requested, 1 copy, 2 switch done, 3 committed -/
  phase : Nat
  /-- held writes: physical byte address and value, oldest first -/
  held : List (Nat × Byte)
  count : Nat
  /-- the timeline operation it belongs to: core and number -/
  op : Option (Nat × Nat)
  deriving DecidableEq, Repr

/-- Refresh state of one pseudo-channel (R291). -/
structure Refresh where
  stack : Nat
  pch : Nat
  nextBank : Nat
  nextDue : Nat
  postponed : List Nat
  /-- refreshes in progress: the bank, or none for all banks, and the end -/
  busy : List (Option Nat × Nat)
  forced : Bool
  deriving DecidableEq, Repr

/-- A fault record (R378). -/
structure FaultRecord where
  seq : Nat
  code : BitVec 8
  kind : Nat
  hfail : Bool
  core : Nat
  slot : Nat
  warp : Nat
  lane : Nat
  pc : DWord
  addr : DWord
  info : BitVec 32
  gen : BitVec 16
  wmask : BitVec 32
  handle : Nat
  ref : Nat
  /-- when the fault was raised (R379) -/
  raised : Nat
  /-- the partition whose queue takes it -/
  part : Nat
  wg : Nat
  who : List TRef
  deriving DecidableEq, Repr

/-- Assigned, unstarted work on a core's pending list (R351). -/
structure PendingWork where
  handle : Nat
  stage : Nat
  seq : Nat
  pos : Nat
  deriving DecidableEq, Repr

/-- One core (R16, R19). Its number is its place in the list of cores. -/
structure Core where
  l1 : List L1Line
  tlb : List TlbEntry
  lathist : Vector (BitVec 64) 8
  /-- %tl.copy, %tl.row, %tl.tier -/
  tl : Vector Timeline 3
  stats : Vector (List OpStatus) 3
  matrix : List MatOp
  /-- R379: records that the queue has not yet taken, and those still to be formed that name no parked thread -/
  records : List FaultRecord
  unformed : List FaultRecord
  pending : List PendingWork
  /-- R354: the pending request: handle, stage and priority -/
  request : Option (Nat × Nat × Nat)
  deriving DecidableEq, Repr

/-- R382: what Zarkin OS receives of a system call: its operation and the thread that made it, by core, slot, warp and
lane, the number and the arguments. -/
structure SystemCall where
  op : Nat
  core : Nat
  slot : Nat
  warp : Nat
  lane : Nat
  num : Word
  args : List Word
  deriving DecidableEq, Repr

/-- A partition (R402). -/
structure Partition where
  number : Nat
  cores : List Nat
  slices : List Nat
  shares : List Nat
  activates : Nat
  prioCeiling : Nat
  ptroot : DWord
  wdlim : BitVec 32
  promotionHw : Bool
  poolHw : Bool
  faultHw : Bool
  promoteAt : Nat
  demoteAt : Nat
  errorLimit : Nat
  poolWait : Nat
  /-- R403: agent or port, bytes and window in ticks -/
  bw : List (Nat × Nat × Nat)
  fqBase : Nat
  fqDepth : Nat
  fqProd : Nat
  fqCons : Nat
  fqSeq : Nat
  /-- records in the queue that Zarkin OS has not answered -/
  records : List FaultRecord
  launches : Nat
  pipelines : List Pipeline
  created : Nat
  keyGen : Nat
  /-- open streaming windows, oldest first: first byte and length (R328) -/
  windows : List (Nat × Nat)
  /-- frames reported to Zarkin OS for their corrected errors (R334) -/
  reported : List Nat
  /-- system calls delivered to Zarkin OS (R382) -/
  calls : List SystemCall
  /-- R405: a destroy command for it has begun -/
  destroying : Bool
  deriving DecidableEq, Repr

/-- A DLAUNCH whose descriptor reads are in progress (R366). -/
structure Launch where
  id : Nat
  group : Nat
  who : List TRef
  wg : Nat
  warp : Nat
  part : Nat
  desc : Nat
  pd : Nat
  wh : Nat
  site : Site
  issuedBy : Nat
  deriving DecidableEq, Repr

/-- A release report on its way to the source core of a multicast ring (R262, R263). -/
structure Report where
  src : Nat
  ring : Nat
  member : Nat
  l : Nat
  ident : Nat
  deriving DecidableEq, Repr

/-- R24, R420: a store or fence of a service core that waits: for pool ownership, or behind an earlier one that does. -/
structure ServiceStore where
  id : Nat
  core : Nat
  part : Nat
  va : Nat
  bytes : List Byte
  /-- a release comes after every earlier one of its core -/
  release : Bool
  /-- a release fence holds every later store; with sc, every later access -/
  fence : Bool
  sc : Bool
  deriving DecidableEq, Repr

/-- The management semaphore (R399, R400). -/
structure Semaphore where
  seq : BitVec 16
  owner : Nat
  leaseFrom : Nat
  /-- the port that lost the last tie -/
  lastLoser : Nat
  deriving DecidableEq, Repr

/-- Lifetime counters (R407), by source. -/
structure Lifetime where
  thermal : List (Nat × Nat)
  corrections : List (Nat × Nat)
  forcedRefresh : List (Nat × Nat)
  fallbackRows : List (Nat × Nat)
  regFills : List (Nat × Nat)
  moves : List (Nat × Nat)
  /-- R408: what was counted, in the order in which it happened: the counter (0 corrections, 1 forced refreshes, 2 fallback
  rows, 3 REG_FILL faults, 4 moves), its source and %ref -/
  events : List (Nat × Nat × Nat)
  deriving DecidableEq, Repr

/-- A lifecycle command (R405). -/
inductive HostCommand where
  | create (spec : PartSpec)
  | addResources (part : Nat) (spec : PartSpec)
  | removeCores (part : Nat) (cores : List Nat)
  | removeSlices (part : Nat) (slices : List Nat)
  | shrinkTier (part tier share : Nat)
  | destroy (part : Nat)
  deriving DecidableEq, Repr

/-- What the hosts see and set (R397 to R409). -/
structure HostSide where
  booted : Bool
  /-- measurements taken, by index: 1 boot ROM, 2 firmware, 3 Zarkin OS, 4 fused configuration (R406) -/
  measured : List (Nat × Nat)
  /-- the firmware version in flash -/
  firmware : Nat
  /-- device status of each virtio function: port, function, VF (0 is the PF) and value -/
  devStatus : List (Nat × Nat × Nat × Nat)
  /-- R398: the features that each virtio function and its driver have agreed on: port, function, VF and a mask -/
  features : List (Nat × Nat × Nat × Nat)
  /-- SPDM: per port, how far the connection has come: 1 version, 2 capabilities, 3 algorithms -/
  spdm : List (Nat × Nat)
  /-- SPDM responses, latest first: port, response code, payload -/
  responses : List (Nat × Nat × List Nat)
  sem : Semaphore
  powerLimit : Nat
  /-- factor f in eighths (R409) -/
  factor : Nat
  /-- answers to host commands, latest first: port and value (R401) -/
  answers : List (Nat × Nat)
  /-- R405: the lifecycle command that Zarkin OS is performing, with its port -/
  running : Option (Nat × HostCommand)
  /-- R405: those that have arrived since, oldest first, each with its port and the seq it carries -/
  waiting : List (Nat × Nat × HostCommand)
  /-- R407: the clk of the last power controller update, and the clk at which the lifetime counters are due in flash -/
  thermalAt : Nat
  flashDue : Nat
  tables : List (List Nat)
  deriving DecidableEq, Repr

/-- The whole package. -/
structure State where
  agenda : List Instr
  picks : List Nat
  /-- R104: whether the next words issue in one clk, where the spec lets them -/
  together : List Bool
  fresh : Nat
  nextId : Nat
  time : Nat
  /-- R317: halvings of the page counters so far -/
  halvings : Nat
  pkg : BitVec 8
  mem : List Host.Cell
  poison : List (Nat × Poison)
  /-- R151, R152: each 64 B unit that has been written, with the partition key (0 in an open frame) and the fold key that it
  was written under -/
  keyed : List (Nat × Nat × BitVec 16)
  /-- R152: what physics does to the units that the next sectors and rows hold when they are checked, in order: a mask of
  the units with one symbol in error, of those beyond correction, and of those in whose place another unit is delivered -/
  damage : List (Nat × Nat × Nat)
  cleared : List Nat
  frames : List Frame
  granules : List Granule
  /-- R339: what other packages have stored in granules that this one does not hold -/
  poolNews : List PoolNews
  l2 : List L2Sector
  l2tlb : List (Nat × TlbEntry)
  cores : List Core
  parts : List Partition
  wgs : List Workgroup
  groups : List Group
  ops : List PendingOp
  copies : List CopyOp
  rows : List RowOp
  tiers : List TierOp
  moves : List Move
  /-- R334: pages that the hardware policy has still to look at since the last halving or since space was freed -/
  due : List (Nat × Nat)
  refresh : List Refresh
  /-- activates of the last 100 ns: stack, time, partition, count, and whether a row step made them (R290) -/
  activates : List (Nat × Nat × Nat × Nat × Bool)
  launches : List Launch
  reports : List Report
  /-- answers to service-core loads (R24), latest first: the service core and the bytes -/
  serviceReads : List (Nat × List Byte)
  /-- R24, R420: stores of service cores that wait for pool ownership -/
  serviceStores : List ServiceStore
  lifetime : Lifetime
  flash : Lifetime
  host : HostSide
  deriving DecidableEq, Repr

/-! ## Reset -/

/-- A timeline at package reset: numbers start at 1, and the counter reads 0 (R23). -/
def Timeline.reset : Timeline := { next := 1, retired := 0, completed := [] }

/-- A core at package reset (R12, R23, R168). -/
def Core.reset : Core :=
  { l1 := [], tlb := [], lathist := Vector.replicate 8 0, tl := Vector.replicate 3 Timeline.reset,
    stats := Vector.replicate 3 [], matrix := [], records := [], unformed := [], pending := [], request := none }

def Lifetime.reset : Lifetime :=
  { thermal := [], corrections := [], forcedRefresh := [], fallbackRows := [], regFills := [], moves := [], events := [] }

def HostSide.reset : HostSide :=
  { booted := false, measured := [], firmware := 0, devStatus := [], features := [], spdm := [], responses := [],
    sem := { seq := 0, owner := 0, leaseFrom := 0, lastLoser := 0 }, powerLimit := 4200, factor := 8,
    answers := [], running := none, waiting := [], thermalAt := 0, flashDue := 20 * 2 ^ 30,
    tables := [] }

/-- The package right after reset: nothing has booted, no partition exists, no workgroup is placed (R12, R23, R168,
R398 to R400, R406; values the spec does not state: assumption log 1 to 5). -/
def State.reset : State :=
  { agenda := [], picks := [], together := [], fresh := 0, nextId := 0, time := 0, halvings := 0, pkg := 0, mem := [], poison := [], keyed := [], damage := [],
    cleared := [], frames := [], granules := [], poolNews := [], l2 := [], l2tlb := [], cores := List.replicate 128 Core.reset,
    parts := [], wgs := [], groups := [], ops := [], copies := [], rows := [], tiers := [], moves := [], due := [],
    refresh := [], activates := [], launches := [], reports := [], serviceReads := [], serviceStores := [],
    lifetime := Lifetime.reset, flash := Lifetime.reset, host := HostSide.reset }

end Sys2Proof.Machine
end

