-- ==== Sys2Proof/Machine/Bytes.lean ====
section
/-!
DEFINITION. Byte order, sign extension and lists of memory cells (00_scope R4; memory in one canonical form).
-/

namespace Sys2Proof.Machine

/-! ## Bytes and words (R4: little-endian) -/

/-- The n low bytes of x, lowest first. -/
def leBytes : Nat → Nat → List Byte
  | 0, _ => []
  | n + 1, x => BitVec.ofNat 8 x :: leBytes n (x / 256)

/-- The number that a list of bytes spells, lowest first. -/
def ofLe : List Byte → Nat
  | [] => 0
  | b :: bs => b.toNat + 256 * ofLe bs

/-- SExt(x, m) of R5. -/
def sext (m : Nat) {n : Nat} (x : BitVec n) : BitVec m := x.signExtend m

/-- ZExt(x, m) of R5. -/
def zext (m : Nat) {n : Nat} (x : BitVec n) : BitVec m := x.setWidth m

/-- A pair of registers as one value, the even register low (R48). -/
def pair64 (hi lo : Word) : DWord := hi ++ lo

/-- Bits [31:0] and [63:32]. -/
def lo32 (x : DWord) : Word := x.extractLsb' 0 32
def hi32 (x : DWord) : Word := x.extractLsb' 32 32

/-- Bits [hi:lo] of x as a number. -/
def field {n : Nat} (x : BitVec n) (hi lo : Nat) : Nat := x.toNat / 2 ^ lo % 2 ^ (hi + 1 - lo)

/-! ## Cells -/

/-- What an address that no cell lists reads as (assumption log 1). -/
def Memory.blank : Byte := 0

/-- The byte at an address. -/
def Memory.get : List Host.Cell → Nat → Byte
  | [], _ => Memory.blank
  | (k, b) :: r, a => if k = a then b else Memory.get r a

/-- Writing one byte keeps the list strictly rising and free of blank entries. -/
def Memory.set : List Host.Cell → Nat → Byte → List Host.Cell
  | [], a, b => if b = Memory.blank then [] else [(a, b)]
  | (k, v) :: r, a, b =>
    if a < k then if b = Memory.blank then (k, v) :: r else (a, b) :: (k, v) :: r
    else if a = k then if b = Memory.blank then r else (a, b) :: r
    else (k, v) :: Memory.set r a b

/-- The canonical form: addresses strictly rising, no blank entry. -/
abbrev Memory.wf (m : List Host.Cell) : Prop :=
  m.Pairwise (fun c d => c.1 < d.1) ∧ ∀ c ∈ m, c.2 ≠ Memory.blank

/-- The n bytes from an address on. -/
def Memory.getBytes (m : List Host.Cell) (a : Nat) : Nat → List Byte
  | 0 => []
  | n + 1 => Memory.get m a :: Memory.getBytes m (a + 1) n

/-- Writing bytes from an address on. -/
def Memory.setBytes (m : List Host.Cell) (a : Nat) : List Byte → List Host.Cell
  | [] => m
  | b :: bs => Memory.setBytes (Memory.set m a b) (a + 1) bs

/-- The n bytes from an address on become blank. -/
def Memory.clear (m : List Host.Cell) (a n : Nat) : List Host.Cell :=
  m.filter fun c => !(a ≤ c.1 && c.1 < a + n)

/-- Replaces part of a list of bytes. -/
def patch (data : List Byte) (off : Nat) (bs : List Byte) : List Byte :=
  data.take off ++ bs ++ data.drop (off + bs.length)

/-! ## Small helpers -/

/-- Two ranges, by first place and length, have something in common. -/
def overlaps (a m b n : Nat) : Bool := decide (a < b + n) && decide (b < a + m)

/-- The elements that satisfy a test, changed. -/
def updateWhere {α : Type} (p : α → Bool) (f : α → α) (l : List α) : List α := l.map fun x => if p x then f x else x

/-- The elements without repeats, in the order of their first occurrence. -/
def distinct {α : Type} [BEq α] : List α → List α
  | [] => []
  | x :: xs => x :: (distinct xs).filter (fun y => !(y == x))

/-- Adds to the count of a key. -/
def bump (k n : Nat) (l : List (Nat × Nat)) : List (Nat × Nat) :=
  if l.any (·.1 == k) then l.map fun x => if x.1 == k then (k, min (x.2 + n) (2 ^ 64 - 1)) else x
  else l ++ [(k, min n (2 ^ 64 - 1))]

/-- The count of a key. -/
def countOf (k : Nat) (l : List (Nat × Nat)) : Nat := ((l.find? (·.1 == k)).map (·.2)).getD 0

end Sys2Proof.Machine
end

