-- ==== Sys2Proof/Machine/Memory.lean ====
section
/-!
DEFINITION. Physical memory: the three tiers behind their home agents, page moves in progress, the end-to-end code,
L2 and L1 (01_machine R13 to R15, 07_memory R145 to R154, 14_tiers R315, R317, R326).
-/

namespace Sys2Proof.Machine

/-! ## Cores -/

/-- The state of core n. -/
def State.core (s : State) (n : Nat) : Core := s.cores.getD n Core.reset

/-- Changes core n. -/
def State.updCore (s : State) (n : Nat) (f : Core → Core) : State := { s with cores := s.cores.modify n f }

/-! ## Physical address map (assumption log 13) -/

/-- First byte of each tier; 3 stands for the rest of the physical space. -/
def tierBase : Nat → Nat
  | 0 => 0
  | 1 => 2 ^ 41
  | _ => 2 ^ 42

/-- Bytes of each tier (R13). -/
def tierSize : Nat → Nat
  | 0 => 2 ^ 39
  | 1 => 2 ^ 41
  | _ => 2 ^ 42

/-- The tier that holds a physical address; 3 for none. -/
def tierOf (pa : Nat) : Nat :=
  if pa < 2 ^ 39 then 0
  else if 2 ^ 41 ≤ pa ∧ pa < 2 ^ 42 then 1
  else if 2 ^ 42 ≤ pa ∧ pa < 2 ^ 43 then 2
  else 3

/-- R268: stack, pseudo-channel, bank and subarray of a tier-0 address. -/
def stackOf (pa : Nat) : Nat := pa / 2 ^ 21 % 8
def channelOf (pa : Nat) : Nat := pa / 2 ^ 11 % 64
def bankOf (pa : Nat) : Nat := pa / 2 ^ 17 % 16
def subarrayOf (pa : Nat) : Nat := pa / 2 ^ 33 % 64

/-! ## Frames (R315, R317) -/

/-- The frame table's entry for a physical address, by default one without owner, pins or counts (log 3); a page in a larger
frame that was freed has an entry before that frame's. -/
def State.frame? (s : State) (pa : Nat) : Option Frame :=
  s.frames.find? fun f => f.base ≤ pa && pa < f.base + f.size

def Frame.blank (base size : Nat) : Frame :=
  { base := base, size := size, owner := none, gen := 0, fold := 0, pins := 0, rd := 0, wr := 0, errors := 0,
    retired := false, affinity := [] }

def State.frame (s : State) (pa : Nat) : Frame := (s.frame? pa).getD (Frame.blank pa 0)

/-- Changes the listed entry of the frame that holds pa. -/
def State.mapFrame (s : State) (pa : Nat) (f : Frame → Frame) : State :=
  match s.frame? pa with
  | some g => { s with frames := updateWhere (fun x => x.base == g.base && x.size == g.size) f s.frames }
  | none => s

/-- Changes the entry of the frame that holds pa, adding one of the page's size where none is listed. -/
def State.updFrame (s : State) (pa base size : Nat) (f : Frame → Frame) : State :=
  if (s.frame? pa).isSome then s.mapFrame pa f else { s with frames := s.frames ++ [f (Frame.blank base size)] }

/-- R317, R326, R327: the frame whose counters an access to pa counts in: until a move commits, the page's is the one that it
leaves. -/
def State.counterAddr (s : State) (pa : Nat) : Nat :=
  match s.moves.find? fun m => m.phase == 2 && decide (m.target ≤ pa) && decide (pa < m.target + m.leaf.size) with
  | some m => m.leaf.pa + (pa - m.target)
  | none => pa

/-- R317: n sectors read from, or written to, the frame of pa. -/
def State.countAccess (s : State) (pa n : Nat) (write : Bool) : State :=
  s.mapFrame (s.counterAddr pa) fun f =>
    if write then { f with wr := min (f.wr + n) 65535 } else { f with rd := min (f.rd + n) 65535 }

/-- R315, R317: the partition that a frame is owned by; another owner starts with counters of its own. -/
def Frame.ownedBy (f : Frame) (part : Nat) : Frame :=
  if f.owner = some part then f
  else { f with owner := some part, rd := if f.owner.isSome then 0 else f.rd, wr := if f.owner.isSome then 0 else f.wr }

/-- R315: a frame that a partition's tables map has an entry, of its page's size, which holds its owner. A page that is
smaller than a freed frame gets an entry of its own, with the generation it finds there; a larger one takes the free entries
in it. -/
def State.noteFrame (s : State) (pa size part : Nat) : State :=
  match s.frame? pa with
  | some f =>
    if f.owner = some part ∧ (f.base ≠ pa ∨ size ≤ f.size) then s
    else if f.owner.isNone && (f.base != pa || decide (size < f.size)) then
      { s with frames := { f with base := pa, size := size, owner := some part } :: s.frames }
    else
      let inside (x : Frame) : Bool := x.owner.isNone && decide (pa < x.base) && decide (x.base + x.size ≤ pa + size)
      let s := s.mapFrame pa fun x => { x.ownedBy part with size := if f.base = pa then max x.size size else x.size }
      { s with frames := s.frames.filter fun x => !inside x }
  | none => { s with frames := s.frames ++ [(Frame.blank pa size).ownedBy part] }

/-- R408: something is counted in the lifetime counters. -/
def State.logEvent (s : State) (kind source : Nat) : State :=
  { s with lifetime := { s.lifetime with events := s.lifetime.events ++ [(kind, source, s.time / 20)] } }

/-! ## Activates (R290) -/

/-- Clk in n nanoseconds. -/
def clkOfNs (n : Nat) : Nat := n * 2

/-- Activates of a partition on a stack are noted; older ones drop out. -/
def State.noteActivates (s : State) (stack part n : Nat) (row : Bool) : State :=
  { s with activates := (stack, s.time, part, n, row) :: s.activates.filter fun a => decide (s.time < a.2.1 + clkOfNs 100) }

/-- R290: a demand access to a sector of tier 0 counts its activate, if it makes one (log 17). -/
def State.demandActivate (s : State) (pa : Nat) : State :=
  let counts := tierOf pa == 0 && Config.demandActivates (pa / 128) s.time
  { s with activates := if counts then (s.noteActivates (stackOf pa) ((s.frame pa).owner.getD 0) 1 false).activates else s.activates }

/-! ## Refresh (R291) -/

/-- A channel that no refresh has been noted for: the device's own bank falls due first, within one tREFIpb (R419, assumption
log 17). -/
def Refresh.blank (stack pch : Nat) : Refresh :=
  { stack := stack, pch := pch, nextBank := Config.refreshBank stack pch % 16,
    nextDue := Config.refreshStart stack pch % clkOfNs 122, postponed := [], busy := [], forced := false }

def State.refreshOf (s : State) (stack pch : Nat) : Refresh :=
  (s.refresh.find? fun x => x.stack == stack && x.pch == pch).getD (Refresh.blank stack pch)

/-- Every bank of the channel is refreshing. -/
def Refresh.allBusy (x : Refresh) : Bool := x.busy.any fun b => b.1.isNone

/-- A bank is refreshing. -/
def Refresh.bankBusy (x : Refresh) (bank : Nat) : Bool := x.busy.any fun b => b.1.isNone || b.1 == some bank

/-- R291: the bank that holds an address is being refreshed now, so an access to it waits. -/
def State.bankRefreshes (s : State) (pa : Nat) : Bool :=
  tierOf pa == 0 && (s.refreshOf (stackOf pa) (channelOf pa)).busy.any fun b =>
    (b.1.isNone || b.1 == some (bankOf pa)) && decide (s.time < b.2)

/-! ## Moves in progress (R326) -/

/-- The move whose source frame holds pa. -/
def State.moveAt? (s : State) (pa : Nat) : Option Move :=
  s.moves.find? fun m => m.leaf.pa ≤ pa && pa < m.leaf.pa + m.leaf.size

/-- Where an access that arrives at pa is served: from the switch on it is forwarded to the new frame. -/
def State.homeAddr (s : State) (pa : Nat) : Nat :=
  match s.moveAt? pa with
  | some m => if m.phase ≤ 1 then pa else m.target + (pa - m.leaf.pa)
  | none => pa

/-! ## Tiers -/

/-- R154: the cleared bit of an address. -/
def State.isCleared (s : State) (pa : Nat) : Bool := s.cleared.contains (pa / 4096)

/-- One byte as a home agent reads it: zero under a cleared bit (R154), else the latest held write (R326), else the
cell. -/
def State.tierByte (s : State) (pa : Nat) : Byte :=
  if s.isCleared pa then 0
  else match s.moveAt? pa with
    | some m => match m.held.reverse.find? (·.1 == pa) with
      | some c => c.2
      | none => Memory.get s.mem pa
    | none => Memory.get s.mem pa

def State.tierBytes (s : State) (pa n : Nat) : List Byte := (List.range n).map fun i => s.tierByte (pa + i)

/-- R151: the key of the partition that owns the frame of an address; 0 for a frame without owner. -/
def State.keyAt (s : State) (pa : Nat) : Nat :=
  ((s.frame pa).owner.bind fun n => (s.parts.find? (·.number == n)).map (·.keyGen)).getD 0

/-- R151: the key under which an address is written or read through a page: none, 0, through an open one. -/
def State.pageKey (s : State) (pa : Nat) (open_ : Bool) : Nat := if open_ then 0 else s.keyAt pa

/-- R154: the first write to a cleared 4 KiB stores zeros there, under the writer's keys, and clears the bit. -/
def State.unclear (s : State) (pa : Nat) (fold : BitVec 16) (open_ : Bool) : State :=
  if s.isCleared pa then
    let g := pa / 4096
    { s with mem := Memory.clear s.mem (g * 4096) 4096, cleared := s.cleared.filter (· != g),
             poison := s.poison.filter (fun x => x.1 / 64 != g),
             keyed := (List.range 64).map (fun i => (g * 64 + i, s.pageKey pa open_, fold))
               ++ s.keyed.filter (fun x => x.1 / 64 != g) }
  else s

/-- Bytes written by a home agent, within one 4 KiB, under a fold key: held while the page's copy phase runs (R326). -/
def State.tierWrite (s : State) (pa : Nat) (bs : List Byte) (fold : BitVec 16) (open_ : Bool) : State :=
  let s := s.unclear pa fold open_
  match s.moveAt? pa with
  | some m =>
    if m.phase == 1 then
      let hold (x : Move) : Move :=
        { x with held := x.held ++ bs.mapIdx (fun i b => (pa + i, b)), count := x.count + (bs.length + 127) / 128 }
      { s with moves := updateWhere (fun x => x.id == m.id) hold s.moves }
    else { s with mem := Memory.setBytes s.mem pa bs }
  | none => { s with mem := Memory.setBytes s.mem pa bs }

/-- R326: the stall window of 64 writes of the page at pa is full: a later write stalls until the window drains. -/
def State.windowFull (s : State) (pa : Nat) : Bool :=
  (s.moveAt? pa).any fun m => m.phase == 1 && decide (m.count ≥ 64)

/-! ## The end-to-end code (R152) -/

/-- The partition key and fold key that unit u was last written under; none for a unit never written, which every check
accepts (log 1). -/
def State.writtenUnder (s : State) (u : Nat) : Option (Nat × BitVec 16) := (s.keyed.find? (·.1 == u)).map (·.2)

/-- R151, R152: unit u is read under the keys that it was written under. -/
def State.sameKeys (s : State) (u : Nat) (fold : BitVec 16) (open_ : Bool) : Bool :=
  (s.writtenUnder u).all fun k => k == (s.pageKey (u * 64) open_, fold)

/-- R151: unit u was stored in clear and is read in clear. -/
def State.inClear (s : State) (u : Nat) (open_ : Bool) : Bool :=
  s.pageKey (u * 64) open_ == 0 && (s.writtenUnder u).all (·.1 == 0)

/-- The check of unit u when it enters L2 under a fold key; for a unit that is stored and read in clear, another fold key is a
wrong virtual symbol (log 8). -/
def State.checkUnit (s : State) (u : Nat) (fold : BitVec 16) (open_ : Bool) : Option Poison :=
  if s.isCleared (u * 64) then none
  else match s.poison.find? (·.1 == u) with
    | some x => some x.2
    | none =>
      if s.sameKeys u fold open_ then none
      else if s.inClear u open_ then some .misdirected
      else match Config.foldOutcome ((s.writtenUnder u).getD (0, 0)) (s.pageKey (u * 64) open_, fold) (s.tierBytes (u * 64) 64) with
        | 0 => some .misdirected
        | 1 => some .uncorrectable
        | _ => none

/-- R152: what the check finds of the damage to the i-th unit: beyond correction, or another unit delivered in its place,
whose column does not fit. -/
def damageOf (d : Nat × Nat × Nat) (i : Nat) : Option Poison :=
  if d.2.1.testBit i then some .uncorrectable else if d.2.2.testBit i then some .misdirected else none

/-- R152: the check of a unit with what physics has done to it. -/
def State.checkDamaged (s : State) (u : Nat) (fold : BitVec 16) (open_ : Bool) (hit : Option Poison) : Option Poison :=
  match s.checkUnit u fold open_ with
  | some p => some p
  | none => if s.isCleared (u * 64) then none else hit

/-- R152, R407, R334: one symbol of a unit is corrected: counted for its stack (0 to 7), tier 1 (8) or tier 2 (9), and for
its frame. -/
def State.noteCorrection (s : State) (u : Nat) : State :=
  let pa := u * 64
  let source := if tierOf pa = 0 then stackOf pa else 7 + tierOf pa
  let s := { s with lifetime := { s.lifetime with corrections := bump source 1 s.lifetime.corrections } }
  (s.mapFrame pa fun f => { f with errors := f.errors + 1 }).logEvent 0 source

/-- R152: the units that the check corrects, of those that it accepts: with a symbol in error, or of a sealed frame read
under another key. -/
def State.correctUnits (s : State) (units : List Nat) (one : Nat) (fold : BitVec 16) (open_ : Bool) (good : Nat → Bool) :
    State :=
  (units.zipIdx.filter fun x => (one.testBit x.2 || !s.sameKeys x.1 fold open_) && good x.1).foldl
    (fun s x => s.noteCorrection x.1) s

/-- The bytes of unit u as read under a fold key: of a unit that is stored or read sealed, decrypted under other keys
(R151). -/
def State.unitBytes (s : State) (u : Nat) (fold : BitVec 16) (open_ : Bool) : List Byte :=
  let raw := s.tierBytes (u * 64) 64
  if s.isCleared (u * 64) || s.inClear u open_ || s.sameKeys u fold open_ then raw
  else (List.range 64).map
    (Config.decryptByte ((s.writtenUnder u).getD (0, 0)) (s.pageKey (u * 64) open_, fold) (u % 32) raw)

/-- A unit stored under a page's key and fold key, poisoned or not. -/
def State.stampUnit (s : State) (u : Nat) (fold : BitVec 16) (open_ bad : Bool) : State :=
  { s with
    keyed := (u, s.pageKey (u * 64) open_, fold) :: s.keyed.filter (·.1 != u),
    poison := (if bad then [(u, Poison.uncorrectable)] else []) ++ s.poison.filter (·.1 != u) }

/-! ## L2 (R14, R145) -/

/-- Sector n = address / 128. -/
def State.l2Sector? (s : State) (n : Nat) : Option L2Sector := s.l2.find? (·.sector == n)

/-- A byte as L2 and the tier behind it hold it. -/
def State.l2Byte (s : State) (pa : Nat) : Byte :=
  match s.l2Sector? (pa / 128) with
  | some x => x.data.getD (pa % 128) 0
  | none => s.tierByte pa

def State.l2Bytes (s : State) (pa n : Nat) : List Byte := (List.range n).map fun i => s.l2Byte (pa + i)

/-- The data of sector n goes to its tier, under the keys of the page it was written through. -/
def State.l2Store (s : State) (n : Nat) (x : L2Sector) : State :=
  let s := ((s.demandActivate (n * 128)).tierWrite (n * 128) x.data x.fold x.open_).countAccess (n * 128) 1 true
  [0, 1].foldl (fun s k => s.stampUnit (n * 2 + k) x.fold x.open_ (x.bad.any (·.1 == n * 2 + k))) s

/-- Writes sector n to its tier if it is dirty and the write does not stall (R326); it stays valid, and then clean. -/
def State.l2WriteBack (s : State) (n : Nat) : State :=
  match s.l2Sector? n with
  | none => s
  | some x =>
    if !x.dirty || s.windowFull (n * 128) then s
    else
      let s := s.l2Store n x
      { s with l2 := updateWhere (fun y => y.sector == n) (fun y => { y with dirty := false }) s.l2 }

/-- Invalidates sector n in L2. -/
def State.l2Drop (s : State) (n : Nat) : State := { s with l2 := s.l2.filter (·.sector != n) }

/-- Sector n leaves L2, its dirty data written on; while that write stalls, it stays. -/
def State.l2Leave (s : State) (n : Nat) : State :=
  let s := s.l2WriteBack n
  if (s.l2Sector? n).any (·.dirty) then s else s.l2Drop n

/-- R14: the slices that an address hashes over: those of the partition that owns its frame, or all 64. -/
def State.slicesAt (s : State) (pa : Nat) : List Nat :=
  match (s.frame pa).owner.bind fun n => s.parts.find? (·.number == n) with
  | some p => if p.slices.isEmpty then List.range 64 else p.slices
  | none => List.range 64

/-- R14, R139: the home slice of a line of 1,024 B, number n = address / 1,024. -/
def State.homeSlice (s : State) (n : Nat) : Nat :=
  let l := s.slicesAt (n * 1024)
  l.getD (Config.l2Hash n % l.length) 0

/-- The lines of L2 that are allocated: those that hold a sector. -/
def State.l2Lines (s : State) : List Nat := distinct (s.l2.map (·.sector / 8))

/-- R145: a whole line leaves L2 for its tier. A write that stalls there (R326) waits at its home agent behind those that the
window holds, and no longer in L2. -/
def State.l2Evict (s : State) (line : Nat) : State :=
  (List.range 8).foldl (fun s k => match s.l2Sector? (line * 8 + k) with
    | some x => (if x.dirty then s.l2Store (line * 8 + k) x else s).l2Drop (line * 8 + k)
    | none => s) s

/-- R14: a line of sector n has room in its slice of 4 MiB; a full slice evicts lines of the device's choice. -/
def State.l2Room (s : State) (n : Nat) : State :=
  if s.l2.length < 4096 || s.l2.any (·.sector / 8 == n / 8) then s
  else
    let inSlice := s.l2Lines.filter fun l => s.homeSlice l == s.homeSlice (n / 8)
    let first := Config.freeNat s.fresh % inSlice.length
    let leave := ((inSlice ++ inSlice).drop first).take (inSlice.length + 1 - 4096)
    { leave.foldl State.l2Evict s with fresh := s.fresh + 1 }

/-- Brings sector n into L2 under a page's fold key (R14, R145, R152, R317). -/
def State.l2Fill (s : State) (n : Nat) (fold : BitVec 16) (open_ : Bool) : State :=
  match s.l2Sector? n with
  | some _ => s
  | none =>
    let s := (s.l2Room n).demandActivate (n * 128)
    let d := s.damage.headD (0, 0, 0)
    let bad := [n * 2, n * 2 + 1].filterMap fun u =>
      (s.checkDamaged u fold open_ (damageOf d (u % 2))).map fun p => (u, p)
    let data := s.unitBytes (n * 2) fold open_ ++ s.unitBytes (n * 2 + 1) fold open_
    let good (u : Nat) : Bool := !(bad.any (·.1 == u)) && !s.isCleared (u * 64)
    let s := ((s.countAccess (n * 128) 1 false).correctUnits [n * 2, n * 2 + 1] d.1 fold open_ good)
    let s := { s with damage := s.damage.tail }
    { s with l2 := s.l2 ++ [{ sector := n, fold := fold, open_ := open_, dirty := false, data := data, bad := bad }] }

/-- The units that a write of len bytes at pa covers whole. -/
def wholeUnits (pa len : Nat) (u : Nat) : Bool := decide (pa ≤ u * 64) && decide (u * 64 + 64 ≤ pa + len)

/-- Bytes written into L2, within one sector; a whole unit loses its poison (R152). -/
def State.l2Write (s : State) (pa : Nat) (bs : List Byte) (fold : BitVec 16) (open_ : Bool) : State :=
  let n := pa / 128
  let s := s.l2Fill n fold open_
  let store (x : L2Sector) : L2Sector :=
    { x with dirty := true, fold := fold, open_ := open_, data := patch x.data (pa % 128) bs,
             bad := x.bad.filter (fun u => !(wholeUnits pa bs.length u.1)) }
  { s with l2 := updateWhere (fun x => x.sector == n) store s.l2 }

/-- R151: the fold key and seal that an address is stored under: those of its sector in L2, else of its unit when it was last
written, else of its frame, which is sealed by default. -/
def State.keysOf (s : State) (pa : Nat) : BitVec 16 × Bool := match s.l2Sector? (pa / 128), s.writtenUnder (pa / 64) with
  | some x, _ => (x.fold, x.open_)
  | none, some k => (k.2, k.1 == 0)
  | none, none => ((s.frame pa).fold, false)

/-- Bytes that the device writes at a physical address of its own accord, within one sector: the keys stay (log 8). -/
def State.l2Patch (s : State) (pa : Nat) (bs : List Byte) : State := s.l2Write pa bs (s.keysOf pa).1 (s.keysOf pa).2

/-- The poison met by a read of n bytes at pa, after the fill. -/
def State.poisonAt (s : State) (pa n : Nat) : Option Poison :=
  match s.l2Sector? (pa / 128) with
  | some x => (x.bad.find? fun u => decide (u.1 * 64 < pa + n) && decide (pa < u.1 * 64 + 64)).map (·.2)
  | none => none

/-! ## L1 (R145, R146) -/

/-- Whether a line holds dirty bytes. -/
def L1Line.isDirty (l : L1Line) : Bool := l.bytes.any (·.2.2)

def Core.l1Line? (c : Core) (line : Nat) : Option L1Line := c.l1.find? (·.line == line)

/-- The value of a byte that core n's L1 holds. -/
def State.l1Byte? (s : State) (n pa : Nat) : Option Byte :=
  match (s.core n).l1Line? (pa / 128) with
  | some l => (l.bytes.find? (·.1 == pa % 128)).map (·.2.1)
  | none => none

/-- The byte at pa of a store that the threads of core n see before its home slice has acknowledged it, with its place
among such stores (R178). -/
def State.earlyByte (s : State) (n pa : Nat) (o : PendingOp) : Option (Nat × Byte) :=
  match o.seen, o.kind with
  | some (k, c), .store a bs =>
    let base := s.homeAddr a.pa
    if c = n ∧ base ≤ pa ∧ pa < base + bs.length then some (k, bs.getD (pa - base) 0) else none
  | _, _ => none

/-- The latest store to a byte that the threads of core n see early. -/
def State.early? (s : State) (n pa : Nat) : Option Byte :=
  ((s.ops.filterMap (s.earlyByte n pa)).foldl (fun (m : Option (Nat × Byte)) x => match m with
    | some y => if y.1 < x.1 then some x else m
    | none => some x) none).map (·.2)

/-- A byte as a thread of core n reads it (R146, R178). -/
def State.coreByte (s : State) (n pa : Nat) : Byte := (s.early? n pa).getD ((s.l1Byte? n pa).getD (s.l2Byte pa))

def State.coreBytes (s : State) (n pa len : Nat) : List Byte := (List.range len).map fun i => s.coreByte n (pa + i)

/-- The dirty bytes of unit k (0 or 1) of a line. -/
def L1Line.dirtyIn (l : L1Line) (k : Nat) : List (Nat × Byte) :=
  (l.bytes.filter fun b => b.2.2 && b.1 / 64 == k).map fun b => (b.1, b.2.1)

/-- The dirty bytes of unit k of a line go to L2; a unit that is dirty throughout is written whole (R152). -/
def State.l1WriteUnit (s : State) (l : L1Line) (k : Nat) : State :=
  let d := l.dirtyIn k
  let whole := (List.range 64).filterMap fun i => (d.find? (·.1 == k * 64 + i)).map (·.2)
  if whole.length = 64 then s.l2Write (l.line * 128 + k * 64) whole l.fold l.open_
  else d.foldl (fun s b => s.l2Write (l.line * 128 + b.1) [b.2] l.fold l.open_) s

/-- R185, R326: a generation that the home agent of a line accepts: its frame's, or that of a page which moves there. -/
def State.genCurrent (s : State) (line : Nat) (gen : BitVec 16) : Bool :=
  (s.frame (line * 128)).gen == gen
    || s.moves.any fun m => decide (m.phase ≥ 2) && m.leaf.gen == gen && decide (m.target ≤ line * 128)
      && decide (line * 128 < m.target + m.leaf.size)

/-- The dirty bytes of a line go to L2 under the page's fold key, and stay in L1 clean; bytes that carry an earlier
generation than the frame's take no effect (R185, log 26). -/
def State.l1WriteBack (s : State) (n line : Nat) : State :=
  match (s.core n).l1Line? line with
  | none => s
  | some l =>
    let s := if s.genCurrent line l.gen then (s.l1WriteUnit l 0).l1WriteUnit l 1 else s
    let clean (x : L1Line) : L1Line := { x with bytes := x.bytes.map fun b => (b.1, b.2.1, false) }
    s.updCore n fun c => { c with l1 := updateWhere (fun x => x.line == line) clean c.l1 }

/-- Invalidates a line in core n's L1. -/
def State.l1Drop (s : State) (n line : Nat) : State :=
  s.updCore n fun c => { c with l1 := c.l1.filter (·.line != line) }

/-- R185: an access of a generation meets no byte that core n's L1 got under another one: the line goes, and of its dirty bytes
only those of a generation that the home agent accepts take effect. -/
def State.l1Renew (s : State) (n line : Nat) (gen : BitVec 16) : State :=
  match (s.core n).l1Line? line with
  | none => s
  | some l => if l.gen == gen then s else (s.l1WriteBack n line).l1Drop n line

/-- R15: the lines that core n's L1 holds: what the split of its resident workgroups leaves of the 2 MiB array. -/
def State.l1Capacity (s : State) (n : Nat) : Nat :=
  let split := ((s.wgs.find? fun w => w.core == n && w.place == .resident).map (·.split)).getD 0
  (2097152 - min split 7 * 262144) / 128

/-- R15, R145: core n's L1 is brought down to k lines; the device chooses those that leave, and what is dirty in them is
written on. -/
def State.l1Trim (s : State) (n k : Nat) : State :=
  (List.range ((s.core n).l1.length - k)).foldl (fun s _ =>
    match (s.core n).l1[Config.freeNat s.fresh % (s.core n).l1.length]? with
    | some l => { (s.l1WriteBack n l.line).l1Drop n l.line with fresh := s.fresh + 1 }
    | none => s) s

/-- R15: core n's L1 has room for a line. -/
def State.l1Room (s : State) (n line : Nat) : State :=
  if ((s.core n).l1Line? line).isSome then s else s.l1Trim n (s.l1Capacity n - 1)

/-- Core n's L1 gets the line, its own valid bytes kept; a unit that is poisoned in L2 stays out of it (R152). -/
def State.l1Fill (s : State) (n line : Nat) (l : Leaf) : State :=
  let s := (s.l1Renew n line l.gen).l1Room n line
  let old := (s.core n).l1Line? line
  let clean := (List.range 128).filter fun i =>
    (s.l1Byte? n (line * 128 + i)).isSome || (s.poisonAt (line * 128 + i) 1).isNone
  let full := clean.map fun i =>
    (i, s.coreByte n (line * 128 + i), old.any fun l => l.bytes.any fun b => b.1 == i && b.2.2)
  s.updCore n fun c =>
    { c with l1 := { line := line, cls := l.cls, gen := l.gen, fold := l.fold, open_ := l.open_, bytes := full }
        :: c.l1.filter (·.line != line) }

/-- Bytes stored into core n's L1: into the bytes it holds only, or into a line it allocates without a fill, dirty. -/
def State.l1Write (s : State) (n pa : Nat) (bs : List Byte) (leaf : Leaf) (dirty : Bool) : State :=
  let line := pa / 128
  let off := pa % 128
  let hit (i : Nat) : Bool := decide (off ≤ i) && decide (i < off + bs.length)
  let new := bs.mapIdx fun i b => (off + i, b, dirty)
  let s := s.l1Renew n line leaf.gen
  match (s.core n).l1Line? line with
  | some l =>
    let kept := if dirty then new else new.filter fun b => l.bytes.any (·.1 == b.1)
    let l' := { l with fold := leaf.fold, open_ := leaf.open_,
                       bytes := kept ++ l.bytes.filter (fun b => !hit b.1) }
    s.updCore n fun c => { c with l1 := l' :: c.l1.filter (·.line != line) }
  | none =>
    if dirty then
      (s.l1Room n line).updCore n fun c =>
        { c with l1 := { line := line, cls := leaf.cls, gen := leaf.gen, fold := leaf.fold, open_ := leaf.open_,
                         bytes := new } :: c.l1 }
    else s

/-- R172, release at .die or wider: every dirty private line of core n goes to L2. -/
def State.l1WriteBackAll (s : State) (n : Nat) : State :=
  ((s.core n).l1.filter (·.isDirty)).foldl (fun s l => s.l1WriteBack n l.line) s

/-- R172, acquire at .die or wider: every read-shared line of core n is discarded. -/
def State.l1Discard (s : State) (n : Nat) : State :=
  s.updCore n fun c => { c with l1 := c.l1.filter (·.cls != .readShared) }

/-- R146: the directory invalidates a line in every core's L1 but one. -/
def State.invalidateOthers (s : State) (n line : Nat) : State :=
  { s with cores := s.cores.mapIdx fun k c => if k == n then c else { c with l1 := c.l1.filter (·.line != line) } }

/-! ## Watches (R305) -/

/-- R305, R306: an armed watch is triggered; a thread that holds on it goes on, and its watch is disarmed. -/
def Thread.trigger (t : Thread) (now : Nat) : Thread :=
  match t.watch, t.hold with
  | some _, some (.wwait _) => { t with watch := none, hold := none, readyAt := now }
  | some w, _ => { t with watch := some { w with triggered := true } }
  | none, _ => t

/-- Every armed watch that satisfies a test is triggered. -/
def State.triggerWhere (s : State) (hit : Workgroup → Watch → Bool) : State :=
  let see (g : Workgroup) : Workgroup :=
    { g with threads := updateWhere (fun t => t.watch.any (hit g)) (·.trigger s.time) g.threads }
  { s with wgs := s.wgs.map see }

/-- Every armed watch on a line is triggered, of coherent pages only where `coh` says so. -/
def State.triggerWatches (s : State) (line : Nat) (coh : Bool) : State :=
  s.triggerWhere fun _ w => w.line == line && (!coh || w.coherent)

end Sys2Proof.Machine
end

