-- ==== Sys2Proof/Machine/Translate.lean ====
section
/-!
DEFINITION. Translation of virtual addresses: page table entries, walks, TLBs (16_system R388 to R393), and the fault
codes (R371).
-/

namespace Sys2Proof.Machine

/-! ## Fault codes (R371) -/

def codeIllegalOpcode : BitVec 8 := 0x01
def codeIllegalEncoding : BitVec 8 := 0x02
def codeIllegalPrefix : BitVec 8 := 0x03
def codeBadTarget : BitVec 8 := 0x04
def codePrivilege : BitVec 8 := 0x05
def codeAlign : BitVec 8 := 0x10
def codePageNotPresent : BitVec 8 := 0x11
def codeProtection : BitVec 8 := 0x12
def codeGenStale : BitVec 8 := 0x13
def codeMigration : BitVec 8 := 0x14
def codeFormatMismatch : BitVec 8 := 0x15
def codeSelCheck : BitVec 8 := 0x16
def codeRegFill : BitVec 8 := 0x17
def codeIntegrity : BitVec 8 := 0x18
def codeMisdirect : BitVec 8 := 0x19
def codeRegRange : BitVec 8 := 0x1A
def codeFormatMix : BitVec 8 := 0x1B
def codeBarrierStall : BitVec 8 := 0x20
def codeBarrierCount : BitVec 8 := 0x21
def codeCollectiveStall : BitVec 8 := 0x22
def codeGang : BitVec 8 := 0x23
def codeMcastRange : BitVec 8 := 0x24
def codeRingState : BitVec 8 := 0x25
def codeRowAlign : BitVec 8 := 0x30
def codeRowAttr : BitVec 8 := 0x31
def codeTrapUser : BitVec 8 := 0x40
def codeBkpt : BitVec 8 := 0x41
def codeWatchdog : BitVec 8 := 0x50

/-- R372: the faults that always go to the fault queue. -/
def isSystemCode (c : BitVec 8) : Bool :=
  [codePageNotPresent, codeProtection, codeGenStale, codeMigration, codeRegFill, codeIntegrity, codeMisdirect,
    codeWatchdog].contains c

/-- R152: the code of a poisoned unit. -/
def Poison.code : Poison → BitVec 8
  | .uncorrectable => codeIntegrity
  | .misdirected => codeMisdirect

/-! ## Page table entries (R388 to R391) -/

/-- A page table entry, 128 bits. -/
abbrev Pte := BitVec 128

/-- Bytes of a page of size code k (R15). -/
def pageSize (k : Nat) : Nat := 4096 * 4 ^ k

/-- The 16 bytes of an entry at a physical address, as a walker reads them through L2. -/
def State.readPte (s : State) (pa : Nat) : Pte := BitVec.ofNat 128 (ofLe (s.l2Bytes pa 16))

/-- R391: a valid entry at a level that is malformed. -/
def Pte.malformed (e : Pte) (level : Nat) : Bool :=
  let isTable := e.getLsbD 15
  let k := field e 9 6
  if isTable then
    level == 0 || field e 127 56 != 0 || field e 14 1 != 0
  else
    field e 63 60 != 0 || field e 5 4 == 3 || decide (level ≥ 4) || level != k / 4 || field e 55 16 % 4 ^ k != 0

/-- R389: the metadata base of a format page. -/
def metaBaseOf (vbase : Nat) (mofs : BitVec 32) (k : Nat) : DWord :=
  BitVec.ofNat 64 vbase + sext 64 mofs * BitVec.ofNat 64 (2 * 4 ^ k)

/-- The leaf that a well-formed leaf entry stands for, for an address in its page. -/
def Pte.leaf (e : Pte) (pte va : Nat) : Leaf :=
  let k := field e 9 6
  let size := pageSize k
  let vbase := va - va % size
  { vbase := vbase, size := size, pa := field e 55 16 * 4096, pte := pte, gen := e.extractLsb' 112 16,
    fold := e.extractLsb' 96 16, format := field e 59 56,
    cls := match field e 5 4 with
      | 0 => .priv
      | 1 => .readShared
      | _ => .coherent,
    open_ := e.getLsbD 13, pin := e.getLsbD 14, nodemote := e.getLsbD 12, pref := field e 11 10,
    r := e.getLsbD 1, w := e.getLsbD 2, x := e.getLsbD 3,
    metaBase := metaBaseOf vbase (e.extractLsb' 64 32) k }

/-- R390: the index into the table of a level. -/
def levelIndex (level va : Nat) : Nat :=
  if level = 5 then va / 2 ^ 52 % 32 else va / 2 ^ (12 + 8 * level) % 256

/-- R390: the entries that hold one leaf, among them the one named, which comes last. -/
def State.replicas (s : State) (pte : Nat) : List Nat :=
  let n := 4 ^ (field (s.readPte pte) 9 6 % 4)
  ((List.range n).map fun i => pte / (16 * n) * (16 * n) + 16 * i).filter (· != pte) ++ [pte]

/-- R391, R2: the entry that an access uses which reads the leaf at `pte`: where the replicas of the leaf differ, any of those
that hold a well-formed leaf of its size; which is the device's own (log 26). -/
def State.useReplica (s : State) (pte : Nat) : Nat :=
  let e := s.readPte pte
  let fits (p : Nat) : Bool := let x := s.readPte p
    x.getLsbD 0 && !x.getLsbD 15 && field x 9 6 == field e 9 6 && !x.malformed (field e 9 6 / 4)
  let rs := (s.replicas pte).filter fits
  if rs.all fun p => s.readPte p == e then pte
  else rs.getD (Config.replicaPick s.time pte % rs.length) pte

/-- R391: the walk from a table of some level down; a fault's code, or the leaf. -/
def State.walkFrom (s : State) (va : Nat) : Nat → Nat → Except (BitVec 8) Leaf
  | level, table =>
    let pte := table + 16 * levelIndex level va
    let e := s.readPte pte
    if !e.getLsbD 0 then .error codePageNotPresent
    else if e.malformed level then .error codeProtection
    else if e.getLsbD 15 then
      match level with
      | 0 => .error codeProtection
      | l + 1 => State.walkFrom s va l (field e 55 16 * 4096)
    else .ok ((s.readPte (s.useReplica pte)).leaf (s.useReplica pte) va)

/-- The walk from the root table of a partition. -/
def State.walk (s : State) (root : DWord) (va : Nat) : Except (BitVec 8) Leaf := s.walkFrom va 5 root.toNat

/-- R390: the bytes of address space that one entry of a table of a level covers. -/
def entrySpan (level : Nat) : Nat := if level = 5 then 2 ^ 52 else 2 ^ (12 + 8 * level)

/-- Every leaf that a table of some level leads to, for addresses from `base` on. -/
def State.leavesFrom (s : State) : Nat → Nat → Nat → List Leaf
  | level, table, base =>
    (List.range (if level = 5 then 32 else 256)).flatMap fun i =>
      let pte := table + 16 * i
      let e := s.readPte pte
      let va := base + i * entrySpan level
      if !e.getLsbD 0 || e.malformed level then []
      else if e.getLsbD 15 then
        match level with
        | 0 => []
        | l + 1 => State.leavesFrom s l (field e 55 16 * 4096) va
      else [e.leaf pte va]

/-! ## TLBs (R392) -/

def Leaf.covers (l : Leaf) (va : Nat) : Bool := decide (l.vbase ≤ va) && decide (va < l.vbase + l.size)

/-- The partition of a number. -/
def State.part? (s : State) (n : Nat) : Option Partition := s.parts.find? (·.number == n)

def State.rootOf (s : State) (part : Nat) : DWord := ((s.part? part).map (·.ptroot)).getD 0

/-- Every leaf of a partition's page tables. -/
def State.leaves (s : State) (part : Nat) : List Leaf := s.leavesFrom 5 (s.rootOf part).toNat 0

/-- Changes a partition. -/
def State.updPart (s : State) (n : Nat) (f : Partition → Partition) : State :=
  { s with parts := updateWhere (fun p => p.number == n) f s.parts }

/-- A translation held by the core's TLB or its quadrant's. -/
def State.tlbHit (s : State) (core part va : Nat) : Option Leaf :=
  match (s.core core).tlb.find? fun e => e.part == part && e.leaf.covers va with
  | some e => some e.leaf
  | none => (s.l2tlb.find? fun e => e.1 == core / 16 && e.2.part == part && e.2.leaf.covers va).map (·.2.leaf)

/-- R391: a translation of a core's access, from a TLB or by a walk, without rights. -/
def State.findLeaf (s : State) (core part va : Nat) : Except (BitVec 8) Leaf :=
  match s.tlbHit core part va with
  | some l => .ok l
  | none => s.walk (s.rootOf part) va

/-- R392: the newest n entries of a quadrant's second-level TLB stay, and those of the other quadrants. -/
def keepNewest (quadrant : Nat) : Nat → List (Nat × TlbEntry) → List (Nat × TlbEntry)
  | _, [] => []
  | n, e :: es =>
    if e.1 != quadrant then e :: keepNewest quadrant n es
    else match n with
      | 0 => keepNewest quadrant 0 es
      | m + 1 => e :: keepNewest quadrant m es

/-- R16, R392: the TLBs hold a leaf from now on, 256 entries in a core's and 16,384 in a quadrant's, and its frame has an
entry (R315). -/
def State.tlbInsert (s : State) (core part : Nat) (l : Leaf) : State :=
  let e : TlbEntry := { part := part, leaf := l }
  let s := s.noteFrame l.pa l.size part
  if (s.core core).tlb.contains e then s
  else
    let s := s.updCore core fun c => { c with tlb := (e :: c.tlb).take 256 }
    if s.l2tlb.contains (core / 16, e) then s
    else { s with l2tlb := keepNewest (core / 16) 16384 ((core / 16, e) :: s.l2tlb) }

/-- R185, R392: a core's and its quadrant's translations of an address are dropped, so that the next access translates
afresh. -/
def State.tlbDrop (s : State) (core part va : Nat) : State :=
  let s := s.updCore core fun c => { c with tlb := c.tlb.filter fun e => !(e.part == part && e.leaf.covers va) }
  { s with l2tlb := s.l2tlb.filter fun e => !(e.1 == core / 16 && e.2.part == part && e.2.leaf.covers va) }

/-- The rights an access needs. -/
structure Rights where
  r : Bool := false
  w : Bool := false
  x : Bool := false

def Rights.granted (n : Rights) (l : Leaf) : Bool := (!n.r || l.r) && (!n.w || l.w) && (!n.x || l.x)

/-- Steps 2 and 4 of R156 for an address: range, translation, rights, and the page formats that no access may use
(R150). -/
def State.translate (s : State) (core part : Nat) (va : DWord) (need : Rights) : Except (BitVec 8) Leaf :=
  if va.toNat ≥ 2 ^ 57 then .error codeProtection
  else match s.findLeaf core part va.toNat with
    | .error c => .error c
    | .ok l =>
      if !need.granted l then .error codeProtection
      else if l.format ≥ 7 then .error codeFormatMismatch
      else .ok l

/-- R378: the generation that a fault of translation carries: the leaf's for a page format that no access may use. -/
def State.faultGen (s : State) (core part : Nat) (va : DWord) (c : BitVec 8) : BitVec 16 :=
  if c == codeFormatMismatch then match s.findLeaf core part va.toNat with
    | .ok l => l.gen
    | .error _ => 0
  else 0

/-- The physical address of a virtual one under its leaf. -/
def Leaf.phys (l : Leaf) (va : Nat) : Nat := l.pa + (va - l.vbase)

/-! ## Home agent checks (R156 step 6) -/

/-- Pool granule of a tier-2 physical address. -/
def State.granule? (s : State) (pa : Nat) : Option Granule := s.granules.find? (·.addr == pa / 4096 * 4096)

/-- R185: the access carries the generation of the frame it arrives at. -/
def State.genOk (s : State) (l : Leaf) (pa : Nat) : Bool := (s.frame pa).gen = l.gen

/-- The pool state of a tier-2 granule; one that is not listed is not held (assumption log 3). -/
def State.poolState (s : State) (pa : Nat) : PoolState := ((s.granule? pa).map (·.state)).getD .invalid

/-- R336: whether an access that arrives at pa is served, where a move may have forwarded it to (R326), without a change of pool
ownership. -/
def State.poolServes (s : State) (pa : Nat) (write : Bool) : Bool :=
  tierOf (s.homeAddr pa) != 2 || match s.poolState (s.homeAddr pa) with
    | .exclusive => true
    | .pinned => true
    | .shared => !write
    | .invalid => false
    | .transfer => false

/-! ## Pool ownership (R336, R338) -/

/-- What an access finds at the home agent. -/
inductive Served where
  | yes
  /-- it waits for ownership -/
  | waits
  | fault (code : BitVec 8)

/-- Whether the partition's pool ownership is in hardware mode (R334). -/
def State.poolHw (s : State) (part : Nat) : Bool := ((s.part? part).map (·.poolHw)).getD true

/-- R156 step 6 for an access translated by a leaf: MIGRATION, then GEN_STALE. -/
def State.homeCheck (s : State) (part pa : Nat) (l : Leaf) (write : Bool) : Served :=
  if !s.poolServes pa write then (if s.poolHw part then .waits else .fault codeMigration)
  else if !s.genOk l pa then .fault codeGenStale
  else .yes

def Granule.blank (addr : Nat) : Granule := 
  { addr := addr, state := .invalid, held := [], deferred := none, stale := true, request := none }

def State.setGranule (s : State) (pa : Nat) (f : Granule → Granule) : State :=
  let a := pa / 4096 * 4096
  match s.granule? pa with
  | some _ => { s with granules := updateWhere (fun g => g.addr == a) f s.granules }
  | none => { s with granules := s.granules ++ [f (Granule.blank a)] }

/-- R336: a local access that the granule of pa does not serve, where it is served now, requests ownership. -/
def State.requestPool (s : State) (pa : Nat) (write : Bool) : State :=
  s.setGranule (s.homeAddr pa) fun g =>
    { g with state := .transfer,
             request := match g.request with
               | some (t, e) => some (t, e || write)
               | none => some (s.time, write) }

/-- R338: as `requestPool`, for an access whose agent the granule notes with the moment from which it is held. -/
def State.holdPool (s : State) (who : List Nat) (pa : Nat) (write : Bool) : State :=
  (s.requestPool pa write).setGranule (s.homeAddr pa) fun g =>
    if g.held.any fun h => h.1 == who && h.2.1 == write then g else { g with held := (who, write, s.time) :: g.held }

/-- R338: an access of an agent has been held for the granule as long as the partition's pool wait limit; 0 means no limit. -/
def State.poolLate (s : State) (who : List Nat) (part pa : Nat) : Bool :=
  let limit := ((s.part? part).map (·.poolWait)).getD 0
  limit != 0 && (s.granule? (s.homeAddr pa)).any fun g =>
    g.held.any fun h => h.1 == who && decide (h.2.2 + limit * 20 ≤ s.time)

/-- R336, R338: an access of an engine, a register fill or a fetch at the home agent: past the limit MIGRATION is raised. -/
def State.engineCheck (s : State) (who : List Nat) (part pa : Nat) (l : Leaf) (write : Bool) : Served :=
  match s.homeCheck part pa l write with
  | .waits => if s.poolLate who part pa then .fault codeMigration else .waits
  | x => x

/-- R338: who an access that can be held for pool ownership belongs to: a core's fetches from a 4 KiB, a register's fill, an
operation by its kind (0 copy, 1 row, 2 tier, 3 matrix, 4 scheduler, 5 launch, 6 service core, 7 tile, 8 move, 9 policy), core
and number. -/
def fetchAgent (core part : Nat) (va : DWord) : List Nat := [0, core, part, va.toNat / 4096]
def fillAgent (part : Nat) (va : DWord) : List Nat := [1, part, va.toNat]
def engineAgent (kind core num : Nat) : List Nat := [2, kind, core, num]

/-- R338: a thread as it is held for the idx-th word of a WAITV. -/
def waitvAgent (r : TRef) (idx : Nat) : List Nat := [3, r.wg, r.warp, r.lane, idx]

/-! ## Instruction fetch -/

/-- Fetching a word for a core of a partition: R391 with X, then the home agent's checks and the code's (R156). -/
def State.fetchWord (s : State) (core part : Nat) (va : DWord) : Except (BitVec 8) Word :=
  match s.translate core part va { x := true } with
  | .error c => .error c
  | .ok l =>
    let pa := l.phys va.toNat
    match s.engineCheck (fetchAgent core part va) part pa l false with
    | .fault c => .error c
    | _ =>
      let pa := s.homeAddr pa
      let s := (s.tlbInsert core part l).l2Fill (pa / 128) l.fold l.open_
      match s.poisonAt pa 4 with
      | some p => .error p.code
      | none => .ok (BitVec.ofNat 32 (ofLe (s.l2Bytes pa 4)))

/-- R336: the pool granule that a fetch must wait for. -/
def State.fetchWaits (s : State) (core part : Nat) (va : DWord) : Option Nat :=
  match s.translate core part va { x := true } with
  | .error _ => none
  | .ok l => match s.engineCheck (fetchAgent core part va) part (l.phys va.toNat) l false with
    | .waits => some (l.phys va.toNat)
    | _ => none

/-- R392, R317: a fetch leaves its translation in the TLBs and its sector in L2; one that is rejected translates afresh
when it is made again (R185). -/
def State.fetchTlb (s : State) (core part : Nat) (va : DWord) : State :=
  match s.translate core part va { x := true } with
  | .error _ => s
  | .ok l => match s.engineCheck (fetchAgent core part va) part (l.phys va.toNat) l false with
    | .fault _ => s.tlbDrop core part va.toNat
    | _ =>
      let s := s.tlbInsert core part l
      s.l2Fill (s.homeAddr (l.phys va.toNat) / 128) l.fold l.open_

/-- R378: the generation that the record of a fetch's fault holds. -/
def State.fetchGen (s : State) (core part : Nat) (va : DWord) : BitVec 16 :=
  match s.translate core part va { x := true } with
  | .error c => s.faultGen core part va c
  | .ok l => l.gen

end Sys2Proof.Machine
end

