-- ==== Sys2Proof/Machine/Ops.lean ====
section
/-!
DEFINITION. The named operations over threads, warps, workgroups, issue groups and outstanding operations; taking a
fault and returning from a handler (03_control R63 to R72, 02_encoding R27 to R37, 07_memory R141, 16_system R368 to
R376).
-/

namespace Sys2Proof.Machine

/-- The answer of a meaning. -/
abbrev Answer := Host.Outcome State Fault Refusal

/-! ## Registers and predicates of a thread -/

/-- v[n]. -/
def Thread.reg (t : Thread) (n : Nat) : Word := t.v.toList.getD n 0

/-- The pair v[n]:v[n+1], v[n] low (R48). -/
def Thread.reg64 (t : Thread) (n : Nat) : DWord := pair64 (t.reg (n + 1)) (t.reg n)

/-- v[n] as the register store holds it from now on (R141). -/
def Thread.holdReg (t : Thread) (n : Nat) (x : Word) : Thread :=
  { t with v := t.v.setIfInBounds n x, cold := t.cold &&& ~~~(1#64 <<< n) }

/-- R35: how often v[n] has been written. -/
def Thread.writesOf (t : Thread) (n : Nat) : Nat := t.writes.toList.getD n 0

/-- Writing v[n]; the store holds it from then on (R35, R141). -/
def Thread.setReg (t : Thread) (n : Nat) (x : Word) : Thread :=
  { t.holdReg n x with writes := t.writes.setIfInBounds n (t.writesOf n + 1) }

/-- Writing consecutive registers. -/
def Thread.setRegs (t : Thread) (n : Nat) : List Word → Thread
  | [] => t
  | x :: xs => (t.setReg n x).setRegs (n + 1) xs

/-- Writing a pair, its low word to the even register. -/
def Thread.setReg64 (t : Thread) (n : Nat) (x : DWord) : Thread := (t.setReg n (lo32 x)).setReg (n + 1) (hi32 x)

/-- p[n]; p0 reads 1 (R50). -/
def Thread.pred (t : Thread) (n : Nat) : Bool := n == 0 || t.p.getLsbD n

/-- Writing p[n]; a write to p0 is discarded (R50). -/
def Thread.setPred (t : Thread) (n : Nat) (b : Bool) : Thread :=
  if n = 0 then t
  else { t with p := if b then t.p ||| (1#8 <<< n) else t.p &&& ~~~(1#8 <<< n) }

/-- R45: the guard of a word. -/
def Thread.guard (t : Thread) (g : BitVec 3) (neg : Bool) : Bool := t.pred g.toNat != neg

/-- R113: sticky bits. -/
def Thread.orFpstat (t : Thread) (b : BitVec 5) : Thread := { t with fpstat := t.fpstat ||| b }

/-- R35: writing registers at a completion; bit i of `keep` keeps the i-th where another instruction has written it since,
of which `old` says how often each had been written at issue. -/
def Thread.landRegs (t : Thread) (n : Nat) (old : List Nat) (new : List Word) (keep : Nat) : Thread :=
  match old, new with
  | o :: os, x :: xs =>
    (if keep.testBit 0 && t.writesOf n != o then t else t.setReg n x).landRegs (n + 1) os xs (keep / 2)
  | [], x :: xs => (t.setReg n x).landRegs (n + 1) [] xs (keep / 2)
  | _, [] => t

def Thread.isHelper (t : Thread) : Bool := t.status == .helper
def Thread.isParked (t : Thread) : Bool := match t.status with
  | .parked _ => true
  | _ => false
/-- R63: a live thread or a helper executes. -/
def Thread.executes (t : Thread) : Bool := t.status == .live || t.status == .helper

def Thread.flag (t : Thread) (f : Nat) : Nat := t.flags.toList.getD f 0

def Thread.addFlag (t : Thread) : Option Nat → Thread
  | some f => { t with flags := t.flags.setIfInBounds f (t.flag f + 1) }
  | none => t

def Thread.subFlag (t : Thread) : Option Nat → Thread
  | some f => { t with flags := t.flags.setIfInBounds f (t.flag f - 1) }
  | none => t

/-! ## Access to threads, warps, workgroups -/

def State.wg? (s : State) (id : Nat) : Option Workgroup := s.wgs.find? (·.id == id)

def Workgroup.thread? (g : Workgroup) (warp lane : Nat) : Option Thread :=
  g.threads.find? fun t => t.warp == warp && t.lane == lane

def Workgroup.warp? (g : Workgroup) (w : Nat) : Option Warp := g.warps.find? (·.id == w)

def State.thread? (s : State) (r : TRef) : Option Thread :=
  match s.wg? r.wg with
  | some g => g.thread? r.warp r.lane
  | none => none

def State.warp? (s : State) (wg w : Nat) : Option Warp :=
  match s.wg? wg with
  | some g => g.warp? w
  | none => none

def State.updWg (s : State) (id : Nat) (f : Workgroup → Workgroup) : State :=
  { s with wgs := updateWhere (fun g => g.id == id) f s.wgs }

def Workgroup.updThread (g : Workgroup) (warp lane : Nat) (f : Thread → Thread) : Workgroup :=
  { g with threads := updateWhere (fun t => t.warp == warp && t.lane == lane) f g.threads }

def Workgroup.updWarp (g : Workgroup) (w : Nat) (f : Warp → Warp) : Workgroup :=
  { g with warps := updateWhere (fun x => x.id == w) f g.warps }

def State.updThread (s : State) (r : TRef) (f : Thread → Thread) : State :=
  s.updWg r.wg fun g => g.updThread r.warp r.lane f

def State.updWarp (s : State) (wg w : Nat) (f : Warp → Warp) : State := s.updWg wg fun g => g.updWarp w f

/-- The thread's name. -/
def Thread.ref (t : Thread) (wg : Nat) : TRef := { wg := wg, warp := t.warp, lane := t.lane }

/-- The threads of a workgroup that are named by a list. -/
def State.updThreads (s : State) (rs : List TRef) (f : Thread → Thread) : State :=
  { s with wgs := s.wgs.map fun g => { g with threads := updateWhere (fun t => rs.contains (t.ref g.id)) f g.threads } }

/-- w[n] of a warp. -/
def Warp.reg (w : Warp) (n : Nat) : DWord := w.w.toList.getD n 0

def Warp.setReg (w : Warp) (n : Nat) (x : DWord) : Warp := { w with w := w.w.setIfInBounds n x }

/-- w[n] of the home warp of a thread. -/
def State.warpReg (s : State) (r : TRef) (n : Nat) : DWord := ((s.warp? r.wg r.warp).map (·.reg n)).getD 0

/-- The budget of the thread's role (R48). -/
def State.budget (s : State) (r : TRef) : Nat := ((s.warp? r.wg r.warp).map (·.budget)).getD 64

def State.coreOf (s : State) (wg : Nat) : Nat := ((s.wg? wg).map (·.core)).getD 0
def State.partOf (s : State) (wg : Nat) : Nat := ((s.wg? wg).map (·.part)).getD 0

/-! ## Clocks (R12) -/

/-- %clock of a core: within 64 of every other core's, and never falling (log 6, DEDUCED). -/
def State.clock (s : State) (core : Nat) : DWord := BitVec.ofNat 64 (s.time - min s.time (Config.clockLag core % 65))

/-- %ref: ticks of 10 ns, 20 clk each (R3, R12). R12 lets two cores differ by a tick; here all read the same one (DESIGN
CHOICE, log 6). -/
def State.ref (s : State) : DWord := BitVec.ofNat 64 (s.time / 20)

/-- Clk in n ticks. -/
def clkOfTicks (n : Nat) : Nat := n * 20

/-! ## Issue groups in flight (R65 to R67) -/

/-- The group whose word issues next: among those that do not hold, the one that `picks` says (assumption log 4). -/
def State.current (s : State) : Option Group :=
  let gs := s.groups.filter fun g => !g.held
  match gs with
  | [] => none
  | g :: _ => some (gs.getD (s.picks.headD 0 % gs.length) g)

def State.updGroup (s : State) (id : Nat) (f : Group → Group) : State :=
  { s with groups := updateWhere (fun g => g.id == id) f s.groups }

/-- The members that are still in the group (R66), in ascending lane order. -/
def State.active (s : State) (g : Group) : List TRef :=
  g.members.filter fun r => (s.thread? r).any fun t => t.group == some g.id

/-- Changes every thread that is in a group. -/
def State.mapGroup (s : State) (id : Nat) (f : Workgroup → Thread → Thread) : State :=
  { s with wgs := s.wgs.map fun w => { w with threads := updateWhere (fun t => t.group == some id) (f w) w.threads } }

/-- The home warps of a group's members, with the workgroup (R68). -/
def State.homeWarps (s : State) (g : Group) : List (Nat × Nat) := distinct ((s.active g).map fun r => (r.wg, r.warp))

/-- No modifier word has been read. -/
def Mods.none : Mods := { hint := Option.none, arith := Option.none, mem := Option.none, ext := Option.none }

/-- How many modifier words have been read. -/
def Mods.count (m : Mods) : Nat :=
  m.hint.isSome.toNat + m.arith.isSome.toNat + m.mem.isSome.toNat + m.ext.isSome.toNat

/-- Where the clause stands after one more word. -/
def ClauseCtx.step (c : ClauseCtx) : Option ClauseCtx :=
  if c.left ≤ 1 then none else some { c with left := c.left - 1 }

/-- Where a fault at the group's word resumes and continues (R62, R369): at the first modifier word, or the word
itself; a group that stands at a clause start resumes there. -/
def Group.site (g : Group) (pc : DWord) : Site :=
  if g.atHeader then { pc := pc, resume := g.pc, resumeIn := none, next := g.pc, nextIn := none }
  else
    let k := g.mods.count
    { pc := pc, resume := g.pc - BitVec.ofNat 64 (4 * k), resumeIn := some { g.ctx with left := g.ctx.left + k },
      next := g.pc + 4, nextIn := g.ctx.step }

/-! ## Taking a fault (R63, R368, R369) -/

/-- R368: %finfo. -/
def finfoOf (depth reg mprog : Nat) : BitVec 32 :=
  BitVec.ofNat 16 depth ++ BitVec.ofNat 8 reg ++ BitVec.ofNat 8 mprog

/-- What a fault records beside the program counter. -/
structure FaultDetail where
  code : BitVec 8
  addr : DWord := 0
  reg : Nat := 0
  mprog : Nat := 0
  gen : BitVec 16 := 0

/-- A workgroup issues words. -/
def Workgroup.runs (w : Workgroup) : Bool :=
  w.place == .resident && !(w.verdict == .save || w.verdict == .flush)

/-- Subtracts 1 from each flag of a list. -/
def Thread.subFlags (t : Thread) (fs : List (Option Nat)) : Thread := fs.foldl (fun t f => t.subFlag f) t

/-- R235, R34: a thread that parks, for whatever fault, no longer counts an interrupted operation of its gang. -/
def Thread.uncountLate (t : Thread) : Thread :=
  { t.subFlags ((t.late.map (·.flags)).getD []) with late := t.late.map fun d => { d with flags := [] } }

/-- R368: the fault registers of a new fault, the place of the thread and its trap entry; no hold is left. DESIGN CHOICE
(assumption log 18): where the thread held at BARW, its arrival stays in the barrier's set (R298). -/
def Thread.record (t : Thread) (d : FaultDetail) (site : Site) (order : Option Nat) (width : Nat) : Thread :=
  { t.uncountLate with
           fcode := d.code, fpc := site.pc, faddr := d.addr, finfo := finfoOf t.depth d.reg d.mprog, fgen := d.gen,
           raised := none, forder := order, tnext := site.next, site := site, siteSgw := width, entry := .pending,
           group := none, hold := none,
           collSince := none, pc := site.resume, mid := site.resumeIn }

/-- R368: the thread parks with its record; a parked or exited thread takes no fault of a word's issue. -/
def Thread.raise (t : Thread) (d : FaultDetail) (site : Site) : Thread :=
  if t.executes then { t.record d site none t.sgw with status := .parked t.isHelper } else t

/-- Whether a fault of an operation comes before the recorded one in the thread's order. -/
def Thread.earlier (t : Thread) (id : Nat) : Bool := match t.forder with
  | some n => decide (id < n)
  | none => true

/-- The fault of an outstanding operation: the thread parks; of the faults of a thread whose trap entry is still to come the
earliest word's is recorded, so that every cancelled operation executes again (R156, R368, R370, assumption log 9);
`width` is the sub-group width of the operation's clause. -/
def Thread.raiseLate (t : Thread) (d : FaultDetail) (site : Site) (id width : Nat) : Thread :=
  match t.status, t.watchdog with
  | .parked _, some .live => { t.record d site (some id) width with watchdog := some (.parked false) }
  | .parked _, some .helper => { t.record d site (some id) width with watchdog := some (.parked true) }
  | .parked _, _ => if t.entry == .pending && t.earlier id then t.record d site (some id) width else t
  | .exited, _ => t
  | _, _ => { t.record d site (some id) width with status := .parked t.isHelper }

/-- The fault of one thread. -/
def State.raise (s : State) (r : TRef) (d : FaultDetail) (site : Site) : State :=
  s.updThread r fun t => t.raise d site

/-- The fault of every thread of a group. -/
def State.raiseAll (s : State) (g : Group) (d : FaultDetail) (pc : DWord) : State :=
  s.mapGroup g.id fun _ t => t.raise d (g.site pc)

/-! ## Faults taken at a clause start (R141, R235) -/

/-- Whether the thread stands at a clause start, waiting or held. -/
def Thread.atClauseStart (t : Thread) : Bool := t.group.isNone && t.mid.isNone

/-- The thread parks where it stands, with its hold kept. -/
def Thread.parkHere (t : Thread) (d : Late) : Thread :=
  let site : Site := { pc := d.pc.getD t.pc, resume := t.pc, resumeIn := t.mid, next := t.pc, nextIn := t.mid }
  { t.subFlags d.flags with
    fcode := d.code, fpc := site.pc, faddr := d.addr, finfo := finfoOf t.depth d.reg d.mprog, fgen := d.gen,
    raised := some d.raised, tnext := site.next, site := site, siteSgw := t.sgw, status := .parked t.isHelper, group := none,
    collSince := none, late := none,
    entry := if d.gang.isSome && isSystemCode d.code then .gang else .pending }

/-- Whether a thread takes its late fault now. -/
def Thread.takesLate (t : Thread) : Bool := t.late.isSome && t.atClauseStart && t.executes

/-- R235: a gang notes that its issuing threads have parked. -/
def Gang.noteParked (x : Gang) (now : List (TRef × Option Nat × Bool)) : Gang :=
  { x with waiting := x.waiting.map fun w => match now.find? fun n => n.1 == w.1 && n.2.1 == some x.key with
      | some n => (w.1, some n.2.2)
      | none => w }

/-- Every thread of a workgroup that stands at a clause start takes its late fault. -/
def Workgroup.applyLate (w : Workgroup) : Workgroup :=
  let now := (w.threads.filter (·.takesLate)).map fun t => (t.ref w.id, t.late.bind (·.gang), t.inh)
  if now.isEmpty then w
  else
    let park (t : Thread) : Thread := match t.late with
      | some d => if t.takesLate then t.parkHere d else t
      | none => t
    { w with threads := w.threads.map park, gangs := w.gangs.map (·.noteParked now) }

def State.applyLate (s : State) : State := { s with wgs := s.wgs.map (·.applyLate) }

/-! ## After each word (R66, R69) -/

/-- R70, R127: the sub-group width that a thread reads when it reaches a clause start. -/
def Workgroup.widthOf (w : Workgroup) (t : Thread) : Nat := ((w.warp? t.warp).map (·.sgw)).getD 32

/-- R69: a thread that finishes a clause whose header has y = 1 is yield-marked. -/
def Thread.finishClause (t : Thread) (g : Group) : Thread :=
  { t with yieldMark := if g.ctx.y then some 0 else t.yieldMark }

/-- A group whose last word has issued ends: each thread stands at its own next address. -/
def State.endClause (s : State) (g : Group) : State :=
  let s := s.mapGroup g.id fun w t =>
    { t.finishClause g with group := none, mid := none, readyAt := s.time, collSince := none, sgw := w.widthOf t }
  { s with groups := s.groups.filter (·.id != g.id) }.applyLate

/-- The group goes when its clause is over or no member is left. -/
def State.settle (s : State) (id : Nat) : State :=
  match s.groups.find? (·.id == id) with
  | none => s
  | some g =>
    if !g.atHeader && g.ctx.left == 0 then s.endClause g
    else if (s.active g).isEmpty then { s with groups := s.groups.filter (·.id != id) }
    else s

/-- The group has issued its word: every member goes to the next address, and the modifier words are used up. -/
def State.advance (s : State) (g : Group) : State :=
  let s := s.mapGroup g.id fun _ t => { t with pc := g.pc + 4 }
  { s.updGroup g.id (fun x => { x with pc := g.pc + 4, ctx := { g.ctx with left := g.ctx.left - 1 },
                                       mods := Mods.none, held := false, collHold := none, sent := false }) with
    picks := s.picks.tail }

/-- The group's word could not issue; it holds its place (R67). -/
def State.holdGroup (s : State) (g : Group) : State :=
  { s.updGroup g.id (fun x => { x with held := true }) with picks := s.picks.tail }

/-- Every held group tries again: something may have changed. -/
def State.wakeGroups (s : State) : State := { s with groups := s.groups.map fun g => { g with held := false } }

/-! ## Decoding checks that depend on the clause, the modifier words and the role (R27 to R44, R48) -/

/-- Which reading of major 0x3E a word takes (R42). -/
inductive PrefixKind where
  | none
  | arith
  | mem
  deriving DecidableEq, Repr

/-- The use of a prefix's v4 field. -/
inductive V4Use where
  | none
  | reg
  | pair
  /-- ACAS, ACAS64: the prefix is required (R44) -/
  | compare
  | comparePair
  deriving DecidableEq, Repr

/-- What a word accepts. -/
structure WordRule where
  last : Bool := false
  xlane : Bool := false
  ext : Bool := false
  prefixKind : PrefixKind := .none
  rnd : Bool := false
  v4 : V4Use := .none
  orders : List Nat := []
  /-- FENCE with sc = 1 requires a prefix of order acquire-release (R192) -/
  sc : Bool := false

/-- The v4 field of the prefix read, and the prefix's address. -/
def Mods.v4 (m : Mods) : Nat × DWord :=
  match m.arith, m.mem with
  | some (pc, a), _ => (a.v4.toNat, pc)
  | Option.none, some (pc, a) => (a.v4.toNat, pc)
  | Option.none, Option.none => (0, 0)

/-- The registers named by v4; 0 names none (R91). -/
def WordRule.v4Regs (w : WordRule) (m : Mods) : List Nat :=
  if m.v4.1 = 0 then [] else match w.v4 with
  | .none => []
  | .reg | .compare => [m.v4.1]
  | .pair | .comparePair => [m.v4.1, m.v4.1 + 1]

/-- ILLEGAL_ENCODING of a word in its place: a non-header at a clause start (R31), a transfer that is not last (R32),
a cross-lane word outside a collective clause (R45), FENCE.sc without its order (R192), ACAS without its compare operand (R189), an odd v4 pair (R48). -/
def Group.encodingFault (g : Group) (w : WordRule) : Option DWord :=
  if g.atHeader then some g.pc
  else if w.last && g.ctx.left != 1 then some g.pc
  else if w.xlane && !g.ctx.c then some g.pc
  else if w.sc && (g.mods.mem.map fun m => m.2.order.toNat) != some 3 then some g.pc
  else if (w.v4 == .compare || w.v4 == .comparePair) && g.mods.v4.1 == 0 then some g.pc
  else if (w.v4 == .pair || w.v4 == .comparePair) && g.mods.v4.1 % 2 == 1 then some g.mods.v4.2
  else none

/-- ILLEGAL_PREFIX of a modifier word before a word that is not eligible for it (R37, R41 to R44). -/
def Group.prefixFault (g : Group) (w : WordRule) : Option DWord :=
  match g.mods.arith, g.mods.mem, g.mods.ext with
  | some (pc, a), _, e =>
    if w.prefixKind != .arith || (a.rnd != 0 && !w.rnd) || (a.v4 != 0 && w.v4 == .none) then some pc
    else if !w.ext then e.map (·.1) else none
  | none, some (pc, m), e =>
    if w.prefixKind != .mem || !w.orders.contains m.order.toNat || (m.v4 != 0 && w.v4 == .none) then some pc
    else if !w.ext then e.map (·.1) else none
  | none, none, some (pc, _) => if w.ext then none else some pc
  | none, none, none => none

/-- The first decoding fault of R27 that all members share: code and recorded pc. -/
def Group.wordFault (g : Group) (w : WordRule) : Option (BitVec 8 × DWord) :=
  match g.encodingFault w with
  | some pc => some (codeIllegalEncoding, pc)
  | none => (g.prefixFault w).map fun pc => (codeIllegalPrefix, pc)

/-- REG_RANGE (R48): each member whose role's budget does not hold a register of the word faults; v4 is a field of
the prefix word. -/
def State.rangeFaults (s : State) (g : Group) (w : WordRule) (regs : List Nat) : State :=
  s.mapGroup g.id fun wg t =>
    let b := ((wg.warp? t.warp).map (·.budget)).getD 64
    match regs.find? (fun n => decide (b ≤ n)) with
    | some n => t.raise { code := codeRegRange, reg := n } (g.site g.pc)
    | none => match (w.v4Regs g.mods).find? (fun n => decide (b ≤ n)) with
      | some n => t.raise { code := codeRegRange, reg := n } (g.site g.mods.v4.2)
      | none => t

/-! ## Register fills (R140, R141) -/

/-- The address of v[n]'s slot in the thread's register home. -/
def Workgroup.homeOf (g : Workgroup) (warp lane n : Nat) : Nat :=
  g.home + g.slot * 262144 + (warp * 32 + lane) * 256 + 4 * n

/-- What a register fill finds. -/
inductive Filled where
  | ok (s : State) (bytes : List Byte)
  | waits (s : State)
  /-- with the generation that the access carried (R378) -/
  | fault (s : State) (gen : BitVec 16)

/-- Reading bytes as a thread's relaxed load does, with every check of R156 from step 2 on. -/
def State.peek (s : State) (core part : Nat) (va : DWord) (n : Nat) : Filled :=
  match s.translate core part va { r := true } with
  | .error c => .fault s (s.faultGen core part va c)
  | .ok l =>
    let pa := l.phys va.toNat
    match s.engineCheck (fillAgent part va) part pa l false with
    | .waits => .waits (s.holdPool (fillAgent part va) pa false)
    | .fault _ => .fault (s.tlbDrop core part va.toNat) l.gen
    | .yes =>
      let pa := s.homeAddr pa
      let s := (s.tlbInsert core part l).l1Renew core (pa / 128) l.gen
      if (List.range n).all fun i => (s.l1Byte? core (pa + i)).isSome then .ok s (s.coreBytes core pa n)
      else
        let s := s.l2Fill (pa / 128) l.fold l.open_
        match s.poisonAt pa n with
        | some _ => .fault s l.gen
        | none =>
          let s := s.l1Fill core (pa / 128) l
          .ok s (s.coreBytes core pa n)

/-- R407: the core's REG_FILL faults. -/
def State.countFill (s : State) (core : Nat) : State :=
  { s with lifetime := { s.lifetime with regFills := bump core 1 s.lifetime.regFills } }.logEvent 3 core

/-- One register of one thread is filled, or the thread faults REG_FILL; a fill that waits for pool ownership holds the
group. -/
def State.fillReg (s : State) (g : Group) (r : TRef) (n : Nat) : State :=
  match s.wg? r.wg, s.thread? r with
  | some w, some t =>
    if t.group == some g.id && t.cold.getLsbD n then
      let a := BitVec.ofNat 64 (w.homeOf r.warp r.lane n)
      match s.peek w.core w.part a 4 with
      | .ok s bs => s.updThread r fun t => t.holdReg n (BitVec.ofNat 32 (ofLe bs))
      | .waits s => s.updGroup g.id fun x => { x with held := true }
      | .fault s gen => (s.countFill w.core).raise r { code := codeRegFill, addr := a, reg := n, gen := gen } (g.site g.pc)
    else s
  | _, _ => s

/-- R141: the source registers of some members that act. -/
def State.fillFor (s : State) (g : Group) (rs : List TRef) (acts : Thread → Bool) (srcs : List Nat) : State :=
  rs.foldl (fun s r =>
    match s.thread? r with
    | some t => if t.cold != 0 && acts t then srcs.foldl (fun s n => s.fillReg g r n) s else s
    | none => s) s

/-- R141: the source registers, v4's among them, of the members that act. -/
def fillSources (w : WordRule) (acts : Thread → Bool) (srcs : List Nat) (g : Group) (s : State) : State :=
  s.fillFor g (s.active g) acts (srcs ++ w.v4Regs g.mods)

/-! ## The issue of a word -/

/-- Every word of an instruction issues through this: the decoding checks in the order of R27, REG_RANGE and register
fills per thread, the reasons to hold the group in flight (R67), then its effect. `regs` are the vector registers the
word names, `fill` fills those it reads, `hold` says whether it must hold. -/
def issue (w : WordRule) (regs : List Nat) (fill : Group → State → State) (hold : Group → State → Bool)
    (effect : Group → State → State) (s : State) : Answer :=
  match s.current with
  | none => .refused .noIssueGroup
  | some g =>
    match g.wordFault w with
    | some (c, pc) => .next ((s.raiseAll g { code := c } pc).advance g |>.settle g.id)
    | none =>
      let s := s.rangeFaults g w regs
      let s := fill g s
      if (s.active g).isEmpty then .next ((s.advance g).settle g.id)
      else if (s.groups.find? (·.id == g.id)).any (·.held) || hold g s then .next (s.holdGroup g)
      else .next ((effect g (s.advance g)).settle g.id)

/-- Nothing to fill. -/
def noFill (_ : Group) (s : State) : State := s

/-- No reason to hold. -/
def noHold (_ : Group) (_ : State) : Bool := false

/-! ## Completion flags and outstanding operations (R33 to R35) -/

/-- The flag that fs selects: 0 to 11, or none. -/
def Group.flagOf (g : Group) (fs : Bool) : Option Nat :=
  let f := (if fs then g.ctx.fb else g.ctx.fa).toNat
  if f == 15 then none else some f

/-- R34: the group holds while the selected flag of an acting member stands at 63. -/
def flagFull (fs : Bool) (acts : Thread → Bool) (g : Group) (s : State) : Bool :=
  match g.flagOf fs with
  | none => false
  | some f => (s.active g).any fun r => (s.thread? r).any fun t => acts t && decide (t.flag f ≥ 63)

/-- Issues one operation for one thread: 1 is added to its flag. The operation's number is the state's next one. -/
def State.addOp (s : State) (g : Group) (r : TRef) (fs : Option Bool) (word : Nat) (kind : OpKind) (dst ndst : Nat) :
    State :=
  let flag := match fs with
    | some b => g.flagOf b
    | none => none
  let old := match s.thread? r with
    | some t => (List.range ndst).map fun i => t.writesOf (dst + i)
    | none => []
  let op : PendingOp := { id := s.nextId, word := word, who := [r], flag := flag, issued := s.time, kind := kind,
                          dst := dst, ndst := ndst, old := [old], site := g.site g.pc,
                          widths := [((s.thread? r).map (·.sgw)).getD 32], seen := none, waiting := none,
                          reported := false }
  { s.updThread r (fun t => t.addFlag flag) with ops := s.ops ++ [op], nextId := s.nextId + 1 }

def State.op? (s : State) (id : Nat) : Option PendingOp := s.ops.find? (·.id == id)

def State.updOp (s : State) (id : Nat) (f : PendingOp → PendingOp) : State :=
  { s with ops := updateWhere (fun o => o.id == id) f s.ops }

/-- The operation is over: its flag falls (R34). -/
def State.dropOp (s : State) (o : PendingOp) : State :=
  { s.updThreads o.who (fun t => t.subFlag o.flag) with ops := s.ops.filter (·.id != o.id) }

/-- What an operation holds for one of its threads, by the thread's place among them. -/
def PendingOp.of {α : Type} (o : PendingOp) (l : List α) (r : TRef) (d : α) : α := l.getD (o.who.idxOf r) d

/-- R35: the bits of `keep` that concern one of an operation's threads. -/
def PendingOp.keeps (o : PendingOp) (keep : Nat) (r : TRef) : Nat := keep >>> (16 * o.who.idxOf r)

/-- A completion: registers of threads that have not exited are written (R35, R82), sticky bits set, the flag falls. -/
def State.finishOp (s : State) (o : PendingOp) (vals : List Word) (fp : BitVec 5) (keep : Nat) : State :=
  let land (w : Workgroup) (t : Thread) : Thread :=
    if t.status == .exited then t
    else (t.landRegs o.dst (o.of o.old (t.ref w.id) []) vals (o.keeps keep (t.ref w.id))).orFpstat fp
  let landAll (w : Workgroup) : Workgroup :=
    { w with threads := updateWhere (fun t => o.who.contains (t.ref w.id)) (land w) w.threads }
  { s with wgs := s.wgs.map landAll }.dropOp o

/-- A long-latency word that is suppressed adds 1 to its flag and removes it at once (R83): nothing changes. -/
def State.suppressed (s : State) : State := s

/-! ## Restart points (R360) -/

/-- R360: live members whose guard is true become tainted. -/
def State.taintActing (s : State) (g : Group) (acts : Thread → Bool) : State :=
  s.mapGroup g.id fun _ t => if acts t && t.status == .live then { t with taint := true } else t

/-! ## Fault records and trap entry (R370, R372, R375, R378) -/

/-- R378: a record for a workgroup's thread or unit; seq is given when the queue takes it. -/
def State.mkRecord (s : State) (w : Workgroup) (kind warp lane : Nat) (d : FaultDetail) (pc : DWord)
    (info wmask : BitVec 32) (hfail : Bool) (who : List TRef) : FaultRecord :=
  { seq := 0, code := d.code, kind := kind, hfail := hfail, core := w.core, slot := w.slot, warp := warp, lane := lane,
    pc := pc, addr := d.addr, info := info, gen := d.gen, wmask := wmask, handle := w.handle, ref := s.ref.toNat,
    raised := s.time, part := w.part, wg := w.id, who := who }

/-- R379: a core keeps up to 16 records that the queue has not taken. -/
def State.recordRoom (s : State) (core : Nat) : Bool := decide ((s.core core).records.length < 16)

def State.postRecord (s : State) (r : FaultRecord) : State :=
  s.updCore r.core fun c => { c with records := c.records ++ [r] }

/-- R378, R379: the moment when a parked thread's fault was raised: the present step's until it is noted. -/
def State.raisedAt (s : State) (t : Thread) : Nat := t.raised.getD s.time

/-- R372: whether the fault enters the user handler. -/
def routesToHandler (w : Workgroup) (t : Thread) : Bool := !isSystemCode t.fcode && w.tvec != 0 && !t.inh

/-- R370, R379: a parked thread's record is still to be formed. -/
def Workgroup.owesRecord (w : Workgroup) (t : Thread) : Bool :=
  t.isParked && t.watchdog.isNone && match t.entry with
    | .pending => !routesToHandler w t
    | .failed => true
    | _ => false

/-- R235, R379: when the fault was raised whose one record a gang owes, once every issuing thread has parked. -/
def Workgroup.gangOwes (w : Workgroup) (x : Gang) : Option Nat := match x.report with
  | some (d, who) =>
    if (w.threads.filter fun t => who.contains (t.ref w.id)).all fun t => t.status == .exited || t.entry == .gang then
      some d.raised
    else none
  | none => none

/-- R379: the records of a core are formed in the order in which their faults were raised: one raised at a moment waits for
those raised before. -/
def State.recordTurn (s : State) (core at_ : Nat) : Bool :=
  s.wgs.all (fun w => w.core != core || w.place != .resident
      || (w.watchReport.all fun n => decide (at_ ≤ n)) && (w.gangs.all fun x => (w.gangOwes x).all fun n => decide (at_ ≤ n))
        && w.threads.all fun t => !w.owesRecord t || decide (at_ ≤ s.raisedAt t))
    && (s.core core).unformed.all fun r => decide (at_ ≤ r.raised)

/-- R379: the oldest record of a core that names no parked thread is formed when its turn and room have come. -/
def State.formRecord (s : State) (core : Nat) : State :=
  match (s.core core).unformed with
  | [] => s
  | r :: rest =>
    if s.recordRoom core && s.recordTurn core r.raised then
      (s.updCore core fun c => { c with unformed := rest }).postRecord r
    else s

/-- R379: a record of an engine operation or of a store. -/
def State.reportRecord (s : State) (r : FaultRecord) : State :=
  (s.updCore r.core fun c => { c with unformed := c.unformed ++ [r] }).formRecord r.core

/-- R370: every completion flag stands at 0. -/
def Thread.flagsClear (t : Thread) : Bool := t.flags.toList.all (· == 0)

/-- R80: a target as a clause start: the code of the fault, if any. -/
def State.targetFault (s : State) (core part : Nat) (target : DWord) : Option (BitVec 8) :=
  match s.fetchWord core part target with
  | .error c => some c
  | .ok w => if w.extractLsb' 26 6 = 0x3F then none else some codeBadTarget

/-- R80: bits [1:0] or [63:57] of a target. -/
def badTargetBits (target : DWord) : Bool := target.toNat % 4 != 0 || decide (target.toNat ≥ 2 ^ 57)

/-- The status that a parked thread returns to (R63). -/
def Thread.unpark (t : Thread) : Thread :=
  match t.status with
  | .parked h => { t with status := if h then .helper else .live, entry := .none }
  | _ => t

/-- R375: the handler is entered on the faulting thread itself. -/
def Thread.enterHandler (t : Thread) (w : Workgroup) (now : Nat) : Thread :=
  { t.unpark with tpc := t.site.resume, inh := true, pc := w.tvec, mid := none, readyAt := now, kept := t.hold,
                  hold := none, sgw := w.widthOf t }

/-- R381: what a thread does that the watchdog may have stopped: it stays stopped, and the resumption finds it as the act
leaves it. -/
def Thread.underWatch (f : Thread → Thread) (t : Thread) : Thread :=
  match t.watchdog with
  | some st =>
    let u := f { t with status := st, watchdog := none }
    { u with watchdog := some u.status, status := if u.executes then .parked u.isHelper else u.status }
  | none => f t

/-- R375: the thread's record goes to the fault queue. -/
def State.queueThread (s : State) (w : Workgroup) (t : Thread) (hfail : Bool) : State :=
  let d : FaultDetail := { code := t.fcode, addr := t.faddr, gen := t.fgen }
  let at_ := s.raisedAt t
  let r := { s.mkRecord w 0 t.warp t.lane d t.fpc t.finfo 0 hfail [t.ref w.id] with ref := at_ / 20, raised := at_ }
  (s.postRecord r).updThread (t.ref w.id) fun t => { t with entry := .recorded }

/-- R379: a thread's record may be formed now. -/
def State.mayRecord (s : State) (w : Workgroup) (t : Thread) : Bool :=
  s.recordRoom w.core && s.recordTurn w.core (s.raisedAt t)

/-- R375, R380: the fetch of the handler failed: the record says so, as soon as it may be formed. -/
def State.handlerFails (s : State) (w : Workgroup) (t : Thread) : State :=
  if s.mayRecord w t then s.queueThread w t true
  else s.updThread (t.ref w.id) fun t => { t with entry := .failed }

/-- R375: the handler is fetched as a clause start, and entered. -/
def State.tryHandler (s : State) (w : Workgroup) (t : Thread) : State :=
  match badTargetBits w.tvec || (s.targetFault w.core w.part w.tvec).isSome with
  | true => s.handlerFails w t
  | false => s.updThread (t.ref w.id) (Thread.underWatch fun t => t.enterHandler w s.time)

/-- R375: trap entry of a parked thread whose flags stand at 0. -/
def State.trapEntry (s : State) (w : Workgroup) (t : Thread) : State :=
  if t.entry == .failed then s.handlerFails w t
  else if routesToHandler w t then s.tryHandler w t
  else if s.mayRecord w t then s.queueThread w t false
  else s

/-- R376: the return from a handler, taken by one thread whose guard is true; the group's clause is over. -/
def State.rett (s : State) (g : Group) (w : Workgroup) (t : Thread) : State :=
  let here : Site := { pc := g.pc, resume := g.pc, resumeIn := some g.ctx, next := g.pc, nextIn := some g.ctx }
  let r := t.ref w.id
  let width (mid : Option ClauseCtx) : Nat := if mid.isSome then t.siteSgw else w.widthOf t
  if !t.inh then s.raise r { code := codeBadTarget, addr := t.tpc } (g.site g.pc)
  else if t.tpc == t.site.resume then
    s.updThread r fun t =>
      { t.finishClause g with
               inh := false, pc := t.site.resume, mid := t.site.resumeIn, group := none, readyAt := s.time, hold := t.kept,
               kept := none, sgw := width t.site.resumeIn }
  else if t.tpc == t.site.next then
    s.updThread r fun t =>
      { t.finishClause g with
               inh := false, pc := t.site.next, mid := t.site.nextIn, group := none, readyAt := s.time, kept := none,
               sgw := width t.site.nextIn }
  else if badTargetBits t.tpc then s.raise r { code := codeBadTarget, addr := t.tpc } here
  else match s.targetFault w.core w.part t.tpc with
    | some c => s.raise r { code := c, addr := t.tpc } here
    | none => s.updThread r fun t => { t with inh := false, pc := t.tpc, kept := none }

end Sys2Proof.Machine
end

