-- ==== Sys2Proof/Machine/Operands.lean ====
section
/-!
DEFINITION. Operand forms: immediates and extension words (02_encoding R41, R90), the fields of the prefixes (R43,
R44), addresses (R46, R144), and the vector words that write registers of their own thread (R92).
-/

namespace Sys2Proof.Machine

/-! ## Immediates -/

/-- R41: the immediate of a VI word, with an extension word ext × 64 + imm6. -/
def Group.extended (g : Group) (imm : BitVec 6) (plain : Word) : Word :=
  match g.mods.ext with
  | some (_, e) => e ++ imm
  | none => plain

/-- R41, R90: imm6 sign-extended without an extension word. -/
def Group.immS (g : Group) (imm : BitVec 6) : Word := g.extended imm (sext 32 imm)

/-- R90: imm6 zero-extended without an extension word. -/
def Group.immZ (g : Group) (imm : BitVec 6) : Word := g.extended imm (zext 32 imm)

/-! ## Arithmetic prefix (R43) -/

/-- What an arithmetic prefix gives its word. -/
structure ArithEnv where
  mask : Nat
  z : Bool
  rnd : Nat
  v4 : Nat

def Group.arith (g : Group) : ArithEnv :=
  match g.mods.arith with
  | some (_, a) => { mask := a.mask.toNat, z := a.z, rnd := a.rnd.toNat, v4 := a.v4.toNat }
  | none => { mask := 0, z := false, rnd := 0, v4 := 0 }

/-- R91: the third source: v4, or the destination when v4 is 0. -/
def ArithEnv.third (e : ArithEnv) (vd : Nat) : Nat := if e.v4 = 0 then vd else e.v4

/-- One thread of an arithmetic word (R43, R92): nothing with its guard false; with its mask predicate false no
result, or zeros under z; else its results and sticky bits. -/
def Thread.arith (t : Thread) (e : ArithEnv) (guard : Bool) (vd nd : Nat) (f : Thread → List Word × BitVec 5) :
    Thread :=
  if !guard then t
  else if t.pred e.mask then (t.setRegs vd (f t).1).orFpstat (f t).2
  else if e.z then t.setRegs vd (List.replicate nd 0)
  else t

/-- An arithmetic word: `nd` destination registers from `vd`, sources `srcs`, its guard, and its result for one
thread. -/
def arithWord (w : WordRule) (vd nd : Nat) (srcs : List Nat) (guard : Thread → Bool)
    (f : Group → Thread → List Word × BitVec 5) : State → Answer :=
  issue w ((List.range nd).map (vd + ·) ++ srcs) (fillSources w guard srcs) noHold fun g s =>
    s.mapGroup g.id fun _ t => t.arith g.arith (guard t) vd nd (f g)

/-- The rule of an integer vector word: an arithmetic prefix with mask and z only (R92). -/
def intRule : WordRule := { prefixKind := .arith }

/-- A V3 integer word: one result of v[va] and v[vb]. -/
def intV3 (o : V3Args) (f : Word → Word → Word) : State → Answer :=
  arithWord intRule o.vd.toNat 1 [o.va.toNat, o.vb.toNat] (·.guard o.guard o.neg)
    fun _ t => ([f (t.reg o.va.toNat) (t.reg o.vb.toNat)], 0)

/-- A V3 integer word of one source. -/
def intV2 (o : V2Args) (f : Word → Word) : State → Answer :=
  arithWord intRule o.vd.toNat 1 [o.va.toNat] (·.guard o.guard o.neg)
    fun _ t => ([f (t.reg o.va.toNat)], 0)

/-- A VI integer word; `imm` forms its immediate. -/
def intVI (o : VIArgs) (imm : Group → BitVec 6 → Word) (f : Word → Word → Word) : State → Answer :=
  arithWord { intRule with ext := true } o.vd.toNat 1 [o.va.toNat] (·.guard o.guard o.neg)
    fun g t => ([f (t.reg o.va.toNat) (imm g o.imm)], 0)

/-- A word with a third source (R91): v4 of the prefix, or the old destination. -/
def intThird (o : V3Args) (f : Word → Word → Word → Word) : State → Answer :=
  let rule : WordRule := { intRule with v4 := .reg }
  issue rule [o.vd.toNat, o.va.toNat, o.vb.toNat]
    (fun g s => fillSources rule (·.guard o.guard o.neg) [o.va.toNat, o.vb.toNat, g.arith.third o.vd.toNat] g s) noHold
    fun g s => s.mapGroup g.id fun _ t => t.arith g.arith (t.guard o.guard o.neg) o.vd.toNat 1 fun t =>
      ([f (t.reg o.va.toNat) (t.reg o.vb.toNat) (t.reg (g.arith.third o.vd.toNat))], 0)

/-- A word with a third source pair and a destination pair (R91). -/
def intThird64 (o : V3Args) (f : Word → Word → DWord → DWord) : State → Answer :=
  let rule : WordRule := { intRule with v4 := .pair }
  let vd := o.vd.toNat
  issue rule [vd, vd + 1, o.va.toNat, o.vb.toNat]
    (fun g s => fillSources rule (·.guard o.guard o.neg)
      [o.va.toNat, o.vb.toNat, g.arith.third vd, g.arith.third vd + 1] g s) noHold
    fun g s => s.mapGroup g.id fun _ t => t.arith g.arith (t.guard o.guard o.neg) vd 2 fun t =>
      let r := f (t.reg o.va.toNat) (t.reg o.vb.toNat) (t.reg64 (g.arith.third vd))
      ([lo32 r, hi32 r], 0)

/-! ## Memory prefix (R44) -/

/-- Scope and order of a memory or engine word; .pkg and relaxed without a prefix. -/
def Group.scope (g : Group) : Nat := (g.mods.mem.map fun m => m.2.scope.toNat).getD 2
def Group.order (g : Group) : Nat := (g.mods.mem.map fun m => m.2.order.toNat).getD 0

def isAcquire (order : Nat) : Bool := order == 1 || order == 3
def isRelease (order : Nat) : Bool := order == 2 || order == 3

/-! ## Addresses (R46, R144) -/

/-- R41: the offset of a format M word. -/
def Group.offset (g : Group) : DWord := (g.mods.ext.map fun e => sext 64 e.2).getD 0

/-- R46: the address of a format M word for one thread. -/
def State.address (s : State) (g : Group) (r : TRef) (t : Thread) (mode : Bool) (wb : BitVec 5) (vo : BitVec 6) :
    DWord :=
  if mode then t.reg64 vo.toNat + g.offset
  else s.warpReg r wb.toNat + zext 64 (t.reg vo.toNat) + g.offset

/-- The registers that an address reads. -/
def addressRegs (mode : Bool) (vo : BitVec 6) : List Nat := if mode then [vo.toNat, vo.toNat + 1] else [vo.toNat]

/-- R144: the offset of a scratchpad word. -/
def Group.spadAddress (g : Group) (t : Thread) (vo : BitVec 6) : DWord := zext 64 (t.reg vo.toNat) + g.offset

end Sys2Proof.Machine
end

