-- ==== Sys2Proof/Machine/Integer.lean ====
section
/-!
DEFINITION. The integer, logic, bit, multiply-add and move words, majors 0x00 to 0x06 (04_integer R90 to R102).
-/

namespace Sys2Proof.Machine

/-! ## Integer arithmetic (R94) -/

/-- Sat(x, −2^31, 2^31 − 1). -/
def sat32 (x : Int) : Word := BitVec.ofInt 32 (max (-2147483648) (min 2147483647 x))

def mulHighS (a b : Word) : Word := hi32 (sext 64 a * sext 64 b)
def mulHighU (a b : Word) : Word := hi32 (zext 64 a * zext 64 b)
def minS (a b : Word) : Word := if a.sle b then a else b
def maxS (a b : Word) : Word := if a.sle b then b else a
def minU (a b : Word) : Word := if a.ule b then a else b
def maxU (a b : Word) : Word := if a.ule b then b else a
def addSat (a b : Word) : Word := sat32 (a.toInt + b.toInt)
def subSat (a b : Word) : Word := sat32 (a.toInt - b.toInt)

/-! ## Shifts (R95, R100) -/

/-- The count of a shift: bits [7:0]. -/
def shiftCount (b : Word) : Nat := field b 7 0

def shl32 (a b : Word) : Word := if shiftCount b < 32 then a <<< shiftCount b else 0
def shr32 (a b : Word) : Word := if shiftCount b < 32 then a >>> shiftCount b else 0
def sar32 (a b : Word) : Word := a.sshiftRight (min (shiftCount b) 31)
def rotl32 (a b : Word) : Word := a.rotateLeft (field b 4 0)
def rotr32 (a b : Word) : Word := a.rotateRight (field b 4 0)
def shl64 (a : DWord) (b : Word) : DWord := if shiftCount b < 64 then a <<< shiftCount b else 0
def shr64 (a : DWord) (b : Word) : DWord := if shiftCount b < 64 then a >>> shiftCount b else 0

/-! ## Bit operations (R96 to R98) -/

/-- Bits of a word, bit 0 first. -/
def bitsOf (a : Word) : List Bool := (List.range 32).map fun i => a.getLsbD i

/-- How many elements of a list of bits are 0 before the first 1. -/
def zerosBefore : List Bool → Nat
  | [] => 0
  | true :: _ => 0
  | false :: bs => zerosBefore bs + 1

def popCount (a : Word) : Word := BitVec.ofNat 32 ((bitsOf a).filter id).length
def leadingZeros (a : Word) : Word := BitVec.ofNat 32 (zerosBefore (bitsOf a).reverse)
def trailingZeros (a : Word) : Word := BitVec.ofNat 32 (zerosBefore (bitsOf a))
def bitReverse (a : Word) : Word := a.reverse
def byteSwap (a : Word) : Word :=
  a.extractLsb' 0 8 ++ a.extractLsb' 8 8 ++ a.extractLsb' 16 8 ++ a.extractLsb' 24 8

/-- R97: position and width of a field. -/
def fieldPos (ctl : Word) : Nat := field ctl 7 0
def fieldWidth (ctl : Word) : Nat :=
  let len := field ctl 15 8
  if len = 0 ∨ fieldPos ctl ≥ 32 then 0 else min len (32 - fieldPos ctl)

/-- R97: the mask M. -/
def fieldMask (ctl : Word) : Word := BitVec.ofNat 32 ((2 ^ fieldWidth ctl - 1) * 2 ^ fieldPos ctl)

def fieldZ (a ctl : Word) : Word := (a &&& fieldMask ctl) >>> fieldPos ctl

def fieldS (a ctl : Word) : Word :=
  let n := fieldWidth ctl
  let x := fieldZ a ctl
  if n = 0 then 0 else if x.getLsbD (n - 1) then x ||| ~~~(BitVec.ofNat 32 (2 ^ n - 1)) else x

def fieldInsert (a ctl c : Word) : Word := (c &&& ~~~fieldMask ctl) ||| ((a <<< fieldPos ctl) &&& fieldMask ctl)

def funnelShift (a b c : Word) : Word := hi32 ((a ++ b) <<< field c 4 0)

/-- R98: byte k of the result, from the byte below it as built. -/
def selectByte (a b c : Word) (k : Nat) (below : Byte) : Byte :=
  let x : Byte := (b ++ a).extractLsb' (8 * field c (3 * k + 2) (3 * k)) 8
  let x := if k ≥ 1 && c.getLsbD (16 + k) then (if below.getLsbD 7 then 0xFF else 0x00) else x
  if c.getLsbD (12 + k) then 0x00 else x

def byteSelect (a b c : Word) : Word :=
  let x0 := selectByte a b c 0 0
  let x1 := selectByte a b c 1 x0
  let x2 := selectByte a b c 2 x1
  let x3 := selectByte a b c 3 x2
  x3 ++ x2 ++ x1 ++ x0

/-! ## Multiply-add (R99) -/

/-- Byte i of a word. -/
def byteOf (a : Word) (i : Nat) : Byte := a.extractLsb' (8 * i) 8

/-- The sum over the four bytes of two words. -/
def sumBytes (f : Byte → Byte → Int) (a b : Word) : Int :=
  f (byteOf a 0) (byteOf b 0) + f (byteOf a 1) (byteOf b 1) + f (byteOf a 2) (byteOf b 2) + f (byteOf a 3) (byteOf b 3)

def absDiffSum (a b c : Word) : Word :=
  BitVec.ofInt 32 (c.toNat + sumBytes (fun x y => ((x.toNat : Int) - y.toNat).natAbs) a b)
def dotS (a b c : Word) : Word := BitVec.ofInt 32 (c.toNat + sumBytes (fun x y => x.toInt * y.toInt) a b)
def dotU (a b c : Word) : Word := BitVec.ofInt 32 (c.toNat + sumBytes (fun x y => x.toNat * y.toNat) a b)

/-! ## The words -/

/-- IADD (R94). -/
def execIadd (o : V3Args) (s : State) : Answer := intV3 o (fun a b => a + b) s

/-- ISUB (R94). -/
def execIsub (o : V3Args) (s : State) : Answer := intV3 o (fun a b => a - b) s

/-- IMUL (R94). -/
def execImul (o : V3Args) (s : State) : Answer := intV3 o (fun a b => a * b) s

/-- IMULHS (R94). -/
def execImulhs (o : V3Args) (s : State) : Answer := intV3 o (mulHighS) s

/-- IMULHU (R94). -/
def execImulhu (o : V3Args) (s : State) : Answer := intV3 o (mulHighU) s

/-- IMINS (R94). -/
def execImins (o : V3Args) (s : State) : Answer := intV3 o (minS) s

/-- IMAXS (R94). -/
def execImaxs (o : V3Args) (s : State) : Answer := intV3 o (maxS) s

/-- IMINU (R94). -/
def execIminu (o : V3Args) (s : State) : Answer := intV3 o (minU) s

/-- IMAXU (R94). -/
def execImaxu (o : V3Args) (s : State) : Answer := intV3 o (maxU) s

/-- IADDSS (R94). -/
def execIaddss (o : V3Args) (s : State) : Answer := intV3 o (addSat) s

/-- ISUBSS (R94). -/
def execIsubss (o : V3Args) (s : State) : Answer := intV3 o (subSat) s

/-- IADD with an immediate (R94). -/
def execIaddI (o : VIArgs) (s : State) : Answer := intVI o Group.immS (fun a b => a + b) s

/-- ISUB with an immediate (R94). -/
def execIsubI (o : VIArgs) (s : State) : Answer := intVI o Group.immS (fun a b => a - b) s

/-- IMUL with an immediate (R94). -/
def execImulI (o : VIArgs) (s : State) : Answer := intVI o Group.immS (fun a b => a * b) s

/-- IMULHS with an immediate (R94). -/
def execImulhsI (o : VIArgs) (s : State) : Answer := intVI o Group.immS (mulHighS) s

/-- IMULHU with an immediate (R94). -/
def execImulhuI (o : VIArgs) (s : State) : Answer := intVI o Group.immS (mulHighU) s

/-- IMINS with an immediate (R94). -/
def execIminsI (o : VIArgs) (s : State) : Answer := intVI o Group.immS (minS) s

/-- IMAXS with an immediate (R94). -/
def execImaxsI (o : VIArgs) (s : State) : Answer := intVI o Group.immS (maxS) s

/-- IMINU with an immediate (R94). -/
def execIminuI (o : VIArgs) (s : State) : Answer := intVI o Group.immS (minU) s

/-- IMAXU with an immediate (R94). -/
def execImaxuI (o : VIArgs) (s : State) : Answer := intVI o Group.immS (maxU) s

/-- IADDSS with an immediate (R94). -/
def execIaddssI (o : VIArgs) (s : State) : Answer := intVI o Group.immS (addSat) s

/-- ISUBSS with an immediate (R94). -/
def execIsubssI (o : VIArgs) (s : State) : Answer := intVI o Group.immS (subSat) s

/-- AND (R95). -/
def execAnd (o : V3Args) (s : State) : Answer := intV3 o (fun a b => a &&& b) s

/-- OR (R95). -/
def execOr (o : V3Args) (s : State) : Answer := intV3 o (fun a b => a ||| b) s

/-- XOR (R95). -/
def execXor (o : V3Args) (s : State) : Answer := intV3 o (fun a b => a ^^^ b) s

/-- ANDN (R95). -/
def execAndn (o : V3Args) (s : State) : Answer := intV3 o (fun a b => a &&& ~~~b) s

/-- ORN (R95). -/
def execOrn (o : V3Args) (s : State) : Answer := intV3 o (fun a b => a ||| ~~~b) s

/-- XNOR (R95). -/
def execXnor (o : V3Args) (s : State) : Answer := intV3 o (fun a b => ~~~(a ^^^ b)) s

/-- SHL (R95). -/
def execShl (o : V3Args) (s : State) : Answer := intV3 o (shl32) s

/-- SHR (R95). -/
def execShr (o : V3Args) (s : State) : Answer := intV3 o (shr32) s

/-- SAR (R95). -/
def execSar (o : V3Args) (s : State) : Answer := intV3 o (sar32) s

/-- ROTL (R95). -/
def execRotl (o : V3Args) (s : State) : Answer := intV3 o (rotl32) s

/-- ROTR (R95). -/
def execRotr (o : V3Args) (s : State) : Answer := intV3 o (rotr32) s

/-- AND with an immediate (R95). -/
def execAndI (o : VIArgs) (s : State) : Answer := intVI o Group.immS (fun a b => a &&& b) s

/-- OR with an immediate (R95). -/
def execOrI (o : VIArgs) (s : State) : Answer := intVI o Group.immS (fun a b => a ||| b) s

/-- XOR with an immediate (R95). -/
def execXorI (o : VIArgs) (s : State) : Answer := intVI o Group.immS (fun a b => a ^^^ b) s

/-- ANDN with an immediate (R95). -/
def execAndnI (o : VIArgs) (s : State) : Answer := intVI o Group.immS (fun a b => a &&& ~~~b) s

/-- ORN with an immediate (R95). -/
def execOrnI (o : VIArgs) (s : State) : Answer := intVI o Group.immS (fun a b => a ||| ~~~b) s

/-- XNOR with an immediate (R95). -/
def execXnorI (o : VIArgs) (s : State) : Answer := intVI o Group.immS (fun a b => ~~~(a ^^^ b)) s

/-- SHL with an immediate (R95). -/
def execShlI (o : VIArgs) (s : State) : Answer := intVI o Group.immZ (shl32) s

/-- SHR with an immediate (R95). -/
def execShrI (o : VIArgs) (s : State) : Answer := intVI o Group.immZ (shr32) s

/-- SAR with an immediate (R95). -/
def execSarI (o : VIArgs) (s : State) : Answer := intVI o Group.immZ (sar32) s

/-- ROTL with an immediate (R95). -/
def execRotlI (o : VIArgs) (s : State) : Answer := intVI o Group.immZ (rotl32) s

/-- ROTR with an immediate (R95). -/
def execRotrI (o : VIArgs) (s : State) : Answer := intVI o Group.immZ (rotr32) s

/-- POPC (R96). -/
def execPopc (o : V2Args) (s : State) : Answer := intV2 o (popCount) s

/-- CLZ (R96). -/
def execClz (o : V2Args) (s : State) : Answer := intV2 o (leadingZeros) s

/-- CTZ (R96). -/
def execCtz (o : V2Args) (s : State) : Answer := intV2 o (trailingZeros) s

/-- BREV (R96). -/
def execBrev (o : V2Args) (s : State) : Answer := intV2 o (bitReverse) s

/-- BFEZ (R97). -/
def execBfez (o : V3Args) (s : State) : Answer := intV3 o (fieldZ) s

/-- BFES (R97). -/
def execBfes (o : V3Args) (s : State) : Answer := intV3 o (fieldS) s

/-- BFI (R97). -/
def execBfi (o : V3Args) (s : State) : Answer := intThird o (fieldInsert) s

/-- FSHL (R96). -/
def execFshl (o : V3Args) (s : State) : Answer := intThird o (funnelShift) s

/-- BSEL (R98). -/
def execBsel (o : V3Args) (s : State) : Answer := intThird o (byteSelect) s

/-- BSWAP (R96). -/
def execBswap (o : V2Args) (s : State) : Answer := intV2 o (byteSwap) s

/-- IMAD (R99). -/
def execImad (o : V3Args) (s : State) : Answer := intThird o (fun a b c => a * b + c) s

/-- IMADHS (R99). -/
def execImadhs (o : V3Args) (s : State) : Answer := intThird o (fun a b c => mulHighS a b + c) s

/-- IMADHU (R99). -/
def execImadhu (o : V3Args) (s : State) : Answer := intThird o (fun a b c => mulHighU a b + c) s

/-- IMADW (R99). -/
def execImadw (o : V3Args) (s : State) : Answer := intThird64 o (fun a b c => zext 64 a * zext 64 b + c) s

/-- IMADWS (R99). -/
def execImadws (o : V3Args) (s : State) : Answer := intThird64 o (fun a b c => sext 64 a * sext 64 b + c) s

/-- ISAD (R99). -/
def execIsad (o : V3Args) (s : State) : Answer := intThird o (absDiffSum) s

/-- IDP4 (R99). -/
def execIdp4 (o : V3Args) (s : State) : Answer := intThird o (dotS) s

/-- IDP4Z (R99). -/
def execIdp4z (o : V3Args) (s : State) : Answer := intThird o (dotU) s

/-- MOV (R100). -/
def execMov (o : V2Args) (s : State) : Answer := intV2 o (fun a => a) s

/-- MOVI (R100): the immediate of R90. -/
def execMovi (o : VI0Args) (s : State) : Answer :=
  arithWord { intRule with ext := true } o.vd.toNat 1 [] (·.guard o.guard o.neg) (fun g _ => ([g.immS o.imm], 0)) s

/-- SEL (R101): unguarded; the guard field is a selector. -/
def execSel (o : V3Args) (s : State) : Answer :=
  arithWord intRule o.vd.toNat 1 [o.va.toNat, o.vb.toNat] (fun _ => true)
    (fun _ t => ([if t.guard o.guard o.neg then t.reg o.va.toNat else t.reg o.vb.toNat], 0)) s

/-- SEXT8 (R100). -/
def execSext8 (o : V2Args) (s : State) : Answer := intV2 o (fun a => sext 32 (a.extractLsb' 0 8)) s

/-- SEXT16 (R100). -/
def execSext16 (o : V2Args) (s : State) : Answer := intV2 o (fun a => sext 32 (a.extractLsb' 0 16)) s

/-- ZEXT8 (R100). -/
def execZext8 (o : V2Args) (s : State) : Answer := intV2 o (fun a => zext 32 (a.extractLsb' 0 8)) s

/-- ZEXT16 (R100). -/
def execZext16 (o : V2Args) (s : State) : Answer := intV2 o (fun a => zext 32 (a.extractLsb' 0 16)) s

/-- A word over pairs (R102); `nb` registers are read from vb. -/
def intPair (o : V3Args) (nb : Nat) (f : DWord → Thread → DWord) : State → Answer :=
  arithWord intRule o.vd.toNat 2 ([o.va.toNat, o.va.toNat + 1] ++ (List.range nb).map (o.vb.toNat + ·))
    (·.guard o.guard o.neg)
    fun _ t => ([lo32 (f (t.reg64 o.va.toNat) t), hi32 (f (t.reg64 o.va.toNat) t)], 0)

/-- ADD64 (R100, R102). -/
def execAdd64 (o : V3Args) (s : State) : Answer := intPair o 2 (fun a t => a + t.reg64 o.vb.toNat) s

/-- SUB64 (R100, R102). -/
def execSub64 (o : V3Args) (s : State) : Answer := intPair o 2 (fun a t => a - t.reg64 o.vb.toNat) s

/-- SHL64 (R100). -/
def execShl64 (o : V3Args) (s : State) : Answer := intPair o 1 (fun a t => shl64 a (t.reg o.vb.toNat)) s

/-- SHR64 (R100). -/
def execShr64 (o : V3Args) (s : State) : Answer := intPair o 1 (fun a t => shr64 a (t.reg o.vb.toNat)) s

end Sys2Proof.Machine
end

