-- ==== Sys2Proof/Machine/WarpRegs.lean ====
section
/-!
DEFINITION. The warp-register words, major 0x07 (04_integer R103 to R106).
-/

namespace Sys2Proof.Machine

/-- A WREG word takes a hint only (R103). -/
def wregRule : WordRule := {}

/-- The members of a home warp in a group. -/
def State.ofWarp (s : State) (g : Group) (w : Nat × Nat) : List TRef :=
  (s.active g).filter fun r => r.wg == w.1 && r.warp == w.2

/-- R103: whether the guard is true in some member of the warp. -/
def State.warpActs (s : State) (g : Group) (w : Nat × Nat) (guard : BitVec 3) : Bool :=
  (s.ofWarp g w).any fun r => (s.thread? r).any fun t => t.guard guard false

/-- R104: what a word reads of a warp: its registers as they stood before the clk. -/
def Warp.seen (x : Warp) : Warp := match x.before with
  | some v => { x with w := v }
  | none => x

/-- A word that executes once for each home warp with a true guard (R103, R105). -/
def warpWord (guard : BitVec 3) (wd : BitVec 5) (f : Warp → DWord) (s : State) : Answer :=
  issue wregRule [] noFill noHold (fun g s =>
    (s.homeWarps g).foldl (fun s w =>
      if s.warpActs g w guard then s.updWarp w.1 w.2 fun x => x.setReg wd.toNat (f x.seen) else s) s) s

/-- A WREG word of two sources. -/
def warp3 (o : W3Args) (f : DWord → DWord → DWord) : State → Answer :=
  warpWord o.guard o.wd fun x => f (x.reg o.wa.toNat) (x.reg o.wb.toNat)

/-- WADD (R105). -/
def execWadd (o : W3Args) (s : State) : Answer := warp3 o (fun a b => a + b) s

/-- WSUB (R105). -/
def execWsub (o : W3Args) (s : State) : Answer := warp3 o (fun a b => a - b) s

/-- WMUL (R105). -/
def execWmul (o : W3Args) (s : State) : Answer := warp3 o (fun a b => a * b) s

/-- WAND (R105). -/
def execWand (o : W3Args) (s : State) : Answer := warp3 o (fun a b => a &&& b) s

/-- WOR (R105). -/
def execWor (o : W3Args) (s : State) : Answer := warp3 o (fun a b => a ||| b) s

/-- WXOR (R105). -/
def execWxor (o : W3Args) (s : State) : Answer := warp3 o (fun a b => a ^^^ b) s

/-- WSHL (R105): the count is bits [7:0]. -/
def execWshl (o : W3Args) (s : State) : Answer := warp3 o (fun a b => shl64 a (lo32 b)) s

/-- WSHR (R105). -/
def execWshr (o : W3Args) (s : State) : Answer := warp3 o (fun a b => shr64 a (lo32 b)) s

/-- WMOV (R105). -/
def execWmov (o : W2Args) (s : State) : Answer := warpWord o.guard o.wd (fun x => x.reg o.wa.toNat) s

/-- WMOVI (R105). -/
def execWmovi (o : WIArgs) (s : State) : Answer := warpWord o.guard o.wd (fun _ => sext 64 o.imm) s

/-- WLEA (R105). -/
def execWlea (o : WLArgs) (s : State) : Answer :=
  warpWord o.guard o.wd (fun x => x.reg o.wa.toNat + (x.reg o.wb.toNat <<< o.sh.toNat)) s

/-- R106: the lowest-laned member of a warp whose guard is true. -/
def State.warpSource (s : State) (g : Group) (w : Nat × Nat) (guard : BitVec 3) : Option TRef :=
  (s.ofWarp g w).find? fun r => (s.thread? r).any fun t => t.guard guard false

/-- V2W (R106). -/
def execV2w (o : WVArgs) (s : State) : Answer :=
  let k := 2 * o.k.toNat
  let regs := if o.s then [k] else [k, k + 1]
  issue wregRule regs
    (fun g s => s.fillFor g ((s.homeWarps g).filterMap fun w => s.warpSource g w o.guard) (fun _ => true) regs) noHold
    (fun g s => (s.homeWarps g).foldl (fun s w =>
      match (s.warpSource g w o.guard).bind s.thread? with
      | some t => s.updWarp w.1 w.2 fun x =>
          x.setReg o.wd.toNat (if o.s then sext 64 (t.reg k) else t.reg64 k)
      | none => s) s) s

/-- W2V (R106). -/
def execW2v (o : VWArgs) (s : State) : Answer :=
  let k := 2 * o.k.toNat
  issue wregRule [k, k + 1] noFill noHold
    (fun g s => s.mapGroup g.id fun w t =>
      if t.guard o.guard false then t.setReg64 k (((w.warp? t.warp).map (·.seen.reg o.wa.toNat)).getD 0) else t) s

/-! ## Two words of one warp in one clk (R104) -/

/-- A warp of the picker keeps what its registers hold now. -/
def Warp.keep (x : Warp) (picker : Nat) : Warp := if x.picker == picker then { x with before := some x.w } else x

/-- A clk of a picker begins. -/
def State.beginClk (s : State) (core picker : Nat) : State :=
  { s with wgs := s.wgs.map fun w =>
      if w.core == core && w.place == .resident then { w with warps := w.warps.map fun x => x.keep picker } else w }

/-- The clk is over. -/
def State.endClk (s : State) : State :=
  { s with wgs := s.wgs.map fun w => { w with warps := w.warps.map fun x => { x with before := none } } }

/-- R67: two groups in flight at one picker, the first formed earlier. -/
def Group.pairs (g h : Group) : Bool := g.core == h.core && g.picker == h.picker && decide (g.id < h.id)

end Sys2Proof.Machine
end

