-- ==== Sys2Proof/Machine/Flags.lean ====
section
/-!
DEFINITION. Every flag computation of the float words: formats, exact values, rounding and the sticky bits of %fpstat
(05_float_sfu R109 to R113, R117, R121; 03_control R73). Values are exact numbers m × 2^e until one rounding.
-/

namespace Sys2Proof.Machine

/-! ## %fpstat (R113) -/

def fpNV : BitVec 5 := 1
def fpDZ : BitVec 5 := 2
def fpOF : BitVec 5 := 4
def fpUF : BitVec 5 := 8
def fpNX : BitVec 5 := 16

/-! ## Formats (R109) -/

/-- A format: all its bits, its precision with the hidden bit, its bias. -/
structure Fmt where
  width : Nat
  p : Nat
  bias : Nat

def fp32 : Fmt := { width := 32, p := 24, bias := 127 }
def fp16 : Fmt := { width := 16, p := 11, bias := 15 }
def bf16 : Fmt := { width := 16, p := 8, bias := 127 }

/-- The exponent field of all ones, in place. -/
def Fmt.infBits (f : Fmt) : Nat := (2 ^ (f.width - f.p) - 1) * 2 ^ (f.p - 1)
def Fmt.maxFinite (f : Fmt) : Nat := f.infBits - 1
def Fmt.canonNan (f : Fmt) : Nat := f.infBits + 2 ^ (f.p - 2)
def Fmt.signBit (f : Fmt) : Nat := 2 ^ (f.width - 1)
/-- The exponent of the smallest subnormal. -/
def Fmt.qmin (f : Fmt) : Int := 1 - (f.bias : Int) - (f.p - 1 : Nat)

/-- What a bit pattern stands for; a finite value is (−1)^neg × m × 2^e. -/
inductive FVal where
  | nan (signalling : Bool)
  | inf (neg : Bool)
  | fin (neg : Bool) (m : Nat) (e : Int)
  deriving DecidableEq, Repr

/-- Reading a pattern (R109). -/
def Fmt.decode (f : Fmt) (x : Nat) : FVal :=
  let neg := decide (x / f.signBit % 2 = 1)
  let ex := x / 2 ^ (f.p - 1) % 2 ^ (f.width - f.p)
  let fr := x % 2 ^ (f.p - 1)
  if ex = 2 ^ (f.width - f.p) - 1 then
    if fr = 0 then .inf neg else .nan (decide (fr < 2 ^ (f.p - 2)))
  else if ex = 0 then .fin neg fr f.qmin
  else .fin neg (fr + 2 ^ (f.p - 1)) (f.qmin + (ex - 1 : Nat))

/-- A 32-bit register as FP32, and half of one as a 16-bit format. -/
def f32 (x : Word) : FVal := fp32.decode x.toNat
def half (f : Fmt) (x : Word) (hi : Bool) : FVal := f.decode (if hi then field x 31 16 else field x 15 0)

/-! ## Rounding (R111, R112) -/

/-- m × 2^e in units of 2^q, rounded by a mode of R111, and whether that is inexact. -/
def roundUnits (mode : Nat) (neg : Bool) (m : Nat) (e q : Int) : Nat × Bool :=
  if q ≤ e then (m * 2 ^ (e - q).toNat, false)
  else
    let d := 2 ^ (q - e).toNat
    let n := m / d
    let rem := m % d
    let up := match mode with
      | 0 => decide (2 * rem > d) || (decide (2 * rem = d) && n % 2 == 1)
      | 1 => false
      | 2 => neg && rem != 0
      | 3 => !neg && rem != 0
      | _ => decide (2 * rem ≥ d)
    (if up then n + 1 else n, rem != 0)

/-- The number of bits of m. -/
def bitLength (m : Nat) : Nat := if m = 0 then 0 else Nat.log2 m + 1

/-- R111: the pattern of an overflow. -/
def Fmt.overflow (f : Fmt) (mode : Nat) (neg : Bool) : Nat :=
  let toInf := match mode with
    | 0 => true
    | 1 => false
    | 2 => neg
    | 3 => !neg
    | _ => true
  if toInf then f.infBits else f.maxFinite

/-- R111, R112: one rounding of an exact finite value: the pattern without its sign, and the sticky bits. -/
def Fmt.roundMag (f : Fmt) (mode : Nat) (neg : Bool) (m : Nat) (e : Int) : Nat × BitVec 5 :=
  if m = 0 then (0, 0)
  else
    let q0 := e + bitLength m - f.p
    let n0 := (roundUnits mode neg m e q0).1
    let top := q0 + bitLength n0 - 1
    if top > f.bias then (f.overflow mode neg, fpOF ||| fpNX)
    else
      let q := max q0 f.qmin
      let r := roundUnits mode neg m e q
      let tiny := decide (top < 1 - (f.bias : Int))
      ((q - f.qmin).toNat * 2 ^ (f.p - 1) + r.1, (if r.2 then fpNX else 0) ||| (if r.2 && tiny then fpUF else 0))

def Fmt.signed (f : Fmt) (neg : Bool) (mag : Nat) : Nat := if neg then mag + f.signBit else mag

/-- An exact value as a pattern of the format (R110 to R112). -/
def Fmt.round (f : Fmt) (mode : Nat) : FVal → Nat × BitVec 5
  | .nan _ => (f.canonNan, 0)
  | .inf neg => (f.signed neg f.infBits, 0)
  | .fin neg m e => (f.signed neg (f.roundMag mode neg m e).1, (f.roundMag mode neg m e).2)

/-! ## Exact arithmetic (R110, R111) -/

def FVal.isNan : FVal → Bool
  | .nan _ => true
  | _ => false
def FVal.isSignalling : FVal → Bool
  | .nan s => s
  | _ => false

/-- NV for a signalling NaN among the operands. -/
def nvOf (vs : List FVal) : BitVec 5 := if vs.any (·.isSignalling) then fpNV else 0

/-- The signed integer m × 2^(e − q). -/
def units (neg : Bool) (m : Nat) (e q : Int) : Int :=
  let x : Int := m * 2 ^ (e - q).toNat
  if neg then -x else x

def FVal.negate : FVal → FVal
  | .nan s => .nan s
  | .inf n => .inf !n
  | .fin n m e => .fin (!n) m e

/-- The exact sum; the sign of an exact zero by mode (R111). -/
def FVal.add (mode : Nat) (a b : FVal) : FVal × BitVec 5 :=
  match a, b with
  | .nan _, _ => (.nan false, nvOf [a, b])
  | _, .nan _ => (.nan false, nvOf [a, b])
  | .inf x, .inf y => if x == y then (.inf x, 0) else (.nan false, fpNV)
  | .inf x, .fin .. => (.inf x, 0)
  | .fin .., .inf y => (.inf y, 0)
  | .fin n1 m1 e1, .fin n2 m2 e2 =>
    let q := min e1 e2
    let x := units n1 m1 e1 q + units n2 m2 e2 q
    if x = 0 then (.fin (if n1 == n2 then n1 else mode == 2) 0 q, 0)
    else (.fin (decide (x < 0)) x.natAbs q, 0)

/-- The exact product. -/
def FVal.mul (a b : FVal) : FVal × BitVec 5 :=
  match a, b with
  | .nan _, _ => (.nan false, nvOf [a, b])
  | _, .nan _ => (.nan false, nvOf [a, b])
  | .inf x, .inf y => (.inf (x != y), 0)
  | .inf x, .fin y m _ => if m = 0 then (.nan false, fpNV) else (.inf (x != y), 0)
  | .fin x m _, .inf y => if m = 0 then (.nan false, fpNV) else (.inf (x != y), 0)
  | .fin x m e, .fin y n k => (.fin (x != y) (m * n) (e + k), 0)

/-- a × b + c, exact; 0 × ∞ is invalid whatever c is (R110). -/
def FVal.fma (mode : Nat) (a b c : FVal) : FVal × BitVec 5 :=
  let p := a.mul b
  let s := p.1.add mode c
  (s.1, p.2 ||| s.2 ||| nvOf [a, b, c])

/-- One rounded operation of a format. -/
def Fmt.op (f : Fmt) (mode : Nat) (r : FVal × BitVec 5) : Nat × BitVec 5 :=
  ((f.round mode r.1).1, (f.round mode r.1).2 ||| r.2)

/-! ## Comparing (R73, R117) -/

/-- A non-NaN pattern as an integer in the order of R117: −0 below +0. -/
def Fmt.key (f : Fmt) (x : Nat) : Int :=
  let mag : Int := (x % f.signBit : Nat)
  if x / f.signBit % 2 = 1 then -mag - 1 else mag

/-- A non-NaN pattern as an integer in the order of values: −0 equals +0 (R73). -/
def Fmt.orderKey (f : Fmt) (x : Nat) : Int :=
  let mag : Int := (x % f.signBit : Nat)
  if x / f.signBit % 2 = 1 then -mag else mag

/-- R117: the smaller or larger of two patterns. `propagate`: a NaN operand gives a NaN (minimum, maximum). -/
def Fmt.minMax (f : Fmt) (larger propagate : Bool) (x y : Nat) : Nat × BitVec 5 :=
  let a := f.decode x
  let b := f.decode y
  let nv := nvOf [a, b]
  match a.isNan, b.isNan with
  | true, true => (f.canonNan, nv)
  | true, false => (if propagate then f.canonNan else y, nv)
  | false, true => (if propagate then f.canonNan else x, nv)
  | false, false =>
    let first := if larger then decide (f.key y ≤ f.key x) else decide (f.key x ≤ f.key y)
    (if first then x else y, nv)

/-! ## Conversions (R120, R121) -/

/-- R121: RoundInt of a finite value. -/
def roundInt (mode : Nat) (neg : Bool) (m : Nat) (e : Int) : Int × Bool :=
  let r := roundUnits mode neg m e 0
  (if neg then -(r.1 : Int) else r.1, r.2)

/-- R121: an integer from FP32, between two limits. -/
def floatToInt (mode : Nat) (lo hi : Int) (a : FVal) : Word × BitVec 5 :=
  match a with
  | .nan _ => (0, fpNV)
  | .inf neg => (BitVec.ofInt 32 (if neg then lo else hi), fpNV)
  | .fin neg m e =>
    let r := roundInt mode neg m e
    if r.1 > hi then (BitVec.ofInt 32 hi, fpNV)
    else if r.1 < lo then (BitVec.ofInt 32 lo, fpNV)
    else (BitVec.ofInt 32 r.1, if r.2 then fpNX else 0)

/-- An integer as an exact value. -/
def intVal (x : Int) : FVal := .fin (decide (x < 0)) x.natAbs 0

/-- floor(log2 |a|) of a nonzero value. -/
def log2Floor (m : Nat) (e : Int) : Int := e + (bitLength m : Int) - 1

end Sys2Proof.Machine
end

