-- ==== Sys2Proof/Machine/Float.lean ====
section
/-!
DEFINITION. The float words of majors 0x08 to 0x0B (05_float_sfu R115 to R122).
-/

namespace Sys2Proof.Machine

/-- Accepts mask and z; `rnd` and a third source where the entry takes them (R115). -/
def floatRule (rnd third : Bool) : WordRule :=
  { prefixKind := .arith, rnd := rnd, v4 := if third then .reg else .none }

/-- One result word with its sticky bits. -/
abbrev FResult := Word × BitVec 5

def word32 (r : Nat × BitVec 5) : FResult := (BitVec.ofNat 32 r.1, r.2)

/-- A float word of two sources; `m` is the mode. -/
def floatV3 (o : V3Args) (rnd : Bool) (f : Nat → Word → Word → FResult) : State → Answer :=
  arithWord (floatRule rnd false) o.vd.toNat 1 [o.va.toNat, o.vb.toNat] (·.guard o.guard o.neg) fun g t =>
    let r := f g.arith.rnd (t.reg o.va.toNat) (t.reg o.vb.toNat)
    ([r.1], r.2)

/-- A float word of one source. -/
def floatV2 (o : V2Args) (rnd : Bool) (f : Nat → Word → FResult) : State → Answer :=
  arithWord (floatRule rnd false) o.vd.toNat 1 [o.va.toNat] (·.guard o.guard o.neg) fun g t =>
    let r := f g.arith.rnd (t.reg o.va.toNat)
    ([r.1], r.2)

/-- A float word with a third source (R115). -/
def floatThird (o : V3Args) (f : Nat → Word → Word → Word → FResult) : State → Answer :=
  let rule := floatRule true true
  issue rule [o.vd.toNat, o.va.toNat, o.vb.toNat]
    (fun g s => fillSources rule (·.guard o.guard o.neg) [o.va.toNat, o.vb.toNat, g.arith.third o.vd.toNat] g s) noHold
    fun g s => s.mapGroup g.id fun _ t => t.arith g.arith (t.guard o.guard o.neg) o.vd.toNat 1 fun t =>
      let r := f g.arith.rnd (t.reg o.va.toNat) (t.reg o.vb.toNat) (t.reg (g.arith.third o.vd.toNat))
      ([r.1], r.2)

/-! ## FALU (R116, R117) -/

def addF32 (m : Nat) (a b : Word) : FResult := word32 (fp32.op m ((f32 a).add m (f32 b)))
def subF32 (m : Nat) (a b : Word) : FResult := word32 (fp32.op m ((f32 a).add m (f32 b).negate))
def mulF32 (m : Nat) (a b : Word) : FResult := word32 (fp32.op m ((f32 a).mul (f32 b)))
def minMaxF32 (larger propagate : Bool) (a b : Word) : FResult :=
  word32 (fp32.minMax larger propagate a.toNat b.toNat)

/-- The canonical NaN of FP32. -/
def nan32 : Word := 0x7FC00000

/-- A bit operation on a non-NaN; a NaN gives the canonical NaN and sets no bit (R116). -/
def signOp (a r : Word) : FResult := if (f32 a).isNan then (nan32, 0) else (r, 0)

def signMask : Word := 0x80000000

def copySign (a b : Word) : FResult := signOp a ((a &&& ~~~signMask) ||| (b &&& signMask))
def absF32 (a : Word) : FResult := signOp a (a &&& ~~~signMask)
def negF32 (a : Word) : FResult := signOp a (a ^^^ signMask)

/-- FSAT (R117). -/
def satF32 (a : Word) : FResult :=
  match f32 a with
  | .nan s => (0, if s then fpNV else 0)
  | _ =>
    if fp32.orderKey a.toNat ≤ 0 then (0, 0)
    else if fp32.orderKey a.toNat > 0x3F800000 then (0x3F800000, 0)
    else (a, 0)

/-- FADD (R116). -/
def execFadd (o : V3Args) (s : State) : Answer := floatV3 o true addF32 s

/-- FSUB (R116). -/
def execFsub (o : V3Args) (s : State) : Answer := floatV3 o true subF32 s

/-- FMUL (R116). -/
def execFmul (o : V3Args) (s : State) : Answer := floatV3 o true mulF32 s

/-- FMIN (R117). -/
def execFmin (o : V3Args) (s : State) : Answer := floatV3 o false (fun _ => minMaxF32 false false) s

/-- FMAX (R117). -/
def execFmax (o : V3Args) (s : State) : Answer := floatV3 o false (fun _ => minMaxF32 true false) s

/-- FMINM (R117). -/
def execFminm (o : V3Args) (s : State) : Answer := floatV3 o false (fun _ => minMaxF32 false true) s

/-- FMAXM (R117). -/
def execFmaxm (o : V3Args) (s : State) : Answer := floatV3 o false (fun _ => minMaxF32 true true) s

/-- FCPYSGN (R116). -/
def execFcpysgn (o : V3Args) (s : State) : Answer := floatV3 o false (fun _ => copySign) s

/-- FABS (R116). -/
def execFabs (o : V2Args) (s : State) : Answer := floatV2 o false (fun _ => absF32) s

/-- FNEG (R116). -/
def execFneg (o : V2Args) (s : State) : Answer := floatV2 o false (fun _ => negF32) s

/-- FSAT (R117). -/
def execFsat (o : V2Args) (s : State) : Answer := floatV2 o false (fun _ => satF32) s

/-! ## FFMA (R118) -/

def fmaF32 (negProduct negAddend : Bool) (m : Nat) (a b c : Word) : FResult :=
  let x := if negProduct then (f32 a).negate else f32 a
  let z := if negAddend then (f32 c).negate else f32 c
  word32 (fp32.op m (x.fma m (f32 b) z))

/-- FFMA (R118). -/
def execFfma (o : V3Args) (s : State) : Answer := floatThird o (fmaF32 false false) s

/-- FFMS (R118). -/
def execFfms (o : V3Args) (s : State) : Answer := floatThird o (fmaF32 false true) s

/-- FNMA (R118). -/
def execFnma (o : V3Args) (s : State) : Answer := floatThird o (fmaF32 true false) s

/-! ## FPK16 (R119) -/

/-- Both lanes of a packed word, each on its own; the sticky bits are those of both. -/
def packed (f : Bool → Nat × BitVec 5) : FResult :=
  let l := f false
  let h := f true
  (BitVec.ofNat 16 h.1 ++ BitVec.ofNat 16 l.1, l.2 ||| h.2)

def addPk (f : Fmt) (m : Nat) (a b : Word) : FResult := packed fun h => f.op m ((half f a h).add m (half f b h))
def mulPk (f : Fmt) (m : Nat) (a b : Word) : FResult := packed fun h => f.op m ((half f a h).mul (half f b h))
def fmaPk (f : Fmt) (m : Nat) (a b c : Word) : FResult :=
  packed fun h => f.op m ((half f a h).fma m (half f b h) (half f c h))

/-- The 16 bits of a lane. -/
def laneBits (x : Word) (hi : Bool) : Nat := if hi then field x 31 16 else field x 15 0

def minMaxPk (f : Fmt) (larger : Bool) (a b : Word) : FResult :=
  packed fun h => f.minMax larger false (laneBits a h) (laneBits b h)

/-- HADD2 (R119). -/
def execHadd2 (o : V3Args) (s : State) : Answer := floatV3 o true (addPk fp16) s

/-- HMUL2 (R119). -/
def execHmul2 (o : V3Args) (s : State) : Answer := floatV3 o true (mulPk fp16) s

/-- HFMA2 (R119). -/
def execHfma2 (o : V3Args) (s : State) : Answer := floatThird o (fmaPk fp16) s

/-- HMIN2 (R119). -/
def execHmin2 (o : V3Args) (s : State) : Answer := floatV3 o false (fun _ => minMaxPk fp16 false) s

/-- HMAX2 (R119). -/
def execHmax2 (o : V3Args) (s : State) : Answer := floatV3 o false (fun _ => minMaxPk fp16 true) s

/-- BADD2 (R119). -/
def execBadd2 (o : V3Args) (s : State) : Answer := floatV3 o true (addPk bf16) s

/-- BMUL2 (R119). -/
def execBmul2 (o : V3Args) (s : State) : Answer := floatV3 o true (mulPk bf16) s

/-- BFMA2 (R119). -/
def execBfma2 (o : V3Args) (s : State) : Answer := floatThird o (fmaPk bf16) s

/-- BMIN2 (R119). -/
def execBmin2 (o : V3Args) (s : State) : Answer := floatV3 o false (fun _ => minMaxPk bf16 false) s

/-- BMAX2 (R119). -/
def execBmax2 (o : V3Args) (s : State) : Answer := floatV3 o false (fun _ => minMaxPk bf16 true) s

/-! ## FCVT (R120 to R122) -/

/-- An exact value read in one format and written in another, NV for a signalling NaN. -/
def convert (f : Fmt) (m : Nat) (v : FVal) : Nat × BitVec 5 := f.op m (v, nvOf [v])

/-- F2IS (R121). -/
def execF2is (o : V2Args) (s : State) : Answer :=
  floatV2 o true (fun m a => floatToInt m (-2147483648) 2147483647 (f32 a)) s

/-- F2IZ (R121). -/
def execF2iz (o : V2Args) (s : State) : Answer := floatV2 o true (fun m a => floatToInt m 0 4294967295 (f32 a)) s

/-- IS2F (R120). -/
def execIs2f (o : V2Args) (s : State) : Answer := floatV2 o true (fun m a => word32 (fp32.round m (intVal a.toInt))) s

/-- IZ2F (R120). -/
def execIz2f (o : V2Args) (s : State) : Answer := floatV2 o true (fun m a => word32 (fp32.round m (intVal a.toNat))) s

/-- Two FP32 values into the halves of a register. -/
def pack2 (f : Fmt) (m : Nat) (a b : Word) : FResult := packed fun h => convert f m (f32 (if h then b else a))

/-- F2H2 (R120). -/
def execF2h2 (o : V3Args) (s : State) : Answer := floatV3 o true (pack2 fp16) s

/-- H2FL (R120). -/
def execH2fl (o : V2Args) (s : State) : Answer := floatV2 o false (fun _ a => word32 (convert fp32 0 (half fp16 a false))) s

/-- H2FH (R120). -/
def execH2fh (o : V2Args) (s : State) : Answer := floatV2 o false (fun _ a => word32 (convert fp32 0 (half fp16 a true))) s

/-- F2B2 (R120): always RNE. -/
def execF2b2 (o : V3Args) (s : State) : Answer := floatV3 o false (fun _ => pack2 bf16 0) s

/-- B2FL (R120). -/
def execB2fl (o : V2Args) (s : State) : Answer := floatV2 o false (fun _ a => word32 (convert fp32 0 (half bf16 a false))) s

/-- B2FH (R120). -/
def execB2fh (o : V2Args) (s : State) : Answer := floatV2 o false (fun _ a => word32 (convert fp32 0 (half bf16 a true))) s

/-- FRND (R120): never inexact. -/
def roundToInt (m : Nat) (a : Word) : FResult :=
  match f32 a with
  | .nan s => (nan32, if s then fpNV else 0)
  | .inf _ => (a, 0)
  | .fin neg x e => (BitVec.ofNat 32 (fp32.round 0 (.fin neg (roundUnits m neg x e 0).1 0)).1, 0)

/-- FRND (R120). -/
def execFrnd (o : V2Args) (s : State) : Answer := floatV2 o true roundToInt s

/-- R122: the bit of a pattern's class. -/
def classOf (a : Word) : Nat :=
  match f32 a with
  | .nan s => if s then 8 else 9
  | .inf neg => if neg then 0 else 7
  | .fin neg m _ =>
    if m = 0 then (if neg then 3 else 4)
    else if m < 2 ^ 23 then (if neg then 2 else 5)
    else if neg then 1 else 6

/-- FCLASS (R122). -/
def execFclass (o : V2Args) (s : State) : Answer := floatV2 o false (fun _ a => (1 <<< classOf a, 0)) s

/-- FEXP (R122). -/
def exponentOf (a : Word) : FResult :=
  match f32 a with
  | .nan s => (0x7FFFFFFF, if s then fpNV else 0)
  | .inf _ => (0x7FFFFFFF, 0)
  | .fin _ m e => if m = 0 then (0x80000000, 0) else (BitVec.ofInt 32 (log2Floor m e), 0)

/-- FEXP (R122). -/
def execFexp (o : V2Args) (s : State) : Answer := floatV2 o false (fun _ => exponentOf) s

/-- FLDEXP (R120). The exponent is cut to ±2,000, beyond which every result overflows or is tiny alike. -/
def loadExp (m : Nat) (a b : Word) : FResult :=
  match f32 a with
  | .nan s => (nan32, if s then fpNV else 0)
  | .inf _ => (a, 0)
  | .fin neg x e =>
    if x = 0 then (a, 0) else word32 (fp32.round m (.fin neg x (e + max (-2000) (min 2000 b.toInt))))

/-- FLDEXP (R120). -/
def execFldexp (o : V3Args) (s : State) : Answer := floatV3 o true loadExp s

end Sys2Proof.Machine
end

