-- ==== Sys2Proof/Machine/Sfu.lean ====
section
/-!
DEFINITION. The special-function words, major 0x0C, and their completion (05_float_sfu R123 to R125). A result that
the spec bounds and does not fix is a free value of the function and its operand, kept inside its bound (assumption
log 7). The bound is judged against a value computed to 512 fractional bits.
-/

namespace Sys2Proof.Machine

/-! ## Real values to 512 fractional bits -/

/-- An approximation n × 2^e of a real. -/
structure Real512 where
  n : Int
  e : Int

def fixBits : Nat := 512
def fixOne : Int := 2 ^ fixBits
def fixMul (a b : Int) : Int := a * b / fixOne

/-- ln 2: the sum of 1 / (k 2^k). -/
def ln2Sum : Nat → Int
  | 0 => 0
  | k + 1 => fixOne / ((k + 1 : Nat) * 2 ^ (k + 1)) + ln2Sum k
def fixLn2 : Int := ln2Sum 520

/-- arctan (1 / n): alternating sum of 1 / ((2k+1) n^(2k+1)). -/
def atanSum (n : Int) : Nat → Int
  | 0 => 0
  | k + 1 =>
    let t := fixOne / ((2 * k + 1 : Nat) * n ^ (2 * k + 1))
    (if k % 2 = 0 then t else -t) + atanSum n k
def fixPi : Int := 16 * atanSum 5 120 - 4 * atanSum 239 40

/-- e^x of a fixed-point x of magnitude below 1, from term k on. -/
def expTerms (x : Int) : Nat → Nat → Int → Int
  | 0, _, _ => 0
  | f + 1, k, t => t + expTerms x f (k + 1) (fixMul t x / (k + 1 : Nat))

/-- e^x. -/
def realExp (x : Int) : Real512 :=
  let k := x / fixLn2
  { n := expTerms (x - k * fixLn2) 120 0 fixOne, e := k - fixBits }

/-- The odd powers of t over their exponents. -/
def atanhTerms (t2 : Int) : Nat → Nat → Int → Int
  | 0, _, _ => 0
  | f + 1, k, t => t / (2 * k + 1 : Nat) + atanhTerms t2 f (k + 1) (fixMul t t2)

/-- log2 of m × 2^e. -/
def realLog2 (m : Nat) (e : Int) : Real512 :=
  let l := bitLength m - 1
  let x := (m : Int) * fixOne / 2 ^ l
  let t := (x - fixOne) * fixOne / (x + fixOne)
  let ln := 2 * atanhTerms (fixMul t t) 180 0 t
  { n := (e + l) * fixOne + ln * fixOne / fixLn2, e := -(fixBits : Int) }

/-- sin x, from term k on. -/
def sinTerms (x2 : Int) : Nat → Nat → Int → Int
  | 0, _, _ => 0
  | f + 1, k, t => t + sinTerms x2 f (k + 1) (-(fixMul t x2) / ((2 * k + 2) * (2 * k + 3) : Nat))

/-- sin of r turns, r a fixed-point number in 0 to 1. -/
def realSin (r : Int) : Real512 :=
  let x := 2 * fixMul fixPi r
  { n := sinTerms (fixMul x x) 80 0 x, e := -(fixBits : Int) }

/-- The integer square root, bit by bit from bit k − 1 down. -/
def isqrtFrom (n : Nat) : Nat → Nat → Nat
  | 0, r => r
  | k + 1, r => isqrtFrom n k (if (r + 2 ^ k) * (r + 2 ^ k) ≤ n then r + 2 ^ k else r)
def isqrt (n : Nat) : Nat := isqrtFrom n (bitLength n / 2 + 1) 0

/-- m × 2^e as a fixed-point number. -/
def toFix (neg : Bool) (m : Nat) (e : Int) : Int :=
  let x : Int := (m : Int) * fixOne * 2 ^ e.toNat / 2 ^ (-e).toNat
  if neg then -x else x

/-- 1 / (1 + y). -/
def realLogistic (y : Real512) : Real512 :=
  let d := fixOne * 2 ^ (-(y.e + fixBits)).toNat + y.n * 2 ^ (y.e + fixBits).toNat
  { n := fixOne * fixOne * 2 ^ (-(y.e + fixBits)).toNat * fixOne / d, e := -(2 * fixBits : Int) }

/-! ## The functions (R123) -/

/-- The exact value of function fn at a finite operand that is no special case. -/
def sfuReal (fn : Nat) (neg : Bool) (m : Nat) (e : Int) : Real512 :=
  match fn with
  | 0 => { n := (if neg then -1 else 1) * (2 ^ 700 / m), e := -700 - e }
  | 1 =>
    let m' := if e % 2 = 0 then m else 2 * m
    let e' := if e % 2 = 0 then e else e - 1
    { n := isqrt (2 ^ 1200 / m'), e := -600 - e' / 2 }
  | 3 =>
    let x := max (-400 * fixOne) (min (200 * fixOne) (toFix neg m (max (-500) (min 20 e))))
    let k := x / fixOne
    { n := (realExp (fixMul (x - k * fixOne) fixLn2)).n, e := (realExp (fixMul (x - k * fixOne) fixLn2)).e + k }
  | 4 => realLog2 m e
  | 5 => realSin (toFix neg m e % fixOne)
  | 6 => realSin ((toFix neg m e + fixOne / 4) % fixOne)
  | 7 =>
    let y := realExp (2 * toFix neg m e)
    let v := y.n * 2 ^ (y.e + fixBits).toNat / 2 ^ (-(y.e + fixBits)).toNat
    { n := (v - fixOne) * fixOne / (v + fixOne), e := -(fixBits : Int) }
  | _ => realLogistic (realExp (max (-400 * fixOne) (min (400 * fixOne) (toFix (!neg) m (max (-500) (min 20 e))))))

/-- floor(log2 |y|) of a nonzero approximation. -/
def Real512.log2 (y : Real512) : Int := log2Floor y.n.natAbs y.e

/-- The bound in units of 2^u: (n, u) means n × 2^u (R123, R124). -/
def sfuBound (fn : Nat) (y : Real512) : Nat × Int :=
  let ulp := max y.log2 (-126) - 23
  match fn with
  | 0 => (1, ulp)
  | 1 => (1, ulp)
  | 5 => (1, -22)
  | 6 => (1, -22)
  | _ => (2, ulp)

/-- R124: whether an FP32 pattern lies within the bound; an infinity stands for 2^128, and is admitted beyond it. -/
def sfuAdmits (fn : Nat) (y : Real512) (v : Word) : Bool :=
  let near (neg : Bool) (m : Nat) (e : Int) : Bool :=
    let b := sfuBound fn y
    let q := min (min e y.e) b.2
    decide ((units neg m e q - y.n * 2 ^ (y.e - q).toNat).natAbs ≤ b.1 * 2 ^ (b.2 - q).toNat)
  match f32 v with
  | .nan _ => false
  | .inf neg => near neg 1 128 || (decide (y.log2 ≥ 128) && neg == decide (y.n < 0))
  | .fin neg m e => near neg m e

/-- The value a function gives for an operand: the free pick where the bound admits it, else the nearest value. -/
def sfuBounded (fn : Nat) (a : Word) (y : Real512) : Word :=
  let pick := BitVec.ofNat 32 (Config.sfuPick fn a)
  if sfuAdmits fn y pick then pick
  else BitVec.ofNat 32 (fp32.round 0 (.fin (decide (y.n < 0)) y.n.natAbs y.e)).1

/-- R124: OF for an infinite result of a finite operand, UF for a subnormal or zero one. -/
def sfuFlags (v : Word) : BitVec 5 :=
  match f32 v with
  | .inf _ => fpOF
  | .fin _ m _ => if m < 2 ^ 23 then fpUF else 0
  | .nan _ => 0

def signedWord (neg : Bool) (x : Word) : Word := if neg then x ||| signMask else x

/-- R124: a zero result of SINT has the sign of its operand, one of COST is +0. -/
def zeroSign (fn : Nat) (neg : Bool) (v : Word) : Word :=
  if v &&& ~~~signMask = 0 then (if fn == 5 then signedWord neg 0 else if fn == 6 then 0 else v) else v

def sfuGeneral (fn : Nat) (a : Word) (neg : Bool) (m : Nat) (e : Int) : FResult :=
  let v := zeroSign fn neg (sfuBounded fn a (sfuReal fn neg m e))
  (v, sfuFlags v)

def inf32 : Word := 0x7F800000
def one32 : Word := 0x3F800000

/-- SQRT, correctly rounded (R124). -/
def sqrtFin (mode m : Nat) (e : Int) : FResult :=
  let m' := if e % 2 = 0 then m else 2 * m
  let e' := if e % 2 = 0 then e else e - 1
  let n := m' * 2 ^ 64
  let r := isqrt n
  word32 (fp32.round mode (.fin false (2 * r + (if r * r = n then 0 else 1)) (e' / 2 - 33)))

/-- How many quarters of a turn a finite operand is, when it is a multiple of 1/4. -/
def quarters (neg : Bool) (m : Nat) (e : Int) : Option Nat :=
  let x := roundUnits 1 false m e (-2)
  if x.2 then none else some ((if neg then 4 - x.1 % 4 else x.1) % 4)

/-- An integer operand. -/
def asInteger (neg : Bool) (m : Nat) (e : Int) : Option Int :=
  let x := roundUnits 1 false m e 0
  if x.2 then none else some (if neg then -(x.1 : Int) else x.1)

/-- F(a) of R123: special results, exact cases, and the bounded rest. -/
def sfuResult (fn : Nat) (a : Word) (mode : Nat) : FResult :=
  match f32 a with
  | .nan s => (nan32, if s then fpNV else 0)
  | .inf neg =>
    match fn with
    | 0 => (signedWord neg 0, 0)
    | 3 => (if neg then 0 else inf32, 0)
    | 5 => (nan32, fpNV)
    | 6 => (nan32, fpNV)
    | 7 => (signedWord neg one32, 0)
    | 8 => (if neg then 0 else one32, 0)
    | 1 => if neg then (nan32, fpNV) else (0, 0)
    | _ => if neg then (nan32, fpNV) else (inf32, 0)
  | .fin neg m e =>
    if m = 0 then
      match fn with
      | 0 => (signedWord neg inf32, fpDZ)
      | 1 => (signedWord neg inf32, fpDZ)
      | 2 => (a, 0)
      | 3 => (one32, 0)
      | 4 => (signedWord true inf32, fpDZ)
      | 5 => (a, 0)
      | 6 => (one32, 0)
      | 7 => (a, 0)
      | _ => (0x3F000000, 0)
    else
      match fn with
      | 0 => sfuGeneral 0 a neg m e
      | 1 => if neg then (nan32, fpNV) else sfuGeneral 1 a neg m e
      | 2 => if neg then (nan32, fpNV) else sqrtFin mode m e
      | 3 => match asInteger neg m e with
        | some k =>
          if -149 ≤ k ∧ k ≤ 127 then
            let r := fp32.round 0 (.fin false 1 k)
            (BitVec.ofNat 32 r.1, if k < -126 then fpUF else 0)
          else sfuGeneral 3 a neg m e
        | none => sfuGeneral 3 a neg m e
      | 4 =>
        if neg then (nan32, fpNV)
        else if m = 2 ^ (bitLength m - 1) then word32 (fp32.round 0 (intVal (log2Floor m e)))
        else sfuGeneral 4 a neg m e
      | 5 => match quarters neg m e with
        | some 0 => (signedWord neg 0, 0)
        | some 1 => (one32, 0)
        | some 2 => (signedWord neg 0, 0)
        | some _ => (signedWord true one32, 0)
        | none => sfuGeneral 5 a neg m e
      | 6 => match quarters neg m e with
        | some 0 => (one32, 0)
        | some 1 => (0, 0)
        | some 2 => (signedWord true one32, 0)
        | some _ => (0, 0)
        | none => sfuGeneral 6 a neg m e
      | 7 => if fp32.orderKey (a &&& ~~~signMask).toNat ≥ 0x41100000 then (signedWord neg one32, 0)
             else sfuGeneral 7 a neg m e
      | _ => sfuGeneral 8 a neg m e

/-! ## Issue and completion -/

/-- Issues one operation for each acting member, in ascending lane order. -/
def State.issueOps (s : State) (g : Group) (acts : Thread → Bool) (fs : Option Bool)
    (mk : TRef → Thread → OpKind × Nat × Nat) : State :=
  let word := s.nextId
  (s.active g).foldl (fun s r =>
    match s.thread? r with
    | some t => if acts t then
        let k := mk r t
        s.addOp g r fs word k.1 k.2.1 k.2.2
      else s
    | none => s) s

/-- A special-function word (R123): with the mask false it still counts on its flag and writes 0 under z, else
nothing (R126). -/
def sfuWord (fn : Nat) (o : SfuArgs) (s : State) : Answer :=
  let acts (t : Thread) : Bool := t.guard o.guard false
  let rule := floatRule (fn == 2) false
  issue rule [o.vd.toNat, o.va.toNat] (fillSources rule acts [o.va.toNat]) (flagFull o.fs acts)
    (fun g s => s.issueOps g acts (some o.fs) fun _ t =>
      let e := g.arith
      if t.pred e.mask then (.sfu fn (t.reg o.va.toNat) e.rnd false, o.vd.toNat, 1)
      else if e.z then (.sfu fn 0 0 true, o.vd.toNat, 1)
      else (.nothing, o.vd.toNat, 0)) s

/-- RCP (R123). -/
def execRcp (o : SfuArgs) (s : State) : Answer := sfuWord 0 o s

/-- RSQ (R123). -/
def execRsq (o : SfuArgs) (s : State) : Answer := sfuWord 1 o s

/-- SQRT (R123). -/
def execSqrt (o : SfuArgs) (s : State) : Answer := sfuWord 2 o s

/-- EX2 (R123). -/
def execEx2 (o : SfuArgs) (s : State) : Answer := sfuWord 3 o s

/-- LG2 (R123). -/
def execLg2 (o : SfuArgs) (s : State) : Answer := sfuWord 4 o s

/-- SINT (R123). -/
def execSint (o : SfuArgs) (s : State) : Answer := sfuWord 5 o s

/-- COST (R123). -/
def execCost (o : SfuArgs) (s : State) : Answer := sfuWord 6 o s

/-- TANH (R123). -/
def execTanh (o : SfuArgs) (s : State) : Answer := sfuWord 7 o s

/-- LOGI (R123). -/
def execLogi (o : SfuArgs) (s : State) : Answer := sfuWord 8 o s

/-- SFU_COMPLETE (R123, R114): the result lands, the sticky bits are set, the flag falls. -/
def execSfuComplete (op keep : Nat) (s : State) : Answer :=
  match s.op? op with
  | some o => match o.kind with
    | .sfu fn a rnd zero =>
      if zero then .next (s.finishOp o [0] 0 keep)
      else .next (s.finishOp o [(sfuResult fn a rnd).1] (sfuResult fn a rnd).2 keep)
    | .nothing => .next (s.dropOp o)
    | _ => .next s
  | none => .next s

end Sys2Proof.Machine
end

