-- ==== Sys2Proof/Machine/Compare.lean ====
section
/-!
DEFINITION. Compares and predicate logic, majors 0x10 to 0x18 (03_control R73 to R76).
-/

namespace Sys2Proof.Machine

/-- The condition of a compare: its major less 0x10. -/
inductive CmpCond where
  | eq
  | ne
  | lt
  | le
  | gt
  | ge
  | tany
  | tnone
  deriving DecidableEq, Repr

/-- The ordered conditions on integers. -/
def CmpCond.onInt (c : CmpCond) (a b : Int) (both : Bool) : Bool :=
  match c with
  | .eq => decide (a = b)
  | .ne => decide (a ≠ b)
  | .lt => decide (a < b)
  | .le => decide (a ≤ b)
  | .gt => decide (a > b)
  | .ge => decide (a ≥ b)
  | .tany => both
  | .tnone => !both

/-- R73, .FP: the result and the sticky bits. -/
def CmpCond.onFloat (c : CmpCond) (a b : Word) : Bool × BitVec 5 :=
  let x := f32 a
  let y := f32 b
  let nan := x.isNan || y.isNan
  let ordered := c == .lt || c == .le || c == .gt || c == .ge
  let nv : BitVec 5 := if nan && ordered then fpNV else nvOf [x, y]
  let r := if nan then c == .ne || c == .tany
    else c.onInt (fp32.orderKey a.toNat) (fp32.orderKey b.toNat) false
  (r, nv)

/-- R73: the result of a compare for one thread. -/
def CmpCond.result (c : CmpCond) (o : CmpArgs) (t : Thread) : Bool × BitVec 5 :=
  let a := t.reg o.va.toNat
  let b := t.reg o.vb.toNat
  match o.type.toNat with
  | 0 => (c.onInt a.toInt b.toInt (a &&& b != 0), 0)
  | 1 => (c.onInt a.toNat b.toNat (a &&& b != 0), 0)
  | 2 => c.onFloat a b
  | _ =>
    let x := t.reg64 o.va.toNat
    let y := t.reg64 o.vb.toNat
    (c.onInt x.toInt y.toInt (x &&& y != 0), 0)

/-- R74: the predicates written from the old p[pd1] and the result. -/
def combine (ctype : Nat) (old r : Bool) : Bool × Bool :=
  match ctype with
  | 0 => (r, !r)
  | 1 => (r, !r)
  | 2 => (old && r, !(old && r))
  | 3 => (old || r, !(old || r))
  | 4 => (old && !r, !(old && !r))
  | 5 => (old || !r, !(old || !r))
  | 6 => (old != r, !(old != r))
  | _ => (old && r, old && !r)

/-- One thread of a compare (R73, R74). -/
def Thread.compare (t : Thread) (c : CmpCond) (o : CmpArgs) : Thread :=
  if t.guard o.guard false then
    let r := c.result o t
    let n := combine o.ctype.toNat (t.pred o.pd1.toNat) r.1
    ((t.setPred o.pd1.toNat n.1).setPred o.pd2.toNat n.2).orFpstat r.2
  else if o.ctype.toNat = 1 then (t.setPred o.pd1.toNat false).setPred o.pd2.toNat false
  else t

/-- The registers a compare reads. -/
def compareSources (o : CmpArgs) : List Nat :=
  if o.type.toNat = 3 then [o.va.toNat, o.va.toNat + 1, o.vb.toNat, o.vb.toNat + 1] else [o.va.toNat, o.vb.toNat]

/-- A compare takes a hint only (R75). -/
def compareWord (c : CmpCond) (o : CmpArgs) (s : State) : Answer :=
  issue {} (compareSources o) (fillSources {} (·.guard o.guard false) (compareSources o)) noHold
    (fun g s => s.mapGroup g.id fun _ t => t.compare c o) s

/-- CEQ (R73, R74). -/
def execCeq (o : CmpArgs) (s : State) : Answer := compareWord .eq o s

/-- CNE (R73, R74). -/
def execCne (o : CmpArgs) (s : State) : Answer := compareWord .ne o s

/-- CLT (R73, R74). -/
def execClt (o : CmpArgs) (s : State) : Answer := compareWord .lt o s

/-- CLE (R73, R74). -/
def execCle (o : CmpArgs) (s : State) : Answer := compareWord .le o s

/-- CGT (R73, R74). -/
def execCgt (o : CmpArgs) (s : State) : Answer := compareWord .gt o s

/-- CGE (R73, R74). -/
def execCge (o : CmpArgs) (s : State) : Answer := compareWord .ge o s

/-- CTANY (R73, R74). -/
def execCtany (o : CmpArgs) (s : State) : Answer := compareWord .tany o s

/-- CTNONE (R73, R74). -/
def execCtnone (o : CmpArgs) (s : State) : Answer := compareWord .tnone o s

/-! ## Predicate logic (R76) -/

/-- A predicate word: p[pd] from the thread's predicates. -/
def predWord (pd guard : BitVec 3) (neg : Bool) (f : Thread → Bool) (s : State) : Answer :=
  issue {} [] noFill noHold
    (fun g s => s.mapGroup g.id fun _ t => if t.guard guard neg then t.setPred pd.toNat (f t) else t) s

def pred3 (o : P3Args) (f : Bool → Bool → Bool) : State → Answer :=
  predWord o.pd o.guard o.neg fun t => f (t.pred o.pa.toNat) (t.pred o.pb.toNat)

/-- PAND (R76). -/
def execPand (o : P3Args) (s : State) : Answer := pred3 o (fun a b => a && b) s

/-- POR (R76). -/
def execPor (o : P3Args) (s : State) : Answer := pred3 o (fun a b => a || b) s

/-- PXOR (R76). -/
def execPxor (o : P3Args) (s : State) : Answer := pred3 o (fun a b => a != b) s

/-- PANDN (R76). -/
def execPandn (o : P3Args) (s : State) : Answer := pred3 o (fun a b => a && !b) s

/-- PNOT (R76). -/
def execPnot (o : P2Args) (s : State) : Answer := predWord o.pd o.guard o.neg (fun t => !t.pred o.pa.toNat) s

/-- PMOV (R76). -/
def execPmov (o : P2Args) (s : State) : Answer := predWord o.pd o.guard o.neg (fun t => t.pred o.pa.toNat) s

/-- PSETI (R76). -/
def execPseti (o : PIArgs) (s : State) : Answer := predWord o.pd o.guard o.neg (fun _ => o.imm) s

end Sys2Proof.Machine
end

