-- ==== Sys2Proof/Machine/Barrier.lean ====
section
/-!
DEFINITION. Barriers: arrival, completion, exits, and the timer (13_sync_wait R297 to R303).
-/

namespace Sys2Proof.Machine

/-- R297: a barrier at workgroup start. -/
def Barrier.reset : Barrier := { phase := false, arrivals := [], count := 0, fixed := false, timer := none }

def Workgroup.bar (w : Workgroup) (b : Nat) : Barrier := w.barriers.toList.getD b Barrier.reset

def Workgroup.setBar (w : Workgroup) (b : Nat) (x : Barrier) : Workgroup :=
  { w with barriers := w.barriers.setIfInBounds b x }

/-- R300: the count of b0. -/
def Workgroup.notExited (w : Workgroup) : Nat := (w.threads.filter (·.status != .exited)).length

/-- Whether a hold waits on the present phase of b. -/
def Hold.waitsOn (h : Hold) (b : Nat) : Bool := match h with
  | .barrier k _ => k == b
  | _ => false

/-- Whether a hold is a held arrival at b. -/
def Hold.heldAt (h : Hold) (b : Nat) : Bool := match h with
  | .arrival k .. => k == b
  | _ => false

def Hold.since : Hold → Nat
  | .arrival _ _ _ n _ => n
  | _ => 0

/-- A hold is lifted: the thread is ready at its clause start from now on. -/
def Thread.lift (t : Thread) (now : Nat) : Thread := { t with hold := none, readyAt := now }

/-- R298: a phase of b completes for a thread: its hold on it is over, one that it kept in a handler as well. -/
def Thread.passes (t : Thread) (b now : Nat) : Thread :=
  let t := if t.kept.any (·.waitsOn b) then { t with kept := none } else t
  if t.hold.any (·.waitsOn b) then t.lift now else t

/-- The held arrivals at b, oldest first. -/
def Workgroup.heldArrivals (w : Workgroup) (b : Nat) : List Thread :=
  let hs := w.threads.filter fun t => (t.hold.any (·.heldAt b)) && t.executes
  hs.mergeSort fun x y => decide ((x.hold.map (·.since)).getD 0 ≤ (y.hold.map (·.since)).getD 0)

/-- R298: what an arrival does to the barrier itself; none is BARRIER_COUNT. -/
def Workgroup.countArrival (w : Workgroup) (b cnt : Nat) (r : TRef) (now : Nat) : Option Barrier :=
  let x := w.bar b
  let add (x : Barrier) : Barrier :=
    { x with arrivals := x.arrivals ++ [r], timer := if x.arrivals.isEmpty then some now else x.timer }
  if b = 0 then some (add { x with count := w.notExited })
  else if cnt < 1 ∨ cnt > 1024 then none
  else if !x.fixed then some (add { x with count := cnt, fixed := true })
  else if cnt ≠ x.count then none
  else some (add x)

/-- R298, Arrive and Complete. `wait`: the arrival is BARW's; `fresh`: when a held arrival began to be held. The first
argument bounds the chain of completions. -/
def State.arrive : Nat → State → TRef → (b cnt : Nat) → (wait : Bool) → Site → State
  | 0, s, _, _, _, _, _ => s
  | fuel + 1, s, r, b, cnt, wait, site =>
    match s.wg? r.wg with
    | none => s
    | some w =>
      if (w.bar b).arrivals.contains r then
        { s.updThread r (fun t => { t with hold := some (.arrival b cnt wait s.nextId site) }) with
          nextId := s.nextId + 1 }
      else match w.countArrival b cnt r s.time with
        | none => s.raise r { code := codeBarrierCount } site
        | some x =>
          let s := s.updWg r.wg fun w => w.setBar b x
          let s := s.updThread r fun t => { t with hold := if wait then some (.barrier b site) else none }
          if x.arrivals.length < x.count then s
          else
            let s := s.updWg r.wg fun w => { w.setBar b { Barrier.reset with phase := !x.phase } with
              threads := w.threads.map fun t => t.passes b s.time }
            (((s.wg? r.wg).map (·.heldArrivals b)).getD []).foldl (fun s t =>
              match (s.thread? (t.ref r.wg)).bind (·.hold) with
              | some (.arrival k c wt _ st) =>
                if k == b then
                  (s.updThread (t.ref r.wg) fun t => t.lift s.time).arrive fuel (t.ref r.wg) b c wt st
                else s
              | _ => s) s

/-- How many completions one arrival can chain at most: one for each thread. -/
def arriveFuel : Nat := 1025

/-- R298: the held arrivals at b are applied, oldest first. -/
def State.applyHeld (s : State) (wg b : Nat) : State :=
  (((s.wg? wg).map (·.heldArrivals b)).getD []).foldl (fun s t =>
    match (s.thread? (t.ref wg)).bind (·.hold) with
    | some (.arrival k c wt _ st) =>
      if k == b then (s.updThread (t.ref wg) fun t => t.lift s.time).arrive arriveFuel (t.ref wg) b c wt st else s
    | _ => s) s

/-- R300: after an exit, b0 completes when its count has come down to its arrival set. -/
def State.recountB0 (s : State) (wg : Nat) : State :=
  match s.wg? wg with
  | none => s
  | some w =>
    let x := w.bar 0
    let n := w.notExited
    if x.arrivals.isEmpty || decide (x.arrivals.length < n) then s
    else (s.updWg wg fun w => { w.setBar 0 { Barrier.reset with phase := !x.phase } with
      threads := w.threads.map fun t => t.passes 0 s.time }).applyHeld wg 0

/-- R303: the value BARS reads. -/
def Workgroup.barState (w : Workgroup) (b : Nat) : Word :=
  let x := w.bar b
  let fixed := b == 0 || x.fixed
  let count := if b = 0 then w.notExited else if x.fixed then x.count else 0
  BitVec.ofBool x.phase ++ BitVec.ofBool fixed ++ (0 : BitVec 3) ++ BitVec.ofNat 11 count ++ (0 : BitVec 5)
    ++ BitVec.ofNat 11 x.arrivals.length

/-- R302: the timer of b has run out. -/
def State.barrierStall (s : State) (wg b : Nat) : State :=
  match s.wg? wg with
  | none => s
  | some w =>
    let holds (t : Thread) : Bool := t.executes && t.hold.any fun h => h.waitsOn b || h.heldAt b
    let x := w.bar b
    if !(w.threads.any holds) then s.updWg wg fun w => w.setBar b { x with timer := some s.time }
    else
      let gone := (w.threads.filter fun t => t.executes && t.hold.any (·.waitsOn b)).map (·.ref wg)
      let left := x.arrivals.filter fun r => !gone.contains r
      let x' : Barrier := if left.isEmpty then { x with arrivals := [], fixed := false, count := 0, timer := none }
        else { x with arrivals := left, timer := some s.time }
      let park (t : Thread) : Thread :=
        match t.hold with
        | some (.barrier _ site) => t.raise { code := codeBarrierStall } site
        | some (.arrival _ _ _ _ site) => t.raise { code := codeBarrierStall } site
        | _ => t
      s.updWg wg fun w => { w.setBar b x' with threads := updateWhere holds park w.threads }

end Sys2Proof.Machine
end

