-- ==== Sys2Proof/WellFormed.lean ====
section
/-!
DEFINITION. Well-formed instruction words: the limits that a word's own fields must meet (02_encoding R28, R29,
R43, R45, R46, R48 and each entry). A word that breaks one faults ILLEGAL_ENCODING. Limits that depend on the
clause, on a modifier word, on the thread's role or on register contents are checked at issue.
-/

namespace Sys2Proof

/-- Guard 0 with neg = 1 is illegal (R45). -/
def guardOk (guard : BitVec 3) (neg : Bool) : Bool := !(neg && guard == 0)

/-- A pair names the even register (R48). -/
def even (r : BitVec 6) : Bool := r.toNat % 2 == 0

/-- A block of four registers starts at a multiple of 4 (R159). -/
def fourth (r : BitVec 6) : Bool := r.toNat % 4 == 0

/-- A block of eight registers starts at a multiple of 8 (R362, R373). -/
def eighth (r : BitVec 6) : Bool := r.toNat % 8 == 0

/-- In mode 1, vo is even and wb is 0 (R46). -/
def modeOk (mode : Bool) (wb : BitVec 5) (vo : BitVec 6) : Bool := !mode || (even vo && wb == 0)

/-- A header's flag field names F0 to F11 or none, 15 (R29). -/
def flagFieldOk (f : BitVec 4) : Bool := f.toNat ≤ 11 || f == 15

/-- The special registers that are 64 bits wide (R385). -/
def special64 (n : Nat) : Bool :=
  n == 11 || n == 12 || (17 ≤ n && n ≤ 27) || n == 29 || n == 30 || n == 32 || n == 33 || n == 34 || n == 36

/-- A special register is assigned, and a 64-bit one is moved through an even pair (R385 to R387). -/
def specialOk (num r : BitVec 6) : Bool := num.toNat < 38 && (!special64 num.toNat || even r)

/-- The well-formed instructions. Every event is well-formed. IMADW's va and vb are even, as R108 says of IMADW; of IMADWS, whose
va and vb are single registers as well (R99), it does not (DEDUCED, log 27). -/
def Instr.wf : Instr → Bool
  | .clauseHeader o => o.len != 0 && flagFieldOk o.fa && flagFieldOk o.fb
  | .hint _ => true
  | .immediateExtension _ => true
  | .arithmeticPrefix o => o.rnd.toNat ≤ 4
  | .memoryPrefix _ => true
  | .iadd o => guardOk o.guard o.neg
  | .isub o => guardOk o.guard o.neg
  | .imul o => guardOk o.guard o.neg
  | .imulhs o => guardOk o.guard o.neg
  | .imulhu o => guardOk o.guard o.neg
  | .imins o => guardOk o.guard o.neg
  | .imaxs o => guardOk o.guard o.neg
  | .iminu o => guardOk o.guard o.neg
  | .imaxu o => guardOk o.guard o.neg
  | .iaddss o => guardOk o.guard o.neg
  | .isubss o => guardOk o.guard o.neg
  | .iaddI o => guardOk o.guard o.neg
  | .isubI o => guardOk o.guard o.neg
  | .imulI o => guardOk o.guard o.neg
  | .imulhsI o => guardOk o.guard o.neg
  | .imulhuI o => guardOk o.guard o.neg
  | .iminsI o => guardOk o.guard o.neg
  | .imaxsI o => guardOk o.guard o.neg
  | .iminuI o => guardOk o.guard o.neg
  | .imaxuI o => guardOk o.guard o.neg
  | .iaddssI o => guardOk o.guard o.neg
  | .isubssI o => guardOk o.guard o.neg
  | .and o => guardOk o.guard o.neg
  | .or o => guardOk o.guard o.neg
  | .xor o => guardOk o.guard o.neg
  | .andn o => guardOk o.guard o.neg
  | .orn o => guardOk o.guard o.neg
  | .xnor o => guardOk o.guard o.neg
  | .shl o => guardOk o.guard o.neg
  | .shr o => guardOk o.guard o.neg
  | .sar o => guardOk o.guard o.neg
  | .rotl o => guardOk o.guard o.neg
  | .rotr o => guardOk o.guard o.neg
  | .andI o => guardOk o.guard o.neg
  | .orI o => guardOk o.guard o.neg
  | .xorI o => guardOk o.guard o.neg
  | .andnI o => guardOk o.guard o.neg
  | .ornI o => guardOk o.guard o.neg
  | .xnorI o => guardOk o.guard o.neg
  | .shlI o => guardOk o.guard o.neg
  | .shrI o => guardOk o.guard o.neg
  | .sarI o => guardOk o.guard o.neg
  | .rotlI o => guardOk o.guard o.neg
  | .rotrI o => guardOk o.guard o.neg
  | .popc o => guardOk o.guard o.neg
  | .clz o => guardOk o.guard o.neg
  | .ctz o => guardOk o.guard o.neg
  | .brev o => guardOk o.guard o.neg
  | .bfez o => guardOk o.guard o.neg
  | .bfes o => guardOk o.guard o.neg
  | .bfi o => guardOk o.guard o.neg
  | .fshl o => guardOk o.guard o.neg
  | .bsel o => guardOk o.guard o.neg
  | .bswap o => guardOk o.guard o.neg
  | .imad o => guardOk o.guard o.neg
  | .imadhs o => guardOk o.guard o.neg
  | .imadhu o => guardOk o.guard o.neg
  | .imadw o => guardOk o.guard o.neg && even o.vd && even o.va && even o.vb
  | .imadws o => guardOk o.guard o.neg && even o.vd
  | .isad o => guardOk o.guard o.neg
  | .idp4 o => guardOk o.guard o.neg
  | .idp4z o => guardOk o.guard o.neg
  | .mov o => guardOk o.guard o.neg
  | .movi o => guardOk o.guard o.neg
  | .sel o => guardOk o.guard o.neg
  | .sext8 o => guardOk o.guard o.neg
  | .sext16 o => guardOk o.guard o.neg
  | .zext8 o => guardOk o.guard o.neg
  | .zext16 o => guardOk o.guard o.neg
  | .add64 o => guardOk o.guard o.neg && even o.vd && even o.va && even o.vb
  | .sub64 o => guardOk o.guard o.neg && even o.vd && even o.va && even o.vb
  | .shl64 o => guardOk o.guard o.neg && even o.vd && even o.va
  | .shr64 o => guardOk o.guard o.neg && even o.vd && even o.va
  | .wadd _ => true
  | .wsub _ => true
  | .wmul _ => true
  | .wand _ => true
  | .wor _ => true
  | .wxor _ => true
  | .wshl _ => true
  | .wshr _ => true
  | .wmov _ => true
  | .wmovi _ => true
  | .v2w _ => true
  | .w2v _ => true
  | .wlea _ => true
  | .fadd o => guardOk o.guard o.neg
  | .fsub o => guardOk o.guard o.neg
  | .fmul o => guardOk o.guard o.neg
  | .fmin o => guardOk o.guard o.neg
  | .fmax o => guardOk o.guard o.neg
  | .fminm o => guardOk o.guard o.neg
  | .fmaxm o => guardOk o.guard o.neg
  | .fcpysgn o => guardOk o.guard o.neg
  | .fabs o => guardOk o.guard o.neg
  | .fneg o => guardOk o.guard o.neg
  | .fsat o => guardOk o.guard o.neg
  | .ffma o => guardOk o.guard o.neg
  | .ffms o => guardOk o.guard o.neg
  | .fnma o => guardOk o.guard o.neg
  | .hadd2 o => guardOk o.guard o.neg
  | .hmul2 o => guardOk o.guard o.neg
  | .hfma2 o => guardOk o.guard o.neg
  | .hmin2 o => guardOk o.guard o.neg
  | .hmax2 o => guardOk o.guard o.neg
  | .badd2 o => guardOk o.guard o.neg
  | .bmul2 o => guardOk o.guard o.neg
  | .bfma2 o => guardOk o.guard o.neg
  | .bmin2 o => guardOk o.guard o.neg
  | .bmax2 o => guardOk o.guard o.neg
  | .f2is o => guardOk o.guard o.neg
  | .f2iz o => guardOk o.guard o.neg
  | .is2f o => guardOk o.guard o.neg
  | .iz2f o => guardOk o.guard o.neg
  | .f2h2 o => guardOk o.guard o.neg
  | .h2fl o => guardOk o.guard o.neg
  | .h2fh o => guardOk o.guard o.neg
  | .f2b2 o => guardOk o.guard o.neg
  | .b2fl o => guardOk o.guard o.neg
  | .b2fh o => guardOk o.guard o.neg
  | .frnd o => guardOk o.guard o.neg
  | .fclass o => guardOk o.guard o.neg
  | .fexp o => guardOk o.guard o.neg
  | .fldexp o => guardOk o.guard o.neg
  | .rcp _ => true
  | .rsq _ => true
  | .sqrt _ => true
  | .ex2 _ => true
  | .lg2 _ => true
  | .sint _ => true
  | .cost _ => true
  | .tanh _ => true
  | .logi _ => true
  | .sfuComplete _ _ => true
  | .shfi _ => true
  | .shfu _ => true
  | .shfd _ => true
  | .shfx _ => true
  | .qswx _ => true
  | .qswy _ => true
  | .qswd _ => true
  | .qbc o => (!o.imm || o.vb.toNat ≤ 3)
  | .vany _ => true
  | .vall _ => true
  | .vbal _ => true
  | .matchX _ => true
  | .redi o => o.op.toNat ≤ 7
  | .redf o => o.op.toNat ≤ 4
  | .lmask o => o.sel.toNat ≤ 5
  | .sgset o => (o.imm == 2 || o.imm == 4 || o.imm == 8 || o.imm == 16 || o.imm == 32)
  | .ceq o => (!(o.pd1 == o.pd2 && o.pd1 != 0) && (o.type != 3 || (even o.va && even o.vb)))
  | .cne o => (!(o.pd1 == o.pd2 && o.pd1 != 0) && (o.type != 3 || (even o.va && even o.vb)))
  | .clt o => (!(o.pd1 == o.pd2 && o.pd1 != 0) && (o.type != 3 || (even o.va && even o.vb)))
  | .cle o => (!(o.pd1 == o.pd2 && o.pd1 != 0) && (o.type != 3 || (even o.va && even o.vb)))
  | .cgt o => (!(o.pd1 == o.pd2 && o.pd1 != 0) && (o.type != 3 || (even o.va && even o.vb)))
  | .cge o => (!(o.pd1 == o.pd2 && o.pd1 != 0) && (o.type != 3 || (even o.va && even o.vb)))
  | .ctany o => (!(o.pd1 == o.pd2 && o.pd1 != 0) && (o.type != 3 || (even o.va && even o.vb)))
  | .ctnone o => (!(o.pd1 == o.pd2 && o.pd1 != 0) && (o.type != 3 || (even o.va && even o.vb)))
  | .pand o => guardOk o.guard o.neg
  | .por o => guardOk o.guard o.neg
  | .pxor o => guardOk o.guard o.neg
  | .pandn o => guardOk o.guard o.neg
  | .pnot o => guardOk o.guard o.neg
  | .pmov o => guardOk o.guard o.neg
  | .pseti o => guardOk o.guard o.neg
  | .bra o => guardOk o.guard o.neg
  | .call o => guardOk o.guard o.neg
  | .brx o => guardOk o.guard o.neg && even o.va
  | .callx o => guardOk o.guard o.neg && even o.va
  | .ret o => guardOk o.guard o.neg
  | .exit o => guardOk o.guard o.neg
  | .demote o => guardOk o.guard o.neg
  | .yield o => guardOk o.guard o.neg
  | .nop o => guardOk o.guard o.neg
  | .bkpt o => guardOk o.guard o.neg
  | .ld8z o => modeOk o.mode o.wb o.vo
  | .ld8s o => modeOk o.mode o.wb o.vo
  | .ld16z o => modeOk o.mode o.wb o.vo
  | .ld16s o => modeOk o.mode o.wb o.vo
  | .ld32 o => modeOk o.mode o.wb o.vo
  | .ld64 o => modeOk o.mode o.wb o.vo && even o.vd
  | .ld128 o => modeOk o.mode o.wb o.vo && fourth o.vd
  | .ldf32 o => modeOk o.mode o.wb o.vo && fourth o.vd
  | .ldfb16 o => modeOk o.mode o.wb o.vo && even o.vd
  | .loadComplete _ _ => true
  | .registerSpill _ _ _ _ => true
  | .st8 o => modeOk o.mode o.wb o.vo
  | .st16 o => modeOk o.mode o.wb o.vo
  | .st32 o => modeOk o.mode o.wb o.vo
  | .st64 o => modeOk o.mode o.wb o.vo && even o.vs
  | .st128 o => modeOk o.mode o.wb o.vo && fourth o.vs
  | .deferredStorePerform _ => true
  | .lds32 _ => true
  | .lds64 o => even o.vd
  | .lds128 o => fourth o.vd
  | .sts32 _ => true
  | .sts64 o => even o.vs
  | .sts128 o => fourth o.vs
  | .atsadd _ => true
  | .atsmax _ => true
  | .spadLoadComplete _ _ => true
  | .aadd o => modeOk o.mode o.wb o.vo
  | .amins o => modeOk o.mode o.wb o.vo
  | .amaxs o => modeOk o.mode o.wb o.vo
  | .aminz o => modeOk o.mode o.wb o.vo
  | .amaxz o => modeOk o.mode o.wb o.vo
  | .aand o => modeOk o.mode o.wb o.vo
  | .aor o => modeOk o.mode o.wb o.vo
  | .axor o => modeOk o.mode o.wb o.vo
  | .aswp o => modeOk o.mode o.wb o.vo
  | .acas o => modeOk o.mode o.wb o.vo
  | .aincw o => modeOk o.mode o.wb o.vo
  | .adecw o => modeOk o.mode o.wb o.vo
  | .afadd o => modeOk o.mode o.wb o.vo
  | .aadd64 o => modeOk o.mode o.wb o.vo && even o.vd
  | .acas64 o => modeOk o.mode o.wb o.vo && even o.vd
  | .aswp64 o => modeOk o.mode o.wb o.vo && even o.vd
  | .atomComplete _ _ => true
  | .radd o => modeOk o.mode o.wb o.vo
  | .rmins o => modeOk o.mode o.wb o.vo
  | .rmaxs o => modeOk o.mode o.wb o.vo
  | .rminz o => modeOk o.mode o.wb o.vo
  | .rmaxz o => modeOk o.mode o.wb o.vo
  | .rand o => modeOk o.mode o.wb o.vo
  | .ror o => modeOk o.mode o.wb o.vo
  | .rxor o => modeOk o.mode o.wb o.vo
  | .rswp o => modeOk o.mode o.wb o.vo
  | .rfadd o => modeOk o.mode o.wb o.vo
  | .radd64 o => modeOk o.mode o.wb o.vo && even o.vs
  | .fence _ => true
  | .cflush o => modeOk o.mode o.wb o.vo
  | .cwb o => modeOk o.mode o.wb o.vo
  | .cinv o => modeOk o.mode o.wb o.vo
  | .pfl2 o => modeOk o.mode o.wb o.vo
  | .pfl1 o => modeOk o.mode o.wb o.vo
  | .qst o => modeOk o.mode o.wb o.vo
  | .qsel _ => true
  | .qerr _ => true
  | .sbchk o => modeOk o.mode o.wb o.vo
  | .mta o => modeOk o.mode o.wb o.vo && even o.vd
  | .qblkComplete _ _ => true
  | .gang o => ((o.g == 0 && o.wm == 0) || o.g == 2 || o.g == 3 || o.g == 4)
  | .mmas o => o.kbc != 3
  | .mmag o => o.kbc != 3 && o.wc != 31
  | .rendezvousAccept _ _ => true
  | .rendezvousTimeout _ _ => true
  | .matrixOpStart _ => true
  | .matrixKStep _ => true
  | .bFetchFault _ => true
  | .matrixReissue _ _ => true
  | .matrixOpComplete _ => true
  | .acz _ => true
  | .acrd o => fourth o.vd
  | .acwr o => fourth o.vd
  | .acst _ => true
  | .acld _ => true
  | .tileTransferComplete _ _ => true
  | .mprg _ => true
  | .mrel _ => true
  | .cpyin _ => true
  | .cpyout _ => true
  | .cpymc _ => true
  | .cpyq2 _ => true
  | .ringdef _ => true
  | .awaitf _ => true
  | .rels _ => true
  | .cpyst o => even o.vd
  | .copyCommandStart _ => true
  | .copyTranslationFault _ _ => true
  | .copyOpComplete _ _ => true
  | .multicastDelivery _ _ _ => true
  | .releaseReportArrival _ => true
  | .awaitfService _ _ => true
  | .awaitfTimeout _ _ => true
  | .rowcpy _ => true
  | .rowfill _ => true
  | .rowand _ => true
  | .rowor _ => true
  | .rownot _ => true
  | .rowmaj o => o.wc != 0
  | .rowsaxpy _ => true
  | .rowst o => even o.vd
  | .rowPlan _ _ => true
  | .rowStackAccept _ _ => true
  | .rowSweep _ _ => true
  | .rowStep _ _ => true
  | .rowResume _ _ => true
  | .perBankRefreshDue _ _ => true
  | .postponedRefreshIssue _ _ => true
  | .allBankRefresh _ _ => true
  | .bara o => o.bar != 0
  | .barw o => (o.bar != 0 || o.vc == 0)
  | .bars _ => true
  | .warm o => even o.va
  | .warmComplete _ _ => true
  | .wwait _ => true
  | .spuriousTrigger _ _ _ => true
  | .wwaitTimeout _ _ _ => true
  | .waitv o => fourth o.vc
  | .waitvEvaluation _ _ _ => true
  | .waitvDeadline _ _ _ => true
  | .tlwait o => o.tl != 3
  | .tlrd o => even o.vd && o.tl != 3
  | .sleep _ => true
  | .sleepExpiry _ _ _ => true
  | .barrierTimerExpiry _ _ => true
  | .pin _ => true
  | .unpin _ => true
  | .taff _ => true
  | .migr _ => true
  | .pgcnt o => even o.va
  | .twin _ => true
  | .tqry o => even o.vd && even o.va
  | .tqryOp o => even o.vd
  | .queryComplete _ _ => true
  | .tierOpComplete _ _ => true
  | .moveCopyPhase _ => true
  | .moveSwitch _ => true
  | .moveCommit _ => true
  | .moveRetire _ => true
  | .counterHalving => true
  | .promotionPolicy _ _ => true
  | .frameRetirement _ _ => true
  | .poolRemoteRequest _ _ => true
  | .poolGrant _ _ => true
  | .poolWaitLimitExpiry _ => true
  | .poolStateChange _ _ => true
  | .enq o => o.queue.toNat ≤ 4 && eighth o.vs
  | .stq o => even o.vd && o.queue.toNat ≤ 4
  | .idemb _ => true
  | .ideme _ => true
  | .dlaunch _ => true
  | .descriptorReadComplete _ => true
  | .trap _ => true
  | .sysc o => even o.vd && eighth o.va
  | .syscComplete _ _ _ => true
  | .fcall _ => true
  | .rett _ => true
  | .s2v o => specialOk o.num o.vd
  | .v2s o => specialOk o.num o.va
  | .tlbi o => even o.va
  | .issueGroupFormation _ _ => true
  | .yieldMarkExpiry _ _ _ => true
  | .collectiveStallTimeout _ _ _ => true
  | .collectiveHoldTimeout _ => true
  | .trapEntry _ _ _ => true
  | .faultRecordQueued _ => true
  | .resumeAction _ _ => true
  | .skipAction _ _ => true
  | .deliverAction _ _ => true
  | .killAction _ _ => true
  | .engineFaultService _ _ _ => true
  | .watchdogExpiry _ => true
  | .tlbInvalidation _ _ => true
  | .workgroupStart _ _ _ => true
  | .stealRequest _ => true
  | .preemptionRequest _ _ => true
  | .drainBoundExpiry _ => true
  | .workgroupSave _ => true
  | .workgroupFlush _ => true
  | .workgroupResume _ _ => true
  | .workgroupEnd _ => true
  | .pipelineComplete _ _ => true
  | .bandwidthWindowRelease _ => true
  | .packageReset => true
  | .getVersion _ => true
  | .getCapabilities _ => true
  | .negotiateAlgorithms _ _ _ => true
  | .getDigests _ => true
  | .getCertificate _ _ => true
  | .challenge _ _ => true
  | .getMeasurements _ _ => true
  | .deviceStatusWrite _ _ _ _ => true
  | .semaphoreClaim _ _ => true
  | .leaseRenew _ => true
  | .semaphoreRelease _ => true
  | .leaseExpiry => true
  | .createPartition _ _ _ => true
  | .resizeRemoveCores _ _ _ _ => true
  | .resizeRemoveSlices _ _ _ _ => true
  | .resizeShrinkTierShare _ _ _ _ _ => true
  | .destroyPartition _ _ _ => true
  | .setPowerLimit _ _ _ => true
  | .firmwareUpdate _ _ _ => true
  | .hostLaunch _ _ _ => true
  | .capabilityTableRead _ => true
  | .powerControllerUpdate _ => true
  | .thermalThrottle _ => true
  | .thermalReset _ => true
  | .lifetimeCounterFlush => true
  | .reservedOpcode _ => true
  | .serviceCoreAccess _ _ => true
  | .storeAcknowledgement _ => true
  | .lineEviction _ _ _ => true
  | .refreshEnd _ _ => true
  | .tierCommandAccept _ _ => true
  | .frameGenerationChange _ _ => true
  | .tlbEntryDrop _ _ => true
  | .powerLoss => true
  | .migrHostReport _ _ _ => true
  | .managementPageMove _ _ _ _ => true
  | .partitionSettingWrite _ _ => true
  | .resizeAddResources _ _ _ _ => true

/-- The instructions that have an encoding; the others are events. -/
def Instr.isWord : Instr → Bool
  | .clauseHeader _ => true
  | .hint _ => true
  | .immediateExtension _ => true
  | .arithmeticPrefix _ => true
  | .memoryPrefix _ => true
  | .iadd _ => true
  | .isub _ => true
  | .imul _ => true
  | .imulhs _ => true
  | .imulhu _ => true
  | .imins _ => true
  | .imaxs _ => true
  | .iminu _ => true
  | .imaxu _ => true
  | .iaddss _ => true
  | .isubss _ => true
  | .iaddI _ => true
  | .isubI _ => true
  | .imulI _ => true
  | .imulhsI _ => true
  | .imulhuI _ => true
  | .iminsI _ => true
  | .imaxsI _ => true
  | .iminuI _ => true
  | .imaxuI _ => true
  | .iaddssI _ => true
  | .isubssI _ => true
  | .and _ => true
  | .or _ => true
  | .xor _ => true
  | .andn _ => true
  | .orn _ => true
  | .xnor _ => true
  | .shl _ => true
  | .shr _ => true
  | .sar _ => true
  | .rotl _ => true
  | .rotr _ => true
  | .andI _ => true
  | .orI _ => true
  | .xorI _ => true
  | .andnI _ => true
  | .ornI _ => true
  | .xnorI _ => true
  | .shlI _ => true
  | .shrI _ => true
  | .sarI _ => true
  | .rotlI _ => true
  | .rotrI _ => true
  | .popc _ => true
  | .clz _ => true
  | .ctz _ => true
  | .brev _ => true
  | .bfez _ => true
  | .bfes _ => true
  | .bfi _ => true
  | .fshl _ => true
  | .bsel _ => true
  | .bswap _ => true
  | .imad _ => true
  | .imadhs _ => true
  | .imadhu _ => true
  | .imadw _ => true
  | .imadws _ => true
  | .isad _ => true
  | .idp4 _ => true
  | .idp4z _ => true
  | .mov _ => true
  | .movi _ => true
  | .sel _ => true
  | .sext8 _ => true
  | .sext16 _ => true
  | .zext8 _ => true
  | .zext16 _ => true
  | .add64 _ => true
  | .sub64 _ => true
  | .shl64 _ => true
  | .shr64 _ => true
  | .wadd _ => true
  | .wsub _ => true
  | .wmul _ => true
  | .wand _ => true
  | .wor _ => true
  | .wxor _ => true
  | .wshl _ => true
  | .wshr _ => true
  | .wmov _ => true
  | .wmovi _ => true
  | .v2w _ => true
  | .w2v _ => true
  | .wlea _ => true
  | .fadd _ => true
  | .fsub _ => true
  | .fmul _ => true
  | .fmin _ => true
  | .fmax _ => true
  | .fminm _ => true
  | .fmaxm _ => true
  | .fcpysgn _ => true
  | .fabs _ => true
  | .fneg _ => true
  | .fsat _ => true
  | .ffma _ => true
  | .ffms _ => true
  | .fnma _ => true
  | .hadd2 _ => true
  | .hmul2 _ => true
  | .hfma2 _ => true
  | .hmin2 _ => true
  | .hmax2 _ => true
  | .badd2 _ => true
  | .bmul2 _ => true
  | .bfma2 _ => true
  | .bmin2 _ => true
  | .bmax2 _ => true
  | .f2is _ => true
  | .f2iz _ => true
  | .is2f _ => true
  | .iz2f _ => true
  | .f2h2 _ => true
  | .h2fl _ => true
  | .h2fh _ => true
  | .f2b2 _ => true
  | .b2fl _ => true
  | .b2fh _ => true
  | .frnd _ => true
  | .fclass _ => true
  | .fexp _ => true
  | .fldexp _ => true
  | .rcp _ => true
  | .rsq _ => true
  | .sqrt _ => true
  | .ex2 _ => true
  | .lg2 _ => true
  | .sint _ => true
  | .cost _ => true
  | .tanh _ => true
  | .logi _ => true
  | .sfuComplete _ _ => false
  | .shfi _ => true
  | .shfu _ => true
  | .shfd _ => true
  | .shfx _ => true
  | .qswx _ => true
  | .qswy _ => true
  | .qswd _ => true
  | .qbc _ => true
  | .vany _ => true
  | .vall _ => true
  | .vbal _ => true
  | .matchX _ => true
  | .redi _ => true
  | .redf _ => true
  | .lmask _ => true
  | .sgset _ => true
  | .ceq _ => true
  | .cne _ => true
  | .clt _ => true
  | .cle _ => true
  | .cgt _ => true
  | .cge _ => true
  | .ctany _ => true
  | .ctnone _ => true
  | .pand _ => true
  | .por _ => true
  | .pxor _ => true
  | .pandn _ => true
  | .pnot _ => true
  | .pmov _ => true
  | .pseti _ => true
  | .bra _ => true
  | .call _ => true
  | .brx _ => true
  | .callx _ => true
  | .ret _ => true
  | .exit _ => true
  | .demote _ => true
  | .yield _ => true
  | .nop _ => true
  | .bkpt _ => true
  | .ld8z _ => true
  | .ld8s _ => true
  | .ld16z _ => true
  | .ld16s _ => true
  | .ld32 _ => true
  | .ld64 _ => true
  | .ld128 _ => true
  | .ldf32 _ => true
  | .ldfb16 _ => true
  | .loadComplete _ _ => false
  | .registerSpill _ _ _ _ => false
  | .st8 _ => true
  | .st16 _ => true
  | .st32 _ => true
  | .st64 _ => true
  | .st128 _ => true
  | .deferredStorePerform _ => false
  | .lds32 _ => true
  | .lds64 _ => true
  | .lds128 _ => true
  | .sts32 _ => true
  | .sts64 _ => true
  | .sts128 _ => true
  | .atsadd _ => true
  | .atsmax _ => true
  | .spadLoadComplete _ _ => false
  | .aadd _ => true
  | .amins _ => true
  | .amaxs _ => true
  | .aminz _ => true
  | .amaxz _ => true
  | .aand _ => true
  | .aor _ => true
  | .axor _ => true
  | .aswp _ => true
  | .acas _ => true
  | .aincw _ => true
  | .adecw _ => true
  | .afadd _ => true
  | .aadd64 _ => true
  | .acas64 _ => true
  | .aswp64 _ => true
  | .atomComplete _ _ => false
  | .radd _ => true
  | .rmins _ => true
  | .rmaxs _ => true
  | .rminz _ => true
  | .rmaxz _ => true
  | .rand _ => true
  | .ror _ => true
  | .rxor _ => true
  | .rswp _ => true
  | .rfadd _ => true
  | .radd64 _ => true
  | .fence _ => true
  | .cflush _ => true
  | .cwb _ => true
  | .cinv _ => true
  | .pfl2 _ => true
  | .pfl1 _ => true
  | .qst _ => true
  | .qsel _ => true
  | .qerr _ => true
  | .sbchk _ => true
  | .mta _ => true
  | .qblkComplete _ _ => false
  | .gang _ => true
  | .mmas _ => true
  | .mmag _ => true
  | .rendezvousAccept _ _ => false
  | .rendezvousTimeout _ _ => false
  | .matrixOpStart _ => false
  | .matrixKStep _ => false
  | .bFetchFault _ => false
  | .matrixReissue _ _ => false
  | .matrixOpComplete _ => false
  | .acz _ => true
  | .acrd _ => true
  | .acwr _ => true
  | .acst _ => true
  | .acld _ => true
  | .tileTransferComplete _ _ => false
  | .mprg _ => true
  | .mrel _ => true
  | .cpyin _ => true
  | .cpyout _ => true
  | .cpymc _ => true
  | .cpyq2 _ => true
  | .ringdef _ => true
  | .awaitf _ => true
  | .rels _ => true
  | .cpyst _ => true
  | .copyCommandStart _ => false
  | .copyTranslationFault _ _ => false
  | .copyOpComplete _ _ => false
  | .multicastDelivery _ _ _ => false
  | .releaseReportArrival _ => false
  | .awaitfService _ _ => false
  | .awaitfTimeout _ _ => false
  | .rowcpy _ => true
  | .rowfill _ => true
  | .rowand _ => true
  | .rowor _ => true
  | .rownot _ => true
  | .rowmaj _ => true
  | .rowsaxpy _ => true
  | .rowst _ => true
  | .rowPlan _ _ => false
  | .rowStackAccept _ _ => false
  | .rowSweep _ _ => false
  | .rowStep _ _ => false
  | .rowResume _ _ => false
  | .perBankRefreshDue _ _ => false
  | .postponedRefreshIssue _ _ => false
  | .allBankRefresh _ _ => false
  | .bara _ => true
  | .barw _ => true
  | .bars _ => true
  | .warm _ => true
  | .warmComplete _ _ => false
  | .wwait _ => true
  | .spuriousTrigger _ _ _ => false
  | .wwaitTimeout _ _ _ => false
  | .waitv _ => true
  | .waitvEvaluation _ _ _ => false
  | .waitvDeadline _ _ _ => false
  | .tlwait _ => true
  | .tlrd _ => true
  | .sleep _ => true
  | .sleepExpiry _ _ _ => false
  | .barrierTimerExpiry _ _ => false
  | .pin _ => true
  | .unpin _ => true
  | .taff _ => true
  | .migr _ => true
  | .pgcnt _ => true
  | .twin _ => true
  | .tqry _ => true
  | .tqryOp _ => true
  | .queryComplete _ _ => false
  | .tierOpComplete _ _ => false
  | .moveCopyPhase _ => false
  | .moveSwitch _ => false
  | .moveCommit _ => false
  | .moveRetire _ => false
  | .counterHalving => false
  | .promotionPolicy _ _ => false
  | .frameRetirement _ _ => false
  | .poolRemoteRequest _ _ => false
  | .poolGrant _ _ => false
  | .poolWaitLimitExpiry _ => false
  | .poolStateChange _ _ => false
  | .enq _ => true
  | .stq _ => true
  | .idemb _ => true
  | .ideme _ => true
  | .dlaunch _ => true
  | .descriptorReadComplete _ => false
  | .trap _ => true
  | .sysc _ => true
  | .syscComplete _ _ _ => false
  | .fcall _ => true
  | .rett _ => true
  | .s2v _ => true
  | .v2s _ => true
  | .tlbi _ => true
  | .issueGroupFormation _ _ => false
  | .yieldMarkExpiry _ _ _ => false
  | .collectiveStallTimeout _ _ _ => false
  | .collectiveHoldTimeout _ => false
  | .trapEntry _ _ _ => false
  | .faultRecordQueued _ => false
  | .resumeAction _ _ => false
  | .skipAction _ _ => false
  | .deliverAction _ _ => false
  | .killAction _ _ => false
  | .engineFaultService _ _ _ => false
  | .watchdogExpiry _ => false
  | .tlbInvalidation _ _ => false
  | .workgroupStart _ _ _ => false
  | .stealRequest _ => false
  | .preemptionRequest _ _ => false
  | .drainBoundExpiry _ => false
  | .workgroupSave _ => false
  | .workgroupFlush _ => false
  | .workgroupResume _ _ => false
  | .workgroupEnd _ => false
  | .pipelineComplete _ _ => false
  | .bandwidthWindowRelease _ => false
  | .packageReset => false
  | .getVersion _ => false
  | .getCapabilities _ => false
  | .negotiateAlgorithms _ _ _ => false
  | .getDigests _ => false
  | .getCertificate _ _ => false
  | .challenge _ _ => false
  | .getMeasurements _ _ => false
  | .deviceStatusWrite _ _ _ _ => false
  | .semaphoreClaim _ _ => false
  | .leaseRenew _ => false
  | .semaphoreRelease _ => false
  | .leaseExpiry => false
  | .createPartition _ _ _ => false
  | .resizeRemoveCores _ _ _ _ => false
  | .resizeRemoveSlices _ _ _ _ => false
  | .resizeShrinkTierShare _ _ _ _ _ => false
  | .destroyPartition _ _ _ => false
  | .setPowerLimit _ _ _ => false
  | .firmwareUpdate _ _ _ => false
  | .hostLaunch _ _ _ => false
  | .capabilityTableRead _ => false
  | .powerControllerUpdate _ => false
  | .thermalThrottle _ => false
  | .thermalReset _ => false
  | .lifetimeCounterFlush => false
  | .reservedOpcode _ => false
  | .serviceCoreAccess _ _ => false
  | .storeAcknowledgement _ => false
  | .lineEviction _ _ _ => false
  | .refreshEnd _ _ => false
  | .tierCommandAccept _ _ => false
  | .frameGenerationChange _ _ => false
  | .tlbEntryDrop _ _ => false
  | .powerLoss => false
  | .migrHostReport _ _ _ => false
  | .managementPageMove _ _ _ _ => false
  | .partitionSettingWrite _ _ => false
  | .resizeAddResources _ _ _ _ => false

end Sys2Proof
end

