-- ==== Sys2Proof/Decode.lean ====
section
/-!
DEFINITION. Decoding and encoding of instruction words (02_encoding R26 to R29, R40 to R49 and each entry's table).
A word is read by its major and func (`rawDecode`); it is accepted when its fields are well-formed and every bit
that the format shows as fixed holds its value, which is said by encoding it again (R28).
`noncomputable` marks what Lean's code generator cannot compile: an inductive type with more than 244 constructors
that carry fields. Nothing else is meant by it: every definition here evaluates in the kernel.
-/

namespace Sys2Proof

/-- Why a word is not an instruction (R27, R28). -/
inductive DecodeError where
  | illegalOpcode
  | illegalEncoding
  deriving DecidableEq, Repr

/-- Bits [31:26]. -/
def majorOf (w : Word) : Nat := (w.extractLsb' 26 6).toNat

/-- Bits [25:22] of the formats that have a func field. -/
def funcOf (w : Word) : Nat := (w.extractLsb' 22 4).toNat

/-! Fields of each format, and the word of each format. -/

def HeaderArgs.ofWord (w : Word) : HeaderArgs :=
  { len := w.extractLsb' 22 4, wait := w.extractLsb' 10 12, fa := w.extractLsb' 6 4, fb := w.extractLsb' 2 4, y := w.getLsbD 1, c := w.getLsbD 0 }

def HeaderArgs.toWord (maj : BitVec 6) (o : HeaderArgs) : Word :=
  maj ++ o.len ++ o.wait ++ o.fa ++ o.fb ++ BitVec.ofBool o.y ++ BitVec.ofBool o.c

def HintArgs.ofWord (w : Word) : HintArgs :=
  { stall := w.extractLsb' 22 4, cache := w.extractLsb' 20 2, reuse := w.extractLsb' 18 2 }

def HintArgs.toWord (maj : BitVec 6) (o : HintArgs) : Word :=
  maj ++ o.stall ++ o.cache ++ o.reuse ++ (0 : BitVec 18)

def ExtArgs.ofWord (w : Word) : ExtArgs :=
  { ext := w.extractLsb' 0 26 }

def ExtArgs.toWord (maj : BitVec 6) (o : ExtArgs) : Word :=
  maj ++ o.ext

def ArithPrefixArgs.ofWord (w : Word) : ArithPrefixArgs :=
  { mask := w.extractLsb' 23 3, z := w.getLsbD 22, rnd := w.extractLsb' 19 3, v4 := w.extractLsb' 13 6 }

def ArithPrefixArgs.toWord (maj : BitVec 6) (o : ArithPrefixArgs) : Word :=
  maj ++ o.mask ++ BitVec.ofBool o.z ++ o.rnd ++ o.v4 ++ (0 : BitVec 13)

def MemPrefixArgs.ofWord (w : Word) : MemPrefixArgs :=
  { scope := w.extractLsb' 24 2, order := w.extractLsb' 22 2, v4 := w.extractLsb' 13 6 }

def MemPrefixArgs.toWord (maj : BitVec 6) (o : MemPrefixArgs) : Word :=
  maj ++ o.scope ++ o.order ++ (0 : BitVec 3) ++ o.v4 ++ (0 : BitVec 13)

def V3Args.ofWord (w : Word) : V3Args :=
  { vd := w.extractLsb' 16 6, va := w.extractLsb' 10 6, vb := w.extractLsb' 4 6, guard := w.extractLsb' 1 3, neg := w.getLsbD 0 }

def V3Args.toWord (maj : BitVec 6) (func : BitVec 4) (o : V3Args) : Word :=
  maj ++ func ++ o.vd ++ o.va ++ o.vb ++ o.guard ++ BitVec.ofBool o.neg

def V2Args.ofWord (w : Word) : V2Args :=
  { vd := w.extractLsb' 16 6, va := w.extractLsb' 10 6, guard := w.extractLsb' 1 3, neg := w.getLsbD 0 }

def V2Args.toWord (maj : BitVec 6) (func : BitVec 4) (o : V2Args) : Word :=
  maj ++ func ++ o.vd ++ o.va ++ (0 : BitVec 6) ++ o.guard ++ BitVec.ofBool o.neg

def VIArgs.ofWord (w : Word) : VIArgs :=
  { vd := w.extractLsb' 16 6, va := w.extractLsb' 10 6, imm := w.extractLsb' 4 6, guard := w.extractLsb' 1 3, neg := w.getLsbD 0 }

def VIArgs.toWord (maj : BitVec 6) (func : BitVec 4) (o : VIArgs) : Word :=
  maj ++ func ++ o.vd ++ o.va ++ o.imm ++ o.guard ++ BitVec.ofBool o.neg

def VI0Args.ofWord (w : Word) : VI0Args :=
  { vd := w.extractLsb' 16 6, imm := w.extractLsb' 4 6, guard := w.extractLsb' 1 3, neg := w.getLsbD 0 }

def VI0Args.toWord (maj : BitVec 6) (func : BitVec 4) (o : VI0Args) : Word :=
  maj ++ func ++ o.vd ++ (0 : BitVec 6) ++ o.imm ++ o.guard ++ BitVec.ofBool o.neg

def W3Args.ofWord (w : Word) : W3Args :=
  { wd := w.extractLsb' 17 5, wa := w.extractLsb' 12 5, wb := w.extractLsb' 7 5, guard := w.extractLsb' 0 3 }

def W3Args.toWord (maj : BitVec 6) (func : BitVec 4) (o : W3Args) : Word :=
  maj ++ func ++ o.wd ++ o.wa ++ o.wb ++ (0 : BitVec 4) ++ o.guard

def W2Args.ofWord (w : Word) : W2Args :=
  { wd := w.extractLsb' 17 5, wa := w.extractLsb' 12 5, guard := w.extractLsb' 0 3 }

def W2Args.toWord (maj : BitVec 6) (func : BitVec 4) (o : W2Args) : Word :=
  maj ++ func ++ o.wd ++ o.wa ++ (0 : BitVec 5) ++ (0 : BitVec 4) ++ o.guard

def WIArgs.ofWord (w : Word) : WIArgs :=
  { wd := w.extractLsb' 17 5, imm := w.extractLsb' 3 14, guard := w.extractLsb' 0 3 }

def WIArgs.toWord (maj : BitVec 6) (func : BitVec 4) (o : WIArgs) : Word :=
  maj ++ func ++ o.wd ++ o.imm ++ o.guard

def WVArgs.ofWord (w : Word) : WVArgs :=
  { wd := w.extractLsb' 17 5, k := w.extractLsb' 12 5, s := w.getLsbD 3, guard := w.extractLsb' 0 3 }

def WVArgs.toWord (maj : BitVec 6) (func : BitVec 4) (o : WVArgs) : Word :=
  maj ++ func ++ o.wd ++ o.k ++ (0 : BitVec 5) ++ (0 : BitVec 3) ++ BitVec.ofBool o.s ++ o.guard

def VWArgs.ofWord (w : Word) : VWArgs :=
  { k := w.extractLsb' 17 5, wa := w.extractLsb' 12 5, guard := w.extractLsb' 0 3 }

def VWArgs.toWord (maj : BitVec 6) (func : BitVec 4) (o : VWArgs) : Word :=
  maj ++ func ++ o.k ++ o.wa ++ (0 : BitVec 5) ++ (0 : BitVec 4) ++ o.guard

def WLArgs.ofWord (w : Word) : WLArgs :=
  { wd := w.extractLsb' 17 5, wa := w.extractLsb' 12 5, wb := w.extractLsb' 7 5, sh := w.extractLsb' 3 4, guard := w.extractLsb' 0 3 }

def WLArgs.toWord (maj : BitVec 6) (func : BitVec 4) (o : WLArgs) : Word :=
  maj ++ func ++ o.wd ++ o.wa ++ o.wb ++ o.sh ++ o.guard

def SfuArgs.ofWord (w : Word) : SfuArgs :=
  { vd := w.extractLsb' 16 6, va := w.extractLsb' 10 6, guard := w.extractLsb' 1 3, fs := w.getLsbD 0 }

def SfuArgs.toWord (maj : BitVec 6) (func : BitVec 4) (o : SfuArgs) : Word :=
  maj ++ func ++ o.vd ++ o.va ++ (0 : BitVec 6) ++ o.guard ++ BitVec.ofBool o.fs

def X3Args.ofWord (w : Word) : X3Args :=
  { vd := w.extractLsb' 16 6, va := w.extractLsb' 10 6, vb := w.extractLsb' 4 6, miss := w.extractLsb' 1 3, imm := w.getLsbD 0 }

def X3Args.toWord (maj : BitVec 6) (func : BitVec 4) (o : X3Args) : Word :=
  maj ++ func ++ o.vd ++ o.va ++ o.vb ++ o.miss ++ BitVec.ofBool o.imm

def X2Args.ofWord (w : Word) : X2Args :=
  { vd := w.extractLsb' 16 6, va := w.extractLsb' 10 6, miss := w.extractLsb' 1 3 }

def X2Args.toWord (maj : BitVec 6) (func : BitVec 4) (o : X2Args) : Word :=
  maj ++ func ++ o.vd ++ o.va ++ (0 : BitVec 6) ++ o.miss ++ (0 : BitVec 1)

def XVoteArgs.ofWord (w : Word) : XVoteArgs :=
  { pa := w.extractLsb' 10 3, miss := w.extractLsb' 1 3 }

def XVoteArgs.toWord (maj : BitVec 6) (func : BitVec 4) (o : XVoteArgs) : Word :=
  maj ++ func ++ (0 : BitVec 6) ++ (0 : BitVec 3) ++ o.pa ++ (0 : BitVec 6) ++ o.miss ++ (0 : BitVec 1)

def XBalArgs.ofWord (w : Word) : XBalArgs :=
  { vd := w.extractLsb' 16 6, pa := w.extractLsb' 10 3 }

def XBalArgs.toWord (maj : BitVec 6) (func : BitVec 4) (o : XBalArgs) : Word :=
  maj ++ func ++ o.vd ++ (0 : BitVec 3) ++ o.pa ++ (0 : BitVec 6) ++ (0 : BitVec 3) ++ (0 : BitVec 1)

def XRedArgs.ofWord (w : Word) : XRedArgs :=
  { vd := w.extractLsb' 16 6, va := w.extractLsb' 10 6, op := w.extractLsb' 4 6, miss := w.extractLsb' 1 3 }

def XRedArgs.toWord (maj : BitVec 6) (func : BitVec 4) (o : XRedArgs) : Word :=
  maj ++ func ++ o.vd ++ o.va ++ o.op ++ o.miss ++ (1 : BitVec 1)

def XMaskArgs.ofWord (w : Word) : XMaskArgs :=
  { vd := w.extractLsb' 16 6, sel := w.extractLsb' 4 6 }

def XMaskArgs.toWord (maj : BitVec 6) (func : BitVec 4) (o : XMaskArgs) : Word :=
  maj ++ func ++ o.vd ++ (0 : BitVec 6) ++ o.sel ++ (0 : BitVec 3) ++ (1 : BitVec 1)

def XSetArgs.ofWord (w : Word) : XSetArgs :=
  { imm := w.extractLsb' 4 6, miss := w.extractLsb' 1 3 }

def XSetArgs.toWord (maj : BitVec 6) (func : BitVec 4) (o : XSetArgs) : Word :=
  maj ++ func ++ (0 : BitVec 6) ++ (0 : BitVec 6) ++ o.imm ++ o.miss ++ (1 : BitVec 1)

def CmpArgs.ofWord (w : Word) : CmpArgs :=
  { type := w.extractLsb' 24 2, ctype := w.extractLsb' 21 3, pd1 := w.extractLsb' 18 3, pd2 := w.extractLsb' 15 3, va := w.extractLsb' 9 6, vb := w.extractLsb' 3 6, guard := w.extractLsb' 0 3 }

def CmpArgs.toWord (maj : BitVec 6) (o : CmpArgs) : Word :=
  maj ++ o.type ++ o.ctype ++ o.pd1 ++ o.pd2 ++ o.va ++ o.vb ++ o.guard

def P3Args.ofWord (w : Word) : P3Args :=
  { pd := w.extractLsb' 19 3, pa := w.extractLsb' 16 3, pb := w.extractLsb' 13 3, guard := w.extractLsb' 1 3, neg := w.getLsbD 0 }

def P3Args.toWord (maj : BitVec 6) (func : BitVec 4) (o : P3Args) : Word :=
  maj ++ func ++ o.pd ++ o.pa ++ o.pb ++ (0 : BitVec 1) ++ (0 : BitVec 8) ++ o.guard ++ BitVec.ofBool o.neg

def P2Args.ofWord (w : Word) : P2Args :=
  { pd := w.extractLsb' 19 3, pa := w.extractLsb' 16 3, guard := w.extractLsb' 1 3, neg := w.getLsbD 0 }

def P2Args.toWord (maj : BitVec 6) (func : BitVec 4) (o : P2Args) : Word :=
  maj ++ func ++ o.pd ++ o.pa ++ (0 : BitVec 3) ++ (0 : BitVec 1) ++ (0 : BitVec 8) ++ o.guard ++ BitVec.ofBool o.neg

def PIArgs.ofWord (w : Word) : PIArgs :=
  { pd := w.extractLsb' 19 3, imm := w.getLsbD 12, guard := w.extractLsb' 1 3, neg := w.getLsbD 0 }

def PIArgs.toWord (maj : BitVec 6) (func : BitVec 4) (o : PIArgs) : Word :=
  maj ++ func ++ o.pd ++ (0 : BitVec 3) ++ (0 : BitVec 3) ++ BitVec.ofBool o.imm ++ (0 : BitVec 8) ++ o.guard ++ BitVec.ofBool o.neg

def BrArgs.ofWord (w : Word) : BrArgs :=
  { guard := w.extractLsb' 19 3, neg := w.getLsbD 18, off := w.extractLsb' 0 18 }

def BrArgs.toWord (maj : BitVec 6) (func : BitVec 4) (o : BrArgs) : Word :=
  maj ++ func ++ o.guard ++ BitVec.ofBool o.neg ++ o.off

def CtlJArgs.ofWord (w : Word) : CtlJArgs :=
  { va := w.extractLsb' 10 6, guard := w.extractLsb' 1 3, neg := w.getLsbD 0 }

def CtlJArgs.toWord (maj : BitVec 6) (func : BitVec 4) (o : CtlJArgs) : Word :=
  maj ++ func ++ (0 : BitVec 6) ++ o.va ++ (0 : BitVec 6) ++ o.guard ++ BitVec.ofBool o.neg

def CtlGArgs.ofWord (w : Word) : CtlGArgs :=
  { guard := w.extractLsb' 1 3, neg := w.getLsbD 0 }

def CtlGArgs.toWord (maj : BitVec 6) (func : BitVec 4) (o : CtlGArgs) : Word :=
  maj ++ func ++ (0 : BitVec 6) ++ (0 : BitVec 6) ++ (0 : BitVec 6) ++ o.guard ++ BitVec.ofBool o.neg

def CtlBArgs.ofWord (w : Word) : CtlBArgs :=
  { code := w.extractLsb' 4 6, guard := w.extractLsb' 1 3, neg := w.getLsbD 0 }

def CtlBArgs.toWord (maj : BitVec 6) (func : BitVec 4) (o : CtlBArgs) : Word :=
  maj ++ func ++ (0 : BitVec 6) ++ (0 : BitVec 6) ++ o.code ++ o.guard ++ BitVec.ofBool o.neg

def MArgs.ofWord (w : Word) : MArgs :=
  { vd := w.extractLsb' 16 6, wb := w.extractLsb' 11 5, vo := w.extractLsb' 5 6, mode := w.getLsbD 4, guard := w.extractLsb' 1 3, fs := w.getLsbD 0 }

def MArgs.toWord (maj : BitVec 6) (func : BitVec 4) (o : MArgs) : Word :=
  maj ++ func ++ o.vd ++ o.wb ++ o.vo ++ BitVec.ofBool o.mode ++ o.guard ++ BitVec.ofBool o.fs

def MSArgs.ofWord (w : Word) : MSArgs :=
  { vs := w.extractLsb' 16 6, wb := w.extractLsb' 11 5, vo := w.extractLsb' 5 6, mode := w.getLsbD 4, guard := w.extractLsb' 1 3 }

def MSArgs.toWord (maj : BitVec 6) (func : BitVec 4) (o : MSArgs) : Word :=
  maj ++ func ++ o.vs ++ o.wb ++ o.vo ++ BitVec.ofBool o.mode ++ o.guard ++ (0 : BitVec 1)

def SpArgs.ofWord (w : Word) : SpArgs :=
  { vd := w.extractLsb' 16 6, vo := w.extractLsb' 5 6, guard := w.extractLsb' 1 3, fs := w.getLsbD 0 }

def SpArgs.toWord (maj : BitVec 6) (func : BitVec 4) (o : SpArgs) : Word :=
  maj ++ func ++ o.vd ++ (0 : BitVec 5) ++ o.vo ++ (0 : BitVec 1) ++ o.guard ++ BitVec.ofBool o.fs

def SpSArgs.ofWord (w : Word) : SpSArgs :=
  { vs := w.extractLsb' 16 6, vo := w.extractLsb' 5 6, guard := w.extractLsb' 1 3 }

def SpSArgs.toWord (maj : BitVec 6) (func : BitVec 4) (o : SpSArgs) : Word :=
  maj ++ func ++ o.vs ++ (0 : BitVec 5) ++ o.vo ++ (0 : BitVec 1) ++ o.guard ++ (0 : BitVec 1)

def FenArgs.ofWord (w : Word) : FenArgs :=
  { sc := w.getLsbD 16, guard := w.extractLsb' 1 3 }

def FenArgs.toWord (maj : BitVec 6) (func : BitVec 4) (o : FenArgs) : Word :=
  maj ++ func ++ (0 : BitVec 5) ++ BitVec.ofBool o.sc ++ (0 : BitVec 5) ++ (0 : BitVec 6) ++ (0 : BitVec 1) ++ o.guard ++ (0 : BitVec 1)

def McArgs.ofWord (w : Word) : McArgs :=
  { wb := w.extractLsb' 11 5, vo := w.extractLsb' 5 6, mode := w.getLsbD 4, guard := w.extractLsb' 1 3 }

def McArgs.toWord (maj : BitVec 6) (func : BitVec 4) (o : McArgs) : Word :=
  maj ++ func ++ (0 : BitVec 6) ++ o.wb ++ o.vo ++ BitVec.ofBool o.mode ++ o.guard ++ (0 : BitVec 1)

def QbArgs.ofWord (w : Word) : QbArgs :=
  { vq := w.extractLsb' 16 6, guard := w.extractLsb' 1 3, fs := w.getLsbD 0 }

def QbArgs.toWord (maj : BitVec 6) (func : BitVec 4) (o : QbArgs) : Word :=
  maj ++ func ++ o.vq ++ (0 : BitVec 5) ++ (0 : BitVec 6) ++ (0 : BitVec 1) ++ o.guard ++ BitVec.ofBool o.fs

def GangFArgs.ofWord (w : Word) : GangFArgs :=
  { wm := w.extractLsb' 10 5, g := w.extractLsb' 4 6, guard := w.extractLsb' 1 3 }

def GangFArgs.toWord (maj : BitVec 6) (func : BitVec 4) (o : GangFArgs) : Word :=
  maj ++ func ++ (0 : BitVec 6) ++ (0 : BitVec 1) ++ o.wm ++ o.g ++ o.guard ++ (0 : BitVec 1)

def MmaArgs.ofWord (w : Word) : MmaArgs :=
  { va := w.extractLsb' 16 6, wc := w.extractLsb' 10 5, tile := w.extractLsb' 7 3, keep := w.getLsbD 6, kbc := w.extractLsb' 4 2, guard := w.extractLsb' 1 3, fs := w.getLsbD 0 }

def MmaArgs.toWord (maj : BitVec 6) (func : BitVec 4) (o : MmaArgs) : Word :=
  maj ++ func ++ o.va ++ (0 : BitVec 1) ++ o.wc ++ o.tile ++ BitVec.ofBool o.keep ++ o.kbc ++ o.guard ++ BitVec.ofBool o.fs

def TileArgs.ofWord (w : Word) : TileArgs :=
  { tile := w.extractLsb' 4 3, guard := w.extractLsb' 1 3, fs := w.getLsbD 0 }

def TileArgs.toWord (maj : BitVec 6) (func : BitVec 4) (o : TileArgs) : Word :=
  maj ++ func ++ (0 : BitVec 6) ++ (0 : BitVec 6) ++ (0 : BitVec 3) ++ o.tile ++ o.guard ++ BitVec.ofBool o.fs

def TileVArgs.ofWord (w : Word) : TileVArgs :=
  { vd := w.extractLsb' 16 6, vp := w.extractLsb' 10 6, tile := w.extractLsb' 4 3, guard := w.extractLsb' 1 3, fs := w.getLsbD 0 }

def TileVArgs.toWord (maj : BitVec 6) (func : BitVec 4) (o : TileVArgs) : Word :=
  maj ++ func ++ o.vd ++ o.vp ++ (0 : BitVec 3) ++ o.tile ++ o.guard ++ BitVec.ofBool o.fs

def TileKArgs.ofWord (w : Word) : TileKArgs :=
  { k := w.extractLsb' 10 3, tile := w.extractLsb' 4 3, guard := w.extractLsb' 1 3, fs := w.getLsbD 0 }

def TileKArgs.toWord (maj : BitVec 6) (func : BitVec 4) (o : TileKArgs) : Word :=
  maj ++ func ++ (0 : BitVec 6) ++ (0 : BitVec 3) ++ o.k ++ (0 : BitVec 3) ++ o.tile ++ o.guard ++ BitVec.ofBool o.fs

def MprgArgs.ofWord (w : Word) : MprgArgs :=
  { vd := w.extractLsb' 16 6, clr := w.getLsbD 4, guard := w.extractLsb' 1 3 }

def MprgArgs.toWord (maj : BitVec 6) (func : BitVec 4) (o : MprgArgs) : Word :=
  maj ++ func ++ o.vd ++ (0 : BitVec 6) ++ (0 : BitVec 5) ++ BitVec.ofBool o.clr ++ o.guard ++ (0 : BitVec 1)

def G0Args.ofWord (w : Word) : G0Args :=
  { guard := w.extractLsb' 1 3 }

def G0Args.toWord (maj : BitVec 6) (func : BitVec 4) (o : G0Args) : Word :=
  maj ++ func ++ (0 : BitVec 6) ++ (0 : BitVec 6) ++ (0 : BitVec 6) ++ o.guard ++ (0 : BitVec 1)

def CpyPArgs.ofWord (w : Word) : CpyPArgs :=
  { k := w.extractLsb' 16 3, pd := w.extractLsb' 10 3, ws := w.extractLsb' 4 5, guard := w.extractLsb' 1 3 }

def CpyPArgs.toWord (maj : BitVec 6) (func : BitVec 4) (o : CpyPArgs) : Word :=
  maj ++ func ++ (0 : BitVec 3) ++ o.k ++ (0 : BitVec 3) ++ o.pd ++ (0 : BitVec 1) ++ o.ws ++ o.guard ++ (0 : BitVec 1)

def KWArgs.ofWord (w : Word) : KWArgs :=
  { k := w.extractLsb' 16 3, ws := w.extractLsb' 4 5, guard := w.extractLsb' 1 3 }

def KWArgs.toWord (maj : BitVec 6) (func : BitVec 4) (o : KWArgs) : Word :=
  maj ++ func ++ (0 : BitVec 3) ++ o.k ++ (0 : BitVec 6) ++ (0 : BitVec 1) ++ o.ws ++ o.guard ++ (0 : BitVec 1)

def KWrArgs.ofWord (w : Word) : KWrArgs :=
  { k := w.extractLsb' 16 3, ws := w.extractLsb' 10 5, guard := w.extractLsb' 1 3 }

def KWrArgs.toWord (maj : BitVec 6) (func : BitVec 4) (o : KWrArgs) : Word :=
  maj ++ func ++ (0 : BitVec 3) ++ o.k ++ (0 : BitVec 1) ++ o.ws ++ (0 : BitVec 6) ++ o.guard ++ (0 : BitVec 1)

def RowMajArgs.ofWord (w : Word) : RowMajArgs :=
  { k := w.extractLsb' 16 3, ws := w.extractLsb' 10 5, wc := w.extractLsb' 4 5, guard := w.extractLsb' 1 3 }

def RowMajArgs.toWord (maj : BitVec 6) (func : BitVec 4) (o : RowMajArgs) : Word :=
  maj ++ func ++ (0 : BitVec 3) ++ o.k ++ (0 : BitVec 1) ++ o.ws ++ (0 : BitVec 1) ++ o.wc ++ o.guard ++ (0 : BitVec 1)

def RingDefArgs.ofWord (w : Word) : RingDefArgs :=
  { ring := w.extractLsb' 16 3, wd := w.extractLsb' 10 5, guard := w.extractLsb' 1 3 }

def RingDefArgs.toWord (maj : BitVec 6) (func : BitVec 4) (o : RingDefArgs) : Word :=
  maj ++ func ++ (0 : BitVec 3) ++ o.ring ++ (0 : BitVec 1) ++ o.wd ++ (0 : BitVec 6) ++ o.guard ++ (0 : BitVec 1)

def AwaitArgs.ofWord (w : Word) : AwaitArgs :=
  { vd := w.extractLsb' 16 6, ring := w.extractLsb' 10 3, guard := w.extractLsb' 1 3, fs := w.getLsbD 0 }

def AwaitArgs.toWord (maj : BitVec 6) (func : BitVec 4) (o : AwaitArgs) : Word :=
  maj ++ func ++ o.vd ++ (0 : BitVec 3) ++ o.ring ++ (0 : BitVec 6) ++ o.guard ++ BitVec.ofBool o.fs

def RelsArgs.ofWord (w : Word) : RelsArgs :=
  { va := w.extractLsb' 16 6, ring := w.extractLsb' 10 3, guard := w.extractLsb' 1 3 }

def RelsArgs.toWord (maj : BitVec 6) (func : BitVec 4) (o : RelsArgs) : Word :=
  maj ++ func ++ o.va ++ (0 : BitVec 3) ++ o.ring ++ (0 : BitVec 6) ++ o.guard ++ (0 : BitVec 1)

def StatVArgs.ofWord (w : Word) : StatVArgs :=
  { vd := w.extractLsb' 16 6, ws := w.extractLsb' 10 5, guard := w.extractLsb' 1 3 }

def StatVArgs.toWord (maj : BitVec 6) (func : BitVec 4) (o : StatVArgs) : Word :=
  maj ++ func ++ o.vd ++ (0 : BitVec 1) ++ o.ws ++ (0 : BitVec 6) ++ o.guard ++ (0 : BitVec 1)

def BarFArgs.ofWord (w : Word) : BarFArgs :=
  { bar := w.extractLsb' 16 4, vc := w.extractLsb' 10 6, guard := w.extractLsb' 1 3 }

def BarFArgs.toWord (maj : BitVec 6) (func : BitVec 4) (o : BarFArgs) : Word :=
  maj ++ func ++ (0 : BitVec 2) ++ o.bar ++ o.vc ++ (0 : BitVec 6) ++ o.guard ++ (0 : BitVec 1)

def BarsArgs.ofWord (w : Word) : BarsArgs :=
  { vd := w.extractLsb' 16 6, bar := w.extractLsb' 10 4, guard := w.extractLsb' 1 3 }

def BarsArgs.toWord (maj : BitVec 6) (func : BitVec 4) (o : BarsArgs) : Word :=
  maj ++ func ++ o.vd ++ (0 : BitVec 2) ++ o.bar ++ (0 : BitVec 6) ++ o.guard ++ (0 : BitVec 1)

def PairQArgs.ofWord (w : Word) : PairQArgs :=
  { vd := w.extractLsb' 16 6, va := w.extractLsb' 10 6, guard := w.extractLsb' 1 3, fs := w.getLsbD 0 }

def PairQArgs.toWord (maj : BitVec 6) (func : BitVec 4) (o : PairQArgs) : Word :=
  maj ++ func ++ o.vd ++ o.va ++ (0 : BitVec 6) ++ o.guard ++ BitVec.ofBool o.fs

def WaitvArgs.ofWord (w : Word) : WaitvArgs :=
  { vt := w.extractLsb' 16 6, all := w.getLsbD 13, k := w.extractLsb' 10 3, vc := w.extractLsb' 4 6, guard := w.extractLsb' 1 3 }

def WaitvArgs.toWord (maj : BitVec 6) (func : BitVec 4) (o : WaitvArgs) : Word :=
  maj ++ func ++ o.vt ++ (0 : BitVec 2) ++ BitVec.ofBool o.all ++ o.k ++ o.vc ++ o.guard ++ (0 : BitVec 1)

def TlwArgs.ofWord (w : Word) : TlwArgs :=
  { wn := w.extractLsb' 10 5, tl := w.extractLsb' 4 2, guard := w.extractLsb' 1 3 }

def TlwArgs.toWord (maj : BitVec 6) (func : BitVec 4) (o : TlwArgs) : Word :=
  maj ++ func ++ (0 : BitVec 6) ++ (0 : BitVec 1) ++ o.wn ++ (0 : BitVec 4) ++ o.tl ++ o.guard ++ (0 : BitVec 1)

def TlrArgs.ofWord (w : Word) : TlrArgs :=
  { vd := w.extractLsb' 16 6, tl := w.extractLsb' 4 2, guard := w.extractLsb' 1 3 }

def TlrArgs.toWord (maj : BitVec 6) (func : BitVec 4) (o : TlrArgs) : Word :=
  maj ++ func ++ o.vd ++ (0 : BitVec 6) ++ (0 : BitVec 4) ++ o.tl ++ o.guard ++ (0 : BitVec 1)

def SlpArgs.ofWord (w : Word) : SlpArgs :=
  { vt := w.extractLsb' 10 6, guard := w.extractLsb' 1 3 }

def SlpArgs.toWord (maj : BitVec 6) (func : BitVec 4) (o : SlpArgs) : Word :=
  maj ++ func ++ (0 : BitVec 6) ++ o.vt ++ (0 : BitVec 6) ++ o.guard ++ (0 : BitVec 1)

def RangeFArgs.ofWord (w : Word) : RangeFArgs :=
  { wa := w.extractLsb' 16 5, wb := w.extractLsb' 10 5, ws := w.extractLsb' 4 5, guard := w.extractLsb' 1 3 }

def RangeFArgs.toWord (maj : BitVec 6) (func : BitVec 4) (o : RangeFArgs) : Word :=
  maj ++ func ++ (0 : BitVec 1) ++ o.wa ++ (0 : BitVec 1) ++ o.wb ++ (0 : BitVec 1) ++ o.ws ++ o.guard ++ (0 : BitVec 1)

def QOpArgs.ofWord (w : Word) : QOpArgs :=
  { vd := w.extractLsb' 16 6, ws := w.extractLsb' 10 5, guard := w.extractLsb' 1 3, fs := w.getLsbD 0 }

def QOpArgs.toWord (maj : BitVec 6) (func : BitVec 4) (o : QOpArgs) : Word :=
  maj ++ func ++ o.vd ++ (0 : BitVec 1) ++ o.ws ++ (1 : BitVec 6) ++ o.guard ++ BitVec.ofBool o.fs

def EnqFArgs.ofWord (w : Word) : EnqFArgs :=
  { pd := w.extractLsb' 16 3, queue := w.extractLsb' 10 3, vs := w.extractLsb' 4 6, guard := w.extractLsb' 1 3 }

def EnqFArgs.toWord (maj : BitVec 6) (func : BitVec 4) (o : EnqFArgs) : Word :=
  maj ++ func ++ (0 : BitVec 3) ++ o.pd ++ (0 : BitVec 3) ++ o.queue ++ o.vs ++ o.guard ++ (0 : BitVec 1)

def StqFArgs.ofWord (w : Word) : StqFArgs :=
  { vd := w.extractLsb' 16 6, queue := w.extractLsb' 10 3, guard := w.extractLsb' 1 3 }

def StqFArgs.toWord (maj : BitVec 6) (func : BitVec 4) (o : StqFArgs) : Word :=
  maj ++ func ++ o.vd ++ (0 : BitVec 3) ++ o.queue ++ (0 : BitVec 6) ++ o.guard ++ (0 : BitVec 1)

def DlArgs.ofWord (w : Word) : DlArgs :=
  { pd := w.extractLsb' 16 3, wd := w.extractLsb' 10 5, wh := w.extractLsb' 4 5, guard := w.extractLsb' 1 3 }

def DlArgs.toWord (maj : BitVec 6) (func : BitVec 4) (o : DlArgs) : Word :=
  maj ++ func ++ (0 : BitVec 3) ++ o.pd ++ (0 : BitVec 1) ++ o.wd ++ (0 : BitVec 1) ++ o.wh ++ o.guard ++ (0 : BitVec 1)

def TrapFArgs.ofWord (w : Word) : TrapFArgs :=
  { code := w.extractLsb' 4 6, guard := w.extractLsb' 1 3 }

def TrapFArgs.toWord (maj : BitVec 6) (func : BitVec 4) (o : TrapFArgs) : Word :=
  maj ++ func ++ (0 : BitVec 6) ++ (0 : BitVec 6) ++ o.code ++ o.guard ++ (0 : BitVec 1)

def SyscFArgs.ofWord (w : Word) : SyscFArgs :=
  { vd := w.extractLsb' 16 6, va := w.extractLsb' 10 6, guard := w.extractLsb' 1 3, fs := w.getLsbD 0 }

def SyscFArgs.toWord (maj : BitVec 6) (func : BitVec 4) (o : SyscFArgs) : Word :=
  maj ++ func ++ o.vd ++ o.va ++ (0 : BitVec 6) ++ o.guard ++ BitVec.ofBool o.fs

def S2vFArgs.ofWord (w : Word) : S2vFArgs :=
  { vd := w.extractLsb' 16 6, num := w.extractLsb' 4 6, guard := w.extractLsb' 1 3 }

def S2vFArgs.toWord (maj : BitVec 6) (func : BitVec 4) (o : S2vFArgs) : Word :=
  maj ++ func ++ o.vd ++ (0 : BitVec 6) ++ o.num ++ o.guard ++ (0 : BitVec 1)

def V2sFArgs.ofWord (w : Word) : V2sFArgs :=
  { va := w.extractLsb' 10 6, num := w.extractLsb' 4 6, guard := w.extractLsb' 1 3 }

def V2sFArgs.toWord (maj : BitVec 6) (func : BitVec 4) (o : V2sFArgs) : Word :=
  maj ++ func ++ (0 : BitVec 6) ++ o.va ++ o.num ++ o.guard ++ (0 : BitVec 1)

def TlbiFArgs.ofWord (w : Word) : TlbiFArgs :=
  { va := w.extractLsb' 10 6, guard := w.extractLsb' 1 3 }

def TlbiFArgs.toWord (maj : BitVec 6) (func : BitVec 4) (o : TlbiFArgs) : Word :=
  maj ++ func ++ (0 : BitVec 6) ++ o.va ++ (0 : BitVec 6) ++ o.guard ++ (0 : BitVec 1)

/-- The funcs of major 0x00 (R49). -/
def decodeIalu (w : Word) : Nat → Option Instr
  | 0 => some (.iadd (.ofWord w))
  | 1 => some (.isub (.ofWord w))
  | 2 => some (.imul (.ofWord w))
  | 3 => some (.imulhs (.ofWord w))
  | 4 => some (.imulhu (.ofWord w))
  | 5 => some (.imins (.ofWord w))
  | 6 => some (.imaxs (.ofWord w))
  | 7 => some (.iminu (.ofWord w))
  | 8 => some (.imaxu (.ofWord w))
  | 9 => some (.iaddss (.ofWord w))
  | 10 => some (.isubss (.ofWord w))
  | _ => none

/-- The funcs of major 0x01 (R49). -/
def decodeIalui (w : Word) : Nat → Option Instr
  | 0 => some (.iaddI (.ofWord w))
  | 1 => some (.isubI (.ofWord w))
  | 2 => some (.imulI (.ofWord w))
  | 3 => some (.imulhsI (.ofWord w))
  | 4 => some (.imulhuI (.ofWord w))
  | 5 => some (.iminsI (.ofWord w))
  | 6 => some (.imaxsI (.ofWord w))
  | 7 => some (.iminuI (.ofWord w))
  | 8 => some (.imaxuI (.ofWord w))
  | 9 => some (.iaddssI (.ofWord w))
  | 10 => some (.isubssI (.ofWord w))
  | _ => none

/-- The funcs of major 0x02 (R49). -/
def decodeLogic (w : Word) : Nat → Option Instr
  | 0 => some (.and (.ofWord w))
  | 1 => some (.or (.ofWord w))
  | 2 => some (.xor (.ofWord w))
  | 3 => some (.andn (.ofWord w))
  | 4 => some (.orn (.ofWord w))
  | 5 => some (.xnor (.ofWord w))
  | 6 => some (.shl (.ofWord w))
  | 7 => some (.shr (.ofWord w))
  | 8 => some (.sar (.ofWord w))
  | 9 => some (.rotl (.ofWord w))
  | 10 => some (.rotr (.ofWord w))
  | _ => none

/-- The funcs of major 0x03 (R49). -/
def decodeLogici (w : Word) : Nat → Option Instr
  | 0 => some (.andI (.ofWord w))
  | 1 => some (.orI (.ofWord w))
  | 2 => some (.xorI (.ofWord w))
  | 3 => some (.andnI (.ofWord w))
  | 4 => some (.ornI (.ofWord w))
  | 5 => some (.xnorI (.ofWord w))
  | 6 => some (.shlI (.ofWord w))
  | 7 => some (.shrI (.ofWord w))
  | 8 => some (.sarI (.ofWord w))
  | 9 => some (.rotlI (.ofWord w))
  | 10 => some (.rotrI (.ofWord w))
  | _ => none

/-- The funcs of major 0x04 (R49). -/
def decodeBits (w : Word) : Nat → Option Instr
  | 0 => some (.popc (.ofWord w))
  | 1 => some (.clz (.ofWord w))
  | 2 => some (.ctz (.ofWord w))
  | 3 => some (.brev (.ofWord w))
  | 4 => some (.bfez (.ofWord w))
  | 5 => some (.bfes (.ofWord w))
  | 6 => some (.bfi (.ofWord w))
  | 7 => some (.fshl (.ofWord w))
  | 8 => some (.bsel (.ofWord w))
  | 9 => some (.bswap (.ofWord w))
  | _ => none

/-- The funcs of major 0x05 (R49). -/
def decodeImad (w : Word) : Nat → Option Instr
  | 0 => some (.imad (.ofWord w))
  | 1 => some (.imadhs (.ofWord w))
  | 2 => some (.imadhu (.ofWord w))
  | 3 => some (.imadw (.ofWord w))
  | 4 => some (.imadws (.ofWord w))
  | 5 => some (.isad (.ofWord w))
  | 6 => some (.idp4 (.ofWord w))
  | 7 => some (.idp4z (.ofWord w))
  | _ => none

/-- The funcs of major 0x06 (R49). -/
def decodeMove (w : Word) : Nat → Option Instr
  | 0 => some (.mov (.ofWord w))
  | 1 => some (.movi (.ofWord w))
  | 2 => some (.sel (.ofWord w))
  | 3 => some (.sext8 (.ofWord w))
  | 4 => some (.sext16 (.ofWord w))
  | 5 => some (.zext8 (.ofWord w))
  | 6 => some (.zext16 (.ofWord w))
  | 7 => some (.add64 (.ofWord w))
  | 8 => some (.sub64 (.ofWord w))
  | 9 => some (.shl64 (.ofWord w))
  | 10 => some (.shr64 (.ofWord w))
  | _ => none

/-- The funcs of major 0x07 (R49). -/
def decodeWreg (w : Word) : Nat → Option Instr
  | 0 => some (.wadd (.ofWord w))
  | 1 => some (.wsub (.ofWord w))
  | 2 => some (.wmul (.ofWord w))
  | 3 => some (.wand (.ofWord w))
  | 4 => some (.wor (.ofWord w))
  | 5 => some (.wxor (.ofWord w))
  | 6 => some (.wshl (.ofWord w))
  | 7 => some (.wshr (.ofWord w))
  | 8 => some (.wmov (.ofWord w))
  | 9 => some (.wmovi (.ofWord w))
  | 10 => some (.v2w (.ofWord w))
  | 11 => some (.w2v (.ofWord w))
  | 12 => some (.wlea (.ofWord w))
  | _ => none

/-- The funcs of major 0x08 (R49). -/
def decodeFalu (w : Word) : Nat → Option Instr
  | 0 => some (.fadd (.ofWord w))
  | 1 => some (.fsub (.ofWord w))
  | 2 => some (.fmul (.ofWord w))
  | 3 => some (.fmin (.ofWord w))
  | 4 => some (.fmax (.ofWord w))
  | 5 => some (.fminm (.ofWord w))
  | 6 => some (.fmaxm (.ofWord w))
  | 7 => some (.fcpysgn (.ofWord w))
  | 8 => some (.fabs (.ofWord w))
  | 9 => some (.fneg (.ofWord w))
  | 10 => some (.fsat (.ofWord w))
  | _ => none

/-- The funcs of major 0x09 (R49). -/
def decodeFfma (w : Word) : Nat → Option Instr
  | 0 => some (.ffma (.ofWord w))
  | 1 => some (.ffms (.ofWord w))
  | 2 => some (.fnma (.ofWord w))
  | _ => none

/-- The funcs of major 0x0A (R49). -/
def decodeFpk16 (w : Word) : Nat → Option Instr
  | 0 => some (.hadd2 (.ofWord w))
  | 1 => some (.hmul2 (.ofWord w))
  | 2 => some (.hfma2 (.ofWord w))
  | 3 => some (.hmin2 (.ofWord w))
  | 4 => some (.hmax2 (.ofWord w))
  | 5 => some (.badd2 (.ofWord w))
  | 6 => some (.bmul2 (.ofWord w))
  | 7 => some (.bfma2 (.ofWord w))
  | 8 => some (.bmin2 (.ofWord w))
  | 9 => some (.bmax2 (.ofWord w))
  | _ => none

/-- The funcs of major 0x0B (R49). -/
def decodeFcvt (w : Word) : Nat → Option Instr
  | 0 => some (.f2is (.ofWord w))
  | 1 => some (.f2iz (.ofWord w))
  | 2 => some (.is2f (.ofWord w))
  | 3 => some (.iz2f (.ofWord w))
  | 4 => some (.f2h2 (.ofWord w))
  | 5 => some (.h2fl (.ofWord w))
  | 6 => some (.h2fh (.ofWord w))
  | 7 => some (.f2b2 (.ofWord w))
  | 8 => some (.b2fl (.ofWord w))
  | 9 => some (.b2fh (.ofWord w))
  | 10 => some (.frnd (.ofWord w))
  | 11 => some (.fclass (.ofWord w))
  | 12 => some (.fexp (.ofWord w))
  | 13 => some (.fldexp (.ofWord w))
  | _ => none

/-- The funcs of major 0x0C (R49). -/
def decodeSfu (w : Word) : Nat → Option Instr
  | 0 => some (.rcp (.ofWord w))
  | 1 => some (.rsq (.ofWord w))
  | 2 => some (.sqrt (.ofWord w))
  | 3 => some (.ex2 (.ofWord w))
  | 4 => some (.lg2 (.ofWord w))
  | 5 => some (.sint (.ofWord w))
  | 6 => some (.cost (.ofWord w))
  | 7 => some (.tanh (.ofWord w))
  | 8 => some (.logi (.ofWord w))
  | _ => none

/-- The funcs of major 0x0E (R49). -/
def decodeXlane (w : Word) : Nat → Option Instr
  | 0 => some (.shfi (.ofWord w))
  | 1 => some (.shfu (.ofWord w))
  | 2 => some (.shfd (.ofWord w))
  | 3 => some (.shfx (.ofWord w))
  | 4 => some (.qswx (.ofWord w))
  | 5 => some (.qswy (.ofWord w))
  | 6 => some (.qswd (.ofWord w))
  | 7 => some (.qbc (.ofWord w))
  | 8 => some (.vany (.ofWord w))
  | 9 => some (.vall (.ofWord w))
  | 10 => some (.vbal (.ofWord w))
  | 11 => some (.matchX (.ofWord w))
  | 12 => some (.redi (.ofWord w))
  | 13 => some (.redf (.ofWord w))
  | 14 => some (.lmask (.ofWord w))
  | 15 => some (.sgset (.ofWord w))
  | _ => none

/-- The funcs of major 0x18 (R49). -/
def decodePred (w : Word) : Nat → Option Instr
  | 0 => some (.pand (.ofWord w))
  | 1 => some (.por (.ofWord w))
  | 2 => some (.pxor (.ofWord w))
  | 3 => some (.pandn (.ofWord w))
  | 4 => some (.pnot (.ofWord w))
  | 5 => some (.pmov (.ofWord w))
  | 6 => some (.pseti (.ofWord w))
  | _ => none

/-- The funcs of major 0x19 (R49). -/
def decodeBr (w : Word) : Nat → Option Instr
  | 0 => some (.bra (.ofWord w))
  | 1 => some (.call (.ofWord w))
  | _ => none

/-- The funcs of major 0x1A (R49). -/
def decodeCtl (w : Word) : Nat → Option Instr
  | 0 => some (.brx (.ofWord w))
  | 1 => some (.callx (.ofWord w))
  | 2 => some (.ret (.ofWord w))
  | 3 => some (.exit (.ofWord w))
  | 4 => some (.demote (.ofWord w))
  | 5 => some (.yield (.ofWord w))
  | 6 => some (.nop (.ofWord w))
  | 7 => some (.bkpt (.ofWord w))
  | _ => none

/-- The funcs of major 0x20 (R49). -/
def decodeLd (w : Word) : Nat → Option Instr
  | 0 => some (.ld8z (.ofWord w))
  | 1 => some (.ld8s (.ofWord w))
  | 2 => some (.ld16z (.ofWord w))
  | 3 => some (.ld16s (.ofWord w))
  | 4 => some (.ld32 (.ofWord w))
  | 5 => some (.ld64 (.ofWord w))
  | 6 => some (.ld128 (.ofWord w))
  | 7 => some (.ldf32 (.ofWord w))
  | 8 => some (.ldfb16 (.ofWord w))
  | _ => none

/-- The funcs of major 0x21 (R49). -/
def decodeSt (w : Word) : Nat → Option Instr
  | 0 => some (.st8 (.ofWord w))
  | 1 => some (.st16 (.ofWord w))
  | 2 => some (.st32 (.ofWord w))
  | 3 => some (.st64 (.ofWord w))
  | 4 => some (.st128 (.ofWord w))
  | _ => none

/-- The funcs of major 0x22 (R49). -/
def decodeSpad (w : Word) : Nat → Option Instr
  | 0 => some (.lds32 (.ofWord w))
  | 1 => some (.lds64 (.ofWord w))
  | 2 => some (.lds128 (.ofWord w))
  | 3 => some (.sts32 (.ofWord w))
  | 4 => some (.sts64 (.ofWord w))
  | 5 => some (.sts128 (.ofWord w))
  | 6 => some (.atsadd (.ofWord w))
  | 7 => some (.atsmax (.ofWord w))
  | _ => none

/-- The funcs of major 0x23 (R49). -/
def decodeAtom (w : Word) : Nat → Option Instr
  | 0 => some (.aadd (.ofWord w))
  | 1 => some (.amins (.ofWord w))
  | 2 => some (.amaxs (.ofWord w))
  | 3 => some (.aminz (.ofWord w))
  | 4 => some (.amaxz (.ofWord w))
  | 5 => some (.aand (.ofWord w))
  | 6 => some (.aor (.ofWord w))
  | 7 => some (.axor (.ofWord w))
  | 8 => some (.aswp (.ofWord w))
  | 9 => some (.acas (.ofWord w))
  | 10 => some (.aincw (.ofWord w))
  | 11 => some (.adecw (.ofWord w))
  | 12 => some (.afadd (.ofWord w))
  | 13 => some (.aadd64 (.ofWord w))
  | 14 => some (.acas64 (.ofWord w))
  | 15 => some (.aswp64 (.ofWord w))
  | _ => none

/-- The funcs of major 0x24 (R49). -/
def decodeRedm (w : Word) : Nat → Option Instr
  | 0 => some (.radd (.ofWord w))
  | 1 => some (.rmins (.ofWord w))
  | 2 => some (.rmaxs (.ofWord w))
  | 3 => some (.rminz (.ofWord w))
  | 4 => some (.rmaxz (.ofWord w))
  | 5 => some (.rand (.ofWord w))
  | 6 => some (.ror (.ofWord w))
  | 7 => some (.rxor (.ofWord w))
  | 8 => some (.rswp (.ofWord w))
  | 12 => some (.rfadd (.ofWord w))
  | 13 => some (.radd64 (.ofWord w))
  | _ => none

/-- The funcs of major 0x25 (R49). -/
def decodeMctl (w : Word) : Nat → Option Instr
  | 0 => some (.fence (.ofWord w))
  | 1 => some (.cflush (.ofWord w))
  | 2 => some (.cwb (.ofWord w))
  | 3 => some (.cinv (.ofWord w))
  | 4 => some (.pfl2 (.ofWord w))
  | 5 => some (.pfl1 (.ofWord w))
  | _ => none

/-- The funcs of major 0x26 (R49). -/
noncomputable def decodeQblk (w : Word) : Nat → Option Instr
  | 0 => some (.qst (.ofWord w))
  | 1 => some (.qsel (.ofWord w))
  | 2 => some (.qerr (.ofWord w))
  | 3 => some (.sbchk (.ofWord w))
  | 4 => some (.mta (.ofWord w))
  | _ => none

/-- The funcs of major 0x28 (R49). -/
noncomputable def decodeMtx (w : Word) : Nat → Option Instr
  | 0 => some (.gang (.ofWord w))
  | 1 => some (.mmas (.ofWord w))
  | 2 => some (.mmag (.ofWord w))
  | 3 => some (.acz (.ofWord w))
  | 4 => some (.acrd (.ofWord w))
  | 5 => some (.acwr (.ofWord w))
  | 6 => some (.acst (.ofWord w))
  | 7 => some (.acld (.ofWord w))
  | 8 => some (.mprg (.ofWord w))
  | 9 => some (.mrel (.ofWord w))
  | _ => none

/-- The funcs of major 0x29 (R49). -/
noncomputable def decodeCpy (w : Word) : Nat → Option Instr
  | 0 => some (.cpyin (.ofWord w))
  | 1 => some (.cpyout (.ofWord w))
  | 2 => some (.cpymc (.ofWord w))
  | 3 => some (.cpyq2 (.ofWord w))
  | 4 => some (.ringdef (.ofWord w))
  | 5 => some (.awaitf (.ofWord w))
  | 6 => some (.rels (.ofWord w))
  | 7 => some (.cpyst (.ofWord w))
  | _ => none

/-- The funcs of major 0x2A (R49). -/
noncomputable def decodeRow (w : Word) : Nat → Option Instr
  | 0 => some (.rowcpy (.ofWord w))
  | 1 => some (.rowfill (.ofWord w))
  | 2 => some (.rowand (.ofWord w))
  | 3 => some (.rowor (.ofWord w))
  | 4 => some (.rownot (.ofWord w))
  | 5 => some (.rowmaj (.ofWord w))
  | 6 => some (.rowsaxpy (.ofWord w))
  | 7 => some (.rowst (.ofWord w))
  | _ => none

/-- The funcs of major 0x2B (R49). -/
noncomputable def decodeSync (w : Word) : Nat → Option Instr
  | 0 => some (.bara (.ofWord w))
  | 1 => some (.barw (.ofWord w))
  | 2 => some (.bars (.ofWord w))
  | 3 => some (.warm (.ofWord w))
  | 4 => some (.wwait (.ofWord w))
  | 5 => some (.waitv (.ofWord w))
  | 6 => some (.tlwait (.ofWord w))
  | 7 => some (.tlrd (.ofWord w))
  | 8 => some (.sleep (.ofWord w))
  | _ => none

/-- The funcs of major 0x2C (R49). -/
noncomputable def decodeTier (w : Word) : Nat → Option Instr
  | 0 => some (.pin (.ofWord w))
  | 1 => some (.unpin (.ofWord w))
  | 2 => some (.taff (.ofWord w))
  | 3 => some (.migr (.ofWord w))
  | 4 => some (.pgcnt (.ofWord w))
  | 5 => some (.twin (.ofWord w))
  | 6 => some (if w.extractLsb' 4 6 == 1 then .tqryOp (.ofWord w) else .tqry (.ofWord w))
  | _ => none

/-- The funcs of major 0x2D (R49). -/
noncomputable def decodeSched (w : Word) : Nat → Option Instr
  | 0 => some (.enq (.ofWord w))
  | 1 => some (.stq (.ofWord w))
  | 2 => some (.idemb (.ofWord w))
  | 3 => some (.ideme (.ofWord w))
  | 4 => some (.dlaunch (.ofWord w))
  | _ => none

/-- The funcs of major 0x2E (R49). -/
noncomputable def decodeSys (w : Word) : Nat → Option Instr
  | 0 => some (.trap (.ofWord w))
  | 1 => some (.sysc (.ofWord w))
  | 2 => some (.fcall (.ofWord w))
  | 3 => some (.rett (.ofWord w))
  | 4 => some (.s2v (.ofWord w))
  | 5 => some (.v2s (.ofWord w))
  | 6 => some (.tlbi (.ofWord w))
  | _ => none

/-- The instruction a word's major and func name; `arith` says how a prefix word is read (R42). -/
noncomputable def rawDecode (arith : Bool) (w : Word) : Option Instr :=
  match majorOf w with
  | 0 => decodeIalu w (funcOf w)
  | 1 => decodeIalui w (funcOf w)
  | 2 => decodeLogic w (funcOf w)
  | 3 => decodeLogici w (funcOf w)
  | 4 => decodeBits w (funcOf w)
  | 5 => decodeImad w (funcOf w)
  | 6 => decodeMove w (funcOf w)
  | 7 => decodeWreg w (funcOf w)
  | 8 => decodeFalu w (funcOf w)
  | 9 => decodeFfma w (funcOf w)
  | 10 => decodeFpk16 w (funcOf w)
  | 11 => decodeFcvt w (funcOf w)
  | 12 => decodeSfu w (funcOf w)
  | 14 => decodeXlane w (funcOf w)
  | 16 => some (.ceq (.ofWord w))
  | 17 => some (.cne (.ofWord w))
  | 18 => some (.clt (.ofWord w))
  | 19 => some (.cle (.ofWord w))
  | 20 => some (.cgt (.ofWord w))
  | 21 => some (.cge (.ofWord w))
  | 22 => some (.ctany (.ofWord w))
  | 23 => some (.ctnone (.ofWord w))
  | 24 => decodePred w (funcOf w)
  | 25 => decodeBr w (funcOf w)
  | 26 => decodeCtl w (funcOf w)
  | 32 => decodeLd w (funcOf w)
  | 33 => decodeSt w (funcOf w)
  | 34 => decodeSpad w (funcOf w)
  | 35 => decodeAtom w (funcOf w)
  | 36 => decodeRedm w (funcOf w)
  | 37 => decodeMctl w (funcOf w)
  | 38 => decodeQblk w (funcOf w)
  | 40 => decodeMtx w (funcOf w)
  | 41 => decodeCpy w (funcOf w)
  | 42 => decodeRow w (funcOf w)
  | 43 => decodeSync w (funcOf w)
  | 44 => decodeTier w (funcOf w)
  | 45 => decodeSched w (funcOf w)
  | 46 => decodeSys w (funcOf w)
  | 60 => some (.hint (.ofWord w))
  | 61 => some (.immediateExtension (.ofWord w))
  | 62 => some (if arith then .arithmeticPrefix (.ofWord w) else .memoryPrefix (.ofWord w))
  | 63 => some (.clauseHeader (.ofWord w))
  | _ => none

/-- The word of an instruction; an event has none. -/
def Instr.encode : Instr → Option Word
  | .clauseHeader o => some (o.toWord 0x3F)
  | .hint o => some (o.toWord 0x3C)
  | .immediateExtension o => some (o.toWord 0x3D)
  | .arithmeticPrefix o => some (o.toWord 0x3E)
  | .memoryPrefix o => some (o.toWord 0x3E)
  | .iadd o => some (o.toWord 0x00 0)
  | .isub o => some (o.toWord 0x00 1)
  | .imul o => some (o.toWord 0x00 2)
  | .imulhs o => some (o.toWord 0x00 3)
  | .imulhu o => some (o.toWord 0x00 4)
  | .imins o => some (o.toWord 0x00 5)
  | .imaxs o => some (o.toWord 0x00 6)
  | .iminu o => some (o.toWord 0x00 7)
  | .imaxu o => some (o.toWord 0x00 8)
  | .iaddss o => some (o.toWord 0x00 9)
  | .isubss o => some (o.toWord 0x00 10)
  | .iaddI o => some (o.toWord 0x01 0)
  | .isubI o => some (o.toWord 0x01 1)
  | .imulI o => some (o.toWord 0x01 2)
  | .imulhsI o => some (o.toWord 0x01 3)
  | .imulhuI o => some (o.toWord 0x01 4)
  | .iminsI o => some (o.toWord 0x01 5)
  | .imaxsI o => some (o.toWord 0x01 6)
  | .iminuI o => some (o.toWord 0x01 7)
  | .imaxuI o => some (o.toWord 0x01 8)
  | .iaddssI o => some (o.toWord 0x01 9)
  | .isubssI o => some (o.toWord 0x01 10)
  | .and o => some (o.toWord 0x02 0)
  | .or o => some (o.toWord 0x02 1)
  | .xor o => some (o.toWord 0x02 2)
  | .andn o => some (o.toWord 0x02 3)
  | .orn o => some (o.toWord 0x02 4)
  | .xnor o => some (o.toWord 0x02 5)
  | .shl o => some (o.toWord 0x02 6)
  | .shr o => some (o.toWord 0x02 7)
  | .sar o => some (o.toWord 0x02 8)
  | .rotl o => some (o.toWord 0x02 9)
  | .rotr o => some (o.toWord 0x02 10)
  | .andI o => some (o.toWord 0x03 0)
  | .orI o => some (o.toWord 0x03 1)
  | .xorI o => some (o.toWord 0x03 2)
  | .andnI o => some (o.toWord 0x03 3)
  | .ornI o => some (o.toWord 0x03 4)
  | .xnorI o => some (o.toWord 0x03 5)
  | .shlI o => some (o.toWord 0x03 6)
  | .shrI o => some (o.toWord 0x03 7)
  | .sarI o => some (o.toWord 0x03 8)
  | .rotlI o => some (o.toWord 0x03 9)
  | .rotrI o => some (o.toWord 0x03 10)
  | .popc o => some (o.toWord 0x04 0)
  | .clz o => some (o.toWord 0x04 1)
  | .ctz o => some (o.toWord 0x04 2)
  | .brev o => some (o.toWord 0x04 3)
  | .bfez o => some (o.toWord 0x04 4)
  | .bfes o => some (o.toWord 0x04 5)
  | .bfi o => some (o.toWord 0x04 6)
  | .fshl o => some (o.toWord 0x04 7)
  | .bsel o => some (o.toWord 0x04 8)
  | .bswap o => some (o.toWord 0x04 9)
  | .imad o => some (o.toWord 0x05 0)
  | .imadhs o => some (o.toWord 0x05 1)
  | .imadhu o => some (o.toWord 0x05 2)
  | .imadw o => some (o.toWord 0x05 3)
  | .imadws o => some (o.toWord 0x05 4)
  | .isad o => some (o.toWord 0x05 5)
  | .idp4 o => some (o.toWord 0x05 6)
  | .idp4z o => some (o.toWord 0x05 7)
  | .mov o => some (o.toWord 0x06 0)
  | .movi o => some (o.toWord 0x06 1)
  | .sel o => some (o.toWord 0x06 2)
  | .sext8 o => some (o.toWord 0x06 3)
  | .sext16 o => some (o.toWord 0x06 4)
  | .zext8 o => some (o.toWord 0x06 5)
  | .zext16 o => some (o.toWord 0x06 6)
  | .add64 o => some (o.toWord 0x06 7)
  | .sub64 o => some (o.toWord 0x06 8)
  | .shl64 o => some (o.toWord 0x06 9)
  | .shr64 o => some (o.toWord 0x06 10)
  | .wadd o => some (o.toWord 0x07 0)
  | .wsub o => some (o.toWord 0x07 1)
  | .wmul o => some (o.toWord 0x07 2)
  | .wand o => some (o.toWord 0x07 3)
  | .wor o => some (o.toWord 0x07 4)
  | .wxor o => some (o.toWord 0x07 5)
  | .wshl o => some (o.toWord 0x07 6)
  | .wshr o => some (o.toWord 0x07 7)
  | .wmov o => some (o.toWord 0x07 8)
  | .wmovi o => some (o.toWord 0x07 9)
  | .v2w o => some (o.toWord 0x07 10)
  | .w2v o => some (o.toWord 0x07 11)
  | .wlea o => some (o.toWord 0x07 12)
  | .fadd o => some (o.toWord 0x08 0)
  | .fsub o => some (o.toWord 0x08 1)
  | .fmul o => some (o.toWord 0x08 2)
  | .fmin o => some (o.toWord 0x08 3)
  | .fmax o => some (o.toWord 0x08 4)
  | .fminm o => some (o.toWord 0x08 5)
  | .fmaxm o => some (o.toWord 0x08 6)
  | .fcpysgn o => some (o.toWord 0x08 7)
  | .fabs o => some (o.toWord 0x08 8)
  | .fneg o => some (o.toWord 0x08 9)
  | .fsat o => some (o.toWord 0x08 10)
  | .ffma o => some (o.toWord 0x09 0)
  | .ffms o => some (o.toWord 0x09 1)
  | .fnma o => some (o.toWord 0x09 2)
  | .hadd2 o => some (o.toWord 0x0A 0)
  | .hmul2 o => some (o.toWord 0x0A 1)
  | .hfma2 o => some (o.toWord 0x0A 2)
  | .hmin2 o => some (o.toWord 0x0A 3)
  | .hmax2 o => some (o.toWord 0x0A 4)
  | .badd2 o => some (o.toWord 0x0A 5)
  | .bmul2 o => some (o.toWord 0x0A 6)
  | .bfma2 o => some (o.toWord 0x0A 7)
  | .bmin2 o => some (o.toWord 0x0A 8)
  | .bmax2 o => some (o.toWord 0x0A 9)
  | .f2is o => some (o.toWord 0x0B 0)
  | .f2iz o => some (o.toWord 0x0B 1)
  | .is2f o => some (o.toWord 0x0B 2)
  | .iz2f o => some (o.toWord 0x0B 3)
  | .f2h2 o => some (o.toWord 0x0B 4)
  | .h2fl o => some (o.toWord 0x0B 5)
  | .h2fh o => some (o.toWord 0x0B 6)
  | .f2b2 o => some (o.toWord 0x0B 7)
  | .b2fl o => some (o.toWord 0x0B 8)
  | .b2fh o => some (o.toWord 0x0B 9)
  | .frnd o => some (o.toWord 0x0B 10)
  | .fclass o => some (o.toWord 0x0B 11)
  | .fexp o => some (o.toWord 0x0B 12)
  | .fldexp o => some (o.toWord 0x0B 13)
  | .rcp o => some (o.toWord 0x0C 0)
  | .rsq o => some (o.toWord 0x0C 1)
  | .sqrt o => some (o.toWord 0x0C 2)
  | .ex2 o => some (o.toWord 0x0C 3)
  | .lg2 o => some (o.toWord 0x0C 4)
  | .sint o => some (o.toWord 0x0C 5)
  | .cost o => some (o.toWord 0x0C 6)
  | .tanh o => some (o.toWord 0x0C 7)
  | .logi o => some (o.toWord 0x0C 8)
  | .sfuComplete _ _ => none
  | .shfi o => some (o.toWord 0x0E 0)
  | .shfu o => some (o.toWord 0x0E 1)
  | .shfd o => some (o.toWord 0x0E 2)
  | .shfx o => some (o.toWord 0x0E 3)
  | .qswx o => some (o.toWord 0x0E 4)
  | .qswy o => some (o.toWord 0x0E 5)
  | .qswd o => some (o.toWord 0x0E 6)
  | .qbc o => some (o.toWord 0x0E 7)
  | .vany o => some (o.toWord 0x0E 8)
  | .vall o => some (o.toWord 0x0E 9)
  | .vbal o => some (o.toWord 0x0E 10)
  | .matchX o => some (o.toWord 0x0E 11)
  | .redi o => some (o.toWord 0x0E 12)
  | .redf o => some (o.toWord 0x0E 13)
  | .lmask o => some (o.toWord 0x0E 14)
  | .sgset o => some (o.toWord 0x0E 15)
  | .ceq o => some (o.toWord 0x10)
  | .cne o => some (o.toWord 0x11)
  | .clt o => some (o.toWord 0x12)
  | .cle o => some (o.toWord 0x13)
  | .cgt o => some (o.toWord 0x14)
  | .cge o => some (o.toWord 0x15)
  | .ctany o => some (o.toWord 0x16)
  | .ctnone o => some (o.toWord 0x17)
  | .pand o => some (o.toWord 0x18 0)
  | .por o => some (o.toWord 0x18 1)
  | .pxor o => some (o.toWord 0x18 2)
  | .pandn o => some (o.toWord 0x18 3)
  | .pnot o => some (o.toWord 0x18 4)
  | .pmov o => some (o.toWord 0x18 5)
  | .pseti o => some (o.toWord 0x18 6)
  | .bra o => some (o.toWord 0x19 0)
  | .call o => some (o.toWord 0x19 1)
  | .brx o => some (o.toWord 0x1A 0)
  | .callx o => some (o.toWord 0x1A 1)
  | .ret o => some (o.toWord 0x1A 2)
  | .exit o => some (o.toWord 0x1A 3)
  | .demote o => some (o.toWord 0x1A 4)
  | .yield o => some (o.toWord 0x1A 5)
  | .nop o => some (o.toWord 0x1A 6)
  | .bkpt o => some (o.toWord 0x1A 7)
  | .ld8z o => some (o.toWord 0x20 0)
  | .ld8s o => some (o.toWord 0x20 1)
  | .ld16z o => some (o.toWord 0x20 2)
  | .ld16s o => some (o.toWord 0x20 3)
  | .ld32 o => some (o.toWord 0x20 4)
  | .ld64 o => some (o.toWord 0x20 5)
  | .ld128 o => some (o.toWord 0x20 6)
  | .ldf32 o => some (o.toWord 0x20 7)
  | .ldfb16 o => some (o.toWord 0x20 8)
  | .loadComplete _ _ => none
  | .registerSpill _ _ _ _ => none
  | .st8 o => some (o.toWord 0x21 0)
  | .st16 o => some (o.toWord 0x21 1)
  | .st32 o => some (o.toWord 0x21 2)
  | .st64 o => some (o.toWord 0x21 3)
  | .st128 o => some (o.toWord 0x21 4)
  | .deferredStorePerform _ => none
  | .lds32 o => some (o.toWord 0x22 0)
  | .lds64 o => some (o.toWord 0x22 1)
  | .lds128 o => some (o.toWord 0x22 2)
  | .sts32 o => some (o.toWord 0x22 3)
  | .sts64 o => some (o.toWord 0x22 4)
  | .sts128 o => some (o.toWord 0x22 5)
  | .atsadd o => some (o.toWord 0x22 6)
  | .atsmax o => some (o.toWord 0x22 7)
  | .spadLoadComplete _ _ => none
  | .aadd o => some (o.toWord 0x23 0)
  | .amins o => some (o.toWord 0x23 1)
  | .amaxs o => some (o.toWord 0x23 2)
  | .aminz o => some (o.toWord 0x23 3)
  | .amaxz o => some (o.toWord 0x23 4)
  | .aand o => some (o.toWord 0x23 5)
  | .aor o => some (o.toWord 0x23 6)
  | .axor o => some (o.toWord 0x23 7)
  | .aswp o => some (o.toWord 0x23 8)
  | .acas o => some (o.toWord 0x23 9)
  | .aincw o => some (o.toWord 0x23 10)
  | .adecw o => some (o.toWord 0x23 11)
  | .afadd o => some (o.toWord 0x23 12)
  | .aadd64 o => some (o.toWord 0x23 13)
  | .acas64 o => some (o.toWord 0x23 14)
  | .aswp64 o => some (o.toWord 0x23 15)
  | .atomComplete _ _ => none
  | .radd o => some (o.toWord 0x24 0)
  | .rmins o => some (o.toWord 0x24 1)
  | .rmaxs o => some (o.toWord 0x24 2)
  | .rminz o => some (o.toWord 0x24 3)
  | .rmaxz o => some (o.toWord 0x24 4)
  | .rand o => some (o.toWord 0x24 5)
  | .ror o => some (o.toWord 0x24 6)
  | .rxor o => some (o.toWord 0x24 7)
  | .rswp o => some (o.toWord 0x24 8)
  | .rfadd o => some (o.toWord 0x24 12)
  | .radd64 o => some (o.toWord 0x24 13)
  | .fence o => some (o.toWord 0x25 0)
  | .cflush o => some (o.toWord 0x25 1)
  | .cwb o => some (o.toWord 0x25 2)
  | .cinv o => some (o.toWord 0x25 3)
  | .pfl2 o => some (o.toWord 0x25 4)
  | .pfl1 o => some (o.toWord 0x25 5)
  | .qst o => some (o.toWord 0x26 0)
  | .qsel o => some (o.toWord 0x26 1)
  | .qerr o => some (o.toWord 0x26 2)
  | .sbchk o => some (o.toWord 0x26 3)
  | .mta o => some (o.toWord 0x26 4)
  | .qblkComplete _ _ => none
  | .gang o => some (o.toWord 0x28 0)
  | .mmas o => some (o.toWord 0x28 1)
  | .mmag o => some (o.toWord 0x28 2)
  | .rendezvousAccept _ _ => none
  | .rendezvousTimeout _ _ => none
  | .matrixOpStart _ => none
  | .matrixKStep _ => none
  | .bFetchFault _ => none
  | .matrixReissue _ _ => none
  | .matrixOpComplete _ => none
  | .acz o => some (o.toWord 0x28 3)
  | .acrd o => some (o.toWord 0x28 4)
  | .acwr o => some (o.toWord 0x28 5)
  | .acst o => some (o.toWord 0x28 6)
  | .acld o => some (o.toWord 0x28 7)
  | .tileTransferComplete _ _ => none
  | .mprg o => some (o.toWord 0x28 8)
  | .mrel o => some (o.toWord 0x28 9)
  | .cpyin o => some (o.toWord 0x29 0)
  | .cpyout o => some (o.toWord 0x29 1)
  | .cpymc o => some (o.toWord 0x29 2)
  | .cpyq2 o => some (o.toWord 0x29 3)
  | .ringdef o => some (o.toWord 0x29 4)
  | .awaitf o => some (o.toWord 0x29 5)
  | .rels o => some (o.toWord 0x29 6)
  | .cpyst o => some (o.toWord 0x29 7)
  | .copyCommandStart _ => none
  | .copyTranslationFault _ _ => none
  | .copyOpComplete _ _ => none
  | .multicastDelivery _ _ _ => none
  | .releaseReportArrival _ => none
  | .awaitfService _ _ => none
  | .awaitfTimeout _ _ => none
  | .rowcpy o => some (o.toWord 0x2A 0)
  | .rowfill o => some (o.toWord 0x2A 1)
  | .rowand o => some (o.toWord 0x2A 2)
  | .rowor o => some (o.toWord 0x2A 3)
  | .rownot o => some (o.toWord 0x2A 4)
  | .rowmaj o => some (o.toWord 0x2A 5)
  | .rowsaxpy o => some (o.toWord 0x2A 6)
  | .rowst o => some (o.toWord 0x2A 7)
  | .rowPlan _ _ => none
  | .rowStackAccept _ _ => none
  | .rowSweep _ _ => none
  | .rowStep _ _ => none
  | .rowResume _ _ => none
  | .perBankRefreshDue _ _ => none
  | .postponedRefreshIssue _ _ => none
  | .allBankRefresh _ _ => none
  | .bara o => some (o.toWord 0x2B 0)
  | .barw o => some (o.toWord 0x2B 1)
  | .bars o => some (o.toWord 0x2B 2)
  | .warm o => some (o.toWord 0x2B 3)
  | .warmComplete _ _ => none
  | .wwait o => some (o.toWord 0x2B 4)
  | .spuriousTrigger _ _ _ => none
  | .wwaitTimeout _ _ _ => none
  | .waitv o => some (o.toWord 0x2B 5)
  | .waitvEvaluation _ _ _ => none
  | .waitvDeadline _ _ _ => none
  | .tlwait o => some (o.toWord 0x2B 6)
  | .tlrd o => some (o.toWord 0x2B 7)
  | .sleep o => some (o.toWord 0x2B 8)
  | .sleepExpiry _ _ _ => none
  | .barrierTimerExpiry _ _ => none
  | .pin o => some (o.toWord 0x2C 0)
  | .unpin o => some (o.toWord 0x2C 1)
  | .taff o => some (o.toWord 0x2C 2)
  | .migr o => some (o.toWord 0x2C 3)
  | .pgcnt o => some (o.toWord 0x2C 4)
  | .twin o => some (o.toWord 0x2C 5)
  | .tqry o => some (o.toWord 0x2C 6)
  | .tqryOp o => some (o.toWord 0x2C 6)
  | .queryComplete _ _ => none
  | .tierOpComplete _ _ => none
  | .moveCopyPhase _ => none
  | .moveSwitch _ => none
  | .moveCommit _ => none
  | .moveRetire _ => none
  | .counterHalving => none
  | .promotionPolicy _ _ => none
  | .frameRetirement _ _ => none
  | .poolRemoteRequest _ _ => none
  | .poolGrant _ _ => none
  | .poolWaitLimitExpiry _ => none
  | .poolStateChange _ _ => none
  | .enq o => some (o.toWord 0x2D 0)
  | .stq o => some (o.toWord 0x2D 1)
  | .idemb o => some (o.toWord 0x2D 2)
  | .ideme o => some (o.toWord 0x2D 3)
  | .dlaunch o => some (o.toWord 0x2D 4)
  | .descriptorReadComplete _ => none
  | .trap o => some (o.toWord 0x2E 0)
  | .sysc o => some (o.toWord 0x2E 1)
  | .syscComplete _ _ _ => none
  | .fcall o => some (o.toWord 0x2E 2)
  | .rett o => some (o.toWord 0x2E 3)
  | .s2v o => some (o.toWord 0x2E 4)
  | .v2s o => some (o.toWord 0x2E 5)
  | .tlbi o => some (o.toWord 0x2E 6)
  | .issueGroupFormation _ _ => none
  | .yieldMarkExpiry _ _ _ => none
  | .collectiveStallTimeout _ _ _ => none
  | .collectiveHoldTimeout _ => none
  | .trapEntry _ _ _ => none
  | .faultRecordQueued _ => none
  | .resumeAction _ _ => none
  | .skipAction _ _ => none
  | .deliverAction _ _ => none
  | .killAction _ _ => none
  | .engineFaultService _ _ _ => none
  | .watchdogExpiry _ => none
  | .tlbInvalidation _ _ => none
  | .workgroupStart _ _ _ => none
  | .stealRequest _ => none
  | .preemptionRequest _ _ => none
  | .drainBoundExpiry _ => none
  | .workgroupSave _ => none
  | .workgroupFlush _ => none
  | .workgroupResume _ _ => none
  | .workgroupEnd _ => none
  | .pipelineComplete _ _ => none
  | .bandwidthWindowRelease _ => none
  | .packageReset => none
  | .getVersion _ => none
  | .getCapabilities _ => none
  | .negotiateAlgorithms _ _ _ => none
  | .getDigests _ => none
  | .getCertificate _ _ => none
  | .challenge _ _ => none
  | .getMeasurements _ _ => none
  | .deviceStatusWrite _ _ _ _ => none
  | .semaphoreClaim _ _ => none
  | .leaseRenew _ => none
  | .semaphoreRelease _ => none
  | .leaseExpiry => none
  | .createPartition _ _ _ => none
  | .resizeRemoveCores _ _ _ _ => none
  | .resizeRemoveSlices _ _ _ _ => none
  | .resizeShrinkTierShare _ _ _ _ _ => none
  | .destroyPartition _ _ _ => none
  | .setPowerLimit _ _ _ => none
  | .firmwareUpdate _ _ _ => none
  | .hostLaunch _ _ _ => none
  | .capabilityTableRead _ => none
  | .powerControllerUpdate _ => none
  | .thermalThrottle _ => none
  | .thermalReset _ => none
  | .lifetimeCounterFlush => none
  | .reservedOpcode _ => none
  | .serviceCoreAccess _ _ => none
  | .storeAcknowledgement _ => none
  | .lineEviction _ _ _ => none
  | .refreshEnd _ _ => none
  | .tierCommandAccept _ _ => none
  | .frameGenerationChange _ _ => none
  | .tlbEntryDrop _ _ => none
  | .powerLoss => none
  | .migrHostReport _ _ _ => none
  | .managementPageMove _ _ _ _ => none
  | .partitionSettingWrite _ _ => none
  | .resizeAddResources _ _ _ _ => none

/-- Before these majors a prefix word is a memory prefix (R42). Before any other major but the arithmetic ones it
is illegal at the modified word, and its own zero field is then read as the arithmetic form's. -/
def memPrefixMajor (maj : Nat) : Bool :=
  maj == 0x20 || maj == 0x21 || maj == 0x23 || maj == 0x24 || maj == 0x25 || maj == 0x28 || maj == 0x29 ||
    maj == 0x2A || maj == 0x2C

/-- Before these majors a prefix word is an arithmetic prefix (R42). -/
def arithPrefixMajor (maj : Nat) : Bool := maj ≤ 0x06 || (0x08 ≤ maj && maj ≤ 0x0C)

/-- Decode one word. `modified` is the first later word of the clause that is not an extension word: it decides
how a prefix word is read (R37, R42). -/
noncomputable def decode (w modified : Word) : Except DecodeError Instr :=
  match rawDecode (!memPrefixMajor (majorOf modified)) w with
  | none => .error .illegalOpcode
  | some i => if i.wf && i.encode == some w then .ok i else .error .illegalEncoding

/-- The bytes of a word in memory, lowest address first (R4, R26). -/
def wordBytes (w : Word) : List Byte :=
  [w.extractLsb' 0 8, w.extractLsb' 8 8, w.extractLsb' 16 8, w.extractLsb' 24 8]

/-- A word from its four bytes, lowest address first (R4). -/
def wordOfBytes (b0 b1 b2 b3 : Byte) : Word := b3 ++ b2 ++ b1 ++ b0

/-- Decode from bytes: the word, then the word that follows it. Fewer than eight bytes are refused. -/
noncomputable def decodeBytes : List Byte → Except DecodeError Instr
  | b0 :: b1 :: b2 :: b3 :: c0 :: c1 :: c2 :: c3 :: _ => decode (wordOfBytes b0 b1 b2 b3) (wordOfBytes c0 c1 c2 c3)
  | _ => .error .illegalEncoding

/-- The instruction that the decoder reads from a word numbered as the opcode table numbers it, followed by zeros.
The zero word that follows makes a prefix word an arithmetic prefix (R42). -/
noncomputable def decodeTableWord (nbits w : Nat) : Option Instr :=
  match decodeBytes (wordBytes (BitVec.ofNat 32 (w % 2 ^ nbits)) ++ wordBytes 0) with
  | .ok i => some i
  | .error _ => none

end Sys2Proof
end

