-- ==== Sys2Proof/Machine/Fetch.lean ====
section
/-!
DEFINITION. Fetching the next word of a group and looking ahead of it: the word that a prefix modifies, the place of a
modifier word's own fault, a fetch that faults (02_encoding R26, R27, R37, R42, R62; 16_system R369).
-/

namespace Sys2Proof.Machine

/-- The partition that a group runs in. -/
def State.groupPart (s : State) (g : Group) : Nat := s.partOf ((s.active g).head?.map (·.wg) |>.getD 0)

/-- R37, R42: the word that a prefix modifies: the first later word of the clause that is no extension word. -/
def State.modified (s : State) (core part : Nat) : Nat → DWord → Word
  | 0, _ => 0
  | n + 1, pc => match s.fetchWord core part pc with
    | .ok w => if majorOf w = 0x3D then s.modified core part n (pc + 4) else w
    | .error _ => 0

/-- The word that decides how a prefix is read; any other word needs none. -/
def State.lookAhead (s : State) (g : Group) (w : Word) : Word :=
  if majorOf w = 0x3E then s.modified g.core (s.groupPart g) (g.ctx.left - 1) (g.pc + 4) else 0

/-- The words from a modifier word at an address on, up to the end of the instruction it stands before (R369). -/
def State.modifierRun (s : State) (core part : Nat) : Nat → DWord → Nat
  | 0, _ => 1
  | n + 1, pc => match s.fetchWord core part (pc + 4) with
    | .ok w => if 0x3C ≤ majorOf w ∧ majorOf w ≤ 0x3E then 1 + s.modifierRun core part n (pc + 4) else 2
    | .error _ => 2

/-- Where a fault of a modifier word itself is recorded: the next address is that of the first word after the
instruction (R369). -/
def State.modifierSite (s : State) (g : Group) : Site :=
  if g.atHeader then g.site g.pc
  else
    let n := s.modifierRun g.core (s.groupPart g) (g.ctx.left - 1) g.pc
    { g.site g.pc with next := g.pc + BitVec.ofNat 64 (4 * n),
                       nextIn := if g.ctx.left ≤ n then none else some { g.ctx with left := g.ctx.left - n } }

/-- A modifier word that breaks a rule faults in every member (R27, R37). -/
def State.modifierFault (s : State) (g : Group) (code : BitVec 8) : Answer :=
  .next (((s.mapGroup g.id fun _ t => t.raise { code := code } (s.modifierSite g)).advance g).settle g.id)

/-- The word that cannot be fetched faults in every member (R62). -/
def fetchFault (code : BitVec 8) (g : Group) (s : State) : Answer :=
  let part := s.groupPart g
  let d : FaultDetail := { code := code, addr := g.pc, gen := s.fetchGen g.core part g.pc }
  .next (((s.fetchTlb g.core part g.pc).raiseAll g d g.pc).advance g |>.settle g.id)

/-- The next word of a group is a warp-register word. -/
def State.atWreg (s : State) (g : Group) : Bool := match s.fetchWord g.core (s.groupPart g) g.pc with
  | .ok w => majorOf w == 0x07
  | .error _ => false

end Sys2Proof.Machine
end

