-- ==== Sys2Proof/Machine/Control.lean ====
section
/-!
DEFINITION. Clause headers and modifier words (02_encoding R29, R31, R37 to R44), transfers and control words, majors
0x19 and 0x1A (03_control R77 to R86).
-/

namespace Sys2Proof.Machine

/-! ## Clause headers (R29, R31) -/

/-- CLAUSE_HEADER: the group that stands at its address starts the clause; among a clause's words it
faults, ILLEGAL_PREFIX behind modifier words (R61). -/
def execClauseHeader (o : HeaderArgs) (s : State) : Answer :=
  match s.current with
  | none => .refused .noIssueGroup
  | some g =>
    if g.atHeader then
      let ctx : ClauseCtx := { hdr := g.pc, left := o.len.toNat, fa := o.fa, fb := o.fb, y := o.y, c := o.c }
      let s := s.mapGroup g.id fun _ t => { t with pc := g.pc + 4 }
      let s := s.updGroup g.id fun x => { x with pc := g.pc + 4, atHeader := false, ctx := ctx, mods := Mods.none }
      .next ({ s with picks := s.picks.tail }.settle g.id)
    else if g.mods.count != 0 then
      .next ((s.raiseAll g { code := codeIllegalPrefix } (g.pc - BitVec.ofNat 64 (4 * g.mods.count))).advance g
        |>.settle g.id)
    else .next ((s.raiseAll g { code := codeIllegalEncoding } g.pc).advance g |>.settle g.id)

/-! ## Modifier words (R37) -/

/-- A modifier word: out of place, repeated, out of order or last it faults; else it waits for its instruction. -/
def modifierWord (misplaced : Mods → Bool) (add : Mods → DWord → Mods) (s : State) : Answer :=
  match s.current with
  | none => .refused .noIssueGroup
  | some g =>
    if g.atHeader then s.modifierFault g codeIllegalEncoding
    else if misplaced g.mods || g.ctx.left == 1 then s.modifierFault g codeIllegalPrefix
    else
      let s := s.mapGroup g.id fun _ t => { t with pc := g.pc + 4 }
      let s := s.updGroup g.id fun x =>
        { x with pc := g.pc + 4, ctx := { g.ctx with left := g.ctx.left - 1 }, mods := add g.mods g.pc }
      .next { s with picks := s.picks.tail }

/-- HINT (R40): no value of it changes the results of any instruction. -/
def execHint (o : HintArgs) (s : State) : Answer :=
  modifierWord (fun m => m.count != 0) (fun m pc => { m with hint := some (pc, o) }) s

/-- IMMEDIATE_EXTENSION (R41). -/
def execImmediateExtension (o : ExtArgs) (s : State) : Answer :=
  modifierWord (fun m => m.ext.isSome) (fun m pc => { m with ext := some (pc, o.ext) }) s

/-- A prefix after a prefix or an extension word is out of order (R37). -/
def prefixMisplaced (m : Mods) : Bool := m.arith.isSome || m.mem.isSome || m.ext.isSome

/-- ARITHMETIC_PREFIX (R43). -/
def execArithmeticPrefix (o : ArithPrefixArgs) (s : State) : Answer :=
  modifierWord prefixMisplaced (fun m pc => { m with arith := some (pc, o) }) s

/-- MEMORY_PREFIX (R44). -/
def execMemoryPrefix (o : MemPrefixArgs) (s : State) : Answer :=
  modifierWord prefixMisplaced (fun m pc => { m with mem := some (pc, o) }) s

/-! ## Transfers (R77, R79, R80) -/

/-- What a transfer does to the link and the depth. -/
inductive Link where
  | none
  | call
  | ret
  deriving DecidableEq, Repr

/-- R77, R79: the link registers and the call depth. -/
def Thread.linked (t : Thread) (l : Link) (link : DWord) : Thread :=
  match l with
  | .none => t
  | .call => { t.setReg64 14 link with depth := min (t.depth + 1) 65535 }
  | .ret => { t with depth := t.depth - 1 }

/-- A fault of a target's fetch is recorded at the target, where the thread resumes (R80). -/
def targetSite (target : DWord) : Site :=
  { pc := target, resume := target, resumeIn := none, next := target, nextIn := none }

/-- One thread takes a transfer. -/
def Thread.transfer (t : Thread) (s : State) (g : Group) (w : Workgroup) (l : Link) (target : DWord) : Thread :=
  if badTargetBits target then t.raise { code := codeBadTarget, addr := target } (g.site g.pc)
  else match s.targetFault w.core w.part target with
    | some c => ((t.linked l (g.pc + 4)).finishClause g).raise { code := c, addr := target } (targetSite target)
    | none => { t.linked l (g.pc + 4) with pc := target }

/-- A transfer is last in its clause (R32) and takes a hint only. -/
def transferWord (regs srcs : List Nat) (guard : BitVec 3) (neg : Bool) (l : Link) (target : Group → Thread → DWord)
    (s : State) : Answer :=
  issue { last := true } (regs ++ srcs) (fillSources {} (·.guard guard neg) srcs) noHold
    (fun g s => s.mapGroup g.id fun w t =>
      if t.guard guard neg then t.transfer s g w l (target g t) else t) s

/-- R47: the target of a relative transfer. -/
def relativeTarget (g : Group) (off : BitVec 18) : DWord := g.pc + 4 * sext 64 off

/-- BRA (R77). -/
def execBra (o : BrArgs) (s : State) : Answer :=
  transferWord [] [] o.guard o.neg .none (fun g _ => relativeTarget g o.off) s

/-- CALL (R77). -/
def execCall (o : BrArgs) (s : State) : Answer :=
  transferWord [14, 15] [] o.guard o.neg .call (fun g _ => relativeTarget g o.off) s

/-- BRX (R79). -/
def execBrx (o : CtlJArgs) (s : State) : Answer :=
  transferWord [] [o.va.toNat, o.va.toNat + 1] o.guard o.neg .none (fun _ t => t.reg64 o.va.toNat) s

/-- CALLX (R79). -/
def execCallx (o : CtlJArgs) (s : State) : Answer :=
  transferWord [14, 15] [o.va.toNat, o.va.toNat + 1] o.guard o.neg .call (fun _ t => t.reg64 o.va.toNat) s

/-- RET (R79). -/
def execRet (o : CtlGArgs) (s : State) : Answer :=
  transferWord [] [14, 15] o.guard o.neg .ret (fun _ t => t.reg64 14) s

/-! ## Control words (R82 to R86) -/

/-- R82: a thread ends. -/
def Thread.exit (t : Thread) : Thread :=
  { t with status := .exited, group := none, hold := none, watch := none, collSince := none }

/-- EXIT (R82): the thread leaves its sub-group, and the count of b0 falls (R300). -/
def execExit (o : CtlGArgs) (s : State) : Answer :=
  issue { last := true } [] noFill noHold (fun g s =>
    let going := (s.active g).filter fun r => (s.thread? r).any fun t => t.guard o.guard o.neg
    going.foldl (fun s r => (s.updThread r Thread.exit).recountB0 r.wg) s) s

/-- DEMOTE (R83). -/
def execDemote (o : CtlGArgs) (s : State) : Answer :=
  issue {} [] noFill noHold (fun g s => s.mapGroup g.id fun _ t =>
    if t.guard o.guard o.neg && t.status == .live then { t with status := .helper } else t) s

/-- YIELD (R84). -/
def execYield (o : CtlGArgs) (s : State) : Answer :=
  issue {} [] noFill noHold (fun g s => s.mapGroup g.id fun _ t =>
    if t.guard o.guard o.neg then { t with yieldMark := some 0 } else t) s

/-- NOP (R85). -/
def execNop (_ : CtlGArgs) (s : State) : Answer := issue {} [] noFill noHold (fun _ s => s) s

/-- A fault that is recorded at, and resumes at, the word after the instruction (R86, R377). DESIGN CHOICE (assumption log
24): a thread whose clause ends with that instruction is not yield-marked by it (R69). -/
def Group.afterSite (g : Group) : Site :=
  { pc := g.pc + 4, resume := g.pc + 4, resumeIn := g.ctx.step, next := g.pc + 4, nextIn := g.ctx.step }

/-- BKPT (R86). -/
def execBkpt (o : CtlBArgs) (s : State) : Answer :=
  issue {} [] noFill noHold (fun g s => s.mapGroup g.id fun _ t =>
    if t.guard o.guard o.neg then t.raise { code := codeBkpt, reg := o.code.toNat } g.afterSite else t) s

end Sys2Proof.Machine
end

