-- ==== Sys2Proof/Machine/CrossLane.lean ====
section
/-!
DEFINITION. The cross-lane words, major 0x0E (06_crosslane R127 to R137), and the hold of R72.
-/

namespace Sys2Proof.Machine

/-! ## Members (R127) -/

/-- First lane of the thread's sub-group. -/
def Thread.base (t : Thread) : Nat := t.lane / t.sgw * t.sgw

/-- The thread's relative index. -/
def Thread.rel (t : Thread) : Nat := t.lane - t.base

/-- Member k of a thread's sub-group, unless it has exited or the lane has no thread. -/
def Workgroup.member? (w : Workgroup) (t : Thread) (k : Nat) : Option Thread :=
  (w.thread? t.warp (t.base + k)).filter (·.status != .exited)

/-- The members that have not exited, by relative index. -/
def Workgroup.members (w : Workgroup) (t : Thread) : List (Nat × Thread) :=
  (List.range t.sgw).filterMap fun k => (w.member? t k).map fun m => (k, m)

/-! ## Collective holds (R72) -/

/-- Whether some member of a sub-group of the group is not at the word with it. -/
def State.incomplete (s : State) (id : Nat) : Bool :=
  s.wgs.any fun w => w.threads.any fun t =>
    t.group == some id && (w.members t).any fun m => m.2.group != some id

/-- Two groups that stand at one cross-lane word of one clause on one core. -/
def Group.sameWord (g h : Group) : Bool :=
  h.id != g.id && h.core == g.core && h.pc == g.pc && !h.atHeader && h.ctx == g.ctx

/-- R127: two groups that hold members of one sub-group. -/
def State.shareSubGroup (s : State) (g h : Group) : Bool :=
  let subs (x : Group) : List (Nat × Nat × Nat) :=
    (s.active x).filterMap fun r => (s.thread? r).map fun t => (r.wg, r.warp, t.base)
  (subs g).any (subs h).contains

/-- R72: the members of its sub-groups that hold at this word join the group that reaches it; where one is still missing
the hold is timed from the first member's. -/
def joinHeld (g : Group) (s : State) : State :=
  let joins := s.groups.filter fun h => g.sameWord h && h.collHold.isSome && s.shareSubGroup g h
  let ids := joins.map (·.id)
  let move (t : Thread) : Thread := if t.group.any ids.contains then { t with group := some g.id } else t
  let moveAll (w : Workgroup) : Workgroup := { w with threads := w.threads.map move }
  let s : State := { s with wgs := s.wgs.map moveAll }
  let members := (g.members ++ (joins.map (·.members)).flatten).mergeSort fun a b => decide (a.lane ≤ b.lane)
  let since := joins.foldl (fun a h => match a, h.collHold with
    | some x, some y => some (min x y)
    | none, y => y
    | x, none => x) g.collHold
  let s := { s with groups := s.groups.filter fun h => !ids.contains h.id }
  let hold := if s.incomplete g.id then some (since.getD s.time) else none
  s.updGroup g.id fun x => { x with members := members, collHold := hold }

/-- A cross-lane word: decoding faults in every member (R130), then it holds until every member of its sub-groups is
there (R72), then it executes once for all, each member from the state before it (R128). -/
def crossWord (regs srcs : List Nat) (f : Workgroup → Thread → Thread) (s : State) : Answer :=
  issue { xlane := true } regs
    (fun g s => let s := joinHeld g s
      match s.groups.find? (·.id == g.id) with
      | some g => s.fillFor g (s.active g) (fun _ => true) srcs
      | none => s)
    (fun g s => s.incomplete g.id) (fun g s => s.mapGroup g.id f) s

/-! ## Shuffles and quad exchanges (R131) -/

/-- R131: what one member receives from the member of raw relative index x. -/
def Thread.shuffle (t : Thread) (w : Workgroup) (o : X3Args) (raw : Int) (countsWrap : Bool) : Thread :=
  let src := w.member? t (raw % (t.sgw : Int)).toNat
  let wrapped := decide (raw < 0) || decide (raw ≥ t.sgw)
  let v := ((src.getD t).reg o.va.toNat)
  (t.setReg o.vd.toNat v).setPred o.miss.toNat (src.isNone || (wrapped && countsWrap))

/-- The index operand: v[vb], or imm6. -/
def indexOperand (o : X3Args) (t : Thread) : Nat := if o.imm then o.vb.toNat else (t.reg o.vb.toNat).toNat

def shuffleWord (o : X3Args) (countsWrap : Bool) (raw : Nat → Nat → Int) (s : State) : Answer :=
  let vb := if o.imm then [] else [o.vb.toNat]
  crossWord ([o.vd.toNat, o.va.toNat] ++ vb) (o.va.toNat :: vb)
    (fun w t => t.shuffle w o (raw t.rel (indexOperand o t)) countsWrap) s

/-- SHFI (R131). -/
def execShfi (o : X3Args) (s : State) : Answer := shuffleWord o false (fun _ x => x) s

/-- SHFU (R131). -/
def execShfu (o : X3Args) (s : State) : Answer := shuffleWord o true (fun rel x => (rel : Int) - x) s

/-- SHFD (R131). -/
def execShfd (o : X3Args) (s : State) : Answer := shuffleWord o true (fun rel x => (rel : Int) + x) s

/-- SHFX (R131). -/
def execShfx (o : X3Args) (s : State) : Answer := shuffleWord o false (fun rel x => (rel ^^^ x : Nat)) s

/-- A quad exchange by an index of its own. -/
def quadWord (o : X2Args) (x : Nat) (s : State) : Answer :=
  shuffleWord { vd := o.vd, va := o.va, vb := 0, miss := o.miss, imm := true } true (fun rel _ => (rel ^^^ x : Nat)) s

/-- QSWX (R131). -/
def execQswx (o : X2Args) (s : State) : Answer := quadWord o 1 s

/-- QSWY (R131). -/
def execQswy (o : X2Args) (s : State) : Answer := quadWord o 2 s

/-- QSWD (R131). -/
def execQswd (o : X2Args) (s : State) : Answer := quadWord o 3 s

/-- QBC (R131): bits [1:0] of the operand. -/
def execQbc (o : X3Args) (s : State) : Answer :=
  shuffleWord o true (fun rel x => (rel / 4 * 4 + x % 4 : Nat)) s

/-! ## Votes, ballot, match (R132) -/

/-- A mask over relative indices from a test of the members. -/
def Workgroup.maskOf (w : Workgroup) (t : Thread) (f : Thread → Bool) : Word :=
  BitVec.ofNat 32 (((w.members t).map fun m => if f m.2 then 2 ^ m.1 else 0).foldl (· + ·) 0)

/-- VANY (R132). -/
def execVany (o : XVoteArgs) (s : State) : Answer :=
  crossWord [] [] (fun w t => t.setPred o.miss.toNat ((w.members t).any fun m => m.2.pred o.pa.toNat)) s

/-- VALL (R132). -/
def execVall (o : XVoteArgs) (s : State) : Answer :=
  crossWord [] [] (fun w t => t.setPred o.miss.toNat ((w.members t).all fun m => m.2.pred o.pa.toNat)) s

/-- VBAL (R132). -/
def execVbal (o : XBalArgs) (s : State) : Answer :=
  crossWord [o.vd.toNat] [] (fun w t => t.setReg o.vd.toNat (w.maskOf t fun m => m.pred o.pa.toNat)) s

/-- MATCH (R132). -/
def execMatchX (o : X2Args) (s : State) : Answer :=
  crossWord [o.vd.toNat, o.va.toNat] [o.va.toNat] (fun w t =>
    let same (m : Thread) : Bool := m.reg o.va.toNat == t.reg o.va.toNat
    (t.setReg o.vd.toNat (w.maskOf t same)).setPred o.miss.toNat ((w.members t).all fun m => same m.2)) s

/-! ## Reductions (R133, R134) -/

/-- Combining a nonempty list from its first element on. -/
def reduceList {α : Type} (f : α → α → α) (d : α) : List α → α
  | [] => d
  | x :: xs => xs.foldl f x

/-- R133: REDI's operations. -/
def rediOp (op : Nat) : Word → Word → Word :=
  match op with
  | 0 => fun a b => a + b
  | 1 => minS
  | 2 => maxS
  | 3 => minU
  | 4 => maxU
  | 5 => fun a b => a &&& b
  | 6 => fun a b => a ||| b
  | _ => fun a b => a ^^^ b

/-- Whether the sub-group has an exited member. -/
def Workgroup.someExited (w : Workgroup) (t : Thread) : Bool := decide ((w.members t).length < t.sgw)

/-- REDI (R133). -/
def execRedi (o : XRedArgs) (s : State) : Answer :=
  crossWord [o.vd.toNat, o.va.toNat] [o.va.toNat] (fun w t =>
    let vs := (w.members t).map fun m => m.2.reg o.va.toNat
    (t.setReg o.vd.toNat (reduceList (rediOp o.op.toNat) 0 vs)).setPred o.miss.toNat (w.someExited t)) s

/-- One level of the tree of R134. -/
def treeLevel : List (Option Word) → List (Option Word) × BitVec 5
  | some x :: some y :: rest =>
    let r := addF32 0 x y
    let l := treeLevel rest
    (some r.1 :: l.1, r.2 ||| l.2)
  | x :: y :: rest =>
    let l := treeLevel rest
    ((x <|> y) :: l.1, l.2)
  | [x] => ([x], 0)
  | [] => ([], 0)

/-- R134: the tree sum and the sticky bits of its additions; the first argument is the number of levels. -/
def treeSum : Nat → List (Option Word) → Word × BitVec 5
  | 0, l => ((l.headD none).getD 0, 0)
  | n + 1, l =>
    let r := treeLevel l
    let t := treeSum n r.1
    (t.1, r.2 ||| t.2)

/-- The result of REDF. -/
def redfResult (op : Nat) (vals : List (Option Word)) : FResult :=
  let vs := vals.filterMap id
  let nv := nvOf (vs.map f32)
  match op with
  | 0 => let r := treeSum 5 vals
         (r.1, r.2 ||| nv)
  | 1 => (reduceList (fun a b => (minMaxF32 false false a b).1) 0 vs, nv)
  | 2 => (reduceList (fun a b => (minMaxF32 true false a b).1) 0 vs, nv)
  | 3 => (reduceList (fun a b => (minMaxF32 false true a b).1) 0 vs, nv)
  | _ => (reduceList (fun a b => (minMaxF32 true true a b).1) 0 vs, nv)

/-- REDF (R133, R134). -/
def execRedf (o : XRedArgs) (s : State) : Answer :=
  crossWord [o.vd.toNat, o.va.toNat] [o.va.toNat] (fun w t =>
    let vals := (List.range t.sgw).map fun k => (w.member? t k).map fun m => m.reg o.va.toNat
    let r := redfResult o.op.toNat vals
    ((t.setReg o.vd.toNat r.1).setPred o.miss.toNat (w.someExited t)).orFpstat r.2) s

/-! ## Lane masks and the width (R135, R136) -/

/-- A helper, also one that has parked (R135). -/
def Thread.wasHelper (t : Thread) : Bool := match t.status with
  | .helper => true
  | .parked h => h
  | _ => false

/-- R135: LMASK's bits. -/
def lmaskOf (w : Workgroup) (t : Thread) (sel : Nat) : Word :=
  let bits (f : Nat → Bool) : Word :=
    BitVec.ofNat 32 (((List.range t.sgw).map fun k => if f k then 2 ^ k else 0).foldl (· + ·) 0)
  match sel with
  | 0 => w.maskOf t fun m => !m.wasHelper
  | 1 => w.maskOf t fun m => m.wasHelper
  | 2 => bits fun k => decide (k < t.rel)
  | 3 => bits fun k => decide (k ≤ t.rel)
  | 4 => bits fun k => decide (t.rel < k)
  | _ => bits fun k => decide (t.rel ≤ k)

/-- LMASK (R135). -/
def execLmask (o : XMaskArgs) (s : State) : Answer :=
  crossWord [o.vd.toNat] [] (fun w t => t.setReg o.vd.toNat (lmaskOf w t o.sel.toNat)) s

/-- R136: whether a group holds every thread of a warp that has not exited. -/
def Workgroup.wholeWarp (w : Workgroup) (warp id : Nat) : Bool :=
  w.threads.all fun t => t.warp != warp || t.status == .exited || t.group == some id

/-- SGSET (R136): takes effect from each thread's next clause start. -/
def execSgset (o : XSetArgs) (s : State) : Answer :=
  issue { xlane := true } [] joinHeld (fun g s => s.incomplete g.id) (fun g s =>
    let whole (w : Nat × Nat) : Bool := (s.wg? w.1).any fun x => x.wholeWarp w.2 g.id
    let here := s.homeWarps g
    let widen (w : Workgroup) (x : Warp) : Warp :=
      if here.contains (w.id, x.id) && whole (w.id, x.id) then { x with sgw := o.imm.toNat } else x
    let widenAll (w : Workgroup) : Workgroup := { w with warps := w.warps.map (widen w) }
    let s' := s.mapGroup g.id fun w t => t.setPred o.miss.toNat (!whole (w.id, t.warp))
    { s' with wgs := s'.wgs.map widenAll }) s

end Sys2Proof.Machine
end

