-- ==== Sys2Proof/Machine/Access.lean ====
section
/-!
DEFINITION. Accesses of threads to global memory: checks at issue, the order in which outstanding accesses perform,
and performing one (07_memory R155 to R157, R420; 08_consistency R170 to R188; 14_tiers R336, R338).
An access is an outstanding operation that performs whole, at an event of its own; assumption log 10.
-/

namespace Sys2Proof.Machine

/-! ## Checks at issue (R156 steps 2 to 4) -/

/-- The checks of an access of n bytes; `n = 1` checks no alignment. -/
def State.checkAccess (s : State) (core part : Nat) (va : DWord) (n : Nat) (need : Rights) :
    Except FaultDetail Leaf :=
  if va.toNat ≥ 2 ^ 57 then .error { code := codeProtection, addr := va }
  else if va.toNat % n != 0 then .error { code := codeAlign, addr := va }
  else match s.translate core part va need with
    | .error c => .error { code := c, addr := va, gen := s.faultGen core part va c }
    | .ok l => .ok l

/-- Steps 2 and 3 only: what a suppressed access of a helper still checks (R83). -/
def checkRange (va : DWord) (n : Nat) : Option FaultDetail :=
  if va.toNat ≥ 2 ^ 57 then some { code := codeProtection, addr := va }
  else if va.toNat % n != 0 then some { code := codeAlign, addr := va }
  else none

def mkAccess (va : DWord) (n : Nat) (l : Leaf) (order scope : Nat) : Access :=
  { va := va.toNat, pa := l.phys va.toNat, size := n, leaf := l, order := order, scope := scope }

/-! ## Scopes (R170) -/

/-- The agents of R170, threads and ring fills by their core. -/
inductive Agent where
  | thread (core : Nat)
  | fill (core : Nat)
  | service
  | engine
  | walker
  | otherPackage
  | host

/-- The narrowest scope that takes an agent in, around an issuer on core n. -/
def Agent.reach (n : Nat) : Agent → Nat
  | .thread c => if c = n then 0 else if c / 64 = n / 64 then 1 else 2
  | .fill c => if c = n then 0 else if c / 64 = n / 64 then 1 else 2
  | .service => 2
  | .engine => 2
  | .walker => 2
  | .otherPackage => 3
  | .host => 3

/-- R170: an agent lies within a scope of an issuer on core n. -/
def Agent.within (scope n : Nat) (a : Agent) : Bool := decide (a.reach n ≤ scope)

/-- One agent of each kind around core n. -/
def agentsAround (n : Nat) : List Agent :=
  [.thread n, .fill n, .thread (n / 64 * 64 + (n + 1) % 64), .thread ((n + 64) % 128), .service, .engine, .walker,
    .otherPackage, .host]

/-! ## Ordering within a thread (R174, R178, R184) -/

/-- Some bytes that an access touches, in the scratchpad or by virtual and physical address. -/
structure Span where
  spad : Bool
  va : Nat
  pa : Nat
  len : Nat

/-- What an outstanding operation reads and writes. -/
structure Footprint where
  spans : List Span
  r : Bool
  w : Bool
  order : Nat
  scope : Nat

def Access.span (a : Access) : Span := { spad := false, va := a.va - a.va % a.size, pa := a.pa, len := a.size }

def Access.foot (a : Access) (r w : Bool) : Footprint :=
  { spans := [a.span], r := r, w := w, order := a.order, scope := a.scope }

/-- The span of a scratchpad access. -/
def spadSpan (a n : Nat) : Span := { spad := true, va := a, pa := a, len := n }

/-- The footprint of an operation; none for one that makes no access. A decoding load reads its block's entry too
(R161, R214). -/
def OpKind.foot : OpKind → Option Footprint
  | .load _ a e => some { a.foot true false with spans := a.span :: (e.map (·.span)).toList }
  | .atom _ a _ _ h => some (a.foot true (!h))
  | .store a _ => some (a.foot false true)
  | .redm _ a _ => some (a.foot false true)
  | .sbchk _ a => some (a.foot true false)
  | .warm a => some { a.foot true false with order := 1 }
  | .cache _ a => some { a.foot false true with spans := [{ spad := false, va := a.va / 128 * 128, pa := a.pa / 128 * 128, len := 128 }] }
  | .spad f a _ h => some { spans := [spadSpan a (if f == 1 then 8 else if f == 2 then 16 else 4)], r := true,
                            w := decide (f ≥ 6) && !h, order := 0, scope := 0 }
  | _ => none

/-- The accesses of an outstanding operation that its home agents serve, a block's entry first. -/
def OpKind.accesses : OpKind → List Access
  | .load _ a e => e.toList ++ [a]
  | .atom _ a _ _ _ => [a]
  | .store a _ => [a]
  | .redm _ a _ => [a]
  | .sbchk _ a => [a]
  | .warm a => [a]
  | _ => []

/-- Two spans have bytes in common, by their virtual addresses or where they lie now (a page may have moved, R326). -/
def State.meet (s : State) (a b : Span) : Bool :=
  a.spad == b.spad && (overlaps a.va a.len b.va b.len || (!a.spad && overlaps (s.homeAddr a.pa) a.len (s.homeAddr b.pa) b.len))

def State.footsMeet (s : State) (a b : Footprint) : Bool := a.spans.any fun x => b.spans.any (s.meet x)

/-- R178: whether an outstanding store is visible to an agent already. -/
def PendingOp.visibleTo (y : PendingOp) (a : Agent) : Bool := match y.seen with
  | some (_, c) => a.within 0 c
  | none => false

/-- R175: whether an outstanding access is performed for every agent within a scope around core n. -/
def PendingOp.visibleWithin (y : PendingOp) (scope n : Nat) : Bool :=
  ((agentsAround n).filter (·.within scope n)).all y.visibleTo

/-- R172, R174: some earlier access of the threads that a release belongs to, or some store that the core's threads see
early, is not performed for every agent within the release's scope. -/
def State.owes (s : State) (core scope before : Nat) (mine : TRef → Bool) : Bool :=
  s.ops.any fun y => ((decide (y.id < before) && y.kind.foot.isSome && y.who.any mine) || y.seen.any (·.2 == core))
    && !y.visibleWithin scope core

/-- A release of a thread at this moment has to wait. -/
def State.releaseWaits (s : State) (r : TRef) (scope before : Nat) : Bool := s.owes (s.coreOf r.wg) scope before (· == r)

/-- R174: an earlier operation y of the thread that an access x waits for whatever the addresses: an acquire, a wait for a
slot (R184), a FENCE of which some part is still to act. -/
def PendingOp.blocks (y : PendingOp) (x : Footprint) : Bool := match y.kind with
  | .fence acq rel sc _ => acq || sc || (rel && x.w)
  | .awaitf .. => true
  | k => k.foot.any fun f => isAcquire f.order && f.r

/-- R157, R173, R178: an access x to bytes of an earlier one y: a load goes on when it sees the store, a store when it
follows it through L1; any other access acts beyond L1 and waits until y has performed. -/
def PendingOp.passes (y : PendingOp) (kind : OpKind) : Bool := y.seen.isSome && match kind with
  | .load .. => true
  | .store .. => true
  | .sbchk .. => true
  | .warm .. => true
  | _ => false

/-- R157, R173, R174, R188: whether an access of some threads and one word, numbered id, waits for an earlier one. -/
def State.mustWait (s : State) (who : List TRef) (word id : Nat) (kind : OpKind) (x : Footprint) : Bool :=
  let core := s.coreOf ((who.map (·.wg)).headD 0)
  (s.ops.any fun y =>
    (decide (y.id < id) && who.any y.who.contains && y.blocks x)
      || (y.kind.foot.any fun f => s.footsMeet f x && !y.passes kind
        && ((decide (y.id < id) && (who.any y.who.contains || (y.word == word && f.w && x.w)))
          || (y.id != id && x.w && y.seen.any (·.2 == core)))))
    || (isRelease x.order && s.owes core x.scope id who.contains)

/-- R173: a store that its core's threads see follows the stores to its bytes that they saw before. -/
def State.followsSeen (s : State) (o : PendingOp) : Bool := match o.seen, o.kind.foot with
  | some (k, c), some x => s.ops.any fun y => match y.seen with
    | some (j, d) => d == c && decide (j < k) && y.kind.foot.any fun f => s.footsMeet f x
    | none => false
  | _, _ => false

/-! ## Fences and cache actions (R172, R179, R192) -/

/-- R172: the cache actions of an order and scope on a core. -/
def State.orderActions (s : State) (core order scope : Nat) : State :=
  if scope = 0 then s
  else
    let s := if isRelease order then s.l1WriteBackAll core else s
    if isAcquire order then s.l1Discard core else s

/-- R172, R174, R179: the parts of a FENCE whose earlier accesses have performed act: acquire after the reads, release after
every access, sc with its release part, which settles its place among all sc fences and discards once more, so that every
later load follows that place. -/
def State.fenceStep (s : State) (f : PendingOp) : State := match f.kind, f.who with
  | .fence acq rel sc scope, r :: _ =>
    let core := s.coreOf r.wg
    let reads := s.ops.any fun y => decide (y.id < f.id) && y.who == f.who && y.kind.foot.any (·.r)
    let owes := s.releaseWaits r scope f.id
    let s1 := if acq && !reads then s.orderActions core 1 scope else s
    let s2 := if rel && !owes then s1.orderActions core (if sc then 3 else 2) scope else s1
    let left : OpKind := .fence (acq && reads) (rel && owes) (sc && owes) scope
    { s2 with ops := if (acq && reads) || (rel && owes) then updateWhere (fun o => o.id == f.id) (fun o => { o with kind := left }) s2.ops
                     else s2.ops.filter fun o => o.id != f.id }
  | _, _ => s

/-- Every FENCE goes as far as it can. -/
def State.retireFences (s : State) : State :=
  (s.ops.filter fun f => match f.kind with
    | .fence .. => true
    | _ => false).foldl State.fenceStep s

/-! ## Performing an access -/

/-- What performing gives: the new state and the bytes read, or a fault with the state that the attempt leaves, or nothing
yet. -/
inductive Performed where
  | done (s : State) (bytes : List Byte) (beyondL1 : Bool)
  | waits (s : State)
  | fault (s : State) (d : FaultDetail)

def Access.detail (a : Access) (c : BitVec 8) : FaultDetail :=
  { code := c, addr := BitVec.ofNat 64 a.va, gen := a.leaf.gen }

/-- R185: a rejected access; when it is made again, it translates afresh. -/
def State.reject (s : State) (core part : Nat) (a : Access) (c : BitVec 8) : Performed :=
  .fault (s.tlbDrop core part a.va) (a.detail c)

/-- The data of an access that the home agent serves, through L1, else L2 (R146, R152, R156 step 7). -/
def State.readData (s : State) (core : Nat) (a : Access) : Performed :=
  let pa := s.homeAddr a.pa
  let s := s.l1Renew core (pa / 128) a.leaf.gen
  if (List.range a.size).all fun i => (s.l1Byte? core (pa + i)).isSome then
    .done (s.orderActions core (if isAcquire a.order then 1 else 0) a.scope) (s.coreBytes core pa a.size) false
  else
    let s := s.l2Fill (pa / 128) a.leaf.fold a.leaf.open_
    match s.poisonAt pa a.size with
    | some p => .fault s (a.detail p.code)
    | none =>
      let s := s.l1Fill core (pa / 128) a.leaf
      let bytes := s.coreBytes core pa a.size
      .done (s.orderActions core (if isAcquire a.order then 1 else 0) a.scope) bytes true

/-- A read of an access by a core (R156 steps 6 and 7). -/
def State.performRead (s : State) (core part : Nat) (a : Access) : Performed :=
  match s.homeCheck part a.pa a.leaf false with
  | .waits => .waits (s.requestPool a.pa false)
  | .fault c => s.reject core part a c
  | .yes => s.readData core a

/-- Bytes land at L2 and in the L1s as the page's class says (R146), and trigger watches (R305). -/
def State.landBytes (s : State) (core pa : Nat) (bs : List Byte) (l : Leaf) : State :=
  match l.cls with
  | .priv => s.l1Write core pa bs l true
  | .readShared => (s.l1Write core pa bs l false).l2Write pa bs l.fold l.open_
  | .coherent =>
    (((s.l1Write core pa bs l false).l2Write pa bs l.fold l.open_).invalidateOthers core (pa / 128)).triggerWatches
      (pa / 128) true

/-- R178: a store to a read-shared or coherent page reaches its core's L1: the core's threads see it from now on. -/
def State.showStore (s : State) (core : Nat) (o : PendingOp) (a : Access) (bs : List Byte) : State :=
  { (s.l1Write core (s.homeAddr a.pa) bs a.leaf false).updOp o.id fun x => { x with seen := some (s.nextId, core) } with
    nextId := s.nextId + 1 }

/-- A store performs (R162, R172): a release writes the core's dirty private lines back first. -/
def State.performWrite (s : State) (core part : Nat) (a : Access) (bs : List Byte) : Performed :=
  match s.homeCheck part a.pa a.leaf true with
  | .waits => .waits (s.requestPool a.pa true)
  | .fault c => s.reject core part a c
  | .yes =>
    let s := s.orderActions core (if isRelease a.order then 2 else 0) a.scope
    .done (s.landBytes core (s.homeAddr a.pa) bs a.leaf) [] false

/-- R187: where an atomic word finds its bytes: in the core's L1 as a load does, at scope .wg on a private page, else in L2,
to which the core has written its private copy back. -/
def State.atomData (s : State) (core : Nat) (a : Access) : Performed :=
  if a.scope == 0 && a.leaf.cls == .priv then s.readData core { a with order := 0 }
  else
    let pa := s.homeAddr a.pa
    let s := if a.leaf.cls == .priv then (s.l1WriteBack core (pa / 128)).l1Drop core (pa / 128) else s
    let s := s.l2Fill (pa / 128) a.leaf.fold a.leaf.open_
    match s.poisonAt pa a.size with
    | some p => .fault s (a.detail p.code)
    | none => .done s (s.l2Bytes pa a.size) true

/-- R189: an ACAS that would write nothing now performs only its read, and of its order only the acquire part applies. -/
def State.onlyReads (s : State) (o : PendingOp) : Bool := match o.kind with
  | .atom func a _ c _ => match s.atomData (s.coreOf ((o.who.map (·.wg)).headD 0)) a with
    | .done _ old _ =>
      let now := BitVec.ofNat 64 (ofLe old)
      (func == 9 && lo32 now != lo32 c) || (func == 14 && now != c)
    | _ => false
  | _ => false

/-- R291: a load or atomic word needs a sector from a bank that is being refreshed. -/
def State.bankHolds (s : State) (o : PendingOp) : Bool := match o.kind with
  | .store .. => false
  | k => k.accesses.any fun a =>
    let pa := s.homeAddr a.pa
    s.bankRefreshes pa && (s.l2Sector? (pa / 128)).isNone
      && !(List.range a.size).all fun i => (s.l1Byte? (s.coreOf ((o.who.map (·.wg)).headD 0)) (pa + i)).isSome

/-- R157, R173, R174, R188: whether an outstanding access waits for an earlier one, or for its bank (R291). -/
def State.opWaits (s : State) (o : PendingOp) : Bool :=
  s.bankHolds o || match o.kind.foot with
    | some f =>
      let f := if isRelease f.order && s.onlyReads o then { f with order := f.order - 2 } else f
      s.mustWait o.who o.word o.id o.kind f
    | none => false

/-- R187, R189: an atomic word reads and writes indivisibly; `f` gives the new bytes, or none where nothing is written, and
then no release takes place. -/
def State.performAtomic (s : State) (core part : Nat) (a : Access) (f : List Byte → Option (List Byte)) : Performed :=
  match s.homeCheck part a.pa a.leaf true with
  | .waits => .waits (s.requestPool a.pa true)
  | .fault c => s.reject core part a c
  | .yes =>
    let acq := if isAcquire a.order then 1 else 0
    match s.atomData core a with
    | .done s old _ => match f old with
      | none => .done (s.orderActions core acq a.scope) old true
      | some new =>
        let pa := s.homeAddr a.pa
        let s := s.orderActions core (if isRelease a.order then 2 else 0) a.scope
        let s := if a.leaf.cls == .priv && a.scope != 0 then s.l2Write pa new a.leaf.fold a.leaf.open_
          else s.landBytes core pa new a.leaf
        .done (s.orderActions core acq a.scope) old true
    | r => r

/-! ## Faults of outstanding operations -/

/-- A fault found after issue: the operation is cancelled, its flag falls, the thread parks at the word. -/
def State.failOp (s : State) (o : PendingOp) (d : FaultDetail) : State :=
  o.who.foldl (fun s r => s.updThread r fun t => t.raiseLate d o.site o.id (o.of o.widths r t.sgw)) (s.dropOp o)

/-- R156, R420: an imprecise record of kind 5 for a store or REDM of a thread. -/
def State.impreciseRecord (s : State) (o : PendingOp) (d : FaultDetail) : State :=
  match o.who with
  | r :: _ => match s.wg? r.wg with
    | some w => s.reportRecord (s.mkRecord w 5 r.warp r.lane d o.site.pc 0 0 false o.who)
    | none => s
  | [] => s

/-- R168: the load latency histogram of a core. -/
def lathistBin (d : Nat) : Nat :=
  if d < 1024 then 0 else if d < 1280 then 1 else if d < 1536 then 2 else if d < 2048 then 3
  else if d < 3072 then 4 else if d < 4096 then 5 else if d < 8192 then 6 else 7

def State.countLatency (s : State) (core issued : Nat) : State :=
  let b := lathistBin (s.time - issued)
  s.updCore core fun c =>
    let n := c.lathist.toList.getD b 0
    { c with lathist := c.lathist.setIfInBounds b (if n == BitVec.allOnes 64 then n else n + 1) }

/-- R168, R415: a thread's load word counts once when it completes, if an access of it was served from beyond L1. -/
def State.settleLoad (s : State) (core : Nat) (o : PendingOp) (beyond : Bool) : State :=
  if beyond then s.countLatency core o.issued else s

/-! ## Issue of memory words -/

/-- One acting member of a memory word: its checks, then its operation; a fault parks it. -/
def State.issueAccess (s : State) (g : Group) (r : TRef) (fs : Option Bool) (word : Nat) (va : DWord) (n : Nat)
    (need : Rights) (order scope : Nat) (mk : Access → OpKind) (dst ndst : Nat) : State :=
  let core := s.coreOf r.wg
  match s.checkAccess core (s.partOf r.wg) va n need with
  | .error d => s.raise r d (g.site g.pc)
  | .ok l => (s.tlbInsert core (s.partOf r.wg) l).addOp g r fs word (mk (mkAccess va n l order scope)) dst ndst

/-- The acting members of a group, one after another in ascending lane order. -/
def State.eachActing (s : State) (g : Group) (acts : Thread → Bool) (f : Nat → TRef → Thread → State → State) : State :=
  let word := s.nextId
  (s.active g).foldl (fun s r =>
    match s.thread? r with
    | some t => if acts t then f word r t s else s
    | none => s) s

end Sys2Proof.Machine
end

