-- ==== Sys2Proof/Machine/Blocks.lean ====
section
/-!
DEFINITION. Selector-block formats: layout, element values, metadata entries, decoding and quantising
(09_block_formats R194 to R210). All values are exact; quantising works in units of 2^-149.
-/

namespace Sys2Proof.Machine

/-! ## Formats (R194) -/

def blockLen (fmt : Nat) : Nat := if fmt % 2 = 1 then 32 else 16
def blockWidth (fmt : Nat) : Nat := if fmt ≤ 2 then 8 else if fmt ≤ 4 then 4 else 2
def blockBytes (fmt : Nat) : Nat := blockLen fmt * blockWidth fmt / 8

/-! ## Metadata entries (R196 to R198) -/

/-- R197: contributions of the bits of m to the check. -/
def checkTable : List Nat := [3, 6, 7, 5, 1, 2, 4, 3, 6, 7]

def checkOf (sel scale : Nat) : Nat :=
  let m := sel * 256 + scale
  (checkTable.mapIdx fun i c => if m / 2 ^ i % 2 = 1 then c else 0).foldl (· ^^^ ·) 0

def entryOf (sel scale : Nat) : BitVec 16 := BitVec.ofNat 16 (checkOf sel scale * 1024 + sel * 256 + scale)

def entrySel (e : BitVec 16) : Nat := field e 9 8
def entryScale (e : BitVec 16) : Nat := field e 7 0

/-- R198. -/
def entryValid (e : BitVec 16) : Bool := field e 15 13 == 0 && field e 12 10 == checkOf (entrySel e) (entryScale e)

/-! ## Element values (R199 to R201) -/

/-- A signed integer of w bits. -/
def signedCode (w c : Nat) : Int := if c ≥ 2 ^ (w - 1) then (c : Int) - 2 ^ w else c

/-- Sign, exponent field and fraction field of a small float: f fraction bits, bias, and the exponent of the unit of
subnormals. -/
def smallFloat (neg : Bool) (e f fbits : Nat) (bias : Int) : FVal :=
  if e = 0 then .fin neg f (1 - bias - fbits) else .fin neg (f + 2 ^ fbits) ((e : Int) - bias - fbits)

def nl4Values : List Int := [-32, -24, -18, -13, -9, -6, -3, 0, 2, 5, 8, 12, 16, 21, 26, 32]

def sb8Value (sel c : Nat) : FVal :=
  let neg := decide (c ≥ 128)
  match sel with
  | 0 => intVal (signedCode 8 c)
  | 1 => if c % 128 = 127 then .nan false else smallFloat neg (c / 8 % 16) (c % 8) 3 7
  | 2 =>
    if c / 4 % 32 = 31 then (if c % 4 = 0 then .inf neg else .nan false)
    else smallFloat neg (c / 4 % 32) (c % 4) 2 15
  | _ => if c / 16 % 8 = 7 then .nan false else smallFloat neg (c / 16 % 8) (c % 16) 4 3

def sb4Value (sel c : Nat) : FVal :=
  let neg := decide (c ≥ 8)
  match sel with
  | 0 => intVal (signedCode 4 c)
  | 1 => smallFloat neg (c / 2 % 4) (c % 2) 1 1
  | 2 => let x := nl4Values.getD c 0
         .fin (decide (x < 0)) x.natAbs (-5)
  | _ => if c % 8 = 0 then .fin neg 0 0 else .fin neg 1 ((c % 8 : Nat) - 4)

def sb2Value (sel c : Nat) : FVal :=
  match sel with
  | 0 => intVal (signedCode 2 c)
  | 1 => intVal (match c with
    | 1 => 1
    | 2 => -1
    | _ => 0)
  | _ => let x : Int := 2 * (c : Int) - 3
         .fin (decide (x < 0)) x.natAbs (-1)

/-- The value of one code of a width under a selector (YLX apart). -/
def codeValue (width sel c : Nat) : FVal :=
  if width = 8 then sb8Value sel c else if width = 4 then sb4Value sel c else sb2Value sel c

/-! ## YLX (R202) -/

/-- The vectors of n odd integers 1, 3, 5 whose squares sum to k, in lexicographic order. -/
def shell : Nat → Nat → List (List Nat)
  | 0, k => if k = 0 then [[]] else []
  | n + 1, k => [1, 3, 5].flatMap fun m =>
      if m * m + n ≤ k then (shell n (k - m * m)).map (m :: ·) else []

/-- The codebook: the first 512 vectors by sum of squares, then lexicographically; doubled magnitudes. -/
def ylxBook : List (List Nat) := ([8, 16, 24, 32, 40, 48, 56].flatMap (shell 8)).take 512

/-- The eight doubled signed elements of an index. -/
def ylxVector (index : Nat) : List Int :=
  let signs := (List.range 7).map fun k => index / 2 ^ (9 + k) % 2
  let last := signs.foldl (· + ·) 0 % 2
  List.zipWith (fun (m g : Nat) => if g = 1 then -(m : Int) else m) (ylxBook.getD (index % 512) []) (signs ++ [last])

/-! ## Decoding (R195, R203) -/

/-- The code of element i in a block's bytes. -/
def elemCode (width : Nat) (bytes : List Byte) (i : Nat) : Nat :=
  let b := (bytes.getD (i * width / 8) 0).toNat
  b / 2 ^ (i * width % 8) % 2 ^ width

/-- Value times 2^k. -/
def FVal.scale (v : FVal) (k : Int) : FVal := match v with
  | .fin n m e => .fin n m (e + k)
  | x => x

/-- R203: the exact value of element i of a block. -/
def decodeElem (fmt : Nat) (bytes : List Byte) (e : BitVec 16) (i : Nat) : FVal :=
  let w := blockWidth fmt
  if entryScale e = 255 then .nan false
  else
    let v := if w = 2 ∧ entrySel e = 3 then
        let index := (bytes.getD (i / 8 * 2) 0).toNat + 256 * (bytes.getD (i / 8 * 2 + 1) 0).toNat
        let x := (ylxVector index).getD (i % 8) 0
        .fin (decide (x < 0)) x.natAbs (-1)
      else codeValue w (entrySel e) (elemCode w bytes i)
    v.scale ((entryScale e : Int) - 127)

/-! ## Quantising (R205 to R210) -/

/-- A finite FP32 value in units of 2^-149. -/
def unitsOf : FVal → Int
  | .fin neg m e => units neg m e (-149)
  | _ => 0

/-- Vmax of a selector, as m × 2^e (R199 to R202). -/
def vmaxOf (width sel : Nat) : Nat × Int :=
  if width = 8 then match sel with
    | 0 => (127, 0)
    | 1 => (7, 6)
    | 2 => (7, 13)
    | _ => (31, -1)
  else if width = 4 then match sel with
    | 0 => (7, 0)
    | 1 => (6, 0)
    | 2 => (1, 0)
    | _ => (8, 0)
  else match sel with
    | 0 => (1, 0)
    | 1 => (1, 0)
    | 2 => (3, -1)
    | _ => (5, -1)

/-- R205: the smallest X with amax ≤ Vmax × 2^X, before the clamp; amax in units of 2^-149, not 0. -/
def exponentFor (width sel : Nat) (amax : Nat) : Int :=
  let v := vmaxOf width sel
  let x0 := log2Floor amax (-149) - log2Floor v.1 v.2
  let fits (x : Int) : Bool :=
    let q := min (-149) (v.2 + x)
    decide ((amax : Int) * 2 ^ (-149 - q).toNat ≤ (v.1 : Int) * 2 ^ (v.2 + x - q).toNat)
  if fits x0 then x0 else x0 + 1

def clampX (x : Int) : Int := max (-127) (min 127 x)

/-- R206: the codes of a selector that decode to finite values, with their values at exponent X in units. -/
def finiteCodes (width sel : Nat) (x : Int) : List (Nat × Int) :=
  (List.range (2 ^ width)).filterMap fun c => match (codeValue width sel c).scale x with
    | .fin n m e => some (c, units n m e (-149))
    | _ => none

/-- R206: nearest, then smaller magnitude, then lowest code. -/
def nearestCode (codes : List (Nat × Int)) (t : Int) : Nat × Int :=
  codes.foldl (fun best c =>
    let d := (t - c.2).natAbs
    let db := (t - best.2).natAbs
    if d < db ∨ (d = db ∧ c.2.natAbs < best.2.natAbs) then c else best) (codes.headD (0, 0))

/-- The squared error of an index against eight targets in units, at exponent X. -/
def ylxError (ts : List Int) (x : Int) (index : Nat) : Nat :=
  (List.zipWith (fun t d => (t - d * 2 ^ (x + 148).toNat).natAbs ^ 2) ts (ylxVector index)).foldl (· + ·) 0

/-- R207: the lowest index of least error. -/
def ylxIndex (ts : List Int) (x : Int) : Nat :=
  ((List.range 65536).foldl (fun best i =>
    let e := ylxError ts x i
    if e < best.2 then (i, e) else best) (0, ylxError ts x 0)).1

/-- The runs of eight of a list. -/
def runs8 : Nat → List Int → List (List Int)
  | 0, _ => []
  | n + 1, l => l.take 8 :: runs8 n (l.drop 8)

/-- Packs codes of a width into bytes, the first in the low bits (R195). -/
def packCodes (width : Nat) (codes : List Nat) (bytes : Nat) : List Byte :=
  leBytes bytes ((codes.mapIdx fun i c => c * 2 ^ (i * width)).foldl (· + ·) 0)

/-- One candidate: its exponent before the clamp, its bytes and its error in units squared. -/
structure Candidate where
  sel : Nat
  x : Int
  bytes : List Byte
  error : Nat

/-- R205 to R208: the candidate of a selector for a block that is not special. -/
def candidate (fmt sel : Nat) (vals : List Int) : Candidate :=
  let w := blockWidth fmt
  let amax := vals.foldl (fun a v => max a v.natAbs) 0
  let raw := exponentFor w sel amax
  let x := clampX raw
  if w = 2 ∧ sel = 3 then
    let rs := runs8 (blockLen fmt / 8) vals
    let ix := rs.map fun r => ylxIndex r x
    { sel := sel, x := raw, bytes := ix.flatMap (leBytes 2),
      error := (List.zipWith (fun r i => ylxError r x i) rs ix).foldl (· + ·) 0 }
  else
    let codes := finiteCodes w sel x
    let chosen := vals.map (nearestCode codes)
    { sel := sel, x := raw, bytes := packCodes w (chosen.map (·.1)) (blockBytes fmt),
      error := (List.zipWith (fun v c => (v - c.2).natAbs ^ 2) vals chosen).foldl (· + ·) 0 }

/-- What quantising gives: bytes, entry, and the sticky bits. -/
structure Quantised where
  bytes : List Byte
  entry : BitVec 16
  uf : Bool
  nv : Bool

/-- R205, R209: whether a block is special, and how: 0 no, 1 amax = 0, 2 an infinity or NaN. -/
def specialBlock (xs : List FVal) : Nat :=
  if xs.any (fun v => match v with
    | .fin .. => false
    | _ => true) then 2
  else if xs.all (fun v => unitsOf v == 0) then 1 else 0

/-- Quantise (R205 to R210); an allow mask of 0 admits all four selectors. -/
def quantise (fmt allow : Nat) (xs : List Word) : Quantised :=
  let vals := xs.map f32
  let nv := vals.any (·.isSignalling)
  match specialBlock vals with
  | 1 => { bytes := List.replicate (blockBytes fmt) 0, entry := 0x007F, uf := false, nv := nv }
  | 2 => { bytes := List.replicate (blockBytes fmt) 0, entry := 0x0CFF, uf := false, nv := nv }
  | _ =>
    let us := vals.map unitsOf
    let sels := (List.range 4).filter fun k => allow = 0 ∨ allow / 2 ^ k % 2 = 1
    match sels.map fun k => candidate fmt k us with
    | [] => { bytes := [], entry := 0, uf := false, nv := nv }
    | c :: cs =>
      let best := cs.foldl (fun b c => if c.error < b.error then c else b) c
      { bytes := best.bytes, entry := entryOf best.sel (clampX best.x + 127).toNat,
        uf := decide (best.x < -127), nv := nv }

/-- R210: the sticky bits of quantising. -/
def Quantised.flags (q : Quantised) : BitVec 5 := (if q.uf then fpUF else 0) ||| (if q.nv then fpNV else 0)

/-- R212: the report. -/
def Quantised.report (q : Quantised) : Word := (0 : BitVec 15) ++ BitVec.ofBool q.uf ++ q.entry

/-- R216: the error of one candidate, and the sticky bits. -/
def quantError (fmt sel : Nat) (xs : List Word) : FResult :=
  let vals := xs.map f32
  let nv := nvOf vals
  match specialBlock vals with
  | 1 => (0, nv)
  | 2 => (nan32, nv)
  | _ =>
    (BitVec.ofNat 32 (fp32.round 0 (.fin false (candidate fmt sel (vals.map unitsOf)).error (-298))).1, nv)

/-! ## Entry addresses (R150) -/

/-- The address of the metadata entry of the block that holds va. -/
def entryAddress (l : Leaf) (va : Nat) : DWord :=
  l.metaBase + BitVec.ofNat 64 ((va - l.vbase) / blockBytes l.format * 2)

def isFormatPage (l : Leaf) : Bool := decide (1 ≤ l.format) && decide (l.format ≤ 6)

/-- R389: a meta_base outside the address space makes each metadata access fault, wherever the entry itself would lie. -/
def metaFault (l : Leaf) (va : Nat) : Option FaultDetail :=
  if l.metaBase.toNat ≥ 2 ^ 57 then some { code := codeProtection, addr := entryAddress l va } else none

/-- Translating a metadata entry's address: as a load, or a store; it must lie on a plain page (R150, R389). -/
def State.entryLeaf (s : State) (core part : Nat) (l : Leaf) (va : Nat) (need : Rights) : Except FaultDetail Leaf :=
  let a := entryAddress l va
  match metaFault l va, s.checkAccess core part a 2 need with
  | some d, _ => .error d
  | none, .error d => .error d
  | none, .ok m => if m.format != 0 then .error { code := codeFormatMismatch, addr := a, gen := m.gen } else .ok m

end Sys2Proof.Machine
end

