-- ==== Sys2Proof/Machine/EngineAccess.lean ====
section
/-!
DEFINITION. Reads and writes of engines and service cores: translated like a thread's, served at L2 and the tiers, never
through an L1 (01_machine R24; 08_consistency R182; 07_memory R145, R146, R152; 14_tiers R336, R338).
-/

namespace Sys2Proof.Machine

/-- The number under which service cores translate: no Viphor core has it (R24). -/
def serviceCore : Nat := 128

/-! ## Pieces -/

/-- A range cut at 128 B boundaries: starts and lengths. -/
def piecesFrom : Nat → Nat → Nat → List (Nat × Nat)
  | 0, _, _ => []
  | fuel + 1, a, n =>
    if n = 0 then []
    else
      let k := min n (128 - a % 128)
      (a, k) :: piecesFrom fuel (a + k) (n - k)

def pieces (a n : Nat) : List (Nat × Nat) := piecesFrom (n / 128 + 2) a n

/-! ## Checks -/

/-- Translation of an engine's access; `fmt` is the test of the page's format. -/
def State.engineLeaf (s : State) (core part : Nat) (va : DWord) (need : Rights) (fmt : Nat → Bool) :
    Except FaultDetail Leaf :=
  match s.translate core part va need with
  | .error c => .error { code := c, addr := va, gen := s.faultGen core part va c }
  | .ok l => if fmt l.format then .ok l else .error { code := codeFormatMismatch, addr := va, gen := l.gen }

/-- What an engine finds before it touches a range. -/
inductive Probe where
  | ok
  | waits (pa : Nat)
  | fault (d : FaultDetail)

/-- Translation and home agent for every piece of a range, in ascending order; `who` is the agent that R338 holds. -/
def State.probe (s : State) (who : List Nat) (core part : Nat) (need : Rights) (fmt : Nat → Bool) : List (Nat × Nat) → Probe
  | [] => .ok
  | p :: ps =>
    let va := BitVec.ofNat 64 p.1
    match s.engineLeaf core part va need fmt with
    | .error d => .fault d
    | .ok l =>
      let pa := l.phys va.toNat
      match s.engineCheck who part pa l need.w with
      | .waits => .waits pa
      | .fault c => .fault { code := c, addr := va, gen := l.gen }
      | .yes => s.probe who core part need fmt ps

/-! ## Reading and writing -/

/-- One piece is read: through L2, with the code's check. -/
def State.engineReadPiece (s : State) (who : List Nat) (core part : Nat) (fmt : Nat → Bool) (p : Nat × Nat) : Performed :=
  let va := BitVec.ofNat 64 p.1
  match s.engineLeaf core part va { r := true } fmt with
  | .error d => .fault s d
  | .ok l =>
    let pa := l.phys va.toNat
    match s.engineCheck who part pa l false with
    | .waits => .waits (s.holdPool who pa false)
    | .fault c => .fault (s.tlbDrop core part va.toNat) { code := c, addr := va, gen := l.gen }
    | .yes =>
      let pa := s.homeAddr pa
      let s := (s.tlbInsert core part l).l2Fill (pa / 128) l.fold l.open_
      match s.poisonAt pa p.2 with
      | some x => .fault s { code := x.code, addr := va, gen := l.gen }
      | none => .done s (s.l2Bytes pa p.2) true

/-- A range is read, in ascending order. -/
def State.engineReadFrom (s : State) (who : List Nat) (core part : Nat) (fmt : Nat → Bool) : List (Nat × Nat) → List Byte → Performed
  | [], acc => .done s acc true
  | p :: ps, acc => match s.engineReadPiece who core part fmt p with
    | .done s bs _ => s.engineReadFrom who core part fmt ps (acc ++ bs)
    | other => other

def State.engineRead (s : State) (who : List Nat) (core part va n : Nat) (fmt : Nat → Bool) : Performed :=
  s.engineReadFrom who core part fmt (pieces va n) []

/-- One piece is written: at L2; on a coherent page the directory invalidates every core's copy and watches trigger. -/
def State.engineWritePiece (s : State) (core part : Nat) (va : DWord) (bs : List Byte) : State :=
  match s.findLeaf core part va.toNat with
  | .error _ => s
  | .ok l =>
    let pa := s.homeAddr (l.phys va.toNat)
    let s := (s.tlbInsert core part l).l2Write pa bs l.fold l.open_
    if l.cls == .coherent then (s.invalidateOthers s.cores.length (pa / 128)).triggerWatches (pa / 128) true else s

/-- A range that has been probed is written. -/
def State.engineWrite (s : State) (core part : Nat) (va : Nat) (bs : List Byte) : State :=
  (pieces va bs.length).foldl (fun s p =>
    s.engineWritePiece core part (BitVec.ofNat 64 p.1) ((bs.drop (p.1 - va)).take p.2)) s

end Sys2Proof.Machine
end

