-- ==== Sys2Proof/Machine/LoadStore.lean ====
section
/-!
DEFINITION. Loads, stores, scratchpad words, atomics, FENCE and cache control, majors 0x20 to 0x25, and the events
that complete them (07_memory R158 to R168, R420; 08_consistency R186 to R192).
-/

namespace Sys2Proof.Machine

/-! ## Loads (R160, R161) -/

/-- The rule of a format M word with a memory prefix of the given orders. -/
def memRule (orders : List Nat) (v4 : V4Use) : WordRule := { ext := true, prefixKind := .mem, orders := orders, v4 := v4 }

/-- Registers `n` to `n + k − 1`. -/
def regBlock (n k : Nat) : List Nat := (List.range k).map (n + ·)

/-- Bytes and destination registers of a load func. -/
def loadShape (func : Nat) : Nat × Nat :=
  match func with
  | 0 => (1, 1)
  | 1 => (1, 1)
  | 2 => (2, 1)
  | 3 => (2, 1)
  | 4 => (4, 1)
  | 5 => (8, 2)
  | 6 => (16, 4)
  | 7 => (4, 4)
  | _ => (4, 2)

/-- A word of bytes at an offset of a list. -/
def wordAt (bs : List Byte) (i : Nat) : Word := BitVec.ofNat 32 (ofLe ((bs.drop (4 * i)).take 4))

/-- R160: the destination registers from the bytes read. -/
def loadResult (func : Nat) (bs : List Byte) : List Word :=
  let x := ofLe bs
  match func with
  | 0 => [BitVec.ofNat 32 x]
  | 1 => [sext 32 (BitVec.ofNat 8 x)]
  | 2 => [BitVec.ofNat 32 x]
  | 3 => [sext 32 (BitVec.ofNat 16 x)]
  | 4 => [wordAt bs 0]
  | 5 => [wordAt bs 0, wordAt bs 1]
  | _ => [wordAt bs 0, wordAt bs 1, wordAt bs 2, wordAt bs 3]

/-- A plain load: checks and issue for each acting member (R156 steps 2 to 4). -/
def loadWord (func : Nat) (o : MArgs) (s : State) : Answer :=
  let acts (t : Thread) : Bool := t.guard o.guard false
  let sh := loadShape func
  let rule := memRule [0, 1] .none
  issue rule (regBlock o.vd.toNat sh.2 ++ addressRegs o.mode o.vo) (fillSources rule acts (addressRegs o.mode o.vo))
    (flagFull o.fs acts)
    (fun g s => s.eachActing g acts fun word r t s =>
      s.issueAccess g r (some o.fs) word (s.address g r t o.mode o.wb o.vo) sh.1 { r := true } g.order g.scope
        (.load func · none) o.vd.toNat sh.2) s

/-- R161: bytes that four elements occupy, and the bytes a decoding load reads: a YLX index is read whole. -/
def decodeSpan (fmt : Nat) : Nat := blockWidth fmt / 2

/-- R161, R156 step 5: the checks of a decoding load after translation; the leaves of the data and of the entry. -/
def State.checkDecode (s : State) (core part : Nat) (va : DWord) : Except FaultDetail (Leaf × Leaf) :=
  match s.checkAccess core part va 1 { r := true } with
  | .error d => .error d
  | .ok l =>
    if !isFormatPage l then .error { code := codeFormatMismatch, addr := va, gen := l.gen }
    else if va.toNat % decodeSpan l.format != 0 then .error { code := codeAlign, addr := va, gen := l.gen }
    else match s.entryLeaf core part l va.toNat { r := true } with
      | .error d => .error d
      | .ok m => .ok (l, m)

/-- LDF32 and LDFB16 at issue (R161). -/
def decodeLoadWord (func : Nat) (o : MArgs) (s : State) : Answer :=
  let acts (t : Thread) : Bool := t.guard o.guard false
  let sh := loadShape func
  let rule := memRule [0, 1] .none
  issue rule (regBlock o.vd.toNat sh.2 ++ addressRegs o.mode o.vo) (fillSources rule acts (addressRegs o.mode o.vo))
    (flagFull o.fs acts)
    (fun g s => s.eachActing g acts fun word r t s =>
      let va := s.address g r t o.mode o.wb o.vo
      match s.checkDecode (s.coreOf r.wg) (s.partOf r.wg) va with
      | .error d => s.raise r d (g.site g.pc)
      | .ok (l, m) =>
        let n := max 2 (decodeSpan l.format)
        let acc := mkAccess (va - BitVec.ofNat 64 (va.toNat % n)) n l g.order g.scope
        let acc := { acc with va := va.toNat }
        let entry := mkAccess (entryAddress l va.toNat) 2 m 0 g.scope
        let core := s.coreOf r.wg
        let part := s.partOf r.wg
        ((s.tlbInsert core part l).tlbInsert core part m).addOp g r (some o.fs) word (.load func acc (some entry))
          o.vd.toNat sh.2) s

/-- LD8Z (R160). -/
def execLd8z (o : MArgs) (s : State) : Answer := loadWord 0 o s

/-- LD8S (R160). -/
def execLd8s (o : MArgs) (s : State) : Answer := loadWord 1 o s

/-- LD16Z (R160). -/
def execLd16z (o : MArgs) (s : State) : Answer := loadWord 2 o s

/-- LD16S (R160). -/
def execLd16s (o : MArgs) (s : State) : Answer := loadWord 3 o s

/-- LD32 (R160). -/
def execLd32 (o : MArgs) (s : State) : Answer := loadWord 4 o s

/-- LD64 (R160). -/
def execLd64 (o : MArgs) (s : State) : Answer := loadWord 5 o s

/-- LD128 (R160). -/
def execLd128 (o : MArgs) (s : State) : Answer := loadWord 6 o s

/-- LDF32 (R161). -/
def execLdf32 (o : MArgs) (s : State) : Answer := decodeLoadWord 7 o s

/-- LDFB16 (R161). -/
def execLdfb16 (o : MArgs) (s : State) : Answer := decodeLoadWord 8 o s

/-- What an outstanding operation reports when it performs. -/
inductive Landed where
  | done (s : State) (vals : List Word) (fp : BitVec 5)
  | waits (s : State)
  /-- with the state that the attempt leaves -/
  | fault (s : State) (d : FaultDetail)

/-- The core and partition of an operation's thread. -/
def State.opCore (s : State) (o : PendingOp) : Nat := s.coreOf ((o.who.map (·.wg)).headD 0)
def State.opPart (s : State) (o : PendingOp) : Nat := s.partOf ((o.who.map (·.wg)).headD 0)

/-- Four elements from byte address va on, decoded exactly (R161, R203). -/
def decodeFour (l : Leaf) (va : Nat) (bytes : List Byte) (e : BitVec 16) : List FVal :=
  let w := blockWidth l.format
  let o := (va - l.vbase) % blockBytes l.format
  let first := o * 8 / w
  let start := (o - o % max 2 (decodeSpan l.format))
  let block := List.replicate start (0 : Byte) ++ bytes
  (List.range 4).map fun k => decodeElem l.format block e (first + k)

/-- R204: elements as LDF32 and LDFB16 return them. -/
def decodedWords (func : Nat) (xs : List FVal) : List Word × BitVec 5 :=
  if func = 7 then
    let rs := xs.map (fp32.round 0)
    (rs.map fun r => BitVec.ofNat 32 r.1, rs.foldl (fun a r => a ||| r.2) 0)
  else
    let rs := xs.map (bf16.round 0)
    let at_ (k : Nat) : Nat := (rs.map (·.1)).getD k 0
    ([BitVec.ofNat 32 (at_ 0 + 65536 * at_ 1), BitVec.ofNat 32 (at_ 2 + 65536 * at_ 3)],
      rs.foldl (fun a r => a ||| r.2) 0)

/-- A performed access as an operation reports it. -/
def Performed.landed (p : Performed) (vals : List Byte → List Word) : Landed := match p with
  | .done s bs _ => .done s (vals bs) 0
  | .waits s => .waits s
  | .fault s d => .fault s d

/-- LDF32 and LDFB16 perform: the home agents serve entry and data (R156 step 6), then the entry is read before the data
(step 7, R198), and an invalid one faults. -/
def State.landDecode (s : State) (core part func : Nat) (o : PendingOp) (a e : Access) : Landed :=
  let served (x : Access) : Served := s.homeCheck part x.pa x.leaf false
  match served e, served a with
  | .waits, _ => .waits (s.requestPool e.pa false)
  | .fault c, _ => (s.reject core part e c).landed fun _ => []
  | .yes, .waits => .waits (s.requestPool a.pa false)
  | .yes, .fault c => (s.reject core part a c).landed fun _ => []
  | .yes, .yes => match s.readData core e with
    | .done s es b1 => match s.readData core a with
      | .done s bs b2 =>
        let x := BitVec.ofNat 16 (ofLe es)
        if !entryValid x then .fault s (e.detail codeSelCheck)
        else
          let r := decodedWords func (decodeFour a.leaf a.va bs x)
          .done (s.settleLoad core o (b1 || b2)) r.1 r.2
      | r => r.landed fun _ => []
    | r => r.landed fun _ => []

/-- A load performs. -/
def State.landLoad (s : State) (o : PendingOp) (func : Nat) (a : Access) (entry : Option Access) : Landed :=
  let core := s.opCore o
  match entry with
  | none => match s.performRead core (s.opPart o) a with
    | .done s bs beyond => .done (s.settleLoad core o beyond) (loadResult func bs) 0
    | r => r.landed fun _ => []
  | some e => s.landDecode core (s.opPart o) func o a e

/-- An operation performs and completes: its registers and sticky bits land, its flag falls; a fault cancels it; while
pool ownership is missing it waits. -/
def State.complete (s : State) (o : PendingOp) (keep : Nat) (r : Landed) : State :=
  match r with
  | .done s vals fp => (s.finishOp o vals fp keep).retireFences
  | .waits s' => s'.updOp o.id fun x => { x with waiting := some (x.waiting.getD s.time) }
  | .fault s' d => (s'.failOp o d).retireFences

/-- LOAD_COMPLETE (R160, R161, R168): enabled when every access ordered before the load has performed (R174). -/
def execLoadComplete (op keep : Nat) (s : State) : Answer :=
  match s.op? op with
  | some o => match o.kind with
    | .load func a e =>
      if s.opWaits o then .next s
      else .next (s.complete o keep (s.landLoad o func a e))
    | _ => .next s
  | none => .next s

/-! ## Register spills (R141) -/

/-- A spill has failed: the thread faults at its next clause start. -/
def Thread.spillFails (t : Thread) (n : Nat) (a : DWord) (gen : BitVec 16) (now : Nat) : Thread :=
  if t.late.isSome then t
  else { t with late := some { code := codeRegFill, addr := a, reg := n, mprog := 0, gen := gen, pc := none, flags := [],
                               gang := none, raised := now } }

/-- Spilling one register: to its home through L1. -/
def State.spillReg (s : State) (r : TRef) (n : Nat) : State :=
  match s.wg? r.wg, s.thread? r with
  | some w, some t =>
    let a := BitVec.ofNat 64 (w.homeOf r.warp r.lane n)
    match s.checkAccess w.core w.part a 4 { r := true, w := true } with
    | .error d => (s.countFill w.core).updThread r fun t => t.spillFails n a d.gen s.time
    | .ok l =>
      match s.performWrite w.core w.part (mkAccess a 4 l 0 0) (leBytes 4 (t.reg n).toNat) with
      | .done s _ _ => s.updThread r fun t => { t with cold := t.cold ||| (1#64 <<< n) }
      | .waits s => s
      | .fault s d => (s.countFill w.core).updThread r fun t => t.spillFails n a d.gen s.time
  | _, _ => s

/-- REGISTER_SPILL (R141): registers leave the store; a spill whose home faults keeps its register, and the thread
parks at its next clause start. -/
def execRegisterSpill (wg warp lane : Nat) (regs : BitVec 64) (s : State) : Answer :=
  let r : TRef := { wg := wg, warp := warp, lane := lane }
  match s.thread? r with
  | some t =>
    if t.status == .exited then .next s
    else .next ((List.range 64).foldl (fun s n =>
      if regs.getLsbD n && !t.cold.getLsbD n then s.spillReg r n else s) s)
  | none => .next s

/-! ## Stores (R162) -/

def storeSize (func : Nat) : Nat := 2 ^ func

/-- The bytes of a store's source registers. -/
def Thread.regBytes (t : Thread) (n bytes : Nat) : List Byte :=
  ((List.range ((bytes + 3) / 4)).flatMap fun i => leBytes 4 (t.reg (n + i)).toNat).take bytes

/-- The issue of a store or REDM word: a helper's is checked for range and alignment only (R83). -/
def storeLike (o : MSArgs) (n nregs : Nat) (need : Rights) (taints : Bool) (mk : Thread → Access → OpKind) (s : State) : Answer :=
  let acts (t : Thread) : Bool := t.guard o.guard false
  let rule := memRule [0, 2] .none
  let srcs := regBlock o.vs.toNat nregs ++ addressRegs o.mode o.vo
  issue rule srcs (fillSources rule acts srcs) noHold
    (fun g s => (s.eachActing g acts fun word r t s =>
      let va := s.address g r t o.mode o.wb o.vo
      if t.isHelper then match checkRange va n with
        | some d => s.raise r d (g.site g.pc)
        | none => s
      else s.issueAccess g r none word va n need g.order g.scope (mk t) 0 0).taintActing g fun t => taints && acts t) s

def storeWord (func : Nat) (o : MSArgs) (s : State) : Answer :=
  let n := storeSize func
  storeLike o n ((n + 3) / 4) { w := true } false (fun t a => .store a (t.regBytes o.vs.toNat n)) s

/-- ST8 (R162). -/
def execSt8 (o : MSArgs) (s : State) : Answer := storeWord 0 o s

/-- ST16 (R162). -/
def execSt16 (o : MSArgs) (s : State) : Answer := storeWord 1 o s

/-- ST32 (R162). -/
def execSt32 (o : MSArgs) (s : State) : Answer := storeWord 2 o s

/-- ST64 (R162). -/
def execSt64 (o : MSArgs) (s : State) : Answer := storeWord 3 o s

/-- ST128 (R162). -/
def execSt128 (o : MSArgs) (s : State) : Answer := storeWord 4 o s

/-! ## Atomic operations (R189 to R191) -/

/-- Op of R189 on n-byte values: the new value, or none; and AFADD's sticky bits. -/
def atomOp (func : Nat) (old x c : DWord) : Option DWord × BitVec 5 :=
  let a := lo32 old
  let b := lo32 x
  let w (r : Word) : Option DWord × BitVec 5 := (some (zext 64 r), 0)
  match func with
  | 0 => w (a + b)
  | 1 => w (minS a b)
  | 2 => w (maxS a b)
  | 3 => w (minU a b)
  | 4 => w (maxU a b)
  | 5 => w (a &&& b)
  | 6 => w (a ||| b)
  | 7 => w (a ^^^ b)
  | 8 => w b
  | 9 => if a = lo32 c then w b else (none, 0)
  | 10 => w (if b ≤ a then 0 else a + 1)
  | 11 => w (if a = 0 ∨ b < a then b else a - 1)
  | 12 => let r := addF32 0 a b
          (some (zext 64 r.1), r.2)
  | 13 => (some (old + x), 0)
  | 14 => (if old = c then some x else none, 0)
  | _ => (some x, 0)

def atomSize (func : Nat) : Nat := if func ≥ 13 then 8 else 4

def bytesToDWord (bs : List Byte) : DWord := BitVec.ofNat 64 (ofLe bs)

/-- An ATOM word (R186, R189): R and W; a helper's is a relaxed load at .pkg. -/
def atomWord (func : Nat) (v4 : V4Use) (o : MArgs) (s : State) : Answer :=
  let acts (t : Thread) : Bool := t.guard o.guard false
  let n := atomSize func
  let rule := memRule [0, 1, 2, 3] v4
  let ops := regBlock o.vd.toNat (n / 4)
  issue rule (ops ++ addressRegs o.mode o.vo) (fillSources rule acts (ops ++ addressRegs o.mode o.vo))
    (flagFull o.fs acts)
    (fun g s => (s.eachActing g acts fun word r t s =>
      let va := s.address g r t o.mode o.wb o.vo
      let x := if n = 8 then t.reg64 o.vd.toNat else zext 64 (t.reg o.vd.toNat)
      let c := if n = 8 then t.reg64 g.mods.v4.1 else zext 64 (t.reg g.mods.v4.1)
      if t.isHelper then
        s.issueAccess g r (some o.fs) word va n { r := true } 0 2 (fun a => .atom func a x c true) o.vd.toNat (n / 4)
      else
        s.issueAccess g r (some o.fs) word va n { r := true, w := true } g.order g.scope
          (fun a => .atom func a x c false) o.vd.toNat (n / 4)).taintActing g acts) s

/-- AADD (R189). -/
def execAadd (o : MArgs) (s : State) : Answer := atomWord 0 .none o s

/-- AMINS (R189). -/
def execAmins (o : MArgs) (s : State) : Answer := atomWord 1 .none o s

/-- AMAXS (R189). -/
def execAmaxs (o : MArgs) (s : State) : Answer := atomWord 2 .none o s

/-- AMINZ (R189). -/
def execAminz (o : MArgs) (s : State) : Answer := atomWord 3 .none o s

/-- AMAXZ (R189). -/
def execAmaxz (o : MArgs) (s : State) : Answer := atomWord 4 .none o s

/-- AAND (R189). -/
def execAand (o : MArgs) (s : State) : Answer := atomWord 5 .none o s

/-- AOR (R189). -/
def execAor (o : MArgs) (s : State) : Answer := atomWord 6 .none o s

/-- AXOR (R189). -/
def execAxor (o : MArgs) (s : State) : Answer := atomWord 7 .none o s

/-- ASWP (R189). -/
def execAswp (o : MArgs) (s : State) : Answer := atomWord 8 .none o s

/-- ACAS (R189). -/
def execAcas (o : MArgs) (s : State) : Answer := atomWord 9 .compare o s

/-- AINCW (R189). -/
def execAincw (o : MArgs) (s : State) : Answer := atomWord 10 .none o s

/-- ADECW (R189). -/
def execAdecw (o : MArgs) (s : State) : Answer := atomWord 11 .none o s

/-- AFADD (R189). -/
def execAfadd (o : MArgs) (s : State) : Answer := atomWord 12 .none o s

/-- AADD64 (R189). -/
def execAadd64 (o : MArgs) (s : State) : Answer := atomWord 13 .none o s

/-- ACAS64 (R189). -/
def execAcas64 (o : MArgs) (s : State) : Answer := atomWord 14 .comparePair o s

/-- ASWP64 (R189). -/
def execAswp64 (o : MArgs) (s : State) : Answer := atomWord 15 .none o s

/-- The registers that an atomic word returns. -/
def oldWords (n : Nat) (old : DWord) : List Word := if n = 8 then [lo32 old, hi32 old] else [lo32 old]

/-- An atomic word performs. -/
def State.landAtom (s : State) (o : PendingOp) (func : Nat) (a : Access) (x c : DWord) (helper : Bool) : Landed :=
  let core := s.opCore o
  let part := s.opPart o
  let n := atomSize func
  if helper then
    (s.performRead core part a).landed fun bs => oldWords n (bytesToDWord bs)
  else
    match s.performAtomic core part a fun bs => ((atomOp func (bytesToDWord bs) x c).1).map fun v => leBytes n v.toNat with
    | .fault s d => .fault s d
    | .waits s => .waits s
    | .done s bs _ => .done s (oldWords n (bytesToDWord bs)) (atomOp func (bytesToDWord bs) x c).2

/-- ATOM_COMPLETE (R189, R190). -/
def execAtomComplete (op keep : Nat) (s : State) : Answer :=
  match s.op? op with
  | some o => match o.kind with
    | .atom func a x c h => if s.opWaits o then .next s else .next (s.complete o keep (s.landAtom o func a x c h))
    | _ => .next s
  | none => .next s

/-- A REDM word (R191): W only. -/
def redmWord (func : Nat) (o : MSArgs) (s : State) : Answer :=
  let n := atomSize func
  storeLike o n (n / 4) { w := true } true (fun t a =>
    .redm func a (if n = 8 then t.reg64 o.vs.toNat else zext 64 (t.reg o.vs.toNat))) s

/-- RADD (R191). -/
def execRadd (o : MSArgs) (s : State) : Answer := redmWord 0 o s

/-- RMINS (R191). -/
def execRmins (o : MSArgs) (s : State) : Answer := redmWord 1 o s

/-- RMAXS (R191). -/
def execRmaxs (o : MSArgs) (s : State) : Answer := redmWord 2 o s

/-- RMINZ (R191). -/
def execRminz (o : MSArgs) (s : State) : Answer := redmWord 3 o s

/-- RMAXZ (R191). -/
def execRmaxz (o : MSArgs) (s : State) : Answer := redmWord 4 o s

/-- RAND (R191). -/
def execRand (o : MSArgs) (s : State) : Answer := redmWord 5 o s

/-- ROR (R191). -/
def execRor (o : MSArgs) (s : State) : Answer := redmWord 6 o s

/-- RXOR (R191). -/
def execRxor (o : MSArgs) (s : State) : Answer := redmWord 7 o s

/-- RSWP (R191). -/
def execRswp (o : MSArgs) (s : State) : Answer := redmWord 8 o s

/-- RFADD (R191). -/
def execRfadd (o : MSArgs) (s : State) : Answer := redmWord 12 o s

/-- RADD64 (R191). -/
def execRadd64 (o : MSArgs) (s : State) : Answer := redmWord 13 o s

/-! ## Stores and REDM words perform (R172, R420) -/

/-- A sector or line leaves L1 for L2, or L2 for its tier, as a cache word says (R166). -/
def State.cacheAct (s : State) (core func : Nat) (a : Access) : State :=
  let line := s.homeAddr a.pa / 128
  match func with
  | 1 => ((s.l1WriteBack core line).l1Drop core line).l2Leave line
  | 2 => s.l1WriteBack core line
  | _ => s.l1Drop core line

/-- What a background operation does when it performs; none for the kinds that are none. -/
def State.landStore (s : State) (o : PendingOp) : Option Landed :=
  let core := s.opCore o
  let part := s.opPart o
  let out (p : Performed) : Landed := p.landed fun _ => []
  match o.kind with
  | .store a bs => some (out (s.performWrite core part a bs))
  | .redm func a x => some (out (s.performAtomic core part a fun bs =>
      ((atomOp func (bytesToDWord bs) x 0).1).map fun v => leBytes (atomSize func) v.toNat))
  | .cache func a => some (.done (s.cacheAct core func a) [] 0)
  | _ => none

/-- A background write that has met its home agent: performed, dropped with an imprecise record, or kept waiting for
pool ownership, with one MIGRATION record in host-assisted mode (R156, R420). -/
def State.settleStore (s : State) (o : PendingOp) (r : Landed) : State :=
  match r with
  | .done s _ _ => (s.dropOp o).retireFences
  | .waits s' => s'.updOp o.id fun x => { x with waiting := some (x.waiting.getD s.time) }
  | .fault s' d =>
    if d.code == codeMigration then
      if o.reported then s
      else (s.impreciseRecord o d).updOp o.id fun x =>
        { x with waiting := some (x.waiting.getD s.time), reported := true }
    else if d.code == codeGenStale then ((s'.impreciseRecord o d).dropOp o).retireFences
    else (s'.dropOp o).retireFences

/-- R178: whether an acknowledged store has first reached its core's L1, where the core's threads see it: one to a read-shared
or coherent page that its home agent does not reject. -/
def State.showsFirst (s : State) (o : PendingOp) : Bool := match o.kind with
  | .store a _ => o.seen.isNone && a.leaf.cls != .priv && s.genOk a.leaf a.pa
  | _ => false

/-- R166, R326: a CFLUSH waits while the page's stall window lets no write of its sector through. -/
def State.flushStalls (s : State) (o : PendingOp) : Bool := match o.kind with
  | .cache 1 a =>
    let line := s.homeAddr a.pa / 128
    s.windowFull (line * 128)
      && ((s.l2Sector? line).any (·.dirty) || ((s.core (s.opCore o)).l1Line? line).any (·.isDirty))
  | _ => false

/-- A store, REDM or cache-control word goes as far as the accesses ordered before it let it: through its core's L1, then
to its home slice. -/
def State.ackStore (s : State) (o : PendingOp) (r : Landed) : State :=
  if (if o.seen.isSome then s.followsSeen o else s.opWaits o) || s.flushStalls o then s
  else if s.showsFirst o then match o.kind with
    | .store a bs => (s.showStore (s.opCore o) o a bs).retireFences
    | _ => s
  else s.settleStore o r

/-- STORE_ACKNOWLEDGEMENT (R172, R178, R156, R166): a store, REDM or cache-control word performs, once every access ordered
before it has; a store to a read-shared or coherent page takes two of these events, the first of which only its core's
threads see (log 10). -/
def execStoreAcknowledgement (op : Nat) (s : State) : Answer :=
  match s.op? op with
  | some o => match s.landStore o with
    | some r => .next (s.ackStore o r)
    | none => .next s
  | none => .next s

/-- R174, R157: of one service core's stores and fences, x comes after the earlier y: a store after a fence and after a store
to its bytes, a release after both. -/
def ServiceStore.follows (x y : ServiceStore) : Bool :=
  x.core == y.core && (y.fence || x.release || (x.part == y.part && overlaps x.va x.bytes.length y.va y.bytes.length))

/-- R24, R420: a store or fence of a service core that no earlier one holds back performs, and `ending` says what then becomes of
it. A store that needs ownership which this package does not hold waits, in either mode; one that faults otherwise is dropped
(log 23). -/
def State.serviceStore (s : State) (x : ServiceStore) (ending : State → State) : State :=
  let who := engineAgent 6 x.core x.id
  if x.fence then ending s
  else match s.probe who serviceCore x.part { w := true } (fun _ => true) (pieces x.va x.bytes.length) with
    | .ok => (ending s).engineWrite serviceCore x.part x.va x.bytes
    | .waits pa => s.holdPool who pa true
    | .fault d => if d.code == codeMigration then s else ending s

/-- A waiting store or fence of a service core performs once those that it follows have. -/
def State.serviceResume (s : State) (x : ServiceStore) : State :=
  if (s.serviceStores.takeWhile (·.id != x.id)).any x.follows then s
  else s.serviceStore x fun s => { s with serviceStores := s.serviceStores.filter (·.id != x.id) }

/-- DEFERRED_STORE_PERFORM (R420): a write that waited for pool ownership is performed once the granule is held. -/
def execDeferredStorePerform (op : Nat) (s : State) : Answer :=
  match s.op? op, s.serviceStores.find? (·.id == op) with
  | some o, _ =>
    if o.waiting.isNone || (if o.seen.isSome then s.followsSeen o else s.opWaits o) then .next s
    else match s.landStore o with
      | some (.done s' _ _) => .next (s.settleStore o (.done s' [] 0))
      | some (.fault s' d) => .next (s.settleStore o (.fault s' d))
      | _ => .next s
  | none, some x => .next (s.serviceResume x)
  | none, none => .next s

/-! ## Scratchpad words (R163, R164) -/

/-- The window size of the thread's workgroup. -/
def State.windowOf (s : State) (wg : Nat) : Nat := ((s.wg? wg).map (·.window)).getD 0

/-- R144, R155: range and alignment of a scratchpad access. -/
def spadFault (window : Nat) (a : DWord) (n : Nat) : Option FaultDetail :=
  if a.toNat + n > window then some { code := codeProtection, addr := a }
  else if a.toNat % n != 0 then some { code := codeAlign, addr := a }
  else none

def spadSize (func : Nat) : Nat :=
  match func with
  | 1 => 8
  | 2 => 16
  | 4 => 8
  | 5 => 16
  | _ => 4

/-- A scratchpad access at this moment waits for an earlier access of the thread that is ordered before it. -/
def State.spadMustWait (s : State) (r : TRef) (f : Footprint) : Bool := s.mustWait [r] s.nextId s.nextId .nothing f

/-- The footprint of a scratchpad word for one thread. -/
def spadFoot (a : DWord) (n : Nat) (write : Bool) : Footprint :=
  { spans := [spadSpan a.toNat n], r := !write, w := write, order := 0, scope := 0 }

/-- A scratchpad word accepts an extension word only (R158). -/
def spadRule : WordRule := { ext := true }

/-- LDS and ATS words: long-latency; their access performs at completion. -/
def spadLoadWord (func nregs : Nat) (reads : Bool) (o : SpArgs) (s : State) : Answer :=
  let acts (t : Thread) : Bool := t.guard o.guard false
  let n := spadSize func
  let dst := regBlock o.vd.toNat nregs
  let srcs := o.vo.toNat :: (if reads then dst else [])
  issue spadRule (o.vo.toNat :: dst) (fillSources spadRule acts srcs) (flagFull o.fs acts)
    (fun g s => s.eachActing g acts fun word r t s =>
      let a := g.spadAddress t o.vo
      match spadFault (s.windowOf r.wg) a n with
      | some d => s.raise r d (g.site g.pc)
      | none => s.addOp g r (some o.fs) word (.spad func a.toNat (t.reg o.vd.toNat) t.isHelper) o.vd.toNat nregs) s

/-- STS words: they write at issue; while an earlier access of an acting member must come first, the group holds. -/
def spadStoreWord (func nregs : Nat) (o : SpSArgs) (s : State) : Answer :=
  let acts (t : Thread) : Bool := t.guard o.guard false
  let n := spadSize func
  let srcs := o.vo.toNat :: regBlock o.vs.toNat nregs
  issue spadRule srcs (fillSources spadRule acts srcs)
    (fun g s => (s.active g).any fun r => (s.thread? r).any fun t =>
      acts t && s.spadMustWait r (spadFoot (g.spadAddress t o.vo) n true))
    (fun g s => s.eachActing g acts fun _ r t s =>
      let a := g.spadAddress t o.vo
      match spadFault (s.windowOf r.wg) a n with
      | some d => s.raise r d (g.site g.pc)
      | none =>
        if t.isHelper then s
        else s.updWg r.wg fun w => { w with scratch := Memory.setBytes w.scratch a.toNat (t.regBytes o.vs.toNat n) }) s

/-- LDS32 (R163). -/
def execLds32 (o : SpArgs) (s : State) : Answer := spadLoadWord 0 1 false o s

/-- LDS64 (R163). -/
def execLds64 (o : SpArgs) (s : State) : Answer := spadLoadWord 1 2 false o s

/-- LDS128 (R163). -/
def execLds128 (o : SpArgs) (s : State) : Answer := spadLoadWord 2 4 false o s

/-- STS32 (R163). -/
def execSts32 (o : SpSArgs) (s : State) : Answer := spadStoreWord 3 1 o s

/-- STS64 (R163). -/
def execSts64 (o : SpSArgs) (s : State) : Answer := spadStoreWord 4 2 o s

/-- STS128 (R163). -/
def execSts128 (o : SpSArgs) (s : State) : Answer := spadStoreWord 5 4 o s

/-- ATSADD (R164). -/
def execAtsadd (o : SpArgs) (s : State) : Answer := spadLoadWord 6 1 true o s

/-- ATSMAX (R164). -/
def execAtsmax (o : SpArgs) (s : State) : Answer := spadLoadWord 7 1 true o s

/-- R163, R164: a scratchpad operation performs. -/
def State.landSpad (s : State) (wg func a : Nat) (x : Word) (helper : Bool) : State × List Word :=
  match s.wg? wg with
  | none => (s, [])
  | some w =>
    let bs := Memory.getBytes w.scratch a (spadSize func)
    let old := wordAt bs 0
    let put (v : Word) : State :=
      if helper then s else s.updWg wg fun w => { w with scratch := Memory.setBytes w.scratch a (leBytes 4 v.toNat) }
    match func with
    | 1 => (s, [wordAt bs 0, wordAt bs 1])
    | 2 => (s, [wordAt bs 0, wordAt bs 1, wordAt bs 2, wordAt bs 3])
    | 6 => (put (old + x), [old])
    | 7 => (put (maxS old x), [old])
    | _ => (s, [old])

/-- SPAD_LOAD_COMPLETE (R163, R164). -/
def execSpadLoadComplete (op keep : Nat) (s : State) : Answer :=
  match s.op? op with
  | some o => match o.kind with
    | .spad func a x h =>
      if s.opWaits o then .next s
      else
        let r := s.landSpad ((o.who.map (·.wg)).headD 0) func a x h
        .next ((r.1.finishOp o r.2 0 keep).retireFences)
    | _ => .next s
  | none => .next s

/-! ## FENCE (R192) -/

/-- FENCE orders earlier accesses of each acting member before later ones (R174); it never holds its thread. Without
a prefix it is relaxed and has no effect. -/
def execFence (o : FenArgs) (s : State) : Answer :=
  let acts (t : Thread) : Bool := t.guard o.guard false
  let rule : WordRule := { prefixKind := .mem, orders := [0, 1, 2, 3], sc := o.sc }
  issue rule [] noFill noHold
    (fun g s =>
      if g.order = 0 then s
      else (s.eachActing g acts fun word r _ s =>
        s.addOp g r none word (.fence (isAcquire g.order) (isRelease g.order) o.sc g.scope) 0 0).retireFences) s

/-! ## Cache control (R166) -/

/-- CFLUSH, CWB, CINV: translated with the rights they need, then ordered like stores. -/
def cacheWord (func : Nat) (need : Rights) (o : McArgs) (s : State) : Answer :=
  let acts (t : Thread) : Bool := t.guard o.guard false
  let rule : WordRule := { ext := true }
  let srcs := addressRegs o.mode o.vo
  issue rule srcs (fillSources rule acts srcs) noHold
    (fun g s => s.eachActing g acts fun word r t s =>
      let va := s.address g r t o.mode o.wb o.vo
      if t.isHelper then match checkRange va 1 with
        | some d => s.raise r d (g.site g.pc)
        | none => s
      else s.issueAccess g r none word va 1 need 0 2 (.cache func) 0 0) s

/-- CFLUSH (R166). -/
def execCflush (o : McArgs) (s : State) : Answer := cacheWord 1 { w := true } o s

/-- CWB (R166). -/
def execCwb (o : McArgs) (s : State) : Answer := cacheWord 2 { r := true } o s

/-- CINV (R166, R167). -/
def execCinv (o : McArgs) (s : State) : Answer := cacheWord 3 { w := true } o s

/-- A prefetch brings the sector into L2, and for PFL1 the line into L1; one that would fault, or that names a cleared
or poisoned unit, does nothing (R166). It names both units of its sector (DEDUCED, log 26). -/
def State.prefetch (s : State) (core part : Nat) (va : DWord) (intoL1 : Bool) : State :=
  match s.translate core part va { r := true } with
  | .error _ => s
  | .ok l =>
    let pa0 := l.phys va.toNat
    if !s.poolServes pa0 false || !s.genOk l pa0 then s
    else
      let pa := s.homeAddr pa0
      let n := pa / 128
      if s.isCleared pa then s
      else
        let s' := (s.tlbInsert core part l).l2Fill n l.fold l.open_
        if (s'.poisonAt (n * 128) 128).isSome then s
        else if intoL1 then s'.l1Fill core n l else s'

def prefetchWord (intoL1 : Bool) (o : McArgs) (s : State) : Answer :=
  let acts (t : Thread) : Bool := t.guard o.guard false
  let rule : WordRule := { ext := true }
  let srcs := addressRegs o.mode o.vo
  issue rule srcs (fillSources rule acts srcs) noHold
    (fun g s => s.eachActing g acts fun _ r t s =>
      s.prefetch (s.coreOf r.wg) (s.partOf r.wg) (s.address g r t o.mode o.wb o.vo) intoL1) s

/-- PFL2 (R166). -/
def execPfl2 (o : McArgs) (s : State) : Answer := prefetchWord false o s

/-- PFL1 (R166). -/
def execPfl1 (o : McArgs) (s : State) : Answer := prefetchWord true o s

/-! ## Evictions (R145) -/

/-- LINE_EVICTION: a line leaves a core's L1, or a sector leaves L2; what is dirty is written on first. -/
def execLineEviction (core : Nat) (l2 : Bool) (line : Nat) (s : State) : Answer :=
  if l2 then .next (s.l2Leave line)
  else .next ((s.l1WriteBack core line).l1Drop core line)

end Sys2Proof.Machine
end

