-- ==== Sys2Proof/Machine/Quant.lean ====
section
/-!
DEFINITION. The quantising words, major 0x26, and their completion (09_block_formats R211 to R219).
-/

namespace Sys2Proof.Machine

/-! ## Control and registers (R212) -/

def quantFmt (control : Word) : Nat := field control 6 4
def quantAllow (control : Word) : Nat := field control 3 0
def quantSel (control : Word) : Nat := field control 9 8

/-- R212: the format, then the first register of the block outside the budget. -/
def quantCheck (budget vq : Nat) (control : Word) : Option FaultDetail :=
  let fmt := quantFmt control
  if fmt = 0 ∨ fmt = 7 then some { code := codeFormatMismatch }
  else ((regBlock vq (blockLen fmt + 1)).find? fun n => decide (min budget 64 ≤ n)).map fun n =>
    { code := codeRegRange, reg := n }

/-- The input block of a thread. -/
def Thread.quantInput (t : Thread) (vq fmt : Nat) : List Word := (regBlock (vq + 1) (blockLen fmt)).map t.reg

/-- R141, R212: the fills of the control register and of the address, then of the block that the control value names. -/
def fillQuant (w : WordRule) (acts : Thread → Bool) (vq : Nat) (srcs : List Nat) (g : Group) (s : State) : State :=
  let s := fillSources w acts (vq :: srcs) g s
  (s.active g).foldl (fun s r =>
    match s.thread? r with
    | some t =>
      if t.cold != 0 && !t.cold.getLsbD vq && acts t && (quantCheck (s.budget r) vq (t.reg vq)).isNone then
        (regBlock (vq + 1) (blockLen (quantFmt (t.reg vq)))).foldl (fun s n => s.fillReg g r n) s
      else s
    | none => s) s

/-- One acting member of QST, QSEL or QERR: R212's checks, then `f` with the thread, its control value and its input. -/
def State.quantEach (s : State) (g : Group) (r : TRef) (t : Thread) (vq : Nat)
    (f : Thread → Word → List Word → State → State) : State :=
  let control := t.reg vq
  match quantCheck (s.budget r) vq control with
  | some d => s.raise r d (g.site g.pc)
  | none => f t control (t.quantInput vq (quantFmt control)) s

/-! ## QST (R213, R214) -/

/-- Checks 3 to 6 of R213: the leaves of the data page and of the entry's page. -/
def State.quantTarget (s : State) (core part fmt : Nat) (va : DWord) : Except FaultDetail (Leaf × Leaf) :=
  match s.checkAccess core part va (blockBytes fmt) { w := true } with
  | .error d => .error d
  | .ok l =>
    if l.format != fmt then .error { code := codeFormatMismatch, addr := va, gen := l.gen }
    else match s.entryLeaf core part l va.toNat { w := true } with
      | .error d => .error d
      | .ok m => .ok (l, m)

/-- QST: two stores and a report; a helper makes no store. -/
def execQst (o : MArgs) (s : State) : Answer :=
  let acts (t : Thread) : Bool := t.guard o.guard false
  let rule : WordRule := { ext := true }
  let vq := o.vd.toNat
  issue rule (vq :: addressRegs o.mode o.vo) (fillQuant rule acts vq (addressRegs o.mode o.vo))
    (flagFull o.fs acts)
    (fun g s => s.eachActing g acts fun word r t s =>
      s.quantEach g r t vq fun t control xs s =>
        let fmt := quantFmt control
        let q := quantise fmt (quantAllow control) xs
        let done (s : State) : State := s.addOp g r (some o.fs) word (.qblk [q.report] q.flags) vq 1
        let va := s.address g r t o.mode o.wb o.vo
        if t.isHelper then match checkRange va (blockBytes fmt) with
          | some d => s.raise r d (g.site g.pc)
          | none => done s
        else match s.quantTarget (s.coreOf r.wg) (s.partOf r.wg) fmt va with
          | .error d => s.raise r d (g.site g.pc)
          | .ok (l, m) =>
            let s := (s.tlbInsert (s.coreOf r.wg) (s.partOf r.wg) l).tlbInsert (s.coreOf r.wg) (s.partOf r.wg) m
            let s := s.addOp g r none word (.store (mkAccess va (blockBytes fmt) l 0 2) q.bytes) 0 0
            let s := s.addOp g r none word
              (.store (mkAccess (entryAddress l va.toNat) 2 m 0 2) (leBytes 2 q.entry.toNat)) 0 0
            done s) s

/-! ## QSEL and QERR (R215, R216) -/

/-- A word that computes from its block alone. -/
def quantWord (o : QbArgs) (f : Word → List Word → List Word × BitVec 5) (s : State) : Answer :=
  let acts (t : Thread) : Bool := t.guard o.guard false
  let vq := o.vq.toNat
  issue {} [vq] (fillQuant {} acts vq []) (flagFull o.fs acts)
    (fun g s => s.eachActing g acts fun word r t s =>
      s.quantEach g r t vq fun _ control xs s =>
        let res := f control xs
        s.addOp g r (some o.fs) word (.qblk res.1 res.2) vq res.1.length) s

/-- QSEL (R215). -/
def execQsel (o : QbArgs) (s : State) : Answer :=
  quantWord o (fun control xs =>
    let fmt := quantFmt control
    let q := quantise fmt (quantAllow control) xs
    (q.report :: (List.range (blockBytes fmt / 4)).map (wordAt q.bytes), q.flags)) s

/-- QERR (R216). -/
def execQerr (o : QbArgs) (s : State) : Answer :=
  quantWord o (fun control xs =>
    let r := quantError (quantFmt control) (quantSel control) xs
    ([r.1], r.2)) s

/-! ## SBCHK and MTA (R217, R218) -/

/-- The leaf of a format page that a word reads by. -/
def State.formatLeaf (s : State) (core part : Nat) (va : DWord) : Except FaultDetail Leaf :=
  match s.checkAccess core part va 1 { r := true } with
  | .error d => .error d
  | .ok l => if isFormatPage l then .ok l else .error { code := codeFormatMismatch, addr := va, gen := l.gen }

/-- SBCHK: the entry's page is checked at issue, the entry read at completion. -/
def execSbchk (o : MArgs) (s : State) : Answer :=
  let acts (t : Thread) : Bool := t.guard o.guard false
  let rule : WordRule := { ext := true }
  issue rule (o.vd.toNat :: addressRegs o.mode o.vo) (fillSources rule acts (addressRegs o.mode o.vo))
    (flagFull o.fs acts)
    (fun g s => s.eachActing g acts fun word r t s =>
      let va := s.address g r t o.mode o.wb o.vo
      let core := s.coreOf r.wg
      let part := s.partOf r.wg
      match s.formatLeaf core part va with
      | .error d => s.raise r d (g.site g.pc)
      | .ok l => match s.entryLeaf core part l va.toNat { r := true } with
        | .error d => s.raise r d (g.site g.pc)
        | .ok m => ((s.tlbInsert core part l).tlbInsert core part m).addOp g r (some o.fs) word
            (.sbchk l.format (mkAccess (entryAddress l va.toNat) 2 m 0 2)) o.vd.toNat 1) s

/-- MTA. -/
def execMta (o : MArgs) (s : State) : Answer :=
  let acts (t : Thread) : Bool := t.guard o.guard false
  let rule : WordRule := { ext := true }
  issue rule (regBlock o.vd.toNat 2 ++ addressRegs o.mode o.vo) (fillSources rule acts (addressRegs o.mode o.vo))
    (flagFull o.fs acts)
    (fun g s => s.eachActing g acts fun word r t s =>
      let va := s.address g r t o.mode o.wb o.vo
      match s.formatLeaf (s.coreOf r.wg) (s.partOf r.wg) va with
      | .error d => s.raise r d (g.site g.pc)
      | .ok l =>
        let a := entryAddress l va.toNat
        (s.tlbInsert (s.coreOf r.wg) (s.partOf r.wg) l).addOp g r (some o.fs) word (.qblk [lo32 a, hi32 a] 0)
          o.vd.toNat 2) s

/-! ## Completion -/

/-- R217: the result of SBCHK. -/
def sbchkResult (format : Nat) (e : BitVec 16) : Word :=
  (0 : BitVec 12) ++ BitVec.ofNat 3 format ++ BitVec.ofBool (!entryValid e) ++ e

/-- QBLK_COMPLETE (R211, R213 to R218): results, reports and sticky bits land, and the flag falls. -/
def execQblkComplete (op keep : Nat) (s : State) : Answer :=
  match s.op? op with
  | some o => match o.kind with
    | .qblk vals fp => .next (s.finishOp o vals fp keep)
    | .sbchk format a =>
      if s.opWaits o then .next s
      else .next (s.complete o keep ((s.performRead (s.opCore o) (s.opPart o) a).landed fun bs =>
        [sbchkResult format (BitVec.ofNat 16 (ofLe bs))]))
    | _ => .next s
  | none => .next s

end Sys2Proof.Machine
end

