-- ==== Sys2Proof/Machine/Engine.lean ====
section
/-!
DEFINITION. Engine words of threads: their issue, and the timelines of the engines (01_machine R23; 08_consistency R182;
11_copy R264; 12_row R282; 14_tiers R333).
-/

namespace Sys2Proof.Machine

/-! ## Issue of engine words by threads -/

/-- One operation for several threads, one flag each (R34, R239, R261). -/
def State.addOpFor (s : State) (g : Group) (rs : List TRef) (fs : Option Bool) (kind : OpKind) (dst ndst : Nat) :
    State :=
  let flag := match fs with
    | some b => g.flagOf b
    | none => none
  let op : PendingOp := { id := s.nextId, word := s.nextId, who := rs, flag := flag, issued := s.time, kind := kind,
                          dst := dst, ndst := ndst,
                          old := rs.map fun r => ((s.thread? r).map fun t =>
                            (List.range ndst).map fun i => t.writesOf (dst + i)).getD [],
                          site := g.site g.pc, widths := rs.map fun r => ((s.thread? r).map (·.sgw)).getD 32,
                          seen := none, waiting := none, reported := false }
  { s.updThreads rs (fun t => t.addFlag flag) with ops := s.ops ++ [op], nextId := s.nextId + 1 }

/-- The members of a home warp whose guard is true. -/
def State.warpGuarded (s : State) (g : Group) (w : Nat × Nat) (acts : Thread → Bool) : List TRef :=
  (s.active g).filter fun r => r.wg == w.1 && r.warp == w.2 && (s.thread? r).any acts

/-- Whether one of some threads is live. -/
def State.anyLive (s : State) (rs : List TRef) : Bool := rs.any fun r => (s.thread? r).any fun t => t.status == .live

/-- Every thread of a list faults at the group's word. -/
def State.raiseThese (s : State) (rs : List TRef) (d : FaultDetail) (site : Site) : State :=
  rs.foldl (fun s r => s.raise r d site) s

/-- A word that executes once for each home warp of its group that has a thread with a true guard. -/
def State.eachWarp (s : State) (g : Group) (acts : Thread → Bool) (f : Nat × Nat → List TRef → State → State) : State :=
  (s.homeWarps g).foldl (fun s w =>
    let rs := s.warpGuarded g w acts
    if rs.isEmpty then s else f w rs s) s

/-! ## What is outstanding of a thread (R33, R370) -/

/-- A long-latency operation (R33). -/
def OpKind.long : OpKind → Bool
  | .store .. => false
  | .redm .. => false
  | .cache .. => false
  | .fence .. => false
  | .nothing => false
  | _ => true

/-- R370, R34: something of the thread is outstanding, untracked operations among it. -/
def State.outstanding (s : State) (w : Workgroup) (t : Thread) : Bool :=
  let r := t.ref w.id
  !t.flagsClear || (s.ops.any fun o => o.kind.long && o.who.contains r)
    || (s.core w.core).matrix.any fun x => x.wg == w.id && x.issuers.any fun a => a.who == r

/-! ## Timelines (R23, R264) -/

/-- Numbers retire in order. -/
def Timeline.retire : Nat → Timeline → Timeline
  | 0, x => x
  | fuel + 1, x =>
    if x.completed.contains (x.retired + 1) then
      Timeline.retire fuel { x with retired := x.retired + 1, completed := x.completed.filter (· != x.retired + 1) }
    else x

/-- An operation completes. -/
def Timeline.complete (x : Timeline) (num : Nat) : Timeline :=
  Timeline.retire (x.completed.length + 1) { x with completed := x.completed ++ [num] }

/-- Timeline k of a core: 0 copy, 1 row, 2 tier. -/
def State.timeline (s : State) (core k : Nat) : Timeline := (s.core core).tl.toList.getD k Timeline.reset

/-- The number that the next operation takes. -/
def State.nextNumber (s : State) (core k : Nat) : Nat := (s.timeline core k).next

/-- Takes the next number; the core keeps the status of the last 256 (R264, R282, R333). -/
def State.takeNumber (s : State) (core k : Nat) : State :=
  let n := s.nextNumber core k
  let add (old : List OpStatus) : List OpStatus :=
    (old.filter fun x => decide (n < x.num + 256)) ++ [{ num := n, hi := 0, lo := 0 }]
  s.updCore core fun c =>
    { c with tl := c.tl.setIfInBounds k { s.timeline core k with next := n + 1 },
             stats := c.stats.setIfInBounds k (add (c.stats.toList.getD k [])) }

/-- Records the status words of a number; pend and expired are read elsewhere. -/
def State.setStatus (s : State) (core k num : Nat) (hi lo : Word) : State :=
  let put (x : OpStatus) : OpStatus := { x with hi := hi, lo := lo }
  s.updCore core fun c =>
    { c with stats := c.stats.setIfInBounds k (updateWhere (fun x => x.num == num) put (c.stats.toList.getD k [])) }

/-- Whether a hold waits for a number of a timeline that has retired (R309). -/
def Hold.reached (h : Hold) (k retired : Nat) : Bool := match h with
  | .tlwait tl n => tl == k && decide (n ≤ retired)
  | _ => false

/-- R309: the threads of a core whose number has retired go on; their return is an acquire (R183). -/
def State.liftTlwait (s : State) (core k : Nat) : State :=
  let retired := (s.timeline core k).retired
  let here (w : Workgroup) : Bool := w.core == core && w.place == .resident
  let lifts (t : Thread) : Bool := t.hold.any (·.reached k retired)
  if s.wgs.any fun w => here w && w.threads.any lifts then
    ({ s with wgs := updateWhere here (fun w => { w with threads := updateWhere lifts (·.lift s.time) w.threads }) s.wgs }).orderActions
      core 1 2
  else s

/-- R293, R313: an operation that has completed is kept until its number retires. -/
def State.retireOps (s : State) (core k : Nat) : State :=
  let gone (c num : Nat) (st : Stage4) : Bool := c == core && st == .done && decide (num ≤ (s.timeline core k).retired)
  match k with
  | 0 => { s with copies := s.copies.filter fun x => !gone x.core x.num x.stage }
  | 1 => { s with rows := s.rows.filter fun (x : RowOp) => !gone x.core x.num x.stage }
  | _ => { s with tiers := s.tiers.filter fun x => !gone x.core x.num x.stage }

/-- A number completes and retires in its turn. -/
def State.completeNumber (s : State) (core k num : Nat) : State :=
  (s.updCore core fun c => { c with tl := c.tl.setIfInBounds k ((s.timeline core k).complete num) }).retireOps core k |>.liftTlwait core k

/-- R264, R282, R333: the two status words of a number as they stand, low then high: expired is bit 18 for copies and 19
otherwise, and pend the bit below it. -/
def State.statusOf (s : State) (core k : Nat) (num : DWord) : Word × Word :=
  let expired := if k = 0 then 18 else 19
  match ((s.core core).stats.toList.getD k []).find? fun x => x.num == num.toNat with
  | some x => (x.lo ||| (if (s.timeline core k).retired < x.num then 1#32 <<< (expired - 1) else 0), x.hi)
  | none => (1#32 <<< expired, 0)

/-! ## Releases before a command (R174, R182) -/

/-- R182: whether a pending operation is a release at .die or wider, or a FENCE with a release part still to act. -/
def PendingOp.releases (y : PendingOp) : Bool := match y.kind with
  | .fence _ rel _ _ => rel
  | k => k.foot.any fun f => isRelease f.order && f.scope != 0

/-- R174, R182: whether a command that some threads issued at a moment waits: it carries a release and an earlier access has
not performed, or an earlier release of theirs has not. -/
def State.commandWaits (s : State) (core order scope before : Nat) (mine : TRef → Bool) : Bool :=
  (isRelease order && s.owes core (max scope 1) before mine)
    || s.ops.any fun y => decide (y.id < before) && y.who.any mine && y.releases

/-- The same for the threads of a warp. -/
def State.warpCommandWaits (s : State) (order scope wg warp before : Nat) : Bool :=
  s.commandWaits (s.coreOf wg) order scope before fun r => r.wg == wg && r.warp == warp

/-- R172, R182: the cache action of a command's release: what its issuer has stored reaches L2, at any scope. -/
def State.commandActions (s : State) (core order scope : Nat) : State :=
  s.orderActions core (if isRelease order then 2 else 0) (max scope 1)

end Sys2Proof.Machine
end

