-- ==== Sys2Proof/Machine/Matrix.lean ====
section
/-!
DEFINITION. Matrix instructions and the gang, major 0x28: GANG, the rendezvous, the matrix engine and its faults
(10_matrix R220 to R238). The tile words are in Tile.lean.
-/

namespace Sys2Proof.Machine

/-! ## Tiles (R220) -/

/-- The word that a list of nonzero cells holds at a key. -/
def cellGet : List (Nat × Word) → Nat → Word
  | [], _ => 0
  | (k, x) :: r, a => if k = a then x else cellGet r a

/-- Writing a cell keeps the keys rising and lists no zero. -/
def cellSet : List (Nat × Word) → Nat → Word → List (Nat × Word)
  | [], a, x => if x = 0 then [] else [(a, x)]
  | (k, y) :: r, a, x =>
    if a < k then if x = 0 then (k, y) :: r else (a, x) :: (k, y) :: r
    else if a = k then if x = 0 then r else (a, x) :: r
    else (k, y) :: cellSet r a x

def tileKey (tile row col : Nat) : Nat := tile * 16384 + row * 128 + col

def Workgroup.tileGet (w : Workgroup) (tile row col : Nat) : Word := cellGet w.tiles (tileKey tile row col)

def Workgroup.tileSet (w : Workgroup) (tile row col : Nat) (x : Word) : Workgroup :=
  { w with tiles := cellSet w.tiles (tileKey tile row col) x }

/-! ## Gangs (R222, R231, R236) -/

def gangSize (x : BitVec 32) : Nat := field x 22 20
def gangPos (x : BitVec 32) : Nat := field x 24 23
def gangMember (x : BitVec 32) (j : Nat) : Nat := field x (5 * j + 4) (5 * j)
def gangMembers (x : BitVec 32) : List Nat := (List.range (gangSize x)).map (gangMember x)

/-- A gang's name: its size and list. -/
def gangKey (x : BitVec 32) : Nat := x.toNat % 2 ^ 23

def Gang.blank (key : Nat) : Gang :=
  { key := key, steps := 0, pend := false, tile := 0, kbc := 0, held := none, arrivals := [], latch := [],
    waiting := [], report := none, answered := true }

def Workgroup.gang (w : Workgroup) (key : Nat) : Gang := (w.gangs.find? (·.key == key)).getD (Gang.blank key)

def Workgroup.updGang (w : Workgroup) (key : Nat) (f : Gang → Gang) : Workgroup :=
  if w.gangs.any (·.key == key) then { w with gangs := updateWhere (fun x => x.key == key) f w.gangs }
  else { w with gangs := w.gangs ++ [f (Gang.blank key)] }

def State.updGang (s : State) (wg key : Nat) (f : Gang → Gang) : State := s.updWg wg fun w => w.updGang key f

/-- R236: %mprog. -/
def Gang.mprog (x : Gang) : Word :=
  BitVec.ofNat 32 (x.pend.toNat * 128 + x.tile % 8 * 16 + x.kbc % 4 * 4 + x.steps % 4)

/-- %gang of a warp. -/
def State.gangOf (s : State) (wg warp : Nat) : BitVec 32 := ((s.warp? wg warp).map (·.gang)).getD 0

/-- %mprog of the thread's gang; 0 outside a gang. -/
def State.mprogOf (s : State) (r : TRef) : Word :=
  let x := s.gangOf r.wg r.warp
  if gangSize x = 0 then 0 else ((s.wg? r.wg).map fun w => (w.gang (gangKey x)).mprog).getD 0

/-- The fault of a matrix word (R368: it records %mprog). -/
def State.raiseMatrix (s : State) (r : TRef) (d : FaultDetail) (site : Site) : State :=
  s.raise r { d with mprog := (s.mprogOf r).toNat } site

def State.raiseMatrixAll (s : State) (rs : List TRef) (d : FaultDetail) (site : Site) : State :=
  rs.foldl (fun s r => s.raiseMatrix r d site) s

def State.ownsTiles (s : State) (wg : Nat) : Bool := ((s.wg? wg).map (·.ownsTiles)).getD false

/-- R223: the new %gang of a warp, or none for GANG. -/
def newGang (w : Workgroup) (warp g : Nat) (l : DWord) : Option (BitVec 32) :=
  let list := field l 19 0
  let ms := (List.range g).map fun j => list / 32 ^ j % 32
  let isMatrix (m : Nat) : Bool := (w.warp? m).any fun x => x.role == 2
  if list / 32 ^ g != 0 || (distinct ms).length != g || !ms.all isMatrix then none
  else (ms.findIdx? (· == warp)).map fun pos => BitVec.ofNat 32 (list + g * 2 ^ 20 + pos * 2 ^ 23)

/-- One warp executes GANG. -/
def State.formGang (s : State) (wg warp : Nat) (x : BitVec 32) : State :=
  s.updWg wg fun w =>
    let old := ((w.warp? warp).map (·.gang)).getD 0
    let drop (y : Gang) : Gang := if y.key == gangKey old || y.key == gangKey x then { y with held := none } else y
    let restart (t : Thread) : Thread := if t.warp == warp then { t with products := 0 } else t
    { w.updWarp warp (fun v => { v with gang := x }) with gangs := w.gangs.map drop, threads := w.threads.map restart }

/-- GANG (R223). -/
def execGang (o : GangFArgs) (s : State) : Answer :=
  let acts (t : Thread) : Bool := t.guard o.guard false
  issue {} [] noFill noHold
    (fun g s => s.eachWarp g acts fun w rs s =>
      if !s.anyLive rs then s
      else if !s.ownsTiles w.1 then s.raiseMatrixAll rs { code := codeGang } (g.site g.pc)
      else if o.g = 0 then s.formGang w.1 w.2 0
      else match (s.wg? w.1).bind fun v =>
          newGang v w.2 o.g.toNat (s.warpReg { wg := w.1, warp := w.2, lane := 0 } o.wm.toNat) with
        | some x => s.formGang w.1 w.2 x
        | none => s.raiseMatrixAll rs { code := codeGang } (g.site g.pc)) s

/-! ## Operands (R227 to R230) -/

def ctlAfmt (c : DWord) : Nat := field c 3 0
def ctlBfmt (c : DWord) : Nat := field c 7 4
def ctlRq (c : DWord) : Nat := field c 11 10
def ctlRing (c : DWord) : Nat := field c 16 14
def ctlSlot (c : DWord) : Nat := field c 20 17
def ctlPitch (c : DWord) : Nat := field c 63 32

/-- A registers per K-block. -/
def aRegs (fmt : Nat) : Nat := if fmt ≤ 1 then 16 else if fmt ≤ 3 then 8 else if fmt = 4 then 9 else 5

/-- B bytes per column and k-step. -/
def bBytes (fmt : Nat) : Nat := if fmt ≤ 1 then 64 else if fmt ≤ 5 then 32 else if fmt ≤ 7 then 16 else 8

/-- Blocks per column and k-step. -/
def bBlocks (fmt : Nat) : Nat := if fmt ≤ 3 then 0 else if fmt % 2 = 0 then 1 else 2

/-- The page format that B must have (R230). -/
def bPage (fmt : Nat) : Nat := fmt - 3

/-- R227: a control value that is accepted, for func 1 MMAS or 2 MMAG and a gang of g. -/
def ctlOk (func g : Nat) (c : DWord) : Bool :=
  [0, 1, 2, 3, 4, 6].contains (ctlAfmt c) && decide (ctlBfmt c ≤ 9) && field c 31 21 == 0 && field c 13 12 == 0
    && field c 9 8 == 0 && decide (ctlRq c + g ≤ 4)
    && (if func = 1 then ctlPitch c == 0 else ctlRing c == 0 && ctlSlot c == 0)

/-- The entries of an SB A row that fail R198. -/
def badEntry (afmt kb : Nat) (regs : List Word) : Bool :=
  (afmt == 4 || afmt == 6) && (List.range kb).any fun b =>
    !entryValid ((regs.getD (b * aRegs afmt) 0).setWidth 16)

/-- R229: bytes that the layout of a slot needs. -/
def slotNeed (bfmt kb : Nat) : Nat := 128 * kb * bBytes bfmt + 128 * kb * bBlocks bfmt * 2

/-- R229: where the slot lies in the scratchpad, if the ring and slot serve. -/
def Workgroup.slotBase (w : Workgroup) (ring slot need : Nat) : Option Nat :=
  match w.rings.toList.getD ring none with
  | some q => if slot < q.n ∧ need ≤ q.slotBytes then some (q.base + slot * q.slotBytes) else none
  | none => none

/-! ## Issue of a matrix-product word (R224, R234) -/

def kBlocks (kbc : Nat) : Nat := 2 ^ kbc

/-- Checks 2 and 3 of R234 for a thread, and R220. R227's recorded word address is %fpc; %faddr stays 0 (DEDUCED, log 16). -/
def productFault (func : Nat) (owns : Bool) (gang : BitVec 32) (c : DWord) : Option (BitVec 8) :=
  if !ctlOk func (gangSize gang) c then some codeIllegalEncoding
  else if gangSize gang = 0 || !owns then some codeGang
  else none

/-- Checks 5 and 6 of R234. -/
def bFault (w : Workgroup) (func kb : Nat) (c p : DWord) : Option FaultDetail :=
  let bk := bBytes (ctlBfmt c)
  if func = 1 then
    if (w.slotBase (ctlRing c) (ctlSlot c) (slotNeed (ctlBfmt c) kb)).isNone then some { code := codeRingState } else none
  else if p.toNat ≥ 2 ^ 57 then some { code := codeProtection, addr := p }
  else if p.toNat % bk != 0 then some { code := codeAlign, addr := p }
  else if ctlPitch c % bk != 0 then some { code := codeAlign, addr := p }
  else none

/-- R234: the A registers that a thread's issue of the word reads, none where an earlier check faults. -/
def State.productRegs (s : State) (func : Nat) (o : MmaArgs) (r : TRef) : List Nat :=
  match s.wg? r.wg with
  | none => []
  | some w =>
    let gang := s.gangOf r.wg r.warp
    let c := s.warpReg r o.wc.toNat
    let regs := if (w.gang (gangKey gang)).held.isSome then []
      else regBlock o.va.toNat (kBlocks o.kbc.toNat * aRegs (ctlAfmt c))
    if (productFault func w.ownsTiles gang c).isSome || regs.any fun n => decide (min (s.budget r) 64 ≤ n) then []
    else regs

/-- R141: the A registers of the members that feed a row. -/
def State.fillProducts (s : State) (g : Group) (func : Nat) (o : MmaArgs) : State :=
  (s.active g).foldl (fun s r => match s.thread? r with
    | some t => if t.guard o.guard false && t.status == .live && t.cold != 0 && t.late.isNone then
        (s.productRegs func o r).foldl (fun s n => s.fillReg g r n) s else s
    | none => s) s

/-- A thread with a late fault parks at the rendezvous that it reaches; it has not issued the word (R235, R243). -/
def Thread.parkAtWord (t : Thread) (d : Late) (site : Site) : Thread :=
  let at_ : Site := { site with pc := d.pc.getD site.pc, next := site.resume, nextIn := site.resumeIn }
  { (t.subFlags d.flags).raise { code := d.code, addr := d.addr, mprog := d.mprog, gen := d.gen } at_ with
    late := none, raised := some d.raised, entry := if isSystemCode d.code then .gang else .pending }

def State.parkAtRendezvous (s : State) (r : TRef) (t : Thread) (d : Late) (site : Site) : State :=
  (s.updThread r fun t => t.parkAtWord d site).updWg r.wg fun w =>
    { w with gangs := w.gangs.map (·.noteParked [(r, d.gang, t.inh)]) }

/-- One thread issues the word: its checks, then its arrival. -/
def State.sendProduct (s : State) (g : Group) (func : Nat) (o : MmaArgs) (r : TRef) : State :=
  match s.wg? r.wg, s.thread? r with
  | some w, some t =>
    let gang := s.gangOf r.wg r.warp
    let c := s.warpReg r o.wc.toNat
    let p := s.warpReg r (o.wc.toNat + 1)
    let kb := kBlocks o.kbc.toNat
    let key := gangKey gang
    let on := t.guard o.guard false
    let site := g.site g.pc
    if (w.gangs.any fun x => x.arrivals.any fun a => a.who == r) then s
    else match t.late.filter (·.gang.isSome) with
    | some d => s.parkAtRendezvous r t d site
    | none => match productFault func w.ownsTiles gang c with
    | some code => s.raiseMatrix r { code := code } site
    | none =>
      let regs := if (w.gang key).held.isSome then [] else regBlock o.va.toNat (kb * aRegs (ctlAfmt c))
      match regs.find? fun n => decide (min (s.budget r) 64 ≤ n) with
      | some n => s.raiseMatrix r { code := codeRegRange, reg := n } site
      | none =>
        let feeds := on && t.status == .live
        let row := if feeds then regs.map t.reg else []
        if feeds && regs != [] && badEntry (ctlAfmt c) kb row then s.raiseMatrix r { code := codeSelCheck } site
        else match bFault w func kb c p with
          | some d => s.raiseMatrix r d site
          | none =>
            let base := (w.slotBase (ctlRing c) (ctlSlot c) (slotNeed (ctlBfmt c) kb)).getD 0
            let a : Arrival :=
              { who := r, row := 32 * gangPos gang + r.lane, guard := on, func := func,
                tile := o.tile.toNat, keep := o.keep, kbc := o.kbc.toNat, control := c,
                bAddr := if func = 1 then BitVec.ofNat 64 base else p, gang := gang, regs := row,
                flag := if on then g.flagOf o.fs else none, since := s.time, group := g.id, site := site,
                n := t.products + 1 }
            (s.updThread r fun t => { t with products := t.products + 1 }).updGang r.wg key fun x =>
              { x with arrivals := x.arrivals ++ [a] }
  | _, _ => s

/-- Whether a member of a group has issued its word and waits at the rendezvous (R225). -/
def State.inRendezvous (s : State) (id : Nat) : Bool :=
  s.wgs.any fun w => w.gangs.any fun x => x.arrivals.any fun a => a.group == id

/-- Whether the group has issued its matrix-product word. -/
def State.hasSent (s : State) (id : Nat) : Bool := (s.groups.find? (·.id == id)).any (·.sent)

/-- A matrix-product word: it issues once, when its flags have room and its releases have acted: with order release its own,
and before MMAG, whose B the engine reads, an earlier one (R182, R230); then its group holds until the rendezvous accepts
(R225). -/
def productWord (func : Nat) (o : MmaArgs) (s : State) : Answer :=
  let acts (t : Thread) : Bool := t.guard o.guard false
  let rule : WordRule := { prefixKind := .mem, orders := [0, 2] }
  let blocked (g : Group) (s : State) : Bool :=
    flagFull o.fs acts g s || ((func == 2 || isRelease g.order)
      && s.commandWaits g.core g.order g.scope s.nextId (s.active g).contains)
  issue rule []
    (fun g s =>
      if s.hasSent g.id || blocked g s then s
      else
        let s := (s.commandActions g.core g.order g.scope).fillProducts g func o
        if (s.groups.find? (·.id == g.id)).any (·.held) then s
        else ((s.active g).foldl (fun s r => s.sendProduct g func o r) s).updGroup g.id fun x => { x with sent := true })
    (fun g s => !s.hasSent g.id || s.inRendezvous g.id)
    (fun _ s => s) s

/-- MMAS (R229, R234). -/
def execMmas (o : MmaArgs) (s : State) : Answer := productWord 1 o s

/-- MMAG (R230, R234). -/
def execMmag (o : MmaArgs) (s : State) : Answer := productWord 2 o s

/-! ## The rendezvous (R224 to R226, R231) -/

/-- The arrivals of every gang of a workgroup from the warps of a list. -/
def Workgroup.arrivalsOf (w : Workgroup) (ms : List Nat) : List Arrival :=
  (w.gangs.flatMap (·.arrivals)).filter fun a => ms.contains a.who.warp

/-- R224: every thread of the member warps that has not exited has issued its n-th word. -/
def Workgroup.allArrived (w : Workgroup) (ms : List Nat) (n : Nat) : Bool :=
  (w.threads.filter fun t => ms.contains t.warp && t.status != .exited).all fun t =>
    (w.arrivalsOf ms).any fun a => a.who == t.ref w.id && a.n == n

/-- R226: two arrivals that do not agree. -/
def Arrival.differs (a b : Arrival) : Bool :=
  a.func != b.func || a.tile != b.tile || a.keep != b.keep || a.kbc != b.kbc || a.control != b.control
    || (a.func == 2 && a.bAddr != b.bAddr) || gangKey a.gang != gangKey b.gang

/-- R231: held rows that the operation's format or length does not fit. -/
def Gang.heldDiffers (x : Gang) (a : Arrival) : Bool :=
  match x.held with
  | some (afmt, kb, _) => afmt != ctlAfmt a.control || kb != kBlocks a.kbc
  | none => false

/-- Drops arrivals from every gang of a workgroup. -/
def Workgroup.dropArrivals (w : Workgroup) (rs : List TRef) : Workgroup :=
  { w with gangs := w.gangs.map fun x => { x with arrivals := x.arrivals.filter fun a => !rs.contains a.who } }

/-- R226: the rendezvous fails: every thread that has issued faults GANG at the word and has not issued it. -/
def State.failRendezvous (s : State) (wg : Nat) (as : List Arrival) : State :=
  let s := s.updWg wg fun w => w.dropArrivals (as.map (·.who))
  let s := as.foldl (fun s a =>
    (s.updThread a.who fun t => { t with products := t.products - 1 }).raiseMatrix a.who { code := codeGang } a.site) s
  (distinct (as.map (·.group))).foldl (fun s id => s.settle id) s.wakeGroups

/-- The accepted operations of a gang that have not completed. -/
def State.gangOps (s : State) (wg key : Nat) : List MatOp :=
  (s.core (s.coreOf wg)).matrix.filter fun x => x.wg == wg && x.gang == key

/-- R224, R225: the operation that a gang's arrivals make, with its A rows; while rows are held every row is the latch's, a
guard-false thread's and a helper's too (R231; DEDUCED, log 16). -/
def Gang.operation (x : Gang) (wg id : Nat) (as : List Arrival) (a : Arrival) : MatOp :=
  let live := as.filter fun a => a.regs != []
  { id := id, wg := wg, gang := x.key, func := a.func, tile := a.tile, keep := a.keep, kbc := a.kbc,
    control := a.control, bAddr := ((as.find? (·.guard)).getD a).bAddr,
    rows := match x.held with
      | some h => h.2.2
      | none => live.map fun a => (a.row, a.regs),
    issuers := as, first := 0, running := false, finished := false, again := false }

/-- R225: acceptance: flags rise, the latch keeps the rows, the engine gets the operation, the groups go on. -/
def State.acceptProduct (s : State) (wg : Nat) (x : Gang) (as : List Arrival) (a : Arrival) : State :=
  let op := x.operation wg s.nextId as a
  let s := as.foldl (fun s a => if a.guard then s.updThread a.who fun t => t.addFlag a.flag else s) s
  let s := s.updWg wg fun w => w.dropArrivals (as.map (·.who))
  let s := s.updGang wg x.key fun y =>
    { y with held := if a.keep then some (ctlAfmt a.control, kBlocks a.kbc, op.rows) else none }
  let s := s.updCore (s.coreOf wg) fun c => { c with matrix := c.matrix ++ [op] }
  { s with nextId := s.nextId + 1 }.wakeGroups

/-- What a rendezvous comes to now. -/
inductive Meeting where
  | open_
  | fails (as : List Arrival)
  | accepts (as : List Arrival) (a : Arrival)

def State.meeting (s : State) (w : Workgroup) (key : Nat) : Meeting :=
  let x := w.gang key
  match x.arrivals with
  | [] => .open_
  | a :: _ =>
    let ms := gangMembers (BitVec.ofNat 32 key)
    let as := w.arrivalsOf ms
    if !w.allArrived ms a.n then .open_
    else if as.any (·.differs a) || x.heldDiffers a then .fails as
    else if x.pend || decide ((s.gangOps w.id key).length ≥ 2) then .open_
    else .accepts as a

/-- RENDEZVOUS_ACCEPT (R224 to R226, R231). -/
def execRendezvousAccept (wg gang : Nat) (s : State) : Answer :=
  match s.wg? wg with
  | none => .next s
  | some w => match s.meeting w gang with
    | .open_ => .next s
    | .fails as => .next (s.failRendezvous wg as)
    | .accepts as a => .next (s.acceptProduct wg (w.gang gang) as a)

/-- R226: the limit since the first arrival has passed. -/
def State.rendezvousLate (s : State) (w : Workgroup) (key : Nat) : Bool :=
  w.colto != 0 && (w.gang key).arrivals.any fun a => decide (a.since + clkOfTicks w.colto ≤ s.time)

/-- RENDEZVOUS_TIMEOUT (R226). -/
def execRendezvousTimeout (wg gang : Nat) (s : State) : Answer :=
  match s.wg? wg with
  | none => .next s
  | some w =>
    if s.rendezvousLate w gang then
      .next (s.failRendezvous wg (w.arrivalsOf (gangMembers (BitVec.ofNat 32 gang))))
    else .next s

/-! ## Accumulation (R232) -/

/-- Element i of the 32 of one k-step: a plain format, or blocks with their entries. -/
def stepElem (fmt : Nat) (data : List Byte) (entries : List (BitVec 16)) (i : Nat) : FVal :=
  let half : Nat := (data.getD (2 * i) 0).toNat + 256 * (data.getD (2 * i + 1) 0).toNat
  match fmt with
  | 0 => fp16.decode half
  | 1 => bf16.decode half
  | 2 => codeValue 8 1 (data.getD i 0).toNat
  | 3 => codeValue 8 2 (data.getD i 0).toNat
  | _ =>
    let f := bPage fmt
    let h := i / blockLen f
    decodeElem f (data.drop (h * blockBytes f)) (entries.getD h 0) (i % blockLen f)

/-- The bytes of registers, v[n] byte 0 first. -/
def regListBytes (regs : List Word) : List Byte := regs.flatMap fun x => leBytes 4 x.toNat

/-- R228: the 32 elements of K-block b of a row. -/
def aStep (afmt : Nat) (regs : List Word) (b : Nat) : List FVal :=
  let k := aRegs afmt
  let bytes := regListBytes ((regs.drop (b * k)).take k)
  let sb := afmt ≥ 4
  let entry := BitVec.ofNat 16 (ofLe (bytes.take 2))
  (List.range 32).map (stepElem afmt (if sb then bytes.drop 4 else bytes) [entry])

/-- A term truncated toward zero to a multiple of 2^q. -/
def truncTo (q : Int) : FVal → Int
  | .fin neg m e =>
    let x : Nat := if q ≤ e then m * 2 ^ (e - q).toNat else m / 2 ^ (q - e).toNat
    if neg then -(x : Int) else x
  | _ => 0

/-- KStep of R232. -/
def kStep (terms : List FVal) : Word :=
  let has (neg : Bool) : Bool := terms.any fun t => t == .inf neg
  if terms.any (·.isNan) || (has true && has false) then nan32
  else if has false then inf32
  else if has true then inf32 ||| signMask
  else
    let tops := terms.filterMap fun t => match t with
      | .fin _ m e => if m = 0 then none else some (log2Floor m e)
      | _ => none
    match tops with
    | [] => 0
    | x :: xs =>
      let q := xs.foldl max x - 47
      let sum := terms.foldl (fun a t => a + truncTo q t) 0
      if sum = 0 then 0 else BitVec.ofNat 32 (fp32.round 0 (.fin (decide (sum < 0)) sum.natAbs q)).1

/-- One k-step of one tile element. -/
def accumulate (acc : Word) (a b : List FVal) : Word := kStep (f32 acc :: List.zipWith (fun x y => (x.mul y).1) a b)

/-- The zero row. -/
def zeroRow : List FVal := List.replicate 32 (.fin false 0 0)

/-- One k-step on every fed row and every column. -/
def Workgroup.kStepTile (w : Workgroup) (op : MatOp) (step : Nat) (cols : List (List FVal)) : Workgroup :=
  let first := 32 * ctlRq op.control
  (List.range (32 * gangSize (BitVec.ofNat 32 op.gang))).foldl (fun w i =>
    let row := first + i
    let a := match op.rows.find? (·.1 == i) with
      | some r => aStep (ctlAfmt op.control) r.2 step
      | none => zeroRow
    (cols.mapIdx fun n b => (n, b)).foldl (fun w c =>
      w.tileSet op.tile row c.1 (accumulate (w.tileGet op.tile row c.1) a c.2)) w) w

/-! ## B (R229, R230, R235) -/

/-- What fetching one column, or all columns, of a k-step gives. -/
inductive Fetched where
  | cols (s : State) (cs : List (List FVal))
  | waits (s : State)
  | fault (s : State) (d : FaultDetail)

/-- R229: column n of k-step `step` from a slot. DESIGN CHOICE (assumption log 16): the address of an invalid entry's
SEL_CHECK is the entry's byte in the scratchpad; the spec names none. -/
def slotColumn (scratch : List Host.Cell) (op : MatOp) (step n : Nat) : Except FaultDetail (List FVal) :=
  let bfmt := ctlBfmt op.control
  let kb := kBlocks op.kbc
  let base := op.bAddr.toNat
  let i := n * kb + step
  let entryAt (h : Nat) : Nat := base + 128 * kb * bBytes bfmt + (i * bBlocks bfmt + h) * 2
  let entry (h : Nat) : BitVec 16 := BitVec.ofNat 16 (ofLe (Memory.getBytes scratch (entryAt h) 2))
  match (List.range (bBlocks bfmt)).find? fun h => !entryValid (entry h) with
  | some h => .error { code := codeSelCheck, addr := BitVec.ofNat 64 (entryAt h) }
  | none =>
    let data := Memory.getBytes scratch (base + i * bBytes bfmt) (bBytes bfmt)
    .ok ((List.range 32).map (stepElem bfmt data ((List.range (bBlocks bfmt)).map entry)))

/-- The entries of the blocks of an MMAG column. -/
def State.bEntries (s : State) (who : List Nat) (core part : Nat) (l : Leaf) (va : Nat) :
    List Nat → List (BitVec 16) → Performed × List (BitVec 16)
  | [], acc => (.done s [] true, acc)
  | h :: hs, acc =>
    let a := entryAddress l (va + h * blockBytes l.format)
    match metaFault l va, s.engineRead who core part a.toNat 2 (· == 0) with
    | some d, _ => (.fault s { d with addr := a }, acc)
    | none, .done s bs _ =>
      let e := BitVec.ofNat 16 (ofLe bs)
      if entryValid e then s.bEntries who core part l va hs (acc ++ [e])
      else
        let gen := ((s.findLeaf core part a.toNat).toOption.map (·.gen)).getD 0
        (.fault s { code := codeSelCheck, addr := a, gen := gen }, acc)
    | none, other => (other, acc)

/-- R230: column n of k-step `step` from memory; its entries are read before its data (R198). -/
def State.memColumn (s : State) (core part : Nat) (op : MatOp) (step n : Nat) : Fetched :=
  let bfmt := ctlBfmt op.control
  let who := engineAgent 3 core op.id
  let va := op.bAddr + BitVec.ofNat 64 (n * ctlPitch op.control + step * bBytes bfmt)
  match s.engineLeaf core part va { r := true } (· == bPage bfmt) with
  | .error d => .fault s d
  | .ok l => match s.bEntries who core part l va.toNat (List.range (bBlocks bfmt)) [] with
    | (.fault s d, _) => .fault s d
    | (.waits s, _) => .waits s
    | (.done s _ _, es) => match s.engineRead who core part va.toNat (bBytes bfmt) (· == bPage bfmt) with
      | .fault s d => .fault s d
      | .waits s => .waits s
      | .done s data _ => .cols s [(List.range 32).map (stepElem bfmt data es)]

/-- All columns of a k-step, in ascending order; every byte and entry is checked before the k-step. -/
def State.fetchColumns (s : State) (core part : Nat) (op : MatOp) (step : Nat) : List Nat → List (List FVal) → Fetched
  | [], acc => .cols s acc
  | n :: ns, acc =>
    if op.func = 1 then
      match slotColumn (((s.wg? op.wg).map (·.scratch)).getD []) op step n with
      | .error d => .fault s d
      | .ok c => s.fetchColumns core part op step ns (acc ++ [c])
    else match s.memColumn core part op step n with
      | .cols s cs => s.fetchColumns core part op step ns (acc ++ cs)
      | other => other

def State.fetchStep (s : State) (core : Nat) (op : MatOp) (step : Nat) : Fetched :=
  s.fetchColumns core (s.partOf op.wg) op step (List.range 128) []

/-! ## The engine (R233, R236 to R238) -/

/-- The running operation of a core whose k-steps are not all done. -/
def State.runningProduct (s : State) (core : Nat) : Option MatOp :=
  (s.core core).matrix.find? fun x => x.running && !x.finished

/-- R238: an operation accepted earlier on the tile has not taken effect; an interrupted one is another matter (latched). -/
def State.tileBusy (s : State) (wg tile id : Nat) : Bool :=
  (s.ops.any fun o => decide (o.id < id) && (o.who.map (·.wg)).headD wg == wg && match o.kind with
    | .tile _ t _ _ _ => t == tile
    | _ => false)
  || (s.core (s.coreOf wg)).matrix.any fun x => decide (x.id < id) && x.wg == wg && x.tile == tile && !x.finished

/-- The threads that issued a gang's interrupted operation or one cancelled with it. -/
def Gang.latchIssuers (x : Gang) : List TRef := distinct (x.latch.flatMap fun o => o.issuers.map (·.who))

/-- R379: a parked thread's record comes before those of an interrupted operation's issuers. -/
def State.recordAhead (s : State) (w : Workgroup) (x : Gang) (t : Thread) : Bool :=
  w.owesRecord t && ((x.report.any fun d => decide (s.raisedAt t ≤ d.1.raised))
    || x.latchIssuers.any fun r => (s.thread? r).any fun u =>
      u.status != .exited && decide (s.raisedAt t ≤ (u.late.map (·.raised)).getD (s.raisedAt u)))

/-- DEDUCED (assumption log 16): the re-issue of an interrupted operation waits for the trap entry of this thread, an issuer's
(R235), one whose record comes first (R379) or one that the watchdog stopped (R381); that entry waits for the thread's own
operations (R370), which therefore do not wait for the re-issue. -/
def State.goesPast (s : State) (w : Workgroup) (x : Gang) (r : TRef) : Bool :=
  (s.thread? r).any fun t =>
    t.isParked && (t.watchdog.isSome || x.latchIssuers.contains r || s.recordAhead w x t)

/-- R238: an operation of some threads waits for one that was accepted earlier on the tile and is interrupted, or was
cancelled with such a one (R235); not where it must complete first: before a save or a flush (R36), or for a trap entry. -/
def State.latched (s : State) (wg tile id : Nat) (who : List TRef) : Bool :=
  (s.wg? wg).any fun w => w.runs && w.gangs.any fun x =>
    (x.latch.any fun y => y.tile == tile && decide (y.id < id)) && !who.any (s.goesPast w x)

/-- R238: a tile word waits for the operations accepted before it. -/
def State.tileWaits (s : State) (wg tile : Nat) (o : PendingOp) : Bool :=
  s.tileBusy wg tile o.id || s.latched wg tile o.id o.who

def State.updMatOp (s : State) (core id : Nat) (f : MatOp → MatOp) : State :=
  s.updCore core fun c => { c with matrix := updateWhere (fun x => x.id == id) f c.matrix }

/-- MATRIX_OP_START (R233, R236): the oldest operation that has not started, when none is running; behind an interrupted one
on its tile it waits (R238). -/
def execMatrixOpStart (core : Nat) (s : State) : Answer :=
  if (s.runningProduct core).isSome then .next s
  else match (s.core core).matrix.find? fun x => !x.running with
    | none => .next s
    | some op =>
      if s.latched op.wg op.tile op.id (op.issuers.map (·.who)) then .next s
      else .next ((s.updMatOp core op.id fun x => { x with running := true }).updGang op.wg op.gang fun x =>
        { x with steps := op.first, tile := op.tile, kbc := op.kbc })

/-- MATRIX_K_STEP (R232): enabled when the fetch of the step succeeds and the tile is free (R238). -/
def execMatrixKStep (core : Nat) (s : State) : Answer :=
  match s.runningProduct core with
  | none => .next s
  | some op =>
    let step := op.first
    if s.tileBusy op.wg op.tile op.id then .next s
    else match s.fetchStep core op step with
      | .fault _ _ => .next s
      | .waits s => .next s
      | .cols s cols =>
        let s := s.updWg op.wg fun w => w.kStepTile op step cols
        let s := s.updGang op.wg op.gang fun x => { x with steps := step + 1 }
        .next (s.updMatOp core op.id fun x => { x with first := step + 1, finished := decide (step + 1 ≥ kBlocks op.kbc) })

/-- MATRIX_OP_COMPLETE (R225, R233, R236): the oldest finished operation; its flags fall. %mprog then shows the
operation of the gang that runs now, if any; an interrupted operation's re-issue clears pend (R237). -/
def execMatrixOpComplete (core : Nat) (s : State) : Answer :=
  match (s.core core).matrix.find? (·.finished) with
  | none => .next s
  | some op =>
    let s := op.issuers.foldl (fun s a => if a.guard then s.updThread a.who fun t => t.subFlag a.flag else s) s
    let s := s.updCore core fun c => { c with matrix := c.matrix.filter (·.id != op.id) }
    let current := (s.gangOps op.wg op.gang).any (·.running)
    .next (s.updGang op.wg op.gang fun x =>
      let pend := x.pend && !(op.again && x.latch == [])
      if current || pend then { x with pend := pend } else { x with pend := pend, steps := 0, tile := 0, kbc := 0 })

/-! ## Faults of B fetches (R235) -/

/-- The issuing threads of some operations that have not exited. -/
def State.issuersOf (s : State) (ops : List MatOp) : List TRef :=
  (distinct (ops.flatMap fun o => o.issuers.map (·.who))).filter fun r =>
    (s.thread? r).any fun t => t.status != .exited

/-- The flags that a thread's issues of some operations stand in. -/
def flagsOfIssues (ops : List MatOp) (r : TRef) : List (Option Nat) :=
  (ops.flatMap (·.issuers)).filterMap fun a => if a.who == r && a.guard then some a.flag else none

/-- An issuing thread learns of the fault: it parks at its next clause start; one that is parked already loses its flag
counts now. -/
def Thread.takeInterrupt (t : Thread) (d : Late) : Thread :=
  if t.executes then { t with late := some d } else { t with late := some d }.uncountLate

/-- A thread held at the rendezvous of a later word parks there; it has not issued that word. -/
def Thread.leaveRendezvous (t : Thread) (d : Late) (site : Site) : Thread :=
  { t.parkAtWord d site with products := t.products - 1 }

/-- The one record of a gang is queued once every issuing thread that has not exited has parked with its flags at 0
(R235, R370, R378, R379); it shows the first of them, or where none is left the first issuer's warp (log 16). -/
def State.postGang (s : State) (wg key : Nat) : State :=
  match s.wg? wg with
  | none => s
  | some w =>
    match (w.gang key).report with
    | none => s
    | some (d, who) =>
      let live := who.filter fun r => (s.thread? r).any fun t => t.status != .exited
      let ready := live.all fun r => (s.thread? r).any fun t => t.entry == .gang && !s.outstanding w t
      if !ready || !s.recordRoom w.core || !s.recordTurn w.core d.raised then s
      else
        let wmask := BitVec.ofNat 32 ((distinct (live.map (·.warp))).foldl (fun a k => a + 2 ^ k) 0)
        let first := (live ++ (w.gang key).latchIssuers).headD { wg := wg, warp := 0, lane := 0 }
        let info := (((live.head?).bind s.thread?).map (·.finfo)).getD (finfoOf 0 0 d.mprog)
        let rec_ := s.mkRecord w 1 first.warp 0 { code := d.code, addr := d.addr, gen := d.gen } (d.pc.getD 0)
          info wmask false live
        let s := (s.postRecord { rec_ with ref := d.raised / 20, raised := d.raised }).updThreads live fun t => { t with entry := .recorded }
        s.updGang wg key fun x => { x with report := none }

/-- R235: the running operation is interrupted at a k-step. -/
def State.interrupt (s : State) (core : Nat) (op : MatOp) (step : Nat) (d : FaultDetail) : State :=
  let later := (s.core core).matrix.filter fun x => x.wg == op.wg && x.gang == op.gang && !x.running
  let ops := { op with running := false, first := step } :: later
  let s := s.updCore core fun c => { c with matrix := c.matrix.filter fun x => !(ops.any (·.id == x.id)) }
  let rs := s.issuersOf ops
  let s := s.updGang op.wg op.gang fun x =>
    { x with pend := true, steps := step, tile := op.tile, kbc := op.kbc, latch := ops,
             waiting := rs.map fun r => (r, none), answered := rs != [] }
  let mprog := match s.wg? op.wg with
    | some w => (w.gang op.gang).mprog.toNat
    | none => 0
  let late (r : TRef) : Late :=
    { code := d.code, addr := d.addr, reg := 0, mprog := mprog, gen := d.gen,
      pc := (op.issuers.find? (·.who == r)).map (·.site.pc), flags := flagsOfIssues ops r, gang := some op.gang,
      raised := s.time }
  let first := ((op.issuers.map (·.who)).headD { wg := op.wg, warp := 0, lane := 0 })
  let s := s.updGang op.wg op.gang fun x =>
    let d : Late := late first
    { x with report := if isSystemCode d.code || rs == [] then some (d, rs) else none }
  let waits : List Arrival := match s.wg? op.wg with
    | some w => (w.gangs.flatMap fun (x : Gang) => x.arrivals).filter fun a => rs.contains a.who
    | none => []
  let s := s.updWg op.wg fun w => w.dropArrivals (waits.map (·.who))
  let s := waits.foldl (fun s a =>
    match s.thread? a.who with
    | some t =>
      (s.updThread a.who fun t => t.leaveRendezvous (late a.who) a.site).updGang op.wg op.gang fun x =>
        { x with waiting := x.waiting.map fun w => if w.1 == a.who then (w.1, some t.inh) else w }
    | none => s) s
  let gone := waits.map (·.who)
  let s := rs.foldl (fun s r => if gone.contains r then s else s.updThread r fun t => t.takeInterrupt (late r)) s
  let s := (distinct (waits.map (·.group))).foldl (fun s id => s.settle id) s
  (s.applyLate.postGang op.wg op.gang).wakeGroups

/-- B_FETCH_FAULT (R235): enabled when the fetch of the running operation's next step faults. -/
def execBFetchFault (core : Nat) (s : State) : Answer :=
  match s.runningProduct core with
  | none => .next s
  | some op =>
    let step := op.first
    if s.tileBusy op.wg op.tile op.id then .next s
    else match s.fetchStep core op step with
      | .fault s d => .next (s.interrupt core op step d)
      | _ => .next s

/-- R235: an interrupted operation, and those cancelled with it, are given up. -/
def State.abandonGang (s : State) (wg key : Nat) : State :=
  match s.wg? wg with
  | none => s
  | some w =>
    let x := w.gang key
    if x.latch == [] then s
    else
      let resumed := (s.issuersOf x.latch).filter fun r => !(x.waiting.any (·.1 == r))
      let s := resumed.foldl (fun s r => s.updThread r fun t => t.subFlags (flagsOfIssues x.latch r)) s
      s.updGang wg key fun x =>
        { x with pend := false, steps := 0, tile := 0, kbc := 0, latch := [], waiting := [], answered := true }

/-- R235: an issuing thread resumes at its resume point: its flags rise again. `inh`: it was inside a handler when it
parked. -/
def State.issuerResumed (s : State) (r : TRef) (inh : Bool) : State :=
  match s.wg? r.wg with
  | none => s
  | some w =>
    (w.gangs.filter fun x => x.waiting.contains (r, some inh)).foldl (fun s x =>
      (s.updThread r fun t => (flagsOfIssues x.latch r).foldl (fun t f => t.addFlag f) t).updGang r.wg x.key fun x =>
        { x with waiting := x.waiting.filter fun v => v.1 != r }) s

/-- R235: an issuing thread goes elsewhere: its gang's operation is abandoned. -/
def State.issuerLeft (s : State) (r : TRef) (inh : Bool) : State :=
  match s.wg? r.wg with
  | none => s
  | some w => (w.gangs.filter fun x => x.waiting.contains (r, some inh)).foldl (fun s x => s.abandonGang r.wg x.key) s

/-- Whether an interrupted operation of a gang can be issued again. -/
def State.canReissue (s : State) (x : Gang) : Bool :=
  x.latch != [] && x.answered && x.waiting.all fun v => !((s.thread? v.1).any fun t => t.status != .exited)

/-- Operations in acceptance order. -/
def insertOp (o : MatOp) : List MatOp → List MatOp
  | [] => [o]
  | x :: xs => if o.id < x.id then o :: x :: xs else x :: insertOp o xs

/-- MATRIX_REISSUE (R235, R237): each takes its place in acceptance order again; pend stays set until the interrupted one
completes. -/
def execMatrixReissue (wg gang : Nat) (s : State) : Answer :=
  match s.wg? wg with
  | none => .next s
  | some w =>
    let x := w.gang gang
    if !s.canReissue x then .next s
    else
      let ops := x.latch.mapIdx fun i o => { o with again := i == 0 }
      let s := s.updCore w.core fun c => { c with matrix := ops.foldr insertOp c.matrix }
      .next (s.updGang wg gang fun x => { x with latch := [], waiting := [] })

end Sys2Proof.Machine
end

