-- ==== Sys2Proof/Machine/Tile.lean ====
section
/-!
DEFINITION. Tile transfers and the progress words of major 0x28 (10_matrix R238 to R242).
-/

namespace Sys2Proof.Machine

/-! ## ACZ, ACRD, ACWR (R239) -/

/-- R238: an acting member's warp has issued a matrix-product word that is not accepted yet. -/
def warpAtRendezvous (acts : Thread → Bool) (g : Group) (s : State) : Bool :=
  (s.active g).any fun r => (s.thread? r).any acts && (s.wg? r.wg).any fun w => w.arrivalsOf [r.warp] matches _ :: _

/-- ACZ: once per home warp. -/
def execAcz (o : TileArgs) (s : State) : Answer :=
  let acts (t : Thread) : Bool := t.guard o.guard false
  issue {} [] noFill (fun g s => flagFull o.fs acts g s || warpAtRendezvous acts g s)
    (fun g s => s.eachWarp g acts fun w rs s =>
      if !s.ownsTiles w.1 then s.raiseMatrixAll rs { code := codeGang } (g.site g.pc)
      else if !s.anyLive rs then s
      else s.addOpFor g rs (some o.fs) (.tile 3 o.tile.toNat 0 [] []) 0 0) s

/-- R239: the fault of a position register. -/
def positionFault (owns : Bool) (pos : Word) : Option FaultDetail :=
  if !owns then some { code := codeGang }
  else if field pos 14 8 % 4 != 0 then some { code := codeAlign, addr := zext 64 pos }
  else none

/-- ACRD. -/
def execAcrd (o : TileVArgs) (s : State) : Answer :=
  let acts (t : Thread) : Bool := t.guard o.guard false
  issue {} (o.vp.toNat :: regBlock o.vd.toNat 4) (fillSources {} acts [o.vp.toNat]) (flagFull o.fs acts)
    (fun g s => s.eachActing g acts fun word r t s =>
      let pos := t.reg o.vp.toNat
      match positionFault (s.ownsTiles r.wg) pos with
      | some d => s.raiseMatrix r d (g.site g.pc)
      | none => s.addOp g r (some o.fs) word (.tile 4 o.tile.toNat pos [] []) o.vd.toNat 4) s

/-- ACWR: the sources are read at issue; a helper's writes nothing. -/
def execAcwr (o : TileVArgs) (s : State) : Answer :=
  let acts (t : Thread) : Bool := t.guard o.guard false
  let srcs := o.vp.toNat :: regBlock o.vd.toNat 4
  issue {} srcs (fillSources {} acts srcs) (flagFull o.fs acts)
    (fun g s => s.eachActing g acts fun word r t s =>
      let pos := t.reg o.vp.toNat
      match positionFault (s.ownsTiles r.wg) pos with
      | some d => s.raiseMatrix r d (g.site g.pc)
      | none =>
        if t.isHelper then s
        else s.addOp g r (some o.fs) word (.tile 5 o.tile.toNat pos ((regBlock o.vd.toNat 4).map t.reg) []) 0 0) s

/-! ## ACST, ACLD (R240) -/

/-- The fields of the command. -/
def tcAddr (c : List DWord) : DWord := c.getD 0 0
def tcPitch (c : List DWord) : Nat := field (c.getD 1 0) 31 0
def tcAdd (c : List DWord) : Bool := (c.getD 2 0).getLsbD 34
def tcConv (c : List DWord) : Nat := field (c.getD 2 0) 33 32
def tcCols (c : List DWord) : Nat := field (c.getD 2 0) 31 24 + 1
def tcCol0 (c : List DWord) : Nat := field (c.getD 2 0) 23 16
def tcRows (c : List DWord) : Nat := field (c.getD 2 0) 15 8 + 1
def tcRow0 (c : List DWord) : Nat := field (c.getD 2 0) 7 0

def tcSize (c : List DWord) : Nat := if tcConv c = 0 then 4 else 2

/-- R240: why a command is refused. -/
def tileCommandFault (store : Bool) (c : List DWord) : Option FaultDetail :=
  if field (c.getD 1 0) 63 32 != 0 || field (c.getD 2 0) 63 35 != 0 || c.getD 3 0 != 0 || tcConv c == 3
      || (store && tcAdd c) || decide (tcRow0 c + tcRows c > 128) || decide (tcCol0 c + tcCols c > 128)
      || tcCol0 c % 4 != 0 || tcCols c % 4 != 0 then some { code := codeIllegalEncoding }
  else if (tcAddr c).toNat ≥ 2 ^ 57 then some { code := codeProtection, addr := tcAddr c }
  else if (tcAddr c).toNat % tcSize c != 0 then some { code := codeAlign, addr := tcAddr c }
  else if tcPitch c % tcSize c != 0 then some { code := codeAlign, addr := tcAddr c }
  else none

/-- ACST (func 6) and ACLD (7): once per home warp; the order and scope go with the command. -/
def tileMemoryWord (func : Nat) (o : TileKArgs) (s : State) : Answer :=
  let acts (t : Thread) : Bool := t.guard o.guard false
  let rule : WordRule := { prefixKind := .mem, orders := [0, 2] }
  issue rule [] noFill (fun g s => flagFull o.fs acts g s || warpAtRendezvous acts g s)
    (fun g s => s.eachWarp g acts fun w rs s =>
      let cmd := (List.range 4).map fun i => s.warpReg { wg := w.1, warp := w.2, lane := 0 } (4 * o.k.toNat + i)
      if !s.ownsTiles w.1 then s.raiseMatrixAll rs { code := codeGang } (g.site g.pc)
      else match tileCommandFault (func == 6) cmd with
        | some d => s.raiseMatrixAll rs d (g.site g.pc)
        | none =>
          if !s.anyLive rs then s
          else s.addOpFor g rs (some o.fs)
            (.tile func o.tile.toNat 0 [] (cmd ++ [BitVec.ofNat 64 (g.order + 4 * g.scope)])) 0 0) s

/-- ACST (R240). -/
def execAcst (o : TileKArgs) (s : State) : Answer := tileMemoryWord 6 o s

/-- ACLD (R240). -/
def execAcld (o : TileKArgs) (s : State) : Answer := tileMemoryWord 7 o s

/-! ## Performing (R238 to R240) -/

/-- The memory format of a conv code. -/
def convFmt (conv : Nat) : Fmt := if conv = 0 then fp32 else if conv = 1 then bf16 else fp16

/-- The bytes of a row as ACST writes them. -/
def Workgroup.rowBytes (w : Workgroup) (tile row : Nat) (c : List DWord) : List Byte :=
  (List.range (tcCols c)).flatMap fun k =>
    leBytes (tcSize c) ((convFmt (tcConv c)).round 0 (f32 (w.tileGet tile row (tcCol0 c + k)))).1

/-- An element as ACLD takes it from memory, by its bits: widened exactly, and added if the command says so; the NaN of a
16-bit element becomes canonical (log 16). -/
def loadElement (conv : Nat) (add : Bool) (old : Word) (bits : Nat) : Word :=
  if conv = 0 ∧ !add then BitVec.ofNat 32 bits
  else
    let x := (convFmt conv).decode bits
    BitVec.ofNat 32 (fp32.round 0 (if add then ((f32 old).add 0 x).1 else x)).1

/-- A row as ACLD takes it from memory. -/
def Workgroup.loadRow (w : Workgroup) (tile row : Nat) (c : List DWord) (bs : List Byte) : Workgroup :=
  (List.range (tcCols c)).foldl (fun w k =>
    let col := tcCol0 c + k
    w.tileSet tile row col
      (loadElement (tcConv c) (tcAdd c) (w.tileGet tile row col) (ofLe ((bs.drop (k * tcSize c)).take (tcSize c))))) w

/-- How far a transfer comes: a fault keeps the rows before it. -/
inductive RowsDone where
  | done (s : State)
  | waits (pa : Nat)
  | fault (s : State) (d : FaultDetail)

/-- The rows of a transfer in ascending order. -/
def State.tileRows (s : State) (who : List Nat) (wg tile : Nat) (store : Bool) (c : List DWord) : List Nat → RowsDone
  | [] => .done s
  | a :: as =>
    let core := s.coreOf wg
    let part := s.partOf wg
    let va := (tcAddr c + BitVec.ofNat 64 (a * tcPitch c)).toNat
    let n := tcCols c * tcSize c
    let row := tcRow0 c + a
    match s.probe who core part { r := !store, w := store } (· == 0) (pieces va n) with
    | .fault d => .fault s d
    | .waits pa => .waits pa
    | .ok =>
      if store then
        let bs := ((s.wg? wg).map fun w => w.rowBytes tile row c).getD []
        (s.engineWrite core part va bs).tileRows who wg tile store c as
      else match s.engineRead who core part va n (· == 0) with
        | .done s bs _ => (s.updWg wg fun w => w.loadRow tile row c bs).tileRows who wg tile store c as
        | .waits _ => .fault s { code := codeMigration, addr := BitVec.ofNat 64 va }
        | .fault s d => .fault s d

/-- R242: the order and scope of a transfer. -/
def tcOrder (c : List DWord) : Nat := (c.getD 4 0).toNat % 4
def tcScope (c : List DWord) : Nat := (c.getD 4 0).toNat / 4

/-- ACST and ACLD perform. -/
def State.tileMemory (s : State) (o : PendingOp) (wg func tile : Nat) (c : List DWord) : State :=
  let s := s.commandActions (s.coreOf wg) (tcOrder c) (tcScope c)
  let who := engineAgent 7 (s.coreOf wg) o.id
  match s.tileRows who wg tile (func == 6) c (List.range (tcRows c)) with
  | .done s => s.finishOp o [] 0 0
  | .waits pa => (s.holdPool who pa (func == 6)).updOp o.id fun x => { x with waiting := some (x.waiting.getD s.time) }
  | .fault s d =>
    let r := o.who.headD { wg := wg, warp := 0, lane := 0 }
    s.failOp o { d with mprog := (s.mprogOf r).toNat }

/-- R182: a transfer waits for its own release and the earlier ones of its warp. -/
def State.transferWaits (s : State) (o : PendingOp) (func : Nat) (cmd : List DWord) : Bool :=
  let r := o.who.headD { wg := 0, warp := 0, lane := 0 }
  decide (func ≥ 6) && s.warpCommandWaits (tcOrder cmd) (tcScope cmd) r.wg r.warp o.id

/-- TILE_TRANSFER_COMPLETE (R238 to R240): enabled when every operation accepted earlier on the tile has taken effect,
and for ACST and ACLD when the releases before them have acted. -/
def execTileTransferComplete (op keep : Nat) (s : State) : Answer :=
  match s.op? op with
  | some o => match o.kind with
    | .tile func tile pos src cmd =>
      let wg := (o.who.map (·.wg)).headD 0
      let row := field pos 6 0
      let col := field pos 14 8
      if s.tileWaits wg tile o || s.transferWaits o func cmd then .next s
      else match func with
        | 3 =>
          let clear (w : Workgroup) : Workgroup := { w with tiles := w.tiles.filter fun x => x.1 / 16384 != tile }
          .next ((s.updWg wg clear).finishOp o [] 0 keep)
        | 4 =>
          let vals := ((s.wg? wg).map fun w => (List.range 4).map fun i => w.tileGet tile row (col + i)).getD []
          .next (s.finishOp o vals 0 keep)
        | 5 =>
          let put (w : Workgroup) : Workgroup :=
            (List.range 4).foldl (fun w i => w.tileSet tile row (col + i) (src.getD i 0)) w
          .next ((s.updWg wg put).finishOp o [] 0 keep)
        | _ => .next (s.tileMemory o wg func tile cmd).retireFences
    | _ => .next s
  | none => .next s

/-! ## MPRG, MREL (R241) -/

/-- The members of a warp whose guard is true fault GANG where the workgroup has no tiles. -/
def State.ownersOnly (s : State) (g : Group) (acts : Thread → Bool) : State :=
  s.eachActing g acts fun _ r _ s => if s.ownsTiles r.wg then s else s.raiseMatrix r { code := codeGang } (g.site g.pc)

/-- MPRG: %mprog to each acting thread; with clr, once per warp, the progress is cleared and an interrupted operation
abandoned (R235). -/
def execMprg (o : MprgArgs) (s : State) : Answer :=
  let acts (t : Thread) : Bool := t.guard o.guard false
  issue {} [o.vd.toNat] noFill noHold
    (fun g s =>
      let s := s.ownersOnly g acts
      let s := s.eachActing g acts fun _ r _ s => s.updThread r fun t => t.setReg o.vd.toNat (s.mprogOf r)
      if !o.clr then s
      else s.eachWarp g acts fun w _ s =>
        let x := s.gangOf w.1 w.2
        if gangSize x = 0 then s
        else (s.abandonGang w.1 (gangKey x)).updGang w.1 (gangKey x) fun y => { y with pend := false, steps := 0 }) s

/-- MREL: held rows are dropped, once per warp. -/
def execMrel (o : G0Args) (s : State) : Answer :=
  let acts (t : Thread) : Bool := t.guard o.guard false
  issue {} [] noFill noHold
    (fun g s => (s.ownersOnly g acts).eachWarp g acts fun w _ s =>
      let x := s.gangOf w.1 w.2
      if gangSize x = 0 then s else s.updGang w.1 (gangKey x) fun y => { y with held := none }) s

end Sys2Proof.Machine
end

