-- ==== Sys2Proof/Machine/Rings.lean ====
section
/-!
DEFINITION. Slot rings: RINGDEF, AWAITF, RELS, reports of release counters (11_copy R250 to R253, R259, R261 to R263).
-/

namespace Sys2Proof.Machine

/-! ## Rings (R250, R251) -/

def Workgroup.ring? (w : Workgroup) (q : Nat) : Option Ring := w.rings.toList.getD q none

def Workgroup.setRing (w : Workgroup) (q : Nat) (x : Option Ring) : Workgroup :=
  { w with rings := w.rings.setIfInBounds q x }

def Workgroup.updRing (w : Workgroup) (q : Nat) (f : Ring → Ring) : Workgroup :=
  match w.ring? q with
  | some x => w.setRing q (some (f x))
  | none => w

/-- The slot and the phase of a counter value. -/
def Ring.slotOf (x : Ring) (c : Nat) : Nat := c % x.n
def Ring.phaseOf (x : Ring) (c : Nat) : Bool := decide (c ≥ x.n)

/-- a − b modulo 2n. -/
def Ring.minus (x : Ring) (a b : Nat) : Nat := (a + 2 * x.n - b) % (2 * x.n)

def Ring.next (x : Ring) (c : Nat) : Nat := (c + 1) % (2 * x.n)

def Ring.slot (x : Ring) (i : Nat) : SlotState := x.slots.getD i .free

def Ring.setSlot (x : Ring) (i : Nat) (st : SlotState) : Ring := { x with slots := x.slots.set i st }

/-- The fields that must agree for a delivery (R260). -/
def Ring.shape (x : Ring) : List Nat := [x.base, x.slotBytes, x.n, x.mc.toNat, x.srcm, x.cmask.toNat]

/-- Warps in a mask. -/
def maskCount (m : BitVec 32) : Nat := ((List.range 32).filter fun i => m.getLsbD i).length

/-- R251: the slot is claimed by a command. -/
def Ring.claimSlot (x : Ring) : Ring :=
  { x.setSlot (x.slotOf x.claim) .claimed with claim := x.next x.claim }

/-- R259: room in a ring: for a multicast ring by what the members have reported. -/
def Ring.full (x : Ring) : Bool :=
  if x.mc then
    (List.range 16).any fun m =>
      x.cmask.getLsbD m && !x.gone.contains m &&
        decide (x.minus x.claim (if m == x.srcm then x.release else countOf m x.heard) = x.n)
  else decide (x.minus x.claim x.release = x.n)

/-! ## RINGDEF (R253) -/

/-- R253: the new ring, or why it is refused; `size` is the cohort size, `member` the workgroup's own number, and `out` says
which members have ended or are flushed (R259). -/
def newRing (d : DWord) (window size member ident : Nat) (out : Nat → Bool) : Except (BitVec 8) (Option Ring) :=
  let slotsz := field d 33 21
  let n := field d 37 34 + 1
  let base := field d 20 0
  let mc := d.getLsbD 43
  let srcm := field d 47 44
  let cmask := d.extractLsb' 48 16
  if slotsz = 0 then .ok none
  else if base % 128 != 0 || decide (base + n * (slotsz * 128) > window) then .error codeRingState
  else if !mc && (cmask != 0 || srcm != 0) then .error codeIllegalEncoding
  else if mc && (decide (srcm ≥ size) || !cmask.getLsbD srcm || !cmask.getLsbD member) then .error codeRingState
  else .ok (some { base := base, slotBytes := slotsz * 128, n := n, readers := field d 42 38 + 1, mc := mc,
                   srcm := srcm, cmask := cmask, claim := 0, take := 0, release := 0,
                   slots := List.replicate n .free, takeMask := 0, relMasks := List.replicate n 0, heard := [],
                   gone := (List.range 16).filter fun m => cmask.getLsbD m && out m, ident := ident })

/-- The pending AWAITF requests of a ring, oldest first. -/
def State.requests (s : State) (wg q : Nat) : List PendingOp :=
  s.ops.filter fun o => (o.who.map (·.wg)).headD (wg + 1) == wg && match o.kind with
    | .awaitf ring _ => ring == q
    | _ => false

/-- The none value of R261. -/
def noneValue : Word := 0x80000000

/-- R253, R261: every pending request of a ring is served with none; the next pick says what R35 leaves open. -/
def State.serveNone (s : State) (wg q : Nat) : State :=
  (s.requests wg q).foldl (fun s o => s.finishOp o [noneValue] 0 (s.picks.headD 0)) s

/-- The member of a workgroup's cohort with a number, unless it has ended. -/
def State.cohortMate (s : State) (w : Workgroup) (member : Nat) : Option Workgroup :=
  s.wgs.find? fun y => y.part == w.part && y.handle == w.handle && y.stage == w.stage && y.cohort == w.cohort
    && y.member == member

/-- R259, R260: a member has ended or is flushed. -/
def State.memberOut (s : State) (w : Workgroup) (member : Nat) : Bool :=
  (s.cohortMate w member).all fun y => y.place == .flushed

/-- R253, R251: claims of a defined ring are outstanding; a member other than srcm uses no c, and nothing is outstanding
there (DEDUCED, log 15). -/
def Ring.claimsOpen (x : Ring) (member : Nat) : Bool := (!x.mc || member == x.srcm) && x.claim != x.release

/-- RINGDEF for one warp. -/
def State.defineRing (s : State) (g : Group) (w : Workgroup) (rs : List TRef) (q : Nat) (d : DWord) : State :=
  if (w.ring? q).any (·.claimsOpen w.member) then s.raiseThese rs { code := codeRingState } (g.site g.pc)
  else match newRing d w.window w.csz w.member (s.nextId + 1) (s.memberOut w) with
    | .error c => s.raiseThese rs { code := c } (g.site g.pc)
    | .ok x => ({ s.serveNone w.id q with nextId := s.nextId + 1 }).updWg w.id fun w => w.setRing q x

/-- RINGDEF (R253). -/
def execRingdef (o : RingDefArgs) (s : State) : Answer :=
  let acts (t : Thread) : Bool := t.guard o.guard false
  issue {} [] noFill noHold
    (fun g s => s.eachWarp g acts fun w rs s =>
      match s.wg? w.1 with
      | some v => s.defineRing g v rs o.ring.toNat (s.warpReg { wg := w.1, warp := w.2, lane := 0 } o.wd.toNat)
      | none => s) s

/-! ## AWAITF (R261) -/

/-- AWAITF: one request for each home warp. -/
def execAwaitf (o : AwaitArgs) (s : State) : Answer :=
  let acts (t : Thread) : Bool := t.guard o.guard false
  issue {} [o.vd.toNat] noFill (flagFull o.fs acts)
    (fun g s => s.eachWarp g acts fun w rs s =>
      if ((s.wg? w.1).bind (·.ring? o.ring.toNat)).isNone then
        s.raiseThese rs { code := codeRingState } (g.site g.pc)
      else s.addOpFor g rs (some o.fs) (.awaitf o.ring.toNat s.time) o.vd.toNat 1) s

/-- The bit of a request's warp. -/
def PendingOp.warpBit (o : PendingOp) : Nat := (o.who.map (·.warp)).headD 0

/-- Whether a request of a warp is served now, and with which value. -/
def Ring.serves (x : Ring) (warp : Nat) : Option Word :=
  let i := x.slotOf x.take
  match x.slot i with
  | .filled phase err =>
    if phase == x.phaseOf x.take && !x.takeMask.getLsbD warp then
      some (BitVec.ofNat 32 (x.base + i * x.slotBytes + err.toNat * 2 ^ 30))
    else none
  | _ => none

/-- R261: a warp takes the slot at t. -/
def Ring.takeBy (x : Ring) (warp : Nat) : Ring :=
  let m := x.takeMask ||| (1#32 <<< warp)
  if maskCount m = x.readers then
    { x.setSlot (x.slotOf x.take) .taken with take := x.next x.take, takeMask := 0 }
  else { x with takeMask := m }

/-- AWAITF_SERVICE (R261): the oldest request of its ring that can be served. -/
def execAwaitfService (op keep : Nat) (s : State) : Answer :=
  match s.op? op with
  | some o => match o.kind, (o.who.map (·.wg)).headD 0 with
    | .awaitf q _, wg =>
      match (s.wg? wg).bind (·.ring? q) with
      | some x =>
        let first := (s.requests wg q).find? fun r => (x.serves r.warpBit).isSome
        if (first.map (·.id)) == some op then
          match x.serves o.warpBit with
          | some v => .next ((s.updWg wg fun w => w.updRing q fun x => x.takeBy o.warpBit).finishOp o [v] 0 keep)
          | none => .next s
        else .next s
      | none => .next s
    | _, _ => .next s
  | none => .next s

/-- R261: the request has waited %colto ticks. -/
def State.awaitLate (s : State) (o : PendingOp) : Bool :=
  match o.kind, s.wg? ((o.who.map (·.wg)).headD 0) with
  | .awaitf _ since, some w => w.colto != 0 && decide (since + clkOfTicks w.colto ≤ s.time)
  | _, _ => false

/-- AWAITF_TIMEOUT (R261). -/
def execAwaitfTimeout (op keep : Nat) (s : State) : Answer :=
  match s.op? op with
  | some o => if s.awaitLate o then .next (s.finishOp o [noneValue] 0 keep) else .next s
  | none => .next s

/-! ## RELS (R262, R263) -/

/-- The slots that a release frees, in order. -/
def Ring.advance : Nat → Ring → Ring
  | 0, x => x
  | fuel + 1, x =>
    let i := x.slotOf x.release
    if x.slot i == .taken && maskCount (x.relMasks.getD i 0) == x.readers then
      Ring.advance fuel { x.setSlot i .free with relMasks := x.relMasks.set i 0, release := x.next x.release }
    else x

/-- R262: a warp's release of a value, or none where it faults. -/
def Ring.releaseBy (x : Ring) (warp : Nat) (v : Word) : Option Ring :=
  let off := field v 20 0
  let i := (off - x.base) / x.slotBytes
  if v.getLsbD 31 || decide (off < x.base) || (off - x.base) % x.slotBytes != 0 || decide (i ≥ x.n)
      || x.slot i != .taken || (x.relMasks.getD i 0).getLsbD warp then none
  else
    let m := x.relMasks.getD i 0 ||| (1#32 <<< warp)
    some (Ring.advance x.n { x with relMasks := x.relMasks.set i m })

/-- RELS for one warp, with a report to the source of a multicast ring. -/
def State.releaseSlot (s : State) (g : Group) (w : Workgroup) (warp q : Nat) (rs : List TRef) (v : Word) : State :=
  match (w.ring? q).bind fun x => x.releaseBy warp v with
  | none => s.raiseThese rs { code := codeRingState } (g.site g.pc)
  | some x =>
    let s := s.updWg w.id fun w => w.setRing q (some x)
    if x.mc && w.member != x.srcm then
      match s.cohortMate w x.srcm with
      | some src =>
        let ident := ((src.ring? q).map (·.ident)).getD 0
        { s with reports := s.reports ++ [{ src := src.id, ring := q, member := w.member, l := x.release, ident := ident }] }
      | none => s
    else s

/-- RELS (R262): once per warp, with the value of its lowest lane; a release at .wg, so it holds for earlier accesses. -/
def execRels (o : RelsArgs) (s : State) : Answer :=
  let acts (t : Thread) : Bool := t.guard o.guard false
  issue {} [o.va.toNat]
    (fun g s => s.fillFor g ((s.homeWarps g).filterMap fun w => s.warpSource g w o.guard) (fun _ => true) [o.va.toNat])
    (fun g s => (s.active g).any fun r => (s.thread? r).any fun t => acts t && s.releaseWaits r 0 s.nextId)
    (fun g s => s.eachWarp g acts fun w rs s =>
      match s.wg? w.1, (s.warpSource g w o.guard).bind s.thread? with
      | some v, some t => s.releaseSlot g v w.2 o.ring.toNat rs (t.reg o.va.toNat)
      | _, _ => s) s

/-- RELEASE_REPORT_ARRIVAL (R259, R263): the source hears a member's counter; reports of one member keep their order. -/
def execReleaseReportArrival (idx : Nat) (s : State) : Answer :=
  match s.reports[idx]? with
  | none => .next s
  | some r =>
    let earlier := (s.reports.take idx).any fun x => x.src == r.src && x.ring == r.ring && x.member == r.member
    if earlier then .next s
    else
      let hear (x : Ring) : Ring :=
        if x.ident == r.ident then { x with heard := (r.member, r.l) :: x.heard.filter (·.1 != r.member) } else x
      .next { s.updWg r.src fun w => w.updRing r.ring hear with reports := s.reports.eraseIdx idx }

end Sys2Proof.Machine
end

