-- ==== Sys2Proof/Machine/Copy.lean ====
section
/-!
DEFINITION. The copy engine: CPYIN, CPYOUT, CPYMC, CPYQ2, CPYST, and the events of its operations (11_copy R245 to
R249, R254 to R260, R264, R265). An operation is a list of units done in order, some at each event (assumption log 15).
-/

namespace Sys2Proof.Machine

/-! ## Commands (R254, R256, R257) -/

def cpAddr (c : List DWord) : DWord := c.getD 0 0
def cpPitch (c : List DWord) : Nat := field (c.getD 1 0) 63 32
def cpRows (c : List DWord) : Nat := field (c.getD 1 0) 31 20 + 1
def cpRowb (c : List DWord) : Nat := field (c.getD 1 0) 19 0
def cpMode (c : List DWord) : Nat := field (c.getD 2 0) 35 34
def cpSoff (c : List DWord) : Nat := field (c.getD 2 0) 31 12
def cpRing (c : List DWord) : Nat := field (c.getD 2 0) 2 0
def cpMmask (c : List DWord) : BitVec 16 := (c.getD 3 0).setWidth 16
def coSoff (c : List DWord) : Nat := field (c.getD 2 0) 20 0
def cqDst (c : List DWord) (col : Bool) : DWord := c.getD (if col then 1 else 0) 0
def cqPitch (c : List DWord) (col : Bool) : Nat := if col then field (c.getD 2 0) 63 40 else field (c.getD 2 0) 39 16
def cqSpitch (c : List DWord) : Nat := field (c.getD 3 0) 51 36
def cqAllow (c : List DWord) (col : Bool) : Nat := if col then field (c.getD 3 0) 35 32 else field (c.getD 3 0) 31 28
def cqFmt (c : List DWord) (col : Bool) : Nat := if col then field (c.getD 3 0) 27 25 else field (c.getD 3 0) 24 22
def cqBf (c : List DWord) : Bool := (c.getD 3 0).getLsbD 21
def cqSoff (c : List DWord) : Nat := field (c.getD 3 0) 20 0
def cqSize (c : List DWord) : Nat := if cqBf c then 2 else 4

/-- R254, R256, R257: the fields of a command that may be refused, in the order of its map: whether each is, and its value. -/
def copyFields (kind : Nat) (c : List DWord) (window : Nat) : List (Bool × Nat) :=
  let zero (x : Nat) : Bool × Nat := (x != 0, x)
  let row : Bool × Nat := (decide (cpRowb c < 4) || cpRowb c % 4 != 0, cpRowb c)
  let format (col : Bool) : Bool × Nat := ([0, 7].contains (cqFmt c col), cqFmt c col)
  match kind with
  | 1 => [row, zero (field (c.getD 2 0) 63 21), (coSoff c % 4 != 0, coSoff c), zero (c.getD 3 0).toNat]
  | 3 => [zero (field (c.getD 2 0) 15 0), zero (field (c.getD 3 0) 63 52), (cqSpitch c % 4 != 0, cqSpitch c), format true,
      format false, (cqSoff c % 4 != 0 || decide (cqSoff c + 31 * cqSpitch c + 32 * cqSize c > window), cqSoff c)]
  | _ => [row, zero (field (c.getD 2 0) 63 36), (cpMode c == 3, cpMode c), zero (field (c.getD 2 0) 33 32),
      (cpSoff c % 4 != 0, cpSoff c), zero (field (c.getD 2 0) 11 3), zero (field (c.getD 3 0) 63 16),
      (kind == 0 && cpMmask c != 0, (cpMmask c).toNat)]

/-- R248: the value of the first field that is refused. -/
def copyEncodingFault (kind : Nat) (c : List DWord) (window : Nat) : Option Nat :=
  ((copyFields kind c window).find? (·.1)).map (·.2)

/-- R255, R259: the ring rules of CPYIN (0) and CPYMC (2): the value of the field that breaks one. -/
def copyRingFault (kind : Nat) (c : List DWord) (w : Workgroup) : Option Nat :=
  match w.ring? (cpRing c) with
  | none => some (cpRing c)
  | some x =>
    if kind = 2 then
      if !x.mc || x.srcm != w.member then some (cpRing c)
      else if cpMmask c == 0 || cpMmask c &&& ~~~x.cmask != 0 then some (cpMmask c).toNat
      else none
    else if x.mc then some (cpRing c)
    else if cpMode c == 0 && decide (cpSoff c + cpRows c * cpRowb c > x.slotBytes) then some (cpSoff c)
    else none

/-- R46, R248: the first address out of range, then the first address or pitch that is not a multiple of 4. -/
def copyAddressFault (addrs pitches : List DWord) : Option FaultDetail :=
  match addrs.find? fun a => decide (a.toNat ≥ 2 ^ 57) with
  | some a => some { code := codeProtection, addr := a }
  | none => ((addrs ++ pitches).find? fun a => a.toNat % 4 != 0).map fun a => { code := codeAlign, addr := a }

/-- A fault that names a field by its value (R248; DEDUCED, log 15). -/
def fieldFault (code : BitVec 8) (x : Nat) : FaultDetail := { code := code, addr := BitVec.ofNat 64 x }

/-- R248: the ring checks of a copy command. -/
def copyTargetFault (kind : Nat) (c : List DWord) (w : Workgroup) : Option FaultDetail :=
  if kind == 2 && (List.range 16).any (fun i => decide (i ≥ w.csz) && (cpMmask c).getLsbD i) then
    some (fieldFault codeMcastRange (cpMmask c).toNat)
  else if kind == 0 || kind == 2 then (copyRingFault kind c w).map (fieldFault codeRingState)
  else none

/-- R248: the checks of a copy command after decoding; of a warp of helpers only those of R83, so that its rings are not
looked at (R246). -/
def copyFault (kind : Nat) (c : List DWord) (w : Workgroup) (live : Bool) : Option FaultDetail :=
  match copyEncodingFault kind c w.window, if live then copyTargetFault kind c w else none with
  | some x, _ => some (fieldFault codeIllegalEncoding x)
  | none, some d => some d
  | none, none =>
  if kind == 1 && decide (coSoff c + cpRows c * cpRowb c > w.window) then
    some { code := codeProtection, addr := BitVec.ofNat 64 (coSoff c) }
  else if kind == 3 then
    copyAddressFault [cqDst c false, cqDst c true]
      [BitVec.ofNat 64 (cqPitch c false), BitVec.ofNat 64 (cqPitch c true)]
  else copyAddressFault [cpAddr c] [BitVec.ofNat 64 (cpPitch c)]

/-! ## Issue (R245 to R249) -/

/-- The commands of a core that have not left the queue. -/
def State.copyQueue (s : State) (core : Nat) : List CopyOp := s.copies.filter fun x => x.core == core && x.stage == .queued

/-- R245: entries that the copy-role warps of resident workgroups reserve. -/
def State.reservedEntries (s : State) (core : Nat) : Nat :=
  ((s.wgs.filter fun w => w.core == core && w.place == .resident).map fun w =>
    (w.warps.filter (·.role == 1)).length).foldl (· + ·) 0

/-- R245: a queued command holds the reserved entry of a warp that is not resident on the core any more. -/
def State.leftBehind (s : State) (core : Nat) (x : CopyOp) : Bool :=
  x.reserved && !((s.wg? x.wg).any fun w => w.core == core && w.place == .resident)

/-- R245: whether the queue has entries for all the warps that are to issue: their own, or of the others those that are
neither reserved nor taken, and 64 in all. DEDUCED (assumption log 15): a group of several home warps queues nothing before
each of them has an entry. -/
def State.copyRoom (s : State) (core : Nat) (ws : List (Nat × Nat)) : Bool :=
  let queue := s.copyQueue core
  let role (w : Nat × Nat) : Nat := ((s.warp? w.1 w.2).map (·.role)).getD 0
  let own := ws.filter fun w => role w == 1
  let shared := (ws.filter fun w => role w != 1).length + (queue.filter fun x => !x.reserved).length
  own.all (fun w => !(queue.any fun x => x.reserved && x.wg == w.1 && x.warp == w.2))
    && (own.length == ws.length
      || (decide (shared ≤ 64 - s.reservedEntries core - (queue.filter (s.leftBehind core)).length)
        && decide (queue.length + ws.length ≤ 64)))

/-- A command of a warp takes its number and its queue entry (R249); a packet for a member whose rings are retired now reaches
none of its later ones (R260, R265). -/
def State.enqueueCopy (s : State) (g : Group) (w : Workgroup) (warp kind ws : Nat) (c : List DWord) : State :=
  let num := s.nextNumber w.core 0
  let ring := if kind == 0 || kind == 2 then w.ring? (cpRing c) else none
  let members := if kind == 2 then (List.range 16).filter fun i => ring.any fun x => x.cmask.getLsbD i else []
  let retired (m : Nat) : Bool := (s.cohortMate w m).any fun y => y.place == .flushed
  let op : CopyOp :=
    { core := w.core, num := num, wg := w.id, warp := warp, kind := kind, cmd := c, order := g.order, scope := g.scope,
      reserved := ((w.warp? warp).map (·.role)) == some 1, ring := cpRing c,
      slot := (ring.map fun x => x.slotOf x.claim).getD 0, phase := ring.any fun x => x.phaseOf x.claim,
      ident := (ring.map (·.ident)).getD 0, stage := .queued, fault := 0, partial_ := members.any retired,
      dropped := (members.filter retired).foldl (fun b m => b ||| (1#16 <<< m)) 0, exc := 0,
      units := 0, fmt := none, shape := (ring.map (·.shape)).getD [],
      deliver := members.filter fun m => !retired m,
      data := [], snap := none, handle := w.handle, pipeStage := w.stage, cohort := w.cohort, homeSlot := w.slot,
      issuedBy := s.nextId, part := w.part,
      window := w.window }
  let s := (s.takeNumber w.core 0).updWg w.id fun v =>
    let v := if ring.isSome then v.updRing (cpRing c) (·.claimSlot) else v
    let v := { v with marks := v.marks.set 0 num }
    if ws = 0 then v else v.updWarp warp fun x => x.setReg ws (BitVec.ofNat 64 num)
  { s with copies := s.copies ++ [op] }

/-- One warp of a copy command. -/
def State.issueCopy (s : State) (g : Group) (w : Workgroup) (warp kind pd ws : Nat) (rs : List TRef) (c : List DWord) :
    State :=
  let answer (b : Bool) (s : State) : State := s.updThreads rs fun t => t.setPred pd b
  match copyFault kind c w (s.anyLive rs) with
  | some d => s.raiseThese rs d (g.site g.pc)
  | none =>
    if !s.anyLive rs then answer true s
    else if (kind == 0 || kind == 2) && (w.ring? (cpRing c)).any (·.full) then answer false s
    else
      let taint (t : Thread) : Thread := if kind == 2 && t.status == .live then { t with taint := true } else t
      (answer true (s.enqueueCopy g w warp kind ws c)).updThreads rs taint

/-- A copy command, once for each home warp (R246). DESIGN CHOICE (assumption log 15): it waits for its queue entry before
any of its checks, so a command that will fault or be refused waits too. -/
def copyWord (kind : Nat) (k : BitVec 3) (pd : BitVec 3) (ws : BitVec 5) (guard : BitVec 3) (s : State) : Answer :=
  let acts (t : Thread) : Bool := t.guard guard false
  let rule : WordRule := { prefixKind := .mem, orders := [0, 2] }
  issue rule [] noFill
    (fun g s =>
      let ws := (s.homeWarps g).filter fun w => s.anyLive (s.warpGuarded g w acts)
      ws != [] && !s.copyRoom g.core ws)
    (fun g s => s.eachWarp g acts fun w rs s =>
      match s.wg? w.1 with
      | some v =>
        let c := (List.range 4).map fun i => s.warpReg { wg := w.1, warp := w.2, lane := 0 } (4 * k.toNat + i)
        s.issueCopy g v w.2 kind pd.toNat ws.toNat rs c
      | none => s) s

/-- CPYIN (R254, R255). -/
def execCpyin (o : CpyPArgs) (s : State) : Answer := copyWord 0 o.k o.pd o.ws o.guard s

/-- CPYOUT (R256). -/
def execCpyout (o : KWArgs) (s : State) : Answer := copyWord 1 o.k 0 o.ws o.guard s

/-- CPYMC (R259). -/
def execCpymc (o : CpyPArgs) (s : State) : Answer := copyWord 2 o.k o.pd o.ws o.guard s

/-- CPYQ2 (R257, R258). -/
def execCpyq2 (o : KWArgs) (s : State) : Answer := copyWord 3 o.k 0 o.ws o.guard s

/-- A word that reads the status of the number in a warp register (R264, R282); a helper's reads it like any thread's, since it
hands no work to an engine (R83; for ROWST and TQRY.op DEDUCED, log 17). -/
def statusWord (k : Nat) (o : StatVArgs) (s : State) : Answer :=
  let acts (t : Thread) : Bool := t.guard o.guard false
  issue {} (regBlock o.vd.toNat 2) noFill noHold
    (fun g s => s.eachActing g acts fun _ r _ s =>
      let x := s.statusOf (s.coreOf r.wg) k (s.warpReg r o.ws.toNat)
      s.updThread r fun t => t.setRegs o.vd.toNat [x.1, x.2]) s

/-- CPYST (R264). -/
def execCpyst (o : StatVArgs) (s : State) : Answer := statusWord 0 o s

/-! ## Units of an operation (R255 to R258) -/

/-- A piece of an operation that is done at once. -/
inductive CopyUnit where
  /-- n source bytes to the slot -/
  | raw (va n : Nat)
  /-- one block decoded to the slot -/
  | decoded (va : Nat)
  /-- the entry of one block to the slot -/
  | entry (va : Nat)
  /-- n bytes of the window from `off` to memory -/
  | out (off va n : Nat)
  /-- one block of the row or column tensor -/
  | block (col : Bool) (line k : Nat)
  deriving DecidableEq, Repr

/-- The start of row a of the source or destination. -/
def cpRowAt (c : List DWord) (a : Nat) : Nat := (cpAddr c + BitVec.ofNat 64 (a * cpPitch c)).toNat

/-- The starts of the blocks of all rows, in copy order. -/
def cpBlocks (c : List DWord) (fmt : Nat) : List Nat :=
  (List.range (cpRows c)).flatMap fun a => (List.range (cpRowb c / blockBytes fmt)).map fun j =>
    cpRowAt c a + j * blockBytes fmt

/-- The units of an operation whose source pages have a format. -/
def copyUnits (kind : Nat) (c : List DWord) (fmt : Nat) : List CopyUnit :=
  match kind with
  | 1 => (List.range (cpRows c)).flatMap fun a => (pieces (cpRowAt c a) (cpRowb c)).map fun p =>
      .out (coSoff c + a * cpRowb c + (p.1 - cpRowAt c a)) p.1 p.2
  | 3 => [false, true].flatMap fun col => (List.range 32).flatMap fun line =>
      (List.range (32 / blockLen (cqFmt c col))).map fun k => .block col line k
  | _ =>
    if cpMode c = 0 then
      ((List.range (cpRows c)).flatMap fun a => (pieces (cpRowAt c a) (cpRowb c)).map fun p => .raw p.1 p.2)
        ++ (if fmt = 0 then [] else (cpBlocks c fmt).map .entry)
    else (cpBlocks c fmt).map .decoded

/-- R255: slot bytes that a run needs. -/
def copyNeed (c : List DWord) (fmt : Nat) : Nat :=
  let data := cpRows c * cpRowb c
  if fmt = 0 then data
  else if cpMode c = 0 then data + 2 * (data / blockBytes fmt)
  else data * 8 / blockWidth fmt * (if cpMode c = 1 then 4 else 2)

/-- R255, R258: the faults of an operation before it moves anything. -/
def copyPlanFault (op : CopyOp) (l : Leaf) : Option FaultDetail :=
  let c := op.cmd
  let detail (code : BitVec 8) : Option FaultDetail := some { code := code, addr := cpAddr c, gen := l.gen }
  let b := blockBytes l.format
  if l.format != 0 && ((cpAddr c).toNat % b != 0 || cpPitch c % b != 0 || cpRowb c % b != 0) then detail codeAlign
  else if l.format == 0 && cpMode c != 0 then detail codeFormatMismatch
  else if cpSoff c + copyNeed c l.format > op.shape.getD 1 0 then detail codeRingState
  else none

/-- R338: the copy engine as it is held for an operation. -/
def CopyOp.agent (op : CopyOp) : List Nat := engineAgent 0 op.core op.num

/-- What a unit, or a run of units, comes to. -/
inductive CopyRun where
  | done (s : State) (op : CopyOp)
  | waits (s : State) (op : CopyOp)
  | fault (s : State) (op : CopyOp) (d : FaultDetail)

/-- Bytes for the slot: CPYMC keeps them for its deliveries; CPYIN writes them, unless its ring is another one by now
(R265). `off` is the place after what has been written. -/
def State.fillSlot (s : State) (op : CopyOp) (bs : List Byte) : State × CopyOp :=
  let op' := { op with data := op.data ++ bs }
  if op.kind == 2 then (s, op')
  else match (s.wg? op.wg).bind (·.ring? op.ring) with
    | some x =>
      if x.ident == op.ident then
        let a := x.base + op.slot * x.slotBytes + cpSoff op.cmd + op.data.length
        (s.updWg op.wg fun w => { w with scratch := Memory.setBytes w.scratch a bs }, op')
      else (s, { op' with partial_ := true })
    | none => (s, { op' with partial_ := true })

/-- The leaf of a source page: R, and the format of the operation's first page (FORMAT_MIX otherwise). -/
def State.sourceLeaf (s : State) (op : CopyOp) (va : Nat) (fmt : Nat) : Except FaultDetail Leaf :=
  match s.engineLeaf op.core op.part (BitVec.ofNat 64 va) { r := true } (fun _ => true) with
  | .error d => .error d
  | .ok l =>
    if l.format != fmt then .error { code := codeFormatMix, addr := BitVec.ofNat 64 va, gen := l.gen } else .ok l

/-- A read of a unit, its bytes passed on. -/
def CopyRun.ofRead (op : CopyOp) (p : Performed) (f : State → List Byte → CopyRun) : CopyRun :=
  match p with
  | .done s bs _ => f s bs
  | .waits s => .waits s op
  | .fault s d => .fault s op d

/-- The entry of the block at va, read for an operation. -/
def State.readBlockEntry (s : State) (op : CopyOp) (l : Leaf) (va : Nat) : Performed :=
  match metaFault l va with
  | some d => .fault s d
  | none => s.engineRead op.agent op.core op.part (entryAddress l va).toNat 2 (· == 0)

/-- R198: an entry that is not valid, with its address. -/
def State.badEntryDetail (s : State) (op : CopyOp) (l : Leaf) (va : Nat) : FaultDetail :=
  let a := entryAddress l va
  { code := codeSelCheck, addr := a, gen := ((s.findLeaf op.core op.part a.toNat).toOption.map (·.gen)).getD 0 }

/-- The exact elements of a block as FP32 or BF16 bytes, with their sticky bits (R204, R255). -/
def decodedBlock (fmt mode : Nat) (bs : List Byte) (e : BitVec 16) : List Byte × BitVec 5 :=
  let f := if mode = 1 then fp32 else bf16
  let rs := (List.range (blockLen fmt)).map fun i => f.round 0 (decodeElem fmt bs e i)
  (rs.flatMap fun r => leBytes (if mode = 1 then 4 else 2) r.1, rs.foldl (fun a r => a ||| r.2) 0)

/-- The window of an operation: as it stands, or as it stood when its workgroup was flushed. -/
def State.copyWindow (s : State) (op : CopyOp) (off n : Nat) : List Byte :=
  match op.snap with
  | some bs => (bs.drop off).take n
  | none => Memory.getBytes (((s.wg? op.wg).map (·.scratch)).getD []) off n

/-- R258: element (a, b) of the source tile. -/
def State.tileElem (s : State) (op : CopyOp) (a b : Nat) : Word :=
  let c := op.cmd
  let x := ofLe (s.copyWindow op (cqSoff c + a * cqSpitch c + b * cqSize c) (cqSize c))
  if cqBf c then BitVec.ofNat 32 (x * 65536) else BitVec.ofNat 32 x

/-- R258: one block of CPYQ2: its data, then its entry. -/
def State.quantBlock (s : State) (op : CopyOp) (col : Bool) (line k : Nat) : CopyRun :=
  let c := op.cmd
  let fmt := cqFmt c col
  let n := blockLen fmt
  let xs := (List.range n).map fun i =>
    if col then s.tileElem op (k * n + i) line else s.tileElem op line (k * n + i)
  let q := quantise fmt (cqAllow c col) xs
  let va := (cqDst c col + BitVec.ofNat 64 (line * cqPitch c col + k * blockBytes fmt)).toNat
  match s.probe op.agent op.core op.part { w := true } (· == fmt) (pieces va (blockBytes fmt)) with
  | .fault d => .fault s op d
  | .waits pa => .waits (s.holdPool op.agent pa true) op
  | .ok => match s.findLeaf op.core op.part va with
    | .error code => .fault s op { code := code, addr := BitVec.ofNat 64 va }
    | .ok l =>
      let ea := (entryAddress l va).toNat
      match metaFault l va, s.probe op.agent op.core op.part { w := true } (· == 0) (pieces ea 2) with
      | some d, _ => .fault s op d
      | none, .fault d => .fault s op d
      | none, .waits pa => .waits (s.holdPool op.agent pa true) op
      | none, .ok =>
        let s := (s.engineWrite op.core op.part va q.bytes).engineWrite op.core op.part ea (leBytes 2 q.entry.toNat)
        .done s { op with exc := op.exc ||| q.flags }

/-- One unit of an operation. -/
def State.copyUnit (s : State) (op : CopyOp) (fmt : Nat) : CopyUnit → CopyRun
  | .raw va n => match s.sourceLeaf op va fmt with
    | .error d => .fault s op d
    | .ok _ => CopyRun.ofRead op (s.engineRead op.agent op.core op.part va n (fun _ => true)) fun s bs =>
        let r := s.fillSlot op bs
        .done r.1 r.2
  | .decoded va => match s.sourceLeaf op va fmt with
    | .error d => .fault s op d
    | .ok l => CopyRun.ofRead op (s.readBlockEntry op l va) fun s es =>
        let e := BitVec.ofNat 16 (ofLe es)
        if !entryValid e then .fault s op (s.badEntryDetail op l va)
        else CopyRun.ofRead op (s.engineRead op.agent op.core op.part va (blockBytes fmt) (fun _ => true)) fun s bs =>
          let d := decodedBlock fmt (cpMode op.cmd) bs e
          let r := s.fillSlot op d.1
          .done r.1 { r.2 with exc := r.2.exc ||| d.2 }
  | .entry va => match s.sourceLeaf op va fmt with
    | .error d => .fault s op d
    | .ok l => CopyRun.ofRead op (s.readBlockEntry op l va) fun s es =>
        let r := s.fillSlot op es
        .done r.1 r.2
  | .out off va n => match s.probe op.agent op.core op.part { w := true } (fun _ => true) (pieces va n) with
    | .fault d => .fault s op d
    | .waits pa => .waits (s.holdPool op.agent pa true) op
    | .ok => .done (s.engineWrite op.core op.part va (s.copyWindow op off n)) op
  | .block col line k => s.quantBlock op col line k

/-- Units in order, until one does not go through. -/
def State.runUnits (fmt : Nat) : List CopyUnit → State → CopyOp → CopyRun
  | [], s, op => .done s op
  | u :: us, s, op => match s.copyUnit op fmt u with
    | .done s op => State.runUnits fmt us s { op with units := op.units + 1 }
    | other => other

/-- R258: blocks of CPYQ2 start at multiples of their size. -/
def quantPlanFault (c : List DWord) : Option FaultDetail :=
  (([false, true].flatMap fun col => [cqDst c col, BitVec.ofNat 64 (cqPitch c col)].map fun a =>
    (a, blockBytes (cqFmt c col))).find? fun x => x.1.toNat % x.2 != 0).map fun x => { code := codeAlign, addr := x.1 }

/-- R255, R258: what an operation settles before its first unit: that it may run, and the format of its first source page. -/
def State.planCopy (s : State) (op : CopyOp) : Except FaultDetail CopyOp :=
  if op.fmt.isSome || op.kind == 1 then .ok op
  else if op.kind == 3 then match quantPlanFault op.cmd with
    | some d => .error d
    | none => .ok op
  else match s.engineLeaf op.core op.part (cpAddr op.cmd) { r := true } (fun _ => true) with
    | .error d => .error d
    | .ok l => match copyPlanFault op l with
      | some d => .error d
      | none => .ok { op with fmt := some l.format }

/-- The units that an operation has not done. -/
def CopyOp.unitsLeft (op : CopyOp) : List CopyUnit := (copyUnits op.kind op.cmd (op.fmt.getD 0)).drop op.units

/-- R182: the next n units of an operation; 0 means all that are left. -/
def State.runCopy (s : State) (op : CopyOp) (n : Nat) : CopyRun :=
  match s.planCopy op with
  | .error d => .fault s op d
  | .ok op => State.runUnits (op.fmt.getD 0) (if n = 0 then op.unitsLeft else op.unitsLeft.take n) s op

/-! ## Events of the engine (R245, R249) -/

def State.copy? (s : State) (core num : Nat) : Option CopyOp := s.copies.find? fun x => x.core == core && x.num == num

def State.setCopy (s : State) (op : CopyOp) : State :=
  { s with copies := s.copies.map fun x => if x.core == op.core && x.num == op.num then op else x }

/-- R264: the status words of an operation. -/
def CopyOp.status (op : CopyOp) : Word × Word :=
  (BitVec.ofNat 32 (op.fault % 256 * 2 ^ 24 + op.partial_.toNat * 65536 + op.exc.toNat), zext 32 op.dropped)

def State.noteCopy (s : State) (op : CopyOp) : State :=
  (s.setCopy op).setStatus op.core 0 op.num op.status.2 op.status.1

/-- R249: translation-class faults hold an operation. -/
def holdsEngine (c : BitVec 8) : Bool := c == codePageNotPresent || c == codeMigration

/-- COPY_COMMAND_START (R245): the first command of the queue, while fewer than 16 run; it waits for its own
release and the earlier ones of its warp, and its issuer's stores are written back for it (R172, R182, R247). -/
def execCopyCommandStart (core : Nat) (s : State) : Answer :=
  let busy := (s.copies.filter fun x => x.core == core && x.stage != .queued && x.stage != .done).length
  match s.copyQueue core with
  | [] => .next s
  | op :: _ =>
    if busy ≥ 16 || s.warpCommandWaits op.order op.scope op.wg op.warp op.issuedBy then .next s
    else .next ((s.commandActions core op.order op.scope).setCopy { op with stage := .running })

/-- The slot of a CPYIN becomes filled, or filled with error (R251, R265). -/
def State.markSlot (s : State) (wg : Nat) (op : CopyOp) : State × CopyOp :=
  match (s.wg? wg).bind (·.ring? op.ring) with
  | some x =>
    if x.ident == op.ident then
      (s.updWg wg fun w => w.updRing op.ring fun x => x.setSlot op.slot (.filled op.phase (op.fault != 0)), op)
    else (s, { op with partial_ := true })
  | none => (s, { op with partial_ := true })

/-- R249: an operation completes, with its fault's code, and leaves the engine; it is over once its number retires. -/
def State.endCopy (s : State) (op : CopyOp) : State :=
  let r := if op.kind == 0 then s.markSlot op.wg op else (s, op)
  (r.1.noteCopy { r.2 with stage := .done, data := [] }).completeNumber op.core 0 op.num

/-- R249, R251: a held operation ends with its fault: a CPYMC delivers its slots with error, any other completes. -/
def State.stopCopy (s : State) (op : CopyOp) : State :=
  if op.kind == 2 then s.setCopy { op with stage := .running } else s.endCopy op

/-- COPY_OP_COMPLETE (R182, R249, R255 to R260): the operation does as many of its units as the next pick says, and completes
with the last of them; a CPYMC completes when its last delivery has. -/
def execCopyOpComplete (core num : Nat) (s : State) : Answer :=
  match s.copy? core num with
  | none => .next s
  | some op =>
    if op.stage != .running then .next s
    else if op.kind == 2 && op.deliver == [] then .next (s.endCopy op)
    else if op.kind == 2 && op.fault != 0 then .next s
    else match s.runCopy op (s.picks.headD 0) with
      | .done s op => .next (if op.kind == 2 || op.unitsLeft != [] then s.setCopy op else s.endCopy op)
      | .waits s op => .next (s.setCopy op)
      | .fault s' op d =>
        if holdsEngine d.code || op.kind == 2 then .next s else .next (s'.endCopy { op with fault := d.code.toNat })

/-- R378: a record of an engine operation: its kind, core and number. -/
def State.engineRecord (s : State) (kind core part homeSlot handle wg num : Nat) (d : FaultDetail) : FaultRecord :=
  { seq := 0, code := d.code, kind := kind, hfail := false, core := core, slot := homeSlot, warp := 0, lane := 0,
    pc := BitVec.ofNat 64 num, addr := d.addr, info := 0, gen := d.gen, wmask := 0, handle := handle,
    ref := s.ref.toNat, raised := s.time, part := part, wg := wg, who := [] }

/-- COPY_TRANSLATION_FAULT (R249): what comes before the fault is done; the operation is held and a record goes out. -/
def execCopyTranslationFault (core num : Nat) (s : State) : Answer :=
  match s.copy? core num with
  | none => .next s
  | some op =>
    if op.stage != .running || op.fault != 0 then .next s
    else match s.runCopy op 0 with
      | .fault s' op d =>
        if holdsEngine d.code then
          .next ((s'.setCopy { op with stage := .faulted, fault := d.code.toNat }).reportRecord
            (s'.engineRecord 2 core op.part op.homeSlot op.handle op.wg num d))
        else .next s
      | _ => .next s

/-! ## Deliveries (R259, R260) -/

/-- The member of an operation's cohort with a number, unless it has ended. -/
def State.cohortMember (s : State) (op : CopyOp) (member : Nat) : Option Workgroup :=
  s.wgs.find? fun y => y.part == op.part && y.handle == op.handle && y.stage == op.pipeStage && y.cohort == op.cohort
    && y.member == member

/-- R260: a delivery: data and a filled slot where the member's ring is the operation's, else it is discarded. -/
def State.deliverTo (s : State) (op : CopyOp) (member : Nat) : State :=
  let rest := { op with deliver := op.deliver.filter (· != member) }
  let dropped := { rest with partial_ := true, dropped := rest.dropped ||| (1#16 <<< member) }
  match s.cohortMember op member with
  | none => s.noteCopy dropped
  | some w => match w.ring? op.ring with
    | none => s.noteCopy dropped
    | some x =>
      if w.place == .flushed || x.shape.drop 1 != op.shape.drop 1 then s.noteCopy dropped
      else
        let given := (cpMmask op.cmd).getLsbD member
        let a := x.base + op.slot * x.slotBytes + cpSoff op.cmd
        let put (w : Workgroup) : Workgroup :=
          let w := if given then { w with scratch := Memory.setBytes w.scratch a op.data } else w
          w.updRing op.ring fun x => x.setSlot op.slot (.filled op.phase (!given || op.fault != 0))
        (s.updWg w.id put).noteCopy rest

/-- MULTICAST_DELIVERY (R259, R260): the source is read whole before the first delivery; an operation that ends with a
fault delivers its slots with error. -/
def execMulticastDelivery (core num member : Nat) (s : State) : Answer :=
  match s.copy? core num with
  | none => .next s
  | some op =>
    if op.stage != .running || op.kind != 2 || !op.deliver.contains member then .next s
    else if op.fault != 0 then .next (s.deliverTo op member)
    else match s.runCopy op 0 with
      | .done s op => .next ((s.setCopy op).deliverTo op member)
      | .waits s op => .next (s.setCopy op)
      | .fault s' op d =>
        if holdsEngine d.code then .next s
        else
          let op := { op with fault := d.code.toNat }
          .next ((s'.setCopy op).deliverTo op member)

end Sys2Proof.Machine
end

