-- ==== Sys2Proof/Machine/Refresh.lean ====
section
/-!
DEFINITION. Refresh of the pseudo-channels and the activate budget of a stack agent (12_row R288, R290, R291).
-/

namespace Sys2Proof.Machine

/-! ## Refresh (R291) -/

def State.setRefresh (s : State) (x : Refresh) : State :=
  { s with refresh := x :: s.refresh.filter fun y => !(y.stack == x.stack && y.pch == x.pch) }

def realChannel (stack pch : Nat) : Bool := decide (stack < 8) && decide (pch < 64)

/-- R288, R291: refresh that counts as demand against a step on a bank: a forced all-bank refresh pending or in progress, a
refresh in progress on the bank, or one that is due or waits at the row boundary. -/
def Refresh.demands (x : Refresh) (bank now : Nat) : Bool :=
  x.forced || x.bankBusy bank || x.postponed != [] || decide (x.nextDue ≤ now)

/-- R291: the channel is in a row step. -/
def State.inRowStep (s : State) (stack pch : Nat) : Bool :=
  s.rows.any fun x => decide (s.time < x.busyUntil) && x.busyOn.contains (stack, pch)

/-- An address lies in a bank of a pseudo-channel. -/
def inBank (stack pch bank pa : Nat) : Bool :=
  tierOf pa == 0 && stackOf pa == stack && channelOf pa == pch && bankOf pa == bank

/-- R291: a demand access may be pending on a bank: an outstanding access of a thread, a dirty sector of L2, or any of an engine
at work. -/
def State.mayDemand (s : State) (stack pch bank : Nat) : Bool :=
  (s.ops.any fun o => o.kind.accesses.any fun a => inBank stack pch bank (s.homeAddr a.pa))
    || (s.l2.any fun x => x.dirty && inBank stack pch bank (x.sector * 128))
    || (s.copies.any fun x => x.stage == .running) || (s.rows.any fun x => x.path == 2 && x.stage == .running)
    || (s.moves.any fun m => m.phase == 1) || s.cores.any fun c => c.matrix.any (·.running)

/-- PER_BANK_REFRESH_DUE (R291): issued, postponed where the channel is in a row step or the bank is busy or has demand (whether
what may demand it has reached its queue, `picks` says, assumption log 4), forced all-bank for the ninth, or served by an
all-bank refresh in progress. -/
def execPerBankRefreshDue (stack pch : Nat) (s : State) : Answer :=
  let x := s.refreshOf stack pch
  if !realChannel stack pch || decide (s.time < x.nextDue) then .next s
  else
    let demand := (s.picks.headD 0 % 2 == 1 && s.mayDemand stack pch x.nextBank) || s.inRowStep stack pch
    let y := { x with nextBank := (x.nextBank + 1) % 16, nextDue := x.nextDue + clkOfNs 122 }
    let z :=
      if x.allBusy then y
      else if demand || x.bankBusy x.nextBank || x.forced then
        if x.postponed.length ≥ 8 then { y with forced := true } else { y with postponed := x.postponed ++ [x.nextBank] }
      else { y with busy := x.busy ++ [(some x.nextBank, s.time + clkOfNs 160)] }
    .next { s.setRefresh z with picks := s.picks.tail }

/-- POSTPONED_REFRESH_ISSUE (R291): the oldest postponed refresh, when its bank is idle. -/
def execPostponedRefreshIssue (stack pch : Nat) (s : State) : Answer :=
  let x := s.refreshOf stack pch
  match x.postponed with
  | [] => .next s
  | b :: bs =>
    if x.bankBusy b || x.forced || s.inRowStep stack pch then .next s
    else .next (s.setRefresh { x with postponed := bs, busy := x.busy ++ [(some b, s.time + clkOfNs 160)] })

/-- ALL_BANK_REFRESH (R291, R407): every bank refreshes, and every postponed refresh is discharged. -/
def execAllBankRefresh (stack pch : Nat) (s : State) : Answer :=
  let x := s.refreshOf stack pch
  if !x.forced || s.inRowStep stack pch then .next s
  else
    let s := s.setRefresh { x with forced := false, postponed := [], busy := [(none, s.time + clkOfNs 410)] }
    let count (l : Lifetime) : Lifetime := { l with forcedRefresh := bump (stack * 64 + pch) 1 l.forcedRefresh }
    .next ({ s with lifetime := count s.lifetime }.logEvent 1 (stack * 64 + pch))

/-- REFRESH_END (R291): refreshes whose time is over end. -/
def execRefreshEnd (stack pch : Nat) (s : State) : Answer :=
  let x := s.refreshOf stack pch
  if x.busy.any fun b => decide (b.2 ≤ s.time) then
    .next (s.setRefresh { x with busy := x.busy.filter fun b => decide (s.time < b.2) })
  else .next s

/-! ## The activate budget (R290, R402, R410) -/

/-- Activates of a stack in the last 100 ns, of one partition or of all. -/
def State.recentActivates (s : State) (stack : Nat) (part : Option Nat) : Nat :=
  ((s.activates.filter fun a => a.1 == stack && decide (s.time < a.2.1 + clkOfNs 100) && (match part with
    | some p => a.2.2.1 == p
    | none => true)).map (·.2.2.2.1)).foldl (· + ·) 0

/-- floor(48 × f), with f in eighths. -/
def State.activateBudget (s : State) : Nat := 6 * s.host.factor

/-- R290: the partition has run a row step on the stack in the last 100 ns. -/
def State.steppedLately (s : State) (stack part : Nat) : Bool :=
  s.activates.any fun a => a.1 == stack && decide (s.time < a.2.1 + clkOfNs 100) && a.2.2.1 == part && a.2.2.2.2

/-- R290: a step of n activates starts only within the budget and the partition's share of it, except that one step a window
needs no share. -/
def State.activatesFit (s : State) (stack part n : Nat) : Bool :=
  let share := ((s.part? part).map (·.activates)).getD 0
  let mine := s.recentActivates stack (some part)
  decide (s.recentActivates stack none + n ≤ s.activateBudget)
    && (decide (mine + n ≤ share * s.host.factor / 8) || (decide (0 < share) && !s.steppedLately stack part))

end Sys2Proof.Machine
end

