-- ==== Sys2Proof/Machine/Row.lean ====
section
/-!
DEFINITION. Row instructions, major 0x2A, and the events of row operations (12_row R268 to R293). Every path computes the
same bits (R276); what a path decides is the order of activates, suspensions and what a sealed copy moves.
-/

namespace Sys2Proof.Machine

/-! ## Commands (R270, R283) -/

def rwDst (c : List DWord) : DWord := c.getD 0 0
def rwA (c : List DWord) : DWord := c.getD 1 0
def rwB (c : List DWord) : DWord := c.getD 2 0
def rwNsrc (c : List DWord) : Nat := field (c.getD 3 0) 37 32
def rwStride (c : List DWord) : Nat := field (c.getD 3 0) 31 16
def rwEtype (c : List DWord) : Nat := field (c.getD 3 0) 15 14
def rwAcc (c : List DWord) : Bool := (c.getD 3 0).getLsbD 13
def rwNrows (c : List DWord) : Nat := field (c.getD 3 0) 11 0

/-- Whether a func uses srcb. -/
def usesB (func : Nat) : Bool := func == 2 || func == 3 || func == 5 || func == 6

/-- R283, checks 2 to 5; each fault records the failing value. -/
def rowFault (func : Nat) (c : List DWord) (wc : DWord) : Option FaultDetail :=
  let w3 := c.getD 3 0
  let enc (v : DWord) : Option FaultDetail := some { code := codeIllegalEncoding, addr := v }
  let addrs := [rwDst c, rwA c] ++ (if usesB func then [rwB c] else []) ++ (if func = 5 then [wc] else [])
  let rows := [rwDst c, rwA c] ++ (if usesB func && func != 6 then [rwB c] else []) ++ (if func = 5 then [wc] else [])
  if !usesB func && rwB c != 0 then enc (rwB c)
  else if field w3 63 38 != 0 || w3.getLsbD 12 || decide (rwEtype c ≥ 2) || (func == 6 && rwNrows c != 0)
      || (func != 6 && (rwNsrc c != 0 || rwStride c != 0 || rwEtype c != 0 || rwAcc c)) then enc w3
  else match addrs.find? fun a => decide (a.toNat ≥ 2 ^ 57) with
    | some a => some { code := codeProtection, addr := a }
    | none => match rows.find? fun a => a.toNat % 2048 != 0 with
      | some a => some { code := codeRowAlign, addr := a }
      | none => if func == 6 && (rwB c).toNat % 4 != 0 then some { code := codeAlign, addr := rwB c } else none

/-! ## Issue (R271, R272) -/

/-- A command that still holds an entry of its core's queue. -/
def RowOp.inCoreQueue (x : RowOp) : Bool :=
  x.stage == .queued || x.stage == .offered || (x.stage == .faulted && x.path == 3)

def State.enqueueRow (s : State) (g : Group) (w : Workgroup) (warp func ws : Nat) (c : List DWord) (wc : DWord) : State :=
  let num := s.nextNumber w.core 1
  let op : RowOp :=
    { core := w.core, num := num, part := w.part, wg := w.id, warp := warp, handle := w.handle, homeSlot := w.slot,
      func := func, cmd := c, wc := wc, order := g.order, scope := g.scope, stage := .queued, path := 3, rows := [],
      leaves := [], coeffs := [], swept := false, upc := 0, susp := 0, rekey := false, adopted := false, fault := 0, exc := 0, lanes := [],
      dstRead := false, busyOn := [], busyUntil := 0, issuedBy := s.nextId }
  let s := (s.takeNumber w.core 1).updWg w.id fun v =>
    let v := { v with marks := v.marks.set 1 num }
    if ws = 0 then v else v.updWarp warp fun x => x.setReg ws (BitVec.ofNat 64 num)
  { s.setStatus w.core 1 num 0 (BitVec.ofNat 32 (3 * 65536)) with rows := s.rows ++ [op] }

/-- A row command: once for each home warp with a live thread whose guard is true; the group holds until the core's queue has
an entry for every one of them (R272; the group of several warps is DEDUCED, log 17). -/
def rowWord (func : Nat) (k : BitVec 3) (ws : BitVec 5) (wc : Option (BitVec 5)) (guard : BitVec 3) (s : State) : Answer :=
  let acts (t : Thread) : Bool := t.guard guard false
  let rule : WordRule := { prefixKind := .mem, orders := [0, 2] }
  issue rule [] noFill
    (fun g s =>
      let n := ((s.homeWarps g).filter fun w => s.anyLive (s.warpGuarded g w acts)).length
      n != 0 && decide (((s.rows.filter fun x => x.core == g.core && x.inCoreQueue).length + n) > 16))
    (fun g s => s.eachWarp g acts fun w rs s =>
      match s.wg? w.1 with
        | none => s
        | some v =>
          let reg (n : Nat) : DWord := s.warpReg { wg := w.1, warp := w.2, lane := 0 } n
          let c := (List.range 4).map fun i => reg (4 * k.toNat + i)
          let x := (wc.map fun n => reg n.toNat).getD 0
          match rowFault func c x with
          | some d => s.raiseThese rs d (g.site g.pc)
          | none => if s.anyLive rs then s.enqueueRow g v w.2 func ws.toNat c x else s) s

/-- ROWCPY (R280). -/
def execRowcpy (o : KWrArgs) (s : State) : Answer := rowWord 0 o.k o.ws none o.guard s

/-- ROWFILL (R280). -/
def execRowfill (o : KWrArgs) (s : State) : Answer := rowWord 1 o.k o.ws none o.guard s

/-- ROWAND (R280). -/
def execRowand (o : KWrArgs) (s : State) : Answer := rowWord 2 o.k o.ws none o.guard s

/-- ROWOR (R280). -/
def execRowor (o : KWrArgs) (s : State) : Answer := rowWord 3 o.k o.ws none o.guard s

/-- ROWNOT (R280). -/
def execRownot (o : KWrArgs) (s : State) : Answer := rowWord 4 o.k o.ws none o.guard s

/-- ROWMAJ (R280). -/
def execRowmaj (o : RowMajArgs) (s : State) : Answer := rowWord 5 o.k o.ws (some o.wc) o.guard s

/-- ROWSAXPY (R281). -/
def execRowsaxpy (o : KWrArgs) (s : State) : Answer := rowWord 6 o.k o.ws none o.guard s

/-- ROWST (R282). -/
def execRowst (o : StatVArgs) (s : State) : Answer := statusWord 1 o s

/-! ## Operations -/

def State.rowOp? (s : State) (core num : Nat) : Option RowOp := s.rows.find? fun x => x.core == core && x.num == num

def RowOp.is (x y : RowOp) : Bool := x.core == y.core && x.num == y.num

/-- R282: the status words of an operation. -/
def RowOp.status (x : RowOp) : Word × Word :=
  (BitVec.ofNat 32 (x.fault % 256 * 2 ^ 24 + x.path % 4 * 65536 + x.adopted.toNat * 64 + x.exc.toNat),
    BitVec.ofNat 32 (min x.susp 65535 * 65536 + x.upc % 65536))

def State.setRow (s : State) (x : RowOp) : State :=
  ({ s with rows := s.rows.map fun (y : RowOp) => if y.is x then x else y }).setStatus x.core 1 x.num x.status.2 x.status.1

/-- An operation completes, with its fault's code, and retires in its turn. -/
def State.endRow (s : State) (x : RowOp) : State := (s.setRow { x with stage := .done }).completeNumber x.core 1 x.num

/-- R284: the operation is held, and a record names the core and the number. -/
def State.holdRow (s : State) (x : RowOp) (d : FaultDetail) : State :=
  (s.setRow { x with stage := .faulted, fault := 0 }).reportRecord
    (s.engineRecord 3 x.core x.part x.homeSlot x.handle x.wg x.num d)

/-- A fault of a plan or a step: held, or ended. -/
def State.faultRow (s : State) (x : RowOp) (d : FaultDetail) : State :=
  if holdsEngine d.code then s.holdRow x d else s.endRow { x with fault := d.code.toNat }

/-! ## The plan (R273, R274) -/

/-- The addresses of the rows of each operand: dst, A, B, C. -/
def RowOp.operands (x : RowOp) : List (List DWord) :=
  let run (a : DWord) (n : Nat) : List DWord := (List.range n).map fun r => a + BitVec.ofNat 64 (r * 2048)
  let n := rwNrows x.cmd + 1
  if x.func = 6 then
    [[rwDst x.cmd],
      (List.range (rwNsrc x.cmd + 1)).map fun i => rwA x.cmd + BitVec.ofNat 64 (i * rwStride x.cmd * 2048)]
  else
    [run (rwDst x.cmd) n, run (rwA x.cmd) (if x.func = 1 then 1 else n)]
      ++ (if usesB x.func then [run (rwB x.cmd) n] else []) ++ (if x.func = 5 then [run x.wc n] else [])

/-- What a plan, or a step, comes to. -/
inductive Planned (α : Type) where
  | ok (a : α)
  | waits (s : State)
  | fault (d : FaultDetail)

/-- R338: the operation as an agent that pool ownership holds. -/
def RowOp.poolAgent (x : RowOp) : List Nat := engineAgent 1 x.core x.num

/-- One operand row: the walk of the page tables, rights, format and pool ownership, for which it waits no longer than the
pool wait limit (R284, R338). -/
def State.planRow (s : State) (x : RowOp) (isDst : Bool) (va : DWord) : Planned (Leaf × Nat) :=
  let need : Rights := if isDst then { w := true, r := rwAcc x.cmd } else { r := true }
  match s.walk (s.rootOf x.part) va.toNat with
  | .error c => .fault { code := c, addr := va }
  | .ok l =>
    let pa := l.phys va.toNat
    if va.toNat ≥ 2 ^ 57 || !need.granted l then .fault { code := codeProtection, addr := va }
    else if l.format ≥ 7 || (x.func == 6 && l.format != 0) then
      .fault { code := codeFormatMismatch, addr := va, gen := l.gen }
    else if s.poolServes pa isDst then .ok (l, pa)
    else if s.poolHw x.part && !s.poolLate x.poolAgent x.part pa then .waits (s.holdPool x.poolAgent pa isDst)
    else .fault { code := codeMigration, addr := va, gen := l.gen }

def State.planRows (s : State) (x : RowOp) (isDst : Bool) : List DWord → Planned (List (Leaf × Nat))
  | [] => .ok []
  | va :: vas => match s.planRow x isDst va with
    | .fault d => .fault d
    | .waits s => .waits s
    | .ok r => match s.planRows x isDst vas with
      | .ok rs => .ok (r :: rs)
      | other => other

/-- R274: frames that agree. -/
def sameFrames (a b : Leaf × Nat) : Bool :=
  tierOf a.2 == tierOf b.2 && a.1.cls == b.1.cls && a.1.format == b.1.format && a.1.open_ == b.1.open_
    && a.1.fold == b.1.fold

/-- Every operand, then R274. -/
def State.planOperands (s : State) (x : RowOp) : Bool → List (List DWord) → Planned (List (List (Leaf × Nat)))
  | _, [] => .ok []
  | isDst, o :: os => match s.planRows x isDst o with
    | .fault d => .fault d
    | .waits s => .waits s
    | .ok rs =>
      if x.func != 6 && (match rs with
          | [] => false
          | r :: _ => rs.any fun y => !sameFrames r y) then .fault { code := codeRowAttr, addr := o.headD 0 }
      else match s.planOperands x false os with
        | .ok rss => .ok (rs :: rss)
        | other => other

/-- The rows of step r: destination first. -/
def stepRows (func : Nat) (rows : List (List Nat)) (r : Nat) : List Nat :=
  rows.mapIdx fun i o => o.getD (if func = 1 && i == 1 then 0 else r) 0

/-- All equal under some reading. -/
def allSame {α : Type} [BEq α] (l : List α) : Bool := match l with
  | [] => true
  | x :: xs => xs.all (· == x)

/-- R277: the source's fold key differs from the destination's. -/
def foldsDiffer (ls : List (List Leaf)) : Bool :=
  match ls with
  | (d :: _) :: (a :: _) :: _ => d.fold != a.fold
  | _ => false

/-- R273: the destination covers each of its frames whole. -/
def coversWhole (dst : DWord) (n : Nat) (ls : List Leaf) : Bool :=
  ls.all fun l => decide (dst.toNat ≤ l.vbase) && decide (l.vbase + l.size ≤ dst.toNat + n * 2048)

/-- The path: 0 subarray, 1 stack, 2 fallback. An operation whose rows span several stacks falls back (R272). -/
def State.choosePath (s : State) (x : RowOp) (rows : List (List Nat)) (ls : List (List Leaf)) : Nat :=
  let all := rows.flatten
  let leaves := ls.flatten
  let seals := leaves.any fun l => !l.open_
  let opens := leaves.any fun l => l.open_
  if all.any fun pa => s.isCleared pa then 2
  else if all.any fun pa => tierOf pa != 0 then 2
  else if seals && opens then 2
  else if decide (x.func ≥ 2) && seals then 2
  else if seals && foldsDiffer ls && !coversWhole (rwDst x.cmd) (rwNrows x.cmd + 1) (ls.headD []) then 2
  else if !allSame (all.map stackOf) then 2
  else if x.func = 6 then (if allSame (all.map channelOf) then 1 else 2)
  else if (List.range (rwNrows x.cmd + 1)).all fun r =>
      allSame ((stepRows x.func rows r).map fun pa => (channelOf pa, bankOf pa, subarrayOf pa)) then 0
  else 1

/-- R273: the coefficients. -/
def State.planCoeffs (s : State) (x : RowOp) : Performed :=
  if x.func = 6 then s.engineRead x.poolAgent x.core x.part (rwB x.cmd).toNat (4 * (rwNsrc x.cmd + 1)) (· == 0)
  else .done s [] true

/-- ROW_PLAN (R272, R273, R284): the first command of the core's queue that is not planned; those behind a plan that a fault
holds are planned on (DEDUCED, log 17). A command waits for its own release and the earlier ones of its warp (R182). -/
def execRowPlan (core num : Nat) (s : State) : Answer :=
  match s.rows.find? fun x => x.core == core && x.stage == .queued with
  | none => .next s
  | some x =>
    if x.num != num || s.warpCommandWaits x.order x.scope x.wg x.warp x.issuedBy then .next s
    else
      let s := s.commandActions core x.order x.scope
      match s.planOperands x true x.operands with
      | .fault d => .next (s.faultRow x d)
      | .waits s => .next s
      | .ok os => match (os.flatten.foldl (fun s r => s.noteFrame r.1.pa r.1.size x.part) s).planCoeffs x with
        | .fault s d => .next (s.faultRow x d)
        | .waits s => .next s
        | .done s bs _ =>
          let rows := os.map fun o => o.map (·.2)
          let ls := os.map fun o => o.map (·.1)
          let path := s.choosePath x rows ls
          let sealed := ls.flatten.all fun l => !l.open_
          let x' : RowOp :=
            { x with stage := .offered, rows := rows, leaves := ls, path := path,
                     coeffs := (List.range (bs.length / 4)).map (wordAt bs),
                     rekey := decide (path < 2) && sealed && foldsDiffer ls }
          let s := s.setRow x'
          .next { s with rows := s.rows.filter (fun (y : RowOp) => !y.is x) ++ [x'] }

/-! ## Acceptance and the sweep (R272, R285) -/

/-- The agent that takes an operation: a stack, or a compute die's fallback queue. -/
def RowOp.agent (x : RowOp) : Bool × Nat :=
  if x.path = 2 then (true, x.core / 64) else (false, stackOf ((x.rows.headD []).headD 0))

/-- ROW_STACK_ACCEPT (R272): in arrival order, while fewer than 64 wait there. -/
def execRowStackAccept (core num : Nat) (s : State) : Answer :=
  match s.rowOp? core num with
  | none => .next s
  | some x =>
    let first := s.rows.find? fun y => y.stage == .offered && y.agent == x.agent
    let waiting := (s.rows.filter fun y => y.stage == .accepted && y.agent == x.agent).length
    if x.stage == .offered && first.any (·.is x) && decide (waiting < 64) then .next (s.setRow { x with stage := .accepted })
    else .next s

/-- The pseudo-channels that an operation's rows lie in. -/
def RowOp.channels (x : RowOp) : List (Nat × Nat) :=
  if x.path = 2 then [] else distinct (x.rows.flatten.map fun pa => (stackOf pa, channelOf pa))

/-- The 16 sectors of a row. -/
def rowSectors (pa : Nat) : List Nat := (List.range 16).map fun i => pa / 128 + i

/-- R285: the destination's sectors leave L2, and on coherent pages every L1; watches on them trigger (R305). -/
def State.invalidateRows (s : State) (pas : List Nat) (ls : List Leaf) : State :=
  let coherent (i : Nat) : Bool := (ls[i]?).any fun l => l.cls == .coherent
  (pas.mapIdx fun i pa => (pa, coherent i)).foldl (fun s r =>
    (rowSectors (s.homeAddr r.1)).foldl (fun s n =>
      let s := s.l2Drop n
      if r.2 then (s.invalidateOthers s.cores.length n).triggerWatches n true else s) s) s

/-- ROW_SWEEP (R285, R272): once the operation has its pseudo-channels to itself. While the stall window of a page that moves
(R326) lets some source sector not through, the sweep goes on later. -/
def execRowSweep (core num : Nat) (s : State) : Answer :=
  match s.rowOp? core num with
  | none => .next s
  | some x =>
    let taken := (s.rows.filter fun y => y.swept && y.stage != .done).flatMap (·.channels)
    if x.stage != .accepted || x.channels.any taken.contains || x.rows.flatten.any s.windowFull then .next s
    else
      let srcs := x.rows.tail.flatten ++ (if rwAcc x.cmd then x.rows.headD [] else [])
      let s := srcs.foldl (fun s pa => (rowSectors (s.homeAddr pa)).foldl (fun s n => s.l2WriteBack n) s) s
      if srcs.any fun pa => (rowSectors (s.homeAddr pa)).any fun n => (s.l2Sector? n).any (·.dirty) then .next s else
      let s := s.invalidateRows (x.rows.headD []) (x.leaves.headD [])
      let hit := distinct ((x.rows.flatten.filter fun pa => tierOf pa == 0).map stackOf)
      let count (l : Lifetime) : Lifetime :=
        { l with fallbackRows := hit.foldl (fun m k => bump k 1 m) l.fallbackRows }
      let s := if x.path = 2 then hit.foldl (fun s k => s.logEvent 2 k) { s with lifetime := count s.lifetime } else s
      .next (s.setRow { x with stage := .running, swept := true })

/-! ## Row steps (R275, R278 to R281) -/

/-- What the operation does next. -/
inductive RowStep where
  | row (r : Nat)
  | dstRead
  | source (i half : Nat)
  | dstWrite
  deriving DecidableEq, Repr

def RowOp.nextStep (x : RowOp) : RowStep :=
  if x.func != 6 then .row x.upc
  else if rwAcc x.cmd && !x.dstRead then .dstRead
  else
    let halves := if rwEtype x.cmd = 1 then 2 else 1
    if x.upc < (rwNsrc x.cmd + 1) * halves then .source (x.upc / halves) (x.upc % halves) else .dstWrite

/-- Physical rows that a step touches: destination first. -/
def RowOp.rowsOf (x : RowOp) : RowStep → List Nat
  | .row r => stepRows x.func x.rows r
  | .dstRead => [(x.rows.headD []).headD 0]
  | .source i _ => [(x.rows.getD 1 []).getD i 0]
  | .dstWrite => [(x.rows.headD []).headD 0]

/-- R279: a source row of the step has a unit with one symbol in error. -/
def State.stepCorrects (s : State) (x : RowOp) (st : RowStep) : Bool :=
  (s.damage.take ((x.rowsOf st).length - 1)).any fun d => d.1 % 2 ^ 32 != 0

/-- R275, R279: activates that a step counts: a subarray step in which a unit is corrected costs what a stack step does. -/
def State.stepActivates (s : State) (x : RowOp) (st : RowStep) : Nat :=
  if x.path = 0 && !s.stepCorrects x st then 3 else (x.rowsOf st).length

/-- The leaf of row r of operand i. -/
def RowOp.leafOf (x : RowOp) (i r : Nat) : Leaf :=
  ((x.leaves.getD i []).getD r ((x.leaves.getD i []).headD
    { vbase := 0, size := 4096, pa := 0, pte := 0, gen := 0, fold := 0, format := 0, cls := .priv, open_ := true,
      pin := false, nodemote := false, pref := 0, r := false, w := false, x := false, metaBase := 0 }))

/-- R279: a source row as its step reads it, if its frame's generation is the plan's (R185), each unit checked and those with
one symbol in error corrected; the reads are counted (R317). An error keeps the state that the read leaves. -/
def State.readRow (s : State) (pa : Nat) (l : Leaf) : Except (State × BitVec 8) (State × List Byte) :=
  if !s.genOk l pa then .error (s, codeGenStale)
  else
    let a := s.homeAddr pa
    let us := (List.range 32).map fun i => a / 64 + i
    let d := s.damage.headD (0, 0, 0)
    let bad (u : Nat) : Option Poison := s.checkDamaged u l.fold l.open_ (damageOf d (u % 32))
    let s' := (s.countAccess a 16 false).correctUnits us d.1 l.fold l.open_ fun u => !s.isCleared (u * 64) && (bad u).isNone
    let s' := { s' with damage := s'.damage.tail }
    match us.findSome? bad with
    | some p => .error (s', p.code)
    | none => .ok (s', us.flatMap fun u => s.unitBytes u l.fold l.open_)

/-- A destination row is written whole, under a fold key, if its frame's generation is the plan's (R278, R284). -/
def State.writeRow (s : State) (pa : Nat) (l : Leaf) (fold : BitVec 16) (bs : List Byte) : Option State :=
  if !s.genOk l pa then none
  else
    let a := s.homeAddr pa
    let s := (s.tierWrite a bs fold l.open_).countAccess a 16 true
    some (((List.range 32).map fun i => a / 64 + i).foldl (fun s u => s.stampUnit u fold l.open_ false) s)

/-- R280: the destination row. -/
def rowLogic (func : Nat) (a b c : List Byte) : List Byte :=
  match func with
  | 0 => a
  | 1 => a
  | 2 => List.zipWith (· &&& ·) a b
  | 3 => List.zipWith (· ||| ·) a b
  | 4 => a.map (~~~ ·)
  | _ => List.zipWith (· ||| ·) (List.zipWith (· ||| ·) (List.zipWith (· &&& ·) a b) (List.zipWith (· &&& ·) a c))
      (List.zipWith (· &&& ·) b c)

/-- R281: 512 lanes of a row or of half of a BF16 row, widened. -/
def widenRow (bf : Bool) (half : Nat) (bs : List Byte) : List Word :=
  if bf then (List.range 512).map fun j =>
    BitVec.ofNat 32 (ofLe ((bs.drop (half * 1024 + 2 * j)).take 2) * 65536)
  else (List.range 512).map (wordAt bs)

/-- R281: one source step on 512 lanes; `first`: there is no lane value yet. -/
def saxpyStep (first : Bool) (a : Word) (xs lanes : List Word) : List Word × BitVec 5 :=
  let one (x l : Word) : FResult :=
    if first then mulF32 0 a x else word32 (fp32.op 0 ((f32 a).fma 0 (f32 x) (f32 l)))
  let rs := List.zipWith one xs lanes
  (rs.map (·.1), rs.foldl (fun e r => e ||| r.2) 0)

/-- R281: the destination row from the lanes. -/
def saxpyRow (bf : Bool) (lanes : List Word) : List Byte × BitVec 5 :=
  if bf then
    let rs := lanes.map fun l => bf16.round 0 (f32 l)
    (rs.flatMap fun r => leBytes 2 r.1, rs.foldl (fun e r => e ||| r.2) 0)
  else (lanes.flatMap fun l => leBytes 4 l.toNat, 0)

/-- Two halves of lanes, one of them replaced. -/
def putHalf (lanes : List Word) (half : Nat) (new : List Word) : List Word :=
  if half = 0 then new ++ lanes.drop 512 else lanes.take 512 ++ new

/-- The effect of a step on memory and on the operation; an error is the code that ends it, with the state it leaves. -/
def State.rowStep (s : State) (x : RowOp) (st : RowStep) : Except (State × BitVec 8) (State × RowOp) :=
  let bf := rwEtype x.cmd == 1
  let at_ (i r : Nat) : Nat := (x.rows.getD i []).getD r 0
  match st with
  | .row r =>
    let ra := if x.func = 1 then 0 else r
    match s.readRow (at_ 1 ra) (x.leafOf 1 ra) with
    | .error c => .error c
    | .ok (s, a) =>
      let second := if usesB x.func then s.readRow (at_ 2 r) (x.leafOf 2 r) else .ok (s, [])
      match second with
      | .error c => .error c
      | .ok (s, b) =>
        let third := if x.func = 5 then s.readRow (at_ 3 r) (x.leafOf 3 r) else .ok (s, [])
        match third with
        | .error c => .error c
        | .ok (s, c) =>
          let d := x.leafOf 0 r
          let moved := decide (x.path < 2) && !d.open_
          match s.writeRow (at_ 0 r) d (if moved then (x.leafOf 1 ra).fold else d.fold) (rowLogic x.func a b c) with
          | none => .error (s, codeGenStale)
          | some s => .ok (s, { x with upc := r + 1 })
  | .dstRead => match s.readRow (at_ 0 0) (x.leafOf 0 0) with
    | .error c => .error c
    | .ok (s, bs) =>
      .ok (s, { x with dstRead := true, lanes := widenRow bf 0 bs ++ (if bf then widenRow bf 1 bs else []) })
  | .source i half => match s.readRow (at_ 1 i) (x.leafOf 1 i) with
    | .error c => .error c
    | .ok (s, bs) =>
      let old := if x.lanes == [] then List.replicate (if bf then 1024 else 512) 0 else x.lanes
      let r := saxpyStep (i == 0 && !rwAcc x.cmd) (x.coeffs.getD i 0) (widenRow bf half bs) ((old.drop (512 * half)).take 512)
      .ok (s, { x with upc := x.upc + 1, lanes := putHalf old half r.1, exc := x.exc ||| r.2 })
  | .dstWrite =>
    let r := saxpyRow bf x.lanes
    match s.writeRow (at_ 0 0) (x.leafOf 0 0) (x.leafOf 0 0).fold r.1 with
    | none => .error (s, codeGenStale)
    | some s => .ok (s, { x with exc := x.exc ||| r.2 })

/-- Whether a step was the last. -/
def RowOp.finishedBy (x : RowOp) (st : RowStep) : Bool := match st with
  | .row r => decide (r ≥ rwNrows x.cmd)
  | .dstWrite => true
  | _ => false

/-! ## Rekeying (R277) -/

/-- The frame of a leaf takes a fold key and the next generation; units keep the keys they were written under. -/
def State.rekeyFrame (s : State) (l : Leaf) (fold : BitVec 16) : State :=
  s.updFrame l.pa l.pa l.size fun f => { f with fold := fold, gen := f.gen + 1 }

/-- Fold key and generation in a page table entry and its replicas (R388: bits [111:96] and [127:112]). -/
def State.writePteKeys (s : State) (pte : Nat) (fold gen : BitVec 16) : State :=
  (s.replicas pte).foldl (fun s p =>
    s.l2Patch (p + 12) (leBytes 2 fold.toNat ++ leBytes 2 gen.toNat)) s

/-- R392, R393: no TLB holds a translation of a partition for part of a range any more; watches on its lines trigger. -/
def State.dropTranslations (s : State) (part lo len : Nat) : State :=
  let hit (e : TlbEntry) : Bool :=
    e.part == part && decide (e.leaf.vbase < lo + len) && decide (lo < e.leaf.vbase + e.leaf.size)
  { s with cores := s.cores.map fun c => { c with tlb := c.tlb.filter fun e => !hit e },
           l2tlb := s.l2tlb.filter fun e => !hit e.2 }

/-- Watches on the lines of a physical range trigger (R305). -/
def State.triggerRange (s : State) (pa len : Nat) : State :=
  s.triggerWhere fun _ w => decide (pa / 128 ≤ w.line) && decide (w.line < (pa + len) / 128)

/-- R277: each destination frame adopts the source's fold key. -/
def State.adoptKeys (s : State) (x : RowOp) : State :=
  if !x.rekey then s
  else
    let fold := (x.leafOf 1 0).fold
    (distinct (x.leaves.headD [])).foldl (fun s l =>
      let s := s.rekeyFrame l fold
      let s := s.writePteKeys l.pte fold (s.frame l.pa).gen
      (s.dropTranslations x.part l.vbase l.size).triggerRange l.pa l.size) s

/-- After the last step: keys, the second invalidation, retirement (R277, R285). -/
def State.finishRow (s : State) (x : RowOp) : State :=
  ((s.adoptKeys x).invalidateRows (x.rows.headD []) (x.leaves.headD [])).endRow { x with adopted := x.rekey }

/-- An operation that has swept ends with a fault: what it wrote stays written, and no fill made meanwhile survives
(R279, R284, R285). -/
def State.failRow (s : State) (x : RowOp) (code : BitVec 8) : State :=
  let s := if x.swept then s.invalidateRows (x.rows.headD []) (x.leaves.headD []) else s
  s.endRow { x with fault := code.toNat }

/-! ## Stepping, suspending and resuming (R284, R288) -/

/-- R338: ownership of the pool rows of a fallback step, for which it waits no longer than the pool wait limit. -/
def State.stepPool (s : State) (x : RowOp) (st : RowStep) : Planned Unit :=
  let rows := x.rowsOf st
  let dst := match st with
    | .row _ => some (rows.headD 0)
    | .dstWrite => some (rows.headD 0)
    | _ => none
  match rows.find? fun pa => !s.poolServes pa (dst == some pa) with
  | none => .ok ()
  | some pa =>
    if s.poolHw x.part && !s.poolLate x.poolAgent x.part pa then .waits (s.holdPool x.poolAgent pa (dst == some pa))
    else match (x.rows.flatten.zip (x.operands.flatten.zip x.leaves.flatten)).find? (·.1 == pa) with
      | some r => .fault { code := codeMigration, addr := r.2.1, gen := r.2.2.gen }
      | none => .fault { code := codeMigration, addr := 0 }

/-- R288: whether the step's channels have refresh that counts as demand. -/
def State.refreshDemand (s : State) (x : RowOp) (st : RowStep) : Bool :=
  (x.rowsOf st).any fun pa => (s.refreshOf (stackOf pa) (channelOf pa)).demands (bankOf pa) s.time

/-- R275: how long a row step lasts. -/
def RowOp.stepTime (x : RowOp) : Nat := clkOfNs (if x.path = 0 then 70 else if x.func = 6 then 96 else 150)

/-- R288: an operation that may perform a step now. -/
def RowOp.steps (x : RowOp) (now : Nat) : Bool := match x.stage with
  | .running => decide (x.busyUntil ≤ now)
  | .resumed ready => decide (ready ≤ now)
  | _ => false

/-- One step is performed, and the last one ends the operation. -/
def State.doRowStep (s : State) (x : RowOp) (st : RowStep) : State :=
  match s.rowStep x st with
  | .error (s, c) => s.failRow x c
  | .ok (s, x) => if x.finishedBy st then s.finishRow x else s.setRow { x with stage := .running }

/-- ROW_STEP (R280, R281, R284, R288, R290): at a row boundary of an in-DRAM path the operation suspends for demand (which
`picks` says, assumption log 4) or for refresh; a step waits for the activate budget. -/
def execRowStep (core num : Nat) (s : State) : Answer :=
  match s.rowOp? core num with
  | none => .next s
  | some x =>
    let st := x.nextStep
    if !x.steps s.time || (x.rowsOf st).any s.windowFull then .next s
    else if x.path = 2 then match s.stepPool x st with
      | .waits s => .next s
      | .fault d => .next (s.holdRow x d)
      | .ok _ => .next (((x.rowsOf st).foldl (fun s pa => s.demandActivate (s.homeAddr pa)) s).doRowStep x st)
    else
      let demand := s.picks.headD 0 % 2 == 1 || s.refreshDemand x st
      let s := { s with picks := s.picks.tail }
      if x.stage == .running && demand then
        .next (s.setRow { x with stage := .suspended s.time s.time, susp := min (x.susp + 1) 65535 })
      else
        let stack := stackOf ((x.rowsOf st).headD 0)
        let n := s.stepActivates x st
        if !s.activatesFit stack x.part n then .next s
        else
          let held := distinct ((x.rowsOf st).map fun pa => (stackOf pa, channelOf pa))
          .next ((s.noteActivates stack x.part n true).doRowStep { x with busyOn := held, busyUntil := s.time + x.stepTime } st)

/-- R288: the queues of a suspended operation are not empty while refresh counts as demand, here until `now`; what its queues
hold otherwise is the device's own, and it resumes later for it (log 17). -/
def State.noteRow (s : State) (now : Nat) (x : RowOp) : RowOp := match x.stage with
  | .suspended since _ => if s.refreshDemand x x.nextStep then { x with stage := .suspended since now } else x
  | _ => x

/-- What the stack agents note at each step, which ends at `now`. -/
def State.noteRows (s : State) (now : Nat) : State := { s with rows := s.rows.map (s.noteRow now) }

/-- ROW_RESUME (R288): after a continuous 16 ns without demand, or after 2,000 ns; resuming takes 12 ns. -/
def execRowResume (core num : Nat) (s : State) : Answer :=
  match s.rowOp? core num with
  | none => .next s
  | some x => match x.stage with
    | .suspended since quiet =>
      if (decide (quiet + clkOfNs 16 ≤ s.time) && !s.refreshDemand x x.nextStep) || decide (since + clkOfNs 2000 ≤ s.time) then
        .next (s.setRow { x with stage := .resumed (s.time + clkOfNs 12) })
      else .next s
    | _ => .next s

end Sys2Proof.Machine
end

