-- ==== Sys2Proof/Machine/Sync.lean ====
section
/-!
DEFINITION. Barriers, watches, waits on values, timelines and sleep: the words of major 0x2B and the events that lift
their holds (13_sync_wait R295 to R311).
-/

namespace Sys2Proof.Machine

/-! ## Words per thread (R295, R296) -/

/-- A word that does something once for each member whose guard is true, in ascending lane order. -/
def threadWord (rule : WordRule) (guard : BitVec 3) (regs srcs : List Nat) (hold : Group → State → Bool)
    (f : Group → TRef → Thread → State → State) (s : State) : Answer :=
  let acts (t : Thread) : Bool := t.guard guard false
  issue rule regs (fillSources rule acts srcs) hold (fun g s => s.eachActing g acts fun _ r t s => f g r t s) s

/-- R296: a wait word is the last of its clause. -/
def waitRule : WordRule := { last := true }

/-- The thread of an event, while its workgroup is resident and it is neither parked nor exited. -/
def State.running? (s : State) (r : TRef) : Option Thread :=
  match s.wg? r.wg with
  | some w => if w.place == .resident then (w.thread? r.warp r.lane).filter (·.executes) else none
  | none => none

/-! ## Barriers (R298 to R303) -/

/-- R301: an arrival is a release at .wg: the group holds until the earlier accesses of its members have performed. -/
def releaseHold (guard : BitVec 3) (g : Group) (s : State) : Bool :=
  (s.active g).any fun r => (s.thread? r).any fun t => t.guard guard false && s.releaseWaits r 0 s.nextId

/-- BARA and BARW: arrivals in ascending lane order. -/
def arrivalWord (wait : Bool) (o : BarFArgs) (s : State) : Answer :=
  let b := o.bar.toNat
  let srcs := if b = 0 then [] else [o.vc.toNat]
  threadWord waitRule o.guard srcs srcs (releaseHold o.guard)
    (fun g r t s => s.arrive arriveFuel r b (t.reg o.vc.toNat).toNat wait (g.site g.pc)) s

/-- BARA (R299). -/
def execBara (o : BarFArgs) (s : State) : Answer := arrivalWord false o s

/-- BARW (R299, R300). -/
def execBarw (o : BarFArgs) (s : State) : Answer := arrivalWord true o s

/-- BARS (R303). -/
def execBars (o : BarsArgs) (s : State) : Answer :=
  threadWord {} o.guard [o.vd.toNat] [] noHold
    (fun _ r _ s => match s.wg? r.wg with
      | some w => s.updThread r fun t => t.setReg o.vd.toNat (w.barState o.bar.toNat)
      | none => s) s

/-- BARRIER_TIMER_EXPIRY (R302): a phase has not completed %barto ticks after its timer started. -/
def execBarrierTimerExpiry (wg bar : Nat) (s : State) : Answer :=
  match s.wg? wg with
  | none => .next s
  | some w =>
    match (w.bar bar).timer with
    | some t =>
      if w.place == .resident && w.barto != 0 && decide (t + clkOfTicks w.barto ≤ s.time) then
        .next (s.barrierStall wg bar)
      else .next s
    | none => .next s

/-! ## Watches (R304 to R306) -/

/-- WARM at issue: an acquire load at .pkg. -/
def execWarm (o : PairQArgs) (s : State) : Answer :=
  let acts (t : Thread) : Bool := t.guard o.guard false
  let va := o.va.toNat
  issue {} [o.vd.toNat, va, va + 1] (fillSources {} acts [va, va + 1]) (flagFull o.fs acts)
    (fun g s => s.eachActing g acts fun word r t s =>
      s.issueAccess g r (some o.fs) word (t.reg64 va) 4 { r := true } 1 2 .warm o.vd.toNat 1) s

/-- The armed watches of a core's threads that have not triggered, which alone count as armed (DEDUCED, log 18): their
threads and order. -/
def State.armedOn (s : State) (core : Nat) : List (TRef × Nat) :=
  (s.wgs.filter fun w => w.core == core && w.place == .resident).flatMap fun w =>
    w.threads.filterMap fun t => match t.watch with
      | some x => if x.triggered then none else some (t.ref w.id, x.order)
      | none => none

/-- R304: room for one more watch: the oldest of 1,024 is triggered. -/
def State.evictWatch (s : State) (core : Nat) (r : TRef) : State :=
  let armed := s.armedOn core
  if decide (armed.length < 1024) || armed.any (·.1 == r) then s
  else match armed.mergeSort fun x y => decide (x.2 ≤ y.2) with
    | x :: _ => s.updThread x.1 fun t => t.trigger s.time
    | [] => s

/-- R304: a thread's watch is armed. -/
def State.armWatch (s : State) (core : Nat) (a : Access) (r : TRef) : State :=
  let s := s.evictWatch core r
  let w : Watch := { line := s.homeAddr a.pa / 128, va := a.va, coherent := a.leaf.cls == .coherent, triggered := false,
                     order := s.nextId }
  { s.updThread r (fun t => if t.status == .exited then t else { t with watch := some w }) with nextId := s.nextId + 1 }

/-- WARM_COMPLETE (R304): the read performs and arms the watch in one act. -/
def execWarmComplete (op keep : Nat) (s : State) : Answer :=
  match s.op? op with
  | some o => match o.kind with
    | .warm a =>
      if s.opWaits o then .next s
      else match s.performRead (s.opCore o) (s.opPart o) a with
        | .done s' bs _ =>
          .next (s'.complete o keep (.done (o.who.foldl (fun x r => x.armWatch (s.opCore o) a r) s') [wordAt bs 0] 0))
        | .waits s' => .next (s.complete o keep (.waits s'))
        | .fault s' d => .next (s.complete o keep (.fault s' d))
    | _ => .next s
  | none => .next s

/-- R306: one thread's WWAIT. -/
def Thread.wwait (t : Thread) (now : Nat) : Thread :=
  match t.watch with
  | some w => if w.triggered then { t with watch := none } else { t with hold := some (.wwait now) }
  | none => t

/-- WWAIT (R306). -/
def execWwait (o : G0Args) (s : State) : Answer :=
  threadWord waitRule o.guard [] [] noHold (fun _ r _ s => s.updThread r fun t => t.wwait s.time) s

/-- SPURIOUS_TRIGGER (R305): the device may trigger a watch at any time. -/
def execSpuriousTrigger (wg warp lane : Nat) (s : State) : Answer :=
  let r : TRef := { wg := wg, warp := warp, lane := lane }
  .next (s.updThread r fun t => t.trigger s.time)

/-- R306: a hold on a page that is not coherent has lasted 200 ticks. -/
def Thread.wwaitLate (t : Thread) (now : Nat) : Bool :=
  match t.hold, t.watch with
  | some (.wwait since), some w => !w.coherent && decide (since + clkOfTicks 200 ≤ now)
  | _, _ => false

/-- WWAIT_TIMEOUT (R306). -/
def execWwaitTimeout (wg warp lane : Nat) (s : State) : Answer :=
  let r : TRef := { wg := wg, warp := warp, lane := lane }
  match s.running? r with
  | some t => if t.wwaitLate s.time then .next (s.updThread r fun t => t.trigger s.time) else .next s
  | none => .next s

/-! ## WAITV (R307, R308) -/

/-- R307: whether a condition holds for a word. -/
def Cond.holds (c : Cond) (x : Word) : Bool :=
  match c.cond with
  | 0 => x == c.cmp
  | 1 => x != c.cmp
  | 2 => decide (x.toNat < c.cmp.toNat)
  | 3 => decide (c.cmp.toNat ≤ x.toNat)
  | 4 => decide (x.toInt < c.cmp.toInt)
  | 5 => decide (c.cmp.toInt ≤ x.toInt)
  | 6 => x &&& c.cmp != 0
  | _ => x &&& c.cmp == 0

/-- R307: the enabled conditions of a block of words: index, word, compare value. -/
def enabledWords (ws : List DWord) (cs : List Word) : List (Nat × DWord × Word) :=
  (List.range 4).filterMap fun i =>
    let w := ws.getD i 0
    if w.getLsbD 63 then some (i, w, cs.getD i 0) else none

def condAddr (w : DWord) : DWord := BitVec.ofNat 64 (field w 56 0)

/-- R307: the condition that a word states. -/
def condOf (x : Nat × DWord × Word) : Cond :=
  { idx := x.1, cond := field x.2.1 62 60, addr := field x.2.1 56 0, cmp := x.2.2 }

/-- R307: the checks at issue: reserved fields, alignment, translation (assumption log 18). -/
def State.waitvFault (s : State) (core part : Nat) (es : List (Nat × DWord × Word)) : Option FaultDetail :=
  if es.any fun e => field e.2.1 59 57 != 0 then some { code := codeIllegalEncoding }
  else match es.find? fun e => field e.2.1 56 0 % 4 != 0 with
    | some e => some { code := codeAlign, addr := condAddr e.2.1 }
    | none => es.findSome? fun e => match s.checkAccess core part (condAddr e.2.1) 4 { r := true } with
      | .error d => some d
      | .ok _ => none

/-- R307: the result on lifting. -/
def waitvResult (tout : Bool) (met : Nat) : Word := BitVec.ofBool tout ++ BitVec.ofNat 31 met

/-- WAITV for one thread. -/
def State.waitv (s : State) (g : Group) (r : TRef) (t : Thread) (o : WaitvArgs) : State :=
  let vt := o.vt.toNat
  let es := enabledWords ((List.range 4).map fun i => s.warpReg r (4 * o.k.toNat + i))
    ((List.range 4).map fun i => t.reg (o.vc.toNat + i))
  match s.waitvFault (s.coreOf r.wg) (s.partOf r.wg) es with
  | some d => s.raise r d (g.site g.pc)
  | none =>
    let limit := (t.reg vt).toNat
    if es.isEmpty && o.all then s.updThread r fun t => t.setReg vt (waitvResult false 0)
    else if es.isEmpty && limit == 0 then s.updThread r fun t => t.setReg vt (waitvResult true 0)
    else
      let deadline := if limit = 0 then none else some (s.ref.toNat + limit)
      s.updThread r fun t => { t with hold := some (.waitv (es.map condOf) o.all vt deadline 0 (g.site g.pc)) }

/-- WAITV (R307). -/
def execWaitv (o : WaitvArgs) (s : State) : Answer :=
  let vc := o.vc.toNat
  let regs := [o.vt.toNat, vc, vc + 1, vc + 2, vc + 3]
  threadWord waitRule o.guard regs regs noHold (fun g r t s => s.waitv g r t o) s

/-- What an evaluation finds: the conditions that hold, or a fault, or nothing yet. -/
inductive Evaluated where
  | done (s : State) (met : Nat)
  | waits (s : State)
  | fault (s : State) (d : FaultDetail)

/-- One evaluation: every enabled word is read once, as a relaxed load at .pkg. -/
def State.evaluate (s : State) (r : TRef) (core part : Nat) : List Cond → Nat → Evaluated
  | [], met => .done s met
  | c :: cs, met =>
    match s.checkAccess core part (BitVec.ofNat 64 c.addr) 4 { r := true } with
    | .error d => .fault s d
    | .ok l =>
      match (s.tlbInsert core part l).performRead core part (mkAccess (BitVec.ofNat 64 c.addr) 4 l 0 2) with
      | .fault s d => .fault s d
      | .waits s' =>
        if s.poolLate (waitvAgent r c.idx) part (l.phys c.addr) then
          .fault s' { code := codeMigration, addr := BitVec.ofNat 64 c.addr, gen := l.gen }
        else .waits (s'.holdPool (waitvAgent r c.idx) (l.phys c.addr) false)
      | .done s bs _ => s.evaluate r core part cs (if c.holds (wordAt bs 0) then met + 2 ^ c.idx else met)

/-- Earlier accesses of the thread to a word of the conditions have yet to perform (R174). -/
def State.waitvWaits (s : State) (r : TRef) (cs : List Cond) : Bool :=
  cs.any fun c => match s.findLeaf (s.coreOf r.wg) (s.partOf r.wg) c.addr with
    | .ok l =>
      let a := mkAccess (BitVec.ofNat 64 c.addr) 4 l 0 2
      s.mustWait [r] s.nextId s.nextId (.load 4 a none) (a.foot true false)
    | .error _ => false

/-- R307: the hold ends with a result. -/
def Thread.endWaitv (t : Thread) (vt : Nat) (x : Word) (now : Nat) : Thread := (t.setReg vt x).lift now

/-- R307: what an evaluation does to its thread. -/
def State.settleWaitv (s : State) (r : TRef) (cs : List Cond) (all : Bool) (vt met : Nat) : State :=
  let enough := if all then cs.all fun c => met / 2 ^ c.idx % 2 == 1 else met != 0
  let note (h : Hold) : Hold := match h with
    | .waitv cs all vt d _ site => .waitv cs all vt d met site
    | h => h
  s.updThread r fun t =>
    if enough then t.endWaitv vt (waitvResult false met) s.time else { t with hold := t.hold.map note }

/-- R307: two ticks after the deadline the time-out has lifted the hold. -/
def State.overdue (s : State) (deadline : Option Nat) : Bool := deadline.any fun d => decide (d + 2 < s.ref.toNat)

/-- WAITV_EVALUATION (R307, R308): a fault parks the thread at the WAITV. -/
def execWaitvEvaluation (wg warp lane : Nat) (s : State) : Answer :=
  let r : TRef := { wg := wg, warp := warp, lane := lane }
  match (s.running? r).bind (·.hold) with
  | some (.waitv cs all vt d _ site) =>
    if s.overdue d || s.waitvWaits r cs then .next s
    else match s.evaluate r (s.coreOf wg) (s.partOf wg) cs 0 with
      | .fault s d => .next (s.raise r d site)
      | .waits s => .next s
      | .done s met => .next (s.settleWaitv r cs all vt met)
  | _ => .next s

/-- WAITV_DEADLINE (R307): %ref has reached the deadline. -/
def execWaitvDeadline (wg warp lane : Nat) (s : State) : Answer :=
  let r : TRef := { wg := wg, warp := warp, lane := lane }
  match (s.running? r).bind (·.hold) with
  | some (.waitv _ _ vt (some d) met _) =>
    if d ≤ s.ref.toNat then .next (s.updThread r fun t => t.endWaitv vt (waitvResult true met) s.time) else .next s
  | _ => .next s

/-! ## Timelines and sleep (R309 to R311) -/

/-- TLWAIT for one thread: an acquire at .pkg where it continues at once (R183). -/
def State.tlwait (s : State) (r : TRef) (tl : Nat) (n : DWord) : State :=
  let core := s.coreOf r.wg
  let x := s.timeline core tl
  let n := min n.toNat (x.next - 1)
  if n ≤ x.retired then s.orderActions core 1 2 else s.updThread r fun t => { t with hold := some (.tlwait tl n) }

/-- TLWAIT (R309). -/
def execTlwait (o : TlwArgs) (s : State) : Answer :=
  threadWord waitRule o.guard [] [] noHold (fun _ r _ s => s.tlwait r o.tl.toNat (s.warpReg r o.wn.toNat)) s

/-- TLRD (R310). -/
def execTlrd (o : TlrArgs) (s : State) : Answer :=
  let vd := o.vd.toNat
  threadWord {} o.guard [vd, vd + 1] [] noHold
    (fun g r _ s =>
      let x := (s.timeline g.core o.tl.toNat).retired
      s.updThread r fun t => t.setReg64 vd (BitVec.ofNat 64 x)) s

/-- SLEEP (R311). -/
def execSleep (o : SlpArgs) (s : State) : Answer :=
  threadWord waitRule o.guard [o.vt.toNat] [o.vt.toNat] noHold
    (fun _ r t s =>
      let n := (t.reg o.vt.toNat).toNat
      if n = 0 then s else s.updThread r fun t => { t with hold := some (.sleep (s.ref.toNat + n)) }) s

/-- SLEEP_EXPIRY (R311). -/
def execSleepExpiry (wg warp lane : Nat) (s : State) : Answer :=
  let r : TRef := { wg := wg, warp := warp, lane := lane }
  match (s.running? r).bind (·.hold) with
  | some (.sleep d) => if d ≤ s.ref.toNat then .next (s.updThread r fun t => t.lift s.time) else .next s
  | _ => .next s

end Sys2Proof.Machine
end

