-- ==== Sys2Proof/Machine/Tier.lean ====
section
/-!
DEFINITION. Placement: range commands, queries, page moves, page counters, the hardware policy and the CXL pool
(14_tiers R315 to R339, 08_consistency R185). Choices that the spec leaves to the device come from `picks`
(assumption logs 4 and 19).
-/

namespace Sys2Proof.Machine

/-! ## Range commands at issue (R319 to R321) -/

/-- R319: the fields of the range word. -/
def rwArg (x : DWord) : BitVec 4 := x.extractLsb' 48 4
def rwLen (x : DWord) : Nat := field x 47 0

/-- R319, R321: funcs 0 PIN, 1 UNPIN, 2 TAFF, 3 MIGR, 5 TWIN: what the range word must not hold. -/
def rangeWordFault (func : Nat) (x : DWord) : Bool :=
  let arg := (rwArg x).toNat
  field x 63 52 != 0 || rwLen x == 0 || match func with
    | 2 => decide (arg ≥ 8)
    | 3 => decide (arg ≥ 3)
    | 5 => decide (arg ≥ 2)
    | _ => arg != 0

/-- R321. -/
def rangeFault (func : Nat) (addr x : DWord) : Option FaultDetail :=
  if rangeWordFault func x then some { code := codeIllegalEncoding, addr := x }
  else if addr.toNat + rwLen x > 2 ^ 57 then some { code := codeProtection, addr := addr }
  else none

/-- R322: the command takes the next number and waits in its core's tier queue. -/
def State.enqueueTier (s : State) (g : Group) (w : Workgroup) (warp func ws : Nat) (addr x : DWord) : State :=
  let num := s.nextNumber w.core 2
  let op : TierOp :=
    { core := w.core, num := num, part := w.part, wg := w.id, warp := warp, handle := w.handle, homeSlot := w.slot,
      func := func, addr := addr.toNat, len := rwLen x, arg := rwArg x, cursor := addr.toNat, stage := .queued,
      fault := 0, done := 0, skipped := 0, sat := false, host := false, moves := [], forwarded := 0, order := g.order,
      scope := g.scope, issuedBy := s.nextId }
  let s := (s.takeNumber w.core 2).updWg w.id fun v =>
    let v := { v with marks := v.marks.set 2 num }
    if ws = 0 then v else v.updWarp warp fun y => y.setReg ws (BitVec.ofNat 64 num)
  { s with tiers := s.tiers ++ [op] }

/-- A range command: once for each home warp with a live thread whose guard is true (R320); a full queue holds. DESIGN CHOICE
(assumption log 19): the range word's checks are made for a warp of helpers too, which the spec leaves open (R83, R320). -/
def rangeWord (func : Nat) (o : RangeFArgs) (s : State) : Answer :=
  let acts (t : Thread) : Bool := t.guard o.guard false
  let rule : WordRule := { prefixKind := .mem, orders := [0, 2] }
  issue rule [] noFill
    (fun g s =>
      let n := ((s.homeWarps g).filter fun w => s.anyLive (s.warpGuarded g w acts)).length
      n != 0 && decide (((s.tiers.filter fun x => x.core == g.core && x.stage == .queued).length + n) > 16))
    (fun g s => s.eachWarp g acts fun w rs s =>
      match s.wg? w.1 with
        | none => s
        | some v =>
          let reg (n : Nat) : DWord := s.warpReg { wg := w.1, warp := w.2, lane := 0 } n
          match rangeFault func (reg o.wa.toNat) (reg o.wb.toNat) with
          | some d => s.raiseThese rs d (g.site g.pc)
          | none =>
            if s.anyLive rs then s.enqueueTier g v w.2 func o.ws.toNat (reg o.wa.toNat) (reg o.wb.toNat) else s) s

/-- PIN (R323). -/
def execPin (o : RangeFArgs) (s : State) : Answer := rangeWord 0 o s

/-- UNPIN (R323). -/
def execUnpin (o : RangeFArgs) (s : State) : Answer := rangeWord 1 o s

/-- TAFF (R324). -/
def execTaff (o : RangeFArgs) (s : State) : Answer := rangeWord 2 o s

/-- MIGR (R325). -/
def execMigr (o : RangeFArgs) (s : State) : Answer := rangeWord 3 o s

/-- TWIN (R328). -/
def execTwin (o : RangeFArgs) (s : State) : Answer := rangeWord 5 o s

/-! ## Queries (R330 to R333) -/

/-- R330: translation as a load's, for PAGE_NOT_PRESENT and PROTECTION only. -/
def State.queryLeaf (s : State) (core part : Nat) (va : DWord) : Except FaultDetail Leaf :=
  if va.toNat ≥ 2 ^ 57 then .error { code := codeProtection, addr := va }
  else match s.findLeaf core part va.toNat with
    | .error c => .error { code := c, addr := va }
    | .ok l => if l.r then .ok l else .error { code := codeProtection, addr := va }

/-- PGCNT (0) and TQRY by address (1). -/
def queryWord (kind n : Nat) (o : PairQArgs) (s : State) : Answer :=
  let acts (t : Thread) : Bool := t.guard o.guard false
  let va := o.va.toNat
  issue {} ((List.range n).map (o.vd.toNat + ·) ++ [va, va + 1]) (fillSources {} acts [va, va + 1]) (flagFull o.fs acts)
    (fun g s => s.eachActing g acts fun word r t s =>
      match s.queryLeaf (s.coreOf r.wg) (s.partOf r.wg) (t.reg64 va) with
      | .error d => s.raise r d (g.site g.pc)
      | .ok l => (s.tlbInsert (s.coreOf r.wg) (s.partOf r.wg) l).addOp g r (some o.fs) word
          (.query kind (t.reg64 va).toNat (some l) []) o.vd.toNat n) s

/-- PGCNT (R331). -/
def execPgcnt (o : PairQArgs) (s : State) : Answer := queryWord 0 1 o s

/-- TQRY (R332). -/
def execTqry (o : PairQArgs) (s : State) : Answer := queryWord 1 2 o s

/-- TQRY.op (R333): the status as it stands at issue. -/
def execTqryOp (o : QOpArgs) (s : State) : Answer :=
  let acts (t : Thread) : Bool := t.guard o.guard false
  issue {} [o.vd.toNat, o.vd.toNat + 1] noFill (flagFull o.fs acts)
    (fun g s => s.eachActing g acts fun word r _ s =>
      let st := s.statusOf g.core 2 (s.warpReg r o.ws.toNat)
      s.addOp g r (some o.fs) word (.query 2 0 none [st.1, st.2]) o.vd.toNat 2) s

/-- R332: the pool field for a granule. -/
def poolField (s : State) (pa : Nat) : Nat :=
  if tierOf pa != 2 then 0 else match s.poolState pa with
    | .invalid => 1
    | .shared => 2
    | .exclusive => 3
    | .pinned => 4
    | .transfer => 5

/-- R329: whether a page of a partition lies in an open window. -/
def State.inWindow (s : State) (part : Nat) (vbase size : Nat) : Bool :=
  (s.part? part).any fun p => p.windows.any fun w => decide (vbase < w.1 + w.2) && decide (w.1 < vbase + size)

/-- The moves that name a page's frame: as source, or as target once committed. -/
def State.movesOf (s : State) (l : Leaf) : List Move := s.moves.filter fun m => m.leaf.pa == l.pa || m.target == l.pa

/-- R332: the two words of a TQRY. -/
def State.placement (s : State) (part va : Nat) (l : Leaf) : List Word :=
  let pa := s.homeAddr (l.phys va)
  let e := s.readPte l.pte
  let stack := if tierOf pa = 0 then stackOf pa else 15
  [BitVec.ofNat 32 ((s.frame pa).pins * 2 ^ 24 + poolField s pa * 2 ^ 21 + ((s.movesOf l).any fun m => m.phase != 0).toNat * 2 ^ 20
      + (s.inWindow part l.vbase l.size).toNat * 2 ^ 19 + (e.getLsbD 12).toNat * 2 ^ 18 + field e 11 10 * 2 ^ 16
      + tierOf pa),
    BitVec.ofNat 32 (stack * 16 + Nat.log2 (l.size / 4096) / 2)]

/-- R331: the word of a PGCNT. -/
def State.counters (s : State) (l : Leaf) : List Word :=
  let f := s.frame (s.counterAddr (s.homeAddr l.pa))
  [BitVec.ofNat 32 (f.wr * 65536 + f.rd)]

/-- R331, R332: the page as the query finds it at its home agent: a translation that a move has outdated is made again. -/
def State.queryPage (s : State) (part va : Nat) (l : Leaf) : Leaf :=
  if s.genOk l (l.phys va) then l else (s.walk (s.rootOf part) va).toOption.getD l

/-- QUERY_COMPLETE (R330). -/
def execQueryComplete (op keep : Nat) (s : State) : Answer :=
  match s.op? op with
  | some o => match o.kind with
    | .query kind va l result =>
      let vals := match kind, l with
        | 0, some l => s.counters (s.queryPage (s.opPart o) va l)
        | 1, some l => s.placement (s.opPart o) va (s.queryPage (s.opPart o) va l)
        | _, _ => result
      .next (s.finishOp o vals 0 keep)
    | _ => .next s
  | none => .next s

/-! ## The pool (R336 to R338) -/

/-- Every dirty byte of a physical range goes to its tier, and no L1 or L2 holds it any more. -/
def State.flushRange (s : State) (pa len : Nat) : State :=
  let inside (n : Nat) : Bool := decide (pa / 128 ≤ n) && decide (n < (pa + len) / 128)
  let s := (List.range s.cores.length).foldl (fun s c =>
    (((s.core c).l1.filter fun l => inside l.line).map (·.line)).foldl (fun s n => (s.l1WriteBack c n).l1Drop c n) s) s
  ((s.l2.filter fun x => inside x.sector).map (·.sector)).foldl (fun s n => s.l2Leave n) s

/-- R336: a granule is given up: its sectors are written back and its copies invalidated. -/
def State.giveUp (s : State) (pa : Nat) : State :=
  let a := pa / 4096 * 4096
  ((s.flushRange a 4096).triggerRange a 4096).setGranule a fun g => { g with state := .invalid, deferred := none, stale := true }

/-- R326, R336: a move under way copies from, or to, the granule of pa, which keeps its state meanwhile. -/
def State.moveKeeps (s : State) (pa : Nat) : Bool :=
  let inside (base size : Nat) : Bool := decide (base ≤ pa) && decide (pa < base + size)
  s.moves.any fun m => (m.phase != 0 && inside m.leaf.pa m.leaf.size) || (m.phase == 1 && inside m.target m.leaf.size)

/-- POOL_REMOTE_REQUEST (R336, R337, R422): another package requests a granule; one that a move copies waits for the move. -/
def execPoolRemoteRequest (granule : Nat) (excl : Bool) (s : State) : Answer :=
  if tierOf granule != 2 || s.moveKeeps granule then .next s
  else match s.poolState granule with
    | .invalid => .next s
    | .shared => .next (if excl then s.giveUp granule else s)
    | .exclusive => .next (s.giveUp granule)
    | .pinned => .next (s.setGranule granule fun g => { g with deferred := some (g.deferred.getD false || excl) })
    | .transfer =>
      let a := granule / 4096 * 4096
      .next (if excl then ((s.flushRange a 4096).triggerRange a 4096).setGranule a fun g => { g with stale := true } else s)

/-- R334, R407: one more move, ownership change or retirement by a mode's path: function 0 promotion, 1 pool, 2 fault
service. -/
def State.countPath (s : State) (part func : Nat) (host : Bool) : State :=
  let k := part * 8 + func * 2 + host.toNat
  { s with lifetime := { s.lifetime with moves := bump k 1 s.lifetime.moves } }.logEvent 4 k

/-- The partition that owns the frame of an address: by the frame table, else by the page tables. -/
def State.ownerOf (s : State) (pa : Nat) : Nat :=
  match (s.frame pa).owner with
  | some p => p
  | none => ((s.parts.find? fun p => (s.leaves p.number).any fun l => decide (l.pa ≤ pa) && decide (pa < l.pa + l.size)).map
      (·.number)).getD 0

/-- R151: the key of a partition of another package, which is no key of this one; 0 stands for an open page. -/
def foreignKey (k : Nat × BitVec 16) : Nat × BitVec 16 := if k.1 = 0 then k else (2 ^ 64 + k.1, k.2)

/-- R339, R152, R416: what other packages have stored in a granule reaches this one: bytes, keys and poisoned units. -/
def State.poolBrings (s : State) (a : Nat) (x : PoolNews) : State :=
  let ours (u : Nat) : Bool := u / 64 != a / 4096
  let keys := (List.range 64).filterMap fun i => match x.keys[i]? with
    | some k => some (a / 64 + i, foreignKey k)
    | none => (s.writtenUnder (a / 64 + i)).map fun k => (a / 64 + i, k)
  { s with
    mem := Memory.setBytes s.mem a ((List.range 4096).map fun i => x.bytes.getD i (s.tierByte (a + i))),
    keyed := keys ++ s.keyed.filter (fun k => ours k.1),
    poison := ((x.bad.filter fun b => decide (b.1 < 64)).map fun b => (a / 64 + b.1, b.2)) ++ s.poison.filter (fun b => ours b.1),
    cleared := s.cleared.filter (· != a / 4096), poolNews := s.poolNews.erase x }

/-- R339: a granule arrives: if another package may have held it since, the oldest news of it is what it holds (log 19). -/
def State.poolArrives (s : State) (pa : Nat) : State :=
  let a := pa / 4096 * 4096
  let s' := s.setGranule a fun g => { g with stale := false }
  if !(s.granule? a).all (·.stale) then s'
  else match s.poolNews.find? (·.granule == a) with
    | some x => s'.poolBrings a x
    | none => s'

/-- R336, R338: a granule settles in a state; what it then serves is held no more. -/
def Granule.settle (g : Granule) (x : PoolState) : Granule :=
  { g with state := x, request := none,
           held := if x == .shared then g.held.filter (·.2.1) else if x == .invalid then g.held else [] }

/-- POOL_GRANT (R336, R339): a granule in transfer settles; a shared grant answers a read only. -/
def execPoolGrant (granule : Nat) (excl : Bool) (s : State) : Answer :=
  match s.granule? granule with
  | some g => match g.state, g.request with
    | .transfer, some (_, e) =>
      if e && !excl then .next s
      else
        let s := (s.poolArrives granule).setGranule granule (·.settle (if excl then .exclusive else .shared))
        .next (if s.poolHw (s.ownerOf granule) then s.countPath (s.ownerOf granule) 1 false else s)
    | _, _ => .next s
  | none => .next s

/-- POOL_STATE_CHANGE (R338, R339): Zarkin OS sets a granule's state: 1 I, 2 S, 3 E, 4 P; or, 5, it requests exclusive
ownership, and the granule is T until the grant (R417). -/
def execPoolStateChange (granule state : Nat) (s : State) : Answer :=
  if tierOf granule != 2 then .next s
  else
    let s := s.countPath (s.ownerOf granule) 1 true
    let put (x : PoolState) : State := (s.poolArrives granule).setGranule granule (·.settle x)
    match state with
    | 1 => .next ((s.giveUp granule).setGranule granule (·.settle .invalid))
    | 2 => .next (put .shared)
    | 3 => .next (put .exclusive)
    | 4 => .next (put .pinned)
    | 5 => .next (s.setGranule granule fun g => { g with state := .transfer, request := some ((g.request.map (·.1)).getD s.time, true) })
    | _ => .next s

/-- R338: the access of an operation that is held for pool ownership. -/
def State.heldAccess (s : State) (o : PendingOp) : Option Access :=
  o.kind.accesses.find? fun a => !s.poolServes a.pa (o.kind.foot.any (·.w))

/-- POOL_WAIT_LIMIT_EXPIRY (R338, R420): an access of a thread has waited for ownership past the limit: a load or ATOM
faults; a store goes on waiting, with one record. -/
def execPoolWaitLimitExpiry (op : Nat) (s : State) : Answer :=
  match s.op? op with
  | none => .next s
  | some o =>
    let limit := ((s.part? (s.opPart o)).map (·.poolWait)).getD 0
    match o.waiting, s.heldAccess o with
    | some t, some a =>
      if limit = 0 || decide (s.time < t + clkOfTicks limit) then .next s
      else
        let d := a.detail codeMigration
        match o.kind with
        | .store .. => .next (s.settleStore o (.fault s d))
        | .redm .. => .next (s.settleStore o (.fault s d))
        | _ => .next (s.failOp o d).retireFences
    | _, _ => .next s

/-- What an acquisition of every granule of a page comes to. -/
inductive Acquired where
  | held
  | waits (s : State)
  | fault (d : FaultDetail)

/-- R323, R336, R338: every granule of some frames of a page's size, as far as they are pool frames, is held E or P, one after
another; `who` is held for them. -/
def State.acquire (s : State) (who : List Nat) (part : Nat) (l : Leaf) : List Nat → Acquired
  | [] => .held
  | base :: rest => match (List.range (l.size / 4096)).find? fun i => !s.poolServes (base + i * 4096) true with
    | none => s.acquire who part l rest
    | some i =>
      let pa := base + i * 4096
      if s.poolHw part && !s.poolLate who part pa then .waits (s.holdPool who pa true)
      else .fault { code := codeMigration, addr := BitVec.ofNat 64 (l.vbase + i * 4096), gen := l.gen }

/-- R323: a pool page is acquired for a tier operation. -/
def State.acquirePage (s : State) (x : TierOp) (l : Leaf) : Acquired :=
  s.acquire (engineAgent 2 x.core x.num) x.part l [l.pa]

/-- Every granule of a frame in one state goes to another. -/
def State.mapPool (s : State) (pa size : Nat) (old new : PoolState) : State :=
  let hit (g : Granule) : Bool := decide (pa ≤ g.addr) && decide (g.addr < pa + size) && g.state == old
  { s with granules := updateWhere hit (fun (g : Granule) => { g with state := new }) s.granules }

/-- R337: the deferred requests of a frame are served. -/
def State.serveDeferred (s : State) (pa size : Nat) : State :=
  ((s.granules.filter fun g => decide (pa ≤ g.addr) && decide (g.addr < pa + size) && g.deferred.isSome
      && g.state == .exclusive).map (·.addr)).foldl (fun s a => s.giveUp a) s

/-- R336, R337: a frame's pin count has come to 0. -/
def State.unpinned (s : State) (pa size : Nat) : State := (s.mapPool pa size .pinned .exclusive).serveDeferred pa size

/-! ## Page table entries (R318, R324) -/

/-- Bits [15:8] of an entry changed in place, in each of its replicas. -/
def State.updPteByte (s : State) (pte : Nat) (f : Byte → Byte) : State :=
  (s.replicas pte).foldl (fun s p => s.l2Patch (p + 1) [f (s.l2Byte (p + 1))]) s

/-- The entries of a partition that map the frame of a leaf, the leaf's own first. -/
def State.mappings (s : State) (part : Nat) (l : Leaf) : List Nat :=
  distinct (l.pte :: ((s.leaves part).filter (·.pa == l.pa)).map (·.pte))

/-- R318: the pin indicator, bit 14, of every entry that maps a frame. -/
def State.setPinBits (s : State) (part : Nat) (l : Leaf) (b : Bool) : State :=
  (s.mappings part l).foldl (fun s p => s.updPteByte p fun x => if b then x ||| 0x40 else x &&& ~~~0x40#8) s

/-- R318, R324: the affinity bits of an entry: pref in bits [1:0], nodemote in bit 2. -/
def State.affinityBits (s : State) (pte : Nat) : Nat := field (s.readPte pte) 12 10

/-- R324: pref in bits [11:10] and nodemote in bit 12 of the entry; the frame notes what its mappings then say. -/
def State.setAffinity (s : State) (part : Nat) (l : Leaf) (arg : BitVec 4) : State :=
  let s := s.updPteByte l.pte fun x =>
    (x &&& ~~~0x1C#8) ||| (BitVec.ofNat 8 (field arg 2 1 * 4)) ||| (if arg.getLsbD 0 then 0x10 else 0)
  s.updFrame l.pa l.pa l.size fun f => { f with affinity := (s.mappings part l).map fun p => (p, s.affinityBits p) }

/-- R324: the bits that the agents use: those that system software has written since the last TAFF, else those of the TAFF;
which of several written since came last is free (log 19). -/
def State.affinityOf (s : State) (part : Nat) (l : Leaf) : Nat :=
  let noted := (s.frame l.pa).affinity
  let now := (s.mappings part l).map fun p => (p, s.affinityBits p)
  let changed := now.filter fun x => !noted.contains x
  match changed[Config.affinityPick now % changed.length]? with
  | some x => x.2
  | none => ((noted.head?).map (·.2)).getD 0

/-! ## Operations and their status (R333) -/

/-- Changes the tier operation of a core and number. -/
def State.updTier (s : State) (core num : Nat) (f : TierOp → TierOp) : State :=
  { s with tiers := updateWhere (fun (x : TierOp) => x.core == core && x.num == num) f s.tiers }

def State.tierOp? (s : State) (core num : Nat) : Option TierOp := s.tiers.find? fun x => x.core == core && x.num == num

/-- R333: the two status words, high then low. -/
def TierOp.status (x : TierOp) : Word × Word :=
  (BitVec.ofNat 32 (min x.done (2 ^ 32 - 1)),
    BitVec.ofNat 32 (x.fault % 256 * 2 ^ 24 + x.host.toNat * 2 ^ 17 + x.sat.toNat * 2 ^ 16 + min x.skipped 65535))

def State.setTier (s : State) (x : TierOp) : State :=
  (s.updTier x.core x.num fun _ => x).setStatus x.core 2 x.num x.status.1 x.status.2

/-! ## Moves (R326) -/

/-- A range of physical memory that no listed frame owns, no page table maps and no move names. -/
def State.rangeFree (s : State) (pa size : Nat) : Bool :=
  !(s.parts.any fun p => (s.leaves p.number).any fun l => overlaps l.pa l.size pa size)
    && !(s.frames.any fun f => (f.owner.isSome || f.retired) && overlaps f.base f.size pa size)
    && !(s.moves.any fun m => overlaps m.target m.leaf.size pa size || overlaps m.leaf.pa m.leaf.size pa size)

/-- A free frame of a tier: the one that `picks` names, else the highest (assumption log 19). -/
def State.freeFrame (s : State) (tier size : Nat) : Option Nat :=
  let last := tierSize tier / size
  let at_ (k : Nat) : Nat := tierBase tier + k * size
  let p := s.picks.headD 0
  if p != 0 && decide (p ≤ last) && s.rangeFree (at_ (p - 1)) size then some (at_ (p - 1))
  else
    ((List.range (2 * s.frames.length + 2 * s.moves.length + 1)).map fun i => at_ (last - 1 - i)).find?
      fun a => s.rangeFree a size

/-- The first leaf of each frame that the page tables of a partition name. -/
def State.framesOf (s : State) (part : Nat) : List Leaf :=
  (s.leaves part).foldl (fun acc l => if acc.any (·.pa == l.pa) then acc else acc ++ [l]) []

/-- R402: bytes of a tier that a partition uses: its mapped frames, and the other frame of each move, which is the target
before the commit and the source after it. -/
def State.usedOf (s : State) (part tier : Nat) : Nat :=
  let other (m : Move) : Nat := if m.phase < 3 then m.target else m.leaf.pa
  ((s.framesOf part).map fun l => if tierOf l.pa = tier then l.size else 0).sum
    + (s.moves.map fun m => if m.part = part ∧ tierOf (other m) = tier then m.leaf.size else 0).sum

/-- R402: a partition's share of a tier in bytes; shares are in units of 64 MiB. -/
def State.shareOf (s : State) (part tier : Nat) : Nat := ((s.part? part).map (·.shares.getD tier 0)).getD 0 * 2 ^ 26

def State.hasRoom (s : State) (part tier size : Nat) : Bool := decide (s.usedOf part tier + size ≤ s.shareOf part tier)

/-- A move is requested: its target frame is taken. Moves of one page do not overlap. -/
def State.startMove (s : State) (part : Nat) (l : Leaf) (target : Nat) (op : Option (Nat × Nat)) : State :=
  let f := s.frame l.pa
  let m : Move := { id := s.nextId, part := part, leaf := l, target := target, phase := 0, held := [], count := 0, op := op }
  let s := s.updFrame target target l.size fun g =>
    { g with owner := some part, fold := f.fold, pins := 0, rd := 0, wr := 0, affinity := [] }
  { s with moves := s.moves ++ [m], nextId := s.nextId + 1 }

def State.move? (s : State) (id : Nat) : Option Move := s.moves.find? (·.id == id)

def State.updMove (s : State) (id : Nat) (f : Move → Move) : State :=
  { s with moves := updateWhere (fun m => m.id == id) f s.moves }

/-- R322: a translation-class fault holds the operation with a record; another one ends it. -/
def State.faultTier (s : State) (x : TierOp) (d : FaultDetail) : State :=
  if holdsEngine d.code then
    (s.setTier { x with stage := .faulted }).reportRecord (s.engineRecord 4 x.core x.part x.homeSlot x.handle x.wg x.num d)
  else s.setTier { x with fault := d.code.toNat, cursor := x.addr + x.len }

/-- MOVE_COPY_PHASE (R326, R336): once this package holds the source and the target, writes to the page are held. Where system
software has to change a state, the operation that the move belongs to is held with a record. -/
def execMoveCopyPhase (move : Nat) (s : State) : Answer :=
  match s.move? move with
  | some m =>
    if m.phase != 0 then .next s
    else match s.acquire (engineAgent 8 0 m.id) m.part m.leaf [m.target, m.leaf.pa] with
      | .held => .next (s.updMove move fun m => { m with phase := 1 })
      | .waits s => .next s
      | .fault d => match m.op.bind fun o => s.tierOp? o.1 o.2 with
        | some x => .next (if x.stage == .running then s.faultTier x d else s)
        | none => .next s
  | none => .next s

/-- What a frame holds goes to another: bytes, cleared bits, poison and the fold keys of its units (R326, R152). -/
def State.copyFrame (s : State) (src dst size : Nat) : State :=
  let inside (base unit n : Nat) : Bool := decide (base / unit ≤ n) && decide (n < (base + size) / unit)
  let cells := s.mem.filter fun c => decide (src ≤ c.1) && decide (c.1 < src + size)
  let mem := cells.foldl (fun m c => Memory.set m (c.1 - src + dst) c.2) (Memory.clear s.mem dst size)
  let shift (u : Nat) : Nat := u - src / 64 + dst / 64
  { s with
    mem := mem,
    cleared := (s.cleared.filter fun g => !inside dst 4096 g)
      ++ (s.cleared.filter (inside src 4096)).map (fun g => g - src / 4096 + dst / 4096),
    poison := ((s.poison.filter fun x => inside src 64 x.1).map fun x => (shift x.1, x.2))
      ++ s.poison.filter (fun x => !inside dst 64 x.1),
    keyed := ((s.keyed.filter fun x => inside src 64 x.1).map fun x => (shift x.1, x.2))
      ++ s.keyed.filter (fun x => !inside dst 64 x.1) }

/-- The writes that a move holds reach its frame, and the page's dirty data after them. -/
def State.drainMove (s : State) (m : Move) : State :=
  let s := m.held.foldl (fun s b => { s with mem := Memory.set s.mem b.1 b.2 }) s
  let s := s.updMove m.id fun m => { m with phase := 0, held := [], count := 0 }
  (s.flushRange m.leaf.pa m.leaf.size).triggerRange m.leaf.pa m.leaf.size

/-- MOVE_SWITCH (R326): held writes, then those that stalled, are applied in order, and the new frame holds the page;
accesses are forwarded. -/
def execMoveSwitch (move : Nat) (s : State) : Answer :=
  match s.move? move with
  | some m =>
    if m.phase != 1 then .next s
    else
      let s := (s.drainMove m).copyFrame m.leaf.pa m.target m.leaf.size
      .next (s.updMove move fun m => { m with phase := 2 })
  | none => .next s

/-- R185, R326: what the L1s hold of a page that moved carries its new generation. -/
def State.restampLines (s : State) (m : Move) (gen : BitVec 16) : State :=
  let hit (x : L1Line) : Bool := x.gen == m.leaf.gen && decide (m.target ≤ x.line * 128)
    && decide (x.line * 128 < m.target + m.leaf.size)
  { s with cores := s.cores.map fun c => { c with l1 := updateWhere hit (fun (x : L1Line) => { x with gen := gen }) c.l1 } }

/-- R305: watches on the lines of a page that moves, of either frame, trigger. -/
def State.triggerMove (s : State) (m : Move) : State :=
  (s.triggerRange m.leaf.pa m.leaf.size).triggerRange m.target m.leaf.size

/-- R334: space of a tier becomes free: the policy looks at the partition's pages again. -/
def State.spaceFrees (s : State) (part : Nat) : State :=
  { s with due := distinct (s.due ++ (s.leaves part).map fun l => (part, l.vbase)) }

/-- R293: a planned row operation that has not retired names the frame. -/
def State.rowNames (s : State) (pa : Nat) : Bool :=
  s.rows.any fun x => x.path != 3 && x.leaves.any fun ls => ls.any fun l => l.pa == pa

/-- One entry as it maps a new frame under a new generation. -/
def State.remapOne (s : State) (pte target : Nat) (gen : BitVec 16) : State :=
  let e := s.readPte pte
  let frameField := target / 4096 * 2 ^ 16
  let low := (e.toNat % 2 ^ 64) - field e 55 16 * 2 ^ 16 + frameField
  (s.l2Patch pte (leBytes 8 low)).l2Patch (pte + 14) (leBytes 2 gen.toNat)

/-- Every entry that maps the frame of a move, or a part of it, with the address that it maps from the commit on: the page's own
entry with its replicas, and those of other mappings (R324, R327). -/
def State.remaps (s : State) (m : Move) : List (Nat × Nat) :=
  let inside := (s.leaves m.part).filter fun l => decide (m.leaf.pa ≤ l.pa) && decide (l.pa < m.leaf.pa + m.leaf.size)
  distinct ((s.replicas m.leaf.pte).map (fun p => (p, m.target)) ++ inside.map fun l => (l.pte, m.target + (l.pa - m.leaf.pa)))

/-- The entries of a moving page as they map the new frame under a new generation. -/
def State.remapPage (s : State) (m : Move) (gen : BitVec 16) : State :=
  (s.remaps m).foldl (fun s e => s.remapOne e.1 e.2 gen) s

/-- MOVE_COMMIT (R326, R317, R324, R293, R305): the entries map the new frame, under a new generation; the counters and the note
of the last TAFF pass to it. -/
def execMoveCommit (move : Nat) (s : State) : Answer :=
  match s.move? move with
  | some m =>
    if m.phase != 2 || s.rowNames m.leaf.pa then .next s
    else
      let f := s.frame m.leaf.pa
      let gen := m.leaf.gen + 1
      let s := s.remapPage m gen
      let s := s.updFrame m.target m.target m.leaf.size fun g =>
        { g with gen := gen, rd := f.rd, wr := f.wr, affinity := f.affinity }
      let s := match m.op.bind fun o => s.tierOp? o.1 o.2 with
        | some x => s.setTier { x with done := x.done + 1 }
        | none => s
      .next ((s.triggerMove m).updMove move fun m => { m with phase := 3 })
  | none => .next s

/-- R326: no TLB holds a translation of a partition to part of a frame any more. -/
def State.dropFrame (s : State) (part base size : Nat) : State :=
  let hit (e : TlbEntry) : Bool := e.part == part && overlaps e.leaf.pa e.leaf.size base size
  { s with cores := s.cores.map fun c => { c with tlb := c.tlb.filter fun e => !hit e },
           l2tlb := s.l2tlb.filter fun e => !hit e.2 }

/-- MOVE_RETIRE (R326, R305): every TLB has acknowledged; the old frame's generation advances and the frame is free. -/
def execMoveRetire (move : Nat) (s : State) : Answer :=
  match s.move? move with
  | some m =>
    if m.phase != 3 then .next s
    else
      let l := m.leaf
      let s := ((s.dropTranslations m.part l.vbase l.size).dropFrame m.part l.pa l.size)
      let s := (s.triggerMove m).restampLines m (l.gen + 1)
      let s := s.updFrame l.pa l.pa l.size fun f => { f with gen := f.gen + 1, owner := none, rd := 0, wr := 0, affinity := [] }
      let s := match m.op with
        | some (core, num) => s.updTier core num fun x => { x with moves := x.moves.filter (· != move) }
        | none => s
      .next ({ s with moves := s.moves.filter (·.id != move),
                      granules := s.granules.filter fun g => !(decide (l.pa ≤ g.addr) && decide (g.addr < l.pa + l.size)) }.spaceFrees
        m.part)
  | none => .next s

/-- R322: an operation that ends with its fault gives up the moves that it has only requested. -/
def State.cancelMoves (s : State) (x : TierOp) : State :=
  let mine (m : Move) : Bool := m.phase == 0 && m.op == some (x.core, x.num)
  let gone := s.moves.filter mine
  let s := gone.foldl (fun s m => s.mapFrame m.target fun f => { f with owner := none }) s
  { s with moves := s.moves.filter fun m => !mine m }.updTier x.core x.num fun x =>
    { x with moves := x.moves.filter fun id => !(gone.any (·.id == id)) }

/-! ## Tier operations (R322 to R328) -/

/-- R329: a window opens; a 65th closes the oldest. -/
def State.openWindow (s : State) (part addr len : Nat) : State :=
  s.updPart part fun p =>
    let ws := p.windows ++ [(addr, len)]
    { p with windows := ws.drop (ws.length - 64) }

/-- R328: the open window whose first byte is addr closes; of several, all do (DEDUCED, log 19). -/
def State.closeWindow (s : State) (part addr : Nat) : State :=
  s.updPart part fun p => { p with windows := p.windows.filter fun w => w.1 != addr }

/-- TIER_COMMAND_ACCEPT (R321, R322): the first command of a core's tier queue goes to its home agents; it waits for its own
release and the earlier ones of its warp (R182). -/
def execTierCommandAccept (core num : Nat) (s : State) : Answer :=
  match s.tiers.find? fun x => x.core == core && x.stage == .queued with
  | none => .next s
  | some x =>
    if x.num != num || s.warpCommandWaits x.order x.scope x.wg x.warp x.issuedBy then .next s
    else
      let s := s.commandActions core x.order x.scope
      if x.func = 5 then
        if x.arg.getLsbD 0 then
          .next ((s.closeWindow x.part x.addr).setTier { x with stage := .running, cursor := x.addr + x.len })
        else .next ((s.openWindow x.part x.addr x.len).setTier { x with stage := .running })
      else .next (s.setTier { x with stage := .running })

/-- A page is done: the operation goes on behind it. -/
def TierOp.past (x : TierOp) (l : Leaf) : TierOp := { x with cursor := l.vbase + l.size }

/-- R323: one page of a PIN. -/
def State.pinPage (s : State) (x : TierOp) (l : Leaf) : State :=
  if (s.moveAt? l.pa).isSome then s
  else match s.acquirePage x l with
    | .waits s => s
    | .fault d => s.faultTier x d
    | .held =>
      let n := (s.frame l.pa).pins
      let x' := { x.past l with done := x.done + 1 }
      if n ≥ 255 then s.setTier { x' with sat := true }
      else
        let s := s.updFrame l.pa l.pa l.size fun f => { f with pins := n + 1 }
        let s := if n = 0 then (s.setPinBits x.part l true).mapPool l.pa l.size .exclusive .pinned else s
        s.setTier x'

/-- R323: one page of an UNPIN. -/
def State.unpinPage (s : State) (x : TierOp) (l : Leaf) : State :=
  let n := (s.frame (s.homeAddr l.pa)).pins
  let x' := { x.past l with done := x.done + 1 }
  if n = 0 then s.setTier { x' with sat := true }
  else
    let s := s.updFrame l.pa l.pa l.size fun f => { f with pins := n - 1 }
    let s := if n = 1 then (s.setPinBits x.part l false).unpinned l.pa l.size else s
    s.setTier x'

/-- R325: another package holds the pool page, or this one holds it shared. -/
def State.poolBars (s : State) (l : Leaf) (other : Bool) : Bool :=
  tierOf l.pa == 2 && (List.range (l.size / 4096)).any fun i => match s.poolState (l.pa + i * 4096) with
    | .shared => true
    | .invalid => other
    | _ => false

/-- R318, R329: the hardware policy may demote a page. -/
def State.mayDemote (s : State) (part : Nat) (l : Leaf) : Bool :=
  decide (tierOf l.pa < 2) && s.affinityOf part l < 4 && !s.inWindow part l.vbase l.size && (s.frame l.pa).pins == 0

/-- R325, R328: the pages of a partition that the policy can demote to make room in a tier. -/
def State.demotable (s : State) (part tier : Nat) : List Leaf :=
  (s.framesOf part).filter fun l =>
    tierOf l.pa == tier && s.mayDemote part l && (s.movesOf l).isEmpty && s.genOk l l.pa
      && s.hasRoom part (tier + 1) l.size && (s.freeFrame (tier + 1) l.size).isSome

/-- R325, R334: in hardware mode the policy can make room in a tier, or a page that makes some is on its way. -/
def State.canMakeRoom (s : State) (part tier : Nat) : Bool :=
  ((s.part? part).any (·.promotionHw)) && (!(s.demotable part tier).isEmpty
    || s.moves.any fun m => m.part == part && tierOf m.leaf.pa == tier && tierOf m.target != tier)

/-- R325: one page of a MIGR, or of a TWIN with target 0; where room must be made first, it waits. -/
def State.migratePage (s : State) (x : TierOp) (l : Leaf) (target : Nat) : State :=
  let skip := { x.past l with skipped := x.skipped + 1 }
  let bits := s.affinityOf x.part l
  let choice := s.picks.headD 0 % 2 == 1
  let cur := tierOf l.pa
  if !(s.movesOf l).isEmpty then s
  else if x.func = 5 && (bits % 4 == 1 || bits % 4 == 2) then s.setTier skip
  else if cur = target then s.setTier { x.past l with done := x.done + 1 }
  else if (s.frame l.pa).pins != 0 then s.setTier skip
  else if decide (cur < target) && decide (bits ≥ 4) then s.setTier skip
  else if !s.hasRoom x.part target l.size then (if s.canMakeRoom x.part target then s else s.setTier skip)
  else if s.poolBars l choice then s.setTier skip
  else if !(((s.part? x.part).map (·.promotionHw)).getD true) then
    s.setTier { x.past l with host := true, forwarded := x.forwarded + 1 }
  else match s.acquirePage x l with
    | .waits s => s
    | .fault d => s.faultTier x d
    | .held => match s.freeFrame target l.size with
      | none => s
      | some pa =>
        ((s.startMove x.part l pa (some (x.core, x.num))).setTier
          { x.past l with moves := s.nextId :: x.moves }).countPath x.part 0 false

/-- R322: the next page of an operation. -/
def State.tierPage (s : State) (x : TierOp) : State :=
  let va := BitVec.ofNat 64 x.cursor
  match s.walk (s.rootOf x.part) x.cursor with
  | .error c => s.faultTier x { code := c, addr := va }
  | .ok l =>
    if !l.r || (x.func == 2 && !l.w) then s.faultTier x { code := codeProtection, addr := va }
    else if !s.genOk l l.pa && (s.movesOf l).isEmpty then s.faultTier x { code := codeGenStale, addr := va, gen := l.gen }
    else
      let s := s.noteFrame l.pa l.size x.part
      match x.func with
      | 0 => s.pinPage x l
      | 1 => s.unpinPage x l
      | 2 => (s.setAffinity x.part l x.arg).setTier { x.past l with done := x.done + 1 }
      | 3 => s.migratePage x l (x.arg.toNat % 4)
      | _ => s.migratePage x l 0

/-- TIER_OP_COMPLETE (R322): an operation acts on its next page; with none left, and its moves retired and its forwarded
pages answered, it completes. -/
def execTierOpComplete (core num : Nat) (s : State) : Answer :=
  match s.tierOp? core num with
  | none => .next s
  | some x =>
    if x.stage != .running then .next s
    else if x.cursor < x.addr + x.len then .next { s.tierPage x with picks := s.picks.tail }
    else if x.moves != [] || x.forwarded != 0 then .next s
    else
      .next ((s.setTier { x with stage := .done }).completeNumber core 2 num)

/-- MIGR_HOST_REPORT (R325): Zarkin OS reports one forwarded page. -/
def execMigrHostReport (core num : Nat) (moved : Bool) (s : State) : Answer :=
  match s.tierOp? core num with
  | none => .next s
  | some x =>
    if x.forwarded = 0 then .next s
    else if moved then
      .next ((s.setTier { x with forwarded := x.forwarded - 1, done := x.done + 1 }).countPath x.part 0 true)
    else .next (s.setTier { x with forwarded := x.forwarded - 1, skipped := x.skipped + 1 })

/-! ## The hardware policy (R317, R334) -/

/-- COUNTER_HALVING (R317, R334): %ref has passed a multiple of 2^20 ticks; the policy looks at every page again. -/
def execCounterHalving (s : State) : Answer :=
  if s.halvings < s.ref.toNat / 2 ^ 20 then
    .next { s with halvings := s.halvings + 1,
                   due := s.parts.flatMap fun p => (s.leaves p.number).map fun l => (p.number, l.vbase),
                   frames := s.frames.map fun (f : Frame) => { f with rd := f.rd / 2, wr := f.wr / 2 } }
  else .next s

/-- R328: a TWIN of the partition still has pages to bring into tier 0. -/
def State.twinRuns (s : State) (part : Nat) : Bool :=
  s.tiers.any fun x => x.part == part && x.func == 5 && x.stage == .running && decide (x.cursor < x.addr + x.len)

/-- R325, R328: an operation of the partition waits for room in a tier. -/
def State.wantsRoom (s : State) (part tier : Nat) : Bool :=
  s.tiers.any fun x => x.part == part && x.stage == .running && decide (x.cursor < x.addr + x.len)
    && ((x.func == 3 && x.arg.toNat % 4 == tier) || (x.func == 5 && tier == 0))
    && match s.walk (s.rootOf part) x.cursor with
      | .ok l => tierOf l.pa != tier && !s.hasRoom part tier l.size
      | .error _ => false

/-- R325, R328: a page that makes room in its tier: of those that can be demoted, one with the lowest counter sum. -/
def State.makesRoom (s : State) (part : Nat) (l : Leaf) : Bool :=
  let sum (x : Leaf) : Nat := (s.frame x.pa).rd + (s.frame x.pa).wr
  let pages := s.demotable part (tierOf l.pa)
  s.wantsRoom part (tierOf l.pa) && pages.any (·.pa == l.pa) && pages.all fun x => decide (sum l ≤ sum x)

/-- R318, R334: the tier that the policy moves a page to. -/
def State.policyTarget (s : State) (p : Partition) (l : Leaf) : Option Nat :=
  let f := s.frame l.pa
  let cur := tierOf l.pa
  let pref := s.affinityOf p.number l % 4
  let mayDemote := s.mayDemote p.number l
  if s.makesRoom p.number l then some (cur + 1)
  else if pref < cur then some (cur - 1)
  else if pref < 3 then (if decide (cur < pref) && mayDemote then some (cur + 1) else none)
  else if decide (0 < cur) && decide (p.promoteAt ≤ f.rd + f.wr) then some (cur - 1)
  else if mayDemote && decide (f.rd + f.wr < p.demoteAt) then some (cur + 1)
  else none

/-- What a move of the device's own accord comes to. -/
inductive OwnMove where
  | started (s : State)
  /-- ownership of the pool page has been requested (R336) -/
  | waits (s : State)
  | barred

/-- A move of the device's own accord starts, where nothing bars it. -/
def State.ownMove (s : State) (part : Nat) (l : Leaf) (tier : Nat) : OwnMove :=
  if (s.frame l.pa).pins != 0 || !(s.movesOf l).isEmpty || (tier != tierOf l.pa && !s.hasRoom part tier l.size)
      || !s.genOk l l.pa then .barred
  else match s.acquire (engineAgent 9 part l.vbase) part l [l.pa], s.freeFrame tier l.size with
    | .held, some pa => .started ((s.noteFrame l.pa l.size part).startMove part l pa none)
    | .waits s', some _ => .waits s'
    | _, _ => .barred

/-- PROMOTION_POLICY (R334, R328): in hardware mode, once after a halving or after space has been freed, the agents move a page
one tier, and at any time one that makes room for an operation; a window's pages come before every other move. -/
def execPromotionPolicy (part page : Nat) (s : State) : Answer :=
  match s.part? part, s.walk (s.rootOf part) page with
  | some p, .ok l =>
    if !p.promotionHw || !(s.due.contains (part, l.vbase) || s.makesRoom part l) then .next s
    else
      let looked (s : State) : State := { s with due := s.due.filter (· != (part, l.vbase)) }
      match s.policyTarget p l with
      | none => .next (looked s)
      | some t =>
        if s.twinRuns part && !s.makesRoom part l then .next s
        else match s.ownMove part l t with
          | .started s' => .next { looked (s'.countPath part 0 false) with picks := s.picks.tail }
          | .waits s' => .next s'
          | .barred => .next (looked s)
  | _, _ => .next s

/-- FRAME_RETIREMENT (R334): the page of a frame whose corrected errors have passed the limit goes to a fresh frame of its
tier, or the frame is reported. -/
def execFrameRetirement (part page : Nat) (s : State) : Answer :=
  match s.part? part, s.walk (s.rootOf part) page with
  | some p, .ok l =>
    if (s.frame l.pa).errors ≤ p.errorLimit ∨ (s.frame l.pa).retired = true ∨ p.reported.contains l.pa = true then .next s
    else if !p.faultHw then
      .next ((s.countPath part 2 true).updPart part fun p => { p with reported := p.reported ++ [l.pa] })
    else match s.ownMove part l (tierOf l.pa) with
      | .started s' =>
        let s' := s'.updFrame l.pa l.pa l.size fun f => { f with retired := true }
        .next { s'.countPath part 2 false with picks := s.picks.tail }
      | .waits s' => .next s'
      | .barred => .next s
  | _, _ => .next s

/-- MANAGEMENT_PAGE_MOVE (R318, R337): system software moves a page to a frame that it names, clearing pin and nodemote. -/
def execManagementPageMove (part page tier frame : Nat) (s : State) : Answer :=
  match s.part? part, s.walk (s.rootOf part) page with
  | some _, .ok l =>
    if !(s.movesOf l).isEmpty || tierOf frame != tier || decide (tier > 2) || frame % l.size != 0
        || !s.rangeFree frame l.size || !s.genOk l l.pa then .next s
    else
      let s := (s.noteFrame l.pa l.size part).updFrame l.pa l.pa l.size fun f => { f with pins := 0 }
      let s := (s.mappings part l).foldl (fun s p => s.updPteByte p fun b => b &&& ~~~0x50#8) s
      .next ((s.unpinned l.pa l.size).startMove part l frame none)
  | _, _ => .next s

/-- FRAME_GENERATION_CHANGE (R185, R305): a frame's entry gets a new generation; watches on its lines trigger. -/
def execFrameGenerationChange (frame gen : Nat) (s : State) : Answer :=
  let base := frame / 4096 * 4096
  let s := s.updFrame base base 4096 fun f => { f with gen := BitVec.ofNat 16 gen }
  let f := s.frame base
  .next (s.triggerRange f.base f.size)

/-- TLB_ENTRY_DROP (R392): a core's TLB and its quadrant's lose the translation of an address. -/
def execTlbEntryDrop (core page : Nat) (s : State) : Answer :=
  let keep (e : TlbEntry) : Bool := !e.leaf.covers page
  .next { s.updCore core fun c => { c with tlb := c.tlb.filter keep } with
    l2tlb := s.l2tlb.filter fun e => e.1 != core / 16 || keep e.2 }

end Sys2Proof.Machine
end

