-- ==== Sys2Proof/Machine/Launch.lean ====
section
/-!
DEFINITION. Pipeline and stage descriptors, launches and their refusal, DLAUNCH (15_scheduling R341 to R343, R366,
R421).
-/

namespace Sys2Proof.Machine

/-! ## Reading device memory as the scheduler and the engines do -/

/-- n bytes at an address of a partition, or none where they cannot be read; a rejected read is made again with a fresh
translation (R185). -/
def State.readBytes (s : State) (core part addr n : Nat) : State × Option (List Byte) :=
  let who := engineAgent 4 core addr
  match s.engineRead who core part addr n (fun _ => true) with
  | .done s bs _ => (s, some bs)
  | .waits s => (s, none)
  | .fault s _ => match s.engineRead who core part addr n (fun _ => true) with
    | .done s bs _ => (s, some bs)
    | .waits s => (s, none)
    | .fault s _ => (s, none)

/-- R336, R338: the pool granule that an access of the scheduler to a range still lacks. No thread faults for such an
access: past the limit, and in host-assisted mode, it waits on (log 20). -/
def State.lacks (s : State) (core part : Nat) (write : Bool) (addr n : Nat) : Option Nat :=
  (pieces addr n).findSome? fun p => match s.translate core part (BitVec.ofNat 64 p.1) { r := true, w := write } with
    | .ok l => if s.poolServes (l.phys p.1) write then none else some (l.phys p.1)
    | .error _ => none

/-- R336: ownership is requested in hardware mode; otherwise Zarkin OS changes the state. -/
def State.askPool (s : State) (part pa : Nat) (write : Bool) : State :=
  if s.poolHw part then s.requestPool pa write else s

/-- The 64-bit words of a list of bytes. -/
def qwords (bs : List Byte) : List DWord :=
  (List.range (bs.length / 8)).map fun i => BitVec.ofNat 64 (ofLe ((bs.drop (8 * i)).take 8))

/-! ## Descriptors (R341, R342) -/

/-- A pipeline descriptor's words, with nst stage descriptors'. -/
structure Descriptor where
  head : List DWord
  stages : List (List DWord)

def Descriptor.word (d : Descriptor) (i : Nat) : DWord := d.head.getD i 0
def Descriptor.prio (d : Descriptor) : Nat := field (d.word 0) 27 24
def stageCount (head : List DWord) : Nat := field (head.getD 1 0) 2 0 + 1
def stageTable (head : List DWord) : Nat := field (head.getD 1 0) 56 8 * 256

/-- Queue j: base and depth, if present. -/
def Descriptor.queue (d : Descriptor) (j : Nat) : Option (Nat × Nat) :=
  let w := d.word (3 + j)
  if field w 56 0 = 0 then none else some (field w 56 0, 16 * 2 ^ field w 63 60)

/-- R341: reserved fields of the pipeline descriptor. -/
def Descriptor.headReserved (d : Descriptor) : Bool :=
  field (d.word 0) 31 28 != 0 || field (d.word 0) 23 0 != 0 || field (d.word 1) 63 57 != 0 || field (d.word 1) 7 3 != 0
    || (List.range 5).any fun j => field (d.word (3 + j)) 59 57 != 0

def sdWord (w : List DWord) (i : Nat) : DWord := w.getD i 0
def sdCounts (w : List DWord) : List Nat := [5, 13, 21, 29].map fun hi => field (sdWord w 2) hi (hi - 5)
def sdWarps (w : List DWord) : Nat := (sdCounts w).foldl (· + ·) 0
def sdTcount (w : List DWord) : Nat := field (sdWord w 2) 42 32
def sdBudgets (w : List DWord) : List Nat :=
  [7, 15, 23, 31].mapIdx fun i hi =>
    let b := field (sdWord w 3) hi (hi - 7)
    if b = 0 then [64, 16, 64, 48].getD i 64 else b
def sdCoh (w : List DWord) : Nat := field (sdWord w 8) 59 56
def sdInq (w : List DWord) : Nat := field (sdWord w 8) 26 24
def sdOmask (w : List DWord) : BitVec 5 := (sdWord w 8).extractLsb' 32 5
def sdPortion (w : List DWord) : Nat := field (sdWord w 8) 2 0 * 262144
/-- R143: the window. -/
def sdWindow (w : List DWord) : Nat :=
  let z := field (sdWord w 8) 16 8 * 4096
  if z = 0 then sdPortion w else z
def sdGrid (w : List DWord) : Nat := field (sdWord w 10) 31 0

/-- R342: reserved fields of a stage descriptor. -/
def sdReserved (w : List DWord) : Bool :=
  field (sdWord w 0) 63 57 != 0 || field (sdWord w 1) 63 32 != 0 || field (sdWord w 2) 63 43 != 0
    || field (sdWord w 2) 31 30 != 0 || field (sdWord w 2) 23 22 != 0 || field (sdWord w 2) 15 14 != 0
    || field (sdWord w 2) 7 6 != 0 || field (sdWord w 3) 63 32 != 0 || field (sdWord w 6) 63 16 != 0
    || field (sdWord w 8) 62 60 != 0 || field (sdWord w 8) 39 37 != 0 || field (sdWord w 8) 31 27 != 0
    || field (sdWord w 8) 23 17 != 0 || field (sdWord w 8) 7 3 != 0 || field (sdWord w 10) 63 32 != 0
    || (w.drop 20).any (· != 0)

/-- R342: the thread count of a stage. -/
def sdThreads (w : List DWord) : Nat := if sdTcount w = 0 then 32 * sdWarps w else sdTcount w

/-- R343: a ring preset that is refused. -/
def badPreset (w : List DWord) (d : DWord) : Bool :=
  let size := field d 33 21 * 128
  let base := field d 20 0
  let mc := d.getLsbD 43
  let srcm := field d 47 44
  let cmask := field d 63 48
  size != 0 && (base % 128 != 0 || decide (base + (field d 37 34 + 1) * size > sdWindow w)
    || (!mc && (cmask != 0 || srcm != 0))
    || (mc && (sdCoh w == 0 || decide (srcm > sdCoh w) || cmask / 2 ^ srcm % 2 == 0 || decide (cmask ≥ 2 ^ (sdCoh w + 1)))))

def sdPresets (w : List DWord) : List DWord := (w.drop 12).take 8

/-- R343: the cores of a partition on a die. -/
def Partition.coresOnDie (p : Partition) (die : Nat) : Nat := (p.cores.filter fun c => c / 64 == die).length

/-- R343: a queue's pages, from its base to the end of its item area, translate with R and W. -/
def State.queueMapped (s : State) (part base depth : Nat) : Bool :=
  let last := base + 63 + 32 * depth
  (List.range (last / 4096 + 1 - base / 4096)).all fun i =>
    match s.walk (s.rootOf part) (base / 4096 * 4096 + i * 4096) with
    | .ok l => l.r && l.w && decide (last < 2 ^ 57)
    | .error _ => false

/-- R343: a stage that is refused. -/
def badStage (p : Partition) (d : Descriptor) (i : Nat) (w : List DWord) : Bool :=
  let inq := sdInq w
  let others := (d.stages.mapIdx fun k x => (k, x)).any fun k => k.1 != i && sdInq k.2 == 7
  sdReserved w || sdWarps w == 0 || decide (sdWarps w > 32) || decide ((sdCounts w).getD 2 0 > 16)
    || decide ((sdCounts w).getD 1 0 > 48) || (sdBudgets w).any (fun b => decide (b > 64))
    || (sdTcount w != 0 && (decide (sdTcount w ≤ 32 * (sdWarps w - 1)) || decide (sdTcount w > 32 * sdWarps w)))
    || decide (field (sdWord w 8) 16 8 * 4096 > sdPortion w) || (sdPresets w).any (badPreset w)
    || inq == 5 || inq == 6 || (inq != 7 && (d.queue inq).isNone)
    || (List.range 5).any (fun j => (sdOmask w).getLsbD j && (d.queue j).isNone)
    || (inq == 7 && sdGrid w == 0 && others) || (inq != 7 && sdGrid w != 0)
    || (decide (p.coresOnDie 0 < sdCoh w + 1) && decide (p.coresOnDie 1 < sdCoh w + 1))

/-- R343, R366: why a launch is refused: 1 a full table, 2 the priority, 3 any other case. DESIGN CHOICE (assumption log 20): of
several reasons the first in this order is reported; the spec ranks none. -/
def State.refusal (s : State) (p : Partition) (d : Descriptor) : Option Nat :=
  if p.pipelines.length ≥ 256 then some 1
  else if d.prio > p.prioCeiling then some 2
  else if d.headReserved || (d.stages.mapIdx fun i w => badStage p d i w).any id
      || (List.range 5).any (fun j => match d.queue j with
        | some q => decide (field (d.word (3 + j)) 63 60 > 12) || !s.queueMapped p.number q.1 q.2
        | none => decide (field (d.word (3 + j)) 63 60 > 12)) then some 3
  else none

/-- The stage that a descriptor gives. -/
def stageOf (w : List DWord) : Stage :=
  { entry := sdWord w 0 + sdWord w 1, threads := sdThreads w,
    roles := ((sdCounts w).mapIdx fun r n => List.replicate n r).flatten, budgets := sdBudgets w,
    home := (sdWord w 4).toNat, pbase := (sdWord w 5).toNat, psz := field (sdWord w 6) 15 0,
    sbase := (sdWord w 7).toNat, idem := (sdWord w 8).getLsbD 63, coh := sdCoh w,
    orsv := field (sdWord w 8) 55 40, omask := sdOmask w, inq := sdInq w, win := sdWindow w,
    split := field (sdWord w 8) 2 0, barto := field (sdWord w 9) 63 32, colto := field (sdWord w 9) 31 0,
    grid := sdGrid w, arg := sdWord w 11, rings := sdPresets w, nextWg := 0, slotsUsed := [], times := [] }

/-- The pipeline that a descriptor gives under a handle. -/
def Descriptor.pipeline (d : Descriptor) (handle : Nat) : Pipeline :=
  { handle := handle, prio := d.prio, bound := field (d.word 0) 63 32, done := (d.word 2).toNat,
    stages := d.stages.map stageOf,
    queues := (List.range 5).map fun j => (d.queue j).map fun q => { qbase := q.1, depth := q.2, started := [] } }

/-- R421: an accepted launch, with its handle. -/
def State.enroll (s : State) (p : Partition) (d : Descriptor) : State × Nat :=
  let handle := p.launches + 1
  (s.updPart p.number fun p => { p with launches := handle, pipelines := p.pipelines ++ [d.pipeline handle] }, handle)

/-- What reading the descriptors comes to. -/
inductive ReadDesc where
  | ok (s : State) (d : Descriptor)
  | waits (s : State)
  | fault (s : State) (d : FaultDetail)

/-- The stage descriptors, in ascending order. -/
def State.readStages (s : State) (who : List Nat) (core part : Nat) :
    List Nat → List (List DWord) → Except Performed (State × List (List DWord))
  | [], acc => .ok (s, acc)
  | a :: as, acc => match s.engineRead who core part a 256 (fun _ => true) with
    | .done s bs _ => s.readStages who core part as (acc ++ [qwords bs])
    | x => .error x

/-- R366: the pipeline descriptor and its stage descriptors, as relaxed loads. -/
def State.readDescriptor (s : State) (who : List Nat) (core part addr : Nat) : ReadDesc :=
  match s.engineRead who core part addr 64 (fun _ => true) with
  | .waits s => .waits s
  | .fault s d => .fault s d
  | .done s bs _ =>
    let head := qwords bs
    match s.readStages who core part ((List.range (stageCount head)).map fun i => stageTable head + 256 * i) [] with
    | .ok (s, ss) => .ok s { head := head, stages := ss }
    | .error (.waits s) => .waits s
    | .error (.fault s d) => .fault s d
    | .error (.done s _ _) => .waits s

/-! ## DLAUNCH (R366) -/

/-- R366, checks 1 to 3, for one warp; helpers alone check range and alignment only (R83). -/
def State.launchFault (s : State) (core part : Nat) (wd : DWord) (live : Bool) : Option FaultDetail :=
  if wd.toNat ≥ 2 ^ 57 then some { code := codeProtection, addr := wd }
  else if wd.toNat % 64 != 0 then some { code := codeAlign, addr := wd }
  else if !live then none
  else match s.checkAccess core part wd 1 { r := true } with
    | .error d => some d
    | .ok _ => none

/-- One warp of a DLAUNCH: helpers alone launch nothing and read p = 1. -/
def State.beginLaunch (s : State) (g : Group) (w : Nat × Nat) (rs : List TRef) (o : DlArgs) : State :=
  let wd := s.warpReg { wg := w.1, warp := w.2, lane := 0 } o.wd.toNat
  let live := s.anyLive rs
  match s.launchFault g.core (s.partOf w.1) wd live with
  | some d => s.raiseThese rs d (g.site g.pc)
  | none =>
    if !live then s.updThreads rs fun t => t.setPred o.pd.toNat true
    else
      let l : Launch := { id := s.nextId, group := g.id, who := rs, wg := w.1, warp := w.2, part := s.partOf w.1,
                          desc := wd.toNat, pd := o.pd.toNat, wh := o.wh.toNat, site := g.site g.pc,
                          issuedBy := s.nextId }
      { s with launches := s.launches ++ [l], nextId := s.nextId + 1 }

/-- DLAUNCH (R366): its group holds in flight until the descriptor reads end. -/
def execDlaunch (o : DlArgs) (s : State) : Answer :=
  let acts (t : Thread) : Bool := t.guard o.guard false
  issue {} []
    (fun g s =>
      if s.hasSent g.id then s
      else (s.eachWarp g acts fun w rs s => s.beginLaunch g w rs o).updGroup g.id fun x => { x with sent := true })
    (fun g s => s.launches.any fun l => l.group == g.id)
    (fun _ s => s) s

/-- The end of a warp's launch: predicates, the handle or the reason, taint. -/
def State.endLaunch (s : State) (l : Launch) (ok : Bool) (value : Nat) : State :=
  let land (t : Thread) : Thread :=
    let t := t.setPred l.pd ok
    if ok && t.status == .live then { t with taint := true } else t
  let s := s.updThreads l.who land
  let s := if l.wh = 0 then s else s.updWarp l.wg l.warp fun w => w.setReg l.wh (BitVec.ofNat 64 value)
  { s with launches := s.launches.filter (·.id != l.id) }.wakeGroups

/-- DESCRIPTOR_READ_COMPLETE (R366): after a release at .pkg by the warp, and every release of it that came before (R182),
the reads end; the launch is accepted or refused, or the warp's threads fault. -/
def execDescriptorReadComplete (launch : Nat) (s : State) : Answer :=
  match s.launches.find? (·.id == launch) with
  | none => .next s
  | some l =>
    if s.warpCommandWaits 2 2 l.wg l.warp l.issuedBy then .next s
    else
      let core := s.coreOf l.wg
      match (s.commandActions core 2 2).readDescriptor (engineAgent 5 core l.id) core l.part l.desc with
      | .waits s => .next s
      | .fault s d =>
        let s := s.raiseThese l.who d l.site
        .next (({ s with launches := s.launches.filter (·.id != launch) }.wakeGroups).settle l.group)
      | .ok s d => match s.part? l.part with
        | none => .next s
        | some p => match s.refusal p d with
          | some r => .next (s.endLaunch l false (2 ^ 63 + r))
          | none =>
            let a := s.enroll p d
            .next (a.1.endLaunch l true a.2)

end Sys2Proof.Machine
end

