-- ==== Sys2Proof/Machine/Sched.lean ====
section
/-!
DEFINITION. Work queues, ENQ, STQ, idempotent regions, placement of workgroups, pre-emption, save, flush, resumption and
ends (15_scheduling R345 to R365; 13_sync_wait R312, R313; 11_copy R265; 10_matrix R243). Choices of the device come from
`picks` (assumption logs 4 and 20).
-/

namespace Sys2Proof.Machine

/-! ## Queue headers (R345, R346) -/

/-- The counters of a queue's header. -/
structure QueueHead where
  pub : Nat
  con : Nat
  rsv : Nat
  asg : Nat

/-- The header of a queue as it stands in memory, once the device may read it. A page that system software has taken away
reads as zeros (R345 lets the device start anything then). -/
def State.queueHead (s : State) (core part : Nat) (q : Queue) : State × QueueHead :=
  match s.readBytes core part q.qbase 32 with
  | (s, some bs) =>
    let w (i : Nat) : Nat := ((qwords bs).getD i 0).toNat
    (s, { pub := w 0, con := w 1, rsv := w 2, asg := w 3 })
  | (s, none) => (s, { pub := 0, con := 0, rsv := 0, asg := 0 })

/-- One word of the header. -/
def State.setQueueWord (s : State) (core part : Nat) (q : Queue) (i v : Nat) : State :=
  s.engineWrite core part (q.qbase + 8 * i) (leBytes 8 (v % 2 ^ 64))

/-- R346: the address of an item. -/
def Queue.itemAt (q : Queue) (x : Nat) : Nat := q.qbase + 64 + x % q.depth * 32

/-- R336: ownership that the header of a queue, or an item of it, still lacks. -/
def State.headLacks (s : State) (core part : Nat) (q : Queue) (write : Bool) : Option Nat :=
  s.lacks core part write q.qbase 32

def State.itemLacks (s : State) (core part : Nat) (q : Queue) (write : Bool) (x : Nat) : Option Nat :=
  s.lacks core part write (q.itemAt x) 32

def State.pipeline? (s : State) (part handle : Nat) : Option Pipeline :=
  (s.part? part).bind fun p => p.pipelines.find? (·.handle == handle)

def State.stage? (s : State) (part handle stage : Nat) : Option Stage :=
  (s.pipeline? part handle).bind fun p => p.stages[stage]?

def State.updPipeline (s : State) (part handle : Nat) (f : Pipeline → Pipeline) : State :=
  s.updPart part fun p => { p with pipelines := updateWhere (fun x => x.handle == handle) f p.pipelines }

def State.updStage (s : State) (part handle stage : Nat) (f : Stage → Stage) : State :=
  s.updPipeline part handle fun p => { p with stages := p.stages.modify stage f }

def Pipeline.queue? (p : Pipeline) (j : Nat) : Option Queue := (p.queues.getD j none)

def State.updQueue (s : State) (part handle j : Nat) (f : Queue → Queue) : State :=
  s.updPipeline part handle fun p => { p with queues := p.queues.modify j fun q => q.map f }

/-! ## ENQ, STQ (R363, R364) -/

/-- R363: one thread's push, a release at .pkg. -/
def State.pushItem (s : State) (w : Workgroup) (q : Queue) (r : TRef) (t : Thread) (pd vs : Nat) : State :=
  let h := s.queueHead w.core w.part q
  let s := h.1
  if h.2.rsv - h.2.con ≥ q.depth then s.updThread r fun t => t.setPred pd false
  else
    let x := h.2.rsv
    let item := (List.range 8).flatMap fun i => leBytes 4 (t.reg (vs + i)).toNat
    let s := (s.orderActions w.core 2 2).setQueueWord w.core w.part q 2 (x + 1)
    let s := s.engineWrite w.core w.part (q.itemAt x) item
    let s := s.setQueueWord w.core w.part q 0 (x + 1)
    s.updThread r fun t => { t.setPred pd true with taint := true }

/-- The workgroup of a thread and queue j of its pipeline. -/
def State.queueOf (s : State) (r : TRef) (j : Nat) : Option (Workgroup × Queue) :=
  (s.wg? r.wg).bind fun w => ((s.pipeline? w.part w.handle).bind (·.queue? j)).map fun q => (w, q)

/-- R363: the members of a group that push, in order. -/
def State.pushers (s : State) (g : Group) (acts : Thread → Bool) (j : Nat) : List TRef :=
  (s.active g).filter fun r => (s.thread? r).any (fun t => acts t && !t.isHelper)
    && (s.wg? r.wg).any fun w => w.omask.getLsbD j

/-- R336, R363: a pool granule that the header, or the item that some member pushes, still lacks: its partition and place. -/
def State.pushLacks (s : State) (g : Group) (acts : Thread → Bool) (j : Nat) : Option (Nat × Nat) :=
  let rs := s.pushers g acts j
  rs.zipIdx.findSome? fun x => (s.queueOf x.1 j).bind fun v =>
    let w := v.1
    let h := (s.queueHead w.core w.part v.2).2
    let before := ((rs.take x.2).filter fun r => (s.wg? r.wg).any fun y => y.part == w.part && y.handle == w.handle).length
    ((s.headLacks w.core w.part v.2 true).orElse fun _ =>
      if h.rsv + before - h.con ≥ v.2.depth then none
      else s.itemLacks w.core w.part v.2 true (h.rsv + before)).map fun pa => (w.part, pa)

/-- ENQ (R363): threads push in ascending lane order, once the granules of the queue are held (R336); a helper pushes
nothing. -/
def execEnq (o : EnqFArgs) (s : State) : Answer :=
  let acts (t : Thread) : Bool := t.guard o.guard false
  let j := o.queue.toNat
  let vs := o.vs.toNat
  let regs := (List.range 8).map (vs + ·)
  let ask (g : Group) (s : State) : State := (s.pushLacks g acts j).elim s fun x => s.askPool x.1 x.2 true
  issue {} regs (fun g s => ask g (fillSources {} acts regs g s))
    (fun g s => (s.pushLacks g acts j).isSome || (s.active g).any fun r =>
      (s.thread? r).any fun t => acts t && s.releaseWaits r 2 s.nextId)
    (fun g s => s.eachActing g acts fun _ r t s =>
      match s.wg? r.wg with
      | none => s
      | some w =>
        if !w.omask.getLsbD j then s.raise r { code := codeProtection, addr := BitVec.ofNat 64 j } (g.site g.pc)
        else if t.isHelper then s.updThread r fun t => t.setPred o.pd.toNat true
        else match s.queueOf r j with
          | some (w, q) => s.pushItem w q r t o.pd.toNat vs
          | none => s.updThread r fun t => t.setPred o.pd.toNat false) s

/-- R336, R364: the pool granule of a header that a member reads. -/
def State.readLacks (s : State) (g : Group) (acts : Thread → Bool) (j : Nat) : Option (Nat × Nat) :=
  ((s.active g).filter fun r => (s.thread? r).any acts).findSome? fun r => (s.queueOf r j).bind fun v =>
    (s.headLacks v.1.core v.1.part v.2 false).map fun pa => (v.1.part, pa)

/-- STQ (R364), once the header's granule is held (R336). -/
def execStq (o : StqFArgs) (s : State) : Answer :=
  let vd := o.vd.toNat
  let acts (t : Thread) : Bool := t.guard o.guard false
  issue {} [vd, vd + 1] (fun g s => (s.readLacks g acts o.queue.toNat).elim s fun x => s.askPool x.1 x.2 false)
    (fun g s => (s.readLacks g acts o.queue.toNat).isSome)
    (fun g s => s.eachActing g acts fun _ r _ s => match s.wg? r.wg with
      | none => s
      | some w => match (s.pipeline? w.part w.handle).bind (·.queue? o.queue.toNat) with
        | none => s.updThread r fun t => t.setRegs vd [0, 0]
        | some q =>
          let h := s.queueHead w.core w.part q
          h.1.updThread r fun t =>
            t.setRegs vd [BitVec.ofNat 32 (h.2.rsv - h.2.con), BitVec.ofNat 32 (h.2.pub - h.2.asg)]) s

/-! ## Idempotent regions (R360, R365) -/

/-- IDEMB (R365): the restart point is the clause header after its clause. -/
def execIdemb (o : G0Args) (s : State) : Answer :=
  threadWord { last := true } o.guard [] [] noHold
    (fun g r _ s =>
      (s.updThread r fun t => { t with restart := some (g.pc + 4), taint := false }).updWg r.wg fun w =>
        { w with idembAt := s.time }) s

/-- IDEME (R365). -/
def execIdeme (o : G0Args) (s : State) : Answer :=
  threadWord {} o.guard [] [] noHold (fun _ r _ s => s.updThread r fun t => { t with restart := none }) s

/-! ## Fitting (R349) -/

/-- Resident workgroups of a core, but for some. -/
def State.residents (s : State) (core : Nat) (gone : List Nat) : List Workgroup :=
  s.wgs.filter fun w => w.core == core && w.place == .resident && !gone.contains w.id

/-- Warp slots in use: picker and slot. -/
def slotsInUse (ws : List Workgroup) : List (Nat × Nat) := ws.flatMap fun w => w.warps.map fun x => (x.picker, x.slot)

/-- A free slot of a picker. -/
def freeSlot (used : List (Nat × Nat)) (picker : Nat) : Option (Nat × Nat) :=
  ((List.range 16).map fun i => (picker, i)).find? fun x => !used.contains x

/-- R221, R349: pickers and slots for the warps of a stage: matrix-role warps first, each on a picker of its own, then the
others. The answer follows the warps' numbers. -/
def assignSlots (used : List (Nat × Nat)) (roles : List Nat) : Option (List (Nat × Nat)) :=
  let free := (List.range 16).filterMap (freeSlot used)
  let nmtx := (roles.filter (· == 2)).length
  if free.length < nmtx then none
  else
    let mtx := free.take nmtx
    let rest := roles.filter (· != 2)
    let place := rest.foldl (fun (acc : Option (List (Nat × Nat))) _ => acc.bind fun l =>
      ((List.range 16).findSome? (freeSlot (used ++ mtx ++ l))).map fun x => l ++ [x]) (some [])
    place.map fun l =>
      let pick := roles.foldl (fun (acc : List (Nat × Nat) × List (Nat × Nat) × List (Nat × Nat)) r =>
        if r == 2 then (acc.1 ++ [acc.2.1.headD (0, 0)], acc.2.1.tail, acc.2.2)
        else (acc.1 ++ [acc.2.2.headD (0, 0)], acc.2.1, acc.2.2.tail)) ([], mtx, l)
      pick.1

/-- R349: a free range of Z bytes in the portion. -/
def freeWindow (ws : List Workgroup) (portion z : Nat) : Option Nat :=
  if z = 0 then some 0
  else ((0 :: ws.map fun w => w.winBase + w.window).filter fun b => decide (b + z ≤ portion)
    && ws.all fun w => w.window == 0 || decide (b + z ≤ w.winBase) || decide (w.winBase + w.window ≤ b)).head?

/-- What a workgroup takes on a core: the slots of its warps and the base of its window. -/
def State.room (s : State) (core : Nat) (st : Stage) (gone : List Nat) : Option (List (Nat × Nat) × Nat) :=
  let ws := s.residents core gone
  let copies := ((ws.map fun w => (w.warps.filter (·.role == 1)).length).foldl (· + ·) 0)
    + (st.roles.filter (· == 1)).length
  if ws.any (fun w => w.split != st.split) || (st.roles.contains 2 && ws.any (·.ownsTiles)) || decide (copies > 48) then none
  else match assignSlots (slotsInUse ws) st.roles, freeWindow ws (st.split * 262144) st.win with
    | some sl, some b => some (sl, b)
    | _, _ => none

/-- R349: a new workgroup of a stage fits a core, without some workgroups: a home slot is free as well. -/
def State.fits (s : State) (core : Nat) (st : Stage) (gone : List Nat) : Bool :=
  (s.room core st gone).isSome && decide (st.slotsUsed.length < 8192)

/-! ## What may start (R350, R352) -/

/-- R313: a saved workgroup whose issued operations have retired, or a flushed one. -/
def State.placeable (s : State) (w : Workgroup) : Bool :=
  match w.place with
  | .resident => false
  | .flushed => true
  | .saved => !(s.copies.any fun x => x.wg == w.id) && !(s.rows.any fun (x : RowOp) => x.wg == w.id)
      && !(s.tiers.any fun x => x.wg == w.id)

/-- R352: the core may take the workgroup: a cohort's members stay on their die. DEDUCED (assumption log 20): a flushed member
too, where R352 speaks of saved ones. -/
def Workgroup.mayResumeOn (w : Workgroup) (core : Nat) : Bool := decide (w.csz = 1) || w.core / 64 == core / 64

/-- Workgroups of a stage that await placement on a core. -/
def State.awaiting (s : State) (part handle stage core : Nat) : List Workgroup :=
  s.wgs.filter fun w => w.part == part && w.handle == handle && w.stage == stage && s.placeable w && w.mayResumeOn core

/-- Assigned, unstarted entries of a stage on a core. -/
def State.pendingOf (s : State) (handle stage core : Nat) : List PendingWork :=
  (s.core core).pending.filter fun e => e.handle == handle && e.stage == stage

/-- R350: an assigned entry of a stage is unstarted on some core of its partition. -/
def State.hasPending (s : State) (part handle stage : Nat) : Bool :=
  (s.part? part).any fun p => p.cores.any fun c => !(s.pendingOf handle stage c).isEmpty

/-- R350: queue positions or %wg values not yet assigned suffice for a cohort. -/
def State.newWork (s : State) (core part : Nat) (p : Pipeline) (st : Stage) : Bool :=
  if st.inq = 7 then decide (st.nextWg + st.coh + 1 ≤ st.grid)
  else match p.queue? st.inq with
    | some q =>
      let h := (s.queueHead core part q).2
      decide (h.asg + st.coh + 1 ≤ h.pub)
    | none => false

/-- R350: back-pressure. -/
def State.outputsFree (s : State) (core part : Nat) (p : Pipeline) (st : Stage) : Bool :=
  (List.range 5).all fun j => !st.omask.getLsbD j || match p.queue? j with
    | some q =>
      let h := (s.queueHead core part q).2
      decide (q.depth - (h.rsv - h.con) ≥ max 1 st.orsv)
    | none => true

/-- R336: a pool granule that the header of the stage's input queue, or of one of its output queues, still lacks, and
whether it is needed exclusive. -/
def State.stageLacks (s : State) (core part : Nat) (p : Pipeline) (st : Stage) : Option (Nat × Bool) :=
  let lacks (j : Nat) (write : Bool) : Option (Nat × Bool) :=
    (p.queue? j).bind fun q => (s.headLacks core part q write).map fun pa => (pa, write)
  (lacks st.inq true).orElse fun _ => (List.range 5).findSome? fun j => if st.omask.getLsbD j then lacks j false else none

/-- R350: a stage that can start on a core, as far as the headers of its queues can be read. -/
def State.startable (s : State) (core part : Nat) (p : Pipeline) (i : Nat) (st : Stage) : Bool :=
  (s.stageLacks core part p st).isNone && (s.newWork core part p st || s.hasPending part p.handle i || !(s.awaiting part p.handle i core).isEmpty)
    && s.outputsFree core part p st

/-- R350: how a stage ranks: priority, saved or flushed work, fill as a fraction, handle and index. -/
structure Rank where
  prio : Nat
  waits : Bool
  num : Nat
  den : Nat
  handle : Nat
  stage : Nat

def State.rank (s : State) (core part : Nat) (p : Pipeline) (i : Nat) (st : Stage) : Rank :=
  let fill := match p.queue? st.inq with
    | some q =>
      let h := (s.queueHead core part q).2
      (h.pub - h.asg, q.depth)
    | none => (1, 2)
  { prio := p.prio, waits := !(s.awaiting part p.handle i core).isEmpty, num := fill.1, den := fill.2,
    handle := p.handle, stage := i }

/-- R350: whether one ranks higher than another. -/
def Rank.above (a b : Rank) : Bool :=
  if a.prio ≠ b.prio then decide (a.prio > b.prio)
  else if a.waits != b.waits then a.waits
  else if a.num * b.den ≠ b.num * a.den then decide (a.num * b.den > b.num * a.den)
  else if a.handle ≠ b.handle then decide (a.handle < b.handle)
  else decide (a.stage < b.stage)

/-- Every stage of a partition. -/
def Partition.allStages (p : Partition) : List (Pipeline × Nat × Stage) :=
  p.pipelines.flatMap fun x => x.stages.mapIdx fun i st => (x, i, st)

/-- R349, R350, R352: a core fits work of a stage, without some workgroups: a workgroup that awaits placement, or a new
one, which for a cohort needs as many fitting cores on the die as it has members. -/
def State.fitsWork (s : State) (part : Partition) (core : Nat) (p : Pipeline) (i : Nat) (st : Stage) (gone : List Nat) : Bool :=
  (s.room core st gone).isSome && (!(s.awaiting part.number p.handle i core).isEmpty
    || (decide (st.slotsUsed.length + st.coh < 8192)
      && (st.coh == 0 || decide ((part.cores.filter fun c => c / 64 == core / 64 && s.fits c st gone).length > st.coh))))

/-- R354: the request for a core, while its stage is startable there. -/
def State.requestOf (s : State) (part : Partition) (core : Nat) : Option (Nat × Nat × Nat) :=
  (s.core core).request.filter fun r => part.allStages.any fun x =>
    x.1.handle == r.1 && x.2.1 == r.2.1 && s.startable core part.number x.1 x.2.1 x.2.2

/-- R350, R354: no startable stage whose work the core fits ranks higher, and no request for the core bars the priority. -/
def State.mayPlace (s : State) (part : Partition) (core : Nat) (p : Pipeline) (i : Nat) (st : Stage) : Bool :=
  let mine := s.rank core part.number p i st
  ((s.requestOf part core).all fun r => decide (r.2.2 ≤ p.prio))
    && part.allStages.all fun x => !(s.startable core part.number x.1 x.2.1 x.2.2
        && s.fitsWork part core x.1 x.2.1 x.2.2 [] && (s.rank core part.number x.1 x.2.1 x.2.2).above mine)

/-- R354: the requests of a stage are met, or have gone with its pipeline. -/
def State.withdraw (s : State) (part handle : Nat) (stage : Nat → Bool) : State :=
  let cores := ((s.part? part).map (·.cores)).getD []
  let drop (c : Core) : Core := { c with request := c.request.filter fun r => !(r.1 == handle && stage r.2.1) }
  cores.foldl (fun s c => s.updCore c drop) s

/-! ## Start state (R347) -/

/-- The lowest home slot that no workgroup of the stage holds. -/
def Stage.freeHome (st : Stage) : Nat := ((List.range 8192).find? fun n => !st.slotsUsed.contains n).getD 0

/-- One thread at its start (R347, R348, R360, R368). -/
def startThread (entry : DWord) (idem helper : Bool) (warp lane : Nat) (stack : DWord) (now : Nat) : Thread :=
  let t : Thread :=
    { warp := warp, lane := lane, pc := entry, mid := none, depth := 0, v := Vector.replicate 64 0,
      writes := Vector.replicate 64 0, cold := 0, p := 0,
      flags := Vector.replicate 12 0, fpstat := 0, status := if helper then .helper else .live, group := none,
      hold := none, watch := none, yieldMark := none, readyAt := now, unready := false, collSince := none, sgw := 32,
      fcode := 0, fpc := 0, faddr := 0, finfo := 0, fgen := 0, raised := none, forder := none, siteSgw := 32,
      site := { pc := 0, resume := 0, resumeIn := none, next := 0, nextIn := none }, entry := .none, tpc := 0,
      tnext := 0, inh := false, watchdog := none, kept := none, restart := if idem then some entry else none, taint := false,
      products := 0, fcall := 0, late := none }
  t.setReg64 12 stack

/-- Lanes of a warp that have threads: the launch's, and helpers that complete its last quad (R18, R342). -/
def warpLanes (threads warp : Nat) : List (Nat × Bool) :=
  let n := min 32 (threads - 32 * warp)
  (List.range ((n + 3) / 4 * 4)).map fun l => (l, decide (n ≤ l))

/-- w0 of a warp. -/
def privBase (st : Stage) (slot warp : Nat) : Nat := st.pbase + (slot * 1024 + warp * 32) * (st.psz * 16)

/-- The threads of a workgroup at its start. -/
def startThreads (st : Stage) (slot now : Nat) : List Thread :=
  (List.range st.roles.length).flatMap fun w => (warpLanes st.threads w).map fun l =>
    startThread st.entry st.idem l.2 w l.1 (BitVec.ofNat 64 (privBase st slot w + (l.1 + 1) * (st.psz * 16))) now

/-- The warps of a workgroup at its start. -/
def startWarps (st : Stage) (slot : Nat) (slots : List (Nat × Nat)) (item : List Word) : List Warp :=
  st.roles.mapIdx fun i role =>
    let at_ := slots.getD i (0, 0)
    let word (k : Nat) : DWord := pair64 (item.getD (2 * k + 1) 0) (item.getD (2 * k) 0)
    let w : Warp := { id := i, role := role, budget := st.budgets.getD role 64, picker := at_.1, slot := at_.2,
                      w := Vector.replicate 32 0, sgw := 32, gang := 0, before := none }
    (List.range 4).foldl (fun w k => w.setReg (4 + k) (word k))
      ((w.setReg 0 (BitVec.ofNat 64 (privBase st slot i))).setReg 1 st.arg)

/-- R347, R253: the rings that the presets define; `out` says which members have ended or are flushed (R259). -/
def startRings (st : Stage) (member ident : Nat) (out : Nat → Bool) : Vector (Option Ring) 8 :=
  Vector.ofFn fun i : Fin 8 =>
    let d := st.rings.getD i.val 0
    if d.getLsbD 43 && !((d.extractLsb' 48 16).getLsbD member) then none
    else match newRing d st.win (st.coh + 1) member (ident + i.val) out with
      | .ok x => x
      | .error _ => none

/-- R347: a non-header at the entry faults BAD_TARGET in every thread. -/
def State.checkEntry (s : State) (id : Nat) : State :=
  match s.wg? id with
  | none => s
  | some w =>
    let check (t : Thread) : Thread :=
      if s.targetFault w.core w.part t.pc == some codeBadTarget then
        t.raise { code := codeBadTarget, addr := t.pc } (targetSite t.pc)
      else t
    s.updWg id fun w => { w with threads := w.threads.map check }

/-- One workgroup comes to stand on a core, with an item; L1 keeps what its split leaves (R15). -/
def State.placeNew (s : State) (part : Nat) (p : Pipeline) (i : Nat) (st : Stage) (core member cohort seq pos : Nat)
    (item : List Word) (slots : List (Nat × Nat)) (base : Nat) : State :=
  let st := (s.stage? part p.handle i).getD st
  let slot := st.freeHome
  let w : Workgroup :=
    { id := s.nextId, part := part, handle := p.handle, stage := i, member := member, cohort := cohort, csz := st.coh + 1,
      seq := BitVec.ofNat 32 seq, pos := BitVec.ofNat 32 pos, item := item, slot := slot, core := core,
      place := .resident, started := s.time, resident := 0, verdict := .none, idembAt := s.time,
      watchFrom := s.time, watchReport := none, marks := [0, 0, 0],
      tvec := 0, window := st.win, winBase := base, split := st.split, scratch := [], tiles := [],
      ownsTiles := st.roles.contains 2, barriers := Vector.replicate 16 Barrier.reset,
      rings := startRings st member (s.nextId + 1) (fun _ => false), gangs := [], warps := startWarps st slot slots item,
      threads := startThreads st slot s.time, colto := st.colto, barto := st.barto, omask := st.omask, idem := st.idem,
      home := st.home, sbase := st.sbase }
  let s := s.updStage part p.handle i fun x => { x with slotsUsed := slot :: x.slotsUsed }
  let s := { s with wgs := s.wgs ++ [w], nextId := s.nextId + 9 }.orderActions core 1 2
  (s.l1Trim core (s.l1Capacity core)).checkEntry w.id

/-- R347: the item's words as the start reads them. -/
def State.readItem (s : State) (core part : Nat) (q : Queue) (x : Nat) : State × List Word :=
  match s.readBytes core part (q.itemAt x) 32 with
  | (s, some bs) => (s, (List.range 8).map (wordAt bs))
  | (s, none) => (s, List.replicate 8 0)

/-- R346: con passes the positions that have started. -/
def passStarted : Nat → Nat → List Nat → Nat × List Nat
  | 0, con, started => (con, started)
  | fuel + 1, con, started =>
    if started.contains con then passStarted fuel (con + 1) (started.filter (· != con)) else (con, started)

/-- R346: a position's workgroup has started. -/
def State.consume (s : State) (core part handle j x : Nat) : State :=
  match (s.pipeline? part handle).bind (·.queue? j) with
  | none => s
  | some q =>
    let h := s.queueHead core part q
    let r := passStarted (q.started.length + 1) h.2.con (x :: q.started)
    (h.1.updQueue part handle j fun q => { q with started := r.2 }).setQueueWord core part q 1 r.1

/-- A workgroup of an assigned entry starts on a core that has room for it. -/
def State.startEntry (s : State) (part : Nat) (p : Pipeline) (i : Nat) (st : Stage) (core member cohort seq pos : Nat) :
    State :=
  match s.room core st [] with
  | none => s
  | some (slots, base) =>
    let s := s.withdraw part p.handle (· == i)
    match p.queue? st.inq with
    | some q =>
      let item := s.readItem core part q pos
      (item.1.placeNew part p i st core member cohort seq pos item.2 slots base).consume core part p.handle st.inq pos
    | none => s.placeNew part p i st core member cohort seq pos (List.replicate 8 0) slots base

/-- R350: n positions, or %wg values, are assigned: the first position and the first number in the stage. -/
def State.assign (s : State) (core part : Nat) (p : Pipeline) (i : Nat) (st : Stage) (n : Nat) : State × Nat × Nat :=
  let seq := st.nextWg
  let s := s.updStage part p.handle i fun x => { x with nextWg := seq + n }
  match p.queue? st.inq with
  | some q =>
    let h := s.queueHead core part q
    (h.1.setQueueWord core part q 3 (h.2.asg + n), h.2.asg, seq)
  | none => (s, seq, seq)

/-- R352: the cores of a cohort: as many as it has members, all different, on one die, each with room. -/
def State.cohortFits (s : State) (part : Partition) (st : Stage) (cores : List Nat) : Bool :=
  decide (cores.length = st.coh + 1) && decide ((distinct cores).length = cores.length)
    && cores.all (fun c => part.cores.contains c && c / 64 == cores.headD 0 / 64 && s.fits c st [])
    && decide (st.slotsUsed.length + cores.length ≤ 8192)

/-- R336: a pool granule that the items of some positions still lack. -/
def State.itemsLack (s : State) (core part : Nat) (p : Pipeline) (st : Stage) (xs : List Nat) : Option Nat :=
  (p.queue? st.inq).bind fun q => xs.findSome? (s.itemLacks core part q false)

/-- R350: the positions that the next n workgroups of a stage take. -/
def State.nextPositions (s : State) (core part : Nat) (p : Pipeline) (st : Stage) (n : Nat) : List Nat :=
  match p.queue? st.inq with
  | some q => (List.range n).map ((s.queueHead core part q).2.asg + ·)
  | none => []

/-- Another core fits a workgroup of a stage, or makes room for it: the entry does not join this core's pending list
(R350, R354, assumption log 20). -/
def State.placedElsewhere (s : State) (part : Partition) (core handle stage : Nat) (st : Stage) : Bool :=
  part.cores.any fun c => s.fits c st []
    || (c != core && (s.requestOf part c).any fun r => r.1 == handle && r.2.1 == stage)

/-- WORKGROUP_START (R347 to R352): the highest-ranked startable stage starts on the given core, with its oldest pending
entry or a new one; a cohort starts on all its cores at once. Where no core of the partition has room or makes
room for it, a new entry joins the pending list of the core (assumption log 20). -/
def execWorkgroupStart (handle stage : Nat) (cores : List Nat) (s : State) : Answer :=
  let core := cores.headD 0
  match s.parts.find? fun p => p.cores.contains core && p.pipelines.any (·.handle == handle) with
  | none => .next s
  | some part => match s.pipeline? part.number handle, s.stage? part.number handle stage with
    | some p, some st =>
      match s.stageLacks core part.number p st with
      | some x => .next (s.askPool part.number x.1 x.2)
      | none =>
        let pending := s.pendingOf handle stage core
        let positions := match pending with
          | e :: _ => if st.coh = 0 then [e.pos] else s.nextPositions core part.number p st (st.coh + 1)
          | [] => s.nextPositions core part.number p st (st.coh + 1)
        if !s.startable core part.number p stage st || !(cores.all fun c => s.mayPlace part c p stage st) then .next s
        else match s.itemsLack core part.number p st positions with
          | some pa => .next (s.askPool part.number pa false)
          | none =>
            if st.coh = 0 then
              match pending with
              | e :: _ =>
                if !s.fits core st [] then .next s
                else
                  let s := s.updCore core fun c => { c with pending := c.pending.erase e }
                  .next (s.startEntry part.number p stage st core 0 s.nextId e.seq e.pos)
              | [] =>
                if !s.newWork core part.number p st then .next s
                else if s.fits core st [] then
                  let a := s.assign core part.number p stage st 1
                  .next (a.1.startEntry part.number p stage st core 0 a.1.nextId a.2.2 a.2.1)
                else if (s.core core).pending.length ≥ 8 || s.placedElsewhere part core handle stage st then .next s
                else
                  let a := s.assign core part.number p stage st 1
                  .next (a.1.updCore core fun c =>
                    { c with pending := c.pending ++ [{ handle := handle, stage := stage, seq := a.2.2, pos := a.2.1 }] })
            else if !s.newWork core part.number p st || !s.cohortFits part st cores then .next s
            else
              let a := s.assign core part.number p stage st (st.coh + 1)
              let id := a.1.nextId
              .next ((cores.mapIdx fun k c => (k, c)).foldl (fun s k =>
                s.startEntry part.number p stage st k.2 k.1 id (a.2.2 + k.1) (a.2.1 + k.1)) a.1)
    | _, _ => .next s

/-! ## Work stealing (R351) -/

/-- R351: the cores that an idle core asks, in order: its quadrant from its own number on, then the rest of its die. -/
def stealOrder (core : Nat) : List Nat :=
  let quad := (List.range 15).map fun i => core / 16 * 16 + (core + 1 + i) % 16
  quad ++ (((List.range 64).map fun i => core / 64 * 64 + i).filter fun c => c / 16 != core / 16)

/-- R351: a core is idle: its pending list is empty, and it fits work of some startable stage. -/
def State.idle (s : State) (part : Partition) (core : Nat) : Bool :=
  (s.core core).pending.isEmpty && part.allStages.any fun x =>
    s.startable core part.number x.1 x.2.1 x.2.2 && s.fitsWork part core x.1 x.2.1 x.2.2 []

/-- STEAL_REQUEST (R351): the first core that an idle one asks that holds two or more entries that fit here ships half of
them, the oldest first; cohorts and saved workgroups are not on pending lists. -/
def execStealRequest (core : Nat) (s : State) : Answer :=
  match s.parts.find? fun p => p.cores.contains core with
  | none => .next s
  | some part =>
    let fitsHere (e : PendingWork) : Bool :=
      (s.stage? part.number e.handle e.stage).any fun st => s.fits core st []
    if !s.idle part core then .next s
    else match (stealOrder core).find? fun c =>
        part.cores.contains c && decide (((s.core c).pending.filter fitsHere).length ≥ 2) with
      | none => .next s
      | some c =>
        let es := (s.core c).pending.filter fitsHere
        let got := es.take (es.length / 2)
        let s := s.updCore c fun x => { x with pending := x.pending.filter fun e => !got.contains e }
        .next (s.updCore core fun x => { x with pending := got })

/-! ## Stopping (R357, R361, R243) -/

/-- A thread leaves its group where it stands: at the first modifier word of its next instruction. -/
def Thread.leaveGroup (t : Thread) (g : Group) : Thread :=
  if g.atHeader then { t with group := none, pc := g.pc, mid := none }
  else
    let k := g.mods.count
    { t with group := none, pc := g.pc - BitVec.ofNat 64 (4 * k),
             mid := some { g.ctx with left := g.ctx.left + k } }

/-- A thread leaves its group behind the word at which the group holds: its own part of the word is done. -/
def Thread.leaveBehind (t : Thread) (g : Group) (width now : Nat) : Thread :=
  match g.ctx.step with
  | some c => { t with group := none, pc := g.pc + 4, mid := some c }
  | none => { t.finishClause g with group := none, pc := g.pc + 4, mid := none, readyAt := now, collSince := none,
                                    sgw := width }

/-- Whether a thread's own part of the word at which its group holds is still to come: its rendezvous has not accepted, or
its launch is being read. -/
def State.stillWaits (s : State) (w : Workgroup) (r : TRef) : Bool :=
  (w.gangs.any fun x => x.arrivals.any fun a => a.who == r) || s.launches.any fun l => l.who.contains r

/-- R243: rendezvous that are not accepted are abandoned; the words will be issued again. -/
def Workgroup.abandonRendezvous (w : Workgroup) : Workgroup :=
  let as := w.gangs.flatMap (·.arrivals)
  let undo (t : Thread) : Thread :=
    { t with products := t.products - (as.filter fun a => a.who == t.ref w.id).length }
  { w.dropArrivals (as.map (·.who)) with threads := w.threads.map undo }

/-- Every thread of a workgroup leaves its group; open rendezvous are abandoned and launches being read are given up. -/
def State.leaveGroups (s : State) (id : Nat) : State :=
  let leave (w : Workgroup) (t : Thread) : Thread := match t.group.bind fun n => s.groups.find? (·.id == n) with
    | some g => if g.sent && !s.stillWaits w (t.ref w.id) then t.leaveBehind g (w.widthOf t) s.time else t.leaveGroup g
    | none => t
  let s := s.updWg id fun w => { w with threads := w.threads.map (leave w) }.abandonRendezvous
  let s := { s with launches := s.launches.filter (·.wg != id) }
  ((s.groups.map (·.id)).foldl (fun s g => s.settle g) s).wakeGroups

/-- Issue stops in a workgroup; its AWAITF requests are served with none. -/
def State.stopIssue (s : State) (id : Nat) : State :=
  (List.range 8).foldl (fun s q => s.serveNone id q) (s.leaveGroups id)

/-- The verdict on a workgroup (R356); one to be saved or flushed stops. -/
def State.setVerdict (s : State) (id : Nat) (v : Verdict) : State :=
  let s := s.updWg id fun w => { w with verdict := v }
  if v == .save || v == .flush then s.stopIssue id else s

/-! ## Pre-emption (R354 to R356) -/

/-- Priority of a workgroup's pipeline. -/
def State.prioOf (s : State) (w : Workgroup) : Nat := ((s.pipeline? w.part w.handle).map (·.prio)).getD 0

/-- R354: what may be removed from a core, in order: lowest priority first, then youngest. -/
def State.removable (s : State) (core prio : Nat) : List Workgroup :=
  ((s.residents core []).filter fun w => decide (s.prioOf w < prio)).mergeSort fun a b =>
    decide (s.prioOf a < s.prioOf b) || (decide (s.prioOf a = s.prioOf b) && decide (b.started ≤ a.started))

/-- R354: a core would fit work of a stage without some workgroups; a cohort makes one request for each core it lacks. -/
def State.wouldFit (s : State) (part : Partition) (core : Nat) (p : Pipeline) (i : Nat) (st : Stage) (gone : List Nat) : Bool :=
  s.fits core st gone || ((s.room core st gone).isSome && !(s.awaiting part.number p.handle i core).isEmpty)

/-- R354: the victims on a core: the shortest run of removals that makes room. -/
def State.victims (s : State) (part : Partition) (core : Nat) (p : Pipeline) (i : Nat) (st : Stage) : Option (List Workgroup) :=
  let ws := s.removable core p.prio
  ((List.range (ws.length + 1)).find? fun n => s.wouldFit part core p i st ((ws.take n).map (·.id))).map ws.take

/-- R357: the size of a workgroup's save area, before rounding: F + Z + m. -/
def Workgroup.saveSize (w : Workgroup) : Nat := 229376 + w.window + (if w.ownsTiles then 524288 else 0)

/-- R361. -/
def Workgroup.flushable (w : Workgroup) : Bool := w.idem && w.threads.all fun t => t.restart.isSome && !t.taint

/-- R355: time resident so far, time saved left out. -/
def Workgroup.age (w : Workgroup) (now : Nat) : Nat :=
  if w.place == .resident then w.resident + (now - w.started) else w.resident

/-- R355, R356: whether the estimated drain stays within a bound in µs. -/
def State.drainFits (s : State) (w : Workgroup) (bound : Nat) : Bool :=
  let times := ((s.stage? w.part w.handle w.stage).map (·.times)).getD []
  times != [] && decide (times.foldl (· + ·) 0 ≤ (w.age s.time + bound * 2000) * times.length)

/-- R355, R356: whether flushing costs no more than saving, with the device's count d of dirty registers within its
bound. -/
def State.flushCheaper (s : State) (w : Workgroup) : Bool :=
  let live := (w.threads.filter (·.status != .exited)).length
  let d := s.picks.headD 0 % (64 * live + 1)
  decide ((s.time - w.idembAt) * 128 ≤ 4 * d + w.saveSize)

/-- R356, rules 2 and 3. -/
def State.evict (s : State) (w : Workgroup) : State :=
  s.setVerdict w.id (if w.flushable && s.flushCheaper w then .flush else .save)

/-- R356: the decision for one victim. -/
def State.decideVictim (s : State) (w : Workgroup) (bound : Nat) : State :=
  match w.verdict with
  | .save => s
  | .flush => s
  | _ =>
    if bound = 0 || s.drainFits w bound then s.setVerdict w.id (.drain s.time bound)
    else s.evict w

/-- R354 to R356: the request of a stage of a partition, where one arises; on its core it takes the place of one of lower
priority, which arises anew. -/
def State.preempt (s : State) (part : Partition) (handle stage : Nat) : Option State :=
  match part.pipelines.find? (·.handle == handle) with
  | none => none
  | some p => match p.stages[stage]? with
    | none => none
    | some st =>
      let fitting := part.cores.filter fun c => s.wouldFit part c p stage st []
      let enough := if st.coh = 0 then fitting != []
        else decide ((fitting.filter (· / 64 == 0)).length > st.coh) || decide ((fitting.filter (· / 64 == 1)).length > st.coh)
      let asked := part.cores.any fun c => (s.requestOf part c).any fun r => r.1 == handle && r.2.1 == stage
      if enough || (asked && st.coh == 0) || !(part.cores.any fun c => s.startable c part.number p stage st) then none
      else
        let options := part.cores.filterMap fun c =>
          if ((s.requestOf part c).any fun r => decide (p.prio ≤ r.2.2)) || fitting.contains c then none
          else (s.victims part c p stage st).map fun vs => (c, vs)
        match options.mergeSort fun a b =>
            decide (a.2.length < b.2.length) || (decide (a.2.length = b.2.length) && decide (a.1 ≤ b.1)) with
        | [] => none
        | (c, vs) :: _ =>
          let s := s.updCore c fun x => { x with request := some (handle, stage, p.prio) }
          some { vs.foldl (fun s w => s.decideVictim w p.bound) s with picks := s.picks.tail }

/-- PREEMPTION_REQUEST (R354 to R356): a startable stage that fits no core of its partition; handles count in each
partition by itself (R421). -/
def execPreemptionRequest (handle stage : Nat) (s : State) : Answer :=
  match s.parts.findSome? fun part => s.preempt part handle stage with
  | some s' => .next s'
  | none => .next s

/-- DRAIN_BOUND_EXPIRY (R356): a drained victim has not ended within a nonzero bound. -/
def execDrainBoundExpiry (wg : Nat) (s : State) : Answer :=
  match s.wg? wg with
  | none => .next s
  | some w => match w.verdict with
    | .drain since bound =>
      if bound = 0 || decide (s.time < since + bound * 2000) || w.place != .resident then .next s
      else .next { s.evict w with picks := s.picks.tail }
    | _ => .next s

/-! ## Save (R357, R358, R243, R312, R313) -/

/-- R36, R243: nothing of the workgroup's threads is outstanding, no matrix operation of it is accepted, and every store
that they may have seen on its core before others did has performed (R173). -/
def State.settled (s : State) (w : Workgroup) : Bool :=
  !(s.ops.any fun o => o.who.any fun r => r.wg == w.id)
    && !((s.core w.core).matrix.any fun x => x.wg == w.id)
    && !s.owes w.core 2 0 (fun _ => false)

/-- The save area of a workgroup: its address and length (R357). -/
def Workgroup.saveArea (w : Workgroup) : Nat × Nat :=
  let g := (w.saveSize + 4095) / 4096 * 4096
  (w.sbase + w.slot * g, g)

/-- A record of kind 6 for the workgroup is on its way or unanswered. -/
def State.saveReported (s : State) (w : Workgroup) : Bool :=
  let mine (r : FaultRecord) : Bool := r.kind == 6 && r.wg == w.id
  (s.core w.core).records.any mine || (s.core w.core).unformed.any mine || (s.part? w.part).any fun p => p.records.any mine

/-- R36: a thread's outstanding counts are 0; a late fault lowers none of them any more. -/
def Thread.noFlags (t : Thread) : Thread :=
  { t with flags := Vector.replicate 12 0, late := t.late.map fun d => { d with flags := [] } }

/-- A thread as its save keeps it (R36, R312): watches go, and a hold on one is over. -/
def Thread.saved (t : Thread) : Thread :=
  match t.hold with
  | some (.wwait _) => { t.noFlags with watch := none, hold := none, collSince := none }
  | _ => { t.noFlags with watch := none, collSince := none }

/-- R357: every register that the store holds goes to its home. -/
def State.spillAll (s : State) (w : Workgroup) : State :=
  (w.threads.filter (·.status != .exited)).foldl (fun s t =>
    (List.range 64).foldl (fun s n => if t.cold.getLsbD n then s else s.spillReg (t.ref w.id) n) s) s

/-- WORKGROUP_SAVE (R357): once everything outstanding has completed; a translation fault on the save area goes to
Zarkin OS first. The layout of the area is the device's own, so its bytes are free (assumption log 20). -/
def execWorkgroupSave (wg : Nat) (s : State) : Answer :=
  match s.wg? wg with
  | none => .next s
  | some w =>
    if w.place != .resident || w.verdict != .save || !s.settled w then .next s
    else
      let area := w.saveArea
      let pages := (List.range (area.2 / 4096)).map fun i => (area.1 + i * 4096, 128)
      let who := engineAgent 4 w.core w.id
      match s.probe who w.core w.part { r := true, w := true } (fun _ => true) pages with
      | .waits pa => .next (s.holdPool who pa true)
      | .fault d => .next (if s.saveReported w then s else s.reportRecord (s.mkRecord w 6 0 0 d 0 0 0 false []))
      | .ok =>
        let s := s.spillAll w
        let bytes := (List.range area.2).map fun i => BitVec.ofNat 8 (Config.freeNat (s.fresh + i))
        let s := { s.engineWrite w.core w.part area.1 bytes with fresh := s.fresh + area.2 }
        let s := s.orderActions w.core 2 2
        .next (s.updWg wg fun w =>
          { w with place := .saved, verdict := .none, resident := w.age s.time, threads := w.threads.map (·.saved) })

/-! ## Flush (R361, R265, R312, R359) -/

/-- R259: the member has gone: the rings of its cohort no longer wait for it. -/
def State.memberGone (s : State) (w : Workgroup) : State :=
  let same (x : Workgroup) : Bool := x.part == w.part && x.handle == w.handle && x.stage == w.stage && x.cohort == w.cohort
  let note (x : Workgroup) : Workgroup :=
    { x with rings := x.rings.map fun r => r.map fun y => { y with gone := w.member :: y.gone } }
  { s with wgs := updateWhere same note s.wgs }

/-- R265, R260: the copy operations of a cohort as a member loses its window and its rings: reads of the window keep what it
held, deliveries to the member are discarded. -/
def State.loseWindow (s : State) (w : Workgroup) : State :=
  let bytes := Memory.getBytes w.scratch 0 w.window
  let reads (x : CopyOp) : Bool := x.wg == w.id && (x.kind == 1 || x.kind == 3)
  let mine (x : CopyOp) : Bool := x.part == w.part && x.handle == w.handle && x.pipeStage == w.stage
    && x.cohort == w.cohort && x.deliver.contains w.member
  let change (x : CopyOp) : CopyOp :=
    if reads x then { x with snap := some (x.snap.getD bytes) }
    else if mine x then
      { x with deliver := x.deliver.filter (· != w.member), partial_ := true,
               dropped := x.dropped ||| (1#16 <<< w.member) }
    else x
  { s with copies := s.copies.map change }

/-- WORKGROUP_FLUSH (R361). -/
def execWorkgroupFlush (wg : Nat) (s : State) : Answer :=
  match s.wg? wg with
  | none => .next s
  | some w =>
    if w.place != .resident || w.verdict != .flush || !s.settled w then .next s
    else
      let s := (s.loseWindow w).memberGone w
      .next (s.updWg wg fun w =>
        { w with place := .flushed, verdict := .none, resident := w.age s.time, watchReport := none, scratch := [],
                 tiles := [], gangs := [], barriers := Vector.replicate 16 Barrier.reset, rings := Vector.replicate 8 none,
                 threads := w.threads.map fun t =>
                   { t with flags := Vector.replicate 12 0, late := none, watch := none, hold := none, kept := none } })

/-! ## Resumption (R313, R358, R361) -/

/-- R313: a timeline whose next number would be F or less advances to F + 1; the numbers skipped count as completed. -/
def Timeline.rebase (x : Timeline) (f : Nat) : Timeline :=
  if x.next ≤ f then
    let skipped := (List.range (f + 1 - x.next)).map (x.next + ·)
    Timeline.retire (x.completed.length + skipped.length + 1)
      { x with next := f + 1, completed := x.completed ++ skipped }
  else x

/-- R358: every dirty private line goes to L2, and no private line stays; no read-shared line either, which may be older
than what the workgroup has seen (R173). -/
def State.resumeCaches (s : State) (core : Nat) : State :=
  (s.l1WriteBackAll core).updCore core fun c => { c with l1 := c.l1.filter (·.cls == .coherent) }

/-- R302, R312: the timer of a phase with arrivals restarts. -/
def Barrier.restart (b : Barrier) (now : Nat) : Barrier :=
  if b.arrivals.isEmpty then b else { b with timer := some now }

/-- R361: a flushed workgroup restarts: each thread at its own restart point, which it keeps. DEDUCED (assumption log 20): its
home slot stays its own (R140 keeps it until the end, for a saved workgroup). -/
def Workgroup.restarted (w : Workgroup) (st : Stage) (slots : List (Nat × Nat)) (ident now : Nat) (out : Nat → Bool) :
    Workgroup :=
  let old (t : Thread) : DWord := ((w.thread? t.warp t.lane).bind (·.restart)).getD st.entry
  { w with warps := startWarps st w.slot slots w.item, rings := startRings st w.member ident out, tvec := 0,
           threads := (startThreads st w.slot now).map fun t => { t with pc := old t, restart := some (old t) } }

/-- R355: from when on the work of a flushed workgroup is lost again: its restart, when every restart point is the entry, else
the latest IDEMB as before. -/
def Workgroup.lostFrom (w : Workgroup) (st : Stage) (now : Nat) : Nat :=
  if w.threads.all fun t => t.restart == some st.entry then now else w.idembAt

/-- A saved workgroup goes on on other picker slots. -/
def Workgroup.moved (w : Workgroup) (slots : List (Nat × Nat)) (now : Nat) : Workgroup :=
  let at_ (x : Warp) : Nat × Nat := slots.getD x.id (0, 0)
  { w with warps := w.warps.map fun x => { x with picker := (at_ x).1, slot := (at_ x).2 },
           barriers := w.barriers.map fun b => b.restart now,
           threads := w.threads.map fun t => { t with readyAt := now } }

/-- R296, R312, R235, R381: a hold applies again to a thread that resumes: an arrival whose phase has changed arrives, a
watch that is gone or triggered, a deadline that has passed and a number that has retired lift it. -/
def State.reapply (s : State) (r : TRef) : State :=
  match s.wg? r.wg, s.thread? r with
  | some w, some t => match t.hold with
    | some (.arrival b cnt wait _ site) =>
      if (w.bar b).arrivals.contains r then s
      else (s.updThread r fun t => t.lift s.time).arrive arriveFuel r b cnt wait site
    | some (.wwait _) =>
      if t.watch.any fun x => !x.triggered then s
      else s.updThread r fun t => { t.lift s.time with watch := none }
    | some (.waitv _ _ vt (some d) met _) =>
      if d ≤ s.ref.toNat then s.updThread r fun t => t.endWaitv vt (waitvResult true met) s.time else s
    | some (.tlwait tl n) =>
      if n ≤ (s.timeline w.core tl).retired then (s.updThread r fun t => t.lift s.time).orderActions w.core 1 2 else s
    | _ => s
  | _, _ => s

/-- WORKGROUP_RESUME (R313, R350, R352, R358, R361). -/
def execWorkgroupResume (wg core : Nat) (s : State) : Answer :=
  match s.wg? wg with
  | none => .next s
  | some w => match s.parts.find? fun p => p.number == w.part && p.cores.contains core with
    | none => .next s
    | some part => match s.pipeline? w.part w.handle, s.stage? w.part w.handle w.stage with
      | some p, some st =>
        match s.stageLacks core part.number p st with
        | some x => .next (s.askPool part.number x.1 x.2)
        | none =>
        if !s.placeable w || !w.mayResumeOn core || !s.outputsFree core part.number p st
            || !(s.mayPlace part core p w.stage st) then .next s
        else match s.room core st [] with
          | none => .next s
          | some (slots, base) =>
            let out (m : Nat) : Bool := m != w.member && s.memberOut w m
            let flushed := w.place == .flushed
            let s := s.resumeCaches core
            let rebase (s : State) (k : Nat) : State :=
              let x := (s.timeline core k).rebase (w.marks.getD k 0)
              (s.updCore core fun c => { c with tl := c.tl.setIfInBounds k x }).liftTlwait core k
            let s := if flushed then s else (List.range 3).foldl rebase s
            let s := s.withdraw part.number w.handle (· == w.stage)
            let now := s.time
            let ident := s.nextId
            let s := s.updWg wg fun w =>
              let w := if flushed then w.restarted st slots ident now out else w.moved slots now
              { w with core := core, place := .resident, winBase := base, started := now, watchFrom := now,
                       idembAt := if flushed then w.lostFrom st now else w.idembAt,
                       marks := if flushed then [0, 0, 0] else w.marks }
            let s := { s with nextId := s.nextId + 9 }
            let s := s.l1Trim core (s.l1Capacity core)
            .next (if flushed then s.checkEntry wg
              else ((w.threads.filter (·.executes)).map fun t => t.ref wg).foldl (fun s r => s.reapply r) s)
      | _, _ => .next s

/-! ## Ends (R353, R82) -/

/-- R82, R293, R353, R420: every thread has exited and everything that the workgroup issued is over. -/
def State.ended (s : State) (w : Workgroup) : Bool :=
  w.place == .resident && w.threads.all (·.status == .exited) && s.settled w
    && !(s.copies.any fun x => x.wg == w.id) && !(s.rows.any fun (x : RowOp) => x.wg == w.id)
    && !(s.tiers.any fun x => x.wg == w.id)

/-- The workgroup goes: its window, home slot and accumulators are free, its time counts for its stage (R355). -/
def State.removeWg (s : State) (w : Workgroup) : State :=
  let s := (s.memberGone w).updStage w.part w.handle w.stage fun st =>
    { st with slotsUsed := st.slotsUsed.filter (· != w.slot), times := (w.age s.time :: st.times).take 16 }
  { s with wgs := s.wgs.filter (·.id != w.id) }

/-- WORKGROUP_END (R353). -/
def execWorkgroupEnd (wg : Nat) (s : State) : Answer :=
  match s.wg? wg with
  | some w => if s.ended w then .next (s.removeWg w) else .next s
  | none => .next s

/-- R173, R178: a store that a core's threads see already is performed, in the order in which they saw them; where that must
wait, no thread sees it any more. -/
def State.landSeen (s : State) (o : PendingOp) : State := match o.kind with
  | .store a bs =>
    let core := s.coreOf ((o.who.map (·.wg)).headD 0)
    match s.performWrite core (s.partOf ((o.who.map (·.wg)).headD 0)) a bs with
    | .done s _ _ => s
    | .waits s => s.l1Drop core (s.homeAddr a.pa / 128)
    | .fault s _ => s.l1Drop core (s.homeAddr a.pa / 128)
  | _ => s

/-- R353: a kill ends a workgroup at once; its engine operations run on, its accesses that have not performed are
dropped (R420, assumption log 20). -/
def State.killWg (s : State) (id : Nat) : State :=
  match s.wg? id with
  | none => s
  | some w =>
    let seen := (s.ops.filter fun o => o.seen.isSome && o.who.any fun r => r.wg == id).mergeSort fun x y =>
      decide ((x.seen.map (·.1)).getD 0 ≤ (y.seen.map (·.1)).getD 0)
    let s := (seen.foldl (fun s o => s.landSeen o) (s.setVerdict id .flush)).loseWindow w
    let s := { s with ops := s.ops.filter fun o => !(o.who.any fun r => r.wg == id),
                      reports := s.reports.filter (·.src != id) }
    let s := s.updCore w.core fun c => { c with matrix := c.matrix.filter (·.wg != id) }
    (s.removeWg w).retireFences

/-- R353: whether a pipeline is complete. -/
def State.pipelineDone (s : State) (part : Partition) (p : Pipeline) : Bool :=
  let core := part.cores.headD 0
  !(s.wgs.any fun w => w.part == part.number && w.handle == p.handle)
    && !(part.cores.any fun c => (s.core c).pending.any fun e => e.handle == p.handle)
    && p.stages.all (fun st => st.inq != 7 || decide (st.grid ≤ st.nextWg))
    && (List.range 5).all fun j => match p.queue? j with
      | some q =>
        let h := (s.queueHead core part.number q).2
        h.rsv == h.con
      | none => true

/-- R336: a pool granule that the header of one of the pipeline's queues, or its done word, still lacks. -/
def State.completionLacks (s : State) (core part : Nat) (p : Pipeline) : Option (Nat × Bool) :=
  let head (j : Nat) : Option (Nat × Bool) := (p.queue? j).bind fun q => (s.headLacks core part q false).map fun pa => (pa, false)
  ((List.range 5).findSome? head).orElse fun _ => (s.lacks core part true p.done 8).map fun pa => (pa, true)

/-- PIPELINE_COMPLETE (R353): the handle goes to the done word as a release at .sys, and the pipeline leaves. DESIGN CHOICE
(assumption log 20): where the done word's page cannot be written any more, nothing is written. -/
def execPipelineComplete (part handle : Nat) (s : State) : Answer :=
  match s.part? part, s.pipeline? part handle with
  | some part, some p =>
    let core := part.cores.headD 0
    match s.completionLacks core part.number p with
    | some x => .next (s.askPool part.number x.1 x.2)
    | none =>
      if !s.pipelineDone part p then .next s
      else
        let s := part.cores.foldl (fun s c => s.l1WriteBackAll c) s
        let s := match s.probe (engineAgent 4 core p.done) core part.number { w := true } (fun _ => true) [(p.done, 8)] with
          | .ok => s.engineWrite core part.number p.done (leBytes 8 handle)
          | _ => s
        let s := s.withdraw part.number handle (fun _ => true)
        .next (s.updPart part.number fun x => { x with pipelines := x.pipelines.filter (·.handle != handle) })
  | _, _ => .next s

/-- BANDWIDTH_WINDOW_RELEASE (R403): accesses that waited for the limit go on; the wait changes no result, so nothing else
does (assumption log 21). -/
def execBandwidthWindowRelease (_part : Nat) (s : State) : Answer := .next s

end Sys2Proof.Machine
end

