-- ==== Sys2Proof/Machine/System.lean ====
section
/-!
DEFINITION. The words of major 0x2E, trap entry, the fault queue and its answers, the watchdog, invalidations of
translations, service cores (16_system R373 to R395; 01_machine R24). Reserved opcodes (02_encoding R26 to R28).
-/

namespace Sys2Proof.Machine

/-! ## Words that decode to nothing (R26 to R28) -/

/-- Every member of the group faults at its word. -/
def illegalWord (code : BitVec 8) (s : State) : Answer :=
  match s.current with
  | none => .refused .noIssueGroup
  | some g => .next ((s.raiseAll g { code := code } g.pc).advance g |>.settle g.id)

/-- A word that breaks the rules of its fields: a modifier word, or any other (R27, R28). -/
def illegalFields (w : Word) (s : State) : Answer :=
  match s.current with
  | none => .refused .noIssueGroup
  | some g =>
    if 0x3C ≤ majorOf w ∧ majorOf w ≤ 0x3E then s.modifierFault g codeIllegalEncoding
    else illegalWord codeIllegalEncoding s

/-- A reserved major or func: ILLEGAL_OPCODE (R26, R28). -/
def execReservedOpcode (_word : BitVec 32) (s : State) : Answer := illegalWord codeIllegalOpcode s

/-! ## TRAP, SYSC, FCALL, RETT (R376, R377, R382 to R384) -/

/-- TRAP (R377): a live thread's; the record, the resume point and the next address are the word after it. -/
def execTrap (o : TrapFArgs) (s : State) : Answer :=
  let acts (t : Thread) : Bool := t.guard o.guard false && t.status == .live
  issue {} [] noFill noHold (fun g s => (s.taintActing g acts).mapGroup g.id fun _ t =>
    if acts t then t.raise { code := codeTrapUser, reg := o.code.toNat } g.afterSite else t) s

/-- Calls of a core that have not completed (R382). -/
def State.openCalls (s : State) (core : Nat) : Nat :=
  (s.ops.filter fun o => match o.kind with
    | .sysc .. => s.opCore o == core
    | _ => false).length

/-- SYSC (R382, R83): a call of a live thread; a helper's destination receives 0. -/
def execSysc (o : SyscFArgs) (s : State) : Answer :=
  let acts (t : Thread) : Bool := t.guard o.guard false
  let vd := o.vd.toNat
  let srcs := (List.range 8).map (o.va.toNat + ·)
  let callers (g : Group) (s : State) : Nat :=
    ((s.active g).filter fun r => (s.thread? r).any fun t => acts t && t.status == .live).length
  issue {} ([vd, vd + 1] ++ srcs) (fillSources {} acts srcs)
    (fun g s => flagFull o.fs acts g s || (callers g s != 0 && decide (s.openCalls g.core + callers g s > 32)))
    (fun g s => (s.eachActing g acts fun word r t s =>
      if t.isHelper then s.updThread r fun t => t.setRegs vd [0, 0]
      else s.addOp g r (some o.fs) word
        (.sysc (t.reg o.va.toNat) ((List.range 7).map fun i => t.reg (o.va.toNat + 1 + i)) t.fcall) vd 2).taintActing g acts) s

/-- R384: a call that must complete before this one is delivered. -/
def State.callWaits (s : State) (o : PendingOp) (before : Nat) : Bool :=
  s.ops.any fun y => y.who == o.who && decide (y.id < before) && match y.kind with
    | .sysc .. => true
    | _ => false

/-- R382: what Zarkin OS receives of a call. -/
def State.callOf (s : State) (o : PendingOp) (num : Word) (args : List Word) : Option SystemCall :=
  o.who.head?.bind fun r => (s.wg? r.wg).map fun w =>
    { op := o.id, core := w.core, slot := w.slot, warp := r.warp, lane := r.lane, num := num, args := args }

/-- SYSC_COMPLETE (R382, R383): Zarkin OS performs a call, a release at .pkg, and answers, an acquire at .pkg. -/
def execSyscComplete (op : Nat) (result : BitVec 64) (keep : Nat) (s : State) : Answer :=
  match s.op? op with
  | some o => match o.kind with
    | .sysc num args before =>
      if s.callWaits o before || o.who.any (fun r => s.releaseWaits r 2 o.id) then .next s
      else
        let s := s.orderActions (s.opCore o) 3 2
        let s := s.updPart (s.opPart o) fun p => { p with calls := p.calls ++ (s.callOf o num args).toList }
        .next (s.finishOp o [lo32 result, hi32 result] 0 keep)
    | _ => .next s
  | none => .next s

/-- FCALL (R384). -/
def execFcall (o : G0Args) (s : State) : Answer :=
  threadWord {} o.guard [] [] noHold
    (fun _ r t s => if t.isHelper then s else s.updThread r fun t => { t with fcall := s.nextId }) s

/-- One thread's RETT (R376), with what it does to an interrupted matrix operation (R235) and to a kept hold. -/
def State.rettThread (s : State) (g : Group) (r : TRef) (t : Thread) : State :=
  match s.wg? r.wg with
  | none => s
  | some w =>
    let s' := s.rett g w t
    if (s'.thread? r).any fun t' => t'.inh || t'.isParked then s'
    else if t.tpc == t.site.resume then (s'.issuerResumed r false).reapply r
    else s'.issuerLeft r false

/-- RETT (R376): last in its clause. -/
def execRett (o : G0Args) (s : State) : Answer :=
  threadWord { last := true } o.guard [] [] noHold (fun g r t s => s.rettThread g r t) s

/-! ## Special registers (R385 to R387) -/

/-- R385: registers of 64 bits. -/
def wideSpecial (n : Nat) : Bool := n == 11 || n == 12 || (decide (17 ≤ n) && decide (n ≤ 27)) || [29, 30, 32, 33, 34, 36].contains n

/-- R385: registers at privilege. -/
def privSpecial (n : Nat) : Bool := n == 36 || n == 37

/-- R385: a special register as a thread reads it. -/
def State.special (s : State) (w : Workgroup) (t : Thread) (n : Nat) : DWord :=
  let r := t.ref w.id
  let x := w.warp? t.warp
  let c := s.core w.core
  let num (k : Nat) : DWord := BitVec.ofNat 64 k
  match n with
  | 0 => num t.lane
  | 1 => num (t.lane / 4)
  | 2 => num t.warp
  | 3 => zext 64 w.seq
  | 4 => num ((w.csz - 1) * 256 + w.member * 16 + w.stage)
  | 5 => num w.core
  | 6 => zext 64 s.pkg
  | 7 => num ((x.map (·.sgw)).getD 32)
  | 8 => zext 64 ((x.map (·.gang)).getD 0)
  | 9 => num ((x.map (·.role)).getD 0)
  | 10 => zext 64 w.pos
  | 11 => s.clock w.core
  | 12 => s.ref
  | 13 => num w.colto
  | 14 => num w.barto
  | 15 => zext 64 t.fpstat
  | 16 => zext 64 (s.mprogOf r)
  | 28 => zext 64 t.fcode
  | 29 => t.fpc
  | 30 => t.faddr
  | 31 => zext 64 t.finfo
  | 32 => w.tvec
  | 33 => t.tpc
  | 34 => t.tnext
  | 35 => num t.inh.toNat
  | 36 => ((s.part? w.part).map (·.ptroot)).getD 0
  | 37 => zext 64 (((s.part? w.part).map (·.wdlim)).getD 0)
  | n => if n < 20 then num (s.timeline w.core (n - 17)).retired else c.lathist.toList.getD (n - 20) 0

/-- S2V (R386): PRIVILEGE for a register at privilege. -/
def execS2v (o : S2vFArgs) (s : State) : Answer :=
  let n := o.num.toNat
  let vd := o.vd.toNat
  threadWord {} o.guard (if wideSpecial n then [vd, vd + 1] else [vd]) [] noHold
    (fun g r t s => match s.wg? r.wg with
      | none => s
      | some w =>
        if privSpecial n then s.raise r { code := codePrivilege } (g.site g.pc)
        else
          let x := s.special w t n
          s.updThread r fun t => if wideSpecial n then t.setReg64 vd x else t.setReg vd (lo32 x)) s

/-- R387: the registers that V2S writes: %fpstat, %tvec, %tpc. -/
def State.setSpecial (s : State) (r : TRef) (n : Nat) (x : DWord) : State :=
  match n with
  | 15 => s.updThread r fun t => { t with fpstat := x.setWidth 5 }
  | 32 => s.updWg r.wg fun w => { w with tvec := x }
  | 33 => s.updThread r fun t => { t with tpc := x }
  | _ => s

/-- V2S (R387): ascending lane order; writes to read-only registers are ignored. -/
def execV2s (o : V2sFArgs) (s : State) : Answer :=
  let n := o.num.toNat
  let va := o.va.toNat
  let regs := if wideSpecial n then [va, va + 1] else [va]
  threadWord {} o.guard regs (if [15, 32, 33].contains n then regs else []) noHold
    (fun g r t s =>
      if privSpecial n then s.raise r { code := codePrivilege } (g.site g.pc)
      else s.setSpecial r n (if wideSpecial n then t.reg64 va else zext 64 (t.reg va))) s

/-- TLBI (R394): PRIVILEGE with the pair's value as the address. -/
def execTlbi (o : TlbiFArgs) (s : State) : Answer :=
  let va := o.va.toNat
  threadWord {} o.guard [va, va + 1] [va, va + 1] noHold
    (fun g r t s => s.raise r { code := codePrivilege, addr := t.reg64 va } (g.site g.pc)) s

/-! ## Trap entry (R370, R372, R375) -/

/-- R381, R370: the record of a watchdog's expiry, once nothing of any thread of the workgroup is outstanding. -/
def State.watchRecord (s : State) (w : Workgroup) : State :=
  match w.watchReport with
  | some n =>
    let who := w.threads.filter (·.status != .exited)
    if who.any (s.outstanding w) || !s.recordRoom w.core || !s.recordTurn w.core n then s
    else
      let r := s.mkRecord w 6 0 0 { code := codeWatchdog } 0 0 0 false (who.map (·.ref w.id))
      (s.postRecord { r with ref := n / 20, raised := n }).updWg w.id fun w => { w with watchReport := none }
  | none => s

/-- TRAP_ENTRY (R375): a parked thread whose flags stand at 0 enters its handler, or its record is queued; for a system
fault of a B fetch the gang's one record is (R235), and for a thread that the watchdog stopped its workgroup's (R381). -/
def execTrapEntry (wg warp lane : Nat) (s : State) : Answer :=
  match s.wg? wg with
  | none => .next s
  | some w => match w.thread? warp lane with
    | none => .next s
    | some t =>
      if w.place != .resident || !t.isParked then .next s
      else if t.watchdog.isSome then .next (s.watchRecord w)
      else if s.outstanding w t then .next s
      else match t.entry with
        | .pending => .next (s.trapEntry w t)
        | .failed => .next (s.trapEntry w t)
        | .gang => .next ((w.gangs.map (·.key)).foldl (fun s k => s.postGang wg k) s)
        | _ => .next s

/-! ## The fault queue (R378, R379) -/

/-- R378: the eight words of a record. -/
def FaultRecord.words (r : FaultRecord) : List DWord :=
  [BitVec.ofNat 64 (r.code.toNat * 2 ^ 56 + r.kind * 2 ^ 52 + r.hfail.toNat * 2 ^ 51 + r.core * 2 ^ 33 + r.slot * 2 ^ 20
      + r.warp * 2 ^ 15 + r.lane * 2 ^ 10),
    r.pc, r.addr, r.info ++ (0 : BitVec 16) ++ r.gen, r.wmask ++ (0 : BitVec 32), BitVec.ofNat 64 r.handle,
    BitVec.ofNat 64 r.ref, BitVec.ofNat 64 r.seq]

/-- Bytes that the device writes at a physical address, within one line: at L2, seen by every core. -/
def State.deviceWrite (s : State) (pa : Nat) (bs : List Byte) : State :=
  let s := s.l2Patch pa bs
  (s.invalidateOthers s.cores.length (pa / 128)).triggerWatches (pa / 128) true

/-- FAULT_RECORD_QUEUED (R378, R379): the oldest record of a core goes into its partition's queue, if there is room; one
of a partition that has gone is dropped. -/
def execFaultRecordQueued (core : Nat) (s : State) : Answer :=
  let s := s.formRecord core
  match (s.core core).records with
  | [] => .next s
  | r :: rest => match s.part? r.part with
    | none => .next (s.updCore core fun c => { c with records := rest })
    | some p =>
      if p.fqProd - p.fqCons ≥ p.fqDepth then .next s
      else
        let r := { r with seq := p.fqSeq + 1 }
        let s := s.updCore core fun c => { c with records := rest }
        let s := s.deviceWrite (p.fqBase + p.fqProd % p.fqDepth * 64) (r.words.flatMap fun x => leBytes 8 x.toNat)
        .next (s.updPart p.number fun p =>
          { p with fqProd := p.fqProd + 1, fqSeq := p.fqSeq + 1, records := p.records ++ [r] })

/-! ## Answers (R380, R235, R249, R284, R322, R420) -/

/-- The record with a number that waits for an answer. -/
def State.record? (s : State) (part seq : Nat) : Option FaultRecord :=
  (s.part? part).bind fun p => p.records.find? (·.seq == seq)

def State.dropRecord (s : State) (part seq : Nat) : State :=
  s.updPart part fun p => { p with records := p.records.filter (·.seq != seq) }

/-- A parked thread goes on at a place, with the status it had and the sub-group width of the clause there; at a clause
start it reads the warp's (R70, R127, R136). -/
def Thread.goOn (t : Thread) (w : Workgroup) (pc : DWord) (mid : Option ClauseCtx) (now : Nat) : Thread :=
  { t.unpark with pc := pc, mid := mid, readyAt := now, collSince := none,
                  sgw := if mid.isSome then t.siteSgw else w.widthOf t }

/-- R381: a thread that the watchdog stopped is as it was. -/
def Thread.unwatch (t : Thread) (now : Nat) : Thread :=
  match t.watchdog with
  | some st => { t with status := st, watchdog := none, readyAt := now, collSince := none }
  | none => t

/-- A hold applies again to a thread that executes (R312); one that the watchdog stopped comes to it with its workgroup. -/
def State.reapplyTo (s : State) (r : TRef) : State := if (s.thread? r).any (·.executes) then s.reapply r else s

/-- R381: a resume action restarts the workgroup and its count. -/
def State.resumeWorkgroup (s : State) (wg : Nat) (who : List TRef) : State :=
  let s := s.updWg wg fun w => { w with watchFrom := s.time, threads := w.threads.map fun t => t.unwatch s.time }
  who.foldl (fun s r => s.reapplyTo r) s

/-- R235: a resume action for a gang whose issuing threads have all exited. -/
def State.answerGangs (s : State) (wg : Nat) : State :=
  s.updWg wg fun w => { w with gangs := w.gangs.map fun x => { x with answered := true } }

/-- R380, R62, R235, R381: a parked thread of a record resumes, or skips. -/
def State.resumeThread (s : State) (skip : Bool) (r : TRef) : State :=
  match s.wg? r.wg, s.thread? r with
  | some w, some t =>
    let go (pc : DWord) (mid : Option ClauseCtx) : State :=
      s.updThread r (Thread.underWatch fun t => t.goOn w pc mid s.time)
    if !t.isParked || t.entry != .recorded then s
    else if skip then ((go t.site.next t.site.nextIn).issuerLeft r t.inh).reapplyTo r
    else ((go t.site.resume t.site.resumeIn).issuerResumed r t.inh).reapplyTo r
  | _, _ => s

/-- A resume or skip action on a record. -/
def resumeOrSkip (skip : Bool) (part seq : Nat) (s : State) : Answer :=
  match s.record? part seq with
  | none => .next s
  | some r =>
    let s' := s.dropRecord part seq
    match r.kind with
    | 0 => .next (r.who.foldl (fun s x => s.resumeThread skip x) s')
    | 1 =>
      let s' := if skip then s' else s'.answerGangs r.wg
      let s' := r.who.foldl (fun s x => s.resumeThread skip x) s'
      if skip && r.who == [] then
        .next (((s'.wg? r.wg).map (·.gangs)).getD [] |>.foldl (fun s x =>
          if x.answered then s else s.abandonGang r.wg x.key) s')
      else .next s'
    | 5 => .next s'
    | 6 => .next (s'.resumeWorkgroup r.wg r.who)
    | _ => .next s

/-- RESUME_ACTION (R380). -/
def execResumeAction (part seq : Nat) (s : State) : Answer := resumeOrSkip false part seq s

/-- SKIP_ACTION (R380). -/
def execSkipAction (part seq : Nat) (s : State) : Answer := resumeOrSkip true part seq s

/-- R353, R380: the workgroup of a record ends, and its records need no answer any more. -/
def State.killRecord (s : State) (part wg : Nat) : State :=
  (s.killWg wg).updPart part fun p =>
    { p with records := p.records.filter fun r => r.wg != wg || [2, 3, 4].contains r.kind }

/-- KILL_ACTION (R380, R353, R420). -/
def execKillAction (part seq : Nat) (s : State) : Answer :=
  match s.record? part seq with
  | some r => if [0, 1, 5, 6].contains r.kind then .next (s.killRecord part r.wg) else .next s
  | none => .next s

/-- A thread that the watchdog stopped takes its stop as a fault (R380, R381); one that was parked before is parked for its
own fault again. -/
def Thread.watchFault (t : Thread) : Thread :=
  match t.watchdog with
  | some (.parked h) => { t with status := .parked h, watchdog := none }
  | some _ => { t with watchdog := none, entry := .recorded }
  | none => t

/-- R380: delivery to one thread. -/
def State.deliverThread (s : State) (w : Workgroup) (r : TRef) : State :=
  match s.thread? r with
  | some t =>
    if !t.isParked || t.entry != .recorded then s else s.tryHandler w t
  | none => s

/-- DELIVER_ACTION (R380): the handler, or a kill when there is none or a thread was inside it. -/
def execDeliverAction (part seq : Nat) (s : State) : Answer :=
  match s.record? part seq with
  | none => .next s
  | some r =>
    if !([0, 1, 6].contains r.kind) then .next s
    else match s.wg? r.wg with
      | none => .next (s.dropRecord part seq)
      | some w =>
        if w.tvec == 0 || r.who.any fun x => (s.thread? x).any (·.inh) then .next (s.killRecord part r.wg)
        else
          let s := s.dropRecord part seq
          let s := if r.kind = 6 then
              s.updWg r.wg fun w => { w with watchFrom := s.time, threads := w.threads.map (·.watchFault) }
            else s
          .next (r.who.foldl (fun s x => s.deliverThread w x) s)

/-- ENGINE_FAULT_SERVICE (R249, R284, R322): Zarkin OS has serviced a held operation, or ends it with the fault. -/
def execEngineFaultService (part seq : Nat) (stop : Bool) (s : State) : Answer :=
  match s.record? part seq with
  | none => .next s
  | some r =>
    let num := r.pc.toNat
    let s' := s.dropRecord part seq
    match r.kind with
    | 2 => match s'.copy? r.core num with
      | some op =>
        if op.stage != .faulted then .next s'
        else if stop then .next (s'.stopCopy { op with fault := r.code.toNat })
        else .next (s'.setCopy { op with stage := .running, fault := 0 })
      | none => .next s'
    | 3 => match s'.rowOp? r.core num with
      | some x =>
        if x.stage != .faulted then .next s'
        else if stop then .next (s'.failRow x r.code)
        else .next (s'.setRow { x with stage := if x.path = 3 then .queued else .running })
      | none => .next s'
    | 4 => match s'.tierOp? r.core num with
      | some x =>
        if x.stage != .faulted then .next s'
        else if stop then .next ((s'.setTier { x with stage := .running, fault := r.code.toNat, cursor := x.addr + x.len }).cancelMoves x)
        else .next (s'.setTier { x with stage := .running })
      | none => .next s'
    | _ => .next s

/-! ## The watchdog (R381) -/

/-- R381, R368: a thread parks with WATCHDOG where it stands, with its hold kept; one that is parked keeps its record. -/
def Thread.watchStop (t : Thread) : Thread :=
  let site : Site := { pc := t.pc, resume := t.pc, resumeIn := t.mid, next := t.pc, nextIn := t.mid }
  let stop (t : Thread) : Thread := { t.uncountLate with watchdog := some t.status, group := none, collSince := none }
  match t.status with
  | .exited => t
  | .parked _ => stop t
  | _ => { stop t with
      status := .parked t.isHelper, fcode := codeWatchdog, fpc := t.pc, faddr := 0, finfo := finfoOf t.depth 0 0, fgen := 0,
      raised := none, forder := none, tnext := t.pc, site := site, siteSgw := t.sgw }

/-- WATCHDOG_EXPIRY (R381): the workgroup's time since its start, restart or resumption has passed the limit; every thread
stops at once, and one record is to be queued (R370, R379). -/
def execWatchdogExpiry (wg : Nat) (s : State) : Answer :=
  match s.wg? wg with
  | none => .next s
  | some w =>
    let limit := ((s.part? w.part).map (·.wdlim)).getD 0
    if w.place != .resident || limit == 0 || decide (s.time ≤ w.watchFrom + clkOfTicks limit.toNat)
        || w.threads.any (·.watchdog.isSome) || w.threads.all (·.status == .exited) then .next s
    else
      .next ((s.leaveGroups wg).updWg wg fun w =>
        { w with threads := w.threads.map (·.watchStop), watchReport := some s.time })

/-! ## Invalidation of translations (R393, R305) -/

/-- The range of a page: of the leaf that maps it or is held for it, else 4 KiB. -/
def State.pageRange (s : State) (part va : Nat) : Nat × Nat :=
  match s.cores.findSome? fun c => c.tlb.find? fun e => e.part == part && e.leaf.covers va with
  | some e => (e.leaf.vbase, e.leaf.size)
  | none => match s.walk (s.rootOf part) va with
    | .ok l => (l.vbase, l.size)
    | .error _ => (va / 4096 * 4096, 4096)

/-- TLB_INVALIDATION (R393): no TLB holds a translation of the range any more, and watches in it trigger. -/
def execTlbInvalidation (part : Nat) (scope : InvScope) (s : State) : Answer :=
  let range : Nat × Nat := match scope with
    | .page va => s.pageRange part va
    | .range va len => (va, len)
    | .all => (0, 2 ^ 57)
  let s := s.dropTranslations part range.1 range.2
  .next (s.triggerWhere fun g w => g.part == part && overlaps (w.va / 128 * 128) 128 range.1 range.2)

/-! ## Service cores (R24) -/

/-- R24: the service core that performs an access, and its scope, of which .pkg is the narrowest (R170). -/
def serviceCoreOf : ServiceAccess → Nat × Nat
  | .load core _ _ _ k => (core, k)
  | .store core _ _ _ k => (core, k)
  | .fence core _ k _ => (core, k)

/-- What can wait of an access: a store, and a fence that releases. -/
def serviceEntry (id part : Nat) : ServiceAccess → Option ServiceStore
  | .load .. => none
  | .store core va bytes order _ =>
    some { id := id, core := core, part := part, va := va, bytes := bytes.map fun b => BitVec.ofNat 8 b,
           release := isRelease order, fence := false, sc := false }
  | .fence core order _ sc =>
    if isRelease order then
      some { id := id, core := core, part := part, va := 0, bytes := [], release := true, fence := true, sc := sc }
    else none

/-- R157, R179: a load of a service core comes after a waiting store to its bytes and after a waiting sc fence. -/
def State.serviceLoadWaits (s : State) (core part va size : Nat) : Bool :=
  s.serviceStores.any fun y => y.core == core && (y.sc || (y.part == part && overlaps va size y.va y.bytes.length))

/-- A load of a service core, once nothing holds it back; one that faults answers no bytes (log 23). -/
def State.serviceLoad (s : State) (core part va size : Nat) : State :=
  if s.serviceLoadWaits core part va size then s
  else match s.engineRead (engineAgent 6 core va) serviceCore part va size (fun _ => true) with
    | .done s bs _ => { s with serviceReads := (core, bs) :: s.serviceReads }
    | .waits s => s
    | .fault s _ => { s with serviceReads := (core, []) :: s.serviceReads }

/-- A new store or fence of a service core performs, or waits behind those that it follows. -/
def State.serviceStart (s : State) (x : ServiceStore) : State :=
  let waiting : State := { s with serviceStores := s.serviceStores ++ [x], nextId := s.nextId + 1 }
  if s.serviceStores.any x.follows then waiting
  else waiting.serviceStore x fun _ => s

/-- SERVICE_CORE_ACCESS (R24): a load, store or fence of one of the sixteen service cores, under a partition's tables, through
L2. Its accesses perform one after another in program order, which the orders of R174 at .pkg and .sys allow; only a store
that waits for pool ownership comes late (R420), and what comes after it. -/
def execServiceCoreAccess (part : Nat) (acc : ServiceAccess) (s : State) : Answer :=
  if (serviceCoreOf acc).1 ≥ 16 || (serviceCoreOf acc).2 < 2 then .next s
  else match acc, serviceEntry s.nextId part acc with
    | .load core va size .., _ => .next (s.serviceLoad core part va size)
    | _, some x => .next (s.serviceStart x)
    | _, none => .next s

end Sys2Proof.Machine
end

