-- ==== Sys2Proof/Machine/Form.lean ====
section
/-!
DEFINITION. Ready threads, their rank, the formation of issue groups, and the limits of collective waits (03_control R64
to R72; 02_encoding R30).
-/

namespace Sys2Proof.Machine

/-! ## Readiness (R64, R70) -/

/-- The header at a thread's clause start, if the word there is one and can be fetched. -/
def State.headerAt (s : State) (w : Workgroup) (t : Thread) : Option Word :=
  match s.fetchWord w.core w.part t.pc with
  | .ok x => if x.extractLsb' 26 6 = 0x3F then some x else none
  | .error _ => none

/-- R30: every flag of the wait mask stands at 0. -/
def maskClear (h : Word) (t : Thread) : Bool := (List.range 12).all fun i => !h.getLsbD (10 + i) || t.flag i == 0

/-- How a thread stands to the formation of groups. -/
inductive Standing where
  /-- not ready -/
  | blocked
  /-- ready at a clause start or a resume point -/
  | ready
  /-- waiting at a collective clause start, its wait mask satisfied (R64) -/
  | collective
  deriving DecidableEq, Repr

/-- R64. A word that cannot be fetched, or is no header, faults in the group that reaches it. -/
def State.standing (s : State) (w : Workgroup) (t : Thread) : Standing :=
  if !w.runs || !t.executes || t.group.isSome || t.hold.isSome then .blocked
  else if t.mid.isSome then .ready
  else match s.headerAt w t with
    | none => .ready
    | some h => if !maskClear h t then .blocked else if h.getLsbD 0 then .collective else .ready

/-- R70: every other thread of the sub-group has exited or waits at the same address. -/
def State.gathered (s : State) (w : Workgroup) (t : Thread) : Bool :=
  (w.members t).all fun m =>
    (m.2.lane == t.lane) || (m.2.pc == t.pc && m.2.mid.isNone && s.standing w m.2 == .collective)

def State.ready (s : State) (w : Workgroup) (t : Thread) : Bool :=
  match s.standing w t with
  | .blocked => false
  | .ready => true
  | .collective => s.gathered w t

/-- R69, R71: a thread's age is the moment at which it is first seen ready again; one that waits for its sub-group has waited
since the moment noted. -/
def State.noteThread (s : State) (w : Workgroup) (t : Thread) : Thread :=
  let becomes (t : Thread) : Thread := if t.unready then { t with readyAt := s.time, unready := false } else t
  if t.group.isSome then t
  else match s.standing w t with
    | .blocked => { t with unready := true, collSince := none }
    | .ready => becomes t
    | .collective =>
      if s.gathered w t then becomes t else { t with unready := true, collSince := some (t.collSince.getD s.time) }

/-- R378: the moment of a fault that has been raised in the step before. -/
def Thread.noteFault (t : Thread) (now : Nat) : Thread :=
  if t.isParked && t.raised.isNone then { t with raised := some now } else t

/-- What the pickers note at each step. -/
def State.note (s : State) : State :=
  { s with wgs := s.wgs.map fun w => { w with threads := w.threads.map fun t => (s.noteThread w t).noteFault s.time } }

/-! ## Rank (R69) -/

/-- A ready thread of a picker, with its workgroup and its warp slot. -/
structure Contender where
  wg : Workgroup
  t : Thread
  slot : Nat

/-- R69: a yield mark that fewer than 16 formations have passed over. -/
def Thread.yieldMarked (t : Thread) : Bool := t.yieldMark.any fun n => decide (n < 16)

/-- R69: whether one candidate ranks above another. -/
def Contender.above (a b : Contender) : Bool :=
  let ya := a.t.yieldMarked
  let yb := b.t.yieldMarked
  if ya != yb then yb
  else if a.t.readyAt ≠ b.t.readyAt then decide (a.t.readyAt < b.t.readyAt)
  else if a.slot ≠ b.slot then decide (a.slot < b.slot)
  else decide (a.t.lane < b.t.lane)

/-- The ready threads of a picker. -/
def State.candidates (s : State) (core picker : Nat) : List Contender :=
  (s.residents core []).flatMap fun w => w.threads.filterMap fun t =>
    match w.warp? t.warp with
    | some x => if x.picker == picker && s.ready w t then some { wg := w, t := t, slot := x.slot } else none
    | none => none

/-- The highest-ranked of a list. -/
def highest : List Contender → Option Contender
  | [] => none
  | c :: cs => match highest cs with
    | none => some c
    | some d => some (if d.above c then d else c)

/-! ## Formation (R65, R67) -/

/-- R65: whether a ready thread stands where the leader stands, in its home warp for a collective clause. -/
def Contender.joins (lead c : Contender) (collective : Bool) : Bool :=
  c.t.pc == lead.t.pc && c.t.mid == lead.t.mid
    && (!collective || (c.wg.id == lead.wg.id && c.t.warp == lead.t.warp))

/-- R65: the members of the group that a leader leads, in lane order. -/
def membersOf (lead : Contender) (collective : Bool) (cs : List Contender) : List TRef :=
  (List.range 32).filterMap fun lane =>
    if lane = lead.t.lane then some (lead.t.ref lead.wg.id)
    else (highest (cs.filter fun c => c.t.lane == lane && lead.joins c collective)).map fun c => c.t.ref c.wg.id

/-- The clause of a group that stands at a header: nothing of it is known yet. -/
def unread (pc : DWord) : ClauseCtx := { hdr := pc, left := 0, fa := 15, fb := 15, y := false, c := false }

/-- The group around a leader. -/
def State.formGroup (s : State) (core picker : Nat) (cs : List Contender) (lead : Contender) : State :=
  let collective := match lead.t.mid with
    | some m => m.c
    | none => s.standing lead.wg lead.t == .collective
  let members := membersOf lead collective cs
  let g : Group := { id := s.nextId, core := core, picker := picker, pc := lead.t.pc, atHeader := lead.t.mid.isNone,
                     ctx := lead.t.mid.getD (unread lead.t.pc), members := members, mods := Mods.none, held := false,
                     collHold := none, sent := false }
  let passed := (cs.map fun c => c.t.ref c.wg.id).filter fun r => !members.contains r
  let s := s.updThreads members fun t => { t with group := some g.id, mid := none, yieldMark := none, collSince := none }
  let s := s.updThreads passed fun t => { t with yieldMark := t.yieldMark.map (· + 1) }
  { s with groups := s.groups ++ [g], nextId := s.nextId + 1 }

/-- ISSUE_GROUP_FORMATION (R65, R67): late faults of threads at clause starts come first (R141, R235); a picker holds at
most four groups. -/
def execIssueGroupFormation (core picker : Nat) (s : State) : Answer :=
  let s := s.applyLate
  if (s.groups.filter fun g => g.core == core && g.picker == picker).length ≥ 4 then .next s
  else
    let cs := s.candidates core picker
    match highest cs with
    | none => .next s
    | some lead => .next (s.formGroup core picker cs lead)

/-- YIELD_MARK_EXPIRY (R69): 16 formations have passed over the thread, which ranks as unmarked from the sixteenth on. -/
def execYieldMarkExpiry (wg warp lane : Nat) (s : State) : Answer :=
  .next (s.updThread { wg := wg, warp := warp, lane := lane } fun t =>
    if t.yieldMark.any fun n => decide (n ≥ 16) then { t with yieldMark := none } else t)

/-! ## Limits of collective waits (R71, R72) -/

/-- The members of a thread's sub-group that wait with it. -/
def State.waiters (s : State) (w : Workgroup) (t : Thread) : List Thread :=
  ((w.members t).map (·.2)).filter fun m =>
    m.pc == t.pc && m.mid.isNone && s.standing w m == .collective && m.collSince.isSome

/-- COLLECTIVE_STALL_TIMEOUT (R71): counted from the first waiting member of the sub-group. -/
def execCollectiveStallTimeout (wg warp lane : Nat) (s : State) : Answer :=
  match s.wg? wg with
  | none => .next s
  | some w => match w.thread? warp lane with
    | none => .next s
    | some t =>
      let ms := s.waiters w t
      let late := ms.any fun m => m.collSince.any fun n => decide (n + clkOfTicks w.colto < s.time)
      if w.colto == 0 || s.standing w t != .collective || s.gathered w t || !late then .next s
      else .next (s.updThreads (ms.map (·.ref wg)) fun t => t.raise { code := codeCollectiveStall } (targetSite t.pc))

/-- R72: the place of members held at a cross-lane word: its first modifier word, or the word. -/
def Group.holdSite (g : Group) : Site :=
  let site := g.site g.pc
  { site with pc := site.resume }

/-- COLLECTIVE_HOLD_TIMEOUT (R72). -/
def execCollectiveHoldTimeout (group : Nat) (s : State) : Answer :=
  match s.groups.find? (·.id == group) with
  | none => .next s
  | some g =>
    let colto := (((s.active g).head?.bind fun r => s.wg? r.wg).map (·.colto)).getD 0
    match g.collHold with
    | some since =>
      if colto = 0 || decide (s.time < since + clkOfTicks colto) then .next s
      else .next ((s.mapGroup group fun _ t => t.raise { code := codeCollectiveStall } g.holdSite).settle group)
    | none => .next s

end Sys2Proof.Machine
end

