-- ==== Sys2Proof/Machine/Host.lean ====
section
/-!
DEFINITION. The hosts: boot and SPDM, the virtio functions, the management semaphore, partitions, the capability table,
lifetime counters, power (17_host_management R397 to R410; 16_system R334, R338, R378, R381 for the settings). What the
spec leaves to Zarkin OS and to the standards it names: assumption log 22.
-/

namespace Sys2Proof.Machine

/-- Changes what the hosts see. -/
def State.updHost (s : State) (f : HostSide → HostSide) : State := { s with host := f s.host }

/-! ## Boot, reset, loss of power (R12, R406, R407, R409) -/

/-- R12, R400: the package as a reset leaves it; flash holds the firmware and the written counters, and the counters of
the service die stay. -/
def State.restart (s : State) : State :=
  { State.reset with agenda := s.agenda, picks := s.picks, together := s.together, fresh := s.fresh, lifetime := s.lifetime, flash := s.flash,
                     host := { HostSide.reset with firmware := s.host.firmware, flashDue := s.host.flashDue - s.time } }

/-- R406: the boot ROM measures, verifies and loads the firmware and Zarkin OS, each as the flash holds it. Whether a signature
verifies is a choice of `picks`: with an odd one an image is refused, Zarkin OS is not loaded, and boot does not complete. -/
def State.boot (s : State) : State :=
  let refused := s.picks.headD 0 % 2 == 1
  { s with picks := s.picks.tail }.updHost fun h =>
    { h with measured := (if refused then [1, 2, 4] else [1, 2, 3, 4]).map fun i => (i, Config.measurement i h.firmware),
             booted := !refused }

/-- PACKAGE_RESET (R406). -/
def execPackageReset (s : State) : Answer := .next s.restart.boot

/-- THERMAL_RESET (R409): at 115 °C on a die the package resets. -/
def execThermalReset (_die : Nat) (s : State) : Answer := .next s.restart.boot

/-- R407: what flash holds of the counters now: the last write, or, 2^30 ticks after it, the one that has been due. -/
def State.inFlash (s : State) : Lifetime := if s.time < s.host.flashDue then s.flash else s.lifetime

/-- POWER_LOSS (R407): what flash does not hold is lost. -/
def execPowerLoss (s : State) : Answer :=
  .next { s.restart with lifetime := s.inFlash, flash := s.inFlash,
                         host := { HostSide.reset with firmware := s.host.firmware } }

/-! ## SPDM (R406) -/

/-- A response to a request. -/
def State.respond (s : State) (port code : Nat) (payload : List Nat) : State :=
  s.updHost fun h => { h with responses := (port, code, payload) :: h.responses }

/-- How far the connection of a port has come. -/
def State.spdmAt (s : State) (port : Nat) : Nat := ((s.host.spdm.find? (·.1 == port)).map (·.2)).getD 0

def State.setSpdm (s : State) (port n : Nat) : State :=
  s.updHost fun h => { h with spdm := (port, n) :: h.spdm.filter (·.1 != port) }

/-- A request that the connection must have come to; before that the response is an error (UnexpectedRequest). -/
def State.spdmFrom (s : State) (port need : Nat) (f : State → State) : Answer :=
  if port > 1 then .next s
  else if s.spdmAt port < need then .next (s.respond port 0x7F [4])
  else .next (f s)

/-- n free numbers in a response. -/
def State.respondFree (s : State) (port code n : Nat) (head : List Nat) : State :=
  { s.respond port code (head ++ (List.range n).map fun i => Config.freeNat (s.fresh + i)) with fresh := s.fresh + n }

/-- GET_VERSION (R406): SPDM 1.3; it starts the connection anew. -/
def execGetVersion (port : Nat) (s : State) : Answer :=
  s.spdmFrom port 0 fun s => (s.respond port 0x04 [0x13]).setSpdm port 1

/-- GET_CAPABILITIES (R406): certificates, challenge, signed measurements. -/
def execGetCapabilities (port : Nat) (s : State) : Answer :=
  s.spdmFrom port 1 fun s => (s.respond port 0x61 [0x16]).setSpdm port 2

/-- NEGOTIATE_ALGORITHMS (R406): ECDSA P-384 (bit 7) and SHA-384 (bit 1) and no other. -/
def execNegotiateAlgorithms (port asym hash : Nat) (s : State) : Answer :=
  s.spdmFrom port 2 fun s =>
    if asym.testBit 7 && hash.testBit 1 then (s.respond port 0x63 [0x80, 0x02]).setSpdm port 3
    else s.respond port 0x63 [0, 0]

/-- GET_DIGESTS (R406). -/
def execGetDigests (port : Nat) (s : State) : Answer := s.spdmFrom port 3 fun s => s.respondFree port 0x01 1 []

/-- GET_CERTIFICATE (R406). -/
def execGetCertificate (port slot : Nat) (s : State) : Answer :=
  s.spdmFrom port 3 fun s => s.respondFree port 0x02 1 [slot]

/-- CHALLENGE (R406): a signature over the nonce. -/
def execChallenge (port nonce : Nat) (s : State) : Answer :=
  s.spdmFrom port 3 fun s => s.respondFree port 0x03 1 [nonce]

/-- GET_MEASUREMENTS (R406): index 0 asks for their number, 1 to 4 for one that has been taken, 255 for all. -/
def execGetMeasurements (port index : Nat) (s : State) : Answer :=
  s.spdmFrom port 3 fun s =>
    if index = 0 then s.respond port 0x60 [s.host.measured.length]
    else if index = 255 then s.respond port 0x60 (s.host.measured.map (·.2))
    else match s.host.measured.find? (·.1 == index) with
      | some m => s.respond port 0x60 [index, m.2]
      | none => s.respond port 0x7F [1]

/-! ## The virtio functions (R397, R398) -/

/-- R397: what a function is. -/
inductive VirtioDevice where
  | vsock
  | net
  deriving DecidableEq, Repr

/-- R397, R398: what a virtio function shows: only the modern PCI interface, split and packed rings, interrupts by MSI-X. -/
structure FunctionView where
  device : VirtioDevice
  pciId : Nat
  totalVFs : Nat
  legacy : Bool
  features : List Nat
  maxQueue : Nat
  split : Bool
  packed : Bool
  msixOnly : Bool
  cid : Option Nat
  mtu : Option Nat
  queuePairs : Option Nat
  deriving DecidableEq, Repr

/-- R397. -/
def totalVFs : Nat := 128

/-- R397: VF 0 stands for the physical function; VF n + 1 serves partition n once it exists (R405). -/
def State.functionExists (s : State) (port fn vf : Nat) : Bool :=
  decide (port < 2) && decide (fn < 2) && (vf == 0 || (decide (vf ≤ totalVFs) && (s.part? (vf - 1)).isSome))

/-- R398: the feature bits that functions 0 and 1 offer; their numbers are those of virtio 1.3 (PRESUMED, log 22):
VERSION_1 32, ACCESS_PLATFORM 33, RING_PACKED 34; vsock STREAM 0, SEQPACKET 1; net CSUM 0, GUEST_CSUM 1, MTU 3, MRG_RXBUF 15,
MQ 22. -/
def offeredFeatures (fn : Nat) : List Nat := (if fn = 0 then [0, 1] else [0, 1, 3, 15, 22]) ++ [32, 33, 34]

/-- R398: the guest CID of a vsock function: 3 for the physical one, 0x1000 + n for partition n's. -/
def guestCid (vf : Nat) : Nat := if vf = 0 then 3 else 0x1000 + (vf - 1)

/-- R398: where Zarkin OS listens for control, and for the capability table. -/
def controlPort : Nat := 0x5A00
def tablePort : Nat := 0x5A01

/-- R397, R398: a function as its driver finds it. -/
def State.functionView (s : State) (port fn vf : Nat) : Option FunctionView :=
  if !s.functionExists port fn vf then none
  else some {
    device := if fn = 0 then .vsock else .net, pciId := if fn = 0 then 0x1053 else 0x1041, totalVFs := totalVFs,
    legacy := false, features := offeredFeatures fn, maxQueue := 1024, split := true, packed := true, msixOnly := true,
    cid := if fn = 0 then some (guestCid vf) else none, mtu := if fn = 0 then none else some 65520,
    queuePairs := if fn = 0 then none else some 16 }

/-- R397, R398: the features that a driver asks for are accepted: all offered, VERSION_1 among them (no legacy interface). -/
def acceptsFeatures (fn mask : Nat) : Bool :=
  mask.testBit 32 && (List.range 64).all (fun i => !mask.testBit i || (offeredFeatures fn).contains i) && decide (mask < 2 ^ 64)

/-- R398: the device status that a function reads: 0 until boot completes. -/
def State.deviceStatus (s : State) (port fn vf : Nat) : Nat :=
  if !s.host.booted then 0
  else ((s.host.devStatus.find? fun x => x.1 == port && x.2.1 == fn && x.2.2.1 == vf).map (·.2.2.2)).getD 0

/-- R398: the feature mask that a function and its driver have agreed on; 0 before. -/
def State.agreedFeatures (s : State) (port fn vf : Nat) : Nat :=
  ((s.host.features.find? fun x => x.1 == port && x.2.1 == fn && x.2.2.1 == vf).map (·.2.2.2)).getD 0

/-- R398: what a status write agrees on: nothing after a reset of the function; with FEATURES_OK (bit 3) the features that
the driver asks for, which `picks` names, if they are accepted. -/
def State.agreement (s : State) (port fn vf val : Nat) : Nat :=
  let old := s.agreedFeatures port fn vf
  if val % 256 = 0 then 0
  else if old ≠ 0 || !val.testBit 3 then old
  else if acceptsFeatures fn (s.picks.headD 0) then s.picks.headD 0
  else 0

/-- DEVICE_STATUS_WRITE (R398): refused until boot completes; FEATURES_OK stays clear where no features are agreed on. The
bits are those of virtio 1.3: ACKNOWLEDGE, DRIVER, DRIVER_OK, FEATURES_OK and FAILED are the driver's (PRESUMED, log 22). -/
def execDeviceStatusWrite (port fn vf val : Nat) (s : State) : Answer :=
  if !s.host.booted || !s.functionExists port fn vf then .next s
  else
    let agreed := s.agreement port fn vf val
    let status := val &&& (if agreed = 0 then 0x87 else 0x8F)
    let here (x : Nat × Nat × Nat × Nat) : Bool := x.1 == port && x.2.1 == fn && x.2.2.1 == vf
    .next (s.updHost fun h =>
      { h with devStatus := (port, fn, vf, status) :: h.devStatus.filter fun x => !here x,
               features := (port, fn, vf, agreed) :: h.features.filter fun x => !here x })

/-! ## The management semaphore (R399, R400) -/

/-- A change of owner: seq advances. -/
def Semaphore.give (m : Semaphore) (owner now : Nat) : Semaphore :=
  { m with owner := owner, seq := m.seq + 1, leaseFrom := now }

/-- R400: a lease that has run out, 2^30 ticks after the claim or the last renewal, has freed the semaphore. -/
def Semaphore.at_ (m : Semaphore) (now : Nat) : Semaphore :=
  if m.owner ≠ 0 ∧ m.leaseFrom + clkOfTicks (2 ^ 30) ≤ now then m.give 0 now else m

/-- The semaphore as it stands. -/
def State.sem (s : State) : Semaphore := s.host.sem.at_ s.time

/-- Changes the semaphore as it stands. -/
def State.updSem (s : State) (f : Semaphore → Semaphore) : State := s.updHost fun h => { h with sem := f s.sem }

/-- R400: two claims of one tick: the port that lost the last tie wins; the first goes to port 0. -/
def Semaphore.tie (m : Semaphore) (now : Nat) : Semaphore :=
  { m.give (m.lastLoser + 1) now with lastLoser := 1 - m.lastLoser }

/-- SEMAPHORE_CLAIM (R399, R400): the claims of one tick; only a free semaphore is taken. -/
def execSemaphoreClaim (port0 port1 : Bool) (s : State) : Answer :=
  if s.sem.owner ≠ 0 then .next s
  else .next (s.updSem fun m => match port0, port1 with
    | true, true => m.tie s.time
    | true, false => m.give 1 s.time
    | false, true => m.give 2 s.time
    | false, false => m)

/-- LEASE_RENEW (R399, R400): from the owner only. -/
def execLeaseRenew (port : Nat) (s : State) : Answer :=
  if s.sem.owner = port + 1 then .next (s.updSem fun m => { m with leaseFrom := s.time }) else .next s

/-- SEMAPHORE_RELEASE (R399): from the owner only. -/
def execSemaphoreRelease (port : Nat) (s : State) : Answer :=
  if s.sem.owner = port + 1 then .next (s.updSem fun m => m.give 0 s.time) else .next s

/-- LEASE_EXPIRY (R400): 2^30 ticks after the claim or the last renewal. -/
def execLeaseExpiry (s : State) : Answer := .next (s.updSem fun m => m)

/-- R7, R399: a 32-bit word of the capability as a host reads it; claim and ctl are WO and read 0. -/
def State.capabilityRead (s : State) (off : Nat) : Word := match off with
  | 0x0 => (0x01 : BitVec 8) ++ (0x10 : BitVec 8) ++ Config.nextCapability ++ (0x09 : BitVec 8)
  | 0x4 => s.sem.seq ++ (0 : BitVec 14) ++ BitVec.ofNat 2 s.sem.owner
  | _ => 0

/-- R7, R399: a write of a 32-bit word of the capability by a port: claim takes 1, ctl takes 1 and 2; anything else is
ignored. -/
def State.capabilityWrite (s : State) (port off : Nat) (x : Word) : Answer := match off, x.toNat with
  | 0x8, 1 => execSemaphoreClaim (port == 0) (port == 1) s
  | 0xC, 1 => execLeaseRenew port s
  | 0xC, 2 => execSemaphoreRelease port s
  | _, _ => .next s

/-! ## Host commands (R401) -/

def State.answer (s : State) (port value : Nat) : State := s.updHost fun h => { h with answers := (port, value) :: h.answers }

/-- R401: the command may perform: its port owns the semaphore and carries the present seq. -/
def State.mayCommand (s : State) (port seq : Nat) : Bool :=
  s.sem.owner == port + 1 && s.sem.seq.toNat == seq

/-- R401, R405: a command that changes the package: answer 1 where the semaphore refuses it, 2 where the command's own
rule does, 0 where it performs. Without Zarkin OS nothing answers. -/
def State.command (s : State) (port seq : Nat) (f : Option State) : Answer :=
  if !s.host.booted then .next s
  else if !s.mayCommand port seq then .next (s.answer port 1)
  else match f with
    | some s' => .next (s'.answer port 0)
    | none => .next (s.answer port 2)

/-! ## Resources (R402) -/

/-- A core is free: no partition owns it, and no workgroup stands on it. -/
def State.coreFree (s : State) (c : Nat) : Bool :=
  decide (c < s.cores.length) && !(s.parts.any fun p => p.cores.contains c)
    && !(s.wgs.any fun w => w.core == c && w.place == .resident)

def State.sliceFree (s : State) (x : Nat) : Bool := decide (x < 64) && !(s.parts.any fun p => p.slices.contains x)

/-- Units of 64 MiB of a tier that no partition's share takes. -/
def State.freeUnits (s : State) (tier : Nat) : Nat :=
  tierSize tier / 2 ^ 26 - (s.parts.map fun p => p.shares.getD tier 0).sum

/-- Shares of 1/48 of the activate budget that no partition has. -/
def State.freeActivates (s : State) : Nat := 48 - (s.parts.map (·.activates)).sum

/-- What a command takes is free. -/
def State.canTake (s : State) (x : PartSpec) : Bool :=
  x.cores.all s.coreFree && decide ((distinct x.cores).length = x.cores.length) && x.slices.all s.sliceFree
    && decide ((distinct x.slices).length = x.slices.length)
    && (List.range 3).all (fun t => decide (x.shares.getD t 0 ≤ s.freeUnits t)) && decide (x.activates ≤ s.freeActivates)

/-- R168: cores are assigned: their latency counters read 0; no line or translation of an earlier owner stays. -/
def State.assignCores (s : State) (cores : List Nat) : State :=
  cores.foldl (fun s c => (s.l1WriteBackAll c).updCore c fun x =>
    { x with l1 := [], tlb := [], lathist := Vector.replicate 8 0, request := none }) s

/-- A new partition (R402) under a key of its own, which is not 0: what system software sets later starts in hardware mode and without limits. -/
def newPartition (x : PartSpec) (seq key : Nat) : Partition :=
  { number := x.number, cores := x.cores, slices := x.slices, shares := (List.range 3).map fun t => x.shares.getD t 0,
    activates := x.activates, prioCeiling := x.prioCeiling, ptroot := BitVec.ofNat 64 x.root, wdlim := 0,
    promotionHw := true, poolHw := true, faultHw := true, promoteAt := 0, demoteAt := 0, errorLimit := 0, poolWait := 0,
    bw := [], fqBase := x.fqBase, fqDepth := x.fqDepth, fqProd := 0, fqCons := 0, fqSeq := 0, records := [],
    launches := 0, pipelines := [], created := seq, keyGen := key, windows := [], reported := [], calls := [],
    destroying := false }

/-! ## Lifecycle commands (R405) -/

/-- Create (R402, R405). -/
def State.createPartition (s : State) (seq : Nat) (spec : PartSpec) : Option State :=
  let ok := decide (spec.number < 128) && (s.part? spec.number).isNone && spec.cores != [] && spec.slices != []
    && decide (spec.prioCeiling < 16) && s.canTake spec
  if ok then
    let s := s.assignCores spec.cores
    some { s with parts := s.parts ++ [newPartition spec seq (s.fresh + 1)], fresh := s.fresh + 1 }
  else none

/-- Resize (R405, R168): shares and activates grow by what the command names. -/
def State.addResources (s : State) (part : Nat) (spec : PartSpec) : Option State :=
  if (s.part? part).isSome && s.canTake spec then
    some ((s.assignCores spec.cores).updPart part fun p =>
      { p with cores := p.cores ++ spec.cores, slices := p.slices ++ spec.slices,
               shares := p.shares.mapIdx fun i n => n + spec.shares.getD i 0,
               activates := p.activates + spec.activates })
  else none

/-- R405, R352: a cohort with a workgroup that would be saved, or is, lacks cores on its die. -/
def State.strandsCohort (s : State) (p : Partition) (cores : List Nat) : Bool :=
  s.wgs.any fun w => w.part == p.number && decide (w.csz > 1) && (w.place == .saved || cores.contains w.core)
    && decide ((p.cores.filter fun c => c / 64 == w.core / 64 && !cores.contains c).length < w.csz)

/-- The pending lists of cores that go join the first core that stays. -/
def State.shiftPending (s : State) (cores : List Nat) (dst : Nat) : State :=
  let es := cores.flatMap fun c => (s.core c).pending
  let s := cores.foldl (fun s c => s.updCore c fun x => { x with pending := [], request := none }) s
  s.updCore dst fun x => { x with pending := x.pending ++ es }

/-- Resize: remove cores (R405, R357, R313). -/
def State.removeCores (s : State) (part : Nat) (cores : List Nat) : Option State :=
  (s.part? part).bind fun p =>
    let rest := p.cores.filter fun c => !cores.contains c
    if !(cores.all fun c => p.cores.contains c) || rest == [] || s.strandsCohort p cores then none
    else
      let there (w : Workgroup) : Bool := w.part == part && cores.contains w.core && w.place == .resident
        && w.verdict != .flush
      let s := ((s.wgs.filter there).map (·.id)).foldl (fun s id => s.setVerdict id .save) s
      some ((s.shiftPending cores (rest.headD 0)).updPart part fun p => { p with cores := rest })

/-- Everything that the caches hold of a partition's frames goes to its tier, and the copies are invalid. -/
def State.flushFrames (s : State) (part : Nat) : State :=
  (s.framesOf part).foldl (fun s l => (s.flushRange l.pa l.size).triggerRange l.pa l.size) s

/-- Resize: remove slices (R405): accesses are held for a while only, so their results do not change. -/
def State.removeSlices (s : State) (part : Nat) (slices : List Nat) : Option State :=
  (s.part? part).bind fun p =>
    let rest := p.slices.filter fun c => !slices.contains c
    if !(slices.all fun c => p.slices.contains c) || rest == [] then none
    else some ((s.flushFrames part).updPart part fun p => { p with slices := rest })

/-- Bytes of a tier that pinned pages of a partition take. -/
def State.pinnedBytes (s : State) (part tier : Nat) : Nat :=
  ((s.framesOf part).map fun l => if tierOf l.pa = tier ∧ (s.frame l.pa).pins ≠ 0 then l.size else 0).sum

/-- R405, R326: pages of a tier move out until as many bytes as given have gone. -/
def State.moveOut (s : State) (part tier : Nat) : List Leaf → Nat → State
  | [], _ => s
  | l :: ls, need =>
    if need = 0 then s
    else if tierOf l.pa != tier || (s.frame l.pa).pins != 0 || !(s.movesOf l).isEmpty then s.moveOut part tier ls need
    else
      match [tier + 1, tier + 2, tier - 1, tier - 2].findSome? fun t =>
          if t = tier || decide (t > 2) || !s.hasRoom part t l.size then none
          else (s.freeFrame t l.size).map fun pa => (t, pa) with
      | none => s.moveOut part tier ls need
      | some (_, pa) => ((s.noteFrame l.pa l.size part).startMove part l pa none).moveOut part tier ls (need - l.size)

/-- R405: bytes of a tier that are still to leave it for a share: what moves under way take out is counted no more. -/
def State.excess (s : State) (part tier share : Nat) : Nat :=
  let leaving (m : Move) : Bool := m.part == part && tierOf m.leaf.pa == tier && tierOf m.target != tier
  s.usedOf part tier - ((s.moves.filter leaving).map (·.leaf.size)).sum - share * 2 ^ 26

/-- R402: bytes of the other tiers' shares that a partition does not use. -/
def State.roomBeside (s : State) (part tier : Nat) : Nat :=
  (([0, 1, 2].filter (· != tier)).map fun t => s.shareOf part t - s.usedOf part t).sum

/-- Pages leave a tier as far as they find room. -/
def State.shrinkOn (s : State) (part tier share : Nat) : State :=
  s.moveOut part tier (s.framesOf part) (s.excess part tier share)

/-- Resize: shrink a tier share (R405): refused where pinned pages would exceed the new share; and, DESIGN CHOICE (assumption log
22), where the other shares have no room for what must leave. -/
def State.shrinkTier (s : State) (part tier share : Nat) : Option State :=
  (s.part? part).bind fun p =>
    if decide (tier > 2) || decide (share > p.shares.getD tier 0) || decide (s.pinnedBytes part tier > share * 2 ^ 26)
        || decide (s.excess part tier share > s.roomBeside part tier) then none
    else some ((s.updPart part fun p => { p with shares := p.shares.set tier share }).shrinkOn part tier share)

/-- R405: nothing that the partition issued is still to retire. -/
def State.quiet (s : State) (part : Nat) : Bool :=
  !(s.copies.any (·.part == part)) && !(s.rows.any fun (x : RowOp) => x.part == part)
    && !(s.tiers.any (·.part == part)) && !(s.moves.any (·.part == part))

/-- R405, R154, R317: no cache holds anything of the partition's frames, which get their cleared bits and lose owner and
counters; then its resources are free. -/
def State.finishDestroy (s : State) (part : Nat) : State :=
  let held := (s.framesOf part).map (fun l => (l.pa, l.size))
    ++ (s.frames.filter fun f => f.owner == some part).map fun f => (f.base, f.size)
  let s := held.foldl (fun s f => (s.flushRange f.1 f.2).triggerRange f.1 f.2) s
  let granules := held.flatMap fun f => (List.range (f.2 / 4096)).map fun i => f.1 / 4096 + i
  let s := { s with cleared := s.cleared ++ (distinct granules).filter fun g => !s.cleared.contains g }
  let s := held.foldl (fun s f => s.unpinned f.1 f.2) s
  let gone (f : Frame) : Frame := { f with owner := none, pins := 0, rd := 0, wr := 0, affinity := [] }
  { s with frames := updateWhere (fun f => f.owner == some part) gone s.frames,
           parts := s.parts.filter (·.number != part), due := s.due.filter (·.1 != part),
           serviceStores := s.serviceStores.filter (·.part != part),
           l2tlb := s.l2tlb.filter (fun e => e.2.part != part) }

/-- R405, R353: every workgroup ends and every pipeline goes. -/
def State.beginDestroy (s : State) (part : Nat) : State :=
  let s := ((s.wgs.filter (·.part == part)).map (·.id)).foldl (fun s id => s.killWg id) s
  let own := ((s.part? part).map (·.cores)).getD []
  let s := own.foldl (fun s c => s.updCore c fun x => { x with pending := [], request := none }) s
  let s := { s with cores := s.cores.map fun (c : Core) =>
    { c with records := c.records.filter (·.part != part), unformed := c.unformed.filter (·.part != part) } }
  s.updPart part fun p => { p with pipelines := [], destroying := true }

/-- R405: what a command does first; none where its own rule refuses it. -/
def State.begin_ (s : State) (seq : Nat) : HostCommand → Option State
  | .create spec => s.createPartition seq spec
  | .addResources part spec => s.addResources part spec
  | .removeCores part cores => s.removeCores part cores
  | .removeSlices part slices => s.removeSlices part slices
  | .shrinkTier part tier share => s.shrinkTier part tier share
  | .destroy part => if (s.part? part).isSome then some (s.beginDestroy part) else none

/-- R405: nothing of a command is outstanding: the saves, the moves, or the operations that a destroy waits for. -/
def State.commandDone (s : State) : HostCommand → Bool
  | .removeCores part cores => !(s.wgs.any fun w => w.part == part && cores.contains w.core && w.place == .resident)
  | .shrinkTier part tier share => decide (s.usedOf part tier ≤ share * 2 ^ 26)
  | .destroy part => s.quiet part
  | _ => true

/-- R405: what a command does last. -/
def State.finish (s : State) : HostCommand → State
  | .destroy part => s.finishDestroy part
  | _ => s

/-- R405: a command under way goes on, and is answered with 0 once nothing of it is outstanding. -/
def State.carryOn (s : State) (port : Nat) (c : HostCommand) : State :=
  if s.commandDone c then ((s.finish c).answer port 0).updHost fun h => { h with running := none }
  else s.updHost fun h => { h with running := some (port, c) }

/-- R401, R405: a command begins: it is answered with 1 where the semaphore refuses it, with 2 where its own rule does. -/
def State.beginCommand (s : State) (port seq : Nat) (c : HostCommand) : State :=
  if !s.mayCommand port seq then s.answer port 1
  else match s.begin_ seq c with
    | some s' => s'.carryOn port c
    | none => s.answer port 2

/-- Zarkin OS looks after the command under way, or takes the next that waits. -/
def State.lookAfter (s : State) : State :=
  match s.host.running, s.host.waiting with
  | some (port, .shrinkTier part tier share), _ => (s.shrinkOn part tier share).carryOn port (.shrinkTier part tier share)
  | some (port, c), _ => s.carryOn port c
  | none, (port, seq, c) :: rest => (s.updHost fun h => { h with waiting := rest }).beginCommand port seq c
  | none, [] => s

/-- R405: lifecycle commands perform one at a time, in arrival order. A port above 1 is no host's: such an event is Zarkin OS's
own (assumption log 22). Without Zarkin OS nothing answers. -/
def State.lifecycle (s : State) (port seq : Nat) (c : HostCommand) : Answer :=
  if !s.host.booted then .next s
  else if port > 1 then .next s.lookAfter
  else if s.host.running.isSome || s.host.waiting != [] then
    .next (s.updHost fun h => { h with waiting := h.waiting ++ [(port, seq, c)] })
  else .next (s.beginCommand port seq c)

/-- CREATE_PARTITION (R402, R405). -/
def execCreatePartition (port seq : Nat) (spec : PartSpec) (s : State) : Answer := s.lifecycle port seq (.create spec)

/-- RESIZE_ADD_RESOURCES (R405). -/
def execResizeAddResources (port seq part : Nat) (spec : PartSpec) (s : State) : Answer :=
  s.lifecycle port seq (.addResources part spec)

/-- RESIZE_REMOVE_CORES (R405). -/
def execResizeRemoveCores (port seq part : Nat) (cores : List Nat) (s : State) : Answer :=
  s.lifecycle port seq (.removeCores part cores)

/-- RESIZE_REMOVE_SLICES (R405). -/
def execResizeRemoveSlices (port seq part : Nat) (slices : List Nat) (s : State) : Answer :=
  s.lifecycle port seq (.removeSlices part slices)

/-- RESIZE_SHRINK_TIER_SHARE (R405). -/
def execResizeShrinkTierShare (port seq part tier share : Nat) (s : State) : Answer :=
  s.lifecycle port seq (.shrinkTier part tier share)

/-- DESTROY_PARTITION (R405): the kill comes first; the rest follows once every operation has retired. -/
def execDestroyPartition (port seq part : Nat) (s : State) : Answer := s.lifecycle port seq (.destroy part)

/-- SET_POWER_LIMIT (R401, R409): 1,000 to 4,200 W. -/
def execSetPowerLimit (port seq watts : Nat) (s : State) : Answer :=
  s.command port seq (if 1000 ≤ watts ∧ watts ≤ 4200 then some (s.updHost fun h => { h with powerLimit := watts })
    else none)

/-- FIRMWARE_UPDATE (R401): the image in flash, for the next boot. -/
def execFirmwareUpdate (port seq version : Nat) (s : State) : Answer :=
  s.command port seq (some (s.updHost fun h => { h with firmware := version }))

/-- HOST_LAUNCH (R401, R366, R421): no semaphore; the handle, or bit 63 with the reason; a descriptor that cannot be read
is reason 3. -/
def execHostLaunch (port part : Nat) (desc : BitVec 64) (s : State) : Answer :=
  match s.part? part with
  | none => .next s
  | some p =>
    if !s.host.booted || p.destroying then .next s
    else match s.readDescriptor (engineAgent 5 serviceCore port) serviceCore part desc.toNat with
      | .waits s => .next s
      | .fault s _ => .next (s.answer port (2 ^ 63 + 3))
      | .ok s d => match s.refusal p d with
        | some r => .next (s.answer port (2 ^ 63 + r))
        | none =>
          let a := s.enroll p d
          .next (a.1.answer port a.2)

/-! ## The capability table (R404) -/

/-- RFC 8949: the head of an item: major type and argument. -/
def cborHead (major n : Nat) : List Nat :=
  let be (k : Nat) : List Nat := (List.range k).map fun i => n / 256 ^ (k - 1 - i) % 256
  if n < 24 then [major * 32 + n]
  else if n < 2 ^ 8 then (major * 32 + 24) :: be 1
  else if n < 2 ^ 16 then (major * 32 + 25) :: be 2
  else if n < 2 ^ 32 then (major * 32 + 26) :: be 4
  else (major * 32 + 27) :: be 8

def cborNat (n : Nat) : List Nat := cborHead 0 n
def cborNull : List Nat := [0xF6]
def cborOpt (n : Option Nat) : List Nat := (n.map cborNat).getD cborNull
def cborText (t : List Nat) : List Nat := cborHead 3 t.length ++ t
def cborArray (xs : List (List Nat)) : List Nat := cborHead 4 xs.length ++ xs.flatten
def cborMap (xs : List (Nat × List Nat)) : List Nat := cborHead 5 xs.length ++ xs.flatMap fun x => cborNat x.1 ++ x.2

/-- An array of unsigned integers. -/
def cborNats (xs : List Nat) : List Nat := cborArray (xs.map cborNat)

/-- "TD-CR9A". -/
def deviceName : List Nat := [0x54, 0x44, 0x2D, 0x43, 0x52, 0x39, 0x41]

/-- R402, R13: bytes per tick of the ten home agents (stacks 0 to 7, tier 1, tier 2), then of the Col's ports: two to the
compute dies, one to the service die, two host ports, four CXL ports. Their numbers are the model's (log 22). -/
def agentRates : List Nat :=
  List.replicate 8 32000 ++ [28000, 5120, 400000, 400000, 40000, 2560, 2560, 1280, 1280, 1280, 1280]

/-- Bytes per tick that a partition's limit at an agent allows. -/
def Partition.rateAt (p : Partition) (id : Nat) : Nat :=
  ((p.bw.find? (·.1 == id)).map fun x => x.2.1 / x.2.2).getD 0

/-- R290: the activate budget under the factor. -/
def HostSide.activateBudget (h : HostSide) : Nat := 48 * h.factor / 8

/-- One partition's allocations, keyed as the table (R404). -/
def Partition.allocations (p : Partition) : List Nat :=
  cborMap [(3, cborNats p.cores), (4, cborNats p.slices), (5, cborNats p.shares), (6, cborNats (List.replicate 8 p.activates)),
    (7, cborArray (p.bw.map fun x => cborNats [x.1, x.2.1, x.2.2]))]

/-- The whole document (R404). -/
def State.capabilityTable (s : State) : List Nat :=
  let owner (f : Partition → List Nat) (n : Nat) : Option Nat := (s.parts.find? fun p => (f p).contains n).map (·.number)
  cborMap [
    (1, cborNat 1),
    (2, cborText deviceName),
    (3, cborArray ((List.range 128).map fun c => cborArray [cborNat c, cborNat (c / 64), cborNat (c / 16), cborOpt (owner (·.cores) c)])),
    (4, cborArray ((List.range 64).map fun x => cborArray [cborNat x, cborNat (x / 8), cborOpt (owner (·.slices) x)])),
    (5, cborArray ((List.range 3).map fun t => cborNats [t, tierSize t / 2 ^ 26, s.freeUnits t])),
    (6, cborArray ((List.range 8).map fun k => cborNats [k, s.host.activateBudget, s.freeActivates])),
    (7, cborArray (agentRates.mapIdx fun i r => cborNats [i, r, r - (s.parts.map fun p => p.rateAt i).sum])),
    (8, cborArray (s.parts.map fun p => cborArray [cborNat p.number, cborNat p.created, p.allocations])),
    (9, cborMap [(10, cborNat s.host.powerLimit), (11, cborNat s.host.factor)])]

/-- CAPABILITY_TABLE_READ (R404): the table as it stands; every partition and the management context read the same. -/
def execCapabilityTableRead (_part : Nat) (s : State) : Answer :=
  if !s.host.booted then .next s
  else .next (s.updHost fun h => { h with tables := s.capabilityTable :: h.tables })

/-! ## Power, counters, settings (R407, R409, R410, R334) -/

/-- R407: the ticks since the last update are counted for each compute die in a thermal bin, which `picks` names (assumption
log 22). -/
def State.countThermal (s : State) : State :=
  let bin (die : Nat) : Nat := die * 64 + s.picks.getD die 0 % 64
  let ticks := s.time / 20 - s.host.thermalAt / 20
  { s with picks := s.picks.drop 2,
           lifetime := { s.lifetime with thermal := bump (bin 1) ticks (bump (bin 0) ticks s.lifetime.thermal) },
           host := { s.host with thermalAt := s.time } }

/-- POWER_CONTROLLER_UPDATE (R409): a factor of 1 to 8 eighths. -/
def execPowerControllerUpdate (factor : Nat) (s : State) : Answer :=
  if 1 ≤ factor ∧ factor ≤ 8 then .next (s.countThermal.updHost fun h => { h with factor := factor }) else .next s

/-- THERMAL_THROTTLE (R409): at 105 °C on a die. -/
def execThermalThrottle (_die : Nat) (s : State) : Answer := .next (s.updHost fun h => { h with factor := 1 })

/-- LIFETIME_COUNTER_FLUSH (R407): Zarkin OS writes the counters to flash, every 2^30 ticks and at an orderly shutdown. -/
def execLifetimeCounterFlush (s : State) : Answer :=
  .next { s with flash := s.lifetime, host := { s.host with flashDue := s.time + clkOfTicks (2 ^ 30) } }

/-- R407: a lifetime counter as a host reads it over vsock, by the counter's number in `Lifetime.events`, 5 for the thermal bins,
and its source. -/
def State.counterRead (s : State) (kind source : Nat) : BitVec 64 :=
  let x := s.lifetime
  BitVec.ofNat 64 (countOf source (match kind with
    | 0 => x.corrections
    | 1 => x.forcedRefresh
    | 2 => x.fallbackRows
    | 3 => x.regFills
    | 4 => x.moves
    | _ => x.thermal))

/-- One setting of a partition. -/
def Setting.apply (x : Setting) (p : Partition) : Partition :=
  match x with
  | .promotionHw b => { p with promotionHw := b }
  | .poolHw b => { p with poolHw := b }
  | .faultHw b => { p with faultHw := b }
  | .promoteAt n => { p with promoteAt := n }
  | .demoteAt n => { p with demoteAt := n }
  | .errorLimit n => { p with errorLimit := n }
  | .poolWait n => { p with poolWait := n }
  | .watchdog n => { p with wdlim := n }
  | .faultQueue base depth => { p with fqBase := base, fqDepth := depth, fqProd := 0, fqCons := 0 }
  | .faultTaken n => { p with fqCons := n }
  | .bandwidth agent bytes ticks =>
    { p with bw := (agent, bytes, max 1 (min ticks 1000)) :: p.bw.filter (·.1 != agent) }
  | .root pa => { p with ptroot := pa }
  | .pkg _ => p

/-- R406: %pkg, which one of the settings is. -/
def Setting.pkgOf (x : Setting) (old : BitVec 8) : BitVec 8 := match x with
  | .pkg n => n
  | _ => old

/-- PARTITION_SETTING_WRITE (R334, R338, R378, R381, R403, R406). -/
def execPartitionSettingWrite (part : Nat) (setting : Setting) (s : State) : Answer :=
  .next { s.updPart part (Setting.apply setting) with pkg := Setting.pkgOf setting s.pkg }

end Sys2Proof.Machine
end

