-- ==== Sys2Proof/Machine/Dispatch.lean ====
section
/-!
DEFINITION. What each word and each event does: one arm per constructor, one direct call of its meaning.
-/

namespace Sys2Proof.Machine

def exec (i : Instr) (s : State) : Host.Outcome State Fault Refusal :=
  match i with
  | .clauseHeader o => Sys2Proof.Machine.execClauseHeader o s
  | .hint o => Sys2Proof.Machine.execHint o s
  | .immediateExtension o => Sys2Proof.Machine.execImmediateExtension o s
  | .arithmeticPrefix o => Sys2Proof.Machine.execArithmeticPrefix o s
  | .memoryPrefix o => Sys2Proof.Machine.execMemoryPrefix o s
  | .iadd o => Sys2Proof.Machine.execIadd o s
  | .isub o => Sys2Proof.Machine.execIsub o s
  | .imul o => Sys2Proof.Machine.execImul o s
  | .imulhs o => Sys2Proof.Machine.execImulhs o s
  | .imulhu o => Sys2Proof.Machine.execImulhu o s
  | .imins o => Sys2Proof.Machine.execImins o s
  | .imaxs o => Sys2Proof.Machine.execImaxs o s
  | .iminu o => Sys2Proof.Machine.execIminu o s
  | .imaxu o => Sys2Proof.Machine.execImaxu o s
  | .iaddss o => Sys2Proof.Machine.execIaddss o s
  | .isubss o => Sys2Proof.Machine.execIsubss o s
  | .iaddI o => Sys2Proof.Machine.execIaddI o s
  | .isubI o => Sys2Proof.Machine.execIsubI o s
  | .imulI o => Sys2Proof.Machine.execImulI o s
  | .imulhsI o => Sys2Proof.Machine.execImulhsI o s
  | .imulhuI o => Sys2Proof.Machine.execImulhuI o s
  | .iminsI o => Sys2Proof.Machine.execIminsI o s
  | .imaxsI o => Sys2Proof.Machine.execImaxsI o s
  | .iminuI o => Sys2Proof.Machine.execIminuI o s
  | .imaxuI o => Sys2Proof.Machine.execImaxuI o s
  | .iaddssI o => Sys2Proof.Machine.execIaddssI o s
  | .isubssI o => Sys2Proof.Machine.execIsubssI o s
  | .and o => Sys2Proof.Machine.execAnd o s
  | .or o => Sys2Proof.Machine.execOr o s
  | .xor o => Sys2Proof.Machine.execXor o s
  | .andn o => Sys2Proof.Machine.execAndn o s
  | .orn o => Sys2Proof.Machine.execOrn o s
  | .xnor o => Sys2Proof.Machine.execXnor o s
  | .shl o => Sys2Proof.Machine.execShl o s
  | .shr o => Sys2Proof.Machine.execShr o s
  | .sar o => Sys2Proof.Machine.execSar o s
  | .rotl o => Sys2Proof.Machine.execRotl o s
  | .rotr o => Sys2Proof.Machine.execRotr o s
  | .andI o => Sys2Proof.Machine.execAndI o s
  | .orI o => Sys2Proof.Machine.execOrI o s
  | .xorI o => Sys2Proof.Machine.execXorI o s
  | .andnI o => Sys2Proof.Machine.execAndnI o s
  | .ornI o => Sys2Proof.Machine.execOrnI o s
  | .xnorI o => Sys2Proof.Machine.execXnorI o s
  | .shlI o => Sys2Proof.Machine.execShlI o s
  | .shrI o => Sys2Proof.Machine.execShrI o s
  | .sarI o => Sys2Proof.Machine.execSarI o s
  | .rotlI o => Sys2Proof.Machine.execRotlI o s
  | .rotrI o => Sys2Proof.Machine.execRotrI o s
  | .popc o => Sys2Proof.Machine.execPopc o s
  | .clz o => Sys2Proof.Machine.execClz o s
  | .ctz o => Sys2Proof.Machine.execCtz o s
  | .brev o => Sys2Proof.Machine.execBrev o s
  | .bfez o => Sys2Proof.Machine.execBfez o s
  | .bfes o => Sys2Proof.Machine.execBfes o s
  | .bfi o => Sys2Proof.Machine.execBfi o s
  | .fshl o => Sys2Proof.Machine.execFshl o s
  | .bsel o => Sys2Proof.Machine.execBsel o s
  | .bswap o => Sys2Proof.Machine.execBswap o s
  | .imad o => Sys2Proof.Machine.execImad o s
  | .imadhs o => Sys2Proof.Machine.execImadhs o s
  | .imadhu o => Sys2Proof.Machine.execImadhu o s
  | .imadw o => Sys2Proof.Machine.execImadw o s
  | .imadws o => Sys2Proof.Machine.execImadws o s
  | .isad o => Sys2Proof.Machine.execIsad o s
  | .idp4 o => Sys2Proof.Machine.execIdp4 o s
  | .idp4z o => Sys2Proof.Machine.execIdp4z o s
  | .mov o => Sys2Proof.Machine.execMov o s
  | .movi o => Sys2Proof.Machine.execMovi o s
  | .sel o => Sys2Proof.Machine.execSel o s
  | .sext8 o => Sys2Proof.Machine.execSext8 o s
  | .sext16 o => Sys2Proof.Machine.execSext16 o s
  | .zext8 o => Sys2Proof.Machine.execZext8 o s
  | .zext16 o => Sys2Proof.Machine.execZext16 o s
  | .add64 o => Sys2Proof.Machine.execAdd64 o s
  | .sub64 o => Sys2Proof.Machine.execSub64 o s
  | .shl64 o => Sys2Proof.Machine.execShl64 o s
  | .shr64 o => Sys2Proof.Machine.execShr64 o s
  | .wadd o => Sys2Proof.Machine.execWadd o s
  | .wsub o => Sys2Proof.Machine.execWsub o s
  | .wmul o => Sys2Proof.Machine.execWmul o s
  | .wand o => Sys2Proof.Machine.execWand o s
  | .wor o => Sys2Proof.Machine.execWor o s
  | .wxor o => Sys2Proof.Machine.execWxor o s
  | .wshl o => Sys2Proof.Machine.execWshl o s
  | .wshr o => Sys2Proof.Machine.execWshr o s
  | .wmov o => Sys2Proof.Machine.execWmov o s
  | .wmovi o => Sys2Proof.Machine.execWmovi o s
  | .v2w o => Sys2Proof.Machine.execV2w o s
  | .w2v o => Sys2Proof.Machine.execW2v o s
  | .wlea o => Sys2Proof.Machine.execWlea o s
  | .fadd o => Sys2Proof.Machine.execFadd o s
  | .fsub o => Sys2Proof.Machine.execFsub o s
  | .fmul o => Sys2Proof.Machine.execFmul o s
  | .fmin o => Sys2Proof.Machine.execFmin o s
  | .fmax o => Sys2Proof.Machine.execFmax o s
  | .fminm o => Sys2Proof.Machine.execFminm o s
  | .fmaxm o => Sys2Proof.Machine.execFmaxm o s
  | .fcpysgn o => Sys2Proof.Machine.execFcpysgn o s
  | .fabs o => Sys2Proof.Machine.execFabs o s
  | .fneg o => Sys2Proof.Machine.execFneg o s
  | .fsat o => Sys2Proof.Machine.execFsat o s
  | .ffma o => Sys2Proof.Machine.execFfma o s
  | .ffms o => Sys2Proof.Machine.execFfms o s
  | .fnma o => Sys2Proof.Machine.execFnma o s
  | .hadd2 o => Sys2Proof.Machine.execHadd2 o s
  | .hmul2 o => Sys2Proof.Machine.execHmul2 o s
  | .hfma2 o => Sys2Proof.Machine.execHfma2 o s
  | .hmin2 o => Sys2Proof.Machine.execHmin2 o s
  | .hmax2 o => Sys2Proof.Machine.execHmax2 o s
  | .badd2 o => Sys2Proof.Machine.execBadd2 o s
  | .bmul2 o => Sys2Proof.Machine.execBmul2 o s
  | .bfma2 o => Sys2Proof.Machine.execBfma2 o s
  | .bmin2 o => Sys2Proof.Machine.execBmin2 o s
  | .bmax2 o => Sys2Proof.Machine.execBmax2 o s
  | .f2is o => Sys2Proof.Machine.execF2is o s
  | .f2iz o => Sys2Proof.Machine.execF2iz o s
  | .is2f o => Sys2Proof.Machine.execIs2f o s
  | .iz2f o => Sys2Proof.Machine.execIz2f o s
  | .f2h2 o => Sys2Proof.Machine.execF2h2 o s
  | .h2fl o => Sys2Proof.Machine.execH2fl o s
  | .h2fh o => Sys2Proof.Machine.execH2fh o s
  | .f2b2 o => Sys2Proof.Machine.execF2b2 o s
  | .b2fl o => Sys2Proof.Machine.execB2fl o s
  | .b2fh o => Sys2Proof.Machine.execB2fh o s
  | .frnd o => Sys2Proof.Machine.execFrnd o s
  | .fclass o => Sys2Proof.Machine.execFclass o s
  | .fexp o => Sys2Proof.Machine.execFexp o s
  | .fldexp o => Sys2Proof.Machine.execFldexp o s
  | .rcp o => Sys2Proof.Machine.execRcp o s
  | .rsq o => Sys2Proof.Machine.execRsq o s
  | .sqrt o => Sys2Proof.Machine.execSqrt o s
  | .ex2 o => Sys2Proof.Machine.execEx2 o s
  | .lg2 o => Sys2Proof.Machine.execLg2 o s
  | .sint o => Sys2Proof.Machine.execSint o s
  | .cost o => Sys2Proof.Machine.execCost o s
  | .tanh o => Sys2Proof.Machine.execTanh o s
  | .logi o => Sys2Proof.Machine.execLogi o s
  | .sfuComplete op keep => Sys2Proof.Machine.execSfuComplete op keep s
  | .shfi o => Sys2Proof.Machine.execShfi o s
  | .shfu o => Sys2Proof.Machine.execShfu o s
  | .shfd o => Sys2Proof.Machine.execShfd o s
  | .shfx o => Sys2Proof.Machine.execShfx o s
  | .qswx o => Sys2Proof.Machine.execQswx o s
  | .qswy o => Sys2Proof.Machine.execQswy o s
  | .qswd o => Sys2Proof.Machine.execQswd o s
  | .qbc o => Sys2Proof.Machine.execQbc o s
  | .vany o => Sys2Proof.Machine.execVany o s
  | .vall o => Sys2Proof.Machine.execVall o s
  | .vbal o => Sys2Proof.Machine.execVbal o s
  | .matchX o => Sys2Proof.Machine.execMatchX o s
  | .redi o => Sys2Proof.Machine.execRedi o s
  | .redf o => Sys2Proof.Machine.execRedf o s
  | .lmask o => Sys2Proof.Machine.execLmask o s
  | .sgset o => Sys2Proof.Machine.execSgset o s
  | .ceq o => Sys2Proof.Machine.execCeq o s
  | .cne o => Sys2Proof.Machine.execCne o s
  | .clt o => Sys2Proof.Machine.execClt o s
  | .cle o => Sys2Proof.Machine.execCle o s
  | .cgt o => Sys2Proof.Machine.execCgt o s
  | .cge o => Sys2Proof.Machine.execCge o s
  | .ctany o => Sys2Proof.Machine.execCtany o s
  | .ctnone o => Sys2Proof.Machine.execCtnone o s
  | .pand o => Sys2Proof.Machine.execPand o s
  | .por o => Sys2Proof.Machine.execPor o s
  | .pxor o => Sys2Proof.Machine.execPxor o s
  | .pandn o => Sys2Proof.Machine.execPandn o s
  | .pnot o => Sys2Proof.Machine.execPnot o s
  | .pmov o => Sys2Proof.Machine.execPmov o s
  | .pseti o => Sys2Proof.Machine.execPseti o s
  | .bra o => Sys2Proof.Machine.execBra o s
  | .call o => Sys2Proof.Machine.execCall o s
  | .brx o => Sys2Proof.Machine.execBrx o s
  | .callx o => Sys2Proof.Machine.execCallx o s
  | .ret o => Sys2Proof.Machine.execRet o s
  | .exit o => Sys2Proof.Machine.execExit o s
  | .demote o => Sys2Proof.Machine.execDemote o s
  | .yield o => Sys2Proof.Machine.execYield o s
  | .nop o => Sys2Proof.Machine.execNop o s
  | .bkpt o => Sys2Proof.Machine.execBkpt o s
  | .ld8z o => Sys2Proof.Machine.execLd8z o s
  | .ld8s o => Sys2Proof.Machine.execLd8s o s
  | .ld16z o => Sys2Proof.Machine.execLd16z o s
  | .ld16s o => Sys2Proof.Machine.execLd16s o s
  | .ld32 o => Sys2Proof.Machine.execLd32 o s
  | .ld64 o => Sys2Proof.Machine.execLd64 o s
  | .ld128 o => Sys2Proof.Machine.execLd128 o s
  | .ldf32 o => Sys2Proof.Machine.execLdf32 o s
  | .ldfb16 o => Sys2Proof.Machine.execLdfb16 o s
  | .loadComplete op keep => Sys2Proof.Machine.execLoadComplete op keep s
  | .registerSpill wg warp lane regs => Sys2Proof.Machine.execRegisterSpill wg warp lane regs s
  | .st8 o => Sys2Proof.Machine.execSt8 o s
  | .st16 o => Sys2Proof.Machine.execSt16 o s
  | .st32 o => Sys2Proof.Machine.execSt32 o s
  | .st64 o => Sys2Proof.Machine.execSt64 o s
  | .st128 o => Sys2Proof.Machine.execSt128 o s
  | .deferredStorePerform op => Sys2Proof.Machine.execDeferredStorePerform op s
  | .lds32 o => Sys2Proof.Machine.execLds32 o s
  | .lds64 o => Sys2Proof.Machine.execLds64 o s
  | .lds128 o => Sys2Proof.Machine.execLds128 o s
  | .sts32 o => Sys2Proof.Machine.execSts32 o s
  | .sts64 o => Sys2Proof.Machine.execSts64 o s
  | .sts128 o => Sys2Proof.Machine.execSts128 o s
  | .atsadd o => Sys2Proof.Machine.execAtsadd o s
  | .atsmax o => Sys2Proof.Machine.execAtsmax o s
  | .spadLoadComplete op keep => Sys2Proof.Machine.execSpadLoadComplete op keep s
  | .aadd o => Sys2Proof.Machine.execAadd o s
  | .amins o => Sys2Proof.Machine.execAmins o s
  | .amaxs o => Sys2Proof.Machine.execAmaxs o s
  | .aminz o => Sys2Proof.Machine.execAminz o s
  | .amaxz o => Sys2Proof.Machine.execAmaxz o s
  | .aand o => Sys2Proof.Machine.execAand o s
  | .aor o => Sys2Proof.Machine.execAor o s
  | .axor o => Sys2Proof.Machine.execAxor o s
  | .aswp o => Sys2Proof.Machine.execAswp o s
  | .acas o => Sys2Proof.Machine.execAcas o s
  | .aincw o => Sys2Proof.Machine.execAincw o s
  | .adecw o => Sys2Proof.Machine.execAdecw o s
  | .afadd o => Sys2Proof.Machine.execAfadd o s
  | .aadd64 o => Sys2Proof.Machine.execAadd64 o s
  | .acas64 o => Sys2Proof.Machine.execAcas64 o s
  | .aswp64 o => Sys2Proof.Machine.execAswp64 o s
  | .atomComplete op keep => Sys2Proof.Machine.execAtomComplete op keep s
  | .radd o => Sys2Proof.Machine.execRadd o s
  | .rmins o => Sys2Proof.Machine.execRmins o s
  | .rmaxs o => Sys2Proof.Machine.execRmaxs o s
  | .rminz o => Sys2Proof.Machine.execRminz o s
  | .rmaxz o => Sys2Proof.Machine.execRmaxz o s
  | .rand o => Sys2Proof.Machine.execRand o s
  | .ror o => Sys2Proof.Machine.execRor o s
  | .rxor o => Sys2Proof.Machine.execRxor o s
  | .rswp o => Sys2Proof.Machine.execRswp o s
  | .rfadd o => Sys2Proof.Machine.execRfadd o s
  | .radd64 o => Sys2Proof.Machine.execRadd64 o s
  | .fence o => Sys2Proof.Machine.execFence o s
  | .cflush o => Sys2Proof.Machine.execCflush o s
  | .cwb o => Sys2Proof.Machine.execCwb o s
  | .cinv o => Sys2Proof.Machine.execCinv o s
  | .pfl2 o => Sys2Proof.Machine.execPfl2 o s
  | .pfl1 o => Sys2Proof.Machine.execPfl1 o s
  | .qst o => Sys2Proof.Machine.execQst o s
  | .qsel o => Sys2Proof.Machine.execQsel o s
  | .qerr o => Sys2Proof.Machine.execQerr o s
  | .sbchk o => Sys2Proof.Machine.execSbchk o s
  | .mta o => Sys2Proof.Machine.execMta o s
  | .qblkComplete op keep => Sys2Proof.Machine.execQblkComplete op keep s
  | .gang o => Sys2Proof.Machine.execGang o s
  | .mmas o => Sys2Proof.Machine.execMmas o s
  | .mmag o => Sys2Proof.Machine.execMmag o s
  | .rendezvousAccept wg gang => Sys2Proof.Machine.execRendezvousAccept wg gang s
  | .rendezvousTimeout wg gang => Sys2Proof.Machine.execRendezvousTimeout wg gang s
  | .matrixOpStart core => Sys2Proof.Machine.execMatrixOpStart core s
  | .matrixKStep core => Sys2Proof.Machine.execMatrixKStep core s
  | .bFetchFault core => Sys2Proof.Machine.execBFetchFault core s
  | .matrixReissue wg gang => Sys2Proof.Machine.execMatrixReissue wg gang s
  | .matrixOpComplete core => Sys2Proof.Machine.execMatrixOpComplete core s
  | .acz o => Sys2Proof.Machine.execAcz o s
  | .acrd o => Sys2Proof.Machine.execAcrd o s
  | .acwr o => Sys2Proof.Machine.execAcwr o s
  | .acst o => Sys2Proof.Machine.execAcst o s
  | .acld o => Sys2Proof.Machine.execAcld o s
  | .tileTransferComplete op keep => Sys2Proof.Machine.execTileTransferComplete op keep s
  | .mprg o => Sys2Proof.Machine.execMprg o s
  | .mrel o => Sys2Proof.Machine.execMrel o s
  | .cpyin o => Sys2Proof.Machine.execCpyin o s
  | .cpyout o => Sys2Proof.Machine.execCpyout o s
  | .cpymc o => Sys2Proof.Machine.execCpymc o s
  | .cpyq2 o => Sys2Proof.Machine.execCpyq2 o s
  | .ringdef o => Sys2Proof.Machine.execRingdef o s
  | .awaitf o => Sys2Proof.Machine.execAwaitf o s
  | .rels o => Sys2Proof.Machine.execRels o s
  | .cpyst o => Sys2Proof.Machine.execCpyst o s
  | .copyCommandStart core => Sys2Proof.Machine.execCopyCommandStart core s
  | .copyTranslationFault core num => Sys2Proof.Machine.execCopyTranslationFault core num s
  | .copyOpComplete core num => Sys2Proof.Machine.execCopyOpComplete core num s
  | .multicastDelivery core num member => Sys2Proof.Machine.execMulticastDelivery core num member s
  | .releaseReportArrival idx => Sys2Proof.Machine.execReleaseReportArrival idx s
  | .awaitfService op keep => Sys2Proof.Machine.execAwaitfService op keep s
  | .awaitfTimeout op keep => Sys2Proof.Machine.execAwaitfTimeout op keep s
  | .rowcpy o => Sys2Proof.Machine.execRowcpy o s
  | .rowfill o => Sys2Proof.Machine.execRowfill o s
  | .rowand o => Sys2Proof.Machine.execRowand o s
  | .rowor o => Sys2Proof.Machine.execRowor o s
  | .rownot o => Sys2Proof.Machine.execRownot o s
  | .rowmaj o => Sys2Proof.Machine.execRowmaj o s
  | .rowsaxpy o => Sys2Proof.Machine.execRowsaxpy o s
  | .rowst o => Sys2Proof.Machine.execRowst o s
  | .rowPlan core num => Sys2Proof.Machine.execRowPlan core num s
  | .rowStackAccept core num => Sys2Proof.Machine.execRowStackAccept core num s
  | .rowSweep core num => Sys2Proof.Machine.execRowSweep core num s
  | .rowStep core num => Sys2Proof.Machine.execRowStep core num s
  | .rowResume core num => Sys2Proof.Machine.execRowResume core num s
  | .perBankRefreshDue stack pch => Sys2Proof.Machine.execPerBankRefreshDue stack pch s
  | .postponedRefreshIssue stack pch => Sys2Proof.Machine.execPostponedRefreshIssue stack pch s
  | .allBankRefresh stack pch => Sys2Proof.Machine.execAllBankRefresh stack pch s
  | .bara o => Sys2Proof.Machine.execBara o s
  | .barw o => Sys2Proof.Machine.execBarw o s
  | .bars o => Sys2Proof.Machine.execBars o s
  | .warm o => Sys2Proof.Machine.execWarm o s
  | .warmComplete op keep => Sys2Proof.Machine.execWarmComplete op keep s
  | .wwait o => Sys2Proof.Machine.execWwait o s
  | .spuriousTrigger wg warp lane => Sys2Proof.Machine.execSpuriousTrigger wg warp lane s
  | .wwaitTimeout wg warp lane => Sys2Proof.Machine.execWwaitTimeout wg warp lane s
  | .waitv o => Sys2Proof.Machine.execWaitv o s
  | .waitvEvaluation wg warp lane => Sys2Proof.Machine.execWaitvEvaluation wg warp lane s
  | .waitvDeadline wg warp lane => Sys2Proof.Machine.execWaitvDeadline wg warp lane s
  | .tlwait o => Sys2Proof.Machine.execTlwait o s
  | .tlrd o => Sys2Proof.Machine.execTlrd o s
  | .sleep o => Sys2Proof.Machine.execSleep o s
  | .sleepExpiry wg warp lane => Sys2Proof.Machine.execSleepExpiry wg warp lane s
  | .barrierTimerExpiry wg bar => Sys2Proof.Machine.execBarrierTimerExpiry wg bar s
  | .pin o => Sys2Proof.Machine.execPin o s
  | .unpin o => Sys2Proof.Machine.execUnpin o s
  | .taff o => Sys2Proof.Machine.execTaff o s
  | .migr o => Sys2Proof.Machine.execMigr o s
  | .pgcnt o => Sys2Proof.Machine.execPgcnt o s
  | .twin o => Sys2Proof.Machine.execTwin o s
  | .tqry o => Sys2Proof.Machine.execTqry o s
  | .tqryOp o => Sys2Proof.Machine.execTqryOp o s
  | .queryComplete op keep => Sys2Proof.Machine.execQueryComplete op keep s
  | .tierOpComplete core num => Sys2Proof.Machine.execTierOpComplete core num s
  | .moveCopyPhase move => Sys2Proof.Machine.execMoveCopyPhase move s
  | .moveSwitch move => Sys2Proof.Machine.execMoveSwitch move s
  | .moveCommit move => Sys2Proof.Machine.execMoveCommit move s
  | .moveRetire move => Sys2Proof.Machine.execMoveRetire move s
  | .counterHalving => Sys2Proof.Machine.execCounterHalving s
  | .promotionPolicy part page => Sys2Proof.Machine.execPromotionPolicy part page s
  | .frameRetirement part page => Sys2Proof.Machine.execFrameRetirement part page s
  | .poolRemoteRequest granule excl => Sys2Proof.Machine.execPoolRemoteRequest granule excl s
  | .poolGrant granule excl => Sys2Proof.Machine.execPoolGrant granule excl s
  | .poolWaitLimitExpiry op => Sys2Proof.Machine.execPoolWaitLimitExpiry op s
  | .poolStateChange granule state => Sys2Proof.Machine.execPoolStateChange granule state s
  | .enq o => Sys2Proof.Machine.execEnq o s
  | .stq o => Sys2Proof.Machine.execStq o s
  | .idemb o => Sys2Proof.Machine.execIdemb o s
  | .ideme o => Sys2Proof.Machine.execIdeme o s
  | .dlaunch o => Sys2Proof.Machine.execDlaunch o s
  | .descriptorReadComplete launch => Sys2Proof.Machine.execDescriptorReadComplete launch s
  | .trap o => Sys2Proof.Machine.execTrap o s
  | .sysc o => Sys2Proof.Machine.execSysc o s
  | .syscComplete op result keep => Sys2Proof.Machine.execSyscComplete op result keep s
  | .fcall o => Sys2Proof.Machine.execFcall o s
  | .rett o => Sys2Proof.Machine.execRett o s
  | .s2v o => Sys2Proof.Machine.execS2v o s
  | .v2s o => Sys2Proof.Machine.execV2s o s
  | .tlbi o => Sys2Proof.Machine.execTlbi o s
  | .issueGroupFormation core picker => Sys2Proof.Machine.execIssueGroupFormation core picker s
  | .yieldMarkExpiry wg warp lane => Sys2Proof.Machine.execYieldMarkExpiry wg warp lane s
  | .collectiveStallTimeout wg warp lane => Sys2Proof.Machine.execCollectiveStallTimeout wg warp lane s
  | .collectiveHoldTimeout group => Sys2Proof.Machine.execCollectiveHoldTimeout group s
  | .trapEntry wg warp lane => Sys2Proof.Machine.execTrapEntry wg warp lane s
  | .faultRecordQueued core => Sys2Proof.Machine.execFaultRecordQueued core s
  | .resumeAction part seq => Sys2Proof.Machine.execResumeAction part seq s
  | .skipAction part seq => Sys2Proof.Machine.execSkipAction part seq s
  | .deliverAction part seq => Sys2Proof.Machine.execDeliverAction part seq s
  | .killAction part seq => Sys2Proof.Machine.execKillAction part seq s
  | .engineFaultService part seq stop => Sys2Proof.Machine.execEngineFaultService part seq stop s
  | .watchdogExpiry wg => Sys2Proof.Machine.execWatchdogExpiry wg s
  | .tlbInvalidation part scope => Sys2Proof.Machine.execTlbInvalidation part scope s
  | .workgroupStart handle stage cores => Sys2Proof.Machine.execWorkgroupStart handle stage cores s
  | .stealRequest core => Sys2Proof.Machine.execStealRequest core s
  | .preemptionRequest handle stage => Sys2Proof.Machine.execPreemptionRequest handle stage s
  | .drainBoundExpiry wg => Sys2Proof.Machine.execDrainBoundExpiry wg s
  | .workgroupSave wg => Sys2Proof.Machine.execWorkgroupSave wg s
  | .workgroupFlush wg => Sys2Proof.Machine.execWorkgroupFlush wg s
  | .workgroupResume wg core => Sys2Proof.Machine.execWorkgroupResume wg core s
  | .workgroupEnd wg => Sys2Proof.Machine.execWorkgroupEnd wg s
  | .pipelineComplete part handle => Sys2Proof.Machine.execPipelineComplete part handle s
  | .bandwidthWindowRelease part => Sys2Proof.Machine.execBandwidthWindowRelease part s
  | .packageReset => Sys2Proof.Machine.execPackageReset s
  | .getVersion port => Sys2Proof.Machine.execGetVersion port s
  | .getCapabilities port => Sys2Proof.Machine.execGetCapabilities port s
  | .negotiateAlgorithms port asym hash => Sys2Proof.Machine.execNegotiateAlgorithms port asym hash s
  | .getDigests port => Sys2Proof.Machine.execGetDigests port s
  | .getCertificate port slot => Sys2Proof.Machine.execGetCertificate port slot s
  | .challenge port nonce => Sys2Proof.Machine.execChallenge port nonce s
  | .getMeasurements port index => Sys2Proof.Machine.execGetMeasurements port index s
  | .deviceStatusWrite port fn vf val => Sys2Proof.Machine.execDeviceStatusWrite port fn vf val s
  | .semaphoreClaim port0 port1 => Sys2Proof.Machine.execSemaphoreClaim port0 port1 s
  | .leaseRenew port => Sys2Proof.Machine.execLeaseRenew port s
  | .semaphoreRelease port => Sys2Proof.Machine.execSemaphoreRelease port s
  | .leaseExpiry => Sys2Proof.Machine.execLeaseExpiry s
  | .createPartition port seq spec => Sys2Proof.Machine.execCreatePartition port seq spec s
  | .resizeRemoveCores port seq part cores => Sys2Proof.Machine.execResizeRemoveCores port seq part cores s
  | .resizeRemoveSlices port seq part slices => Sys2Proof.Machine.execResizeRemoveSlices port seq part slices s
  | .resizeShrinkTierShare port seq part tier share => Sys2Proof.Machine.execResizeShrinkTierShare port seq part tier share s
  | .destroyPartition port seq part => Sys2Proof.Machine.execDestroyPartition port seq part s
  | .setPowerLimit port seq watts => Sys2Proof.Machine.execSetPowerLimit port seq watts s
  | .firmwareUpdate port seq version => Sys2Proof.Machine.execFirmwareUpdate port seq version s
  | .hostLaunch port part desc => Sys2Proof.Machine.execHostLaunch port part desc s
  | .capabilityTableRead part => Sys2Proof.Machine.execCapabilityTableRead part s
  | .powerControllerUpdate factor => Sys2Proof.Machine.execPowerControllerUpdate factor s
  | .thermalThrottle die => Sys2Proof.Machine.execThermalThrottle die s
  | .thermalReset die => Sys2Proof.Machine.execThermalReset die s
  | .lifetimeCounterFlush => Sys2Proof.Machine.execLifetimeCounterFlush s
  | .reservedOpcode word => Sys2Proof.Machine.execReservedOpcode word s
  | .serviceCoreAccess part acc => Sys2Proof.Machine.execServiceCoreAccess part acc s
  | .storeAcknowledgement op => Sys2Proof.Machine.execStoreAcknowledgement op s
  | .lineEviction core l2 line => Sys2Proof.Machine.execLineEviction core l2 line s
  | .refreshEnd stack pch => Sys2Proof.Machine.execRefreshEnd stack pch s
  | .tierCommandAccept core num => Sys2Proof.Machine.execTierCommandAccept core num s
  | .frameGenerationChange frame gen => Sys2Proof.Machine.execFrameGenerationChange frame gen s
  | .tlbEntryDrop core page => Sys2Proof.Machine.execTlbEntryDrop core page s
  | .powerLoss => Sys2Proof.Machine.execPowerLoss s
  | .migrHostReport core num moved => Sys2Proof.Machine.execMigrHostReport core num moved s
  | .managementPageMove part page tier frame => Sys2Proof.Machine.execManagementPageMove part page tier frame s
  | .partitionSettingWrite part setting => Sys2Proof.Machine.execPartitionSettingWrite part setting s
  | .resizeAddResources port seq part spec => Sys2Proof.Machine.execResizeAddResources port seq part spec s

end Sys2Proof.Machine
end

