-- ==== Sys2Proof/Machine/Events.lean ====
section
/-!
DEFINITION. What the device may do of its own accord: the events that each piece of the state asks for (assumption log 4).
-/

namespace Sys2Proof.Machine

/-- The completion of an operation; `keep` is what R35 leaves open. -/
noncomputable def PendingOp.events (keep : Nat) (o : PendingOp) : List Instr :=
  match o.kind with
  | .sfu .. => [.sfuComplete o.id keep]
  | .load .. => [.loadComplete o.id keep, .poolWaitLimitExpiry o.id]
  | .spad .. => [.spadLoadComplete o.id keep]
  | .atom .. => [.atomComplete o.id keep, .poolWaitLimitExpiry o.id]
  | .store .. => [.storeAcknowledgement o.id, .deferredStorePerform o.id, .poolWaitLimitExpiry o.id]
  | .redm .. => [.storeAcknowledgement o.id, .deferredStorePerform o.id, .poolWaitLimitExpiry o.id]
  | .cache .. => [.storeAcknowledgement o.id]
  | .qblk .. => [.qblkComplete o.id keep]
  | .sbchk .. => [.qblkComplete o.id keep, .poolWaitLimitExpiry o.id]
  | .warm .. => [.warmComplete o.id keep, .poolWaitLimitExpiry o.id]
  | .query .. => [.queryComplete o.id keep]
  | .awaitf .. => [.awaitfService o.id keep, .awaitfTimeout o.id keep]
  | .tile .. => [.tileTransferComplete o.id keep]
  | .sysc .. => []
  | .fence .. => []
  | .nothing => [.sfuComplete o.id keep]

/-- Entry into traps, the ends of holds and of waits. -/
noncomputable def Thread.events (t : Thread) (wg : Nat) : List Instr :=
  (match t.hold with
    | some (.wwait ..) => [.wwaitTimeout wg t.warp t.lane]
    | some (.waitv ..) => [.waitvEvaluation wg t.warp t.lane, .waitvDeadline wg t.warp t.lane]
    | some (.sleep ..) => [.sleepExpiry wg t.warp t.lane]
    | _ => [])
    ++ (if t.entry == .none then [] else [.trapEntry wg t.warp t.lane])
    ++ (if t.yieldMark.isSome then [.yieldMarkExpiry wg t.warp t.lane] else [])
    ++ (if t.collSince.isSome then [.collectiveStallTimeout wg t.warp t.lane] else [])

/-- Barriers, gangs, threads and the end of a workgroup, or its return. -/
noncomputable def Workgroup.events (w : Workgroup) (cores : List Nat) : List Instr :=
  match w.place with
  | .resident =>
    w.threads.flatMap (·.events w.id) ++ (List.range 16).map (fun b => .barrierTimerExpiry w.id b)
      ++ w.gangs.flatMap (fun x =>
        [.rendezvousAccept w.id x.key, .rendezvousTimeout w.id x.key, .matrixReissue w.id x.key])
      ++ (if w.watchReport.isSome then (w.threads.filter (·.watchdog.isSome)).map fun t => .trapEntry w.id t.warp t.lane else [])
      ++ [.watchdogExpiry w.id, .drainBoundExpiry w.id, .workgroupSave w.id, .workgroupFlush w.id, .workgroupEnd w.id]
  | _ => cores.map fun c => .workgroupResume w.id c

/-- The engines of a core and its records. -/
noncomputable def coreEvents (core : Nat) : List Instr :=
  [.matrixOpStart core, .matrixKStep core, .bFetchFault core, .matrixOpComplete core, .copyCommandStart core,
    .faultRecordQueued core, .stealRequest core]

noncomputable def CopyOp.events (x : CopyOp) : List Instr :=
  if x.stage == .done then []
  else [.copyTranslationFault x.core x.num, .copyOpComplete x.core x.num]
    ++ x.deliver.map fun m => .multicastDelivery x.core x.num m

noncomputable def RowOp.events (x : RowOp) : List Instr :=
  if x.stage == .done then []
  else [.rowPlan x.core x.num, .rowStackAccept x.core x.num, .rowSweep x.core x.num, .rowStep x.core x.num,
    .rowResume x.core x.num]

noncomputable def TierOp.events (x : TierOp) : List Instr :=
  if x.stage == .done then [] else [.tierCommandAccept x.core x.num, .tierOpComplete x.core x.num]

noncomputable def Move.events (m : Move) : List Instr :=
  [.moveCopyPhase m.id, .moveSwitch m.id, .moveCommit m.id, .moveRetire m.id]

/-- The cores that a stage may start on: each core, or the first that fit on each die for a cohort. -/
def State.startCores (s : State) (p : Partition) (st : Stage) : List (List Nat) :=
  if st.coh = 0 then p.cores.map fun c => [c]
  else [0, 1].map fun die => (p.cores.filter fun c => c / 64 == die && s.fits c st []).take (st.coh + 1)

noncomputable def State.partEvents (s : State) (p : Partition) : List Instr :=
  p.pipelines.flatMap (fun x =>
    .pipelineComplete p.number x.handle :: (x.stages.mapIdx fun i st =>
      .preemptionRequest x.handle i :: (s.startCores p st).map fun cs => .workgroupStart x.handle i cs).flatten)

/-- Refresh of every pseudo-channel (R291). -/
noncomputable def refreshEvents : List Instr :=
  (List.range 512).flatMap fun i =>
    [.perBankRefreshDue (i / 64) (i % 64), .postponedRefreshIssue (i / 64) (i % 64), .allBankRefresh (i / 64) (i % 64),
      .refreshEnd (i / 64) (i % 64)]

/-- Everything that the device may do of its own accord now; what does nothing is not enabled. -/
noncomputable def State.events (s : State) : List Instr :=
  s.ops.flatMap (·.events (s.picks.getD 1 0))
    ++ s.wgs.flatMap (fun w => w.events (((s.part? w.part).map (·.cores)).getD []))
    ++ (distinct (s.wgs.map (·.core) ++ s.parts.flatMap (·.cores))).flatMap coreEvents
    ++ s.copies.flatMap (·.events) ++ s.rows.flatMap (fun (x : RowOp) => x.events) ++ s.tiers.flatMap (·.events)
    ++ s.moves.flatMap (·.events)
    ++ s.serviceStores.map (fun x => .deferredStorePerform x.id)
    ++ s.due.map (fun x => .promotionPolicy x.1 x.2)
    ++ (if s.reports.isEmpty then [] else [.releaseReportArrival 0])
    ++ s.launches.map (fun l => .descriptorReadComplete l.id)
    ++ (s.granules.filter (·.request.isSome)).map (fun g => .poolGrant g.addr true)
    ++ s.parts.flatMap s.partEvents
    ++ (s.groups.filter (·.collHold.isSome)).map (fun g => .collectiveHoldTimeout g.id)
    ++ (if s.host.running.isSome || s.host.waiting != [] then [.destroyPartition 2 0 0] else [])
    ++ (if s.host.flashDue ≤ s.time then [.lifetimeCounterFlush] else [])
    ++ [.counterHalving, .leaseExpiry] ++ refreshEvents
    ++ (distinct (s.wgs.map (·.core))).flatMap (fun c => (List.range 16).map fun p => .issueGroupFormation c p)

end Sys2Proof.Machine
end

