-- ==== Sys2Proof/Machine/Run.lean ====
section
/-!
DEFINITION. The parts of a step: time, the next word of a group, two words of one clk, the choice of an event (assumption
logs 2, 4 and 5).
-/

namespace Sys2Proof.Machine

/-- The pickers note who is ready, and the stack agents who waits; one clk or more passes; words that hold try again. -/
def State.tick (s : State) : State :=
  let now := s.time + 1 + Config.stepClk s.fresh
  { s.note.noteRows now with time := now, fresh := s.fresh + 1 }

/-- The next word of a group: fetched, decoded, executed. -/
noncomputable def State.stepWord (s : State) (g : Group) : Answer :=
  let part := s.groupPart g
  match s.fetchWaits g.core part g.pc with
  | some pa => .next ((s.holdPool (fetchAgent g.core part g.pc) pa false).holdGroup g)
  | none => match s.fetchWord g.core part g.pc with
    | .error c => fetchFault c g s
    | .ok w =>
      let i := decode w (s.lookAhead g w)
      let s := s.fetchTlb g.core part g.pc
      match i with
      | .ok i => exec i s
      | .error .illegalOpcode => exec (.reservedOpcode w) s
      | .error .illegalEncoding => illegalFields w s

/-- R104: the warp-register words of two groups of one picker in one clk: both read the registers of the beginning of the
clk, and the write of the group that was formed later stands. -/
noncomputable def State.stepClk (s : State) (g : Group) : Answer :=
  match (s.beginClk g.core g.picker).stepWord g with
  | .next s' => match s'.current with
    | some h => if g.pairs h && s'.atWreg h then (match s'.stepWord h with
        | .next s'' => .next s''.endClk
        | r => r) else .next s'.endClk
    | none => .next s'.endClk
  | r => r

/-- Whether an event does something. -/
noncomputable def State.enabled (s : State) (e : Instr) : Bool := match exec e s with
  | .next t => t != s
  | _ => false

/-- One of the enabled events, as `picks` says. -/
noncomputable def State.choice (s : State) : Option Instr :=
  let es := s.events.filter s.enabled
  es[s.picks.headD s.fresh % es.length]?

/-- Words stand in memory: an agenda holds events only. -/
def Instr.isEvent : Instr → Bool
  | .reservedOpcode _ => false
  | i => !i.isWord

end Sys2Proof.Machine
end

