-- ==== Sys2Proof/Machine/Step.lean ====
section
/-!
DEFINITION. One step of the package: an event that the agenda asks for, else the next word of the issue group that is to
issue, else something that the device does of its own accord, else time passes (assumption logs 2, 4 and 5).
-/

namespace Sys2Proof.Machine

/-- One step. -/
noncomputable def step (s : State) : Host.Outcome State Fault Refusal :=
  let s := s.tick
  match s.agenda with
  | e :: rest =>
    if Instr.isEvent e then exec e { s.wakeGroups with agenda := rest } else .fault .agendaWord
  | [] => match s.current with
    | some g =>
      let u := { s with together := s.together.tail }
      if s.together.headD false && s.atWreg g then u.stepClk g else u.stepWord g
    | none =>
      let s := s.wakeGroups
      match s.choice with
      | some e => exec e { s with picks := s.picks.tail }
      | none => .next s

/-! ## A program of one word (assumption log 2) -/

/-- Where `withFetchWord` puts the word. -/
def trialPc : DWord := 0x1000

/-- Its translation: the first MiB, readable, writable and executable. -/
def trialLeaf : Leaf :=
  { vbase := 0, size := 2 ^ 20, pa := 0, pte := 0, gen := 0, fold := 0, format := 0, cls := .priv, open_ := true,
    pin := false, nodemote := false, pref := 3, r := true, w := true, x := true, metaBase := 0 }

/-- The clause that the word stands in: a collective one that ends behind it, or behind the word that a modifier
modifies. -/
def trialClause (w : Word) : ClauseCtx :=
  { hdr := trialPc - 4, left := if 0x3C ≤ majorOf w then 2 else 1, fa := 0, fb := 1, y := false, c := true }

/-- A workgroup of one matrix-role warp with one thread. -/
def trialWorkgroup (now : Nat) : Workgroup :=
  { id := 0, part := 0, handle := 1, stage := 0, member := 0, cohort := 0, csz := 1, seq := 0, pos := 0,
    item := List.replicate 8 0, slot := 0, core := 0, place := .resident, started := now, resident := 0,
    verdict := .none, idembAt := now, watchFrom := now, watchReport := none, marks := [0, 0, 0], tvec := 0, window := 262144, winBase := 0,
    split := 1, scratch := [], tiles := [], ownsTiles := true, barriers := Vector.replicate 16 Barrier.reset,
    rings := Vector.replicate 8 none, gangs := [],
    warps := [{ id := 0, role := 2, budget := 64, picker := 0, slot := 0, w := Vector.replicate 32 0, sgw := 32,
                gang := 0, before := none }],
    threads := [{ startThread trialPc false false 0 0 0 now with group := some 0 }], colto := 0, barto := 0, omask := 0,
    idem := false, home := 0, sbase := 0 }

def trialGroup (w : Word) : Group :=
  { id := 0, core := 0, picker := 0, pc := trialPc, atHeader := majorOf w == 0x3F, ctx := trialClause w,
    members := [{ wg := 0, warp := 0, lane := 0 }], mods := Mods.none, held := false, collHold := none, sent := false }

def trialPartition : Partition :=
  newPartition { number := 0, cores := [0], slices := [0], shares := [0, 0, 0], activates := 0, prioCeiling := 0,
                 root := 0, fqBase := 0, fqDepth := 0 } 0 1

/-- The machine about to run one word, followed by zeros, as a launch would have made it. -/
def State.withFetchWord (s : State) (nbits w : Nat) : State :=
  let x : Word := BitVec.ofNat 32 (w % 2 ^ nbits)
  { s with agenda := [], picks := [], together := [], mem := Memory.setBytes s.mem trialPc.toNat (wordBytes x ++ wordBytes 0),
           l2 := [], cleared := [], poison := [], keyed := [], damage := [], frames := [], moves := [],
           cores := { Core.reset with tlb := [{ part := 0, leaf := trialLeaf }] } :: s.cores.tail,
           parts := [trialPartition], wgs := [trialWorkgroup s.time], groups := [trialGroup x], ops := [], copies := [],
           rows := [], tiers := [], launches := [], reports := [], due := [], serviceStores := [], nextId := 1 }

end Sys2Proof.Machine
end

