-- ==== Sys2Proof/Safety.lean ====
section
/-!
DEFINITION. What a safe run is: it meets no fault and no refusal of the model, and what the model itself promises of a
state stays true: every memory of cells keeps its canonical form. Then the terms in which claims about words are made:
when a group's word meets nothing that stops it, and what the state is once the word has issued.
-/

namespace Sys2Proof.Safety

open Sys2Proof.Machine

/-- Every list of cells in the state is in canonical form. -/
def CellsOk (s : State) : Prop := Memory.wf s.mem ∧ ∀ w ∈ s.wgs, Memory.wf w.scratch

/-- The agenda names events only; a word in it is the one thing at which a run stops (R66). -/
def AgendaOk (s : State) : Prop := ∀ e ∈ s.agenda, Instr.isEvent e = true

/-- A run of k steps ends in a state. -/
def Runs (s : State) (k : Nat) (t : State) : Prop := core.run k s = .next t

/-- No run from a state stops. -/
def Safe (s : State) : Prop := ∀ k, ∃ t, Runs s k t

/-! ## Words -/

/-- The register budget of a thread's role (R48). -/
def budgetOf (w : Workgroup) (t : Thread) : Nat := ((w.warp? t.warp).map (·.budget)).getD 64

/-- The thread is a member of the group in flight (R65). -/
abbrev inGroup (g : Group) (t : Thread) : Prop := t.group = some g.id

/-- Group g is the one whose word issues next, and nothing stops that word: it stands in its place with modifier words
that it takes (`rule`: R31, R32, R37, R41 to R45, R192), every member's budget holds the registers that it names (R48)
and the store holds their values (R141), and no fault waits for a clause start. -/
def Ready (s : State) (g : Group) (rule : WordRule) (regs : List Nat) : Prop :=
  s.current = some g ∧ s.groups.find? (·.id == g.id) = some g ∧ s.active g ≠ [] ∧ 1 ≤ g.ctx.left ∧
  g.wordFault rule = none ∧
  ∀ w ∈ s.wgs, ∀ t ∈ w.threads, t.late = none ∧
    (inGroup g t → t.cold = 0 ∧ ∀ n ∈ regs ++ rule.v4Regs g.mods, n < budgetOf w t)

/-- R62, R66, R69: a thread behind the last word of its clause waits at the next clause start. -/
def landed (s : State) (g : Group) (w : Workgroup) (t : Thread) : Thread :=
  if g.ctx.left = 1 ∧ inGroup g t then
    { t with group := none, mid := none, readyAt := s.time, collSince := none,
             yieldMark := if g.ctx.y then some 0 else t.yieldMark, sgw := ((w.warp? t.warp).map (·.sgw)).getD 32 }
  else t

/-- The threads of a workgroup once the members of g have done F behind the word. -/
def workedThreads (g : Group) (F : Workgroup → Thread → Thread) (w : Workgroup) : List Thread :=
  w.threads.map fun t => if inGroup g t then F w { t with pc := g.pc + 4 } else t

/-- A workgroup with other threads. -/
def withThreads (w : Workgroup) (ts : List Thread) : Workgroup := { w with threads := ts }

/-- The group behind the word that it has issued (R66). -/
def behindWord (g x : Group) : Group :=
  { x with pc := g.pc + 4, ctx := { g.ctx with left := g.ctx.left - 1 }, mods := Mods.none, held := false,
           collHold := none, sent := false }

/-- Whether no thread is a member any more. -/
def emptied (g : Group) (wgs : List Workgroup) : Bool :=
  (({ State.reset with wgs := wgs } : State).active g).isEmpty

/-- The groups in flight once g has issued a word: behind its clause, or without a member, it is gone (R66). -/
def groupsAfter (s : State) (g : Group) (wgs : List Workgroup) : List Group :=
  if g.ctx.left = 1 ∨ emptied g wgs = true then s.groups.filter (·.id != g.id)
  else s.groups.map fun x => if x.id = g.id then behindWord g x else x

/-- The same package with other threads and groups in flight; one more choice of the scheduler is used. -/
def placed (s : State) (wgs : List Workgroup) (groups : List Group) : State :=
  { s with wgs := wgs, groups := groups, picks := s.picks.tail }

/-- The state once the members of g have issued a word that does F to each of them: they stand behind it, and nothing
else of the package has changed. -/
def after (s : State) (g : Group) (F : Workgroup → Thread → Thread) : State :=
  placed s (s.wgs.map fun w => withThreads w ((workedThreads g F w).map (landed s g w)))
    (groupsAfter s g (s.wgs.map fun w => withThreads w (workedThreads g F w)))

/-- Group g has one member, thread r, which is `th` of workgroup `w`. -/
def Alone (s : State) (g : Group) (r : TRef) (w : Workgroup) (th : Thread) : Prop :=
  g.members = [r] ∧ s.wg? r.wg = some w ∧ w.thread? r.warp r.lane = some th ∧ w.id = r.wg ∧
    (∀ v ∈ s.wgs, v.id = r.wg → v = w) ∧
    ∀ v ∈ s.wgs, ∀ t ∈ v.threads, inGroup g t ↔ v.id = r.wg ∧ t.warp = r.warp ∧ t.lane = r.lane

/-- Some completion flag selected by fs has room (R34). -/
def flagRoom (g : Group) (fs : Bool) (th : Thread) : Prop := ∀ f, g.flagOf fs = some f → th.flag f < 63

/-- A new operation of the member (R33, R34). -/
def newOp (s : State) (g : Group) (r : TRef) (th : Thread) (flag : Option Nat) (kind : OpKind) (dst ndst : Nat) : PendingOp :=
  { id := s.nextId, word := s.nextId, who := [r], flag := flag, issued := s.time, kind := kind, dst := dst, ndst := ndst,
    old := [(List.range ndst).map fun i => th.writesOf (dst + i)], site := g.site g.pc, widths := [th.sgw], seen := none,
    waiting := none, reported := false }

/-- A state with one more outstanding operation. -/
def withOp (op : PendingOp) (s : State) : State := { s with ops := s.ops ++ [op], nextId := s.nextId + 1 }

/-- The issue of a long-latency word that has no effect yet: its flag counts one more (R34), the operation is outstanding. -/
def afterOp (s : State) (g : Group) (op : PendingOp) : State := withOp op (after s g fun _ t => t.addFlag op.flag)

/-- The completion of an operation (R34, R35, R82): values land in threads that have not exited, sticky bits are ORed in, the
flag counts one less, and the operation is gone. -/
def completed (s : State) (o : PendingOp) (vals : List Word) (fp : BitVec 5) (keep : Nat) : State :=
  { s with ops := s.ops.filter (·.id != o.id),
           wgs := s.wgs.map fun w => { w with threads := w.threads.map fun t =>
             if (t.ref w.id) ∈ o.who then
               (if t.status = .exited then t
               else (t.landRegs o.dst (o.of o.old (t.ref w.id) []) vals (o.keeps keep (t.ref w.id))).orFpstat fp).subFlag o.flag
             else t } }

/-- R72: every member of the group's sub-groups that has not exited stands at the word with it; the group names its members
in lane order. -/
def Together (s : State) (g : Group) : Prop :=
  s.incomplete g.id = false ∧ g.members.Pairwise (fun a b => a.lane ≤ b.lane) ∧ g.collHold = none ∧
    (∀ h ∈ s.groups, h.id = g.id → h = g) ∧ ∀ h ∈ s.groups, g.sameWord h = false

/-- No byte of memory differs: as a thread of any core reads it, as the tier holds it, and in the scratchpads. -/
def SameBytes (s t : State) : Prop :=
  (∀ core a, t.coreByte core a = s.coreByte core a) ∧ (∀ a, t.tierByte a = s.tierByte a) ∧
    t.wgs.map (·.scratch) = s.wgs.map (·.scratch)

end Sys2Proof.Safety
end

