-- ==== Sys2Proof/Certificates/Slice0/Obligations.lean ====
section
/-!
DEFINITION. The statements about the package, with the terms in which they are made. Each docstring names the rules of
spec/ that it formalises; where a clause is the model's own choice it says so and names the assumption log's entry.
-/


open Sys2Proof Sys2Proof.Machine Sys2Proof.Safety

namespace Sys2Proof.Claims

/-! ## Integer results (R94 to R102), by exact arithmetic -/

/-- R43, R92: what an arithmetic word does to a member: nothing where its guard is false; its results and sticky bits where
its mask predicate is true; else zeros under z, and nothing without z. -/
def arithmetic (g : Group) (act : Bool) (vd : Nat) (r : List Word × BitVec 5) (t : Thread) : Thread :=
  if act = false then t
  else if t.pred g.arith.mask = true then (t.setRegs vd r.1).orFpstat r.2
  else if g.arith.z = true then t.setRegs vd (r.1.map fun _ => 0)
  else t

/-- R90, R41: the immediate operand. -/
def immediate (g : Group) (signed : Bool) (imm : BitVec 6) : Word :=
  match g.mods.ext with
  | some (_, e) => BitVec.ofNat 32 (e.toNat * 64 + imm.toNat)
  | none => if signed then BitVec.ofInt 32 imm.toInt else BitVec.ofNat 32 imm.toNat

/-- R91, R115: the third source. -/
def thirdSource (g : Group) (vd : Nat) : Nat := if g.arith.v4 = 0 then vd else g.arith.v4

/-- Sat(x, −2^31, 2^31 − 1) (R94). -/
def saturated (x : Int) : Word :=
  if x < -2147483648 then 0x80000000 else if 2147483647 < x then 0x7FFFFFFF else BitVec.ofInt 32 x

/-- R94, in the table's order. -/
def arithmeticResult : List (Word → Word → Word) :=
  [fun a b => BitVec.ofNat 32 (a.toNat + b.toNat), fun a b => BitVec.ofInt 32 ((a.toNat : Int) - b.toNat),
   fun a b => BitVec.ofNat 32 (a.toNat * b.toNat), fun a b => BitVec.ofInt 32 (a.toInt * b.toInt / 2 ^ 32),
   fun a b => BitVec.ofNat 32 (a.toNat * b.toNat / 2 ^ 32), fun a b => if a.toInt ≤ b.toInt then a else b,
   fun a b => if a.toInt ≤ b.toInt then b else a, fun a b => if a.toNat ≤ b.toNat then a else b,
   fun a b => if a.toNat ≤ b.toNat then b else a, fun a b => saturated (a.toInt + b.toInt),
   fun a b => saturated (a.toInt - b.toInt)]

/-- R95, in the table's order. -/
def logicResult : List (Word → Word → Word) :=
  [fun a b => a &&& b, fun a b => a ||| b, fun a b => a ^^^ b, fun a b => a &&& ~~~b, fun a b => a ||| ~~~b,
   fun a b => ~~~(a ^^^ b),
   fun a b => if b.toNat % 256 < 32 then BitVec.ofNat 32 (a.toNat * 2 ^ (b.toNat % 256)) else 0,
   fun a b => if b.toNat % 256 < 32 then BitVec.ofNat 32 (a.toNat / 2 ^ (b.toNat % 256)) else 0,
   fun a b => BitVec.ofInt 32 (a.toInt / 2 ^ min (b.toNat % 256) 31),
   fun a b => BitVec.ofNat 32 (a.toNat * 2 ^ (b.toNat % 32) + a.toNat / 2 ^ (32 - b.toNat % 32)),
   fun a b => BitVec.ofNat 32 (a.toNat / 2 ^ (b.toNat % 32) + a.toNat * 2 ^ (32 - b.toNat % 32))]

def arithmeticWords : List (V3Args → Instr) :=
  [.iadd, .isub, .imul, .imulhs, .imulhu, .imins, .imaxs, .iminu, .imaxu, .iaddss, .isubss]
def arithmeticImmediates : List (VIArgs → Instr) :=
  [.iaddI, .isubI, .imulI, .imulhsI, .imulhuI, .iminsI, .imaxsI, .iminuI, .imaxuI, .iaddssI, .isubssI]
def logicWords : List (V3Args → Instr) := [.and, .or, .xor, .andn, .orn, .xnor, .shl, .shr, .sar, .rotl, .rotr]
def logicImmediates : List (VIArgs → Instr) :=
  [.andI, .orI, .xorI, .andnI, .ornI, .xnorI, .shlI, .shrI, .sarI, .rotlI, .rotrI]

/-- R96: POPC, CLZ, CTZ, BREV, BSWAP; R100: MOV, SEXT8, SEXT16, ZEXT8, ZEXT16. -/
def unaryWords : List ((V2Args → Instr) × (Word → Word)) :=
  [(.popc, fun a => BitVec.ofNat 32 ((List.range 32).countP fun i => a.getLsbD i)),
   (.clz, fun a => BitVec.ofNat 32 (((List.range 32).find? fun i => a.getLsbD (31 - i)).getD 32)),
   (.ctz, fun a => BitVec.ofNat 32 (((List.range 32).find? fun i => a.getLsbD i).getD 32)),
   (.brev, fun a => a.reverse),
   (.bswap, fun a => BitVec.ofNat 32 (a.toNat % 256 * 2 ^ 24 + a.toNat / 2 ^ 8 % 256 * 2 ^ 16 +
      a.toNat / 2 ^ 16 % 256 * 2 ^ 8 + a.toNat / 2 ^ 24)),
   (.mov, fun a => a),
   (.sext8, fun a => BitVec.ofInt 32 (BitVec.ofNat 8 a.toNat).toInt),
   (.sext16, fun a => BitVec.ofInt 32 (BitVec.ofNat 16 a.toNat).toInt),
   (.zext8, fun a => BitVec.ofNat 32 (a.toNat % 2 ^ 8)),
   (.zext16, fun a => BitVec.ofNat 32 (a.toNat % 2 ^ 16))]

/-- R97: the field width n of a control value. -/
def widthOf (ctl : Word) : Nat :=
  if ctl.toNat / 256 % 256 = 0 ∨ 32 ≤ ctl.toNat % 256 then 0 else min (ctl.toNat / 256 % 256) (32 - ctl.toNat % 256)

/-- R97: the field of a value. -/
def fieldOf (a ctl : Word) : Nat := a.toNat / 2 ^ (ctl.toNat % 256) % 2 ^ widthOf ctl

/-- R97: BFEZ and BFES. -/
def fieldWords : List ((V3Args → Instr) × (Word → Word → Word)) :=
  [(.bfez, fun a ctl => BitVec.ofNat 32 (fieldOf a ctl)),
   (.bfes, fun a ctl => BitVec.ofInt 32 (BitVec.ofNat (widthOf ctl) (fieldOf a ctl)).toInt)]

/-- R98: one byte of BSEL's result is added to those below it. -/
def selectStep (a b c result : Word) (k : Nat) : Word :=
  let source : Byte := BitVec.ofNat 8 ((b.toNat * 2 ^ 32 + a.toNat) / 2 ^ (8 * (c.toNat / 2 ^ (3 * k) % 8)))
  let filled : Byte := if 1 ≤ k ∧ c.getLsbD (16 + k) = true then
      (if result.getLsbD (8 * k - 1) = true then 0xFF else 0x00)
    else source
  let x : Byte := if c.getLsbD (12 + k) = true then 0x00 else filled
  result + BitVec.ofNat 32 (x.toNat * 2 ^ (8 * k))

/-- The sum over the four bytes of two words (R99). -/
def overBytes (f : Byte → Byte → Int) (a b : Word) : Int :=
  ((List.range 4).map fun i => f (BitVec.ofNat 8 (a.toNat / 2 ^ (8 * i))) (BitVec.ofNat 8 (b.toNat / 2 ^ (8 * i)))).sum

/-- R97 to R99, R96: the words of three sources. -/
def thirdWords : List ((V3Args → Instr) × (Word → Word → Word → Word)) :=
  [(.bfi, fun a ctl c => (c &&& ~~~(BitVec.ofNat 32 ((2 ^ widthOf ctl - 1) * 2 ^ (ctl.toNat % 256)))) |||
      ((a <<< (ctl.toNat % 256)) &&& BitVec.ofNat 32 ((2 ^ widthOf ctl - 1) * 2 ^ (ctl.toNat % 256)))),
   (.fshl, fun a b c => BitVec.ofNat 32 ((a.toNat * 2 ^ 32 + b.toNat) * 2 ^ (c.toNat % 32) / 2 ^ 32)),
   (.bsel, fun a b c => [0, 1, 2, 3].foldl (selectStep a b c) 0),
   (.imad, fun a b c => BitVec.ofNat 32 (a.toNat * b.toNat + c.toNat)),
   (.imadhs, fun a b c => BitVec.ofInt 32 (a.toInt * b.toInt / 2 ^ 32 + c.toNat)),
   (.imadhu, fun a b c => BitVec.ofNat 32 (a.toNat * b.toNat / 2 ^ 32 + c.toNat)),
   (.isad, fun a b c => BitVec.ofInt 32 (c.toNat + overBytes (fun x y => ((x.toNat : Int) - y.toNat).natAbs) a b)),
   (.idp4, fun a b c => BitVec.ofInt 32 (c.toNat + overBytes (fun x y => x.toInt * y.toInt) a b)),
   (.idp4z, fun a b c => BitVec.ofInt 32 (c.toNat + overBytes (fun x y => (x.toNat * y.toNat : Nat)) a b))]

/-- R99: IMADW and IMADWS. -/
def wideWords : List ((V3Args → Instr) × (Word → Word → DWord → DWord)) :=
  [(.imadw, fun a b c => BitVec.ofNat 64 (a.toNat * b.toNat + c.toNat)),
   (.imadws, fun a b c => BitVec.ofInt 64 (a.toInt * b.toInt + c.toNat))]

/-- The two registers of a pair, its low word first (R48). -/
def words (x : DWord) : List Word := [BitVec.ofNat 32 x.toNat, BitVec.ofNat 32 (x.toNat / 2 ^ 32)]

/-- The value of a pair of registers (R48). -/
def pairOf (t : Thread) (n : Nat) : DWord := BitVec.ofNat 64 ((t.reg (n + 1)).toNat * 2 ^ 32 + (t.reg n).toNat)

/-- R100: the shift of a 64-bit value. -/
def shiftedBy (left : Bool) (a : DWord) (s : Nat) : DWord :=
  if 64 ≤ s then 0 else if left then BitVec.ofNat 64 (a.toNat * 2 ^ s) else BitVec.ofNat 64 (a.toNat / 2 ^ s)

/-- An integer word that takes mask and z (R92). -/
def plainArith : WordRule := { prefixKind := .arith }

end Sys2Proof.Claims

open Sys2Proof.Claims

/-- For a group that is ready for the word, IADD, ISUB, IMUL, IMULHS, IMULHU, IMINS, IMAXS, IMINU, IMAXU, IADDSS,
ISUBSS (R94), AND, OR, XOR, ANDN, ORN, XNOR, SHL, SHR, SAR, ROTL, ROTR (R95), BFEZ and BFES (R97), POPC, CLZ, CTZ,
BREV, BSWAP (R96), MOV, SEXT8, SEXT16, ZEXT8 and ZEXT16 (R100) answer the state in which every member with a true
guard holds the result of its table in v[vd] (or, with its mask predicate false, 0 under z and nothing without), the
group stands behind the word, and nothing else has changed. -/
def Obligations.IntegerWordsWriteTheResultOfTheTable : Prop :=
  ∀ (s : State) (g : Group),
    (∀ o : V3Args, Ready s g plainArith [o.vd.toNat, o.va.toNat, o.vb.toNat] →
      ∀ p ∈ arithmeticWords.zip arithmeticResult ++ logicWords.zip logicResult ++ fieldWords,
        exec (p.1 o) s = .next (after s g fun _ t => arithmetic g (t.guard o.guard o.neg) o.vd.toNat
          ([p.2 (t.reg o.va.toNat) (t.reg o.vb.toNat)], 0) t)) ∧
    (∀ o : V2Args, Ready s g plainArith [o.vd.toNat, o.va.toNat] →
      ∀ p ∈ unaryWords, exec (p.1 o) s = .next (after s g fun _ t =>
        arithmetic g (t.guard o.guard o.neg) o.vd.toNat ([p.2 (t.reg o.va.toNat)], 0) t))

/-- For a ready group, the eleven IALUI words and LOGICI funcs 0 to 5 take imm6 sign-extended, LOGICI funcs 6 to 10
(SHL, SHR, SAR, ROTL, ROTR) take it zero-extended, and with an extension word read each takes ext × 64 + imm6; the
result is that of the table of R94 or R95; MOVI writes the immediate itself (sign-extended). Nothing else changes. -/
def Obligations.ImmediateWordsUseTheImmediateOfTheirFunc : Prop :=
  ∀ (s : State) (g : Group) (o : VIArgs), Ready s g { plainArith with ext := true } [o.vd.toNat, o.va.toNat] →
    (∀ p ∈ (arithmeticImmediates.zip arithmeticResult).map (fun p => (p.1, p.2, true)) ++
        (logicImmediates.zip logicResult).mapIdx (fun n p => (p.1, p.2, decide (n ≤ 5))),
      exec (p.1 o) s = .next (after s g fun _ t => arithmetic g (t.guard o.guard o.neg) o.vd.toNat
        ([p.2.1 (t.reg o.va.toNat) (immediate g p.2.2 o.imm)], 0) t)) ∧
    ∀ m : VI0Args, Ready s g { plainArith with ext := true } [m.vd.toNat] →
      exec (.movi m) s = .next (after s g fun _ t =>
        arithmetic g (t.guard m.guard m.neg) m.vd.toNat ([immediate g true m.imm], 0) t)

/-- For a ready group, BFI, FSHL, BSEL, IMAD, IMADHS, IMADHU, ISAD, IDP4, IDP4Z, and over pairs IMADW and IMADWS, read
a third source c, which is v[v4] (the pair v4:v4+1) where a prefix names one and the old value of the destination
otherwise, and write the result of R96 to R99 formed exactly and reduced once; ADD64 and SUB64 write the sum or
difference of two pairs mod 2^64, SHL64 and SHR64 the pair va shifted by v[vb][7:0] (0 from 64 on), in the members
with a true guard; SEL, unguarded, writes a where p[guard] XOR neg is 1 and b otherwise in every member. Nothing else
changes. -/
def Obligations.ThirdSourcePairAndSelectWords : Prop :=
  ∀ (s : State) (g : Group) (o : V3Args),
    (Ready s g { plainArith with v4 := .reg } [o.vd.toNat, o.va.toNat, o.vb.toNat] →
      ∀ p ∈ thirdWords, exec (p.1 o) s = .next (after s g fun _ t =>
        arithmetic g (t.guard o.guard o.neg) o.vd.toNat
          ([p.2 (t.reg o.va.toNat) (t.reg o.vb.toNat) (t.reg (thirdSource g o.vd.toNat))], 0) t)) ∧
    (Ready s g { plainArith with v4 := .pair } [o.vd.toNat, o.vd.toNat + 1, o.va.toNat, o.vb.toNat] →
      ∀ p ∈ wideWords, exec (p.1 o) s = .next (after s g fun _ t =>
        arithmetic g (t.guard o.guard o.neg) o.vd.toNat
          (words (p.2 (t.reg o.va.toNat) (t.reg o.vb.toNat) (pairOf t (thirdSource g o.vd.toNat))), 0) t)) ∧
    (Ready s g plainArith [o.vd.toNat, o.vd.toNat + 1, o.va.toNat, o.va.toNat + 1, o.vb.toNat, o.vb.toNat + 1] →
      exec (.add64 o) s = .next (after s g fun _ t => arithmetic g (t.guard o.guard o.neg) o.vd.toNat
        (words (BitVec.ofNat 64 ((pairOf t o.va.toNat).toNat + (pairOf t o.vb.toNat).toNat)), 0) t) ∧
      exec (.sub64 o) s = .next (after s g fun _ t => arithmetic g (t.guard o.guard o.neg) o.vd.toNat
        (words (BitVec.ofInt 64 ((pairOf t o.va.toNat).toNat - (pairOf t o.vb.toNat).toNat)), 0) t)) ∧
    (Ready s g plainArith [o.vd.toNat, o.vd.toNat + 1, o.va.toNat, o.va.toNat + 1, o.vb.toNat] →
      ∀ p ∈ [((.shl64 : V3Args → Instr), true), (.shr64, false)],
        exec (p.1 o) s = .next (after s g fun _ t => arithmetic g (t.guard o.guard o.neg) o.vd.toNat
          (words (shiftedBy p.2 (pairOf t o.va.toNat) ((t.reg o.vb.toNat).toNat % 256)), 0) t)) ∧
    (Ready s g plainArith [o.vd.toNat, o.va.toNat, o.vb.toNat] →
      exec (.sel o) s = .next (after s g fun _ t => arithmetic g true o.vd.toNat
        ([if t.pred o.guard.toNat != o.neg then t.reg o.va.toNat else t.reg o.vb.toNat], 0) t))

namespace Sys2Proof.Claims

/-! ## Warp registers (R103 to R106) -/

/-- R103: some member of the warp has a true guard. -/
def warpGuard (s : State) (g : Group) (guard : BitVec 3) (w : Workgroup) (x : Warp) : Bool :=
  (s.active g).any fun r => r.wg == w.id && r.warp == x.id && (s.thread? r).any fun t => t.pred guard.toNat

/-- The same state with other warps. -/
def withWarps (f : Workgroup → Warp → Warp) (s : State) : State :=
  { s with wgs := s.wgs.map fun w => { w with warps := w.warps.map (f w) } }

/-- R104: the registers that a word of a warp reads: while two groups of the warp issue in one clk, those of its
beginning. -/
def atClk (x : Warp) : Warp := match x.before with
  | some v => { x with w := v }
  | none => x

/-- What a word that executes once per home warp leaves: w[wd] of the warps that act. -/
def afterWarps (s : State) (g : Group) (guard : BitVec 3) (wd : BitVec 5) (f : Warp → DWord) : State :=
  withWarps (fun w x => if warpGuard s g guard w x = true then x.setReg wd.toNat (f (atClk x)) else x) (after s g fun _ t => t)

/-- R105: the words of two sources. -/
def warpWords : List ((W3Args → Instr) × (DWord → DWord → DWord)) :=
  [(.wadd, fun a b => BitVec.ofNat 64 (a.toNat + b.toNat)), (.wsub, fun a b => BitVec.ofInt 64 ((a.toNat : Int) - b.toNat)),
   (.wmul, fun a b => BitVec.ofNat 64 (a.toNat * b.toNat)), (.wand, fun a b => a &&& b), (.wor, fun a b => a ||| b),
   (.wxor, fun a b => a ^^^ b), (.wshl, fun a b => shiftedBy true a (b.toNat % 256)),
   (.wshr, fun a b => shiftedBy false a (b.toNat % 256))]

/-- R106: the lowest-laned member of a warp with a true guard; a group names its members in lane order. -/
def lowestActing (s : State) (g : Group) (guard : BitVec 3) (w : Workgroup) (x : Warp) : Option Thread :=
  (s.active g).findSome? fun r =>
    if r.wg = w.id ∧ r.warp = x.id then (s.thread? r).filter fun t => t.pred guard.toNat else none

end Sys2Proof.Claims

/-- For a ready group: WADD, WSUB, WMUL, WAND, WOR, WXOR, WSHL, WSHR, WMOV, WMOVI and WLEA write w[wd] of every home
warp that has a member whose guard is true, from the registers of that warp (as they stood at the beginning of the
clk, where another group of the warp issues in the same clk), and change no thread; W2V writes the pair v[2k]:v[2k+1]
of every member with a true guard from its own home warp; V2W writes w[wd] of each warp from the pair (or,
sign-extended, the register) of its first member in lane order with a true guard. Nothing else changes. -/
def Obligations.WarpRegisterWordsActOncePerWarp : Prop :=
  ∀ (s : State) (g : Group),
    (Ready s g {} [] →
      (∀ o : W3Args, ∀ p ∈ warpWords,
        exec (p.1 o) s = .next (afterWarps s g o.guard o.wd fun x => p.2 (x.reg o.wa.toNat) (x.reg o.wb.toNat))) ∧
      (∀ o : W2Args, exec (.wmov o) s = .next (afterWarps s g o.guard o.wd fun x => x.reg o.wa.toNat)) ∧
      (∀ o : WIArgs, exec (.wmovi o) s = .next (afterWarps s g o.guard o.wd fun _ => BitVec.ofInt 64 o.imm.toInt)) ∧
      (∀ o : WLArgs, exec (.wlea o) s = .next (afterWarps s g o.guard o.wd fun x =>
        BitVec.ofNat 64 ((x.reg o.wa.toNat).toNat + (x.reg o.wb.toNat).toNat * 2 ^ o.sh.toNat)))) ∧
    (∀ o : VWArgs, Ready s g {} [2 * o.k.toNat, 2 * o.k.toNat + 1] →
      exec (.w2v o) s = .next (after s g fun w t =>
        if t.pred o.guard.toNat = true then
          t.setRegs (2 * o.k.toNat) (words (((w.warp? t.warp).map fun x => (atClk x).reg o.wa.toNat).getD 0)) else t)) ∧
    (∀ o : WVArgs, Ready s g {} (if o.s then [2 * o.k.toNat] else [2 * o.k.toNat, 2 * o.k.toNat + 1]) →
      (∀ w ∈ s.wgs, ∀ v ∈ s.wgs, v.id = w.id → v = w) →
      exec (.v2w o) s = .next (withWarps (fun w x => match lowestActing s g o.guard w x with
        | some t => x.setReg o.wd.toNat (if o.s then BitVec.ofInt 64 (t.reg (2 * o.k.toNat)).toInt
            else pairOf t (2 * o.k.toNat))
        | none => x) (after s g fun _ t => t)))

namespace Sys2Proof.Claims

/-! ## Float words (R109 to R122) -/

/-- A float word that takes mask and z, a rounding mode where `rnd` says so, and v4 where it has a third source (R115). -/
def floatArith (rnd third : Bool) : WordRule :=
  { prefixKind := .arith, rnd := rnd, v4 := if third then .reg else .none }

/-- A rounded FP32 result with its sticky bits. -/
def rounded32 (m : Nat) (x : FVal × BitVec 5) : Word × BitVec 5 :=
  (BitVec.ofNat 32 (fp32.round m x.1).1, (fp32.round m x.1).2 ||| x.2)

/-- Two rounded 16-bit results, lane H above lane L, with the sticky bits of both (R119). -/
def rounded16 (f : Fmt) (m : Nat) (x : Bool → FVal × BitVec 5) : Word × BitVec 5 :=
  (BitVec.ofNat 32 ((f.round m (x true).1).1 % 2 ^ 16 * 2 ^ 16 + (f.round m (x false).1).1 % 2 ^ 16),
   (f.round m (x false).1).2 ||| (x false).2 ||| ((f.round m (x true).1).2 ||| (x true).2))

/-- The 16 bits of lane H or L (R119). -/
def laneOf (x : Word) (hi : Bool) : Nat := if hi then x.toNat / 2 ^ 16 else x.toNat % 2 ^ 16

/-- The smaller or larger of two patterns (R117): −0 is below +0; NV for a signalling NaN. -/
def extreme (f : Fmt) (larger propagate : Bool) (x y : Nat) : Nat × BitVec 5 :=
  let nan (z : Nat) : Bool := (f.decode z).isNan
  let nv : BitVec 5 := if (f.decode x).isSignalling || (f.decode y).isSignalling then 1 else 0
  let r := if nan x && nan y then f.canonNan
    else if nan x then (if propagate then f.canonNan else y)
    else if nan y then (if propagate then f.canonNan else x)
    else if (if larger then f.key y ≤ f.key x else f.key x ≤ f.key y) then x else y
  (r, nv)

/-- The lanes of an extreme of packed values. -/
def extremes (f : Fmt) (larger : Bool) (a b : Word) : Word × BitVec 5 :=
  let l := extreme f larger false (laneOf a false) (laneOf b false)
  let h := extreme f larger false (laneOf a true) (laneOf b true)
  (BitVec.ofNat 32 (h.1 % 2 ^ 16 * 2 ^ 16 + l.1 % 2 ^ 16), l.2 ||| h.2)

def extreme32 (larger propagate : Bool) (a b : Word) : Word × BitVec 5 :=
  let r := extreme fp32 larger propagate a.toNat b.toNat
  (BitVec.ofNat 32 r.1, r.2)

/-- A sign operation: a NaN gives the canonical NaN, and no bit is set (R116). -/
def signed32 (a r : Word) : Word × BitVec 5 := if (f32 a).isNan then (0x7FC00000, 0) else (r, 0)

/-- The value of a register's bits [30:0]. -/
def magnitude (a : Word) : Nat := a.toNat % 2 ^ 31

/-- R116, R118 to R120: the words of two sources: constructor, whether it takes a mode, result by mode. -/
def floatWords : List ((V3Args → Instr) × Bool × (Nat → Word → Word → Word × BitVec 5)) :=
  [(.fadd, true, fun m a b => rounded32 m ((f32 a).add m (f32 b))),
   (.fsub, true, fun m a b => rounded32 m ((f32 a).add m (f32 b).negate)),
   (.fmul, true, fun m a b => rounded32 m ((f32 a).mul (f32 b))),
   (.fmin, false, fun _ => extreme32 false false), (.fmax, false, fun _ => extreme32 true false),
   (.fminm, false, fun _ => extreme32 false true), (.fmaxm, false, fun _ => extreme32 true true),
   (.fcpysgn, false, fun _ a b => signed32 a (BitVec.ofNat 32 (magnitude a + b.toNat / 2 ^ 31 * 2 ^ 31))),
   (.hadd2, true, fun m a b => rounded16 fp16 m fun h => (half fp16 a h).add m (half fp16 b h)),
   (.hmul2, true, fun m a b => rounded16 fp16 m fun h => (half fp16 a h).mul (half fp16 b h)),
   (.hmin2, false, fun _ => extremes fp16 false), (.hmax2, false, fun _ => extremes fp16 true),
   (.badd2, true, fun m a b => rounded16 bf16 m fun h => (half bf16 a h).add m (half bf16 b h)),
   (.bmul2, true, fun m a b => rounded16 bf16 m fun h => (half bf16 a h).mul (half bf16 b h)),
   (.bmin2, false, fun _ => extremes bf16 false), (.bmax2, false, fun _ => extremes bf16 true),
   (.f2h2, true, fun m a b => rounded16 fp16 m fun h =>
      (f32 (if h then b else a), if (f32 (if h then b else a)).isSignalling then 1 else 0)),
   (.f2b2, false, fun _ a b => rounded16 bf16 0 fun h =>
      (f32 (if h then b else a), if (f32 (if h then b else a)).isSignalling then 1 else 0)),
   (.fldexp, true, fun m a b => match f32 a with
      | .nan q => (0x7FC00000, if q then 1 else 0)
      | .inf _ => (a, 0)
      | .fin n x e => if x = 0 then (a, 0)
          else rounded32 m (.fin n x (e + max (-2000) (min 2000 b.toInt)), 0))]

/-- A conversion of one value that is exact but for NaNs (R120). -/
def widened (v : FVal) : Word × BitVec 5 := rounded32 0 (v, if v.isSignalling then 1 else 0)

/-- R121: RoundInt and its saturation. -/
def toInteger (m : Nat) (lo hi : Int) (a : FVal) : Word × BitVec 5 :=
  match a with
  | .nan _ => (0, 1)
  | .inf n => (BitVec.ofInt 32 (if n then lo else hi), 1)
  | .fin n x e =>
    let u := roundUnits m n x e 0
    let r : Int := if n then -(u.1 : Int) else u.1
    if hi < r then (BitVec.ofInt 32 hi, 1) else if r < lo then (BitVec.ofInt 32 lo, 1)
    else (BitVec.ofInt 32 r, if u.2 then 16 else 0)

/-- R122: the class bit of a pattern. -/
def classBit (a : Word) : Nat :=
  let neg := decide (2 ^ 31 ≤ a.toNat)
  if 0x7F800000 < magnitude a then (if magnitude a < 0x7FC00000 then 8 else 9)
  else if magnitude a = 0x7F800000 then (if neg then 0 else 7)
  else if magnitude a = 0 then (if neg then 3 else 4)
  else if magnitude a < 0x00800000 then (if neg then 2 else 5)
  else if neg then 1 else 6

/-- R116, R117, R120 to R122: the words of one source. -/
def floatUnaryWords : List ((V2Args → Instr) × Bool × (Nat → Word → Word × BitVec 5)) :=
  [(.fabs, false, fun _ a => signed32 a (BitVec.ofNat 32 (magnitude a))),
   (.fneg, false, fun _ a => signed32 a (BitVec.ofNat 32 (a.toNat + 2 ^ 31))),
   (.fsat, false, fun _ a => if (f32 a).isNan then (0, if (f32 a).isSignalling then 1 else 0)
      else if 2 ^ 31 ≤ a.toNat then (0, 0) else if 0x3F800000 < a.toNat then (0x3F800000, 0) else (a, 0)),
   (.f2is, true, fun m a => toInteger m (-2 ^ 31) (2 ^ 31 - 1) (f32 a)),
   (.f2iz, true, fun m a => toInteger m 0 (2 ^ 32 - 1) (f32 a)),
   (.is2f, true, fun m a => rounded32 m (.fin (decide (a.toInt < 0)) a.toInt.natAbs 0, 0)),
   (.iz2f, true, fun m a => rounded32 m (.fin false a.toNat 0, 0)),
   (.h2fl, false, fun _ a => widened (half fp16 a false)), (.h2fh, false, fun _ a => widened (half fp16 a true)),
   (.b2fl, false, fun _ a => widened (half bf16 a false)), (.b2fh, false, fun _ a => widened (half bf16 a true)),
   (.frnd, true, fun m a => match f32 a with
      | .nan q => (0x7FC00000, if q then 1 else 0)
      | .inf _ => (a, 0)
      | .fin n x e => (BitVec.ofNat 32 (fp32.round 0 (.fin n (roundUnits m n x e 0).1 0)).1, 0)),
   (.fclass, false, fun _ a => (BitVec.ofNat 32 (2 ^ classBit a), 0)),
   (.fexp, false, fun _ a => match f32 a with
      | .nan q => (0x7FFFFFFF, if q then 1 else 0)
      | .inf _ => (0x7FFFFFFF, 0)
      | .fin _ x e => if x = 0 then (0x80000000, 0) else (BitVec.ofInt 32 (e + Nat.log2 x), 0))]

/-- R118, R119: fused multiply-add, with the operands negated as the word says. -/
def fused (np na : Bool) (m : Nat) (a b c : FVal) : FVal × BitVec 5 :=
  ((if np then a.negate else a).fma m b (if na then c.negate else c))

def fusedWords : List ((V3Args → Instr) × (Nat → Word → Word → Word → Word × BitVec 5)) :=
  [(.ffma, fun m a b c => rounded32 m (fused false false m (f32 a) (f32 b) (f32 c))),
   (.ffms, fun m a b c => rounded32 m (fused false true m (f32 a) (f32 b) (f32 c))),
   (.fnma, fun m a b c => rounded32 m (fused true false m (f32 a) (f32 b) (f32 c))),
   (.hfma2, fun m a b c => rounded16 fp16 m fun h => fused false false m (half fp16 a h) (half fp16 b h) (half fp16 c h)),
   (.bfma2, fun m a b c => rounded16 bf16 m fun h => fused false false m (half bf16 a h) (half bf16 b h) (half bf16 c h))]

end Sys2Proof.Claims

/-- For a ready group, each word of majors 0x08 to 0x0B writes v[vd] of the members with a true guard with the exact
result of its table rounded once in the mode of the prefix (RNE without one, always for F2B2; the min, max, sign,
class and exponent words are exact), ORs into %fpstat the bits that the result raises (also both lanes of a packed
word), follows the mask and z of the prefix, reads its third source as R115 says, and changes nothing else. The modes
are accepted only before the words of R115. -/
def Obligations.FloatWordsWriteTheRoundedResultAndStickyBits : Prop :=
  ∀ (s : State) (g : Group),
    (∀ o : V3Args, ∀ p ∈ floatWords, Ready s g (floatArith p.2.1 false) [o.vd.toNat, o.va.toNat, o.vb.toNat] →
      exec (p.1 o) s = .next (after s g fun _ t => arithmetic g (t.guard o.guard o.neg) o.vd.toNat
        ([(p.2.2 g.arith.rnd (t.reg o.va.toNat) (t.reg o.vb.toNat)).1],
          (p.2.2 g.arith.rnd (t.reg o.va.toNat) (t.reg o.vb.toNat)).2) t)) ∧
    (∀ o : V2Args, ∀ p ∈ floatUnaryWords, Ready s g (floatArith p.2.1 false) [o.vd.toNat, o.va.toNat] →
      exec (p.1 o) s = .next (after s g fun _ t => arithmetic g (t.guard o.guard o.neg) o.vd.toNat
        ([(p.2.2 g.arith.rnd (t.reg o.va.toNat)).1], (p.2.2 g.arith.rnd (t.reg o.va.toNat)).2) t)) ∧
    (∀ o : V3Args, Ready s g (floatArith true true) [o.vd.toNat, o.va.toNat, o.vb.toNat] → ∀ p ∈ fusedWords,
      exec (p.1 o) s = .next (after s g fun _ t => arithmetic g (t.guard o.guard o.neg) o.vd.toNat
        ([(p.2 g.arith.rnd (t.reg o.va.toNat) (t.reg o.vb.toNat) (t.reg (thirdSource g o.vd.toNat))).1],
          (p.2 g.arith.rnd (t.reg o.va.toNat) (t.reg o.vb.toNat) (t.reg (thirdSource g o.vd.toNat))).2) t))

namespace Sys2Proof.Claims

/-- (−1)^neg × m × 2^e in units of 2^q, for q ≤ e. -/
def scaled (neg : Bool) (m : Nat) (e q : Int) : Int := (if neg = true then -1 else 1) * (m : Int) * 2 ^ (e - q).toNat

/-- m × 2^e < 2^b. -/
def under (m : Nat) (e b : Int) : Prop := ∀ q, q ≤ e → q ≤ b → m * 2 ^ (e - q).toNat < 2 ^ (b - q).toNat

/-- R110: 0 × ∞. -/
def zeroTimesInfinity (u v : FVal) : Bool := match u, v with
  | .inf _, .fin _ m _ | .fin _ m _, .inf _ => decide (m = 0)
  | _, _ => false

/-- R110: some operand is a signalling NaN. -/
def invalidOf (vs : List FVal) : BitVec 5 := if ∃ v ∈ vs, v.isSignalling = true then 1 else 0

end Sys2Proof.Claims

/-- A pattern of FP32, FP16 or BF16 stands for the number, infinity or NaN of its fields. The sum, the product and the
fused sum of finite values are the exact real numbers (a zero sum has the sign of R111), infinities and NaNs follow
R110, and no bit but NV comes from them. Rounding a value to a format gives a pattern that stands for the multiple of
the unit 2^q that the mode picks, with NX where it is inexact and UF where it is also tiny after rounding without a
lower bound of the exponent; from 2^(bias+1) on it is the overflow of R111 with OF and NX. For an exact magnitude m ×
2^e that is not already a number of units 2^q: mode RNE gives a nearest multiple and the even one of a tie; RTZ the
largest not above it; RDN and RUP the neighbour below or above in value (so by sign); RNA a nearest one, away from
zero at a tie; and the inexact mark is set exactly when the result differs from the exact value (R111, R112). A
pattern of FP32, FP16 or BF16 read and rounded back is itself without a sticky bit (the canonical NaN for a NaN), and
an overflow gives infinity or the largest finite magnitude by mode and sign. -/
def Obligations.RoundingIsCorrectInEveryMode : Prop :=
  (∀ f ∈ [fp32, fp16, bf16], ∀ neg : Bool, ∀ exponent fraction : Nat, exponent < 2 ^ (f.width - f.p) →
    fraction < 2 ^ (f.p - 1) → let top := 2 ^ (f.width - f.p) - 1
    let v := f.decode ((if neg then 2 ^ (f.width - 1) else 0) + exponent * 2 ^ (f.p - 1) + fraction)
    (exponent = 0 → v = .fin neg fraction (2 - (f.bias : Int) - f.p)) ∧
    (0 < exponent → exponent < top → v = .fin neg (2 ^ (f.p - 1) + fraction) ((exponent : Int) + 1 - f.bias - f.p)) ∧
    (exponent = top → fraction = 0 → v = .inf neg) ∧
    (exponent = top → fraction ≠ 0 → v = .nan (decide (fraction < 2 ^ (f.p - 2))))) ∧
  (∀ (mode : Nat) (a b c : Bool) (k l n : Nat) (x y z : Int),
    (∃ s m e, (FVal.fin a k x).add mode (.fin b l y) = (.fin s m e, 0) ∧
      (∀ q, q ≤ e → q ≤ x → q ≤ y → scaled s m e q = scaled a k x q + scaled b l y q) ∧
      (m = 0 → s = if a = b then a else decide (mode = 2))) ∧
    (∃ m e, (FVal.fin a k x).mul (.fin b l y) = (.fin (a != b) m e, 0) ∧
      ∀ p q, p ≤ x → q ≤ y → p + q ≤ e → scaled (a != b) m e (p + q) = scaled a k x p * scaled b l y q) ∧
    (∃ s m e, (FVal.fin a k x).fma mode (.fin b l y) (.fin c n z) = (.fin s m e, 0) ∧
      (∀ p q, p ≤ x → q ≤ y → p + q ≤ e → p + q ≤ z →
        scaled s m e (p + q) = scaled a k x p * scaled b l y q + scaled c n z (p + q)) ∧
      (m = 0 → s = if (a != b) = c then c else decide (mode = 2))) ∧
    (FVal.fin a k x).negate = .fin (!a) k x) ∧
  (∀ (mode : Nat) (a b : Bool) (k : Nat) (x : Int) (u v w : FVal),
    (FVal.inf a).add mode (.inf b) = (if a = b then (.inf a, 0) else (.nan false, 1)) ∧
    (FVal.inf a).add mode (.fin b k x) = (.inf a, 0) ∧ (FVal.fin b k x).add mode (.inf a) = (.inf a, 0) ∧
    (FVal.inf a).mul (.inf b) = (.inf (a != b), 0) ∧
    (FVal.inf a).mul (.fin b k x) = (if k = 0 then (.nan false, 1) else (.inf (a != b), 0)) ∧
    (FVal.fin b k x).mul (.inf a) = (if k = 0 then (.nan false, 1) else (.inf (a != b), 0)) ∧
    (u.isNan = true ∨ v.isNan = true → u.add mode v = (.nan false, invalidOf [u, v]) ∧
      u.mul v = (.nan false, invalidOf [u, v])) ∧
    (w.isNan = true ∨ u.isNan = true ∨ v.isNan = true → ∃ bits, u.fma mode v w = (.nan false, bits) ∧
      bits = invalidOf [u, v, w] ||| (if zeroTimesInfinity u v = true then 1 else 0)) ∧
    (u.isNan = false → v.isNan = false → w.isNan = false → u.fma mode v w =
      (((u.mul v).1.add mode w).1, (u.mul v).2 ||| ((u.mul v).1.add mode w).2))) ∧
  (∀ f ∈ [fp32, fp16, bf16], ∀ mode < 5, ∀ (neg : Bool) (m : Nat) (e : Int), 0 < m →
    let free : Int := e + Nat.log2 m + 1 - f.p
    let q : Int := max free (2 - (f.bias : Int) - f.p)
    let u := roundUnits mode neg m e q
    let r := f.round mode (.fin neg m e)
    (under u.1 q (f.bias + 1) → (∃ k x, f.decode r.1 = .fin neg k x ∧
        ∀ p, p ≤ x → p ≤ q → scaled neg k x p = scaled neg u.1 q p) ∧
      r.2.toNat % 8 = 0 ∧ r.2.getLsbD 4 = u.2 ∧
      (r.2.getLsbD 3 = true ↔ u.2 = true ∧ under (roundUnits mode neg m e free).1 free (1 - (f.bias : Int)))) ∧
    (¬ under u.1 q (f.bias + 1) → r = ((if neg then 2 ^ (f.width - 1) else 0) + f.overflow mode neg, 4 ||| 16))) ∧
  (∀ (neg : Bool) (m : Nat) (e q : Int), e < q →
    let d := 2 ^ (q - e).toNat
    let r (mode : Nat) : Nat := (roundUnits mode neg m e q).1
    (2 * ((r 0 * d : Nat) - (m : Int)).natAbs ≤ d ∧ (2 * ((r 0 * d : Nat) - (m : Int)).natAbs = d → r 0 % 2 = 0)) ∧
    (r 1 * d ≤ m ∧ m < r 1 * d + d) ∧
    (if neg then m ≤ r 2 * d ∧ r 2 * d < m + d else r 2 * d ≤ m ∧ m < r 2 * d + d) ∧
    (if neg then r 3 * d ≤ m ∧ m < r 3 * d + d else m ≤ r 3 * d ∧ r 3 * d < m + d) ∧
    (2 * ((r 4 * d : Nat) - (m : Int)).natAbs ≤ d ∧ (2 * ((r 4 * d : Nat) - (m : Int)).natAbs = d → m < r 4 * d)) ∧
    ∀ mode, (roundUnits mode neg m e q).2 = true ↔ r mode * d ≠ m) ∧
  (∀ f ∈ [fp32, fp16, bf16], ∀ x < 2 ^ f.width, ∀ mode, mode < 5 →
    f.round mode (f.decode x) = (if (f.decode x).isNan then f.canonNan else x, 0)) ∧
  (∀ neg, (fp32.overflow 0 neg, fp32.overflow 4 neg) = (0x7F800000, 0x7F800000) ∧
    fp32.overflow 1 neg = 0x7F7FFFFF) ∧
  fp32.overflow 2 false = 0x7F7FFFFF ∧ fp32.overflow 2 true = 0x7F800000 ∧
  fp32.overflow 3 false = 0x7F800000 ∧ fp32.overflow 3 true = 0x7F7FFFFF ∧
  fp32.canonNan = 0x7FC00000 ∧ fp16.canonNan = 0x7E00 ∧ bf16.canonNan = 0x7FC0

namespace Sys2Proof.Claims

/-! ## Groups of one member -/

def sfuWords : List ((SfuArgs → Instr) × Nat) :=
  [(.rcp, 0), (.rsq, 1), (.sqrt, 2), (.ex2, 3), (.lg2, 4), (.sint, 5), (.cost, 6), (.tanh, 7), (.logi, 8)]

end Sys2Proof.Claims

/-- For a ready group of one member: with its guard false an SFU word changes nothing but the place in the clause;
with it true, and room on the selected flag, it adds 1 to that flag (none for 15) and leaves one operation that holds
function, operand and mode; a false mask predicate makes it write 0 under z and nothing without. When it completes,
v[vd] of its thread (unless it has exited) holds F(a), its bits are ORed into %fpstat, its flag counts one less;
nothing else changes. The special results of R123 hold in every mode. Values that R123 only bounds are free inside the
bound (log 7); this says nothing of them. -/
def Obligations.SpecialFunctionWordsRaiseTheirFlagAndLandLater : Prop :=
  (∀ (s : State) (g : Group) (r : TRef) (w : Workgroup) (th : Thread) (o : SfuArgs), ∀ p ∈ sfuWords,
    Ready s g (floatArith (p.2 == 2) false) [o.vd.toNat, o.va.toNat] → Alone s g r w th →
    (th.pred o.guard.toNat = false → exec (p.1 o) s = .next (after s g fun _ t => t)) ∧
    (th.pred o.guard.toNat = true → flagRoom g o.fs th →
      exec (p.1 o) s = .next (afterOp s g (newOp s g r th (g.flagOf o.fs)
        (if th.pred g.arith.mask = true then .sfu p.2 (th.reg o.va.toNat) g.arith.rnd false
          else if g.arith.z = true then .sfu p.2 0 0 true else .nothing)
        o.vd.toNat (if th.pred g.arith.mask = true ∨ g.arith.z = true then 1 else 0))))) ∧
  (∀ (s : State) (o : PendingOp) (keep : Nat) (fn : Nat) (a : Word) (rnd : Nat) (zero : Bool), s.op? o.id = some o →
    o.kind = .sfu fn a rnd zero →
    exec (.sfuComplete o.id keep) s = .next (completed s o [if zero then 0 else (sfuResult fn a rnd).1]
      (if zero then 0 else (sfuResult fn a rnd).2) keep)) ∧
  ∀ rnd,
    sfuResult 0 0x00000000 rnd = (0x7F800000, 2) ∧ sfuResult 0 0x80000000 rnd = (0xFF800000, 2) ∧
    sfuResult 0 0x7F800000 rnd = (0, 0) ∧ sfuResult 0 0xFF800000 rnd = (0x80000000, 0) ∧
    sfuResult 1 0x00000000 rnd = (0x7F800000, 2) ∧ sfuResult 1 0x80000000 rnd = (0xFF800000, 2) ∧
    sfuResult 1 0x7F800000 rnd = (0, 0) ∧ (sfuResult 1 0xBF800000 rnd) = (0x7FC00000, 1) ∧
    sfuResult 2 0x80000000 rnd = (0x80000000, 0) ∧ sfuResult 2 0x7F800000 rnd = (0x7F800000, 0) ∧
    sfuResult 2 0xBF800000 rnd = (0x7FC00000, 1) ∧
    sfuResult 3 0xFF800000 rnd = (0, 0) ∧ sfuResult 3 0x7F800000 rnd = (0x7F800000, 0) ∧
    sfuResult 4 0x00000000 rnd = (0xFF800000, 2) ∧ sfuResult 4 0x7F800000 rnd = (0x7F800000, 0) ∧
    sfuResult 4 0xBF800000 rnd = (0x7FC00000, 1) ∧
    sfuResult 5 0x7F800000 rnd = (0x7FC00000, 1) ∧ sfuResult 6 0xFF800000 rnd = (0x7FC00000, 1) ∧
    sfuResult 7 0x41100000 rnd = (0x3F800000, 0) ∧ sfuResult 7 0xC1100000 rnd = (0xBF800000, 0) ∧
    sfuResult 8 0x00000000 rnd = (0x3F000000, 0) ∧ sfuResult 8 0xFF800000 rnd = (0, 0) ∧
    sfuResult 8 0x7F800000 rnd = (0x3F800000, 0) ∧
    ∀ fn, sfuResult fn 0x7FC00001 rnd = (0x7FC00000, 0) ∧ sfuResult fn 0x7F800001 rnd = (0x7FC00000, 1)

namespace Sys2Proof.Claims

/-! ## Cross-lane words (R127 to R136) -/

/-- A cross-lane word takes a hint only, and stands in a collective clause (R45, R130). -/
def crossRule : WordRule := { xlane := true }

/-- R131: what a member receives from raw relative index x. -/
def moved (o : X3Args) (counts : Bool) (w : Workgroup) (t : Thread) (x : Int) : Thread :=
  let source := w.member? t (x % (t.sgw : Int)).toNat
  let value := match source with
    | some m => m.reg o.va.toNat
    | none => t.reg o.va.toNat
  (t.setReg o.vd.toNat value).setPred o.miss.toNat (source.isNone || ((decide (x < 0) || decide ((t.sgw : Int) ≤ x)) && counts))

/-- R131: the words with an index: constructor, whether it counts a wrap, raw index of a relative index and an operand. -/
def shuffleWords : List ((X3Args → Instr) × Bool × (Nat → Nat → Int)) :=
  [(.shfi, false, fun _ x => x), (.shfu, true, fun rel x => (rel : Int) - x), (.shfd, true, fun rel x => (rel : Int) + x),
   (.shfx, false, fun rel x => (Nat.xor rel x : Nat)), (.qbc, true, fun rel x => (rel - rel % 4 + x % 4 : Nat))]

def quadWords : List ((X2Args → Instr) × Nat) := [(.qswx, 1), (.qswy, 2), (.qswd, 3)]

/-- R132: the sum of 2^rel over the members that satisfy a test. -/
def maskSum (w : Workgroup) (t : Thread) (f : Thread → Bool) : Word :=
  BitVec.ofNat 32 ((w.members t).map fun m => if f m.2 = true then 2 ^ m.1 else 0).sum

/-- R133: combining the values of the members from the first on. -/
def combined (f : Word → Word → Word) : List Word → Word
  | [] => 0
  | x :: xs => xs.foldl f x

def rediOps : List (Word → Word → Word) :=
  [fun a b => BitVec.ofNat 32 (a.toNat + b.toNat), fun a b => if a.toInt ≤ b.toInt then a else b,
   fun a b => if a.toInt ≤ b.toInt then b else a, fun a b => if a.toNat ≤ b.toNat then a else b,
   fun a b => if a.toNat ≤ b.toNat then b else a, fun a b => a &&& b, fun a b => a ||| b, fun a b => a ^^^ b]

/-- R134: one addition of the tree: rounded once where both are present, the present one unchanged, or none. -/
def treePair (x y : Option Word) : Option Word × BitVec 5 :=
  match x, y with
  | some a, some b => (some (rounded32 0 ((f32 a).add 0 (f32 b))).1, (rounded32 0 ((f32 a).add 0 (f32 b))).2)
  | some a, none | none, some a => (some a, 0)
  | none, none => (none, 0)

/-- R134: the tree of at most 32 values: each level adds the values of relative indices 2j and 2j + 1. -/
def treeOf : Nat → List (Option Word) → Word × BitVec 5
  | 0, n => ((n.headD none).getD 0, 0)
  | levels + 1, n =>
    let sums := (List.range ((n.length + 1) / 2)).map fun j => treePair (n.getD (2 * j) none) (n.getD (2 * j + 1) none)
    let r := treeOf levels (sums.map (·.1))
    (r.1, (sums.map (·.2)).foldl (fun a b => a ||| b) 0 ||| r.2)

/-- R133, R134: what REDF writes, from the values of the members by relative index (none where one has exited): the tree sum,
or the extreme of FMIN, FMAX, FMINM or FMAXM; NV for a signalling NaN among the values read. -/
def reducedFloat (op : Nat) (all : List (Option Word)) : Word × BitVec 5 :=
  let present := all.filterMap id
  let nv : BitVec 5 := if ∃ x ∈ present, (f32 x).isSignalling = true then 1 else 0
  let larger := decide (op = 2 ∨ 4 ≤ op)
  let propagate := decide (3 ≤ op)
  if op = 0 then ((treeOf 5 all).1, (treeOf 5 all).2 ||| nv)
  else (combined (fun a b => (extreme32 larger propagate a b).1) present, nv)

/-- R135: bit k of LMASK. -/
def laneBit (w : Workgroup) (t : Thread) (sel k : Nat) : Bool :=
  decide (k < t.sgw) && match sel with
    | 0 => (w.member? t k).any fun m => !m.wasHelper
    | 1 => (w.member? t k).any fun m => m.wasHelper
    | 2 => decide (k < t.rel)
    | 3 => decide (k ≤ t.rel)
    | 4 => decide (t.rel < k)
    | _ => decide (t.rel ≤ k)

end Sys2Proof.Claims

/-- For a ready group that holds every member of its sub-groups that has not exited, each member receives in v[vd] the
v[va] that the member of relative index RawIndex mod W held before the word, or its own where that one has exited;
p[miss] says that the source has exited or, for the words that count it, that the index left 0 to W − 1; a write to p0
is discarded. SGSET before another word of its clause sets the width of every home warp of which the group holds every
thread that has not exited, and tells each member in p[miss]; threads keep the width read at the clause start. Nothing
else changes. -/
def Obligations.ShufflesQuadExchangesAndTheSubgroupWidth : Prop :=
  ∀ (s : State) (g : Group), Together s g →
    (∀ o : X3Args, Ready s g crossRule ([o.vd.toNat, o.va.toNat] ++ if o.imm then [] else [o.vb.toNat]) →
      ∀ p ∈ shuffleWords, exec (p.1 o) s = .next (after s g fun w t =>
        moved o p.2.1 w t (p.2.2 t.rel (if o.imm then o.vb.toNat else (t.reg o.vb.toNat).toNat)))) ∧
    (∀ o : X2Args, Ready s g crossRule [o.vd.toNat, o.va.toNat] →
      ∀ p ∈ quadWords, exec (p.1 o) s = .next (after s g fun w t =>
        moved { vd := o.vd, va := o.va, vb := 0, miss := o.miss, imm := true } true w t (Nat.xor t.rel p.2 : Nat))) ∧
    (∀ o : XSetArgs, Ready s g crossRule [] → 2 ≤ g.ctx.left → (∀ v ∈ s.wgs, ∀ w ∈ s.wgs, v.id = w.id → v = w) →
      exec (.sgset o) s = .next (withWarps
        (fun w x => if (w.id, x.id) ∈ s.homeWarps g ∧ w.wholeWarp x.id g.id = true then { x with sgw := o.imm.toNat } else x)
        (after s g fun w t => t.setPred o.miss.toNat (!w.wholeWarp t.warp g.id))))

/-- For a ready group that holds every member of its sub-groups that has not exited: the votes write p[miss] from
p[pa] of those members, VBAL and MATCH the sum of 2^rel over the members that have the predicate or hold the caller's
32 bits (MATCH also whether all do), REDI the combination of their values, REDF the sum in the fixed tree of R134 (at
each level the values of relative indices 2j and 2j + 1 are added and rounded once to FP32 in RNE, a single one passes
unchanged) or the smallest or largest value, with the sticky bits of every addition and NV for a signalling NaN, both
with p[miss] = some member has exited, and LMASK the bits of its selector below W. Every source is read before a
destination is written, and nothing else changes. -/
def Obligations.VotesBallotsAndReductionsCombineTheSubgroup : Prop :=
  ∀ (s : State) (g : Group), Together s g →
    (∀ o : XVoteArgs, Ready s g crossRule [] →
      exec (.vany o) s = .next (after s g fun w t =>
        t.setPred o.miss.toNat ((w.members t).any fun m => m.2.pred o.pa.toNat)) ∧
      exec (.vall o) s = .next (after s g fun w t =>
        t.setPred o.miss.toNat ((w.members t).all fun m => m.2.pred o.pa.toNat))) ∧
    (∀ o : XBalArgs, Ready s g crossRule [o.vd.toNat] →
      exec (.vbal o) s = .next (after s g fun w t =>
        t.setReg o.vd.toNat (maskSum w t fun m => m.pred o.pa.toNat))) ∧
    (∀ o : X2Args, Ready s g crossRule [o.vd.toNat, o.va.toNat] →
      exec (.matchX o) s = .next (after s g fun w t =>
        (t.setReg o.vd.toNat (maskSum w t fun m => m.reg o.va.toNat == t.reg o.va.toNat)).setPred o.miss.toNat
          ((w.members t).all fun m => m.2.reg o.va.toNat == t.reg o.va.toNat))) ∧
    (∀ o : XRedArgs, Ready s g crossRule [o.vd.toNat, o.va.toNat] →
      (∀ f, rediOps[o.op.toNat]? = some f → exec (.redi o) s = .next (after s g fun w t =>
        (t.setReg o.vd.toNat (combined f ((w.members t).map fun m => m.2.reg o.va.toNat))).setPred o.miss.toNat
          (decide ((w.members t).length < t.sgw)))) ∧
      exec (.redf o) s = .next (after s g fun w t =>
        let r := reducedFloat o.op.toNat ((List.range t.sgw).map fun k => (w.member? t k).map fun m => m.reg o.va.toNat)
        ((t.setReg o.vd.toNat r.1).setPred o.miss.toNat (decide ((w.members t).length < t.sgw))).orFpstat r.2)) ∧
    (∀ o : XMaskArgs, Ready s g crossRule [o.vd.toNat] →
      ∃ m : Workgroup → Thread → Word, exec (.lmask o) s = .next (after s g fun w t => t.setReg o.vd.toNat (m w t)) ∧
        ∀ w t k, k < 32 → (m w t).getLsbD k = laneBit w t o.sel.toNat k)

namespace Sys2Proof.Claims

/-! ## Compares and predicates (R73 to R76) -/

/-- R73: the words: condition on integers (with `both` = a AND b is not 0), whether a NaN sets NV, the result on a NaN. -/
def compareWords : List ((CmpArgs → Instr) × (Int → Int → Bool → Bool) × Bool × Bool) :=
  [(.ceq, fun a b _ => decide (a = b), false, false), (.cne, fun a b _ => decide (a ≠ b), false, true),
   (.clt, fun a b _ => decide (a < b), true, false), (.cle, fun a b _ => decide (a ≤ b), true, false),
   (.cgt, fun a b _ => decide (b < a), true, false), (.cge, fun a b _ => decide (b ≤ a), true, false),
   (.ctany, fun _ _ both => both, false, true), (.ctnone, fun _ _ both => !both, false, false)]

/-- R73: the result and the sticky bits. -/
def compared (f : Int → Int → Bool → Bool) (ordered onNan : Bool) (o : CmpArgs) (t : Thread) : Bool × BitVec 5 :=
  let a := t.reg o.va.toNat
  let b := t.reg o.vb.toNat
  if o.type.toNat = 0 then (f a.toInt b.toInt (decide (a &&& b ≠ 0)), 0)
  else if o.type.toNat = 1 then (f a.toNat b.toNat (decide (a &&& b ≠ 0)), 0)
  else if o.type.toNat = 2 then
    if (f32 a).isNan || (f32 b).isNan then
      (onNan, if ordered || (f32 a).isSignalling || (f32 b).isSignalling then 1 else 0)
    else (f (fp32.orderKey a.toNat) (fp32.orderKey b.toNat) false, 0)
  else
    let x := pairOf t o.va.toNat
    let y := pairOf t o.vb.toNat
    (f x.toInt y.toInt (decide (x &&& y ≠ 0)), 0)

/-- R74: both predicates, from the old p[pd1] and the result. -/
def predicatesOf (ctype : Nat) (old r : Bool) : Bool × Bool :=
  if ctype = 7 then (old && r, old && !r)
  else
    let n := match ctype with
      | 2 => old && r
      | 3 => old || r
      | 4 => old && !r
      | 5 => old || !r
      | 6 => old ^^ r
      | _ => r
    (n, !n)

/-- R76. -/
def predicateWords : List ((P3Args → Instr) × (Bool → Bool → Bool)) :=
  [(.pand, fun a b => a && b), (.por, fun a b => a || b), (.pxor, fun a b => a ^^ b), (.pandn, fun a b => a && !b)]

def hintRule : WordRule := {}

end Sys2Proof.Claims

/-- For a ready group, a compare takes its result from signed, unsigned, FP32 or signed 64-bit operands (R73; NaNs
give the value of the table, and set NV for LT, LE, GT, GE or when signalling), and writes pd1 and pd2 by ctype from
the old p[pd1] (R74); with a false guard only SETZ writes, zeros; p0 is never written; nothing else changes. -/
def Obligations.ComparesWriteTheirPredicatesByType : Prop :=
  ∀ (s : State) (g : Group) (o : CmpArgs),
    Ready s g hintRule (if o.type.toNat = 3 then [o.va.toNat, o.va.toNat + 1, o.vb.toNat, o.vb.toNat + 1]
      else [o.va.toNat, o.vb.toNat]) → ∀ p ∈ compareWords,
    exec (p.1 o) s = .next (after s g fun _ t =>
      if t.pred o.guard.toNat = true then
        let r := compared p.2.1 p.2.2.1 p.2.2.2 o t
        let n := predicatesOf o.ctype.toNat (t.pred o.pd1.toNat) r.1
        ((t.setPred o.pd1.toNat n.1).setPred o.pd2.toNat n.2).orFpstat r.2
      else if o.ctype.toNat = 1 then (t.setPred o.pd1.toNat false).setPred o.pd2.toNat false
      else t)

namespace Sys2Proof.Claims

/-- Group g issues next, with a member, at a clause start or among the words of a clause. -/
def Standing (s : State) (g : Group) (header : Bool) : Prop :=
  s.current = some g ∧ s.groups.find? (·.id == g.id) = some g ∧ s.active g ≠ [] ∧ g.atHeader = header ∧
    ∀ w ∈ s.wgs, ∀ t ∈ w.threads, t.late = none ∧ (inGroup g t → t.executes = true)

/-- R76: a field that must be 0 is not, in a predicate-logic word of some func, or its guard is p0 negated. -/
def badPredicateWord (w : Word) : Prop :=
  let func := w.toNat / 2 ^ 22 % 16
  let pa := w.toNat / 2 ^ 16 % 8
  let pb := w.toNat / 2 ^ 13 % 8
  let imm := w.toNat / 2 ^ 12 % 2
  w.toNat / 2 ^ 4 % 2 ^ 8 ≠ 0 ∨ w.toNat % 16 = 1 ∨ (func ≤ 5 ∧ imm ≠ 0) ∨ (4 ≤ func ∧ pb ≠ 0) ∨ (func = 6 ∧ pa ≠ 0)

/-- A prefix or an extension word before a word, alone or behind a hint, and its address. -/
def ModifiedBy (m : Mods) (pc : DWord) : Prop :=
  (∃ e, m = { Mods.none with hint := m.hint, ext := some (pc, e) }) ∨
    (∃ a, m = { Mods.none with hint := m.hint, arith := some (pc, a) }) ∨
    ∃ x, m = { Mods.none with hint := m.hint, mem := some (pc, x) }

end Sys2Proof.Claims

/-- For a ready group, each predicate-logic word writes p[pd] as its table says in the members whose guard is true and
nothing where it is false; a write to p0 is discarded and p0 reads 1. A word of major 0x18 and func 0 to 6 whose field
that must be 0 is not, or whose guard is p0 negated, is refused with ILLEGAL_ENCODING, and every other one is a
predicate-logic word; 0x6019_4000 is PAND p3, p1, p2 and 0x61A8_1000 is PSETI p5, 1. Behind a prefix or an extension
word every member parks with ILLEGAL_PREFIX. -/
def Obligations.PredicateLogicWritesOnePredicate : Prop :=
  (∀ (s : State) (g : Group), Ready s g hintRule [] →
    (∀ o : P3Args, ∀ p ∈ predicateWords, exec (p.1 o) s = .next (after s g fun _ t =>
      if t.guard o.guard o.neg = true then t.setPred o.pd.toNat (p.2 (t.pred o.pa.toNat) (t.pred o.pb.toNat)) else t)) ∧
    (∀ o : P2Args,
      exec (.pnot o) s = .next (after s g fun _ t =>
        if t.guard o.guard o.neg = true then t.setPred o.pd.toNat (!t.pred o.pa.toNat) else t) ∧
      exec (.pmov o) s = .next (after s g fun _ t =>
        if t.guard o.guard o.neg = true then t.setPred o.pd.toNat (t.pred o.pa.toNat) else t)) ∧
    (∀ o : PIArgs, exec (.pseti o) s = .next (after s g fun _ t =>
      if t.guard o.guard o.neg = true then t.setPred o.pd.toNat o.imm else t))) ∧
  (∀ (t : Thread) (b : Bool), t.pred 0 = true ∧ t.setPred 0 b = t ∧
    ∀ n k : BitVec 3, n ≠ 0 → (t.setPred n.toNat b).pred k.toNat = if k = n then b else t.pred k.toNat) ∧
  (∀ w m : Word, w.toNat / 2 ^ 26 = 0x18 → w.toNat / 2 ^ 22 % 16 ≤ 6 →
    (badPredicateWord w → decode w m = .error .illegalEncoding) ∧ (¬ badPredicateWord w → ∃ i, decode w m = .ok i ∧
      ((∃ o, ∃ p ∈ predicateWords, i = p.1 o) ∨ (∃ o, i = .pnot o) ∨ (∃ o, i = .pmov o) ∨ ∃ o, i = .pseti o))) ∧
  (∀ m : Word, decode 0x60194000 m = .ok (.pand { pd := 3, pa := 1, pb := 2, guard := 0, neg := false }) ∧
    decode 0x61A81000 m = .ok (.pseti { pd := 5, imm := true, guard := 0, neg := false })) ∧
  (∀ (s : State) (g : Group) (pc : DWord), Standing s g false → 1 ≤ g.ctx.left → ModifiedBy g.mods pc →
    (∀ o : P3Args, ∀ p ∈ predicateWords, exec (p.1 o) s = .next (after s g fun _ t => t.raise { code := 0x03 } (g.site pc))) ∧
    (∀ o : P2Args, exec (.pnot o) s = .next (after s g fun _ t => t.raise { code := 0x03 } (g.site pc)) ∧
      exec (.pmov o) s = .next (after s g fun _ t => t.raise { code := 0x03 } (g.site pc))) ∧
    ∀ o : PIArgs, exec (.pseti o) s = .next (after s g fun _ t => t.raise { code := 0x03 } (g.site pc)))

namespace Sys2Proof.Claims

/-! ## Transfers and control (R77 to R86) -/

/-- R77, R79: the link and the depth. -/
def linkedBy (call ret : Bool) (link : DWord) (t : Thread) : Thread :=
  if call then { t.setRegs 14 (words link) with depth := min (t.depth + 1) 65535 }
  else if ret then { t with depth := t.depth - 1 } else t

/-- R69: a thread finishes its clause: with y = 1 it is yield-marked. -/
def finished (g : Group) (t : Thread) : Thread := { t with yieldMark := if g.ctx.y = true then some 0 else t.yieldMark }

/-- R80: a thread takes a transfer to a target. -/
def transferred (s : State) (g : Group) (call ret : Bool) (w : Workgroup) (t : Thread) (target : DWord) : Thread :=
  if target.toNat % 4 ≠ 0 ∨ 2 ^ 57 ≤ target.toNat then t.raise { code := 0x04, addr := target } (g.site g.pc)
  else match s.fetchWord w.core w.part target with
    | .error c => (finished g (linkedBy call ret (g.pc + 4) t)).raise { code := c, addr := target }
        { pc := target, resume := target, resumeIn := none, next := target, nextIn := none }
    | .ok x => if majorOf x = 0x3F then { linkedBy call ret (g.pc + 4) t with pc := target }
        else (finished g (linkedBy call ret (g.pc + 4) t)).raise { code := 0x04, addr := target }
          { pc := target, resume := target, resumeIn := none, next := target, nextIn := none }

/-- A word that must be the last of its clause (R32). -/
def lastRule : WordRule := { last := true }

end Sys2Proof.Claims

/-- For a ready group at the last word of its clause, a member with a true guard goes to PC + 4 × off18 (BRA, CALL),
to the pair (BRX, CALLX) or to v14:v15 (RET), read before any write; CALL and CALLX put PC + 4 into v14:v15 and add 1
to the depth up to 65,535, RET takes 1 from it down to 0. A target with a bit of [1:0] or [63:57] set faults
BAD_TARGET at the word with nothing changed; a target whose fetch faults, or that holds no clause header, faults at
the target with link and depth updated, the clause finished (R69). With a false guard the thread continues behind the
word. Nothing else changes. -/
def Obligations.TransfersGoToTheirTargetAndLink : Prop :=
  ∀ (s : State) (g : Group),
    (∀ o : BrArgs,
      (Ready s g lastRule [] → exec (.bra o) s = .next (after s g fun w t =>
        if t.guard o.guard o.neg = true then
          transferred s g false false w t (g.pc + 4 * BitVec.ofInt 64 o.off.toInt) else t)) ∧
      (Ready s g lastRule [14, 15] → exec (.call o) s = .next (after s g fun w t =>
        if t.guard o.guard o.neg = true then
          transferred s g true false w t (g.pc + 4 * BitVec.ofInt 64 o.off.toInt) else t))) ∧
    (∀ o : CtlJArgs,
      (Ready s g lastRule [o.va.toNat, o.va.toNat + 1] → exec (.brx o) s = .next (after s g fun w t =>
        if t.guard o.guard o.neg = true then transferred s g false false w t (pairOf t o.va.toNat) else t)) ∧
      (Ready s g lastRule [14, 15, o.va.toNat, o.va.toNat + 1] → exec (.callx o) s = .next (after s g fun w t =>
        if t.guard o.guard o.neg = true then transferred s g true false w t (pairOf t o.va.toNat) else t))) ∧
    (∀ o : CtlGArgs, Ready s g lastRule [14, 15] → exec (.ret o) s = .next (after s g fun w t =>
      if t.guard o.guard o.neg = true then transferred s g false true w t (pairOf t 14) else t))

namespace Sys2Proof.Claims

/-- Threads, workgroups and the members of the group are named by their references, once each. -/
def Named (s : State) (g : Group) : Prop :=
  ∀ w ∈ s.wgs, s.wg? w.id = some w ∧ ∀ t ∈ w.threads, w.thread? t.warp t.lane = some t ∧
    (inGroup g t ↔ t.ref w.id ∈ g.members)

/-- A workgroup's barrier with other contents. -/
def withBarrier (wg b : Nat) (x : Barrier) (s : State) : State :=
  { s with wgs := s.wgs.map fun w => if w.id = wg then { w with barriers := w.barriers.setIfInBounds b x } else w }

/-- Barrier b of a workgroup. -/
def barrierOf (w : Workgroup) (b : Nat) : Barrier := w.barriers.toList.getD b Barrier.reset

/-- R298: what the completion of a phase of b does to a thread of the workgroup: its wait on the phase is over. -/
def releasedBy (b now : Nat) (t : Thread) : Thread :=
  let waits (h : Option Hold) : Bool := match h with
    | some (.barrier k _) => k == b
    | _ => false
  let t := if waits t.kept = true then { t with kept := none } else t
  if waits t.hold = true then { t with hold := none, readyAt := now } else t

/-- The threads of one workgroup, changed. -/
def inWorkgroup (wg : Nat) (f : Thread → Thread) (s : State) : State :=
  { s with wgs := s.wgs.map fun w => if w.id = wg then { w with threads := w.threads.map f } else w }

/-- R300: the threads that have not exited. -/
def remaining (w : Workgroup) : Nat := (w.threads.filter fun t => t.status ≠ .exited).length

/-- R82: a thread that has ended is out of every group and wait. -/
def ended (t : Thread) : Thread :=
  { t with status := .exited, group := none, hold := none, watch := none, collSince := none }

end Sys2Proof.Claims

/-- For a ready group: DEMOTE makes a live member a helper and leaves a helper as it is, YIELD yield-marks the member
and changes nothing else, NOP changes nothing, BKPT faults with its code in the register-number field, recorded and
resumed at the next word; EXIT at the last word of its clause makes each member with a true guard exited and out of
every group and wait (also where other members of the group go on, stated where no arrival at b0 is held), and the
count of b0 falls as R300 says: where the threads that have not exited are no more than the arrival set, the phase of
b0 completes: its phase bit flips, its set is empty, every thread that waits on it goes on, and a held arrival enters
the next phase. With a false guard each changes nothing. -/
def Obligations.ControlWordsEndDemoteMarkAndBreak : Prop :=
  (∀ (s : State) (g : Group) (o : CtlGArgs),
    (Ready s g hintRule [] →
      exec (.demote o) s = .next (after s g fun _ t =>
        if t.guard o.guard o.neg = true ∧ t.status = .live then { t with status := .helper } else t) ∧
      exec (.yield o) s = .next (after s g fun _ t =>
        if t.guard o.guard o.neg = true then { t with yieldMark := some 0 } else t) ∧
      exec (.nop o) s = .next (after s g fun _ t => t) ∧
      ∀ b : CtlBArgs, exec (.bkpt b) s = .next (after s g fun _ t =>
        if t.guard b.guard b.neg = true then t.raise { code := 0x41, reg := b.code.toNat }
          { pc := g.pc + 4, resume := g.pc + 4, resumeIn := g.ctx.step, next := g.pc + 4, nextIn := g.ctx.step }
        else t)) ∧
    (∀ (r : TRef) (w : Workgroup) (th : Thread), Ready s g lastRule [] → Alone s g r w th →
      (th.guard o.guard o.neg = false → exec (.exit o) s = .next (after s g fun _ t => t)) ∧
      (th.guard o.guard o.neg = true →
        exec (.exit o) s = .next ((after s g fun _ t => ended t).recountB0 r.wg))) ∧
    (Ready s g lastRule [] → Named s g → (∀ w ∈ s.wgs, ∀ t ∈ w.threads, inGroup g t → t.hold = none) →
      (∀ w ∈ s.wgs, w.heldArrivals 0 = []) → exec (.exit o) s = .next
        (((s.active g).filter fun r => (s.thread? r).any fun t => t.guard o.guard o.neg).foldl
          (fun u r => u.recountB0 r.wg)
          (after s g fun _ t => if t.guard o.guard o.neg = true then ended t else t)))) ∧
  (∀ (s : State) (w : Workgroup), s.wg? w.id = some w → let x := barrierOf w 0
    (x.arrivals = [] ∨ x.arrivals.length < remaining w → s.recountB0 w.id = s) ∧
    (x.arrivals ≠ [] → remaining w ≤ x.arrivals.length → w.heldArrivals 0 = [] → s.recountB0 w.id =
      withBarrier w.id 0 { Barrier.reset with phase := !x.phase } (inWorkgroup w.id (releasedBy 0 s.time) s)) ∧
    (x.arrivals ≠ [] → remaining w ≤ x.arrivals.length → ∀ h c site since, w.heldArrivals 0 = [h] →
      h.hold = some (.arrival 0 c true since site) → w.thread? h.warp h.lane = some h → 2 ≤ remaining w →
      s.recountB0 w.id = withBarrier w.id 0 ⟨!x.phase, [h.ref w.id], remaining w, false, some s.time⟩
        (inWorkgroup w.id (fun t => if t.warp = h.warp ∧ t.lane = h.lane then
            { releasedBy 0 s.time t with hold := some (.barrier 0 site), readyAt := s.time }
          else releasedBy 0 s.time t) s)))

namespace Sys2Proof.Claims

/-! ## Headers and modifier words (R29, R31, R37) -/

/-- The members go behind the word that they have read, and the group is changed by f. -/
def readInto (s : State) (g : Group) (f : Group → Group) : State :=
  { s with wgs := s.wgs.map fun w => withThreads w (workedThreads g (fun _ t => t) w),
           groups := s.groups.map fun x => if x.id = g.id then f x else x, picks := s.picks.tail }

/-- A modifier word read into the group. -/
def behindModifier (g : Group) (m : Mods) (x : Group) : Group :=
  { x with pc := g.pc + 4, ctx := { g.ctx with left := g.ctx.left - 1 }, mods := m }

end Sys2Proof.Claims

/-- A group at a clause start reads its header: its clause has L words with the header's flags, y and c (the wait mask
is applied when the group forms). Among the words of a clause a hint with no modifier before it, a prefix with neither
prefix nor extension before it, and an extension word with none before it, each with a word behind it, wait for their
instruction with their address. A header among a clause's words faults ILLEGAL_ENCODING in every member, behind
modifier words ILLEGAL_PREFIX at the first of them; a modifier word out of order, repeated or last in its clause
faults ILLEGAL_PREFIX in every member, recorded at itself, with the address behind the instruction that it stands
before as the next address. That a header behind modifier words is ILLEGAL_PREFIX at the first of them, and where the
next address of a misplaced modifier word lies, is the model's choice (log 24), not a rule's words. -/
def Obligations.HeadersOpenClausesAndModifiersAreReadInOrder : Prop :=
  ∀ (s : State) (g : Group),
    (∀ o : HeaderArgs, Standing s g true → 1 ≤ o.len.toNat → exec (.clauseHeader o) s = .next (readInto s g fun x =>
      { x with pc := g.pc + 4, atHeader := false, mods := Mods.none,
               ctx := { hdr := g.pc, left := o.len.toNat, fa := o.fa, fb := o.fb, y := o.y, c := o.c } })) ∧
    (Standing s g false → 2 ≤ g.ctx.left →
      (∀ o, g.mods = Mods.none → exec (.hint o) s =
        .next (readInto s g (behindModifier g { g.mods with hint := some (g.pc, o) }))) ∧
      (g.mods.arith = none → g.mods.mem = none → g.mods.ext = none →
        (∀ o, exec (.arithmeticPrefix o) s =
          .next (readInto s g (behindModifier g { g.mods with arith := some (g.pc, o) }))) ∧
        (∀ o, exec (.memoryPrefix o) s =
          .next (readInto s g (behindModifier g { g.mods with mem := some (g.pc, o) })))) ∧
      (g.mods.ext = none → ∀ o, exec (.immediateExtension o) s =
        .next (readInto s g (behindModifier g { g.mods with ext := some (g.pc, o.ext) })))) ∧
    (∀ c pc, Standing s g false → (g.mods = Mods.none ∧ c = codeIllegalEncoding ∧ pc = g.pc) ∨
        (g.mods ≠ Mods.none ∧ c = codeIllegalPrefix ∧ pc = g.pc - BitVec.ofNat 64 (4 * g.mods.count)) →
      ∀ o, exec (.clauseHeader o) s = .next (after s g fun _ t => t.raise { code := c } (g.site pc))) ∧
    (Standing s g false → 1 ≤ g.ctx.left →
      (∀ o, g.mods ≠ Mods.none ∨ g.ctx.left = 1 → exec (.hint o) s =
        .next (after s g fun _ t => t.raise { code := codeIllegalPrefix } (s.modifierSite g))) ∧
      (∀ o, g.mods.ext ≠ none ∨ g.ctx.left = 1 → exec (.immediateExtension o) s =
        .next (after s g fun _ t => t.raise { code := codeIllegalPrefix } (s.modifierSite g))) ∧
      (g.mods.arith ≠ none ∨ g.mods.mem ≠ none ∨ g.mods.ext ≠ none ∨ g.ctx.left = 1 →
        (∀ o, exec (.arithmeticPrefix o) s =
          .next (after s g fun _ t => t.raise { code := codeIllegalPrefix } (s.modifierSite g))) ∧
        ∀ o, exec (.memoryPrefix o) s =
          .next (after s g fun _ t => t.raise { code := codeIllegalPrefix } (s.modifierSite g)))) ∧
    (Standing s g false → 1 ≤ g.ctx.left → let x := s.modifierSite g
      x.pc = g.pc ∧ x.resume = (g.site g.pc).resume ∧ x.resumeIn = (g.site g.pc).resumeIn ∧
      (g.ctx.left = 1 → x.next = g.pc + 4 ∧ x.nextIn = none) ∧
      (2 ≤ g.ctx.left → ∀ w, s.fetchWord g.core (s.groupPart g) (g.pc + 4) = .ok w →
        w.toNat / 2 ^ 26 < 60 ∨ w.toNat / 2 ^ 26 = 63 → x.next = g.pc + 8 ∧
          x.nextIn = if g.ctx.left = 2 then none else some { g.ctx with left := g.ctx.left - 2 }))

namespace Sys2Proof.Claims

/-- A word does not stand where it may: not last in its clause though a transfer (R32), outside a collective clause though
cross-lane (R45), FENCE with sc = 1 without a prefix of order 3 (R192), ACAS without a prefix that names its compare
operand (R189). -/
def outOfPlace (g : Group) (rule : WordRule) : Prop :=
  (rule.last = true ∧ g.ctx.left ≠ 1) ∨ (rule.xlane = true ∧ g.ctx.c = false) ∨
    (rule.sc = true ∧ ∀ pc x, g.mods.mem = some (pc, x) → x.order ≠ 3) ∨
    ((rule.v4 = .compare ∨ rule.v4 = .comparePair) ∧ (∀ pc a, g.mods.arith = some (pc, a) → a.v4 = 0) ∧
      ∀ pc x, g.mods.arith = none → g.mods.mem = some (pc, x) → x.v4 = 0)

/-- The prefix read before a word (R37 lets one only stand there): its address and its register field. -/
def prefixRead (m : Mods) : Option (DWord × BitVec 6) :=
  match m.arith, m.mem with
  | some (pc, a), _ => some (pc, a.v4)
  | none, some (pc, x) => some (pc, x.v4)
  | none, none => none

/-- R48: the prefix names an odd register where the word takes a pair. -/
def oddPair (g : Group) (rule : WordRule) : Prop :=
  (rule.v4 = .pair ∨ rule.v4 = .comparePair) ∧ ∃ pc n, prefixRead g.mods = some (pc, n) ∧ n.toNat % 2 = 1

/-- R43, R44: the word does not take its prefix: of the other kind, with a rounding mode or an order that it does not take, or
with a register that it has no use for. -/
def refusesPrefix (g : Group) (rule : WordRule) : Prop :=
  (∃ pc a, g.mods.arith = some (pc, a) ∧ (rule.prefixKind ≠ .arith ∨ (a.rnd ≠ 0 ∧ rule.rnd = false) ∨
    (a.v4 ≠ 0 ∧ rule.v4 = .none))) ∨
  (g.mods.arith = none ∧ ∃ pc x, g.mods.mem = some (pc, x) ∧ (rule.prefixKind ≠ .mem ∨ x.order.toNat ∉ rule.orders ∨
    (x.v4 ≠ 0 ∧ rule.v4 = .none)))

/-- R41: an extension word before a word that has no immediate. -/
def refusesExtension (g : Group) (rule : WordRule) : Prop := g.mods.ext ≠ none ∧ rule.ext = false

/-- Every member of g, which stands in its place, parks at a word with a code of R371, recorded at an address. -/
def faultsWith (i : Instr) (s : State) (g : Group) (code : BitVec 8) (pc : DWord) : Prop :=
  exec i s = .next (after s g fun _ t => t.raise { code := code } (g.site pc))

/-- The decoding faults of a word that follows a rule: which code, and which word is recorded. -/
def Decodes (rule : WordRule) (i : Instr) : Prop :=
  ∀ (s : State) (g : Group) (header : Bool), Standing s g header →
    (header = true → faultsWith i s g 0x02 g.pc) ∧
    (header = false →
      (outOfPlace g rule → faultsWith i s g 0x02 g.pc) ∧
      (¬ outOfPlace g rule → oddPair g rule → ∀ x, prefixRead g.mods = some x → faultsWith i s g 0x02 x.1) ∧
      (¬ outOfPlace g rule → ¬ oddPair g rule →
        (refusesPrefix g rule → ∀ x, prefixRead g.mods = some x → faultsWith i s g 0x03 x.1) ∧
        (¬ refusesPrefix g rule → refusesExtension g rule → ∀ x, g.mods.ext = some x → faultsWith i s g 0x03 x.1)))

end Sys2Proof.Claims

/-- A word at a clause start that is no header, a transfer that is not last in its clause, a cross-lane word outside a
collective clause, a FENCE with sc = 1 without a prefix of order 3, and an ACAS or ACAS64 whose prefix names no
compare operand park every member with ILLEGAL_ENCODING (0x02) recorded at the word; else an odd register of a prefix
before a word that takes a pair does so recorded at the prefix. Else a prefix that the word does not take (of the
other kind, with a mode or order that it does not take, or naming a register where it has no third source) parks every
member with ILLEGAL_PREFIX (0x03) recorded at the prefix, and else an extension word before a word without an
immediate does so recorded at the extension word. The word has no other effect. Stated for the words of the
arithmetic, float, SFU, warp-register, compare, cross-lane, transfer, load, store, atomic and fence families with what
each takes; a group meets none of this exactly when its word stands in its place with modifier words that it takes,
which is what the other statements suppose. -/
def Obligations.DecodingFaultsParkEveryMember : Prop :=
  (∀ (g : Group) (rule : WordRule), g.wordFault rule = none ↔ g.atHeader = false ∧ ¬ outOfPlace g rule ∧
    ¬ oddPair g rule ∧ ¬ refusesPrefix g rule ∧ ¬ refusesExtension g rule) ∧
  (∀ o : V3Args, (∀ i ∈ arithmeticWords ++ logicWords ++ fieldWords.map (·.1) ++ [.add64, .sub64, .shl64, .shr64],
      Decodes plainArith (i o)) ∧
    (∀ p ∈ thirdWords, Decodes { plainArith with v4 := .reg } (p.1 o)) ∧
    (∀ p ∈ wideWords, Decodes { plainArith with v4 := .pair } (p.1 o)) ∧
    (∀ p ∈ floatWords, Decodes (floatArith p.2.1 false) (p.1 o)) ∧
    ∀ p ∈ fusedWords, Decodes (floatArith true true) (p.1 o)) ∧
  (∀ o : VIArgs, ∀ i ∈ arithmeticImmediates ++ logicImmediates, Decodes { plainArith with ext := true } (i o)) ∧
  (∀ o : V2Args, (∀ p ∈ unaryWords, Decodes plainArith (p.1 o)) ∧
    ∀ p ∈ floatUnaryWords, Decodes (floatArith p.2.1 false) (p.1 o)) ∧
  (∀ o : SfuArgs, ∀ p ∈ sfuWords, Decodes (floatArith (p.2 == 2) false) (p.1 o)) ∧
  (∀ o : W3Args, ∀ p ∈ warpWords, Decodes {} (p.1 o)) ∧ (∀ o : CmpArgs, ∀ p ∈ compareWords, Decodes {} (p.1 o)) ∧
  (∀ o : X3Args, ∀ p ∈ shuffleWords, Decodes crossRule (p.1 o)) ∧
  (∀ o : XRedArgs, Decodes crossRule (.redi o) ∧ Decodes crossRule (.redf o)) ∧
  (∀ o : BrArgs, Decodes lastRule (.bra o) ∧ Decodes lastRule (.call o)) ∧
  (∀ o : CtlJArgs, Decodes lastRule (.brx o) ∧ Decodes lastRule (.callx o)) ∧
  (∀ o : CtlGArgs, Decodes lastRule (.ret o) ∧ Decodes lastRule (.exit o) ∧ Decodes {} (.demote o)) ∧
  (∀ o : MArgs, (∀ i ∈ [Instr.ld8z, .ld8s, .ld16z, .ld16s, .ld32, .ld64, .ld128, .ldf32, .ldfb16],
      Decodes { ext := true, prefixKind := .mem, orders := [0, 1] } (i o)) ∧
    Decodes { ext := true, prefixKind := .mem, orders := [0, 1, 2, 3] } (.aadd o) ∧
    Decodes { ext := true, prefixKind := .mem, orders := [0, 1, 2, 3], v4 := .compare } (.acas o) ∧
    Decodes { ext := true, prefixKind := .mem, orders := [0, 1, 2, 3], v4 := .comparePair } (.acas64 o)) ∧
  (∀ o : MSArgs, ∀ i ∈ [Instr.st8, .st16, .st32, .st64, .st128, .radd],
    Decodes { ext := true, prefixKind := .mem, orders := [0, 2] } (i o)) ∧
  ∀ o : FenArgs, Decodes { prefixKind := .mem, orders := [0, 1, 2, 3], sc := o.sc } (.fence o)

namespace Sys2Proof.Claims

/-! ## Accesses of threads (R156 to R164) -/

/-- R158: a word of format M: an extension word, and a memory prefix of some orders. -/
def accessRule (orders : List Nat) (third : V4Use) : WordRule :=
  { ext := true, prefixKind := .mem, orders := orders, v4 := third }

/-- The registers of an address (R46). -/
def addressed (mode : Bool) (vo : BitVec 6) : List Nat := if mode then [vo.toNat, vo.toNat + 1] else [vo.toNat]

/-- k registers from n on. -/
def registers (n k : Nat) : List Nat := (List.range k).map (n + ·)

/-- R156, steps 2 to 4, with the codes of R371: an address outside the range, one that is not a multiple of n, one that no
leaf maps, the rights of the leaf, a format that no access may use (R150). -/
def checked (s : State) (core part : Nat) (va : DWord) (n : Nat) (need : Rights) : Except FaultDetail Leaf :=
  if 2 ^ 57 ≤ va.toNat then .error { code := 0x12, addr := va }
  else if va.toNat % n ≠ 0 then .error { code := 0x10, addr := va }
  else match s.findLeaf core part va.toNat with
    | .error c => .error { code := c, addr := va }
    | .ok l =>
      if (need.r && !l.r) || (need.w && !l.w) || (need.x && !l.x) then .error { code := 0x12, addr := va }
      else if 7 ≤ l.format then .error { code := 0x15, addr := va, gen := l.gen }
      else .ok l

/-- R150, R389: the page of the metadata entry of the block at an address: PROTECTION where meta_base lies outside the address
space, then the checks of an access of 2 bytes; it is a plain page. -/
def entryPage (s : State) (core part : Nat) (l : Leaf) (va : DWord) (need : Rights) : Except FaultDetail Leaf :=
  let e := entryAddress l va.toNat
  if 2 ^ 57 ≤ l.metaBase.toNat then .error { code := 0x12, addr := e }
  else match checked s core part e 2 need with
    | .error d => .error d
    | .ok m => if m.format = 0 then .ok m else .error { code := 0x15, addr := e, gen := m.gen }

/-- R161: the further checks of a decoding load. -/
def decodable (s : State) (core part : Nat) (va : DWord) : Except FaultDetail (Leaf × Leaf) :=
  match checked s core part va 1 { r := true } with
  | .error d => .error d
  | .ok l =>
    if l.format = 0 then .error { code := 0x15, addr := va, gen := l.gen }
    else if va.toNat % (blockWidth l.format / 2) ≠ 0 then .error { code := 0x10, addr := va, gen := l.gen }
    else match entryPage s core part l va { r := true } with
      | .error d => .error d
      | .ok m => .ok (l, m)

/-- The one member parks with a fault of the word's issue (R368). -/
def parkedAt (s : State) (g : Group) (d : FaultDetail) : State := after s g fun _ t => t.raise d (g.site g.pc)

/-- The bytes at an address that a leaf maps, to be accessed with an order and scope. -/
def reaching (va : DWord) (n : Nat) (l : Leaf) (order scope : Nat) : Access :=
  { va := va.toNat, pa := l.pa + (va.toNat - l.vbase), size := n, leaf := l, order := order, scope := scope }

/-- One more access is outstanding, and the TLBs hold its translation (R392). -/
def issued (s : State) (g : Group) (r : TRef) (w : Workgroup) (th : Thread) (flag : Option Nat) (l : Leaf)
    (kind : OpKind) (dst ndst : Nat) : State :=
  (afterOp s g (newOp s g r th flag kind dst ndst)).tlbInsert w.core w.part l

/-- R160: the plain loads: func, bytes, registers, and the words that some bytes give. -/
def loads : List ((MArgs → Instr) × Nat × Nat × Nat) :=
  [(.ld8z, 0, 1, 1), (.ld8s, 1, 1, 1), (.ld16z, 2, 2, 1), (.ld16s, 3, 2, 1), (.ld32, 4, 4, 1), (.ld64, 5, 8, 2),
   (.ld128, 6, 16, 4)]

/-- R160: the words that a func makes of the bytes it has read. -/
def loaded (func : Nat) (bs : List Byte) : List Word :=
  let x (i n : Nat) : Nat := ofLe ((bs.drop i).take n)
  match func with
  | 0 => [BitVec.ofNat 32 (x 0 1)]
  | 1 => [BitVec.ofInt 32 (BitVec.ofNat 8 (x 0 1)).toInt]
  | 2 => [BitVec.ofNat 32 (x 0 2)]
  | 3 => [BitVec.ofInt 32 (BitVec.ofNat 16 (x 0 2)).toInt]
  | 4 => [BitVec.ofNat 32 (x 0 4)]
  | 5 => [BitVec.ofNat 32 (x 0 4), BitVec.ofNat 32 (x 4 4)]
  | _ => [BitVec.ofNat 32 (x 0 4), BitVec.ofNat 32 (x 4 4), BitVec.ofNat 32 (x 8 4), BitVec.ofNat 32 (x 12 4)]

/-- R156 step 6: the home agent serves the access at once, under its generation. -/
def Granted (s : State) (a : Access) (write : Bool) : Prop := s.poolServes a.pa write = true ∧ s.genOk a.leaf a.pa = true

/-- R14: a line of L2 is or can be allocated for sector n, and no other leaves for it. -/
def RoomInL2 (s : State) (n : Nat) : Prop := s.l2.length < 4096 ∨ ∃ x ∈ s.l2, x.sector / 8 = n / 8

/-- R185: what a core's L1 holds of the line of an address came with a generation. -/
def FreshLine (s : State) (core pa : Nat) (gen : BitVec 16) : Prop :=
  ∀ x, (s.core core).l1Line? (pa / 128) = some x → x.gen = gen

/-- R15: a core's L1 holds the line of an address under a generation, or has room for it. -/
def LineRoom (s : State) (core pa : Nat) (gen : BitVec 16) : Prop :=
  FreshLine s core pa gen ∧
    (((s.core core).l1Line? (pa / 128)).isSome ∨ (s.core core).l1.length < s.l1Capacity core)

/-- The bytes lie in one sector, which L2 holds without poison or can bring in with its own keys; no error of the memory is
to come (R145, R151, R152). -/
def Plain (s : State) (pa n : Nat) (l : Leaf) : Prop :=
  pa % 128 + n ≤ 128 ∧ match s.l2Sector? (pa / 128) with
    | some x => x.data.length = 128 ∧ ∀ u ∈ x.bad, ¬(u.1 * 64 < pa + n ∧ pa < u.1 * 64 + 64)
    | none => RoomInL2 s (pa / 128) ∧ s.damage = [] ∧ ∀ u ∈ [pa / 128 * 2, pa / 128 * 2 + 1],
        s.isCleared (u * 64) = true ∨ (s.sameKeys u l.fold l.open_ = true ∧ ∀ x ∈ s.poison, x.1 ≠ u)

/-- The bytes of an access as a core finds them: in its L1, or to be had from L2 or the tier without a fault. -/
def Readable (s : State) (core : Nat) (a : Access) : Prop :=
  let pa := s.homeAddr a.pa
  pa % 128 + a.size ≤ 128 ∧ FreshLine s core pa a.leaf.gen ∧
    ((∀ i < a.size, (s.l1Byte? core (pa + i)).isSome = true) ∨
      (Plain s pa a.size a.leaf ∧ LineRoom s core pa a.leaf.gen))

/-- R168: the counter of a latency in clk. -/
def latencyCounter (d : Nat) : Nat := ([1024, 1280, 1536, 2048, 3072, 4096, 8192].filter (· ≤ d)).length

/-- R168: a core's latency counters once a load has counted, where one of its accesses went beyond L1. -/
def latencies (x : Vector (BitVec 64) 8) (beyond : Prop) (y : Vector (BitVec 64) 8) (d : Nat) : Prop :=
  (¬ beyond → y = x) ∧ (beyond → ∀ k < 8, y.toList.getD k 0 = (let old := x.toList.getD k 0
    if k = latencyCounter d ∧ old.toNat + 1 < 2 ^ 64 then old + 1 else old))

/-! ## Elements of a block (R195 to R203) -/

/-- R199, R200: a small float: exponent field e, fraction f of k bits. -/
def smallNumber (neg : Bool) (e f k : Nat) (bias : Int) : FVal :=
  if e = 0 then .fin neg f (1 - bias - k) else .fin neg (2 ^ k + f) (e - bias - k)

/-- R199 to R201: two's complement of w bits. -/
def integerCode (w c : Nat) : FVal := if c < 2 ^ (w - 1) then .fin false c 0 else .fin true (2 ^ w - c) 0

/-- R199 to R201: the value of a code of a width under a selector. -/
def elementOf (width sel c : Nat) : FVal :=
  let s8 := decide (128 ≤ c)
  let s4 := decide (8 ≤ c)
  if width = 8 then match sel with
    | 0 => integerCode 8 c
    | 1 => if c % 128 = 127 then .nan false else smallNumber s8 (c / 8 % 16) (c % 8) 3 7
    | 2 => if c / 4 % 32 = 31 then (if c % 4 = 0 then .inf s8 else .nan false)
        else smallNumber s8 (c / 4 % 32) (c % 4) 2 15
    | _ => if c / 16 % 8 = 7 then .nan false else smallNumber s8 (c / 16 % 8) (c % 16) 4 3
  else if width = 4 then match sel with
    | 0 => integerCode 4 c
    | 1 => smallNumber s4 (c / 2 % 4) (c % 2) 1 1
    | 2 => .fin (decide (c < 7)) ([32, 24, 18, 13, 9, 6, 3, 0, 2, 5, 8, 12, 16, 21, 26, 32].getD c 0) (-5)
    | _ => if c % 8 = 0 then .fin s4 0 0 else .fin s4 1 (Int.ofNat (c % 8) - 4)
  else match sel with
    | 0 => integerCode 2 c
    | 1 => .fin (decide (c = 2)) (if c = 1 ∨ c = 2 then 1 else 0) 0
    | _ => .fin (decide (c < 2)) (if c = 0 ∨ c = 3 then 3 else 1) (-1)

/-- R202: element k of a YLX index: signs in bits 9 to 15, the last by parity, magnitudes from the codebook. -/
def latticeElement (index k : Nat) : FVal :=
  let sign (i : Nat) : Nat := index / 2 ^ (9 + i) % 2
  let last := ([0, 1, 2, 3, 4, 5, 6].map sign).sum % 2
  .fin (decide ((if k = 7 then last else sign k) = 1)) ((ylxBook.getD (index % 512) []).getD k 0) (-1)

/-- A value times 2^k. -/
def timesPower (k : Int) : FVal → FVal
  | .fin n m e => .fin n m (e + k)
  | x => x

/-- R195, R203: the k-th of the four elements whose data starts at an address, from the bytes read there and the block's
entry. -/
def elementAt (fmt : Nat) (entry va : Nat) (bs : List Byte) (k : Nat) : FVal :=
  let byte (i : Nat) : Nat := (bs.getD i 0).toNat
  let sel : Nat := entry / 2 ^ 8 % 4
  let scale : Nat := entry % 2 ^ 8
  let width : Nat := blockWidth fmt
  if scale = 255 then .nan false
  else timesPower ((scale : Int) - 127) (
    if width = 2 ∧ sel = 3 then latticeElement (byte 0 + 256 * byte 1) (va % 2 * 4 + k)
    else elementOf width sel (
      if width = 8 then byte k else if width = 4 then byte (k / 2) / 16 ^ (k % 2) % 16 else byte (va % 2) / 4 ^ k % 4))

/-- R197: the check of an entry's ten bits. -/
def checkBits (m : Nat) : Nat :=
  ((List.range 10).filter fun i => m.testBit i).foldl (fun c i => c ^^^ [3, 6, 7, 5, 1, 2, 4, 3, 6, 7].getD i 0) 0

/-- R198: an entry is valid. -/
abbrev ValidEntry (e : Nat) : Prop := e / 2 ^ 13 = 0 ∧ e / 2 ^ 10 % 8 = checkBits (e % 2 ^ 10)

/-- R204: what LDF32 (func 7) and LDFB16 (func 8) return of four elements, and the sticky bits of their roundings. -/
def returned (func : Nat) (x : Nat → FVal) : List Word × BitVec 5 :=
  let f : Fmt := if func = 7 then fp32 else bf16
  let r (k : Nat) : Nat × BitVec 5 := f.round 0 (x k)
  (if func = 7 then [0, 1, 2, 3].map fun k => BitVec.ofNat 32 (r k).1
    else [BitVec.ofNat 32 ((r 1).1 * 2 ^ 16 + (r 0).1), BitVec.ofNat 32 ((r 3).1 * 2 ^ 16 + (r 2).1)],
    (r 0).2 ||| (r 1).2 ||| (r 2).2 ||| (r 3).2)

/-- No FENCE waits. -/
def NoFence (s : State) : Prop := ∀ f ∈ s.ops, match f.kind with | .fence .. => False | _ => True

/-- The operation of a state with a number, which may perform now, for a core of the package. -/
def Performs (s : State) (o : PendingOp) : Prop :=
  s.op? o.id = some o ∧ s.opWaits o = false ∧ NoFence s ∧ s.opCore o < s.cores.length

/-- R178: no store is seen early by the threads of its core, but for one operation. -/
def NoneSeenBut (s : State) (o : PendingOp) : Prop := ∀ y ∈ s.ops, y ≠ o → y.seen = none

/-- R178: a store that has reached its core's L1, and those before it its home slice. -/
def Seen (s : State) (o : PendingOp) : Prop :=
  s.op? o.id = some o ∧ o.seen.isSome = true ∧ s.followsSeen o = false ∧ NoFence s ∧ s.opCore o < s.cores.length

end Sys2Proof.Claims

/-- For a ready group of one member, a load forms its address (R46) and checks it in the order of R156: a fault of a
check parks the member with the address recorded; else the selected flag counts one more and one access of the word's
bytes is outstanding, no register written yet. A decoding load checks the page format, then its alignment, then the
page of the metadata entry, and its access is of both (R161). With its guard false the word changes nothing but the
place in the clause. -/
def Obligations.LoadWordsLeaveOneCheckedAccess : Prop :=
  ∀ (s : State) (g : Group) (r : TRef) (w : Workgroup) (th : Thread) (o : MArgs), Alone s g r w th →
    (∀ p ∈ loads, Ready s g (accessRule [0, 1] .none) (registers o.vd.toNat p.2.2.2 ++ addressed o.mode o.vo) →
      let va := s.address g r th o.mode o.wb o.vo
      (th.pred o.guard.toNat = false → exec (p.1 o) s = .next (after s g fun _ t => t)) ∧
      (th.pred o.guard.toNat = true → flagRoom g o.fs th →
        exec (p.1 o) s = .next (match checked s w.core w.part va p.2.2.1 { r := true } with
          | .error d => parkedAt s g d
          | .ok l => issued s g r w th (g.flagOf o.fs) l (.load p.2.1 (reaching va p.2.2.1 l g.order g.scope) none)
              o.vd.toNat p.2.2.2))) ∧
    (∀ p ∈ [(Instr.ldf32, 7, 4), (Instr.ldfb16, 8, 2)],
      Ready s g (accessRule [0, 1] .none) (registers o.vd.toNat p.2.2 ++ addressed o.mode o.vo) →
      let va := s.address g r th o.mode o.wb o.vo
      (th.pred o.guard.toNat = false → exec (p.1 o) s = .next (after s g fun _ t => t)) ∧
      (th.pred o.guard.toNat = true → flagRoom g o.fs th →
        exec (p.1 o) s = .next (match decodable s w.core w.part va with
          | .error d => parkedAt s g d
          | .ok (l, m) =>
            let n := max 2 (blockWidth l.format / 2)
            (issued s g r w th (g.flagOf o.fs) l (.load p.2.1 { reaching (va - BitVec.ofNat 64 (va.toNat % n)) n l
              g.order g.scope with va := va.toNat } (some (reaching (entryAddress l va.toNat) 2 m 0 g.scope)))
              o.vd.toNat p.2.2).tlbInsert w.core w.part m)))

/-- When a plain load that no earlier access holds back meets its home agent without a fault, its thread (unless
exited) receives in v[vd] and the registers behind it the little-endian words of the bytes that its core reads at the
address, extended as its func says; its flag counts one less, the operation is gone, every other register and thread
is as before, and, for a relaxed load, every byte of memory reads as before everywhere; where a byte came from beyond
L1 the latency counter of R168 counts it (for each thread of the word, log 10). LDF32 and LDFB16 decode the four
elements at their address with the block's entry (R195, R199 to R203) and write them rounded to FP32, or to BF16 two
to a register, with the sticky bits of the roundings (R204); an invalid entry parks the thread with SEL_CHECK at the
entry's address, its registers kept. A line that L1 got under another generation is dropped before an access meets it,
and its stored bytes take no effect where the frame's generation has passed them (R185, log 26): the other clauses are
about lines of the access's own generation. `keep` keeps a register overwritten since (R35). -/
def Obligations.LoadsReturnTheBytesOfMemory : Prop :=
  (∀ (s : State) (o : PendingOp) (keep : Nat) (func : Nat) (a : Access), Performs s o → o.kind = .load func a none → func < 7 →
    a.size = [1, 1, 2, 2, 4, 8, 16].getD func 0 → Granted s a false → Readable s (s.opCore o) a →
    ∃ t, exec (.loadComplete o.id keep) s = .next t ∧
      t.wgs = (completed s o (loaded func (s.coreBytes (s.opCore o) (s.homeAddr a.pa) a.size)) 0 keep).wgs ∧
      t.ops = s.ops.filter (·.id != o.id) ∧ (a.order = 0 → SameBytes { s with wgs := t.wgs } t) ∧
      latencies (s.core (s.opCore o)).lathist (∃ i < a.size, s.l1Byte? (s.opCore o) (s.homeAddr a.pa + i) = none)
        (t.core (s.opCore o)).lathist (s.time - o.issued)) ∧
  (∀ (s : State) (o : PendingOp) (keep : Nat) (func : Nat) (a e : Access), Performs s o → o.kind = .load func a (some e) →
    func = 7 ∨ func = 8 → 1 ≤ a.leaf.format → a.leaf.format ≤ 6 → a.leaf.vbase % 4096 = 0 → a.leaf.vbase ≤ a.va →
    a.va % (blockWidth a.leaf.format / 2) = 0 → a.size = max 2 (blockWidth a.leaf.format / 2) → e.size = 2 →
    Granted s e false → Granted s a false → Readable s (s.opCore o) e → Readable s (s.opCore o) a →
    s.l2.length + 2 ≤ 4096 → (s.core (s.opCore o)).l1.length + 2 ≤ s.l1Capacity (s.opCore o) →
    (s.homeAddr e.pa / 128 = s.homeAddr a.pa / 128 → e.leaf.gen = a.leaf.gen) →
    let entry := ofLe (s.coreBytes (s.opCore o) (s.homeAddr e.pa) 2)
    let r := returned func (elementAt a.leaf.format entry a.va (s.coreBytes (s.opCore o) (s.homeAddr a.pa) a.size))
    (ValidEntry entry → ∃ t, exec (.loadComplete o.id keep) s = .next t ∧
      t.wgs = (completed s o r.1 r.2 keep).wgs ∧ t.ops = s.ops.filter (·.id != o.id) ∧
      (a.order = 0 → e.order = 0 → SameBytes { s with wgs := t.wgs } t) ∧
      latencies (s.core (s.opCore o)).lathist (∃ x ∈ [a, e], ∃ i < x.size,
        s.l1Byte? (s.opCore o) (s.homeAddr x.pa + i) = none) (t.core (s.opCore o)).lathist (s.time - o.issued)) ∧
    (¬ ValidEntry entry → ∀ (r : TRef) (th : Thread), o.who = [r] → s.thread? r = some th → th.executes = true →
      th.late = none → ∃ t u, exec (.loadComplete o.id keep) s = .next t ∧ t.ops = s.ops.filter (·.id != o.id) ∧
        t.thread? r = some u ∧ u.isParked = true ∧ u.fcode = 0x16 ∧ u.faddr = BitVec.ofNat 64 e.va ∧ u.v = th.v ∧
        u.fpstat = th.fpstat ∧ u.flags = (th.subFlag o.flag).flags)) ∧
  (∀ (s : State) (core line : Nat) (gen : BitVec 16) (l : L1Line), (s.core core).l1Line? line = some l →
    (l.gen = gen → s.l1Renew core line gen = s) ∧
    (l.gen ≠ gen → ((s.l1Renew core line gen).core core).l1Line? line = none ∧
      (s.genCurrent line l.gen = false → (s.l1Renew core line gen).mem = s.mem ∧ (s.l1Renew core line gen).l2 = s.l2)))

namespace Sys2Proof.Claims

/-- R162: the stores: bytes and source registers. -/
def stores : List ((MSArgs → Instr) × Nat × Nat) :=
  [(.st8, 1, 1), (.st16, 2, 1), (.st32, 4, 1), (.st64, 8, 2), (.st128, 16, 4)]

/-- R162: the bytes of the source registers. -/
def sourceBytes (th : Thread) (n bytes : Nat) : List Byte :=
  ((registers n 4).flatMap fun k => leBytes 4 (th.reg k).toNat).take bytes

/-- R191: the REDM words and the ATOM func of their number. -/
def reductions : List ((MSArgs → Instr) × Nat) :=
  [(.radd, 0), (.rmins, 1), (.rmaxs, 2), (.rminz, 3), (.rmaxz, 4), (.rand, 5), (.ror, 6), (.rxor, 7), (.rswp, 8),
   (.rfadd, 12), (.radd64, 13)]

/-- An operand of 4 or 8 bytes. -/
def operand (th : Thread) (n bytes : Nat) : DWord :=
  if bytes = 8 then pairOf th n else BitVec.ofNat 64 (th.reg n).toNat

/-- R83, R156: a store, reduction or cache word: a helper's is checked for range and alignment and does nothing; a live
thread's checked access is outstanding, and counts on no flag. -/
def written (s : State) (g : Group) (r : TRef) (w : Workgroup) (th : Thread) (va : DWord) (n : Nat) (need : Rights)
    (kind : Leaf → OpKind) : State :=
  if th.status = .helper then
    if 2 ^ 57 ≤ va.toNat then parkedAt s g { code := 0x12, addr := va }
    else if va.toNat % n ≠ 0 then parkedAt s g { code := 0x10, addr := va }
    else after s g fun _ t => t
  else match checked s w.core w.part va n need with
    | .error d => parkedAt s g d
    | .ok l => issued s g r w th none l (kind l) 0 0

/-- R360: a member that stays live is tainted. -/
def tainted (r : TRef) (t : State) : State :=
  t.updThread r fun x => if x.status = .live then { x with taint := true } else x

end Sys2Proof.Claims

/-- For a ready group of one member, a store or reduction forms its address, checks it in the order of R156 with W
rights (a fault parks the member), and leaves one access with its order and scope that holds the bytes or the operand
read now; no flag moves, no register changes. A helper's is checked for range and alignment only and does nothing else
(R83). A live member that executed a reduction is tainted (R360). With its guard false the word changes nothing but
the place in the clause. -/
def Obligations.StoresAndReductionsLeaveOneCheckedAccess : Prop :=
  ∀ (s : State) (g : Group) (r : TRef) (w : Workgroup) (th : Thread) (o : MSArgs), Alone s g r w th →
    (∀ p ∈ stores, Ready s g (accessRule [0, 2] .none) (registers o.vs.toNat p.2.2 ++ addressed o.mode o.vo) →
      let va := s.address g r th o.mode o.wb o.vo
      (th.pred o.guard.toNat = false → exec (p.1 o) s = .next (after s g fun _ t => t)) ∧
      (th.pred o.guard.toNat = true → exec (p.1 o) s = .next (written s g r w th va p.2.1 { w := true } fun l =>
        .store (reaching va p.2.1 l g.order g.scope) (sourceBytes th o.vs.toNat p.2.1)))) ∧
    (∀ p ∈ reductions, let n := if p.2 = 13 then 8 else 4
      Ready s g (accessRule [0, 2] .none) (registers o.vs.toNat (n / 4) ++ addressed o.mode o.vo) →
      let va := s.address g r th o.mode o.wb o.vo
      (th.pred o.guard.toNat = false → exec (p.1 o) s = .next (after s g fun _ t => t)) ∧
      (th.pred o.guard.toNat = true → exec (p.1 o) s = .next (tainted r (written s g r w th va n { w := true } fun l =>
        .redm p.2 (reaching va n l g.order g.scope) (operand th o.vs.toNat n)))))

/-- A store to a read-shared or coherent page first reaches its core's L1: from then on its core's threads read the
stored bytes, while no other core, L2 and the tiers hold anything new (R178; that this is a step of its own is the
model's choice, log 10). When a store (private, or seen in this way, the stores to its bytes that were seen before it
gone) is served by its home agent, at its acknowledgement or later when it waited for pool ownership (R420), its core
reads the stored bytes at the address, L2 holds them too unless the page is private (R146), and the operation is gone.
For a relaxed store every other byte that its core reads, every byte that another core reads if the page is private,
every byte of the tiers and of the scratchpads is unchanged. A store that its home agent rejects with GEN_STALE is
dropped: no byte and no thread changes, and one record of kind 5 names the code, the program counter, the address and
the generation that it carried. One that lacks pool ownership keeps waiting: in host-assisted mode with one such
record of code MIGRATION, once, in hardware mode with none yet; its thread runs on. -/
def Obligations.StoresWriteTheirBytesAndNoOthers : Prop :=
  ∀ (s : State) (o : PendingOp) (a : Access) (bs : List Byte), o.kind = .store a bs → bs.length = a.size →
    1 ≤ a.size →
    let pa := s.homeAddr a.pa
    let core := s.opCore o
    (Performs s o → o.seen = none → FreshLine s core pa a.leaf.gen → a.leaf.cls ≠ .priv → s.genOk a.leaf a.pa = true → pa % 128 + a.size ≤ 128 →
      (∀ y ∈ s.ops, y.id = o.id → y = o) → (∀ y ∈ s.ops, ∀ k ∈ y.seen, k.1 < s.nextId) →
      ∃ t, exec (.storeAcknowledgement o.id) s = .next t ∧ t.wgs = s.wgs ∧ t.l2 = s.l2 ∧ t.mem = s.mem ∧
        t.ops = s.ops.map (fun y => if y.id = o.id then { y with seen := some (s.nextId, core) } else y) ∧
        (∀ i < a.size, t.coreByte core (pa + i) = bs.getD i 0) ∧
        (∀ x, (x < pa ∨ pa + a.size ≤ x) → t.coreByte core x = s.coreByte core x) ∧
        ∀ n x, n ≠ core → t.coreByte n x = s.coreByte n x) ∧
    ((Performs s o ∧ o.seen = none ∧ a.leaf.cls = .priv ∧ LineRoom s core pa a.leaf.gen) ∨ (Seen s o ∧ a.leaf.cls ≠ .priv) →
      Granted s a true → FreshLine s core pa a.leaf.gen → Plain s pa a.size a.leaf → NoneSeenBut s o →
      ∀ i ∈ Instr.storeAcknowledgement o.id :: (if o.waiting.isSome then [Instr.deferredStorePerform o.id] else []),
      ∃ t, exec i s = .next t ∧ t.ops = s.ops.filter (·.id != o.id) ∧
        (∀ i < a.size, t.coreByte core (pa + i) = bs.getD i 0) ∧
        (a.leaf.cls ≠ .priv → ∀ i < a.size, t.l2Byte (pa + i) = bs.getD i 0) ∧
        (a.order = 0 →
          (∀ x, (x < pa ∨ pa + a.size ≤ x) → t.coreByte core x = s.coreByte core x) ∧
          (a.leaf.cls = .priv → ∀ n x, n ≠ core → t.coreByte n x = s.coreByte n x) ∧
          (∀ x, t.tierByte x = s.tierByte x) ∧ t.wgs.map (·.scratch) = s.wgs.map (·.scratch))) ∧
    (∀ (r : TRef) (w : Workgroup), (Performs s o ∧ o.seen = none ∧ (a.leaf.cls = .priv ∨ s.genOk a.leaf a.pa = false)) ∨ Seen s o →
      o.who = [r] → o.flag = none → s.wg? r.wg = some w →
      let report (t : State) (code : BitVec 8) : Prop := ∃ z,
        (t.core core).records ++ (t.core core).unformed = (s.core core).records ++ (s.core core).unformed ++ [z] ∧
        z.kind = 5 ∧ z.code = code ∧ z.pc = o.site.pc ∧ z.addr = BitVec.ofNat 64 a.va ∧ z.gen = a.leaf.gen ∧
        z.warp = r.warp ∧ z.lane = r.lane ∧ z.slot = w.slot ∧ z.handle = w.handle ∧ z.core = core
      (s.poolServes a.pa true = true → s.genOk a.leaf a.pa = false → ∃ t,
        exec (.storeAcknowledgement o.id) s = .next t ∧ t.ops = s.ops.filter (·.id != o.id) ∧ t.wgs = s.wgs ∧
        t.mem = s.mem ∧ t.l2 = s.l2 ∧ (∀ c, (t.core c).l1 = (s.core c).l1) ∧ report t 0x13) ∧
      (s.poolServes a.pa true = false → s.poolHw (s.opPart o) = false →
        (o.reported = true → exec (.storeAcknowledgement o.id) s = .next s) ∧
        (o.reported = false → ∃ t, exec (.storeAcknowledgement o.id) s = .next t ∧
          t.ops = s.ops.map (fun y => if y.id = o.id then
            { y with waiting := some (y.waiting.getD s.time), reported := true } else y) ∧
          t.wgs = s.wgs ∧ t.mem = s.mem ∧ t.l2 = s.l2 ∧ (∀ c, (t.core c).l1 = (s.core c).l1) ∧ report t 0x14)) ∧
      (s.poolServes a.pa true = false → s.poolHw (s.opPart o) = true → ∃ t,
        exec (.storeAcknowledgement o.id) s = .next t ∧ t.wgs = s.wgs ∧ t.mem = s.mem ∧ t.l2 = s.l2 ∧ t.cores = s.cores ∧
        t.ops = s.ops.map (fun y => if y.id = o.id then { y with waiting := some (y.waiting.getD s.time) } else y)))

namespace Sys2Proof.Claims

/-! ## Scratchpad (R144, R163, R164) -/

/-- R155, R156: the checks of a scratchpad access. -/
def windowFault (w : Workgroup) (a : DWord) (n : Nat) : Option FaultDetail :=
  if w.window < a.toNat + n then some { code := 0x12, addr := a }
  else if a.toNat % n ≠ 0 then some { code := 0x10, addr := a } else none

def spadLoads : List ((SpArgs → Instr) × Nat × Nat) :=
  [(.lds32, 0, 1), (.lds64, 1, 2), (.lds128, 2, 4), (.atsadd, 6, 1), (.atsmax, 7, 1)]

def spadStores : List ((SpSArgs → Instr) × Nat) := [(.sts32, 1), (.sts64, 2), (.sts128, 4)]

/-- The bytes of a func of R163. -/
def spadBytes (func : Nat) : Nat := if func = 1 then 8 else if func = 2 then 16 else 4

/-- One workgroup's window with some bytes written. -/
def withWindow (wg a : Nat) (bs : List Byte) (s : State) : State :=
  { s with wgs := s.wgs.map fun w => if w.id = wg then { w with scratch := Memory.setBytes w.scratch a bs } else w }

/-- The word of four bytes at an offset of a window. -/
def windowWord (w : Workgroup) (a : Nat) : Word := BitVec.ofNat 32 (ofLe (Memory.getBytes w.scratch a 4))

end Sys2Proof.Claims

/-- For a ready group of one member: an LDS or ATS word whose bytes lie in the window of its workgroup (PROTECTION
otherwise) and are aligned (ALIGN otherwise) raises its flag and leaves one operation; when that completes, v[vd] and
the registers behind it hold the words of the window, and ATSADD or ATSMAX has written the sum or the signed larger of
the former word and v[vd], which it returns. STS writes its registers at issue. A helper writes nothing. Nothing else
changes. That STS acts at its issue and LDS and ATS words at an event of their own is the model's choice (log 10). -/
def Obligations.ScratchpadWordsReadAndWriteTheirWindow : Prop :=
  (∀ (s : State) (g : Group) (r : TRef) (w : Workgroup) (th : Thread) (o : SpArgs), Alone s g r w th → ∀ p ∈ spadLoads,
    Ready s g { ext := true } (o.vo.toNat :: registers o.vd.toNat p.2.2) →
    let a := g.spadAddress th o.vo
    (th.pred o.guard.toNat = false → exec (p.1 o) s = .next (after s g fun _ t => t)) ∧
    (th.pred o.guard.toNat = true → flagRoom g o.fs th →
      exec (p.1 o) s = .next (match windowFault w a (spadBytes p.2.1) with
        | some d => parkedAt s g d
        | none => afterOp s g (newOp s g r th (g.flagOf o.fs)
            (.spad p.2.1 a.toNat (th.reg o.vd.toNat) (th.status == .helper)) o.vd.toNat p.2.2)))) ∧
  (∀ (s : State) (g : Group) (r : TRef) (w : Workgroup) (th : Thread) (o : SpSArgs), Alone s g r w th → ∀ p ∈ spadStores,
    Ready s g { ext := true } (o.vo.toNat :: registers o.vs.toNat p.2) →
    let a := g.spadAddress th o.vo
    (th.pred o.guard.toNat = false → exec (p.1 o) s = .next (after s g fun _ t => t)) ∧
    (th.pred o.guard.toNat = true → s.spadMustWait r (spadFoot a (4 * p.2) true) = false →
      exec (p.1 o) s = .next (match windowFault w a (4 * p.2) with
        | some d => parkedAt s g d
        | none => if th.status = .helper then after s g fun _ t => t
            else withWindow r.wg a.toNat (sourceBytes th o.vs.toNat (4 * p.2)) (after s g fun _ t => t)))) ∧
  (∀ (s : State) (o : PendingOp) (keep : Nat) (func a : Nat) (x : Word) (helper : Bool) (w : Workgroup) (r : TRef),
    Performs s o → o.kind = .spad func a x helper → o.who = [r] → s.wg? r.wg = some w →
    (func ≤ 2 → exec (.spadLoadComplete o.id keep) s = .next (completed s o
      ((List.range (spadBytes func / 4)).map fun i => windowWord w (a + 4 * i)) 0 keep)) ∧
    (func = 6 ∨ func = 7 →
      let old := windowWord w a
      let new := if func = 6 then BitVec.ofNat 32 (old.toNat + x.toNat) else if old.toInt ≤ x.toInt then x else old
      exec (.spadLoadComplete o.id keep) s = .next (completed
        (if helper then s else withWindow r.wg a (leBytes 4 new.toNat) s) o [old] 0 keep)))

namespace Sys2Proof.Claims

/-! ## Atomic words (R186 to R191) -/

def atomics : List ((MArgs → Instr) × Nat × V4Use) :=
  [(.aadd, 0, .none), (.amins, 1, .none), (.amaxs, 2, .none), (.aminz, 3, .none), (.amaxz, 4, .none), (.aand, 5, .none),
   (.aor, 6, .none), (.axor, 7, .none), (.aswp, 8, .none), (.acas, 9, .compare), (.aincw, 10, .none),
   (.adecw, 11, .none), (.afadd, 12, .none), (.aadd64, 13, .none), (.acas64, 14, .comparePair), (.aswp64, 15, .none)]

/-- R189: Op of a func on the former value, the operand and the compare operand; none writes nothing. -/
def atomResult (func old x c : Nat) : Option Nat × BitVec 5 :=
  let s (n : Nat) : Int := (BitVec.ofNat 32 n).toInt
  match func with
  | 0 => (some ((old + x) % 2 ^ 32), 0)
  | 1 => (some (if s old ≤ s x then old else x), 0)
  | 2 => (some (if s old ≤ s x then x else old), 0)
  | 3 => (some (min old x), 0)
  | 4 => (some (max old x), 0)
  | 5 => (some (old &&& x), 0)
  | 6 => (some (old ||| x), 0)
  | 7 => (some (old ^^^ x), 0)
  | 9 => (if old = c then some x else none, 0)
  | 10 => (some (if x ≤ old then 0 else old + 1), 0)
  | 11 => (some (if old = 0 ∨ x < old then x else old - 1), 0)
  | 12 => let r := rounded32 0 ((f32 (BitVec.ofNat 32 old)).add 0 (f32 (BitVec.ofNat 32 x)))
      (some r.1.toNat, r.2)
  | 13 => (some ((old + x) % 2 ^ 64), 0)
  | 14 => (if old = c then some x else none, 0)
  | _ => (some x, 0)

/-- R187: an atomic word of scope .wg on a private page is performed in L1. -/
def inL1 (a : Access) : Bool := decide (a.scope = 0) && a.leaf.cls == .priv

/-- R187: what comes before the atomic word: on a private page the write-back of its line. -/
def beforeAtomic (s : State) (core : Nat) (a : Access) : State :=
  if a.leaf.cls == .priv && !inL1 a then
    (s.l1WriteBack core (s.homeAddr a.pa / 128)).l1Drop core (s.homeAddr a.pa / 128) else s

/-- The value where the word acts: in its L1, or at the home slice. -/
def valueAt (s : State) (core pa : Nat) (a : Access) : Nat :=
  ofLe (if inL1 a then s.coreBytes core pa a.size else s.l2Bytes pa a.size)

end Sys2Proof.Claims

/-- For a ready group of one member, an ATOM word takes its operand from v[vd] (a pair for funcs 13 to 15) and its
compare operand from the prefix's v4 (required for ACAS and ACAS64), checks its address in the order of R156 with R
and W rights, and leaves one access of 4 or 8 bytes on the selected flag; a live member is tainted (R360). A helper's
becomes a relaxed load at .pkg that needs R (R83, R186). With its guard false the word changes nothing but the place
in the clause. -/
def Obligations.AtomicWordsLeaveOneCheckedAccess : Prop :=
  ∀ (s : State) (g : Group) (r : TRef) (w : Workgroup) (th : Thread) (o : MArgs), Alone s g r w th → ∀ p ∈ atomics,
    let n := if 13 ≤ p.2.1 then 8 else 4
    Ready s g (accessRule [0, 1, 2, 3] p.2.2) (registers o.vd.toNat (n / 4) ++ addressed o.mode o.vo) →
    let va := s.address g r th o.mode o.wb o.vo
    let x := operand th o.vd.toNat n
    let c := operand th g.mods.v4.1 n
    (th.pred o.guard.toNat = false → exec (p.1 o) s = .next (after s g fun _ t => t)) ∧
    (th.pred o.guard.toNat = true → flagRoom g o.fs th → exec (p.1 o) s = .next (tainted r (
      if th.status = .helper then match checked s w.core w.part va n { r := true } with
        | .error d => parkedAt s g d
        | .ok l => issued s g r w th (g.flagOf o.fs) l (.atom p.2.1 (reaching va n l 0 2) x c true) o.vd.toNat (n / 4)
      else match checked s w.core w.part va n { r := true, w := true } with
        | .error d => parkedAt s g d
        | .ok l => issued s g r w th (g.flagOf o.fs) l (.atom p.2.1 (reaching va n l g.order g.scope) x c false)
            o.vd.toNat (n / 4))))

/-- When an atomic access that no earlier access holds back is served by its home agent, the value of 4 or 8 bytes
where it acts (the L1 of its core for scope .wg on a private page, else the home slice, after the write-back of a
private line) is replaced by Op of R189 of the former value, the operand and the compare operand, or kept where Op
gives none; an ATOM word returns the former value in v[vd] (or the pair) and ORs the bits of AFADD; the flag counts
one less and the operation is gone. -/
def Obligations.AtomicsReadAndWriteIndivisibly : Prop :=
  ∀ (s : State) (o : PendingOp) (a : Access) (func : Nat) (x c : DWord) (keep : Nat) (i : Instr), Performs s o →
    (o.kind = .atom func a x c false ∧ i = .atomComplete o.id keep ∨
      o.kind = .redm func a x ∧ c = 0 ∧ o.seen = none ∧ i = .storeAcknowledgement o.id) →
    a.size = (if 13 ≤ func then 8 else 4) → x.toNat < 2 ^ (8 * a.size) → c.toNat < 2 ^ (8 * a.size) → Granted s a true →
    let core := s.opCore o
    let pa := s.homeAddr a.pa
    let b := beforeAtomic s core a
    Plain b pa a.size a.leaf → (inL1 a = true → LineRoom s core pa a.leaf.gen ∧ ∀ y ∈ s.ops, y.seen = none) →
    let old := valueAt (b.l2Fill (pa / 128) a.leaf.fold a.leaf.open_) core pa a
    let res := atomResult func old x.toNat c.toNat
    ∃ t, exec i s = .next t ∧ t.ops = s.ops.filter (·.id != o.id) ∧ valueAt t core pa a = res.1.getD old ∧
      ∀ r ∈ o.who, ∀ th, s.thread? r = some th → th.status ≠ .exited → o.kind = .atom func a x c false →
        ∃ u, t.thread? r = some u ∧ u.fpstat = th.fpstat ||| res.2 ∧ u.flags = (th.subFlag o.flag).flags ∧
          u.v = (th.landRegs o.dst (o.of o.old r []) (if a.size = 8 then [BitVec.ofNat 32 old, BitVec.ofNat 32 (old / 2 ^ 32)]
            else [BitVec.ofNat 32 old]) (o.keeps keep r)).v

/-- For a ready group of one member with no other FENCE waiting: a FENCE with a false guard, without a prefix or of
order relaxed changes nothing but the place in the clause; it never holds its thread. Its acquire part acts once no
earlier read of the thread is outstanding, its release part once no earlier access is that its scope must see; what
cannot act yet stays as an operation without a flag, the sc part with the release. At .wg the parts only order; at a
wider scope acquire discards every read-shared line of its core's L1 and release writes every dirty line back (R172).
A later access of the thread waits while an earlier FENCE has an acquire or sc part left, and a later write while it
has a release part left (R174, R179: an earlier store comes before a later load); a later access also waits for an
AWAITF of its thread (R184). That a FENCE acts in up to three parts, each as soon as it can, and its sc part with its
release part, where it discards once more, is the model's choice (log 10). -/
def Obligations.FencesActOnceEarlierAccessesHavePerformed : Prop :=
  (∀ (s : State) (g : Group) (r : TRef) (w : Workgroup) (th : Thread) (o : FenArgs), Alone s g r w th → NoFence s →
    Ready s g { prefixKind := .mem, orders := [0, 1, 2, 3], sc := o.sc } [] →
    (th.pred o.guard.toNat = false ∨ g.order = 0 → exec (.fence o) s = .next (after s g fun _ t => t)) ∧
    (th.pred o.guard.toNat = true → g.order ≠ 0 → (∀ y ∈ s.ops, y.id < s.nextId) →
      let acq := decide (g.order ≠ 2)
      let rel := decide (g.order ≠ 1)
      let reads := s.ops.any fun y => decide (y.who = [r]) && y.kind.foot.any (·.r)
      let owes := s.releaseWaits r g.scope s.nextId
      let ops := s.ops ++ (if acq && reads || rel && owes then
        [newOp s g r th none (.fence (acq && reads) (rel && owes) (o.sc && owes) g.scope) 0 0] else [])
      ∃ t, exec (.fence o) s = .next t ∧ t.ops = ops ∧ t.wgs = (after s g fun _ t => t).wgs ∧
        t.groups = (after s g fun _ t => t).groups ∧
        (g.scope = 0 → t = { after s g (fun _ t => t) with nextId := s.nextId + 1, ops := ops }) ∧
        (g.scope ≠ 0 → g.order = 1 → t = { after s g (fun _ t => t) with
          nextId := s.nextId + 1, ops := ops,
          cores := if reads then s.cores else s.cores.modify w.core fun c =>
            { c with l1 := c.l1.filter (·.cls != .readShared) } }) ∧
        (g.scope ≠ 0 → acq = true → reads = false → ∀ l ∈ (t.core w.core).l1, l.cls ≠ .readShared) ∧
        (g.scope ≠ 0 → rel = true → owes = false → ∀ l ∈ (t.core w.core).l1, l.isDirty = false))) ∧
  (∀ (s : State) (y o : PendingOp) (r : TRef) (f : Footprint), y ∈ s.ops → y.id < o.id → r ∈ y.who → r ∈ o.who →
    o.kind.foot = some f →
    (∀ (acq rel sc : Bool) (scope : Nat), y.kind = .fence acq rel sc scope →
      acq = true ∨ sc = true ∨ (rel = true ∧ f.w = true) → s.opWaits o = true) ∧
    (∀ q since, y.kind = .awaitf q since → s.opWaits o = true))

namespace Sys2Proof.Claims

/-- R166: the words that act as stores: func and rights. -/
def cacheWords : List ((McArgs → Instr) × Nat × Rights) :=
  [(.cflush, 1, { w := true }), (.cwb, 2, { r := true }), (.cinv, 3, { w := true })]

/-- R141: the REG_FILL of a spill, taken at the next clause start. -/
def fillLate (va : DWord) (n : Nat) (gen : BitVec 16) (now : Nat) : Late := ⟨0x17, va, n, 0, gen, none, [], none, now⟩

/-- The dirty bytes of a line lie each at its own place within it. -/
def LineOk (l : L1Line) : Prop := l.bytes.Pairwise (fun a b => a.1 ≠ b.1) ∧ ∀ b ∈ l.bytes, b.1 < 128

end Sys2Proof.Claims

/-- For a ready group of one member: CFLUSH and CINV (W) and CWB (R) check range, translation and rights (a fault
parks the member) and leave one access that performs in the order of stores; a helper's is checked for range only.
PFL2 brings the sector into L2 and PFL1 also the line into L1; one that would fault, that is not served, or that names
a cleared page or a poisoned unit does nothing (that it names both units of its sector is the model's reading, log
26). No byte of memory changes by a prefetch. With its guard false a word changes nothing but the place in the clause.
That prefetches act at their issue and cache operations at an event of their own is the model's choice (log 10). -/
def Obligations.CacheControlAndPrefetchWords : Prop :=
  ∀ (s : State) (g : Group) (r : TRef) (w : Workgroup) (th : Thread) (o : McArgs), Alone s g r w th →
    Ready s g { ext := true } (addressed o.mode o.vo) →
    let va := s.address g r th o.mode o.wb o.vo
    let stays := after s g fun _ t => t
    (∀ p ∈ cacheWords,
      (th.pred o.guard.toNat = false → exec (p.1 o) s = .next stays) ∧
      (th.pred o.guard.toNat = true → exec (p.1 o) s = .next (written s g r w th va 1 p.2.2 fun l =>
        .cache p.2.1 (reaching va 1 l 0 2)))) ∧
    (∀ p ∈ [(Instr.pfl2, false), (Instr.pfl1, true)],
      (th.pred o.guard.toNat = false → exec (p.1 o) s = .next stays) ∧
      (∀ d, checked s w.core w.part va 1 { r := true } = .error d → exec (p.1 o) s = .next stays) ∧
      (∀ l, th.pred o.guard.toNat = true → checked s w.core w.part va 1 { r := true } = .ok l →
        let a := reaching va 1 l 0 2
        (¬ Granted s a false ∨ s.isCleared (s.homeAddr a.pa) = true → exec (p.1 o) s = .next stays) ∧
        (let n := s.homeAddr a.pa / 128;
          (∃ x, s.l2Sector? n = some x ∧ ∃ u ∈ x.bad, u.1 / 2 = n) ∨
            (s.l2Sector? n = none ∧ RoomInL2 s n ∧ ∃ u ∈ s.poison, u.1 / 2 = n) →
          exec (p.1 o) s = .next stays) ∧
        (Granted s a false → s.isCleared (s.homeAddr a.pa) = false →
          Plain (s.tlbInsert w.core w.part l) (s.homeAddr a.pa / 128 * 128) 128 l →
          (p.2 = true → LineRoom s w.core (s.homeAddr a.pa) l.gen) → ∃ t, exec (p.1 o) s = .next t ∧ t.wgs = stays.wgs ∧
            t.groups = stays.groups ∧ t.ops = s.ops ∧ SameBytes { s with wgs := t.wgs } t ∧
            (t.l2Sector? (s.homeAddr a.pa / 128)).isSome ∧
            (p.2 = true → w.core < s.cores.length →
              ((t.core w.core).l1Line? (s.homeAddr a.pa / 128)).isSome))))

/-- A CFLUSH waits while the stall window of a moving page holds back the write of its dirty sector (R326); performed,
it leaves neither line nor sector, a CINV no line and L2 and the tiers unchanged. An L2 sector that is evicted leaves
L2, with its bytes in its tier if it was dirty and nothing else changed if it was clean (it stays while a dirty one's
write stalls, R326); a line evicted from L1 leaves its dirty bytes in L2, those of the frame's generation.
REGISTER_SPILL completes for every mask: it changes no register and makes cold only registers it names. A register
that is spilled keeps its value, which its home holds from then on; a spill whose home faults keeps the register in
the store and makes the thread fault REG_FILL at its next clause start (R141). -/
def Obligations.CacheActionsAndSpillsKeepEveryValue : Prop :=
  (∀ (s : State) (o : PendingOp) (a : Access) (func : Nat), Performs s o → o.kind = .cache func a → o.seen = none → 1 ≤ func →
    func ≤ 3 → let n := s.homeAddr a.pa / 128
    let stalls := func = 1 ∧ s.windowFull (n * 128) = true ∧ ((∃ x, s.l2Sector? n = some x ∧ x.dirty = true) ∨
      ∃ x, (s.core (s.opCore o)).l1Line? n = some x ∧ x.isDirty = true)
    (stalls → exec (.storeAcknowledgement o.id) s = .next s) ∧
    (¬ stalls → ∃ t, exec (.storeAcknowledgement o.id) s = .next t ∧ t.ops = s.ops.filter (·.id != o.id) ∧
      (func ≠ 2 → (t.core (s.opCore o)).l1Line? n = none) ∧
      (func = 1 → RoomInL2 s n → t.l2Sector? n = none) ∧
      (func = 3 → t.l2 = s.l2 ∧ t.mem = s.mem))) ∧
  (∀ (s : State) (core line : Nat),
    (∃ t, exec (.lineEviction core true line) s = .next t ∧ t.cores = s.cores ∧
      (s.windowFull (line * 128) = false → t.l2Sector? line = none) ∧
      ∀ x, s.l2Sector? line = some x → (x.dirty = false → t = { s with l2 := t.l2 }) ∧
        (x.dirty = true → s.windowFull (line * 128) = true → t = s) ∧
        (x.dirty = true → x.data.length = 128 → s.moveAt? (line * 128) = none → Memory.wf s.mem →
          ∀ i < 128, Memory.get t.mem (line * 128 + i) = x.data.getD i 0)) ∧
    (∃ t, exec (.lineEviction core false line) s = .next t ∧ (t.core core).l1Line? line = none ∧
      (RoomInL2 s line → t.mem = s.mem) ∧
      ∀ l x, (s.core core).l1Line? line = some l → LineOk l → s.genCurrent line l.gen = true →
        s.l2Sector? line = some x → x.data.length = 128 → ∀ i < 128, t.l2Byte (line * 128 + i) =
          match l.bytes.find? (fun b => b.1 == i && b.2.2) with
          | some b => b.2.1
          | none => x.data.getD i 0)) ∧
  (∀ (s : State) (r : TRef) (w : Workgroup) (th : Thread), s.wg? r.wg = some w →
    w.thread? r.warp r.lane = some th →
    (th.status = .exited → ∀ regs, exec (.registerSpill r.wg r.warp r.lane regs) s = .next s) ∧
    (th.status ≠ .exited → ∀ regs, ∃ t u, exec (.registerSpill r.wg r.warp r.lane regs) s = .next t ∧
      t.thread? r = some u ∧ u.v = th.v ∧ ∀ n < 64, (th.cold.getLsbD n = true → u.cold.getLsbD n = true) ∧
        (u.cold.getLsbD n = true → th.cold.getLsbD n = true ∨ regs.getLsbD n = true))) ∧
  (∀ (s : State) (r : TRef) (w : Workgroup) (th : Thread) (n : Nat), s.wg? r.wg = some w →
    w.thread? r.warp r.lane = some th → th.status ≠ .exited → n < 64 → th.cold.getLsbD n = false →
    let va := BitVec.ofNat 64 (w.homeOf r.warp r.lane n)
    (∀ d, checked s w.core w.part va 4 { r := true, w := true } = .error d →
      ∃ t u, exec (.registerSpill r.wg r.warp r.lane (1#64 <<< n)) s = .next t ∧
      t.thread? r = some u ∧ u.v = th.v ∧ u.cold = th.cold ∧ u.late.isSome ∧ t.mem = s.mem ∧ t.l2 = s.l2 ∧
      (th.late = none → u.late = some (fillLate va n d.gen s.time))) ∧
    (∀ l, checked s w.core w.part va 4 { r := true, w := true } = .ok l → let a := reaching va 4 l 0 0
      Granted s a true → w.core < s.cores.length → Plain s (s.homeAddr a.pa) 4 l →
      FreshLine s w.core (s.homeAddr a.pa) l.gen → (l.cls = .priv → LineRoom s w.core (s.homeAddr a.pa) l.gen) → (∀ y ∈ s.ops, y.seen = none) →
      ∃ t u, exec (.registerSpill r.wg r.warp r.lane (1#64 <<< n)) s = .next t ∧ t.thread? r = some u ∧ u.v = th.v ∧ u.cold = th.cold ||| (1#64 <<< n) ∧
        ∀ i < 4, t.coreByte w.core (s.homeAddr a.pa + i) = (leBytes 4 (th.reg n).toNat).getD i 0))

namespace Sys2Proof.Claims

/-! ## Quantising words (R205 to R218) -/

/-- R212: the format in bits [6:4] of the control value, its block length and bytes. -/
def formatOf (control : Word) : Nat := control.toNat / 16 % 8
def elementsOf (fmt : Nat) : Nat := if fmt % 2 = 1 then 32 else 16
def bytesOf (fmt : Nat) : Nat := elementsOf fmt * (if fmt ≤ 2 then 8 else if fmt ≤ 4 then 4 else 2) / 8

/-- R212: the checks of a block in registers. -/
def blockFault (budget vq : Nat) (control : Word) : Option FaultDetail :=
  if formatOf control = 0 ∨ formatOf control = 7 then some { code := 0x15 }
  else ((registers vq (elementsOf (formatOf control) + 1)).find? fun n => decide (min budget 64 ≤ n)).map fun n =>
    { code := 0x1A, reg := n }

/-- R212: the input of a block. -/
def blockInput (th : Thread) (vq : Nat) : List Word :=
  (registers (vq + 1) (elementsOf (formatOf (th.reg vq)))).map th.reg

/-- R205 to R210: a block quantised as the control value says. -/
def quantised (th : Thread) (vq : Nat) : Quantised :=
  quantise (formatOf (th.reg vq)) ((th.reg vq).toNat % 16) (blockInput th vq)

/-- R212: the report: the entry, and bit 16 where an exponent was raised; R210: the sticky bits. -/
def reportOf (q : Quantised) : Word := BitVec.ofNat 32 (q.entry.toNat + if q.uf then 65536 else 0)
def reportBits (q : Quantised) : BitVec 5 := (if q.uf then 8 else 0) ||| (if q.nv then 1 else 0)

/-- R213: the pages of the data and of the entry. -/
def blockPages (s : State) (core part fmt : Nat) (va : DWord) : Except FaultDetail (Leaf × Leaf) :=
  match checked s core part va (bytesOf fmt) { w := true } with
  | .error d => .error d
  | .ok l =>
    if l.format ≠ fmt then .error { code := 0x15, addr := va, gen := l.gen }
    else match entryPage s core part l va { w := true } with
      | .error d => .error d
      | .ok m => .ok (l, m)

/-- R217, R218: the page of a word that names a format page. -/
def formatPage (s : State) (core part : Nat) (va : DWord) : Except FaultDetail Leaf :=
  match checked s core part va 1 { r := true } with
  | .error d => .error d
  | .ok l => if l.format = 0 then .error { code := 0x15, addr := va, gen := l.gen } else .ok l

/-- R213: the two stores and the report of QST. -/
def threeOps (s : State) (g : Group) (r : TRef) (th : Thread) (flag : Option Nat) (data entry : OpKind) (report : OpKind)
    (vq : Nat) : State :=
  withOp { newOp s g r th flag report vq 1 with id := s.nextId + 2 } (withOp
    { newOp s g r th none entry 0 0 with id := s.nextId + 1 } (withOp (newOp s g r th none data 0 0)
      (after s g fun _ t => t.addFlag flag)))

end Sys2Proof.Claims

/-- For a ready group of one member: QSEL, QERR and QST check the format of the control value and then the registers
of the block (R212), and leave their report (QSEL with the codes, QERR the rounded error) on the selected flag; QST
checks the data page and the entry's page and also leaves the stores of the block and of its entry (a helper none).
SBCHK leaves a read of the entry; MTA returns the entry's address. A fault of a check parks the member; a false guard
changes nothing but the place in the clause. -/
def Obligations.QuantisingWordsReportOnTheirFlag : Prop :=
  ∀ (s : State) (g : Group) (r : TRef) (w : Workgroup) (th : Thread), Alone s g r w th →
    (∀ o : QbArgs, Ready s g {} [o.vq.toNat] →
      let vq := o.vq.toNat
      let q := quantised th vq
      let e := quantError (formatOf (th.reg vq)) ((th.reg vq).toNat / 256 % 4) (blockInput th vq)
      ∀ p ∈ [(Instr.qsel o, reportOf q :: (List.range (bytesOf (formatOf (th.reg vq)) / 4)).map
            (fun i => BitVec.ofNat 32 (ofLe ((q.bytes.drop (4 * i)).take 4))), reportBits q),
          (Instr.qerr o, [e.1], e.2)],
        (th.pred o.guard.toNat = false → exec p.1 s = .next (after s g fun _ t => t)) ∧
        (th.pred o.guard.toNat = true → flagRoom g o.fs th →
          exec p.1 s = .next (match blockFault (budgetOf w th) vq (th.reg vq) with
            | some d => parkedAt s g d
            | none => afterOp s g (newOp s g r th (g.flagOf o.fs) (.qblk p.2.1 p.2.2) vq p.2.1.length)))) ∧
    (∀ o : MArgs, Ready s g { ext := true } (o.vd.toNat :: addressed o.mode o.vo) →
      let vq := o.vd.toNat
      let va := s.address g r th o.mode o.wb o.vo
      let fmt := formatOf (th.reg vq)
      let q := quantised th vq
      let report : OpKind := .qblk [reportOf q] (reportBits q)
      (th.pred o.guard.toNat = false → exec (.qst o) s = .next (after s g fun _ t => t)) ∧
      (th.pred o.guard.toNat = true → flagRoom g o.fs th →
        exec (.qst o) s = .next (match blockFault (budgetOf w th) vq (th.reg vq) with
          | some d => parkedAt s g d
          | none =>
            if th.status = .helper then
              if 2 ^ 57 ≤ va.toNat then parkedAt s g { code := 0x12, addr := va }
              else if va.toNat % bytesOf fmt ≠ 0 then parkedAt s g { code := 0x10, addr := va }
              else afterOp s g (newOp s g r th (g.flagOf o.fs) report vq 1)
            else match blockPages s w.core w.part fmt va with
              | .error d => parkedAt s g d
              | .ok x => ((threeOps s g r th (g.flagOf o.fs) (.store (reaching va (bytesOf fmt) x.1 0 2) q.bytes)
                  (.store (reaching (entryAddress x.1 va.toNat) 2 x.2 0 2) (leBytes 2 q.entry.toNat)) report
                  vq).tlbInsert w.core w.part x.1).tlbInsert w.core w.part x.2)) ∧
      (th.pred o.guard.toNat = false → exec (.sbchk o) s = .next (after s g fun _ t => t)) ∧
      (th.pred o.guard.toNat = true → flagRoom g o.fs th →
        exec (.sbchk o) s = .next (match formatPage s w.core w.part va with
          | .error d => parkedAt s g d
          | .ok l => match entryPage s w.core w.part l va { r := true } with
            | .error d => parkedAt s g d
            | .ok m => (issued s g r w th (g.flagOf o.fs) l (.sbchk l.format (reaching (entryAddress l va.toNat) 2 m 0 2))
                  vq 1).tlbInsert w.core w.part m))) ∧
    (∀ o : MArgs, Ready s g { ext := true } (registers o.vd.toNat 2 ++ addressed o.mode o.vo) →
      let va := s.address g r th o.mode o.wb o.vo
      (th.pred o.guard.toNat = false → exec (.mta o) s = .next (after s g fun _ t => t)) ∧
      (th.pred o.guard.toNat = true → flagRoom g o.fs th →
        exec (.mta o) s = .next (match formatPage s w.core w.part va with
          | .error d => parkedAt s g d
          | .ok l => issued s g r w th (g.flagOf o.fs) l (.qblk (words (entryAddress l va.toNat)) 0) o.vd.toNat 2)))

namespace Sys2Proof.Claims

/-- amax × 2^−149 ≤ v × 2^x, for every way to write both in one unit. -/
def fitsAt (amax : Nat) (v : Nat × Int) (x : Int) : Prop :=
  ∀ p q : Nat, (q : Int) - p = v.2 + x + 149 → amax * 2 ^ p ≤ v.1 * 2 ^ q

/-- R202: one vector comes before another in the order of the codebook: by the sum of squares, then lexicographically. -/
def vectorBefore (u v : List Nat) : Prop :=
  let squares (x : List Nat) : Nat := (x.map fun m => m ^ 2).sum
  squares u < squares v ∨ (squares u = squares v ∧ u < v)

/-- A vector of {1, 3, 5}^8. -/
def latticeVector (v : List Nat) : Prop := v.length = 8 ∧ ∀ m ∈ v, m = 1 ∨ m = 3 ∨ m = 5

/-- A finite value at exponent X in units of 2^−149, as a signed integer. -/
def inUnits (v : FVal) (x : Int) : Int := match v with
  | .fin n m e => scaled n m (e + x) (-149)
  | _ => 0

/-- R207: the squared error of a YLX index against eight targets. -/
def latticeError (ts : Nat → Int) (x : Int) (index : Nat) : Nat :=
  ((List.range 8).map fun k => (ts k - inUnits (latticeElement index k) x).natAbs ^ 2).sum

/-- R195: the code of element i in a block's bytes, w bits wide, the first element in the low bits. -/
def storedCode (w : Nat) (bytes : List Byte) (i : Nat) : Nat := ofLe bytes / 2 ^ (i * w) % 2 ^ w

/-- The selectors that an allow mask admits; 0 admits all (R212). -/
def admitted (allow sel : Nat) : Prop := sel < 4 ∧ (allow = 0 ∨ allow / 2 ^ sel % 2 = 1)

end Sys2Proof.Claims

/-- QBLK_COMPLETE of every outstanding report of a quantising word answers a next state: its words land in their
registers, its bits in %fpstat and its flag counts one less; nothing else changes. That of an SBCHK returns the entry
that memory holds, bit 16 set where the entry's check fails, and the format of the page above it (R217). The check of
R197 accepts every entry that it makes and rejects it with any one bit changed. A block's bytes hold, for each
element, the finite code nearest to it, at a tie of smaller magnitude, then the lowest; for YLX the index of least
squared error over the vectors of the codebook, which are the first 512 of {1, 3, 5}^8 by the sum of squares and then
in lexicographic order; the error is the sum of the squared differences, which QERR returns rounded once; the exponent
of a selector is the least for which the largest magnitude of the block does not exceed the largest value of the
format; of the admitted selectors the one of least squared error is taken, the lowest number at a tie; a block with a
NaN or an infinity gives the entry 0x0CFF and one of zeros 0x007F, with zero bytes (R205 to R209). -/
def Obligations.QuantReportsLandAndQuantisingErrsLeast : Prop :=
  (∀ (s : State) (o : PendingOp) (keep : Nat) (vals : List Word) (fp : BitVec 5), s.op? o.id = some o →
    o.kind = .qblk vals fp → exec (.qblkComplete o.id keep) s = .next (completed s o vals fp keep)) ∧
  (∀ (s : State) (o : PendingOp) (keep : Nat) (fmt : Nat) (a : Access), Performs s o → o.kind = .sbchk fmt a → a.size = 2 →
    fmt < 8 → Granted s a false → Readable s (s.opCore o) a →
    let e := ofLe (s.coreBytes (s.opCore o) (s.homeAddr a.pa) 2)
    ∃ t, exec (.qblkComplete o.id keep) s = .next t ∧ t.ops = s.ops.filter (·.id != o.id) ∧
      t.wgs = (completed s o [BitVec.ofNat 32 (e + (if entryValid (BitVec.ofNat 16 e) then 0 else 65536) + 131072 * fmt)]
        0 keep).wgs) ∧
  (∀ sel scale, sel < 4 → scale < 256 → entryValid (entryOf sel scale) = true ∧
    ∀ i < 16, entryValid (entryOf sel scale ^^^ (1#16 <<< i)) = false) ∧
  (∀ e : BitVec 16, entryValid e = true ↔ ValidEntry e.toNat) ∧
  (ylxBook.length = 512 ∧ ylxBook.Pairwise vectorBefore ∧ (∀ v ∈ ylxBook, latticeVector v) ∧
    ∀ v, latticeVector v → v ∉ ylxBook → ∀ u ∈ ylxBook, vectorBefore u v) ∧
  (∀ (fmt sel : Nat) (us : List Int), 1 ≤ fmt → fmt ≤ 6 → sel < 4 → us.length = elementsOf fmt → (∃ u ∈ us, u ≠ 0) →
    let w := blockWidth fmt
    let c := candidate fmt sel us
    let x := max (-127) (min 127 c.x)
    c.x = exponentFor w sel (us.foldl (fun a v => max a v.natAbs) 0) ∧ c.bytes.length = bytesOf fmt ∧
    (¬(w = 2 ∧ sel = 3) →
      (∀ i < us.length,
        let t := us.getD i 0
        let k := storedCode w c.bytes i
        let v := inUnits (elementOf w sel k) x
        (∃ n m e, elementOf w sel k = .fin n m e) ∧ ∀ j < 2 ^ w, (∃ n m e, elementOf w sel j = .fin n m e) →
          let y : Int := inUnits (elementOf w sel j) x
          (t - v).natAbs ≤ (t - y).natAbs ∧ ((t - v).natAbs = (t - y).natAbs → v.natAbs ≤ y.natAbs ∧
            (v.natAbs = y.natAbs → k ≤ j))) ∧
      c.error = ((List.range us.length).map fun i =>
        (us.getD i 0 - inUnits (elementOf w sel (storedCode w c.bytes i)) x).natAbs ^ 2).sum) ∧
    (w = 2 ∧ sel = 3 →
      (∀ j < us.length / 8, let ts (k : Nat) : Int := us.getD (8 * j + k) 0
        let index := storedCode 16 c.bytes j
        ∀ other < 65536, latticeError ts x index ≤ latticeError ts x other ∧
          (latticeError ts x index = latticeError ts x other → index ≤ other)) ∧
      c.error = ((List.range (us.length / 8)).map fun j =>
        latticeError (fun k => us.getD (8 * j + k) 0) x (storedCode 16 c.bytes j)).sum)) ∧
  (∀ (fmt sel : Nat) (xs : List Word), 1 ≤ fmt → fmt ≤ 6 → (∀ x ∈ xs, ∃ n m e, f32 x = .fin n m e) →
    (∃ x ∈ xs, unitsOf (f32 x) ≠ 0) → quantError fmt sel xs =
      (BitVec.ofNat 32 (fp32.round 0 (.fin false (candidate fmt sel (xs.map fun x => unitsOf (f32 x))).error (-298))).1, 0)) ∧
  (∀ x : Word, ∀ n m e, f32 x = .fin n m e → unitsOf (f32 x) = scaled n m e (-149)) ∧
  (∀ width ∈ [2, 4, 8], ∀ sel amax, 0 < amax → fitsAt amax (vmaxOf width sel) (exponentFor width sel amax) ∧
    ¬ fitsAt amax (vmaxOf width sel) (exponentFor width sel amax - 1)) ∧
  (∀ (fmt allow : Nat) (xs : List Word), 1 ≤ fmt → fmt ≤ 6 → allow < 16 → (∀ x ∈ xs, ∃ n m e, f32 x = .fin n m e) →
    (∃ x ∈ xs, unitsOf (f32 x) ≠ 0) →
    let c (sel : Nat) : Candidate := candidate fmt sel (xs.map fun x => unitsOf (f32 x))
    ∃ sel, admitted allow sel ∧ (quantise fmt allow xs).bytes = (c sel).bytes ∧
      (quantise fmt allow xs).entry = entryOf sel ((max (-127) (min 127 (c sel).x)) + 127).toNat ∧
      ∀ k, admitted allow k → (c sel).error ≤ (c k).error ∧ ((c sel).error = (c k).error → sel ≤ k)) ∧
  (∀ (fmt allow : Nat) (xs : List Word), 1 ≤ fmt → fmt ≤ 6 →
    ((∃ x ∈ xs, (f32 x).isNan = true ∨ ∃ n, f32 x = .inf n) →
      (quantise fmt allow xs).entry = 0x0CFF ∧ (quantise fmt allow xs).bytes = List.replicate (bytesOf fmt) 0) ∧
    ((∀ x ∈ xs, x.toNat % 2 ^ 31 = 0) →
      (quantise fmt allow xs).entry = 0x007F ∧ (quantise fmt allow xs).bytes = List.replicate (bytesOf fmt) 0))

namespace Sys2Proof.Claims

/-! ## Gangs and tiles (R220 to R241) -/

/-- A fault of a matrix word, which records %mprog (R368). -/
def matrixFault (s : State) (r : TRef) (d : FaultDetail) : FaultDetail := { d with mprog := (s.mprogOf r).toNat }

/-- R223: the gang that a list word and a size name for a warp, if every member is another matrix warp and the warp is one. -/
def gangNamed (w : Workgroup) (warp size : Nat) (l : DWord) : Option (BitVec 32) :=
  let list := l.toNat % 2 ^ 20
  let ms := (List.range size).map fun j => list / 32 ^ j % 32
  if list / 32 ^ size = 0 ∧ ms.Pairwise (· ≠ ·) ∧ (∀ m ∈ ms, (w.warp? m).any (·.role == 2) = true) then
    ((List.range size).find? fun j => ms.getD j 32 == warp).map fun pos =>
      BitVec.ofNat 32 (list + size * 2 ^ 20 + pos * 2 ^ 23)
  else none

/-- R223, R231: a warp joins a gang: its %gang, no held rows in the old gang and the new one, no product issued yet. -/
def joined (r : TRef) (old x : BitVec 32) (s : State) : State :=
  { s with wgs := s.wgs.map fun w => if w.id = r.wg then
      { w with warps := w.warps.map fun v => if v.id = r.warp then { v with gang := x } else v,
               gangs := w.gangs.map fun y =>
                 if y.key = old.toNat % 2 ^ 23 ∨ y.key = x.toNat % 2 ^ 23 then { y with held := none } else y,
               threads := w.threads.map fun t => if t.warp = r.warp then { t with products := 0 } else t }
    else w }

/-- R240: a command that is refused: reserved bits, conv 3, an add to memory, a block beyond the tile or not in fours; then
the address range and the alignment of address and pitch. -/
def transferFault (store : Bool) (c0 c1 c2 c3 : DWord) : Option FaultDetail :=
  let rows := c2.toNat / 2 ^ 8 % 256 + 1
  let cols := c2.toNat / 2 ^ 24 % 256 + 1
  let row0 := c2.toNat % 256
  let col0 := c2.toNat / 2 ^ 16 % 256
  let conv := c2.toNat / 2 ^ 32 % 4
  let size := if conv = 0 then 4 else 2
  if 2 ^ 32 ≤ c1.toNat ∨ 2 ^ 35 ≤ c2.toNat ∨ c3 ≠ 0 ∨ conv = 3 ∨ (store = true ∧ c2.toNat / 2 ^ 34 % 2 = 1) ∨
      128 < row0 + rows ∨ 128 < col0 + cols ∨ col0 % 4 ≠ 0 ∨ cols % 4 ≠ 0 then some { code := 0x02 }
  else if 2 ^ 57 ≤ c0.toNat then some { code := 0x12, addr := c0 }
  else if c0.toNat % size ≠ 0 then some { code := 0x10, addr := c0 }
  else if c1.toNat % size ≠ 0 then some { code := 0x10, addr := c0 }
  else none

end Sys2Proof.Claims

/-- For a ready group of one member: in a workgroup without tiles each of these words faults GANG with %mprog
recorded. GANG forms the gang that its list names, or leaves it, drops held rows and restarts the count of products,
and faults on a bad list. MPRG returns %mprog and, with clr, clears the progress. MREL drops the held rows. The tile
words leave one transfer on their flag after the checks of R239 and R240, which helpers make too; helpers transfer
nothing (ACZ, ACST and ACLD wait while a product word of the warp is at its rendezvous, R238). A false guard changes
nothing but the place in the clause. That a pitch that is not aligned records the command's address is the model's
reading (log 25). -/
def Obligations.GangAndTileWords : Prop :=
  ∀ (s : State) (g : Group) (r : TRef) (w : Workgroup) (th : Thread), Alone s g r w th →
    let stays := after s g fun _ t => t
    let gang := s.gangOf r.wg r.warp
    let key := gang.toNat % 2 ^ 23
    let refused := parkedAt s g (matrixFault s r { code := 0x23 })
    (∀ o : GangFArgs, Ready s g {} [] →
      (th.pred o.guard.toNat = false ∨ th.status = .helper → exec (.gang o) s = .next stays) ∧
      (th.pred o.guard.toNat = true → th.status = .live → exec (.gang o) s = .next (
        if w.ownsTiles = false then refused
        else if o.g = 0 then joined r gang 0 stays
        else match gangNamed w r.warp o.g.toNat (s.warpReg r o.wm.toNat) with
          | some x => joined r gang x stays
          | none => refused))) ∧
    (∀ o : MprgArgs, Ready s g {} [o.vd.toNat] →
      (th.pred o.guard.toNat = false → exec (.mprg o) s = .next stays) ∧
      (th.pred o.guard.toNat = true → w.ownsTiles = false → exec (.mprg o) s = .next refused) ∧
      (th.pred o.guard.toNat = true → w.ownsTiles = true → (o.clr = false ∨ gang.toNat / 2 ^ 20 % 8 = 0) →
        exec (.mprg o) s = .next (after s g fun _ t => t.setReg o.vd.toNat (s.mprogOf r))) ∧
      (th.pred o.guard.toNat = true → w.ownsTiles = true → o.clr = true → gang.toNat / 2 ^ 20 % 8 ≠ 0 →
        ∃ t v u, exec (.mprg o) s = .next t ∧ t.wg? r.wg = some v ∧ v.thread? r.warp r.lane = some u ∧
          u.v = (th.setReg o.vd.toNat (s.mprogOf r)).v ∧ (v.gang key).pend = false ∧ (v.gang key).steps = 0 ∧
          ((w.gang key).latch ≠ [] → (v.gang key).mprog = 0 ∧ (v.gang key).latch = []))) ∧
    (∀ o : G0Args, Ready s g {} [] →
      (th.pred o.guard.toNat = false ∨ (w.ownsTiles = true ∧ gang.toNat / 2 ^ 20 % 8 = 0) →
        exec (.mrel o) s = .next stays) ∧
      (th.pred o.guard.toNat = true → w.ownsTiles = false → exec (.mrel o) s = .next refused) ∧
      (th.pred o.guard.toNat = true → w.ownsTiles = true → gang.toNat / 2 ^ 20 % 8 ≠ 0 →
        exec (.mrel o) s = .next (stays.updGang r.wg key fun x => { x with held := none }))) ∧
    (∀ o : TileArgs, Ready s g {} [] →
      (th.pred o.guard.toNat = false → exec (.acz o) s = .next stays) ∧
      (th.pred o.guard.toNat = true → flagRoom g o.fs th → w.arrivalsOf [r.warp] = [] → exec (.acz o) s = .next (
        if w.ownsTiles = false then refused else if th.status ≠ .live then stays
        else afterOp s g (newOp s g r th (g.flagOf o.fs) (.tile 3 o.tile.toNat 0 [] []) 0 0)))) ∧
    (∀ o : TileVArgs, Ready s g {} (o.vp.toNat :: registers o.vd.toNat 4) →
      let pos := th.reg o.vp.toNat
      let askew := parkedAt s g (matrixFault s r { code := 0x10, addr := BitVec.ofNat 64 pos.toNat })
      (th.pred o.guard.toNat = false → exec (.acrd o) s = .next stays ∧ exec (.acwr o) s = .next stays) ∧
      (th.pred o.guard.toNat = true → flagRoom g o.fs th →
        exec (.acrd o) s = .next (
          if w.ownsTiles = false then refused else if pos.toNat / 256 % 4 ≠ 0 then askew
          else afterOp s g (newOp s g r th (g.flagOf o.fs) (.tile 4 o.tile.toNat pos [] []) o.vd.toNat 4)) ∧
        exec (.acwr o) s = .next (
          if w.ownsTiles = false then refused else if pos.toNat / 256 % 4 ≠ 0 then askew
          else if th.status = .helper then stays
          else afterOp s g (newOp s g r th (g.flagOf o.fs) (.tile 5 o.tile.toNat pos
            ((registers o.vd.toNat 4).map th.reg) []) 0 0)))) ∧
    (∀ o : TileKArgs, Ready s g { prefixKind := .mem, orders := [0, 2] } [] →
      let c (i : Nat) : DWord := s.warpReg r (4 * o.k.toNat + i)
      ∀ p ∈ [(Instr.acst o, 6), (Instr.acld o, 7)],
        (th.pred o.guard.toNat = false → exec p.1 s = .next stays) ∧
        (th.pred o.guard.toNat = true → flagRoom g o.fs th → w.arrivalsOf [r.warp] = [] → exec p.1 s = .next (
          if w.ownsTiles = false then refused
          else match transferFault (p.2 == 6) (c 0) (c 1) (c 2) (c 3) with
            | some d => parkedAt s g (matrixFault s r d)
            | none => if th.status ≠ .live then stays else afterOp s g (newOp s g r th (g.flagOf o.fs) (.tile p.2 o.tile.toNat 0 []
                [c 0, c 1, c 2, c 3, BitVec.ofNat 64 (g.order + 4 * g.scope)]) 0 0))))

namespace Sys2Proof.Claims

/-- The cells of a workgroup's tiles stand in rising order. -/
def TilesOk (w : Workgroup) : Prop := w.tiles.Pairwise fun a b => a.1 < b.1

/-- The element of a tile. -/
def element (w : Workgroup) (tile row col : Nat) : Word := w.tileGet tile row col

/-- R240: the address of the first element of row a of a transfer. -/
def rowAddress (cmd : List DWord) (a : Nat) : Nat :=
  ((cmd.getD 0 0).toNat + a * ((cmd.getD 1 0).toNat % 2 ^ 32)) % 2 ^ 64

/-- R182: the memory rows of a transfer in ascending order, from one state to another: ACST writes the elements of its tile row
there, ACLD takes what it reads there into its tile row. -/
def RowsMove (s : State) (who : List Nat) (wg tile : Nat) (store : Bool) (cmd : List DWord) (t : State) : Prop :=
  ∃ at_ : Nat → State, at_ 0 = s ∧ at_ ((cmd.getD 2 0).toNat / 2 ^ 8 % 256 + 1) = t ∧
    ∀ a ≤ (cmd.getD 2 0).toNat / 2 ^ 8 % 256, let u := at_ a
      let row := (cmd.getD 2 0).toNat % 256 + a
      let bytes := ((cmd.getD 2 0).toNat / 2 ^ 24 % 256 + 1) * (if (cmd.getD 2 0).toNat / 2 ^ 32 % 4 = 0 then 4 else 2)
      (store = true → at_ (a + 1) = u.engineWrite (u.coreOf wg) (u.partOf wg) (rowAddress cmd a)
        (((u.wg? wg).map fun w => w.rowBytes tile row cmd).getD [])) ∧
      (store = false → ∃ v bs x, u.engineRead who (u.coreOf wg) (u.partOf wg) (rowAddress cmd a) bytes (· == 0) = .done v bs x ∧
        at_ (a + 1) = v.updWg wg fun w => w.loadRow tile row cmd bs)

/-- A transfer that performs now: no earlier operation on its tile (R238), and no release that it waits for (R182). -/
def TileFree (s : State) (o : PendingOp) (wg tile func : Nat) (cmd : List DWord) : Prop :=
  s.op? o.id = some o ∧ (o.who.map (·.wg)).headD 0 = wg ∧ s.tileWaits wg tile o = false ∧ s.transferWaits o func cmd = false

end Sys2Proof.Claims

/-- TILE_TRANSFER_COMPLETE of a transfer that performs (no earlier operation on its tile is open, R238, and no release
that it waits for) answers a next state: ACZ makes every element of its tile +0 and no other; ACRD returns four
consecutive elements and changes nothing else; ACWR writes its four words and nothing else. A row is written by ACST
as its elements rounded to FP32, BF16 or FP16 (RNE), and taken by ACLD as the values of memory (FP32 bit for bit),
with add as the rounded sum with the old elements, other elements unchanged (R240); row a lies at addr + a × pitch,
and once every row is through the flag counts one less. What an engine writes in one sector stands in L2 at the page's
place and changes no other byte, and it reads what L2 or the tier holds. That ACST with conversion 0 makes a NaN
canonical (log 25) and ACLD passes the 32 bits on (log 16) is the model's choice. -/
def Obligations.TileTransfersMoveTheirElements : Prop :=
  (∀ (s : State) (o : PendingOp) (keep : Nat) (tile func wg : Nat) (pos : Word) (src : List Word) (cmd : List DWord)
      (w : Workgroup), o.kind = .tile func tile pos src cmd → TileFree s o wg tile func cmd → s.wg? wg = some w → TilesOk w →
    let row := pos.toNat % 128
    let col := pos.toNat / 256 % 128
    (func = 3 → ∃ t v, exec (.tileTransferComplete o.id keep) s = .next t ∧ t.ops = s.ops.filter (·.id != o.id) ∧ t.wg? wg = some v ∧
      ∀ k i j, i < 128 → j < 128 → element v k i j = if k = tile then 0 else element w k i j) ∧
    (func = 4 → exec (.tileTransferComplete o.id keep) s = .next (completed s o ((List.range 4).map fun i => element w tile row (col + i)) 0 keep)) ∧
    (func = 5 → src.length = 4 → col % 4 = 0 → ∃ t v, exec (.tileTransferComplete o.id keep) s = .next t ∧ t.ops = s.ops.filter (·.id != o.id) ∧
      t.wg? wg = some v ∧ TilesOk v ∧ ∀ k i j, i < 128 → j < 128 → element v k i j =
        if k = tile ∧ i = row ∧ col ≤ j ∧ j < col + 4 then src.getD (j - col) 0 else element w k i j) ∧
    (func = 6 ∨ func = 7 → ∃ t, exec (.tileTransferComplete o.id keep) s = .next t ∧
      ∀ u, (s.commandActions (s.coreOf wg) (tcOrder cmd) (tcScope cmd)).tileRows (engineAgent 7 (s.coreOf wg) o.id) wg tile
        (func == 6) cmd (List.range (tcRows cmd)) = .done u →
        t = (completed u o [] 0 0).retireFences ∧ RowsMove (s.commandActions (s.coreOf wg) (tcOrder cmd) (tcScope cmd))
          (engineAgent 7 (s.coreOf wg) o.id) wg tile (func == 6) cmd u)) ∧
  (∀ (s : State) (who : List Nat) (core part va : Nat) (bs : List Byte) (l : Leaf), 0 < bs.length → va < 2 ^ 57 →
    va % 128 + bs.length ≤ 128 →
    let pa := s.homeAddr (l.pa + (va - l.vbase))
    Plain s pa bs.length l →
    (s.findLeaf core part va = .ok l → let t := s.engineWrite core part va bs
      (∀ i < bs.length, t.l2Byte (pa + i) = bs.getD i 0) ∧ ∀ x, (x < pa ∨ pa + bs.length ≤ x) → t.l2Byte x = s.l2Byte x) ∧
    (∀ fmt, s.engineLeaf core part (BitVec.ofNat 64 va) { r := true } fmt = .ok l →
      s.engineCheck who part (l.pa + (va - l.vbase)) l false = .yes →
      ∃ t, s.engineRead who core part va bs.length fmt =
        .done t ((List.range bs.length).map fun i => s.l2Byte (pa + i)) true ∧ SameBytes s t)) ∧
  (∀ (w : Workgroup) (tile row : Nat) (c : List DWord) (bs : List Byte), TilesOk w → row < 128 →
    tcCol0 c + tcCols c ≤ 128 →
    let f : Fmt := if tcConv c = 0 then fp32 else if tcConv c = 1 then bf16 else fp16
    let size := if tcConv c = 0 then 4 else 2
    (w.rowBytes tile row c).length = tcCols c * size ∧
    ∀ j, j < tcCols c →
      ofLe (((w.rowBytes tile row c).drop (j * size)).take size) =
        (f.round 0 (f32 (element w tile row (tcCol0 c + j)))).1 % 2 ^ (8 * size) ∧
      (let x := f.decode (ofLe ((bs.drop (j * size)).take size))
       element (w.loadRow tile row c bs) tile row (tcCol0 c + j) =
         if tcConv c = 0 ∧ tcAdd c = false then BitVec.ofNat 32 (ofLe ((bs.drop (j * size)).take size))
         else BitVec.ofNat 32 (fp32.round 0
           (if tcAdd c then ((f32 (element w tile row (tcCol0 c + j))).add 0 x).1 else x)).1) ∧
      ∀ k i m, i < 128 → m < 128 → ¬(k = tile ∧ i = row ∧ tcCol0 c ≤ m ∧ m < tcCol0 c + tcCols c) →
        element (w.loadRow tile row c bs) k i m = element w k i m)

namespace Sys2Proof.Claims

/-! ## Matrix products (R224 to R237) -/

/-- R182, R172: what a release does before the word. -/
def releasing (s : State) (g : Group) : State := if g.order = 2 then s.l1WriteBackAll g.core else s

/-- R227: the bytes of B of one column and k-step, and its blocks. -/
def columnBytes (bfmt : Nat) : Nat := [64, 64, 32, 32, 32, 32, 16, 16, 8, 8].getD bfmt 0
def columnBlocks (bfmt : Nat) : Nat := [0, 0, 0, 0, 1, 2, 1, 2, 1, 2].getD bfmt 0

/-- R227: a control value that MMAS (func 1) or MMAG (2) refuses in a gang of g. -/
def controlRefused (func g : Nat) (c : DWord) : Prop :=
  let x := c.toNat
  x % 16 ∉ [0, 1, 2, 3, 4, 6] ∨ 9 < x / 2 ^ 4 % 16 ∨ x / 2 ^ 8 % 4 ≠ 0 ∨ x / 2 ^ 12 % 4 ≠ 0 ∨ x / 2 ^ 21 % 2 ^ 11 ≠ 0 ∨
    4 < x / 2 ^ 10 % 4 + g ∨ (func = 1 ∧ x / 2 ^ 32 ≠ 0) ∨ (func = 2 ∧ x / 2 ^ 14 % 2 ^ 7 ≠ 0)

/-- R228: the registers of one K-block of an A format. -/
def blockRegisters (afmt : Nat) : Nat := [16, 16, 8, 8, 9, 0, 5].getD afmt 0

/-- R228: a block of the A row whose entry, in the low half of its first register, is not valid (R198). -/
def invalidRow (afmt kb : Nat) (row : List Word) : Prop :=
  (afmt = 4 ∨ afmt = 6) ∧ ∃ b < kb, ¬ ValidEntry ((row.getD (b * blockRegisters afmt) 0).toNat % 2 ^ 16)

/-- R229: the place in the scratchpad of the slot that a control value names, where it holds B for kb K-blocks. -/
def slotOf (w : Workgroup) (kb : Nat) (c : DWord) : Option Nat :=
  let bfmt := c.toNat / 2 ^ 4 % 16
  let need := 128 * kb * columnBytes bfmt + 128 * kb * columnBlocks bfmt * 2
  (w.rings.toList.getD (c.toNat / 2 ^ 14 % 8) none).bind fun q =>
    if c.toNat / 2 ^ 17 % 16 < q.n ∧ need ≤ q.slotBytes then some (q.base + c.toNat / 2 ^ 17 % 16 * q.slotBytes) else none

/-- R229, R230, R234: the checks of B: its slot for MMAS; the range, then the alignment of its address and pitch for MMAG. -/
def operandFault (w : Workgroup) (func kb : Nat) (c p : DWord) : Option FaultDetail :=
  let bytes := columnBytes (c.toNat / 2 ^ 4 % 16)
  if func = 1 then (if slotOf w kb c = none then some { code := 0x25 } else none)
  else if 2 ^ 57 ≤ p.toNat then some { code := 0x12, addr := p }
  else if p.toNat % bytes ≠ 0 ∨ c.toNat / 2 ^ 32 % bytes ≠ 0 then some { code := 0x10, addr := p }
  else none

open Classical in
/-- R227, R234: the checks of a matrix-product word of a thread, in order; `regs` are its A registers. -/
noncomputable def productRefused (s : State) (r : TRef) (w : Workgroup) (th : Thread) (func : Nat) (o : MmaArgs) (regs : List Nat) :
    Option FaultDetail :=
  let gang := s.gangOf r.wg r.warp
  let c := s.warpReg r o.wc.toNat
  let p := s.warpReg r (o.wc.toNat + 1)
  let kb := 2 ^ o.kbc.toNat
  let feeds := th.pred o.guard.toNat = true ∧ th.status = .live
  if controlRefused func (gang.toNat / 2 ^ 20 % 8) c then some { code := 0x02 }
  else if gang.toNat / 2 ^ 20 % 8 = 0 ∨ w.ownsTiles = false then some { code := 0x23 }
  else match regs.find? fun n => decide (min (budgetOf w th) 64 ≤ n) with
    | some n => some { code := 0x1A, reg := n }
    | none =>
      if feeds ∧ regs ≠ [] ∧ invalidRow (c.toNat % 16) kb (regs.map th.reg) then some { code := 0x16 }
      else operandFault w func kb c p

end Sys2Proof.Claims

/-- For a ready group of one member: a matrix-product word checks its control value, its gang and tiles, its
registers, its A entries and its B operand in the order of R234 (a fault parks the member with %mprog recorded); else
its arrival, with the row 32 × position + lane among those that the gang feeds, the A registers of a live thread with
a true guard, and its flag, is added to the gang, and the group holds at the word. Once the rendezvous has accepted,
the group goes on past the word and nothing else changes. The checks are spelled out: which control values, A entries,
slots, addresses and pitches are refused (R227 to R230). That a refused control value records no %faddr, its word's
address being %fpc, is the model's reading (log 16). -/
def Obligations.MatrixProductWordsMeetAtTheRendezvous : Prop :=
  ∀ (s : State) (g : Group) (r : TRef) (w : Workgroup) (th : Thread) (o : MmaArgs), Alone s g r w th →
    Ready s g { prefixKind := .mem, orders := [0, 2] } [] → ∀ p ∈ [(Instr.mmas o, 1), (Instr.mmag o, 2)],
    let gang := s.gangOf r.wg r.warp
    let c := s.warpReg r o.wc.toNat
    let key := gang.toNat % 2 ^ 23
    let on := th.pred o.guard.toNat
    (g.sent = true → s.inRendezvous g.id = false → exec p.1 s = .next (after s g fun _ t => t)) ∧
    (g.sent = false → th.executes = true → (∀ x ∈ w.gangs, ∀ a ∈ x.arrivals, a.who ≠ r) → (on = true → flagRoom g o.fs th) →
      (p.2 = 2 ∨ g.order = 2 → s.commandWaits g.core g.order g.scope s.nextId [r].contains = false) →
      let kb := 2 ^ o.kbc.toNat
      let regs := if (w.gang key).held.isSome then [] else registers o.va.toNat (kb * blockRegisters (c.toNat % 16))
      match productRefused s r w th p.2 o regs with
      | some d => exec p.1 s = .next (parkedAt (releasing s g) g (matrixFault s r d))
      | none => ∃ t v u h a, exec p.1 s = .next t ∧ t.wg? r.wg = some v ∧ v.thread? r.warp r.lane = some u ∧
          u = { th with products := th.products + 1 } ∧ t.groups.find? (·.id == g.id) = some h ∧ h.held = true ∧
          h.sent = true ∧ h.pc = g.pc ∧ (v.gang key).arrivals = (w.gang key).arrivals ++ [a] ∧
          a.who = r ∧ a.guard = on ∧ a.func = p.2 ∧ a.tile = o.tile.toNat ∧ a.keep = o.keep ∧ a.kbc = o.kbc.toNat ∧
          a.control = c ∧ a.gang = gang ∧ a.n = th.products + 1 ∧
          (p.2 = 1 → some a.bAddr.toNat = slotOf w kb c) ∧ (p.2 = 2 → a.bAddr = s.warpReg r (o.wc.toNat + 1)) ∧
          a.row = 32 * (gang.toNat / 2 ^ 23 % 4) + r.lane ∧
          a.regs = (if on = true ∧ th.status = .live then regs.map th.reg else []) ∧
          a.flag = if on = true then g.flagOf o.fs else none)

namespace Sys2Proof.Claims

/-- R232: a product term cut toward zero to a multiple of 2^q. -/
def cut (q : Int) (v : FVal) : Int := match v with
  | .fin neg m e =>
    let x : Nat := if q ≤ e then m * 2 ^ (e - q).toNat else m / 2 ^ (q - e).toNat
    if neg then -(x : Int) else x
  | _ => 0

/-- R232: the exponent of the leading bit of a term that is not zero. -/
def leading (v : FVal) : Option Int := match v with
  | .fin _ m e => if m = 0 then none else some ((Nat.log2 m : Int) + e)
  | _ => none

/-- R224: what each issuing thread of an operation gains or loses. -/
def issuerFlags (up : Bool) (as : List Arrival) (s : State) : State :=
  as.foldl (fun s a => if a.guard = true then s.updThread a.who fun t => if up then t.addFlag a.flag else t.subFlag a.flag
    else s) s

/-- The rendezvous of a gang is complete: every thread of its warps has issued its n-th word since GANG (R224). -/
def Complete (w : Workgroup) (key : Nat) (a : Arrival) (as : List Arrival) : Prop :=
  (∃ rest, (w.gang key).arrivals = a :: rest) ∧ as = w.arrivalsOf (gangMembers (BitVec.ofNat 32 key)) ∧
    ∀ t ∈ w.threads, t.warp ∈ gangMembers (BitVec.ofNat 32 key) → t.status ≠ .exited →
      ∃ b ∈ as, b.who = t.ref w.id ∧ b.n = a.n

end Sys2Proof.Claims

/-- One k-step replaces each element of the rows that the gang feeds by KStep of R232: the canonical NaN for a NaN or
infinities of both signs, an infinity for one, +0 where nothing is left, else the sum of the old element and the 32
products, each cut toward zero at 2^(E − 47) for the largest exponent E, rounded once (RNE). Rows that no thread feeds
count as zero rows. Other elements, the memory and the operations of threads are unchanged; the progress of the gang
goes up by one (R236). -/
def Obligations.MatrixStepsAccumulateExactly : Prop :=
  (∀ terms : List FVal,
    ((∃ t ∈ terms, t.isNan = true) ∨ (.inf true ∈ terms ∧ .inf false ∈ terms) → kStep terms = 0x7FC00000) ∧
    ((∀ t ∈ terms, t.isNan = false) → .inf true ∉ terms → .inf false ∈ terms → kStep terms = 0x7F800000) ∧
    ((∀ t ∈ terms, t.isNan = false) → .inf false ∉ terms → .inf true ∈ terms → kStep terms = 0xFF800000) ∧
    ((∀ t ∈ terms, ∃ n m e, t = .fin n m e) →
      (terms.filterMap leading = [] → kStep terms = 0) ∧
      ∀ top ∈ terms.filterMap leading, (∀ x ∈ terms.filterMap leading, x ≤ top) →
        let sum := (terms.map (cut (top - 47))).sum
        kStep terms = if sum = 0 then 0
          else BitVec.ofNat 32 (fp32.round 0 (.fin (decide (sum < 0)) sum.natAbs (top - 47))).1)) ∧
  (∀ (s s' : State) (core : Nat) (op : MatOp) (w : Workgroup) (cols : List (List FVal)),
    s.runningProduct core = some op → (∀ x ∈ (s.core core).matrix, x.id = op.id → x = op) →
    s.tileBusy op.wg op.tile op.id = false → s.fetchStep core op op.first = .cols s' cols → cols.length = 128 →
    s.wg? op.wg = some w → TilesOk w → ctlRq op.control + gangSize (BitVec.ofNat 32 op.gang) ≤ 4 →
    ∃ t v, exec (.matrixKStep core) s = .next t ∧ t.wg? op.wg = some v ∧ (v.gang op.gang).steps = op.first + 1 ∧
      ((t.core core).matrix = (s'.core core).matrix.map fun x => if x.id = op.id then
        { x with first := op.first + 1, finished := decide (2 ^ op.kbc ≤ op.first + 1) } else x) ∧
      t.mem = s'.mem ∧ t.ops = s.ops ∧
      ∀ k i j, i < 128 → j < 128 → element v k i j =
        if k = op.tile ∧ 32 * ctlRq op.control ≤ i ∧
            i < 32 * ctlRq op.control + 32 * gangSize (BitVec.ofNat 32 op.gang) then
          kStep (f32 (element w k i j) :: List.zipWith (fun a b => (a.mul b).1)
            (match op.rows.find? (·.1 == i - 32 * ctlRq op.control) with
              | some x => aStep (ctlAfmt op.control) x.2 op.first
              | none => List.replicate 32 (.fin false 0 0)) (cols.getD j []))
        else element w k i j)

/-- A complete rendezvous that agrees raises each guarded issuer's flag and queues one operation with its rows, held
rows kept iff keep; one that disagrees, or that is late, faults every issuer with GANG and queues nothing. The oldest
operation starts when none runs and no interrupted one holds its tile; a finished one lowers its issuers' flags and
goes. A B fetch fault keeps the operation, at its k-step, as the gang's pending one and leaves the tiles; when every
issuer has resumed it takes its place again with those cancelled behind it, and its completion clears pend (R237). -/
def Obligations.MatrixEngineEvents : Prop :=
  (∀ (s : State) (wg key : Nat) (w : Workgroup) (a : Arrival) (as : List Arrival), s.wg? wg = some w → w.id = wg →
    Complete w key a as →
    let x := w.gang key
    let agree := as.any (·.differs a) = false ∧ x.heldDiffers a = false
    (agree → x.pend = false → (s.gangOps wg key).length < 2 → w.core < s.cores.length →
      ∃ t v op, exec (.rendezvousAccept wg key) s = .next t ∧ t.wg? wg = some v ∧
        v.threads = (((issuerFlags true as s).wg? wg).map (·.threads)).getD [] ∧
        (∀ y ∈ v.gangs, ∀ b ∈ y.arrivals, b.who ∉ as.map (·.who)) ∧
        (t.core w.core).matrix = (s.core w.core).matrix ++ [op] ∧ op.wg = wg ∧ op.gang = key ∧ op.func = a.func ∧
        op.tile = a.tile ∧ op.kbc = a.kbc ∧ op.control = a.control ∧ op.issuers = as ∧ op.first = 0 ∧
        op.running = false ∧
        op.rows = (match x.held with
          | some h => h.2.2
          | none => (as.filter (·.regs != [])).map fun b => (b.row, b.regs)) ∧
        (v.gang key).held = (if a.keep = true then some (a.control.toNat % 16, 2 ^ a.kbc, op.rows) else none) ∧
        t.groups = s.groups.map fun h => { h with held := false }) ∧
    ((¬ agree ∨ s.rendezvousLate w key = true) → (as.map (·.who)).Nodup →
      (∀ b ∈ as, ∃ th, s.thread? b.who = some th ∧ th.executes = true ∧ b.who.wg = wg) →
      ∃ t, exec (if s.rendezvousLate w key = true then .rendezvousTimeout wg key else .rendezvousAccept wg key) s =
        .next t ∧ (∀ core, (t.core core).matrix = (s.core core).matrix) ∧
        ∀ b ∈ as, ∃ u, t.thread? b.who = some u ∧ u.isParked = true ∧ u.fcode = 0x23 ∧ u.pc = b.site.resume)) ∧
  (∀ (s : State) (core : Nat) (op : MatOp) (w : Workgroup), s.runningProduct core = none →
    (s.core core).matrix.find? (!·.running) = some op → s.latched op.wg op.tile op.id (op.issuers.map (·.who)) = false → s.wg? op.wg = some w →
    ∃ t v, exec (.matrixOpStart core) s = .next t ∧ (t.core core).matrix = ((s.core core).matrix.map fun x =>
        if x.id = op.id then { x with running := true } else x) ∧ t.wg? op.wg = some v ∧
      ((v.gang op.gang).steps, (v.gang op.gang).tile, (v.gang op.gang).kbc) = (op.first, op.tile, op.kbc) ∧
      v.threads = w.threads ∧ v.tiles = w.tiles) ∧
  (∀ (s : State) (core : Nat) (op : MatOp), (s.core core).matrix.find? (·.finished) = some op →
    ∃ t, exec (.matrixOpComplete core) s = .next t ∧
      (t.core core).matrix = (s.core core).matrix.filter (·.id != op.id) ∧
      t.wgs.map (·.threads) = (issuerFlags false op.issuers s).wgs.map (·.threads) ∧
      t.wgs.map (·.tiles) = s.wgs.map (·.tiles) ∧ t.mem = s.mem ∧
      ∀ w, s.wg? op.wg = some w → ∃ v, t.wg? op.wg = some v ∧
        (op.again = true → (w.gang op.gang).latch = [] → (v.gang op.gang).pend = false)) ∧
  (∀ (s s' : State) (core : Nat) (op : MatOp) (d : FaultDetail) (w : Workgroup), s.runningProduct core = some op →
    s.tileBusy op.wg op.tile op.id = false → s.fetchStep core op op.first = .fault s' d → s.wg? op.wg = some w → w.core = core →
    ∃ t v, exec (.bFetchFault core) s = .next t ∧ t.wg? op.wg = some v ∧ (v.gang op.gang).pend = true ∧
      (v.gang op.gang).steps = op.first ∧ (v.gang op.gang).latch.head? = some { op with running := false } ∧
      v.tiles = w.tiles ∧ ∀ x ∈ (t.core core).matrix, x.id ≠ op.id) ∧
  (∀ (s : State) (wg key : Nat) (w : Workgroup), s.wg? wg = some w → s.canReissue (w.gang key) = true →
    w.core < s.cores.length →
    ∃ t v, exec (.matrixReissue wg key) s = .next t ∧ t.wg? wg = some v ∧ (v.gang key).pend = (w.gang key).pend ∧
      (v.gang key).latch = [] ∧ v.threads = w.threads ∧ v.tiles = w.tiles ∧
      (t.core w.core).matrix =
        ((w.gang key).latch.mapIdx fun i o => { o with again := i == 0 }).foldr insertOp (s.core w.core).matrix)

namespace Sys2Proof.Claims

/-! ## Slot rings (R250 to R263) -/

/-- R253: the ring that a descriptor defines, none for an undefinition, or the code of its fault; the members that are out
(ended or flushed, R259) do not count in it. -/
def ringOf (d : DWord) (w : Workgroup) (ident : Nat) (out : Nat → Bool) : Except (BitVec 8) (Option Ring) :=
  let base := d.toNat % 2 ^ 21
  let slotsz := d.toNat / 2 ^ 21 % 2 ^ 13
  let n := d.toNat / 2 ^ 34 % 16 + 1
  let rdrs := d.toNat / 2 ^ 38 % 32 + 1
  let mc := d.getLsbD 43
  let srcm := d.toNat / 2 ^ 44 % 16
  let cmask : BitVec 16 := BitVec.ofNat 16 (d.toNat / 2 ^ 48)
  if slotsz = 0 then .ok none
  else if base % 128 ≠ 0 ∨ w.window < base + n * (slotsz * 128) then .error 0x25
  else if mc = false ∧ (cmask ≠ 0 ∨ srcm ≠ 0) then .error 0x02
  else if mc = true ∧ (w.csz ≤ srcm ∨ cmask.getLsbD srcm = false ∨ cmask.getLsbD w.member = false) then .error 0x25
  else .ok (some ⟨base, slotsz * 128, n, rdrs, mc, srcm, cmask, 0, 0, 0, List.replicate n .free, 0,
    List.replicate n 0, [], (List.range 16).filter fun m => cmask.getLsbD m && out m, ident⟩)

/-- One workgroup with another ring q. -/
def withRing (wg q : Nat) (x : Option Ring) (s : State) : State :=
  { s with wgs := s.wgs.map fun w => if w.id = wg then { w with rings := w.rings.setIfInBounds q x } else w }

/-- R262: the slot that a value names, refused where it is no slot that the warp may release. -/
def slotNamed (x : Ring) (warp : Nat) (v : Word) : Option Nat :=
  let off := v.toNat % 2 ^ 21
  let i := (off - x.base) / x.slotBytes
  if v.getLsbD 31 = true ∨ off < x.base ∨ (off - x.base) % x.slotBytes ≠ 0 ∨ x.n ≤ i ∨ x.slots.getD i .free ≠ .taken ∨
      (x.relMasks.getD i 0).getLsbD warp = true then none
  else some i

/-- R261: a warp has taken the slot at t. -/
def taken (x : Ring) (warp : Nat) : Ring :=
  let m := x.takeMask ||| (1#32 <<< warp)
  if ((List.range 32).filter fun i => m.getLsbD i).length = x.readers then
    { x with slots := x.slots.set (x.take % x.n) .taken, take := (x.take + 1) % (2 * x.n), takeMask := 0 }
  else { x with takeMask := m }

end Sys2Proof.Claims

/-- For a ready group of one member: RINGDEF refuses a ring with claims outstanding (at a member of a multicast ring
that is not its source none count, the model's reading, log 15) and the descriptors that R253 refuses, else defines or
undefines the ring after serving its pending requests with none; AWAITF of an undefined ring faults RING_STATE, else
leaves one request on its flag; RELS of a value that names no slot the warp may release faults RING_STATE, else sets
the warp's bit and frees, in order, each taken slot that every reader has released; a member of a multicast ring
reports its counter, and its source hears a member's reports in their order. A false guard changes nothing but the
place in the clause. The first request of a ring whose warp may take the slot at t receives its window offset, bit 30
set for an error, and its warp's bit is set; when every reader has it the slot is taken and t goes on. A request that
has waited %colto ticks receives 0x8000_0000; before that, and with %colto = 0, nothing happens. -/
def Obligations.RingWordsAndRequestsActInOrder : Prop :=
  (∀ (s : State) (g : Group) (r : TRef) (w : Workgroup) (th : Thread), Alone s g r w th →
    let stays := after s g fun _ t => t
    let refused (c : BitVec 8) : State := parkedAt s g { code := c }
    (∀ o : RingDefArgs, Ready s g {} [] →
      let d := s.warpReg r o.wd.toNat
      (th.pred o.guard.toNat = false → exec (.ringdef o) s = .next stays) ∧
      (th.pred o.guard.toNat = true → (∃ x, w.ring? o.ring.toNat = some x ∧ (x.mc = false ∨ w.member = x.srcm) ∧
          x.claim ≠ x.release) →
        exec (.ringdef o) s = .next (refused 0x25)) ∧
      (th.pred o.guard.toNat = true → (∀ x, w.ring? o.ring.toNat = some x → (x.mc = true ∧ w.member ≠ x.srcm) ∨
          x.claim = x.release) → match ringOf d w (s.nextId + 1) (s.memberOut w) with
        | .error c => exec (.ringdef o) s = .next (refused c)
        | .ok x => ∃ t v, exec (.ringdef o) s = .next t ∧ t.wg? r.wg = some v ∧ v.ring? o.ring.toNat = x ∧
            t.requests r.wg o.ring.toNat = [] ∧ t.mem = s.mem ∧
            (s.requests r.wg o.ring.toNat = [] →
              t = { withRing r.wg o.ring.toNat x stays with nextId := s.nextId + 1 }))) ∧
    (∀ o : AwaitArgs, Ready s g {} [o.vd.toNat] →
      (th.pred o.guard.toNat = false → exec (.awaitf o) s = .next stays) ∧
      (th.pred o.guard.toNat = true → flagRoom g o.fs th → exec (.awaitf o) s = .next (
        if w.ring? o.ring.toNat = none then refused 0x25
        else afterOp s g (newOp s g r th (g.flagOf o.fs) (.awaitf o.ring.toNat s.time) o.vd.toNat 1)))) ∧
    (∀ o : RelsArgs, Ready s g {} [o.va.toNat] →
      (th.pred o.guard.toNat = false → exec (.rels o) s = .next stays) ∧
      (th.pred o.guard.toNat = true → s.releaseWaits r 0 s.nextId = false →
        (w.ring? o.ring.toNat = none → exec (.rels o) s = .next (refused 0x25)) ∧
        ∀ x, w.ring? o.ring.toNat = some x → match slotNamed x r.warp (th.reg o.va.toNat) with
          | none => exec (.rels o) s = .next (refused 0x25)
          | some i =>
            let m := x.relMasks.getD i 0 ||| (1#32 <<< r.warp)
            let y := Ring.advance x.n { x with relMasks := x.relMasks.set i m }
            ∃ t, exec (.rels o) s = .next t ∧ t.wgs = (withRing r.wg o.ring.toNat (some y) stays).wgs ∧
              t.groups = stays.groups ∧ t.ops = s.ops ∧ t.mem = s.mem ∧
              (x.mc = false ∨ w.member = x.srcm → t.reports = s.reports) ∧
              ∀ z ∈ t.reports, z ∈ s.reports ∨ (z.ring = o.ring.toNat ∧ z.member = w.member ∧ z.l = y.release)))) ∧
  (∀ (x : Ring) (fuel : Nat), 1 ≤ fuel → 1 ≤ x.n → x.release % x.n < x.slots.length →
    let i := x.release % x.n
    (x.slots.getD i .free = .taken → ((List.range 32).filter fun k => (x.relMasks.getD i 0).getLsbD k).length = x.readers →
      Ring.advance fuel x = Ring.advance (fuel - 1) { x with slots := x.slots.set i .free, relMasks := x.relMasks.set i 0,
                                                             release := (x.release + 1) % (2 * x.n) }) ∧
    (x.slots.getD i .free ≠ .taken ∨ ((List.range 32).filter fun k => (x.relMasks.getD i 0).getLsbD k).length ≠ x.readers →
      Ring.advance fuel x = x)) ∧
  (∀ (s : State) (o : PendingOp) (keep : Nat) (wg q since : Nat) (x : Ring) (phase err : Bool), s.op? o.id = some o →
    o.kind = .awaitf q since → (o.who.map (·.wg)).headD 0 = wg → (s.wg? wg).bind (·.ring? q) = some x → 1 ≤ x.n →
    (s.requests wg q).find? (fun p => (x.serves p.warpBit).isSome) = some o →
    x.slots.getD (x.take % x.n) .free = .filled phase err →
    phase = decide (x.n ≤ x.take) ∧ x.takeMask.getLsbD o.warpBit = false ∧
    exec (.awaitfService o.id keep) s = .next (completed (withRing wg q (some (taken x o.warpBit)) s) o
      [BitVec.ofNat 32 (x.base + x.take % x.n * x.slotBytes + if err then 2 ^ 30 else 0)] 0 keep)) ∧
  (∀ (s : State) (o : PendingOp) (keep : Nat) (q since : Nat) (w : Workgroup), s.op? o.id = some o →
    o.kind = .awaitf q since → s.wg? ((o.who.map (·.wg)).headD 0) = some w →
    (w.colto ≠ 0 → since + 20 * w.colto ≤ s.time →
      exec (.awaitfTimeout o.id keep) s = .next (completed s o [0x80000000] 0 keep)) ∧
    (w.colto = 0 ∨ s.time < since + 20 * w.colto → exec (.awaitfTimeout o.id keep) s = .next s)) ∧
  (∀ (s : State) (idx : Nat) (z : Report), s.reports[idx]? = some z →
    (∀ y ∈ s.reports.take idx, ¬(y.src = z.src ∧ y.ring = z.ring ∧ y.member = z.member)) →
    ∃ t, exec (.releaseReportArrival idx) s = .next t ∧ t.reports = s.reports.eraseIdx idx ∧ t.ops = s.ops ∧
      t.wgs.map (·.threads) = s.wgs.map (·.threads) ∧
      ∀ w x, s.wg? z.src = some w → w.ring? z.ring = some x → x.ident = z.ident →
        ∃ v y, t.wg? z.src = some v ∧ v.ring? z.ring = some y ∧ countOf z.member y.heard = z.l ∧
          ∀ k, k ≠ z.member → countOf k y.heard = countOf k x.heard)

namespace Sys2Proof.Claims

/-! ## Copies (R245 to R265) -/

/-- The four command registers of a warp. -/
def command (s : State) (r : TRef) (k : Nat) : List DWord := (List.range 4).map fun i => s.warpReg r (4 * k + i)

/-- R254, R256, R257, R258: the fields of a copy command that can be refused, in the order of its map: whether each is, and
its value. Kinds: 0 CPYIN, 1 CPYOUT, 2 CPYMC, 3 CPYQ2. -/
def refusable (kind : Nat) (c : List DWord) (window : Nat) : List (Bool × Nat) :=
  let x (i : Nat) : Nat := (c.getD i 0).toNat
  let zero (n : Nat) : Bool × Nat := (n != 0, n)
  let fours (n : Nat) : Bool × Nat := (n % 4 != 0, n)
  let rowb := x 1 % 2 ^ 20
  let row : Bool × Nat := (decide (rowb < 4) || rowb % 4 != 0, rowb)
  let spitch := x 3 / 2 ^ 36 % 2 ^ 16
  let soff := x 3 % 2 ^ 21
  let size := if x 3 / 2 ^ 21 % 2 = 1 then 2 else 4
  let format (n : Nat) : Bool × Nat := (n == 0 || n == 7, n)
  if kind = 1 then [row, zero (x 2 / 2 ^ 21), fours (x 2 % 2 ^ 21), zero (x 3)]
  else if kind = 3 then [zero (x 2 % 2 ^ 16), zero (x 3 / 2 ^ 52), fours spitch, format (x 3 / 2 ^ 25 % 8),
    format (x 3 / 2 ^ 22 % 8), (soff % 4 != 0 || decide (window < soff + 31 * spitch + 32 * size), soff)]
  else [row, zero (x 2 / 2 ^ 36), (x 2 / 2 ^ 34 % 4 == 3, x 2 / 2 ^ 34 % 4), zero (x 2 / 2 ^ 32 % 4),
    fours (x 2 / 2 ^ 12 % 2 ^ 20), zero (x 2 / 2 ^ 3 % 2 ^ 9), zero (x 3 / 2 ^ 16), (kind == 0 && x 3 % 2 ^ 16 != 0, x 3 % 2 ^ 16)]

/-- R255, R259: the ring rules of CPYIN and CPYMC: the value that breaks one. -/
def ringRefusal (kind : Nat) (c : List DWord) (w : Workgroup) : Option Nat :=
  let x (i : Nat) : Nat := (c.getD i 0).toNat
  let q := x 2 % 8
  let mask : BitVec 16 := BitVec.ofNat 16 (x 3)
  match w.rings.toList.getD q none with
  | none => some q
  | some g =>
    if kind = 2 then
      if g.mc = false ∨ g.srcm ≠ w.member then some q
      else if mask = 0 ∨ mask &&& g.cmask ≠ mask then some mask.toNat else none
    else if g.mc = true then some q
    else if x 2 / 2 ^ 34 % 4 = 0 ∧ g.slotBytes < x 2 / 2 ^ 12 % 2 ^ 20 + (x 1 / 2 ^ 20 % 2 ^ 12 + 1) * (x 1 % 2 ^ 20) then
      some (x 2 / 2 ^ 12 % 2 ^ 20)
    else none

/-- R248: the checks of a copy command in their order; of a warp of helpers its rings are not looked at (R83, R246). -/
def copyRefused (kind : Nat) (c : List DWord) (w : Workgroup) (live : Bool) : Option FaultDetail :=
  let x (i : Nat) : Nat := (c.getD i 0).toNat
  let addresses := if kind = 3 then [x 0, x 1] else [x 0]
  let pitches := if kind = 3 then [x 2 / 2 ^ 16 % 2 ^ 24, x 2 / 2 ^ 40] else [x 1 / 2 ^ 32]
  let naming (code : BitVec 8) (n : Nat) : Option FaultDetail := some { code := code, addr := BitVec.ofNat 64 n }
  match (refusable kind c w.window).find? (·.1) with
  | some f => naming 0x02 f.2
  | none =>
    if live = true ∧ kind = 2 ∧ x 3 % 2 ^ 16 / 2 ^ w.csz ≠ 0 then naming 0x24 (x 3 % 2 ^ 16)
    else match if live = true ∧ kind % 2 = 0 then ringRefusal kind c w else none with
      | some n => naming 0x25 n
      | none =>
        if kind = 1 ∧ w.window < x 2 % 2 ^ 21 + (x 1 / 2 ^ 20 % 2 ^ 12 + 1) * (x 1 % 2 ^ 20) then naming 0x12 (x 2 % 2 ^ 21)
        else match addresses.find? (2 ^ 57 ≤ ·) with
          | some n => naming 0x12 n
          | none => ((addresses ++ pitches).find? (· % 4 ≠ 0)).bind (naming 0x10)

/-- R264, R282: status words of a number as software reads them; `bit` is the place of expired, pend lies below it. -/
def statusRead (s : State) (core k bit : Nat) (num : DWord) : List Word :=
  match ((s.core core).stats.toList.getD k []).find? fun x => x.num == num.toNat with
  | some x => [x.lo ||| (if ((s.core core).tl.toList.getD k Timeline.reset).retired < x.num then 1#32 <<< (bit - 1) else 0),
      x.hi]
  | none => [1#32 <<< bit, 0]

/-- The predicate of the members of a warp that asked. -/
def answered (g : Group) (pd : BitVec 3) (b : Bool) (s : State) : State :=
  after s g fun _ t => t.setPred pd.toNat b

/-- R249: a command in the queue of its core. -/
structure Queued (s t : State) (r : TRef) (w : Workgroup) (num : Nat) : Prop where
  number : num = ((s.core w.core).tl.toList.getD 0 Timeline.reset).next
  taken : w.core < s.cores.length → ((t.core w.core).tl.toList.getD 0 Timeline.reset).next = num + 1
  memory : t.mem = s.mem ∧ t.l2 = s.l2 ∧ t.ops = s.ops
  mark : ∃ v, t.wg? r.wg = some v ∧ v.marks = w.marks.set 0 num ∧ v.scratch = w.scratch

end Sys2Proof.Claims

/-- For a ready group of one member with room in the queue (that a command waits for room before its checks is the
model's choice, log 15): a copy command that R248 refuses, by the checks spelled out in their order, parks the member
(%faddr is the address, or the value of the field, log 15); a helper's is checked without its rings (R83) and only
answers 1; CPYIN and CPYMC of a full ring answer 0 and do nothing; else the command takes the next number of %tl.copy,
which goes to its warp register and to the mark of the workgroup, one operation with its command, order and scope is
queued, its ring slot is claimed, the predicate reads 1 and no byte of memory has changed; CPYMC taints. CPYST returns
the status of a number, or expired. A false guard changes nothing but the place in the clause. -/
def Obligations.CopyCommandsTakeANumberAndAnEntry : Prop :=
  ∀ (s : State) (g : Group) (r : TRef) (w : Workgroup) (th : Thread), Alone s g r w th → g.core = w.core →
    (Ready s g { prefixKind := .mem, orders := [0, 2] } [] → ∀ (k pd gd : BitVec 3) (ws : BitVec 5),
      ∀ p ∈ [(Instr.cpyin ⟨k, pd, ws, gd⟩, 0, pd), (.cpyout ⟨k, ws, gd⟩, 1, 0), (.cpymc ⟨k, pd, ws, gd⟩, 2, pd),
        (.cpyq2 ⟨k, ws, gd⟩, 3, 0)],
      let kind := p.2.1
      let c := command s r k.toNat
      let q := (c.getD 2 0).toNat % 8
      let ring := if kind % 2 = 0 then w.ring? q else none
      (th.pred gd.toNat = false → exec p.1 s = .next (after s g fun _ t => t)) ∧
      (th.pred gd.toNat = true → (th.status = .live → s.copyRoom w.core [(r.wg, r.warp)] = true) →
        (∀ d, copyRefused kind c w (th.status == .live) = some d → exec p.1 s = .next (parkedAt s g d)) ∧
        (copyRefused kind c w false = none → th.status = .helper → exec p.1 s = .next (answered g p.2.2 true s)) ∧
        (copyRefused kind c w true = none → th.status = .live → (∃ x, ring = some x ∧ x.full = true) →
          exec p.1 s = .next (answered g p.2.2 false s)) ∧
        (copyRefused kind c w true = none → th.status = .live → (∀ x, ring = some x → x.full = false) →
          ∃ t u op num, exec p.1 s = .next t ∧ Queued s t r w num ∧ t.copies = s.copies ++ [op] ∧
            op.core = w.core ∧ op.num = num ∧ op.wg = r.wg ∧ op.kind = kind ∧ op.cmd = c ∧ op.order = g.order ∧
            op.scope = g.scope ∧ op.stage = .queued ∧ op.units = 0 ∧ op.fault = 0 ∧
            (ws ≠ 0 → ∀ x, s.warp? r.wg r.warp = some x → x.w.toList.length = 32 →
              t.warpReg r ws.toNat = BitVec.ofNat 64 num) ∧
            (∀ x, ring = some x → q < 8 → op.slot = x.claim % x.n ∧ op.phase = decide (x.n ≤ x.claim) ∧
              ∃ v, t.wg? r.wg = some v ∧ v.ring? q = some { x with
                slots := x.slots.set (x.claim % x.n) .claimed, claim := (x.claim + 1) % (2 * x.n) }) ∧
            t.thread? r = some u ∧ u.v = th.v ∧ u.p = (th.setPred p.2.2.toNat true).p ∧
            u.taint = (th.taint || kind == 2)))) ∧
    (∀ o : StatVArgs, Ready s g {} (registers o.vd.toNat 2) → exec (.cpyst o) s = .next (after s g fun _ t =>
      if t.pred o.guard.toNat = true then
        t.setRegs o.vd.toNat (statusRead s w.core 0 18 (s.warpReg r o.ws.toNat)) else t))

namespace Sys2Proof.Claims

/-- R255 to R258: the pieces of an operation in their order, for source pages of a format: rows of bytes cut at sectors, then
for pass-through from format pages the blocks' entries; decoded blocks; rows of the window; or the blocks of CPYQ2. -/
def unitsOf (kind : Nat) (c : List DWord) (fmt : Nat) : List CopyUnit :=
  let x (i : Nat) : Nat := (c.getD i 0).toNat
  let rows := x 1 / 2 ^ 20 % 2 ^ 12 + 1
  let rowb := x 1 % 2 ^ 20
  let start (a : Nat) : Nat := (x 0 + a * (x 1 / 2 ^ 32)) % 2 ^ 64
  let blocks := (List.range rows).flatMap fun a => (List.range (rowb / bytesOf fmt)).map fun j => start a + j * bytesOf fmt
  if kind = 1 then (List.range rows).flatMap fun a => (pieces (start a) rowb).map fun p =>
    .out (x 2 % 2 ^ 21 + a * rowb + (p.1 - start a)) p.1 p.2
  else if kind = 3 then [(false, x 3 / 2 ^ 22 % 8), (true, x 3 / 2 ^ 25 % 8)].flatMap fun f => (List.range 32).flatMap fun line =>
    (List.range (32 / elementsOf f.2)).map fun k => .block f.1 line k
  else if x 2 / 2 ^ 34 % 4 = 0 then ((List.range rows).flatMap fun a => (pieces (start a) rowb).map fun p => .raw p.1 p.2) ++
    (if fmt = 0 then [] else blocks.map .entry)
  else blocks.map .decoded

/-- R251, R255, R259: bytes that follow what an operation has put into its slot: a CPYMC keeps them for its deliveries; those of
a ring that is another one by now are lost (R265). -/
def intoSlot (s : State) (op : CopyOp) (bs : List Byte) : State × CopyOp :=
  let more := { op with data := op.data ++ bs }
  if op.kind = 2 then (s, more)
  else match (s.wg? op.wg).bind fun w => w.rings.toList.getD op.ring none with
    | none => (s, { more with partial_ := true })
    | some q => if q.ident = op.ident then
        (withWindow op.wg (q.base + op.slot * q.slotBytes + (op.cmd.getD 2 0).toNat / 2 ^ 12 % 2 ^ 20 + op.data.length) bs s, more)
      else (s, { more with partial_ := true })

/-- R203: element i of a block, from its bytes and its entry. -/
def blockElement (fmt : Nat) (entry : Nat) (bs : List Byte) (i : Nat) : FVal :=
  let h := blockWidth fmt / 2
  elementAt fmt entry (i / 4 * h) (bs.drop (i / 4 * h / max 2 h * max 2 h)) (i % 4)

/-- R258: element (a, b) of the source tile in the window. -/
def tileValue (s : State) (op : CopyOp) (a b : Nat) : Word :=
  let x (i : Nat) : Nat := (op.cmd.getD i 0).toNat
  let size := if x 3 / 2 ^ 21 % 2 = 1 then 2 else 4
  let v := ofLe (s.copyWindow op (x 3 % 2 ^ 21 + a * (x 3 / 2 ^ 36 % 2 ^ 16) + b * size) size)
  BitVec.ofNat 32 (if size = 2 then v * 2 ^ 16 else v)

/-- R255 to R258: what one piece of an operation does. -/
def UnitDone (fmt : Nat) (s : State) (op : CopyOp) (v : State) (y : CopyOp) : CopyUnit → Prop
  | .raw va n => ∃ w bs b, s.engineRead op.agent op.core op.part va n (fun _ => true) = .done w bs b ∧ (v, y) = intoSlot w op bs
  | .entry va => ∃ l w bs b, s.findLeaf op.core op.part va = .ok l ∧ s.engineRead op.agent op.core op.part
      (entryAddress l va).toNat 2 (· == 0) = .done w bs b ∧ (v, y) = intoSlot w op bs
  | .decoded va => ∃ l u es b w bs d, s.findLeaf op.core op.part va = .ok l ∧ s.engineRead op.agent op.core op.part
        (entryAddress l va).toNat 2 (· == 0) = .done u es b ∧ ValidEntry (ofLe es) ∧
      u.engineRead op.agent op.core op.part va (bytesOf fmt) (fun _ => true) = .done w bs d ∧
      (let single := (op.cmd.getD 2 0).toNat / 2 ^ 34 % 4 = 1
       let r (i : Nat) : Nat × BitVec 5 := (if single then fp32 else bf16).round 0 (blockElement fmt (ofLe es) bs i)
       let z := intoSlot w op ((List.range (elementsOf fmt)).flatMap fun i => leBytes (if single then 4 else 2) (r i).1)
       (v, y) = (z.1, { z.2 with exc := z.2.exc ||| (List.range (elementsOf fmt)).foldl (fun a i => a ||| (r i).2) 0 }))
  | .out off va n => (v, y) = (s.engineWrite op.core op.part va (s.copyWindow op off n), op)
  | .block col line k =>
    let x (i : Nat) : Nat := (op.cmd.getD i 0).toNat
    let f := if col then x 3 / 2 ^ 25 % 8 else x 3 / 2 ^ 22 % 8
    let q := quantise f (if col then x 3 / 2 ^ 32 % 16 else x 3 / 2 ^ 28 % 16) ((List.range (elementsOf f)).map fun i =>
      if col then tileValue s op (k * elementsOf f + i) line else tileValue s op line (k * elementsOf f + i))
    let va := ((if col then x 1 + line * (x 2 / 2 ^ 40) else x 0 + line * (x 2 / 2 ^ 16 % 2 ^ 24)) + k * bytesOf f) % 2 ^ 64
    ∃ l, s.findLeaf op.core op.part va = .ok l ∧ (v, y) =
      ((s.engineWrite op.core op.part va q.bytes).engineWrite op.core op.part (entryAddress l va).toNat (leBytes 2 q.entry.toNat),
        { op with exc := op.exc ||| reportBits q })

/-- Pieces done one after the other. -/
def UnitsDone (fmt : Nat) : List CopyUnit → State → CopyOp → State → CopyOp → Prop
  | [], s, op, t, z => t = s ∧ z = op
  | u :: us, s, op, t, z => ∃ v y, UnitDone fmt s op v y u ∧ UnitsDone fmt us v { y with units := op.units + 1 } t z

/-- The pieces that an operation has not done. -/
def unitsToDo (op : CopyOp) : List CopyUnit := (unitsOf op.kind op.cmd (op.fmt.getD 0)).drop op.units

end Sys2Proof.Claims

/-- The first command of a core's queue starts while fewer than 16 run, once neither its release nor an earlier one of
its warp waits (R182); with release the dirty lines of its core are written back for it. An operation that has done
its units completes: its number retires when every lower one has, its slot is filled with its phase, and it is over
once its number has retired. A translation fault holds it with a kind-2 record, which joins those of its core. A
delivery of CPYMC writes the data into the slot of a member of the mask and fills the slot (with error for the others,
R259), and is ticked off. A piece of CPYOUT writes the bytes of the window to its address and no others. What an
operation moves is spelled out piece by piece: CPYIN and CPYMC read their rows in order, in pieces of one sector, and
place them in the slot behind each other, then the entries of the blocks, or decode block after block, rounding each
element (R203, R204); CPYQ2 quantises rows, then columns of the tile in the window and writes each block and its
entry. Pieces done at several events come to what one event does. That an event performs as many pieces, in order, as
the next pick says is the model's choice (log 15). -/
def Obligations.CopyOperationsRunAndComplete : Prop :=
  (∀ (x : Timeline) (num : Nat), let y := x.complete num
    y.next = x.next ∧ x.retired ≤ y.retired ∧ (∀ k, x.retired < k → k ≤ y.retired → k = num ∨ k ∈ x.completed) ∧
      ¬(y.retired + 1 = num ∨ y.retired + 1 ∈ x.completed)) ∧
  (∀ (s : State) (core : Nat) (op : CopyOp) (rest : List CopyOp), s.copyQueue core = op :: rest →
    let busy := (s.copies.filter fun x => x.core == core && x.stage != .queued && x.stage != .done).length
    (16 ≤ busy → exec (.copyCommandStart core) s = .next s) ∧
    (s.warpCommandWaits op.order op.scope op.wg op.warp op.issuedBy = true → exec (.copyCommandStart core) s = .next s) ∧
    (busy < 16 → s.warpCommandWaits op.order op.scope op.wg op.warp op.issuedBy = false → op.order < 3 → op.order ≠ 1 →
      exec (.copyCommandStart core) s = .next ((if op.order = 2 then s.l1WriteBackAll core else s).setCopy
        { op with stage := .running }))) ∧
  (∀ (s s' : State) (core num : Nat) (op op' : CopyOp), s.copy? core num = some op → op.stage = .running →
    (op.kind ≠ 2 ∨ (op.deliver ≠ [] ∧ op.fault = 0) → s.runCopy op (s.picks.headD 0) = .done s' op' →
      op.kind = 2 ∨ unitsToDo op' ≠ [] → exec (.copyOpComplete core num) s = .next (s'.setCopy op')) ∧
    (op.kind ≠ 2 → s.runCopy op (s.picks.headD 0) = .done s' op' → unitsToDo op' = [] → op'.core = core → op'.num = num →
      op'.kind = op.kind → ∃ t, exec (.copyOpComplete core num) s = .next t ∧ t.mem = s'.mem ∧ t.l2 = s'.l2 ∧ t.ops = s'.ops ∧
        (∀ x, x.core ≠ core ∨ x.num ≠ num → (x ∈ t.copies → x ∈ s'.copies) ∧
          (x ∈ s'.copies → x.stage ≠ .done → x ∈ t.copies)) ∧
        (∀ x ∈ t.copies, x.core = core → x.num = num → x.stage = .done ∧ (t.timeline core 0).retired < num) ∧
        (core < s'.cores.length → t.timeline core 0 = (s'.timeline core 0).complete num) ∧
        (op.kind = 0 → ∀ w x, s'.wg? op'.wg = some w → w.ring? op'.ring = some x → x.ident = op'.ident →
          op'.slot < x.slots.length → ∃ v y, t.wg? op'.wg = some v ∧ v.ring? op'.ring = some y ∧
            y.slots.getD op'.slot .free = .filled op'.phase (op'.fault != 0))) ∧
    (op.kind = 2 → op.deliver = [] → ∃ t, exec (.copyOpComplete core num) s = .next t ∧ t.mem = s.mem ∧
      (core < s.cores.length → op.core = core → op.num = num →
        t.timeline core 0 = (s.timeline core 0).complete num)) ∧
    (∀ d, op.kind ≠ 2 → s.runCopy op (s.picks.headD 0) = .fault s' op' d → d.code = 0x11 ∨ d.code = 0x14 →
      exec (.copyOpComplete core num) s = .next s) ∧
    (∀ d, op.kind ≠ 2 → s.runCopy op (s.picks.headD 0) = .fault s' op' d → d.code ≠ 0x11 → d.code ≠ 0x14 → op'.core = core →
      op'.num = num → core < s'.cores.length → ∃ t, exec (.copyOpComplete core num) s = .next t ∧ t.mem = s'.mem ∧
        t.timeline core 0 = (s'.timeline core 0).complete num ∧
        ∀ x ∈ t.copies, x.core = core → x.num = num → x.stage = .done) ∧
    (∀ d, op.fault = 0 → s.runCopy op 0 = .fault s' op' d → d.code = 0x11 ∨ d.code = 0x14 →
      op'.core = core → core < s'.cores.length →
      ∃ t z, exec (.copyTranslationFault core num) s = .next t ∧
        t.copies = (s'.setCopy { op' with stage := .faulted, fault := d.code.toNat }).copies ∧
        (t.core core).records ++ (t.core core).unformed = (s'.core core).records ++ (s'.core core).unformed ++ [z] ∧ z.code = d.code ∧ z.kind = 2 ∧ z.addr = d.addr ∧
        z.pc = BitVec.ofNat 64 num)) ∧
  (∀ (s : State) (core num member : Nat) (op : CopyOp) (w : Workgroup) (x : Ring), s.copy? core num = some op →
    op.stage = .running → op.kind = 2 → member ∈ op.deliver → op.fault ≠ 0 ∨ s.runCopy op 0 = .done s op →
    op.core = core → op.num = num → s.cohortMember op member = some w → s.wg? w.id = some w →
    w.ring? op.ring = some x → w.place ≠ .flushed → x.shape.drop 1 = op.shape.drop 1 → op.slot < x.slots.length →
    ∃ t v y, exec (.multicastDelivery core num member) s = .next t ∧ t.wg? w.id = some v ∧ v.ring? op.ring = some y ∧
      v.scratch = (if (cpMmask op.cmd).getLsbD member = true then
        Memory.setBytes w.scratch (x.base + op.slot * x.slotBytes + cpSoff op.cmd) op.data else w.scratch) ∧
      y.slots.getD op.slot .free = .filled op.phase (!(cpMmask op.cmd).getLsbD member || op.fault != 0) ∧
      t.copies = s.copies.map (fun z => if z.core == core && z.num == num then
        { op with deliver := op.deliver.filter (· != member) } else z)) ∧
  (∀ (s : State) (op : CopyOp) (l : Leaf) (off va n : Nat), 1 ≤ n → va % 128 + n ≤ 128 →
    checked s op.core op.part (BitVec.ofNat 64 va) 1 { w := true } = .ok l →
    let a := reaching (BitVec.ofNat 64 va) n l 0 0
    Granted s a true → Plain (s.tlbInsert op.core op.part l) (s.homeAddr a.pa) n l →
    (s.copyWindow op off n).length = n → ∃ t, s.copyUnit op 0 (.out off va n) = .done t op ∧
      (∀ i < n, t.l2Byte (s.homeAddr a.pa + i) = (s.copyWindow op off n).getD i 0) ∧
      (∀ y, (y < s.homeAddr a.pa ∨ s.homeAddr a.pa + n ≤ y) → t.l2Byte y = s.l2Byte y)) ∧
  (∀ (s t : State) (op z : CopyOp) (n : Nat), s.runCopy op n = .done t z →
    let start := { op with fmt := z.fmt }
    UnitsDone (z.fmt.getD 0) (if n = 0 then unitsToDo start else (unitsToDo start).take n) s start t z ∧
      t.runCopy z 0 = s.runCopy op 0) ∧
  (∀ va n, ((pieces va n).flatMap fun p => (List.range p.2).map (p.1 + ·)) = (List.range n).map (va + ·) ∧
    ∀ p ∈ pieces va n, 1 ≤ p.2 ∧ p.1 % 128 + p.2 ≤ 128)

namespace Sys2Proof.Claims

/-! ## Row operations (R268 to R291) -/

/-- R270, R283: why a row command is refused, and the value that its record names. -/
def rowRefused (func : Nat) (c : List DWord) (wc : DWord) : Option FaultDetail :=
  let dst := c.getD 0 0
  let srca := c.getD 1 0
  let srcb := c.getD 2 0
  let w3 := c.getD 3 0
  let b := func = 2 ∨ func = 3 ∨ func = 5 ∨ func = 6
  let named := [dst, srca] ++ (if b then [srcb] else []) ++ (if func = 5 then [wc] else [])
  let rows := [dst, srca] ++ (if func = 2 ∨ func = 3 ∨ func = 5 then [srcb] else []) ++ (if func = 5 then [wc] else [])
  if ¬ b ∧ srcb ≠ 0 then some { code := 0x02, addr := srcb }
  else if 2 ^ 38 ≤ w3.toNat ∨ w3.getLsbD 12 = true ∨ w3.getLsbD 15 = true ∨ (func = 6 ∧ w3.toNat % 2 ^ 12 ≠ 0) ∨
      (func ≠ 6 ∧ w3.toNat / 2 ^ 13 ≠ 0) then some { code := 0x02, addr := w3 }
  else match named.find? fun a => decide (2 ^ 57 ≤ a.toNat) with
    | some a => some { code := 0x12, addr := a }
    | none => match rows.find? fun a => decide (a.toNat % 2048 ≠ 0) with
      | some a => some { code := 0x30, addr := a }
      | none => if func = 6 ∧ srcb.toNat % 4 ≠ 0 then some { code := 0x10, addr := srcb } else none

/-- R280: a byte of the destination row. -/
def rowByte (func : Nat) (a b c : Byte) : Byte :=
  if func = 2 then a &&& b else if func = 3 then a ||| b else if func = 4 then ~~~a
  else if func = 5 then (a &&& b) ||| (a &&& c) ||| (b &&& c) else a

/-- R279, R185: a row that its step can read: generation, codes and keys hold, and no move is on its way. -/
def RowPlain (s : State) (pa : Nat) (l : Leaf) : Prop :=
  s.moveAt? pa = none ∧ pa % 2048 = 0 ∧ s.damage = [] ∧ s.genOk l pa = true ∧
    ∀ u, pa / 64 ≤ u → u < pa / 64 + 32 → s.isCleared (u * 64) = true ∨
      (s.sameKeys u l.fold l.open_ = true ∧ ∀ x ∈ s.poison, x.1 ≠ u)

end Sys2Proof.Claims

/-- For a ready group of one member with room in the queue of 16: a command that R283 refuses parks the member with
the failing value; a helper's does nothing; a live one takes the next number of %tl.row, writes it to its warp
register and the workgroup's mark, and queues one operation with its command, order and scope; no register of a thread
and no byte of memory has changed. ROWST returns the status words of a number, or expired. A false guard changes
nothing but the place in the clause. -/
def Obligations.RowCommandsTakeANumber : Prop :=
  ∀ (s : State) (g : Group) (r : TRef) (w : Workgroup) (th : Thread), Alone s g r w th → g.core = w.core →
    (Ready s g { prefixKind := .mem, orders := [0, 2] } [] → ∀ (k gd : BitVec 3) (ws wc : BitVec 5),
      ∀ p ∈ [(Instr.rowcpy ⟨k, ws, gd⟩, 0), (.rowfill ⟨k, ws, gd⟩, 1), (.rowand ⟨k, ws, gd⟩, 2), (.rowor ⟨k, ws, gd⟩, 3),
        (.rownot ⟨k, ws, gd⟩, 4), (.rowmaj ⟨k, ws, wc, gd⟩, 5), (.rowsaxpy ⟨k, ws, gd⟩, 6)],
      let c := command s r k.toNat
      let x := if p.2 = 5 then s.warpReg r wc.toNat else 0
      let waiting := (s.rows.filter fun y => y.core == g.core && y.inCoreQueue).length
      (th.pred gd.toNat = false → exec p.1 s = .next (after s g fun _ t => t)) ∧
      (th.pred gd.toNat = true → (th.status = .live → waiting < 16) →
        (∀ d, rowRefused p.2 c x = some d → exec p.1 s = .next (parkedAt s g d)) ∧
        (rowRefused p.2 c x = none → th.status = .helper → exec p.1 s = .next (after s g fun _ t => t)) ∧
        (rowRefused p.2 c x = none → th.status = .live → ∃ t op v num, exec p.1 s = .next t ∧
          num = (s.timeline w.core 1).next ∧ (w.core < s.cores.length → (t.timeline w.core 1).next = num + 1) ∧
          t.rows = s.rows ++ [op] ∧ op.core = w.core ∧ op.num = num ∧ op.part = w.part ∧ op.func = p.2 ∧ op.cmd = c ∧
          op.wc = x ∧ op.order = g.order ∧ op.scope = g.scope ∧ op.stage = .queued ∧ op.upc = 0 ∧ op.fault = 0 ∧
          t.wg? r.wg = some v ∧ v.marks = w.marks.set 1 num ∧
          (ws ≠ 0 → ∀ y, s.warp? r.wg r.warp = some y → t.warpReg r ws.toNat = BitVec.ofNat 64 num) ∧
          ((after s g fun _ t => t).wg? r.wg).map (·.threads) = some v.threads ∧
          t.mem = s.mem ∧ t.l2 = s.l2 ∧ t.ops = s.ops))) ∧
    (∀ o : StatVArgs, Ready s g {} (registers o.vd.toNat 2) → exec (.rowst o) s = .next (after s g fun _ t =>
      if t.pred o.guard.toNat = true then
        t.setRegs o.vd.toNat (statusRead s w.core 1 19 (s.warpReg r o.ws.toNat)) else t))

/-- A step of ROWCPY, ROWFILL, ROWAND, ROWOR, ROWNOT or ROWMAJ whose rows read without a code's fault writes the 2,048
bytes of its destination row with the function of R280 of the bytes of its source rows, all read first, and no other
byte of the tiers; an outdated generation ends it with GEN_STALE. A source step of ROWSAXPY gives each lane one
rounding. An in-DRAM operation with demand suspends at a row boundary, keeps its place, and resumes after a continuous
16 ns of quiet or 2,000 ns, its next step 12 ns later; an error ends the operation with its code and completes its
number. A step waits for the activate budget, and takes 70 ns (subarray path), 96 ns (ROWSAXPY) or 150 ns. That demand
is the pick (with refresh due or pending), that it is looked for at the boundary only, and that these are the times a
step lasts is the model's reading (logs 4, 17). -/
def Obligations.RowOperationsComputeTheirRows : Prop :=
  (∀ (s : State) (x : RowOp) (r : Nat), x.func ≤ 5 →
    let at_ (i : Nat) : Nat := (x.rows.getD i []).getD (if i = 1 ∧ x.func = 1 then 0 else r) 0
    let leaf (i : Nat) : Leaf := x.leafOf i (if i = 1 ∧ x.func = 1 then 0 else r)
    RowPlain s (at_ 1) (leaf 1) → (x.func = 2 ∨ x.func = 3 ∨ x.func = 5 → RowPlain s (at_ 2) (leaf 2)) →
    (x.func = 5 → RowPlain s (at_ 3) (leaf 3)) → at_ 0 % 2048 = 0 →
    (∀ a, at_ 0 / 4096 = a / 4096 → s.moveAt? a = none) → Memory.wf s.mem →
    (s.genOk (leaf 0) (at_ 0) = false → ∃ u, s.rowStep x (.row r) = .error (u, 0x13)) ∧
    (s.genOk (leaf 0) (at_ 0) = true → ∃ t, s.rowStep x (.row r) = .ok (t, { x with upc := r + 1 }) ∧
      t.wgs = s.wgs ∧ t.ops = s.ops ∧
      ∀ a, t.tierByte a = if at_ 0 ≤ a ∧ a < at_ 0 + 2048 then
        rowByte x.func (s.tierByte (at_ 1 + (a - at_ 0))) (s.tierByte (at_ 2 + (a - at_ 0)))
          (s.tierByte (at_ 3 + (a - at_ 0))) else s.tierByte a)) ∧
  (∀ (first : Bool) (a : Word) (xs lanes : List Word), xs.length = lanes.length → ∀ j < xs.length,
    (saxpyStep first a xs lanes).1[j]? = some (if first then (rounded32 0 ((f32 a).mul (f32 (xs.getD j 0)))).1
      else (rounded32 0 ((f32 a).fma 0 (f32 (xs.getD j 0)) (f32 (lanes.getD j 0)))).1)) ∧
  (∀ (s : State) (core num : Nat) (x : RowOp), s.rowOp? core num = some x → x.steps s.time = true →
    x.path = 2 → (∀ pa ∈ x.rowsOf x.nextStep, s.poolServes pa true = true ∧ s.windowFull pa = false) →
    let b := (x.rowsOf x.nextStep).foldl (fun s pa => s.demandActivate (s.homeAddr pa)) s
    (∀ u c, b.rowStep x x.nextStep = .error (u, c) → ∃ t, exec (.rowStep core num) s = .next t ∧ t.mem = s.mem ∧
      (∀ y ∈ t.rows, y.is x = true → y.stage = .done ∧ y.fault = c.toNat ∧ (t.timeline core 1).retired < num) ∧
      (∀ y, y.is x = false → (y ∈ t.rows → y ∈ s.rows) ∧ (y ∈ s.rows → y.stage ≠ .done → y ∈ t.rows)) ∧
      (core < s.cores.length → t.timeline core 1 = (s.timeline core 1).complete num)) ∧
    (∀ s' x', b.rowStep x x.nextStep = .ok (s', x') → x'.finishedBy x.nextStep = false →
      exec (.rowStep core num) s = .next (s'.setRow { x' with stage := .running }))) ∧
  (∀ (s : State) (core num : Nat) (x : RowOp), s.rowOp? core num = some x → x.path ≠ 2 → x.stage = .running →
    x.busyUntil ≤ s.time → (∀ pa ∈ x.rowsOf x.nextStep, s.windowFull pa = false) → s.picks.headD 0 % 2 = 1 ∨ s.refreshDemand x x.nextStep = true →
    ∃ t, exec (.rowStep core num) s = .next t ∧ t.mem = s.mem ∧ t.rows = s.rows.map fun y =>
      if y.is x then { x with stage := .suspended s.time s.time, susp := min (x.susp + 1) 65535 } else y) ∧
  (∀ (s : State) (core num : Nat) (x : RowOp), s.rowOp? core num = some x → x.path ≠ 2 → x.steps s.time = true →
    (∀ pa ∈ x.rowsOf x.nextStep, s.windowFull pa = false) →
    x.stage ≠ .running ∨ (s.picks.headD 0 % 2 = 0 ∧ s.refreshDemand x x.nextStep = false) →
    let stack := stackOf ((x.rowsOf x.nextStep).headD 0)
    let n := s.stepActivates x x.nextStep
    let b := { s with picks := s.picks.tail }
    (s.activatesFit stack x.part n = false → exec (.rowStep core num) s = .next b) ∧
    (s.activatesFit stack x.part n = true → ∀ s' x',
      (b.noteActivates stack x.part n true).rowStep { x with
        busyOn := distinct ((x.rowsOf x.nextStep).map fun pa => (stackOf pa, channelOf pa)),
        busyUntil := s.time + if x.path = 0 then 140 else if x.func = 6 then 192 else 300 } x.nextStep = .ok (s', x') →
      x'.finishedBy x.nextStep = false → exec (.rowStep core num) s = .next (s'.setRow { x' with stage := .running }))) ∧
  (∀ (s : State) (core num since quiet : Nat) (x : RowOp), s.rowOp? core num = some x →
    x.stage = .suspended since quiet →
    ((quiet + 32 ≤ s.time ∧ s.refreshDemand x x.nextStep = false) ∨ since + 4000 ≤ s.time →
      exec (.rowResume core num) s = .next (s.setRow { x with stage := .resumed (s.time + 24) })) ∧
    (s.time < quiet + 32 ∨ s.refreshDemand x x.nextStep = true → s.time < since + 4000 →
      exec (.rowResume core num) s = .next s) ∧
    (s.refreshDemand x x.nextStep = true → ∀ now, (s.noteRow now x).stage = .suspended since now))

/-- A plan that no release before it holds back (R182) and that finds every operand and coefficient offers its
operation with the physical rows, on the fallback path where a row is cleared, outside tier 0 or the rows span stacks.
An agent accepts the first offered operation while fewer than 64 wait. A sweep writes the dirty sectors of the sources
back, goes on later while a stall window holds one, and leaves no sector of the destination in L2. A refresh falls due
every 122 ns to the next bank: issued for 160 ns, postponed up to 8, the ninth forces an all-bank refresh of 410 ns
that discharges them and is counted. In a row step of the channel none is issued. Which of the banks with a pending
access have demand is the environment's pick (log 4). -/
def Obligations.RowPlansSweepsAndRefresh : Prop :=
  (∀ (s : State) (core num : Nat) (x : RowOp) (os : List (List (Leaf × Nat))) (u : State) (bs : List Byte) (m : Bool),
    s.rows.find? (fun y => y.core == core && y.stage == .queued) = some x → x.num = num →
    s.warpCommandWaits x.order x.scope x.wg x.warp x.issuedBy = false →
    (s.commandActions core x.order x.scope).planOperands x true x.operands = .ok os →
    (os.flatten.foldl (fun s p => s.noteFrame p.1.pa p.1.size x.part) (s.commandActions core x.order x.scope)).planCoeffs x =
      .done u bs m →
    ∃ t x', exec (.rowPlan core num) s = .next t ∧ t.mem = u.mem ∧ x' ∈ t.rows ∧ x'.core = core ∧ x'.num = num ∧
      x'.stage = .offered ∧ x'.rows = os.map (fun o => o.map (·.2)) ∧ x'.cmd = x.cmd ∧ x'.upc = x.upc ∧
      ((∃ o ∈ os, ∃ p ∈ o, u.isCleared p.2 = true ∨ tierOf p.2 ≠ 0) → x'.path = 2) ∧
      ((∃ o ∈ os, ∃ p ∈ o, ∃ o' ∈ os, ∃ p' ∈ o', stackOf p.2 ≠ stackOf p'.2) → x'.path = 2) ∧
      (x'.path = 0 → ∀ o ∈ os, ∀ p ∈ o, ∀ o' ∈ os, ∀ p' ∈ o', stackOf p.2 = stackOf p'.2)) ∧
  (∀ (s : State) (core num : Nat) (x : RowOp), s.rowOp? core num = some x → x.stage = .offered →
    (s.rows.find? fun y => y.stage == .offered && y.agent == x.agent) = some x →
    (s.rows.filter fun y => y.stage == .accepted && y.agent == x.agent).length < 64 →
    exec (.rowStackAccept core num) s = .next (s.setRow { x with stage := .accepted })) ∧
  (∀ (s : State) (core num : Nat) (x : RowOp), s.rowOp? core num = some x → x.stage = .accepted →
    (∀ y ∈ s.rows, y.swept = true → y.stage ≠ .done → ∀ c ∈ y.channels, c ∉ x.channels) →
    x.rows.flatten.any s.windowFull = false →
    let sources := x.rows.tail.flatten ++ (if (x.cmd.getD 3 0).toNat / 2 ^ 13 % 2 = 1 then x.rows.headD [] else [])
    let u := sources.foldl (fun s pa => (rowSectors (s.homeAddr pa)).foldl (fun s n => s.l2WriteBack n) s) s
    let held := ∃ pa ∈ sources, ∃ n ∈ rowSectors (u.homeAddr pa), ∃ y, u.l2Sector? n = some y ∧ y.dirty = true
    (held → exec (.rowSweep core num) s = .next u) ∧ (¬ held →
    ∃ t, exec (.rowSweep core num) s = .next t ∧ t.ops = s.ops ∧
      t.rows = s.rows.map (fun y => if y.is x then { x with stage := .running, swept := true } else y) ∧
      ∀ pa ∈ x.rows.headD [], ∀ i < 16, t.l2Sector? (t.homeAddr pa / 128 + i) = none)) ∧
  (∀ (s : State) (stack pch : Nat), stack < 8 → pch < 64 →
    let x := s.refreshOf stack pch
    let stepping := ∃ y ∈ s.rows, s.time < y.busyUntil ∧ (stack, pch) ∈ y.busyOn
    let demand := stepping ∨ (s.picks.headD 0 % 2 = 1 ∧ s.mayDemand stack pch x.nextBank = true)
    let due := { x with nextBank := (x.nextBank + 1) % 16, nextDue := x.nextDue + 244 }
    (s.time < x.nextDue → exec (.perBankRefreshDue stack pch) s = .next s) ∧
    (x.nextDue ≤ s.time → ∃ y, exec (.perBankRefreshDue stack pch) s = .next { s.setRefresh y with picks := s.picks.tail } ∧
      (x.allBusy = true → y = due) ∧
      (x.allBusy = false → ¬ demand → x.bankBusy x.nextBank = false → x.forced = false →
        y = { due with busy := x.busy ++ [(some x.nextBank, s.time + 320)] }) ∧
      (x.allBusy = false → demand ∨ x.bankBusy x.nextBank = true ∨ x.forced = true →
        y = if x.postponed.length < 8 then { due with postponed := x.postponed ++ [x.nextBank] }
          else { due with forced := true })) ∧
    (stepping → exec (.postponedRefreshIssue stack pch) s = .next s ∧ exec (.allBankRefresh stack pch) s = .next s) ∧
    (∀ b bs, ¬ stepping → x.postponed = b :: bs → x.bankBusy b = false → x.forced = false →
      exec (.postponedRefreshIssue stack pch) s = .next (s.setRefresh { x with
        postponed := bs, busy := x.busy ++ [(some b, s.time + 320)] })) ∧
    (¬ stepping → x.forced = true → ∃ t, exec (.allBankRefresh stack pch) s = .next t ∧ t.refreshOf stack pch = { x with
        stack := stack, pch := pch, forced := false, postponed := [], busy := [(none, s.time + 820)] } ∧ t.mem = s.mem ∧
      countOf (stack * 64 + pch) t.lifetime.forcedRefresh =
        min (countOf (stack * 64 + pch) s.lifetime.forcedRefresh + 1) (2 ^ 64 - 1)) ∧
    ((∃ b ∈ x.busy, b.2 ≤ s.time) → exec (.refreshEnd stack pch) s = .next (s.setRefresh { x with
      busy := x.busy.filter fun b => decide (s.time < b.2) })))

namespace Sys2Proof.Claims

/-! ## Barriers (R297 to R303) -/

/-- R303. -/
def barrierWord (w : Workgroup) (b : Nat) : Word :=
  let x := barrierOf w b
  let fixed := b = 0 ∨ x.fixed = true
  let count := if b = 0 then remaining w else if x.fixed = true then x.count else 0
  BitVec.ofNat 32 ((if x.phase = true then 2 ^ 31 else 0) + (if fixed then 2 ^ 30 else 0) + count % 2 ^ 11 * 2 ^ 16 +
    x.arrivals.length % 2 ^ 11)

/-- R302: a thread that holds on b when its timer runs out. -/
def stalledOn (b : Nat) (t : Thread) : Option Site := match t.hold with
  | some (.barrier k site) => if k = b ∧ t.executes = true then some site else none
  | some (.arrival k _ _ _ site) => if k = b ∧ t.executes = true then some site else none
  | _ => none

end Sys2Proof.Claims

/-- For a ready group of one member whose earlier accesses have performed: a thread in the set holds a second arrival;
a count that is 0, above 1,024 or not the fixed one faults BARRIER_COUNT; else the thread joins the set (b0 counts the
threads that have not exited) and BARW holds it; the arrival that reaches the count lifts every waiter, flips the
phase, empties the set and lets a held arrival enter the next phase. BARS reads the word of R303. A phase that is not
complete %barto ticks after its timer started parks every holder with BARRIER_STALL and withdraws the waiters'
arrivals; with no holder the timer restarts. Nothing else changes. -/
def Obligations.BarrierWordsArriveHoldAndComplete : Prop :=
  ∀ (s : State) (g : Group) (r : TRef) (w : Workgroup) (th : Thread), Alone s g r w th →
    (∀ o : BarFArgs, ∀ p ∈ [(Instr.bara o, false), (Instr.barw o, true)],
      Ready s g lastRule (if o.bar = 0 then [] else [o.vc.toNat]) → s.releaseWaits r 0 s.nextId = false →
      let b := o.bar.toNat
      let x := barrierOf w b
      let cnt := (th.reg o.vc.toNat).toNat
      let n := if b = 0 then remaining w else cnt
      let refused := b ≠ 0 ∧ (cnt < 1 ∨ 1024 < cnt ∨ (x.fixed = true ∧ cnt ≠ x.count))
      let all := x.arrivals ++ [r]
      let waiting : Option Hold := if p.2 = true then some (.barrier b (g.site g.pc)) else none
      let now : Option Nat := if x.arrivals = [] then some s.time else x.timer
      (th.pred o.guard.toNat = false → exec p.1 s = .next (after s g fun _ t => t)) ∧
      (th.pred o.guard.toNat = true →
        (r ∈ x.arrivals → exec p.1 s = .next { after s g (fun _ t =>
          { t with hold := some (.arrival b cnt p.2 s.nextId (g.site g.pc)) }) with nextId := s.nextId + 1 }) ∧
        (r ∉ x.arrivals → refused → exec p.1 s = .next (parkedAt s g { code := 0x21 })) ∧
        (r ∉ x.arrivals → ¬ refused → all.length < n → exec p.1 s = .next (withBarrier r.wg b
          { x with arrivals := all, count := n, fixed := x.fixed || decide (b ≠ 0), timer := now }
          (after s g fun _ t => { t with hold := waiting }))) ∧
        (r ∉ x.arrivals → ¬ refused → n ≤ all.length → th.hold = none →
          (w.heldArrivals b = [] → exec p.1 s = .next (withBarrier r.wg b { Barrier.reset with phase := !x.phase }
            (inWorkgroup r.wg (releasedBy b s.time) (after s g fun _ t => { t with hold := waiting })))) ∧
          (∀ h c wt since st, w.heldArrivals b = [h] → h.hold = some (.arrival b c wt since st) → b ≠ 0 →
            w.thread? h.warp h.lane = some h → h.group = none → 2 ≤ c → c ≤ 1024 →
            exec p.1 s = .next (withBarrier r.wg b ⟨!x.phase, [h.ref w.id], c, true, some s.time⟩
              (inWorkgroup r.wg (fun t => if t.warp = h.warp ∧ t.lane = h.lane then
                  { releasedBy b s.time t with hold := (if wt = true then some (.barrier b st) else none),
                                               readyAt := s.time }
                else releasedBy b s.time t) (after s g fun _ t => { t with hold := waiting }))))))) ∧
    (∀ o : BarsArgs, Ready s g {} [o.vd.toNat] → exec (.bars o) s = .next (after s g fun _ t =>
      if t.pred o.guard.toNat = true then t.setReg o.vd.toNat (barrierWord w o.bar.toNat) else t)) ∧
    (∀ b t, b < 16 → w.place = .resident → (barrierOf w b).timer = some t →
      (w.barto = 0 ∨ s.time < t + 20 * w.barto → exec (.barrierTimerExpiry r.wg b) s = .next s) ∧
      (w.barto ≠ 0 → t + 20 * w.barto ≤ s.time →
        let x := barrierOf w b
        let left := x.arrivals.filter fun a => !(w.threads.any fun t => t.executes && t.hold.any (·.waitsOn b) && t.ref w.id == a)
        ((∀ t ∈ w.threads, stalledOn b t = none) →
          exec (.barrierTimerExpiry r.wg b) s = .next (withBarrier r.wg b { x with timer := some s.time } s)) ∧
        ((∃ t ∈ w.threads, (stalledOn b t).isSome = true) →
          exec (.barrierTimerExpiry r.wg b) s = .next (withBarrier r.wg b
            (if left = [] then { phase := x.phase, arrivals := [], count := 0, fixed := false, timer := none }
              else { x with arrivals := left, timer := some s.time })
            (inWorkgroup r.wg (fun t => match stalledOn b t with
              | some site => t.raise { code := 0x20 } site
              | none => t) s)))))

namespace Sys2Proof.Claims

/-! ## Watches, waits on values, timelines and sleep (R304 to R311) -/

/-- The threads of a list that have not exited get a watch. -/
def watching (rs : List TRef) (x : Watch) (s : State) : State :=
  let arm (w : Workgroup) (t : Thread) : Thread :=
    if t.ref w.id ∈ rs ∧ t.status ≠ .exited then { t with watch := some x } else t
  { s with wgs := s.wgs.map fun w => withThreads w (w.threads.map (arm w)) }

/-- R307: the enabled conditions of a block: index, word and compare value. -/
def conditions (s : State) (r : TRef) (th : Thread) (k vc : Nat) : List (Nat × DWord × Word) :=
  ([0, 1, 2, 3].map fun i => (i, s.warpReg r (4 * k + i), th.reg (vc + i))).filter fun e => e.2.1.getLsbD 63

/-- R307: the address of a condition word. -/
def conditionAt (e : Nat × DWord × Word) : DWord := BitVec.ofNat 64 (e.2.1.toNat % 2 ^ 57)

/-- R307: the fault of WAITV at issue. -/
def waitFault (s : State) (core part : Nat) (es : List (Nat × DWord × Word)) : Option FaultDetail :=
  if (es.any fun e => decide (e.2.1.toNat / 2 ^ 57 % 8 ≠ 0)) = true then some { code := 0x02 }
  else match es.find? fun e => decide ((conditionAt e).toNat % 4 ≠ 0) with
    | some e => some { code := 0x10, addr := conditionAt e }
    | none => es.findSome? fun e => match checked s core part (conditionAt e) 4 { r := true } with
      | .error d => some d
      | .ok _ => none

/-- R307: what WAITV holds for a condition. -/
def conditionOf (e : Nat × DWord × Word) : Cond :=
  { idx := e.1, cond := e.2.1.toNat / 2 ^ 60 % 8, addr := e.2.1.toNat % 2 ^ 57, cmp := e.2.2 }

/-- R307: whether a condition holds of a word. -/
def meets (cond : Nat) (x c : Word) : Prop :=
  match cond with
  | 0 => x = c
  | 1 => x ≠ c
  | 2 => x.toNat < c.toNat
  | 3 => c.toNat ≤ x.toNat
  | 4 => x.toInt < c.toInt
  | 5 => c.toInt ≤ x.toInt
  | 6 => ∃ i, x.getLsbD i = true ∧ c.getLsbD i = true
  | _ => ¬ ∃ i, x.getLsbD i = true ∧ c.getLsbD i = true

/-- R307, R308: the words of some conditions, each read once, one after the other, as a relaxed load at .pkg that is served. -/
def WordsRead (s : State) (core part : Nat) : List Cond → List Word → State → Prop
  | [], [], t => t = s
  | c :: cs, x :: xs, t => ∃ l v bs b, checked s core part (BitVec.ofNat 64 c.addr) 4 { r := true } = .ok l ∧
      (let u := s.tlbInsert core part l
       let a := reaching (BitVec.ofNat 64 c.addr) 4 l 0 2
       Granted u a false ∧ Readable u core a ∧ x = (loaded 4 (u.coreBytes core (u.homeAddr a.pa) 4)).headD 0 ∧
         u.performRead core part a = .done v bs b) ∧ WordsRead v core part cs xs t
  | _, _, _ => False

/-- R307: the mask of the conditions that hold of their words. -/
def Met (cs : List Cond) (xs : List Word) (mask : Nat) : Prop :=
  ∀ i, mask.testBit i = true ↔ ∃ p ∈ cs.zip xs, p.1.idx = i ∧ meets p.1.cond p.2 p.1.cmp

/-- A thread of a resident workgroup that is neither parked nor exited. -/
def Running (s : State) (r : TRef) (w : Workgroup) (th : Thread) : Prop :=
  s.wg? r.wg = some w ∧ w.place = .resident ∧ w.thread? r.warp r.lane = some th ∧ th.executes = true

/-- One thread of the package, changed. -/
def ofThread (r : TRef) (f : Thread → Thread) (s : State) : State :=
  inWorkgroup r.wg (fun t => if t.warp = r.warp ∧ t.lane = r.lane then f t else t) s

end Sys2Proof.Claims

/-- For a ready group of one member: WARM checks its address as a load does and leaves one acquire access at .pkg;
WWAIT holds while the watch is armed, disarms a triggered one; WAITV checks its enabled conditions in order, writes 0
or tout with none enabled, else holds with its deadline; TLWAIT holds until the counter reaches n (at most the last
number issued) or continues with the acquire of R183; SLEEP holds until %ref reaches start + t, not at all for 0. A
false guard changes nothing but the place in the clause; nothing else changes. That WAITV checks the reserved fields
of all conditions, then the alignment of all, then the translation of each is the model's reading (log 18). -/
def Obligations.WaitWordsHoldTheirThreads : Prop :=
  ∀ (s : State) (g : Group) (r : TRef) (w : Workgroup) (th : Thread), Alone s g r w th →
    (∀ o : PairQArgs, Ready s g {} [o.vd.toNat, o.va.toNat, o.va.toNat + 1] → let va := pairOf th o.va.toNat
      (th.pred o.guard.toNat = false → exec (.warm o) s = .next (after s g fun _ t => t)) ∧
      (th.pred o.guard.toNat = true → flagRoom g o.fs th →
        exec (.warm o) s = .next (match checked s w.core w.part va 4 { r := true } with
          | .error d => parkedAt s g d
          | .ok l => issued s g r w th (g.flagOf o.fs) l (.warm (reaching va 4 l 1 2)) o.vd.toNat 1))) ∧
    (∀ o : G0Args, Ready s g lastRule [] → exec (.wwait o) s = .next (after s g fun _ t =>
      if t.pred o.guard.toNat = false then t else match t.watch with
        | some x => if x.triggered = true then { t with watch := none } else { t with hold := some (.wwait s.time) }
        | none => t)) ∧
    (∀ o : WaitvArgs, Ready s g lastRule (o.vt.toNat :: registers o.vc.toNat 4) →
      let es := conditions s r th o.k.toNat o.vc.toNat
      let limit := (th.reg o.vt.toNat).toNat
      (th.pred o.guard.toNat = false → exec (.waitv o) s = .next (after s g fun _ t => t)) ∧
      (th.pred o.guard.toNat = true → exec (.waitv o) s = .next (match waitFault s w.core w.part es with
        | some d => parkedAt s g d
        | none =>
          if es = [] ∧ o.all = true then after s g fun _ t => t.setReg o.vt.toNat 0
          else if es = [] ∧ limit = 0 then after s g fun _ t => t.setReg o.vt.toNat 0x80000000
          else after s g fun _ t => { t with hold := some (.waitv (es.map conditionOf) o.all o.vt.toNat
            (if limit = 0 then none else some (s.time / 20 % 2 ^ 64 + limit)) 0 (g.site g.pc)) }))) ∧
    (∀ o : TlwArgs, Ready s g lastRule [] →
      let x := (s.core w.core).tl.toList.getD o.tl.toNat Timeline.reset
      let n := min (s.warpReg r o.wn.toNat).toNat (x.next - 1)
      (th.pred o.guard.toNat = false → exec (.tlwait o) s = .next (after s g fun _ t => t)) ∧
      (th.pred o.guard.toNat = true → n ≤ x.retired →
        exec (.tlwait o) s = .next ((after s g fun _ t => t).orderActions w.core 1 2)) ∧
      (th.pred o.guard.toNat = true → x.retired < n →
        exec (.tlwait o) s = .next (after s g fun _ t => { t with hold := some (.tlwait o.tl.toNat n) }))) ∧
    (∀ o : SlpArgs, Ready s g lastRule [o.vt.toNat] → exec (.sleep o) s = .next (after s g fun _ t =>
      let n := (th.reg o.vt.toNat).toNat
      if t.pred o.guard.toNat = false ∨ n = 0 then t
      else { t with hold := some (.sleep (s.time / 20 % 2 ^ 64 + n)) }))

/-- WARM completes with the word read and arms the watch in the same act. A trigger (spurious ones at any time) lifts
a WWAIT and disarms its watch, else marks the watch; a WWAIT on a page that is not coherent lifts 200 ticks after it
began and not before by that rule. SLEEP ends when %ref has reached its moment. WAITV writes tout and met at its
deadline, more than two ticks after which no evaluation lifts it any more (the model's reading, log 18); an evaluation
whose words are served one after the other lifts the hold where all of the enabled conditions hold (R307's table), or
one of them without all, with the mask of those that held, and else notes the mask, changing no byte of memory; a
fault of an evaluation parks the thread at the WAITV. -/
def Obligations.WaitsEndAsTheirRulesSay : Prop :=
  (∀ (s : State) (o : PendingOp) (a : Access) (r : TRef) (keep : Nat), Performs s o → o.kind = .warm a → o.who = [r] →
    a.size = 4 → Granted s a false → Readable s (s.opCore o) a →
    (s.armedOn (s.opCore o)).length < 1024 →
    ∃ t n, exec (.warmComplete o.id keep) s = .next t ∧ t.ops = s.ops.filter (·.id != o.id) ∧
      t.wgs = (watching [r] { line := s.homeAddr a.pa / 128, va := a.va, coherent := decide (a.leaf.cls = .coherent),
                              triggered := false, order := n }
        (completed s o (loaded 4 (s.coreBytes (s.opCore o) (s.homeAddr a.pa) 4)) 0 keep)).wgs) ∧
  (∀ (s : State) (r : TRef), exec (.spuriousTrigger r.wg r.warp r.lane) s = .next (ofThread r (fun t =>
    match t.watch, t.hold with
    | some _, some (.wwait _) => { t with watch := none, hold := none, readyAt := s.time }
    | some x, _ => { t with watch := some { x with triggered := true } }
    | none, _ => t) s)) ∧
  ∀ (s : State) (r : TRef) (w : Workgroup) (th : Thread), Running s r w th →
    (∀ since x, th.hold = some (.wwait since) → th.watch = some x →
      (x.coherent = true ∨ s.time < since + 4000 → exec (.wwaitTimeout r.wg r.warp r.lane) s = .next s) ∧
      (x.coherent = false → since + 4000 ≤ s.time →
        exec (.wwaitTimeout r.wg r.warp r.lane) s = exec (.spuriousTrigger r.wg r.warp r.lane) s)) ∧
    (∀ d, th.hold = some (.sleep d) →
      (s.time / 20 % 2 ^ 64 < d → exec (.sleepExpiry r.wg r.warp r.lane) s = .next s) ∧
      (d ≤ s.time / 20 % 2 ^ 64 → exec (.sleepExpiry r.wg r.warp r.lane) s = .next (ofThread r (fun t =>
        { t with hold := none, readyAt := s.time }) s))) ∧
    (∀ cs all vt d met site, th.hold = some (.waitv cs all vt d met site) →
      (∀ n, d = some n → s.time / 20 % 2 ^ 64 < n → exec (.waitvDeadline r.wg r.warp r.lane) s = .next s) ∧
      (∀ n, d = some n → n ≤ s.time / 20 % 2 ^ 64 → exec (.waitvDeadline r.wg r.warp r.lane) s = .next (ofThread r
        (fun t => { t.setReg vt (BitVec.ofNat 32 (2 ^ 31 + met % 2 ^ 31)) with hold := none, readyAt := s.time }) s)) ∧
      (∀ xs u mask, (∀ n, d = some n → s.time / 20 % 2 ^ 64 ≤ n + 2) → (∀ c ∈ cs, c.idx < 4 ∧ c.addr < 2 ^ 57) →
        (cs.map (·.idx)).Nodup → s.waitvWaits r cs = false → w.core < s.cores.length → WordsRead s w.core w.part cs xs u →
        mask < 16 → Met cs xs mask →
        let ends := if all = true then ∀ c ∈ cs, mask.testBit c.idx = true else mask ≠ 0
        ∃ t, exec (.waitvEvaluation r.wg r.warp r.lane) s = .next t ∧ t.ops = s.ops ∧ SameBytes { s with wgs := t.wgs } t ∧
          (ends → t.wgs = (ofThread r (fun t =>
            { t.setReg vt (BitVec.ofNat 32 mask) with hold := none, readyAt := s.time }) s).wgs) ∧
          (¬ ends → t.wgs = (ofThread r (fun t =>
            { t with hold := some (.waitv cs all vt d mask site) }) s).wgs)) ∧
      (∀ n, d = some n → n + 2 < s.time / 20 % 2 ^ 64 → exec (.waitvEvaluation r.wg r.warp r.lane) s = .next s) ∧
      (∀ e, (∀ n, d = some n → s.time / 20 % 2 ^ 64 ≤ n + 2) → s.waitvWaits r cs = false → (∃ c cs', cs = c :: cs' ∧ c.addr < 2 ^ 57 ∧
          checked s w.core w.part (BitVec.ofNat 64 c.addr) 4 { r := true } = .error e) →
        exec (.waitvEvaluation r.wg r.warp r.lane) s = .next (ofThread r (fun t => t.raise e site) s)))

namespace Sys2Proof.Claims

/-! ## Placement (R315 to R338) -/

/-- R319, R321: why a range command is refused. -/
def rangeRefused (func : Nat) (addr x : DWord) : Option FaultDetail :=
  let arg := x.toNat / 2 ^ 48 % 16
  let len := x.toNat % 2 ^ 48
  let limit := if func = 2 then 8 else if func = 3 then 3 else if func = 5 then 2 else 1
  if 2 ^ 52 ≤ x.toNat ∨ len = 0 ∨ limit ≤ arg then some { code := 0x02, addr := x }
  else if 2 ^ 57 < addr.toNat + len then some { code := 0x12, addr := addr } else none

/-- R330: what a query by address finds. -/
def queried (s : State) (core part : Nat) (va : DWord) : Except FaultDetail Leaf :=
  if 2 ^ 57 ≤ va.toNat then .error { code := 0x12, addr := va }
  else match s.findLeaf core part va.toNat with
    | .error c => .error { code := c, addr := va }
    | .ok l => if l.r = true then .ok l else .error { code := 0x12, addr := va }

/-- R332. -/
def poolCode (s : State) (pa : Nat) : Nat :=
  if tierOf pa = 2 then (match s.poolState pa with
    | .invalid => 1
    | .shared => 2
    | .exclusive => 3
    | .pinned => 4
    | .transfer => 5) else 0

/-- R332: whether an address range of a partition lies in an open window. -/
def Windowed (s : State) (part lo len : Nat) : Prop :=
  ∃ p, s.part? part = some p ∧ ∃ w ∈ p.windows, lo < w.1 + w.2 ∧ w.1 < lo + len

/-- R332: the low word of a TQRY of a page whose frame is at pa. -/
noncomputable def placedAt (s : State) (part pa : Nat) (l : Leaf) : Nat :=
  open Classical in
  (s.frame pa).pins * 2 ^ 24 + poolCode s pa * 2 ^ 21 +
    (if ∃ m ∈ s.moves, (m.leaf.pa = l.pa ∨ m.target = l.pa) ∧ m.phase ≠ 0 then 2 ^ 20 else 0) +
    (if Windowed s part l.vbase l.size then 2 ^ 19 else 0) +
    (if (s.readPte l.pte).getLsbD 12 = true then 2 ^ 18 else 0) + (s.readPte l.pte).toNat / 2 ^ 10 % 4 * 2 ^ 16 + tierOf pa

/-- A page table entry that can be rewritten in place: L2 holds its line, or has room for it and brings it in under the keys it
was stored with (R14, R151). -/
def TableOk (s : State) (pte : Nat) : Prop :=
  pte % 16 = 0 ∧ (∀ x ∈ s.l2, x.data.length = 128) ∧ ((s.l2Sector? (pte / 128)).isSome = true ∨ (RoomInL2 s (pte / 128) ∧
    ∀ u ∈ [pte / 128 * 2, pte / 128 * 2 + 1], s.isCleared (u * 64) = true ∨ s.sameKeys u (s.keysOf pte).1 (s.keysOf pte).2 = true))

/-- R323, R336: this package holds every granule of a page that it may write, and may have it moved. -/
def OwnedHere (s : State) (l : Leaf) : Prop := ∀ i < l.size / 4096, s.poolServes (l.pa + i * 4096) true = true ∧
  (tierOf l.pa = 2 → s.poolState (l.pa + i * 4096) ≠ .shared ∧ s.poolState (l.pa + i * 4096) ≠ .invalid)

/-- R317, R326: the frame in which the accesses to an address count: the one that its page leaves, until the move commits. -/
def countedAt (s : State) (pa : Nat) : Nat :=
  ((s.moves.find? fun m => decide (m.phase = 2 ∧ m.target ≤ pa ∧ pa < m.target + m.leaf.size)).map fun m =>
    m.leaf.pa + (pa - m.target)).getD pa

/-- L2 has room for the lines of all entries that map the frame of a leaf. -/
def TablesOk (s : State) (part : Nat) (l : Leaf) : Prop := s.l2.length + 8 * (s.mappings part l).length ≤ 4096

/-- No other package waits for a granule of the page (R337). -/
def NotWanted (s : State) (l : Leaf) : Prop :=
  ∀ g ∈ s.granules, l.pa ≤ g.addr → g.addr < l.pa + l.size → g.deferred = none

/-- R331, R332: the page as a query finds it: translated again where its frame's generation has changed since. -/
def present (s : State) (part va : Nat) (l : Leaf) : Leaf :=
  if s.genOk l (l.pa + (va - l.vbase)) = true then l else match s.walk (s.rootOf part) va with
    | .ok x => x
    | .error _ => l

/-- R305: what happens to a thread that watches a line of a page that moves. -/
def sawMove (m : Move) (now : Nat) (t : Thread) : Thread :=
  let on (x : Watch) (a : Nat) : Bool := decide (a ≤ x.line * 128 ∧ x.line * 128 < a + m.leaf.size)
  match t.watch, t.hold with
  | some x, some (.wwait _) =>
    if on x m.leaf.pa = true ∨ on x m.target = true then { t with watch := none, hold := none, readyAt := now } else t
  | some x, _ => if on x m.leaf.pa = true ∨ on x m.target = true then { t with watch := some { x with triggered := true } } else t
  | none, _ => t

/-- R322: the page that a running tier operation acts on next: translated, readable, of the generation in force. -/
def AtPage (s : State) (x : TierOp) (l : Leaf) : Prop :=
  s.tierOp? x.core x.num = some x ∧ x.stage = .running ∧ x.cursor < x.addr + x.len ∧
    s.walk (s.rootOf x.part) x.cursor = .ok l ∧ l.r = true ∧ s.genOk l l.pa = true ∧ TableOk s l.pte

/-- The tier operations, one of them changed. -/
def tiersWith (s : State) (x : TierOp) : List TierOp :=
  s.tiers.map fun y => if y.core = x.core ∧ y.num = x.num then x else y

/-- Its operation goes on behind the page. -/
def passing (x : TierOp) (l : Leaf) : TierOp := { x with cursor := l.vbase + l.size }

end Sys2Proof.Claims

/-- For a ready group of one member with room in the tier queue: a range command that R321 refuses parks the member
with the failing value; a helper's does nothing; a live one takes the next number of %tl.tier for its warp register
and the mark, and queues one operation with its range, argument, order and scope; nothing else changes. PGCNT and TQRY
check translation and R, and write at completion the counters, or the fields of R332 of the page as it then stands;
TQRY.op returns the status as it stood at issue, or expired. A false guard changes nothing but the place in the
clause. Which physical address a tier or stack begins at is log 13; that a query reads the page as it lies at
completion, translated again where its generation has changed, with the moving bit for the target too, is the model's
reading (log 19). -/
def Obligations.TierWordsTakeNumbersAndAnswerQueries : Prop :=
  (∀ (s : State) (g : Group) (r : TRef) (w : Workgroup) (th : Thread), Alone s g r w th → g.core = w.core →
    (Ready s g { prefixKind := .mem, orders := [0, 2] } [] → ∀ o : RangeFArgs,
      ∀ p ∈ [(Instr.pin o, 0), (.unpin o, 1), (.taff o, 2), (.migr o, 3), (.twin o, 5)],
      let addr := s.warpReg r o.wa.toNat
      let x := s.warpReg r o.wb.toNat
      let waiting := (s.tiers.filter fun y => y.core == g.core && y.stage == .queued).length
      (th.pred o.guard.toNat = false → exec p.1 s = .next (after s g fun _ t => t)) ∧
      (th.pred o.guard.toNat = true → (th.status = .live → waiting < 16) →
        (∀ d, rangeRefused p.2 addr x = some d → exec p.1 s = .next (parkedAt s g d)) ∧
        (rangeRefused p.2 addr x = none → th.status = .helper → exec p.1 s = .next (after s g fun _ t => t)) ∧
        (rangeRefused p.2 addr x = none → th.status = .live → ∃ t op v num, exec p.1 s = .next t ∧
          num = (s.timeline w.core 2).next ∧ (w.core < s.cores.length → (t.timeline w.core 2).next = num + 1) ∧
          t.tiers = s.tiers ++ [op] ∧ op.core = w.core ∧ op.num = num ∧ op.part = w.part ∧ op.func = p.2 ∧
          op.addr = addr.toNat ∧ op.cursor = addr.toNat ∧ op.len = x.toNat % 2 ^ 48 ∧
          op.arg.toNat = x.toNat / 2 ^ 48 % 16 ∧ op.order = g.order ∧ op.scope = g.scope ∧ op.stage = .queued ∧
          op.done = 0 ∧ op.skipped = 0 ∧ op.fault = 0 ∧ t.wg? r.wg = some v ∧ v.marks = w.marks.set 2 num ∧
          (o.ws ≠ 0 → ∀ y, s.warp? r.wg r.warp = some y → t.warpReg r o.ws.toNat = BitVec.ofNat 64 num) ∧
          ((after s g fun _ t => t).wg? r.wg).map (·.threads) = some v.threads ∧
          t.mem = s.mem ∧ t.l2 = s.l2 ∧ t.ops = s.ops))) ∧
    (∀ o : PairQArgs, ∀ p ∈ [(Instr.pgcnt o, 0, 1), (.tqry o, 1, 2)],
      Ready s g {} (registers o.vd.toNat p.2.2 ++ [o.va.toNat, o.va.toNat + 1]) → let va := pairOf th o.va.toNat
      (th.pred o.guard.toNat = false → exec p.1 s = .next (after s g fun _ t => t)) ∧
      (th.pred o.guard.toNat = true → flagRoom g o.fs th →
        exec p.1 s = .next (match queried s w.core w.part va with
          | .error d => parkedAt s g d
          | .ok l => issued s g r w th (g.flagOf o.fs) l (.query p.2.1 va.toNat (some l) []) o.vd.toNat p.2.2))) ∧
    (∀ o : QOpArgs, Ready s g {} (registers o.vd.toNat 2) →
      (th.pred o.guard.toNat = false → exec (.tqryOp o) s = .next (after s g fun _ t => t)) ∧
      (th.pred o.guard.toNat = true → flagRoom g o.fs th →
        exec (.tqryOp o) s = .next (afterOp s g (newOp s g r th (g.flagOf o.fs)
          (.query 2 0 none (statusRead s w.core 2 19 (s.warpReg r o.ws.toNat))) o.vd.toNat 2))))) ∧
  (∀ (s : State) (o : PendingOp) (keep : Nat) (va : Nat) (l x : Leaf) (result : List Word), s.op? o.id = some o →
    (o.kind = .query 0 va (some l) result → let f := s.frame (countedAt s (s.homeAddr (present s (s.opPart o) va l).pa))
      exec (.queryComplete o.id keep) s = .next (completed s o [BitVec.ofNat 32 (f.wr * 2 ^ 16 + f.rd)] 0 keep)) ∧
    (o.kind = .query 1 va (some x) result → let l := present s (s.opPart o) va x
      let pa := s.homeAddr (l.pa + (va - l.vbase))
      exec (.queryComplete o.id keep) s = .next (completed s o [BitVec.ofNat 32 (placedAt s (s.opPart o) pa l),
        BitVec.ofNat 32 ((if tierOf pa = 0 then pa / 2 ^ 21 % 8 else 15) * 16 + Nat.log2 (l.size / 4096) / 2)] 0 keep)) ∧
    (o.kind = .query 2 0 none result → exec (.queryComplete o.id keep) s = .next (completed s o result 0 keep)))

/-- An accepted TWIN opens or closes its window (64 at most). A running operation acts on its next page: PIN raises
the count of the frame to at most 255 and sets the indicator, UNPIN lowers it to at least 0 and clears it, TAFF writes
pref and nodemote into the entry and no other bit (where several mappings differ, those written since the last TAFF
count, one of them freely, log 19), MIGR and TWIN count a page that is there as done, skip a pinned or nodemote one
(TWIN also pref 1 and 2), forward it in host-assisted mode, or start one move to a free frame of the target tier. An
operation past its range completes and retires in its turn once its moves have retired; Zarkin OS reports count. -/
def Obligations.TierOperationsActPageByPage : Prop :=
  (∀ (s : State) (x : TierOp) (core num : Nat),
    (s.tiers.find? fun y => y.core == core && y.stage == .queued) = some x → x.num = num →
    (s.warpCommandWaits x.order x.scope x.wg x.warp x.issuedBy = true → exec (.tierCommandAccept core num) s = .next s) ∧
    (s.warpCommandWaits x.order x.scope x.wg x.warp x.issuedBy = false →
    ∃ t, exec (.tierCommandAccept core num) s = .next t ∧ (x.order ≠ 2 → x.order ≠ 3 → t.mem = s.mem) ∧ t.wgs = s.wgs ∧
      t.tiers = tiersWith s { x with stage := .running, cursor := if x.func = 5 ∧ x.arg.getLsbD 0 = true then
        x.addr + x.len else x.cursor } ∧
      ∀ p, s.part? x.part = some p → ∃ q, t.part? x.part = some q ∧
        (x.func ≠ 5 → q = p) ∧
        (x.func = 5 → x.arg.getLsbD 0 = true → q.windows = p.windows.filter fun v => v.1 != x.addr) ∧
        (x.func = 5 → x.arg.getLsbD 0 = false → (x.addr, x.len) ∈ q.windows ∧ q.windows.length ≤ 64 ∧
          (p.windows.length < 64 → q.windows = p.windows ++ [(x.addr, x.len)])))) ∧
  (∀ (s : State) (x : TierOp) (l : Leaf), AtPage s x l → ∃ t, exec (.tierOpComplete x.core x.num) s = .next t ∧ t.wgs = s.wgs ∧
    (x.func = 0 → s.moveAt? l.pa = none → OwnedHere s l → TablesOk s x.part l → let n := (s.frame l.pa).pins
      t.tiers = tiersWith s { passing x l with done := x.done + 1, sat := x.sat || decide (255 ≤ n) } ∧
      (t.frame l.pa).pins = (if 255 ≤ n then n else n + 1) ∧ t.mem = s.mem ∧
      (n = 0 → (t.readPte l.pte).getLsbD 14 = true)) ∧
    (x.func = 1 → s.moveAt? l.pa = none → NotWanted s l → TablesOk s x.part l → let n := (s.frame l.pa).pins
      t.tiers = tiersWith s { passing x l with done := x.done + 1, sat := x.sat || decide (n = 0) } ∧
      (t.frame l.pa).pins = n - 1 ∧ t.mem = s.mem ∧ (n = 1 → (t.readPte l.pte).getLsbD 14 = false)) ∧
    (x.func = 2 → l.w = true → t.tiers = tiersWith s { passing x l with done := x.done + 1 } ∧ t.mem = s.mem ∧
      t.affinityOf x.part l = x.arg.toNat / 2 % 4 + (if x.arg.getLsbD 0 = true then 4 else 0) ∧
      ∀ i < 128, (t.readPte l.pte).getLsbD i = if i = 12 then x.arg.getLsbD 0 else if i = 10 then x.arg.getLsbD 1
        else if i = 11 then x.arg.getLsbD 2 else (s.readPte l.pte).getLsbD i) ∧
    ((s.frame l.pa).affinity = [] → s.mappings x.part l = [l.pte] → s.affinityOf x.part l = (s.readPte l.pte).toNat / 2 ^ 10 % 8) ∧
    (x.func = 3 ∨ x.func = 5 → s.movesOf l = [] → let target := if x.func = 3 then x.arg.toNat % 4 else 0
      let nodemote := 4 ≤ s.affinityOf x.part l
      let skipped := { passing x l with skipped := x.skipped + 1 }
      let pref := s.affinityOf x.part l % 4
      (x.func = 5 → pref = 1 ∨ pref = 2 → t.tiers = tiersWith s skipped ∧ t.moves = s.moves) ∧
      (x.func = 3 ∨ (pref ≠ 1 ∧ pref ≠ 2) →
        (tierOf l.pa = target → t.tiers = tiersWith s { passing x l with done := x.done + 1 } ∧ t.moves = s.moves) ∧
        (tierOf l.pa ≠ target → (s.frame l.pa).pins ≠ 0 ∨ (tierOf l.pa < target ∧ nodemote) →
          t.tiers = tiersWith s skipped ∧ t.moves = s.moves) ∧
        (tierOf l.pa ≠ target → (s.frame l.pa).pins = 0 → (tierOf l.pa < target → ¬ nodemote) →
          OwnedHere s l → s.hasRoom x.part target l.size = true →
          (∀ p, s.part? x.part = some p → p.promotionHw = false → t.tiers = tiersWith s { passing x l with
            host := true, forwarded := x.forwarded + 1 } ∧ t.moves = s.moves) ∧
          (∀ p pa, s.part? x.part = some p → p.promotionHw = true →
            (s.noteFrame l.pa l.size x.part).freeFrame target l.size = some pa →
            ∃ m, t.moves = s.moves ++ [m] ∧ m.leaf = l ∧ m.target = pa ∧ m.phase = 0 ∧ m.op = some (x.core, x.num) ∧
              m.id = s.nextId ∧ t.tiers = tiersWith s { passing x l with moves := s.nextId :: x.moves }))))) ∧
  (∀ (s : State) (x : TierOp), s.tierOp? x.core x.num = some x → x.stage = .running → x.addr + x.len ≤ x.cursor →
    (x.moves = [] → x.forwarded = 0 → ∃ t, exec (.tierOpComplete x.core x.num) s = .next t ∧ t.mem = s.mem ∧
      (∀ y ∈ t.tiers, y.core = x.core → y.num = x.num → y.stage = .done ∧ (t.timeline x.core 2).retired < x.num) ∧
      (∀ y ∈ s.tiers, ¬ (y.core = x.core ∧ y.num = x.num) → y.stage ≠ .done → y ∈ t.tiers) ∧
      (x.core < s.cores.length → t.timeline x.core 2 = (s.timeline x.core 2).complete x.num)) ∧
    (x.moves ≠ [] ∨ x.forwarded ≠ 0 → exec (.tierOpComplete x.core x.num) s = .next s)) ∧
  (∀ (s : State) (x : TierOp) (moved : Bool), s.tierOp? x.core x.num = some x → x.forwarded ≠ 0 →
    ∃ t, exec (.migrHostReport x.core x.num moved) s = .next t ∧ t.mem = s.mem ∧ t.wgs = s.wgs ∧ t.tiers = tiersWith s
      { x with forwarded := x.forwarded - 1, done := x.done + moved.toNat, skipped := x.skipped + (!moved).toNat })

/-- For the one move in progress: the copy phase begins once the source and the target are this package's; at the
switch the new frame reads, byte for byte, as the old one did with its held writes, accesses are forwarded there, and
no other byte of the tiers changes (stated for a page that no cache holds and a target no sector of which is cached);
the commit, held back while a planned row operation names the frame, rewrites the entry's frame number and generation
and no other field and passes the counters on, and triggers the watches on the page; at the end no TLB entry of the
page or of its old frame is left, the old frame is free and its generation has advanced. -/
def Obligations.MovesKeepEveryByteAndHandOverTheFrame : Prop :=
  ∀ (s : State) (m : Move), s.move? m.id = some m → m.leaf.pa % 4096 = 0 → m.target % 4096 = 0 → m.leaf.size % 4096 = 0 →
    4096 ≤ m.leaf.size → (m.target + m.leaf.size ≤ m.leaf.pa ∨ m.leaf.pa + m.leaf.size ≤ m.target) →
    s.moves = [m] → Memory.wf s.mem →
    let inside (a : Nat) : Prop := m.leaf.pa ≤ a ∧ a < m.leaf.pa + m.leaf.size
    (m.phase = 0 → (∀ i < m.leaf.size / 4096, s.poolServes (m.target + i * 4096) true = true ∧
      s.poolServes (m.leaf.pa + i * 4096) true = true) → exec (.moveCopyPhase m.id) s = .next { s with moves := [{ m with phase := 1 }] }) ∧
    (m.phase ≠ 0 → exec (.moveCopyPhase m.id) s = .next s) ∧
    (m.phase = 1 → (∀ c < s.cores.length, ∀ x ∈ (s.core c).l1, ¬ inside (x.line * 128)) →
      (∀ x ∈ s.l2, ¬ inside (x.sector * 128) ∧ ∀ i < m.leaf.size, x.sector * 128 ≠ m.target + i) →
      (∀ c ∈ m.held, inside c.1 ∧ s.isCleared c.1 = false) →
      ∃ t, exec (.moveSwitch m.id) s = .next t ∧ t.moves = [{ m with phase := 2, held := [], count := 0 }] ∧
        (∀ i < m.leaf.size, t.tierByte (m.target + i) = s.tierByte (m.leaf.pa + i) ∧
          t.homeAddr (m.leaf.pa + i) = m.target + i) ∧
        (∀ a, a < m.target ∨ m.target + m.leaf.size ≤ a → ¬ inside a → t.tierByte a = s.tierByte a)) ∧
    (m.phase = 2 → s.rowNames m.leaf.pa = false → TableOk s m.leaf.pte → m.target < 2 ^ 52 →
      s.l2.length + (s.remaps m).length ≤ 4096 →
      (∀ e ∈ s.remaps m, e.1 % 16 = 0 ∧ (e.1 = m.leaf.pte → e.2 = m.target)) →
      ∃ t, exec (.moveCommit m.id) s = .next t ∧ t.moves = [{ m with phase := 3 }] ∧ t.mem = s.mem ∧
        t.wgs = (s.wgs.map fun w => withThreads w (w.threads.map (sawMove m s.time))) ∧
        (t.frame m.target).gen = m.leaf.gen + 1 ∧ (t.frame m.target).rd = (s.frame m.leaf.pa).rd ∧
        (t.frame m.target).wr = (s.frame m.leaf.pa).wr ∧
        (t.readPte m.leaf.pte).extractLsb' 16 40 = BitVec.ofNat 40 (m.target / 4096) ∧
        (t.readPte m.leaf.pte).extractLsb' 112 16 = m.leaf.gen + 1 ∧
        (t.readPte m.leaf.pte).extractLsb' 0 16 = (s.readPte m.leaf.pte).extractLsb' 0 16 ∧
        (t.readPte m.leaf.pte).extractLsb' 56 56 = (s.readPte m.leaf.pte).extractLsb' 56 56) ∧
    (m.phase = 2 → s.rowNames m.leaf.pa = true → exec (.moveCommit m.id) s = .next s) ∧
    (m.phase = 3 → ∃ t, exec (.moveRetire m.id) s = .next t ∧ t.moves = [] ∧ t.mem = s.mem ∧
      (t.frame m.leaf.pa).owner = none ∧ (t.frame m.leaf.pa).gen = (s.frame m.leaf.pa).gen + 1 ∧
      ∀ c ∈ t.cores, ∀ e ∈ c.tlb, e.part = m.part →
        (e.leaf.vbase + e.leaf.size ≤ m.leaf.vbase ∨ m.leaf.vbase + m.leaf.size ≤ e.leaf.vbase) ∧
        (e.leaf.pa + e.leaf.size ≤ m.leaf.pa ∨ m.leaf.pa + m.leaf.size ≤ e.leaf.pa))

/-- Counters halve once for each 2^20 ticks. In hardware mode the policy looks at a page once after a halving, or
after space was freed, and starts one move of an unpinned page toward pref or by its counters, in host-assisted mode
none; where a frame's corrected errors have passed the partition's limit its page moves to a fresh frame of its tier
and the old one is retired, or it is reported; a management move clears pin and nodemote. A remote request empties the
caches of a granule that is given up, leaves a shared one to readers, and is deferred on a pinned one; a grant settles
a transfer, exclusive where the request needs it, and brings what others stored (news that the device takes from
outside, log 19); a request waits while a move copies the granule; Zarkin OS sets states; a load that has waited the
pool limit parks with MIGRATION. When events come is the agenda's or the device's choice (log 4). -/
def Obligations.PolicyCountersAndPoolEvents : Prop :=
  (∀ (s : State), exec .counterHalving s = .next (if s.halvings < s.time / 20 % 2 ^ 64 / 2 ^ 20 then
    { s with halvings := s.halvings + 1,
             due := s.parts.flatMap fun p => (s.leaves p.number).map fun l => (p.number, l.vbase),
             frames := s.frames.map fun (f : Frame) => { f with rd := f.rd / 2, wr := f.wr / 2 } } else s)) ∧
  (∀ (s : State) (p : Partition) (l : Leaf) (part page : Nat), s.part? part = some p → s.walk (s.rootOf part) page = .ok l →
    0 < l.size →
    (p.promotionHw = false → exec (.promotionPolicy part page) s = .next s) ∧
    ((part, l.vbase) ∉ s.due → s.makesRoom part l = false → exec (.promotionPolicy part page) s = .next s) ∧
    ((s.frame l.pa).pins ≠ 0 → ∃ t, exec (.promotionPolicy part page) s = .next t ∧ t.moves = s.moves ∧ t.mem = s.mem ∧
      t.frames = s.frames ∧ t.wgs = s.wgs) ∧
    (p.promotionHw = true → (part, l.vbase) ∈ s.due → s.makesRoom part l = false → (s.frame l.pa).pins = 0 → s.movesOf l = [] → s.genOk l l.pa = true → tierOf l.pa = 1 → OwnedHere s l →
      s.hasRoom part 0 l.size = true → s.twinRuns part = false →
      (s.affinityOf part l % 4 = 0 ∨ (s.affinityOf part l % 4 = 3 ∧
        p.promoteAt ≤ (s.frame l.pa).rd + (s.frame l.pa).wr)) → ∀ pa, s.freeFrame 0 l.size = some pa →
      ∃ t m, exec (.promotionPolicy part page) s = .next t ∧ t.moves = s.moves ++ [m] ∧ m.leaf = l ∧ m.target = pa ∧
        m.phase = 0 ∧ t.mem = s.mem ∧ t.l2 = s.l2 ∧ t.wgs = s.wgs) ∧
    ((s.frame l.pa).errors ≤ p.errorLimit → exec (.frameRetirement part page) s = .next s) ∧
    (p.faultHw = false → p.errorLimit < (s.frame l.pa).errors → (s.frame l.pa).retired = false → l.pa ∉ p.reported →
      ∃ t q, exec (.frameRetirement part page) s = .next t ∧ t.moves = s.moves ∧ t.mem = s.mem ∧ t.frames = s.frames ∧
        t.part? part = some q ∧ q.reported = p.reported ++ [l.pa]) ∧
    (p.faultHw = true → p.errorLimit < (s.frame l.pa).errors → (s.frame l.pa).retired = false → l.pa ∉ p.reported →
      (s.frame l.pa).pins = 0 → s.movesOf l = [] → s.genOk l l.pa = true → OwnedHere s l →
      ∀ pa, s.freeFrame (tierOf l.pa) l.size = some pa → ∃ t m, exec (.frameRetirement part page) s = .next t ∧
        t.moves = s.moves ++ [m] ∧ m.leaf = l ∧ m.target = pa ∧ (pa + l.size ≤ l.pa ∨ l.pa + l.size ≤ pa →
          (∀ f ∈ s.frames, f.base ≤ l.pa → l.pa < f.base + f.size → f.base = l.pa ∧ f.size = l.size) →
          (t.frame l.pa).retired = true)) ∧
    (∀ tier frame, s.movesOf l = [] → tierOf frame = tier → tier ≤ 2 → frame % l.size = 0 →
      s.rangeFree frame l.size = true → s.genOk l l.pa = true → TableOk s l.pte → TablesOk s part l → NotWanted s l →
      ∃ t m, exec (.managementPageMove part page tier frame) s = .next t ∧ t.moves = s.moves ++ [m] ∧ m.leaf = l ∧
        m.target = frame ∧ m.phase = 0 ∧ (t.readPte l.pte).getLsbD 14 = false ∧ (t.readPte l.pte).getLsbD 12 = false)) ∧
  (∀ (s : State) (frame gen : Nat), ∃ t, exec (.frameGenerationChange frame gen) s = .next t ∧ t.mem = s.mem ∧
    t.ops = s.ops ∧ (t.frame (frame / 4096 * 4096)).gen = BitVec.ofNat 16 gen) ∧
  (∀ (s : State) (pa : Nat) (excl : Bool), 
    (tierOf pa ≠ 2 ∨ s.poolState pa = .invalid ∨ (s.poolState pa = .shared ∧ excl = false) →
      exec (.poolRemoteRequest pa excl) s = .next s) ∧
    (s.moveKeeps pa = true → exec (.poolRemoteRequest pa excl) s = .next s) ∧
    (s.moveKeeps pa = false → (∀ m ∈ s.moves, m.phase ≠ 1) → tierOf pa = 2 → s.poolState pa = .exclusive ∨ (s.poolState pa = .shared ∧ excl = true) →
      ∃ t, exec (.poolRemoteRequest pa excl) s = .next t ∧ t.poolState pa = .invalid ∧ t.poolServes pa false = false ∧
        (∀ x ∈ t.l2, x.sector / 32 ≠ pa / 4096) ∧ ∀ c < t.cores.length, ∀ x ∈ (t.core c).l1, x.line / 32 ≠ pa / 4096) ∧
    (s.moveKeeps pa = false → tierOf pa = 2 → s.poolState pa = .pinned → ∃ t, exec (.poolRemoteRequest pa excl) s = .next t ∧
      t.poolState pa = .pinned ∧ t.mem = s.mem ∧ (t.granule? pa).bind (·.deferred) =
        some ((((s.granule? pa).bind (·.deferred)).getD false) || excl))) ∧
  (∀ (s : State) (pa : Nat) (excl e : Bool) (g : Granule) (since : Nat), s.granule? pa = some g → g.state = .transfer →
    g.request = some (since, e) →
    (e = true → excl = false → exec (.poolGrant pa excl) s = .next s) ∧
    (e = false ∨ excl = true → ∃ t, exec (.poolGrant pa excl) s = .next t ∧ t.wgs = s.wgs ∧
      (g.stale = false → t.mem = s.mem) ∧
      (g.stale = true → Memory.wf s.mem → ∀ a, Memory.get t.mem a =
        match s.poolNews.find? (·.granule == pa / 4096 * 4096) with
        | some x => if a / 4096 = pa / 4096 then x.bytes.getD (a % 4096) (s.tierByte a) else Memory.get s.mem a
        | none => Memory.get s.mem a) ∧
      t.poolState pa = (if excl = true then .exclusive else .shared) ∧ (t.granule? pa).bind (·.request) = none ∧
      (excl = true → (t.granule? pa).map (·.held) = some []))) ∧
  (∀ (s : State) (pa : Nat), tierOf pa = 2 → ∀ p ∈ [(1, PoolState.invalid), (2, .shared), (3, .exclusive), (4, .pinned),
      (5, .transfer)], ∃ t, exec (.poolStateChange pa p.1) s = .next t ∧ t.poolState pa = p.2 ∧ t.ops = s.ops ∧
        (p.1 = 5 → t.mem = s.mem ∧ ((t.granule? pa).bind (·.request)).map (·.2) = some true) ∧
        (p.1 ≠ 5 → (t.granule? pa).bind (·.request) = none)) ∧
  (∀ (s : State) (o : PendingOp) (t func : Nat) (a : Access), s.op? o.id = some o → NoFence s → o.kind = .load func a none →
    (∀ y ∈ s.ops, y.word = o.word → y.id = o.id) → o.waiting = some t → let limit := ((s.part? (s.opPart o)).map (·.poolWait)).getD 0
    (limit = 0 ∨ s.time < t + 20 * limit → exec (.poolWaitLimitExpiry o.id) s = .next s) ∧
    (limit ≠ 0 → t + 20 * limit ≤ s.time → s.poolServes a.pa false = false → exec (.poolWaitLimitExpiry o.id) s = .next
      { s with ops := s.ops.filter (·.id != o.id), wgs := s.wgs.map fun w => withThreads w (w.threads.map fun t =>
        if t.ref w.id ∈ o.who then (t.subFlag o.flag).raiseLate
          { code := 0x14, addr := BitVec.ofNat 64 a.va, gen := a.leaf.gen } o.site o.id (o.of o.widths (t.ref w.id) t.sgw)
        else t) }))

namespace Sys2Proof.Claims

/-! ## Queues and launches (R345, R363 to R366) -/

/-- The bytes of a queue's header and of the item that a position names lie in one page, readable, writable and served, and
no code fault is met there. -/
def QueueOk (s : State) (core part : Nat) (q : Queue) (x : Nat) : Prop :=
  q.qbase % 64 = 0 ∧ 0 < q.depth ∧ q.qbase + 64 + 32 * q.depth ≤ 2 ^ 57 ∧
    (∀ y ∈ (s.core core).l1, y.isDirty = false) ∧ core < s.cores.length ∧ s.l2.length + 2 ≤ 4096 ∧
    ∃ l, (∀ a, q.qbase ≤ a → a < q.qbase + 64 + 32 * q.depth → s.findLeaf core part a = .ok l) ∧
      l.r = true ∧ l.w = true ∧ l.format < 7 ∧ l.cls = .priv ∧ l.vbase ≤ q.qbase ∧ l.pa % 4096 = 0 ∧ l.vbase % 4096 = 0 ∧
      tierOf (l.pa + (q.qbase - l.vbase)) ≠ 2 ∧ tierOf (l.pa + (q.qbase + 64 + x % q.depth * 32 - l.vbase)) ≠ 2 ∧
      s.moves = [] ∧ (∀ a, (s.tlbInsert core part l).genOk l a = true) ∧
      Plain (s.tlbInsert core part l) (l.pa + (q.qbase - l.vbase)) 32 l ∧
      Plain (s.tlbInsert core part l) (l.pa + (q.qbase + 64 + x % q.depth * 32 - l.vbase)) 32 l

/-- The queue of a workgroup's pipeline. -/
def queueOf (s : State) (w : Workgroup) (j : Nat) : Option Queue :=
  (s.pipeline? w.part w.handle).bind fun p => (p.queues.getD j none)

/-- A launch that begins. -/
def launching (s : State) (g : Group) (r : TRef) (w : Workgroup) (o : DlArgs) : Launch :=
  { id := s.nextId, group := g.id, who := [r], wg := r.wg, warp := r.warp, part := w.part,
    desc := (s.warpReg r o.wd.toNat).toNat, pd := o.pd.toNat, wh := o.wh.toNat, site := g.site g.pc, issuedBy := s.nextId }

/-- R366: what the end of a launch leaves in threads and warps. -/
def launchedBy (l : Launch) (ok : Bool) (value : Nat) (w : Workgroup) : Workgroup :=
  let land (t : Thread) : Thread :=
    if t.ref w.id ∈ l.who then
      { t.setPred l.pd ok with taint := t.taint || (ok && decide ((t.setPred l.pd ok).status = .live)) } else t
  { w with
    threads := w.threads.map land,
    warps := if w.id = l.wg ∧ l.wh ≠ 0 then
      w.warps.map (fun x => if x.id = l.warp then x.setReg l.wh (BitVec.ofNat 64 value) else x) else w.warps }

end Sys2Proof.Claims

/-- For a ready group whose members the package names once each: TLRD writes the counter of its core's timeline that
the word selects, as it stands at issue, to v[vd] (low word) and v[vd+1] of each member whose guard is true, changes
nothing else of any thread and, as a relaxed load does, nothing of caches, memory or other accesses. -/
def Obligations.TlrdReadsItsCounterAtIssue : Prop :=
  ∀ (s : State) (g : Group) (o : TlrArgs), Ready s g {} (registers o.vd.toNat 2) → Named s g →
    exec (.tlrd o) s = .next (after s g fun _ t =>
      if t.pred o.guard.toNat = true then t.setRegs o.vd.toNat
        (words (BitVec.ofNat 64 ((s.core g.core).tl.toList.getD o.tl.toNat Timeline.reset).retired)) else t)

/-- For a ready group of one member: ENQ faults PROTECTION for a queue outside omask, answers 0 when the queue is
full, else stores the item, counts it as reserved and published, answers 1 and taints; a helper pushes nothing and
reads 1. STQ reads rsv − con and pub − asg, zeros for an absent queue. IDEMB sets the restart point behind its clause
and clears the taint, IDEME removes it. DLAUNCH checks its address, holds its group while descriptors are read, then
sets p and w[wH] to the handle or to the reason (1 table full, 2 priority, 3 else; that the first of several counts is
the model's choice, log 20). A false guard changes nothing but the place in the clause. -/
def Obligations.QueueAndLaunchWords : Prop :=
  (∀ (s : State) (g : Group) (r : TRef) (w : Workgroup) (th : Thread), Alone s g r w th → g.core = w.core →
    (∀ o : EnqFArgs, Ready s g {} (registers o.vs.toNat 8) → let j := o.queue.toNat
      (th.pred o.guard.toNat = false → exec (.enq o) s = .next (after s g fun _ t => t)) ∧
      (th.pred o.guard.toNat = true → s.releaseWaits r 2 s.nextId = false →
        (∀ q, queueOf s w j = some q → QueueOk s w.core w.part q (s.queueHead w.core w.part q).2.rsv) →
        (w.omask.getLsbD j = false →
          exec (.enq o) s = .next (parkedAt s g { code := 0x12, addr := BitVec.ofNat 64 j })) ∧
        (w.omask.getLsbD j = true → th.status = .helper →
          exec (.enq o) s = .next (after s g fun _ t => t.setPred o.pd.toNat true)) ∧
        (w.omask.getLsbD j = true → th.status = .live → ∀ q, queueOf s w j = some q →
          let h := (s.queueHead w.core w.part q).2
          (q.depth ≤ h.rsv - h.con → ∃ t, exec (.enq o) s = .next t ∧
            t.wgs = (after s g fun _ t => t.setPred o.pd.toNat false).wgs ∧ t.mem = s.mem ∧ t.ops = s.ops) ∧
          (h.rsv - h.con < q.depth → h.rsv + 1 < 2 ^ 64 → ∃ t, exec (.enq o) s = .next t ∧
            t.wgs = (after s g fun _ t => { t.setPred o.pd.toNat true with taint := true }).wgs ∧ t.ops = s.ops ∧
            (t.queueHead w.core w.part q).2 = { h with pub := h.rsv + 1, rsv := h.rsv + 1 } ∧
            (t.readItem w.core w.part q h.rsv).2 = (registers o.vs.toNat 8).map th.reg)))) ∧
    (∀ o : StqFArgs, Ready s g {} (registers o.vd.toNat 2) →
      (th.pred o.guard.toNat = false → exec (.stq o) s = .next (after s g fun _ t => t)) ∧
      (th.pred o.guard.toNat = true →
        (queueOf s w o.queue.toNat = none → exec (.stq o) s = .next (after s g fun _ t => t.setRegs o.vd.toNat [0, 0])) ∧
        (∀ q, queueOf s w o.queue.toNat = some q → s.headLacks w.core w.part q false = none → s.l2.length + 4 ≤ 4096 →
          let h := (s.queueHead w.core w.part q).2
          ∃ t, exec (.stq o) s = .next t ∧ t.mem = s.mem ∧ t.ops = s.ops ∧ t.wgs = (after s g fun _ t =>
            t.setRegs o.vd.toNat [BitVec.ofNat 32 (h.rsv - h.con), BitVec.ofNat 32 (h.pub - h.asg)]).wgs))) ∧
    (∀ o : G0Args, Ready s g lastRule [] → exec (.idemb o) s = .next (if th.pred o.guard.toNat = true then
      { after s g (fun _ t => { t with restart := some (g.pc + 4), taint := false }) with
        wgs := (after s g (fun _ t => { t with restart := some (g.pc + 4), taint := false })).wgs.map fun v =>
          if v.id = r.wg then { v with idembAt := s.time } else v } else after s g fun _ t => t)) ∧
    (∀ o : G0Args, Ready s g {} [] → exec (.ideme o) s = .next (after s g fun _ t =>
      if t.pred o.guard.toNat = true then { t with restart := none } else t)) ∧
    (∀ o : DlArgs, Ready s g {} [] → (∀ l ∈ s.launches, l.group ≠ g.id) → s.groups = [g] →
      let wd := s.warpReg r o.wd.toNat
      (th.pred o.guard.toNat = false ∨ g.sent = true → exec (.dlaunch o) s = .next (after s g fun _ t => t)) ∧
      (th.pred o.guard.toNat = true → g.sent = false →
        (2 ^ 57 ≤ wd.toNat → exec (.dlaunch o) s = .next (parkedAt s g { code := 0x12, addr := wd })) ∧
        (wd.toNat < 2 ^ 57 → wd.toNat % 64 ≠ 0 →
          exec (.dlaunch o) s = .next (parkedAt s g { code := 0x10, addr := wd })) ∧
        (wd.toNat < 2 ^ 57 → wd.toNat % 64 = 0 → th.status = .helper →
          exec (.dlaunch o) s = .next (after s g fun _ t => t.setPred o.pd.toNat true)) ∧
        (wd.toNat < 2 ^ 57 → wd.toNat % 64 = 0 → th.status = .live →
          (∀ d, checked s w.core w.part wd 1 { r := true } = .error d → exec (.dlaunch o) s = .next (parkedAt s g d)) ∧
          (∀ x, checked s w.core w.part wd 1 { r := true } = .ok x → exec (.dlaunch o) s = .next { s with
            launches := s.launches ++ [launching s g r w o], nextId := s.nextId + 1,
            groups := [{ g with sent := true, held := true }], picks := s.picks.tail }))))) ∧
  (∀ (s u : State) (l : Launch) (d : Descriptor) (p : Partition), s.launches.find? (·.id == l.id) = some l →
    s.warpCommandWaits 2 2 l.wg l.warp l.issuedBy = false →
    ((s.orderActions (s.coreOf l.wg) 2 2).readDescriptor (engineAgent 5 (s.coreOf l.wg) l.id) (s.coreOf l.wg) l.part
      l.desc) = .ok u d →
    u.part? l.part = some p →
    (∀ reason, u.refusal p d = some reason → ∃ t, exec (.descriptorReadComplete l.id) s = .next t ∧
      t.wgs = u.wgs.map (launchedBy l false (2 ^ 63 + reason)) ∧ t.parts = u.parts ∧
      t.launches = u.launches.filter (·.id != l.id)) ∧
    (u.refusal p d = none → ∃ t q, exec (.descriptorReadComplete l.id) s = .next t ∧
      t.wgs = u.wgs.map (launchedBy l true (p.launches + 1)) ∧ t.part? l.part = some q ∧
      q = { p with launches := p.launches + 1, pipelines := p.pipelines ++ [d.pipeline (p.launches + 1)] } ∧
      t.launches = u.launches.filter (·.id != l.id))) ∧
  (∀ (s : State) (p : Partition) (d : Descriptor),
    (256 ≤ p.pipelines.length → s.refusal p d = some 1) ∧
    (p.pipelines.length < 256 → p.prioCeiling < d.prio → s.refusal p d = some 2))

namespace Sys2Proof.Claims

/-! ## System words (R373 to R394) -/

/-- R385: the registers that a thread reads, by number, but for those at privilege. -/
def specials (s : State) (w : Workgroup) (x : Warp) (t : Thread) : List DWord :=
  let c := s.core w.core
  let n (k : Nat) : DWord := BitVec.ofNat 64 k
  [n t.lane, n (t.lane / 4), n t.warp, n w.seq.toNat, n ((w.csz - 1) * 2 ^ 8 + w.member * 2 ^ 4 + w.stage), n w.core,
   n s.pkg.toNat, n x.sgw, n x.gang.toNat, n x.role, n w.pos.toNat, s.clock w.core, n (s.time / 20), n w.colto, n w.barto,
   n t.fpstat.toNat, n (s.mprogOf (t.ref w.id)).toNat] ++
  ([0, 1, 2].map fun k => n (c.tl.toList.getD k Timeline.reset).retired) ++
  ([0, 1, 2, 3, 4, 5, 6, 7].map fun k => c.lathist.toList.getD k 0) ++
  [n t.fcode.toNat, t.fpc, t.faddr, n t.finfo.toNat, w.tvec, t.tpc, t.tnext, n t.inh.toNat]

/-- R385: the registers of 64 bits. -/
def wideNumbers : List Nat := [11, 12] ++ ((List.range 11).map (17 + ·)) ++ [29, 30, 32, 33, 34, 36]

/-- R127: %sgw of a thread's warp. -/
def width (w : Workgroup) (t : Thread) : Nat := match w.warp? t.warp with
  | some x => x.sgw
  | none => 32

/-- R127: the width with which a thread goes back behind its handler: into its clause, or at a clause start. -/
def backAt (w : Workgroup) (t : Thread) (mid : Option ClauseCtx) : Nat := if mid.isSome = true then t.siteSgw else width w t

/-- R377, R86: where a thread goes on behind the word. -/
def behind (g : Group) : Option ClauseCtx :=
  if g.ctx.left ≤ 1 then none else some { g.ctx with left := g.ctx.left - 1 }

/-- R377: a thread that has executed TRAP. -/
def trapped (g : Group) (code : BitVec 6) (t : Thread) : Thread :=
  { t with taint := true, status := .parked false, fcode := 0x40, fpc := g.pc + 4, faddr := 0,
           finfo := BitVec.ofNat 32 (t.depth % 2 ^ 16 * 2 ^ 16 + code.toNat * 2 ^ 8), fgen := 0, raised := none, forder := none,
           siteSgw := t.sgw,
           tnext := g.pc + 4, entry := .pending, group := none, hold := none, collSince := none, pc := g.pc + 4,
           mid := behind g, site := ⟨g.pc + 4, g.pc + 4, behind g, g.pc + 4, behind g⟩ }

/-- A workgroup with another handler address. -/
def withVector (wg : Nat) (x : DWord) (s : State) : State :=
  { s with wgs := s.wgs.map fun w => if w.id = wg then { w with tvec := x } else w }

end Sys2Proof.Claims

/-- For a ready group: TRAP parks each live member with a true guard, its code in %finfo and every place the word
behind. With one member: SYSC leaves one call with its number and arguments (a helper reads 0), FCALL marks the calls
before it, RETT returns to the resume point or the next address where %tpc names it, else to the clause header at
%tpc, and faults BAD_TARGET outside a handler; S2V reads the registers of R385; V2S writes %fpstat, %tvec and %tpc,
ignores read-only ones; privileged ones and TLBI fault PRIVILEGE. A call is delivered once the calls before an FCALL
have completed; its result lands. How RETT tells the resume point from the next address, and that V2S writes all 64
bits of %tvec and %tpc, is log 23; that %ref is one count for every core is log 6. -/
def Obligations.SystemWords : Prop :=
  (∀ (s : State) (g : Group) (o : TrapFArgs), Ready s g {} [] → Named s g → exec (.trap o) s = .next (after s g fun _ t =>
    if t.pred o.guard.toNat = true ∧ t.status = .live then trapped g o.code t else t)) ∧
  (∀ (s : State) (g : Group) (r : TRef) (w : Workgroup) (th : Thread), Alone s g r w th →
    (∀ o : SyscFArgs, Ready s g {} (registers o.vd.toNat 2 ++ registers o.va.toNat 8) →
      (th.pred o.guard.toNat = false → exec (.sysc o) s = .next (after s g fun _ t => t)) ∧
      (th.pred o.guard.toNat = true → flagRoom g o.fs th →
        (th.status = .helper → exec (.sysc o) s = .next (after s g fun _ t => t.setRegs o.vd.toNat [0, 0])) ∧
        (th.status = .live → s.openCalls g.core < 32 → exec (.sysc o) s = .next (tainted r (afterOp s g (newOp s g r th
          (g.flagOf o.fs) (.sysc (th.reg o.va.toNat) ((registers (o.va.toNat + 1) 7).map th.reg) th.fcall)
          o.vd.toNat 2)))))) ∧
    (∀ o : G0Args, Ready s g {} [] → exec (.fcall o) s = .next (after s g fun _ t =>
      if t.pred o.guard.toNat = true ∧ t.status ≠ .helper then { t with fcall := s.nextId } else t)) ∧
    (∀ o : G0Args, Ready s g lastRule [] → w.gangs = [] → th.executes = true →
      (th.pred o.guard.toNat = false → exec (.rett o) s = .next (after s g fun _ t => t)) ∧
      (th.pred o.guard.toNat = true →
        (th.inh = false → exec (.rett o) s = .next (parkedAt s g { code := 0x04, addr := th.tpc })) ∧
        (th.inh = true → th.kept = none → th.tpc = th.site.resume → exec (.rett o) s = .next (after s g fun _ t =>
          { t with yieldMark := if g.ctx.y = true then some 0 else t.yieldMark,
                   inh := false, pc := th.site.resume, mid := th.site.resumeIn, group := none, readyAt := s.time,
                   hold := none, sgw := backAt w th th.site.resumeIn })) ∧
        (th.inh = true → th.tpc ≠ th.site.resume → th.tpc = th.site.next → exec (.rett o) s = .next (after s g fun _ t =>
          { t with yieldMark := if g.ctx.y = true then some 0 else t.yieldMark,
                   inh := false, pc := th.site.next, mid := th.site.nextIn, group := none, readyAt := s.time,
                   kept := none, sgw := backAt w th th.site.nextIn })) ∧
        (th.inh = true → th.tpc ≠ th.site.resume → th.tpc ≠ th.site.next → th.tpc.toNat % 4 = 0 → th.tpc.toNat < 2 ^ 57 →
          ∀ x, s.fetchWord w.core w.part th.tpc = .ok x → x.toNat / 2 ^ 26 = 0x3F →
            exec (.rett o) s = .next (after s g fun _ t => { t with inh := false, pc := th.tpc, kept := none })))) ∧
    (∀ (o : S2vFArgs) (x : Warp), o.num.toNat < 38 → w.warp? r.warp = some x →
      Ready s g {} (registers o.vd.toNat (if o.num.toNat ∈ wideNumbers then 2 else 1)) →
      (th.pred o.guard.toNat = false → exec (.s2v o) s = .next (after s g fun _ t => t)) ∧
      (th.pred o.guard.toNat = true → 36 ≤ o.num.toNat → exec (.s2v o) s = .next (parkedAt s g { code := 0x05 })) ∧
      (th.pred o.guard.toNat = true → o.num.toNat < 36 → s.time / 20 < 2 ^ 64 →
        ∀ v, (specials s w x th)[o.num.toNat]? = some v → exec (.s2v o) s = .next (after s g fun _ t =>
          t.setRegs o.vd.toNat ((words v).take (if o.num.toNat ∈ wideNumbers then 2 else 1))))) ∧
    (∀ o : V2sFArgs, o.num.toNat < 38 → Ready s g {} (registers o.va.toNat (if o.num.toNat ∈ wideNumbers then 2 else 1)) →
      (th.pred o.guard.toNat = false → exec (.v2s o) s = .next (after s g fun _ t => t)) ∧
      (th.pred o.guard.toNat = true → exec (.v2s o) s = .next (
        if 36 ≤ o.num.toNat then parkedAt s g { code := 0x05 }
        else if o.num = 15 then after s g fun _ t => { t with fpstat := BitVec.ofNat 5 (th.reg o.va.toNat).toNat }
        else if o.num = 32 then withVector r.wg (pairOf th o.va.toNat) (after s g fun _ t => t)
        else if o.num = 33 then after s g fun _ t => { t with tpc := pairOf th o.va.toNat }
        else after s g fun _ t => t))) ∧
    (∀ o : TlbiFArgs, Ready s g {} (registers o.va.toNat 2) → exec (.tlbi o) s = .next (if th.pred o.guard.toNat = true then
      parkedAt s g { code := 0x05, addr := pairOf th o.va.toNat } else after s g fun _ t => t))) ∧
  (∀ (s : State) (o : PendingOp) (num : Word) (args : List Word) (before : Nat) (result : BitVec 64) (keep : Nat)
    (r : TRef) (w : Workgroup), s.op? o.id = some o → o.who = [r] → s.wg? r.wg = some w → o.kind = .sysc num args before →
    ((∃ y ∈ s.ops, y.who = o.who ∧ y.id < before ∧ ∃ a b c, y.kind = .sysc a b c) →
      exec (.syscComplete o.id result keep) s = .next s) ∧
    (s.callWaits o before = false → s.releaseWaits r 2 o.id = false → ∃ t,
      exec (.syscComplete o.id result keep) s = .next t ∧ t.wgs = (completed s o (words result) 0 keep).wgs ∧
      t.ops = s.ops.filter (·.id != o.id) ∧
      ∀ p, s.part? (s.opPart o) = some p → t.part? (s.opPart o) = some { p with calls := p.calls ++
        [{ op := o.id, core := w.core, slot := w.slot, warp := r.warp, lane := r.lane, num := num, args := args }] }))

namespace Sys2Proof.Claims

/-! ## Traps and the fault queue (R368 to R381) -/

/-- R63: the status that a parked thread returns to. -/
def unparked (t : Thread) : Status := match t.status with
  | .parked h => if h = true then .helper else .live
  | x => x

/-- R375: entry into the user handler. -/
def intoHandler (w : Workgroup) (now : Nat) (t : Thread) : Thread :=
  { t with status := unparked t, entry := .none, tpc := t.site.resume, inh := true, pc := w.tvec, mid := none,
           readyAt := now, kept := t.hold, hold := none, sgw := width w t }

/-- A handler whose first word can be fetched and is a clause header. -/
def HandlerAt (s : State) (w : Workgroup) : Prop :=
  w.tvec.toNat % 4 = 0 ∧ w.tvec.toNat < 2 ^ 57 ∧ ∃ x, s.fetchWord w.core w.part w.tvec = .ok x ∧ x.toNat / 2 ^ 26 = 0x3F

/-- R372: the codes that always go to the fault queue. -/
def systemCodes : List (BitVec 8) := [0x11, 0x12, 0x13, 0x14, 0x17, 0x18, 0x19, 0x50]

/-- R378: the words of a record. -/
def recordWords (r : FaultRecord) : List Nat :=
  [r.code.toNat * 2 ^ 56 + r.kind * 2 ^ 52 + (if r.hfail = true then 2 ^ 51 else 0) + r.core * 2 ^ 33 + r.slot * 2 ^ 20 +
      r.warp * 2 ^ 15 + r.lane * 2 ^ 10,
   r.pc.toNat, r.addr.toNat, r.info.toNat * 2 ^ 32 + r.gen.toNat, r.wmask.toNat * 2 ^ 32, r.handle, r.ref, r.seq]

/-- A parked thread of a resident workgroup, the only one of its name; nothing of it is outstanding and no gang waits for it. -/
def Parked (s : State) (r : TRef) (w : Workgroup) (th : Thread) : Prop :=
  s.wg? r.wg = some w ∧ w.id = r.wg ∧ w.place = .resident ∧ w.thread? r.warp r.lane = some th ∧
    th.warp = r.warp ∧ th.lane = r.lane ∧ (∃ h, th.status = .parked h) ∧ th.watchdog = none ∧ w.gangs = [] ∧
    (∀ v ∈ s.wgs, v.id = r.wg → v = w) ∧ ∀ t ∈ w.threads, t.warp = r.warp → t.lane = r.lane → t = th

/-- R235: a thread that parks no longer counts an interrupted operation of its gang. -/
def uncounted (t : Thread) : Thread :=
  { ((t.late.map (·.flags)).getD []).foldl Thread.subFlag t with late := t.late.map fun d => { d with flags := [] } }

/-- R381, R368: a thread that the watchdog stops; one that is parked already keeps its record. -/
def watched (t : Thread) : Thread :=
  match t.status with
  | .exited => t
  | .parked _ => { uncounted t with watchdog := some t.status, group := none, collSince := none }
  | _ => { uncounted t with
      watchdog := some t.status, group := none, collSince := none, status := .parked (decide (t.status = .helper)),
      fcode := 0x50, fpc := t.pc, faddr := 0, finfo := BitVec.ofNat 32 (t.depth % 2 ^ 16 * 2 ^ 16), fgen := 0, raised := none,
      forder := none, tnext := t.pc, site := ⟨t.pc, t.pc, t.mid, t.pc, t.mid⟩, siteSgw := t.sgw }

/-- R381: a thread that goes on after the watchdog has stopped it. -/
def unwatched (now : Nat) (t : Thread) : Thread := match t.watchdog with
  | some st => { t with status := st, watchdog := none, readyAt := now, collSince := none }
  | none => t

/-- R322: a move that a tier operation has requested and that has not begun. -/
def requestedBy (op : TierOp) (m : Move) : Bool := decide (m.phase = 0 ∧ m.op = some (op.core, op.num))

/-- R372: the fault is one that a user handler takes, where one can be entered. -/
def ForHandler (w : Workgroup) (th : Thread) : Prop := th.fcode ∉ systemCodes ∧ th.inh = false ∧ w.tvec ≠ 0

/-- R379: a record of a core may be formed for a fault raised at a moment: there is room, and no fault raised before is still
to be recorded. -/
def MayRecord (s : State) (core at_ : Nat) : Prop :=
  (s.core core).records.length < 16 ∧ s.recordTurn core at_ = true

/-- The threads of a workgroup that have not exited. -/
def present0 (w : Workgroup) : List Thread := w.threads.filter fun t => decide (t.status ≠ .exited)

end Sys2Proof.Claims

/-- A parked thread waits for its outstanding operations; then a program fault outside a handler, with %tvec set,
enters the handler (resume point in %tpc, hold kept), and every other fault, or one whose handler cannot be entered,
puts one record of kind 0 with its registers and the moment it was raised on the core's list of 16, held back when
that is full or a fault raised before is not yet recorded. The oldest record of a core goes into its partition's queue
as the 64 bytes of R378, counted by seq, when there is room. A workgroup past the watchdog limit has every thread that
has not exited park with WATCHDOG, its status kept; one record of kind 6 follows once nothing of them is outstanding
(R370); not before. The model's choices: that the fault queue's base is a physical address, that the watchdog's stop
keeps the threads' registers and holds (log 23), and which moment counts as the one at which a fault was raised (log
9). -/
def Obligations.FaultsEnterTheirHandlerOrTheQueue : Prop :=
  (∀ (s : State) (r : TRef) (w : Workgroup) (th : Thread), Parked s r w th →
    (s.outstanding w th = true → exec (.trapEntry r.wg r.warp r.lane) s = .next s) ∧
    (s.outstanding w th = false → th.entry = .pending →
      (th.fcode ∉ systemCodes → th.inh = false → w.tvec ≠ 0 → HandlerAt s w →
        exec (.trapEntry r.wg r.warp r.lane) s = .next (ofThread r (intoHandler w s.time) s)) ∧
      (¬ ForHandler w th ∨ w.tvec.toNat % 4 ≠ 0 ∨ 2 ^ 57 ≤ w.tvec.toNat → let at_ := th.raised.getD s.time
        (¬ MayRecord s w.core at_ → ¬ ForHandler w th → exec (.trapEntry r.wg r.warp r.lane) s = .next s) ∧
        (¬ MayRecord s w.core at_ → ForHandler w th →
          exec (.trapEntry r.wg r.warp r.lane) s = .next (ofThread r (fun t => { t with entry := .failed }) s)) ∧
        (MayRecord s w.core at_ → w.core < s.cores.length → ∃ t z,
          exec (.trapEntry r.wg r.warp r.lane) s = .next t ∧
          t.wgs = (ofThread r (fun t => { t with entry := .recorded }) s).wgs ∧
          (t.core w.core).records = (s.core w.core).records ++ [z] ∧ z.code = th.fcode ∧ z.kind = 0 ∧ z.pc = th.fpc ∧
          z.addr = th.faddr ∧ z.info = th.finfo ∧ z.gen = th.fgen ∧ z.core = w.core ∧ z.warp = r.warp ∧ z.lane = r.lane ∧
          z.slot = w.slot ∧ z.handle = w.handle ∧ z.who = [r] ∧
          z.raised = at_ ∧ z.ref = at_ / 20 ∧ (z.hfail = true ↔ ForHandler w th)))) ∧
    (s.outstanding w th = false → th.entry = .failed → w.core < s.cores.length → MayRecord s w.core (th.raised.getD s.time) →
      ∃ t z, exec (.trapEntry r.wg r.warp r.lane) s = .next t ∧ (t.core w.core).records = (s.core w.core).records ++ [z] ∧
        z.code = th.fcode ∧ z.kind = 0 ∧ z.hfail = true ∧ z.who = [r])) ∧
  (∀ (s : State) (core : Nat) (x : FaultRecord) (rest : List FaultRecord) (p : Partition),
    (s.core core).unformed = [] → (s.core core).records = x :: rest → s.part? x.part = some p → core < s.cores.length →
    (∀ q ∈ s.parts, q.number = p.number → q = p) → p.fqBase % 64 = 0 → (∀ y ∈ s.l2, y.data.length = 128) →
    (p.fqDepth ≤ p.fqProd - p.fqCons → exec (.faultRecordQueued core) s = .next s) ∧
    (p.fqProd - p.fqCons < p.fqDepth → let z := { x with seq := p.fqSeq + 1 }
      ∃ t q, exec (.faultRecordQueued core) s = .next t ∧ (t.core core).records = rest ∧
        t.l2Bytes (p.fqBase + p.fqProd % p.fqDepth * 64) 64 = (recordWords z).flatMap (fun n => leBytes 8 (n % 2 ^ 64)) ∧
        t.part? p.number = some q ∧ q.fqProd = p.fqProd + 1 ∧ q.fqSeq = p.fqSeq + 1 ∧ q.records = p.records ++ [z])) ∧
  (∀ (s : State) (wg : Nat) (w : Workgroup), s.wg? wg = some w → let limit := ((s.part? w.part).map (·.wdlim)).getD 0
    (w.place ≠ .resident ∨ limit = 0 ∨ s.time ≤ w.watchFrom + 20 * limit.toNat →
      exec (.watchdogExpiry wg) s = .next s) ∧
    (w.place = .resident → limit ≠ 0 → w.watchFrom + 20 * limit.toNat < s.time →
      (∀ v ∈ s.wgs, v.id = wg → v = w) →
      (∀ t ∈ w.threads, t.watchdog = none ∧ t.group = none) → s.groups = [] → (∃ t ∈ w.threads, t.status ≠ .exited) → w.gangs = [] →
      ∃ t v, exec (.watchdogExpiry wg) s = .next t ∧ t.wg? wg = some v ∧ v.threads = w.threads.map watched ∧
        v.watchReport = some s.time ∧ t.mem = s.mem ∧ t.cores = s.cores) ∧
    (∀ th n, w.place = .resident → w.id = wg → w.thread? th.warp th.lane = some th → (∃ h, th.status = .parked h) →
      th.watchdog.isSome = true → w.watchReport = some n →
      let quiet := ∀ x ∈ present0 w, s.outstanding w x = false
      (¬ quiet ∨ ¬ MayRecord s w.core n → exec (.trapEntry wg th.warp th.lane) s = .next s) ∧
      (quiet → MayRecord s w.core n → w.core < s.cores.length → (∀ v ∈ s.wgs, v.id = wg → v = w) →
        ∃ t z, exec (.trapEntry wg th.warp th.lane) s = .next t ∧ t.wg? wg = some { w with watchReport := none } ∧
          t.mem = s.mem ∧ (t.core w.core).records = (s.core w.core).records ++ [z] ∧ z.code = 0x50 ∧ z.kind = 6 ∧
          z.ref = n / 20 ∧ z.who = (present0 w).map (·.ref wg))))

/-- For a record of one parked thread: resume continues it at its resume point, skip at its next address, deliver
enters the handler; without one, or inside it, deliver acts as kill. A kill removes the workgroup, its records and its
accesses that have not performed, and touches no memory and no other workgroup's window. A held copy, row or tier
operation goes on where it stood, or ends with the fault, completes and retires in its turn (a CPYMC first delivers
its slots with error; a tier operation gives up the moves it has only requested). An invalidation leaves no TLB of the
partition a translation in its range (for a page: of the page mapped there), and a dropped entry is gone; neither
changes memory. The model's choices: that a kill drops exactly the accesses that have not performed (log 20), and that
a stopped CPYMC delivers its slots with error (log 15). -/
def Obligations.AnswersResumeSkipDeliverAndKill : Prop :=
  (∀ (s : State) (r : TRef) (w : Workgroup) (th : Thread) (part : Nat) (x : FaultRecord), Parked s r w th →
    th.entry = .recorded → s.record? part x.seq = some x → x.kind = 0 → x.who = [r] → x.wg = r.wg →
    (∀ p, s.part? part = some p → ∀ y ∈ p.records, y.seq = x.seq → y = x) →
    (th.hold = none →
      exec (.resumeAction part x.seq) s = .next (ofThread r (fun t => { t with
        status := unparked t, entry := .none, pc := t.site.resume, mid := t.site.resumeIn, readyAt := s.time,
        collSince := none, sgw := backAt w t t.site.resumeIn }) (s.dropRecord part x.seq)) ∧
      exec (.skipAction part x.seq) s = .next (ofThread r (fun t => { t with
        status := unparked t, entry := .none, pc := t.site.next, mid := t.site.nextIn, readyAt := s.time,
        collSince := none, sgw := backAt w t t.site.nextIn }) (s.dropRecord part x.seq))) ∧
    (th.inh = false → w.tvec ≠ 0 → HandlerAt s w →
      exec (.deliverAction part x.seq) s = .next (ofThread r (intoHandler w s.time) (s.dropRecord part x.seq))) ∧
    (th.inh = true ∨ w.tvec = 0 → exec (.deliverAction part x.seq) s = exec (.killAction part x.seq) s) ∧
    (NoFence s → (∀ y ∈ s.ops, y.seen = none) → ∃ t, exec (.killAction part x.seq) s = .next t ∧ t.wg? r.wg = none ∧ t.record? part x.seq = none ∧
      (∀ o ∈ t.ops, ∀ y ∈ o.who, y.wg ≠ r.wg) ∧ t.mem = s.mem ∧
      ∀ v ∈ s.wgs, v.id ≠ r.wg → ∃ u ∈ t.wgs, u.id = v.id ∧ u.place = v.place ∧ u.core = v.core ∧ u.scratch = v.scratch)) ∧
  (∀ (s : State) (w : Workgroup) (part : Nat) (x : FaultRecord), s.record? part x.seq = some x → x.kind = 6 → x.wg = w.id →
    (∀ t ∈ w.threads, t.hold = none) → s.wg? w.id = some w → (∀ v ∈ s.wgs, v.id = w.id → v = w) → (∀ r ∈ x.who, r.wg = w.id) →
    exec (.resumeAction part x.seq) s = .next { s.dropRecord part x.seq with
      wgs := s.wgs.map fun v => if v.id = w.id then
        withThreads { v with watchFrom := s.time } (v.threads.map (unwatched s.time)) else v }) ∧
  (∀ (s : State) (part : Nat) (x : FaultRecord), s.record? part x.seq = some x →
    (∀ (op : CopyOp) (stop : Bool), x.kind = 2 → s.copy? x.core x.pc.toNat = some op → op.stage = .faulted →
      (stop = false → exec (.engineFaultService part x.seq stop) s =
        .next ((s.dropRecord part x.seq).setCopy { op with stage := .running, fault := 0 })) ∧
      (stop = true → op.kind = 2 → exec (.engineFaultService part x.seq stop) s =
        .next ((s.dropRecord part x.seq).setCopy { op with stage := .running, fault := x.code.toNat })) ∧
      (stop = true → op.kind ≠ 2 → op.core = x.core → op.num = x.pc.toNat → op.core < s.cores.length → ∃ t,
        exec (.engineFaultService part x.seq stop) s = .next t ∧ t.mem = s.mem ∧
        (∀ y ∈ t.copies, y.core = x.core → y.num = x.pc.toNat → y.stage = .done ∧ (t.timeline x.core 0).retired < y.num) ∧
        t.timeline x.core 0 = (s.timeline x.core 0).complete x.pc.toNat)) ∧
    (∀ (op : RowOp) (stop : Bool), x.kind = 3 → s.rowOp? x.core x.pc.toNat = some op → op.stage = .faulted →
      (stop = false → exec (.engineFaultService part x.seq stop) s =
        .next ((s.dropRecord part x.seq).setRow { op with stage := if op.path = 3 then .queued else .running })) ∧
      (stop = true → op.core = x.core → op.num = x.pc.toNat → op.core < s.cores.length → ∃ t,
        exec (.engineFaultService part x.seq stop) s = .next t ∧ t.mem = s.mem ∧
        t.timeline x.core 1 = (s.timeline x.core 1).complete x.pc.toNat)) ∧
    (∀ (op : TierOp) (stop : Bool), x.kind = 4 → s.tierOp? x.core x.pc.toNat = some op → op.stage = .faulted →
      op.core = x.core → op.num = x.pc.toNat → ∃ t, exec (.engineFaultService part x.seq stop) s = .next t ∧
      t.mem = s.mem ∧ (stop = false → t.tiers = tiersWith s { op with stage := .running } ∧ t.moves = s.moves) ∧
      (stop = true → t.moves = s.moves.filter (fun m => !requestedBy op m) ∧
        t.tiers = tiersWith s { op with
          stage := .running, fault := x.code.toNat, cursor := op.addr + op.len,
          moves := op.moves.filter fun id => !(s.moves.any fun m => requestedBy op m && m.id == id) }))) ∧
  (∀ (s : State) (part : Nat) (scope : InvScope), ∃ t, exec (.tlbInvalidation part scope) s = .next t ∧ t.mem = s.mem ∧
    t.l2 = s.l2 ∧ t.ops = s.ops ∧ ∀ c ∈ t.cores, ∀ e ∈ c.tlb, e.part = part → match scope with
      | .page va => e.leaf.covers va = false
      | .range lo len => e.leaf.vbase + e.leaf.size ≤ lo ∨ lo + len ≤ e.leaf.vbase
      | .all => e.leaf.size = 0 ∨ 2 ^ 57 ≤ e.leaf.vbase) ∧
  (∀ (s : State) (core page : Nat), ∃ t, exec (.tlbEntryDrop core page) s = .next t ∧ t.mem = s.mem ∧ t.wgs = s.wgs ∧
    (∀ part, t.tlbHit core part page = none) ∧ ∀ c, c ≠ core → t.core c = s.core c)

namespace Sys2Proof.Claims

/-! ## Issue groups (R64 to R72) -/

/-- R69: one ready thread ranks above another. -/
def Outranks (a b : Contender) : Prop :=
  let marked (c : Contender) : Prop := ∃ n, c.t.yieldMark = some n ∧ n < 16
  (¬ marked a ∧ marked b) ∨ ((marked a ↔ marked b) ∧ (a.t.readyAt < b.t.readyAt ∨ (a.t.readyAt = b.t.readyAt ∧
    (a.slot < b.slot ∨ (a.slot = b.slot ∧ a.t.lane < b.t.lane)))))

/-- The name of a contender. -/
def named (c : Contender) : TRef := ⟨c.wg.id, c.t.warp, c.t.lane⟩

/-- R65: what the formation of a group does to a thread. -/
def formedThread (id : Nat) (members passed : List TRef) (w : Workgroup) (t : Thread) : Thread :=
  if t.ref w.id ∈ members then { t with group := some id, mid := none, yieldMark := none, collSince := none }
  else if t.ref w.id ∈ passed then { t with yieldMark := t.yieldMark.map (· + 1) } else t

/-- R71: some threads of a workgroup fault at the clause start where they wait. -/
def stallIn (rs : List TRef) (w : Workgroup) : Workgroup :=
  withThreads w (w.threads.map fun t =>
    if t.ref w.id ∈ rs then t.raise { code := 0x22 } ⟨t.pc, t.pc, none, t.pc, none⟩ else t)

end Sys2Proof.Claims

/-- With fewer than four groups in flight and a ready thread, a picker forms one group: its leader is a ready thread
that none outranks (no yield mark, then age, slot, lane), its members, one a lane in lane order and at most 32, all
stand at the leader's place, a place that another ready lane shares is joined, members lose their mark, and threads
that were passed count it. A mark ends after 16. More than %colto after the first of a sub-group began to wait, every
waiting member parks with COLLECTIVE_STALL at the header; a group held at a cross-lane word parks so at that word.
When formation happens is the device's choice here (log 4). -/
def Obligations.IssueGroupsFormByRank : Prop :=
  (∀ (s : State) (core picker : Nat), (∀ w ∈ s.wgs, ∀ t ∈ w.threads, t.late = none ∧ t.lane < 32) →
    let inFlight := (s.groups.filter fun g => g.core == core && g.picker == picker).length
    let cs := s.candidates core picker
    (4 ≤ inFlight ∨ cs = [] → exec (.issueGroupFormation core picker) s = .next s) ∧
    (inFlight < 4 → cs ≠ [] → ∃ t, ∃ lead ∈ cs, ∃ g, exec (.issueGroupFormation core picker) s = .next t ∧
      (∀ c ∈ cs, ¬ Outranks c lead) ∧ t.groups = s.groups ++ [g] ∧ g.id = s.nextId ∧ g.core = core ∧ g.picker = picker ∧
      g.pc = lead.t.pc ∧ (g.atHeader = true ↔ lead.t.mid = none) ∧ (∀ m, lead.t.mid = some m → g.ctx = m) ∧
      g.mods = Mods.none ∧ g.held = false ∧ named lead ∈ g.members ∧ g.members.length ≤ 32 ∧
      g.members.Pairwise (fun a b => a.lane < b.lane) ∧
      (∀ r ∈ g.members, ∃ c ∈ cs, named c = r ∧ c.t.pc = lead.t.pc ∧ c.t.mid = lead.t.mid) ∧
      (∀ c ∈ cs, s.standing lead.wg lead.t = .ready → lead.t.mid = none → c.t.pc = lead.t.pc → c.t.mid = none →
        ∃ r ∈ g.members, r.lane = c.t.lane) ∧
      t.wgs = s.wgs.map (fun w => withThreads w (w.threads.map (formedThread g.id g.members
        ((cs.map named).filter fun r => !g.members.contains r) w))))) ∧
  (∀ (s : State) (r : TRef), exec (.yieldMarkExpiry r.wg r.warp r.lane) s = .next (ofThread r (fun t =>
    if (∃ n, t.yieldMark = some n ∧ 16 ≤ n) then { t with yieldMark := none } else t) s)) ∧
  (∀ (s : State) (r : TRef) (w : Workgroup) (th : Thread), s.wg? r.wg = some w → w.thread? r.warp r.lane = some th →
    (w.colto = 0 ∨ s.gathered w th = true ∨
        (∀ m ∈ s.waiters w th, ∀ n, m.collSince = some n → s.time ≤ n + 20 * w.colto) →
      exec (.collectiveStallTimeout r.wg r.warp r.lane) s = .next s) ∧
    (w.colto ≠ 0 → s.standing w th = .collective → s.gathered w th = false →
      (∃ m ∈ s.waiters w th, ∃ n, m.collSince = some n ∧ n + 20 * w.colto < s.time) →
      exec (.collectiveStallTimeout r.wg r.warp r.lane) s =
        .next { s with wgs := s.wgs.map (stallIn ((s.waiters w th).map fun m => m.ref r.wg)) })) ∧
  (∀ (s : State) (g : Group) (since : Nat) (r : TRef) (w : Workgroup), s.groups.find? (·.id == g.id) = some g →
    g.collHold = some since → (s.active g).head? = some r → s.wg? r.wg = some w →
    (w.colto = 0 ∨ s.time < since + 20 * w.colto → exec (.collectiveHoldTimeout g.id) s = .next s) ∧
    (w.colto ≠ 0 → since + 20 * w.colto ≤ s.time → g.atHeader = false → 1 ≤ g.ctx.left →
      (∀ v ∈ s.wgs, ∀ t ∈ v.threads, inGroup g t → t.executes = true) →
      let first : DWord := g.pc - BitVec.ofNat 64 (4 * g.mods.count)
      ∃ t, exec (.collectiveHoldTimeout g.id) s = .next t ∧ t.groups = s.groups.filter (fun x => x.id != g.id) ∧
        t.mem = s.mem ∧ t.wgs.map (·.id) = s.wgs.map (·.id) ∧
        ∀ v ∈ s.wgs, (∀ y ∈ s.wgs, y.id = v.id → y = v) → ∃ u, t.wg? v.id = some u ∧
          u.threads.map (fun x => (x.status, x.pc, x.fpc, x.fcode, x.group)) = v.threads.map (fun x =>
            if inGroup g x then (.parked (decide (x.status = .helper)), first, first, 0x22, none)
            else (x.status, x.pc, x.fpc, x.fcode, x.group))))

namespace Sys2Proof.Claims

/-! ## Starting, stopping and moving workgroups (R347 to R361) -/

/-- What of a thread a save and a resumption keep. -/
def keptOf (t : Thread) : Nat × Nat × DWord × Option ClauseCtx × List Word × BitVec 8 × Status × BitVec 5 × DWord × Bool :=
  (t.warp, t.lane, t.pc, t.mid, t.v.toList, t.p, t.status, t.fpstat, t.tpc, t.inh)

/-- R357: the 4 KiB pages of a workgroup's save area: F + Z + m bytes, rounded up. -/
def savePages (w : Workgroup) : Nat := (229376 + w.window + (if w.ownsTiles = true then 524288 else 0) + 4095) / 4096

/-- R347: a thread at its start, at an address, with its stack top. -/
def Fresh (t : Thread) (pc : DWord) (stack : DWord) : Prop :=
  t.pc = pc ∧ t.mid = none ∧ t.depth = 0 ∧ t.p = 0 ∧ t.fpstat = 0 ∧ t.flags.toList = List.replicate 12 0 ∧
    (t.status = .live ∨ t.status = .helper) ∧ t.hold = none ∧ t.watch = none ∧ t.taint = false ∧ t.inh = false ∧
    ∀ n < 64, t.reg n = if n = 12 then BitVec.ofNat 32 stack.toNat
      else if n = 13 then BitVec.ofNat 32 (stack.toNat / 2 ^ 32) else 0

/-- R347: a workgroup of a stage at its start. -/
def FreshGroup (s : State) (st : Stage) (w : Workgroup) : Prop :=
  w.place = .resident ∧ w.scratch = [] ∧ w.tiles = [] ∧ w.gangs = [] ∧ w.tvec = 0 ∧ w.verdict = .none ∧
    (∀ b < 16, barrierOf w b = { phase := false, arrivals := [], count := 0, fixed := false, timer := none }) ∧
    w.warps.length = st.roles.length ∧ w.started = s.time ∧
    (∀ x ∈ w.warps, x.sgw = 32 ∧ x.gang = 0 ∧ st.roles[x.id]? = some x.role ∧ x.reg 1 = st.arg ∧
      x.reg 0 = BitVec.ofNat 64 (st.pbase + (w.slot * 1024 + x.id * 32) * (st.psz * 16)) ∧
      ∀ k < 4, x.reg (4 + k) = BitVec.ofNat 64 ((w.item.getD (2 * k + 1) 0).toNat * 2 ^ 32 + (w.item.getD (2 * k) 0).toNat)) ∧
    ∀ t ∈ w.threads, (Fresh t st.entry (BitVec.ofNat 64
      (st.pbase + (w.slot * 1024 + t.warp * 32) * (st.psz * 16) + (t.lane + 1) * (st.psz * 16)))) ∨
      ((∃ h, t.status = .parked h) ∧ t.fcode = 0x04 ∧ t.faddr = st.entry)

/-- The one partition of a core, and a stage of one of its pipelines. -/
def StageAt (s : State) (core : Nat) (part : Partition) (p : Pipeline) (i : Nat) (st : Stage) : Prop :=
  (s.parts.find? fun q => q.cores.contains core && q.pipelines.any (·.handle == p.handle)) = some part ∧
    (∀ q ∈ s.parts, q.number = part.number → q = part) ∧ s.pipeline? part.number p.handle = some p ∧
    s.stage? part.number p.handle i = some st ∧ core < s.cores.length ∧ i < p.stages.length ∧
    (∀ q ∈ part.pipelines, q.handle = p.handle → q = p)

/-- Spills of every register that some threads have in the register store, one thread after another. -/
def Spilled : List TRef → State → State → Prop
  | [], s, u => u = s
  | r :: rs, s, u => ∃ v, exec (.registerSpill r.wg r.warp r.lane (BitVec.allOnes 64)) s = .next v ∧ Spilled rs v u

/-- R357: what a save writes: every register that the store holds goes to its home, then bytes of the device's own layout fill
the save area, and the core's lines go to L2. -/
def SavedFrom (s : State) (w : Workgroup) (t : State) (v : Workgroup) : Prop :=
  ∃ u uw bytes, Spilled ((w.threads.filter fun x => decide (x.status ≠ .exited)).map (·.ref w.id)) s u ∧
    bytes.length = savePages w * 4096 ∧ u.wg? w.id = some uw ∧ v.threads.map (·.cold) = uw.threads.map (·.cold) ∧
    let z := ({ u.engineWrite w.core w.part (w.sbase + w.slot * (savePages w * 4096)) bytes with
      fresh := u.fresh + bytes.length } : State).orderActions w.core 2 2
    t.mem = z.mem ∧ t.l2 = z.l2 ∧ t.cores = z.cores

/-- R353: what remains of a package once a workgroup has left. -/
structure Left (s t : State) (w : Workgroup) : Prop where
  gone : t.wgs.map (·.id) = (s.wgs.map (·.id)).filter (· != w.id)
  memory : t.mem = s.mem ∧ t.ops = s.ops ∧ t.cores = s.cores

end Sys2Proof.Claims

/-- A stage of a grid or a queue that is startable and that none outranks starts one workgroup on a core that it fits:
its number, position and item, the register, barrier, warp and thread state of R347 (or BAD_TARGET at an entry that is
no header), the counters moved on; with room on no core, and none being made on another, the entry joins the pending
list of 8. An idle core takes the older half of the first list of its die, its quadrant first, that holds two that
fit. A request that fits nowhere is noted on its core, in the place of one of lower priority, and a victim, always of
lower priority, is drained under bound 0; past its bound a victim is saved, or flushed only when flushable. The pick
among candidate moments and cores is the device's (log 4, log 20). -/
def Obligations.WorkgroupsStartWhereTheyFit : Prop :=
  (∀ (s : State) (core i : Nat) (part : Partition) (p : Pipeline) (st : Stage), StageAt s core part p i st →
    (s.stageLacks core part.number p st = none →
      s.startable core part.number p i st = false ∨ s.mayPlace part core p i st = false →
      exec (.workgroupStart p.handle i [core]) s = .next s) ∧
    (s.startable core part.number p i st = true → s.mayPlace part core p i st = true → st.coh = 0 → st.inq = 7 →
      p.queues.length ≤ 7 → s.pendingOf p.handle i core = [] → st.nextWg < st.grid → (∀ v ∈ s.wgs, v.id ≠ s.nextId) →
      (s.fits core st [] = true → (∀ y ∈ (s.core core).l1, y.isDirty = false) →
        s.targetFault core part.number st.entry ≠ some 0x04 → ∃ t w x,
        exec (.workgroupStart p.handle i [core]) s = .next t ∧ t.wgs = s.wgs ++ [w] ∧ FreshGroup s st w ∧ w.core = core ∧
        w.part = part.number ∧ w.handle = p.handle ∧ w.stage = i ∧ w.seq = BitVec.ofNat 32 st.nextWg ∧ w.pos = w.seq ∧
        w.item = List.replicate 8 0 ∧ w.window = st.win ∧ w.csz = 1 ∧ w.member = 0 ∧
        (∀ y ∈ w.threads, y.status = .live ∨ y.status = .helper) ∧
        t.stage? part.number p.handle i = some x ∧ x.nextWg = st.nextWg + 1 ∧ w.slot ∈ x.slotsUsed) ∧
      ((∀ c ∈ part.cores, s.fits c st [] = false ∧ (c ≠ core → ∀ r, (s.core c).request = some r →
          r.1 ≠ p.handle ∨ r.2.1 ≠ i)) → (s.core core).pending.length < 8 → ∃ t,
        exec (.workgroupStart p.handle i [core]) s = .next t ∧ t.wgs = s.wgs ∧ (t.core core).pending =
          (s.core core).pending ++ [{ handle := p.handle, stage := i, seq := st.nextWg, pos := st.nextWg }])) ∧
    (s.startable core part.number p i st = true → s.mayPlace part core p i st = true → st.coh = 0 → st.inq ≠ 7 →
      s.fits core st [] = true → s.pendingOf p.handle i core = [] → (∀ v ∈ s.wgs, v.id ≠ s.nextId) → ∀ q, p.queues.getD st.inq none = some q →
      let h := (s.queueHead core part.number q).2
      QueueOk s core part.number q h.asg → h.asg + 1 ≤ h.pub → h.pub < 2 ^ 64 → ∃ t w,
        exec (.workgroupStart p.handle i [core]) s = .next t ∧ t.wgs = s.wgs ++ [w] ∧ FreshGroup s st w ∧ w.core = core ∧
        w.pos = BitVec.ofNat 32 h.asg ∧ w.seq = BitVec.ofNat 32 st.nextWg ∧
        w.item = (s.readItem core part.number q h.asg).2 ∧ (t.queueHead core part.number q).2.asg = h.asg + 1 ∧
        (t.queueHead core part.number q).2.pub = h.pub)) ∧
  (∀ (s : State) (core : Nat) (part : Partition), (s.parts.find? fun p => p.cores.contains core) = some part →
    core < s.cores.length → let fitsHere (e : PendingWork) : Bool :=
      (s.stage? part.number e.handle e.stage).any fun st => s.fits core st []
    (s.idle part core = false → exec (.stealRequest core) s = .next s) ∧
    ((s.core core).pending ≠ [] → exec (.stealRequest core) s = .next s) ∧
    (∀ c, s.idle part core = true → c ≠ core → c < s.cores.length →
      ((stealOrder core).find? fun c => part.cores.contains c &&
        decide (2 ≤ ((s.core c).pending.filter fitsHere).length)) = some c →
      let es := (s.core c).pending.filter fitsHere
      ∃ t, exec (.stealRequest core) s = .next t ∧ (t.core core).pending = es.take (es.length / 2) ∧
        (t.core c).pending = (s.core c).pending.filter (fun e => decide (e ∉ es.take (es.length / 2))) ∧ t.wgs = s.wgs ∧
        t.mem = s.mem ∧ c / 64 = core / 64) ∧
    ((stealOrder core).length = 63 ∧ ∀ c ∈ stealOrder core, core < 128 → c / 64 = core / 64 ∧ c ≠ core)) ∧
  (∀ (s : State) (i : Nat) (part : Partition) (p : Pipeline) (st : Stage) (core : Nat) (v : Workgroup),
    StageAt s core part p i st → (s.parts.filter fun q => q.pipelines.any (·.handle == p.handle)) = [part] →
    part.cores = [core] → st.coh = 0 →
    (s.wouldFit part core p i st [] = true → exec (.preemptionRequest p.handle i) s = .next s) ∧
    (s.wouldFit part core p i st [] = false → s.startable core part.number p i st = true → 
      (∀ r, (s.core core).request = some r → r.2.2 < p.prio ∧ (r.1 ≠ p.handle ∨ r.2.1 ≠ i)) →
      s.victims part core p i st = some [v] → s.prioOf v < p.prio ∧ (v.verdict = .none → s.wg? v.id = some v → p.bound = 0 →
        ∃ t, exec (.preemptionRequest p.handle i) s = .next t ∧ (t.core core).request = some (p.handle, i, p.prio) ∧
          t.wg? v.id = some { v with verdict := .drain s.time 0 } ∧ t.mem = s.mem))) ∧
  (∀ (s : State) (wg since bound : Nat) (w : Workgroup), s.wg? wg = some w → w.verdict = .drain since bound →
    (bound = 0 ∨ s.time < since + 2000 * bound → exec (.drainBoundExpiry wg) s = .next s) ∧
    (bound ≠ 0 → since + 2000 * bound ≤ s.time → w.place = .resident → ∃ t v, exec (.drainBoundExpiry wg) s = .next t ∧
      t.wg? wg = some v ∧ (v.verdict = .save ∨ v.verdict = .flush) ∧ (v.verdict = .flush → w.idem = true ∧
        ∀ x ∈ w.threads, x.restart.isSome = true ∧ x.taint = false)))

/-- A settled victim that is to be saved becomes saved with its registers, window, tiles, barriers, rings and marks;
the registers in the register store go to their homes, one spill after another, and then the save area is filled (with
bytes of the device's own layout). One to be flushed keeps its number, item and restart points and nothing of window,
tiles, barriers or rings, and no memory changes. Resumed where it fits, ranks and may stand, it finds only coherent
lines in L1, a saved one its registers, places and timelines past its marks, a flushed one its restart points; its
lost work counts from the restart only where every restart point is the entry. An ended workgroup leaves and frees its
home slot; a complete pipeline writes its handle to the done word and leaves. A release of a bandwidth limit changes
no result (log 21). The model's choices of log 20: a flushed member of a cohort stays on its die, and a flushed
workgroup keeps its home slot. -/
def Obligations.WorkgroupsAreSavedFlushedResumedAndEnd : Prop :=
  (∀ (s : State) (wg : Nat) (w : Workgroup), s.wg? wg = some w → (∀ v ∈ s.wgs, v.id = wg → v = w) →
    (w.verdict ≠ .save ∨ w.place ≠ .resident ∨ s.settled w = false → exec (.workgroupSave wg) s = .next s) ∧
    (w.verdict = .save → w.place = .resident → s.settled w = true →
      (w.threads.map fun x => (x.warp, x.lane)).Nodup → s.probe (engineAgent 4 w.core w.id) w.core w.part { r := true, w := true } (fun _ => true) ((List.range (savePages w)).map fun k =>
        (w.sbase + w.slot * (savePages w * 4096) + k * 4096, 128)) = .ok → ∃ t v, exec (.workgroupSave wg) s = .next t ∧
      t.wg? wg = some v ∧ v.place = .saved ∧ v.verdict = .none ∧ v.threads.map keptOf = w.threads.map keptOf ∧
      v.scratch = w.scratch ∧ v.tiles = w.tiles ∧ v.barriers = w.barriers ∧ v.rings = w.rings ∧ v.warps = w.warps ∧
      v.marks = w.marks ∧ (∀ x ∈ v.threads, x.watch = none) ∧ t.ops = s.ops ∧
      SavedFrom s w t v) ∧
    (w.verdict ≠ .flush ∨ w.place ≠ .resident ∨ s.settled w = false → exec (.workgroupFlush wg) s = .next s) ∧
    (w.verdict = .flush → w.place = .resident → s.settled w = true → ∃ t v, exec (.workgroupFlush wg) s = .next t ∧
      t.wg? wg = some v ∧ v.place = .flushed ∧ v.verdict = .none ∧ v.scratch = [] ∧ v.tiles = [] ∧ v.gangs = [] ∧
      (∀ b < 16, barrierOf v b = Barrier.reset) ∧ (∀ k < 8, v.ring? k = none) ∧ v.seq = w.seq ∧ v.pos = w.pos ∧
      v.item = w.item ∧ v.threads.map (·.restart) = w.threads.map (·.restart) ∧ t.mem = s.mem ∧ t.ops = s.ops ∧
      t.cores = s.cores)) ∧
  (∀ (s : State) (core : Nat) (w : Workgroup) (part : Partition) (p : Pipeline) (st : Stage) (x : List (Nat × Nat) × Nat),
    StageAt s core part p w.stage st → s.wg? w.id = some w → (∀ v ∈ s.wgs, v.id = w.id → v = w) → w.part = part.number →
    w.handle = p.handle → (s.parts.find? fun p => p.number == w.part && p.cores.contains core) = some part →
    (s.stageLacks core part.number p st = none → w.mayResumeOn core = false ∨ s.placeable w = false → exec (.workgroupResume w.id core) s = .next s) ∧
    (s.stageLacks core part.number p st = none → s.placeable w = true → w.mayResumeOn core = true → s.outputsFree core part.number p st = true →
      s.mayPlace part core p w.stage st = true → s.room core st [] = some x → (∀ y ∈ w.threads, y.hold = none) →
      ∃ t v, exec (.workgroupResume w.id core) s = .next t ∧ t.wg? w.id = some v ∧ v.place = .resident ∧ v.core = core ∧
        v.seq = w.seq ∧ v.pos = w.pos ∧ v.item = w.item ∧ v.slot = w.slot ∧
        (∀ y ∈ (t.core core).l1, y.cls = .coherent) ∧
        (w.place = .saved → v.threads.map (·.v) = w.threads.map (·.v) ∧ v.threads.map (·.pc) = w.threads.map (·.pc) ∧
          v.threads.map (·.p) = w.threads.map (·.p) ∧ v.scratch = w.scratch ∧ v.tiles = w.tiles ∧ v.marks = w.marks ∧
          v.tvec = w.tvec ∧ v.idembAt = w.idembAt ∧ ∀ k < 3, w.marks.getD k 0 < (t.timeline core k).next) ∧
        (w.place = .flushed → v.tvec = 0 ∧
          ((∀ z ∈ w.threads, z.restart = some st.entry) → v.idembAt = s.time) ∧
          ((∃ z ∈ w.threads, z.restart ≠ some st.entry) → v.idembAt = w.idembAt) ∧
          (∀ y ∈ v.threads, ∀ z, w.thread? y.warp y.lane = some z → ∀ a, z.restart = some a → y.restart = some a)))) ∧
  (∀ (s : State) (w : Workgroup), s.wg? w.id = some w →
    (s.ended w = false → exec (.workgroupEnd w.id) s = .next s) ∧
    (s.ended w = true → ∃ t, exec (.workgroupEnd w.id) s = .next t ∧ Left s t w ∧
      ∀ st x, s.stage? w.part w.handle w.stage = some st → t.stage? w.part w.handle w.stage = some x →
        w.slot ∉ x.slotsUsed)) ∧
  (∀ (s : State) (part : Partition) (p : Pipeline), s.part? part.number = some part →
    s.pipeline? part.number p.handle = some p →
    let core := part.cores.headD 0
    (s.completionLacks core part.number p = none → s.pipelineDone part p = false → exec (.pipelineComplete part.number p.handle) s = .next s) ∧
    (s.completionLacks core part.number p = none → s.pipelineDone part p = true → p.done % 8 = 0 →
      (∀ c ∈ part.cores, ∀ y ∈ (s.core c).l1, y.isDirty = false) → ∀ l, s.findLeaf core part.number p.done = .ok l →
      p.done < 2 ^ 57 → l.w = true → l.format < 7 → l.cls = .priv → tierOf (l.pa + (p.done - l.vbase)) ≠ 2 → s.moves = [] →
      s.genOk l (l.pa + (p.done - l.vbase)) = true → (l.pa + (p.done - l.vbase)) % 8 = 0 →
      Plain (s.tlbInsert core part.number l) (l.pa + (p.done - l.vbase)) 8 l → ∃ t q, exec (.pipelineComplete part.number p.handle) s = .next t ∧
        t.l2Bytes (l.pa + (p.done - l.vbase)) 8 = leBytes 8 p.handle ∧ t.wgs = s.wgs ∧ t.part? part.number = some q ∧
        q.pipelines = part.pipelines.filter (fun y => y.handle != p.handle))) ∧
  (∀ (s : State) (part : Nat), exec (.bandwidthWindowRelease part) s = .next s)

namespace Sys2Proof.Claims

/-! ## The hosts (R397 to R410, R24) -/

/-- R406: the measurement of an image, a function of the image alone. -/
def measurementOf (firmware i : Nat) : Nat × Nat := (i, Config.measurement i firmware)

/-- R406, R400: a package that has booted anew: flash, the lifetime counters and the firmware stay; Zarkin OS is measured and boot
completes only where no image is refused. -/
def rebooted (s : State) : State :=
  { State.reset with
    agenda := s.agenda, picks := s.picks.tail, together := s.together, fresh := s.fresh, lifetime := s.lifetime, flash := s.flash,
    host := { HostSide.reset with
      firmware := s.host.firmware, flashDue := s.host.flashDue - s.time,
      measured := (if s.picks.headD 0 % 2 = 0 then [1, 2, 3, 4] else [1, 2, 4]).map (measurementOf s.host.firmware),
      booted := decide (s.picks.headD 0 % 2 = 0) } }

/-- R407: a package that has lost its power: only flash stays, which holds the counters of its last write, or those that have been
due since. -/
def unpowered (s : State) : State :=
  let held := if s.time < s.host.flashDue then s.flash else s.lifetime
  { State.reset with
    agenda := s.agenda, picks := s.picks, together := s.together, fresh := s.fresh, lifetime := held, flash := held,
    host := { HostSide.reset with firmware := s.host.firmware } }

/-- One response more on a port; of the rest only that port's connection may have changed. -/
structure Responded (s t : State) (port code : Nat) (payload : List Nat) : Prop where
  response : t.host.responses = (port, code, payload) :: s.host.responses
  others : ∀ q, q ≠ port → t.spdmAt q = s.spdmAt q
  rest : ({ t with fresh := s.fresh,
                   host := { t.host with responses := s.host.responses, spdm := s.host.spdm } } : State) = s

/-- One answer more to a host. -/
def replied (s : State) (port n : Nat) : State :=
  { s with host := { s.host with answers := (port, n) :: s.host.answers } }

/-- A change of what the hosts see. -/
def withSemaphore (s : State) (m : Semaphore) : State := { s with host := { s.host with sem := m } }

/-- R400: the semaphore as it stands: 2^30 ticks after the claim or the last renewal its owner has lost it. -/
def standing (s : State) : Semaphore :=
  if s.host.sem.owner ≠ 0 ∧ s.host.sem.leaseFrom + 20 * 2 ^ 30 ≤ s.time then
    { s.host.sem with owner := 0, seq := s.host.sem.seq + 1, leaseFrom := s.time }
  else s.host.sem

/-- R399: the semaphore with another owner. -/
def passedTo (s : State) (owner : Nat) : Semaphore :=
  { standing s with owner := owner, seq := (standing s).seq + 1, leaseFrom := s.time }

/-- What a setting writes. -/
def withSetting (x : Setting) (p : Partition) : Partition := match x with
  | .promotionHw b => { p with promotionHw := b }
  | .poolHw b => { p with poolHw := b }
  | .faultHw b => { p with faultHw := b }
  | .promoteAt n => { p with promoteAt := n }
  | .demoteAt n => { p with demoteAt := n }
  | .errorLimit n => { p with errorLimit := n }
  | .poolWait n => { p with poolWait := n }
  | .watchdog n => { p with wdlim := n }
  | .faultQueue base depth => { p with fqBase := base, fqDepth := depth, fqProd := 0, fqCons := 0 }
  | .faultTaken n => { p with fqCons := n }
  | .bandwidth agent bytes ticks =>
    { p with bw := (agent, bytes, max 1 (min ticks 1000)) :: p.bw.filter (fun y => y.1 != agent) }
  | .root pa => { p with ptroot := pa }
  | .pkg _ => p

/-- A setting of the partition with a number, or of the package's number. -/
def settingIn (part : Nat) (x : Setting) (s : State) : State :=
  { s with
    parts := s.parts.map fun p => if p.number = part then withSetting x p else p,
    pkg := match x with
      | .pkg n => n
      | _ => s.pkg }

/-- R405: a lifecycle command as the event that brings it. -/
noncomputable def commandEvent (port seq : Nat) : HostCommand → Instr
  | .create spec => .createPartition port seq spec
  | .addResources part spec => .resizeAddResources port seq part spec
  | .removeCores part cores => .resizeRemoveCores port seq part cores
  | .removeSlices part slices => .resizeRemoveSlices port seq part slices
  | .shrinkTier part tier share => .resizeShrinkTierShare port seq part tier share
  | .destroy part => .destroyPartition port seq part

/-- R405: no lifecycle command is being performed or waits. -/
def Free (s : State) : Prop := s.host.running = none ∧ s.host.waiting = []

/-- R405: the lifecycle command under way has ended. -/
def closed (s : State) : State := { s with host := { s.host with running := none } }

/-- R401: Zarkin OS performs a command of a port that owns the semaphore under its seq. -/
def Commands (s : State) (port seq : Nat) : Prop :=
  port < 2 ∧ s.host.booted = true ∧ (standing s).owner = port + 1 ∧ (standing s).seq.toNat = seq

/-- One partition has the number. -/
def Only (s : State) (p : Partition) : Prop := s.part? p.number = some p ∧ ∀ q ∈ s.parts, q.number = p.number → q = p

/-- A resident workgroup of a partition on one of some cores. -/
def OnCores (s : State) (p : Partition) (cores : List Nat) : Prop :=
  ∃ w ∈ s.wgs, w.part = p.number ∧ w.core ∈ cores ∧ w.place = .resident

end Sys2Proof.Claims

/-- A reset boots anew with the lifetime counters, flash and firmware kept; each image that is loaded is measured (the
measurement is a function of the image; whether the images verify is a choice, and with a refused one Zarkin OS is
neither measured nor started, log 22). A loss of power keeps what flash holds: the counters of the last write, or
those due since, 2^30 ticks after it. SPDM requests of a port answer in their order or with an error (codes of the
SPDM standard, PRESUMED, log 22). The virtio functions are those of R397 and R398; device status is written once boot
is complete and reads 0 before, and FEATURES_OK stays clear where no features are agreed on (bit numbers: log 22). The
capability reads ID, owner and seq; claim and ctl read 0 and take 1, and 1 and 2. A free semaphore goes to the
claimant, at a tie first to port 0 and then to the loser of the last tie; the owner alone renews and releases, the
lease ends by itself after 2^30 ticks, every change of owner advances seq. An update of the power controller sets a
factor of 1 to 8 eighths and counts the ticks since the last one for each compute die in a thermal bin (which one is a
pick of the model, log 22). A table read adds the one CBOR document with its first and last keys; settings write their
own fields, %pkg among them. -/
def Obligations.HostsBootMeasureAndShareTheSemaphore : Prop :=
  (∀ s : State, exec .packageReset s = .next (rebooted s) ∧ (∀ die, exec (.thermalReset die) s = .next (rebooted s)) ∧
    exec .powerLoss s = .next (unpowered s) ∧
    exec .lifetimeCounterFlush s = .next { s with
      flash := s.lifetime, host := { s.host with flashDue := s.time + 20 * 2 ^ 30 } } ∧
    (∀ die, exec (.thermalThrottle die) s = .next { s with host := { s.host with factor := 1 } }) ∧
    (∀ f, let ticks := s.time / 20 - s.host.thermalAt / 20
      exec (.powerControllerUpdate f) s = .next (if 1 ≤ f ∧ f ≤ 8 then
      { s with
        host := { s.host with factor := f, thermalAt := s.time }, picks := s.picks.drop 2,
        lifetime := { s.lifetime with
          thermal := bump (64 + s.picks.getD 1 0 % 64) ticks (bump (s.picks.getD 0 0 % 64) ticks s.lifetime.thermal) } }
      else s))) ∧
  (∀ (s : State) (port : Nat), port < 2 →
    (∃ t, exec (.getVersion port) s = .next t ∧ Responded s t port 0x04 [0x13] ∧ t.spdmAt port = 1) ∧
    (∀ asym hash nonce slot index, ∀ x ∈ [(Instr.getCapabilities port, 1), (.negotiateAlgorithms port asym hash, 2),
        (.getDigests port, 3), (.getCertificate port slot, 3), (.challenge port nonce, 3), (.getMeasurements port index, 3)],
      s.spdmAt port < x.2 → ∃ t, exec x.1 s = .next t ∧ Responded s t port 0x7F [4] ∧ t.spdmAt port = s.spdmAt port) ∧
    (1 ≤ s.spdmAt port → ∃ t, exec (.getCapabilities port) s = .next t ∧ Responded s t port 0x61 [0x16] ∧
      t.spdmAt port = 2) ∧
    (2 ≤ s.spdmAt port → ∀ asym hash,
      (asym.testBit 7 = true → hash.testBit 1 = true → ∃ t, exec (.negotiateAlgorithms port asym hash) s = .next t ∧
        Responded s t port 0x63 [0x80, 0x02] ∧ t.spdmAt port = 3) ∧
      (asym.testBit 7 = false ∨ hash.testBit 1 = false → ∃ t, exec (.negotiateAlgorithms port asym hash) s = .next t ∧
        Responded s t port 0x63 [0, 0] ∧ t.spdmAt port = s.spdmAt port)) ∧
    (3 ≤ s.spdmAt port →
      (∃ t x, exec (.getDigests port) s = .next t ∧ Responded s t port 0x01 [x]) ∧
      (∀ slot, ∃ t x, exec (.getCertificate port slot) s = .next t ∧ Responded s t port 0x02 [slot, x]) ∧
      (∀ nonce, ∃ t x, exec (.challenge port nonce) s = .next t ∧ Responded s t port 0x03 [nonce, x]) ∧
      ∀ index, ∃ t, exec (.getMeasurements port index) s = .next t ∧ t.fresh = s.fresh ∧
        (index = 0 → Responded s t port 0x60 [s.host.measured.length]) ∧
        (index = 255 → Responded s t port 0x60 (s.host.measured.map fun m => m.2)) ∧
        (index ≠ 0 → index ≠ 255 → (∀ m, (s.host.measured.find? fun x => x.1 == index) = some m →
            Responded s t port 0x60 [index, m.2]) ∧
          ((∀ m ∈ s.host.measured, m.1 ≠ index) → Responded s t port 0x7F [1]))) ∧
    (∀ fn vf val, fn < 2 → (vf = 0 ∨ (vf ≤ 128 ∧ (s.part? (vf - 1)).isSome = true)) → s.host.booted = true → ∃ t,
      exec (.deviceStatusWrite port fn vf val) s = .next t ∧ let old := s.agreedFeatures port fn vf
      let asked := s.picks.headD 0
      t.agreedFeatures port fn vf = (if val % 256 = 0 then 0 else if old ≠ 0 ∨ val.testBit 3 = false then old
        else if acceptsFeatures fn asked = true then asked else 0) ∧
      t.deviceStatus port fn vf = val &&& (if t.agreedFeatures port fn vf = 0 then 0x87 else 0x8F) ∧
      (∀ a b c, (a, b, c) ≠ (port, fn, vf) → t.deviceStatus a b c = s.deviceStatus a b c ∧
        t.agreedFeatures a b c = s.agreedFeatures a b c) ∧
      ({ t with host := { t.host with devStatus := s.host.devStatus, features := s.host.features } } : State) = s) ∧
    (∀ fn mask, acceptsFeatures fn mask = true ↔
      mask < 2 ^ 64 ∧ mask.testBit 32 = true ∧ ∀ i, mask.testBit i = true → i ∈ offeredFeatures fn) ∧
    (∀ fn vf, (2 ≤ fn ∨ 128 < vf ∨ (vf ≠ 0 ∧ s.part? (vf - 1) = none) → s.functionView port fn vf = none) ∧
      ∀ v, s.functionView port fn vf = some v → v.totalVFs = 128 ∧ v.legacy = false ∧ v.maxQueue = 1024 ∧ v.msixOnly = true ∧
        v.split = true ∧ v.packed = true ∧ v.features = offeredFeatures fn ∧
        (fn = 0 → v.device = .vsock ∧ v.pciId = 0x1053 ∧ v.cid = some (if vf = 0 then 3 else 0x1000 + (vf - 1))) ∧
        (fn = 1 → v.device = .net ∧ v.pciId = 0x1041 ∧ v.mtu = some 65520 ∧ v.queuePairs = some 16)) ∧
    (∀ fn vf val, s.host.booted = false → exec (.deviceStatusWrite port fn vf val) s = .next s ∧
      s.deviceStatus port fn vf = 0)) ∧
  (∀ s : State, let m := standing s
    (s.capabilityRead 0 = BitVec.ofNat 32 (0x01100009 + Config.nextCapability.toNat * 256) ∧
      s.capabilityRead 4 = BitVec.ofNat 32 (m.seq.toNat * 2 ^ 16 + m.owner % 4) ∧ s.capabilityRead 8 = 0 ∧
      s.capabilityRead 12 = 0) ∧
    (∀ (port : Nat) (x : Word), port < 2 → s.capabilityWrite port 8 x = (if x = 1 then
        exec (.semaphoreClaim (port == 0) (port == 1)) s else .next s) ∧
      s.capabilityWrite port 12 x = (if x = 1 then exec (.leaseRenew port) s else if x = 2 then
        exec (.semaphoreRelease port) s else .next s) ∧ s.capabilityWrite port 0 x = .next s ∧
      s.capabilityWrite port 4 x = .next s) ∧
    (∀ a b, m.owner ≠ 0 → exec (.semaphoreClaim a b) s = .next s) ∧
    (m.owner = 0 → exec (.semaphoreClaim false false) s = .next (withSemaphore s m) ∧
      exec (.semaphoreClaim true false) s = .next (withSemaphore s (passedTo s 1)) ∧
      exec (.semaphoreClaim false true) s = .next (withSemaphore s (passedTo s 2)) ∧
      (m.lastLoser < 2 → exec (.semaphoreClaim true true) s =
        .next (withSemaphore s { passedTo s (m.lastLoser + 1) with lastLoser := 1 - m.lastLoser }))) ∧
    (∀ port, (m.owner ≠ port + 1 → exec (.leaseRenew port) s = .next s ∧ exec (.semaphoreRelease port) s = .next s) ∧
      (m.owner = port + 1 → exec (.leaseRenew port) s = .next (withSemaphore s { m with leaseFrom := s.time }) ∧
        exec (.semaphoreRelease port) s = .next (withSemaphore s (passedTo s 0)))) ∧
    exec .leaseExpiry s = .next (withSemaphore s m)) ∧
  (∀ (s : State) (part : Nat),
    (s.host.booted = true → ∃ doc, exec (.capabilityTableRead part) s =
        .next { s with host := { s.host with tables := doc :: s.host.tables } } ∧
      doc.take 15 = [0xA9, 0x01, 0x01, 0x02, 0x67, 0x54, 0x44, 0x2D, 0x43, 0x52, 0x39, 0x41, 0x03, 0x98, 0x80] ∧
      (s.host.powerLimit < 4201 → 1000 ≤ s.host.powerLimit → s.host.factor < 24 → ∃ front, doc = front ++
        [0x09, 0xA2, 0x0A, 0x19, s.host.powerLimit / 256, s.host.powerLimit % 256, 0x0B, s.host.factor])) ∧
    (s.host.booted = false → exec (.capabilityTableRead part) s = .next s) ∧
    (∀ x, exec (.partitionSettingWrite part x) s = .next (settingIn part x s)))

/-- A command is dropped before boot, and while a lifecycle command is under way the next ones wait in their order of
arrival; it is answered 1 and without effect unless its port owns the semaphore under the seq that it carries, and 2
where its own rule refuses it, else 0 once nothing of it is outstanding; answer codes, the events by which Zarkin OS
goes on (those of a port above 1), the refusal of a shrink for want of room and what is free are the model's reading
(log 22). Create takes free resources and clears its cores' counters and caches; resizing adds or removes cores
(workgroups there are to be saved; a stranded cohort refuses it), slices and shares (pinned pages refuse it); a
command that saves, moves or waits ends when that is over. Destroy ends the workgroups, waits for engine operations,
then sets the cleared bits and frees all; other partitions stay. A launch answers the handle or bit 63 and the reason.
Service cores load and store through L2 under the partition's tables; a release fence waits behind stores that wait
for pool ownership and holds later stores back. -/
def Obligations.HostCommandsChangePartitions : Prop :=
  (∀ (s : State) (port seq part tier share watts version : Nat) (cores slices : List Nat) (spec : PartSpec),
    let lifecycle : List Instr := [.createPartition port seq spec, .resizeAddResources port seq part spec,
      .resizeRemoveCores port seq part cores, .resizeRemoveSlices port seq part slices,
      .resizeShrinkTierShare port seq part tier share, .destroyPartition port seq part]
    (∀ i ∈ [.setPowerLimit port seq watts, .firmwareUpdate port seq version] ++ lifecycle,
      (s.host.booted = false → exec i s = .next s) ∧
      (s.host.booted = true → ((standing s).owner ≠ port + 1 ∨ (standing s).seq.toNat ≠ seq) →
        (i ∈ lifecycle → port < 2 ∧ Free s) → exec i s = .next (replied s port 1))) ∧
    (∀ i ∈ lifecycle, s.host.booted = true → 2 ≤ port →
      (Free s → exec i s = .next s) ∧
      (∀ q n c, s.host.running = none → s.host.waiting = [(q, n, c)] → q < 2 →
        exec i s = exec (commandEvent q n c) { s with host := { s.host with waiting := [] } }) ∧
      (∀ q (p : Partition), Only s p →
        (s.host.running = some (q, .destroy p.number) →
          (s.quiet p.number = false → exec i s = .next s) ∧
          (s.quiet p.number = true → ∃ t, exec i s = .next t ∧ t.part? p.number = none ∧ t.host = (closed (replied s q 0)).host ∧
            (∀ f ∈ s.frames, f.owner = some p.number → f.base % 4096 = 0 → ∀ k < f.size / 4096, f.base / 4096 + k ∈ t.cleared))) ∧
        (∀ cores, s.host.running = some (q, .removeCores p.number cores) →
          (OnCores s p cores → exec i s = .next s) ∧ (¬ OnCores s p cores → exec i s = .next (closed (replied s q 0)))) ∧
        (∀ tier share, s.host.running = some (q, .shrinkTier p.number tier share) → s.usedOf p.number tier ≤ share * 2 ^ 26 →
          exec i s = .next (closed (replied s q 0)))))) ∧
  (∀ (s : State) (port seq : Nat) (c : HostCommand), s.host.booted = true → port < 2 → ¬ Free s →
    exec (commandEvent port seq c) s = .next { s with host := { s.host with waiting := s.host.waiting ++ [(port, seq, c)] } }) ∧
  (∀ (s : State) (port seq : Nat), Commands s port seq →
    (∀ watts, exec (.setPowerLimit port seq watts) s = .next (if 1000 ≤ watts ∧ watts ≤ 4200 then
      replied { s with host := { s.host with powerLimit := watts } } port 0 else replied s port 2)) ∧
    (∀ version, exec (.firmwareUpdate port seq version) s =
      .next (replied { s with host := { s.host with firmware := version } } port 0)) ∧
    (∀ spec : PartSpec, Free s →
      (128 ≤ spec.number ∨ (s.part? spec.number).isSome = true ∨ spec.cores = [] ∨ spec.slices = [] ∨ 16 ≤ spec.prioCeiling ∨
          (∃ q ∈ s.parts, ∃ c ∈ spec.cores, c ∈ q.cores) ∨ (∃ q ∈ s.parts, ∃ x ∈ spec.slices, x ∈ q.slices) ∨
          (0 < spec.activates ∧ 48 < (s.parts.map fun p => p.activates).sum + spec.activates) →
        exec (.createPartition port seq spec) s = .next (replied s port 2)) ∧
      (spec.number < 128 → s.part? spec.number = none → spec.cores ≠ [] → spec.slices ≠ [] → spec.prioCeiling < 16 →
        s.canTake spec = true → ∃ t q, exec (.createPartition port seq spec) s = .next t ∧ t.parts = s.parts ++ [q] ∧
          t.wgs = s.wgs ∧ t.host = (replied s port 0).host ∧ q.number = spec.number ∧ q.cores = spec.cores ∧
          q.slices = spec.slices ∧ q.shares.length = 3 ∧ (∀ i < 3, q.shares.getD i 0 = spec.shares.getD i 0) ∧
          q.activates = spec.activates ∧ q.prioCeiling = spec.prioCeiling ∧ q.created = seq ∧ q.fqDepth = spec.fqDepth ∧
          q.fqBase = spec.fqBase ∧ q.fqProd = 0 ∧ q.fqCons = 0 ∧ q.records = [] ∧ q.pipelines = [] ∧ q.destroying = false ∧
          (∀ port < 2, ∀ fn < 2, t.functionExists port fn (spec.number + 1) = true) ∧
          ∀ c ∈ spec.cores, (t.core c).l1 = [] ∧ (t.core c).tlb = [] ∧ (t.core c).lathist = Vector.replicate 8 0)) ∧
    (∀ p : Partition, Only s p → Free s →
      (∀ spec : PartSpec, s.canTake spec = true → ∃ t q, exec (.resizeAddResources port seq p.number spec) s = .next t ∧
        t.part? p.number = some q ∧ q.cores = p.cores ++ spec.cores ∧ q.slices = p.slices ++ spec.slices ∧
        q.activates = p.activates + spec.activates ∧ t.wgs = s.wgs ∧
        (∀ x ∈ s.parts, x.number ≠ p.number → x ∈ t.parts) ∧ ∀ c ∈ spec.cores, (t.core c).lathist = Vector.replicate 8 0) ∧
      (∀ cores, (∀ c ∈ cores, c ∈ p.cores ∧ c < s.cores.length) → (∃ c ∈ p.cores, c ∉ cores) →
        (s.strandsCohort p cores = true →
          exec (.resizeRemoveCores port seq p.number cores) s = .next (replied s port 2)) ∧
        (s.strandsCohort p cores = false → ∃ t q, exec (.resizeRemoveCores port seq p.number cores) s = .next t ∧
          t.part? p.number = some q ∧ q.cores = p.cores.filter (fun c => decide (c ∉ cores)) ∧ t.mem = s.mem ∧
          t.wgs.map (·.id) = s.wgs.map (·.id) ∧ (∀ w ∈ t.wgs, w.part = p.number → w.core ∈ cores → w.place = .resident →
            w.verdict = .save ∨ w.verdict = .flush) ∧ (∀ c ∈ cores, (t.core c).pending = []) ∧
          (OnCores s p cores → t.host.running = some (port, .removeCores p.number cores) ∧ t.host.answers = s.host.answers) ∧
          (¬ OnCores s p cores → t.host = (replied s port 0).host))) ∧
      (∀ slices, (∀ x ∈ slices, x ∈ p.slices) → (∃ x ∈ p.slices, x ∉ slices) → ∃ t q,
        exec (.resizeRemoveSlices port seq p.number slices) s = .next t ∧ t.part? p.number = some q ∧
        q.slices = p.slices.filter (fun x => decide (x ∉ slices)) ∧ t.wgs.map (·.id) = s.wgs.map (·.id)) ∧
      (∀ tier share, tier < 3 → p.shares.length = 3 → share ≤ p.shares.getD tier 0 →
        (share * 2 ^ 26 < s.pinnedBytes p.number tier →
          exec (.resizeShrinkTierShare port seq p.number tier share) s = .next (replied s port 2)) ∧
        (s.roomBeside p.number tier < s.excess p.number tier share →
          exec (.resizeShrinkTierShare port seq p.number tier share) s = .next (replied s port 2)) ∧
        (s.pinnedBytes p.number tier ≤ share * 2 ^ 26 → s.excess p.number tier share ≤ s.roomBeside p.number tier → ∃ t q,
          exec (.resizeShrinkTierShare port seq p.number tier share) s = .next t ∧ t.part? p.number = some q ∧
          q.shares.getD tier 0 = share ∧ (∀ i, i ≠ tier → q.shares.getD i 0 = p.shares.getD i 0) ∧ t.mem = s.mem ∧
          (s.usedOf p.number tier ≤ share * 2 ^ 26 → t.moves = s.moves ∧ t.host = (replied s port 0).host))) ∧
      ((∀ v ∈ s.wgs, ∀ w ∈ s.wgs, v.id = w.id → v = w) → ∃ t,
        exec (.destroyPartition port seq p.number) s = .next t ∧ (∀ w ∈ t.wgs, w.part ≠ p.number) ∧
        (∀ w ∈ s.wgs, w.part ≠ p.number → ∃ v ∈ t.wgs, v.id = w.id) ∧
        (∀ x ∈ s.parts, x.number ≠ p.number → x ∈ t.parts) ∧
        ((∃ x ∈ s.copies, x.part = p.number) → ∃ q, t.part? p.number = some q ∧ q.destroying = true ∧ q.cores = p.cores ∧
          t.host.running = some (port, .destroy p.number) ∧ t.host.answers = s.host.answers) ∧
        (s.copies = [] → s.rows = [] → s.tiers = [] → s.moves = [] → t.part? p.number = none ∧
          t.host = (replied s port 0).host ∧
          ∀ f ∈ s.frames, f.owner = some p.number → f.base % 4096 = 0 → ∀ k < f.size / 4096, f.base / 4096 + k ∈ t.cleared)))) ∧
  (∀ (s u : State) (port : Nat) (desc : BitVec 64) (p : Partition) (d : Descriptor), s.part? p.number = some p →
    (∀ q ∈ s.parts, q.number = p.number → q = p) →
    (s.host.booted = false ∨ p.destroying = true → exec (.hostLaunch port p.number desc) s = .next s) ∧
    (s.host.booted = true → p.destroying = false →
      s.readDescriptor (engineAgent 5 serviceCore port) serviceCore p.number desc.toNat = .waits u →
      exec (.hostLaunch port p.number desc) s = .next u) ∧
    (∀ x, s.host.booted = true → p.destroying = false →
      s.readDescriptor (engineAgent 5 serviceCore port) serviceCore p.number desc.toNat = .fault u x →
      exec (.hostLaunch port p.number desc) s = .next (replied u port (2 ^ 63 + 3))) ∧
    (s.host.booted = true → p.destroying = false → 
      s.readDescriptor (engineAgent 5 serviceCore port) serviceCore p.number desc.toNat = .ok u d →
      u.parts = s.parts →
      (∀ reason, u.refusal p d = some reason →
        exec (.hostLaunch port p.number desc) s = .next (replied u port (2 ^ 63 + reason))) ∧
      (u.refusal p d = none → ∃ t, exec (.hostLaunch port p.number desc) s = .next t ∧ t.wgs = u.wgs ∧
        t.host = (replied u port (p.launches + 1)).host ∧ t.part? p.number =
          some { p with launches := p.launches + 1, pipelines := p.pipelines ++ [d.pipeline (p.launches + 1)] }))) ∧
  (∀ (s : State) (core part order scope : Nat) (sc : Bool),
    (16 ≤ core ∨ scope < 2 → ∀ x ∈ [.fence core order scope sc, .load core 0 4 order scope, .store core 0 [0] order scope],
      exec (.serviceCoreAccess part x) s = .next s) ∧
    ((order ≠ 2 ∧ order ≠ 3) ∨ (∀ y ∈ s.serviceStores, y.core ≠ core) →
      exec (.serviceCoreAccess part (.fence core order scope sc)) s = .next s) ∧
    (core < 16 → 2 ≤ scope → order = 2 ∨ order = 3 → (∃ y ∈ s.serviceStores, y.core = core) →
      exec (.serviceCoreAccess part (.fence core order scope sc)) s = .next { s with
        nextId := s.nextId + 1,
        serviceStores := s.serviceStores ++ [{ id := s.nextId, core := core, part := part, va := 0, bytes := [], release := true, fence := true, sc := sc }] }) ∧
    (core < 16 → 2 ≤ scope → (∃ y ∈ s.serviceStores, y.core = core ∧ y.fence = true) → ∀ va bytes,
      exec (.serviceCoreAccess part (.store core va bytes order scope)) s = .next { s with
        nextId := s.nextId + 1,
        serviceStores := s.serviceStores ++ [{ id := s.nextId, core := core, part := part, va := va, bytes := bytes.map fun b => BitVec.ofNat 8 b, release := decide (order = 2 ∨ order = 3), fence := false, sc := false }] }) ∧
    (∀ va size l, core < 16 → 2 ≤ scope → s.serviceStores = [] → 1 ≤ size → va % 128 + size ≤ 128 → va + size ≤ 2 ^ 57 → s.findLeaf serviceCore part va = .ok l →
      l.vbase ≤ va → l.format < 7 → l.cls = .priv → l.pa % 4096 = 0 → l.vbase % 4096 = 0 → s.moves = [] →
      tierOf (l.pa + (va - l.vbase)) ≠ 2 → s.genOk l (l.pa + (va - l.vbase)) = true →
      Plain (s.tlbInsert serviceCore part l) (l.pa + (va - l.vbase)) size l →
      (l.r = true → ∃ t, exec (.serviceCoreAccess part (.load core va size order scope)) s = .next t ∧ t.wgs = s.wgs ∧
        t.serviceReads = (core, s.l2Bytes (l.pa + (va - l.vbase)) size) :: s.serviceReads) ∧
      (l.w = true → ∀ bytes, bytes.length = size → ∃ t,
        exec (.serviceCoreAccess part (.store core va bytes order scope)) s = .next t ∧
        t.wgs = s.wgs ∧ t.l2Bytes (l.pa + (va - l.vbase)) size = bytes.map (fun b => BitVec.ofNat 8 b))))

/-- Right after reset the clocks read 0, every core has empty caches and TLBs, latency counters of 0 and timelines
whose first number is 1, nothing is outstanding, no partition exists, device status reads 0 and the semaphore is free
with seq 0. The model chooses what the spec does not state: memory reads as zeros (log 1), %pkg is 0, the power limit
4,200 W, the factor 8 (log 3). The invariants of the model hold. -/
def Obligations.ResetLeavesTheEmptyPackage : Prop :=
  let s := State.reset
  (s.time = 0 ∧ s.mem = [] ∧ s.cleared = [] ∧ s.wgs = [] ∧ s.groups = [] ∧ s.parts = [] ∧ s.ops = [] ∧ s.cores.length = 128 ∧
    (∀ c < 128, (s.core c).l1 = [] ∧ (s.core c).tlb = [] ∧ (s.core c).lathist = Vector.replicate 8 0 ∧
      ∀ k < 3, (s.timeline c k).next = 1 ∧ (s.timeline c k).retired = 0) ∧
    s.host.booted = false ∧ s.host.running = none ∧ s.host.waiting = [] ∧ s.host.measured = [] ∧ s.host.sem.owner = 0 ∧ s.host.sem.seq = 0 ∧ s.host.answers = [] ∧
    (∀ port fn vf, s.deviceStatus port fn vf = 0) ∧ s.pkg = 0 ∧ s.host.powerLimit = 4200 ∧ s.host.factor = 8) ∧
  CellsOk s ∧ AgendaOk s ∧ (∀ a, s.tierByte a = 0)

namespace Sys2Proof.Claims

/-- R104: a clk begins in which two groups of the picker of g issue: its warps keep what their registers hold. -/
def clkBegun (g : Group) (s : State) : State :=
  { s with wgs := s.wgs.map fun w => if w.core = g.core ∧ w.place = .resident then
      { w with warps := w.warps.map fun x => if x.picker = g.picker then { x with before := some x.w } else x } else w }

/-- R104: the clk is over. -/
def clkOver (s : State) : State :=
  { s with wgs := s.wgs.map fun w => { w with warps := w.warps.map fun x => { x with before := none } } }

end Sys2Proof.Claims

/-- Time passes and the pickers note who is ready; then the first event of the agenda runs, or, with an agenda that
names none, the next word of the current issue group: its four bytes, fetched through translation at the group's
address, lowest first, decode to an instruction, which exec executes once the fetch has left its translation in the
TLBs and its sector in L2. A reserved opcode parks every member with ILLEGAL_OPCODE, an illegal field with
ILLEGAL_ENCODING, a word that cannot be fetched with the code that the fetch meets. Two groups of a picker, the first
formed earlier, whose next words are warp-register words may issue them in one step (where the field together of the
model asks for it): both read the registers of the beginning of the clk, and the write of the group formed later
stands. Every event of the device, the operating system or a host (Instr.isEvent: each constructor that is no word,
such as REGISTER_SPILL, QBLK_COMPLETE, TILE_TRANSFER_COMPLETE, WORKGROUP_SAVE, WORKGROUP_FLUSH) answers a next state
in every state, and with events only in the agenda no step stops. The agenda is the model's own (log 4). -/
def Obligations.AStepRunsTheDecodedWordOrTheEvent : Prop :=
  (∀ s : State, ∃ k, s.tick = { s.note.noteRows (s.time + 1 + k) with time := s.time + 1 + k, fresh := s.fresh + 1 }) ∧
  (∀ (s u : State) (g : Group), s.tick = u → u.agenda = [] → u.current = some g →
    u.fetchWaits g.core (u.groupPart g) g.pc = none →
    let v : State := { u with together := u.together.tail }
    (∀ w, u.fetchWord g.core (u.groupPart g) g.pc = .ok w →
      (u.together.headD false = false ∨ w.toNat / 2 ^ 26 ≠ 7 →
        (∀ i, decode w (u.lookAhead g w) = .ok i → step s = exec i (v.fetchTlb g.core (u.groupPart g) g.pc)) ∧
        (decode w (u.lookAhead g w) = .error .illegalOpcode →
          step s = exec (.reservedOpcode w) (v.fetchTlb g.core (u.groupPart g) g.pc)) ∧
        (decode w (u.lookAhead g w) = .error .illegalEncoding →
          step s = illegalFields w (v.fetchTlb g.core (u.groupPart g) g.pc))) ∧
      (u.together.headD false = true ∧ w.toNat / 2 ^ 26 = 7 → ∀ (i : Instr) (t : State), decode w (u.lookAhead g w) = .ok i →
        exec i ((clkBegun g v).fetchTlb g.core (v.groupPart g) g.pc) = .next t →
        (t.current = none → step s = .next (clkOver t)) ∧
        ∀ h, t.current = some h →
          (g.core ≠ h.core ∨ g.picker ≠ h.picker ∨ h.id ≤ g.id → step s = .next (clkOver t)) ∧
          (g.core = h.core → g.picker = h.picker → g.id < h.id → t.fetchWaits h.core (t.groupPart h) h.pc = none →
            ∀ (x : Word) (j : Instr) (t' : State), t.fetchWord h.core (t.groupPart h) h.pc = .ok x →
              decode x (t.lookAhead h x) = .ok j → exec j (t.fetchTlb h.core (t.groupPart h) h.pc) = .next t' →
              step s = .next (clkOver (if x.toNat / 2 ^ 26 = 7 then t' else t))))) ∧
    (∀ c, u.fetchWord g.core (u.groupPart g) g.pc = .error c → step s = fetchFault c g v)) ∧
  (∀ (s : State) (core part : Nat) (va : DWord) (l : Leaf), s.translate core part va { x := true } = .ok l →
    s.engineCheck (fetchAgent core part va) part (l.phys va.toNat) l false = .yes → s.moves = [] →
    Plain (s.tlbInsert core part l) (l.phys va.toNat) 4 l →
    s.fetchWaits core part va = none ∧ s.fetchTlb core part va = (s.tlbInsert core part l).l2Fill (l.phys va.toNat / 128) l.fold l.open_ ∧
    ∃ w : Word, s.fetchWord core part va = .ok w ∧ wordBytes w = s.l2Bytes (l.phys va.toNat) 4) ∧
  (∀ (s : State) (g : Group) (w : BitVec 32), Standing s g false → exec (.reservedOpcode w) s = .next (parkedAt s g { code := 0x01 }) ∧
    illegalFields w s = .next (if w.toNat / 2 ^ 26 = 60 ∨ w.toNat / 2 ^ 26 = 61 ∨ w.toNat / 2 ^ 26 = 62 then
      after s g fun _ t => t.raise { code := 0x02 } (s.modifierSite g) else parkedAt s g { code := 0x02 })) ∧
  (∀ (s u : State) (e : Instr) (rest : List Instr), s.tick = u → u.agenda = e :: rest →
    (Instr.isEvent e = true → step s = exec e { u.wakeGroups with agenda := rest }) ∧
    (Instr.isEvent e = false → step s = .fault .agendaWord)) ∧
  (∀ (s : State) (e : Instr), Instr.isEvent e = true → ∃ t, exec e s = .next t) ∧
  (∀ s : State, AgendaOk s → ∃ t, step s = .next t ∧ AgendaOk t)

/-- A header, an integer word with registers and one with an immediate, a fused multiply-add, a compare, a call, a
load and a reduction, written out bit by bit from the spec's formats, decode to their instructions whatever word
follows them; a guard p0 negated is refused. -/
def Obligations.WordsOfTheEncodingTablesDecode : Prop :=
  ∀ m : Word,
    decode 0xFCC00001 m = .ok (.clauseHeader { len := 3, wait := 0, fa := 0, fb := 0, y := false, c := true }) ∧
    decode 0x00020430 m = .ok (.iadd { vd := 2, va := 1, vb := 3, guard := 0, neg := false }) ∧
    decode 0x05C413F0 m = .ok (.iminuI { vd := 4, va := 4, imm := 63, guard := 0, neg := false }) ∧
    decode 0x24050420 m = .ok (.ffma { vd := 5, va := 1, vb := 2, guard := 0, neg := false }) ∧
    decode 0x48450620 m = .ok (.clt { type := 0, ctype := 2, pd1 := 1, pd2 := 2, va := 3, vb := 4, guard := 0 }) ∧
    decode 0x644000C0 m = .ok (.call { guard := 0, neg := false, off := 192 }) ∧
    decode 0x81880190 m = .ok (.ld128 { vd := 8, wb := 0, vo := 12, mode := true, guard := 0, fs := false }) ∧
    decode 0x90051820 m = .ok (.radd { vs := 5, wb := 3, vo := 1, mode := false, guard := 0 }) ∧
    decode 0x05C413F1 m = .error .illegalEncoding

/-- For all instructions with every operand at every value that the encoding admits: decoding the encoded word gives
the instruction back (a prefix word under the reading that the modified word gives it), from bytes too; what decodes
is well formed, is a word and encodes back to the same bits; but for prefix words no two instructions share a word; a
reserved major is refused as such. -/
def Obligations.EncodingAndDecodingAgree : Prop :=
  (∀ (i : Instr) (w m : Word), i.wf = true → i.encode = some w →
    let memory : Prop := m.toNat / 2 ^ 26 ∈ [0x20, 0x21, 0x23, 0x24, 0x25, 0x28, 0x29, 0x2A, 0x2C]
    ((∃ o, i = .arithmeticPrefix o) → ¬ memory) → ((∃ o, i = .memoryPrefix o) → memory) →
      decode w m = .ok i ∧ decodeBytes (wordBytes w ++ wordBytes m) = .ok i) ∧
  (∀ (w m : Word) (i : Instr), decode w m = .ok i → i.encode = some w ∧ i.wf = true ∧ i.isWord = true) ∧
  (∀ (i j : Instr) (w : Word), i.encode = some w → j.encode = some w →
    (∀ o, i ≠ .arithmeticPrefix o) → (∀ o, i ≠ .memoryPrefix o) → i = j) ∧
  (∀ w m : Word, w.toNat / 2 ^ 26 ∈ [0x0D, 0x0F, 0x1B, 0x1C, 0x1D, 0x1E, 0x1F, 0x27, 0x2F, 0x30, 0x31, 0x32, 0x33, 0x34,
    0x35, 0x36, 0x37, 0x38, 0x39, 0x3A, 0x3B] → decode w m = .error .illegalOpcode)

/-- Invariant of the model: from every state whose memory and scratchpad windows list their cells with strictly rising
addresses and no zero byte, every step, of any word or event, gives a state that lists them so; equal contents are
equal data. -/
def Obligations.EveryStepKeepsMemoryCanonical : Prop :=
  ∀ s t : State, CellsOk s → step s = .next t → CellsOk t
end

