-- ==== Sys2Proof/Laws/State.lean ====
section
/-! SUPPORT. What each named update of the state leaves alone, field by field: later proofs cite these instead of
unfolding a record update. -/

namespace Sys2Proof.Laws

open Sys2Proof Sys2Proof.Machine

/-! ## State.updWg -/

@[simp] theorem updWg_agenda (s : State) (id : Nat) (f : Workgroup → Workgroup) : (s.updWg id f).agenda = s.agenda := rfl
@[simp] theorem updWg_picks (s : State) (id : Nat) (f : Workgroup → Workgroup) : (s.updWg id f).picks = s.picks := rfl
@[simp] theorem updWg_together (s : State) (id : Nat) (f : Workgroup → Workgroup) : (s.updWg id f).together = s.together := rfl
@[simp] theorem updWg_fresh (s : State) (id : Nat) (f : Workgroup → Workgroup) : (s.updWg id f).fresh = s.fresh := rfl
@[simp] theorem updWg_nextId (s : State) (id : Nat) (f : Workgroup → Workgroup) : (s.updWg id f).nextId = s.nextId := rfl
@[simp] theorem updWg_time (s : State) (id : Nat) (f : Workgroup → Workgroup) : (s.updWg id f).time = s.time := rfl
@[simp] theorem updWg_halvings (s : State) (id : Nat) (f : Workgroup → Workgroup) : (s.updWg id f).halvings = s.halvings := rfl
@[simp] theorem updWg_pkg (s : State) (id : Nat) (f : Workgroup → Workgroup) : (s.updWg id f).pkg = s.pkg := rfl
@[simp] theorem updWg_mem (s : State) (id : Nat) (f : Workgroup → Workgroup) : (s.updWg id f).mem = s.mem := rfl
@[simp] theorem updWg_poison (s : State) (id : Nat) (f : Workgroup → Workgroup) : (s.updWg id f).poison = s.poison := rfl
@[simp] theorem updWg_keyed (s : State) (id : Nat) (f : Workgroup → Workgroup) : (s.updWg id f).keyed = s.keyed := rfl
@[simp] theorem updWg_damage (s : State) (id : Nat) (f : Workgroup → Workgroup) : (s.updWg id f).damage = s.damage := rfl
@[simp] theorem updWg_cleared (s : State) (id : Nat) (f : Workgroup → Workgroup) : (s.updWg id f).cleared = s.cleared := rfl
@[simp] theorem updWg_frames (s : State) (id : Nat) (f : Workgroup → Workgroup) : (s.updWg id f).frames = s.frames := rfl
@[simp] theorem updWg_granules (s : State) (id : Nat) (f : Workgroup → Workgroup) : (s.updWg id f).granules = s.granules := rfl
@[simp] theorem updWg_poolNews (s : State) (id : Nat) (f : Workgroup → Workgroup) : (s.updWg id f).poolNews = s.poolNews := rfl
@[simp] theorem updWg_l2 (s : State) (id : Nat) (f : Workgroup → Workgroup) : (s.updWg id f).l2 = s.l2 := rfl
@[simp] theorem updWg_l2tlb (s : State) (id : Nat) (f : Workgroup → Workgroup) : (s.updWg id f).l2tlb = s.l2tlb := rfl
@[simp] theorem updWg_cores (s : State) (id : Nat) (f : Workgroup → Workgroup) : (s.updWg id f).cores = s.cores := rfl
@[simp] theorem updWg_parts (s : State) (id : Nat) (f : Workgroup → Workgroup) : (s.updWg id f).parts = s.parts := rfl
@[simp] theorem updWg_groups (s : State) (id : Nat) (f : Workgroup → Workgroup) : (s.updWg id f).groups = s.groups := rfl
@[simp] theorem updWg_ops (s : State) (id : Nat) (f : Workgroup → Workgroup) : (s.updWg id f).ops = s.ops := rfl
@[simp] theorem updWg_copies (s : State) (id : Nat) (f : Workgroup → Workgroup) : (s.updWg id f).copies = s.copies := rfl
@[simp] theorem updWg_rows (s : State) (id : Nat) (f : Workgroup → Workgroup) : (s.updWg id f).rows = s.rows := rfl
@[simp] theorem updWg_tiers (s : State) (id : Nat) (f : Workgroup → Workgroup) : (s.updWg id f).tiers = s.tiers := rfl
@[simp] theorem updWg_moves (s : State) (id : Nat) (f : Workgroup → Workgroup) : (s.updWg id f).moves = s.moves := rfl
@[simp] theorem updWg_due (s : State) (id : Nat) (f : Workgroup → Workgroup) : (s.updWg id f).due = s.due := rfl
@[simp] theorem updWg_refresh (s : State) (id : Nat) (f : Workgroup → Workgroup) : (s.updWg id f).refresh = s.refresh := rfl
@[simp] theorem updWg_activates (s : State) (id : Nat) (f : Workgroup → Workgroup) : (s.updWg id f).activates = s.activates := rfl
@[simp] theorem updWg_launches (s : State) (id : Nat) (f : Workgroup → Workgroup) : (s.updWg id f).launches = s.launches := rfl
@[simp] theorem updWg_reports (s : State) (id : Nat) (f : Workgroup → Workgroup) : (s.updWg id f).reports = s.reports := rfl
@[simp] theorem updWg_serviceReads (s : State) (id : Nat) (f : Workgroup → Workgroup) : (s.updWg id f).serviceReads = s.serviceReads := rfl
@[simp] theorem updWg_serviceStores (s : State) (id : Nat) (f : Workgroup → Workgroup) : (s.updWg id f).serviceStores = s.serviceStores := rfl
@[simp] theorem updWg_lifetime (s : State) (id : Nat) (f : Workgroup → Workgroup) : (s.updWg id f).lifetime = s.lifetime := rfl
@[simp] theorem updWg_flash (s : State) (id : Nat) (f : Workgroup → Workgroup) : (s.updWg id f).flash = s.flash := rfl
@[simp] theorem updWg_host (s : State) (id : Nat) (f : Workgroup → Workgroup) : (s.updWg id f).host = s.host := rfl

/-! ## State.updThread -/

@[simp] theorem updThread_agenda (s : State) (r : TRef) (f : Thread → Thread) : (s.updThread r f).agenda = s.agenda := rfl
@[simp] theorem updThread_picks (s : State) (r : TRef) (f : Thread → Thread) : (s.updThread r f).picks = s.picks := rfl
@[simp] theorem updThread_together (s : State) (r : TRef) (f : Thread → Thread) : (s.updThread r f).together = s.together := rfl
@[simp] theorem updThread_fresh (s : State) (r : TRef) (f : Thread → Thread) : (s.updThread r f).fresh = s.fresh := rfl
@[simp] theorem updThread_nextId (s : State) (r : TRef) (f : Thread → Thread) : (s.updThread r f).nextId = s.nextId := rfl
@[simp] theorem updThread_time (s : State) (r : TRef) (f : Thread → Thread) : (s.updThread r f).time = s.time := rfl
@[simp] theorem updThread_halvings (s : State) (r : TRef) (f : Thread → Thread) : (s.updThread r f).halvings = s.halvings := rfl
@[simp] theorem updThread_pkg (s : State) (r : TRef) (f : Thread → Thread) : (s.updThread r f).pkg = s.pkg := rfl
@[simp] theorem updThread_mem (s : State) (r : TRef) (f : Thread → Thread) : (s.updThread r f).mem = s.mem := rfl
@[simp] theorem updThread_poison (s : State) (r : TRef) (f : Thread → Thread) : (s.updThread r f).poison = s.poison := rfl
@[simp] theorem updThread_keyed (s : State) (r : TRef) (f : Thread → Thread) : (s.updThread r f).keyed = s.keyed := rfl
@[simp] theorem updThread_damage (s : State) (r : TRef) (f : Thread → Thread) : (s.updThread r f).damage = s.damage := rfl
@[simp] theorem updThread_cleared (s : State) (r : TRef) (f : Thread → Thread) : (s.updThread r f).cleared = s.cleared := rfl
@[simp] theorem updThread_frames (s : State) (r : TRef) (f : Thread → Thread) : (s.updThread r f).frames = s.frames := rfl
@[simp] theorem updThread_granules (s : State) (r : TRef) (f : Thread → Thread) : (s.updThread r f).granules = s.granules := rfl
@[simp] theorem updThread_poolNews (s : State) (r : TRef) (f : Thread → Thread) : (s.updThread r f).poolNews = s.poolNews := rfl
@[simp] theorem updThread_l2 (s : State) (r : TRef) (f : Thread → Thread) : (s.updThread r f).l2 = s.l2 := rfl
@[simp] theorem updThread_l2tlb (s : State) (r : TRef) (f : Thread → Thread) : (s.updThread r f).l2tlb = s.l2tlb := rfl
@[simp] theorem updThread_cores (s : State) (r : TRef) (f : Thread → Thread) : (s.updThread r f).cores = s.cores := rfl
@[simp] theorem updThread_parts (s : State) (r : TRef) (f : Thread → Thread) : (s.updThread r f).parts = s.parts := rfl
@[simp] theorem updThread_groups (s : State) (r : TRef) (f : Thread → Thread) : (s.updThread r f).groups = s.groups := rfl
@[simp] theorem updThread_ops (s : State) (r : TRef) (f : Thread → Thread) : (s.updThread r f).ops = s.ops := rfl
@[simp] theorem updThread_copies (s : State) (r : TRef) (f : Thread → Thread) : (s.updThread r f).copies = s.copies := rfl
@[simp] theorem updThread_rows (s : State) (r : TRef) (f : Thread → Thread) : (s.updThread r f).rows = s.rows := rfl
@[simp] theorem updThread_tiers (s : State) (r : TRef) (f : Thread → Thread) : (s.updThread r f).tiers = s.tiers := rfl
@[simp] theorem updThread_moves (s : State) (r : TRef) (f : Thread → Thread) : (s.updThread r f).moves = s.moves := rfl
@[simp] theorem updThread_due (s : State) (r : TRef) (f : Thread → Thread) : (s.updThread r f).due = s.due := rfl
@[simp] theorem updThread_refresh (s : State) (r : TRef) (f : Thread → Thread) : (s.updThread r f).refresh = s.refresh := rfl
@[simp] theorem updThread_activates (s : State) (r : TRef) (f : Thread → Thread) : (s.updThread r f).activates = s.activates := rfl
@[simp] theorem updThread_launches (s : State) (r : TRef) (f : Thread → Thread) : (s.updThread r f).launches = s.launches := rfl
@[simp] theorem updThread_reports (s : State) (r : TRef) (f : Thread → Thread) : (s.updThread r f).reports = s.reports := rfl
@[simp] theorem updThread_serviceReads (s : State) (r : TRef) (f : Thread → Thread) : (s.updThread r f).serviceReads = s.serviceReads := rfl
@[simp] theorem updThread_serviceStores (s : State) (r : TRef) (f : Thread → Thread) : (s.updThread r f).serviceStores = s.serviceStores := rfl
@[simp] theorem updThread_lifetime (s : State) (r : TRef) (f : Thread → Thread) : (s.updThread r f).lifetime = s.lifetime := rfl
@[simp] theorem updThread_flash (s : State) (r : TRef) (f : Thread → Thread) : (s.updThread r f).flash = s.flash := rfl
@[simp] theorem updThread_host (s : State) (r : TRef) (f : Thread → Thread) : (s.updThread r f).host = s.host := rfl

/-! ## State.updThreads -/

@[simp] theorem updThreads_agenda (s : State) (rs : List TRef) (f : Thread → Thread) : (s.updThreads rs f).agenda = s.agenda := rfl
@[simp] theorem updThreads_picks (s : State) (rs : List TRef) (f : Thread → Thread) : (s.updThreads rs f).picks = s.picks := rfl
@[simp] theorem updThreads_together (s : State) (rs : List TRef) (f : Thread → Thread) : (s.updThreads rs f).together = s.together := rfl
@[simp] theorem updThreads_fresh (s : State) (rs : List TRef) (f : Thread → Thread) : (s.updThreads rs f).fresh = s.fresh := rfl
@[simp] theorem updThreads_nextId (s : State) (rs : List TRef) (f : Thread → Thread) : (s.updThreads rs f).nextId = s.nextId := rfl
@[simp] theorem updThreads_time (s : State) (rs : List TRef) (f : Thread → Thread) : (s.updThreads rs f).time = s.time := rfl
@[simp] theorem updThreads_halvings (s : State) (rs : List TRef) (f : Thread → Thread) : (s.updThreads rs f).halvings = s.halvings := rfl
@[simp] theorem updThreads_pkg (s : State) (rs : List TRef) (f : Thread → Thread) : (s.updThreads rs f).pkg = s.pkg := rfl
@[simp] theorem updThreads_mem (s : State) (rs : List TRef) (f : Thread → Thread) : (s.updThreads rs f).mem = s.mem := rfl
@[simp] theorem updThreads_poison (s : State) (rs : List TRef) (f : Thread → Thread) : (s.updThreads rs f).poison = s.poison := rfl
@[simp] theorem updThreads_keyed (s : State) (rs : List TRef) (f : Thread → Thread) : (s.updThreads rs f).keyed = s.keyed := rfl
@[simp] theorem updThreads_damage (s : State) (rs : List TRef) (f : Thread → Thread) : (s.updThreads rs f).damage = s.damage := rfl
@[simp] theorem updThreads_cleared (s : State) (rs : List TRef) (f : Thread → Thread) : (s.updThreads rs f).cleared = s.cleared := rfl
@[simp] theorem updThreads_frames (s : State) (rs : List TRef) (f : Thread → Thread) : (s.updThreads rs f).frames = s.frames := rfl
@[simp] theorem updThreads_granules (s : State) (rs : List TRef) (f : Thread → Thread) : (s.updThreads rs f).granules = s.granules := rfl
@[simp] theorem updThreads_poolNews (s : State) (rs : List TRef) (f : Thread → Thread) : (s.updThreads rs f).poolNews = s.poolNews := rfl
@[simp] theorem updThreads_l2 (s : State) (rs : List TRef) (f : Thread → Thread) : (s.updThreads rs f).l2 = s.l2 := rfl
@[simp] theorem updThreads_l2tlb (s : State) (rs : List TRef) (f : Thread → Thread) : (s.updThreads rs f).l2tlb = s.l2tlb := rfl
@[simp] theorem updThreads_cores (s : State) (rs : List TRef) (f : Thread → Thread) : (s.updThreads rs f).cores = s.cores := rfl
@[simp] theorem updThreads_parts (s : State) (rs : List TRef) (f : Thread → Thread) : (s.updThreads rs f).parts = s.parts := rfl
@[simp] theorem updThreads_groups (s : State) (rs : List TRef) (f : Thread → Thread) : (s.updThreads rs f).groups = s.groups := rfl
@[simp] theorem updThreads_ops (s : State) (rs : List TRef) (f : Thread → Thread) : (s.updThreads rs f).ops = s.ops := rfl
@[simp] theorem updThreads_copies (s : State) (rs : List TRef) (f : Thread → Thread) : (s.updThreads rs f).copies = s.copies := rfl
@[simp] theorem updThreads_rows (s : State) (rs : List TRef) (f : Thread → Thread) : (s.updThreads rs f).rows = s.rows := rfl
@[simp] theorem updThreads_tiers (s : State) (rs : List TRef) (f : Thread → Thread) : (s.updThreads rs f).tiers = s.tiers := rfl
@[simp] theorem updThreads_moves (s : State) (rs : List TRef) (f : Thread → Thread) : (s.updThreads rs f).moves = s.moves := rfl
@[simp] theorem updThreads_due (s : State) (rs : List TRef) (f : Thread → Thread) : (s.updThreads rs f).due = s.due := rfl
@[simp] theorem updThreads_refresh (s : State) (rs : List TRef) (f : Thread → Thread) : (s.updThreads rs f).refresh = s.refresh := rfl
@[simp] theorem updThreads_activates (s : State) (rs : List TRef) (f : Thread → Thread) : (s.updThreads rs f).activates = s.activates := rfl
@[simp] theorem updThreads_launches (s : State) (rs : List TRef) (f : Thread → Thread) : (s.updThreads rs f).launches = s.launches := rfl
@[simp] theorem updThreads_reports (s : State) (rs : List TRef) (f : Thread → Thread) : (s.updThreads rs f).reports = s.reports := rfl
@[simp] theorem updThreads_serviceReads (s : State) (rs : List TRef) (f : Thread → Thread) : (s.updThreads rs f).serviceReads = s.serviceReads := rfl
@[simp] theorem updThreads_serviceStores (s : State) (rs : List TRef) (f : Thread → Thread) : (s.updThreads rs f).serviceStores = s.serviceStores := rfl
@[simp] theorem updThreads_lifetime (s : State) (rs : List TRef) (f : Thread → Thread) : (s.updThreads rs f).lifetime = s.lifetime := rfl
@[simp] theorem updThreads_flash (s : State) (rs : List TRef) (f : Thread → Thread) : (s.updThreads rs f).flash = s.flash := rfl
@[simp] theorem updThreads_host (s : State) (rs : List TRef) (f : Thread → Thread) : (s.updThreads rs f).host = s.host := rfl

/-! ## State.updWarp -/

@[simp] theorem updWarp_agenda (s : State) (wg w : Nat) (f : Warp → Warp) : (s.updWarp wg w f).agenda = s.agenda := rfl
@[simp] theorem updWarp_picks (s : State) (wg w : Nat) (f : Warp → Warp) : (s.updWarp wg w f).picks = s.picks := rfl
@[simp] theorem updWarp_together (s : State) (wg w : Nat) (f : Warp → Warp) : (s.updWarp wg w f).together = s.together := rfl
@[simp] theorem updWarp_fresh (s : State) (wg w : Nat) (f : Warp → Warp) : (s.updWarp wg w f).fresh = s.fresh := rfl
@[simp] theorem updWarp_nextId (s : State) (wg w : Nat) (f : Warp → Warp) : (s.updWarp wg w f).nextId = s.nextId := rfl
@[simp] theorem updWarp_time (s : State) (wg w : Nat) (f : Warp → Warp) : (s.updWarp wg w f).time = s.time := rfl
@[simp] theorem updWarp_halvings (s : State) (wg w : Nat) (f : Warp → Warp) : (s.updWarp wg w f).halvings = s.halvings := rfl
@[simp] theorem updWarp_pkg (s : State) (wg w : Nat) (f : Warp → Warp) : (s.updWarp wg w f).pkg = s.pkg := rfl
@[simp] theorem updWarp_mem (s : State) (wg w : Nat) (f : Warp → Warp) : (s.updWarp wg w f).mem = s.mem := rfl
@[simp] theorem updWarp_poison (s : State) (wg w : Nat) (f : Warp → Warp) : (s.updWarp wg w f).poison = s.poison := rfl
@[simp] theorem updWarp_keyed (s : State) (wg w : Nat) (f : Warp → Warp) : (s.updWarp wg w f).keyed = s.keyed := rfl
@[simp] theorem updWarp_damage (s : State) (wg w : Nat) (f : Warp → Warp) : (s.updWarp wg w f).damage = s.damage := rfl
@[simp] theorem updWarp_cleared (s : State) (wg w : Nat) (f : Warp → Warp) : (s.updWarp wg w f).cleared = s.cleared := rfl
@[simp] theorem updWarp_frames (s : State) (wg w : Nat) (f : Warp → Warp) : (s.updWarp wg w f).frames = s.frames := rfl
@[simp] theorem updWarp_granules (s : State) (wg w : Nat) (f : Warp → Warp) : (s.updWarp wg w f).granules = s.granules := rfl
@[simp] theorem updWarp_poolNews (s : State) (wg w : Nat) (f : Warp → Warp) : (s.updWarp wg w f).poolNews = s.poolNews := rfl
@[simp] theorem updWarp_l2 (s : State) (wg w : Nat) (f : Warp → Warp) : (s.updWarp wg w f).l2 = s.l2 := rfl
@[simp] theorem updWarp_l2tlb (s : State) (wg w : Nat) (f : Warp → Warp) : (s.updWarp wg w f).l2tlb = s.l2tlb := rfl
@[simp] theorem updWarp_cores (s : State) (wg w : Nat) (f : Warp → Warp) : (s.updWarp wg w f).cores = s.cores := rfl
@[simp] theorem updWarp_parts (s : State) (wg w : Nat) (f : Warp → Warp) : (s.updWarp wg w f).parts = s.parts := rfl
@[simp] theorem updWarp_groups (s : State) (wg w : Nat) (f : Warp → Warp) : (s.updWarp wg w f).groups = s.groups := rfl
@[simp] theorem updWarp_ops (s : State) (wg w : Nat) (f : Warp → Warp) : (s.updWarp wg w f).ops = s.ops := rfl
@[simp] theorem updWarp_copies (s : State) (wg w : Nat) (f : Warp → Warp) : (s.updWarp wg w f).copies = s.copies := rfl
@[simp] theorem updWarp_rows (s : State) (wg w : Nat) (f : Warp → Warp) : (s.updWarp wg w f).rows = s.rows := rfl
@[simp] theorem updWarp_tiers (s : State) (wg w : Nat) (f : Warp → Warp) : (s.updWarp wg w f).tiers = s.tiers := rfl
@[simp] theorem updWarp_moves (s : State) (wg w : Nat) (f : Warp → Warp) : (s.updWarp wg w f).moves = s.moves := rfl
@[simp] theorem updWarp_due (s : State) (wg w : Nat) (f : Warp → Warp) : (s.updWarp wg w f).due = s.due := rfl
@[simp] theorem updWarp_refresh (s : State) (wg w : Nat) (f : Warp → Warp) : (s.updWarp wg w f).refresh = s.refresh := rfl
@[simp] theorem updWarp_activates (s : State) (wg w : Nat) (f : Warp → Warp) : (s.updWarp wg w f).activates = s.activates := rfl
@[simp] theorem updWarp_launches (s : State) (wg w : Nat) (f : Warp → Warp) : (s.updWarp wg w f).launches = s.launches := rfl
@[simp] theorem updWarp_reports (s : State) (wg w : Nat) (f : Warp → Warp) : (s.updWarp wg w f).reports = s.reports := rfl
@[simp] theorem updWarp_serviceReads (s : State) (wg w : Nat) (f : Warp → Warp) : (s.updWarp wg w f).serviceReads = s.serviceReads := rfl
@[simp] theorem updWarp_serviceStores (s : State) (wg w : Nat) (f : Warp → Warp) : (s.updWarp wg w f).serviceStores = s.serviceStores := rfl
@[simp] theorem updWarp_lifetime (s : State) (wg w : Nat) (f : Warp → Warp) : (s.updWarp wg w f).lifetime = s.lifetime := rfl
@[simp] theorem updWarp_flash (s : State) (wg w : Nat) (f : Warp → Warp) : (s.updWarp wg w f).flash = s.flash := rfl
@[simp] theorem updWarp_host (s : State) (wg w : Nat) (f : Warp → Warp) : (s.updWarp wg w f).host = s.host := rfl

/-! ## State.mapGroup -/

@[simp] theorem mapGroup_agenda (s : State) (id : Nat) (f : Workgroup → Thread → Thread) : (s.mapGroup id f).agenda = s.agenda := rfl
@[simp] theorem mapGroup_picks (s : State) (id : Nat) (f : Workgroup → Thread → Thread) : (s.mapGroup id f).picks = s.picks := rfl
@[simp] theorem mapGroup_together (s : State) (id : Nat) (f : Workgroup → Thread → Thread) : (s.mapGroup id f).together = s.together := rfl
@[simp] theorem mapGroup_fresh (s : State) (id : Nat) (f : Workgroup → Thread → Thread) : (s.mapGroup id f).fresh = s.fresh := rfl
@[simp] theorem mapGroup_nextId (s : State) (id : Nat) (f : Workgroup → Thread → Thread) : (s.mapGroup id f).nextId = s.nextId := rfl
@[simp] theorem mapGroup_time (s : State) (id : Nat) (f : Workgroup → Thread → Thread) : (s.mapGroup id f).time = s.time := rfl
@[simp] theorem mapGroup_halvings (s : State) (id : Nat) (f : Workgroup → Thread → Thread) : (s.mapGroup id f).halvings = s.halvings := rfl
@[simp] theorem mapGroup_pkg (s : State) (id : Nat) (f : Workgroup → Thread → Thread) : (s.mapGroup id f).pkg = s.pkg := rfl
@[simp] theorem mapGroup_mem (s : State) (id : Nat) (f : Workgroup → Thread → Thread) : (s.mapGroup id f).mem = s.mem := rfl
@[simp] theorem mapGroup_poison (s : State) (id : Nat) (f : Workgroup → Thread → Thread) : (s.mapGroup id f).poison = s.poison := rfl
@[simp] theorem mapGroup_keyed (s : State) (id : Nat) (f : Workgroup → Thread → Thread) : (s.mapGroup id f).keyed = s.keyed := rfl
@[simp] theorem mapGroup_damage (s : State) (id : Nat) (f : Workgroup → Thread → Thread) : (s.mapGroup id f).damage = s.damage := rfl
@[simp] theorem mapGroup_cleared (s : State) (id : Nat) (f : Workgroup → Thread → Thread) : (s.mapGroup id f).cleared = s.cleared := rfl
@[simp] theorem mapGroup_frames (s : State) (id : Nat) (f : Workgroup → Thread → Thread) : (s.mapGroup id f).frames = s.frames := rfl
@[simp] theorem mapGroup_granules (s : State) (id : Nat) (f : Workgroup → Thread → Thread) : (s.mapGroup id f).granules = s.granules := rfl
@[simp] theorem mapGroup_poolNews (s : State) (id : Nat) (f : Workgroup → Thread → Thread) : (s.mapGroup id f).poolNews = s.poolNews := rfl
@[simp] theorem mapGroup_l2 (s : State) (id : Nat) (f : Workgroup → Thread → Thread) : (s.mapGroup id f).l2 = s.l2 := rfl
@[simp] theorem mapGroup_l2tlb (s : State) (id : Nat) (f : Workgroup → Thread → Thread) : (s.mapGroup id f).l2tlb = s.l2tlb := rfl
@[simp] theorem mapGroup_cores (s : State) (id : Nat) (f : Workgroup → Thread → Thread) : (s.mapGroup id f).cores = s.cores := rfl
@[simp] theorem mapGroup_parts (s : State) (id : Nat) (f : Workgroup → Thread → Thread) : (s.mapGroup id f).parts = s.parts := rfl
@[simp] theorem mapGroup_groups (s : State) (id : Nat) (f : Workgroup → Thread → Thread) : (s.mapGroup id f).groups = s.groups := rfl
@[simp] theorem mapGroup_ops (s : State) (id : Nat) (f : Workgroup → Thread → Thread) : (s.mapGroup id f).ops = s.ops := rfl
@[simp] theorem mapGroup_copies (s : State) (id : Nat) (f : Workgroup → Thread → Thread) : (s.mapGroup id f).copies = s.copies := rfl
@[simp] theorem mapGroup_rows (s : State) (id : Nat) (f : Workgroup → Thread → Thread) : (s.mapGroup id f).rows = s.rows := rfl
@[simp] theorem mapGroup_tiers (s : State) (id : Nat) (f : Workgroup → Thread → Thread) : (s.mapGroup id f).tiers = s.tiers := rfl
@[simp] theorem mapGroup_moves (s : State) (id : Nat) (f : Workgroup → Thread → Thread) : (s.mapGroup id f).moves = s.moves := rfl
@[simp] theorem mapGroup_due (s : State) (id : Nat) (f : Workgroup → Thread → Thread) : (s.mapGroup id f).due = s.due := rfl
@[simp] theorem mapGroup_refresh (s : State) (id : Nat) (f : Workgroup → Thread → Thread) : (s.mapGroup id f).refresh = s.refresh := rfl
@[simp] theorem mapGroup_activates (s : State) (id : Nat) (f : Workgroup → Thread → Thread) : (s.mapGroup id f).activates = s.activates := rfl
@[simp] theorem mapGroup_launches (s : State) (id : Nat) (f : Workgroup → Thread → Thread) : (s.mapGroup id f).launches = s.launches := rfl
@[simp] theorem mapGroup_reports (s : State) (id : Nat) (f : Workgroup → Thread → Thread) : (s.mapGroup id f).reports = s.reports := rfl
@[simp] theorem mapGroup_serviceReads (s : State) (id : Nat) (f : Workgroup → Thread → Thread) : (s.mapGroup id f).serviceReads = s.serviceReads := rfl
@[simp] theorem mapGroup_serviceStores (s : State) (id : Nat) (f : Workgroup → Thread → Thread) : (s.mapGroup id f).serviceStores = s.serviceStores := rfl
@[simp] theorem mapGroup_lifetime (s : State) (id : Nat) (f : Workgroup → Thread → Thread) : (s.mapGroup id f).lifetime = s.lifetime := rfl
@[simp] theorem mapGroup_flash (s : State) (id : Nat) (f : Workgroup → Thread → Thread) : (s.mapGroup id f).flash = s.flash := rfl
@[simp] theorem mapGroup_host (s : State) (id : Nat) (f : Workgroup → Thread → Thread) : (s.mapGroup id f).host = s.host := rfl

/-! ## State.updGroup -/

@[simp] theorem updGroup_agenda (s : State) (id : Nat) (f : Group → Group) : (s.updGroup id f).agenda = s.agenda := rfl
@[simp] theorem updGroup_picks (s : State) (id : Nat) (f : Group → Group) : (s.updGroup id f).picks = s.picks := rfl
@[simp] theorem updGroup_together (s : State) (id : Nat) (f : Group → Group) : (s.updGroup id f).together = s.together := rfl
@[simp] theorem updGroup_fresh (s : State) (id : Nat) (f : Group → Group) : (s.updGroup id f).fresh = s.fresh := rfl
@[simp] theorem updGroup_nextId (s : State) (id : Nat) (f : Group → Group) : (s.updGroup id f).nextId = s.nextId := rfl
@[simp] theorem updGroup_time (s : State) (id : Nat) (f : Group → Group) : (s.updGroup id f).time = s.time := rfl
@[simp] theorem updGroup_halvings (s : State) (id : Nat) (f : Group → Group) : (s.updGroup id f).halvings = s.halvings := rfl
@[simp] theorem updGroup_pkg (s : State) (id : Nat) (f : Group → Group) : (s.updGroup id f).pkg = s.pkg := rfl
@[simp] theorem updGroup_mem (s : State) (id : Nat) (f : Group → Group) : (s.updGroup id f).mem = s.mem := rfl
@[simp] theorem updGroup_poison (s : State) (id : Nat) (f : Group → Group) : (s.updGroup id f).poison = s.poison := rfl
@[simp] theorem updGroup_keyed (s : State) (id : Nat) (f : Group → Group) : (s.updGroup id f).keyed = s.keyed := rfl
@[simp] theorem updGroup_damage (s : State) (id : Nat) (f : Group → Group) : (s.updGroup id f).damage = s.damage := rfl
@[simp] theorem updGroup_cleared (s : State) (id : Nat) (f : Group → Group) : (s.updGroup id f).cleared = s.cleared := rfl
@[simp] theorem updGroup_frames (s : State) (id : Nat) (f : Group → Group) : (s.updGroup id f).frames = s.frames := rfl
@[simp] theorem updGroup_granules (s : State) (id : Nat) (f : Group → Group) : (s.updGroup id f).granules = s.granules := rfl
@[simp] theorem updGroup_poolNews (s : State) (id : Nat) (f : Group → Group) : (s.updGroup id f).poolNews = s.poolNews := rfl
@[simp] theorem updGroup_l2 (s : State) (id : Nat) (f : Group → Group) : (s.updGroup id f).l2 = s.l2 := rfl
@[simp] theorem updGroup_l2tlb (s : State) (id : Nat) (f : Group → Group) : (s.updGroup id f).l2tlb = s.l2tlb := rfl
@[simp] theorem updGroup_cores (s : State) (id : Nat) (f : Group → Group) : (s.updGroup id f).cores = s.cores := rfl
@[simp] theorem updGroup_parts (s : State) (id : Nat) (f : Group → Group) : (s.updGroup id f).parts = s.parts := rfl
@[simp] theorem updGroup_wgs (s : State) (id : Nat) (f : Group → Group) : (s.updGroup id f).wgs = s.wgs := rfl
@[simp] theorem updGroup_ops (s : State) (id : Nat) (f : Group → Group) : (s.updGroup id f).ops = s.ops := rfl
@[simp] theorem updGroup_copies (s : State) (id : Nat) (f : Group → Group) : (s.updGroup id f).copies = s.copies := rfl
@[simp] theorem updGroup_rows (s : State) (id : Nat) (f : Group → Group) : (s.updGroup id f).rows = s.rows := rfl
@[simp] theorem updGroup_tiers (s : State) (id : Nat) (f : Group → Group) : (s.updGroup id f).tiers = s.tiers := rfl
@[simp] theorem updGroup_moves (s : State) (id : Nat) (f : Group → Group) : (s.updGroup id f).moves = s.moves := rfl
@[simp] theorem updGroup_due (s : State) (id : Nat) (f : Group → Group) : (s.updGroup id f).due = s.due := rfl
@[simp] theorem updGroup_refresh (s : State) (id : Nat) (f : Group → Group) : (s.updGroup id f).refresh = s.refresh := rfl
@[simp] theorem updGroup_activates (s : State) (id : Nat) (f : Group → Group) : (s.updGroup id f).activates = s.activates := rfl
@[simp] theorem updGroup_launches (s : State) (id : Nat) (f : Group → Group) : (s.updGroup id f).launches = s.launches := rfl
@[simp] theorem updGroup_reports (s : State) (id : Nat) (f : Group → Group) : (s.updGroup id f).reports = s.reports := rfl
@[simp] theorem updGroup_serviceReads (s : State) (id : Nat) (f : Group → Group) : (s.updGroup id f).serviceReads = s.serviceReads := rfl
@[simp] theorem updGroup_serviceStores (s : State) (id : Nat) (f : Group → Group) : (s.updGroup id f).serviceStores = s.serviceStores := rfl
@[simp] theorem updGroup_lifetime (s : State) (id : Nat) (f : Group → Group) : (s.updGroup id f).lifetime = s.lifetime := rfl
@[simp] theorem updGroup_flash (s : State) (id : Nat) (f : Group → Group) : (s.updGroup id f).flash = s.flash := rfl
@[simp] theorem updGroup_host (s : State) (id : Nat) (f : Group → Group) : (s.updGroup id f).host = s.host := rfl

/-! ## State.updCore -/

@[simp] theorem updCore_agenda (s : State) (n : Nat) (f : Core → Core) : (s.updCore n f).agenda = s.agenda := rfl
@[simp] theorem updCore_picks (s : State) (n : Nat) (f : Core → Core) : (s.updCore n f).picks = s.picks := rfl
@[simp] theorem updCore_together (s : State) (n : Nat) (f : Core → Core) : (s.updCore n f).together = s.together := rfl
@[simp] theorem updCore_fresh (s : State) (n : Nat) (f : Core → Core) : (s.updCore n f).fresh = s.fresh := rfl
@[simp] theorem updCore_nextId (s : State) (n : Nat) (f : Core → Core) : (s.updCore n f).nextId = s.nextId := rfl
@[simp] theorem updCore_time (s : State) (n : Nat) (f : Core → Core) : (s.updCore n f).time = s.time := rfl
@[simp] theorem updCore_halvings (s : State) (n : Nat) (f : Core → Core) : (s.updCore n f).halvings = s.halvings := rfl
@[simp] theorem updCore_pkg (s : State) (n : Nat) (f : Core → Core) : (s.updCore n f).pkg = s.pkg := rfl
@[simp] theorem updCore_mem (s : State) (n : Nat) (f : Core → Core) : (s.updCore n f).mem = s.mem := rfl
@[simp] theorem updCore_poison (s : State) (n : Nat) (f : Core → Core) : (s.updCore n f).poison = s.poison := rfl
@[simp] theorem updCore_keyed (s : State) (n : Nat) (f : Core → Core) : (s.updCore n f).keyed = s.keyed := rfl
@[simp] theorem updCore_damage (s : State) (n : Nat) (f : Core → Core) : (s.updCore n f).damage = s.damage := rfl
@[simp] theorem updCore_cleared (s : State) (n : Nat) (f : Core → Core) : (s.updCore n f).cleared = s.cleared := rfl
@[simp] theorem updCore_frames (s : State) (n : Nat) (f : Core → Core) : (s.updCore n f).frames = s.frames := rfl
@[simp] theorem updCore_granules (s : State) (n : Nat) (f : Core → Core) : (s.updCore n f).granules = s.granules := rfl
@[simp] theorem updCore_poolNews (s : State) (n : Nat) (f : Core → Core) : (s.updCore n f).poolNews = s.poolNews := rfl
@[simp] theorem updCore_l2 (s : State) (n : Nat) (f : Core → Core) : (s.updCore n f).l2 = s.l2 := rfl
@[simp] theorem updCore_l2tlb (s : State) (n : Nat) (f : Core → Core) : (s.updCore n f).l2tlb = s.l2tlb := rfl
@[simp] theorem updCore_parts (s : State) (n : Nat) (f : Core → Core) : (s.updCore n f).parts = s.parts := rfl
@[simp] theorem updCore_wgs (s : State) (n : Nat) (f : Core → Core) : (s.updCore n f).wgs = s.wgs := rfl
@[simp] theorem updCore_groups (s : State) (n : Nat) (f : Core → Core) : (s.updCore n f).groups = s.groups := rfl
@[simp] theorem updCore_ops (s : State) (n : Nat) (f : Core → Core) : (s.updCore n f).ops = s.ops := rfl
@[simp] theorem updCore_copies (s : State) (n : Nat) (f : Core → Core) : (s.updCore n f).copies = s.copies := rfl
@[simp] theorem updCore_rows (s : State) (n : Nat) (f : Core → Core) : (s.updCore n f).rows = s.rows := rfl
@[simp] theorem updCore_tiers (s : State) (n : Nat) (f : Core → Core) : (s.updCore n f).tiers = s.tiers := rfl
@[simp] theorem updCore_moves (s : State) (n : Nat) (f : Core → Core) : (s.updCore n f).moves = s.moves := rfl
@[simp] theorem updCore_due (s : State) (n : Nat) (f : Core → Core) : (s.updCore n f).due = s.due := rfl
@[simp] theorem updCore_refresh (s : State) (n : Nat) (f : Core → Core) : (s.updCore n f).refresh = s.refresh := rfl
@[simp] theorem updCore_activates (s : State) (n : Nat) (f : Core → Core) : (s.updCore n f).activates = s.activates := rfl
@[simp] theorem updCore_launches (s : State) (n : Nat) (f : Core → Core) : (s.updCore n f).launches = s.launches := rfl
@[simp] theorem updCore_reports (s : State) (n : Nat) (f : Core → Core) : (s.updCore n f).reports = s.reports := rfl
@[simp] theorem updCore_serviceReads (s : State) (n : Nat) (f : Core → Core) : (s.updCore n f).serviceReads = s.serviceReads := rfl
@[simp] theorem updCore_serviceStores (s : State) (n : Nat) (f : Core → Core) : (s.updCore n f).serviceStores = s.serviceStores := rfl
@[simp] theorem updCore_lifetime (s : State) (n : Nat) (f : Core → Core) : (s.updCore n f).lifetime = s.lifetime := rfl
@[simp] theorem updCore_flash (s : State) (n : Nat) (f : Core → Core) : (s.updCore n f).flash = s.flash := rfl
@[simp] theorem updCore_host (s : State) (n : Nat) (f : Core → Core) : (s.updCore n f).host = s.host := rfl

/-! ## State.updPart -/

@[simp] theorem updPart_agenda (s : State) (n : Nat) (f : Partition → Partition) : (s.updPart n f).agenda = s.agenda := rfl
@[simp] theorem updPart_picks (s : State) (n : Nat) (f : Partition → Partition) : (s.updPart n f).picks = s.picks := rfl
@[simp] theorem updPart_together (s : State) (n : Nat) (f : Partition → Partition) : (s.updPart n f).together = s.together := rfl
@[simp] theorem updPart_fresh (s : State) (n : Nat) (f : Partition → Partition) : (s.updPart n f).fresh = s.fresh := rfl
@[simp] theorem updPart_nextId (s : State) (n : Nat) (f : Partition → Partition) : (s.updPart n f).nextId = s.nextId := rfl
@[simp] theorem updPart_time (s : State) (n : Nat) (f : Partition → Partition) : (s.updPart n f).time = s.time := rfl
@[simp] theorem updPart_halvings (s : State) (n : Nat) (f : Partition → Partition) : (s.updPart n f).halvings = s.halvings := rfl
@[simp] theorem updPart_pkg (s : State) (n : Nat) (f : Partition → Partition) : (s.updPart n f).pkg = s.pkg := rfl
@[simp] theorem updPart_mem (s : State) (n : Nat) (f : Partition → Partition) : (s.updPart n f).mem = s.mem := rfl
@[simp] theorem updPart_poison (s : State) (n : Nat) (f : Partition → Partition) : (s.updPart n f).poison = s.poison := rfl
@[simp] theorem updPart_keyed (s : State) (n : Nat) (f : Partition → Partition) : (s.updPart n f).keyed = s.keyed := rfl
@[simp] theorem updPart_damage (s : State) (n : Nat) (f : Partition → Partition) : (s.updPart n f).damage = s.damage := rfl
@[simp] theorem updPart_cleared (s : State) (n : Nat) (f : Partition → Partition) : (s.updPart n f).cleared = s.cleared := rfl
@[simp] theorem updPart_frames (s : State) (n : Nat) (f : Partition → Partition) : (s.updPart n f).frames = s.frames := rfl
@[simp] theorem updPart_granules (s : State) (n : Nat) (f : Partition → Partition) : (s.updPart n f).granules = s.granules := rfl
@[simp] theorem updPart_poolNews (s : State) (n : Nat) (f : Partition → Partition) : (s.updPart n f).poolNews = s.poolNews := rfl
@[simp] theorem updPart_l2 (s : State) (n : Nat) (f : Partition → Partition) : (s.updPart n f).l2 = s.l2 := rfl
@[simp] theorem updPart_l2tlb (s : State) (n : Nat) (f : Partition → Partition) : (s.updPart n f).l2tlb = s.l2tlb := rfl
@[simp] theorem updPart_cores (s : State) (n : Nat) (f : Partition → Partition) : (s.updPart n f).cores = s.cores := rfl
@[simp] theorem updPart_wgs (s : State) (n : Nat) (f : Partition → Partition) : (s.updPart n f).wgs = s.wgs := rfl
@[simp] theorem updPart_groups (s : State) (n : Nat) (f : Partition → Partition) : (s.updPart n f).groups = s.groups := rfl
@[simp] theorem updPart_ops (s : State) (n : Nat) (f : Partition → Partition) : (s.updPart n f).ops = s.ops := rfl
@[simp] theorem updPart_copies (s : State) (n : Nat) (f : Partition → Partition) : (s.updPart n f).copies = s.copies := rfl
@[simp] theorem updPart_rows (s : State) (n : Nat) (f : Partition → Partition) : (s.updPart n f).rows = s.rows := rfl
@[simp] theorem updPart_tiers (s : State) (n : Nat) (f : Partition → Partition) : (s.updPart n f).tiers = s.tiers := rfl
@[simp] theorem updPart_moves (s : State) (n : Nat) (f : Partition → Partition) : (s.updPart n f).moves = s.moves := rfl
@[simp] theorem updPart_due (s : State) (n : Nat) (f : Partition → Partition) : (s.updPart n f).due = s.due := rfl
@[simp] theorem updPart_refresh (s : State) (n : Nat) (f : Partition → Partition) : (s.updPart n f).refresh = s.refresh := rfl
@[simp] theorem updPart_activates (s : State) (n : Nat) (f : Partition → Partition) : (s.updPart n f).activates = s.activates := rfl
@[simp] theorem updPart_launches (s : State) (n : Nat) (f : Partition → Partition) : (s.updPart n f).launches = s.launches := rfl
@[simp] theorem updPart_reports (s : State) (n : Nat) (f : Partition → Partition) : (s.updPart n f).reports = s.reports := rfl
@[simp] theorem updPart_serviceReads (s : State) (n : Nat) (f : Partition → Partition) : (s.updPart n f).serviceReads = s.serviceReads := rfl
@[simp] theorem updPart_serviceStores (s : State) (n : Nat) (f : Partition → Partition) : (s.updPart n f).serviceStores = s.serviceStores := rfl
@[simp] theorem updPart_lifetime (s : State) (n : Nat) (f : Partition → Partition) : (s.updPart n f).lifetime = s.lifetime := rfl
@[simp] theorem updPart_flash (s : State) (n : Nat) (f : Partition → Partition) : (s.updPart n f).flash = s.flash := rfl
@[simp] theorem updPart_host (s : State) (n : Nat) (f : Partition → Partition) : (s.updPart n f).host = s.host := rfl

/-! ## State.updOp -/

@[simp] theorem updOp_agenda (s : State) (id : Nat) (f : PendingOp → PendingOp) : (s.updOp id f).agenda = s.agenda := rfl
@[simp] theorem updOp_picks (s : State) (id : Nat) (f : PendingOp → PendingOp) : (s.updOp id f).picks = s.picks := rfl
@[simp] theorem updOp_together (s : State) (id : Nat) (f : PendingOp → PendingOp) : (s.updOp id f).together = s.together := rfl
@[simp] theorem updOp_fresh (s : State) (id : Nat) (f : PendingOp → PendingOp) : (s.updOp id f).fresh = s.fresh := rfl
@[simp] theorem updOp_nextId (s : State) (id : Nat) (f : PendingOp → PendingOp) : (s.updOp id f).nextId = s.nextId := rfl
@[simp] theorem updOp_time (s : State) (id : Nat) (f : PendingOp → PendingOp) : (s.updOp id f).time = s.time := rfl
@[simp] theorem updOp_halvings (s : State) (id : Nat) (f : PendingOp → PendingOp) : (s.updOp id f).halvings = s.halvings := rfl
@[simp] theorem updOp_pkg (s : State) (id : Nat) (f : PendingOp → PendingOp) : (s.updOp id f).pkg = s.pkg := rfl
@[simp] theorem updOp_mem (s : State) (id : Nat) (f : PendingOp → PendingOp) : (s.updOp id f).mem = s.mem := rfl
@[simp] theorem updOp_poison (s : State) (id : Nat) (f : PendingOp → PendingOp) : (s.updOp id f).poison = s.poison := rfl
@[simp] theorem updOp_keyed (s : State) (id : Nat) (f : PendingOp → PendingOp) : (s.updOp id f).keyed = s.keyed := rfl
@[simp] theorem updOp_damage (s : State) (id : Nat) (f : PendingOp → PendingOp) : (s.updOp id f).damage = s.damage := rfl
@[simp] theorem updOp_cleared (s : State) (id : Nat) (f : PendingOp → PendingOp) : (s.updOp id f).cleared = s.cleared := rfl
@[simp] theorem updOp_frames (s : State) (id : Nat) (f : PendingOp → PendingOp) : (s.updOp id f).frames = s.frames := rfl
@[simp] theorem updOp_granules (s : State) (id : Nat) (f : PendingOp → PendingOp) : (s.updOp id f).granules = s.granules := rfl
@[simp] theorem updOp_poolNews (s : State) (id : Nat) (f : PendingOp → PendingOp) : (s.updOp id f).poolNews = s.poolNews := rfl
@[simp] theorem updOp_l2 (s : State) (id : Nat) (f : PendingOp → PendingOp) : (s.updOp id f).l2 = s.l2 := rfl
@[simp] theorem updOp_l2tlb (s : State) (id : Nat) (f : PendingOp → PendingOp) : (s.updOp id f).l2tlb = s.l2tlb := rfl
@[simp] theorem updOp_cores (s : State) (id : Nat) (f : PendingOp → PendingOp) : (s.updOp id f).cores = s.cores := rfl
@[simp] theorem updOp_parts (s : State) (id : Nat) (f : PendingOp → PendingOp) : (s.updOp id f).parts = s.parts := rfl
@[simp] theorem updOp_wgs (s : State) (id : Nat) (f : PendingOp → PendingOp) : (s.updOp id f).wgs = s.wgs := rfl
@[simp] theorem updOp_groups (s : State) (id : Nat) (f : PendingOp → PendingOp) : (s.updOp id f).groups = s.groups := rfl
@[simp] theorem updOp_copies (s : State) (id : Nat) (f : PendingOp → PendingOp) : (s.updOp id f).copies = s.copies := rfl
@[simp] theorem updOp_rows (s : State) (id : Nat) (f : PendingOp → PendingOp) : (s.updOp id f).rows = s.rows := rfl
@[simp] theorem updOp_tiers (s : State) (id : Nat) (f : PendingOp → PendingOp) : (s.updOp id f).tiers = s.tiers := rfl
@[simp] theorem updOp_moves (s : State) (id : Nat) (f : PendingOp → PendingOp) : (s.updOp id f).moves = s.moves := rfl
@[simp] theorem updOp_due (s : State) (id : Nat) (f : PendingOp → PendingOp) : (s.updOp id f).due = s.due := rfl
@[simp] theorem updOp_refresh (s : State) (id : Nat) (f : PendingOp → PendingOp) : (s.updOp id f).refresh = s.refresh := rfl
@[simp] theorem updOp_activates (s : State) (id : Nat) (f : PendingOp → PendingOp) : (s.updOp id f).activates = s.activates := rfl
@[simp] theorem updOp_launches (s : State) (id : Nat) (f : PendingOp → PendingOp) : (s.updOp id f).launches = s.launches := rfl
@[simp] theorem updOp_reports (s : State) (id : Nat) (f : PendingOp → PendingOp) : (s.updOp id f).reports = s.reports := rfl
@[simp] theorem updOp_serviceReads (s : State) (id : Nat) (f : PendingOp → PendingOp) : (s.updOp id f).serviceReads = s.serviceReads := rfl
@[simp] theorem updOp_serviceStores (s : State) (id : Nat) (f : PendingOp → PendingOp) : (s.updOp id f).serviceStores = s.serviceStores := rfl
@[simp] theorem updOp_lifetime (s : State) (id : Nat) (f : PendingOp → PendingOp) : (s.updOp id f).lifetime = s.lifetime := rfl
@[simp] theorem updOp_flash (s : State) (id : Nat) (f : PendingOp → PendingOp) : (s.updOp id f).flash = s.flash := rfl
@[simp] theorem updOp_host (s : State) (id : Nat) (f : PendingOp → PendingOp) : (s.updOp id f).host = s.host := rfl

/-! ## State.dropOp -/

@[simp] theorem dropOp_agenda (s : State) (o : PendingOp) : (s.dropOp o).agenda = s.agenda := rfl
@[simp] theorem dropOp_picks (s : State) (o : PendingOp) : (s.dropOp o).picks = s.picks := rfl
@[simp] theorem dropOp_together (s : State) (o : PendingOp) : (s.dropOp o).together = s.together := rfl
@[simp] theorem dropOp_fresh (s : State) (o : PendingOp) : (s.dropOp o).fresh = s.fresh := rfl
@[simp] theorem dropOp_nextId (s : State) (o : PendingOp) : (s.dropOp o).nextId = s.nextId := rfl
@[simp] theorem dropOp_time (s : State) (o : PendingOp) : (s.dropOp o).time = s.time := rfl
@[simp] theorem dropOp_halvings (s : State) (o : PendingOp) : (s.dropOp o).halvings = s.halvings := rfl
@[simp] theorem dropOp_pkg (s : State) (o : PendingOp) : (s.dropOp o).pkg = s.pkg := rfl
@[simp] theorem dropOp_mem (s : State) (o : PendingOp) : (s.dropOp o).mem = s.mem := rfl
@[simp] theorem dropOp_poison (s : State) (o : PendingOp) : (s.dropOp o).poison = s.poison := rfl
@[simp] theorem dropOp_keyed (s : State) (o : PendingOp) : (s.dropOp o).keyed = s.keyed := rfl
@[simp] theorem dropOp_damage (s : State) (o : PendingOp) : (s.dropOp o).damage = s.damage := rfl
@[simp] theorem dropOp_cleared (s : State) (o : PendingOp) : (s.dropOp o).cleared = s.cleared := rfl
@[simp] theorem dropOp_frames (s : State) (o : PendingOp) : (s.dropOp o).frames = s.frames := rfl
@[simp] theorem dropOp_granules (s : State) (o : PendingOp) : (s.dropOp o).granules = s.granules := rfl
@[simp] theorem dropOp_poolNews (s : State) (o : PendingOp) : (s.dropOp o).poolNews = s.poolNews := rfl
@[simp] theorem dropOp_l2 (s : State) (o : PendingOp) : (s.dropOp o).l2 = s.l2 := rfl
@[simp] theorem dropOp_l2tlb (s : State) (o : PendingOp) : (s.dropOp o).l2tlb = s.l2tlb := rfl
@[simp] theorem dropOp_cores (s : State) (o : PendingOp) : (s.dropOp o).cores = s.cores := rfl
@[simp] theorem dropOp_parts (s : State) (o : PendingOp) : (s.dropOp o).parts = s.parts := rfl
@[simp] theorem dropOp_groups (s : State) (o : PendingOp) : (s.dropOp o).groups = s.groups := rfl
@[simp] theorem dropOp_copies (s : State) (o : PendingOp) : (s.dropOp o).copies = s.copies := rfl
@[simp] theorem dropOp_rows (s : State) (o : PendingOp) : (s.dropOp o).rows = s.rows := rfl
@[simp] theorem dropOp_tiers (s : State) (o : PendingOp) : (s.dropOp o).tiers = s.tiers := rfl
@[simp] theorem dropOp_moves (s : State) (o : PendingOp) : (s.dropOp o).moves = s.moves := rfl
@[simp] theorem dropOp_due (s : State) (o : PendingOp) : (s.dropOp o).due = s.due := rfl
@[simp] theorem dropOp_refresh (s : State) (o : PendingOp) : (s.dropOp o).refresh = s.refresh := rfl
@[simp] theorem dropOp_activates (s : State) (o : PendingOp) : (s.dropOp o).activates = s.activates := rfl
@[simp] theorem dropOp_launches (s : State) (o : PendingOp) : (s.dropOp o).launches = s.launches := rfl
@[simp] theorem dropOp_reports (s : State) (o : PendingOp) : (s.dropOp o).reports = s.reports := rfl
@[simp] theorem dropOp_serviceReads (s : State) (o : PendingOp) : (s.dropOp o).serviceReads = s.serviceReads := rfl
@[simp] theorem dropOp_serviceStores (s : State) (o : PendingOp) : (s.dropOp o).serviceStores = s.serviceStores := rfl
@[simp] theorem dropOp_lifetime (s : State) (o : PendingOp) : (s.dropOp o).lifetime = s.lifetime := rfl
@[simp] theorem dropOp_flash (s : State) (o : PendingOp) : (s.dropOp o).flash = s.flash := rfl
@[simp] theorem dropOp_host (s : State) (o : PendingOp) : (s.dropOp o).host = s.host := rfl

/-! ## State.applyLate -/

@[simp] theorem applyLate_agenda (s : State) : (s.applyLate).agenda = s.agenda := rfl
@[simp] theorem applyLate_picks (s : State) : (s.applyLate).picks = s.picks := rfl
@[simp] theorem applyLate_together (s : State) : (s.applyLate).together = s.together := rfl
@[simp] theorem applyLate_fresh (s : State) : (s.applyLate).fresh = s.fresh := rfl
@[simp] theorem applyLate_nextId (s : State) : (s.applyLate).nextId = s.nextId := rfl
@[simp] theorem applyLate_time (s : State) : (s.applyLate).time = s.time := rfl
@[simp] theorem applyLate_halvings (s : State) : (s.applyLate).halvings = s.halvings := rfl
@[simp] theorem applyLate_pkg (s : State) : (s.applyLate).pkg = s.pkg := rfl
@[simp] theorem applyLate_mem (s : State) : (s.applyLate).mem = s.mem := rfl
@[simp] theorem applyLate_poison (s : State) : (s.applyLate).poison = s.poison := rfl
@[simp] theorem applyLate_keyed (s : State) : (s.applyLate).keyed = s.keyed := rfl
@[simp] theorem applyLate_damage (s : State) : (s.applyLate).damage = s.damage := rfl
@[simp] theorem applyLate_cleared (s : State) : (s.applyLate).cleared = s.cleared := rfl
@[simp] theorem applyLate_frames (s : State) : (s.applyLate).frames = s.frames := rfl
@[simp] theorem applyLate_granules (s : State) : (s.applyLate).granules = s.granules := rfl
@[simp] theorem applyLate_poolNews (s : State) : (s.applyLate).poolNews = s.poolNews := rfl
@[simp] theorem applyLate_l2 (s : State) : (s.applyLate).l2 = s.l2 := rfl
@[simp] theorem applyLate_l2tlb (s : State) : (s.applyLate).l2tlb = s.l2tlb := rfl
@[simp] theorem applyLate_cores (s : State) : (s.applyLate).cores = s.cores := rfl
@[simp] theorem applyLate_parts (s : State) : (s.applyLate).parts = s.parts := rfl
@[simp] theorem applyLate_groups (s : State) : (s.applyLate).groups = s.groups := rfl
@[simp] theorem applyLate_ops (s : State) : (s.applyLate).ops = s.ops := rfl
@[simp] theorem applyLate_copies (s : State) : (s.applyLate).copies = s.copies := rfl
@[simp] theorem applyLate_rows (s : State) : (s.applyLate).rows = s.rows := rfl
@[simp] theorem applyLate_tiers (s : State) : (s.applyLate).tiers = s.tiers := rfl
@[simp] theorem applyLate_moves (s : State) : (s.applyLate).moves = s.moves := rfl
@[simp] theorem applyLate_due (s : State) : (s.applyLate).due = s.due := rfl
@[simp] theorem applyLate_refresh (s : State) : (s.applyLate).refresh = s.refresh := rfl
@[simp] theorem applyLate_activates (s : State) : (s.applyLate).activates = s.activates := rfl
@[simp] theorem applyLate_launches (s : State) : (s.applyLate).launches = s.launches := rfl
@[simp] theorem applyLate_reports (s : State) : (s.applyLate).reports = s.reports := rfl
@[simp] theorem applyLate_serviceReads (s : State) : (s.applyLate).serviceReads = s.serviceReads := rfl
@[simp] theorem applyLate_serviceStores (s : State) : (s.applyLate).serviceStores = s.serviceStores := rfl
@[simp] theorem applyLate_lifetime (s : State) : (s.applyLate).lifetime = s.lifetime := rfl
@[simp] theorem applyLate_flash (s : State) : (s.applyLate).flash = s.flash := rfl
@[simp] theorem applyLate_host (s : State) : (s.applyLate).host = s.host := rfl

/-! ## State.advance -/

@[simp] theorem advance_agenda (s : State) (g : Group) : (s.advance g).agenda = s.agenda := rfl
@[simp] theorem advance_together (s : State) (g : Group) : (s.advance g).together = s.together := rfl
@[simp] theorem advance_fresh (s : State) (g : Group) : (s.advance g).fresh = s.fresh := rfl
@[simp] theorem advance_nextId (s : State) (g : Group) : (s.advance g).nextId = s.nextId := rfl
@[simp] theorem advance_time (s : State) (g : Group) : (s.advance g).time = s.time := rfl
@[simp] theorem advance_halvings (s : State) (g : Group) : (s.advance g).halvings = s.halvings := rfl
@[simp] theorem advance_pkg (s : State) (g : Group) : (s.advance g).pkg = s.pkg := rfl
@[simp] theorem advance_mem (s : State) (g : Group) : (s.advance g).mem = s.mem := rfl
@[simp] theorem advance_poison (s : State) (g : Group) : (s.advance g).poison = s.poison := rfl
@[simp] theorem advance_keyed (s : State) (g : Group) : (s.advance g).keyed = s.keyed := rfl
@[simp] theorem advance_damage (s : State) (g : Group) : (s.advance g).damage = s.damage := rfl
@[simp] theorem advance_cleared (s : State) (g : Group) : (s.advance g).cleared = s.cleared := rfl
@[simp] theorem advance_frames (s : State) (g : Group) : (s.advance g).frames = s.frames := rfl
@[simp] theorem advance_granules (s : State) (g : Group) : (s.advance g).granules = s.granules := rfl
@[simp] theorem advance_poolNews (s : State) (g : Group) : (s.advance g).poolNews = s.poolNews := rfl
@[simp] theorem advance_l2 (s : State) (g : Group) : (s.advance g).l2 = s.l2 := rfl
@[simp] theorem advance_l2tlb (s : State) (g : Group) : (s.advance g).l2tlb = s.l2tlb := rfl
@[simp] theorem advance_cores (s : State) (g : Group) : (s.advance g).cores = s.cores := rfl
@[simp] theorem advance_parts (s : State) (g : Group) : (s.advance g).parts = s.parts := rfl
@[simp] theorem advance_ops (s : State) (g : Group) : (s.advance g).ops = s.ops := rfl
@[simp] theorem advance_copies (s : State) (g : Group) : (s.advance g).copies = s.copies := rfl
@[simp] theorem advance_rows (s : State) (g : Group) : (s.advance g).rows = s.rows := rfl
@[simp] theorem advance_tiers (s : State) (g : Group) : (s.advance g).tiers = s.tiers := rfl
@[simp] theorem advance_moves (s : State) (g : Group) : (s.advance g).moves = s.moves := rfl
@[simp] theorem advance_due (s : State) (g : Group) : (s.advance g).due = s.due := rfl
@[simp] theorem advance_refresh (s : State) (g : Group) : (s.advance g).refresh = s.refresh := rfl
@[simp] theorem advance_activates (s : State) (g : Group) : (s.advance g).activates = s.activates := rfl
@[simp] theorem advance_launches (s : State) (g : Group) : (s.advance g).launches = s.launches := rfl
@[simp] theorem advance_reports (s : State) (g : Group) : (s.advance g).reports = s.reports := rfl
@[simp] theorem advance_serviceReads (s : State) (g : Group) : (s.advance g).serviceReads = s.serviceReads := rfl
@[simp] theorem advance_serviceStores (s : State) (g : Group) : (s.advance g).serviceStores = s.serviceStores := rfl
@[simp] theorem advance_lifetime (s : State) (g : Group) : (s.advance g).lifetime = s.lifetime := rfl
@[simp] theorem advance_flash (s : State) (g : Group) : (s.advance g).flash = s.flash := rfl
@[simp] theorem advance_host (s : State) (g : Group) : (s.advance g).host = s.host := rfl

/-! ## State.holdGroup -/

@[simp] theorem holdGroup_agenda (s : State) (g : Group) : (s.holdGroup g).agenda = s.agenda := rfl
@[simp] theorem holdGroup_together (s : State) (g : Group) : (s.holdGroup g).together = s.together := rfl
@[simp] theorem holdGroup_fresh (s : State) (g : Group) : (s.holdGroup g).fresh = s.fresh := rfl
@[simp] theorem holdGroup_nextId (s : State) (g : Group) : (s.holdGroup g).nextId = s.nextId := rfl
@[simp] theorem holdGroup_time (s : State) (g : Group) : (s.holdGroup g).time = s.time := rfl
@[simp] theorem holdGroup_halvings (s : State) (g : Group) : (s.holdGroup g).halvings = s.halvings := rfl
@[simp] theorem holdGroup_pkg (s : State) (g : Group) : (s.holdGroup g).pkg = s.pkg := rfl
@[simp] theorem holdGroup_mem (s : State) (g : Group) : (s.holdGroup g).mem = s.mem := rfl
@[simp] theorem holdGroup_poison (s : State) (g : Group) : (s.holdGroup g).poison = s.poison := rfl
@[simp] theorem holdGroup_keyed (s : State) (g : Group) : (s.holdGroup g).keyed = s.keyed := rfl
@[simp] theorem holdGroup_damage (s : State) (g : Group) : (s.holdGroup g).damage = s.damage := rfl
@[simp] theorem holdGroup_cleared (s : State) (g : Group) : (s.holdGroup g).cleared = s.cleared := rfl
@[simp] theorem holdGroup_frames (s : State) (g : Group) : (s.holdGroup g).frames = s.frames := rfl
@[simp] theorem holdGroup_granules (s : State) (g : Group) : (s.holdGroup g).granules = s.granules := rfl
@[simp] theorem holdGroup_poolNews (s : State) (g : Group) : (s.holdGroup g).poolNews = s.poolNews := rfl
@[simp] theorem holdGroup_l2 (s : State) (g : Group) : (s.holdGroup g).l2 = s.l2 := rfl
@[simp] theorem holdGroup_l2tlb (s : State) (g : Group) : (s.holdGroup g).l2tlb = s.l2tlb := rfl
@[simp] theorem holdGroup_cores (s : State) (g : Group) : (s.holdGroup g).cores = s.cores := rfl
@[simp] theorem holdGroup_parts (s : State) (g : Group) : (s.holdGroup g).parts = s.parts := rfl
@[simp] theorem holdGroup_wgs (s : State) (g : Group) : (s.holdGroup g).wgs = s.wgs := rfl
@[simp] theorem holdGroup_ops (s : State) (g : Group) : (s.holdGroup g).ops = s.ops := rfl
@[simp] theorem holdGroup_copies (s : State) (g : Group) : (s.holdGroup g).copies = s.copies := rfl
@[simp] theorem holdGroup_rows (s : State) (g : Group) : (s.holdGroup g).rows = s.rows := rfl
@[simp] theorem holdGroup_tiers (s : State) (g : Group) : (s.holdGroup g).tiers = s.tiers := rfl
@[simp] theorem holdGroup_moves (s : State) (g : Group) : (s.holdGroup g).moves = s.moves := rfl
@[simp] theorem holdGroup_due (s : State) (g : Group) : (s.holdGroup g).due = s.due := rfl
@[simp] theorem holdGroup_refresh (s : State) (g : Group) : (s.holdGroup g).refresh = s.refresh := rfl
@[simp] theorem holdGroup_activates (s : State) (g : Group) : (s.holdGroup g).activates = s.activates := rfl
@[simp] theorem holdGroup_launches (s : State) (g : Group) : (s.holdGroup g).launches = s.launches := rfl
@[simp] theorem holdGroup_reports (s : State) (g : Group) : (s.holdGroup g).reports = s.reports := rfl
@[simp] theorem holdGroup_serviceReads (s : State) (g : Group) : (s.holdGroup g).serviceReads = s.serviceReads := rfl
@[simp] theorem holdGroup_serviceStores (s : State) (g : Group) : (s.holdGroup g).serviceStores = s.serviceStores := rfl
@[simp] theorem holdGroup_lifetime (s : State) (g : Group) : (s.holdGroup g).lifetime = s.lifetime := rfl
@[simp] theorem holdGroup_flash (s : State) (g : Group) : (s.holdGroup g).flash = s.flash := rfl
@[simp] theorem holdGroup_host (s : State) (g : Group) : (s.holdGroup g).host = s.host := rfl

/-! ## State.endClause -/

@[simp] theorem endClause_agenda (s : State) (g : Group) : (s.endClause g).agenda = s.agenda := rfl
@[simp] theorem endClause_picks (s : State) (g : Group) : (s.endClause g).picks = s.picks := rfl
@[simp] theorem endClause_together (s : State) (g : Group) : (s.endClause g).together = s.together := rfl
@[simp] theorem endClause_fresh (s : State) (g : Group) : (s.endClause g).fresh = s.fresh := rfl
@[simp] theorem endClause_nextId (s : State) (g : Group) : (s.endClause g).nextId = s.nextId := rfl
@[simp] theorem endClause_time (s : State) (g : Group) : (s.endClause g).time = s.time := rfl
@[simp] theorem endClause_halvings (s : State) (g : Group) : (s.endClause g).halvings = s.halvings := rfl
@[simp] theorem endClause_pkg (s : State) (g : Group) : (s.endClause g).pkg = s.pkg := rfl
@[simp] theorem endClause_mem (s : State) (g : Group) : (s.endClause g).mem = s.mem := rfl
@[simp] theorem endClause_poison (s : State) (g : Group) : (s.endClause g).poison = s.poison := rfl
@[simp] theorem endClause_keyed (s : State) (g : Group) : (s.endClause g).keyed = s.keyed := rfl
@[simp] theorem endClause_damage (s : State) (g : Group) : (s.endClause g).damage = s.damage := rfl
@[simp] theorem endClause_cleared (s : State) (g : Group) : (s.endClause g).cleared = s.cleared := rfl
@[simp] theorem endClause_frames (s : State) (g : Group) : (s.endClause g).frames = s.frames := rfl
@[simp] theorem endClause_granules (s : State) (g : Group) : (s.endClause g).granules = s.granules := rfl
@[simp] theorem endClause_poolNews (s : State) (g : Group) : (s.endClause g).poolNews = s.poolNews := rfl
@[simp] theorem endClause_l2 (s : State) (g : Group) : (s.endClause g).l2 = s.l2 := rfl
@[simp] theorem endClause_l2tlb (s : State) (g : Group) : (s.endClause g).l2tlb = s.l2tlb := rfl
@[simp] theorem endClause_cores (s : State) (g : Group) : (s.endClause g).cores = s.cores := rfl
@[simp] theorem endClause_parts (s : State) (g : Group) : (s.endClause g).parts = s.parts := rfl
@[simp] theorem endClause_ops (s : State) (g : Group) : (s.endClause g).ops = s.ops := rfl
@[simp] theorem endClause_copies (s : State) (g : Group) : (s.endClause g).copies = s.copies := rfl
@[simp] theorem endClause_rows (s : State) (g : Group) : (s.endClause g).rows = s.rows := rfl
@[simp] theorem endClause_tiers (s : State) (g : Group) : (s.endClause g).tiers = s.tiers := rfl
@[simp] theorem endClause_moves (s : State) (g : Group) : (s.endClause g).moves = s.moves := rfl
@[simp] theorem endClause_due (s : State) (g : Group) : (s.endClause g).due = s.due := rfl
@[simp] theorem endClause_refresh (s : State) (g : Group) : (s.endClause g).refresh = s.refresh := rfl
@[simp] theorem endClause_activates (s : State) (g : Group) : (s.endClause g).activates = s.activates := rfl
@[simp] theorem endClause_launches (s : State) (g : Group) : (s.endClause g).launches = s.launches := rfl
@[simp] theorem endClause_reports (s : State) (g : Group) : (s.endClause g).reports = s.reports := rfl
@[simp] theorem endClause_serviceReads (s : State) (g : Group) : (s.endClause g).serviceReads = s.serviceReads := rfl
@[simp] theorem endClause_serviceStores (s : State) (g : Group) : (s.endClause g).serviceStores = s.serviceStores := rfl
@[simp] theorem endClause_lifetime (s : State) (g : Group) : (s.endClause g).lifetime = s.lifetime := rfl
@[simp] theorem endClause_flash (s : State) (g : Group) : (s.endClause g).flash = s.flash := rfl
@[simp] theorem endClause_host (s : State) (g : Group) : (s.endClause g).host = s.host := rfl

/-! ## State.wakeGroups -/

@[simp] theorem wakeGroups_agenda (s : State) : (s.wakeGroups).agenda = s.agenda := rfl
@[simp] theorem wakeGroups_picks (s : State) : (s.wakeGroups).picks = s.picks := rfl
@[simp] theorem wakeGroups_together (s : State) : (s.wakeGroups).together = s.together := rfl
@[simp] theorem wakeGroups_fresh (s : State) : (s.wakeGroups).fresh = s.fresh := rfl
@[simp] theorem wakeGroups_nextId (s : State) : (s.wakeGroups).nextId = s.nextId := rfl
@[simp] theorem wakeGroups_time (s : State) : (s.wakeGroups).time = s.time := rfl
@[simp] theorem wakeGroups_halvings (s : State) : (s.wakeGroups).halvings = s.halvings := rfl
@[simp] theorem wakeGroups_pkg (s : State) : (s.wakeGroups).pkg = s.pkg := rfl
@[simp] theorem wakeGroups_mem (s : State) : (s.wakeGroups).mem = s.mem := rfl
@[simp] theorem wakeGroups_poison (s : State) : (s.wakeGroups).poison = s.poison := rfl
@[simp] theorem wakeGroups_keyed (s : State) : (s.wakeGroups).keyed = s.keyed := rfl
@[simp] theorem wakeGroups_damage (s : State) : (s.wakeGroups).damage = s.damage := rfl
@[simp] theorem wakeGroups_cleared (s : State) : (s.wakeGroups).cleared = s.cleared := rfl
@[simp] theorem wakeGroups_frames (s : State) : (s.wakeGroups).frames = s.frames := rfl
@[simp] theorem wakeGroups_granules (s : State) : (s.wakeGroups).granules = s.granules := rfl
@[simp] theorem wakeGroups_poolNews (s : State) : (s.wakeGroups).poolNews = s.poolNews := rfl
@[simp] theorem wakeGroups_l2 (s : State) : (s.wakeGroups).l2 = s.l2 := rfl
@[simp] theorem wakeGroups_l2tlb (s : State) : (s.wakeGroups).l2tlb = s.l2tlb := rfl
@[simp] theorem wakeGroups_cores (s : State) : (s.wakeGroups).cores = s.cores := rfl
@[simp] theorem wakeGroups_parts (s : State) : (s.wakeGroups).parts = s.parts := rfl
@[simp] theorem wakeGroups_wgs (s : State) : (s.wakeGroups).wgs = s.wgs := rfl
@[simp] theorem wakeGroups_ops (s : State) : (s.wakeGroups).ops = s.ops := rfl
@[simp] theorem wakeGroups_copies (s : State) : (s.wakeGroups).copies = s.copies := rfl
@[simp] theorem wakeGroups_rows (s : State) : (s.wakeGroups).rows = s.rows := rfl
@[simp] theorem wakeGroups_tiers (s : State) : (s.wakeGroups).tiers = s.tiers := rfl
@[simp] theorem wakeGroups_moves (s : State) : (s.wakeGroups).moves = s.moves := rfl
@[simp] theorem wakeGroups_due (s : State) : (s.wakeGroups).due = s.due := rfl
@[simp] theorem wakeGroups_refresh (s : State) : (s.wakeGroups).refresh = s.refresh := rfl
@[simp] theorem wakeGroups_activates (s : State) : (s.wakeGroups).activates = s.activates := rfl
@[simp] theorem wakeGroups_launches (s : State) : (s.wakeGroups).launches = s.launches := rfl
@[simp] theorem wakeGroups_reports (s : State) : (s.wakeGroups).reports = s.reports := rfl
@[simp] theorem wakeGroups_serviceReads (s : State) : (s.wakeGroups).serviceReads = s.serviceReads := rfl
@[simp] theorem wakeGroups_serviceStores (s : State) : (s.wakeGroups).serviceStores = s.serviceStores := rfl
@[simp] theorem wakeGroups_lifetime (s : State) : (s.wakeGroups).lifetime = s.lifetime := rfl
@[simp] theorem wakeGroups_flash (s : State) : (s.wakeGroups).flash = s.flash := rfl
@[simp] theorem wakeGroups_host (s : State) : (s.wakeGroups).host = s.host := rfl

/-! ## State.addOp -/

@[simp] theorem addOp_agenda (s : State) (g : Group) (r : TRef) (fs : Option Bool) (word : Nat) (kind : OpKind)
    (dst ndst : Nat) : (s.addOp g r fs word kind dst ndst).agenda = s.agenda := rfl
@[simp] theorem addOp_picks (s : State) (g : Group) (r : TRef) (fs : Option Bool) (word : Nat) (kind : OpKind)
    (dst ndst : Nat) : (s.addOp g r fs word kind dst ndst).picks = s.picks := rfl
@[simp] theorem addOp_together (s : State) (g : Group) (r : TRef) (fs : Option Bool) (word : Nat) (kind : OpKind)
    (dst ndst : Nat) : (s.addOp g r fs word kind dst ndst).together = s.together := rfl
@[simp] theorem addOp_fresh (s : State) (g : Group) (r : TRef) (fs : Option Bool) (word : Nat) (kind : OpKind)
    (dst ndst : Nat) : (s.addOp g r fs word kind dst ndst).fresh = s.fresh := rfl
@[simp] theorem addOp_time (s : State) (g : Group) (r : TRef) (fs : Option Bool) (word : Nat) (kind : OpKind)
    (dst ndst : Nat) : (s.addOp g r fs word kind dst ndst).time = s.time := rfl
@[simp] theorem addOp_halvings (s : State) (g : Group) (r : TRef) (fs : Option Bool) (word : Nat) (kind : OpKind)
    (dst ndst : Nat) : (s.addOp g r fs word kind dst ndst).halvings = s.halvings := rfl
@[simp] theorem addOp_pkg (s : State) (g : Group) (r : TRef) (fs : Option Bool) (word : Nat) (kind : OpKind)
    (dst ndst : Nat) : (s.addOp g r fs word kind dst ndst).pkg = s.pkg := rfl
@[simp] theorem addOp_mem (s : State) (g : Group) (r : TRef) (fs : Option Bool) (word : Nat) (kind : OpKind)
    (dst ndst : Nat) : (s.addOp g r fs word kind dst ndst).mem = s.mem := rfl
@[simp] theorem addOp_poison (s : State) (g : Group) (r : TRef) (fs : Option Bool) (word : Nat) (kind : OpKind)
    (dst ndst : Nat) : (s.addOp g r fs word kind dst ndst).poison = s.poison := rfl
@[simp] theorem addOp_keyed (s : State) (g : Group) (r : TRef) (fs : Option Bool) (word : Nat) (kind : OpKind)
    (dst ndst : Nat) : (s.addOp g r fs word kind dst ndst).keyed = s.keyed := rfl
@[simp] theorem addOp_damage (s : State) (g : Group) (r : TRef) (fs : Option Bool) (word : Nat) (kind : OpKind)
    (dst ndst : Nat) : (s.addOp g r fs word kind dst ndst).damage = s.damage := rfl
@[simp] theorem addOp_cleared (s : State) (g : Group) (r : TRef) (fs : Option Bool) (word : Nat) (kind : OpKind)
    (dst ndst : Nat) : (s.addOp g r fs word kind dst ndst).cleared = s.cleared := rfl
@[simp] theorem addOp_frames (s : State) (g : Group) (r : TRef) (fs : Option Bool) (word : Nat) (kind : OpKind)
    (dst ndst : Nat) : (s.addOp g r fs word kind dst ndst).frames = s.frames := rfl
@[simp] theorem addOp_granules (s : State) (g : Group) (r : TRef) (fs : Option Bool) (word : Nat) (kind : OpKind)
    (dst ndst : Nat) : (s.addOp g r fs word kind dst ndst).granules = s.granules := rfl
@[simp] theorem addOp_poolNews (s : State) (g : Group) (r : TRef) (fs : Option Bool) (word : Nat) (kind : OpKind)
    (dst ndst : Nat) : (s.addOp g r fs word kind dst ndst).poolNews = s.poolNews := rfl
@[simp] theorem addOp_l2 (s : State) (g : Group) (r : TRef) (fs : Option Bool) (word : Nat) (kind : OpKind)
    (dst ndst : Nat) : (s.addOp g r fs word kind dst ndst).l2 = s.l2 := rfl
@[simp] theorem addOp_l2tlb (s : State) (g : Group) (r : TRef) (fs : Option Bool) (word : Nat) (kind : OpKind)
    (dst ndst : Nat) : (s.addOp g r fs word kind dst ndst).l2tlb = s.l2tlb := rfl
@[simp] theorem addOp_cores (s : State) (g : Group) (r : TRef) (fs : Option Bool) (word : Nat) (kind : OpKind)
    (dst ndst : Nat) : (s.addOp g r fs word kind dst ndst).cores = s.cores := rfl
@[simp] theorem addOp_parts (s : State) (g : Group) (r : TRef) (fs : Option Bool) (word : Nat) (kind : OpKind)
    (dst ndst : Nat) : (s.addOp g r fs word kind dst ndst).parts = s.parts := rfl
@[simp] theorem addOp_groups (s : State) (g : Group) (r : TRef) (fs : Option Bool) (word : Nat) (kind : OpKind)
    (dst ndst : Nat) : (s.addOp g r fs word kind dst ndst).groups = s.groups := rfl
@[simp] theorem addOp_copies (s : State) (g : Group) (r : TRef) (fs : Option Bool) (word : Nat) (kind : OpKind)
    (dst ndst : Nat) : (s.addOp g r fs word kind dst ndst).copies = s.copies := rfl
@[simp] theorem addOp_rows (s : State) (g : Group) (r : TRef) (fs : Option Bool) (word : Nat) (kind : OpKind)
    (dst ndst : Nat) : (s.addOp g r fs word kind dst ndst).rows = s.rows := rfl
@[simp] theorem addOp_tiers (s : State) (g : Group) (r : TRef) (fs : Option Bool) (word : Nat) (kind : OpKind)
    (dst ndst : Nat) : (s.addOp g r fs word kind dst ndst).tiers = s.tiers := rfl
@[simp] theorem addOp_moves (s : State) (g : Group) (r : TRef) (fs : Option Bool) (word : Nat) (kind : OpKind)
    (dst ndst : Nat) : (s.addOp g r fs word kind dst ndst).moves = s.moves := rfl
@[simp] theorem addOp_due (s : State) (g : Group) (r : TRef) (fs : Option Bool) (word : Nat) (kind : OpKind)
    (dst ndst : Nat) : (s.addOp g r fs word kind dst ndst).due = s.due := rfl
@[simp] theorem addOp_refresh (s : State) (g : Group) (r : TRef) (fs : Option Bool) (word : Nat) (kind : OpKind)
    (dst ndst : Nat) : (s.addOp g r fs word kind dst ndst).refresh = s.refresh := rfl
@[simp] theorem addOp_activates (s : State) (g : Group) (r : TRef) (fs : Option Bool) (word : Nat) (kind : OpKind)
    (dst ndst : Nat) : (s.addOp g r fs word kind dst ndst).activates = s.activates := rfl
@[simp] theorem addOp_launches (s : State) (g : Group) (r : TRef) (fs : Option Bool) (word : Nat) (kind : OpKind)
    (dst ndst : Nat) : (s.addOp g r fs word kind dst ndst).launches = s.launches := rfl
@[simp] theorem addOp_reports (s : State) (g : Group) (r : TRef) (fs : Option Bool) (word : Nat) (kind : OpKind)
    (dst ndst : Nat) : (s.addOp g r fs word kind dst ndst).reports = s.reports := rfl
@[simp] theorem addOp_serviceReads (s : State) (g : Group) (r : TRef) (fs : Option Bool) (word : Nat) (kind : OpKind)
    (dst ndst : Nat) : (s.addOp g r fs word kind dst ndst).serviceReads = s.serviceReads := rfl
@[simp] theorem addOp_serviceStores (s : State) (g : Group) (r : TRef) (fs : Option Bool) (word : Nat) (kind : OpKind)
    (dst ndst : Nat) : (s.addOp g r fs word kind dst ndst).serviceStores = s.serviceStores := rfl
@[simp] theorem addOp_lifetime (s : State) (g : Group) (r : TRef) (fs : Option Bool) (word : Nat) (kind : OpKind)
    (dst ndst : Nat) : (s.addOp g r fs word kind dst ndst).lifetime = s.lifetime := rfl
@[simp] theorem addOp_flash (s : State) (g : Group) (r : TRef) (fs : Option Bool) (word : Nat) (kind : OpKind)
    (dst ndst : Nat) : (s.addOp g r fs word kind dst ndst).flash = s.flash := rfl
@[simp] theorem addOp_host (s : State) (g : Group) (r : TRef) (fs : Option Bool) (word : Nat) (kind : OpKind)
    (dst ndst : Nat) : (s.addOp g r fs word kind dst ndst).host = s.host := rfl

/-! ## Thread.setReg -/

@[simp] theorem setReg_warp (t : Thread) (n : Nat) (x : Word) : (t.setReg n x).warp = t.warp := rfl
@[simp] theorem setReg_lane (t : Thread) (n : Nat) (x : Word) : (t.setReg n x).lane = t.lane := rfl
@[simp] theorem setReg_pc (t : Thread) (n : Nat) (x : Word) : (t.setReg n x).pc = t.pc := rfl
@[simp] theorem setReg_mid (t : Thread) (n : Nat) (x : Word) : (t.setReg n x).mid = t.mid := rfl
@[simp] theorem setReg_depth (t : Thread) (n : Nat) (x : Word) : (t.setReg n x).depth = t.depth := rfl
@[simp] theorem setReg_p (t : Thread) (n : Nat) (x : Word) : (t.setReg n x).p = t.p := rfl
@[simp] theorem setReg_flags (t : Thread) (n : Nat) (x : Word) : (t.setReg n x).flags = t.flags := rfl
@[simp] theorem setReg_fpstat (t : Thread) (n : Nat) (x : Word) : (t.setReg n x).fpstat = t.fpstat := rfl
@[simp] theorem setReg_status (t : Thread) (n : Nat) (x : Word) : (t.setReg n x).status = t.status := rfl
@[simp] theorem setReg_group (t : Thread) (n : Nat) (x : Word) : (t.setReg n x).group = t.group := rfl
@[simp] theorem setReg_hold (t : Thread) (n : Nat) (x : Word) : (t.setReg n x).hold = t.hold := rfl
@[simp] theorem setReg_watch (t : Thread) (n : Nat) (x : Word) : (t.setReg n x).watch = t.watch := rfl
@[simp] theorem setReg_yieldMark (t : Thread) (n : Nat) (x : Word) : (t.setReg n x).yieldMark = t.yieldMark := rfl
@[simp] theorem setReg_readyAt (t : Thread) (n : Nat) (x : Word) : (t.setReg n x).readyAt = t.readyAt := rfl
@[simp] theorem setReg_unready (t : Thread) (n : Nat) (x : Word) : (t.setReg n x).unready = t.unready := rfl
@[simp] theorem setReg_collSince (t : Thread) (n : Nat) (x : Word) : (t.setReg n x).collSince = t.collSince := rfl
@[simp] theorem setReg_sgw (t : Thread) (n : Nat) (x : Word) : (t.setReg n x).sgw = t.sgw := rfl
@[simp] theorem setReg_fcode (t : Thread) (n : Nat) (x : Word) : (t.setReg n x).fcode = t.fcode := rfl
@[simp] theorem setReg_fpc (t : Thread) (n : Nat) (x : Word) : (t.setReg n x).fpc = t.fpc := rfl
@[simp] theorem setReg_faddr (t : Thread) (n : Nat) (x : Word) : (t.setReg n x).faddr = t.faddr := rfl
@[simp] theorem setReg_finfo (t : Thread) (n : Nat) (x : Word) : (t.setReg n x).finfo = t.finfo := rfl
@[simp] theorem setReg_fgen (t : Thread) (n : Nat) (x : Word) : (t.setReg n x).fgen = t.fgen := rfl
@[simp] theorem setReg_raised (t : Thread) (n : Nat) (x : Word) : (t.setReg n x).raised = t.raised := rfl
@[simp] theorem setReg_forder (t : Thread) (n : Nat) (x : Word) : (t.setReg n x).forder = t.forder := rfl
@[simp] theorem setReg_site (t : Thread) (n : Nat) (x : Word) : (t.setReg n x).site = t.site := rfl
@[simp] theorem setReg_siteSgw (t : Thread) (n : Nat) (x : Word) : (t.setReg n x).siteSgw = t.siteSgw := rfl
@[simp] theorem setReg_entry (t : Thread) (n : Nat) (x : Word) : (t.setReg n x).entry = t.entry := rfl
@[simp] theorem setReg_tpc (t : Thread) (n : Nat) (x : Word) : (t.setReg n x).tpc = t.tpc := rfl
@[simp] theorem setReg_tnext (t : Thread) (n : Nat) (x : Word) : (t.setReg n x).tnext = t.tnext := rfl
@[simp] theorem setReg_inh (t : Thread) (n : Nat) (x : Word) : (t.setReg n x).inh = t.inh := rfl
@[simp] theorem setReg_watchdog (t : Thread) (n : Nat) (x : Word) : (t.setReg n x).watchdog = t.watchdog := rfl
@[simp] theorem setReg_kept (t : Thread) (n : Nat) (x : Word) : (t.setReg n x).kept = t.kept := rfl
@[simp] theorem setReg_restart (t : Thread) (n : Nat) (x : Word) : (t.setReg n x).restart = t.restart := rfl
@[simp] theorem setReg_taint (t : Thread) (n : Nat) (x : Word) : (t.setReg n x).taint = t.taint := rfl
@[simp] theorem setReg_products (t : Thread) (n : Nat) (x : Word) : (t.setReg n x).products = t.products := rfl
@[simp] theorem setReg_fcall (t : Thread) (n : Nat) (x : Word) : (t.setReg n x).fcall = t.fcall := rfl
@[simp] theorem setReg_late (t : Thread) (n : Nat) (x : Word) : (t.setReg n x).late = t.late := rfl

/-! ## Thread.orFpstat -/

@[simp] theorem orFpstat_warp (t : Thread) (b : BitVec 5) : (t.orFpstat b).warp = t.warp := rfl
@[simp] theorem orFpstat_lane (t : Thread) (b : BitVec 5) : (t.orFpstat b).lane = t.lane := rfl
@[simp] theorem orFpstat_pc (t : Thread) (b : BitVec 5) : (t.orFpstat b).pc = t.pc := rfl
@[simp] theorem orFpstat_mid (t : Thread) (b : BitVec 5) : (t.orFpstat b).mid = t.mid := rfl
@[simp] theorem orFpstat_depth (t : Thread) (b : BitVec 5) : (t.orFpstat b).depth = t.depth := rfl
@[simp] theorem orFpstat_v (t : Thread) (b : BitVec 5) : (t.orFpstat b).v = t.v := rfl
@[simp] theorem orFpstat_writes (t : Thread) (b : BitVec 5) : (t.orFpstat b).writes = t.writes := rfl
@[simp] theorem orFpstat_cold (t : Thread) (b : BitVec 5) : (t.orFpstat b).cold = t.cold := rfl
@[simp] theorem orFpstat_p (t : Thread) (b : BitVec 5) : (t.orFpstat b).p = t.p := rfl
@[simp] theorem orFpstat_flags (t : Thread) (b : BitVec 5) : (t.orFpstat b).flags = t.flags := rfl
@[simp] theorem orFpstat_status (t : Thread) (b : BitVec 5) : (t.orFpstat b).status = t.status := rfl
@[simp] theorem orFpstat_group (t : Thread) (b : BitVec 5) : (t.orFpstat b).group = t.group := rfl
@[simp] theorem orFpstat_hold (t : Thread) (b : BitVec 5) : (t.orFpstat b).hold = t.hold := rfl
@[simp] theorem orFpstat_watch (t : Thread) (b : BitVec 5) : (t.orFpstat b).watch = t.watch := rfl
@[simp] theorem orFpstat_yieldMark (t : Thread) (b : BitVec 5) : (t.orFpstat b).yieldMark = t.yieldMark := rfl
@[simp] theorem orFpstat_readyAt (t : Thread) (b : BitVec 5) : (t.orFpstat b).readyAt = t.readyAt := rfl
@[simp] theorem orFpstat_unready (t : Thread) (b : BitVec 5) : (t.orFpstat b).unready = t.unready := rfl
@[simp] theorem orFpstat_collSince (t : Thread) (b : BitVec 5) : (t.orFpstat b).collSince = t.collSince := rfl
@[simp] theorem orFpstat_sgw (t : Thread) (b : BitVec 5) : (t.orFpstat b).sgw = t.sgw := rfl
@[simp] theorem orFpstat_fcode (t : Thread) (b : BitVec 5) : (t.orFpstat b).fcode = t.fcode := rfl
@[simp] theorem orFpstat_fpc (t : Thread) (b : BitVec 5) : (t.orFpstat b).fpc = t.fpc := rfl
@[simp] theorem orFpstat_faddr (t : Thread) (b : BitVec 5) : (t.orFpstat b).faddr = t.faddr := rfl
@[simp] theorem orFpstat_finfo (t : Thread) (b : BitVec 5) : (t.orFpstat b).finfo = t.finfo := rfl
@[simp] theorem orFpstat_fgen (t : Thread) (b : BitVec 5) : (t.orFpstat b).fgen = t.fgen := rfl
@[simp] theorem orFpstat_raised (t : Thread) (b : BitVec 5) : (t.orFpstat b).raised = t.raised := rfl
@[simp] theorem orFpstat_forder (t : Thread) (b : BitVec 5) : (t.orFpstat b).forder = t.forder := rfl
@[simp] theorem orFpstat_site (t : Thread) (b : BitVec 5) : (t.orFpstat b).site = t.site := rfl
@[simp] theorem orFpstat_siteSgw (t : Thread) (b : BitVec 5) : (t.orFpstat b).siteSgw = t.siteSgw := rfl
@[simp] theorem orFpstat_entry (t : Thread) (b : BitVec 5) : (t.orFpstat b).entry = t.entry := rfl
@[simp] theorem orFpstat_tpc (t : Thread) (b : BitVec 5) : (t.orFpstat b).tpc = t.tpc := rfl
@[simp] theorem orFpstat_tnext (t : Thread) (b : BitVec 5) : (t.orFpstat b).tnext = t.tnext := rfl
@[simp] theorem orFpstat_inh (t : Thread) (b : BitVec 5) : (t.orFpstat b).inh = t.inh := rfl
@[simp] theorem orFpstat_watchdog (t : Thread) (b : BitVec 5) : (t.orFpstat b).watchdog = t.watchdog := rfl
@[simp] theorem orFpstat_kept (t : Thread) (b : BitVec 5) : (t.orFpstat b).kept = t.kept := rfl
@[simp] theorem orFpstat_restart (t : Thread) (b : BitVec 5) : (t.orFpstat b).restart = t.restart := rfl
@[simp] theorem orFpstat_taint (t : Thread) (b : BitVec 5) : (t.orFpstat b).taint = t.taint := rfl
@[simp] theorem orFpstat_products (t : Thread) (b : BitVec 5) : (t.orFpstat b).products = t.products := rfl
@[simp] theorem orFpstat_fcall (t : Thread) (b : BitVec 5) : (t.orFpstat b).fcall = t.fcall := rfl
@[simp] theorem orFpstat_late (t : Thread) (b : BitVec 5) : (t.orFpstat b).late = t.late := rfl

/-! ## Thread.setPred -/

@[simp] theorem setPred_warp (t : Thread) (n : Nat) (b : Bool) : (t.setPred n b).warp = t.warp := by
  unfold Thread.setPred; split <;> rfl
@[simp] theorem setPred_lane (t : Thread) (n : Nat) (b : Bool) : (t.setPred n b).lane = t.lane := by
  unfold Thread.setPred; split <;> rfl
@[simp] theorem setPred_pc (t : Thread) (n : Nat) (b : Bool) : (t.setPred n b).pc = t.pc := by
  unfold Thread.setPred; split <;> rfl
@[simp] theorem setPred_mid (t : Thread) (n : Nat) (b : Bool) : (t.setPred n b).mid = t.mid := by
  unfold Thread.setPred; split <;> rfl
@[simp] theorem setPred_depth (t : Thread) (n : Nat) (b : Bool) : (t.setPred n b).depth = t.depth := by
  unfold Thread.setPred; split <;> rfl
@[simp] theorem setPred_v (t : Thread) (n : Nat) (b : Bool) : (t.setPred n b).v = t.v := by
  unfold Thread.setPred; split <;> rfl
@[simp] theorem setPred_writes (t : Thread) (n : Nat) (b : Bool) : (t.setPred n b).writes = t.writes := by
  unfold Thread.setPred; split <;> rfl
@[simp] theorem setPred_cold (t : Thread) (n : Nat) (b : Bool) : (t.setPred n b).cold = t.cold := by
  unfold Thread.setPred; split <;> rfl
@[simp] theorem setPred_flags (t : Thread) (n : Nat) (b : Bool) : (t.setPred n b).flags = t.flags := by
  unfold Thread.setPred; split <;> rfl
@[simp] theorem setPred_fpstat (t : Thread) (n : Nat) (b : Bool) : (t.setPred n b).fpstat = t.fpstat := by
  unfold Thread.setPred; split <;> rfl
@[simp] theorem setPred_status (t : Thread) (n : Nat) (b : Bool) : (t.setPred n b).status = t.status := by
  unfold Thread.setPred; split <;> rfl
@[simp] theorem setPred_group (t : Thread) (n : Nat) (b : Bool) : (t.setPred n b).group = t.group := by
  unfold Thread.setPred; split <;> rfl
@[simp] theorem setPred_hold (t : Thread) (n : Nat) (b : Bool) : (t.setPred n b).hold = t.hold := by
  unfold Thread.setPred; split <;> rfl
@[simp] theorem setPred_watch (t : Thread) (n : Nat) (b : Bool) : (t.setPred n b).watch = t.watch := by
  unfold Thread.setPred; split <;> rfl
@[simp] theorem setPred_yieldMark (t : Thread) (n : Nat) (b : Bool) : (t.setPred n b).yieldMark = t.yieldMark := by
  unfold Thread.setPred; split <;> rfl
@[simp] theorem setPred_readyAt (t : Thread) (n : Nat) (b : Bool) : (t.setPred n b).readyAt = t.readyAt := by
  unfold Thread.setPred; split <;> rfl
@[simp] theorem setPred_unready (t : Thread) (n : Nat) (b : Bool) : (t.setPred n b).unready = t.unready := by
  unfold Thread.setPred; split <;> rfl
@[simp] theorem setPred_collSince (t : Thread) (n : Nat) (b : Bool) : (t.setPred n b).collSince = t.collSince := by
  unfold Thread.setPred; split <;> rfl
@[simp] theorem setPred_sgw (t : Thread) (n : Nat) (b : Bool) : (t.setPred n b).sgw = t.sgw := by
  unfold Thread.setPred; split <;> rfl
@[simp] theorem setPred_fcode (t : Thread) (n : Nat) (b : Bool) : (t.setPred n b).fcode = t.fcode := by
  unfold Thread.setPred; split <;> rfl
@[simp] theorem setPred_fpc (t : Thread) (n : Nat) (b : Bool) : (t.setPred n b).fpc = t.fpc := by
  unfold Thread.setPred; split <;> rfl
@[simp] theorem setPred_faddr (t : Thread) (n : Nat) (b : Bool) : (t.setPred n b).faddr = t.faddr := by
  unfold Thread.setPred; split <;> rfl
@[simp] theorem setPred_finfo (t : Thread) (n : Nat) (b : Bool) : (t.setPred n b).finfo = t.finfo := by
  unfold Thread.setPred; split <;> rfl
@[simp] theorem setPred_fgen (t : Thread) (n : Nat) (b : Bool) : (t.setPred n b).fgen = t.fgen := by
  unfold Thread.setPred; split <;> rfl
@[simp] theorem setPred_raised (t : Thread) (n : Nat) (b : Bool) : (t.setPred n b).raised = t.raised := by
  unfold Thread.setPred; split <;> rfl
@[simp] theorem setPred_forder (t : Thread) (n : Nat) (b : Bool) : (t.setPred n b).forder = t.forder := by
  unfold Thread.setPred; split <;> rfl
@[simp] theorem setPred_site (t : Thread) (n : Nat) (b : Bool) : (t.setPred n b).site = t.site := by
  unfold Thread.setPred; split <;> rfl
@[simp] theorem setPred_siteSgw (t : Thread) (n : Nat) (b : Bool) : (t.setPred n b).siteSgw = t.siteSgw := by
  unfold Thread.setPred; split <;> rfl
@[simp] theorem setPred_entry (t : Thread) (n : Nat) (b : Bool) : (t.setPred n b).entry = t.entry := by
  unfold Thread.setPred; split <;> rfl
@[simp] theorem setPred_tpc (t : Thread) (n : Nat) (b : Bool) : (t.setPred n b).tpc = t.tpc := by
  unfold Thread.setPred; split <;> rfl
@[simp] theorem setPred_tnext (t : Thread) (n : Nat) (b : Bool) : (t.setPred n b).tnext = t.tnext := by
  unfold Thread.setPred; split <;> rfl
@[simp] theorem setPred_inh (t : Thread) (n : Nat) (b : Bool) : (t.setPred n b).inh = t.inh := by
  unfold Thread.setPred; split <;> rfl
@[simp] theorem setPred_watchdog (t : Thread) (n : Nat) (b : Bool) : (t.setPred n b).watchdog = t.watchdog := by
  unfold Thread.setPred; split <;> rfl
@[simp] theorem setPred_kept (t : Thread) (n : Nat) (b : Bool) : (t.setPred n b).kept = t.kept := by
  unfold Thread.setPred; split <;> rfl
@[simp] theorem setPred_restart (t : Thread) (n : Nat) (b : Bool) : (t.setPred n b).restart = t.restart := by
  unfold Thread.setPred; split <;> rfl
@[simp] theorem setPred_taint (t : Thread) (n : Nat) (b : Bool) : (t.setPred n b).taint = t.taint := by
  unfold Thread.setPred; split <;> rfl
@[simp] theorem setPred_products (t : Thread) (n : Nat) (b : Bool) : (t.setPred n b).products = t.products := by
  unfold Thread.setPred; split <;> rfl
@[simp] theorem setPred_fcall (t : Thread) (n : Nat) (b : Bool) : (t.setPred n b).fcall = t.fcall := by
  unfold Thread.setPred; split <;> rfl
@[simp] theorem setPred_late (t : Thread) (n : Nat) (b : Bool) : (t.setPred n b).late = t.late := by
  unfold Thread.setPred; split <;> rfl

/-! ## Thread.addFlag -/

@[simp] theorem addFlag_warp (t : Thread) (x : Option Nat) : (t.addFlag x).warp = t.warp := by
  cases x <;> rfl
@[simp] theorem addFlag_lane (t : Thread) (x : Option Nat) : (t.addFlag x).lane = t.lane := by
  cases x <;> rfl
@[simp] theorem addFlag_pc (t : Thread) (x : Option Nat) : (t.addFlag x).pc = t.pc := by
  cases x <;> rfl
@[simp] theorem addFlag_mid (t : Thread) (x : Option Nat) : (t.addFlag x).mid = t.mid := by
  cases x <;> rfl
@[simp] theorem addFlag_depth (t : Thread) (x : Option Nat) : (t.addFlag x).depth = t.depth := by
  cases x <;> rfl
@[simp] theorem addFlag_v (t : Thread) (x : Option Nat) : (t.addFlag x).v = t.v := by
  cases x <;> rfl
@[simp] theorem addFlag_writes (t : Thread) (x : Option Nat) : (t.addFlag x).writes = t.writes := by
  cases x <;> rfl
@[simp] theorem addFlag_cold (t : Thread) (x : Option Nat) : (t.addFlag x).cold = t.cold := by
  cases x <;> rfl
@[simp] theorem addFlag_p (t : Thread) (x : Option Nat) : (t.addFlag x).p = t.p := by
  cases x <;> rfl
@[simp] theorem addFlag_fpstat (t : Thread) (x : Option Nat) : (t.addFlag x).fpstat = t.fpstat := by
  cases x <;> rfl
@[simp] theorem addFlag_status (t : Thread) (x : Option Nat) : (t.addFlag x).status = t.status := by
  cases x <;> rfl
@[simp] theorem addFlag_group (t : Thread) (x : Option Nat) : (t.addFlag x).group = t.group := by
  cases x <;> rfl
@[simp] theorem addFlag_hold (t : Thread) (x : Option Nat) : (t.addFlag x).hold = t.hold := by
  cases x <;> rfl
@[simp] theorem addFlag_watch (t : Thread) (x : Option Nat) : (t.addFlag x).watch = t.watch := by
  cases x <;> rfl
@[simp] theorem addFlag_yieldMark (t : Thread) (x : Option Nat) : (t.addFlag x).yieldMark = t.yieldMark := by
  cases x <;> rfl
@[simp] theorem addFlag_readyAt (t : Thread) (x : Option Nat) : (t.addFlag x).readyAt = t.readyAt := by
  cases x <;> rfl
@[simp] theorem addFlag_unready (t : Thread) (x : Option Nat) : (t.addFlag x).unready = t.unready := by
  cases x <;> rfl
@[simp] theorem addFlag_collSince (t : Thread) (x : Option Nat) : (t.addFlag x).collSince = t.collSince := by
  cases x <;> rfl
@[simp] theorem addFlag_sgw (t : Thread) (x : Option Nat) : (t.addFlag x).sgw = t.sgw := by
  cases x <;> rfl
@[simp] theorem addFlag_fcode (t : Thread) (x : Option Nat) : (t.addFlag x).fcode = t.fcode := by
  cases x <;> rfl
@[simp] theorem addFlag_fpc (t : Thread) (x : Option Nat) : (t.addFlag x).fpc = t.fpc := by
  cases x <;> rfl
@[simp] theorem addFlag_faddr (t : Thread) (x : Option Nat) : (t.addFlag x).faddr = t.faddr := by
  cases x <;> rfl
@[simp] theorem addFlag_finfo (t : Thread) (x : Option Nat) : (t.addFlag x).finfo = t.finfo := by
  cases x <;> rfl
@[simp] theorem addFlag_fgen (t : Thread) (x : Option Nat) : (t.addFlag x).fgen = t.fgen := by
  cases x <;> rfl
@[simp] theorem addFlag_raised (t : Thread) (x : Option Nat) : (t.addFlag x).raised = t.raised := by
  cases x <;> rfl
@[simp] theorem addFlag_forder (t : Thread) (x : Option Nat) : (t.addFlag x).forder = t.forder := by
  cases x <;> rfl
@[simp] theorem addFlag_site (t : Thread) (x : Option Nat) : (t.addFlag x).site = t.site := by
  cases x <;> rfl
@[simp] theorem addFlag_siteSgw (t : Thread) (x : Option Nat) : (t.addFlag x).siteSgw = t.siteSgw := by
  cases x <;> rfl
@[simp] theorem addFlag_entry (t : Thread) (x : Option Nat) : (t.addFlag x).entry = t.entry := by
  cases x <;> rfl
@[simp] theorem addFlag_tpc (t : Thread) (x : Option Nat) : (t.addFlag x).tpc = t.tpc := by
  cases x <;> rfl
@[simp] theorem addFlag_tnext (t : Thread) (x : Option Nat) : (t.addFlag x).tnext = t.tnext := by
  cases x <;> rfl
@[simp] theorem addFlag_inh (t : Thread) (x : Option Nat) : (t.addFlag x).inh = t.inh := by
  cases x <;> rfl
@[simp] theorem addFlag_watchdog (t : Thread) (x : Option Nat) : (t.addFlag x).watchdog = t.watchdog := by
  cases x <;> rfl
@[simp] theorem addFlag_kept (t : Thread) (x : Option Nat) : (t.addFlag x).kept = t.kept := by
  cases x <;> rfl
@[simp] theorem addFlag_restart (t : Thread) (x : Option Nat) : (t.addFlag x).restart = t.restart := by
  cases x <;> rfl
@[simp] theorem addFlag_taint (t : Thread) (x : Option Nat) : (t.addFlag x).taint = t.taint := by
  cases x <;> rfl
@[simp] theorem addFlag_products (t : Thread) (x : Option Nat) : (t.addFlag x).products = t.products := by
  cases x <;> rfl
@[simp] theorem addFlag_fcall (t : Thread) (x : Option Nat) : (t.addFlag x).fcall = t.fcall := by
  cases x <;> rfl
@[simp] theorem addFlag_late (t : Thread) (x : Option Nat) : (t.addFlag x).late = t.late := by
  cases x <;> rfl

/-! ## Thread.subFlag -/

@[simp] theorem subFlag_warp (t : Thread) (x : Option Nat) : (t.subFlag x).warp = t.warp := by
  cases x <;> rfl
@[simp] theorem subFlag_lane (t : Thread) (x : Option Nat) : (t.subFlag x).lane = t.lane := by
  cases x <;> rfl
@[simp] theorem subFlag_pc (t : Thread) (x : Option Nat) : (t.subFlag x).pc = t.pc := by
  cases x <;> rfl
@[simp] theorem subFlag_mid (t : Thread) (x : Option Nat) : (t.subFlag x).mid = t.mid := by
  cases x <;> rfl
@[simp] theorem subFlag_depth (t : Thread) (x : Option Nat) : (t.subFlag x).depth = t.depth := by
  cases x <;> rfl
@[simp] theorem subFlag_v (t : Thread) (x : Option Nat) : (t.subFlag x).v = t.v := by
  cases x <;> rfl
@[simp] theorem subFlag_writes (t : Thread) (x : Option Nat) : (t.subFlag x).writes = t.writes := by
  cases x <;> rfl
@[simp] theorem subFlag_cold (t : Thread) (x : Option Nat) : (t.subFlag x).cold = t.cold := by
  cases x <;> rfl
@[simp] theorem subFlag_p (t : Thread) (x : Option Nat) : (t.subFlag x).p = t.p := by
  cases x <;> rfl
@[simp] theorem subFlag_fpstat (t : Thread) (x : Option Nat) : (t.subFlag x).fpstat = t.fpstat := by
  cases x <;> rfl
@[simp] theorem subFlag_status (t : Thread) (x : Option Nat) : (t.subFlag x).status = t.status := by
  cases x <;> rfl
@[simp] theorem subFlag_group (t : Thread) (x : Option Nat) : (t.subFlag x).group = t.group := by
  cases x <;> rfl
@[simp] theorem subFlag_hold (t : Thread) (x : Option Nat) : (t.subFlag x).hold = t.hold := by
  cases x <;> rfl
@[simp] theorem subFlag_watch (t : Thread) (x : Option Nat) : (t.subFlag x).watch = t.watch := by
  cases x <;> rfl
@[simp] theorem subFlag_yieldMark (t : Thread) (x : Option Nat) : (t.subFlag x).yieldMark = t.yieldMark := by
  cases x <;> rfl
@[simp] theorem subFlag_readyAt (t : Thread) (x : Option Nat) : (t.subFlag x).readyAt = t.readyAt := by
  cases x <;> rfl
@[simp] theorem subFlag_unready (t : Thread) (x : Option Nat) : (t.subFlag x).unready = t.unready := by
  cases x <;> rfl
@[simp] theorem subFlag_collSince (t : Thread) (x : Option Nat) : (t.subFlag x).collSince = t.collSince := by
  cases x <;> rfl
@[simp] theorem subFlag_sgw (t : Thread) (x : Option Nat) : (t.subFlag x).sgw = t.sgw := by
  cases x <;> rfl
@[simp] theorem subFlag_fcode (t : Thread) (x : Option Nat) : (t.subFlag x).fcode = t.fcode := by
  cases x <;> rfl
@[simp] theorem subFlag_fpc (t : Thread) (x : Option Nat) : (t.subFlag x).fpc = t.fpc := by
  cases x <;> rfl
@[simp] theorem subFlag_faddr (t : Thread) (x : Option Nat) : (t.subFlag x).faddr = t.faddr := by
  cases x <;> rfl
@[simp] theorem subFlag_finfo (t : Thread) (x : Option Nat) : (t.subFlag x).finfo = t.finfo := by
  cases x <;> rfl
@[simp] theorem subFlag_fgen (t : Thread) (x : Option Nat) : (t.subFlag x).fgen = t.fgen := by
  cases x <;> rfl
@[simp] theorem subFlag_raised (t : Thread) (x : Option Nat) : (t.subFlag x).raised = t.raised := by
  cases x <;> rfl
@[simp] theorem subFlag_forder (t : Thread) (x : Option Nat) : (t.subFlag x).forder = t.forder := by
  cases x <;> rfl
@[simp] theorem subFlag_site (t : Thread) (x : Option Nat) : (t.subFlag x).site = t.site := by
  cases x <;> rfl
@[simp] theorem subFlag_siteSgw (t : Thread) (x : Option Nat) : (t.subFlag x).siteSgw = t.siteSgw := by
  cases x <;> rfl
@[simp] theorem subFlag_entry (t : Thread) (x : Option Nat) : (t.subFlag x).entry = t.entry := by
  cases x <;> rfl
@[simp] theorem subFlag_tpc (t : Thread) (x : Option Nat) : (t.subFlag x).tpc = t.tpc := by
  cases x <;> rfl
@[simp] theorem subFlag_tnext (t : Thread) (x : Option Nat) : (t.subFlag x).tnext = t.tnext := by
  cases x <;> rfl
@[simp] theorem subFlag_inh (t : Thread) (x : Option Nat) : (t.subFlag x).inh = t.inh := by
  cases x <;> rfl
@[simp] theorem subFlag_watchdog (t : Thread) (x : Option Nat) : (t.subFlag x).watchdog = t.watchdog := by
  cases x <;> rfl
@[simp] theorem subFlag_kept (t : Thread) (x : Option Nat) : (t.subFlag x).kept = t.kept := by
  cases x <;> rfl
@[simp] theorem subFlag_restart (t : Thread) (x : Option Nat) : (t.subFlag x).restart = t.restart := by
  cases x <;> rfl
@[simp] theorem subFlag_taint (t : Thread) (x : Option Nat) : (t.subFlag x).taint = t.taint := by
  cases x <;> rfl
@[simp] theorem subFlag_products (t : Thread) (x : Option Nat) : (t.subFlag x).products = t.products := by
  cases x <;> rfl
@[simp] theorem subFlag_fcall (t : Thread) (x : Option Nat) : (t.subFlag x).fcall = t.fcall := by
  cases x <;> rfl
@[simp] theorem subFlag_late (t : Thread) (x : Option Nat) : (t.subFlag x).late = t.late := by
  cases x <;> rfl

/-! ## Workgroup.updThread and Workgroup.updWarp -/

@[simp] theorem wg_updThread_id (w : Workgroup) (a b : Nat) (f : Thread → Thread) :
    (w.updThread a b f).id = w.id := rfl
@[simp] theorem wg_updWarp_id (w : Workgroup) (a : Nat) (f : Warp → Warp) :
    (w.updWarp a f).id = w.id := rfl
@[simp] theorem wg_updThread_part (w : Workgroup) (a b : Nat) (f : Thread → Thread) :
    (w.updThread a b f).part = w.part := rfl
@[simp] theorem wg_updWarp_part (w : Workgroup) (a : Nat) (f : Warp → Warp) :
    (w.updWarp a f).part = w.part := rfl
@[simp] theorem wg_updThread_handle (w : Workgroup) (a b : Nat) (f : Thread → Thread) :
    (w.updThread a b f).handle = w.handle := rfl
@[simp] theorem wg_updWarp_handle (w : Workgroup) (a : Nat) (f : Warp → Warp) :
    (w.updWarp a f).handle = w.handle := rfl
@[simp] theorem wg_updThread_stage (w : Workgroup) (a b : Nat) (f : Thread → Thread) :
    (w.updThread a b f).stage = w.stage := rfl
@[simp] theorem wg_updWarp_stage (w : Workgroup) (a : Nat) (f : Warp → Warp) :
    (w.updWarp a f).stage = w.stage := rfl
@[simp] theorem wg_updThread_member (w : Workgroup) (a b : Nat) (f : Thread → Thread) :
    (w.updThread a b f).member = w.member := rfl
@[simp] theorem wg_updWarp_member (w : Workgroup) (a : Nat) (f : Warp → Warp) :
    (w.updWarp a f).member = w.member := rfl
@[simp] theorem wg_updThread_cohort (w : Workgroup) (a b : Nat) (f : Thread → Thread) :
    (w.updThread a b f).cohort = w.cohort := rfl
@[simp] theorem wg_updWarp_cohort (w : Workgroup) (a : Nat) (f : Warp → Warp) :
    (w.updWarp a f).cohort = w.cohort := rfl
@[simp] theorem wg_updThread_csz (w : Workgroup) (a b : Nat) (f : Thread → Thread) :
    (w.updThread a b f).csz = w.csz := rfl
@[simp] theorem wg_updWarp_csz (w : Workgroup) (a : Nat) (f : Warp → Warp) :
    (w.updWarp a f).csz = w.csz := rfl
@[simp] theorem wg_updThread_seq (w : Workgroup) (a b : Nat) (f : Thread → Thread) :
    (w.updThread a b f).seq = w.seq := rfl
@[simp] theorem wg_updWarp_seq (w : Workgroup) (a : Nat) (f : Warp → Warp) :
    (w.updWarp a f).seq = w.seq := rfl
@[simp] theorem wg_updThread_pos (w : Workgroup) (a b : Nat) (f : Thread → Thread) :
    (w.updThread a b f).pos = w.pos := rfl
@[simp] theorem wg_updWarp_pos (w : Workgroup) (a : Nat) (f : Warp → Warp) :
    (w.updWarp a f).pos = w.pos := rfl
@[simp] theorem wg_updThread_item (w : Workgroup) (a b : Nat) (f : Thread → Thread) :
    (w.updThread a b f).item = w.item := rfl
@[simp] theorem wg_updWarp_item (w : Workgroup) (a : Nat) (f : Warp → Warp) :
    (w.updWarp a f).item = w.item := rfl
@[simp] theorem wg_updThread_slot (w : Workgroup) (a b : Nat) (f : Thread → Thread) :
    (w.updThread a b f).slot = w.slot := rfl
@[simp] theorem wg_updWarp_slot (w : Workgroup) (a : Nat) (f : Warp → Warp) :
    (w.updWarp a f).slot = w.slot := rfl
@[simp] theorem wg_updThread_core (w : Workgroup) (a b : Nat) (f : Thread → Thread) :
    (w.updThread a b f).core = w.core := rfl
@[simp] theorem wg_updWarp_core (w : Workgroup) (a : Nat) (f : Warp → Warp) :
    (w.updWarp a f).core = w.core := rfl
@[simp] theorem wg_updThread_place (w : Workgroup) (a b : Nat) (f : Thread → Thread) :
    (w.updThread a b f).place = w.place := rfl
@[simp] theorem wg_updWarp_place (w : Workgroup) (a : Nat) (f : Warp → Warp) :
    (w.updWarp a f).place = w.place := rfl
@[simp] theorem wg_updThread_started (w : Workgroup) (a b : Nat) (f : Thread → Thread) :
    (w.updThread a b f).started = w.started := rfl
@[simp] theorem wg_updWarp_started (w : Workgroup) (a : Nat) (f : Warp → Warp) :
    (w.updWarp a f).started = w.started := rfl
@[simp] theorem wg_updThread_resident (w : Workgroup) (a b : Nat) (f : Thread → Thread) :
    (w.updThread a b f).resident = w.resident := rfl
@[simp] theorem wg_updWarp_resident (w : Workgroup) (a : Nat) (f : Warp → Warp) :
    (w.updWarp a f).resident = w.resident := rfl
@[simp] theorem wg_updThread_verdict (w : Workgroup) (a b : Nat) (f : Thread → Thread) :
    (w.updThread a b f).verdict = w.verdict := rfl
@[simp] theorem wg_updWarp_verdict (w : Workgroup) (a : Nat) (f : Warp → Warp) :
    (w.updWarp a f).verdict = w.verdict := rfl
@[simp] theorem wg_updThread_idembAt (w : Workgroup) (a b : Nat) (f : Thread → Thread) :
    (w.updThread a b f).idembAt = w.idembAt := rfl
@[simp] theorem wg_updWarp_idembAt (w : Workgroup) (a : Nat) (f : Warp → Warp) :
    (w.updWarp a f).idembAt = w.idembAt := rfl
@[simp] theorem wg_updThread_watchFrom (w : Workgroup) (a b : Nat) (f : Thread → Thread) :
    (w.updThread a b f).watchFrom = w.watchFrom := rfl
@[simp] theorem wg_updWarp_watchFrom (w : Workgroup) (a : Nat) (f : Warp → Warp) :
    (w.updWarp a f).watchFrom = w.watchFrom := rfl
@[simp] theorem wg_updThread_watchReport (w : Workgroup) (a b : Nat) (f : Thread → Thread) :
    (w.updThread a b f).watchReport = w.watchReport := rfl
@[simp] theorem wg_updWarp_watchReport (w : Workgroup) (a : Nat) (f : Warp → Warp) :
    (w.updWarp a f).watchReport = w.watchReport := rfl
@[simp] theorem wg_updThread_marks (w : Workgroup) (a b : Nat) (f : Thread → Thread) :
    (w.updThread a b f).marks = w.marks := rfl
@[simp] theorem wg_updWarp_marks (w : Workgroup) (a : Nat) (f : Warp → Warp) :
    (w.updWarp a f).marks = w.marks := rfl
@[simp] theorem wg_updThread_tvec (w : Workgroup) (a b : Nat) (f : Thread → Thread) :
    (w.updThread a b f).tvec = w.tvec := rfl
@[simp] theorem wg_updWarp_tvec (w : Workgroup) (a : Nat) (f : Warp → Warp) :
    (w.updWarp a f).tvec = w.tvec := rfl
@[simp] theorem wg_updThread_window (w : Workgroup) (a b : Nat) (f : Thread → Thread) :
    (w.updThread a b f).window = w.window := rfl
@[simp] theorem wg_updWarp_window (w : Workgroup) (a : Nat) (f : Warp → Warp) :
    (w.updWarp a f).window = w.window := rfl
@[simp] theorem wg_updThread_winBase (w : Workgroup) (a b : Nat) (f : Thread → Thread) :
    (w.updThread a b f).winBase = w.winBase := rfl
@[simp] theorem wg_updWarp_winBase (w : Workgroup) (a : Nat) (f : Warp → Warp) :
    (w.updWarp a f).winBase = w.winBase := rfl
@[simp] theorem wg_updThread_split (w : Workgroup) (a b : Nat) (f : Thread → Thread) :
    (w.updThread a b f).split = w.split := rfl
@[simp] theorem wg_updWarp_split (w : Workgroup) (a : Nat) (f : Warp → Warp) :
    (w.updWarp a f).split = w.split := rfl
@[simp] theorem wg_updThread_scratch (w : Workgroup) (a b : Nat) (f : Thread → Thread) :
    (w.updThread a b f).scratch = w.scratch := rfl
@[simp] theorem wg_updWarp_scratch (w : Workgroup) (a : Nat) (f : Warp → Warp) :
    (w.updWarp a f).scratch = w.scratch := rfl
@[simp] theorem wg_updThread_tiles (w : Workgroup) (a b : Nat) (f : Thread → Thread) :
    (w.updThread a b f).tiles = w.tiles := rfl
@[simp] theorem wg_updWarp_tiles (w : Workgroup) (a : Nat) (f : Warp → Warp) :
    (w.updWarp a f).tiles = w.tiles := rfl
@[simp] theorem wg_updThread_ownsTiles (w : Workgroup) (a b : Nat) (f : Thread → Thread) :
    (w.updThread a b f).ownsTiles = w.ownsTiles := rfl
@[simp] theorem wg_updWarp_ownsTiles (w : Workgroup) (a : Nat) (f : Warp → Warp) :
    (w.updWarp a f).ownsTiles = w.ownsTiles := rfl
@[simp] theorem wg_updThread_barriers (w : Workgroup) (a b : Nat) (f : Thread → Thread) :
    (w.updThread a b f).barriers = w.barriers := rfl
@[simp] theorem wg_updWarp_barriers (w : Workgroup) (a : Nat) (f : Warp → Warp) :
    (w.updWarp a f).barriers = w.barriers := rfl
@[simp] theorem wg_updThread_rings (w : Workgroup) (a b : Nat) (f : Thread → Thread) :
    (w.updThread a b f).rings = w.rings := rfl
@[simp] theorem wg_updWarp_rings (w : Workgroup) (a : Nat) (f : Warp → Warp) :
    (w.updWarp a f).rings = w.rings := rfl
@[simp] theorem wg_updThread_gangs (w : Workgroup) (a b : Nat) (f : Thread → Thread) :
    (w.updThread a b f).gangs = w.gangs := rfl
@[simp] theorem wg_updWarp_gangs (w : Workgroup) (a : Nat) (f : Warp → Warp) :
    (w.updWarp a f).gangs = w.gangs := rfl
@[simp] theorem wg_updThread_warps (w : Workgroup) (a b : Nat) (f : Thread → Thread) :
    (w.updThread a b f).warps = w.warps := rfl
@[simp] theorem wg_updWarp_threads (w : Workgroup) (a : Nat) (f : Warp → Warp) :
    (w.updWarp a f).threads = w.threads := rfl
@[simp] theorem wg_updThread_colto (w : Workgroup) (a b : Nat) (f : Thread → Thread) :
    (w.updThread a b f).colto = w.colto := rfl
@[simp] theorem wg_updWarp_colto (w : Workgroup) (a : Nat) (f : Warp → Warp) :
    (w.updWarp a f).colto = w.colto := rfl
@[simp] theorem wg_updThread_barto (w : Workgroup) (a b : Nat) (f : Thread → Thread) :
    (w.updThread a b f).barto = w.barto := rfl
@[simp] theorem wg_updWarp_barto (w : Workgroup) (a : Nat) (f : Warp → Warp) :
    (w.updWarp a f).barto = w.barto := rfl
@[simp] theorem wg_updThread_omask (w : Workgroup) (a b : Nat) (f : Thread → Thread) :
    (w.updThread a b f).omask = w.omask := rfl
@[simp] theorem wg_updWarp_omask (w : Workgroup) (a : Nat) (f : Warp → Warp) :
    (w.updWarp a f).omask = w.omask := rfl
@[simp] theorem wg_updThread_idem (w : Workgroup) (a b : Nat) (f : Thread → Thread) :
    (w.updThread a b f).idem = w.idem := rfl
@[simp] theorem wg_updWarp_idem (w : Workgroup) (a : Nat) (f : Warp → Warp) :
    (w.updWarp a f).idem = w.idem := rfl
@[simp] theorem wg_updThread_home (w : Workgroup) (a b : Nat) (f : Thread → Thread) :
    (w.updThread a b f).home = w.home := rfl
@[simp] theorem wg_updWarp_home (w : Workgroup) (a : Nat) (f : Warp → Warp) :
    (w.updWarp a f).home = w.home := rfl
@[simp] theorem wg_updThread_sbase (w : Workgroup) (a b : Nat) (f : Thread → Thread) :
    (w.updThread a b f).sbase = w.sbase := rfl
@[simp] theorem wg_updWarp_sbase (w : Workgroup) (a : Nat) (f : Warp → Warp) :
    (w.updWarp a f).sbase = w.sbase := rfl

end Sys2Proof.Laws
end

