-- ==== Sys2Proof/Laws/Memory.lean ====
section
/-! SUPPORT. Lists of cells: a read after a write, and the canonical form that every memory operation keeps. -/

namespace Sys2Proof.Laws

open Sys2Proof Sys2Proof.Machine

/-! ## One byte -/

theorem wf_nil : Memory.wf [] := ⟨List.Pairwise.nil, by simp⟩

theorem wf_tail {c : Host.Cell} {m : List Host.Cell} (h : Memory.wf (c :: m)) : Memory.wf m :=
  ⟨(List.pairwise_cons.1 h.1).2, fun d hd => h.2 d (List.mem_cons_of_mem _ hd)⟩

/-- An address below every cell's reads as blank. -/
theorem get_below {m : List Host.Cell} {a : Nat} (h : ∀ c ∈ m, a < c.1) : Memory.get m a = Memory.blank := by
  induction m with
  | nil => rfl
  | cons c r ih =>
    have := h c (by simp)
    simp only [Memory.get]
    rw [if_neg (by omega), ih fun d hd => h d (List.mem_cons_of_mem _ hd)]

theorem get_set_same {m : List Host.Cell} (h : Memory.wf m) (a : Nat) (b : Byte) :
    Memory.get (Memory.set m a b) a = b := by
  induction m with
  | nil =>
    by_cases hb : b = Memory.blank <;> simp [Memory.set, Memory.get, hb]
  | cons c r ih =>
    obtain ⟨k, v⟩ := c
    have hr : ∀ d ∈ r, k < d.1 := (List.pairwise_cons.1 h.1).1
    unfold Memory.set
    split_ifs with h1 h2 h3 h4
    · subst h2
      exact get_below (by
        intro d hd
        rcases List.mem_cons.1 hd with rfl | hd
        · exact h1
        · exact lt_trans h1 (hr d hd))
    · simp [Memory.get]
    · subst h3; subst h4
      exact get_below hr
    · simp [Memory.get]
    · rw [Memory.get, if_neg (by omega), ih (wf_tail h)]

theorem get_set_other (m : List Host.Cell) {a a' : Nat} (b : Byte) (hne : a' ≠ a) :
    Memory.get (Memory.set m a b) a' = Memory.get m a' := by
  induction m with
  | nil =>
    simp only [Memory.set]
    split_ifs
    · rfl
    · simp [Memory.get, Ne.symm hne]
  | cons c r ih =>
    obtain ⟨k, v⟩ := c
    simp only [Memory.set]
    split_ifs with h1 h2 h3 h4
    · rfl
    · simp [Memory.get, Ne.symm hne]
    · subst h3; simp [Memory.get, Ne.symm hne]
    · subst h3; simp [Memory.get, Ne.symm hne]
    · simp only [Memory.get, ih]

/-! ## The canonical form is kept -/

theorem mem_set {m : List Host.Cell} {a : Nat} {b : Byte} {c : Host.Cell} (h : c ∈ Memory.set m a b) :
    c ∈ m ∨ (c = (a, b) ∧ b ≠ Memory.blank) := by
  induction m with
  | nil =>
    simp only [Memory.set] at h
    split_ifs at h with hb
    · simp at h
    · simp only [List.mem_singleton] at h
      exact Or.inr ⟨h, hb⟩
  | cons d r ih =>
    obtain ⟨k, v⟩ := d
    simp only [Memory.set] at h
    split_ifs at h with h1 h2 h3 h4
    · exact Or.inl h
    · rcases List.mem_cons.1 h with rfl | h
      · exact Or.inr ⟨rfl, h2⟩
      · exact Or.inl h
    · exact Or.inl (List.mem_cons_of_mem _ h)
    · rcases List.mem_cons.1 h with rfl | h
      · exact Or.inr ⟨rfl, h4⟩
      · exact Or.inl (List.mem_cons_of_mem _ h)
    · rcases List.mem_cons.1 h with rfl | h
      · exact Or.inl (by simp)
      · rcases ih h with h | h
        · exact Or.inl (List.mem_cons_of_mem _ h)
        · exact Or.inr h

theorem wf_set {m : List Host.Cell} (h : Memory.wf m) (a : Nat) (b : Byte) : Memory.wf (Memory.set m a b) := by
  refine ⟨?_, fun c hc => (mem_set hc).elim (h.2 c) (by rintro ⟨rfl, hb⟩; exact hb)⟩
  induction m with
  | nil => simp only [Memory.set]; split_ifs <;> simp
  | cons d r ih =>
    obtain ⟨k, v⟩ := d
    have hr := List.pairwise_cons.1 h.1
    simp only [Memory.set]
    split_ifs with h1 h2 h3 h4
    · exact h.1
    · refine List.pairwise_cons.2 ⟨?_, h.1⟩
      intro e he
      rcases List.mem_cons.1 he with rfl | he
      · exact h1
      · exact lt_trans h1 (hr.1 e he)
    · exact hr.2
    · subst h3; exact List.pairwise_cons.2 ⟨hr.1, hr.2⟩
    · refine List.pairwise_cons.2 ⟨?_, ih (wf_tail h)⟩
      intro e he
      rcases mem_set he with he | ⟨rfl, -⟩
      · exact hr.1 e he
      · simp only; omega

theorem wf_setBytes {m : List Host.Cell} (h : Memory.wf m) (a : Nat) (bs : List Byte) :
    Memory.wf (Memory.setBytes m a bs) := by
  induction bs generalizing m a with
  | nil => exact h
  | cons b bs ih => exact ih (wf_set h a b) (a + 1)

theorem wf_clear {m : List Host.Cell} (h : Memory.wf m) (a n : Nat) : Memory.wf (Memory.clear m a n) :=
  ⟨h.1.filter _, fun c hc => h.2 c (List.mem_filter.1 hc).1⟩

theorem wf_filter {m : List Host.Cell} (h : Memory.wf m) (p : Host.Cell → Bool) : Memory.wf (m.filter p) :=
  ⟨h.1.filter _, fun c hc => h.2 c (List.mem_filter.1 hc).1⟩

/-! ## Several bytes -/

theorem get_setBytes_outside (m : List Host.Cell) {a a' : Nat} (bs : List Byte) (h : a' < a ∨ a + bs.length ≤ a') :
    Memory.get (Memory.setBytes m a bs) a' = Memory.get m a' := by
  induction bs generalizing m a with
  | nil => rfl
  | cons b bs ih =>
    simp only [List.length_cons] at h
    rw [Memory.setBytes, ih (Memory.set m a b) (a := a + 1) (by omega), get_set_other m b (by omega)]

theorem get_setBytes_inside {m : List Host.Cell} (h : Memory.wf m) (a : Nat) (bs : List Byte) (i : Nat)
    (hi : i < bs.length) : Memory.get (Memory.setBytes m a bs) (a + i) = bs[i] := by
  induction bs generalizing m a i with
  | nil => simp at hi
  | cons b bs ih =>
    rw [Memory.setBytes]
    rcases i with _ | j
    · rw [get_setBytes_outside _ bs (by omega)]
      exact get_set_same h a b
    ·
      have := ih (wf_set h a b) (a + 1) j (by simpa using hi)
      rw [show a + (j + 1) = a + 1 + j by omega, this]; rfl

/-! ## Reset -/

theorem wf_reset : Memory.wf State.reset.mem := wf_nil

/-! ## Lists of elements that satisfy a test -/

theorem mem_updateWhere {α : Type} {p : α → Bool} {f : α → α} {l : List α} {y : α} :
    y ∈ updateWhere p f l ↔ ∃ x ∈ l, (if p x then f x else x) = y := by
  simp [updateWhere]

theorem length_updateWhere {α : Type} (p : α → Bool) (f : α → α) (l : List α) :
    (updateWhere p f l).length = l.length := by simp [updateWhere]

end Sys2Proof.Laws
end

