-- ==== Sys2Proof/Laws/Issue.lean ====
section
/-! SUPPORT. What the issue of a word can do: the shared operation `issue` on a ready group, and its parts. -/

namespace Sys2Proof.Laws

open Sys2Proof Sys2Proof.Machine Sys2Proof.Safety

theorem updateWhere_id {α : Type} {p : α → Bool} {f : α → α} {l : List α} (h : ∀ x ∈ l, p x = true → f x = x) :
    updateWhere p f l = l := by
  unfold updateWhere
  conv => rhs; rw [← List.map_id l]
  apply List.map_congr_left
  intro x hx
  split_ifs with hp
  · exact h x hx hp
  · rfl

/-- A change of members that changes none of them. -/
theorem mapGroup_id {s : State} {id : Nat} {f : Workgroup → Thread → Thread}
    (h : ∀ w ∈ s.wgs, ∀ t ∈ w.threads, t.group = some id → f w t = t) : s.mapGroup id f = s := by
  have : s.wgs.map (fun w => { w with threads := updateWhere (fun t => t.group == some id) (f w) w.threads }) = s.wgs := by
    conv => rhs; rw [← List.map_id s.wgs]
    apply List.map_congr_left
    intro w hw
    rw [updateWhere_id fun t ht hp => h w hw t ht (by simpa using hp)]
    rfl
  unfold State.mapGroup
  rw [this]

theorem ready_rangeFaults {s : State} {g : Group} {rule : WordRule} {regs : List Nat} (h : Ready s g rule regs) :
    s.rangeFaults g rule regs = s := by
  apply mapGroup_id
  intro w hw t ht hg
  have hb := ((h.2.2.2.2.2 w hw t ht).2 hg).2
  have h1 : regs.find? (fun n => decide (budgetOf w t ≤ n)) = none := by
    rw [List.find?_eq_none]; intro n hn
    have := hb n (List.mem_append_left _ hn)
    simp; omega
  have h2 : (rule.v4Regs g.mods).find? (fun n => decide (budgetOf w t ≤ n)) = none := by
    rw [List.find?_eq_none]; intro n hn
    have := hb n (List.mem_append_right _ hn)
    simp; omega
  show (match regs.find? (fun n => decide (budgetOf w t ≤ n)) with
    | some n => _
    | none => match (rule.v4Regs g.mods).find? (fun n => decide (budgetOf w t ≤ n)) with
      | some n => _
      | none => t) = t
  rw [h1]
  dsimp only
  rw [h2]

/-- The thread that a name finds belongs to a workgroup. -/
theorem thread?_mem {s : State} {r : TRef} {t : Thread} (h : s.thread? r = some t) :
    ∃ w ∈ s.wgs, t ∈ w.threads := by
  unfold State.thread? at h
  split at h
  · rename_i w hw
    exact ⟨w, List.mem_of_find?_eq_some hw, List.mem_of_find?_eq_some h⟩
  · cases h

theorem mem_active {s : State} {g : Group} {r : TRef} (h : r ∈ s.active g) :
    r ∈ g.members ∧ ∃ t, s.thread? r = some t ∧ t.group = some g.id := by
  have h := List.mem_filter.1 h
  refine ⟨h.1, ?_⟩
  cases ht : s.thread? r with
  | none => simp [ht] at h
  | some t => simp [ht] at h; exact ⟨t, rfl, h.2⟩

/-- R141: where the store holds every register of every member, nothing is filled. -/
theorem ready_fillFor {s : State} {g : Group} {rule : WordRule} {regs : List Nat} (h : Ready s g rule regs)
    (rs : List TRef) (hrs : ∀ r ∈ rs, r ∈ s.active g) (acts : Thread → Bool) (srcs : List Nat) :
    s.fillFor g rs acts srcs = s := by
  unfold State.fillFor
  induction rs with
  | nil => rfl
  | cons r rs ih =>
    rw [List.foldl_cons]
    obtain ⟨-, t, ht, hg⟩ := mem_active (hrs r (by simp))
    obtain ⟨w, hw, htw⟩ := thread?_mem ht
    have hc := ((h.2.2.2.2.2 w hw t htw).2 hg).1
    simp only [ht, hc, bne_self_eq_false, Bool.false_and, Bool.false_eq_true, if_false]
    exact ih fun r hr => hrs r (List.mem_cons_of_mem _ hr)

theorem ready_fillSources {s : State} {g : Group} {rule : WordRule} {regs : List Nat} (h : Ready s g rule regs)
    (w : WordRule) (acts : Thread → Bool) (srcs : List Nat) : Machine.fillSources w acts srcs g s = s :=
  ready_fillFor h _ (fun _ hr => hr) _ _

theorem ready_not_held {s : State} {g : Group} {rule : WordRule} {regs : List Nat} (h : Ready s g rule regs) :
    g.held = false := by
  have h1 : s.current = some g := h.1
  unfold State.current at h1
  simp only at h1
  cases hf : s.groups.filter (fun g => !g.held) with
  | nil => simp [hf] at h1
  | cons a l =>
    have hmem : g ∈ s.groups.filter (fun g => !g.held) := by
      simp only [hf] at h1
      have := Option.some.inj h1
      rw [hf, ← this, List.getD_eq_getElem _ _ (Nat.mod_lt _ (by simp))]
      exact List.getElem_mem _
    simpa using (List.mem_filter.1 hmem).2

/-- The issue of a word by a ready group: nothing faults, nothing is filled, and unless the word holds, the group goes
on and the word has its effect. -/
theorem ready_issue {s : State} {g : Group} {rule : WordRule} {regs : List Nat} (h : Ready s g rule regs)
    {fill : Group → State → State} {hold : Group → State → Bool} {effect : Group → State → State}
    (hf : fill g s = s) (hh : hold g s = false) :
    Machine.issue rule regs fill hold effect s = .next ((effect g (s.advance g)).settle g.id) := by
  obtain ⟨h1, h2, h3, h4, h5, h6⟩ := id h
  have h7 : (s.active g).isEmpty = false := by simpa using h3
  unfold Machine.issue
  simp only [h1, h5, ready_rangeFaults h, hf, h7, h2, hh, ready_not_held h, Option.any_some, Bool.or_self, Bool.false_eq_true,
    if_false]

/-! ## The end of a word (R66) -/

theorem ready_in_place {s : State} {g : Group} {rule : WordRule} {regs : List Nat} (h : Ready s g rule regs) :
    g.atHeader = false := by
  have h5 := h.2.2.2.2.1
  unfold Group.wordFault Group.encodingFault at h5
  cases ha : g.atHeader
  · rfl
  · simp [ha] at h5

theorem find?_updateWhere {α : Type} {p q : α → Bool} {f : α → α} {l : List α} (h : ∀ x, p (if q x then f x else x) = p x) :
    (updateWhere q f l).find? p = (l.find? p).map fun x => if q x then f x else x := by
  induction l with
  | nil => rfl
  | cons a l ih =>
    simp only [updateWhere, List.map_cons, List.find?_cons, h] at ih ⊢
    cases p a <;> simp [ih]

theorem filter_updateWhere {α : Type} {p : α → Bool} {f : α → α} {l : List α}
    (h : ∀ x, p x = true → p (f x) = true) : (updateWhere p f l).filter (fun x => !p x) = l.filter fun x => !p x := by
  induction l with
  | nil => rfl
  | cons a l ih =>
    simp only [updateWhere, List.map_cons, List.filter_cons] at ih ⊢
    cases hp : p a
    · simp [hp, ih]
    · simp [h a hp, ih]

/-- No late fault waits, so none is taken. -/
theorem applyLate_id {s : State} (h : ∀ w ∈ s.wgs, ∀ t ∈ w.threads, t.late = none) : s.applyLate = s := by
  unfold State.applyLate
  have : s.wgs.map (·.applyLate) = s.wgs := by
    conv => rhs; rw [← List.map_id s.wgs]
    apply List.map_congr_left
    intro w hw
    have : w.threads.filter (·.takesLate) = [] := by
      rw [List.filter_eq_nil_iff]
      intro t ht
      simp [Thread.takesLate, h w hw t ht]
    simp [Workgroup.applyLate, this]
  rw [this]

/-- The members of a group after a change that keeps them, or does not. -/
theorem active_congr {s u : State} {g g' : Group} (h1 : g'.members = g.members) (h2 : g'.id = g.id)
    (h3 : s.wgs = u.wgs) : s.active g' = u.active g := by
  simp only [State.active, State.thread?, State.wg?, h1, h2, h3]

/-- The members' part of the issue of a word that does F to each of them. -/
theorem advance_mapGroup {s : State} {g : Group} {F : Workgroup → Thread → Thread}
    (hw : ∀ w t, F (withThreads w (workedThreads g (fun _ t => t) w)) t = F w t) :
    (s.advance g).mapGroup g.id F = placed s (s.wgs.map fun w => withThreads w (workedThreads g F w))
      (updateWhere (fun x => x.id == g.id) (behindWord g) s.groups) := by
  have : ((s.advance g).mapGroup g.id F).wgs = s.wgs.map fun w => withThreads w (workedThreads g F w) := by
    simp only [State.mapGroup, State.advance, State.updGroup, List.map_map]
    apply List.map_congr_left
    intro w _
    simp only [Function.comp, withThreads, workedThreads, updateWhere, List.map_map]
    congr 1
    apply List.map_congr_left
    intro t _
    by_cases ht : t.group = some g.id
    · simp only [Function.comp, ht, inGroup, beq_self_eq_true, if_true]
      refine Eq.trans ?_ (hw w _)
      congr 2
      apply List.map_congr_left
      intro x _
      by_cases hx : x.group = some g.id <;> simp [hx]
    · simp [ht, inGroup]
  exact congrArg (fun x => placed s x _) this

theorem settle_of {s : State} {id : Nat} {g : Group} (h : s.groups.find? (·.id == id) = some g) :
    s.settle id = if (!g.atHeader && g.ctx.left == 0) = true then s.endClause g
      else if (s.active g).isEmpty = true then { s with groups := s.groups.filter (·.id != id) } else s := by
  unfold State.settle
  rw [h]

/-- What is left of the issue once the word has had its effect: whatever else the effect has changed, the group goes on or
is gone, and the threads of an ended clause wait at the next. -/
theorem settle_general {s P : State} {g : Group} {rule : WordRule} {regs : List Nat} (h : Ready s g rule regs)
    {X : Workgroup → Workgroup} (hw : P.wgs = s.wgs.map X)
    (hg : P.groups = updateWhere (fun x => x.id == g.id) (behindWord g) s.groups) (ht : P.time = s.time)
    (hl : ∀ w ∈ s.wgs, ∀ t ∈ (X w).threads, t.late = none) :
    P.settle g.id = { P with
      wgs := s.wgs.map fun w => withThreads (X w) ((X w).threads.map (landed s g (X w))),
      groups := groupsAfter s g (s.wgs.map X) } := by
  have hat := ready_in_place h
  obtain ⟨-, hfind, -, hleft, -, -⟩ := id h
  have hfindA : P.groups.find? (fun x => x.id == g.id) = some (behindWord g g) := by
    rw [hg, find?_updateWhere, hfind]
    · simp
    · intro x; by_cases hx : x.id = g.id <;> simp [hx, behindWord]
  have hfilter : P.groups.filter (fun x => x.id != g.id) = s.groups.filter (fun x => x.id != g.id) := by
    rw [hg]; exact filter_updateWhere fun x hx => hx
  have hemp : (P.active (behindWord g g)).isEmpty = emptied g (s.wgs.map X) := by
    rw [emptied, active_congr (g := g) (g' := behindWord g g) (u := { State.reset with wgs := s.wgs.map X }) rfl rfl hw]
  have hcond : ((!(behindWord g g).atHeader && (behindWord g g).ctx.left == 0) = true) ↔ g.ctx.left = 1 := by
    simp only [behindWord, hat, Bool.not_false, Bool.true_and, beq_iff_eq]
    omega
  refine (settle_of (g := behindWord g g) hfindA).trans ?_
  by_cases h1 : g.ctx.left = 1
  · rw [if_pos (hcond.2 h1)]
    unfold State.endClause
    have hland : (P.mapGroup (behindWord g g).id (fun w t =>
          { t with group := none, mid := none, readyAt := P.time, collSince := none,
                   yieldMark := if (behindWord g g).ctx.y then some 0 else t.yieldMark,
                   sgw := ((w.warp? t.warp).map (·.sgw)).getD 32 })).wgs =
        s.wgs.map fun w => withThreads (X w) ((X w).threads.map (landed s g (X w))) := by
      simp only [State.mapGroup, hw, List.map_map]
      apply List.map_congr_left
      intro w _
      simp only [Function.comp, withThreads, updateWhere]
      congr 1
      apply List.map_congr_left
      intro t _
      simp only [landed, h1, true_and, inGroup, beq_iff_eq, ht]
      rfl
    have e1 : groupsAfter s g (s.wgs.map X) = P.groups.filter (·.id != g.id) := by
      rw [hfilter]; simp [groupsAfter, h1]
    refine (applyLate_id ?_).trans ?_
    · intro w hw' t ht'
      have hw' := hland ▸ hw'
      simp only [List.mem_map] at hw'
      obtain ⟨w0, hw0, rfl⟩ := hw'
      simp only [withThreads, List.mem_map] at ht'
      obtain ⟨t0, ht0, rfl⟩ := ht'
      have := hl w0 hw0 t0 ht0
      unfold landed
      split_ifs <;> exact this
    · rw [e1, ← hland]
      rfl
  · rw [if_neg (fun x => h1 (hcond.1 x)), hemp]
    have hland : ∀ w t, landed s g w t = t := fun w t => by simp [landed, h1]
    have hmap : (s.wgs.map fun w => withThreads (X w) ((X w).threads.map (landed s g (X w)))) = P.wgs := by
      rw [hw]
      apply List.map_congr_left
      intro w _
      rw [List.map_congr_left (fun t _ => hland (X w) t), List.map_id']
      rfl
    rw [hmap]
    by_cases h2 : emptied g (s.wgs.map X) = true
    · rw [if_pos h2, groupsAfter, if_pos (Or.inr h2), ← hfilter]
    · rw [if_neg h2, groupsAfter, if_neg (by simp [h1, h2])]
      have : (s.groups.map fun x => if x.id = g.id then behindWord g x else x) = P.groups := by
        rw [hg]
        refine List.map_congr_left fun x _ => ?_
        by_cases hx : x.id = g.id <;> simp [hx]
      rw [this]

/-- The same where the effect was on the members alone. -/
theorem settle_placed {s : State} {g : Group} {rule : WordRule} {regs : List Nat} (h : Ready s g rule regs)
    {ws : Workgroup → List Thread} (hl : ∀ w ∈ s.wgs, ∀ t ∈ ws w, t.late = none) :
    (placed s (s.wgs.map fun w => withThreads w (ws w)) (updateWhere (fun x => x.id == g.id) (behindWord g) s.groups)).settle
      g.id = placed s (s.wgs.map fun w => withThreads w ((ws w).map (landed s g w)))
        (groupsAfter s g (s.wgs.map fun w => withThreads w (ws w))) :=
  settle_general h (X := fun w => withThreads w (ws w)) rfl rfl rfl hl

/-- The issue of a word whose whole effect is on the members themselves. -/
theorem ready_mapGroup {s : State} {g : Group} {rule : WordRule} {regs : List Nat} (h : Ready s g rule regs)
    {fill : Group → State → State} {hold : Group → State → Bool} {effect : Group → State → State}
    {F : Workgroup → Thread → Thread}
    (hf : fill g s = s) (hh : hold g s = false)
    (he : effect g (s.advance g) = (s.advance g).mapGroup g.id F)
    (hw : ∀ w t, F (withThreads w (workedThreads g (fun _ t => t) w)) t = F w t)
    (hl : ∀ w t, (F w t).late = t.late) :
    Machine.issue rule regs fill hold effect s = .next (after s g F) := by
  rw [ready_issue h hf hh, he, advance_mapGroup hw, settle_placed h]
  · rfl
  · intro w hw' t ht
    simp only [workedThreads, List.mem_map] at ht
    obtain ⟨t0, ht0, rfl⟩ := ht
    have h0 := (h.2.2.2.2.2 w hw' t0 ht0).1
    split_ifs
    · rw [hl]; exact h0
    · exact h0

/-! ## Groups of one member -/

/-- A thread that is the only member of its group is reached by its name or by the group alike. -/
theorem updThread_eq_mapGroup {s : State} {g : Group} {r : TRef} {f : Thread → Thread}
    (h : ∀ v ∈ s.wgs, ∀ t ∈ v.threads, inGroup g t ↔ v.id = r.wg ∧ t.warp = r.warp ∧ t.lane = r.lane) :
    s.updThread r f = s.mapGroup g.id fun _ t => f t := by
  unfold State.updThread State.updWg State.mapGroup
  congr 1
  apply List.map_congr_left
  intro v hv
  by_cases hid : v.id = r.wg
  · simp only [hid, beq_self_eq_true, if_true, Workgroup.updThread]
    congr 1
    apply List.map_congr_left
    intro t ht
    have := h v hv t ht
    by_cases hg : t.group = some g.id
    · simp [hg, (this.1 hg).2]
    · have hn : ¬(t.warp = r.warp ∧ t.lane = r.lane) := fun x => hg (this.2 ⟨hid, x⟩)
      simp [hg]
      intro x y; exact absurd ⟨x, y⟩ hn
  · simp only [beq_iff_eq, hid, if_false]
    have : updateWhere (fun t => t.group == some g.id) f v.threads = v.threads := by
      apply updateWhere_id
      intro t ht hg
      exact absurd ((h v hv t ht).1 (by simpa using hg)).1 hid
    rw [this]

theorem alone_thread {s : State} {g : Group} {r : TRef} {w : Workgroup} {th : Thread} (h : Alone s g r w th) :
    s.thread? r = some th := by
  obtain ⟨-, h2, h3, -, -, -⟩ := h
  simp only [State.thread?, h2, h3]

theorem alone_inGroup {s : State} {g : Group} {r : TRef} {w : Workgroup} {th : Thread} (h : Alone s g r w th) :
    inGroup g th := by
  obtain ⟨-, h2, h3, h4, -, h6⟩ := h
  have hm := List.mem_of_find?_eq_some h3
  have hp := List.find?_some h3
  simp only [Bool.and_eq_true, beq_iff_eq] at hp
  exact (h6 w (List.mem_of_find?_eq_some h2) th hm).2 ⟨h4, hp⟩

theorem alone_active {s : State} {g : Group} {r : TRef} {w : Workgroup} {th : Thread} (h : Alone s g r w th) :
    s.active g = [r] := by
  have h1 := alone_thread h
  have h2 := alone_inGroup h
  simp [State.active, h.1, h1, h2]

/-- The members stand behind the word once the group has gone on. -/
theorem advance_wgs (s : State) (g : Group) :
    (s.advance g).wgs = s.wgs.map fun w => withThreads w (workedThreads g (fun _ t => t) w) := by
  simp only [State.advance, State.updGroup, State.mapGroup]
  apply List.map_congr_left
  intro w _
  simp only [withThreads, workedThreads, updateWhere, beq_iff_eq, inGroup]

/-- A group of one member is one of one member behind the word as well. -/
theorem alone_advance {s : State} {g : Group} {r : TRef} {w : Workgroup} {th : Thread} (h : Alone s g r w th) :
    Alone (s.advance g) g r (withThreads w (workedThreads g (fun _ t => t) w)) { th with pc := g.pc + 4 } := by
  have hin := alone_inGroup h
  obtain ⟨h1, h2, h3, h4, h5, h6⟩ := h
  have hw := advance_wgs s g
  refine ⟨h1, ?_, ?_, h4, ?_, ?_⟩
  · rw [State.wg?, hw, List.find?_map]
    change Option.map _ (s.wgs.find? (fun g => g.id == r.wg)) = _
    rw [show s.wgs.find? (fun g => g.id == r.wg) = some w from h2]
    rfl
  · have : ((fun t => t.warp == r.warp && t.lane == r.lane) ∘
        fun t => if inGroup g t then ({ t with pc := g.pc + 4 } : Thread) else t) =
        fun t => t.warp == r.warp && t.lane == r.lane := by
      funext t; simp only [Function.comp]; split_ifs <;> rfl
    rw [Workgroup.thread?, withThreads, workedThreads, List.find?_map, this,
      show w.threads.find? (fun t => t.warp == r.warp && t.lane == r.lane) = some th from h3, Option.map_some, if_pos hin]
  · intro v hv hid
    rw [hw, List.mem_map] at hv
    obtain ⟨v0, hv0, rfl⟩ := hv
    rw [h5 v0 hv0 hid]
  · intro v hv t ht
    rw [hw, List.mem_map] at hv
    obtain ⟨v0, hv0, rfl⟩ := hv
    simp only [withThreads, workedThreads, List.mem_map] at ht
    obtain ⟨t0, ht0, rfl⟩ := ht
    have := h6 v0 hv0 t0 ht0
    by_cases hg : inGroup g t0
    · rw [if_pos hg]; exact this
    · rw [if_neg hg]; exact this

/-! ## Outstanding operations -/

/-- The issue of one long-latency operation by a group of one member. -/
theorem alone_addOp {s : State} {g : Group} {rule : WordRule} {regs : List Nat} (h : Ready s g rule regs)
    {r : TRef} {w : Workgroup} {th : Thread} (ha : Alone s g r w th) (fs : Bool) (k : OpKind) (d n : Nat) :
    ((s.advance g).addOp g r (some fs) (s.advance g).nextId k d n).settle g.id =
      afterOp s g (newOp s g r th (g.flagOf fs) k d n) := by
  have hA := alone_advance ha
  have hth := alone_thread hA
  refine (settle_general (P := (s.advance g).addOp g r (some fs) (s.advance g).nextId k d n)
    (X := fun w => withThreads w (workedThreads g (fun _ t => t.addFlag (g.flagOf fs)) w)) h ?_ rfl rfl ?_).trans ?_
  · show ((s.advance g).updThread r fun t => t.addFlag (g.flagOf fs)).wgs = _
    rw [updThread_eq_mapGroup hA.2.2.2.2.2,
      advance_mapGroup (F := fun _ t => t.addFlag (g.flagOf fs)) (fun _ _ => rfl)]
    rfl
  · intro w hw t ht
    simp only [withThreads, workedThreads, List.mem_map] at ht
    obtain ⟨t0, ht0, rfl⟩ := ht
    have := (h.2.2.2.2.2 w hw t0 ht0).1
    split_ifs <;> simp [this]
  · have : ((s.advance g).addOp g r (some fs) (s.advance g).nextId k d n).ops =
        s.ops ++ [newOp s g r th (g.flagOf fs) k d n] := by
      unfold State.addOp
      simp only [hth]
      rfl
    rw [this]
    rfl

/-- Two changes of the elements that satisfy one test are one change. -/
theorem map_updateWhere_updateWhere {α : Type} {p : α → Bool} {f h : α → α} {l : List α} (hp : ∀ x, p (f x) = p x) :
    updateWhere p h (updateWhere p f l) = updateWhere p (fun x => h (f x)) l := by
  simp only [updateWhere, List.map_map]
  apply List.map_congr_left
  intro x _
  cases hx : p x <;> simp [hx, hp]

theorem landRegs_warp (t : Thread) (n : Nat) (old : List Nat) (new : List Word) (keep : Nat) :
    (t.landRegs n old new keep).warp = t.warp := by
  induction new generalizing t n old keep with
  | nil => cases old <;> rfl
  | cons x xs ih => cases old <;> simp only [Thread.landRegs, ih] <;> (try split_ifs) <;> rfl

theorem landRegs_lane (t : Thread) (n : Nat) (old : List Nat) (new : List Word) (keep : Nat) :
    (t.landRegs n old new keep).lane = t.lane := by
  induction new generalizing t n old keep with
  | nil => cases old <;> rfl
  | cons x xs ih => cases old <;> simp only [Thread.landRegs, ih] <;> (try split_ifs) <;> rfl

/-- What a completion does. -/
theorem finishOp_eq (s : State) (o : PendingOp) (vals : List Word) (fp : BitVec 5) (keep : Nat) :
    s.finishOp o vals fp keep = completed s o vals fp keep := by
  unfold State.finishOp State.dropOp State.updThreads completed
  simp only [List.map_map]
  congr 1
  apply List.map_congr_left
  intro w _
  simp only [Function.comp]
  congr 1
  rw [map_updateWhere_updateWhere]
  · unfold updateWhere
    simp only [List.contains_eq_mem, decide_eq_true_eq]
    apply List.map_congr_left
    intro t _
    by_cases hx : t.status = .exited <;> simp [hx]
  · intro t
    by_cases hx : t.status = .exited <;> simp [hx, Thread.ref, landRegs_warp, landRegs_lane]

/-! ## Cross-lane words -/

/-- Nobody is missing and nobody waits elsewhere, so no group joins. -/
theorem together_joinHeld {s : State} {g : Group} (h : Together s g) : joinHeld g s = s := by
  obtain ⟨h1, h2, h3, h4, h5⟩ := h
  have e1 : (s.groups.filter fun h => g.sameWord h && h.collHold.isSome && s.shareSubGroup g h) = [] := by
    rw [List.filter_eq_nil_iff]; intro h hh; simp [h5 h hh]
  have e2 : (s.wgs.map fun w => { w with threads := w.threads.map fun t =>
      if (t.group.any ([] : List Nat).contains) = true then { t with group := some g.id } else t }) = s.wgs := by
    conv => rhs; rw [← List.map_id s.wgs]
    apply List.map_congr_left
    intro w _
    have : (w.threads.map fun t =>
        if (t.group.any ([] : List Nat).contains) = true then ({ t with group := some g.id } : Thread) else t) =
        w.threads := by
      conv => rhs; rw [← List.map_id w.threads]
      apply List.map_congr_left
      intro t _
      cases t.group <;> simp
    rw [this]; rfl
  have e3 : (g.members ++ []).mergeSort (fun a b => decide (a.lane ≤ b.lane)) = g.members := by
    rw [List.append_nil]
    exact List.mergeSort_of_pairwise (h2.imp fun h => by simpa using h)
  have e4 : updateWhere (fun x => x.id == g.id) (fun x => { x with members := g.members, collHold := none }) s.groups =
      s.groups := by
    apply updateWhere_id
    intro x hx hid
    have := h4 x hx (by simpa using hid)
    subst this
    rw [← h3]
  unfold joinHeld
  simp only [e1, List.map_nil, List.flatten_nil, List.foldl_nil, h3, e3]
  rw [e2]
  have e5 : (s.groups.filter fun h => !([] : List Nat).contains h.id) = s.groups := by simp
  rw [e5]
  have e6 : (if State.incomplete { s with wgs := s.wgs, groups := s.groups } g.id = true
      then some ((none : Option Nat).getD s.time) else none) = none := by
    rw [if_neg]; exact fun x => Bool.false_ne_true (h1.symm.trans x)
  have e7 : s.updGroup g.id (fun x => { x with members := g.members, collHold := none }) = s :=
    (congrArg (fun gs => { s with groups := gs }) e4).trans rfl
  refine Eq.trans ?_ e7
  exact congrArg (fun c => s.updGroup g.id fun x => { x with members := g.members, collHold := c }) e6

end Sys2Proof.Laws
end

