-- ==== Sys2Proof/Laws/PerInstr.lean ====
section
/-! SUPPORT. The fields of every format are read back from its word, and every word is read back to its instruction:
one lemma per constructor (02_encoding R26, R45, R46 and each entry's table). -/

namespace Sys2Proof.Laws

open Sys2Proof

/-! ## Fields of appended words -/

/-- A field that lies above the last part. -/
theorem field_skip {a b n lo : Nat} {x : BitVec a} {y : BitVec b} (h : Nat.ble b lo = true) :
    (x ++ y).extractLsb' lo n = x.extractLsb' (lo - b) n := by
  have h := Nat.le_of_ble_eq_true h
  apply BitVec.eq_of_getLsbD_eq
  intro i hi
  simp only [BitVec.getLsbD_extractLsb', BitVec.getLsbD_append]
  rw [if_neg (by omega), show lo + i - b = lo - b + i by omega]

/-- A field that is the last part. -/
theorem field_here {a n : Nat} {x : BitVec a} {y : BitVec n} : (x ++ y).extractLsb' 0 n = y := by
  apply BitVec.eq_of_getLsbD_eq
  intro i hi
  simp [BitVec.getLsbD_append, hi]

/-- A field that is all of a word. -/
theorem field_all {n : Nat} {x : BitVec n} : x.extractLsb' 0 n = x := by
  apply BitVec.eq_of_getLsbD_eq
  intro i hi
  simp [hi]

/-- A bit that lies above the last part. -/
theorem bit_skip {a b i : Nat} {x : BitVec a} {y : BitVec b} (h : Nat.ble b i = true) :
    (x ++ y).getLsbD i = x.getLsbD (i - b) := by
  have h := Nat.le_of_ble_eq_true h
  rw [BitVec.getLsbD_append, if_neg (by omega)]

/-- A bit that is the last part. -/
theorem bit_here {a : Nat} {x : BitVec a} {c : Bool} : (x ++ BitVec.ofBool c).getLsbD 0 = c := by
  rw [BitVec.getLsbD_append, if_pos (by simp)]; simp

/-! ## Formats -/

theorem HeaderArgs_ofWord (m : BitVec 6) (o : HeaderArgs) : HeaderArgs.ofWord (o.toWord m) = o := by
  obtain ⟨len_, wait_, fa_, fb_, y_, c_⟩ := o
  simp only [HeaderArgs.ofWord, HeaderArgs.toWord, HeaderArgs.mk.injEq]
  exact ⟨by rw [field_skip (by rfl), field_skip (by rfl), field_skip (by rfl), field_skip (by rfl), field_skip (by rfl), field_here],
    by rw [field_skip (by rfl), field_skip (by rfl), field_skip (by rfl), field_skip (by rfl), field_here],
    by rw [field_skip (by rfl), field_skip (by rfl), field_skip (by rfl), field_here],
    by rw [field_skip (by rfl), field_skip (by rfl), field_here],
    by rw [bit_skip (by rfl), bit_here],
    by rw [bit_here]⟩

theorem HeaderArgs_major (m : BitVec 6) (o : HeaderArgs) : majorOf (o.toWord m) = m.toNat :=
  congrArg BitVec.toNat (by rw [HeaderArgs.toWord, field_skip (by rfl), field_skip (by rfl), field_skip (by rfl), field_skip (by rfl), field_skip (by rfl), field_skip (by rfl), field_all])

theorem HintArgs_ofWord (m : BitVec 6) (o : HintArgs) : HintArgs.ofWord (o.toWord m) = o := by
  obtain ⟨stall_, cache_, reuse_⟩ := o
  simp only [HintArgs.ofWord, HintArgs.toWord, HintArgs.mk.injEq]
  exact ⟨by rw [field_skip (by rfl), field_skip (by rfl), field_skip (by rfl), field_here],
    by rw [field_skip (by rfl), field_skip (by rfl), field_here],
    by rw [field_skip (by rfl), field_here]⟩

theorem HintArgs_major (m : BitVec 6) (o : HintArgs) : majorOf (o.toWord m) = m.toNat :=
  congrArg BitVec.toNat (by rw [HintArgs.toWord, field_skip (by rfl), field_skip (by rfl), field_skip (by rfl), field_skip (by rfl), field_all])

theorem ExtArgs_ofWord (m : BitVec 6) (o : ExtArgs) : ExtArgs.ofWord (o.toWord m) = o := by
  obtain ⟨ext_⟩ := o
  simp only [ExtArgs.ofWord, ExtArgs.toWord, ExtArgs.mk.injEq]
  exact (by rw [field_here])

theorem ExtArgs_major (m : BitVec 6) (o : ExtArgs) : majorOf (o.toWord m) = m.toNat :=
  congrArg BitVec.toNat (by rw [ExtArgs.toWord, field_skip (by rfl), field_all])

theorem ArithPrefixArgs_ofWord (m : BitVec 6) (o : ArithPrefixArgs) : ArithPrefixArgs.ofWord (o.toWord m) = o := by
  obtain ⟨mask_, z_, rnd_, v4_⟩ := o
  simp only [ArithPrefixArgs.ofWord, ArithPrefixArgs.toWord, ArithPrefixArgs.mk.injEq]
  exact ⟨by rw [field_skip (by rfl), field_skip (by rfl), field_skip (by rfl), field_skip (by rfl), field_here],
    by rw [bit_skip (by rfl), bit_skip (by rfl), bit_skip (by rfl), bit_here],
    by rw [field_skip (by rfl), field_skip (by rfl), field_here],
    by rw [field_skip (by rfl), field_here]⟩

theorem ArithPrefixArgs_major (m : BitVec 6) (o : ArithPrefixArgs) : majorOf (o.toWord m) = m.toNat :=
  congrArg BitVec.toNat (by rw [ArithPrefixArgs.toWord, field_skip (by rfl), field_skip (by rfl), field_skip (by rfl), field_skip (by rfl), field_skip (by rfl), field_all])

theorem MemPrefixArgs_ofWord (m : BitVec 6) (o : MemPrefixArgs) : MemPrefixArgs.ofWord (o.toWord m) = o := by
  obtain ⟨scope_, order_, v4_⟩ := o
  simp only [MemPrefixArgs.ofWord, MemPrefixArgs.toWord, MemPrefixArgs.mk.injEq]
  exact ⟨by rw [field_skip (by rfl), field_skip (by rfl), field_skip (by rfl), field_skip (by rfl), field_here],
    by rw [field_skip (by rfl), field_skip (by rfl), field_skip (by rfl), field_here],
    by rw [field_skip (by rfl), field_here]⟩

theorem MemPrefixArgs_major (m : BitVec 6) (o : MemPrefixArgs) : majorOf (o.toWord m) = m.toNat :=
  congrArg BitVec.toNat (by rw [MemPrefixArgs.toWord, field_skip (by rfl), field_skip (by rfl), field_skip (by rfl), field_skip (by rfl), field_skip (by rfl), field_all])

theorem V3Args_ofWord (m : BitVec 6) (f : BitVec 4) (o : V3Args) : V3Args.ofWord (o.toWord m f) = o := by
  obtain ⟨vd_, va_, vb_, guard_, neg_⟩ := o
  simp only [V3Args.ofWord, V3Args.toWord, V3Args.mk.injEq]
  exact ⟨by rw [field_skip (by rfl), field_skip (by rfl), field_skip (by rfl), field_skip (by rfl), field_here],
    by rw [field_skip (by rfl), field_skip (by rfl), field_skip (by rfl), field_here],
    by rw [field_skip (by rfl), field_skip (by rfl), field_here],
    by rw [field_skip (by rfl), field_here],
    by rw [bit_here]⟩

theorem V3Args_major (m : BitVec 6) (f : BitVec 4) (o : V3Args) : majorOf (o.toWord m f) = m.toNat :=
  congrArg BitVec.toNat (by rw [V3Args.toWord, field_skip (by rfl), field_skip (by rfl), field_skip (by rfl), field_skip (by rfl), field_skip (by rfl), field_skip (by rfl), field_all])

theorem V3Args_func (m : BitVec 6) (f : BitVec 4) (o : V3Args) : funcOf (o.toWord m f) = f.toNat :=
  congrArg BitVec.toNat (by rw [V3Args.toWord, field_skip (by rfl), field_skip (by rfl), field_skip (by rfl), field_skip (by rfl), field_skip (by rfl), field_here])

theorem V2Args_ofWord (m : BitVec 6) (f : BitVec 4) (o : V2Args) : V2Args.ofWord (o.toWord m f) = o := by
  obtain ⟨vd_, va_, guard_, neg_⟩ := o
  simp only [V2Args.ofWord, V2Args.toWord, V2Args.mk.injEq]
  exact ⟨by rw [field_skip (by rfl), field_skip (by rfl), field_skip (by rfl), field_skip (by rfl), field_here],
    by rw [field_skip (by rfl), field_skip (by rfl), field_skip (by rfl), field_here],
    by rw [field_skip (by rfl), field_here],
    by rw [bit_here]⟩

theorem V2Args_major (m : BitVec 6) (f : BitVec 4) (o : V2Args) : majorOf (o.toWord m f) = m.toNat :=
  congrArg BitVec.toNat (by rw [V2Args.toWord, field_skip (by rfl), field_skip (by rfl), field_skip (by rfl), field_skip (by rfl), field_skip (by rfl), field_skip (by rfl), field_all])

theorem V2Args_func (m : BitVec 6) (f : BitVec 4) (o : V2Args) : funcOf (o.toWord m f) = f.toNat :=
  congrArg BitVec.toNat (by rw [V2Args.toWord, field_skip (by rfl), field_skip (by rfl), field_skip (by rfl), field_skip (by rfl), field_skip (by rfl), field_here])

theorem VIArgs_ofWord (m : BitVec 6) (f : BitVec 4) (o : VIArgs) : VIArgs.ofWord (o.toWord m f) = o := by
  obtain ⟨vd_, va_, imm_, guard_, neg_⟩ := o
  simp only [VIArgs.ofWord, VIArgs.toWord, VIArgs.mk.injEq]
  exact ⟨by rw [field_skip (by rfl), field_skip (by rfl), field_skip (by rfl), field_skip (by rfl), field_here],
    by rw [field_skip (by rfl), field_skip (by rfl), field_skip (by rfl), field_here],
    by rw [field_skip (by rfl), field_skip (by rfl), field_here],
    by rw [field_skip (by rfl), field_here],
    by rw [bit_here]⟩

theorem VIArgs_major (m : BitVec 6) (f : BitVec 4) (o : VIArgs) : majorOf (o.toWord m f) = m.toNat :=
  congrArg BitVec.toNat (by rw [VIArgs.toWord, field_skip (by rfl), field_skip (by rfl), field_skip (by rfl), field_skip (by rfl), field_skip (by rfl), field_skip (by rfl), field_all])

theorem VIArgs_func (m : BitVec 6) (f : BitVec 4) (o : VIArgs) : funcOf (o.toWord m f) = f.toNat :=
  congrArg BitVec.toNat (by rw [VIArgs.toWord, field_skip (by rfl), field_skip (by rfl), field_skip (by rfl), field_skip (by rfl), field_skip (by rfl), field_here])

theorem VI0Args_ofWord (m : BitVec 6) (f : BitVec 4) (o : VI0Args) : VI0Args.ofWord (o.toWord m f) = o := by
  obtain ⟨vd_, imm_, guard_, neg_⟩ := o
  simp only [VI0Args.ofWord, VI0Args.toWord, VI0Args.mk.injEq]
  exact ⟨by rw [field_skip (by rfl), field_skip (by rfl), field_skip (by rfl), field_skip (by rfl), field_here],
    by rw [field_skip (by rfl), field_skip (by rfl), field_here],
    by rw [field_skip (by rfl), field_here],
    by rw [bit_here]⟩

theorem VI0Args_major (m : BitVec 6) (f : BitVec 4) (o : VI0Args) : majorOf (o.toWord m f) = m.toNat :=
  congrArg BitVec.toNat (by rw [VI0Args.toWord, field_skip (by rfl), field_skip (by rfl), field_skip (by rfl), field_skip (by rfl), field_skip (by rfl), field_skip (by rfl), field_all])

theorem VI0Args_func (m : BitVec 6) (f : BitVec 4) (o : VI0Args) : funcOf (o.toWord m f) = f.toNat :=
  congrArg BitVec.toNat (by rw [VI0Args.toWord, field_skip (by rfl), field_skip (by rfl), field_skip (by rfl), field_skip (by rfl), field_skip (by rfl), field_here])

theorem W3Args_ofWord (m : BitVec 6) (f : BitVec 4) (o : W3Args) : W3Args.ofWord (o.toWord m f) = o := by
  obtain ⟨wd_, wa_, wb_, guard_⟩ := o
  simp only [W3Args.ofWord, W3Args.toWord, W3Args.mk.injEq]
  exact ⟨by rw [field_skip (by rfl), field_skip (by rfl), field_skip (by rfl), field_skip (by rfl), field_here],
    by rw [field_skip (by rfl), field_skip (by rfl), field_skip (by rfl), field_here],
    by rw [field_skip (by rfl), field_skip (by rfl), field_here],
    by rw [field_here]⟩

theorem W3Args_major (m : BitVec 6) (f : BitVec 4) (o : W3Args) : majorOf (o.toWord m f) = m.toNat :=
  congrArg BitVec.toNat (by rw [W3Args.toWord, field_skip (by rfl), field_skip (by rfl), field_skip (by rfl), field_skip (by rfl), field_skip (by rfl), field_skip (by rfl), field_all])

theorem W3Args_func (m : BitVec 6) (f : BitVec 4) (o : W3Args) : funcOf (o.toWord m f) = f.toNat :=
  congrArg BitVec.toNat (by rw [W3Args.toWord, field_skip (by rfl), field_skip (by rfl), field_skip (by rfl), field_skip (by rfl), field_skip (by rfl), field_here])

theorem W2Args_ofWord (m : BitVec 6) (f : BitVec 4) (o : W2Args) : W2Args.ofWord (o.toWord m f) = o := by
  obtain ⟨wd_, wa_, guard_⟩ := o
  simp only [W2Args.ofWord, W2Args.toWord, W2Args.mk.injEq]
  exact ⟨by rw [field_skip (by rfl), field_skip (by rfl), field_skip (by rfl), field_skip (by rfl), field_here],
    by rw [field_skip (by rfl), field_skip (by rfl), field_skip (by rfl), field_here],
    by rw [field_here]⟩

theorem W2Args_major (m : BitVec 6) (f : BitVec 4) (o : W2Args) : majorOf (o.toWord m f) = m.toNat :=
  congrArg BitVec.toNat (by rw [W2Args.toWord, field_skip (by rfl), field_skip (by rfl), field_skip (by rfl), field_skip (by rfl), field_skip (by rfl), field_skip (by rfl), field_all])

theorem W2Args_func (m : BitVec 6) (f : BitVec 4) (o : W2Args) : funcOf (o.toWord m f) = f.toNat :=
  congrArg BitVec.toNat (by rw [W2Args.toWord, field_skip (by rfl), field_skip (by rfl), field_skip (by rfl), field_skip (by rfl), field_skip (by rfl), field_here])

theorem WIArgs_ofWord (m : BitVec 6) (f : BitVec 4) (o : WIArgs) : WIArgs.ofWord (o.toWord m f) = o := by
  obtain ⟨wd_, imm_, guard_⟩ := o
  simp only [WIArgs.ofWord, WIArgs.toWord, WIArgs.mk.injEq]
  exact ⟨by rw [field_skip (by rfl), field_skip (by rfl), field_here],
    by rw [field_skip (by rfl), field_here],
    by rw [field_here]⟩

theorem WIArgs_major (m : BitVec 6) (f : BitVec 4) (o : WIArgs) : majorOf (o.toWord m f) = m.toNat :=
  congrArg BitVec.toNat (by rw [WIArgs.toWord, field_skip (by rfl), field_skip (by rfl), field_skip (by rfl), field_skip (by rfl), field_all])

theorem WIArgs_func (m : BitVec 6) (f : BitVec 4) (o : WIArgs) : funcOf (o.toWord m f) = f.toNat :=
  congrArg BitVec.toNat (by rw [WIArgs.toWord, field_skip (by rfl), field_skip (by rfl), field_skip (by rfl), field_here])

theorem WVArgs_ofWord (m : BitVec 6) (f : BitVec 4) (o : WVArgs) : WVArgs.ofWord (o.toWord m f) = o := by
  obtain ⟨wd_, k_, s_, guard_⟩ := o
  simp only [WVArgs.ofWord, WVArgs.toWord, WVArgs.mk.injEq]
  exact ⟨by rw [field_skip (by rfl), field_skip (by rfl), field_skip (by rfl), field_skip (by rfl), field_skip (by rfl), field_here],
    by rw [field_skip (by rfl), field_skip (by rfl), field_skip (by rfl), field_skip (by rfl), field_here],
    by rw [bit_skip (by rfl), bit_here],
    by rw [field_here]⟩

theorem WVArgs_major (m : BitVec 6) (f : BitVec 4) (o : WVArgs) : majorOf (o.toWord m f) = m.toNat :=
  congrArg BitVec.toNat (by rw [WVArgs.toWord, field_skip (by rfl), field_skip (by rfl), field_skip (by rfl), field_skip (by rfl), field_skip (by rfl), field_skip (by rfl), field_skip (by rfl), field_all])

theorem WVArgs_func (m : BitVec 6) (f : BitVec 4) (o : WVArgs) : funcOf (o.toWord m f) = f.toNat :=
  congrArg BitVec.toNat (by rw [WVArgs.toWord, field_skip (by rfl), field_skip (by rfl), field_skip (by rfl), field_skip (by rfl), field_skip (by rfl), field_skip (by rfl), field_here])

theorem VWArgs_ofWord (m : BitVec 6) (f : BitVec 4) (o : VWArgs) : VWArgs.ofWord (o.toWord m f) = o := by
  obtain ⟨k_, wa_, guard_⟩ := o
  simp only [VWArgs.ofWord, VWArgs.toWord, VWArgs.mk.injEq]
  exact ⟨by rw [field_skip (by rfl), field_skip (by rfl), field_skip (by rfl), field_skip (by rfl), field_here],
    by rw [field_skip (by rfl), field_skip (by rfl), field_skip (by rfl), field_here],
    by rw [field_here]⟩

theorem VWArgs_major (m : BitVec 6) (f : BitVec 4) (o : VWArgs) : majorOf (o.toWord m f) = m.toNat :=
  congrArg BitVec.toNat (by rw [VWArgs.toWord, field_skip (by rfl), field_skip (by rfl), field_skip (by rfl), field_skip (by rfl), field_skip (by rfl), field_skip (by rfl), field_all])

theorem VWArgs_func (m : BitVec 6) (f : BitVec 4) (o : VWArgs) : funcOf (o.toWord m f) = f.toNat :=
  congrArg BitVec.toNat (by rw [VWArgs.toWord, field_skip (by rfl), field_skip (by rfl), field_skip (by rfl), field_skip (by rfl), field_skip (by rfl), field_here])

theorem WLArgs_ofWord (m : BitVec 6) (f : BitVec 4) (o : WLArgs) : WLArgs.ofWord (o.toWord m f) = o := by
  obtain ⟨wd_, wa_, wb_, sh_, guard_⟩ := o
  simp only [WLArgs.ofWord, WLArgs.toWord, WLArgs.mk.injEq]
  exact ⟨by rw [field_skip (by rfl), field_skip (by rfl), field_skip (by rfl), field_skip (by rfl), field_here],
    by rw [field_skip (by rfl), field_skip (by rfl), field_skip (by rfl), field_here],
    by rw [field_skip (by rfl), field_skip (by rfl), field_here],
    by rw [field_skip (by rfl), field_here],
    by rw [field_here]⟩

theorem WLArgs_major (m : BitVec 6) (f : BitVec 4) (o : WLArgs) : majorOf (o.toWord m f) = m.toNat :=
  congrArg BitVec.toNat (by rw [WLArgs.toWord, field_skip (by rfl), field_skip (by rfl), field_skip (by rfl), field_skip (by rfl), field_skip (by rfl), field_skip (by rfl), field_all])

theorem WLArgs_func (m : BitVec 6) (f : BitVec 4) (o : WLArgs) : funcOf (o.toWord m f) = f.toNat :=
  congrArg BitVec.toNat (by rw [WLArgs.toWord, field_skip (by rfl), field_skip (by rfl), field_skip (by rfl), field_skip (by rfl), field_skip (by rfl), field_here])

theorem SfuArgs_ofWord (m : BitVec 6) (f : BitVec 4) (o : SfuArgs) : SfuArgs.ofWord (o.toWord m f) = o := by
  obtain ⟨vd_, va_, guard_, fs_⟩ := o
  simp only [SfuArgs.ofWord, SfuArgs.toWord, SfuArgs.mk.injEq]
  exact ⟨by rw [field_skip (by rfl), field_skip (by rfl), field_skip (by rfl), field_skip (by rfl), field_here],
    by rw [field_skip (by rfl), field_skip (by rfl), field_skip (by rfl), field_here],
    by rw [field_skip (by rfl), field_here],
    by rw [bit_here]⟩

theorem SfuArgs_major (m : BitVec 6) (f : BitVec 4) (o : SfuArgs) : majorOf (o.toWord m f) = m.toNat :=
  congrArg BitVec.toNat (by rw [SfuArgs.toWord, field_skip (by rfl), field_skip (by rfl), field_skip (by rfl), field_skip (by rfl), field_skip (by rfl), field_skip (by rfl), field_all])

theorem SfuArgs_func (m : BitVec 6) (f : BitVec 4) (o : SfuArgs) : funcOf (o.toWord m f) = f.toNat :=
  congrArg BitVec.toNat (by rw [SfuArgs.toWord, field_skip (by rfl), field_skip (by rfl), field_skip (by rfl), field_skip (by rfl), field_skip (by rfl), field_here])

theorem X3Args_ofWord (m : BitVec 6) (f : BitVec 4) (o : X3Args) : X3Args.ofWord (o.toWord m f) = o := by
  obtain ⟨vd_, va_, vb_, miss_, imm_⟩ := o
  simp only [X3Args.ofWord, X3Args.toWord, X3Args.mk.injEq]
  exact ⟨by rw [field_skip (by rfl), field_skip (by rfl), field_skip (by rfl), field_skip (by rfl), field_here],
    by rw [field_skip (by rfl), field_skip (by rfl), field_skip (by rfl), field_here],
    by rw [field_skip (by rfl), field_skip (by rfl), field_here],
    by rw [field_skip (by rfl), field_here],
    by rw [bit_here]⟩

theorem X3Args_major (m : BitVec 6) (f : BitVec 4) (o : X3Args) : majorOf (o.toWord m f) = m.toNat :=
  congrArg BitVec.toNat (by rw [X3Args.toWord, field_skip (by rfl), field_skip (by rfl), field_skip (by rfl), field_skip (by rfl), field_skip (by rfl), field_skip (by rfl), field_all])

theorem X3Args_func (m : BitVec 6) (f : BitVec 4) (o : X3Args) : funcOf (o.toWord m f) = f.toNat :=
  congrArg BitVec.toNat (by rw [X3Args.toWord, field_skip (by rfl), field_skip (by rfl), field_skip (by rfl), field_skip (by rfl), field_skip (by rfl), field_here])

theorem X2Args_ofWord (m : BitVec 6) (f : BitVec 4) (o : X2Args) : X2Args.ofWord (o.toWord m f) = o := by
  obtain ⟨vd_, va_, miss_⟩ := o
  simp only [X2Args.ofWord, X2Args.toWord, X2Args.mk.injEq]
  exact ⟨by rw [field_skip (by rfl), field_skip (by rfl), field_skip (by rfl), field_skip (by rfl), field_here],
    by rw [field_skip (by rfl), field_skip (by rfl), field_skip (by rfl), field_here],
    by rw [field_skip (by rfl), field_here]⟩

theorem X2Args_major (m : BitVec 6) (f : BitVec 4) (o : X2Args) : majorOf (o.toWord m f) = m.toNat :=
  congrArg BitVec.toNat (by rw [X2Args.toWord, field_skip (by rfl), field_skip (by rfl), field_skip (by rfl), field_skip (by rfl), field_skip (by rfl), field_skip (by rfl), field_all])

theorem X2Args_func (m : BitVec 6) (f : BitVec 4) (o : X2Args) : funcOf (o.toWord m f) = f.toNat :=
  congrArg BitVec.toNat (by rw [X2Args.toWord, field_skip (by rfl), field_skip (by rfl), field_skip (by rfl), field_skip (by rfl), field_skip (by rfl), field_here])

theorem XVoteArgs_ofWord (m : BitVec 6) (f : BitVec 4) (o : XVoteArgs) : XVoteArgs.ofWord (o.toWord m f) = o := by
  obtain ⟨pa_, miss_⟩ := o
  simp only [XVoteArgs.ofWord, XVoteArgs.toWord, XVoteArgs.mk.injEq]
  exact ⟨by rw [field_skip (by rfl), field_skip (by rfl), field_skip (by rfl), field_here],
    by rw [field_skip (by rfl), field_here]⟩

theorem XVoteArgs_major (m : BitVec 6) (f : BitVec 4) (o : XVoteArgs) : majorOf (o.toWord m f) = m.toNat :=
  congrArg BitVec.toNat (by rw [XVoteArgs.toWord, field_skip (by rfl), field_skip (by rfl), field_skip (by rfl), field_skip (by rfl), field_skip (by rfl), field_skip (by rfl), field_skip (by rfl), field_all])

theorem XVoteArgs_func (m : BitVec 6) (f : BitVec 4) (o : XVoteArgs) : funcOf (o.toWord m f) = f.toNat :=
  congrArg BitVec.toNat (by rw [XVoteArgs.toWord, field_skip (by rfl), field_skip (by rfl), field_skip (by rfl), field_skip (by rfl), field_skip (by rfl), field_skip (by rfl), field_here])

theorem XBalArgs_ofWord (m : BitVec 6) (f : BitVec 4) (o : XBalArgs) : XBalArgs.ofWord (o.toWord m f) = o := by
  obtain ⟨vd_, pa_⟩ := o
  simp only [XBalArgs.ofWord, XBalArgs.toWord, XBalArgs.mk.injEq]
  exact ⟨by rw [field_skip (by rfl), field_skip (by rfl), field_skip (by rfl), field_skip (by rfl), field_skip (by rfl), field_here],
    by rw [field_skip (by rfl), field_skip (by rfl), field_skip (by rfl), field_here]⟩

theorem XBalArgs_major (m : BitVec 6) (f : BitVec 4) (o : XBalArgs) : majorOf (o.toWord m f) = m.toNat :=
  congrArg BitVec.toNat (by rw [XBalArgs.toWord, field_skip (by rfl), field_skip (by rfl), field_skip (by rfl), field_skip (by rfl), field_skip (by rfl), field_skip (by rfl), field_skip (by rfl), field_all])

theorem XBalArgs_func (m : BitVec 6) (f : BitVec 4) (o : XBalArgs) : funcOf (o.toWord m f) = f.toNat :=
  congrArg BitVec.toNat (by rw [XBalArgs.toWord, field_skip (by rfl), field_skip (by rfl), field_skip (by rfl), field_skip (by rfl), field_skip (by rfl), field_skip (by rfl), field_here])

theorem XRedArgs_ofWord (m : BitVec 6) (f : BitVec 4) (o : XRedArgs) : XRedArgs.ofWord (o.toWord m f) = o := by
  obtain ⟨vd_, va_, op_, miss_⟩ := o
  simp only [XRedArgs.ofWord, XRedArgs.toWord, XRedArgs.mk.injEq]
  exact ⟨by rw [field_skip (by rfl), field_skip (by rfl), field_skip (by rfl), field_skip (by rfl), field_here],
    by rw [field_skip (by rfl), field_skip (by rfl), field_skip (by rfl), field_here],
    by rw [field_skip (by rfl), field_skip (by rfl), field_here],
    by rw [field_skip (by rfl), field_here]⟩

theorem XRedArgs_major (m : BitVec 6) (f : BitVec 4) (o : XRedArgs) : majorOf (o.toWord m f) = m.toNat :=
  congrArg BitVec.toNat (by rw [XRedArgs.toWord, field_skip (by rfl), field_skip (by rfl), field_skip (by rfl), field_skip (by rfl), field_skip (by rfl), field_skip (by rfl), field_all])

theorem XRedArgs_func (m : BitVec 6) (f : BitVec 4) (o : XRedArgs) : funcOf (o.toWord m f) = f.toNat :=
  congrArg BitVec.toNat (by rw [XRedArgs.toWord, field_skip (by rfl), field_skip (by rfl), field_skip (by rfl), field_skip (by rfl), field_skip (by rfl), field_here])

theorem XMaskArgs_ofWord (m : BitVec 6) (f : BitVec 4) (o : XMaskArgs) : XMaskArgs.ofWord (o.toWord m f) = o := by
  obtain ⟨vd_, sel_⟩ := o
  simp only [XMaskArgs.ofWord, XMaskArgs.toWord, XMaskArgs.mk.injEq]
  exact ⟨by rw [field_skip (by rfl), field_skip (by rfl), field_skip (by rfl), field_skip (by rfl), field_here],
    by rw [field_skip (by rfl), field_skip (by rfl), field_here]⟩

theorem XMaskArgs_major (m : BitVec 6) (f : BitVec 4) (o : XMaskArgs) : majorOf (o.toWord m f) = m.toNat :=
  congrArg BitVec.toNat (by rw [XMaskArgs.toWord, field_skip (by rfl), field_skip (by rfl), field_skip (by rfl), field_skip (by rfl), field_skip (by rfl), field_skip (by rfl), field_all])

theorem XMaskArgs_func (m : BitVec 6) (f : BitVec 4) (o : XMaskArgs) : funcOf (o.toWord m f) = f.toNat :=
  congrArg BitVec.toNat (by rw [XMaskArgs.toWord, field_skip (by rfl), field_skip (by rfl), field_skip (by rfl), field_skip (by rfl), field_skip (by rfl), field_here])

theorem XSetArgs_ofWord (m : BitVec 6) (f : BitVec 4) (o : XSetArgs) : XSetArgs.ofWord (o.toWord m f) = o := by
  obtain ⟨imm_, miss_⟩ := o
  simp only [XSetArgs.ofWord, XSetArgs.toWord, XSetArgs.mk.injEq]
  exact ⟨by rw [field_skip (by rfl), field_skip (by rfl), field_here],
    by rw [field_skip (by rfl), field_here]⟩

theorem XSetArgs_major (m : BitVec 6) (f : BitVec 4) (o : XSetArgs) : majorOf (o.toWord m f) = m.toNat :=
  congrArg BitVec.toNat (by rw [XSetArgs.toWord, field_skip (by rfl), field_skip (by rfl), field_skip (by rfl), field_skip (by rfl), field_skip (by rfl), field_skip (by rfl), field_all])

theorem XSetArgs_func (m : BitVec 6) (f : BitVec 4) (o : XSetArgs) : funcOf (o.toWord m f) = f.toNat :=
  congrArg BitVec.toNat (by rw [XSetArgs.toWord, field_skip (by rfl), field_skip (by rfl), field_skip (by rfl), field_skip (by rfl), field_skip (by rfl), field_here])

theorem CmpArgs_ofWord (m : BitVec 6) (o : CmpArgs) : CmpArgs.ofWord (o.toWord m) = o := by
  obtain ⟨type_, ctype_, pd1_, pd2_, va_, vb_, guard_⟩ := o
  simp only [CmpArgs.ofWord, CmpArgs.toWord, CmpArgs.mk.injEq]
  exact ⟨by rw [field_skip (by rfl), field_skip (by rfl), field_skip (by rfl), field_skip (by rfl), field_skip (by rfl), field_skip (by rfl), field_here],
    by rw [field_skip (by rfl), field_skip (by rfl), field_skip (by rfl), field_skip (by rfl), field_skip (by rfl), field_here],
    by rw [field_skip (by rfl), field_skip (by rfl), field_skip (by rfl), field_skip (by rfl), field_here],
    by rw [field_skip (by rfl), field_skip (by rfl), field_skip (by rfl), field_here],
    by rw [field_skip (by rfl), field_skip (by rfl), field_here],
    by rw [field_skip (by rfl), field_here],
    by rw [field_here]⟩

theorem CmpArgs_major (m : BitVec 6) (o : CmpArgs) : majorOf (o.toWord m) = m.toNat :=
  congrArg BitVec.toNat (by rw [CmpArgs.toWord, field_skip (by rfl), field_skip (by rfl), field_skip (by rfl), field_skip (by rfl), field_skip (by rfl), field_skip (by rfl), field_skip (by rfl), field_all])

theorem P3Args_ofWord (m : BitVec 6) (f : BitVec 4) (o : P3Args) : P3Args.ofWord (o.toWord m f) = o := by
  obtain ⟨pd_, pa_, pb_, guard_, neg_⟩ := o
  simp only [P3Args.ofWord, P3Args.toWord, P3Args.mk.injEq]
  exact ⟨by rw [field_skip (by rfl), field_skip (by rfl), field_skip (by rfl), field_skip (by rfl), field_skip (by rfl), field_skip (by rfl), field_here],
    by rw [field_skip (by rfl), field_skip (by rfl), field_skip (by rfl), field_skip (by rfl), field_skip (by rfl), field_here],
    by rw [field_skip (by rfl), field_skip (by rfl), field_skip (by rfl), field_skip (by rfl), field_here],
    by rw [field_skip (by rfl), field_here],
    by rw [bit_here]⟩

theorem P3Args_major (m : BitVec 6) (f : BitVec 4) (o : P3Args) : majorOf (o.toWord m f) = m.toNat :=
  congrArg BitVec.toNat (by rw [P3Args.toWord, field_skip (by rfl), field_skip (by rfl), field_skip (by rfl), field_skip (by rfl), field_skip (by rfl), field_skip (by rfl), field_skip (by rfl), field_skip (by rfl), field_all])

theorem P3Args_func (m : BitVec 6) (f : BitVec 4) (o : P3Args) : funcOf (o.toWord m f) = f.toNat :=
  congrArg BitVec.toNat (by rw [P3Args.toWord, field_skip (by rfl), field_skip (by rfl), field_skip (by rfl), field_skip (by rfl), field_skip (by rfl), field_skip (by rfl), field_skip (by rfl), field_here])

theorem P2Args_ofWord (m : BitVec 6) (f : BitVec 4) (o : P2Args) : P2Args.ofWord (o.toWord m f) = o := by
  obtain ⟨pd_, pa_, guard_, neg_⟩ := o
  simp only [P2Args.ofWord, P2Args.toWord, P2Args.mk.injEq]
  exact ⟨by rw [field_skip (by rfl), field_skip (by rfl), field_skip (by rfl), field_skip (by rfl), field_skip (by rfl), field_skip (by rfl), field_here],
    by rw [field_skip (by rfl), field_skip (by rfl), field_skip (by rfl), field_skip (by rfl), field_skip (by rfl), field_here],
    by rw [field_skip (by rfl), field_here],
    by rw [bit_here]⟩

theorem P2Args_major (m : BitVec 6) (f : BitVec 4) (o : P2Args) : majorOf (o.toWord m f) = m.toNat :=
  congrArg BitVec.toNat (by rw [P2Args.toWord, field_skip (by rfl), field_skip (by rfl), field_skip (by rfl), field_skip (by rfl), field_skip (by rfl), field_skip (by rfl), field_skip (by rfl), field_skip (by rfl), field_all])

theorem P2Args_func (m : BitVec 6) (f : BitVec 4) (o : P2Args) : funcOf (o.toWord m f) = f.toNat :=
  congrArg BitVec.toNat (by rw [P2Args.toWord, field_skip (by rfl), field_skip (by rfl), field_skip (by rfl), field_skip (by rfl), field_skip (by rfl), field_skip (by rfl), field_skip (by rfl), field_here])

theorem PIArgs_ofWord (m : BitVec 6) (f : BitVec 4) (o : PIArgs) : PIArgs.ofWord (o.toWord m f) = o := by
  obtain ⟨pd_, imm_, guard_, neg_⟩ := o
  simp only [PIArgs.ofWord, PIArgs.toWord, PIArgs.mk.injEq]
  exact ⟨by rw [field_skip (by rfl), field_skip (by rfl), field_skip (by rfl), field_skip (by rfl), field_skip (by rfl), field_skip (by rfl), field_here],
    by rw [bit_skip (by rfl), bit_skip (by rfl), bit_skip (by rfl), bit_here],
    by rw [field_skip (by rfl), field_here],
    by rw [bit_here]⟩

theorem PIArgs_major (m : BitVec 6) (f : BitVec 4) (o : PIArgs) : majorOf (o.toWord m f) = m.toNat :=
  congrArg BitVec.toNat (by rw [PIArgs.toWord, field_skip (by rfl), field_skip (by rfl), field_skip (by rfl), field_skip (by rfl), field_skip (by rfl), field_skip (by rfl), field_skip (by rfl), field_skip (by rfl), field_all])

theorem PIArgs_func (m : BitVec 6) (f : BitVec 4) (o : PIArgs) : funcOf (o.toWord m f) = f.toNat :=
  congrArg BitVec.toNat (by rw [PIArgs.toWord, field_skip (by rfl), field_skip (by rfl), field_skip (by rfl), field_skip (by rfl), field_skip (by rfl), field_skip (by rfl), field_skip (by rfl), field_here])

theorem BrArgs_ofWord (m : BitVec 6) (f : BitVec 4) (o : BrArgs) : BrArgs.ofWord (o.toWord m f) = o := by
  obtain ⟨guard_, neg_, off_⟩ := o
  simp only [BrArgs.ofWord, BrArgs.toWord, BrArgs.mk.injEq]
  exact ⟨by rw [field_skip (by rfl), field_skip (by rfl), field_here],
    by rw [bit_skip (by rfl), bit_here],
    by rw [field_here]⟩

theorem BrArgs_major (m : BitVec 6) (f : BitVec 4) (o : BrArgs) : majorOf (o.toWord m f) = m.toNat :=
  congrArg BitVec.toNat (by rw [BrArgs.toWord, field_skip (by rfl), field_skip (by rfl), field_skip (by rfl), field_skip (by rfl), field_all])

theorem BrArgs_func (m : BitVec 6) (f : BitVec 4) (o : BrArgs) : funcOf (o.toWord m f) = f.toNat :=
  congrArg BitVec.toNat (by rw [BrArgs.toWord, field_skip (by rfl), field_skip (by rfl), field_skip (by rfl), field_here])

theorem CtlJArgs_ofWord (m : BitVec 6) (f : BitVec 4) (o : CtlJArgs) : CtlJArgs.ofWord (o.toWord m f) = o := by
  obtain ⟨va_, guard_, neg_⟩ := o
  simp only [CtlJArgs.ofWord, CtlJArgs.toWord, CtlJArgs.mk.injEq]
  exact ⟨by rw [field_skip (by rfl), field_skip (by rfl), field_skip (by rfl), field_here],
    by rw [field_skip (by rfl), field_here],
    by rw [bit_here]⟩

theorem CtlJArgs_major (m : BitVec 6) (f : BitVec 4) (o : CtlJArgs) : majorOf (o.toWord m f) = m.toNat :=
  congrArg BitVec.toNat (by rw [CtlJArgs.toWord, field_skip (by rfl), field_skip (by rfl), field_skip (by rfl), field_skip (by rfl), field_skip (by rfl), field_skip (by rfl), field_all])

theorem CtlJArgs_func (m : BitVec 6) (f : BitVec 4) (o : CtlJArgs) : funcOf (o.toWord m f) = f.toNat :=
  congrArg BitVec.toNat (by rw [CtlJArgs.toWord, field_skip (by rfl), field_skip (by rfl), field_skip (by rfl), field_skip (by rfl), field_skip (by rfl), field_here])

theorem CtlGArgs_ofWord (m : BitVec 6) (f : BitVec 4) (o : CtlGArgs) : CtlGArgs.ofWord (o.toWord m f) = o := by
  obtain ⟨guard_, neg_⟩ := o
  simp only [CtlGArgs.ofWord, CtlGArgs.toWord, CtlGArgs.mk.injEq]
  exact ⟨by rw [field_skip (by rfl), field_here],
    by rw [bit_here]⟩

theorem CtlGArgs_major (m : BitVec 6) (f : BitVec 4) (o : CtlGArgs) : majorOf (o.toWord m f) = m.toNat :=
  congrArg BitVec.toNat (by rw [CtlGArgs.toWord, field_skip (by rfl), field_skip (by rfl), field_skip (by rfl), field_skip (by rfl), field_skip (by rfl), field_skip (by rfl), field_all])

theorem CtlGArgs_func (m : BitVec 6) (f : BitVec 4) (o : CtlGArgs) : funcOf (o.toWord m f) = f.toNat :=
  congrArg BitVec.toNat (by rw [CtlGArgs.toWord, field_skip (by rfl), field_skip (by rfl), field_skip (by rfl), field_skip (by rfl), field_skip (by rfl), field_here])

theorem CtlBArgs_ofWord (m : BitVec 6) (f : BitVec 4) (o : CtlBArgs) : CtlBArgs.ofWord (o.toWord m f) = o := by
  obtain ⟨code_, guard_, neg_⟩ := o
  simp only [CtlBArgs.ofWord, CtlBArgs.toWord, CtlBArgs.mk.injEq]
  exact ⟨by rw [field_skip (by rfl), field_skip (by rfl), field_here],
    by rw [field_skip (by rfl), field_here],
    by rw [bit_here]⟩

theorem CtlBArgs_major (m : BitVec 6) (f : BitVec 4) (o : CtlBArgs) : majorOf (o.toWord m f) = m.toNat :=
  congrArg BitVec.toNat (by rw [CtlBArgs.toWord, field_skip (by rfl), field_skip (by rfl), field_skip (by rfl), field_skip (by rfl), field_skip (by rfl), field_skip (by rfl), field_all])

theorem CtlBArgs_func (m : BitVec 6) (f : BitVec 4) (o : CtlBArgs) : funcOf (o.toWord m f) = f.toNat :=
  congrArg BitVec.toNat (by rw [CtlBArgs.toWord, field_skip (by rfl), field_skip (by rfl), field_skip (by rfl), field_skip (by rfl), field_skip (by rfl), field_here])

theorem MArgs_ofWord (m : BitVec 6) (f : BitVec 4) (o : MArgs) : MArgs.ofWord (o.toWord m f) = o := by
  obtain ⟨vd_, wb_, vo_, mode_, guard_, fs_⟩ := o
  simp only [MArgs.ofWord, MArgs.toWord, MArgs.mk.injEq]
  exact ⟨by rw [field_skip (by rfl), field_skip (by rfl), field_skip (by rfl), field_skip (by rfl), field_skip (by rfl), field_here],
    by rw [field_skip (by rfl), field_skip (by rfl), field_skip (by rfl), field_skip (by rfl), field_here],
    by rw [field_skip (by rfl), field_skip (by rfl), field_skip (by rfl), field_here],
    by rw [bit_skip (by rfl), bit_skip (by rfl), bit_here],
    by rw [field_skip (by rfl), field_here],
    by rw [bit_here]⟩

theorem MArgs_major (m : BitVec 6) (f : BitVec 4) (o : MArgs) : majorOf (o.toWord m f) = m.toNat :=
  congrArg BitVec.toNat (by rw [MArgs.toWord, field_skip (by rfl), field_skip (by rfl), field_skip (by rfl), field_skip (by rfl), field_skip (by rfl), field_skip (by rfl), field_skip (by rfl), field_all])

theorem MArgs_func (m : BitVec 6) (f : BitVec 4) (o : MArgs) : funcOf (o.toWord m f) = f.toNat :=
  congrArg BitVec.toNat (by rw [MArgs.toWord, field_skip (by rfl), field_skip (by rfl), field_skip (by rfl), field_skip (by rfl), field_skip (by rfl), field_skip (by rfl), field_here])

theorem MSArgs_ofWord (m : BitVec 6) (f : BitVec 4) (o : MSArgs) : MSArgs.ofWord (o.toWord m f) = o := by
  obtain ⟨vs_, wb_, vo_, mode_, guard_⟩ := o
  simp only [MSArgs.ofWord, MSArgs.toWord, MSArgs.mk.injEq]
  exact ⟨by rw [field_skip (by rfl), field_skip (by rfl), field_skip (by rfl), field_skip (by rfl), field_skip (by rfl), field_here],
    by rw [field_skip (by rfl), field_skip (by rfl), field_skip (by rfl), field_skip (by rfl), field_here],
    by rw [field_skip (by rfl), field_skip (by rfl), field_skip (by rfl), field_here],
    by rw [bit_skip (by rfl), bit_skip (by rfl), bit_here],
    by rw [field_skip (by rfl), field_here]⟩

theorem MSArgs_major (m : BitVec 6) (f : BitVec 4) (o : MSArgs) : majorOf (o.toWord m f) = m.toNat :=
  congrArg BitVec.toNat (by rw [MSArgs.toWord, field_skip (by rfl), field_skip (by rfl), field_skip (by rfl), field_skip (by rfl), field_skip (by rfl), field_skip (by rfl), field_skip (by rfl), field_all])

theorem MSArgs_func (m : BitVec 6) (f : BitVec 4) (o : MSArgs) : funcOf (o.toWord m f) = f.toNat :=
  congrArg BitVec.toNat (by rw [MSArgs.toWord, field_skip (by rfl), field_skip (by rfl), field_skip (by rfl), field_skip (by rfl), field_skip (by rfl), field_skip (by rfl), field_here])

theorem SpArgs_ofWord (m : BitVec 6) (f : BitVec 4) (o : SpArgs) : SpArgs.ofWord (o.toWord m f) = o := by
  obtain ⟨vd_, vo_, guard_, fs_⟩ := o
  simp only [SpArgs.ofWord, SpArgs.toWord, SpArgs.mk.injEq]
  exact ⟨by rw [field_skip (by rfl), field_skip (by rfl), field_skip (by rfl), field_skip (by rfl), field_skip (by rfl), field_here],
    by rw [field_skip (by rfl), field_skip (by rfl), field_skip (by rfl), field_here],
    by rw [field_skip (by rfl), field_here],
    by rw [bit_here]⟩

theorem SpArgs_major (m : BitVec 6) (f : BitVec 4) (o : SpArgs) : majorOf (o.toWord m f) = m.toNat :=
  congrArg BitVec.toNat (by rw [SpArgs.toWord, field_skip (by rfl), field_skip (by rfl), field_skip (by rfl), field_skip (by rfl), field_skip (by rfl), field_skip (by rfl), field_skip (by rfl), field_all])

theorem SpArgs_func (m : BitVec 6) (f : BitVec 4) (o : SpArgs) : funcOf (o.toWord m f) = f.toNat :=
  congrArg BitVec.toNat (by rw [SpArgs.toWord, field_skip (by rfl), field_skip (by rfl), field_skip (by rfl), field_skip (by rfl), field_skip (by rfl), field_skip (by rfl), field_here])

theorem SpSArgs_ofWord (m : BitVec 6) (f : BitVec 4) (o : SpSArgs) : SpSArgs.ofWord (o.toWord m f) = o := by
  obtain ⟨vs_, vo_, guard_⟩ := o
  simp only [SpSArgs.ofWord, SpSArgs.toWord, SpSArgs.mk.injEq]
  exact ⟨by rw [field_skip (by rfl), field_skip (by rfl), field_skip (by rfl), field_skip (by rfl), field_skip (by rfl), field_here],
    by rw [field_skip (by rfl), field_skip (by rfl), field_skip (by rfl), field_here],
    by rw [field_skip (by rfl), field_here]⟩

theorem SpSArgs_major (m : BitVec 6) (f : BitVec 4) (o : SpSArgs) : majorOf (o.toWord m f) = m.toNat :=
  congrArg BitVec.toNat (by rw [SpSArgs.toWord, field_skip (by rfl), field_skip (by rfl), field_skip (by rfl), field_skip (by rfl), field_skip (by rfl), field_skip (by rfl), field_skip (by rfl), field_all])

theorem SpSArgs_func (m : BitVec 6) (f : BitVec 4) (o : SpSArgs) : funcOf (o.toWord m f) = f.toNat :=
  congrArg BitVec.toNat (by rw [SpSArgs.toWord, field_skip (by rfl), field_skip (by rfl), field_skip (by rfl), field_skip (by rfl), field_skip (by rfl), field_skip (by rfl), field_here])

theorem FenArgs_ofWord (m : BitVec 6) (f : BitVec 4) (o : FenArgs) : FenArgs.ofWord (o.toWord m f) = o := by
  obtain ⟨sc_, guard_⟩ := o
  simp only [FenArgs.ofWord, FenArgs.toWord, FenArgs.mk.injEq]
  exact ⟨by rw [bit_skip (by rfl), bit_skip (by rfl), bit_skip (by rfl), bit_skip (by rfl), bit_skip (by rfl), bit_here],
    by rw [field_skip (by rfl), field_here]⟩

theorem FenArgs_major (m : BitVec 6) (f : BitVec 4) (o : FenArgs) : majorOf (o.toWord m f) = m.toNat :=
  congrArg BitVec.toNat (by rw [FenArgs.toWord, field_skip (by rfl), field_skip (by rfl), field_skip (by rfl), field_skip (by rfl), field_skip (by rfl), field_skip (by rfl), field_skip (by rfl), field_skip (by rfl), field_all])

theorem FenArgs_func (m : BitVec 6) (f : BitVec 4) (o : FenArgs) : funcOf (o.toWord m f) = f.toNat :=
  congrArg BitVec.toNat (by rw [FenArgs.toWord, field_skip (by rfl), field_skip (by rfl), field_skip (by rfl), field_skip (by rfl), field_skip (by rfl), field_skip (by rfl), field_skip (by rfl), field_here])

theorem McArgs_ofWord (m : BitVec 6) (f : BitVec 4) (o : McArgs) : McArgs.ofWord (o.toWord m f) = o := by
  obtain ⟨wb_, vo_, mode_, guard_⟩ := o
  simp only [McArgs.ofWord, McArgs.toWord, McArgs.mk.injEq]
  exact ⟨by rw [field_skip (by rfl), field_skip (by rfl), field_skip (by rfl), field_skip (by rfl), field_here],
    by rw [field_skip (by rfl), field_skip (by rfl), field_skip (by rfl), field_here],
    by rw [bit_skip (by rfl), bit_skip (by rfl), bit_here],
    by rw [field_skip (by rfl), field_here]⟩

theorem McArgs_major (m : BitVec 6) (f : BitVec 4) (o : McArgs) : majorOf (o.toWord m f) = m.toNat :=
  congrArg BitVec.toNat (by rw [McArgs.toWord, field_skip (by rfl), field_skip (by rfl), field_skip (by rfl), field_skip (by rfl), field_skip (by rfl), field_skip (by rfl), field_skip (by rfl), field_all])

theorem McArgs_func (m : BitVec 6) (f : BitVec 4) (o : McArgs) : funcOf (o.toWord m f) = f.toNat :=
  congrArg BitVec.toNat (by rw [McArgs.toWord, field_skip (by rfl), field_skip (by rfl), field_skip (by rfl), field_skip (by rfl), field_skip (by rfl), field_skip (by rfl), field_here])

theorem QbArgs_ofWord (m : BitVec 6) (f : BitVec 4) (o : QbArgs) : QbArgs.ofWord (o.toWord m f) = o := by
  obtain ⟨vq_, guard_, fs_⟩ := o
  simp only [QbArgs.ofWord, QbArgs.toWord, QbArgs.mk.injEq]
  exact ⟨by rw [field_skip (by rfl), field_skip (by rfl), field_skip (by rfl), field_skip (by rfl), field_skip (by rfl), field_here],
    by rw [field_skip (by rfl), field_here],
    by rw [bit_here]⟩

theorem QbArgs_major (m : BitVec 6) (f : BitVec 4) (o : QbArgs) : majorOf (o.toWord m f) = m.toNat :=
  congrArg BitVec.toNat (by rw [QbArgs.toWord, field_skip (by rfl), field_skip (by rfl), field_skip (by rfl), field_skip (by rfl), field_skip (by rfl), field_skip (by rfl), field_skip (by rfl), field_all])

theorem QbArgs_func (m : BitVec 6) (f : BitVec 4) (o : QbArgs) : funcOf (o.toWord m f) = f.toNat :=
  congrArg BitVec.toNat (by rw [QbArgs.toWord, field_skip (by rfl), field_skip (by rfl), field_skip (by rfl), field_skip (by rfl), field_skip (by rfl), field_skip (by rfl), field_here])

theorem GangFArgs_ofWord (m : BitVec 6) (f : BitVec 4) (o : GangFArgs) : GangFArgs.ofWord (o.toWord m f) = o := by
  obtain ⟨wm_, g_, guard_⟩ := o
  simp only [GangFArgs.ofWord, GangFArgs.toWord, GangFArgs.mk.injEq]
  exact ⟨by rw [field_skip (by rfl), field_skip (by rfl), field_skip (by rfl), field_here],
    by rw [field_skip (by rfl), field_skip (by rfl), field_here],
    by rw [field_skip (by rfl), field_here]⟩

theorem GangFArgs_major (m : BitVec 6) (f : BitVec 4) (o : GangFArgs) : majorOf (o.toWord m f) = m.toNat :=
  congrArg BitVec.toNat (by rw [GangFArgs.toWord, field_skip (by rfl), field_skip (by rfl), field_skip (by rfl), field_skip (by rfl), field_skip (by rfl), field_skip (by rfl), field_skip (by rfl), field_all])

theorem GangFArgs_func (m : BitVec 6) (f : BitVec 4) (o : GangFArgs) : funcOf (o.toWord m f) = f.toNat :=
  congrArg BitVec.toNat (by rw [GangFArgs.toWord, field_skip (by rfl), field_skip (by rfl), field_skip (by rfl), field_skip (by rfl), field_skip (by rfl), field_skip (by rfl), field_here])

theorem MmaArgs_ofWord (m : BitVec 6) (f : BitVec 4) (o : MmaArgs) : MmaArgs.ofWord (o.toWord m f) = o := by
  obtain ⟨va_, wc_, tile_, keep_, kbc_, guard_, fs_⟩ := o
  simp only [MmaArgs.ofWord, MmaArgs.toWord, MmaArgs.mk.injEq]
  exact ⟨by rw [field_skip (by rfl), field_skip (by rfl), field_skip (by rfl), field_skip (by rfl), field_skip (by rfl), field_skip (by rfl), field_skip (by rfl), field_here],
    by rw [field_skip (by rfl), field_skip (by rfl), field_skip (by rfl), field_skip (by rfl), field_skip (by rfl), field_here],
    by rw [field_skip (by rfl), field_skip (by rfl), field_skip (by rfl), field_skip (by rfl), field_here],
    by rw [bit_skip (by rfl), bit_skip (by rfl), bit_skip (by rfl), bit_here],
    by rw [field_skip (by rfl), field_skip (by rfl), field_here],
    by rw [field_skip (by rfl), field_here],
    by rw [bit_here]⟩

theorem MmaArgs_major (m : BitVec 6) (f : BitVec 4) (o : MmaArgs) : majorOf (o.toWord m f) = m.toNat :=
  congrArg BitVec.toNat (by rw [MmaArgs.toWord, field_skip (by rfl), field_skip (by rfl), field_skip (by rfl), field_skip (by rfl), field_skip (by rfl), field_skip (by rfl), field_skip (by rfl), field_skip (by rfl), field_skip (by rfl), field_all])

theorem MmaArgs_func (m : BitVec 6) (f : BitVec 4) (o : MmaArgs) : funcOf (o.toWord m f) = f.toNat :=
  congrArg BitVec.toNat (by rw [MmaArgs.toWord, field_skip (by rfl), field_skip (by rfl), field_skip (by rfl), field_skip (by rfl), field_skip (by rfl), field_skip (by rfl), field_skip (by rfl), field_skip (by rfl), field_here])

theorem TileArgs_ofWord (m : BitVec 6) (f : BitVec 4) (o : TileArgs) : TileArgs.ofWord (o.toWord m f) = o := by
  obtain ⟨tile_, guard_, fs_⟩ := o
  simp only [TileArgs.ofWord, TileArgs.toWord, TileArgs.mk.injEq]
  exact ⟨by rw [field_skip (by rfl), field_skip (by rfl), field_here],
    by rw [field_skip (by rfl), field_here],
    by rw [bit_here]⟩

theorem TileArgs_major (m : BitVec 6) (f : BitVec 4) (o : TileArgs) : majorOf (o.toWord m f) = m.toNat :=
  congrArg BitVec.toNat (by rw [TileArgs.toWord, field_skip (by rfl), field_skip (by rfl), field_skip (by rfl), field_skip (by rfl), field_skip (by rfl), field_skip (by rfl), field_skip (by rfl), field_all])

theorem TileArgs_func (m : BitVec 6) (f : BitVec 4) (o : TileArgs) : funcOf (o.toWord m f) = f.toNat :=
  congrArg BitVec.toNat (by rw [TileArgs.toWord, field_skip (by rfl), field_skip (by rfl), field_skip (by rfl), field_skip (by rfl), field_skip (by rfl), field_skip (by rfl), field_here])

theorem TileVArgs_ofWord (m : BitVec 6) (f : BitVec 4) (o : TileVArgs) : TileVArgs.ofWord (o.toWord m f) = o := by
  obtain ⟨vd_, vp_, tile_, guard_, fs_⟩ := o
  simp only [TileVArgs.ofWord, TileVArgs.toWord, TileVArgs.mk.injEq]
  exact ⟨by rw [field_skip (by rfl), field_skip (by rfl), field_skip (by rfl), field_skip (by rfl), field_skip (by rfl), field_here],
    by rw [field_skip (by rfl), field_skip (by rfl), field_skip (by rfl), field_skip (by rfl), field_here],
    by rw [field_skip (by rfl), field_skip (by rfl), field_here],
    by rw [field_skip (by rfl), field_here],
    by rw [bit_here]⟩

theorem TileVArgs_major (m : BitVec 6) (f : BitVec 4) (o : TileVArgs) : majorOf (o.toWord m f) = m.toNat :=
  congrArg BitVec.toNat (by rw [TileVArgs.toWord, field_skip (by rfl), field_skip (by rfl), field_skip (by rfl), field_skip (by rfl), field_skip (by rfl), field_skip (by rfl), field_skip (by rfl), field_all])

theorem TileVArgs_func (m : BitVec 6) (f : BitVec 4) (o : TileVArgs) : funcOf (o.toWord m f) = f.toNat :=
  congrArg BitVec.toNat (by rw [TileVArgs.toWord, field_skip (by rfl), field_skip (by rfl), field_skip (by rfl), field_skip (by rfl), field_skip (by rfl), field_skip (by rfl), field_here])

theorem TileKArgs_ofWord (m : BitVec 6) (f : BitVec 4) (o : TileKArgs) : TileKArgs.ofWord (o.toWord m f) = o := by
  obtain ⟨k_, tile_, guard_, fs_⟩ := o
  simp only [TileKArgs.ofWord, TileKArgs.toWord, TileKArgs.mk.injEq]
  exact ⟨by rw [field_skip (by rfl), field_skip (by rfl), field_skip (by rfl), field_skip (by rfl), field_here],
    by rw [field_skip (by rfl), field_skip (by rfl), field_here],
    by rw [field_skip (by rfl), field_here],
    by rw [bit_here]⟩

theorem TileKArgs_major (m : BitVec 6) (f : BitVec 4) (o : TileKArgs) : majorOf (o.toWord m f) = m.toNat :=
  congrArg BitVec.toNat (by rw [TileKArgs.toWord, field_skip (by rfl), field_skip (by rfl), field_skip (by rfl), field_skip (by rfl), field_skip (by rfl), field_skip (by rfl), field_skip (by rfl), field_skip (by rfl), field_all])

theorem TileKArgs_func (m : BitVec 6) (f : BitVec 4) (o : TileKArgs) : funcOf (o.toWord m f) = f.toNat :=
  congrArg BitVec.toNat (by rw [TileKArgs.toWord, field_skip (by rfl), field_skip (by rfl), field_skip (by rfl), field_skip (by rfl), field_skip (by rfl), field_skip (by rfl), field_skip (by rfl), field_here])

theorem MprgArgs_ofWord (m : BitVec 6) (f : BitVec 4) (o : MprgArgs) : MprgArgs.ofWord (o.toWord m f) = o := by
  obtain ⟨vd_, clr_, guard_⟩ := o
  simp only [MprgArgs.ofWord, MprgArgs.toWord, MprgArgs.mk.injEq]
  exact ⟨by rw [field_skip (by rfl), field_skip (by rfl), field_skip (by rfl), field_skip (by rfl), field_skip (by rfl), field_here],
    by rw [bit_skip (by rfl), bit_skip (by rfl), bit_here],
    by rw [field_skip (by rfl), field_here]⟩

theorem MprgArgs_major (m : BitVec 6) (f : BitVec 4) (o : MprgArgs) : majorOf (o.toWord m f) = m.toNat :=
  congrArg BitVec.toNat (by rw [MprgArgs.toWord, field_skip (by rfl), field_skip (by rfl), field_skip (by rfl), field_skip (by rfl), field_skip (by rfl), field_skip (by rfl), field_skip (by rfl), field_all])

theorem MprgArgs_func (m : BitVec 6) (f : BitVec 4) (o : MprgArgs) : funcOf (o.toWord m f) = f.toNat :=
  congrArg BitVec.toNat (by rw [MprgArgs.toWord, field_skip (by rfl), field_skip (by rfl), field_skip (by rfl), field_skip (by rfl), field_skip (by rfl), field_skip (by rfl), field_here])

theorem G0Args_ofWord (m : BitVec 6) (f : BitVec 4) (o : G0Args) : G0Args.ofWord (o.toWord m f) = o := by
  obtain ⟨guard_⟩ := o
  simp only [G0Args.ofWord, G0Args.toWord, G0Args.mk.injEq]
  exact (by rw [field_skip (by rfl), field_here])

theorem G0Args_major (m : BitVec 6) (f : BitVec 4) (o : G0Args) : majorOf (o.toWord m f) = m.toNat :=
  congrArg BitVec.toNat (by rw [G0Args.toWord, field_skip (by rfl), field_skip (by rfl), field_skip (by rfl), field_skip (by rfl), field_skip (by rfl), field_skip (by rfl), field_all])

theorem G0Args_func (m : BitVec 6) (f : BitVec 4) (o : G0Args) : funcOf (o.toWord m f) = f.toNat :=
  congrArg BitVec.toNat (by rw [G0Args.toWord, field_skip (by rfl), field_skip (by rfl), field_skip (by rfl), field_skip (by rfl), field_skip (by rfl), field_here])

theorem CpyPArgs_ofWord (m : BitVec 6) (f : BitVec 4) (o : CpyPArgs) : CpyPArgs.ofWord (o.toWord m f) = o := by
  obtain ⟨k_, pd_, ws_, guard_⟩ := o
  simp only [CpyPArgs.ofWord, CpyPArgs.toWord, CpyPArgs.mk.injEq]
  exact ⟨by rw [field_skip (by rfl), field_skip (by rfl), field_skip (by rfl), field_skip (by rfl), field_skip (by rfl), field_skip (by rfl), field_here],
    by rw [field_skip (by rfl), field_skip (by rfl), field_skip (by rfl), field_skip (by rfl), field_here],
    by rw [field_skip (by rfl), field_skip (by rfl), field_here],
    by rw [field_skip (by rfl), field_here]⟩

theorem CpyPArgs_major (m : BitVec 6) (f : BitVec 4) (o : CpyPArgs) : majorOf (o.toWord m f) = m.toNat :=
  congrArg BitVec.toNat (by rw [CpyPArgs.toWord, field_skip (by rfl), field_skip (by rfl), field_skip (by rfl), field_skip (by rfl), field_skip (by rfl), field_skip (by rfl), field_skip (by rfl), field_skip (by rfl), field_skip (by rfl), field_all])

theorem CpyPArgs_func (m : BitVec 6) (f : BitVec 4) (o : CpyPArgs) : funcOf (o.toWord m f) = f.toNat :=
  congrArg BitVec.toNat (by rw [CpyPArgs.toWord, field_skip (by rfl), field_skip (by rfl), field_skip (by rfl), field_skip (by rfl), field_skip (by rfl), field_skip (by rfl), field_skip (by rfl), field_skip (by rfl), field_here])

theorem KWArgs_ofWord (m : BitVec 6) (f : BitVec 4) (o : KWArgs) : KWArgs.ofWord (o.toWord m f) = o := by
  obtain ⟨k_, ws_, guard_⟩ := o
  simp only [KWArgs.ofWord, KWArgs.toWord, KWArgs.mk.injEq]
  exact ⟨by rw [field_skip (by rfl), field_skip (by rfl), field_skip (by rfl), field_skip (by rfl), field_skip (by rfl), field_here],
    by rw [field_skip (by rfl), field_skip (by rfl), field_here],
    by rw [field_skip (by rfl), field_here]⟩

theorem KWArgs_major (m : BitVec 6) (f : BitVec 4) (o : KWArgs) : majorOf (o.toWord m f) = m.toNat :=
  congrArg BitVec.toNat (by rw [KWArgs.toWord, field_skip (by rfl), field_skip (by rfl), field_skip (by rfl), field_skip (by rfl), field_skip (by rfl), field_skip (by rfl), field_skip (by rfl), field_skip (by rfl), field_all])

theorem KWArgs_func (m : BitVec 6) (f : BitVec 4) (o : KWArgs) : funcOf (o.toWord m f) = f.toNat :=
  congrArg BitVec.toNat (by rw [KWArgs.toWord, field_skip (by rfl), field_skip (by rfl), field_skip (by rfl), field_skip (by rfl), field_skip (by rfl), field_skip (by rfl), field_skip (by rfl), field_here])

theorem KWrArgs_ofWord (m : BitVec 6) (f : BitVec 4) (o : KWrArgs) : KWrArgs.ofWord (o.toWord m f) = o := by
  obtain ⟨k_, ws_, guard_⟩ := o
  simp only [KWrArgs.ofWord, KWrArgs.toWord, KWrArgs.mk.injEq]
  exact ⟨by rw [field_skip (by rfl), field_skip (by rfl), field_skip (by rfl), field_skip (by rfl), field_skip (by rfl), field_here],
    by rw [field_skip (by rfl), field_skip (by rfl), field_skip (by rfl), field_here],
    by rw [field_skip (by rfl), field_here]⟩

theorem KWrArgs_major (m : BitVec 6) (f : BitVec 4) (o : KWrArgs) : majorOf (o.toWord m f) = m.toNat :=
  congrArg BitVec.toNat (by rw [KWrArgs.toWord, field_skip (by rfl), field_skip (by rfl), field_skip (by rfl), field_skip (by rfl), field_skip (by rfl), field_skip (by rfl), field_skip (by rfl), field_skip (by rfl), field_all])

theorem KWrArgs_func (m : BitVec 6) (f : BitVec 4) (o : KWrArgs) : funcOf (o.toWord m f) = f.toNat :=
  congrArg BitVec.toNat (by rw [KWrArgs.toWord, field_skip (by rfl), field_skip (by rfl), field_skip (by rfl), field_skip (by rfl), field_skip (by rfl), field_skip (by rfl), field_skip (by rfl), field_here])

theorem RowMajArgs_ofWord (m : BitVec 6) (f : BitVec 4) (o : RowMajArgs) : RowMajArgs.ofWord (o.toWord m f) = o := by
  obtain ⟨k_, ws_, wc_, guard_⟩ := o
  simp only [RowMajArgs.ofWord, RowMajArgs.toWord, RowMajArgs.mk.injEq]
  exact ⟨by rw [field_skip (by rfl), field_skip (by rfl), field_skip (by rfl), field_skip (by rfl), field_skip (by rfl), field_skip (by rfl), field_here],
    by rw [field_skip (by rfl), field_skip (by rfl), field_skip (by rfl), field_skip (by rfl), field_here],
    by rw [field_skip (by rfl), field_skip (by rfl), field_here],
    by rw [field_skip (by rfl), field_here]⟩

theorem RowMajArgs_major (m : BitVec 6) (f : BitVec 4) (o : RowMajArgs) : majorOf (o.toWord m f) = m.toNat :=
  congrArg BitVec.toNat (by rw [RowMajArgs.toWord, field_skip (by rfl), field_skip (by rfl), field_skip (by rfl), field_skip (by rfl), field_skip (by rfl), field_skip (by rfl), field_skip (by rfl), field_skip (by rfl), field_skip (by rfl), field_all])

theorem RowMajArgs_func (m : BitVec 6) (f : BitVec 4) (o : RowMajArgs) : funcOf (o.toWord m f) = f.toNat :=
  congrArg BitVec.toNat (by rw [RowMajArgs.toWord, field_skip (by rfl), field_skip (by rfl), field_skip (by rfl), field_skip (by rfl), field_skip (by rfl), field_skip (by rfl), field_skip (by rfl), field_skip (by rfl), field_here])

theorem RingDefArgs_ofWord (m : BitVec 6) (f : BitVec 4) (o : RingDefArgs) : RingDefArgs.ofWord (o.toWord m f) = o := by
  obtain ⟨ring_, wd_, guard_⟩ := o
  simp only [RingDefArgs.ofWord, RingDefArgs.toWord, RingDefArgs.mk.injEq]
  exact ⟨by rw [field_skip (by rfl), field_skip (by rfl), field_skip (by rfl), field_skip (by rfl), field_skip (by rfl), field_here],
    by rw [field_skip (by rfl), field_skip (by rfl), field_skip (by rfl), field_here],
    by rw [field_skip (by rfl), field_here]⟩

theorem RingDefArgs_major (m : BitVec 6) (f : BitVec 4) (o : RingDefArgs) : majorOf (o.toWord m f) = m.toNat :=
  congrArg BitVec.toNat (by rw [RingDefArgs.toWord, field_skip (by rfl), field_skip (by rfl), field_skip (by rfl), field_skip (by rfl), field_skip (by rfl), field_skip (by rfl), field_skip (by rfl), field_skip (by rfl), field_all])

theorem RingDefArgs_func (m : BitVec 6) (f : BitVec 4) (o : RingDefArgs) : funcOf (o.toWord m f) = f.toNat :=
  congrArg BitVec.toNat (by rw [RingDefArgs.toWord, field_skip (by rfl), field_skip (by rfl), field_skip (by rfl), field_skip (by rfl), field_skip (by rfl), field_skip (by rfl), field_skip (by rfl), field_here])

theorem AwaitArgs_ofWord (m : BitVec 6) (f : BitVec 4) (o : AwaitArgs) : AwaitArgs.ofWord (o.toWord m f) = o := by
  obtain ⟨vd_, ring_, guard_, fs_⟩ := o
  simp only [AwaitArgs.ofWord, AwaitArgs.toWord, AwaitArgs.mk.injEq]
  exact ⟨by rw [field_skip (by rfl), field_skip (by rfl), field_skip (by rfl), field_skip (by rfl), field_skip (by rfl), field_here],
    by rw [field_skip (by rfl), field_skip (by rfl), field_skip (by rfl), field_here],
    by rw [field_skip (by rfl), field_here],
    by rw [bit_here]⟩

theorem AwaitArgs_major (m : BitVec 6) (f : BitVec 4) (o : AwaitArgs) : majorOf (o.toWord m f) = m.toNat :=
  congrArg BitVec.toNat (by rw [AwaitArgs.toWord, field_skip (by rfl), field_skip (by rfl), field_skip (by rfl), field_skip (by rfl), field_skip (by rfl), field_skip (by rfl), field_skip (by rfl), field_all])

theorem AwaitArgs_func (m : BitVec 6) (f : BitVec 4) (o : AwaitArgs) : funcOf (o.toWord m f) = f.toNat :=
  congrArg BitVec.toNat (by rw [AwaitArgs.toWord, field_skip (by rfl), field_skip (by rfl), field_skip (by rfl), field_skip (by rfl), field_skip (by rfl), field_skip (by rfl), field_here])

theorem RelsArgs_ofWord (m : BitVec 6) (f : BitVec 4) (o : RelsArgs) : RelsArgs.ofWord (o.toWord m f) = o := by
  obtain ⟨va_, ring_, guard_⟩ := o
  simp only [RelsArgs.ofWord, RelsArgs.toWord, RelsArgs.mk.injEq]
  exact ⟨by rw [field_skip (by rfl), field_skip (by rfl), field_skip (by rfl), field_skip (by rfl), field_skip (by rfl), field_here],
    by rw [field_skip (by rfl), field_skip (by rfl), field_skip (by rfl), field_here],
    by rw [field_skip (by rfl), field_here]⟩

theorem RelsArgs_major (m : BitVec 6) (f : BitVec 4) (o : RelsArgs) : majorOf (o.toWord m f) = m.toNat :=
  congrArg BitVec.toNat (by rw [RelsArgs.toWord, field_skip (by rfl), field_skip (by rfl), field_skip (by rfl), field_skip (by rfl), field_skip (by rfl), field_skip (by rfl), field_skip (by rfl), field_all])

theorem RelsArgs_func (m : BitVec 6) (f : BitVec 4) (o : RelsArgs) : funcOf (o.toWord m f) = f.toNat :=
  congrArg BitVec.toNat (by rw [RelsArgs.toWord, field_skip (by rfl), field_skip (by rfl), field_skip (by rfl), field_skip (by rfl), field_skip (by rfl), field_skip (by rfl), field_here])

theorem StatVArgs_ofWord (m : BitVec 6) (f : BitVec 4) (o : StatVArgs) : StatVArgs.ofWord (o.toWord m f) = o := by
  obtain ⟨vd_, ws_, guard_⟩ := o
  simp only [StatVArgs.ofWord, StatVArgs.toWord, StatVArgs.mk.injEq]
  exact ⟨by rw [field_skip (by rfl), field_skip (by rfl), field_skip (by rfl), field_skip (by rfl), field_skip (by rfl), field_here],
    by rw [field_skip (by rfl), field_skip (by rfl), field_skip (by rfl), field_here],
    by rw [field_skip (by rfl), field_here]⟩

theorem StatVArgs_major (m : BitVec 6) (f : BitVec 4) (o : StatVArgs) : majorOf (o.toWord m f) = m.toNat :=
  congrArg BitVec.toNat (by rw [StatVArgs.toWord, field_skip (by rfl), field_skip (by rfl), field_skip (by rfl), field_skip (by rfl), field_skip (by rfl), field_skip (by rfl), field_skip (by rfl), field_all])

theorem StatVArgs_func (m : BitVec 6) (f : BitVec 4) (o : StatVArgs) : funcOf (o.toWord m f) = f.toNat :=
  congrArg BitVec.toNat (by rw [StatVArgs.toWord, field_skip (by rfl), field_skip (by rfl), field_skip (by rfl), field_skip (by rfl), field_skip (by rfl), field_skip (by rfl), field_here])

theorem BarFArgs_ofWord (m : BitVec 6) (f : BitVec 4) (o : BarFArgs) : BarFArgs.ofWord (o.toWord m f) = o := by
  obtain ⟨bar_, vc_, guard_⟩ := o
  simp only [BarFArgs.ofWord, BarFArgs.toWord, BarFArgs.mk.injEq]
  exact ⟨by rw [field_skip (by rfl), field_skip (by rfl), field_skip (by rfl), field_skip (by rfl), field_here],
    by rw [field_skip (by rfl), field_skip (by rfl), field_skip (by rfl), field_here],
    by rw [field_skip (by rfl), field_here]⟩

theorem BarFArgs_major (m : BitVec 6) (f : BitVec 4) (o : BarFArgs) : majorOf (o.toWord m f) = m.toNat :=
  congrArg BitVec.toNat (by rw [BarFArgs.toWord, field_skip (by rfl), field_skip (by rfl), field_skip (by rfl), field_skip (by rfl), field_skip (by rfl), field_skip (by rfl), field_skip (by rfl), field_all])

theorem BarFArgs_func (m : BitVec 6) (f : BitVec 4) (o : BarFArgs) : funcOf (o.toWord m f) = f.toNat :=
  congrArg BitVec.toNat (by rw [BarFArgs.toWord, field_skip (by rfl), field_skip (by rfl), field_skip (by rfl), field_skip (by rfl), field_skip (by rfl), field_skip (by rfl), field_here])

theorem BarsArgs_ofWord (m : BitVec 6) (f : BitVec 4) (o : BarsArgs) : BarsArgs.ofWord (o.toWord m f) = o := by
  obtain ⟨vd_, bar_, guard_⟩ := o
  simp only [BarsArgs.ofWord, BarsArgs.toWord, BarsArgs.mk.injEq]
  exact ⟨by rw [field_skip (by rfl), field_skip (by rfl), field_skip (by rfl), field_skip (by rfl), field_skip (by rfl), field_here],
    by rw [field_skip (by rfl), field_skip (by rfl), field_skip (by rfl), field_here],
    by rw [field_skip (by rfl), field_here]⟩

theorem BarsArgs_major (m : BitVec 6) (f : BitVec 4) (o : BarsArgs) : majorOf (o.toWord m f) = m.toNat :=
  congrArg BitVec.toNat (by rw [BarsArgs.toWord, field_skip (by rfl), field_skip (by rfl), field_skip (by rfl), field_skip (by rfl), field_skip (by rfl), field_skip (by rfl), field_skip (by rfl), field_all])

theorem BarsArgs_func (m : BitVec 6) (f : BitVec 4) (o : BarsArgs) : funcOf (o.toWord m f) = f.toNat :=
  congrArg BitVec.toNat (by rw [BarsArgs.toWord, field_skip (by rfl), field_skip (by rfl), field_skip (by rfl), field_skip (by rfl), field_skip (by rfl), field_skip (by rfl), field_here])

theorem PairQArgs_ofWord (m : BitVec 6) (f : BitVec 4) (o : PairQArgs) : PairQArgs.ofWord (o.toWord m f) = o := by
  obtain ⟨vd_, va_, guard_, fs_⟩ := o
  simp only [PairQArgs.ofWord, PairQArgs.toWord, PairQArgs.mk.injEq]
  exact ⟨by rw [field_skip (by rfl), field_skip (by rfl), field_skip (by rfl), field_skip (by rfl), field_here],
    by rw [field_skip (by rfl), field_skip (by rfl), field_skip (by rfl), field_here],
    by rw [field_skip (by rfl), field_here],
    by rw [bit_here]⟩

theorem PairQArgs_major (m : BitVec 6) (f : BitVec 4) (o : PairQArgs) : majorOf (o.toWord m f) = m.toNat :=
  congrArg BitVec.toNat (by rw [PairQArgs.toWord, field_skip (by rfl), field_skip (by rfl), field_skip (by rfl), field_skip (by rfl), field_skip (by rfl), field_skip (by rfl), field_all])

theorem PairQArgs_func (m : BitVec 6) (f : BitVec 4) (o : PairQArgs) : funcOf (o.toWord m f) = f.toNat :=
  congrArg BitVec.toNat (by rw [PairQArgs.toWord, field_skip (by rfl), field_skip (by rfl), field_skip (by rfl), field_skip (by rfl), field_skip (by rfl), field_here])

theorem WaitvArgs_ofWord (m : BitVec 6) (f : BitVec 4) (o : WaitvArgs) : WaitvArgs.ofWord (o.toWord m f) = o := by
  obtain ⟨vt_, all_, k_, vc_, guard_⟩ := o
  simp only [WaitvArgs.ofWord, WaitvArgs.toWord, WaitvArgs.mk.injEq]
  exact ⟨by rw [field_skip (by rfl), field_skip (by rfl), field_skip (by rfl), field_skip (by rfl), field_skip (by rfl), field_skip (by rfl), field_here],
    by rw [bit_skip (by rfl), bit_skip (by rfl), bit_skip (by rfl), bit_skip (by rfl), bit_here],
    by rw [field_skip (by rfl), field_skip (by rfl), field_skip (by rfl), field_here],
    by rw [field_skip (by rfl), field_skip (by rfl), field_here],
    by rw [field_skip (by rfl), field_here]⟩

theorem WaitvArgs_major (m : BitVec 6) (f : BitVec 4) (o : WaitvArgs) : majorOf (o.toWord m f) = m.toNat :=
  congrArg BitVec.toNat (by rw [WaitvArgs.toWord, field_skip (by rfl), field_skip (by rfl), field_skip (by rfl), field_skip (by rfl), field_skip (by rfl), field_skip (by rfl), field_skip (by rfl), field_skip (by rfl), field_all])

theorem WaitvArgs_func (m : BitVec 6) (f : BitVec 4) (o : WaitvArgs) : funcOf (o.toWord m f) = f.toNat :=
  congrArg BitVec.toNat (by rw [WaitvArgs.toWord, field_skip (by rfl), field_skip (by rfl), field_skip (by rfl), field_skip (by rfl), field_skip (by rfl), field_skip (by rfl), field_skip (by rfl), field_here])

theorem TlwArgs_ofWord (m : BitVec 6) (f : BitVec 4) (o : TlwArgs) : TlwArgs.ofWord (o.toWord m f) = o := by
  obtain ⟨wn_, tl_, guard_⟩ := o
  simp only [TlwArgs.ofWord, TlwArgs.toWord, TlwArgs.mk.injEq]
  exact ⟨by rw [field_skip (by rfl), field_skip (by rfl), field_skip (by rfl), field_skip (by rfl), field_here],
    by rw [field_skip (by rfl), field_skip (by rfl), field_here],
    by rw [field_skip (by rfl), field_here]⟩

theorem TlwArgs_major (m : BitVec 6) (f : BitVec 4) (o : TlwArgs) : majorOf (o.toWord m f) = m.toNat :=
  congrArg BitVec.toNat (by rw [TlwArgs.toWord, field_skip (by rfl), field_skip (by rfl), field_skip (by rfl), field_skip (by rfl), field_skip (by rfl), field_skip (by rfl), field_skip (by rfl), field_skip (by rfl), field_all])

theorem TlwArgs_func (m : BitVec 6) (f : BitVec 4) (o : TlwArgs) : funcOf (o.toWord m f) = f.toNat :=
  congrArg BitVec.toNat (by rw [TlwArgs.toWord, field_skip (by rfl), field_skip (by rfl), field_skip (by rfl), field_skip (by rfl), field_skip (by rfl), field_skip (by rfl), field_skip (by rfl), field_here])

theorem TlrArgs_ofWord (m : BitVec 6) (f : BitVec 4) (o : TlrArgs) : TlrArgs.ofWord (o.toWord m f) = o := by
  obtain ⟨vd_, tl_, guard_⟩ := o
  simp only [TlrArgs.ofWord, TlrArgs.toWord, TlrArgs.mk.injEq]
  exact ⟨by rw [field_skip (by rfl), field_skip (by rfl), field_skip (by rfl), field_skip (by rfl), field_skip (by rfl), field_here],
    by rw [field_skip (by rfl), field_skip (by rfl), field_here],
    by rw [field_skip (by rfl), field_here]⟩

theorem TlrArgs_major (m : BitVec 6) (f : BitVec 4) (o : TlrArgs) : majorOf (o.toWord m f) = m.toNat :=
  congrArg BitVec.toNat (by rw [TlrArgs.toWord, field_skip (by rfl), field_skip (by rfl), field_skip (by rfl), field_skip (by rfl), field_skip (by rfl), field_skip (by rfl), field_skip (by rfl), field_all])

theorem TlrArgs_func (m : BitVec 6) (f : BitVec 4) (o : TlrArgs) : funcOf (o.toWord m f) = f.toNat :=
  congrArg BitVec.toNat (by rw [TlrArgs.toWord, field_skip (by rfl), field_skip (by rfl), field_skip (by rfl), field_skip (by rfl), field_skip (by rfl), field_skip (by rfl), field_here])

theorem SlpArgs_ofWord (m : BitVec 6) (f : BitVec 4) (o : SlpArgs) : SlpArgs.ofWord (o.toWord m f) = o := by
  obtain ⟨vt_, guard_⟩ := o
  simp only [SlpArgs.ofWord, SlpArgs.toWord, SlpArgs.mk.injEq]
  exact ⟨by rw [field_skip (by rfl), field_skip (by rfl), field_skip (by rfl), field_here],
    by rw [field_skip (by rfl), field_here]⟩

theorem SlpArgs_major (m : BitVec 6) (f : BitVec 4) (o : SlpArgs) : majorOf (o.toWord m f) = m.toNat :=
  congrArg BitVec.toNat (by rw [SlpArgs.toWord, field_skip (by rfl), field_skip (by rfl), field_skip (by rfl), field_skip (by rfl), field_skip (by rfl), field_skip (by rfl), field_all])

theorem SlpArgs_func (m : BitVec 6) (f : BitVec 4) (o : SlpArgs) : funcOf (o.toWord m f) = f.toNat :=
  congrArg BitVec.toNat (by rw [SlpArgs.toWord, field_skip (by rfl), field_skip (by rfl), field_skip (by rfl), field_skip (by rfl), field_skip (by rfl), field_here])

theorem RangeFArgs_ofWord (m : BitVec 6) (f : BitVec 4) (o : RangeFArgs) : RangeFArgs.ofWord (o.toWord m f) = o := by
  obtain ⟨wa_, wb_, ws_, guard_⟩ := o
  simp only [RangeFArgs.ofWord, RangeFArgs.toWord, RangeFArgs.mk.injEq]
  exact ⟨by rw [field_skip (by rfl), field_skip (by rfl), field_skip (by rfl), field_skip (by rfl), field_skip (by rfl), field_skip (by rfl), field_here],
    by rw [field_skip (by rfl), field_skip (by rfl), field_skip (by rfl), field_skip (by rfl), field_here],
    by rw [field_skip (by rfl), field_skip (by rfl), field_here],
    by rw [field_skip (by rfl), field_here]⟩

theorem RangeFArgs_major (m : BitVec 6) (f : BitVec 4) (o : RangeFArgs) : majorOf (o.toWord m f) = m.toNat :=
  congrArg BitVec.toNat (by rw [RangeFArgs.toWord, field_skip (by rfl), field_skip (by rfl), field_skip (by rfl), field_skip (by rfl), field_skip (by rfl), field_skip (by rfl), field_skip (by rfl), field_skip (by rfl), field_skip (by rfl), field_all])

theorem RangeFArgs_func (m : BitVec 6) (f : BitVec 4) (o : RangeFArgs) : funcOf (o.toWord m f) = f.toNat :=
  congrArg BitVec.toNat (by rw [RangeFArgs.toWord, field_skip (by rfl), field_skip (by rfl), field_skip (by rfl), field_skip (by rfl), field_skip (by rfl), field_skip (by rfl), field_skip (by rfl), field_skip (by rfl), field_here])

theorem QOpArgs_ofWord (m : BitVec 6) (f : BitVec 4) (o : QOpArgs) : QOpArgs.ofWord (o.toWord m f) = o := by
  obtain ⟨vd_, ws_, guard_, fs_⟩ := o
  simp only [QOpArgs.ofWord, QOpArgs.toWord, QOpArgs.mk.injEq]
  exact ⟨by rw [field_skip (by rfl), field_skip (by rfl), field_skip (by rfl), field_skip (by rfl), field_skip (by rfl), field_here],
    by rw [field_skip (by rfl), field_skip (by rfl), field_skip (by rfl), field_here],
    by rw [field_skip (by rfl), field_here],
    by rw [bit_here]⟩

theorem QOpArgs_major (m : BitVec 6) (f : BitVec 4) (o : QOpArgs) : majorOf (o.toWord m f) = m.toNat :=
  congrArg BitVec.toNat (by rw [QOpArgs.toWord, field_skip (by rfl), field_skip (by rfl), field_skip (by rfl), field_skip (by rfl), field_skip (by rfl), field_skip (by rfl), field_skip (by rfl), field_all])

theorem QOpArgs_func (m : BitVec 6) (f : BitVec 4) (o : QOpArgs) : funcOf (o.toWord m f) = f.toNat :=
  congrArg BitVec.toNat (by rw [QOpArgs.toWord, field_skip (by rfl), field_skip (by rfl), field_skip (by rfl), field_skip (by rfl), field_skip (by rfl), field_skip (by rfl), field_here])

theorem EnqFArgs_ofWord (m : BitVec 6) (f : BitVec 4) (o : EnqFArgs) : EnqFArgs.ofWord (o.toWord m f) = o := by
  obtain ⟨pd_, queue_, vs_, guard_⟩ := o
  simp only [EnqFArgs.ofWord, EnqFArgs.toWord, EnqFArgs.mk.injEq]
  exact ⟨by rw [field_skip (by rfl), field_skip (by rfl), field_skip (by rfl), field_skip (by rfl), field_skip (by rfl), field_here],
    by rw [field_skip (by rfl), field_skip (by rfl), field_skip (by rfl), field_here],
    by rw [field_skip (by rfl), field_skip (by rfl), field_here],
    by rw [field_skip (by rfl), field_here]⟩

theorem EnqFArgs_major (m : BitVec 6) (f : BitVec 4) (o : EnqFArgs) : majorOf (o.toWord m f) = m.toNat :=
  congrArg BitVec.toNat (by rw [EnqFArgs.toWord, field_skip (by rfl), field_skip (by rfl), field_skip (by rfl), field_skip (by rfl), field_skip (by rfl), field_skip (by rfl), field_skip (by rfl), field_skip (by rfl), field_all])

theorem EnqFArgs_func (m : BitVec 6) (f : BitVec 4) (o : EnqFArgs) : funcOf (o.toWord m f) = f.toNat :=
  congrArg BitVec.toNat (by rw [EnqFArgs.toWord, field_skip (by rfl), field_skip (by rfl), field_skip (by rfl), field_skip (by rfl), field_skip (by rfl), field_skip (by rfl), field_skip (by rfl), field_here])

theorem StqFArgs_ofWord (m : BitVec 6) (f : BitVec 4) (o : StqFArgs) : StqFArgs.ofWord (o.toWord m f) = o := by
  obtain ⟨vd_, queue_, guard_⟩ := o
  simp only [StqFArgs.ofWord, StqFArgs.toWord, StqFArgs.mk.injEq]
  exact ⟨by rw [field_skip (by rfl), field_skip (by rfl), field_skip (by rfl), field_skip (by rfl), field_skip (by rfl), field_here],
    by rw [field_skip (by rfl), field_skip (by rfl), field_skip (by rfl), field_here],
    by rw [field_skip (by rfl), field_here]⟩

theorem StqFArgs_major (m : BitVec 6) (f : BitVec 4) (o : StqFArgs) : majorOf (o.toWord m f) = m.toNat :=
  congrArg BitVec.toNat (by rw [StqFArgs.toWord, field_skip (by rfl), field_skip (by rfl), field_skip (by rfl), field_skip (by rfl), field_skip (by rfl), field_skip (by rfl), field_skip (by rfl), field_all])

theorem StqFArgs_func (m : BitVec 6) (f : BitVec 4) (o : StqFArgs) : funcOf (o.toWord m f) = f.toNat :=
  congrArg BitVec.toNat (by rw [StqFArgs.toWord, field_skip (by rfl), field_skip (by rfl), field_skip (by rfl), field_skip (by rfl), field_skip (by rfl), field_skip (by rfl), field_here])

theorem DlArgs_ofWord (m : BitVec 6) (f : BitVec 4) (o : DlArgs) : DlArgs.ofWord (o.toWord m f) = o := by
  obtain ⟨pd_, wd_, wh_, guard_⟩ := o
  simp only [DlArgs.ofWord, DlArgs.toWord, DlArgs.mk.injEq]
  exact ⟨by rw [field_skip (by rfl), field_skip (by rfl), field_skip (by rfl), field_skip (by rfl), field_skip (by rfl), field_skip (by rfl), field_here],
    by rw [field_skip (by rfl), field_skip (by rfl), field_skip (by rfl), field_skip (by rfl), field_here],
    by rw [field_skip (by rfl), field_skip (by rfl), field_here],
    by rw [field_skip (by rfl), field_here]⟩

theorem DlArgs_major (m : BitVec 6) (f : BitVec 4) (o : DlArgs) : majorOf (o.toWord m f) = m.toNat :=
  congrArg BitVec.toNat (by rw [DlArgs.toWord, field_skip (by rfl), field_skip (by rfl), field_skip (by rfl), field_skip (by rfl), field_skip (by rfl), field_skip (by rfl), field_skip (by rfl), field_skip (by rfl), field_skip (by rfl), field_all])

theorem DlArgs_func (m : BitVec 6) (f : BitVec 4) (o : DlArgs) : funcOf (o.toWord m f) = f.toNat :=
  congrArg BitVec.toNat (by rw [DlArgs.toWord, field_skip (by rfl), field_skip (by rfl), field_skip (by rfl), field_skip (by rfl), field_skip (by rfl), field_skip (by rfl), field_skip (by rfl), field_skip (by rfl), field_here])

theorem TrapFArgs_ofWord (m : BitVec 6) (f : BitVec 4) (o : TrapFArgs) : TrapFArgs.ofWord (o.toWord m f) = o := by
  obtain ⟨code_, guard_⟩ := o
  simp only [TrapFArgs.ofWord, TrapFArgs.toWord, TrapFArgs.mk.injEq]
  exact ⟨by rw [field_skip (by rfl), field_skip (by rfl), field_here],
    by rw [field_skip (by rfl), field_here]⟩

theorem TrapFArgs_major (m : BitVec 6) (f : BitVec 4) (o : TrapFArgs) : majorOf (o.toWord m f) = m.toNat :=
  congrArg BitVec.toNat (by rw [TrapFArgs.toWord, field_skip (by rfl), field_skip (by rfl), field_skip (by rfl), field_skip (by rfl), field_skip (by rfl), field_skip (by rfl), field_all])

theorem TrapFArgs_func (m : BitVec 6) (f : BitVec 4) (o : TrapFArgs) : funcOf (o.toWord m f) = f.toNat :=
  congrArg BitVec.toNat (by rw [TrapFArgs.toWord, field_skip (by rfl), field_skip (by rfl), field_skip (by rfl), field_skip (by rfl), field_skip (by rfl), field_here])

theorem SyscFArgs_ofWord (m : BitVec 6) (f : BitVec 4) (o : SyscFArgs) : SyscFArgs.ofWord (o.toWord m f) = o := by
  obtain ⟨vd_, va_, guard_, fs_⟩ := o
  simp only [SyscFArgs.ofWord, SyscFArgs.toWord, SyscFArgs.mk.injEq]
  exact ⟨by rw [field_skip (by rfl), field_skip (by rfl), field_skip (by rfl), field_skip (by rfl), field_here],
    by rw [field_skip (by rfl), field_skip (by rfl), field_skip (by rfl), field_here],
    by rw [field_skip (by rfl), field_here],
    by rw [bit_here]⟩

theorem SyscFArgs_major (m : BitVec 6) (f : BitVec 4) (o : SyscFArgs) : majorOf (o.toWord m f) = m.toNat :=
  congrArg BitVec.toNat (by rw [SyscFArgs.toWord, field_skip (by rfl), field_skip (by rfl), field_skip (by rfl), field_skip (by rfl), field_skip (by rfl), field_skip (by rfl), field_all])

theorem SyscFArgs_func (m : BitVec 6) (f : BitVec 4) (o : SyscFArgs) : funcOf (o.toWord m f) = f.toNat :=
  congrArg BitVec.toNat (by rw [SyscFArgs.toWord, field_skip (by rfl), field_skip (by rfl), field_skip (by rfl), field_skip (by rfl), field_skip (by rfl), field_here])

theorem S2vFArgs_ofWord (m : BitVec 6) (f : BitVec 4) (o : S2vFArgs) : S2vFArgs.ofWord (o.toWord m f) = o := by
  obtain ⟨vd_, num_, guard_⟩ := o
  simp only [S2vFArgs.ofWord, S2vFArgs.toWord, S2vFArgs.mk.injEq]
  exact ⟨by rw [field_skip (by rfl), field_skip (by rfl), field_skip (by rfl), field_skip (by rfl), field_here],
    by rw [field_skip (by rfl), field_skip (by rfl), field_here],
    by rw [field_skip (by rfl), field_here]⟩

theorem S2vFArgs_major (m : BitVec 6) (f : BitVec 4) (o : S2vFArgs) : majorOf (o.toWord m f) = m.toNat :=
  congrArg BitVec.toNat (by rw [S2vFArgs.toWord, field_skip (by rfl), field_skip (by rfl), field_skip (by rfl), field_skip (by rfl), field_skip (by rfl), field_skip (by rfl), field_all])

theorem S2vFArgs_func (m : BitVec 6) (f : BitVec 4) (o : S2vFArgs) : funcOf (o.toWord m f) = f.toNat :=
  congrArg BitVec.toNat (by rw [S2vFArgs.toWord, field_skip (by rfl), field_skip (by rfl), field_skip (by rfl), field_skip (by rfl), field_skip (by rfl), field_here])

theorem V2sFArgs_ofWord (m : BitVec 6) (f : BitVec 4) (o : V2sFArgs) : V2sFArgs.ofWord (o.toWord m f) = o := by
  obtain ⟨va_, num_, guard_⟩ := o
  simp only [V2sFArgs.ofWord, V2sFArgs.toWord, V2sFArgs.mk.injEq]
  exact ⟨by rw [field_skip (by rfl), field_skip (by rfl), field_skip (by rfl), field_here],
    by rw [field_skip (by rfl), field_skip (by rfl), field_here],
    by rw [field_skip (by rfl), field_here]⟩

theorem V2sFArgs_major (m : BitVec 6) (f : BitVec 4) (o : V2sFArgs) : majorOf (o.toWord m f) = m.toNat :=
  congrArg BitVec.toNat (by rw [V2sFArgs.toWord, field_skip (by rfl), field_skip (by rfl), field_skip (by rfl), field_skip (by rfl), field_skip (by rfl), field_skip (by rfl), field_all])

theorem V2sFArgs_func (m : BitVec 6) (f : BitVec 4) (o : V2sFArgs) : funcOf (o.toWord m f) = f.toNat :=
  congrArg BitVec.toNat (by rw [V2sFArgs.toWord, field_skip (by rfl), field_skip (by rfl), field_skip (by rfl), field_skip (by rfl), field_skip (by rfl), field_here])

theorem TlbiFArgs_ofWord (m : BitVec 6) (f : BitVec 4) (o : TlbiFArgs) : TlbiFArgs.ofWord (o.toWord m f) = o := by
  obtain ⟨va_, guard_⟩ := o
  simp only [TlbiFArgs.ofWord, TlbiFArgs.toWord, TlbiFArgs.mk.injEq]
  exact ⟨by rw [field_skip (by rfl), field_skip (by rfl), field_skip (by rfl), field_here],
    by rw [field_skip (by rfl), field_here]⟩

theorem TlbiFArgs_major (m : BitVec 6) (f : BitVec 4) (o : TlbiFArgs) : majorOf (o.toWord m f) = m.toNat :=
  congrArg BitVec.toNat (by rw [TlbiFArgs.toWord, field_skip (by rfl), field_skip (by rfl), field_skip (by rfl), field_skip (by rfl), field_skip (by rfl), field_skip (by rfl), field_all])

theorem TlbiFArgs_func (m : BitVec 6) (f : BitVec 4) (o : TlbiFArgs) : funcOf (o.toWord m f) = f.toNat :=
  congrArg BitVec.toNat (by rw [TlbiFArgs.toWord, field_skip (by rfl), field_skip (by rfl), field_skip (by rfl), field_skip (by rfl), field_skip (by rfl), field_here])

/-! ## Majors -/

theorem rawDecode_0 (arith : Bool) {w : Word} (h : majorOf w = 0) :
    rawDecode arith w = decodeIalu w (funcOf w) := by
  unfold rawDecode; rw [h]; rfl

theorem rawDecode_1 (arith : Bool) {w : Word} (h : majorOf w = 1) :
    rawDecode arith w = decodeIalui w (funcOf w) := by
  unfold rawDecode; rw [h]; rfl

theorem rawDecode_2 (arith : Bool) {w : Word} (h : majorOf w = 2) :
    rawDecode arith w = decodeLogic w (funcOf w) := by
  unfold rawDecode; rw [h]; rfl

theorem rawDecode_3 (arith : Bool) {w : Word} (h : majorOf w = 3) :
    rawDecode arith w = decodeLogici w (funcOf w) := by
  unfold rawDecode; rw [h]; rfl

theorem rawDecode_4 (arith : Bool) {w : Word} (h : majorOf w = 4) :
    rawDecode arith w = decodeBits w (funcOf w) := by
  unfold rawDecode; rw [h]; rfl

theorem rawDecode_5 (arith : Bool) {w : Word} (h : majorOf w = 5) :
    rawDecode arith w = decodeImad w (funcOf w) := by
  unfold rawDecode; rw [h]; rfl

theorem rawDecode_6 (arith : Bool) {w : Word} (h : majorOf w = 6) :
    rawDecode arith w = decodeMove w (funcOf w) := by
  unfold rawDecode; rw [h]; rfl

theorem rawDecode_7 (arith : Bool) {w : Word} (h : majorOf w = 7) :
    rawDecode arith w = decodeWreg w (funcOf w) := by
  unfold rawDecode; rw [h]; rfl

theorem rawDecode_8 (arith : Bool) {w : Word} (h : majorOf w = 8) :
    rawDecode arith w = decodeFalu w (funcOf w) := by
  unfold rawDecode; rw [h]; rfl

theorem rawDecode_9 (arith : Bool) {w : Word} (h : majorOf w = 9) :
    rawDecode arith w = decodeFfma w (funcOf w) := by
  unfold rawDecode; rw [h]; rfl

theorem rawDecode_10 (arith : Bool) {w : Word} (h : majorOf w = 10) :
    rawDecode arith w = decodeFpk16 w (funcOf w) := by
  unfold rawDecode; rw [h]; rfl

theorem rawDecode_11 (arith : Bool) {w : Word} (h : majorOf w = 11) :
    rawDecode arith w = decodeFcvt w (funcOf w) := by
  unfold rawDecode; rw [h]; rfl

theorem rawDecode_12 (arith : Bool) {w : Word} (h : majorOf w = 12) :
    rawDecode arith w = decodeSfu w (funcOf w) := by
  unfold rawDecode; rw [h]; rfl

theorem rawDecode_14 (arith : Bool) {w : Word} (h : majorOf w = 14) :
    rawDecode arith w = decodeXlane w (funcOf w) := by
  unfold rawDecode; rw [h]; rfl

theorem rawDecode_16 (arith : Bool) {w : Word} (h : majorOf w = 16) :
    rawDecode arith w = some (.ceq (.ofWord w)) := by
  unfold rawDecode; rw [h]; rfl

theorem rawDecode_17 (arith : Bool) {w : Word} (h : majorOf w = 17) :
    rawDecode arith w = some (.cne (.ofWord w)) := by
  unfold rawDecode; rw [h]; rfl

theorem rawDecode_18 (arith : Bool) {w : Word} (h : majorOf w = 18) :
    rawDecode arith w = some (.clt (.ofWord w)) := by
  unfold rawDecode; rw [h]; rfl

theorem rawDecode_19 (arith : Bool) {w : Word} (h : majorOf w = 19) :
    rawDecode arith w = some (.cle (.ofWord w)) := by
  unfold rawDecode; rw [h]; rfl

theorem rawDecode_20 (arith : Bool) {w : Word} (h : majorOf w = 20) :
    rawDecode arith w = some (.cgt (.ofWord w)) := by
  unfold rawDecode; rw [h]; rfl

theorem rawDecode_21 (arith : Bool) {w : Word} (h : majorOf w = 21) :
    rawDecode arith w = some (.cge (.ofWord w)) := by
  unfold rawDecode; rw [h]; rfl

theorem rawDecode_22 (arith : Bool) {w : Word} (h : majorOf w = 22) :
    rawDecode arith w = some (.ctany (.ofWord w)) := by
  unfold rawDecode; rw [h]; rfl

theorem rawDecode_23 (arith : Bool) {w : Word} (h : majorOf w = 23) :
    rawDecode arith w = some (.ctnone (.ofWord w)) := by
  unfold rawDecode; rw [h]; rfl

theorem rawDecode_24 (arith : Bool) {w : Word} (h : majorOf w = 24) :
    rawDecode arith w = decodePred w (funcOf w) := by
  unfold rawDecode; rw [h]; rfl

theorem rawDecode_25 (arith : Bool) {w : Word} (h : majorOf w = 25) :
    rawDecode arith w = decodeBr w (funcOf w) := by
  unfold rawDecode; rw [h]; rfl

theorem rawDecode_26 (arith : Bool) {w : Word} (h : majorOf w = 26) :
    rawDecode arith w = decodeCtl w (funcOf w) := by
  unfold rawDecode; rw [h]; rfl

theorem rawDecode_32 (arith : Bool) {w : Word} (h : majorOf w = 32) :
    rawDecode arith w = decodeLd w (funcOf w) := by
  unfold rawDecode; rw [h]; rfl

theorem rawDecode_33 (arith : Bool) {w : Word} (h : majorOf w = 33) :
    rawDecode arith w = decodeSt w (funcOf w) := by
  unfold rawDecode; rw [h]; rfl

theorem rawDecode_34 (arith : Bool) {w : Word} (h : majorOf w = 34) :
    rawDecode arith w = decodeSpad w (funcOf w) := by
  unfold rawDecode; rw [h]; rfl

theorem rawDecode_35 (arith : Bool) {w : Word} (h : majorOf w = 35) :
    rawDecode arith w = decodeAtom w (funcOf w) := by
  unfold rawDecode; rw [h]; rfl

theorem rawDecode_36 (arith : Bool) {w : Word} (h : majorOf w = 36) :
    rawDecode arith w = decodeRedm w (funcOf w) := by
  unfold rawDecode; rw [h]; rfl

theorem rawDecode_37 (arith : Bool) {w : Word} (h : majorOf w = 37) :
    rawDecode arith w = decodeMctl w (funcOf w) := by
  unfold rawDecode; rw [h]; rfl

theorem rawDecode_38 (arith : Bool) {w : Word} (h : majorOf w = 38) :
    rawDecode arith w = decodeQblk w (funcOf w) := by
  unfold rawDecode; rw [h]; rfl

theorem rawDecode_40 (arith : Bool) {w : Word} (h : majorOf w = 40) :
    rawDecode arith w = decodeMtx w (funcOf w) := by
  unfold rawDecode; rw [h]; rfl

theorem rawDecode_41 (arith : Bool) {w : Word} (h : majorOf w = 41) :
    rawDecode arith w = decodeCpy w (funcOf w) := by
  unfold rawDecode; rw [h]; rfl

theorem rawDecode_42 (arith : Bool) {w : Word} (h : majorOf w = 42) :
    rawDecode arith w = decodeRow w (funcOf w) := by
  unfold rawDecode; rw [h]; rfl

theorem rawDecode_43 (arith : Bool) {w : Word} (h : majorOf w = 43) :
    rawDecode arith w = decodeSync w (funcOf w) := by
  unfold rawDecode; rw [h]; rfl

theorem rawDecode_44 (arith : Bool) {w : Word} (h : majorOf w = 44) :
    rawDecode arith w = decodeTier w (funcOf w) := by
  unfold rawDecode; rw [h]; rfl

theorem rawDecode_45 (arith : Bool) {w : Word} (h : majorOf w = 45) :
    rawDecode arith w = decodeSched w (funcOf w) := by
  unfold rawDecode; rw [h]; rfl

theorem rawDecode_46 (arith : Bool) {w : Word} (h : majorOf w = 46) :
    rawDecode arith w = decodeSys w (funcOf w) := by
  unfold rawDecode; rw [h]; rfl

theorem rawDecode_60 (arith : Bool) {w : Word} (h : majorOf w = 60) :
    rawDecode arith w = some (.hint (.ofWord w)) := by
  unfold rawDecode; rw [h]; rfl

theorem rawDecode_61 (arith : Bool) {w : Word} (h : majorOf w = 61) :
    rawDecode arith w = some (.immediateExtension (.ofWord w)) := by
  unfold rawDecode; rw [h]; rfl

theorem rawDecode_62 (arith : Bool) {w : Word} (h : majorOf w = 62) :
    rawDecode arith w = some (if arith then .arithmeticPrefix (.ofWord w) else .memoryPrefix (.ofWord w)) := by
  unfold rawDecode; rw [h]; rfl

theorem rawDecode_63 (arith : Bool) {w : Word} (h : majorOf w = 63) :
    rawDecode arith w = some (.clauseHeader (.ofWord w)) := by
  unfold rawDecode; rw [h]; rfl

/-! ## The family -/

/-- The word of an instruction is read back to it, a prefix word under the reading that it is of. -/
def Readback.Statement (i : Instr) : Prop :=
  ∀ w arith, i.encode = some w → (∀ o, i = .arithmeticPrefix o → arith = true) →
    (∀ o, i = .memoryPrefix o → arith = false) → rawDecode arith w = some i

theorem Readback.clauseHeader (o : HeaderArgs) : Readback.Statement (.clauseHeader o) := by
  intro w arith h ha hm; obtain rfl := Option.some.inj h
  rw [rawDecode_63 _ (HeaderArgs_major _ o)]
  exact congrArg (fun x => some (Instr.clauseHeader x)) (HeaderArgs_ofWord _ o)

theorem Readback.hint (o : HintArgs) : Readback.Statement (.hint o) := by
  intro w arith h ha hm; obtain rfl := Option.some.inj h
  rw [rawDecode_60 _ (HintArgs_major _ o)]
  exact congrArg (fun x => some (Instr.hint x)) (HintArgs_ofWord _ o)

theorem Readback.immediateExtension (o : ExtArgs) : Readback.Statement (.immediateExtension o) := by
  intro w arith h ha hm; obtain rfl := Option.some.inj h
  rw [rawDecode_61 _ (ExtArgs_major _ o)]
  exact congrArg (fun x => some (Instr.immediateExtension x)) (ExtArgs_ofWord _ o)

theorem Readback.arithmeticPrefix (o : ArithPrefixArgs) : Readback.Statement (.arithmeticPrefix o) := by
  intro w arith h ha hm; obtain rfl := Option.some.inj h
  obtain rfl := ha _ rfl
  rw [rawDecode_62 _ (ArithPrefixArgs_major _ o)]
  exact congrArg (fun x => some (Instr.arithmeticPrefix x)) (ArithPrefixArgs_ofWord _ o)

theorem Readback.memoryPrefix (o : MemPrefixArgs) : Readback.Statement (.memoryPrefix o) := by
  intro w arith h ha hm; obtain rfl := Option.some.inj h
  obtain rfl := hm _ rfl
  rw [rawDecode_62 _ (MemPrefixArgs_major _ o)]
  exact congrArg (fun x => some (Instr.memoryPrefix x)) (MemPrefixArgs_ofWord _ o)

theorem Readback.iadd (o : V3Args) : Readback.Statement (.iadd o) := by
  intro w arith h ha hm; obtain rfl := Option.some.inj h
  rw [rawDecode_0 _ (V3Args_major _ _ o), V3Args_func]
  exact congrArg (fun x => some (Instr.iadd x)) (V3Args_ofWord _ _ o)

theorem Readback.isub (o : V3Args) : Readback.Statement (.isub o) := by
  intro w arith h ha hm; obtain rfl := Option.some.inj h
  rw [rawDecode_0 _ (V3Args_major _ _ o), V3Args_func]
  exact congrArg (fun x => some (Instr.isub x)) (V3Args_ofWord _ _ o)

theorem Readback.imul (o : V3Args) : Readback.Statement (.imul o) := by
  intro w arith h ha hm; obtain rfl := Option.some.inj h
  rw [rawDecode_0 _ (V3Args_major _ _ o), V3Args_func]
  exact congrArg (fun x => some (Instr.imul x)) (V3Args_ofWord _ _ o)

theorem Readback.imulhs (o : V3Args) : Readback.Statement (.imulhs o) := by
  intro w arith h ha hm; obtain rfl := Option.some.inj h
  rw [rawDecode_0 _ (V3Args_major _ _ o), V3Args_func]
  exact congrArg (fun x => some (Instr.imulhs x)) (V3Args_ofWord _ _ o)

theorem Readback.imulhu (o : V3Args) : Readback.Statement (.imulhu o) := by
  intro w arith h ha hm; obtain rfl := Option.some.inj h
  rw [rawDecode_0 _ (V3Args_major _ _ o), V3Args_func]
  exact congrArg (fun x => some (Instr.imulhu x)) (V3Args_ofWord _ _ o)

theorem Readback.imins (o : V3Args) : Readback.Statement (.imins o) := by
  intro w arith h ha hm; obtain rfl := Option.some.inj h
  rw [rawDecode_0 _ (V3Args_major _ _ o), V3Args_func]
  exact congrArg (fun x => some (Instr.imins x)) (V3Args_ofWord _ _ o)

theorem Readback.imaxs (o : V3Args) : Readback.Statement (.imaxs o) := by
  intro w arith h ha hm; obtain rfl := Option.some.inj h
  rw [rawDecode_0 _ (V3Args_major _ _ o), V3Args_func]
  exact congrArg (fun x => some (Instr.imaxs x)) (V3Args_ofWord _ _ o)

theorem Readback.iminu (o : V3Args) : Readback.Statement (.iminu o) := by
  intro w arith h ha hm; obtain rfl := Option.some.inj h
  rw [rawDecode_0 _ (V3Args_major _ _ o), V3Args_func]
  exact congrArg (fun x => some (Instr.iminu x)) (V3Args_ofWord _ _ o)

theorem Readback.imaxu (o : V3Args) : Readback.Statement (.imaxu o) := by
  intro w arith h ha hm; obtain rfl := Option.some.inj h
  rw [rawDecode_0 _ (V3Args_major _ _ o), V3Args_func]
  exact congrArg (fun x => some (Instr.imaxu x)) (V3Args_ofWord _ _ o)

theorem Readback.iaddss (o : V3Args) : Readback.Statement (.iaddss o) := by
  intro w arith h ha hm; obtain rfl := Option.some.inj h
  rw [rawDecode_0 _ (V3Args_major _ _ o), V3Args_func]
  exact congrArg (fun x => some (Instr.iaddss x)) (V3Args_ofWord _ _ o)

theorem Readback.isubss (o : V3Args) : Readback.Statement (.isubss o) := by
  intro w arith h ha hm; obtain rfl := Option.some.inj h
  rw [rawDecode_0 _ (V3Args_major _ _ o), V3Args_func]
  exact congrArg (fun x => some (Instr.isubss x)) (V3Args_ofWord _ _ o)

theorem Readback.iaddI (o : VIArgs) : Readback.Statement (.iaddI o) := by
  intro w arith h ha hm; obtain rfl := Option.some.inj h
  rw [rawDecode_1 _ (VIArgs_major _ _ o), VIArgs_func]
  exact congrArg (fun x => some (Instr.iaddI x)) (VIArgs_ofWord _ _ o)

theorem Readback.isubI (o : VIArgs) : Readback.Statement (.isubI o) := by
  intro w arith h ha hm; obtain rfl := Option.some.inj h
  rw [rawDecode_1 _ (VIArgs_major _ _ o), VIArgs_func]
  exact congrArg (fun x => some (Instr.isubI x)) (VIArgs_ofWord _ _ o)

theorem Readback.imulI (o : VIArgs) : Readback.Statement (.imulI o) := by
  intro w arith h ha hm; obtain rfl := Option.some.inj h
  rw [rawDecode_1 _ (VIArgs_major _ _ o), VIArgs_func]
  exact congrArg (fun x => some (Instr.imulI x)) (VIArgs_ofWord _ _ o)

theorem Readback.imulhsI (o : VIArgs) : Readback.Statement (.imulhsI o) := by
  intro w arith h ha hm; obtain rfl := Option.some.inj h
  rw [rawDecode_1 _ (VIArgs_major _ _ o), VIArgs_func]
  exact congrArg (fun x => some (Instr.imulhsI x)) (VIArgs_ofWord _ _ o)

theorem Readback.imulhuI (o : VIArgs) : Readback.Statement (.imulhuI o) := by
  intro w arith h ha hm; obtain rfl := Option.some.inj h
  rw [rawDecode_1 _ (VIArgs_major _ _ o), VIArgs_func]
  exact congrArg (fun x => some (Instr.imulhuI x)) (VIArgs_ofWord _ _ o)

theorem Readback.iminsI (o : VIArgs) : Readback.Statement (.iminsI o) := by
  intro w arith h ha hm; obtain rfl := Option.some.inj h
  rw [rawDecode_1 _ (VIArgs_major _ _ o), VIArgs_func]
  exact congrArg (fun x => some (Instr.iminsI x)) (VIArgs_ofWord _ _ o)

theorem Readback.imaxsI (o : VIArgs) : Readback.Statement (.imaxsI o) := by
  intro w arith h ha hm; obtain rfl := Option.some.inj h
  rw [rawDecode_1 _ (VIArgs_major _ _ o), VIArgs_func]
  exact congrArg (fun x => some (Instr.imaxsI x)) (VIArgs_ofWord _ _ o)

theorem Readback.iminuI (o : VIArgs) : Readback.Statement (.iminuI o) := by
  intro w arith h ha hm; obtain rfl := Option.some.inj h
  rw [rawDecode_1 _ (VIArgs_major _ _ o), VIArgs_func]
  exact congrArg (fun x => some (Instr.iminuI x)) (VIArgs_ofWord _ _ o)

theorem Readback.imaxuI (o : VIArgs) : Readback.Statement (.imaxuI o) := by
  intro w arith h ha hm; obtain rfl := Option.some.inj h
  rw [rawDecode_1 _ (VIArgs_major _ _ o), VIArgs_func]
  exact congrArg (fun x => some (Instr.imaxuI x)) (VIArgs_ofWord _ _ o)

theorem Readback.iaddssI (o : VIArgs) : Readback.Statement (.iaddssI o) := by
  intro w arith h ha hm; obtain rfl := Option.some.inj h
  rw [rawDecode_1 _ (VIArgs_major _ _ o), VIArgs_func]
  exact congrArg (fun x => some (Instr.iaddssI x)) (VIArgs_ofWord _ _ o)

theorem Readback.isubssI (o : VIArgs) : Readback.Statement (.isubssI o) := by
  intro w arith h ha hm; obtain rfl := Option.some.inj h
  rw [rawDecode_1 _ (VIArgs_major _ _ o), VIArgs_func]
  exact congrArg (fun x => some (Instr.isubssI x)) (VIArgs_ofWord _ _ o)

theorem Readback.and (o : V3Args) : Readback.Statement (.and o) := by
  intro w arith h ha hm; obtain rfl := Option.some.inj h
  rw [rawDecode_2 _ (V3Args_major _ _ o), V3Args_func]
  exact congrArg (fun x => some (Instr.and x)) (V3Args_ofWord _ _ o)

theorem Readback.or (o : V3Args) : Readback.Statement (.or o) := by
  intro w arith h ha hm; obtain rfl := Option.some.inj h
  rw [rawDecode_2 _ (V3Args_major _ _ o), V3Args_func]
  exact congrArg (fun x => some (Instr.or x)) (V3Args_ofWord _ _ o)

theorem Readback.xor (o : V3Args) : Readback.Statement (.xor o) := by
  intro w arith h ha hm; obtain rfl := Option.some.inj h
  rw [rawDecode_2 _ (V3Args_major _ _ o), V3Args_func]
  exact congrArg (fun x => some (Instr.xor x)) (V3Args_ofWord _ _ o)

theorem Readback.andn (o : V3Args) : Readback.Statement (.andn o) := by
  intro w arith h ha hm; obtain rfl := Option.some.inj h
  rw [rawDecode_2 _ (V3Args_major _ _ o), V3Args_func]
  exact congrArg (fun x => some (Instr.andn x)) (V3Args_ofWord _ _ o)

theorem Readback.orn (o : V3Args) : Readback.Statement (.orn o) := by
  intro w arith h ha hm; obtain rfl := Option.some.inj h
  rw [rawDecode_2 _ (V3Args_major _ _ o), V3Args_func]
  exact congrArg (fun x => some (Instr.orn x)) (V3Args_ofWord _ _ o)

theorem Readback.xnor (o : V3Args) : Readback.Statement (.xnor o) := by
  intro w arith h ha hm; obtain rfl := Option.some.inj h
  rw [rawDecode_2 _ (V3Args_major _ _ o), V3Args_func]
  exact congrArg (fun x => some (Instr.xnor x)) (V3Args_ofWord _ _ o)

theorem Readback.shl (o : V3Args) : Readback.Statement (.shl o) := by
  intro w arith h ha hm; obtain rfl := Option.some.inj h
  rw [rawDecode_2 _ (V3Args_major _ _ o), V3Args_func]
  exact congrArg (fun x => some (Instr.shl x)) (V3Args_ofWord _ _ o)

theorem Readback.shr (o : V3Args) : Readback.Statement (.shr o) := by
  intro w arith h ha hm; obtain rfl := Option.some.inj h
  rw [rawDecode_2 _ (V3Args_major _ _ o), V3Args_func]
  exact congrArg (fun x => some (Instr.shr x)) (V3Args_ofWord _ _ o)

theorem Readback.sar (o : V3Args) : Readback.Statement (.sar o) := by
  intro w arith h ha hm; obtain rfl := Option.some.inj h
  rw [rawDecode_2 _ (V3Args_major _ _ o), V3Args_func]
  exact congrArg (fun x => some (Instr.sar x)) (V3Args_ofWord _ _ o)

theorem Readback.rotl (o : V3Args) : Readback.Statement (.rotl o) := by
  intro w arith h ha hm; obtain rfl := Option.some.inj h
  rw [rawDecode_2 _ (V3Args_major _ _ o), V3Args_func]
  exact congrArg (fun x => some (Instr.rotl x)) (V3Args_ofWord _ _ o)

theorem Readback.rotr (o : V3Args) : Readback.Statement (.rotr o) := by
  intro w arith h ha hm; obtain rfl := Option.some.inj h
  rw [rawDecode_2 _ (V3Args_major _ _ o), V3Args_func]
  exact congrArg (fun x => some (Instr.rotr x)) (V3Args_ofWord _ _ o)

theorem Readback.andI (o : VIArgs) : Readback.Statement (.andI o) := by
  intro w arith h ha hm; obtain rfl := Option.some.inj h
  rw [rawDecode_3 _ (VIArgs_major _ _ o), VIArgs_func]
  exact congrArg (fun x => some (Instr.andI x)) (VIArgs_ofWord _ _ o)

theorem Readback.orI (o : VIArgs) : Readback.Statement (.orI o) := by
  intro w arith h ha hm; obtain rfl := Option.some.inj h
  rw [rawDecode_3 _ (VIArgs_major _ _ o), VIArgs_func]
  exact congrArg (fun x => some (Instr.orI x)) (VIArgs_ofWord _ _ o)

theorem Readback.xorI (o : VIArgs) : Readback.Statement (.xorI o) := by
  intro w arith h ha hm; obtain rfl := Option.some.inj h
  rw [rawDecode_3 _ (VIArgs_major _ _ o), VIArgs_func]
  exact congrArg (fun x => some (Instr.xorI x)) (VIArgs_ofWord _ _ o)

theorem Readback.andnI (o : VIArgs) : Readback.Statement (.andnI o) := by
  intro w arith h ha hm; obtain rfl := Option.some.inj h
  rw [rawDecode_3 _ (VIArgs_major _ _ o), VIArgs_func]
  exact congrArg (fun x => some (Instr.andnI x)) (VIArgs_ofWord _ _ o)

theorem Readback.ornI (o : VIArgs) : Readback.Statement (.ornI o) := by
  intro w arith h ha hm; obtain rfl := Option.some.inj h
  rw [rawDecode_3 _ (VIArgs_major _ _ o), VIArgs_func]
  exact congrArg (fun x => some (Instr.ornI x)) (VIArgs_ofWord _ _ o)

theorem Readback.xnorI (o : VIArgs) : Readback.Statement (.xnorI o) := by
  intro w arith h ha hm; obtain rfl := Option.some.inj h
  rw [rawDecode_3 _ (VIArgs_major _ _ o), VIArgs_func]
  exact congrArg (fun x => some (Instr.xnorI x)) (VIArgs_ofWord _ _ o)

theorem Readback.shlI (o : VIArgs) : Readback.Statement (.shlI o) := by
  intro w arith h ha hm; obtain rfl := Option.some.inj h
  rw [rawDecode_3 _ (VIArgs_major _ _ o), VIArgs_func]
  exact congrArg (fun x => some (Instr.shlI x)) (VIArgs_ofWord _ _ o)

theorem Readback.shrI (o : VIArgs) : Readback.Statement (.shrI o) := by
  intro w arith h ha hm; obtain rfl := Option.some.inj h
  rw [rawDecode_3 _ (VIArgs_major _ _ o), VIArgs_func]
  exact congrArg (fun x => some (Instr.shrI x)) (VIArgs_ofWord _ _ o)

theorem Readback.sarI (o : VIArgs) : Readback.Statement (.sarI o) := by
  intro w arith h ha hm; obtain rfl := Option.some.inj h
  rw [rawDecode_3 _ (VIArgs_major _ _ o), VIArgs_func]
  exact congrArg (fun x => some (Instr.sarI x)) (VIArgs_ofWord _ _ o)

theorem Readback.rotlI (o : VIArgs) : Readback.Statement (.rotlI o) := by
  intro w arith h ha hm; obtain rfl := Option.some.inj h
  rw [rawDecode_3 _ (VIArgs_major _ _ o), VIArgs_func]
  exact congrArg (fun x => some (Instr.rotlI x)) (VIArgs_ofWord _ _ o)

theorem Readback.rotrI (o : VIArgs) : Readback.Statement (.rotrI o) := by
  intro w arith h ha hm; obtain rfl := Option.some.inj h
  rw [rawDecode_3 _ (VIArgs_major _ _ o), VIArgs_func]
  exact congrArg (fun x => some (Instr.rotrI x)) (VIArgs_ofWord _ _ o)

theorem Readback.popc (o : V2Args) : Readback.Statement (.popc o) := by
  intro w arith h ha hm; obtain rfl := Option.some.inj h
  rw [rawDecode_4 _ (V2Args_major _ _ o), V2Args_func]
  exact congrArg (fun x => some (Instr.popc x)) (V2Args_ofWord _ _ o)

theorem Readback.clz (o : V2Args) : Readback.Statement (.clz o) := by
  intro w arith h ha hm; obtain rfl := Option.some.inj h
  rw [rawDecode_4 _ (V2Args_major _ _ o), V2Args_func]
  exact congrArg (fun x => some (Instr.clz x)) (V2Args_ofWord _ _ o)

theorem Readback.ctz (o : V2Args) : Readback.Statement (.ctz o) := by
  intro w arith h ha hm; obtain rfl := Option.some.inj h
  rw [rawDecode_4 _ (V2Args_major _ _ o), V2Args_func]
  exact congrArg (fun x => some (Instr.ctz x)) (V2Args_ofWord _ _ o)

theorem Readback.brev (o : V2Args) : Readback.Statement (.brev o) := by
  intro w arith h ha hm; obtain rfl := Option.some.inj h
  rw [rawDecode_4 _ (V2Args_major _ _ o), V2Args_func]
  exact congrArg (fun x => some (Instr.brev x)) (V2Args_ofWord _ _ o)

theorem Readback.bfez (o : V3Args) : Readback.Statement (.bfez o) := by
  intro w arith h ha hm; obtain rfl := Option.some.inj h
  rw [rawDecode_4 _ (V3Args_major _ _ o), V3Args_func]
  exact congrArg (fun x => some (Instr.bfez x)) (V3Args_ofWord _ _ o)

theorem Readback.bfes (o : V3Args) : Readback.Statement (.bfes o) := by
  intro w arith h ha hm; obtain rfl := Option.some.inj h
  rw [rawDecode_4 _ (V3Args_major _ _ o), V3Args_func]
  exact congrArg (fun x => some (Instr.bfes x)) (V3Args_ofWord _ _ o)

theorem Readback.bfi (o : V3Args) : Readback.Statement (.bfi o) := by
  intro w arith h ha hm; obtain rfl := Option.some.inj h
  rw [rawDecode_4 _ (V3Args_major _ _ o), V3Args_func]
  exact congrArg (fun x => some (Instr.bfi x)) (V3Args_ofWord _ _ o)

theorem Readback.fshl (o : V3Args) : Readback.Statement (.fshl o) := by
  intro w arith h ha hm; obtain rfl := Option.some.inj h
  rw [rawDecode_4 _ (V3Args_major _ _ o), V3Args_func]
  exact congrArg (fun x => some (Instr.fshl x)) (V3Args_ofWord _ _ o)

theorem Readback.bsel (o : V3Args) : Readback.Statement (.bsel o) := by
  intro w arith h ha hm; obtain rfl := Option.some.inj h
  rw [rawDecode_4 _ (V3Args_major _ _ o), V3Args_func]
  exact congrArg (fun x => some (Instr.bsel x)) (V3Args_ofWord _ _ o)

theorem Readback.bswap (o : V2Args) : Readback.Statement (.bswap o) := by
  intro w arith h ha hm; obtain rfl := Option.some.inj h
  rw [rawDecode_4 _ (V2Args_major _ _ o), V2Args_func]
  exact congrArg (fun x => some (Instr.bswap x)) (V2Args_ofWord _ _ o)

theorem Readback.imad (o : V3Args) : Readback.Statement (.imad o) := by
  intro w arith h ha hm; obtain rfl := Option.some.inj h
  rw [rawDecode_5 _ (V3Args_major _ _ o), V3Args_func]
  exact congrArg (fun x => some (Instr.imad x)) (V3Args_ofWord _ _ o)

theorem Readback.imadhs (o : V3Args) : Readback.Statement (.imadhs o) := by
  intro w arith h ha hm; obtain rfl := Option.some.inj h
  rw [rawDecode_5 _ (V3Args_major _ _ o), V3Args_func]
  exact congrArg (fun x => some (Instr.imadhs x)) (V3Args_ofWord _ _ o)

theorem Readback.imadhu (o : V3Args) : Readback.Statement (.imadhu o) := by
  intro w arith h ha hm; obtain rfl := Option.some.inj h
  rw [rawDecode_5 _ (V3Args_major _ _ o), V3Args_func]
  exact congrArg (fun x => some (Instr.imadhu x)) (V3Args_ofWord _ _ o)

theorem Readback.imadw (o : V3Args) : Readback.Statement (.imadw o) := by
  intro w arith h ha hm; obtain rfl := Option.some.inj h
  rw [rawDecode_5 _ (V3Args_major _ _ o), V3Args_func]
  exact congrArg (fun x => some (Instr.imadw x)) (V3Args_ofWord _ _ o)

theorem Readback.imadws (o : V3Args) : Readback.Statement (.imadws o) := by
  intro w arith h ha hm; obtain rfl := Option.some.inj h
  rw [rawDecode_5 _ (V3Args_major _ _ o), V3Args_func]
  exact congrArg (fun x => some (Instr.imadws x)) (V3Args_ofWord _ _ o)

theorem Readback.isad (o : V3Args) : Readback.Statement (.isad o) := by
  intro w arith h ha hm; obtain rfl := Option.some.inj h
  rw [rawDecode_5 _ (V3Args_major _ _ o), V3Args_func]
  exact congrArg (fun x => some (Instr.isad x)) (V3Args_ofWord _ _ o)

theorem Readback.idp4 (o : V3Args) : Readback.Statement (.idp4 o) := by
  intro w arith h ha hm; obtain rfl := Option.some.inj h
  rw [rawDecode_5 _ (V3Args_major _ _ o), V3Args_func]
  exact congrArg (fun x => some (Instr.idp4 x)) (V3Args_ofWord _ _ o)

theorem Readback.idp4z (o : V3Args) : Readback.Statement (.idp4z o) := by
  intro w arith h ha hm; obtain rfl := Option.some.inj h
  rw [rawDecode_5 _ (V3Args_major _ _ o), V3Args_func]
  exact congrArg (fun x => some (Instr.idp4z x)) (V3Args_ofWord _ _ o)

theorem Readback.mov (o : V2Args) : Readback.Statement (.mov o) := by
  intro w arith h ha hm; obtain rfl := Option.some.inj h
  rw [rawDecode_6 _ (V2Args_major _ _ o), V2Args_func]
  exact congrArg (fun x => some (Instr.mov x)) (V2Args_ofWord _ _ o)

theorem Readback.movi (o : VI0Args) : Readback.Statement (.movi o) := by
  intro w arith h ha hm; obtain rfl := Option.some.inj h
  rw [rawDecode_6 _ (VI0Args_major _ _ o), VI0Args_func]
  exact congrArg (fun x => some (Instr.movi x)) (VI0Args_ofWord _ _ o)

theorem Readback.sel (o : V3Args) : Readback.Statement (.sel o) := by
  intro w arith h ha hm; obtain rfl := Option.some.inj h
  rw [rawDecode_6 _ (V3Args_major _ _ o), V3Args_func]
  exact congrArg (fun x => some (Instr.sel x)) (V3Args_ofWord _ _ o)

theorem Readback.sext8 (o : V2Args) : Readback.Statement (.sext8 o) := by
  intro w arith h ha hm; obtain rfl := Option.some.inj h
  rw [rawDecode_6 _ (V2Args_major _ _ o), V2Args_func]
  exact congrArg (fun x => some (Instr.sext8 x)) (V2Args_ofWord _ _ o)

theorem Readback.sext16 (o : V2Args) : Readback.Statement (.sext16 o) := by
  intro w arith h ha hm; obtain rfl := Option.some.inj h
  rw [rawDecode_6 _ (V2Args_major _ _ o), V2Args_func]
  exact congrArg (fun x => some (Instr.sext16 x)) (V2Args_ofWord _ _ o)

theorem Readback.zext8 (o : V2Args) : Readback.Statement (.zext8 o) := by
  intro w arith h ha hm; obtain rfl := Option.some.inj h
  rw [rawDecode_6 _ (V2Args_major _ _ o), V2Args_func]
  exact congrArg (fun x => some (Instr.zext8 x)) (V2Args_ofWord _ _ o)

theorem Readback.zext16 (o : V2Args) : Readback.Statement (.zext16 o) := by
  intro w arith h ha hm; obtain rfl := Option.some.inj h
  rw [rawDecode_6 _ (V2Args_major _ _ o), V2Args_func]
  exact congrArg (fun x => some (Instr.zext16 x)) (V2Args_ofWord _ _ o)

theorem Readback.add64 (o : V3Args) : Readback.Statement (.add64 o) := by
  intro w arith h ha hm; obtain rfl := Option.some.inj h
  rw [rawDecode_6 _ (V3Args_major _ _ o), V3Args_func]
  exact congrArg (fun x => some (Instr.add64 x)) (V3Args_ofWord _ _ o)

theorem Readback.sub64 (o : V3Args) : Readback.Statement (.sub64 o) := by
  intro w arith h ha hm; obtain rfl := Option.some.inj h
  rw [rawDecode_6 _ (V3Args_major _ _ o), V3Args_func]
  exact congrArg (fun x => some (Instr.sub64 x)) (V3Args_ofWord _ _ o)

theorem Readback.shl64 (o : V3Args) : Readback.Statement (.shl64 o) := by
  intro w arith h ha hm; obtain rfl := Option.some.inj h
  rw [rawDecode_6 _ (V3Args_major _ _ o), V3Args_func]
  exact congrArg (fun x => some (Instr.shl64 x)) (V3Args_ofWord _ _ o)

theorem Readback.shr64 (o : V3Args) : Readback.Statement (.shr64 o) := by
  intro w arith h ha hm; obtain rfl := Option.some.inj h
  rw [rawDecode_6 _ (V3Args_major _ _ o), V3Args_func]
  exact congrArg (fun x => some (Instr.shr64 x)) (V3Args_ofWord _ _ o)

theorem Readback.wadd (o : W3Args) : Readback.Statement (.wadd o) := by
  intro w arith h ha hm; obtain rfl := Option.some.inj h
  rw [rawDecode_7 _ (W3Args_major _ _ o), W3Args_func]
  exact congrArg (fun x => some (Instr.wadd x)) (W3Args_ofWord _ _ o)

theorem Readback.wsub (o : W3Args) : Readback.Statement (.wsub o) := by
  intro w arith h ha hm; obtain rfl := Option.some.inj h
  rw [rawDecode_7 _ (W3Args_major _ _ o), W3Args_func]
  exact congrArg (fun x => some (Instr.wsub x)) (W3Args_ofWord _ _ o)

theorem Readback.wmul (o : W3Args) : Readback.Statement (.wmul o) := by
  intro w arith h ha hm; obtain rfl := Option.some.inj h
  rw [rawDecode_7 _ (W3Args_major _ _ o), W3Args_func]
  exact congrArg (fun x => some (Instr.wmul x)) (W3Args_ofWord _ _ o)

theorem Readback.wand (o : W3Args) : Readback.Statement (.wand o) := by
  intro w arith h ha hm; obtain rfl := Option.some.inj h
  rw [rawDecode_7 _ (W3Args_major _ _ o), W3Args_func]
  exact congrArg (fun x => some (Instr.wand x)) (W3Args_ofWord _ _ o)

theorem Readback.wor (o : W3Args) : Readback.Statement (.wor o) := by
  intro w arith h ha hm; obtain rfl := Option.some.inj h
  rw [rawDecode_7 _ (W3Args_major _ _ o), W3Args_func]
  exact congrArg (fun x => some (Instr.wor x)) (W3Args_ofWord _ _ o)

theorem Readback.wxor (o : W3Args) : Readback.Statement (.wxor o) := by
  intro w arith h ha hm; obtain rfl := Option.some.inj h
  rw [rawDecode_7 _ (W3Args_major _ _ o), W3Args_func]
  exact congrArg (fun x => some (Instr.wxor x)) (W3Args_ofWord _ _ o)

theorem Readback.wshl (o : W3Args) : Readback.Statement (.wshl o) := by
  intro w arith h ha hm; obtain rfl := Option.some.inj h
  rw [rawDecode_7 _ (W3Args_major _ _ o), W3Args_func]
  exact congrArg (fun x => some (Instr.wshl x)) (W3Args_ofWord _ _ o)

theorem Readback.wshr (o : W3Args) : Readback.Statement (.wshr o) := by
  intro w arith h ha hm; obtain rfl := Option.some.inj h
  rw [rawDecode_7 _ (W3Args_major _ _ o), W3Args_func]
  exact congrArg (fun x => some (Instr.wshr x)) (W3Args_ofWord _ _ o)

theorem Readback.wmov (o : W2Args) : Readback.Statement (.wmov o) := by
  intro w arith h ha hm; obtain rfl := Option.some.inj h
  rw [rawDecode_7 _ (W2Args_major _ _ o), W2Args_func]
  exact congrArg (fun x => some (Instr.wmov x)) (W2Args_ofWord _ _ o)

theorem Readback.wmovi (o : WIArgs) : Readback.Statement (.wmovi o) := by
  intro w arith h ha hm; obtain rfl := Option.some.inj h
  rw [rawDecode_7 _ (WIArgs_major _ _ o), WIArgs_func]
  exact congrArg (fun x => some (Instr.wmovi x)) (WIArgs_ofWord _ _ o)

theorem Readback.v2w (o : WVArgs) : Readback.Statement (.v2w o) := by
  intro w arith h ha hm; obtain rfl := Option.some.inj h
  rw [rawDecode_7 _ (WVArgs_major _ _ o), WVArgs_func]
  exact congrArg (fun x => some (Instr.v2w x)) (WVArgs_ofWord _ _ o)

theorem Readback.w2v (o : VWArgs) : Readback.Statement (.w2v o) := by
  intro w arith h ha hm; obtain rfl := Option.some.inj h
  rw [rawDecode_7 _ (VWArgs_major _ _ o), VWArgs_func]
  exact congrArg (fun x => some (Instr.w2v x)) (VWArgs_ofWord _ _ o)

theorem Readback.wlea (o : WLArgs) : Readback.Statement (.wlea o) := by
  intro w arith h ha hm; obtain rfl := Option.some.inj h
  rw [rawDecode_7 _ (WLArgs_major _ _ o), WLArgs_func]
  exact congrArg (fun x => some (Instr.wlea x)) (WLArgs_ofWord _ _ o)

theorem Readback.fadd (o : V3Args) : Readback.Statement (.fadd o) := by
  intro w arith h ha hm; obtain rfl := Option.some.inj h
  rw [rawDecode_8 _ (V3Args_major _ _ o), V3Args_func]
  exact congrArg (fun x => some (Instr.fadd x)) (V3Args_ofWord _ _ o)

theorem Readback.fsub (o : V3Args) : Readback.Statement (.fsub o) := by
  intro w arith h ha hm; obtain rfl := Option.some.inj h
  rw [rawDecode_8 _ (V3Args_major _ _ o), V3Args_func]
  exact congrArg (fun x => some (Instr.fsub x)) (V3Args_ofWord _ _ o)

theorem Readback.fmul (o : V3Args) : Readback.Statement (.fmul o) := by
  intro w arith h ha hm; obtain rfl := Option.some.inj h
  rw [rawDecode_8 _ (V3Args_major _ _ o), V3Args_func]
  exact congrArg (fun x => some (Instr.fmul x)) (V3Args_ofWord _ _ o)

theorem Readback.fmin (o : V3Args) : Readback.Statement (.fmin o) := by
  intro w arith h ha hm; obtain rfl := Option.some.inj h
  rw [rawDecode_8 _ (V3Args_major _ _ o), V3Args_func]
  exact congrArg (fun x => some (Instr.fmin x)) (V3Args_ofWord _ _ o)

theorem Readback.fmax (o : V3Args) : Readback.Statement (.fmax o) := by
  intro w arith h ha hm; obtain rfl := Option.some.inj h
  rw [rawDecode_8 _ (V3Args_major _ _ o), V3Args_func]
  exact congrArg (fun x => some (Instr.fmax x)) (V3Args_ofWord _ _ o)

theorem Readback.fminm (o : V3Args) : Readback.Statement (.fminm o) := by
  intro w arith h ha hm; obtain rfl := Option.some.inj h
  rw [rawDecode_8 _ (V3Args_major _ _ o), V3Args_func]
  exact congrArg (fun x => some (Instr.fminm x)) (V3Args_ofWord _ _ o)

theorem Readback.fmaxm (o : V3Args) : Readback.Statement (.fmaxm o) := by
  intro w arith h ha hm; obtain rfl := Option.some.inj h
  rw [rawDecode_8 _ (V3Args_major _ _ o), V3Args_func]
  exact congrArg (fun x => some (Instr.fmaxm x)) (V3Args_ofWord _ _ o)

theorem Readback.fcpysgn (o : V3Args) : Readback.Statement (.fcpysgn o) := by
  intro w arith h ha hm; obtain rfl := Option.some.inj h
  rw [rawDecode_8 _ (V3Args_major _ _ o), V3Args_func]
  exact congrArg (fun x => some (Instr.fcpysgn x)) (V3Args_ofWord _ _ o)

theorem Readback.fabs (o : V2Args) : Readback.Statement (.fabs o) := by
  intro w arith h ha hm; obtain rfl := Option.some.inj h
  rw [rawDecode_8 _ (V2Args_major _ _ o), V2Args_func]
  exact congrArg (fun x => some (Instr.fabs x)) (V2Args_ofWord _ _ o)

theorem Readback.fneg (o : V2Args) : Readback.Statement (.fneg o) := by
  intro w arith h ha hm; obtain rfl := Option.some.inj h
  rw [rawDecode_8 _ (V2Args_major _ _ o), V2Args_func]
  exact congrArg (fun x => some (Instr.fneg x)) (V2Args_ofWord _ _ o)

theorem Readback.fsat (o : V2Args) : Readback.Statement (.fsat o) := by
  intro w arith h ha hm; obtain rfl := Option.some.inj h
  rw [rawDecode_8 _ (V2Args_major _ _ o), V2Args_func]
  exact congrArg (fun x => some (Instr.fsat x)) (V2Args_ofWord _ _ o)

theorem Readback.ffma (o : V3Args) : Readback.Statement (.ffma o) := by
  intro w arith h ha hm; obtain rfl := Option.some.inj h
  rw [rawDecode_9 _ (V3Args_major _ _ o), V3Args_func]
  exact congrArg (fun x => some (Instr.ffma x)) (V3Args_ofWord _ _ o)

theorem Readback.ffms (o : V3Args) : Readback.Statement (.ffms o) := by
  intro w arith h ha hm; obtain rfl := Option.some.inj h
  rw [rawDecode_9 _ (V3Args_major _ _ o), V3Args_func]
  exact congrArg (fun x => some (Instr.ffms x)) (V3Args_ofWord _ _ o)

theorem Readback.fnma (o : V3Args) : Readback.Statement (.fnma o) := by
  intro w arith h ha hm; obtain rfl := Option.some.inj h
  rw [rawDecode_9 _ (V3Args_major _ _ o), V3Args_func]
  exact congrArg (fun x => some (Instr.fnma x)) (V3Args_ofWord _ _ o)

theorem Readback.hadd2 (o : V3Args) : Readback.Statement (.hadd2 o) := by
  intro w arith h ha hm; obtain rfl := Option.some.inj h
  rw [rawDecode_10 _ (V3Args_major _ _ o), V3Args_func]
  exact congrArg (fun x => some (Instr.hadd2 x)) (V3Args_ofWord _ _ o)

theorem Readback.hmul2 (o : V3Args) : Readback.Statement (.hmul2 o) := by
  intro w arith h ha hm; obtain rfl := Option.some.inj h
  rw [rawDecode_10 _ (V3Args_major _ _ o), V3Args_func]
  exact congrArg (fun x => some (Instr.hmul2 x)) (V3Args_ofWord _ _ o)

theorem Readback.hfma2 (o : V3Args) : Readback.Statement (.hfma2 o) := by
  intro w arith h ha hm; obtain rfl := Option.some.inj h
  rw [rawDecode_10 _ (V3Args_major _ _ o), V3Args_func]
  exact congrArg (fun x => some (Instr.hfma2 x)) (V3Args_ofWord _ _ o)

theorem Readback.hmin2 (o : V3Args) : Readback.Statement (.hmin2 o) := by
  intro w arith h ha hm; obtain rfl := Option.some.inj h
  rw [rawDecode_10 _ (V3Args_major _ _ o), V3Args_func]
  exact congrArg (fun x => some (Instr.hmin2 x)) (V3Args_ofWord _ _ o)

theorem Readback.hmax2 (o : V3Args) : Readback.Statement (.hmax2 o) := by
  intro w arith h ha hm; obtain rfl := Option.some.inj h
  rw [rawDecode_10 _ (V3Args_major _ _ o), V3Args_func]
  exact congrArg (fun x => some (Instr.hmax2 x)) (V3Args_ofWord _ _ o)

theorem Readback.badd2 (o : V3Args) : Readback.Statement (.badd2 o) := by
  intro w arith h ha hm; obtain rfl := Option.some.inj h
  rw [rawDecode_10 _ (V3Args_major _ _ o), V3Args_func]
  exact congrArg (fun x => some (Instr.badd2 x)) (V3Args_ofWord _ _ o)

theorem Readback.bmul2 (o : V3Args) : Readback.Statement (.bmul2 o) := by
  intro w arith h ha hm; obtain rfl := Option.some.inj h
  rw [rawDecode_10 _ (V3Args_major _ _ o), V3Args_func]
  exact congrArg (fun x => some (Instr.bmul2 x)) (V3Args_ofWord _ _ o)

theorem Readback.bfma2 (o : V3Args) : Readback.Statement (.bfma2 o) := by
  intro w arith h ha hm; obtain rfl := Option.some.inj h
  rw [rawDecode_10 _ (V3Args_major _ _ o), V3Args_func]
  exact congrArg (fun x => some (Instr.bfma2 x)) (V3Args_ofWord _ _ o)

theorem Readback.bmin2 (o : V3Args) : Readback.Statement (.bmin2 o) := by
  intro w arith h ha hm; obtain rfl := Option.some.inj h
  rw [rawDecode_10 _ (V3Args_major _ _ o), V3Args_func]
  exact congrArg (fun x => some (Instr.bmin2 x)) (V3Args_ofWord _ _ o)

theorem Readback.bmax2 (o : V3Args) : Readback.Statement (.bmax2 o) := by
  intro w arith h ha hm; obtain rfl := Option.some.inj h
  rw [rawDecode_10 _ (V3Args_major _ _ o), V3Args_func]
  exact congrArg (fun x => some (Instr.bmax2 x)) (V3Args_ofWord _ _ o)

theorem Readback.f2is (o : V2Args) : Readback.Statement (.f2is o) := by
  intro w arith h ha hm; obtain rfl := Option.some.inj h
  rw [rawDecode_11 _ (V2Args_major _ _ o), V2Args_func]
  exact congrArg (fun x => some (Instr.f2is x)) (V2Args_ofWord _ _ o)

theorem Readback.f2iz (o : V2Args) : Readback.Statement (.f2iz o) := by
  intro w arith h ha hm; obtain rfl := Option.some.inj h
  rw [rawDecode_11 _ (V2Args_major _ _ o), V2Args_func]
  exact congrArg (fun x => some (Instr.f2iz x)) (V2Args_ofWord _ _ o)

theorem Readback.is2f (o : V2Args) : Readback.Statement (.is2f o) := by
  intro w arith h ha hm; obtain rfl := Option.some.inj h
  rw [rawDecode_11 _ (V2Args_major _ _ o), V2Args_func]
  exact congrArg (fun x => some (Instr.is2f x)) (V2Args_ofWord _ _ o)

theorem Readback.iz2f (o : V2Args) : Readback.Statement (.iz2f o) := by
  intro w arith h ha hm; obtain rfl := Option.some.inj h
  rw [rawDecode_11 _ (V2Args_major _ _ o), V2Args_func]
  exact congrArg (fun x => some (Instr.iz2f x)) (V2Args_ofWord _ _ o)

theorem Readback.f2h2 (o : V3Args) : Readback.Statement (.f2h2 o) := by
  intro w arith h ha hm; obtain rfl := Option.some.inj h
  rw [rawDecode_11 _ (V3Args_major _ _ o), V3Args_func]
  exact congrArg (fun x => some (Instr.f2h2 x)) (V3Args_ofWord _ _ o)

theorem Readback.h2fl (o : V2Args) : Readback.Statement (.h2fl o) := by
  intro w arith h ha hm; obtain rfl := Option.some.inj h
  rw [rawDecode_11 _ (V2Args_major _ _ o), V2Args_func]
  exact congrArg (fun x => some (Instr.h2fl x)) (V2Args_ofWord _ _ o)

theorem Readback.h2fh (o : V2Args) : Readback.Statement (.h2fh o) := by
  intro w arith h ha hm; obtain rfl := Option.some.inj h
  rw [rawDecode_11 _ (V2Args_major _ _ o), V2Args_func]
  exact congrArg (fun x => some (Instr.h2fh x)) (V2Args_ofWord _ _ o)

theorem Readback.f2b2 (o : V3Args) : Readback.Statement (.f2b2 o) := by
  intro w arith h ha hm; obtain rfl := Option.some.inj h
  rw [rawDecode_11 _ (V3Args_major _ _ o), V3Args_func]
  exact congrArg (fun x => some (Instr.f2b2 x)) (V3Args_ofWord _ _ o)

theorem Readback.b2fl (o : V2Args) : Readback.Statement (.b2fl o) := by
  intro w arith h ha hm; obtain rfl := Option.some.inj h
  rw [rawDecode_11 _ (V2Args_major _ _ o), V2Args_func]
  exact congrArg (fun x => some (Instr.b2fl x)) (V2Args_ofWord _ _ o)

theorem Readback.b2fh (o : V2Args) : Readback.Statement (.b2fh o) := by
  intro w arith h ha hm; obtain rfl := Option.some.inj h
  rw [rawDecode_11 _ (V2Args_major _ _ o), V2Args_func]
  exact congrArg (fun x => some (Instr.b2fh x)) (V2Args_ofWord _ _ o)

theorem Readback.frnd (o : V2Args) : Readback.Statement (.frnd o) := by
  intro w arith h ha hm; obtain rfl := Option.some.inj h
  rw [rawDecode_11 _ (V2Args_major _ _ o), V2Args_func]
  exact congrArg (fun x => some (Instr.frnd x)) (V2Args_ofWord _ _ o)

theorem Readback.fclass (o : V2Args) : Readback.Statement (.fclass o) := by
  intro w arith h ha hm; obtain rfl := Option.some.inj h
  rw [rawDecode_11 _ (V2Args_major _ _ o), V2Args_func]
  exact congrArg (fun x => some (Instr.fclass x)) (V2Args_ofWord _ _ o)

theorem Readback.fexp (o : V2Args) : Readback.Statement (.fexp o) := by
  intro w arith h ha hm; obtain rfl := Option.some.inj h
  rw [rawDecode_11 _ (V2Args_major _ _ o), V2Args_func]
  exact congrArg (fun x => some (Instr.fexp x)) (V2Args_ofWord _ _ o)

theorem Readback.fldexp (o : V3Args) : Readback.Statement (.fldexp o) := by
  intro w arith h ha hm; obtain rfl := Option.some.inj h
  rw [rawDecode_11 _ (V3Args_major _ _ o), V3Args_func]
  exact congrArg (fun x => some (Instr.fldexp x)) (V3Args_ofWord _ _ o)

theorem Readback.rcp (o : SfuArgs) : Readback.Statement (.rcp o) := by
  intro w arith h ha hm; obtain rfl := Option.some.inj h
  rw [rawDecode_12 _ (SfuArgs_major _ _ o), SfuArgs_func]
  exact congrArg (fun x => some (Instr.rcp x)) (SfuArgs_ofWord _ _ o)

theorem Readback.rsq (o : SfuArgs) : Readback.Statement (.rsq o) := by
  intro w arith h ha hm; obtain rfl := Option.some.inj h
  rw [rawDecode_12 _ (SfuArgs_major _ _ o), SfuArgs_func]
  exact congrArg (fun x => some (Instr.rsq x)) (SfuArgs_ofWord _ _ o)

theorem Readback.sqrt (o : SfuArgs) : Readback.Statement (.sqrt o) := by
  intro w arith h ha hm; obtain rfl := Option.some.inj h
  rw [rawDecode_12 _ (SfuArgs_major _ _ o), SfuArgs_func]
  exact congrArg (fun x => some (Instr.sqrt x)) (SfuArgs_ofWord _ _ o)

theorem Readback.ex2 (o : SfuArgs) : Readback.Statement (.ex2 o) := by
  intro w arith h ha hm; obtain rfl := Option.some.inj h
  rw [rawDecode_12 _ (SfuArgs_major _ _ o), SfuArgs_func]
  exact congrArg (fun x => some (Instr.ex2 x)) (SfuArgs_ofWord _ _ o)

theorem Readback.lg2 (o : SfuArgs) : Readback.Statement (.lg2 o) := by
  intro w arith h ha hm; obtain rfl := Option.some.inj h
  rw [rawDecode_12 _ (SfuArgs_major _ _ o), SfuArgs_func]
  exact congrArg (fun x => some (Instr.lg2 x)) (SfuArgs_ofWord _ _ o)

theorem Readback.sint (o : SfuArgs) : Readback.Statement (.sint o) := by
  intro w arith h ha hm; obtain rfl := Option.some.inj h
  rw [rawDecode_12 _ (SfuArgs_major _ _ o), SfuArgs_func]
  exact congrArg (fun x => some (Instr.sint x)) (SfuArgs_ofWord _ _ o)

theorem Readback.cost (o : SfuArgs) : Readback.Statement (.cost o) := by
  intro w arith h ha hm; obtain rfl := Option.some.inj h
  rw [rawDecode_12 _ (SfuArgs_major _ _ o), SfuArgs_func]
  exact congrArg (fun x => some (Instr.cost x)) (SfuArgs_ofWord _ _ o)

theorem Readback.tanh (o : SfuArgs) : Readback.Statement (.tanh o) := by
  intro w arith h ha hm; obtain rfl := Option.some.inj h
  rw [rawDecode_12 _ (SfuArgs_major _ _ o), SfuArgs_func]
  exact congrArg (fun x => some (Instr.tanh x)) (SfuArgs_ofWord _ _ o)

theorem Readback.logi (o : SfuArgs) : Readback.Statement (.logi o) := by
  intro w arith h ha hm; obtain rfl := Option.some.inj h
  rw [rawDecode_12 _ (SfuArgs_major _ _ o), SfuArgs_func]
  exact congrArg (fun x => some (Instr.logi x)) (SfuArgs_ofWord _ _ o)

theorem Readback.sfuComplete (op keep : Nat) : Readback.Statement (.sfuComplete op keep) := by
  exact fun w _ h => nomatch (show (none : Option Word) = some w from h)

theorem Readback.shfi (o : X3Args) : Readback.Statement (.shfi o) := by
  intro w arith h ha hm; obtain rfl := Option.some.inj h
  rw [rawDecode_14 _ (X3Args_major _ _ o), X3Args_func]
  exact congrArg (fun x => some (Instr.shfi x)) (X3Args_ofWord _ _ o)

theorem Readback.shfu (o : X3Args) : Readback.Statement (.shfu o) := by
  intro w arith h ha hm; obtain rfl := Option.some.inj h
  rw [rawDecode_14 _ (X3Args_major _ _ o), X3Args_func]
  exact congrArg (fun x => some (Instr.shfu x)) (X3Args_ofWord _ _ o)

theorem Readback.shfd (o : X3Args) : Readback.Statement (.shfd o) := by
  intro w arith h ha hm; obtain rfl := Option.some.inj h
  rw [rawDecode_14 _ (X3Args_major _ _ o), X3Args_func]
  exact congrArg (fun x => some (Instr.shfd x)) (X3Args_ofWord _ _ o)

theorem Readback.shfx (o : X3Args) : Readback.Statement (.shfx o) := by
  intro w arith h ha hm; obtain rfl := Option.some.inj h
  rw [rawDecode_14 _ (X3Args_major _ _ o), X3Args_func]
  exact congrArg (fun x => some (Instr.shfx x)) (X3Args_ofWord _ _ o)

theorem Readback.qswx (o : X2Args) : Readback.Statement (.qswx o) := by
  intro w arith h ha hm; obtain rfl := Option.some.inj h
  rw [rawDecode_14 _ (X2Args_major _ _ o), X2Args_func]
  exact congrArg (fun x => some (Instr.qswx x)) (X2Args_ofWord _ _ o)

theorem Readback.qswy (o : X2Args) : Readback.Statement (.qswy o) := by
  intro w arith h ha hm; obtain rfl := Option.some.inj h
  rw [rawDecode_14 _ (X2Args_major _ _ o), X2Args_func]
  exact congrArg (fun x => some (Instr.qswy x)) (X2Args_ofWord _ _ o)

theorem Readback.qswd (o : X2Args) : Readback.Statement (.qswd o) := by
  intro w arith h ha hm; obtain rfl := Option.some.inj h
  rw [rawDecode_14 _ (X2Args_major _ _ o), X2Args_func]
  exact congrArg (fun x => some (Instr.qswd x)) (X2Args_ofWord _ _ o)

theorem Readback.qbc (o : X3Args) : Readback.Statement (.qbc o) := by
  intro w arith h ha hm; obtain rfl := Option.some.inj h
  rw [rawDecode_14 _ (X3Args_major _ _ o), X3Args_func]
  exact congrArg (fun x => some (Instr.qbc x)) (X3Args_ofWord _ _ o)

theorem Readback.vany (o : XVoteArgs) : Readback.Statement (.vany o) := by
  intro w arith h ha hm; obtain rfl := Option.some.inj h
  rw [rawDecode_14 _ (XVoteArgs_major _ _ o), XVoteArgs_func]
  exact congrArg (fun x => some (Instr.vany x)) (XVoteArgs_ofWord _ _ o)

theorem Readback.vall (o : XVoteArgs) : Readback.Statement (.vall o) := by
  intro w arith h ha hm; obtain rfl := Option.some.inj h
  rw [rawDecode_14 _ (XVoteArgs_major _ _ o), XVoteArgs_func]
  exact congrArg (fun x => some (Instr.vall x)) (XVoteArgs_ofWord _ _ o)

theorem Readback.vbal (o : XBalArgs) : Readback.Statement (.vbal o) := by
  intro w arith h ha hm; obtain rfl := Option.some.inj h
  rw [rawDecode_14 _ (XBalArgs_major _ _ o), XBalArgs_func]
  exact congrArg (fun x => some (Instr.vbal x)) (XBalArgs_ofWord _ _ o)

theorem Readback.matchX (o : X2Args) : Readback.Statement (.matchX o) := by
  intro w arith h ha hm; obtain rfl := Option.some.inj h
  rw [rawDecode_14 _ (X2Args_major _ _ o), X2Args_func]
  exact congrArg (fun x => some (Instr.matchX x)) (X2Args_ofWord _ _ o)

theorem Readback.redi (o : XRedArgs) : Readback.Statement (.redi o) := by
  intro w arith h ha hm; obtain rfl := Option.some.inj h
  rw [rawDecode_14 _ (XRedArgs_major _ _ o), XRedArgs_func]
  exact congrArg (fun x => some (Instr.redi x)) (XRedArgs_ofWord _ _ o)

theorem Readback.redf (o : XRedArgs) : Readback.Statement (.redf o) := by
  intro w arith h ha hm; obtain rfl := Option.some.inj h
  rw [rawDecode_14 _ (XRedArgs_major _ _ o), XRedArgs_func]
  exact congrArg (fun x => some (Instr.redf x)) (XRedArgs_ofWord _ _ o)

theorem Readback.lmask (o : XMaskArgs) : Readback.Statement (.lmask o) := by
  intro w arith h ha hm; obtain rfl := Option.some.inj h
  rw [rawDecode_14 _ (XMaskArgs_major _ _ o), XMaskArgs_func]
  exact congrArg (fun x => some (Instr.lmask x)) (XMaskArgs_ofWord _ _ o)

theorem Readback.sgset (o : XSetArgs) : Readback.Statement (.sgset o) := by
  intro w arith h ha hm; obtain rfl := Option.some.inj h
  rw [rawDecode_14 _ (XSetArgs_major _ _ o), XSetArgs_func]
  exact congrArg (fun x => some (Instr.sgset x)) (XSetArgs_ofWord _ _ o)

theorem Readback.ceq (o : CmpArgs) : Readback.Statement (.ceq o) := by
  intro w arith h ha hm; obtain rfl := Option.some.inj h
  rw [rawDecode_16 _ (CmpArgs_major _ o)]
  exact congrArg (fun x => some (Instr.ceq x)) (CmpArgs_ofWord _ o)

theorem Readback.cne (o : CmpArgs) : Readback.Statement (.cne o) := by
  intro w arith h ha hm; obtain rfl := Option.some.inj h
  rw [rawDecode_17 _ (CmpArgs_major _ o)]
  exact congrArg (fun x => some (Instr.cne x)) (CmpArgs_ofWord _ o)

theorem Readback.clt (o : CmpArgs) : Readback.Statement (.clt o) := by
  intro w arith h ha hm; obtain rfl := Option.some.inj h
  rw [rawDecode_18 _ (CmpArgs_major _ o)]
  exact congrArg (fun x => some (Instr.clt x)) (CmpArgs_ofWord _ o)

theorem Readback.cle (o : CmpArgs) : Readback.Statement (.cle o) := by
  intro w arith h ha hm; obtain rfl := Option.some.inj h
  rw [rawDecode_19 _ (CmpArgs_major _ o)]
  exact congrArg (fun x => some (Instr.cle x)) (CmpArgs_ofWord _ o)

theorem Readback.cgt (o : CmpArgs) : Readback.Statement (.cgt o) := by
  intro w arith h ha hm; obtain rfl := Option.some.inj h
  rw [rawDecode_20 _ (CmpArgs_major _ o)]
  exact congrArg (fun x => some (Instr.cgt x)) (CmpArgs_ofWord _ o)

theorem Readback.cge (o : CmpArgs) : Readback.Statement (.cge o) := by
  intro w arith h ha hm; obtain rfl := Option.some.inj h
  rw [rawDecode_21 _ (CmpArgs_major _ o)]
  exact congrArg (fun x => some (Instr.cge x)) (CmpArgs_ofWord _ o)

theorem Readback.ctany (o : CmpArgs) : Readback.Statement (.ctany o) := by
  intro w arith h ha hm; obtain rfl := Option.some.inj h
  rw [rawDecode_22 _ (CmpArgs_major _ o)]
  exact congrArg (fun x => some (Instr.ctany x)) (CmpArgs_ofWord _ o)

theorem Readback.ctnone (o : CmpArgs) : Readback.Statement (.ctnone o) := by
  intro w arith h ha hm; obtain rfl := Option.some.inj h
  rw [rawDecode_23 _ (CmpArgs_major _ o)]
  exact congrArg (fun x => some (Instr.ctnone x)) (CmpArgs_ofWord _ o)

theorem Readback.pand (o : P3Args) : Readback.Statement (.pand o) := by
  intro w arith h ha hm; obtain rfl := Option.some.inj h
  rw [rawDecode_24 _ (P3Args_major _ _ o), P3Args_func]
  exact congrArg (fun x => some (Instr.pand x)) (P3Args_ofWord _ _ o)

theorem Readback.por (o : P3Args) : Readback.Statement (.por o) := by
  intro w arith h ha hm; obtain rfl := Option.some.inj h
  rw [rawDecode_24 _ (P3Args_major _ _ o), P3Args_func]
  exact congrArg (fun x => some (Instr.por x)) (P3Args_ofWord _ _ o)

theorem Readback.pxor (o : P3Args) : Readback.Statement (.pxor o) := by
  intro w arith h ha hm; obtain rfl := Option.some.inj h
  rw [rawDecode_24 _ (P3Args_major _ _ o), P3Args_func]
  exact congrArg (fun x => some (Instr.pxor x)) (P3Args_ofWord _ _ o)

theorem Readback.pandn (o : P3Args) : Readback.Statement (.pandn o) := by
  intro w arith h ha hm; obtain rfl := Option.some.inj h
  rw [rawDecode_24 _ (P3Args_major _ _ o), P3Args_func]
  exact congrArg (fun x => some (Instr.pandn x)) (P3Args_ofWord _ _ o)

theorem Readback.pnot (o : P2Args) : Readback.Statement (.pnot o) := by
  intro w arith h ha hm; obtain rfl := Option.some.inj h
  rw [rawDecode_24 _ (P2Args_major _ _ o), P2Args_func]
  exact congrArg (fun x => some (Instr.pnot x)) (P2Args_ofWord _ _ o)

theorem Readback.pmov (o : P2Args) : Readback.Statement (.pmov o) := by
  intro w arith h ha hm; obtain rfl := Option.some.inj h
  rw [rawDecode_24 _ (P2Args_major _ _ o), P2Args_func]
  exact congrArg (fun x => some (Instr.pmov x)) (P2Args_ofWord _ _ o)

theorem Readback.pseti (o : PIArgs) : Readback.Statement (.pseti o) := by
  intro w arith h ha hm; obtain rfl := Option.some.inj h
  rw [rawDecode_24 _ (PIArgs_major _ _ o), PIArgs_func]
  exact congrArg (fun x => some (Instr.pseti x)) (PIArgs_ofWord _ _ o)

theorem Readback.bra (o : BrArgs) : Readback.Statement (.bra o) := by
  intro w arith h ha hm; obtain rfl := Option.some.inj h
  rw [rawDecode_25 _ (BrArgs_major _ _ o), BrArgs_func]
  exact congrArg (fun x => some (Instr.bra x)) (BrArgs_ofWord _ _ o)

theorem Readback.call (o : BrArgs) : Readback.Statement (.call o) := by
  intro w arith h ha hm; obtain rfl := Option.some.inj h
  rw [rawDecode_25 _ (BrArgs_major _ _ o), BrArgs_func]
  exact congrArg (fun x => some (Instr.call x)) (BrArgs_ofWord _ _ o)

theorem Readback.brx (o : CtlJArgs) : Readback.Statement (.brx o) := by
  intro w arith h ha hm; obtain rfl := Option.some.inj h
  rw [rawDecode_26 _ (CtlJArgs_major _ _ o), CtlJArgs_func]
  exact congrArg (fun x => some (Instr.brx x)) (CtlJArgs_ofWord _ _ o)

theorem Readback.callx (o : CtlJArgs) : Readback.Statement (.callx o) := by
  intro w arith h ha hm; obtain rfl := Option.some.inj h
  rw [rawDecode_26 _ (CtlJArgs_major _ _ o), CtlJArgs_func]
  exact congrArg (fun x => some (Instr.callx x)) (CtlJArgs_ofWord _ _ o)

theorem Readback.ret (o : CtlGArgs) : Readback.Statement (.ret o) := by
  intro w arith h ha hm; obtain rfl := Option.some.inj h
  rw [rawDecode_26 _ (CtlGArgs_major _ _ o), CtlGArgs_func]
  exact congrArg (fun x => some (Instr.ret x)) (CtlGArgs_ofWord _ _ o)

theorem Readback.exit (o : CtlGArgs) : Readback.Statement (.exit o) := by
  intro w arith h ha hm; obtain rfl := Option.some.inj h
  rw [rawDecode_26 _ (CtlGArgs_major _ _ o), CtlGArgs_func]
  exact congrArg (fun x => some (Instr.exit x)) (CtlGArgs_ofWord _ _ o)

theorem Readback.demote (o : CtlGArgs) : Readback.Statement (.demote o) := by
  intro w arith h ha hm; obtain rfl := Option.some.inj h
  rw [rawDecode_26 _ (CtlGArgs_major _ _ o), CtlGArgs_func]
  exact congrArg (fun x => some (Instr.demote x)) (CtlGArgs_ofWord _ _ o)

theorem Readback.yield (o : CtlGArgs) : Readback.Statement (.yield o) := by
  intro w arith h ha hm; obtain rfl := Option.some.inj h
  rw [rawDecode_26 _ (CtlGArgs_major _ _ o), CtlGArgs_func]
  exact congrArg (fun x => some (Instr.yield x)) (CtlGArgs_ofWord _ _ o)

theorem Readback.nop (o : CtlGArgs) : Readback.Statement (.nop o) := by
  intro w arith h ha hm; obtain rfl := Option.some.inj h
  rw [rawDecode_26 _ (CtlGArgs_major _ _ o), CtlGArgs_func]
  exact congrArg (fun x => some (Instr.nop x)) (CtlGArgs_ofWord _ _ o)

theorem Readback.bkpt (o : CtlBArgs) : Readback.Statement (.bkpt o) := by
  intro w arith h ha hm; obtain rfl := Option.some.inj h
  rw [rawDecode_26 _ (CtlBArgs_major _ _ o), CtlBArgs_func]
  exact congrArg (fun x => some (Instr.bkpt x)) (CtlBArgs_ofWord _ _ o)

theorem Readback.ld8z (o : MArgs) : Readback.Statement (.ld8z o) := by
  intro w arith h ha hm; obtain rfl := Option.some.inj h
  rw [rawDecode_32 _ (MArgs_major _ _ o), MArgs_func]
  exact congrArg (fun x => some (Instr.ld8z x)) (MArgs_ofWord _ _ o)

theorem Readback.ld8s (o : MArgs) : Readback.Statement (.ld8s o) := by
  intro w arith h ha hm; obtain rfl := Option.some.inj h
  rw [rawDecode_32 _ (MArgs_major _ _ o), MArgs_func]
  exact congrArg (fun x => some (Instr.ld8s x)) (MArgs_ofWord _ _ o)

theorem Readback.ld16z (o : MArgs) : Readback.Statement (.ld16z o) := by
  intro w arith h ha hm; obtain rfl := Option.some.inj h
  rw [rawDecode_32 _ (MArgs_major _ _ o), MArgs_func]
  exact congrArg (fun x => some (Instr.ld16z x)) (MArgs_ofWord _ _ o)

theorem Readback.ld16s (o : MArgs) : Readback.Statement (.ld16s o) := by
  intro w arith h ha hm; obtain rfl := Option.some.inj h
  rw [rawDecode_32 _ (MArgs_major _ _ o), MArgs_func]
  exact congrArg (fun x => some (Instr.ld16s x)) (MArgs_ofWord _ _ o)

theorem Readback.ld32 (o : MArgs) : Readback.Statement (.ld32 o) := by
  intro w arith h ha hm; obtain rfl := Option.some.inj h
  rw [rawDecode_32 _ (MArgs_major _ _ o), MArgs_func]
  exact congrArg (fun x => some (Instr.ld32 x)) (MArgs_ofWord _ _ o)

theorem Readback.ld64 (o : MArgs) : Readback.Statement (.ld64 o) := by
  intro w arith h ha hm; obtain rfl := Option.some.inj h
  rw [rawDecode_32 _ (MArgs_major _ _ o), MArgs_func]
  exact congrArg (fun x => some (Instr.ld64 x)) (MArgs_ofWord _ _ o)

theorem Readback.ld128 (o : MArgs) : Readback.Statement (.ld128 o) := by
  intro w arith h ha hm; obtain rfl := Option.some.inj h
  rw [rawDecode_32 _ (MArgs_major _ _ o), MArgs_func]
  exact congrArg (fun x => some (Instr.ld128 x)) (MArgs_ofWord _ _ o)

theorem Readback.ldf32 (o : MArgs) : Readback.Statement (.ldf32 o) := by
  intro w arith h ha hm; obtain rfl := Option.some.inj h
  rw [rawDecode_32 _ (MArgs_major _ _ o), MArgs_func]
  exact congrArg (fun x => some (Instr.ldf32 x)) (MArgs_ofWord _ _ o)

theorem Readback.ldfb16 (o : MArgs) : Readback.Statement (.ldfb16 o) := by
  intro w arith h ha hm; obtain rfl := Option.some.inj h
  rw [rawDecode_32 _ (MArgs_major _ _ o), MArgs_func]
  exact congrArg (fun x => some (Instr.ldfb16 x)) (MArgs_ofWord _ _ o)

theorem Readback.loadComplete (op keep : Nat) : Readback.Statement (.loadComplete op keep) := by
  exact fun w _ h => nomatch (show (none : Option Word) = some w from h)

theorem Readback.registerSpill (wg : Nat) (warp : Nat) (lane : Nat) (regs : BitVec 64) : Readback.Statement (.registerSpill wg warp lane regs) := by
  exact fun w _ h => nomatch (show (none : Option Word) = some w from h)

theorem Readback.st8 (o : MSArgs) : Readback.Statement (.st8 o) := by
  intro w arith h ha hm; obtain rfl := Option.some.inj h
  rw [rawDecode_33 _ (MSArgs_major _ _ o), MSArgs_func]
  exact congrArg (fun x => some (Instr.st8 x)) (MSArgs_ofWord _ _ o)

theorem Readback.st16 (o : MSArgs) : Readback.Statement (.st16 o) := by
  intro w arith h ha hm; obtain rfl := Option.some.inj h
  rw [rawDecode_33 _ (MSArgs_major _ _ o), MSArgs_func]
  exact congrArg (fun x => some (Instr.st16 x)) (MSArgs_ofWord _ _ o)

theorem Readback.st32 (o : MSArgs) : Readback.Statement (.st32 o) := by
  intro w arith h ha hm; obtain rfl := Option.some.inj h
  rw [rawDecode_33 _ (MSArgs_major _ _ o), MSArgs_func]
  exact congrArg (fun x => some (Instr.st32 x)) (MSArgs_ofWord _ _ o)

theorem Readback.st64 (o : MSArgs) : Readback.Statement (.st64 o) := by
  intro w arith h ha hm; obtain rfl := Option.some.inj h
  rw [rawDecode_33 _ (MSArgs_major _ _ o), MSArgs_func]
  exact congrArg (fun x => some (Instr.st64 x)) (MSArgs_ofWord _ _ o)

theorem Readback.st128 (o : MSArgs) : Readback.Statement (.st128 o) := by
  intro w arith h ha hm; obtain rfl := Option.some.inj h
  rw [rawDecode_33 _ (MSArgs_major _ _ o), MSArgs_func]
  exact congrArg (fun x => some (Instr.st128 x)) (MSArgs_ofWord _ _ o)

theorem Readback.deferredStorePerform (op : Nat) : Readback.Statement (.deferredStorePerform op) := by
  exact fun w _ h => nomatch (show (none : Option Word) = some w from h)

theorem Readback.lds32 (o : SpArgs) : Readback.Statement (.lds32 o) := by
  intro w arith h ha hm; obtain rfl := Option.some.inj h
  rw [rawDecode_34 _ (SpArgs_major _ _ o), SpArgs_func]
  exact congrArg (fun x => some (Instr.lds32 x)) (SpArgs_ofWord _ _ o)

theorem Readback.lds64 (o : SpArgs) : Readback.Statement (.lds64 o) := by
  intro w arith h ha hm; obtain rfl := Option.some.inj h
  rw [rawDecode_34 _ (SpArgs_major _ _ o), SpArgs_func]
  exact congrArg (fun x => some (Instr.lds64 x)) (SpArgs_ofWord _ _ o)

theorem Readback.lds128 (o : SpArgs) : Readback.Statement (.lds128 o) := by
  intro w arith h ha hm; obtain rfl := Option.some.inj h
  rw [rawDecode_34 _ (SpArgs_major _ _ o), SpArgs_func]
  exact congrArg (fun x => some (Instr.lds128 x)) (SpArgs_ofWord _ _ o)

theorem Readback.sts32 (o : SpSArgs) : Readback.Statement (.sts32 o) := by
  intro w arith h ha hm; obtain rfl := Option.some.inj h
  rw [rawDecode_34 _ (SpSArgs_major _ _ o), SpSArgs_func]
  exact congrArg (fun x => some (Instr.sts32 x)) (SpSArgs_ofWord _ _ o)

theorem Readback.sts64 (o : SpSArgs) : Readback.Statement (.sts64 o) := by
  intro w arith h ha hm; obtain rfl := Option.some.inj h
  rw [rawDecode_34 _ (SpSArgs_major _ _ o), SpSArgs_func]
  exact congrArg (fun x => some (Instr.sts64 x)) (SpSArgs_ofWord _ _ o)

theorem Readback.sts128 (o : SpSArgs) : Readback.Statement (.sts128 o) := by
  intro w arith h ha hm; obtain rfl := Option.some.inj h
  rw [rawDecode_34 _ (SpSArgs_major _ _ o), SpSArgs_func]
  exact congrArg (fun x => some (Instr.sts128 x)) (SpSArgs_ofWord _ _ o)

theorem Readback.atsadd (o : SpArgs) : Readback.Statement (.atsadd o) := by
  intro w arith h ha hm; obtain rfl := Option.some.inj h
  rw [rawDecode_34 _ (SpArgs_major _ _ o), SpArgs_func]
  exact congrArg (fun x => some (Instr.atsadd x)) (SpArgs_ofWord _ _ o)

theorem Readback.atsmax (o : SpArgs) : Readback.Statement (.atsmax o) := by
  intro w arith h ha hm; obtain rfl := Option.some.inj h
  rw [rawDecode_34 _ (SpArgs_major _ _ o), SpArgs_func]
  exact congrArg (fun x => some (Instr.atsmax x)) (SpArgs_ofWord _ _ o)

theorem Readback.spadLoadComplete (op keep : Nat) : Readback.Statement (.spadLoadComplete op keep) := by
  exact fun w _ h => nomatch (show (none : Option Word) = some w from h)

theorem Readback.aadd (o : MArgs) : Readback.Statement (.aadd o) := by
  intro w arith h ha hm; obtain rfl := Option.some.inj h
  rw [rawDecode_35 _ (MArgs_major _ _ o), MArgs_func]
  exact congrArg (fun x => some (Instr.aadd x)) (MArgs_ofWord _ _ o)

theorem Readback.amins (o : MArgs) : Readback.Statement (.amins o) := by
  intro w arith h ha hm; obtain rfl := Option.some.inj h
  rw [rawDecode_35 _ (MArgs_major _ _ o), MArgs_func]
  exact congrArg (fun x => some (Instr.amins x)) (MArgs_ofWord _ _ o)

theorem Readback.amaxs (o : MArgs) : Readback.Statement (.amaxs o) := by
  intro w arith h ha hm; obtain rfl := Option.some.inj h
  rw [rawDecode_35 _ (MArgs_major _ _ o), MArgs_func]
  exact congrArg (fun x => some (Instr.amaxs x)) (MArgs_ofWord _ _ o)

theorem Readback.aminz (o : MArgs) : Readback.Statement (.aminz o) := by
  intro w arith h ha hm; obtain rfl := Option.some.inj h
  rw [rawDecode_35 _ (MArgs_major _ _ o), MArgs_func]
  exact congrArg (fun x => some (Instr.aminz x)) (MArgs_ofWord _ _ o)

theorem Readback.amaxz (o : MArgs) : Readback.Statement (.amaxz o) := by
  intro w arith h ha hm; obtain rfl := Option.some.inj h
  rw [rawDecode_35 _ (MArgs_major _ _ o), MArgs_func]
  exact congrArg (fun x => some (Instr.amaxz x)) (MArgs_ofWord _ _ o)

theorem Readback.aand (o : MArgs) : Readback.Statement (.aand o) := by
  intro w arith h ha hm; obtain rfl := Option.some.inj h
  rw [rawDecode_35 _ (MArgs_major _ _ o), MArgs_func]
  exact congrArg (fun x => some (Instr.aand x)) (MArgs_ofWord _ _ o)

theorem Readback.aor (o : MArgs) : Readback.Statement (.aor o) := by
  intro w arith h ha hm; obtain rfl := Option.some.inj h
  rw [rawDecode_35 _ (MArgs_major _ _ o), MArgs_func]
  exact congrArg (fun x => some (Instr.aor x)) (MArgs_ofWord _ _ o)

theorem Readback.axor (o : MArgs) : Readback.Statement (.axor o) := by
  intro w arith h ha hm; obtain rfl := Option.some.inj h
  rw [rawDecode_35 _ (MArgs_major _ _ o), MArgs_func]
  exact congrArg (fun x => some (Instr.axor x)) (MArgs_ofWord _ _ o)

theorem Readback.aswp (o : MArgs) : Readback.Statement (.aswp o) := by
  intro w arith h ha hm; obtain rfl := Option.some.inj h
  rw [rawDecode_35 _ (MArgs_major _ _ o), MArgs_func]
  exact congrArg (fun x => some (Instr.aswp x)) (MArgs_ofWord _ _ o)

theorem Readback.acas (o : MArgs) : Readback.Statement (.acas o) := by
  intro w arith h ha hm; obtain rfl := Option.some.inj h
  rw [rawDecode_35 _ (MArgs_major _ _ o), MArgs_func]
  exact congrArg (fun x => some (Instr.acas x)) (MArgs_ofWord _ _ o)

theorem Readback.aincw (o : MArgs) : Readback.Statement (.aincw o) := by
  intro w arith h ha hm; obtain rfl := Option.some.inj h
  rw [rawDecode_35 _ (MArgs_major _ _ o), MArgs_func]
  exact congrArg (fun x => some (Instr.aincw x)) (MArgs_ofWord _ _ o)

theorem Readback.adecw (o : MArgs) : Readback.Statement (.adecw o) := by
  intro w arith h ha hm; obtain rfl := Option.some.inj h
  rw [rawDecode_35 _ (MArgs_major _ _ o), MArgs_func]
  exact congrArg (fun x => some (Instr.adecw x)) (MArgs_ofWord _ _ o)

theorem Readback.afadd (o : MArgs) : Readback.Statement (.afadd o) := by
  intro w arith h ha hm; obtain rfl := Option.some.inj h
  rw [rawDecode_35 _ (MArgs_major _ _ o), MArgs_func]
  exact congrArg (fun x => some (Instr.afadd x)) (MArgs_ofWord _ _ o)

theorem Readback.aadd64 (o : MArgs) : Readback.Statement (.aadd64 o) := by
  intro w arith h ha hm; obtain rfl := Option.some.inj h
  rw [rawDecode_35 _ (MArgs_major _ _ o), MArgs_func]
  exact congrArg (fun x => some (Instr.aadd64 x)) (MArgs_ofWord _ _ o)

theorem Readback.acas64 (o : MArgs) : Readback.Statement (.acas64 o) := by
  intro w arith h ha hm; obtain rfl := Option.some.inj h
  rw [rawDecode_35 _ (MArgs_major _ _ o), MArgs_func]
  exact congrArg (fun x => some (Instr.acas64 x)) (MArgs_ofWord _ _ o)

theorem Readback.aswp64 (o : MArgs) : Readback.Statement (.aswp64 o) := by
  intro w arith h ha hm; obtain rfl := Option.some.inj h
  rw [rawDecode_35 _ (MArgs_major _ _ o), MArgs_func]
  exact congrArg (fun x => some (Instr.aswp64 x)) (MArgs_ofWord _ _ o)

theorem Readback.atomComplete (op keep : Nat) : Readback.Statement (.atomComplete op keep) := by
  exact fun w _ h => nomatch (show (none : Option Word) = some w from h)

theorem Readback.radd (o : MSArgs) : Readback.Statement (.radd o) := by
  intro w arith h ha hm; obtain rfl := Option.some.inj h
  rw [rawDecode_36 _ (MSArgs_major _ _ o), MSArgs_func]
  exact congrArg (fun x => some (Instr.radd x)) (MSArgs_ofWord _ _ o)

theorem Readback.rmins (o : MSArgs) : Readback.Statement (.rmins o) := by
  intro w arith h ha hm; obtain rfl := Option.some.inj h
  rw [rawDecode_36 _ (MSArgs_major _ _ o), MSArgs_func]
  exact congrArg (fun x => some (Instr.rmins x)) (MSArgs_ofWord _ _ o)

theorem Readback.rmaxs (o : MSArgs) : Readback.Statement (.rmaxs o) := by
  intro w arith h ha hm; obtain rfl := Option.some.inj h
  rw [rawDecode_36 _ (MSArgs_major _ _ o), MSArgs_func]
  exact congrArg (fun x => some (Instr.rmaxs x)) (MSArgs_ofWord _ _ o)

theorem Readback.rminz (o : MSArgs) : Readback.Statement (.rminz o) := by
  intro w arith h ha hm; obtain rfl := Option.some.inj h
  rw [rawDecode_36 _ (MSArgs_major _ _ o), MSArgs_func]
  exact congrArg (fun x => some (Instr.rminz x)) (MSArgs_ofWord _ _ o)

theorem Readback.rmaxz (o : MSArgs) : Readback.Statement (.rmaxz o) := by
  intro w arith h ha hm; obtain rfl := Option.some.inj h
  rw [rawDecode_36 _ (MSArgs_major _ _ o), MSArgs_func]
  exact congrArg (fun x => some (Instr.rmaxz x)) (MSArgs_ofWord _ _ o)

theorem Readback.rand (o : MSArgs) : Readback.Statement (.rand o) := by
  intro w arith h ha hm; obtain rfl := Option.some.inj h
  rw [rawDecode_36 _ (MSArgs_major _ _ o), MSArgs_func]
  exact congrArg (fun x => some (Instr.rand x)) (MSArgs_ofWord _ _ o)

theorem Readback.ror (o : MSArgs) : Readback.Statement (.ror o) := by
  intro w arith h ha hm; obtain rfl := Option.some.inj h
  rw [rawDecode_36 _ (MSArgs_major _ _ o), MSArgs_func]
  exact congrArg (fun x => some (Instr.ror x)) (MSArgs_ofWord _ _ o)

theorem Readback.rxor (o : MSArgs) : Readback.Statement (.rxor o) := by
  intro w arith h ha hm; obtain rfl := Option.some.inj h
  rw [rawDecode_36 _ (MSArgs_major _ _ o), MSArgs_func]
  exact congrArg (fun x => some (Instr.rxor x)) (MSArgs_ofWord _ _ o)

theorem Readback.rswp (o : MSArgs) : Readback.Statement (.rswp o) := by
  intro w arith h ha hm; obtain rfl := Option.some.inj h
  rw [rawDecode_36 _ (MSArgs_major _ _ o), MSArgs_func]
  exact congrArg (fun x => some (Instr.rswp x)) (MSArgs_ofWord _ _ o)

theorem Readback.rfadd (o : MSArgs) : Readback.Statement (.rfadd o) := by
  intro w arith h ha hm; obtain rfl := Option.some.inj h
  rw [rawDecode_36 _ (MSArgs_major _ _ o), MSArgs_func]
  exact congrArg (fun x => some (Instr.rfadd x)) (MSArgs_ofWord _ _ o)

theorem Readback.radd64 (o : MSArgs) : Readback.Statement (.radd64 o) := by
  intro w arith h ha hm; obtain rfl := Option.some.inj h
  rw [rawDecode_36 _ (MSArgs_major _ _ o), MSArgs_func]
  exact congrArg (fun x => some (Instr.radd64 x)) (MSArgs_ofWord _ _ o)

theorem Readback.fence (o : FenArgs) : Readback.Statement (.fence o) := by
  intro w arith h ha hm; obtain rfl := Option.some.inj h
  rw [rawDecode_37 _ (FenArgs_major _ _ o), FenArgs_func]
  exact congrArg (fun x => some (Instr.fence x)) (FenArgs_ofWord _ _ o)

theorem Readback.cflush (o : McArgs) : Readback.Statement (.cflush o) := by
  intro w arith h ha hm; obtain rfl := Option.some.inj h
  rw [rawDecode_37 _ (McArgs_major _ _ o), McArgs_func]
  exact congrArg (fun x => some (Instr.cflush x)) (McArgs_ofWord _ _ o)

theorem Readback.cwb (o : McArgs) : Readback.Statement (.cwb o) := by
  intro w arith h ha hm; obtain rfl := Option.some.inj h
  rw [rawDecode_37 _ (McArgs_major _ _ o), McArgs_func]
  exact congrArg (fun x => some (Instr.cwb x)) (McArgs_ofWord _ _ o)

theorem Readback.cinv (o : McArgs) : Readback.Statement (.cinv o) := by
  intro w arith h ha hm; obtain rfl := Option.some.inj h
  rw [rawDecode_37 _ (McArgs_major _ _ o), McArgs_func]
  exact congrArg (fun x => some (Instr.cinv x)) (McArgs_ofWord _ _ o)

theorem Readback.pfl2 (o : McArgs) : Readback.Statement (.pfl2 o) := by
  intro w arith h ha hm; obtain rfl := Option.some.inj h
  rw [rawDecode_37 _ (McArgs_major _ _ o), McArgs_func]
  exact congrArg (fun x => some (Instr.pfl2 x)) (McArgs_ofWord _ _ o)

theorem Readback.pfl1 (o : McArgs) : Readback.Statement (.pfl1 o) := by
  intro w arith h ha hm; obtain rfl := Option.some.inj h
  rw [rawDecode_37 _ (McArgs_major _ _ o), McArgs_func]
  exact congrArg (fun x => some (Instr.pfl1 x)) (McArgs_ofWord _ _ o)

theorem Readback.qst (o : MArgs) : Readback.Statement (.qst o) := by
  intro w arith h ha hm; obtain rfl := Option.some.inj h
  rw [rawDecode_38 _ (MArgs_major _ _ o), MArgs_func]
  exact congrArg (fun x => some (Instr.qst x)) (MArgs_ofWord _ _ o)

theorem Readback.qsel (o : QbArgs) : Readback.Statement (.qsel o) := by
  intro w arith h ha hm; obtain rfl := Option.some.inj h
  rw [rawDecode_38 _ (QbArgs_major _ _ o), QbArgs_func]
  exact congrArg (fun x => some (Instr.qsel x)) (QbArgs_ofWord _ _ o)

theorem Readback.qerr (o : QbArgs) : Readback.Statement (.qerr o) := by
  intro w arith h ha hm; obtain rfl := Option.some.inj h
  rw [rawDecode_38 _ (QbArgs_major _ _ o), QbArgs_func]
  exact congrArg (fun x => some (Instr.qerr x)) (QbArgs_ofWord _ _ o)

theorem Readback.sbchk (o : MArgs) : Readback.Statement (.sbchk o) := by
  intro w arith h ha hm; obtain rfl := Option.some.inj h
  rw [rawDecode_38 _ (MArgs_major _ _ o), MArgs_func]
  exact congrArg (fun x => some (Instr.sbchk x)) (MArgs_ofWord _ _ o)

theorem Readback.mta (o : MArgs) : Readback.Statement (.mta o) := by
  intro w arith h ha hm; obtain rfl := Option.some.inj h
  rw [rawDecode_38 _ (MArgs_major _ _ o), MArgs_func]
  exact congrArg (fun x => some (Instr.mta x)) (MArgs_ofWord _ _ o)

theorem Readback.qblkComplete (op keep : Nat) : Readback.Statement (.qblkComplete op keep) := by
  exact fun w _ h => nomatch (show (none : Option Word) = some w from h)

theorem Readback.gang (o : GangFArgs) : Readback.Statement (.gang o) := by
  intro w arith h ha hm; obtain rfl := Option.some.inj h
  rw [rawDecode_40 _ (GangFArgs_major _ _ o), GangFArgs_func]
  exact congrArg (fun x => some (Instr.gang x)) (GangFArgs_ofWord _ _ o)

theorem Readback.mmas (o : MmaArgs) : Readback.Statement (.mmas o) := by
  intro w arith h ha hm; obtain rfl := Option.some.inj h
  rw [rawDecode_40 _ (MmaArgs_major _ _ o), MmaArgs_func]
  exact congrArg (fun x => some (Instr.mmas x)) (MmaArgs_ofWord _ _ o)

theorem Readback.mmag (o : MmaArgs) : Readback.Statement (.mmag o) := by
  intro w arith h ha hm; obtain rfl := Option.some.inj h
  rw [rawDecode_40 _ (MmaArgs_major _ _ o), MmaArgs_func]
  exact congrArg (fun x => some (Instr.mmag x)) (MmaArgs_ofWord _ _ o)

theorem Readback.rendezvousAccept (wg : Nat) (gang : Nat) : Readback.Statement (.rendezvousAccept wg gang) := by
  exact fun w _ h => nomatch (show (none : Option Word) = some w from h)

theorem Readback.rendezvousTimeout (wg : Nat) (gang : Nat) : Readback.Statement (.rendezvousTimeout wg gang) := by
  exact fun w _ h => nomatch (show (none : Option Word) = some w from h)

theorem Readback.matrixOpStart (core : Nat) : Readback.Statement (.matrixOpStart core) := by
  exact fun w _ h => nomatch (show (none : Option Word) = some w from h)

theorem Readback.matrixKStep (core : Nat) : Readback.Statement (.matrixKStep core) := by
  exact fun w _ h => nomatch (show (none : Option Word) = some w from h)

theorem Readback.bFetchFault (core : Nat) : Readback.Statement (.bFetchFault core) := by
  exact fun w _ h => nomatch (show (none : Option Word) = some w from h)

theorem Readback.matrixReissue (wg : Nat) (gang : Nat) : Readback.Statement (.matrixReissue wg gang) := by
  exact fun w _ h => nomatch (show (none : Option Word) = some w from h)

theorem Readback.matrixOpComplete (core : Nat) : Readback.Statement (.matrixOpComplete core) := by
  exact fun w _ h => nomatch (show (none : Option Word) = some w from h)

theorem Readback.acz (o : TileArgs) : Readback.Statement (.acz o) := by
  intro w arith h ha hm; obtain rfl := Option.some.inj h
  rw [rawDecode_40 _ (TileArgs_major _ _ o), TileArgs_func]
  exact congrArg (fun x => some (Instr.acz x)) (TileArgs_ofWord _ _ o)

theorem Readback.acrd (o : TileVArgs) : Readback.Statement (.acrd o) := by
  intro w arith h ha hm; obtain rfl := Option.some.inj h
  rw [rawDecode_40 _ (TileVArgs_major _ _ o), TileVArgs_func]
  exact congrArg (fun x => some (Instr.acrd x)) (TileVArgs_ofWord _ _ o)

theorem Readback.acwr (o : TileVArgs) : Readback.Statement (.acwr o) := by
  intro w arith h ha hm; obtain rfl := Option.some.inj h
  rw [rawDecode_40 _ (TileVArgs_major _ _ o), TileVArgs_func]
  exact congrArg (fun x => some (Instr.acwr x)) (TileVArgs_ofWord _ _ o)

theorem Readback.acst (o : TileKArgs) : Readback.Statement (.acst o) := by
  intro w arith h ha hm; obtain rfl := Option.some.inj h
  rw [rawDecode_40 _ (TileKArgs_major _ _ o), TileKArgs_func]
  exact congrArg (fun x => some (Instr.acst x)) (TileKArgs_ofWord _ _ o)

theorem Readback.acld (o : TileKArgs) : Readback.Statement (.acld o) := by
  intro w arith h ha hm; obtain rfl := Option.some.inj h
  rw [rawDecode_40 _ (TileKArgs_major _ _ o), TileKArgs_func]
  exact congrArg (fun x => some (Instr.acld x)) (TileKArgs_ofWord _ _ o)

theorem Readback.tileTransferComplete (op keep : Nat) : Readback.Statement (.tileTransferComplete op keep) := by
  exact fun w _ h => nomatch (show (none : Option Word) = some w from h)

theorem Readback.mprg (o : MprgArgs) : Readback.Statement (.mprg o) := by
  intro w arith h ha hm; obtain rfl := Option.some.inj h
  rw [rawDecode_40 _ (MprgArgs_major _ _ o), MprgArgs_func]
  exact congrArg (fun x => some (Instr.mprg x)) (MprgArgs_ofWord _ _ o)

theorem Readback.mrel (o : G0Args) : Readback.Statement (.mrel o) := by
  intro w arith h ha hm; obtain rfl := Option.some.inj h
  rw [rawDecode_40 _ (G0Args_major _ _ o), G0Args_func]
  exact congrArg (fun x => some (Instr.mrel x)) (G0Args_ofWord _ _ o)

theorem Readback.cpyin (o : CpyPArgs) : Readback.Statement (.cpyin o) := by
  intro w arith h ha hm; obtain rfl := Option.some.inj h
  rw [rawDecode_41 _ (CpyPArgs_major _ _ o), CpyPArgs_func]
  exact congrArg (fun x => some (Instr.cpyin x)) (CpyPArgs_ofWord _ _ o)

theorem Readback.cpyout (o : KWArgs) : Readback.Statement (.cpyout o) := by
  intro w arith h ha hm; obtain rfl := Option.some.inj h
  rw [rawDecode_41 _ (KWArgs_major _ _ o), KWArgs_func]
  exact congrArg (fun x => some (Instr.cpyout x)) (KWArgs_ofWord _ _ o)

theorem Readback.cpymc (o : CpyPArgs) : Readback.Statement (.cpymc o) := by
  intro w arith h ha hm; obtain rfl := Option.some.inj h
  rw [rawDecode_41 _ (CpyPArgs_major _ _ o), CpyPArgs_func]
  exact congrArg (fun x => some (Instr.cpymc x)) (CpyPArgs_ofWord _ _ o)

theorem Readback.cpyq2 (o : KWArgs) : Readback.Statement (.cpyq2 o) := by
  intro w arith h ha hm; obtain rfl := Option.some.inj h
  rw [rawDecode_41 _ (KWArgs_major _ _ o), KWArgs_func]
  exact congrArg (fun x => some (Instr.cpyq2 x)) (KWArgs_ofWord _ _ o)

theorem Readback.ringdef (o : RingDefArgs) : Readback.Statement (.ringdef o) := by
  intro w arith h ha hm; obtain rfl := Option.some.inj h
  rw [rawDecode_41 _ (RingDefArgs_major _ _ o), RingDefArgs_func]
  exact congrArg (fun x => some (Instr.ringdef x)) (RingDefArgs_ofWord _ _ o)

theorem Readback.awaitf (o : AwaitArgs) : Readback.Statement (.awaitf o) := by
  intro w arith h ha hm; obtain rfl := Option.some.inj h
  rw [rawDecode_41 _ (AwaitArgs_major _ _ o), AwaitArgs_func]
  exact congrArg (fun x => some (Instr.awaitf x)) (AwaitArgs_ofWord _ _ o)

theorem Readback.rels (o : RelsArgs) : Readback.Statement (.rels o) := by
  intro w arith h ha hm; obtain rfl := Option.some.inj h
  rw [rawDecode_41 _ (RelsArgs_major _ _ o), RelsArgs_func]
  exact congrArg (fun x => some (Instr.rels x)) (RelsArgs_ofWord _ _ o)

theorem Readback.cpyst (o : StatVArgs) : Readback.Statement (.cpyst o) := by
  intro w arith h ha hm; obtain rfl := Option.some.inj h
  rw [rawDecode_41 _ (StatVArgs_major _ _ o), StatVArgs_func]
  exact congrArg (fun x => some (Instr.cpyst x)) (StatVArgs_ofWord _ _ o)

theorem Readback.copyCommandStart (core : Nat) : Readback.Statement (.copyCommandStart core) := by
  exact fun w _ h => nomatch (show (none : Option Word) = some w from h)

theorem Readback.copyTranslationFault (core : Nat) (num : Nat) : Readback.Statement (.copyTranslationFault core num) := by
  exact fun w _ h => nomatch (show (none : Option Word) = some w from h)

theorem Readback.copyOpComplete (core : Nat) (num : Nat) : Readback.Statement (.copyOpComplete core num) := by
  exact fun w _ h => nomatch (show (none : Option Word) = some w from h)

theorem Readback.multicastDelivery (core : Nat) (num : Nat) (member : Nat) : Readback.Statement (.multicastDelivery core num member) := by
  exact fun w _ h => nomatch (show (none : Option Word) = some w from h)

theorem Readback.releaseReportArrival (idx : Nat) : Readback.Statement (.releaseReportArrival idx) := by
  exact fun w _ h => nomatch (show (none : Option Word) = some w from h)

theorem Readback.awaitfService (op keep : Nat) : Readback.Statement (.awaitfService op keep) := by
  exact fun w _ h => nomatch (show (none : Option Word) = some w from h)

theorem Readback.awaitfTimeout (op keep : Nat) : Readback.Statement (.awaitfTimeout op keep) := by
  exact fun w _ h => nomatch (show (none : Option Word) = some w from h)

theorem Readback.rowcpy (o : KWrArgs) : Readback.Statement (.rowcpy o) := by
  intro w arith h ha hm; obtain rfl := Option.some.inj h
  rw [rawDecode_42 _ (KWrArgs_major _ _ o), KWrArgs_func]
  exact congrArg (fun x => some (Instr.rowcpy x)) (KWrArgs_ofWord _ _ o)

theorem Readback.rowfill (o : KWrArgs) : Readback.Statement (.rowfill o) := by
  intro w arith h ha hm; obtain rfl := Option.some.inj h
  rw [rawDecode_42 _ (KWrArgs_major _ _ o), KWrArgs_func]
  exact congrArg (fun x => some (Instr.rowfill x)) (KWrArgs_ofWord _ _ o)

theorem Readback.rowand (o : KWrArgs) : Readback.Statement (.rowand o) := by
  intro w arith h ha hm; obtain rfl := Option.some.inj h
  rw [rawDecode_42 _ (KWrArgs_major _ _ o), KWrArgs_func]
  exact congrArg (fun x => some (Instr.rowand x)) (KWrArgs_ofWord _ _ o)

theorem Readback.rowor (o : KWrArgs) : Readback.Statement (.rowor o) := by
  intro w arith h ha hm; obtain rfl := Option.some.inj h
  rw [rawDecode_42 _ (KWrArgs_major _ _ o), KWrArgs_func]
  exact congrArg (fun x => some (Instr.rowor x)) (KWrArgs_ofWord _ _ o)

theorem Readback.rownot (o : KWrArgs) : Readback.Statement (.rownot o) := by
  intro w arith h ha hm; obtain rfl := Option.some.inj h
  rw [rawDecode_42 _ (KWrArgs_major _ _ o), KWrArgs_func]
  exact congrArg (fun x => some (Instr.rownot x)) (KWrArgs_ofWord _ _ o)

theorem Readback.rowmaj (o : RowMajArgs) : Readback.Statement (.rowmaj o) := by
  intro w arith h ha hm; obtain rfl := Option.some.inj h
  rw [rawDecode_42 _ (RowMajArgs_major _ _ o), RowMajArgs_func]
  exact congrArg (fun x => some (Instr.rowmaj x)) (RowMajArgs_ofWord _ _ o)

theorem Readback.rowsaxpy (o : KWrArgs) : Readback.Statement (.rowsaxpy o) := by
  intro w arith h ha hm; obtain rfl := Option.some.inj h
  rw [rawDecode_42 _ (KWrArgs_major _ _ o), KWrArgs_func]
  exact congrArg (fun x => some (Instr.rowsaxpy x)) (KWrArgs_ofWord _ _ o)

theorem Readback.rowst (o : StatVArgs) : Readback.Statement (.rowst o) := by
  intro w arith h ha hm; obtain rfl := Option.some.inj h
  rw [rawDecode_42 _ (StatVArgs_major _ _ o), StatVArgs_func]
  exact congrArg (fun x => some (Instr.rowst x)) (StatVArgs_ofWord _ _ o)

theorem Readback.rowPlan (core : Nat) (num : Nat) : Readback.Statement (.rowPlan core num) := by
  exact fun w _ h => nomatch (show (none : Option Word) = some w from h)

theorem Readback.rowStackAccept (core : Nat) (num : Nat) : Readback.Statement (.rowStackAccept core num) := by
  exact fun w _ h => nomatch (show (none : Option Word) = some w from h)

theorem Readback.rowSweep (core : Nat) (num : Nat) : Readback.Statement (.rowSweep core num) := by
  exact fun w _ h => nomatch (show (none : Option Word) = some w from h)

theorem Readback.rowStep (core : Nat) (num : Nat) : Readback.Statement (.rowStep core num) := by
  exact fun w _ h => nomatch (show (none : Option Word) = some w from h)

theorem Readback.rowResume (core : Nat) (num : Nat) : Readback.Statement (.rowResume core num) := by
  exact fun w _ h => nomatch (show (none : Option Word) = some w from h)

theorem Readback.perBankRefreshDue (stack : Nat) (pch : Nat) : Readback.Statement (.perBankRefreshDue stack pch) := by
  exact fun w _ h => nomatch (show (none : Option Word) = some w from h)

theorem Readback.postponedRefreshIssue (stack : Nat) (pch : Nat) : Readback.Statement (.postponedRefreshIssue stack pch) := by
  exact fun w _ h => nomatch (show (none : Option Word) = some w from h)

theorem Readback.allBankRefresh (stack : Nat) (pch : Nat) : Readback.Statement (.allBankRefresh stack pch) := by
  exact fun w _ h => nomatch (show (none : Option Word) = some w from h)

theorem Readback.bara (o : BarFArgs) : Readback.Statement (.bara o) := by
  intro w arith h ha hm; obtain rfl := Option.some.inj h
  rw [rawDecode_43 _ (BarFArgs_major _ _ o), BarFArgs_func]
  exact congrArg (fun x => some (Instr.bara x)) (BarFArgs_ofWord _ _ o)

theorem Readback.barw (o : BarFArgs) : Readback.Statement (.barw o) := by
  intro w arith h ha hm; obtain rfl := Option.some.inj h
  rw [rawDecode_43 _ (BarFArgs_major _ _ o), BarFArgs_func]
  exact congrArg (fun x => some (Instr.barw x)) (BarFArgs_ofWord _ _ o)

theorem Readback.bars (o : BarsArgs) : Readback.Statement (.bars o) := by
  intro w arith h ha hm; obtain rfl := Option.some.inj h
  rw [rawDecode_43 _ (BarsArgs_major _ _ o), BarsArgs_func]
  exact congrArg (fun x => some (Instr.bars x)) (BarsArgs_ofWord _ _ o)

theorem Readback.warm (o : PairQArgs) : Readback.Statement (.warm o) := by
  intro w arith h ha hm; obtain rfl := Option.some.inj h
  rw [rawDecode_43 _ (PairQArgs_major _ _ o), PairQArgs_func]
  exact congrArg (fun x => some (Instr.warm x)) (PairQArgs_ofWord _ _ o)

theorem Readback.warmComplete (op keep : Nat) : Readback.Statement (.warmComplete op keep) := by
  exact fun w _ h => nomatch (show (none : Option Word) = some w from h)

theorem Readback.wwait (o : G0Args) : Readback.Statement (.wwait o) := by
  intro w arith h ha hm; obtain rfl := Option.some.inj h
  rw [rawDecode_43 _ (G0Args_major _ _ o), G0Args_func]
  exact congrArg (fun x => some (Instr.wwait x)) (G0Args_ofWord _ _ o)

theorem Readback.spuriousTrigger (wg : Nat) (warp : Nat) (lane : Nat) : Readback.Statement (.spuriousTrigger wg warp lane) := by
  exact fun w _ h => nomatch (show (none : Option Word) = some w from h)

theorem Readback.wwaitTimeout (wg : Nat) (warp : Nat) (lane : Nat) : Readback.Statement (.wwaitTimeout wg warp lane) := by
  exact fun w _ h => nomatch (show (none : Option Word) = some w from h)

theorem Readback.waitv (o : WaitvArgs) : Readback.Statement (.waitv o) := by
  intro w arith h ha hm; obtain rfl := Option.some.inj h
  rw [rawDecode_43 _ (WaitvArgs_major _ _ o), WaitvArgs_func]
  exact congrArg (fun x => some (Instr.waitv x)) (WaitvArgs_ofWord _ _ o)

theorem Readback.waitvEvaluation (wg : Nat) (warp : Nat) (lane : Nat) : Readback.Statement (.waitvEvaluation wg warp lane) := by
  exact fun w _ h => nomatch (show (none : Option Word) = some w from h)

theorem Readback.waitvDeadline (wg : Nat) (warp : Nat) (lane : Nat) : Readback.Statement (.waitvDeadline wg warp lane) := by
  exact fun w _ h => nomatch (show (none : Option Word) = some w from h)

theorem Readback.tlwait (o : TlwArgs) : Readback.Statement (.tlwait o) := by
  intro w arith h ha hm; obtain rfl := Option.some.inj h
  rw [rawDecode_43 _ (TlwArgs_major _ _ o), TlwArgs_func]
  exact congrArg (fun x => some (Instr.tlwait x)) (TlwArgs_ofWord _ _ o)

theorem Readback.tlrd (o : TlrArgs) : Readback.Statement (.tlrd o) := by
  intro w arith h ha hm; obtain rfl := Option.some.inj h
  rw [rawDecode_43 _ (TlrArgs_major _ _ o), TlrArgs_func]
  exact congrArg (fun x => some (Instr.tlrd x)) (TlrArgs_ofWord _ _ o)

theorem Readback.sleep (o : SlpArgs) : Readback.Statement (.sleep o) := by
  intro w arith h ha hm; obtain rfl := Option.some.inj h
  rw [rawDecode_43 _ (SlpArgs_major _ _ o), SlpArgs_func]
  exact congrArg (fun x => some (Instr.sleep x)) (SlpArgs_ofWord _ _ o)

theorem Readback.sleepExpiry (wg : Nat) (warp : Nat) (lane : Nat) : Readback.Statement (.sleepExpiry wg warp lane) := by
  exact fun w _ h => nomatch (show (none : Option Word) = some w from h)

theorem Readback.barrierTimerExpiry (wg : Nat) (bar : Nat) : Readback.Statement (.barrierTimerExpiry wg bar) := by
  exact fun w _ h => nomatch (show (none : Option Word) = some w from h)

theorem Readback.pin (o : RangeFArgs) : Readback.Statement (.pin o) := by
  intro w arith h ha hm; obtain rfl := Option.some.inj h
  rw [rawDecode_44 _ (RangeFArgs_major _ _ o), RangeFArgs_func]
  exact congrArg (fun x => some (Instr.pin x)) (RangeFArgs_ofWord _ _ o)

theorem Readback.unpin (o : RangeFArgs) : Readback.Statement (.unpin o) := by
  intro w arith h ha hm; obtain rfl := Option.some.inj h
  rw [rawDecode_44 _ (RangeFArgs_major _ _ o), RangeFArgs_func]
  exact congrArg (fun x => some (Instr.unpin x)) (RangeFArgs_ofWord _ _ o)

theorem Readback.taff (o : RangeFArgs) : Readback.Statement (.taff o) := by
  intro w arith h ha hm; obtain rfl := Option.some.inj h
  rw [rawDecode_44 _ (RangeFArgs_major _ _ o), RangeFArgs_func]
  exact congrArg (fun x => some (Instr.taff x)) (RangeFArgs_ofWord _ _ o)

theorem Readback.migr (o : RangeFArgs) : Readback.Statement (.migr o) := by
  intro w arith h ha hm; obtain rfl := Option.some.inj h
  rw [rawDecode_44 _ (RangeFArgs_major _ _ o), RangeFArgs_func]
  exact congrArg (fun x => some (Instr.migr x)) (RangeFArgs_ofWord _ _ o)

theorem Readback.pgcnt (o : PairQArgs) : Readback.Statement (.pgcnt o) := by
  intro w arith h ha hm; obtain rfl := Option.some.inj h
  rw [rawDecode_44 _ (PairQArgs_major _ _ o), PairQArgs_func]
  exact congrArg (fun x => some (Instr.pgcnt x)) (PairQArgs_ofWord _ _ o)

theorem Readback.twin (o : RangeFArgs) : Readback.Statement (.twin o) := by
  intro w arith h ha hm; obtain rfl := Option.some.inj h
  rw [rawDecode_44 _ (RangeFArgs_major _ _ o), RangeFArgs_func]
  exact congrArg (fun x => some (Instr.twin x)) (RangeFArgs_ofWord _ _ o)

theorem Readback.tqry (o : PairQArgs) : Readback.Statement (.tqry o) := by
  intro w arith h ha hm; obtain rfl := Option.some.inj h
  rw [rawDecode_44 _ (PairQArgs_major _ _ o), PairQArgs_func]
  have hs : (o.toWord 0x2C 6).extractLsb' 4 6 = (0 : BitVec 6) := by
    rw [PairQArgs.toWord, field_skip (by rfl), field_skip (by rfl), field_here]
  show some (if (o.toWord 0x2C 6).extractLsb' 4 6 == 1 then _ else _) = _
  rw [hs]
  exact congrArg (fun x => some (Instr.tqry x)) (PairQArgs_ofWord _ _ o)

theorem Readback.tqryOp (o : QOpArgs) : Readback.Statement (.tqryOp o) := by
  intro w arith h ha hm; obtain rfl := Option.some.inj h
  rw [rawDecode_44 _ (QOpArgs_major _ _ o), QOpArgs_func]
  have hs : (o.toWord 0x2C 6).extractLsb' 4 6 = (1 : BitVec 6) := by
    rw [QOpArgs.toWord, field_skip (by rfl), field_skip (by rfl), field_here]
  show some (if (o.toWord 0x2C 6).extractLsb' 4 6 == 1 then _ else _) = _
  rw [hs]
  exact congrArg (fun x => some (Instr.tqryOp x)) (QOpArgs_ofWord _ _ o)

theorem Readback.queryComplete (op keep : Nat) : Readback.Statement (.queryComplete op keep) := by
  exact fun w _ h => nomatch (show (none : Option Word) = some w from h)

theorem Readback.tierOpComplete (core : Nat) (num : Nat) : Readback.Statement (.tierOpComplete core num) := by
  exact fun w _ h => nomatch (show (none : Option Word) = some w from h)

theorem Readback.moveCopyPhase (move : Nat) : Readback.Statement (.moveCopyPhase move) := by
  exact fun w _ h => nomatch (show (none : Option Word) = some w from h)

theorem Readback.moveSwitch (move : Nat) : Readback.Statement (.moveSwitch move) := by
  exact fun w _ h => nomatch (show (none : Option Word) = some w from h)

theorem Readback.moveCommit (move : Nat) : Readback.Statement (.moveCommit move) := by
  exact fun w _ h => nomatch (show (none : Option Word) = some w from h)

theorem Readback.moveRetire (move : Nat) : Readback.Statement (.moveRetire move) := by
  exact fun w _ h => nomatch (show (none : Option Word) = some w from h)

theorem Readback.counterHalving : Readback.Statement (.counterHalving) := by
  exact fun w _ h => nomatch (show (none : Option Word) = some w from h)

theorem Readback.promotionPolicy (part : Nat) (page : Nat) : Readback.Statement (.promotionPolicy part page) := by
  exact fun w _ h => nomatch (show (none : Option Word) = some w from h)

theorem Readback.frameRetirement (part : Nat) (page : Nat) : Readback.Statement (.frameRetirement part page) := by
  exact fun w _ h => nomatch (show (none : Option Word) = some w from h)

theorem Readback.poolRemoteRequest (granule : Nat) (excl : Bool) : Readback.Statement (.poolRemoteRequest granule excl) := by
  exact fun w _ h => nomatch (show (none : Option Word) = some w from h)

theorem Readback.poolGrant (granule : Nat) (excl : Bool) : Readback.Statement (.poolGrant granule excl) := by
  exact fun w _ h => nomatch (show (none : Option Word) = some w from h)

theorem Readback.poolWaitLimitExpiry (op : Nat) : Readback.Statement (.poolWaitLimitExpiry op) := by
  exact fun w _ h => nomatch (show (none : Option Word) = some w from h)

theorem Readback.poolStateChange (granule : Nat) (state : Nat) : Readback.Statement (.poolStateChange granule state) := by
  exact fun w _ h => nomatch (show (none : Option Word) = some w from h)

theorem Readback.enq (o : EnqFArgs) : Readback.Statement (.enq o) := by
  intro w arith h ha hm; obtain rfl := Option.some.inj h
  rw [rawDecode_45 _ (EnqFArgs_major _ _ o), EnqFArgs_func]
  exact congrArg (fun x => some (Instr.enq x)) (EnqFArgs_ofWord _ _ o)

theorem Readback.stq (o : StqFArgs) : Readback.Statement (.stq o) := by
  intro w arith h ha hm; obtain rfl := Option.some.inj h
  rw [rawDecode_45 _ (StqFArgs_major _ _ o), StqFArgs_func]
  exact congrArg (fun x => some (Instr.stq x)) (StqFArgs_ofWord _ _ o)

theorem Readback.idemb (o : G0Args) : Readback.Statement (.idemb o) := by
  intro w arith h ha hm; obtain rfl := Option.some.inj h
  rw [rawDecode_45 _ (G0Args_major _ _ o), G0Args_func]
  exact congrArg (fun x => some (Instr.idemb x)) (G0Args_ofWord _ _ o)

theorem Readback.ideme (o : G0Args) : Readback.Statement (.ideme o) := by
  intro w arith h ha hm; obtain rfl := Option.some.inj h
  rw [rawDecode_45 _ (G0Args_major _ _ o), G0Args_func]
  exact congrArg (fun x => some (Instr.ideme x)) (G0Args_ofWord _ _ o)

theorem Readback.dlaunch (o : DlArgs) : Readback.Statement (.dlaunch o) := by
  intro w arith h ha hm; obtain rfl := Option.some.inj h
  rw [rawDecode_45 _ (DlArgs_major _ _ o), DlArgs_func]
  exact congrArg (fun x => some (Instr.dlaunch x)) (DlArgs_ofWord _ _ o)

theorem Readback.descriptorReadComplete (launch : Nat) : Readback.Statement (.descriptorReadComplete launch) := by
  exact fun w _ h => nomatch (show (none : Option Word) = some w from h)

theorem Readback.trap (o : TrapFArgs) : Readback.Statement (.trap o) := by
  intro w arith h ha hm; obtain rfl := Option.some.inj h
  rw [rawDecode_46 _ (TrapFArgs_major _ _ o), TrapFArgs_func]
  exact congrArg (fun x => some (Instr.trap x)) (TrapFArgs_ofWord _ _ o)

theorem Readback.sysc (o : SyscFArgs) : Readback.Statement (.sysc o) := by
  intro w arith h ha hm; obtain rfl := Option.some.inj h
  rw [rawDecode_46 _ (SyscFArgs_major _ _ o), SyscFArgs_func]
  exact congrArg (fun x => some (Instr.sysc x)) (SyscFArgs_ofWord _ _ o)

theorem Readback.syscComplete (op : Nat) (result : BitVec 64) (keep : Nat) : Readback.Statement (.syscComplete op result keep) := by
  exact fun w _ h => nomatch (show (none : Option Word) = some w from h)

theorem Readback.fcall (o : G0Args) : Readback.Statement (.fcall o) := by
  intro w arith h ha hm; obtain rfl := Option.some.inj h
  rw [rawDecode_46 _ (G0Args_major _ _ o), G0Args_func]
  exact congrArg (fun x => some (Instr.fcall x)) (G0Args_ofWord _ _ o)

theorem Readback.rett (o : G0Args) : Readback.Statement (.rett o) := by
  intro w arith h ha hm; obtain rfl := Option.some.inj h
  rw [rawDecode_46 _ (G0Args_major _ _ o), G0Args_func]
  exact congrArg (fun x => some (Instr.rett x)) (G0Args_ofWord _ _ o)

theorem Readback.s2v (o : S2vFArgs) : Readback.Statement (.s2v o) := by
  intro w arith h ha hm; obtain rfl := Option.some.inj h
  rw [rawDecode_46 _ (S2vFArgs_major _ _ o), S2vFArgs_func]
  exact congrArg (fun x => some (Instr.s2v x)) (S2vFArgs_ofWord _ _ o)

theorem Readback.v2s (o : V2sFArgs) : Readback.Statement (.v2s o) := by
  intro w arith h ha hm; obtain rfl := Option.some.inj h
  rw [rawDecode_46 _ (V2sFArgs_major _ _ o), V2sFArgs_func]
  exact congrArg (fun x => some (Instr.v2s x)) (V2sFArgs_ofWord _ _ o)

theorem Readback.tlbi (o : TlbiFArgs) : Readback.Statement (.tlbi o) := by
  intro w arith h ha hm; obtain rfl := Option.some.inj h
  rw [rawDecode_46 _ (TlbiFArgs_major _ _ o), TlbiFArgs_func]
  exact congrArg (fun x => some (Instr.tlbi x)) (TlbiFArgs_ofWord _ _ o)

theorem Readback.issueGroupFormation (core : Nat) (picker : Nat) : Readback.Statement (.issueGroupFormation core picker) := by
  exact fun w _ h => nomatch (show (none : Option Word) = some w from h)

theorem Readback.yieldMarkExpiry (wg : Nat) (warp : Nat) (lane : Nat) : Readback.Statement (.yieldMarkExpiry wg warp lane) := by
  exact fun w _ h => nomatch (show (none : Option Word) = some w from h)

theorem Readback.collectiveStallTimeout (wg : Nat) (warp : Nat) (lane : Nat) : Readback.Statement (.collectiveStallTimeout wg warp lane) := by
  exact fun w _ h => nomatch (show (none : Option Word) = some w from h)

theorem Readback.collectiveHoldTimeout (group : Nat) : Readback.Statement (.collectiveHoldTimeout group) := by
  exact fun w _ h => nomatch (show (none : Option Word) = some w from h)

theorem Readback.trapEntry (wg : Nat) (warp : Nat) (lane : Nat) : Readback.Statement (.trapEntry wg warp lane) := by
  exact fun w _ h => nomatch (show (none : Option Word) = some w from h)

theorem Readback.faultRecordQueued (core : Nat) : Readback.Statement (.faultRecordQueued core) := by
  exact fun w _ h => nomatch (show (none : Option Word) = some w from h)

theorem Readback.resumeAction (part : Nat) (seq : Nat) : Readback.Statement (.resumeAction part seq) := by
  exact fun w _ h => nomatch (show (none : Option Word) = some w from h)

theorem Readback.skipAction (part : Nat) (seq : Nat) : Readback.Statement (.skipAction part seq) := by
  exact fun w _ h => nomatch (show (none : Option Word) = some w from h)

theorem Readback.deliverAction (part : Nat) (seq : Nat) : Readback.Statement (.deliverAction part seq) := by
  exact fun w _ h => nomatch (show (none : Option Word) = some w from h)

theorem Readback.killAction (part : Nat) (seq : Nat) : Readback.Statement (.killAction part seq) := by
  exact fun w _ h => nomatch (show (none : Option Word) = some w from h)

theorem Readback.engineFaultService (part : Nat) (seq : Nat) (stop : Bool) : Readback.Statement (.engineFaultService part seq stop) := by
  exact fun w _ h => nomatch (show (none : Option Word) = some w from h)

theorem Readback.watchdogExpiry (wg : Nat) : Readback.Statement (.watchdogExpiry wg) := by
  exact fun w _ h => nomatch (show (none : Option Word) = some w from h)

theorem Readback.tlbInvalidation (part : Nat) (scope : InvScope) : Readback.Statement (.tlbInvalidation part scope) := by
  exact fun w _ h => nomatch (show (none : Option Word) = some w from h)

theorem Readback.workgroupStart (handle : Nat) (stage : Nat) (cores : List Nat) : Readback.Statement (.workgroupStart handle stage cores) := by
  exact fun w _ h => nomatch (show (none : Option Word) = some w from h)

theorem Readback.stealRequest (core : Nat) : Readback.Statement (.stealRequest core) := by
  exact fun w _ h => nomatch (show (none : Option Word) = some w from h)

theorem Readback.preemptionRequest (handle : Nat) (stage : Nat) : Readback.Statement (.preemptionRequest handle stage) := by
  exact fun w _ h => nomatch (show (none : Option Word) = some w from h)

theorem Readback.drainBoundExpiry (wg : Nat) : Readback.Statement (.drainBoundExpiry wg) := by
  exact fun w _ h => nomatch (show (none : Option Word) = some w from h)

theorem Readback.workgroupSave (wg : Nat) : Readback.Statement (.workgroupSave wg) := by
  exact fun w _ h => nomatch (show (none : Option Word) = some w from h)

theorem Readback.workgroupFlush (wg : Nat) : Readback.Statement (.workgroupFlush wg) := by
  exact fun w _ h => nomatch (show (none : Option Word) = some w from h)

theorem Readback.workgroupResume (wg : Nat) (core : Nat) : Readback.Statement (.workgroupResume wg core) := by
  exact fun w _ h => nomatch (show (none : Option Word) = some w from h)

theorem Readback.workgroupEnd (wg : Nat) : Readback.Statement (.workgroupEnd wg) := by
  exact fun w _ h => nomatch (show (none : Option Word) = some w from h)

theorem Readback.pipelineComplete (part : Nat) (handle : Nat) : Readback.Statement (.pipelineComplete part handle) := by
  exact fun w _ h => nomatch (show (none : Option Word) = some w from h)

theorem Readback.bandwidthWindowRelease (part : Nat) : Readback.Statement (.bandwidthWindowRelease part) := by
  exact fun w _ h => nomatch (show (none : Option Word) = some w from h)

theorem Readback.packageReset : Readback.Statement (.packageReset) := by
  exact fun w _ h => nomatch (show (none : Option Word) = some w from h)

theorem Readback.getVersion (port : Nat) : Readback.Statement (.getVersion port) := by
  exact fun w _ h => nomatch (show (none : Option Word) = some w from h)

theorem Readback.getCapabilities (port : Nat) : Readback.Statement (.getCapabilities port) := by
  exact fun w _ h => nomatch (show (none : Option Word) = some w from h)

theorem Readback.negotiateAlgorithms (port : Nat) (asym : Nat) (hash : Nat) : Readback.Statement (.negotiateAlgorithms port asym hash) := by
  exact fun w _ h => nomatch (show (none : Option Word) = some w from h)

theorem Readback.getDigests (port : Nat) : Readback.Statement (.getDigests port) := by
  exact fun w _ h => nomatch (show (none : Option Word) = some w from h)

theorem Readback.getCertificate (port : Nat) (slot : Nat) : Readback.Statement (.getCertificate port slot) := by
  exact fun w _ h => nomatch (show (none : Option Word) = some w from h)

theorem Readback.challenge (port : Nat) (nonce : Nat) : Readback.Statement (.challenge port nonce) := by
  exact fun w _ h => nomatch (show (none : Option Word) = some w from h)

theorem Readback.getMeasurements (port : Nat) (index : Nat) : Readback.Statement (.getMeasurements port index) := by
  exact fun w _ h => nomatch (show (none : Option Word) = some w from h)

theorem Readback.deviceStatusWrite (port : Nat) (fn : Nat) (vf : Nat) (val : Nat) : Readback.Statement (.deviceStatusWrite port fn vf val) := by
  exact fun w _ h => nomatch (show (none : Option Word) = some w from h)

theorem Readback.semaphoreClaim (port0 : Bool) (port1 : Bool) : Readback.Statement (.semaphoreClaim port0 port1) := by
  exact fun w _ h => nomatch (show (none : Option Word) = some w from h)

theorem Readback.leaseRenew (port : Nat) : Readback.Statement (.leaseRenew port) := by
  exact fun w _ h => nomatch (show (none : Option Word) = some w from h)

theorem Readback.semaphoreRelease (port : Nat) : Readback.Statement (.semaphoreRelease port) := by
  exact fun w _ h => nomatch (show (none : Option Word) = some w from h)

theorem Readback.leaseExpiry : Readback.Statement (.leaseExpiry) := by
  exact fun w _ h => nomatch (show (none : Option Word) = some w from h)

theorem Readback.createPartition (port : Nat) (seq : Nat) (spec : PartSpec) : Readback.Statement (.createPartition port seq spec) := by
  exact fun w _ h => nomatch (show (none : Option Word) = some w from h)

theorem Readback.resizeRemoveCores (port : Nat) (seq : Nat) (part : Nat) (cores : List Nat) : Readback.Statement (.resizeRemoveCores port seq part cores) := by
  exact fun w _ h => nomatch (show (none : Option Word) = some w from h)

theorem Readback.resizeRemoveSlices (port : Nat) (seq : Nat) (part : Nat) (slices : List Nat) : Readback.Statement (.resizeRemoveSlices port seq part slices) := by
  exact fun w _ h => nomatch (show (none : Option Word) = some w from h)

theorem Readback.resizeShrinkTierShare (port : Nat) (seq : Nat) (part : Nat) (tier : Nat) (share : Nat) : Readback.Statement (.resizeShrinkTierShare port seq part tier share) := by
  exact fun w _ h => nomatch (show (none : Option Word) = some w from h)

theorem Readback.destroyPartition (port : Nat) (seq : Nat) (part : Nat) : Readback.Statement (.destroyPartition port seq part) := by
  exact fun w _ h => nomatch (show (none : Option Word) = some w from h)

theorem Readback.setPowerLimit (port : Nat) (seq : Nat) (watts : Nat) : Readback.Statement (.setPowerLimit port seq watts) := by
  exact fun w _ h => nomatch (show (none : Option Word) = some w from h)

theorem Readback.firmwareUpdate (port : Nat) (seq : Nat) (version : Nat) : Readback.Statement (.firmwareUpdate port seq version) := by
  exact fun w _ h => nomatch (show (none : Option Word) = some w from h)

theorem Readback.hostLaunch (port : Nat) (part : Nat) (desc : BitVec 64) : Readback.Statement (.hostLaunch port part desc) := by
  exact fun w _ h => nomatch (show (none : Option Word) = some w from h)

theorem Readback.capabilityTableRead (part : Nat) : Readback.Statement (.capabilityTableRead part) := by
  exact fun w _ h => nomatch (show (none : Option Word) = some w from h)

theorem Readback.powerControllerUpdate (factor : Nat) : Readback.Statement (.powerControllerUpdate factor) := by
  exact fun w _ h => nomatch (show (none : Option Word) = some w from h)

theorem Readback.thermalThrottle (die : Nat) : Readback.Statement (.thermalThrottle die) := by
  exact fun w _ h => nomatch (show (none : Option Word) = some w from h)

theorem Readback.thermalReset (die : Nat) : Readback.Statement (.thermalReset die) := by
  exact fun w _ h => nomatch (show (none : Option Word) = some w from h)

theorem Readback.lifetimeCounterFlush : Readback.Statement (.lifetimeCounterFlush) := by
  exact fun w _ h => nomatch (show (none : Option Word) = some w from h)

theorem Readback.reservedOpcode (word : BitVec 32) : Readback.Statement (.reservedOpcode word) := by
  exact fun w _ h => nomatch (show (none : Option Word) = some w from h)

theorem Readback.serviceCoreAccess (part : Nat) (acc : ServiceAccess) : Readback.Statement (.serviceCoreAccess part acc) := by
  exact fun w _ h => nomatch (show (none : Option Word) = some w from h)

theorem Readback.storeAcknowledgement (op : Nat) : Readback.Statement (.storeAcknowledgement op) := by
  exact fun w _ h => nomatch (show (none : Option Word) = some w from h)

theorem Readback.lineEviction (core : Nat) (l2 : Bool) (line : Nat) : Readback.Statement (.lineEviction core l2 line) := by
  exact fun w _ h => nomatch (show (none : Option Word) = some w from h)

theorem Readback.refreshEnd (stack : Nat) (pch : Nat) : Readback.Statement (.refreshEnd stack pch) := by
  exact fun w _ h => nomatch (show (none : Option Word) = some w from h)

theorem Readback.tierCommandAccept (core : Nat) (num : Nat) : Readback.Statement (.tierCommandAccept core num) := by
  exact fun w _ h => nomatch (show (none : Option Word) = some w from h)

theorem Readback.frameGenerationChange (frame : Nat) (gen : Nat) : Readback.Statement (.frameGenerationChange frame gen) := by
  exact fun w _ h => nomatch (show (none : Option Word) = some w from h)

theorem Readback.tlbEntryDrop (core : Nat) (page : Nat) : Readback.Statement (.tlbEntryDrop core page) := by
  exact fun w _ h => nomatch (show (none : Option Word) = some w from h)

theorem Readback.powerLoss : Readback.Statement (.powerLoss) := by
  exact fun w _ h => nomatch (show (none : Option Word) = some w from h)

theorem Readback.migrHostReport (core : Nat) (num : Nat) (moved : Bool) : Readback.Statement (.migrHostReport core num moved) := by
  exact fun w _ h => nomatch (show (none : Option Word) = some w from h)

theorem Readback.managementPageMove (part : Nat) (page : Nat) (tier : Nat) (frame : Nat) : Readback.Statement (.managementPageMove part page tier frame) := by
  exact fun w _ h => nomatch (show (none : Option Word) = some w from h)

theorem Readback.partitionSettingWrite (part : Nat) (setting : Setting) : Readback.Statement (.partitionSettingWrite part setting) := by
  exact fun w _ h => nomatch (show (none : Option Word) = some w from h)

theorem Readback.resizeAddResources (port : Nat) (seq : Nat) (part : Nat) (spec : PartSpec) : Readback.Statement (.resizeAddResources port seq part spec) := by
  exact fun w _ h => nomatch (show (none : Option Word) = some w from h)

end Sys2Proof.Laws
end

