-- ==== Sys2Proof/Tests/Slice0.lean ====
section
/-!
SUPPORT. Tests of the model on small states: ill-formed terms that WellFormed refuses, words written out from the spec's
encodings, and for each statement a state and operands that meet its hypotheses, with boundary values of its clauses.
-/

open Sys2Proof Sys2Proof.Machine Sys2Proof.Safety Sys2Proof.Claims

section

/- One kernel check at a time: each would take a thread's stack of its own. -/
set_option Elab.async false

namespace Sys2Proof.Tests

/-! ## Small states -/

/-- The machine about to run one word (assumption log 2). -/
def base : State := State.reset.withFetchWord 32 0

/-- Its group: one member, at the last word of a collective clause. -/
def lone : Group := trialGroup 0

/-- The same group with two more words behind the next one. -/
def amid : Group := { lone with ctx := { lone.ctx with left := 3 } }

/-- The one thread of the package. -/
def me : TRef := ⟨0, 0, 0⟩

/-- The machine with a group and another thread. -/
def solo (g : Group) (f : Thread → Thread) : State :=
  { base with groups := [g], wgs := base.wgs.map fun w => withThreads w (w.threads.map f) }

def wgOf (s : State) : Workgroup := s.wgs.headD (trialWorkgroup 0)
def thOf (s : State) : Thread := (wgOf s).threads.headD (startThread 0 false false 0 0 0 0)
def partAt (s : State) : Partition := s.parts.headD trialPartition

/-- The state is about to issue a word of a rule in a group of one member. -/
def Meets (s : State) (g : Group) (rule : WordRule) (regs : List Nat) : Prop :=
  Alone s g me (wgOf s) (thOf s) ∧ Ready s g rule regs

def arithPre (a : ArithPrefixArgs) (g : Group) : Group := { g with mods := { g.mods with arith := some (0xFFC, a) } }
def memPre (a : MemPrefixArgs) (g : Group) : Group := { g with mods := { g.mods with mem := some (0xFFC, a) } }
def extPre (e : BitVec 26) (g : Group) : Group := { g with mods := { g.mods with ext := some (0xFFC, e) } }

/-- Masked by p1, zeroing. -/
def masked : Group := arithPre { mask := 1, z := true, rnd := 0, v4 := 0 } lone

def helper (t : Thread) : Thread := { t with status := .helper }

theorem flagRoom_of {g : Group} {fs : Bool} {th : Thread}
    (h : (g.flagOf fs).all (fun f => decide (th.flag f < 63)) = true) : flagRoom g fs th := by
  intro f hf
  simpa [hf] using h

theorem plain_of_absent {s : State} {pa n : Nat} {l : Leaf} (h1 : pa % 128 + n ≤ 128) (h2 : s.l2Sector? (pa / 128) = none)
    (h3 : s.l2.length < 4096 ∧ s.damage = [] ∧ ∀ u ∈ [pa / 128 * 2, pa / 128 * 2 + 1],
      s.isCleared (u * 64) = true ∨ (s.sameKeys u l.fold l.open_ = true ∧ ∀ x ∈ s.poison, x.1 ≠ u)) : Plain s pa n l := by
  unfold Plain; rw [h2]; exact ⟨h1, Or.inl h3.1, h3.2⟩

theorem plain_of_held {s : State} {pa n : Nat} {l : Leaf} {x : L2Sector} (h1 : pa % 128 + n ≤ 128)
    (h2 : s.l2Sector? (pa / 128) = some x)
    (h3 : x.data.length = 128 ∧ ∀ u ∈ x.bad, ¬(u.1 * 64 < pa + n ∧ pa < u.1 * 64 + 64)) : Plain s pa n l := by
  unfold Plain; rw [h2]; exact ⟨h1, h3⟩

theorem fresh_of_absent {s : State} {core pa : Nat} {gen : BitVec 16} (h : (s.core core).l1Line? (pa / 128) = none) :
    FreshLine s core pa gen := by
  intro x hx
  rw [h] at hx
  cases hx

theorem room_of_absent {s : State} {core pa : Nat} {gen : BitVec 16} (h : (s.core core).l1Line? (pa / 128) = none)
    (h2 : (s.core core).l1.length < s.l1Capacity core) : LineRoom s core pa gen := ⟨fresh_of_absent h, Or.inr h2⟩

theorem readable_of_absent {s : State} {core : Nat} {a : Access} (h1 : s.homeAddr a.pa % 128 + a.size ≤ 128)
    (h2 : (s.core core).l1Line? (s.homeAddr a.pa / 128) = none) (h3 : (s.core core).l1.length < s.l1Capacity core)
    (h4 : Plain s (s.homeAddr a.pa) a.size a.leaf) : Readable s core a :=
  ⟨h1, fresh_of_absent h2, Or.inr ⟨h4, room_of_absent h2 h3⟩⟩

theorem noFence_of {s : State}
    (h : (s.ops.all fun f => match f.kind with | .fence .. => false | _ => true) = true) : NoFence s := by
  intro f hf
  have h1 := List.all_eq_true.mp h f hf
  revert h1
  cases f.kind <;> simp

theorem performs_of {s : State} {o : PendingOp} (h1 : s.op? o.id = some o) (h2 : s.opWaits o = false)
    (h3 : (s.ops.all fun f => match f.kind with | .fence .. => false | _ => true) = true)
    (h4 : s.opCore o < s.cores.length) : Performs s o := ⟨h1, h2, noFence_of h3, h4⟩

/-- The leaf of a check that passes, and the code and address of one that does not. -/
def leafOf (x : Except FaultDetail Leaf) : Option Leaf := x.toOption
def stopOf (x : Except FaultDetail Leaf) : Option (BitVec 8 × DWord) :=
  match x with
  | .error d => some (d.code, d.addr)
  | .ok _ => none

/-- Page tables at 0x80000 that map the first 64 GiB: two tables lead to one leaf of 64 GiB. -/
def mapped (s : State) : State :=
  { s with mem := Memory.setBytes (Memory.setBytes (Memory.setBytes s.mem 0x80000 (leBytes 8 0x818001)) 0x81000
      (leBytes 8 0x828001)) 0x82000 (leBytes 8 0x230F),
           parts := s.parts.map fun p => { p with ptroot := 0x80000 } }

/-- The state that an answer goes on in. -/
def ranOf (a : Answer) : State :=
  match a with
  | .next t => t
  | _ => State.reset

/-- The answer to an operation is a next state. -/
def goesOn (a : Answer) : Bool :=
  match a with
  | .next _ => true
  | _ => false

/-- The first thread of a state, changed. -/
def withThread (f : Thread → Thread) (s : State) : State := s.updThread me f

/-- An operation of the one thread on flag 0, and the machine in which it is outstanding. -/
def opOf (kind : OpKind) (dst n : Nat) : PendingOp := newOp base lone me (thOf base) (some 0) kind dst n
def pending (kind : OpKind) (dst n : Nat) : State := withOp (opOf kind dst n) base

/-- n bytes at an address of the one page, with an order and scope. -/
def bytesAt (va n order scope : Nat) : Access :=
  { va := va, pa := va, size := n, leaf := trialLeaf, order := order, scope := scope }

end Sys2Proof.Tests
namespace Sys2Proof.Tests

/-! ## Witnesses: integer, float, cross-lane, compare and control words -/

/-- The rules of an immediate word and of words with a third source or pair, as their statements write them. -/
def extRule : WordRule := { prefixKind := .arith, ext := true }
def thirdRule : WordRule := { prefixKind := .arith, v4 := .reg }
def pairRule : WordRule := { prefixKind := .arith, v4 := .pair }

theorem test_rules : extRule = { plainArith with ext := true } ∧ thirdRule = { plainArith with v4 := .reg } ∧
    pairRule = { plainArith with v4 := .pair } := ⟨rfl, rfl, rfl⟩

theorem witness_IntegerWords :
    Ready base lone plainArith [2, 1, 3] ∧ Ready (solo masked id) masked plainArith [63, 0, 63] ∧
      Ready base lone plainArith [63, 63] ∧ (thOf base).pred 1 = false := by
  repeat' apply And.intro
  all_goals decide +kernel

theorem witness_ImmediateWords :
    Ready base lone extRule [63, 0] ∧
      Ready (solo (extPre 0x3FFFFFF lone) id) (extPre 0x3FFFFFF lone) extRule [63, 0] ∧
      Ready base lone extRule [63] := by
  repeat' apply And.intro
  all_goals decide +kernel

def third : Group := arithPre { mask := 0, z := false, rnd := 0, v4 := 63 } lone
def pair : Group := arithPre { mask := 0, z := false, rnd := 0, v4 := 62 } lone

theorem witness_ThirdSourcePairAndSelectWords :
    Ready (solo third id) third thirdRule [63, 0, 1] ∧
      Ready base lone thirdRule [63, 0, 1] ∧
      Ready (solo pair id) pair pairRule [62, 63, 0, 1] ∧
      Ready base lone plainArith [62, 63, 0, 1, 2, 3] ∧ Ready base lone plainArith [62, 63, 0, 1, 2] ∧
      Ready base lone plainArith [2, 1, 3] := by
  repeat' apply And.intro
  all_goals decide +kernel

theorem witness_WarpRegisterWords :
    Ready base lone {} [] ∧ Ready base lone {} [62, 63] ∧ Ready base lone {} [62] ∧
      (∀ w ∈ base.wgs, ∀ v ∈ base.wgs, v.id = w.id → v = w) := by
  repeat' apply And.intro
  all_goals decide +kernel

def rna : Group := arithPre { mask := 0, z := false, rnd := 4, v4 := 0 } lone
def fma : Group := arithPre { mask := 1, z := true, rnd := 1, v4 := 63 } lone

theorem witness_FloatWords :
    Ready (solo rna id) rna (floatArith true false) [2, 1, 3] ∧ Ready base lone (floatArith false false) [2, 1, 3] ∧
      Ready base lone (floatArith false false) [2, 1] ∧ Ready (solo rna id) rna (floatArith true false) [63, 63] ∧
      Ready (solo fma id) fma (floatArith true true) [2, 1, 3] := by
  repeat' apply And.intro
  all_goals decide +kernel

theorem witness_RoundingIsCorrect :
    (-1 : Int) < 0 ∧ bf16 ∈ [fp32, fp16, bf16] ∧ 65535 < 2 ^ bf16.width ∧ 4 < 5 :=
  ⟨by decide, by simp, by decide, by decide⟩

/-- A result inside FP16's range, and the first one beyond it. -/
theorem witness_RoundingOverflows :
    under (roundUnits 0 false 1 0 (-10)).1 (-10) (fp16.bias + 1) ∧ ¬ under (roundUnits 0 false 1 16 6).1 6 (fp16.bias + 1) ∧
      (FVal.nan true).isNan = true ∧ (FVal.inf false).isNan = false := by
  refine ⟨?_, ?_, rfl, rfl⟩
  · intro q h1 _
    have h : (roundUnits 0 false 1 0 (-10)).1 = 2 ^ 10 := by decide +kernel
    rw [h, ← Nat.pow_add]
    have h2 : fp16.bias = 15 := by decide
    exact Nat.pow_lt_pow_right (by decide) (by omega)
  · intro h
    have h1 := h 0 (by decide) (by decide)
    revert h1
    decide +kernel

/-- The exponents of FP16: 0, the least, the largest and that of infinities. -/
theorem witness_PatternsDecode : fp16 ∈ [fp32, fp16, bf16] ∧ 31 < 2 ^ (fp16.width - fp16.p) ∧ 1023 < 2 ^ (fp16.p - 1) ∧
    2 ^ (fp16.width - fp16.p) - 1 = 31 :=
  ⟨by simp, by decide, by decide, by decide⟩

def full : State := solo lone fun t => { t with flags := t.flags.setIfInBounds 0 62 }
def sfuOp : PendingOp := newOp base lone me (thOf base) (some 0) (.sfu 0 0x3F800000 0 false) 5 1

theorem witness_SpecialFunctionWords :
    Meets base lone (floatArith false false) [2, 1] ∧ Meets base lone (floatArith true false) [63, 63] ∧
      (thOf base).pred 0 = true ∧ (thOf base).pred 1 = false ∧ flagRoom lone false (thOf full) ∧
      (withOp sfuOp base).op? sfuOp.id = some sfuOp := by
  refine ⟨?_, ?_, ?_, ?_, flagRoom_of ?_, ?_⟩ <;> first | (unfold Meets Alone Ready; decide +kernel) | decide +kernel

/-- A quad: four threads in one group. -/
def quadGroup : Group := { lone with members := [0, 1, 2, 3].map fun l => ⟨0, 0, l⟩ }
def quadThread (l : Nat) : Thread := { startThread trialPc false (l == 3) 0 l 0 0 with group := some 0 }
def quad (g : Group) : State :=
  { base with groups := [g], wgs := base.wgs.map fun w => withThreads w ([0, 1, 2, 3].map quadThread) }

def wide : Group := { quadGroup with ctx := { quadGroup.ctx with left := 2 } }

theorem witness_ShufflesAndSubgroupWidth :
    Together (quad quadGroup) quadGroup ∧ Ready (quad quadGroup) quadGroup crossRule [63, 0] ∧
      Ready (quad quadGroup) quadGroup crossRule ([5, 1] ++ [2]) ∧ Together (quad wide) wide ∧
      Ready (quad wide) wide crossRule [] ∧ 2 ≤ wide.ctx.left ∧
      (∀ v ∈ (quad wide).wgs, ∀ w ∈ (quad wide).wgs, v.id = w.id → v = w) := by
  repeat' apply And.intro
  all_goals decide +kernel

theorem witness_VotesBallotsAndReductions :
    Together (quad quadGroup) quadGroup ∧ Ready (quad quadGroup) quadGroup crossRule [] ∧
      Ready (quad quadGroup) quadGroup crossRule [63, 63] ∧ Ready (quad quadGroup) quadGroup crossRule [63] ∧
      rediOps[7]?.isSome = true := by
  repeat' apply And.intro
  all_goals decide +kernel

theorem witness_Compares :
    Ready base lone hintRule [62, 63, 0, 1] ∧ Ready base lone hintRule [63, 0] ∧ (thOf base).pred 1 = false := by
  repeat' apply And.intro
  all_goals decide +kernel

def exted : Group := extPre 0 lone

theorem witness_PredicateLogic :
    Ready base lone hintRule [] ∧ Standing (solo exted id) exted false ∧ 1 ≤ exted.ctx.left ∧ ModifiedBy exted.mods 0xFFC ∧
      badPredicateWord 0x60194010 ∧ ¬ badPredicateWord 0x60194000 ∧ (7 : BitVec 3) ≠ 0 := by
  refine ⟨?_, ?_, ?_, Or.inl ⟨0, rfl⟩, ?_, ?_, ?_⟩ <;>
    first | (unfold Ready; decide +kernel) | (unfold Claims.Standing; decide +kernel) | (unfold badPredicateWord; decide) | decide

theorem witness_Transfers : Ready base lone lastRule [] ∧ Ready base lone lastRule [14, 15, 62, 63] ∧
    Ready base lone lastRule [14, 15] ∧ Ready base lone lastRule [62, 63] := by
  repeat' apply And.intro
  all_goals decide +kernel

theorem witness_ControlWords : Ready base lone hintRule [] ∧ Meets base lone lastRule [] ∧
    (thOf base).guard 0 false = true ∧ (thOf base).guard 1 false = false := by
  repeat' apply And.intro
  all_goals decide +kernel

/-- A group at its clause start. -/
def atStart : Group := trialGroup 0xFC400000

def hinted : Group := { amid with mods := { Mods.none with hint := some (0xFFC, ⟨0, 0, 0⟩) } }
def two : Group := { lone with ctx := { lone.ctx with left := 2 } }
def extAmid : Group := extPre 0 amid

/-- Two threads of a workgroup at b0, both in the set, the second's arrival held; and one thread alone, waiting. -/
def arrived (hold : Option Hold) (l : Nat) : Thread := { startThread trialPc false false 0 l 0 0 with hold := hold }
def atB0 (ts : List Thread) : State :=
  { base with wgs := base.wgs.map fun w =>
      { withThreads w ts with
        barriers := w.barriers.setIfInBounds 0 { Barrier.reset with arrivals := ts.map fun t => ⟨0, 0, t.lane⟩, count := 2 } } }
def holding : Hold := .barrier 0 ⟨0, 0, none, 0, none⟩
def heldThere : Hold := .arrival 0 0 true 0 ⟨0, 0, none, 0, none⟩
def aloneAtB0 : State := atB0 [arrived (some holding) 0]
def bothAtB0 : State := atB0 [arrived (some holding) 0, arrived (some heldThere) 1]

theorem witness_ExitOfAGroup : Ready (quad quadGroup) quadGroup lastRule [] ∧ Named (quad quadGroup) quadGroup ∧
    (∀ w ∈ (quad quadGroup).wgs, ∀ t ∈ w.threads, inGroup quadGroup t → t.hold = none) ∧
    (∀ w ∈ (quad quadGroup).wgs, w.heldArrivals 0 = []) := by
  refine ⟨?_, ?_, ?_, ?_⟩
  · repeat' apply And.intro
    all_goals decide +kernel
  · unfold Named inGroup; decide +kernel
  · unfold inGroup; decide +kernel
  · decide +kernel

theorem witness_RecountB0 : (barrierOf (wgOf base) 0).arrivals = [] ∧ aloneAtB0.wg? 0 = some (wgOf aloneAtB0) ∧
    (barrierOf (wgOf aloneAtB0) 0).arrivals ≠ [] ∧ remaining (wgOf aloneAtB0) ≤ (barrierOf (wgOf aloneAtB0) 0).arrivals.length ∧
    (wgOf aloneAtB0).heldArrivals 0 = [] ∧ (barrierOf (wgOf bothAtB0) 0).arrivals ≠ [] ∧
    remaining (wgOf bothAtB0) ≤ (barrierOf (wgOf bothAtB0) 0).arrivals.length ∧
    (wgOf bothAtB0).heldArrivals 0 = [arrived (some heldThere) 1] ∧
    (wgOf bothAtB0).thread? 0 1 = some (arrived (some heldThere) 1) ∧ 2 ≤ remaining (wgOf bothAtB0) := by
  refine ⟨?_, ?_, ?_, ?_, ?_, ?_, ?_, ?_, ?_, ?_⟩
  all_goals decide +kernel

theorem witness_HeadersAndModifiers :
    Standing (solo atStart id) atStart true ∧ 1 ≤ (1 : BitVec 4).toNat ∧ Standing (solo two id) two false ∧
      2 ≤ two.ctx.left ∧ two.mods = Mods.none ∧ Standing (solo hinted id) hinted false ∧ hinted.mods ≠ Mods.none ∧
      Standing (solo extAmid id) extAmid false ∧ extAmid.mods.ext ≠ none ∧ Standing base lone false ∧ lone.ctx.left = 1 ∧
      ((solo two id).fetchWord two.core ((solo two id).groupPart two) (two.pc + 4)).toOption = some 0 := by
  repeat' apply And.intro
  all_goals decide +kernel

def uncollected : Group := { lone with ctx := { lone.ctx with c := false } }
def prefixed : Group := memPre { scope := 0, order := 1, v4 := 1 } lone

theorem witness_MisplacedWords : outOfPlace two lastRule ∧ outOfPlace uncollected crossRule ∧
    outOfPlace lone { sc := true } ∧ outOfPlace lone { v4 := .compare } ∧ ¬ outOfPlace pair pairRule ∧
    oddPair third pairRule ∧ prefixRead third.mods = some (0xFFC, 63) ∧ ¬ outOfPlace third pairRule ∧
    refusesPrefix prefixed plainArith ∧ ¬ oddPair prefixed plainArith ∧ ¬ outOfPlace prefixed plainArith ∧
    prefixRead prefixed.mods = some (0xFFC, 1) ∧ refusesExtension exted plainArith ∧ ¬ refusesPrefix exted plainArith ∧
    ¬ oddPair exted plainArith ∧ ¬ outOfPlace exted plainArith ∧ exted.mods.ext = some (0xFFC, 0) := by
  refine ⟨Or.inl ⟨rfl, by decide⟩, Or.inr (Or.inl ⟨rfl, rfl⟩), Or.inr (Or.inr (Or.inl ⟨rfl, by simp [lone, trialGroup, Mods.none]⟩)),
    Or.inr (Or.inr (Or.inr ⟨Or.inl rfl, by simp [lone, trialGroup, Mods.none], by simp [lone, trialGroup, Mods.none]⟩)), ?_,
    ⟨Or.inl rfl, 0xFFC, 63, rfl, by decide⟩, rfl, ?_,
    Or.inr ⟨rfl, 0xFFC, _, rfl, Or.inl (by decide)⟩, ?_, ?_, rfl, ⟨by decide, rfl⟩, ?_, ?_, ?_, rfl⟩ <;>
    simp [outOfPlace, oddPair, refusesPrefix, plainArith, pairRule, pair, third, prefixed, exted, arithPre, memPre, extPre, lone,
      trialGroup, trialClause, Mods.none]

theorem witness_DecodingFaults :
    Standing (solo exted id) exted false ∧ exted.wordFault hintRule = some (0x03, 0xFFC) ∧
      Standing (solo atStart id) atStart true ∧ atStart.wordFault hintRule = some (0x02, 0x1000) ∧
      lone.wordFault { last := true, xlane := true } = none := by
  repeat' apply And.intro
  all_goals decide +kernel

end Sys2Proof.Tests
namespace Sys2Proof.Tests

/-! ## Witnesses: accesses of threads -/

def acquiring : Group := memPre { scope := 2, order := 1, v4 := 0 } lone
def releasing : Group := memPre { scope := 2, order := 2, v4 := 0 } lone
def comparing : Group := memPre { scope := 1, order := 3, v4 := 63 } lone
def comparingPair : Group := memPre { scope := 1, order := 3, v4 := 62 } lone

theorem witness_LoadWords :
    Meets base lone (accessRule [0, 1] .none) (registers 60 4 ++ addressed true 62) ∧
      Meets (solo acquiring id) acquiring (accessRule [0, 1] .none) (registers 63 1 ++ addressed false 63) ∧
      (thOf base).pred 0 = true ∧ (thOf base).pred 7 = false ∧
      leafOf (checked base 0 0 0xFFFF0 16 { r := true }) = some trialLeaf ∧
      stopOf (checked base 0 0 0xFFFF8 16 { r := true }) = some (0x10, 0xFFFF8) ∧
      stopOf (checked base 0 0 0x200000000000000 1 { r := true }) = some (0x12, 0x200000000000000) := by
  repeat' apply And.intro
  all_goals decide +kernel

theorem witness_LoadFlagRoom : flagRoom lone false (thOf full) ∧ flagRoom lone true (thOf base) :=
  ⟨flagRoom_of (by decide +kernel), flagRoom_of (by decide +kernel)⟩

def lastBytes : OpKind := .load 6 (bytesAt 0xFFFF0 16 0 0) none
def oneByte : OpKind := .load 1 (bytesAt 127 1 1 2) none

theorem witness_LoadsReturn :
    Performs (pending lastBytes 60 4) (opOf lastBytes 60 4) ∧ Performs (pending oneByte 63 1) (opOf oneByte 63 1) ∧
      Granted (pending lastBytes 60 4) (bytesAt 0xFFFF0 16 0 0) false ∧
      Granted (pending oneByte 63 1) (bytesAt 127 1 1 2) false ∧
      Readable (pending lastBytes 60 4) 0 (bytesAt 0xFFFF0 16 0 0) ∧
      Readable (pending oneByte 63 1) 0 (bytesAt 127 1 1 2) := by
  refine ⟨?_, ?_, ?_, ?_, readable_of_absent ?_ ?_ ?_ (plain_of_absent ?_ ?_ ?_),
    readable_of_absent ?_ ?_ ?_ (plain_of_absent ?_ ?_ ?_)⟩
  · apply performs_of <;> decide +kernel
  · apply performs_of <;> decide +kernel
  · unfold Granted; decide +kernel
  · unfold Granted; decide +kernel
  all_goals decide +kernel

/-- Four elements of a block of format 1 or 6, the last of the page, and the block's entry at 0x2000. -/
def blockAccess (fmt : Nat) : Access :=
  { bytesAt 0xFFFFC (max 2 (blockWidth fmt / 2)) 0 2 with leaf := { trialLeaf with format := fmt } }
def blockLoad (fmt : Nat) : OpKind := .load (if fmt = 1 then 7 else 8) (blockAccess fmt) (some (bytesAt 0x2000 2 0 0))
def decoding (fmt : Nat) (entry : Nat) : State :=
  let s := pending (blockLoad fmt) 60 4
  { s with mem := Memory.setBytes s.mem 0x2000 (leBytes 2 entry) }

theorem witness_BlockLoads (b : Bool) : let fmt := if b then 1 else 6
    let s := decoding fmt 0
    Performs s (opOf (blockLoad fmt) 60 4) ∧ Granted s (bytesAt 0x2000 2 0 0) false ∧ Granted s (blockAccess fmt) false ∧
      Readable s 0 (bytesAt 0x2000 2 0 0) ∧ Readable s 0 (blockAccess fmt) ∧ s.l2.length + 2 ≤ 4096 ∧
      (s.core 0).l1.length + 2 ≤ s.l1Capacity 0 ∧ (blockAccess fmt).va % (blockWidth fmt / 2) = 0 ∧
      ValidEntry (ofLe (s.coreBytes 0 0x2000 2)) ∧ ¬ ValidEntry (ofLe ((decoding fmt 1).coreBytes 0 0x2000 2)) ∧
      (thOf s).executes = true ∧ (thOf s).late = none := by
  cases b <;> refine ⟨?_, ?_, ?_, readable_of_absent ?_ ?_ ?_ (plain_of_absent ?_ ?_ ?_),
    readable_of_absent ?_ ?_ ?_ (plain_of_absent ?_ ?_ ?_), ?_, ?_, ?_, ?_, ?_, ?_, ?_⟩
  all_goals first | decide +kernel | (apply performs_of <;> decide +kernel) | (unfold Granted; decide +kernel)

/-- A line that L1 got under an earlier generation of its frame. -/
def renewed : State :=
  { base with
    frames := [{ Frame.blank 0 (2 ^ 20) with gen := 1 }],
    cores := base.cores.modify 0 fun c =>
      { c with l1 := [{ line := 1, cls := .priv, gen := 0, fold := 0, open_ := false, bytes := [(0, 7, true)] }] } }

theorem witness_EarlierGenerations : ((renewed.core 0).l1Line? 1).map (·.gen) = some 0 ∧ renewed.genCurrent 1 0 = false ∧
    renewed.genCurrent 1 1 = true := by
  refine ⟨?_, ?_, ?_⟩ <;> decide +kernel

theorem witness_StoresAndReductions :
    Meets base lone (accessRule [0, 2] .none) (registers 60 4 ++ addressed true 62) ∧
      Meets (solo releasing id) releasing (accessRule [0, 2] .none) (registers 63 1 ++ addressed false 63) ∧
      Meets base lone (accessRule [0, 2] .none) (registers 62 2 ++ addressed true 62) ∧
      leafOf (checked base 0 0 0 8 { w := true }) = some trialLeaf ∧
      stopOf (checked base 0 0 4 8 { w := true }) = some (0x10, 4) := by
  repeat' apply And.intro
  all_goals decide +kernel

def storing : OpKind := .store (bytesAt 0xFFFF0 16 0 0) ((List.range 16).map fun i => BitVec.ofNat 8 i)
def deferredOp : PendingOp := { opOf storing 0 0 with waiting := some 0, flag := none }
def deferred : State := withOp deferredOp base

theorem witness_StoresWrite :
    Performs (pending storing 0 0) (opOf storing 0 0) ∧ Performs deferred deferredOp ∧ deferredOp.waiting.isSome = true ∧
      Granted deferred (bytesAt 0xFFFF0 16 0 0) true ∧ Plain deferred 0xFFFF0 16 trialLeaf ∧
      NoneSeenBut deferred deferredOp ∧ LineRoom deferred 0 0xFFFF0 0 ∧
      Granted (pending storing 0 0) (bytesAt 0xFFFF0 16 0 0) true ∧ Plain (pending storing 0 0) 0xFFFF0 16 trialLeaf := by
  refine ⟨?_, ?_, rfl, ?_, ?_, ?_, ?_, ?_, ?_⟩
  · apply performs_of <;> decide +kernel
  · apply performs_of <;> decide +kernel
  · unfold Granted; decide +kernel
  · apply plain_of_absent <;> decide +kernel
  · unfold NoneSeenBut; decide +kernel
  · apply room_of_absent <;> decide +kernel
  · unfold Granted; decide +kernel
  · apply plain_of_absent <;> decide +kernel

/-- A store that carries generation 1 to a frame of generation 0, and one to a pool granule that this package does not hold. -/
def staleStore : OpKind := .store { bytesAt 128 4 0 2 with leaf := { trialLeaf with gen := 1 } } [1, 2, 3, 4]
def poolStore : OpKind := .store { bytesAt 128 4 0 2 with pa := 4398046511104 } [1, 2, 3, 4]
def untracked (kind : OpKind) : PendingOp := { opOf kind 0 0 with flag := none }
def assisted (s : State) : State := { s with parts := s.parts.map fun p => { p with poolHw := false } }

theorem witness_StoresThatMeetTheHomeAgent :
    Performs (withOp (untracked staleStore) base) (untracked staleStore) ∧
      (withOp (untracked staleStore) base).poolServes 128 true = true ∧
      (withOp (untracked staleStore) base).genOk { trialLeaf with gen := 1 } 128 = false ∧
      Performs (withOp (untracked poolStore) base) (untracked poolStore) ∧
      (withOp (untracked poolStore) base).poolServes 4398046511104 true = false ∧
      (withOp (untracked poolStore) base).poolHw 0 = true ∧
      Performs (withOp (untracked poolStore) (assisted base)) (untracked poolStore) ∧
      (withOp (untracked poolStore) (assisted base)).poolServes 4398046511104 true = false ∧
      (withOp (untracked poolStore) (assisted base)).poolHw 0 = false ∧ (untracked poolStore).reported = false := by
  repeat' apply And.intro
  all_goals first | decide +kernel | (apply noFence_of; decide +kernel)

/-- A store to a coherent page, outstanding, and once its core's threads see it. -/
def cohStore : OpKind := .store { bytesAt 128 4 0 2 with leaf := { trialLeaf with cls := .coherent } } [1, 2, 3, 4]
def seenOp : PendingOp := { opOf cohStore 0 0 with seen := some (0, 0) }

theorem witness_StoresAreSeen :
    Performs (pending cohStore 0 0) (opOf cohStore 0 0) ∧ (opOf cohStore 0 0).seen = none ∧
      (pending cohStore 0 0).genOk { trialLeaf with cls := .coherent } 128 = true ∧
      (∀ y ∈ (pending cohStore 0 0).ops, y.id = 1 → y = opOf cohStore 0 0) ∧
      (∀ y ∈ (pending cohStore 0 0).ops, ∀ k ∈ y.seen, k.1 < (pending cohStore 0 0).nextId) ∧
      Seen (withOp seenOp base) seenOp ∧ NoneSeenBut (withOp seenOp base) seenOp ∧
      Granted (withOp seenOp base) { bytesAt 128 4 0 2 with leaf := { trialLeaf with cls := .coherent } } true ∧
      Plain (withOp seenOp base) 128 4 { trialLeaf with cls := .coherent } ∧ FreshLine (withOp seenOp base) 0 128 0 ∧
      FreshLine (pending cohStore 0 0) 0 128 0 := by
  refine ⟨?_, rfl, ?_, ?_, ?_, ⟨?_, rfl, ?_, noFence_of ?_, ?_⟩, ?_, ?_, ?_, fresh_of_absent ?_, fresh_of_absent ?_⟩
  · apply performs_of <;> decide +kernel
  · decide +kernel
  · decide +kernel
  · decide +kernel
  · decide +kernel
  · decide +kernel
  · decide +kernel
  · decide +kernel
  · unfold NoneSeenBut; decide +kernel
  · unfold Granted; decide +kernel
  · apply plain_of_absent <;> decide +kernel
  · decide +kernel
  · decide +kernel

def spadding (func : Nat) : OpKind := .spad func 262128 7 false

theorem witness_Scratchpad :
    Meets base lone { ext := true } (63 :: registers 60 4) ∧ (base.wg? 0).isSome = true ∧
      (windowFault (wgOf base) 262128 16).isNone = true ∧
      (windowFault (wgOf base) 262132 16).map (·.code) = some 0x12 ∧
      (windowFault (wgOf base) 4 8).map (·.code) = some 0x10 := by
  repeat' apply And.intro
  all_goals decide +kernel

theorem witness_ScratchpadCompletes : Performs (pending (spadding 2) 60 4) (opOf (spadding 2) 60 4) ∧
    Performs (pending (spadding 6) 63 1) (opOf (spadding 6) 63 1) ∧ (opOf (spadding 2) 60 4).who = [me] ∧
    (pending (spadding 2) 60 4).wg? 0 = some (wgOf base) := by
  refine ⟨?_, ?_, rfl, by decide +kernel⟩ <;> apply performs_of <;> decide +kernel

theorem witness_AtomicWords :
    Meets base lone (accessRule [0, 1, 2, 3] .none) (registers 62 2 ++ addressed true 62) ∧
      Meets (solo comparing id) comparing (accessRule [0, 1, 2, 3] .compare) (registers 63 1 ++ addressed false 63) ∧
      Meets (solo comparingPair id) comparingPair (accessRule [0, 1, 2, 3] .comparePair)
        (registers 62 2 ++ addressed true 62) := by
  repeat' apply And.intro
  all_goals decide +kernel

def swapping : OpKind := .atom 14 (bytesAt 120 8 3 2) 5 0 false
def adding : OpKind := .redm 0 (bytesAt 124 4 0 0) 5

theorem witness_AtomicsAct :
    Performs (pending swapping 62 2) (opOf swapping 62 2) ∧ Performs (pending adding 0 0) (opOf adding 0 0) ∧
      Granted (pending swapping 62 2) (bytesAt 120 8 3 2) true ∧ Granted (pending adding 0 0) (bytesAt 124 4 0 0) true ∧
      Plain (beforeAtomic (pending swapping 62 2) 0 (bytesAt 120 8 3 2)) 120 8 trialLeaf ∧
      Plain (beforeAtomic (pending adding 0 0) 0 (bytesAt 124 4 0 0)) 124 4 trialLeaf := by
  refine ⟨?_, ?_, ?_, ?_, ?_, ?_⟩
  · apply performs_of <;> decide +kernel
  · apply performs_of <;> decide +kernel
  · unfold Granted; decide +kernel
  · unfold Granted; decide +kernel
  · apply plain_of_absent <;> decide +kernel
  · apply plain_of_absent <;> decide +kernel

/-- The scope 0 boundary of an atomic word: performed in L1. -/
def inner : OpKind := .atom 10 (bytesAt 124 4 0 0) 5 0 false

theorem witness_AtomicsInL1 : Performs (pending inner 63 1) (opOf inner 63 1) ∧ inL1 (bytesAt 124 4 0 0) = true ∧
    inL1 (bytesAt 120 8 3 2) = false ∧ LineRoom (pending inner 63 1) 0 124 0 ∧ (∀ y ∈ (pending inner 63 1).ops, y.seen = none) := by
  refine ⟨?_, ?_, ?_, ?_, ?_⟩
  · apply performs_of <;> decide +kernel
  · decide +kernel
  · decide +kernel
  · apply room_of_absent <;> decide +kernel
  · decide +kernel

def fencing : Group := memPre { scope := 2, order := 3, v4 := 0 } lone
def acquireOnly : Group := memPre { scope := 1, order := 1, v4 := 0 } lone
def near : Group := memPre { scope := 0, order := 2, v4 := 0 } lone

/-- A store of the thread is outstanding, and a load behind a FENCE. -/
def behind : State := { pending storing 0 0 with groups := [fencing] }
def fenceOp : PendingOp := { opOf (.fence false true true 2) 0 0 with id := 2, flag := none }
def laterLoad : PendingOp := { opOf (.load 4 (bytesAt 0 4 0 0) none) 5 1 with id := 3 }
def awaiting : PendingOp := { opOf (.awaitf 0 0) 0 0 with id := 2, who := [me, ⟨0, 0, 1⟩] }
def fenced : State := { base with ops := [opOf storing 0 0, fenceOp, laterLoad], nextId := 4 }

theorem witness_Fences : NoFence (solo fencing id) ∧ NoFence behind ∧
    Meets (solo fencing id) fencing { prefixKind := .mem, orders := [0, 1, 2, 3], sc := true } [] ∧
    Meets (solo acquireOnly id) acquireOnly { prefixKind := .mem, orders := [0, 1, 2, 3], sc := false } [] ∧
    Meets (solo near id) near { prefixKind := .mem, orders := [0, 1, 2, 3], sc := false } [] ∧
    Meets base lone { prefixKind := .mem, orders := [0, 1, 2, 3], sc := false } [] ∧ fencing.order ≠ 0 ∧
    acquireOnly.order = 1 ∧ near.scope = 0 ∧ (∀ y ∈ behind.ops, y.id < behind.nextId) ∧
    behind.releaseWaits me 2 behind.nextId = true ∧ (solo fencing id).releaseWaits me 2 1 = false ∧
    fenceOp ∈ fenced.ops ∧ fenceOp.id < laterLoad.id ∧ me ∈ fenceOp.who ∧ me ∈ laterLoad.who ∧
    laterLoad.kind.foot.isSome = true ∧ (awaiting ∈ (withOp awaiting fenced).ops ∧ awaiting.id < laterLoad.id) := by
  refine ⟨noFence_of (by decide +kernel), noFence_of (by decide +kernel), ?_, ?_, ?_, ?_, ?_, ?_, ?_, ?_, ?_, ?_, ?_, ?_, ?_, ?_, ?_, ?_⟩
  all_goals first | (unfold Meets Alone Ready; decide +kernel) | decide +kernel

/-- R179: a store, FENCE.sc and a load of one thread: the load waits while the store is outstanding, and no longer. -/
theorem test_fence_sc_orders_store_and_load :
    fenced.opWaits laterLoad = true ∧
      ({ fenced with ops := fenced.ops.filter (·.id != 1) } : State).retireFences.opWaits laterLoad = false := by
  refine ⟨?_, ?_⟩ <;> decide +kernel

def clearedAt : State := { base with cleared := [0] }

theorem witness_CacheWords : Meets base lone { ext := true } (addressed true 62) ∧
    leafOf (checked base 0 0 (2 ^ 20) 1 { r := true }) = none ∧ leafOf (checked base 0 0 127 1 { r := true }) = some trialLeaf ∧
    clearedAt.isCleared 127 = true ∧ base.isCleared 127 = false := by
  repeat' apply And.intro
  all_goals decide +kernel

theorem witness_Prefetches : Granted base (bytesAt 127 1 0 2) false ∧ Plain (base.tlbInsert 0 0 trialLeaf) 0 128 trialLeaf ∧
    LineRoom base 0 127 0 := by
  refine ⟨?_, ?_, ?_⟩
  · unfold Granted; decide +kernel
  · apply plain_of_absent <;> decide +kernel
  · apply room_of_absent <;> decide +kernel

/-- The other unit of a prefetched sector is poisoned, in L2 or in the tier. -/
def poisonedL2 : State :=
  { base with l2 := [{ sector := 0, fold := 0, open_ := true, dirty := false, data := List.replicate 128 0, bad := [(1, .uncorrectable)] }] }
def poisonedTier : State := { base with poison := [(1, .uncorrectable)] }

theorem witness_PoisonedSectors : (∃ x, poisonedL2.l2Sector? 0 = some x ∧ ∃ u ∈ x.bad, u.1 / 2 = 0) ∧
    poisonedTier.l2Sector? 0 = none ∧ RoomInL2 poisonedTier 0 ∧ ∃ u ∈ poisonedTier.poison, u.1 / 2 = 0 := by
  refine ⟨⟨_, rfl, (1, .uncorrectable), ?_, rfl⟩, ?_, Or.inl ?_, (1, .uncorrectable), ?_, rfl⟩ <;> decide +kernel

def flushing (func : Nat) : OpKind := .cache func (bytesAt 127 1 0 2)
def dirtyLine : L1Line := { line := 1, cls := .priv, gen := 0, fold := 0, open_ := false, bytes := [(0, 7, true), (127, 8, true)] }
def sector (k : Nat) (dirty : Bool) : L2Sector :=
  { sector := k, fold := 0, open_ := false, dirty := dirty, data := List.replicate 128 3, bad := [] }
def cached : State :=
  { base with l2 := [sector 1 true, sector 2 false], cores := base.cores.modify 0 fun c => { c with l1 := [dirtyLine] } }

/-- The page is being copied and 64 of its writes are held. -/
def windowStalled (s : State) : State :=
  { s with moves := [{ id := 9, part := 0, leaf := trialLeaf, target := 2 ^ 36, phase := 1, held := [], count := 64, op := none }] }

theorem witness_CacheActions :
    Performs (pending (flushing 1) 0 0) (opOf (flushing 1) 0 0) ∧ Performs (pending (flushing 3) 0 0) (opOf (flushing 3) 0 0) ∧
      cached.l2Sector? 1 = some (sector 1 true) ∧ cached.l2Sector? 2 = some (sector 2 false) ∧
      (cached.core 0).l1Line? 1 = some dirtyLine ∧ LineOk dirtyLine ∧ cached.moveAt? 128 = none ∧
      cached.genCurrent 1 0 = true ∧ cached.windowFull 128 = false ∧ RoomInL2 cached 1 ∧
      Performs (windowStalled (withOp (opOf (flushing 1) 0 0) cached)) (opOf (flushing 1) 0 0) ∧
      (windowStalled cached).windowFull 128 = true := by
  refine ⟨?_, ?_, ?_, ?_, ?_, ?_, ?_, ?_, ?_, Or.inl ?_, ?_, ?_⟩
  · apply performs_of <;> decide +kernel
  · apply performs_of <;> decide +kernel
  · decide +kernel
  · decide +kernel
  · decide +kernel
  · unfold LineOk; decide
  · decide +kernel
  · decide +kernel
  · decide +kernel
  · decide +kernel
  · apply performs_of <;> decide +kernel
  · decide +kernel

/-- The home of a register lies outside what is mapped. -/
def homeless : State := { base with cores := base.cores.map fun c => { c with tlb := [] } }

theorem witness_Spills : (wgOf base).thread? 0 0 = some (thOf base) ∧ (thOf base).status ≠ .exited ∧
    (thOf base).cold.getLsbD 63 = false ∧ homeless.wg? 0 = some (wgOf base) ∧
    leafOf (checked base 0 0 (BitVec.ofNat 64 ((wgOf base).homeOf 0 0 63)) 4 { r := true, w := true }) = some trialLeaf ∧
    leafOf (checked homeless 0 0 (BitVec.ofNat 64 ((wgOf base).homeOf 0 0 63)) 4 { r := true, w := true }) = none := by
  repeat' apply And.intro
  all_goals decide +kernel

theorem witness_SpillHome : Granted base (bytesAt ((wgOf base).homeOf 0 0 63) 4 0 0) true ∧
    Plain base ((wgOf base).homeOf 0 0 63) 4 trialLeaf ∧ LineRoom base 0 ((wgOf base).homeOf 0 0 63) 0 := by
  refine ⟨?_, ?_, ?_⟩
  · unfold Granted; decide +kernel
  · apply plain_of_absent <;> decide +kernel
  · apply room_of_absent <;> decide +kernel

end Sys2Proof.Tests
namespace Sys2Proof.Tests

/-! ## Witnesses: quantising words, gangs, tiles and matrix products -/

/-- v0: an admitted format 2 with a block of 16 elements behind it. -/
def quanting : State := withThread (fun t => t.setReg 0 0x20) base

theorem witness_QuantisingWords : Meets quanting lone {} [0] ∧ (blockFault 64 0 0x20).isNone = true ∧
    (blockFault 64 47 0x20).isNone = true ∧ (blockFault 64 48 0x20).map (·.reg) = some 64 ∧
    (blockFault 64 0 0x70).map (·.code) = some 0x15 ∧ Meets base lone { ext := true } (63 :: addressed true 62) ∧
    Meets base lone { ext := true } (registers 62 2 ++ addressed false 63) := by
  repeat' apply And.intro
  all_goals decide +kernel

def reporting : OpKind := .qblk [7] 9
def checking : OpKind := .sbchk 7 (bytesAt 126 2 0 2)

theorem witness_QuantReports : (pending reporting 63 1).op? (opOf reporting 63 1).id = some (opOf reporting 63 1) ∧
    Performs (pending checking 63 1) (opOf checking 63 1) ∧ Granted (pending checking 63 1) (bytesAt 126 2 0 2) false ∧
    Readable (pending checking 63 1) 0 (bytesAt 126 2 0 2) ∧ unitsOf (f32 0x3F800000) ≠ 0 ∧
    (∃ n m e, f32 0x3F800000 = .fin n m e) ∧ (f32 0x7FC00000).isNan = true ∧ (0x80000000 : Word).toNat % 2 ^ 31 = 0 := by
  refine ⟨by decide +kernel, ?_, ?_, readable_of_absent ?_ ?_ ?_ (plain_of_absent ?_ ?_ ?_), by decide +kernel,
    ⟨false, _, _, rfl⟩, by decide, by decide⟩
  · apply performs_of <;> decide +kernel
  · unfold Granted; decide +kernel
  all_goals decide +kernel

/-- A block of format 1 (bytes) and one of format 6 (lattice indices) whose first element alone is not zero. -/
def oneInBlock (fmt : Nat) : List Int := 1 :: List.replicate (elementsOf fmt - 1) 0

theorem witness_QuantisedBlocks : (oneInBlock 1).length = elementsOf 1 ∧ (oneInBlock 6).length = elementsOf 6 ∧
    (1 : Int) ∈ oneInBlock 1 ∧ (1 : Int) ∈ oneInBlock 6 ∧ blockWidth 1 = 8 ∧ blockWidth 6 = 2 := by
  refine ⟨?_, ?_, ?_, ?_, ?_, ?_⟩ <;> decide +kernel

theorem witness_LatticeVectors : latticeVector (List.replicate 8 5) ∧ List.replicate 8 5 ∉ ylxBook := by
  refine ⟨⟨rfl, by decide⟩, ?_⟩
  decide +kernel

/-- A state whose two matrix warps are a gang; the thread of the second one has exited. -/
def inGang (w : Workgroup) : Workgroup :=
  { w with warps := w.warps.flatMap (fun x => [{ x with gang := 0x00200020 }, { x with id := 1, gang := 0x00A00020 }]),
           threads := w.threads ++ [{ startThread trialPc false false 1 0 0 0 with status := .exited }] }
def tileless (s : State) : State := { s with wgs := s.wgs.map fun w => { w with ownsTiles := false } }
def ganged : State := { base with wgs := base.wgs.map inGang }

theorem witness_GangAndTileWords : Meets base lone {} [] ∧ Meets ganged lone {} [63] ∧ Meets (tileless base) lone {} [] ∧
    (wgOf (tileless base)).ownsTiles = false ∧ (ganged.gangOf 0 0).toNat / 2 ^ 20 % 8 = 2 ∧
    (base.gangOf 0 0).toNat / 2 ^ 20 % 8 = 0 ∧ gangNamed (wgOf ganged) 0 2 0x20 = some 0x00200020 ∧
    gangNamed (wgOf ganged) 0 2 0 = none ∧ gangNamed (wgOf ganged) 1 2 0x20 = some 0x00A00020 ∧
    gangNamed (wgOf base) 0 2 0x20 = none ∧ (wgOf base).arrivalsOf [0] = [] ∧ Meets base lone {} (63 :: registers 60 4) ∧
    Meets (solo releasing id) releasing { prefixKind := .mem, orders := [0, 2] } [] ∧
    (transferFault true 0xFFFFC 4 0x000000007F7C007F 0).isSome = true ∧
    (transferFault true 0 512 0x000000007F007F00 0).isNone = true ∧
    (transferFault true 0 512 0x0000000003000001 0).isNone = true := by
  repeat' apply And.intro
  all_goals decide +kernel

def transfer (func : Nat) (pos : Word) (src : List Word) : OpKind := .tile func 7 pos src []

theorem witness_TileTransfers : TilesOk (wgOf base) ∧
    TileFree (pending (transfer 5 0x7C7F [1, 2, 3, 4]) 0 0) (opOf (transfer 5 0x7C7F [1, 2, 3, 4]) 0 0) 0 7 5 [] ∧
    (pending (transfer 5 0x7C7F [1, 2, 3, 4]) 0 0).wg? 0 = some (wgOf base) ∧
    TileFree (pending (transfer 3 0 []) 0 0) (opOf (transfer 3 0 []) 0 0) 0 7 3 [] ∧
    TileFree (pending (transfer 4 0x7C7F []) 60 4) (opOf (transfer 4 0x7C7F []) 60 4) 0 7 4 [] ∧
    tcCol0 [0, 0, 0x037C0000] + tcCols [0, 0, 0x037C0000] ≤ 128 := by
  refine ⟨?_, ?_, ?_, ?_, ?_, ?_⟩ <;> first | decide +kernel | (unfold TilesOk; decide +kernel) |
    (unfold TileFree; decide +kernel)

/-- What an engine reads and writes within one sector, and the rows of one transfer. -/
def oneRow : List DWord := [0x80000, 512, 0x037C0000]

def rowsDone (r : RowsDone) : Bool :=
  match r with
  | .done _ => true
  | _ => false

def yes (r : Served) : Bool :=
  match r with
  | .yes => true
  | _ => false

theorem witness_EngineSectors : (base.findLeaf 0 0 127).toOption = some trialLeaf ∧ Plain base 127 1 trialLeaf ∧
    leafOf (base.engineLeaf 0 0 127 { r := true } (· == 0)) = some trialLeaf ∧
    yes (base.engineCheck (engineAgent 7 0 1) 0 127 trialLeaf false) = true ∧
    rowsDone (base.tileRows (engineAgent 7 0 1) 0 7 true oneRow [0]) = true ∧
    rowsDone (base.tileRows (engineAgent 7 0 1) 0 7 false oneRow [0]) = true := by
  refine ⟨?_, plain_of_absent ?_ ?_ ?_, ?_, ?_, ?_, ?_⟩ <;> decide +kernel

/-- The group at its matrix-product word, before and after it has issued it. -/
def atProduct : State := ganged
def product : MmaArgs := ⟨0, 0, 7, true, 0, 0, false⟩
def sent : State := ranOf (execMmag product atProduct)
def accepted : State := ranOf (execRendezvousAccept 0 0x200020 sent)
def started : State := ranOf (execMatrixOpStart 0 accepted)
def matOp (s : State) : MatOp :=
  (s.core 0).matrix.headD ⟨0, 0, 0, 0, 0, false, 0, 0, 0, [], [], 0, false, false, false⟩

theorem test_product_accepted :
    productRefused atProduct me (wgOf atProduct) (thOf atProduct) 2 product (registers 0 16) = none := by
  have hc : atProduct.warpReg me product.wc.toNat = 0 := by decide +kernel
  have hp : atProduct.warpReg me (product.wc.toNat + 1) = 0 := by decide +kernel
  have hg : (atProduct.gangOf me.wg me.warp).toNat / 2 ^ 20 % 8 = 2 := by decide +kernel
  have ho : (wgOf atProduct).ownsTiles = true := by decide +kernel
  have hf : ((registers 0 16).find? fun n => decide (min (budgetOf (wgOf atProduct) (thOf atProduct)) 64 ≤ n)) = none := by
    decide +kernel
  unfold productRefused
  simp only [hc, hp, hg, ho, hf]
  rw [if_neg (by unfold controlRefused; decide), if_neg (by decide), if_neg (by
    rintro ⟨_, _, h⟩
    rw [hc] at h
    exact absurd h.1 (by decide))]
  decide

theorem test_register_beyond_the_store :
    (productRefused atProduct me (wgOf atProduct) (thOf atProduct) 2 product (registers 49 16)).map (·.reg) = some 64 := by
  have hc : atProduct.warpReg me product.wc.toNat = 0 := by decide +kernel
  have hg : (atProduct.gangOf me.wg me.warp).toNat / 2 ^ 20 % 8 = 2 := by decide +kernel
  have ho : (wgOf atProduct).ownsTiles = true := by decide +kernel
  have hf : ((registers 49 16).find? fun n => decide (min (budgetOf (wgOf atProduct) (thOf atProduct)) 64 ≤ n)) = some 64 := by
    decide +kernel
  unfold productRefused
  simp only [hc, hg, ho, hf]
  rw [if_neg (by unfold controlRefused; decide), if_neg (by decide)]
  rfl

theorem test_no_slot_for_b : (operandFault (wgOf atProduct) 1 1 0 0).map (·.code) = some 0x25 ∧
    (operandFault (wgOf atProduct) 2 1 0 0x200000000000000).map (·.code) = some 0x12 ∧
    (operandFault (wgOf atProduct) 2 1 0 63).map (·.code) = some 0x10 ∧ controlRefused 1 2 0x400 = False ∧
    controlRefused 2 2 0xC00 ∧ invalidRow 4 1 [1] := by
  refine ⟨by decide +kernel, by decide +kernel, by decide +kernel, ?_, ?_, Or.inl rfl, 0, by decide, by decide⟩
  · simp [controlRefused]
  · unfold controlRefused; decide

theorem witness_MatrixProductWords : Meets atProduct lone { prefixKind := .mem, orders := [0, 2] } [] ∧
    (thOf atProduct).executes = true ∧ (∀ x ∈ (wgOf atProduct).gangs, ∀ a ∈ x.arrivals, a.who ≠ me) ∧
    flagRoom lone false (thOf atProduct) ∧
    atProduct.commandWaits 0 2 2 atProduct.nextId [me].contains = false ∧
    (accepted.groups.headD lone).sent = true ∧ accepted.inRendezvous 0 = false ∧ (sent.groups.headD lone).held = true ∧
    Meets accepted (accepted.groups.headD lone) { prefixKind := .mem, orders := [0, 2] } [] := by
  refine ⟨?_, ?_, ?_, flagRoom_of (by decide +kernel), ?_, ?_, ?_, ?_, ?_⟩ <;>
    first | decide +kernel | (unfold Meets Alone Ready; decide +kernel)

def isCols (f : Fetched) : Bool :=
  match f with
  | .cols _ cs => cs.length == 128
  | _ => false

theorem cols_of {f : Fetched} (h : isCols f = true) : ∃ s cs, f = .cols s cs ∧ cs.length = 128 := by
  cases f with
  | cols s cs => exact ⟨s, cs, rfl, by simpa [isCols] using h⟩
  | waits s => simp [isCols] at h
  | fault s d => simp [isCols] at h

theorem witness_MatrixSteps : started.runningProduct 0 = some (matOp started) ∧
    (∀ x ∈ (started.core 0).matrix, x.id = (matOp started).id → x = matOp started) ∧
    started.tileBusy (matOp started).wg (matOp started).tile (matOp started).id = false ∧
    (∃ s' cols, started.fetchStep 0 (matOp started) (matOp started).first = .cols s' cols ∧ cols.length = 128) ∧
    TilesOk (wgOf started) ∧ ctlRq (matOp started).control + gangSize (BitVec.ofNat 32 (matOp started).gang) ≤ 4 ∧
    (.fin false 1 0 : FVal).isNan = false ∧ [FVal.fin false 1 0, .fin true 3 (-60)].filterMap leading = [0, -59] := by
  refine ⟨?_, ?_, ?_, cols_of ?_, ?_, ?_, ?_, ?_⟩ <;> first | decide +kernel | (unfold TilesOk; decide +kernel)

/-- A product whose B lies where nothing is mapped, and what remains once its fetch has faulted. -/
def unmapped : State := updMat started fun x => { x with bAddr := 0x200000 }
where updMat (s : State) (f : MatOp → MatOp) : State :=
  { s with cores := s.cores.modify 0 fun c => { c with matrix := c.matrix.map f } }
def finishedOp : State := unmapped.updMat started fun x => { x with finished := true }
def latched : State := ranOf (execBFetchFault 0 unmapped)
def disagreeing : State :=
  { sent with wgs := sent.wgs.map fun w => w.updGang 0x200020 fun x => { x with held := some (1, 1, []) } }
def late : State :=
  { sent with time := 10 ^ 9, wgs := sent.wgs.map fun w => { w with colto := 1 } }
def firstArrival : Arrival :=
  ((wgOf sent).gang 0x200020).arrivals.headD
    ⟨me, 0, false, 0, 0, false, 0, 0, 0, 0, [], none, 0, 0, ⟨0, 0, none, 0, none⟩, 0⟩

def isFault (f : Fetched) : Bool :=
  match f with
  | .fault _ _ => true
  | _ => false

theorem fault_of {f : Fetched} (h : isFault f = true) : ∃ s d, f = .fault s d := by
  cases f with
  | cols s cs => simp [isFault] at h
  | waits s => simp [isFault] at h
  | fault s d => exact ⟨s, d, rfl⟩

theorem complete_of {w : Workgroup} {key : Nat} {a : Arrival} {as : List Arrival}
    (h : (w.gang key).arrivals.head? = some a ∧ as = w.arrivalsOf (gangMembers (BitVec.ofNat 32 key)) ∧
      ∀ t ∈ w.threads, t.warp ∈ gangMembers (BitVec.ofNat 32 key) → t.status ≠ .exited →
        ∃ b ∈ as, b.who = t.ref w.id ∧ b.n = a.n) : Complete w key a as := by
  refine ⟨?_, h.2⟩
  cases hx : (w.gang key).arrivals with
  | nil => simp [hx] at h
  | cons b rest => exact ⟨rest, by simp_all⟩

theorem witness_RendezvousEvents :
    ((wgOf sent).gang 0x200020).arrivals = [firstArrival] ∧ sent.wg? 0 = some (wgOf sent) ∧ (wgOf sent).id = 0 ∧
    Complete (wgOf sent) 0x200020 firstArrival [firstArrival] ∧ Complete (wgOf late) 0x200020 firstArrival [firstArrival] ∧
    Complete (wgOf disagreeing) 0x200020 firstArrival [firstArrival] ∧
    [firstArrival].any (·.differs firstArrival) = false ∧ ((wgOf sent).gang 0x200020).heldDiffers firstArrival = false ∧
    ((wgOf disagreeing).gang 0x200020).heldDiffers firstArrival = true ∧ late.rendezvousLate (wgOf late) 0x200020 = true ∧
    ((wgOf sent).gang 0x200020).pend = false ∧ (sent.gangOps 0 0x200020).length < 2 ∧ (wgOf sent).core < sent.cores.length ∧
    (∀ b ∈ [firstArrival], (late.thread? b.who).any (·.executes) = true ∧ b.who.wg = 0) := by
  refine ⟨by decide +kernel, by decide +kernel, by decide +kernel, complete_of ?_, complete_of ?_, complete_of ?_, ?_⟩
  · decide +kernel
  · decide +kernel
  · decide +kernel
  · repeat' apply And.intro
    all_goals decide +kernel

theorem witness_MatrixEvents : accepted.runningProduct 0 = none ∧
    (accepted.core 0).matrix.find? (!·.running) = some (matOp accepted) ∧
    accepted.latched (matOp accepted).wg (matOp accepted).tile (matOp accepted).id ((matOp accepted).issuers.map (·.who)) = false ∧
    (finishedOp.core 0).matrix.find? (·.finished) = some (matOp finishedOp) ∧
    unmapped.runningProduct 0 = some (matOp unmapped) ∧
    (∃ s d, unmapped.fetchStep 0 (matOp unmapped) (matOp unmapped).first = .fault s d) ∧
    unmapped.tileBusy (matOp unmapped).wg (matOp unmapped).tile (matOp unmapped).id = false ∧
    (wgOf unmapped).core = 0 ∧
    latched.canReissue ((wgOf latched).gang 0x200020) = false ∧
    (withThread (fun t => { t with status := .exited }) latched).canReissue ((wgOf latched).gang 0x200020) = true := by
  refine ⟨?_, ?_, ?_, ?_, ?_, fault_of ?_, ?_, ?_, ?_, ?_⟩ <;> decide +kernel

end Sys2Proof.Tests
namespace Sys2Proof.Tests

/-! ## Witnesses: rings, copies, rows -/

/-- Ring 0 of the workgroup: two slots of 128 bytes at offset 256, two readers. -/
def ring (slots : List SlotState) (claim take release : Nat) : Ring :=
  { base := 256, slotBytes := 128, n := 2, readers := 1, mc := false, srcm := 0, cmask := 0, claim := claim, take := take,
    release := release, slots := slots, takeMask := 0, relMasks := [0, 0], heard := [], gone := [], ident := 9 }
def ringed (x : Ring) (s : State) : State := withRing 0 0 (some x) s
def claimedRing : Ring := ring [.claimed, .free] 1 0 0
def emptyRing : Ring := ring [.free, .free] 0 0 0
def filledRing : Ring := ring [.free, .filled true true] 0 3 3
def takenRing : Ring := ring [.taken, .free] 1 1 0
def fullRing : Ring := ring [.claimed, .claimed] 2 0 0
def multiRing : Ring := { ring [.free, .free] 0 0 1 with mc := true, srcm := 1, cmask := 3 }
def twoTaken : Ring := { ring [.taken, .taken] 0 0 2 with relMasks := [1, 0] }

theorem witness_RingWords : Meets base lone {} [] ∧ Meets base lone {} [63] ∧ (wgOf base).ring? 0 = none ∧
    (wgOf (ringed claimedRing base)).ring? 0 = some claimedRing ∧ claimedRing.claim ≠ claimedRing.release ∧
    (wgOf (ringed emptyRing base)).ring? 0 = some emptyRing ∧ emptyRing.claim = emptyRing.release ∧
    (ringed takenRing base).releaseWaits me 0 base.nextId = false ∧ multiRing.mc = true ∧ (0 : Nat) ≠ multiRing.srcm ∧ base.requests 0 0 = [] ∧ slotNamed takenRing 0 256 = some 0 ∧
    slotNamed takenRing 0 384 = none ∧ slotNamed takenRing 0 255 = none ∧ slotNamed takenRing 0 512 = none ∧
    slotNamed takenRing 0 0x80000100 = none := by
  repeat' apply And.intro
  all_goals decide +kernel

def definedBy (d : DWord) : Option (Option Nat) :=
  match ringOf d (wgOf base) 7 (fun _ => false) with
  | .ok x => some (x.map (·.n))
  | .error _ => none

theorem witness_RingDescriptors : definedBy 0 = some none ∧ definedBy 0x0000003C00200100 = some (some 16) ∧
    definedBy 0x0000000000200040 = none ∧ definedBy 0x0001000000200100 = none ∧
    definedBy 0x0001080000200100 = some (some 1) ∧ definedBy 0x0001180000200100 = none := by
  repeat' apply And.intro
  all_goals decide +kernel

def request : OpKind := .awaitf 0 0
def serving : State := ringed filledRing (pending request 63 1)
def lateRequest : State :=
  { serving with time := 20, wgs := serving.wgs.map fun w => { w with colto := 1 } }
def report : Report := ⟨0, 0, 3, 2, 9⟩
def reported : State := { ringed emptyRing base with reports := [⟨0, 1, 3, 1, 9⟩, report] }

theorem witness_RingEvents : twoTaken.slots.getD (twoTaken.release % twoTaken.n) .free = .taken ∧
    twoTaken.release % twoTaken.n < twoTaken.slots.length ∧
    ((List.range 32).filter fun k => (twoTaken.relMasks.getD 0 0).getLsbD k).length = twoTaken.readers ∧
    serving.op? (opOf request 63 1).id = some (opOf request 63 1) ∧
    (serving.wg? 0).bind (·.ring? 0) = some filledRing ∧
    (serving.requests 0 0).find? (fun p => (filledRing.serves p.warpBit).isSome) = some (opOf request 63 1) ∧
    filledRing.slots.getD (filledRing.take % filledRing.n) .free = .filled true true ∧
    ((lateRequest.wg? 0).map (·.colto)) = some 1 ∧ reported.reports[1]? = some report ∧
    (∀ y ∈ reported.reports.take 1, ¬(y.src = report.src ∧ y.ring = report.ring ∧ y.member = report.member)) ∧
    (reported.wg? 0).bind (·.ring? 0) = some emptyRing ∧ emptyRing.ident = report.ident := by
  repeat' apply And.intro
  all_goals decide +kernel

/-- A command in w0 to w3. -/
def commanded (c : List DWord) (s : State) : State :=
  { s with wgs := s.wgs.map fun w => { w with warps := w.warps.map fun x => (c.zipIdx).foldl (setAt) x } }
where setAt (x : Warp) (p : DWord × Nat) : Warp := x.setReg p.2 p.1

/-- 128 bytes to the window at offset 256 + 0 of ring 0, and 128 bytes from the window. -/
def copyIn : List DWord := [0x800, 0x0000008000000080, 0, 0]
def copyOut : List DWord := [0x900, 0x0000008000000080, 0x100, 0]
def copyState (c : List DWord) (x : Ring) : State := commanded c (ringed x base)

theorem witness_CopyCommands : Meets (copyState copyIn emptyRing) lone { prefixKind := .mem, orders := [0, 2] } [] ∧
    Meets base lone {} (registers 62 2) ∧ (copyRefused 0 copyIn (wgOf (copyState copyIn emptyRing)) true).isNone = true ∧
    (copyRefused 0 copyIn (wgOf base) true).isSome = true ∧ (copyRefused 0 copyIn (wgOf base) false).isNone = true ∧ (copyRefused 1 copyOut (wgOf base) true).isNone = true ∧
    (copyRefused 1 [0x900, 0x80, 0x3FFFC, 0] (wgOf base) true).isSome = true ∧ emptyRing.full = false ∧ fullRing.full = true ∧
    (copyState copyIn emptyRing).copyRoom 0 [(0, 0)] = true ∧ lone.core = (wgOf base).core ∧
    (base.warp? 0 0).map (·.w.toList.length) = some 32 := by
  repeat' apply And.intro
  all_goals decide +kernel

def queuedCopy : State := ranOf (execCpyout ⟨0, 1, 0⟩ (commanded copyOut base))
def runningCopy : State := ranOf (execCopyCommandStart 0 queuedCopy)
def blankCopy : CopyOp :=
  { core := 0, num := 0, wg := 0, warp := 0, kind := 0, cmd := [], order := 0, scope := 0, reserved := false, ring := 0,
    slot := 0, phase := false, ident := 0, stage := .queued, fault := 0, partial_ := false, dropped := 0, exc := 0,
    units := 0, fmt := none, shape := [], deliver := [], data := [], snap := none, handle := 0, pipeStage := 0, cohort := 0,
    homeSlot := 0, issuedBy := 0, part := 0, window := 0 }
def copyAt (s : State) : CopyOp := s.copies.headD blankCopy
def farCopy : State :=
  { runningCopy with copies := runningCopy.copies.map fun x => { x with cmd := x.cmd.set 0 0x200000 } }

/-- Two rows of the window, and a copy to a page that may not be written. -/
def twoPieces : State :=
  { runningCopy with copies := runningCopy.copies.map fun x => { x with cmd := x.cmd.set 1 0x0000008000100080 } }
def stillCopy : State :=
  { runningCopy with
    cores := runningCopy.cores.map fun c => { c with tlb := c.tlb.map fun e => { e with leaf := { e.leaf with w := false } } } }

def copyDone (r : CopyRun) (core num kind : Nat) (all : Bool) : Bool :=
  match r with
  | .done _ o => o.core == core && o.num == num && o.kind == kind && (unitsToDo o).isEmpty == all
  | _ => false

theorem copyDone_of {r : CopyRun} {core num kind : Nat} {all : Bool} (h : copyDone r core num kind all = true) :
    ∃ s o, r = .done s o ∧ o.core = core ∧ o.num = num ∧ o.kind = kind ∧ (unitsToDo o).isEmpty = all := by
  cases r with
  | done s o => exact ⟨s, o, rfl, by simpa [copyDone, and_assoc] using h⟩
  | waits s o => simp [copyDone] at h
  | fault s o d => simp [copyDone] at h

def copyHeld (r : CopyRun) (core : Nat) : Bool :=
  match r with
  | .fault s o d => o.core == core && (d.code == 0x11 || d.code == 0x14) && decide (core < s.cores.length)
  | _ => false

theorem copyHeld_of {r : CopyRun} {core : Nat} (h : copyHeld r core = true) :
    ∃ s o d, r = .fault s o d ∧ o.core = core ∧ (d.code = 0x11 ∨ d.code = 0x14) ∧ core < s.cores.length := by
  cases r with
  | done s o => simp [copyHeld] at h
  | waits s o => simp [copyHeld] at h
  | fault s o d => exact ⟨s, o, d, rfl, by simpa [copyHeld, and_assoc] using h⟩

def copyEnds (r : CopyRun) (core num : Nat) : Bool :=
  match r with
  | .fault s o d => d.code != 0x11 && d.code != 0x14 && o.core == core && o.num == num && decide (core < s.cores.length)
  | _ => false

theorem copyEnds_of {r : CopyRun} {core num : Nat} (h : copyEnds r core num = true) :
    ∃ s o d, r = .fault s o d ∧ d.code ≠ 0x11 ∧ d.code ≠ 0x14 ∧ o.core = core ∧ o.num = num ∧ core < s.cores.length := by
  cases r with
  | done s o => simp [copyEnds] at h
  | waits s o => simp [copyEnds] at h
  | fault s o d => exact ⟨s, o, d, rfl, by simpa [copyEnds, and_assoc] using h⟩

theorem witness_CopyOperations : queuedCopy.copyQueue 0 = [copyAt queuedCopy] ∧
    runningCopy.copy? 0 1 = some (copyAt runningCopy) ∧ (copyAt runningCopy).stage = .running ∧
    (∃ s o, runningCopy.runCopy (copyAt runningCopy) 0 = .done s o ∧ o.core = 0 ∧ o.num = 1 ∧ o.kind = 1 ∧
      (unitsToDo o).isEmpty = true) ∧
    (∃ s o, twoPieces.runCopy (copyAt twoPieces) 1 = .done s o ∧ o.core = 0 ∧ o.num = 1 ∧ o.kind = 1 ∧
      (unitsToDo o).isEmpty = false) ∧ (copyAt twoPieces).stage = .running ∧
    (∃ s o d, farCopy.runCopy (copyAt farCopy) 0 = .fault s o d ∧ o.core = 0 ∧ (d.code = 0x11 ∨ d.code = 0x14) ∧
      0 < s.cores.length) ∧ farCopy.recordRoom 0 = true ∧ (copyAt farCopy).fault = 0 ∧
    (∃ s o d, stillCopy.runCopy (copyAt stillCopy) 0 = .fault s o d ∧ d.code ≠ 0x11 ∧ d.code ≠ 0x14 ∧ o.core = 0 ∧ o.num = 1 ∧
      0 < s.cores.length) := by
  refine ⟨?_, ?_, ?_, copyDone_of ?_, copyDone_of ?_, ?_, copyHeld_of ?_, ?_, ?_, copyEnds_of ?_⟩ <;> decide +kernel

/-- A multicast whose bytes are read, to its one member, and one whose deliveries are over. -/
def multicast : CopyOp :=
  { copyAt runningCopy with kind := 2, ring := 0, slot := 1, phase := true, deliver := [0], fault := 0x16,
                            data := [1, 2, 3, 4], cmd := [0, 0, 0, 1],
                            shape := claimedRing.shape, handle := (wgOf base).handle,
                            pipeStage := (wgOf base).stage }
def delivering : State := { ringed claimedRing base with copies := [multicast] }
def delivered : State := { delivering with copies := [{ multicast with deliver := [] }] }

theorem witness_Multicast : delivering.copy? 0 1 = some multicast ∧ multicast.stage = .running ∧ 0 ∈ multicast.deliver ∧
    multicast.fault ≠ 0 ∧ delivering.cohortMember multicast 0 = some (wgOf delivering) ∧
    (wgOf delivering).ring? 0 = some claimedRing ∧ (wgOf delivering).place ≠ .flushed ∧
    claimedRing.shape.drop 1 = multicast.shape.drop 1 ∧ multicast.slot < claimedRing.slots.length ∧
    delivered.copy? 0 1 = some { multicast with deliver := [] } := by
  repeat' apply And.intro
  all_goals decide +kernel

theorem witness_CopyPiece : 1 ≤ 128 ∧ 0x900 % 128 + 128 ≤ 128 ∧
    leafOf (checked runningCopy 0 0 0x900 1 { w := true }) = some trialLeaf ∧
    Granted runningCopy (bytesAt 0x900 128 0 0) true ∧ Plain runningCopy 0x900 128 trialLeaf ∧
    (runningCopy.copyWindow (copyAt runningCopy) 256 128).length = 128 := by
  refine ⟨?_, ?_, ?_, ?_, ?_, ?_⟩
  · decide
  · decide
  · decide +kernel
  · unfold Granted; decide +kernel
  · apply plain_of_absent <;> decide +kernel
  · decide +kernel

/-! Row operations: ROWCPY of the row at 0 to the row at 4096, through its steps. -/

def rowCommand : List DWord := [0x4000, 0, 0, 0]
def queuedRow : State := ranOf (execRowcpy ⟨0, 1, 0⟩ (commanded rowCommand (mapped base)))
def plannedRow : State := ranOf (execRowPlan 0 1 queuedRow)
def acceptedRow : State := ranOf (execRowStackAccept 0 1 plannedRow)
def sweptRow : State := ranOf (execRowSweep 0 1 acceptedRow)
def blankRow : RowOp :=
  { core := 0, num := 0, part := 0, wg := 0, warp := 0, handle := 0, homeSlot := 0, func := 0, cmd := [], wc := 0,
    order := 0, scope := 0, stage := .queued, path := 0, rows := [], leaves := [], coeffs := [], swept := false, upc := 0,
    susp := 0, rekey := false, adopted := false, fault := 0, exc := 0, lanes := [], dstRead := false, issuedBy := 0,
    busyOn := [], busyUntil := 0 }
def rowAt (s : State) : RowOp := s.rows.headD blankRow
def onFallback (s : State) : State := { s with rows := s.rows.map fun x => { x with path := 2 } }
def wanted : State := { sweptRow with picks := [1] }
def suspendedRow (since quiet now : Nat) : State :=
  { sweptRow with time := now, rows := sweptRow.rows.map fun x => { x with stage := .suspended since quiet } }

theorem witness_RowCommands : Meets (commanded rowCommand base) lone { prefixKind := .mem, orders := [0, 2] } [] ∧
    Meets base lone {} (registers 62 2) ∧ (rowRefused 0 rowCommand 0).isNone = true ∧
    (rowRefused 0 [0x4000, 0, 1, 0] 0).isSome = true ∧ (rowRefused 1 [0x4400, 0, 0, 0] 0).map (·.code) = some 0x30 ∧
    (rowRefused 5 [0, 0, 0, 0] 0x100).map (·.code) = some 0x30 ∧
    (rowRefused 6 [0, 0, 2, 0] 0).map (·.code) = some 0x10 ∧ (rowRefused 6 [0, 0, 4, 0x3FFFFF6000] 0).isNone = true := by
  repeat' apply And.intro
  all_goals decide +kernel

theorem rowPlain_of {s : State} {pa : Nat} {l : Leaf} (h1 : s.moveAt? pa = none) (h2 : pa % 2048 = 0)
    (h3 : s.damage = []) (h4 : s.genOk l pa = true) (h5 : ∀ i ∈ List.range 32, s.isCleared ((pa / 64 + i) * 64) = true ∨
      (s.sameKeys (pa / 64 + i) l.fold l.open_ = true ∧ ∀ x ∈ s.poison, x.1 ≠ pa / 64 + i)) : RowPlain s pa l := by
  refine ⟨h1, h2, h3, h4, fun u hu hv => ?_⟩
  have h := h5 (u - pa / 64) (by simp; omega)
  rwa [Nat.add_sub_cancel' hu] at h

def rowOk (r : Except (State × BitVec 8) (State × RowOp)) (x : RowOp) : Bool :=
  match r with
  | .ok y => !y.2.finishedBy x.nextStep
  | .error _ => false

/-- Refresh falls due much later in the channels of the operation. -/
def calm (s : State) : State :=
  { s with refresh := ((rowAt s).rowsOf (rowAt s).nextStep).map fun pa => ⟨stackOf pa, channelOf pa, 0, 10 ^ 9, [], [], false⟩ }

/-- Two rows, and a partition with a share of the activate budget. -/
def sharing : State :=
  { sweptRow with
    parts := sweptRow.parts.map fun p => { p with activates := 1 },
    rows := sweptRow.rows.map fun x => { x with
      cmd := x.cmd.set 3 1, rows := [[0x4000, 0x4800], [0, 0x800]], leaves := x.leaves.map fun ls => ls ++ ls } }

theorem witness_RowSteps : (rowAt sweptRow).func ≤ 5 ∧ (rowAt sweptRow).rows = [[0x4000], [0]] ∧
    RowPlain sweptRow 0 trialLeaf ∧ 0x4000 % 2048 = 0 ∧ sweptRow.moves = [] ∧ sweptRow.genOk trialLeaf 0x4000 = true ∧
    sweptRow.rowOp? 0 1 = some (rowAt sweptRow) ∧ (rowAt sweptRow).stage = .running ∧ (rowAt sweptRow).path ≠ 2 ∧
    wanted.picks.headD 0 % 2 = 1 ∧ (onFallback sweptRow).rowOp? 0 1 = some (rowAt (onFallback sweptRow)) ∧
    (∀ pa ∈ (rowAt sweptRow).rowsOf (rowAt sweptRow).nextStep, sweptRow.poolServes pa true = true ∧ sweptRow.windowFull pa = false) ∧
    (rowAt sweptRow).steps sweptRow.time = true ∧ (rowAt sweptRow).busyUntil ≤ sweptRow.time ∧
    (calm sweptRow).refreshDemand (rowAt sweptRow) (rowAt sweptRow).nextStep = false ∧ sweptRow.picks.headD 0 % 2 = 0 ∧
    sweptRow.activatesFit 0 0 (sweptRow.stepActivates (rowAt sweptRow) (rowAt sweptRow).nextStep) = false ∧
    sharing.activatesFit 0 0 (sharing.stepActivates (rowAt sharing) (rowAt sharing).nextStep) = true ∧
    rowOk (sharing.rowStep (rowAt sharing) (rowAt sharing).nextStep) (rowAt sharing) = true ∧ (rowAt (onFallback sweptRow)).path = 2 ∧
    (calm (suspendedRow 0 0 32)).refreshDemand (rowAt sweptRow) (rowAt sweptRow).nextStep = false ∧
    (suspendedRow 0 0 31).rowOp? 0 1 = some (rowAt (suspendedRow 0 0 31)) ∧
    (suspendedRow 0 4000 4000).rowOp? 0 1 = some (rowAt (suspendedRow 0 4000 4000)) ∧ Memory.wf sweptRow.mem := by
  refine ⟨?_, ?_, rowPlain_of ?_ ?_ ?_ ?_ ?_, ?_⟩
  all_goals repeat' apply And.intro
  all_goals decide +kernel

def plannedOk (p : Planned (List (List (Leaf × Nat)))) : Bool :=
  match p with
  | .ok _ => true
  | _ => false

theorem plannedOk_of {p : Planned (List (List (Leaf × Nat)))} (h : plannedOk p = true) : ∃ os, p = .ok os := by
  cases p with
  | ok os => exact ⟨os, rfl⟩
  | waits s => simp [plannedOk] at h
  | fault d => simp [plannedOk] at h

/-- A pseudo-channel with two banks waiting and one busy until 100, and one that is forced. -/
def refreshing : State :=
  { base with refresh := [⟨0, 0, 3, 244, [1, 2], [(some 4, 100)], false⟩, ⟨0, 1, 3, 244, [1], [], true⟩], time := 244 }

/-- The coefficients are read where there are none. -/
theorem test_no_coefficients : ∃ u m, (({ queuedRow with picks := [] } : State).planCoeffs (rowAt queuedRow)) = .done u [] m :=
  ⟨_, _, rfl⟩

/-- A dirty sector of the source row that a full stall window holds, once its page moves; and a channel in a row step. -/
def heldRow : State :=
  { acceptedRow with
    l2 := [{ sector := 0, fold := 0, open_ := false, dirty := true, data := List.replicate 128 0, bad := [] }],
    moves := [{ id := 9, part := 0, leaf := trialLeaf, target := 2 ^ 36, phase := 1, held := [], count := 64, op := none }] }
def stepRow : State :=
  { sweptRow with rows := sweptRow.rows.map fun x => { x with busyOn := [(0, 0)], busyUntil := sweptRow.time + 1 } }

theorem witness_RowPlans : queuedRow.rows.find? (fun y => y.core == 0 && y.stage == .queued) = some (rowAt queuedRow) ∧
    queuedRow.warpCommandWaits 0 0 0 0 1 = false ∧
    (∃ os, (queuedRow.commandActions 0 0 0).planOperands (rowAt queuedRow) true (rowAt queuedRow).operands = .ok os) ∧
    (rowAt queuedRow).func = 0 ∧ acceptedRow.rowOp? 0 1 = some (rowAt acceptedRow) ∧
    (rowAt acceptedRow).rows.flatten.any acceptedRow.windowFull = false ∧
    plannedRow.rowOp? 0 1 = some (rowAt plannedRow) ∧ (rowAt plannedRow).stage = .offered ∧
    (plannedRow.rows.find? fun y => y.stage == .offered && y.agent == (rowAt plannedRow).agent) = some (rowAt plannedRow) ∧
    acceptedRow.rowOp? 0 1 = some (rowAt acceptedRow) ∧ (rowAt acceptedRow).stage = .accepted ∧ acceptedRow.l2 = [] ∧
    ((heldRow.l2Sector? 0).map (·.dirty)) = some true ∧ heldRow.windowFull 128 = true ∧
    (refreshing.refreshOf 0 0).allBusy = false ∧ refreshing.mayDemand 0 0 3 = false ∧
    (∃ y ∈ stepRow.rows, stepRow.time < y.busyUntil ∧ (0, 0) ∈ y.busyOn) ∧
    (∀ y ∈ acceptedRow.rows, y.swept = true → ∀ c ∈ y.channels, c ∉ (rowAt acceptedRow).channels) ∧
    (refreshing.refreshOf 0 0).nextDue ≤ refreshing.time ∧
    (refreshing.refreshOf 0 0).postponed = [1, 2] ∧ (refreshing.refreshOf 0 0).bankBusy 1 = false ∧
    (refreshing.refreshOf 0 1).forced = true ∧ (∃ b ∈ (refreshing.refreshOf 0 0).busy, b.2 ≤ refreshing.time) := by
  refine ⟨?_, ?_, plannedOk_of ?_, ?_⟩
  · decide +kernel
  · decide +kernel
  · decide +kernel
  · repeat' apply And.intro
    all_goals decide +kernel

end Sys2Proof.Tests
namespace Sys2Proof.Tests

/-! ## Witnesses: barriers, waits, placement -/

/-- A second thread of the warp. -/
def other (f : Thread → Thread) : Thread := f { startThread trialPc false false 0 1 0 0 with lane := 1 }
def besides (f : Thread → Thread) (s : State) : State :=
  { s with wgs := s.wgs.map fun w => { w with threads := w.threads ++ [other f] } }
def barred (b : Nat) (x : Barrier) (s : State) : State := withBarrier 0 b x s
def somewhere : Site := ⟨0x1000, 0x1000, none, 0x1004, none⟩

/-- b1 holds the other thread, which holds its next arrival there. -/
def nextArrival : Option Hold := some (.arrival 1 2 true 0 somewhere)
def heldState : State :=
  barred 1 ⟨false, [⟨0, 0, 1⟩], 2, true, some 0⟩ (besides (fun t => { t with hold := nextArrival })
    (withThread (fun t => t.setReg 63 2) base))
def onePresent : State := barred 1 ⟨false, [me], 1024, true, some 0⟩ base
def stalled : State :=
  { heldState with time := 100, wgs := heldState.wgs.map fun w => { w with barto := 5 } }

theorem witness_BarrierWords : Meets base lone lastRule [63] ∧ Meets heldState lone lastRule [63] ∧
    base.releaseWaits me 0 base.nextId = false ∧ me ∈ (barrierOf (wgOf onePresent) 1).arrivals ∧
    me ∉ (barrierOf (wgOf base) 0).arrivals ∧ remaining (wgOf base) = 1 ∧ remaining (wgOf heldState) = 2 ∧
    (wgOf base).heldArrivals 0 = [] ∧ me ∉ (barrierOf (wgOf heldState) 1).arrivals ∧
    (wgOf heldState).heldArrivals 1 = [other fun t => { t with hold := nextArrival }] ∧ (thOf heldState).reg 63 = 2 ∧
    (barrierOf (wgOf stalled) 1).timer = some 0 ∧ 0 + 20 * (wgOf stalled).barto ≤ stalled.time ∧
    (∃ t ∈ (wgOf stalled).threads, (stalledOn 1 t).isSome = true) ∧
    (∀ t ∈ (wgOf onePresent).threads, (stalledOn 1 t).isNone = true) ∧
    (barrierOf (wgOf onePresent) 1).timer = some 0 := by
  repeat' apply And.intro
  all_goals decide +kernel

/-- A condition word: enabled, code c, address a. -/
def conditionWord (c a : Nat) : DWord := BitVec.ofNat 64 (2 ^ 63 + c * 2 ^ 60 + a)

def waiting1 : State := commanded [conditionWord 7 0xFFFFC] base
def waiting4 : State := commanded [conditionWord 0 0, conditionWord 1 4, conditionWord 2 8, conditionWord 3 2] base

theorem witness_WaitWords : Meets base lone {} [63, 0, 1] ∧ Meets waiting1 lone lastRule (63 :: registers 60 4) ∧
    Meets base lone lastRule [] ∧ (conditions waiting1 me (thOf waiting1) 0 60).map (·.1) = [0] ∧
    conditions base me (thOf base) 0 60 = [] ∧
    (waitFault waiting1 0 0 (conditions waiting1 me (thOf waiting1) 0 60)).isNone = true ∧
    (waitFault waiting4 0 0 (conditions waiting4 me (thOf waiting4) 0 60)).map (·.code) = some 0x10 ∧
    ((base.core 0).tl.toList.getD 2 Timeline.reset).retired = 0 := by
  repeat' apply And.intro
  all_goals decide +kernel

theorem witness_TimelineWait : let s := commanded [5] { base with cores := base.cores.modify 0 fun c =>
      { c with tl := c.tl.setIfInBounds 1 { next := 3, retired := 0, completed := [] } } }
    0 < min (s.warpReg me 0).toNat (((s.core 0).tl.toList.getD 1 Timeline.reset).next - 1) := by
  decide +kernel

def arming : OpKind := .warm (bytesAt 124 4 1 2)
def watchOn (coherent : Bool) : Watch := { line := 0, va := 4, coherent := coherent, triggered := false, order := 0 }
def watcher (now : Nat) (coherent : Bool) : State :=
  { withThread (fun t => { t with hold := some (.wwait 0), watch := some (watchOn coherent), group := none }) base with
      time := now }
def sleeper (now : Nat) : State :=
  { withThread (fun t => { t with hold := some (.sleep 3), group := none }) base with time := now }
def oneCond (addr : Nat) : Cond := { idx := 3, cond := 7, addr := addr, cmp := 1 }
def valueWaiter (now addr : Nat) : State :=
  { withThread (fun t => { t with hold := some (.waitv [oneCond addr] false 63 (some 3) 8 somewhere), group := none }) base with
      time := now }

theorem witness_WaitsEnd : (pending arming 63 1).armedOn 0 = [] ∧ (opOf arming 63 1).who = [me] ∧
    (watcher 4000 false).wg? 0 = some (wgOf (watcher 4000 false)) ∧ (wgOf base).place = .resident ∧
    (wgOf (watcher 4000 false)).thread? 0 0 = some (thOf (watcher 4000 false)) ∧
    (thOf (watcher 4000 true)).hold = some (.wwait 0) ∧ (thOf (watcher 4000 false)).executes = true ∧
    (sleeper 59).time / 20 % 2 ^ 64 < 3 ∧ 3 ≤ (sleeper 60).time / 20 % 2 ^ 64 ∧ (thOf (sleeper 60)).hold = some (.sleep 3) ∧
    (valueWaiter 60 0xFFFFC).waitvWaits me [oneCond 0xFFFFC] = false ∧
    leafOf (checked (valueWaiter 60 0xFFFFC) 0 0 0xFFFFC 4 { r := true }) = some trialLeaf ∧
    leafOf (checked (valueWaiter 60 0x100000) 0 0 0x100000 4 { r := true }) = none ∧
    (valueWaiter 60 0x100000).waitvWaits me [oneCond 0x100000] = false ∧ (valueWaiter 60 0).time / 20 % 2 ^ 64 ≤ 3 + 2 ∧
    (valueWaiter 100 0).time / 20 % 2 ^ 64 ≤ 3 + 2 ∧ 3 + 2 < (valueWaiter 120 0).time / 20 % 2 ^ 64 := by
  repeat' apply And.intro
  all_goals decide +kernel

theorem witness_WaitReads : Performs (pending arming 63 1) (opOf arming 63 1) ∧
    Granted (pending arming 63 1) (bytesAt 124 4 1 2) false ∧ Readable (pending arming 63 1) 0 (bytesAt 124 4 1 2) ∧
    meets 7 0 1 ∧ ¬ meets 6 0 1 ∧ meets 4 0x80000000 0x7FFFFFFF ∧ ¬ meets 2 0x80000000 0x7FFFFFFF := by
  refine ⟨?_, ?_, readable_of_absent ?_ ?_ ?_ (plain_of_absent ?_ ?_ ?_), ?_, ?_, ?_, ?_⟩
  · apply performs_of <;> decide +kernel
  · unfold Granted; decide +kernel
  · decide +kernel
  · decide +kernel
  · decide +kernel
  · decide +kernel
  · decide +kernel
  · decide +kernel
  · rintro ⟨i, h, _⟩; simp at h
  · rintro ⟨i, h, _⟩; simp at h
  · show (0x80000000 : Word).toInt < (0x7FFFFFFF : Word).toInt; decide
  · show ¬ (0x80000000 : Word).toNat < (0x7FFFFFFF : Word).toNat; decide

/-- Two conditions of one WAITV that wants both, and the state between their reads. -/
def bothConds : List Cond := [oneCond 0xFFFFC, { oneCond 0x80 with idx := 0 }]
def bothWaiter (now : Nat) : State :=
  { withThread (fun t => { t with hold := some (.waitv bothConds true 63 (some 3) 8 somewhere), group := none }) base with
      time := now }
def afterRead (s : State) (va : Nat) : State :=
  match (s.tlbInsert 0 0 trialLeaf).performRead 0 0 (reaching (BitVec.ofNat 64 va) 4 trialLeaf 0 2) with
  | .done t _ _ => t
  | _ => State.reset

def goes (x : Performed) : Bool :=
  match x with
  | .done _ _ _ => true
  | _ => false

theorem word_read {s : State} {c : Cond} {cs : List Cond} {xs : List Word} {t : State} (_hc : c.addr < 2 ^ 20)
    (h1 : leafOf (checked s 0 0 (BitVec.ofNat 64 c.addr) 4 { r := true }) = some trialLeaf)
    (h2 : Granted (s.tlbInsert 0 0 trialLeaf) (reaching (BitVec.ofNat 64 c.addr) 4 trialLeaf 0 2) false)
    (h3 : Readable (s.tlbInsert 0 0 trialLeaf) 0 (reaching (BitVec.ofNat 64 c.addr) 4 trialLeaf 0 2))
    (h4 : (loaded 4 ((s.tlbInsert 0 0 trialLeaf).coreBytes 0 ((s.tlbInsert 0 0 trialLeaf).homeAddr
      (reaching (BitVec.ofNat 64 c.addr) 4 trialLeaf 0 2).pa) 4)).headD 0 = 0)
    (h5 : goes ((s.tlbInsert 0 0 trialLeaf).performRead 0 0 (reaching (BitVec.ofNat 64 c.addr) 4 trialLeaf 0 2)) = true)
    (h6 : WordsRead (afterRead s c.addr) 0 0 cs xs t) : WordsRead s 0 0 (c :: cs) (0 :: xs) t := by
  have hx : checked s 0 0 (BitVec.ofNat 64 c.addr) 4 { r := true } = .ok trialLeaf := by
    cases hk : checked s 0 0 (BitVec.ofNat 64 c.addr) 4 { r := true } with
    | error e => rw [hk] at h1; simp [leafOf, Except.toOption] at h1
    | ok l => rw [hk] at h1; simp [leafOf, Except.toOption] at h1; rw [h1]
  unfold afterRead at h6
  cases hr : (s.tlbInsert 0 0 trialLeaf).performRead 0 0 (reaching (BitVec.ofNat 64 c.addr) 4 trialLeaf 0 2) with
  | done v bs b => rw [hr] at h6; exact ⟨trialLeaf, v, bs, b, hx, ⟨h2, h3, h4.symm, hr⟩, h6⟩
  | waits u => rw [hr] at h5; simp [goes] at h5
  | fault u d => rw [hr] at h5; simp [goes] at h5

/-- Both words read 0, which meets condition 7. -/
theorem met_both : Met bothConds [0, 0] 9 := by
  have h7 : meets 7 0 1 := by rintro ⟨i, h, _⟩; simp at h
  intro i
  by_cases h : i < 4
  · have h2 : i = 0 ∨ i = 1 ∨ i = 2 ∨ i = 3 := by omega
    rcases h2 with rfl | rfl | rfl | rfl <;> simp [bothConds, oneCond, Nat.testBit] <;> exact h7
  · have h9 : (9 : Nat).testBit i = false := Nat.testBit_lt_two_pow (Nat.lt_of_lt_of_le (by decide : 9 < 2 ^ 4)
      (Nat.pow_le_pow_right (by decide) (by omega)))
    simp [h9, bothConds, oneCond]
    omega

theorem witness_ConditionsAreEvaluated : (thOf (bothWaiter 60)).hold = some (.waitv bothConds true 63 (some 3) 8 somewhere) ∧
    (bothWaiter 60).time / 20 % 2 ^ 64 ≤ 3 + 2 ∧ (∀ c ∈ bothConds, c.idx < 4 ∧ c.addr < 2 ^ 57) ∧
    (bothConds.map (·.idx)).Nodup ∧ (bothWaiter 60).waitvWaits me bothConds = false ∧
    WordsRead (bothWaiter 60) 0 0 bothConds [0, 0] (afterRead (afterRead (bothWaiter 60) 0xFFFFC) 0x80) ∧
    Met bothConds [0, 0] 9 := by
  refine ⟨?_, ?_, ?_, ?_, ?_, word_read ?_ ?_ ?_ (readable_of_absent ?_ ?_ ?_ (plain_of_absent ?_ ?_ ?_)) ?_ ?_
    (word_read ?_ ?_ ?_ (readable_of_absent ?_ ?_ ?_ (plain_of_absent ?_ ?_ ?_)) ?_ ?_ rfl), met_both⟩
  all_goals first | decide +kernel | (unfold Granted; decide +kernel)

def querying : OpKind := .query 1 0 (some trialLeaf) []

theorem witness_TierWords : Meets base lone { prefixKind := .mem, orders := [0, 2] } [] ∧ lone.core = (wgOf base).core ∧
    (rangeRefused 0 0 1).isNone = true ∧ (rangeRefused 0 0 0).map (·.code) = some 0x02 ∧
    (rangeRefused 1 0 0x0001000000000001).map (·.code) = some 0x02 ∧ (rangeRefused 2 0 0x0007000000000001).isNone = true ∧
    (rangeRefused 3 0 0x0003000000000001).isSome = true ∧ (rangeRefused 5 0 0x0002000000000001).isSome = true ∧
    (rangeRefused 3 0x01FFFFFFFFFFFFFF 1).isNone = true ∧
    (rangeRefused 3 0x01FFFFFFFFFFFFFF 2).map (·.code) = some 0x12 ∧
    Meets base lone {} (registers 62 2 ++ [0, 1]) ∧ Meets base lone {} (registers 63 1 ++ [62, 63]) ∧
    leafOf (queried base 0 0 0xFFFFF) = some trialLeaf ∧ leafOf (queried base 0 0 0x100000) = none ∧
    (pending querying 62 2).op? (opOf querying 62 2).id = some (opOf querying 62 2) := by
  repeat' apply And.intro
  all_goals decide +kernel

theorem ok_of {x : Except (BitVec 8) Leaf} {l : Leaf} (h : x.toOption = some l) : x = .ok l := by
  cases x with
  | error e => simp [Except.toOption] at h
  | ok m => simpa [Except.toOption] using h

/-- The page that the page tables of `mapped` map. -/
def hugeLeaf : Leaf :=
  { vbase := 0, size := 0x1000000000, pa := 0, pte := 0x82000, gen := 0, fold := 0, format := 0, cls := .priv, open_ := true,
    pin := false, nodemote := false, pref := 0, r := true, w := true, x := true, metaBase := 0 }

def ranging (func : Nat) (arg : BitVec 4) (cursor : Nat) (stage : Stage4) : TierOp :=
  { core := 0, num := 1, part := 0, wg := 0, warp := 0, handle := 1, homeSlot := 0, func := func, addr := 0, len := 1,
    arg := arg, cursor := cursor, stage := stage, fault := 0, done := 0, skipped := 0, sat := false, host := false,
    moves := [], forwarded := 0, order := 0, scope := 2, issuedBy := 0 }
/-- The mapped page lies in tier 1. -/
def lowered : State := { mapped base with mem := Memory.setBytes (mapped base).mem 0x82000 (leBytes 8 0x20000000230F) }
def lowLeaf : Leaf := { hugeLeaf with pa := 0x20000000000 }

theorem leavesFrom_congr {s t : State} (h : ∀ pa, s.readPte pa = t.readPte pa) :
    ∀ level table b, s.leavesFrom level table b = t.leavesFrom level table b := by
  intro level
  induction level with
  | zero => intro table b; rw [State.leavesFrom, State.leavesFrom]; simp only [h]
  | succ n ih => intro table b; rw [State.leavesFrom, State.leavesFrom]; simp only [h, ih]

theorem leaves_lowered : lowered.leaves 0 = [lowLeaf] := by decide +kernel

def tiering (hw : Bool) (xs : List TierOp) : State :=
  { lowered with tiers := xs, parts := lowered.parts.map fun p =>
      { p with shares := [8192, 8192, 8192], promotionHw := hw, faultHw := hw } }

theorem leaves_tiering (hw : Bool) (xs : List TierOp) : (tiering hw xs).leaves 0 = [lowLeaf] :=
  (leavesFrom_congr (fun _ => rfl) 5 _ 0).trans leaves_lowered

theorem number_tiering (hw : Bool) (xs : List TierOp) : (tiering hw xs).parts.map (·.number) = [0] := rfl

/-- Every multiple of the page's size in tiers 0 and 1 but the first of tier 1 is a free frame. -/
theorem rangeFree_tiering (hw : Bool) (xs : List TierOp) (pa : Nat)
    (h : overlaps 0x20000000000 0x1000000000 pa 0x1000000000 = false) :
    (tiering hw xs).rangeFree pa 0x1000000000 = true := by
  have hp : ∀ p ∈ (tiering hw xs).parts, p.number = 0 := by
    intro p hp
    have := List.mem_map_of_mem (f := (·.number)) hp
    rw [number_tiering] at this; simpa using this
  have h2 : ((tiering hw xs).parts.any fun p => ((tiering hw xs).leaves p.number).any fun l =>
      overlaps l.pa l.size pa 0x1000000000) = false := by
    rw [List.any_eq_false]
    intro p hm
    simp [hp p hm, leaves_tiering, lowLeaf, hugeLeaf, h]
  unfold State.rangeFree
  rw [h2]
  rfl

theorem freeFrame_tiering (hw : Bool) (xs : List TierOp) : (tiering hw xs).freeFrame 0 0x1000000000 = some 0x7000000000 ∧
    (tiering hw xs).freeFrame 1 0x1000000000 = some 0x3F000000000 := by
  have h1 := rangeFree_tiering hw xs 0x7000000000 (by decide)
  have h2 := rangeFree_tiering hw xs 0x3F000000000 (by decide)
  have hk : (tiering hw xs).picks = [] := rfl
  have hf : (tiering hw xs).frames = [] := rfl
  have hm : (tiering hw xs).moves = [] := rfl
  constructor
  · simp [State.freeFrame, hk, hf, hm, tierSize, tierBase, h1]
  · simp [State.freeFrame, hk, hf, hm, tierSize, tierBase, h2]

theorem hasRoom_tiering (hw : Bool) (xs : List TierOp) : (tiering hw xs).hasRoom 0 0 0x1000000000 = true := by
  have h1 : (tiering hw xs).usedOf 0 0 = 0 := by
    have hm : (tiering hw xs).moves = [] := rfl
    simp [State.usedOf, State.framesOf, leaves_tiering, hm, lowLeaf, hugeLeaf, tierOf]
  have h2 : (tiering hw xs).shareOf 0 0 = 0x8000000000 := by
    show (tiering hw []).shareOf 0 0 = _
    cases hw <;> decide +kernel
  simp [State.hasRoom, h1, h2]

theorem witness_TierCommands : (tiering true [ranging 5 1 0 .queued]).tiers.find? (fun y => y.core == 0 && y.stage == .queued) =
    some (ranging 5 1 0 .queued) ∧ ((tiering true []).part? 0).isSome = true ∧
    (tiering true [ranging 3 1 1 .running]).tierOp? 0 1 = some (ranging 3 1 1 .running) := by
  repeat' apply And.intro
  all_goals decide +kernel

theorem witness_TierPages (func : Nat) (arg : BitVec 4) : AtPage (tiering true [ranging func arg 0 .running])
    (ranging func arg 0 .running) lowLeaf := by
  refine ⟨?_, rfl, ?_, ok_of ?_, rfl, ?_, ?_⟩
  · simp [State.tierOp?, tiering, ranging]
  · show (0 : Nat) < 1; decide
  · show ((tiering true []).walk ((tiering true []).rootOf 0) 0).toOption = _; decide +kernel
  · show (tiering true []).genOk _ _ = _; decide +kernel
  · refine ⟨by decide, ?_, Or.inr ⟨?_, ?_⟩⟩
    · show ∀ x ∈ (tiering true []).l2, _
      decide +kernel
    · show RoomInL2 (tiering true []) _
      exact Or.inl (by decide +kernel)
    · show ∀ u ∈ _, (tiering true []).isCleared _ = true ∨ (tiering true []).sameKeys _ ((tiering true []).keysOf _).1
          ((tiering true []).keysOf _).2 = true
      decide +kernel

theorem witness_TierMoves : (tiering true []).moveAt? 0 = none ∧ tierOf lowLeaf.pa = 1 ∧ (tiering true []).movesOf lowLeaf = [] ∧
    ((tiering true []).frame lowLeaf.pa).pins = 0 ∧ ((tiering false []).part? 0).any (·.promotionHw) = false ∧
    ((tiering true []).part? 0).any (·.promotionHw) = true ∧ ((tiering true []).readPte 0x82000).getLsbD 12 = false ∧
    ((tiering true []).readPte 0x82000).toNat / 1024 % 4 = 0 := by
  repeat' apply And.intro
  all_goals decide +kernel

/-- A move of one granule from tier 0 to tier 1. -/
def moving (phase : Nat) : Move :=
  { id := 5, part := 0, leaf := { trialLeaf with size := 4096, pte := 0x90000 }, target := 0x20000000000, phase := phase,
    held := [(0, 7), (4095, 8)], count := 1, op := none }
def moveState (phase : Nat) : State := { base with moves := [moving phase] }

theorem witness_Moves : (moveState 1).move? 5 = some (moving 1) ∧ (moving 1).leaf.pa + (moving 1).leaf.size ≤ (moving 1).target ∧
    Memory.wf (moveState 1).mem ∧
    (∀ c < (moveState 1).cores.length, ∀ x ∈ ((moveState 1).core c).l1, ¬ x.line * 128 < 4096) ∧ (moveState 1).l2 = [] ∧
    (∀ c ∈ (moving 1).held, c.1 < 4096 ∧ (moveState 1).isCleared c.1 = false) ∧ (moveState 2).rowNames 0 = false ∧
    (moveState 3).move? 5 = some (moving 3) := by
  repeat' apply And.intro
  all_goals decide +kernel

def granuleAt (st : PoolState) (req : Option (Nat × Bool)) (stale : Bool := false) : State :=
  { base with granules := [⟨0x40000000000, st, [], none, stale, req⟩] }

def badFrame : Frame := { Frame.blank 0x20000000000 0x1000000000 with errors := 9 }
def erring : State := { tiering true [] with frames := [badFrame] }

theorem witness_Policy : ((tiering true []).walk ((tiering true []).rootOf 0) 0).toOption = some lowLeaf ∧
    (tiering true []).twinRuns 0 = false ∧ (tiering true []).genOk lowLeaf 0x20000000000 = true ∧
    (erring.frame 0x20000000000).errors = 9 ∧ (erring.frame 0x20000000000).retired = false ∧
    (partAt erring).errorLimit < 9 ∧ (partAt erring).reported = [] ∧ 0x4000000000 % lowLeaf.size = 0 ∧ tierOf 0x4000000000 = 0 := by
  repeat' apply And.intro
  all_goals decide +kernel

/-- A machine in which the pages of the one partition are due for the policy. -/
def overdue (rd : Nat) : State :=
  { tiering true [] with due := [(0, 0)], frames := [{ Frame.blank 0x20000000000 0x1000000000 with rd := rd }] }

theorem affinity_tiering (hw : Bool) (xs : List TierOp) : (tiering hw xs).affinityOf 0 lowLeaf = 0 := by
  have h : (tiering hw xs).mappings 0 lowLeaf = [0x82000] := by
    simp [State.mappings, leaves_tiering, lowLeaf, hugeLeaf, distinct]
  have h2 : (tiering hw xs).affinityBits 0x82000 = 0 := by
    show (tiering hw []).affinityBits 0x82000 = 0
    cases hw <;> decide +kernel
  have h3 : ((tiering hw xs).frame lowLeaf.pa).affinity = [] := rfl
  simp [State.affinityOf, h, h2, h3, Nat.mod_one]

theorem owned_tiering (hw : Bool) (xs : List TierOp) : OwnedHere (tiering hw xs) lowLeaf := by
  intro i hi
  have h : i < 0x1000000 := by simpa [lowLeaf, hugeLeaf] using hi
  have hm : (tiering hw xs).moves = [] := rfl
  have ht : tierOf (lowLeaf.pa + i * 4096) = 1 := by
    have hp : lowLeaf.pa = 0x20000000000 := rfl
    rw [hp]
    unfold tierOf
    rw [if_neg (by omega), if_pos (by omega)]
  refine ⟨?_, fun h2 => absurd h2 (by decide)⟩
  simp [State.poolServes, State.homeAddr, State.moveAt?, hm, ht]

theorem witness_TierTables (hw : Bool) (xs : List TierOp) : TablesOk (tiering hw xs) 0 lowLeaf ∧
    NotWanted (tiering hw xs) lowLeaf ∧ OwnedHere (tiering hw xs) lowLeaf ∧
    (tiering hw xs).mappings 0 lowLeaf = [lowLeaf.pte] ∧ TableOk (moveState 2) 0x90000 ∧ (moving 2).target < 2 ^ 52 ∧
    (moveState 2).l2.length + ((moveState 2).remaps (moving 2)).length ≤ 4096 ∧
    (∀ e ∈ (moveState 2).remaps (moving 2), e.1 % 16 = 0 ∧ (e.1 = (moving 2).leaf.pte → e.2 = (moving 2).target)) ∧
    (∀ i < (moving 0).leaf.size / 4096, (moveState 0).poolServes ((moving 0).target + i * 4096) true = true ∧
      (moveState 0).poolServes ((moving 0).leaf.pa + i * 4096) true = true) := by
  refine ⟨?_, ?_, owned_tiering hw xs, ?_, ⟨by decide, ?_, Or.inr ⟨Or.inl ?_, ?_⟩⟩, by decide, ?_, ?_, ?_⟩
  · have h : (tiering hw xs).mappings 0 lowLeaf = [0x82000] := by
      simp [State.mappings, leaves_tiering, lowLeaf, hugeLeaf, distinct]
    unfold TablesOk
    rw [h]
    show ([] : List L2Sector).length + 8 ≤ 4096
    decide
  · intro g hg
    exact absurd hg List.not_mem_nil
  · simp [State.mappings, leaves_tiering, lowLeaf, hugeLeaf, distinct]
  all_goals decide +kernel

/-- A granule that this package holds exclusive, and a page of it. -/
def poolLeaf : Leaf := { trialLeaf with pa := 0x40000000000, size := 4096 }

theorem witness_OwnedPoolPage : OwnedHere (granuleAt .exclusive none) poolLeaf ∧ tierOf poolLeaf.pa = 2 := by
  unfold OwnedHere
  decide +kernel

theorem witness_PolicyDue : (0, lowLeaf.vbase) ∈ (overdue 9).due ∧ (0, 0x1000) ∉ (overdue 9).due ∧
    (overdue 9).makesRoom 0 lowLeaf = false ∧ ((overdue 9).part? 0).any (·.promotionHw) = true ∧
    ((overdue 9).walk ((overdue 9).rootOf 0) 0).toOption = some lowLeaf ∧ (overdue 9).movesOf lowLeaf = [] ∧
    (overdue 9).twinRuns 0 = false := by
  repeat' apply And.intro
  all_goals decide +kernel

theorem witness_WaitRooms : LineRoom (pending arming 63 1) 0 124 0 := by
  apply room_of_absent <;> decide +kernel

theorem witness_ManagementMove : (tiering true []).rangeFree 0x4000000000 0x1000000000 = true :=
  rangeFree_tiering true [] _ (by decide)

/-- R152: a unit with one symbol in error is corrected and counted; one beyond correction is poisoned, its neighbour not. -/
theorem test_corrected_unit_is_counted :
    let s := ({ base with damage := [(1, 0, 0), (0, 1, 0), (0, 0, 2)] }.noteFrame 0x80000 4096 0).l2Fill 0x1000 0 false
    let t := s.l2Fill 0x1001 0 false
    countOf 0 s.lifetime.corrections = 1 ∧ (s.frame 0x80000).errors = 1 ∧ s.poisonAt 0x80000 128 = none ∧
      t.poisonAt 0x80080 1 = some .uncorrectable ∧ t.poisonAt 0x800C0 64 = none ∧
      (t.l2Fill 0x1002 0 false).poisonAt 0x80140 1 = some .misdirected ∧ (t.l2Fill 0x1002 0 false).damage = [] := by
  repeat' apply And.intro
  all_goals decide +kernel

def slow (now : Nat) (granule : State) : State :=
  let o : PendingOp := { opOf (.load 4 { bytesAt (0x40000000000) 4 0 2 with pa := 0x40000000000 } none) 63 1 with waiting := some 0 }
  { withOp o granule with time := now, parts := granule.parts.map fun p => { p with poolWait := 3 } }

/-- A granule that a move copies, and what another package has stored in one. -/
def copiedGranule : State :=
  { granuleAt .exclusive none with moves := [{ moving 1 with leaf := { poolLeaf with pte := 0x90000 }, target := 0x20000000000 }] }
def newsOf (s : State) : State := { s with poolNews := [⟨0x40000000000, [7, 8], [], []⟩] }

theorem witness_Pool : tierOf (0x40000000000) = 2 ∧ (granuleAt .exclusive none).poolState (0x40000000000 + 4095) = .exclusive ∧
    (granuleAt .shared none).poolState (0x40000000000) = .shared ∧ (granuleAt .pinned none).poolState (0x40000000000) = .pinned ∧
    base.poolState (0x40000000000) = .invalid ∧
    (granuleAt .transfer (some (0, true))).granule? (0x40000000000) = some ⟨0x40000000000, .transfer, [], none, false, some (0, true)⟩ ∧
    (granuleAt .exclusive none).moveKeeps 0x40000000000 = false ∧ copiedGranule.moveKeeps 0x40000000000 = true ∧
    (newsOf (granuleAt .transfer (some (0, true)) true)).poolNews.find? (·.granule == 0x40000000000) =
      some ⟨0x40000000000, [7, 8], [], []⟩ ∧
    ((granuleAt .transfer (some (0, true)) true).granule? (0x40000000000)).map (·.stale) = some true ∧
    (granuleAt .pinned none).moves = [] ∧
    (slow 60 (granuleAt .transfer (some (0, false)))).poolServes (0x40000000000) false = false ∧
    ((slow 60 (granuleAt .transfer none)).part? 0).map (·.poolWait) = some 3 ∧
    (slow 59 (granuleAt .transfer none)).ops.map (·.waiting) = [some 0] := by
  repeat' apply And.intro
  all_goals decide +kernel

end Sys2Proof.Tests
namespace Sys2Proof.Tests

/-! ## Witnesses: queues, launches, system words, traps -/

theorem named_of {s : State} {g : Group} (h : (s.wgs.all fun w => decide (s.wg? w.id = some w) && w.threads.all fun t =>
    decide (w.thread? t.warp t.lane = some t) && (decide (inGroup g t) == decide (t.ref w.id ∈ g.members))) = true) :
    Named s g := by
  intro w hw
  have h1 := List.all_eq_true.mp h w hw
  simp only [Bool.and_eq_true, decide_eq_true_eq, List.all_eq_true, beq_iff_eq] at h1
  refine ⟨h1.1, fun t ht => ⟨(h1.2 t ht).1, ?_⟩⟩
  have h2 := (h1.2 t ht).2
  simpa only [decide_eq_decide] using h2

theorem witness_Tlrd : Ready base lone {} (registers 62 2) ∧ Named base lone ∧ (thOf base).pred 0 = true := by
  refine ⟨?_, named_of ?_, ?_⟩ <;> first | decide +kernel | (unfold Ready; decide +kernel)

/-- A pipeline with one queue at 0x4000: positions 0 and 1 reserved and published, the first consumed. -/
def queue : Queue := { qbase := 0x4000, depth := 16, started := [] }
def stage : Stage :=
  { entry := 0x2000, threads := 6, roles := [0], budgets := [64, 64, 64], home := 0x40000, pbase := 0x10000, psz := 1,
    sbase := 0x80000, idem := false, coh := 0, orsv := 0, omask := 0, inq := 7, win := 256, split := 1, barto := 0,
    colto := 0, grid := 3, arg := 77, rings := [], nextWg := 1, slotsUsed := [0], times := [] }
def pipeline : Pipeline :=
  { handle := 1, prio := 3, bound := 0, done := 0x3000, stages := [stage],
    queues := [some queue, none, none, none, none] }
def piped (p : Pipeline) (s : State) : State :=
  { s with parts := s.parts.map fun q => { q with pipelines := [p] } }
def header (pub con rsv asg : Nat) : List Byte := leBytes 8 pub ++ leBytes 8 con ++ leBytes 8 rsv ++ leBytes 8 asg
def queued (pub con rsv asg : Nat) (s : State) : State :=
  { s with mem := Memory.setBytes s.mem 0x4000 (header pub con rsv asg) }
def outputs (m : BitVec 5) (s : State) : State := { s with wgs := s.wgs.map fun w => { w with omask := m } }
def enqState : State := outputs 1 (queued 2 1 2 1 (piped pipeline base))
def fullQueue : State := outputs 1 (queued 17 1 17 1 (piped pipeline base))

theorem genOk_of {s : State} (h : s.frames.all (·.gen == 0) = true) (a : Nat) : s.genOk trialLeaf a = true := by
  unfold State.genOk State.frame
  cases hf : s.frame? a with
  | none => simp [Frame.blank, trialLeaf]
  | some f => have h1 := List.all_eq_true.mp h f (List.mem_of_find?_eq_some hf)
              exact decide_eq_true (beq_iff_eq.mp h1)

theorem queueOk_of {s : State} {x : Nat} (ht : ∀ a, a < 0x4240 → s.findLeaf 0 0 a = .ok trialLeaf)
    (hl : (s.core 0).l1 = []) (hc : 0 < s.cores.length) (hn : s.l2.length + 2 ≤ 4096) (hm : s.moves = [])
    (hf : (s.tlbInsert 0 0 trialLeaf).frames.all (·.gen == 0) = true) (h2 : Plain (s.tlbInsert 0 0 trialLeaf) 0x4000 32 trialLeaf)
    (h3 : Plain (s.tlbInsert 0 0 trialLeaf) (0x4040 + x % 16 * 32) 32 trialLeaf) : QueueOk s 0 0 queue x := by
  refine ⟨by decide, by decide, by decide, by simp [hl], hc, hn, trialLeaf, ?_, rfl, rfl, by decide, rfl, by decide, by decide,
    by decide, by decide, ?_, hm, ?_, h2, ?_⟩
  · intro a _ h; exact ht a (by simpa [queue] using h)
  · have : trialLeaf.pa + (queue.qbase + 64 + x % queue.depth * 32 - trialLeaf.vbase) = 0x4040 + x % 16 * 32 := by
      simp [trialLeaf, queue]
    rw [this]
    have : x % 16 * 32 < 512 := by omega
    unfold tierOf
    rw [if_pos (by omega)]
    decide
  · intro a; exact genOk_of hf a
  · have : trialLeaf.pa + (queue.qbase + 64 + x % queue.depth * 32 - trialLeaf.vbase) = 0x4040 + x % 16 * 32 := by
      simp [trialLeaf, queue]
    rw [this]; exact h3

theorem findLeaf_of {s : State} (h : (s.core 0).tlb = [{ part := 0, leaf := trialLeaf }]) (a : Nat) (ha : a < 0x4240) :
    s.findLeaf 0 0 a = .ok trialLeaf := by
  have hc : trialLeaf.covers a = true := by
    have : a < 1048576 := by omega
    simp [Leaf.covers, trialLeaf, this]
  simp [State.findLeaf, State.tlbHit, h, hc]

theorem witness_QueueOk : QueueOk enqState 0 0 queue 2 ∧ QueueOk fullQueue 0 0 queue 17 := by
  constructor <;> apply queueOk_of
  all_goals first | (exact findLeaf_of (by decide +kernel)) | decide +kernel | (apply plain_of_absent <;> decide +kernel)

theorem witness_QueueWords : Meets enqState lone {} (registers 56 8) ∧ enqState.releaseWaits me 2 enqState.nextId = false ∧ enqState.headLacks 0 0 queue false = none ∧ enqState.l2 = [] ∧
    queueOf enqState (wgOf enqState) 0 = some queue ∧ queueOf enqState (wgOf enqState) 4 = none ∧
    (wgOf enqState).omask.getLsbD 0 = true ∧ (wgOf base).omask.getLsbD 0 = false ∧
    (enqState.queueHead 0 0 queue).2.rsv = 2 ∧ (enqState.queueHead 0 0 queue).2.con = 1 ∧
    queue.depth ≤ (fullQueue.queueHead 0 0 queue).2.rsv - (fullQueue.queueHead 0 0 queue).2.con := by
  repeat' apply And.intro
  all_goals decide +kernel

/-- A descriptor at 0x5000 of one stage at 0x5100, and w0 names it. -/
def descriptorBytes (w8 : Nat) : List Byte :=
  leBytes 16 0x51000000000000000000 ++ leBytes 0xF0 0 ++ leBytes 8 0x2000 ++ leBytes 8 0 ++ leBytes 8 1 ++ leBytes 40 0 ++
    leBytes 8 w8 ++ leBytes 8 0 ++ leBytes 8 1
def launchable (w8 : Nat) : State :=
  commanded [0x5000] { mapped base with mem := Memory.setBytes (mapped base).mem 0x5000 (descriptorBytes w8) }
def launched (w8 : Nat) : State := ranOf (execDlaunch ⟨0, 1, 1, 0⟩ (launchable w8))
def launchOf (s : State) : Launch := s.launches.headD ⟨0, 0, [], 0, 0, 0, 0, 0, 0, somewhere, 0⟩

def readsOk (r : ReadDesc) (refused : Bool) (ps : List Partition) : Bool :=
  match r with
  | .ok u d => match u.part? 0 with
    | some p => (u.refusal p d).isSome == refused && decide (u.parts = ps)
    | none => false
  | _ => false

theorem reads_of {r : ReadDesc} {refused : Bool} {ps : List Partition} (h : readsOk r refused ps = true) :
    ∃ u d p, r = .ok u d ∧ u.part? 0 = some p ∧ (u.refusal p d).isSome = refused ∧ u.parts = ps := by
  cases r with
  | waits s => simp [readsOk] at h
  | fault d => simp [readsOk] at h
  | ok u d =>
    simp only [readsOk] at h
    split at h
    · rename_i p hp; exact ⟨u, d, p, rfl, hp, by simpa using h⟩
    · simp at h

theorem witness_LaunchWords : Meets (launchable 0x7000001) lone {} [] ∧ (launchable 0x7000001).groups = [lone] ∧
    lone.sent = false ∧ (launchable 0x7000001).warpReg me 0 = 0x5000 ∧ (0x5000 : DWord).toNat % 64 = 0 ∧
    leafOf (checked (launchable 0x7000001) 0 0 0x5000 1 { r := true }) = some trialLeaf ∧
    (launched 0x7000001).launches.find? (·.id == (launchOf (launched 0x7000001)).id) = some (launchOf (launched 0x7000001)) ∧
    (launched 0x7000001).warpCommandWaits 2 2 0 0 1 = false := by
  repeat' apply And.intro
  all_goals decide +kernel

/-- What the launch reads is accepted, or, with a reserved bit set, refused. -/
theorem witness_LaunchReads (refused : Bool) : let s := launched (if refused then 0x7000009 else 0x7000001)
    ∃ u d p, (s.orderActions 0 2 2).readDescriptor (engineAgent 5 0 (launchOf s).id) 0 0 0x5000 = .ok u d ∧ u.part? 0 = some p ∧
      (u.refusal p d).isSome = refused ∧ u.parts = s.parts := by
  cases refused <;> exact reads_of (by decide +kernel)

/-- A thread inside a handler that returns to its resume point, or to its next address. -/
def handling (tpc : DWord) : State :=
  withThread (fun t => { t with inh := true, tpc := tpc, site := ⟨0x900, 0x904, none, 0x908, none⟩ }) base
def calling : OpKind := .sysc 7 [1, 2, 3, 4, 5, 6, 7] 1
def callingTwice : State :=
  let s := pending (.sysc 3 [] 0) 0 2
  withOp { newOp s lone me (thOf s) (some 0) (.sysc 7 [] (s.ops.map (·.id + 1) |>.headD 0)) 2 2 with id := s.nextId } s

theorem witness_SystemWords : Meets base lone {} (registers 62 2 ++ registers 0 8) ∧ Meets base lone {} (registers 56 8) ∧
    Meets (handling 0x904) lone lastRule [] ∧ (wgOf base).gangs = [] ∧ (thOf (handling 0x904)).inh = true ∧
    (thOf (handling 0x904)).tpc = (thOf (handling 0x904)).site.resume ∧ (thOf (handling 0x904)).kept = none ∧
    (thOf (handling 0x908)).tpc = (thOf (handling 0x908)).site.next ∧ base.openCalls 0 < 32 ∧
    ((wgOf base).warp? 0).isSome = true ∧ ((specials base (wgOf base) ((wgOf base).warps.headD ⟨0, 0, 0, 0, 0,
      Vector.replicate 32 0, 0, 0, none⟩) (thOf base))[35]?).isSome = true ∧
    (pending calling 62 2).op? (opOf calling 62 2).id = some (opOf calling 62 2) ∧
    (pending calling 62 2).callWaits (opOf calling 62 2) 1 = false ∧
    (pending calling 62 2).releaseWaits me 2 (opOf calling 62 2).id = false ∧ (pending calling 62 2).wg? 0 = some (wgOf base) ∧ (pending calling 62 2).part? 0 ≠ none := by
  repeat' apply And.intro
  all_goals decide +kernel

theorem witness_Trap : Ready base lone {} [] ∧ Named base lone := by
  refine ⟨?_, named_of ?_⟩ <;> first | decide +kernel | (unfold Ready; decide +kernel)

/-- A header stands at 0x2000, where the handler is. -/
def vectored (vec : DWord) (s : State) : State :=
  { s with mem := Memory.setBytes s.mem 0x2000 (wordBytes 0xFC000000), wgs := s.wgs.map fun w => { w with tvec := vec } }

def headerAt (r : Except (BitVec 8) Word) : Bool :=
  match r with
  | .ok x => x.toNat / 67108864 == 0x3F
  | .error _ => false

theorem header_of {r : Except (BitVec 8) Word} (h : headerAt r = true) : ∃ x, r = .ok x ∧ x.toNat / 2 ^ 26 = 0x3F := by
  cases r with
  | ok x => exact ⟨x, rfl, by simpa [headerAt] using h⟩
  | error c => simp [headerAt] at h

theorem witness_Return : let s := vectored 0 (handling 0x2000)
    (thOf s).tpc ≠ (thOf s).site.resume ∧ (thOf s).tpc ≠ (thOf s).site.next ∧ (thOf s).tpc.toNat % 4 = 0 ∧
      ∃ x, s.fetchWord 0 0 (thOf s).tpc = .ok x ∧ x.toNat / 2 ^ 26 = 0x3F := by
  refine ⟨by decide +kernel, by decide +kernel, by decide +kernel, header_of (by decide +kernel)⟩

def parkedThread (code : BitVec 8) (inh : Bool) (t : Thread) : Thread :=
  { t with status := .parked false, fcode := code, entry := .pending, group := none, inh := inh }
def trapping (code : BitVec 8) (inh : Bool) (vec : DWord) : State := vectored vec (withThread (parkedThread code inh) base)
def recordOf (kind seq : Nat) (code : BitVec 8) : FaultRecord :=
  { seq := seq, code := code, kind := kind, hfail := false, core := 0, slot := 0, warp := 0, lane := 0, pc := 1, addr := 0,
    info := 0, gen := 0, wmask := 1, handle := 1, ref := 0, raised := 0, part := 0, wg := 0, who := [me] }
def crowded : State :=
  let s := trapping 0x11 false 0x2000
  { s with cores := s.cores.modify 0 fun c => { c with records := List.replicate 16 (recordOf 0 0 0x11) } }

theorem parked_of {s : State} (h : (s.wg? 0 = some (wgOf s) ∧ (wgOf s).id = 0 ∧ (wgOf s).place = .resident ∧
    (wgOf s).thread? 0 0 = some (thOf s) ∧ (thOf s).warp = 0 ∧ (thOf s).lane = 0) ∧ (thOf s).status = .parked false ∧
    ((thOf s).watchdog = none ∧ (wgOf s).gangs = [] ∧ (∀ v ∈ s.wgs, v.id = 0 → v = wgOf s) ∧
    ∀ t ∈ (wgOf s).threads, t.warp = 0 → t.lane = 0 → t = thOf s)) : Parked s me (wgOf s) (thOf s) := by
  obtain ⟨⟨a, b, c, d, e, f⟩, g, h, i, j, k⟩ := h
  exact ⟨a, b, c, d, e, f, ⟨false, g⟩, h, i, j, k⟩

theorem witness_TrapEntry : Parked (trapping 0x40 false 0x2000) me (wgOf (trapping 0x40 false 0x2000))
      (thOf (trapping 0x40 false 0x2000)) ∧ HandlerAt (trapping 0x40 false 0x2000) (wgOf (trapping 0x40 false 0x2000)) ∧
    (thOf (trapping 0x40 false 0x2000)).fcode ∉ systemCodes ∧
    (trapping 0x40 false 0x2000).outstanding (wgOf (trapping 0x40 false 0x2000)) (thOf (trapping 0x40 false 0x2000)) = false ∧
    Parked (trapping 0x11 false 0x2000) me (wgOf (trapping 0x11 false 0x2000)) (thOf (trapping 0x11 false 0x2000)) ∧
    (thOf (trapping 0x11 false 0x2000)).fcode ∈ systemCodes ∧ (wgOf (trapping 0x40 false 0x2002)).tvec.toNat % 4 ≠ 0 ∧
    (thOf (trapping 0x40 true 0x2000)).inh = true ∧ (wgOf (trapping 0x40 false 0)).tvec = 0 ∧
    (crowded.core 0).records.length = 16 := by
  refine ⟨parked_of ?_, ⟨?_, ?_, header_of ?_⟩, ?_, ?_, parked_of ?_, ?_, ?_, ?_, ?_, ?_⟩ <;> decide +kernel

/-- A record of core 0 is to be queued; the partition's queue has depth d. -/
def toQueue (d : Nat) : State :=
  { crowded with parts := crowded.parts.map fun p => { p with fqBase := 0x6000, fqDepth := d, fqProd := 3 } }
def watchedState (now : Nat) : State :=
  let s := withThread (fun t => { t with group := none }) base
  { s with groups := [], time := now, parts := s.parts.map fun p => { p with wdlim := 5 } }

theorem witness_RecordsAndWatchdog : ((toQueue 4).core 0).records =
      recordOf 0 0 0x11 :: List.replicate 15 (recordOf 0 0 0x11) ∧
    (toQueue 4).part? 0 = some (partAt (toQueue 4)) ∧
    (partAt (toQueue 4)).fqBase % 64 = 0 ∧ (partAt (toQueue 4)).fqProd - (partAt (toQueue 4)).fqCons < 4 ∧
    (partAt (toQueue 3)).fqDepth ≤ (partAt (toQueue 3)).fqProd - (partAt (toQueue 3)).fqCons ∧ (toQueue 4).l2 = [] ∧
    ((watchedState 101).part? 0).map (·.wdlim) = some 5 ∧ (wgOf (watchedState 101)).watchFrom + 20 * 5 < (watchedState 101).time ∧
    (watchedState 100).time ≤ (wgOf (watchedState 100)).watchFrom + 20 * 5 ∧ (watchedState 101).recordRoom 0 = true ∧
    (∀ t ∈ (wgOf (watchedState 101)).threads, t.watchdog = none ∧ t.group = none) ∧
    (∃ t ∈ (wgOf (watchedState 101)).threads, t.status ≠ .exited) := by
  repeat' apply And.intro
  all_goals decide +kernel

/-- The watchdog has stopped the thread, at moment 101, and no record has been formed yet. -/
def stopped : State :=
  let s := ranOf (execWatchdogExpiry 0 (watchedState 101))
  { s with time := 140 }
/-- A fault raised at 7 while the core holds 16 records, and one behind an older fault of another thread. -/
def late7 (code : BitVec 8) (s : State) : State := withThread (fun t => { t with fcode := code, raised := some 7 }) s
def failedEntry : State := withThread (fun t => { t with entry := .failed }) (late7 0x40 (trapping 0x40 false 0x2002))

theorem witness_RecordTurns : ¬ MayRecord crowded 0 7 ∧ ¬ ForHandler (wgOf crowded) (thOf crowded) ∧
    ForHandler (wgOf (late7 0x40 crowded)) (thOf (late7 0x40 crowded)) ∧ MayRecord (trapping 0x11 false 0x2000) 0 0 ∧
    MayRecord failedEntry 0 ((thOf failedEntry).raised.getD failedEntry.time) ∧ (thOf failedEntry).entry = .failed ∧
    Parked failedEntry me (wgOf failedEntry) (thOf failedEntry) ∧ (crowded.core 0).unformed = [] ∧
    (wgOf stopped).watchReport = some 101 ∧ MayRecord stopped 0 101 ∧ (thOf stopped).watchdog.isSome = true ∧
    (∃ h, (thOf stopped).status = .parked h) ∧ (∀ x ∈ present0 (wgOf stopped), stopped.outstanding (wgOf stopped) x = false) ∧
    (∀ v ∈ stopped.wgs, v.id = 0 → v = wgOf stopped) ∧
    (wgOf stopped).thread? (thOf stopped).warp (thOf stopped).lane = some (thOf stopped) := by
  refine ⟨fun h => absurd h.1 (by decide +kernel), fun h => absurd h.1 (by decide +kernel), ⟨?_, ?_, ?_⟩, ⟨?_, ?_⟩,
    ⟨?_, ?_⟩, ?_, parked_of ?_, ?_, ?_, ⟨?_, ?_⟩, ?_, ⟨false, ?_⟩, ?_, ?_, ?_⟩ <;> decide +kernel

/-- A record that Zarkin OS has, of a parked thread or of an engine. -/
def asked (kind : Nat) (inh : Bool) : State :=
  let s := withThread (fun t => { parkedThread 0x11 inh t with entry := .recorded }) (vectored 0x2000 base)
  { s with parts := s.parts.map fun p => { p with records := [recordOf kind 9 0x11] } }
def heldCopy : State := { asked 2 false with copies := [{ copyAt runningCopy with stage := .faulted }] }
def heldMulticast : State :=
  { asked 2 false with copies := [{ copyAt runningCopy with kind := 2, stage := .faulted, deliver := [0] }] }
def askedWatch : State := { stopped with parts := stopped.parts.map fun p => { p with records := [recordOf 6 9 0x50] } }
def faultedRow : State := { asked 3 false with rows := [{ rowAt sweptRow with stage := .faulted }] }
def heldTier : State := { asked 4 false with tiers := [ranging 3 1 0 .faulted] }

theorem witness_Answers : Parked (asked 0 false) me (wgOf (asked 0 false)) (thOf (asked 0 false)) ∧
    HandlerAt (asked 0 false) (wgOf (asked 0 false)) ∧ (thOf (asked 0 false)).entry = .recorded ∧
    (asked 0 false).record? 0 9 = some (recordOf 0 9 0x11) ∧ (thOf (asked 0 false)).hold = none ∧
    (thOf (asked 0 true)).inh = true ∧ heldCopy.record? 0 9 = some (recordOf 2 9 0x11) ∧
    heldCopy.copy? 0 1 = some { copyAt runningCopy with stage := .faulted } ∧
    faultedRow.rowOp? 0 1 = some { rowAt sweptRow with stage := .faulted } ∧
    heldTier.tierOp? 0 1 = some (ranging 3 1 0 .faulted) ∧ heldTier.record? 0 9 = some (recordOf 4 9 0x11) ∧
    heldMulticast.copy? 0 1 = some { copyAt runningCopy with kind := 2, stage := .faulted, deliver := [0] } ∧
    heldMulticast.record? 0 9 = some (recordOf 2 9 0x11) ∧ askedWatch.record? 0 9 = some (recordOf 6 9 0x50) ∧
    (∀ t ∈ (wgOf askedWatch).threads, t.hold = none) ∧ (∀ y ∈ (asked 0 false).ops, y.seen = none) ∧
    (∀ f ∈ (asked 0 false).ops, False) := by
  refine ⟨parked_of ?_, ⟨?_, ?_, header_of ?_⟩, ?_⟩
  · decide +kernel
  · decide +kernel
  · decide +kernel
  · decide +kernel
  · repeat' apply And.intro
    all_goals decide +kernel

end Sys2Proof.Tests
namespace Sys2Proof.Tests

/-! ## Witnesses: formation, workgroups, hosts, steps -/

/-- Two threads ready at the same clause start, and none in a group. -/
def idle (n : Nat) (colto : Nat) : State :=
  { base with
    groups := [], time := n,
    wgs := base.wgs.map fun w => { w with colto := colto, threads := [startThread 0x1000 false false 0 0 0 0,
                                                                      startThread 0x1000 false false 0 31 0 0] } }
/-- One of them waits at a collective start for the other, which stands elsewhere. -/
def gatherAt (t : Thread) : Thread := if t.lane = 0 then { t with collSince := some 0 } else { t with pc := 0x2000 }
def gathering (n : Nat) : State :=
  let s := idle n 5
  { s with mem := Memory.setBytes s.mem 0x1000 (wordBytes 0xFC000001), wgs := s.wgs.map fun w =>
      { w with threads := w.threads.map gatherAt } }
def xheld (n : Nat) : State :=
  { base with groups := [{ lone with collHold := some 0 }], time := n, wgs := base.wgs.map fun w => { w with colto := 5 } }

theorem witness_Formation : (idle 9 0).candidates 0 0 ≠ [] ∧ base.candidates 0 0 = [] ∧
    (∀ w ∈ (idle 9 0).wgs, ∀ t ∈ w.threads, t.late = none ∧ t.lane < 32) ∧
    (gathering 101).gathered (wgOf (gathering 101)) (thOf (gathering 101)) = false ∧
    (gathering 101).standing (wgOf (gathering 101)) (thOf (gathering 101)) = .collective ∧
    (∃ m ∈ (gathering 101).waiters (wgOf (gathering 101)) (thOf (gathering 101)),
      ∃ n ∈ m.collSince, n + 20 * (wgOf (gathering 101)).colto < (gathering 101).time) ∧
    (∀ m ∈ (gathering 100).waiters (wgOf (gathering 100)) (thOf (gathering 100)),
      ∀ n ∈ m.collSince, (gathering 100).time ≤ n + 20 * (wgOf (gathering 100)).colto) ∧
    ((xheld 100).active ((xheld 100).groups.headD lone)).head? = some me ∧
    0 + 20 * (wgOf (xheld 100)).colto ≤ (xheld 100).time ∧ (∀ t ∈ (wgOf (xheld 100)).threads, t.executes = true) := by
  repeat' apply And.intro
  all_goals decide +kernel

/-- A package whose pipeline 5 may start workgroups. -/
def named5 : Pipeline := { pipeline with handle := 5, queues := [none, none, none, none, none] }
def starting (p : Pipeline) : State :=
  let s := piped p { base with groups := [], wgs := [], nextId := 40 }
  { s with mem := Memory.setBytes s.mem 0x2000 (wordBytes 0xFC000000) }
def queueStage : Stage := { stage with inq := 0 }
def fromQueue : Pipeline := { named5 with stages := [queueStage], queues := [some queue, none, none, none, none] }
def startingQueue : State := queued 2 0 2 1 (starting fromQueue)
/-- Nothing fits beside a workgroup that has the core whole. -/
def occupied : State := { starting named5 with wgs := [{ trialWorkgroup 0 with split := 2 }] }

theorem stageAt_of {s : State} {p : Pipeline} {st : Stage}
    (h : ((s.parts.find? fun q => q.cores.contains 0 && q.pipelines.any (·.handle == p.handle)) = some (partAt s) ∧
      (∀ q ∈ s.parts, q.number = (partAt s).number → q = partAt s)) ∧ s.pipeline? (partAt s).number p.handle = some p ∧
      s.stage? (partAt s).number p.handle 0 = some st ∧ 0 < s.cores.length ∧ 0 < p.stages.length ∧
      ∀ q ∈ (partAt s).pipelines, q.handle = p.handle → q = p) : StageAt s 0 (partAt s) p 0 st :=
  ⟨h.1.1, h.1.2, h.2.1, h.2.2.1, h.2.2.2.1, h.2.2.2.2.1, h.2.2.2.2.2⟩

theorem witness_Starts : StageAt (starting named5) 0 (partAt (starting named5)) named5 0 stage ∧
    (starting named5).startable 0 0 named5 0 stage = true ∧
    (starting named5).mayPlace (partAt (starting named5)) 0 named5 0 stage = true ∧
    (starting named5).pendingOf 5 0 0 = [] ∧ stage.nextWg < stage.grid ∧ (starting named5).fits 0 stage [] = true ∧
    (starting named5).targetFault 0 0 stage.entry ≠ some 0x04 ∧ (partAt occupied).cores = [0] ∧ occupied.fits 0 stage [] = false ∧
    occupied.startable 0 0 named5 0 stage = true ∧ occupied.mayPlace (partAt occupied) 0 named5 0 stage = true ∧
    (∀ v ∈ occupied.wgs, v.id ≠ occupied.nextId) ∧
    StageAt startingQueue 0 (partAt startingQueue) fromQueue 0 queueStage ∧
    startingQueue.startable 0 0 fromQueue 0 queueStage = true ∧ startingQueue.fits 0 queueStage [] = true ∧
    startingQueue.mayPlace (partAt startingQueue) 0 fromQueue 0 queueStage = true ∧
    (startingQueue.queueHead 0 0 queue).2.asg + 1 ≤ (startingQueue.queueHead 0 0 queue).2.pub := by
  refine ⟨stageAt_of ?_, ?_, ?_, ?_, ?_, ?_, ?_, ?_, ?_, ?_, ?_, ?_, stageAt_of ?_, ?_, ?_, ?_, ?_⟩ <;> decide +kernel

theorem witness_StartQueue : QueueOk startingQueue 0 0 queue 1 := by
  apply queueOk_of
  all_goals first | (exact findLeaf_of (by decide +kernel)) | decide +kernel | (apply plain_of_absent <;> decide +kernel)

/-- Core 3 has three entries that fit core 0. -/
def stealable : State :=
  let s := starting named5
  { s with parts := s.parts.map (fun p => { p with cores := [0, 3, 17] }),
           cores := s.cores.modify 3 fun c => { c with pending := [⟨5, 0, 1, 1⟩, ⟨5, 0, 2, 2⟩, ⟨5, 0, 3, 3⟩] } }
/-- A workgroup of a lower priority has the core, and one under a drain bound. -/
def lowPipe : Pipeline := { named5 with handle := 1, prio := 1, stages := [{ stage with grid := 0 }] }
def preempting : State :=
  { occupied with parts := occupied.parts.map (fun q => { q with pipelines := [lowPipe, named5] }),
                  wgs := [{ trialWorkgroup 0 with id := 2, split := 2 }] }
def draining (n : Nat) : State :=
  { preempting with time := n, wgs := preempting.wgs.map fun w => { w with idem := true, verdict := .drain 1000 2 } }

/-- The core already has the request of a stage of the lower priority. -/
def asking : State := { preempting with cores := preempting.cores.modify 0 fun c => { c with request := some (1, 0, 1) } }

theorem witness_StealsAndVictims :
    (stealable.parts.find? fun p => p.cores.contains 0) = some (partAt stealable) ∧ (stealable.core 0).pending = [] ∧
    (stealOrder 0).find? (fun c => (partAt stealable).cores.contains c && decide (2 ≤ ((stealable.core c).pending.filter
      fun e => (stealable.stage? 0 e.handle e.stage).any fun st => stealable.fits 0 st []).length)) = some 3 ∧
    (preempting.parts.filter fun q => q.pipelines.any (·.handle == named5.handle)) = [partAt preempting] ∧
    (partAt preempting).cores = [0] ∧ preempting.fits 0 stage [] = false ∧
    preempting.startable 0 0 named5 0 stage = true ∧ (preempting.core 0).request = none ∧
    preempting.victims (partAt preempting) 0 named5 0 stage = some [wgOf preempting] ∧ preempting.wouldFit (partAt preempting) 0 named5 0 stage [] = false ∧
    stealable.idle (partAt stealable) 0 = true ∧ (wgOf preempting).verdict = .none ∧
    (∀ r, (asking.core 0).request = some r → r.2.2 < named5.prio ∧ (r.1 ≠ named5.handle ∨ r.2.1 ≠ 0)) ∧
    (asking.core 0).request = some (1, 0, 1) ∧ asking.victims (partAt asking) 0 named5 0 stage = some [wgOf asking] ∧
    named5.bound = 0 ∧ (wgOf (draining 5000)).verdict = .drain 1000 2 ∧ 1000 + 2000 * 2 ≤ (draining 5000).time := by
  repeat' apply And.intro
  all_goals decide +kernel

theorem witness_Preempting : StageAt preempting 0 (partAt preempting) named5 0 stage := stageAt_of (by decide +kernel)

/-- Workgroups to be saved, flushed, resumed and ended. -/
def leaving (v : Verdict) : State :=
  { preempting with wgs := preempting.wgs.map fun w =>
      { w with window := 0, ownsTiles := false, sbase := 0, verdict := v,
               threads := w.threads.map fun t => { t with status := .exited, group := none } } }
def probeOk (p : Probe) : Bool :=
  match p with
  | .ok => true
  | _ => false

theorem probe_of {p : Probe} (h : probeOk p = true) : p = .ok := by cases p <;> simp_all [probeOk]

theorem witness_Saves : (leaving .save).settled (wgOf (leaving .save)) = true ∧ (wgOf (leaving .save)).place = .resident ∧
    (leaving .save).probe (engineAgent 4 0 2) 0 0 { r := true, w := true } (fun _ => true) ((List.range 56).map fun k =>
      (0 + 0 * 229376 + k * 4096, 128)) = .ok ∧ (leaving .flush).settled (wgOf (leaving .flush)) = true ∧
    (leaving .none).ended (wgOf (leaving .none)) = true ∧ base.ended (wgOf base) = false := by
  refine ⟨?_, ?_, probe_of ?_, ?_, ?_, ?_⟩ <;> decide +kernel

theorem witness_SavePages : savePages (wgOf (leaving .save)) = 56 ∧
    ((wgOf (leaving .save)).threads.map fun x => (x.warp, x.lane)).Nodup ∧
    (leaving .save).probe (engineAgent 4 0 2) 0 0 { r := true, w := true } (fun _ => true) ((List.range (savePages (wgOf (leaving .save)))).map
      fun k => (0 + 0 * (56 * 4096) + k * 4096, 128)) = .ok := by
  refine ⟨?_, ?_, probe_of ?_⟩ <;> decide +kernel

/-- The core's request of a stage that fits nowhere, and one that is noted on another core. -/
theorem witness_Lacks : (starting named5).stageLacks 0 0 named5 stage = none ∧
    startingQueue.stageLacks 0 0 fromQueue queueStage = none ∧ stealable.idle (partAt stealable) 0 = true ∧
    (starting named5).wouldFit (partAt (starting named5)) 0 named5 0 stage [] = true ∧
    (∀ v ∈ startingQueue.wgs, v.id ≠ startingQueue.nextId) ∧
    (∀ c ∈ (partAt occupied).cores, occupied.fits c stage [] = false ∧ (c ≠ 0 → ∀ r, (occupied.core c).request = some r →
      r.1 ≠ named5.handle ∨ r.2.1 ≠ 0)) := by
  repeat' apply And.intro
  all_goals decide +kernel

def away (place : Place) : State :=
  { starting named5 with wgs := [{ trialWorkgroup 0 with
      id := 2, handle := 5, place := place, ownsTiles := false, marks := [4, 0, 2], window := 256,
      warps := (trialWorkgroup 0).warps.map (fun x => { x with role := 0 }),
      threads := (trialWorkgroup 0).threads.map fun t => { t with group := none, restart := some 0x2000 } }] }

theorem witness_Resumes : StageAt (away .saved) 0 (partAt (away .saved)) named5 0 stage ∧
    (away .saved).placeable (wgOf (away .saved)) = true ∧ (wgOf (away .saved)).mayResumeOn 0 = true ∧
    (away .saved).outputsFree 0 0 named5 stage = true ∧ ((away .saved).room 0 stage []).isSome = true ∧
    (away .saved).mayPlace (partAt (away .saved)) 0 named5 0 stage = true ∧ (away .saved).wg? 2 = some (wgOf (away .saved)) ∧
    (away .flushed).placeable (wgOf (away .flushed)) = true ∧ (wgOf (away .flushed)).mayResumeOn 0 = true ∧
    (∀ z ∈ (wgOf (away .flushed)).threads, z.restart = some stage.entry) ∧
    (∃ z ∈ (wgOf (away .saved)).threads, z.restart ≠ some 0x2004) := by
  refine ⟨stageAt_of ?_, ?_, ?_, ?_, ?_, ?_, ?_, ?_, ?_, ?_, ?_⟩ <;> decide +kernel

/-- A pipeline all of whose workgroups have ended, in a partition without cores. -/
def endedPipe : Pipeline := { named5 with stages := [{ stage with nextWg := 3 }] }
def finished : State :=
  let s := starting endedPipe
  { s with parts := s.parts.map fun p => { p with cores := [] } }

theorem witness_PipelineDone : finished.completionLacks 0 0 endedPipe = none ∧
    (away .saved).stageLacks 0 0 named5 stage = none ∧ (∀ c ∈ (partAt finished).cores, ∀ y ∈ (finished.core c).l1, y.isDirty = false) ∧
    finished.part? 0 = some (partAt finished) ∧ finished.pipeline? 0 5 = some endedPipe ∧
    finished.pipelineDone (partAt finished) endedPipe = true ∧ endedPipe.done % 8 = 0 ∧
    (finished.findLeaf 0 0 endedPipe.done).toOption = some trialLeaf ∧ finished.genOk trialLeaf 0x3000 = true ∧
    (starting named5).pipelineDone (partAt (starting named5)) named5 = false := by
  repeat' apply And.intro
  all_goals decide +kernel

theorem witness_DoneWord : Plain (finished.tlbInsert 0 0 trialLeaf) 0x3000 8 trialLeaf := by apply plain_of_absent <;> decide +kernel

/-! The hosts. -/

def booted (owner : Nat) : State :=
  { base with groups := [], host := { HostSide.reset with
      booted := true, sem := { seq := 7, owner := owner, leaseFrom := 0, lastLoser := 1 } } }
def connected (k : Nat) : State :=
  { base with host := { HostSide.reset with booted := true, measured := [(1, 11), (2, 12), (3, 13), (4, 14)], spdm := [(1, k)] } }

theorem witness_Hosts : (connected 3).spdmAt 1 = 3 ∧ (connected 0).spdmAt 1 < 1 ∧ (connected 2).spdmAt 1 < 3 ∧
    (0x82 : Nat).testBit 7 = true ∧ (0x82 : Nat).testBit 1 = true ∧ ((connected 3).host.measured.find? fun x => x.1 == 4) = some (4, 14) ∧
    (∀ m ∈ (connected 3).host.measured, m.1 ≠ 5) ∧
    (connected 3).part? 0 ≠ none ∧ base.host.booted = false ∧ (booted 0).host.sem.owner = 0 ∧
    (booted 2).host.sem.owner = 1 + 1 ∧ (booted 0).host.sem.lastLoser < 2 ∧
    ({ booted 1 with time := 21474836480 } : State).host.sem.leaseFrom + 20 * 1073741824 ≤ 21474836480 ∧
    (standing { booted 1 with time := 21474836480 }).owner = 0 ∧ (standing (booted 2)).owner = 2 ∧
    (standing (booted 0)).owner = 0 ∧ acceptsFeatures 0 (2 ^ 32) = true ∧ acceptsFeatures 0 1 = false ∧
    (base.functionView 0 0 0).isSome = true ∧ (base.functionView 0 1 9) = none ∧
    (booted 0).host.powerLimit < 4201 ∧ 1000 ≤ (booted 0).host.powerLimit := by
  refine ⟨?_, ?_, ?_, ?_, ?_, ?_, ?_, fun h => absurd (congrArg Option.isSome h) ?_, ?_, ?_, ?_, ?_, ?_, ?_, ?_, ?_, ?_, ?_, ?_, ?_, ?_, ?_⟩ <;>
    decide +kernel

def wanting : PartSpec :=
  { number := 1, cores := [1, 127], slices := [1], shares := [1, 2, 3], activates := 4, prioCeiling := 15, root := 0x100,
    fqBase := 0x7000, fqDepth := 8 }
def twoParts : State := ranOf (execCreatePartition 0 7 wanting (booted 1))
def lastPart (s : State) : Partition := s.parts.getLastD trialPartition
/-- Zarkin OS performs a command of port 0, or one of port 1 waits. -/
def performing (c : HostCommand) (busy : Bool) : State :=
  { booted 1 with host := { (booted 1).host with running := some (0, c) },
                  copies := if busy then [{ blankCopy with part := 0 }] else [] }
def commandWaits : State := { booted 1 with host := { (booted 1).host with waiting := [(1, 7, .destroy 0)] } }

theorem witness_Commands : (booted 1).canTake wanting = true ∧ (booted 1).part? 1 = none ∧ wanting.prioCeiling < 16 ∧
    twoParts.part? 1 = some (lastPart twoParts) ∧ (∀ q ∈ twoParts.parts, q.destroying = false) ∧
    (∀ q ∈ twoParts.parts, q.number = 1 → q = lastPart twoParts) ∧
    twoParts.canTake { wanting with cores := [5], slices := [9] } = true ∧
    (∃ c ∈ (lastPart twoParts).cores, c ∉ [1]) ∧ twoParts.strandsCohort (lastPart twoParts) [1] = false ∧
    (lastPart twoParts).shares.length = 3 ∧ 1 ≤ (lastPart twoParts).shares.getD 2 0 ∧
    (∀ v ∈ twoParts.wgs, ∀ w ∈ twoParts.wgs, v.id = w.id → v = w) ∧ twoParts.copies = [] ∧ twoParts.moves = [] ∧
    (performing (.destroy 0) true).quiet 0 = false ∧ (performing (.destroy 0) false).quiet 0 = true ∧
    (performing (.shrinkTier 0 1 0) false).usedOf 0 1 ≤ 0 * 2 ^ 26 ∧ commandWaits.host.running = none ∧
    twoParts.pinnedBytes 1 2 ≤ 0 * 2 ^ 26 ∧ twoParts.excess 1 2 0 ≤ twoParts.roomBeside 1 2 := by
  repeat' apply And.intro
  all_goals decide +kernel

theorem witness_Owner : Commands (booted 1) 0 7 ∧ Only twoParts (lastPart twoParts) ∧ Free twoParts ∧ ¬ Free commandWaits ∧
    Only (performing (.destroy 0) false) (partAt (performing (.destroy 0) false)) ∧
    ¬ OnCores twoParts (lastPart twoParts) [1] ∧ OnCores (booted 1) (partAt (booted 1)) [0] ∧ Free (booted 1) := by
  refine ⟨⟨?_, ?_, ?_, ?_⟩, ⟨?_, ?_⟩, ⟨?_, ?_⟩, fun h => absurd h.2 ?_, ⟨?_, ?_⟩, ?_, ?_, ⟨?_, ?_⟩⟩
  all_goals first | decide +kernel | (unfold OnCores; decide +kernel)

/-- A page of 64 GiB that must leave tier 1 finds no room in the shares given. -/
def shrinking (shares : List Nat) : State :=
  { tiering true [] with parts := (tiering true []).parts.map fun p => { p with shares := shares } }

theorem leaves_shrinking (xs : List Nat) : (shrinking xs).leaves 0 = [lowLeaf] :=
  (leavesFrom_congr (fun _ => rfl) 5 _ 0).trans leaves_lowered
theorem used_shrinking (xs : List Nat) : (shrinking xs).usedOf 0 0 = 0 ∧ (shrinking xs).usedOf 0 1 = lowLeaf.size ∧
    (shrinking xs).usedOf 0 2 = 0 := by
  have hm : (shrinking xs).moves = [] := rfl
  have ht : tierOf lowLeaf.pa = 1 := by decide
  simp [State.usedOf, State.framesOf, leaves_shrinking, hm, ht]
theorem excess_shrinking (xs : List Nat) : (shrinking xs).excess 0 1 0 = lowLeaf.size := by
  have hm : (shrinking xs).moves = [] := rfl
  simp [State.excess, hm, used_shrinking]
theorem sum_but_one (f : Nat → Nat) : (([0, 1, 2].filter (· != 1)).map f).sum = f 0 + f 2 := by simp
theorem roomBeside_one (s : State) (part : Nat) : s.roomBeside part 1 =
    (s.shareOf part 0 - s.usedOf part 0) + (s.shareOf part 2 - s.usedOf part 2) :=
  sum_but_one fun t => s.shareOf part t - s.usedOf part t
theorem room_shrinking (xs : List Nat) :
    (shrinking xs).roomBeside 0 1 = (shrinking xs).shareOf 0 0 + (shrinking xs).shareOf 0 2 := by
  rw [roomBeside_one, (used_shrinking xs).1, (used_shrinking xs).2.2, Nat.sub_zero, Nat.sub_zero]

theorem witness_Shrinks : (shrinking [0, 8192, 0]).roomBeside 0 1 < (shrinking [0, 8192, 0]).excess 0 1 0 ∧
    (shrinking [8192, 8192, 0]).excess 0 1 0 ≤ (shrinking [8192, 8192, 0]).roomBeside 0 1 ∧
    (shrinking [8192, 8192, 0]).pinnedBytes 0 1 ≤ 0 * 2 ^ 26 := by
  have hp : ((shrinking [8192, 8192, 0]).frame lowLeaf.pa).pins = 0 := by decide +kernel
  simp only [room_shrinking, excess_shrinking]
  refine ⟨by decide +kernel, by decide +kernel, ?_⟩
  simp [State.pinnedBytes, State.framesOf, leaves_shrinking, hp]

/-- Two cores, a workgroup on the one that goes. -/
def onTwoCores : State := { booted 1 with parts := (booted 1).parts.map fun p => { p with cores := [0, 3] } }
theorem witness_RemovesBusyCore : Only onTwoCores (partAt onTwoCores) ∧ OnCores onTwoCores (partAt onTwoCores) [0] ∧
    (∀ c ∈ [0], c ∈ (partAt onTwoCores).cores ∧ c < onTwoCores.cores.length) ∧ (∃ c ∈ (partAt onTwoCores).cores, c ∉ [0]) ∧
    onTwoCores.strandsCohort (partAt onTwoCores) [0] = false := by
  refine ⟨⟨?_, ?_⟩, ?_, ?_, ?_, ?_⟩
  all_goals first | decide +kernel | (unfold OnCores; decide +kernel)

def hostLaunchable (w8 : Nat) : State := { launchable w8 with host := (booted 0).host }

/-- A launch of a host whose descriptor lies where nothing is mapped. -/
def unreadable : State := { base with host := (booted 0).host }
def faultsAt (r : ReadDesc) : Bool :=
  match r with
  | .fault _ _ => true
  | _ => false
theorem faults_of {r : ReadDesc} (h : faultsAt r = true) : ∃ u x, r = .fault u x := by
  cases r with
  | waits s => simp [faultsAt] at h
  | fault s d => exact ⟨s, d, rfl⟩
  | ok u d => simp [faultsAt] at h

theorem witness_HostLaunchFault : ∃ u x, unreadable.readDescriptor (engineAgent 5 serviceCore 0) serviceCore 0 (2 ^ 40 : BitVec 64).toNat = .fault u x :=
  faults_of (by decide +kernel)

/-- The descriptor lies in the memory pool, and this package does not own it. -/
def pooled : State :=
  { hostLaunchable 0x7000001 with mem := Memory.setBytes (hostLaunchable 0x7000001).mem 0x82000 (leBytes 8 0x40000000230F) }
def waitsAt (r : ReadDesc) : Bool :=
  match r with
  | .waits _ => true
  | _ => false
theorem waits_of {r : ReadDesc} (h : waitsAt r = true) : ∃ u, r = .waits u := by
  cases r with
  | waits s => exact ⟨s, rfl⟩
  | fault s d => simp [waitsAt] at h
  | ok u d => simp [waitsAt] at h
theorem witness_HostLaunchWaits : ∃ u, pooled.readDescriptor (engineAgent 5 serviceCore 0) serviceCore 0 0x5000 = .waits u :=
  waits_of (by decide +kernel)

theorem witness_HostLaunch (refused : Bool) : let s := hostLaunchable (if refused then 0x7000009 else 0x7000001)
    ∃ u d p, s.readDescriptor (engineAgent 5 serviceCore 0) serviceCore 0 0x5000 = .ok u d ∧ u.part? 0 = some p ∧ (u.refusal p d).isSome = refused ∧
      u.parts = s.parts := by
  cases refused <;> exact reads_of (by decide +kernel)

/-- The service cores read a page through the package's tables. -/
def served : State := mapped base

theorem witness_ServiceCores : (served.findLeaf serviceCore 0 0x103).toOption = some { hugeLeaf with pref := 0 } ∧
    0x103 % 128 + 4 ≤ 128 ∧ served.genOk hugeLeaf 0x103 = true ∧ served.moves = [] := by
  repeat' apply And.intro
  all_goals decide +kernel

theorem witness_ServiceStores : served.serviceStores = [] ∧ hugeLeaf.vbase ≤ 0x103 ∧ hugeLeaf.cls = .priv ∧ tierOf 0x103 ≠ 2 ∧
    (0 : Nat) < 16 := by
  repeat' apply And.intro
  all_goals decide +kernel

/-- A store of service core 3 waits, then also a fence. -/
def storeWaiting (fence : Bool) : State :=
  { served with serviceStores := [{ id := 0, core := 3, part := 0, va := 0, bytes := [], release := true, fence := fence, sc := false }] }
theorem witness_ServiceFences : (∃ y ∈ (storeWaiting false).serviceStores, y.core = 3) ∧
    (∃ y ∈ (storeWaiting true).serviceStores, y.core = 3 ∧ y.fence = true) ∧
    (∀ y ∈ (storeWaiting true).serviceStores, y.core ≠ 4) := by decide +kernel

theorem witness_ServiceBytes : Plain (served.tlbInsert serviceCore 0 hugeLeaf) 0x103 4 hugeLeaf := by apply plain_of_absent <;> decide +kernel

theorem witness_Step : base.agenda = [] ∧ base.current = some lone ∧ base.fetchWaits 0 0 lone.pc = none ∧
    (base.fetchWord 0 (base.groupPart lone) lone.pc).toOption = some 0 ∧
    (base.translate 0 0 0x1000 { x := true }).toOption = some trialLeaf := by
  repeat' apply And.intro
  all_goals decide +kernel

/-! Two groups of one warp in one clk (R104): WMOV w1, w2 and WMOV w2, w1, major 7, func 8. -/

def second : Group := { lone with id := 1, pc := 0x1004, members := [{ wg := 0, warp := 0, lane := 1 }] }
def twoGroups : State :=
  let s := base.updWg 0 fun w => { w with
    threads := w.threads ++ w.threads.map (fun t => { t with lane := 1, group := some 1 }),
    warps := w.warps.map fun x => (x.setReg 1 10).setReg 2 20 }
  { s with groups := [lone, second], together := [true],
           mem := Memory.setBytes s.mem 0x1000 (wordBytes 0x1E022000 ++ wordBytes 0x1E041000) }

theorem witness_TwoGroupsInOneClk : twoGroups.together.headD false = true ∧ twoGroups.agenda = [] ∧
    twoGroups.current = some lone ∧ twoGroups.fetchWaits 0 0 lone.pc = none ∧
    (twoGroups.fetchWord 0 (twoGroups.groupPart lone) lone.pc).toOption = some 0x1E022000 ∧
    (match (twoGroups.beginClk 0 0).stepWord lone with
      | .next t => decide (t.current = some second) && t.atWreg second && (t.fetchWaits 0 0 second.pc).isNone
      | _ => false) = true := by
  repeat' apply And.intro
  all_goals decide +kernel

theorem test_two_moves_swap : (match twoGroups.stepClk lone with
    | .next t => (t.wgs.flatMap (·.warps)).map (fun x => (x.reg 1, x.reg 2, x.before.isSome)) == [(20, 10, false)]
    | _ => false) = true := by decide +kernel

theorem witness_StepTick : base.tick.agenda = [] ∧ (base.tick.current.map (·.pc)) = some lone.pc ∧
    base.tick.fetchWaits 0 0 lone.pc = none ∧ (base.tick.fetchWord 0 0 lone.pc).toOption = some 0 ∧
    ({ base with agenda := [.packageReset, .counterHalving] } : State).tick.agenda = [.packageReset, .counterHalving] ∧
    Instr.isEvent .counterHalving = true ∧ Instr.isEvent (.mrel ⟨0⟩) = false := by
  repeat' apply And.intro
  all_goals decide +kernel

theorem witness_StepFetch : base.engineCheck (fetchAgent 0 0 0x1000) 0 0x1000 trialLeaf false = .yes ∧
    Plain (base.tlbInsert 0 0 trialLeaf) 0x1000 4 trialLeaf ∧
    Claims.Standing base lone false := by
  refine ⟨rfl, ?_, ?_⟩
  · apply plain_of_absent <;> decide +kernel
  · unfold Claims.Standing; decide +kernel

theorem witness_Encoding : (Instr.iadd ⟨2, 1, 3, 0, false⟩).wf = true ∧ (Instr.iadd ⟨2, 1, 3, 0, false⟩).encode = some 0x00020430 ∧
    (Instr.arithmeticPrefix { mask := 1, z := true, rnd := 4, v4 := 63 }).wf = true ∧
    (Instr.memoryPrefix { scope := 2, order := 3, v4 := 63 }).wf = true := by decide

theorem reset_cells : CellsOk State.reset ∧ CellsOk base := by
  refine ⟨⟨by decide, by intro w hw; simp [State.reset] at hw⟩, ?_, ?_⟩ <;> decide +kernel

end Sys2Proof.Tests
namespace Sys2Proof.Tests

/-! ## Words: one of each constructor, its fields written out at the places that the encoding tables of spec/ give them -/

theorem decodes_Modifiers : ∀ p ∈ (
    [(0xFE6972FF, .clauseHeader ⟨9, 2652, 11, 15, true, true⟩), (0xF2680000, .hint ⟨9, 2, 2⟩),
     (0xF6BCDEF1, .immediateExtension ⟨45932273⟩), (0xF9E5A000, .arithmeticPrefix ⟨3, true, 4, 45⟩)] : List (Nat × Instr)),
    decodeTableWord 32 p.1 = some p.2 := by decide +kernel

theorem decodes_IntegerArithmetic : ∀ p ∈ (
    [(0x002D487B, .iadd ⟨45, 18, 7, 5, true⟩), (0x006D487B, .isub ⟨45, 18, 7, 5, true⟩),
     (0x00AD487B, .imul ⟨45, 18, 7, 5, true⟩), (0x00ED487B, .imulhs ⟨45, 18, 7, 5, true⟩),
     (0x012D487B, .imulhu ⟨45, 18, 7, 5, true⟩), (0x016D487B, .imins ⟨45, 18, 7, 5, true⟩),
     (0x01AD487B, .imaxs ⟨45, 18, 7, 5, true⟩), (0x01ED487B, .iminu ⟨45, 18, 7, 5, true⟩),
     (0x022D487B, .imaxu ⟨45, 18, 7, 5, true⟩), (0x026D487B, .iaddss ⟨45, 18, 7, 5, true⟩),
     (0x02AD487B, .isubss ⟨45, 18, 7, 5, true⟩)] : List (Nat × Instr)),
    decodeTableWord 32 p.1 = some p.2 := by decide +kernel

theorem decodes_IntegerImmediates : ∀ p ∈ (
    [(0x042D487B, .iaddI ⟨45, 18, 7, 5, true⟩), (0x046D487B, .isubI ⟨45, 18, 7, 5, true⟩),
     (0x04AD487B, .imulI ⟨45, 18, 7, 5, true⟩), (0x04ED487B, .imulhsI ⟨45, 18, 7, 5, true⟩),
     (0x052D487B, .imulhuI ⟨45, 18, 7, 5, true⟩), (0x056D487B, .iminsI ⟨45, 18, 7, 5, true⟩),
     (0x05AD487B, .imaxsI ⟨45, 18, 7, 5, true⟩), (0x05ED487B, .iminuI ⟨45, 18, 7, 5, true⟩),
     (0x062D487B, .imaxuI ⟨45, 18, 7, 5, true⟩), (0x066D487B, .iaddssI ⟨45, 18, 7, 5, true⟩),
     (0x06AD487B, .isubssI ⟨45, 18, 7, 5, true⟩)] : List (Nat × Instr)),
    decodeTableWord 32 p.1 = some p.2 := by decide +kernel

theorem decodes_Logic : ∀ p ∈ (
    [(0x082D487B, .and ⟨45, 18, 7, 5, true⟩), (0x086D487B, .or ⟨45, 18, 7, 5, true⟩),
     (0x08AD487B, .xor ⟨45, 18, 7, 5, true⟩), (0x08ED487B, .andn ⟨45, 18, 7, 5, true⟩),
     (0x092D487B, .orn ⟨45, 18, 7, 5, true⟩), (0x096D487B, .xnor ⟨45, 18, 7, 5, true⟩),
     (0x09AD487B, .shl ⟨45, 18, 7, 5, true⟩), (0x09ED487B, .shr ⟨45, 18, 7, 5, true⟩),
     (0x0A2D487B, .sar ⟨45, 18, 7, 5, true⟩), (0x0A6D487B, .rotl ⟨45, 18, 7, 5, true⟩),
     (0x0AAD487B, .rotr ⟨45, 18, 7, 5, true⟩)] : List (Nat × Instr)),
    decodeTableWord 32 p.1 = some p.2 := by decide +kernel

theorem decodes_LogicImmediates : ∀ p ∈ (
    [(0x0C2D487B, .andI ⟨45, 18, 7, 5, true⟩), (0x0C6D487B, .orI ⟨45, 18, 7, 5, true⟩),
     (0x0CAD487B, .xorI ⟨45, 18, 7, 5, true⟩), (0x0CED487B, .andnI ⟨45, 18, 7, 5, true⟩),
     (0x0D2D487B, .ornI ⟨45, 18, 7, 5, true⟩), (0x0D6D487B, .xnorI ⟨45, 18, 7, 5, true⟩),
     (0x0DAD487B, .shlI ⟨45, 18, 7, 5, true⟩), (0x0DED487B, .shrI ⟨45, 18, 7, 5, true⟩),
     (0x0E2D487B, .sarI ⟨45, 18, 7, 5, true⟩), (0x0E6D487B, .rotlI ⟨45, 18, 7, 5, true⟩),
     (0x0EAD487B, .rotrI ⟨45, 18, 7, 5, true⟩)] : List (Nat × Instr)),
    decodeTableWord 32 p.1 = some p.2 := by decide +kernel

theorem decodes_BitWords : ∀ p ∈ (
    [(0x102D480B, .popc ⟨45, 18, 5, true⟩), (0x106D480B, .clz ⟨45, 18, 5, true⟩),
     (0x10AD480B, .ctz ⟨45, 18, 5, true⟩), (0x10ED480B, .brev ⟨45, 18, 5, true⟩),
     (0x112D487B, .bfez ⟨45, 18, 7, 5, true⟩), (0x116D487B, .bfes ⟨45, 18, 7, 5, true⟩),
     (0x11AD487B, .bfi ⟨45, 18, 7, 5, true⟩), (0x11ED487B, .fshl ⟨45, 18, 7, 5, true⟩),
     (0x122D487B, .bsel ⟨45, 18, 7, 5, true⟩), (0x126D480B, .bswap ⟨45, 18, 5, true⟩)] : List (Nat × Instr)),
    decodeTableWord 32 p.1 = some p.2 := by decide +kernel

theorem decodes_MultiplyAdd : ∀ p ∈ (
    [(0x142D487B, .imad ⟨45, 18, 7, 5, true⟩), (0x146D487B, .imadhs ⟨45, 18, 7, 5, true⟩),
     (0x14AD487B, .imadhu ⟨45, 18, 7, 5, true⟩), (0x14EC486B, .imadw ⟨44, 18, 6, 5, true⟩),
     (0x152C487B, .imadws ⟨44, 18, 7, 5, true⟩), (0x156D487B, .isad ⟨45, 18, 7, 5, true⟩),
     (0x15AD487B, .idp4 ⟨45, 18, 7, 5, true⟩), (0x15ED487B, .idp4z ⟨45, 18, 7, 5, true⟩)] : List (Nat × Instr)),
    decodeTableWord 32 p.1 = some p.2 := by decide +kernel

theorem decodes_Moves : ∀ p ∈ (
    [(0x182D480B, .mov ⟨45, 18, 5, true⟩), (0x186D012B, .movi ⟨45, 18, 5, true⟩),
     (0x18AD487B, .sel ⟨45, 18, 7, 5, true⟩), (0x18ED480B, .sext8 ⟨45, 18, 5, true⟩),
     (0x192D480B, .sext16 ⟨45, 18, 5, true⟩), (0x196D480B, .zext8 ⟨45, 18, 5, true⟩),
     (0x19AD480B, .zext16 ⟨45, 18, 5, true⟩), (0x19EC486B, .add64 ⟨44, 18, 6, 5, true⟩),
     (0x1A2C486B, .sub64 ⟨44, 18, 6, 5, true⟩), (0x1A6C487B, .shl64 ⟨44, 18, 7, 5, true⟩),
     (0x1AAC487B, .shr64 ⟨44, 18, 7, 5, true⟩)] : List (Nat × Instr)),
    decodeTableWord 32 p.1 = some p.2 := by decide +kernel

theorem decodes_WarpRegisters : ∀ p ∈ (
    [(0x1C134D85, .wadd ⟨9, 20, 27, 5⟩), (0x1C534D85, .wsub ⟨9, 20, 27, 5⟩), (0x1C934D85, .wmul ⟨9, 20, 27, 5⟩),
     (0x1CD34D85, .wand ⟨9, 20, 27, 5⟩), (0x1D134D85, .wor ⟨9, 20, 27, 5⟩), (0x1D534D85, .wxor ⟨9, 20, 27, 5⟩),
     (0x1D934D85, .wshl ⟨9, 20, 27, 5⟩), (0x1DD34D85, .wshr ⟨9, 20, 27, 5⟩), (0x1E134005, .wmov ⟨9, 20, 5⟩),
     (0x1E5352BD, .wmovi ⟨9, 10839, 5⟩), (0x1E93400D, .v2w ⟨9, 20, true, 5⟩), (0x1ED34005, .w2v ⟨9, 20, 5⟩),
     (0x1F134DCD, .wlea ⟨9, 20, 27, 9, 5⟩)] : List (Nat × Instr)),
    decodeTableWord 32 p.1 = some p.2 := by decide +kernel

theorem decodes_Float : ∀ p ∈ (
    [(0x202D487B, .fadd ⟨45, 18, 7, 5, true⟩), (0x206D487B, .fsub ⟨45, 18, 7, 5, true⟩),
     (0x20AD487B, .fmul ⟨45, 18, 7, 5, true⟩), (0x20ED487B, .fmin ⟨45, 18, 7, 5, true⟩),
     (0x212D487B, .fmax ⟨45, 18, 7, 5, true⟩), (0x216D487B, .fminm ⟨45, 18, 7, 5, true⟩),
     (0x21AD487B, .fmaxm ⟨45, 18, 7, 5, true⟩), (0x21ED487B, .fcpysgn ⟨45, 18, 7, 5, true⟩),
     (0x222D480B, .fabs ⟨45, 18, 5, true⟩), (0x226D480B, .fneg ⟨45, 18, 5, true⟩),
     (0x22AD480B, .fsat ⟨45, 18, 5, true⟩)] : List (Nat × Instr)),
    decodeTableWord 32 p.1 = some p.2 := by decide +kernel

theorem decodes_Fused : ∀ p ∈ (
    [(0x242D487B, .ffma ⟨45, 18, 7, 5, true⟩), (0x246D487B, .ffms ⟨45, 18, 7, 5, true⟩),
     (0x24AD487B, .fnma ⟨45, 18, 7, 5, true⟩)] : List (Nat × Instr)),
    decodeTableWord 32 p.1 = some p.2 := by decide +kernel

theorem decodes_Packed : ∀ p ∈ (
    [(0x282D487B, .hadd2 ⟨45, 18, 7, 5, true⟩), (0x286D487B, .hmul2 ⟨45, 18, 7, 5, true⟩),
     (0x28AD487B, .hfma2 ⟨45, 18, 7, 5, true⟩), (0x28ED487B, .hmin2 ⟨45, 18, 7, 5, true⟩),
     (0x292D487B, .hmax2 ⟨45, 18, 7, 5, true⟩), (0x296D487B, .badd2 ⟨45, 18, 7, 5, true⟩),
     (0x29AD487B, .bmul2 ⟨45, 18, 7, 5, true⟩), (0x29ED487B, .bfma2 ⟨45, 18, 7, 5, true⟩),
     (0x2A2D487B, .bmin2 ⟨45, 18, 7, 5, true⟩), (0x2A6D487B, .bmax2 ⟨45, 18, 7, 5, true⟩)] : List (Nat × Instr)),
    decodeTableWord 32 p.1 = some p.2 := by decide +kernel

theorem decodes_Conversions : ∀ p ∈ (
    [(0x2C2D480B, .f2is ⟨45, 18, 5, true⟩), (0x2C6D480B, .f2iz ⟨45, 18, 5, true⟩),
     (0x2CAD480B, .is2f ⟨45, 18, 5, true⟩), (0x2CED480B, .iz2f ⟨45, 18, 5, true⟩),
     (0x2D2D487B, .f2h2 ⟨45, 18, 7, 5, true⟩), (0x2D6D480B, .h2fl ⟨45, 18, 5, true⟩),
     (0x2DAD480B, .h2fh ⟨45, 18, 5, true⟩), (0x2DED487B, .f2b2 ⟨45, 18, 7, 5, true⟩),
     (0x2E2D480B, .b2fl ⟨45, 18, 5, true⟩), (0x2E6D480B, .b2fh ⟨45, 18, 5, true⟩),
     (0x2EAD480B, .frnd ⟨45, 18, 5, true⟩), (0x2EED480B, .fclass ⟨45, 18, 5, true⟩),
     (0x2F2D480B, .fexp ⟨45, 18, 5, true⟩), (0x2F6D487B, .fldexp ⟨45, 18, 7, 5, true⟩)] : List (Nat × Instr)),
    decodeTableWord 32 p.1 = some p.2 := by decide +kernel

theorem decodes_SpecialFunctions : ∀ p ∈ (
    [(0x302D480B, .rcp ⟨45, 18, 5, true⟩), (0x306D480B, .rsq ⟨45, 18, 5, true⟩),
     (0x30AD480B, .sqrt ⟨45, 18, 5, true⟩), (0x30ED480B, .ex2 ⟨45, 18, 5, true⟩),
     (0x312D480B, .lg2 ⟨45, 18, 5, true⟩), (0x316D480B, .sint ⟨45, 18, 5, true⟩),
     (0x31AD480B, .cost ⟨45, 18, 5, true⟩), (0x31ED480B, .tanh ⟨45, 18, 5, true⟩),
     (0x322D480B, .logi ⟨45, 18, 5, true⟩)] : List (Nat × Instr)),
    decodeTableWord 32 p.1 = some p.2 := by decide +kernel

theorem decodes_CrossLane : ∀ p ∈ (
    [(0x382D487B, .shfi ⟨45, 18, 7, 5, true⟩), (0x386D487B, .shfu ⟨45, 18, 7, 5, true⟩),
     (0x38AD487B, .shfd ⟨45, 18, 7, 5, true⟩), (0x38ED487B, .shfx ⟨45, 18, 7, 5, true⟩),
     (0x392D480A, .qswx ⟨45, 18, 5⟩), (0x396D480A, .qswy ⟨45, 18, 5⟩), (0x39AD480A, .qswd ⟨45, 18, 5⟩),
     (0x39ED483B, .qbc ⟨45, 18, 3, 5, true⟩), (0x3A000C0A, .vany ⟨3, 5⟩), (0x3A400C0A, .vall ⟨3, 5⟩),
     (0x3AAD1800, .vbal ⟨45, 6⟩), (0x3AED480A, .matchX ⟨45, 18, 5⟩), (0x3B2D486B, .redi ⟨45, 18, 6, 5⟩),
     (0x3B6D482B, .redf ⟨45, 18, 2, 5⟩), (0x3BAD0031, .lmask ⟨45, 3⟩), (0x3BC0010B, .sgset ⟨16, 5⟩)] : List (Nat × Instr)),
    decodeTableWord 32 p.1 = some p.2 := by decide +kernel

theorem decodes_Compares : ∀ p ∈ (
    [(0x41065A95, .ceq ⟨1, 0, 1, 4, 45, 18, 5⟩), (0x45065A95, .cne ⟨1, 0, 1, 4, 45, 18, 5⟩),
     (0x48865A95, .clt ⟨0, 4, 1, 4, 45, 18, 5⟩), (0x4C665A95, .cle ⟨0, 3, 1, 4, 45, 18, 5⟩),
     (0x50465A95, .cgt ⟨0, 2, 1, 4, 45, 18, 5⟩), (0x54265A95, .cge ⟨0, 1, 1, 4, 45, 18, 5⟩),
     (0x59065A95, .ctany ⟨1, 0, 1, 4, 45, 18, 5⟩), (0x5D065A95, .ctnone ⟨1, 0, 1, 4, 45, 18, 5⟩)] : List (Nat × Instr)),
    decodeTableWord 32 p.1 = some p.2 := by decide +kernel

theorem decodes_PredicateLogic : ∀ p ∈ (
    [(0x601E200B, .pand ⟨3, 6, 1, 5, true⟩), (0x605E200B, .por ⟨3, 6, 1, 5, true⟩),
     (0x609E200B, .pxor ⟨3, 6, 1, 5, true⟩), (0x60DE200B, .pandn ⟨3, 6, 1, 5, true⟩),
     (0x611E000B, .pnot ⟨3, 6, 5, true⟩), (0x615E000B, .pmov ⟨3, 6, 5, true⟩),
     (0x6198100B, .pseti ⟨3, true, 5, true⟩)] : List (Nat × Instr)),
    decodeTableWord 32 p.1 = some p.2 := by decide +kernel

theorem decodes_Branches : ∀ p ∈ (
    [(0x642EC0DE, .bra ⟨5, true, 180446⟩), (0x646EC0DE, .call ⟨5, true, 180446⟩)] : List (Nat × Instr)),
    decodeTableWord 32 p.1 = some p.2 := by decide +kernel

theorem decodes_Control : ∀ p ∈ (
    [(0x6800B00B, .brx ⟨44, 5, true⟩), (0x6840B00B, .callx ⟨44, 5, true⟩), (0x6880000B, .ret ⟨5, true⟩),
     (0x68C0000B, .exit ⟨5, true⟩), (0x6900000B, .demote ⟨5, true⟩), (0x6940000B, .yield ⟨5, true⟩),
     (0x6980000B, .nop ⟨5, true⟩), (0x69C002DB, .bkpt ⟨45, 5, true⟩)] : List (Nat × Instr)),
    decodeTableWord 32 p.1 = some p.2 := by decide +kernel

theorem decodes_Loads : ∀ p ∈ (
    [(0x802DA24B, .ld8z ⟨45, 20, 18, false, 5, true⟩), (0x806DA24B, .ld8s ⟨45, 20, 18, false, 5, true⟩),
     (0x80ADA24B, .ld16z ⟨45, 20, 18, false, 5, true⟩), (0x80EDA24B, .ld16s ⟨45, 20, 18, false, 5, true⟩),
     (0x812DA24B, .ld32 ⟨45, 20, 18, false, 5, true⟩), (0x816CA24B, .ld64 ⟨44, 20, 18, false, 5, true⟩),
     (0x81ACA24B, .ld128 ⟨44, 20, 18, false, 5, true⟩), (0x81ECA24B, .ldf32 ⟨44, 20, 18, false, 5, true⟩),
     (0x822CA24B, .ldfb16 ⟨44, 20, 18, false, 5, true⟩)] : List (Nat × Instr)),
    decodeTableWord 32 p.1 = some p.2 := by decide +kernel

theorem decodes_Stores : ∀ p ∈ (
    [(0x842DA24A, .st8 ⟨45, 20, 18, false, 5⟩), (0x846DA24A, .st16 ⟨45, 20, 18, false, 5⟩),
     (0x84ADA24A, .st32 ⟨45, 20, 18, false, 5⟩), (0x84ECA24A, .st64 ⟨44, 20, 18, false, 5⟩),
     (0x852CA24A, .st128 ⟨44, 20, 18, false, 5⟩)] : List (Nat × Instr)),
    decodeTableWord 32 p.1 = some p.2 := by decide +kernel

theorem decodes_Scratchpad : ∀ p ∈ (
    [(0x882D024B, .lds32 ⟨45, 18, 5, true⟩), (0x886C024B, .lds64 ⟨44, 18, 5, true⟩),
     (0x88AC024B, .lds128 ⟨44, 18, 5, true⟩), (0x88ED024A, .sts32 ⟨45, 18, 5⟩), (0x892C024A, .sts64 ⟨44, 18, 5⟩),
     (0x896C024A, .sts128 ⟨44, 18, 5⟩), (0x89AD024B, .atsadd ⟨45, 18, 5, true⟩),
     (0x89ED024B, .atsmax ⟨45, 18, 5, true⟩)] : List (Nat × Instr)),
    decodeTableWord 32 p.1 = some p.2 := by decide +kernel

theorem decodes_Atomics : ∀ p ∈ (
    [(0x8C2DA24B, .aadd ⟨45, 20, 18, false, 5, true⟩), (0x8C6DA24B, .amins ⟨45, 20, 18, false, 5, true⟩),
     (0x8CADA24B, .amaxs ⟨45, 20, 18, false, 5, true⟩), (0x8CEDA24B, .aminz ⟨45, 20, 18, false, 5, true⟩),
     (0x8D2DA24B, .amaxz ⟨45, 20, 18, false, 5, true⟩), (0x8D6DA24B, .aand ⟨45, 20, 18, false, 5, true⟩),
     (0x8DADA24B, .aor ⟨45, 20, 18, false, 5, true⟩), (0x8DEDA24B, .axor ⟨45, 20, 18, false, 5, true⟩),
     (0x8E2DA24B, .aswp ⟨45, 20, 18, false, 5, true⟩), (0x8E6DA24B, .acas ⟨45, 20, 18, false, 5, true⟩),
     (0x8EADA24B, .aincw ⟨45, 20, 18, false, 5, true⟩), (0x8EEDA24B, .adecw ⟨45, 20, 18, false, 5, true⟩),
     (0x8F2DA24B, .afadd ⟨45, 20, 18, false, 5, true⟩), (0x8F6CA24B, .aadd64 ⟨44, 20, 18, false, 5, true⟩),
     (0x8FACA24B, .acas64 ⟨44, 20, 18, false, 5, true⟩), (0x8FECA24B, .aswp64 ⟨44, 20, 18, false, 5, true⟩)] : List (Nat × Instr)),
    decodeTableWord 32 p.1 = some p.2 := by decide +kernel

theorem decodes_Reductions : ∀ p ∈ (
    [(0x902DA24A, .radd ⟨45, 20, 18, false, 5⟩), (0x906DA24A, .rmins ⟨45, 20, 18, false, 5⟩),
     (0x90ADA24A, .rmaxs ⟨45, 20, 18, false, 5⟩), (0x90EDA24A, .rminz ⟨45, 20, 18, false, 5⟩),
     (0x912DA24A, .rmaxz ⟨45, 20, 18, false, 5⟩), (0x916DA24A, .rand ⟨45, 20, 18, false, 5⟩),
     (0x91ADA24A, .ror ⟨45, 20, 18, false, 5⟩), (0x91EDA24A, .rxor ⟨45, 20, 18, false, 5⟩),
     (0x922DA24A, .rswp ⟨45, 20, 18, false, 5⟩), (0x932DA24A, .rfadd ⟨45, 20, 18, false, 5⟩),
     (0x936CA24A, .radd64 ⟨44, 20, 18, false, 5⟩)] : List (Nat × Instr)),
    decodeTableWord 32 p.1 = some p.2 := by decide +kernel

theorem decodes_FencesAndCache : ∀ p ∈ (
    [(0x9401000A, .fence ⟨true, 5⟩), (0x94404DAA, .cflush ⟨9, 45, false, 5⟩), (0x94804DAA, .cwb ⟨9, 45, false, 5⟩),
     (0x94C04DAA, .cinv ⟨9, 45, false, 5⟩), (0x95004DAA, .pfl2 ⟨9, 45, false, 5⟩),
     (0x95404DAA, .pfl1 ⟨9, 45, false, 5⟩)] : List (Nat × Instr)),
    decodeTableWord 32 p.1 = some p.2 := by decide +kernel

theorem decodes_Quantising : ∀ p ∈ (
    [(0x982DA24B, .qst ⟨45, 20, 18, false, 5, true⟩), (0x986D000B, .qsel ⟨45, 5, true⟩),
     (0x98AD000B, .qerr ⟨45, 5, true⟩), (0x98EDA24B, .sbchk ⟨45, 20, 18, false, 5, true⟩),
     (0x992CA24B, .mta ⟨44, 20, 18, false, 5, true⟩)] : List (Nat × Instr)),
    decodeTableWord 32 p.1 = some p.2 := by decide +kernel

theorem decodes_Matrix : ∀ p ∈ (
    [(0xA000244A, .gang ⟨9, 4, 5⟩), (0xA06D50EB, .mmas ⟨45, 20, 1, true, 2, 5, true⟩),
     (0xA0AD50EB, .mmag ⟨45, 20, 1, true, 2, 5, true⟩), (0xA0C0003B, .acz ⟨3, 5, true⟩),
     (0xA12C481B, .acrd ⟨44, 18, 1, 5, true⟩), (0xA16C481B, .acwr ⟨44, 18, 1, 5, true⟩),
     (0xA1800C6B, .acst ⟨3, 6, 5, true⟩), (0xA1C00C6B, .acld ⟨3, 6, 5, true⟩), (0xA22D001A, .mprg ⟨45, true, 5⟩),
     (0xA240000A, .mrel ⟨5⟩)] : List (Nat × Instr)),
    decodeTableWord 32 p.1 = some p.2 := by decide +kernel

theorem decodes_Copies : ∀ p ∈ (
    [(0xA40319BA, .cpyin ⟨3, 6, 27, 5⟩), (0xA443014A, .cpyout ⟨3, 20, 5⟩), (0xA48319BA, .cpymc ⟨3, 6, 27, 5⟩),
     (0xA4C3014A, .cpyq2 ⟨3, 20, 5⟩), (0xA503500A, .ringdef ⟨3, 20, 5⟩), (0xA56D180B, .awaitf ⟨45, 6, 5, true⟩),
     (0xA5AD180A, .rels ⟨45, 6, 5⟩), (0xA5EC500A, .cpyst ⟨44, 20, 5⟩)] : List (Nat × Instr)),
    decodeTableWord 32 p.1 = some p.2 := by decide +kernel

theorem decodes_Rows : ∀ p ∈ (
    [(0xA803500A, .rowcpy ⟨3, 20, 5⟩), (0xA843500A, .rowfill ⟨3, 20, 5⟩), (0xA883500A, .rowand ⟨3, 20, 5⟩),
     (0xA8C3500A, .rowor ⟨3, 20, 5⟩), (0xA903500A, .rownot ⟨3, 20, 5⟩), (0xA94351BA, .rowmaj ⟨3, 20, 27, 5⟩),
     (0xA983500A, .rowsaxpy ⟨3, 20, 5⟩), (0xA9EC500A, .rowst ⟨44, 20, 5⟩)] : List (Nat × Instr)),
    decodeTableWord 32 p.1 = some p.2 := by decide +kernel

theorem decodes_Synchronising : ∀ p ∈ (
    [(0xAC09B40A, .bara ⟨9, 45, 5⟩), (0xAC49B40A, .barw ⟨9, 45, 5⟩), (0xACAD240A, .bars ⟨45, 9, 5⟩),
     (0xACED480B, .warm ⟨45, 18, 5, true⟩), (0xAD00000A, .wwait ⟨5⟩), (0xAD6D26CA, .waitv ⟨45, true, 1, 44, 5⟩),
     (0xAD80242A, .tlwait ⟨9, 2, 5⟩), (0xADEC001A, .tlrd ⟨44, 1, 5⟩), (0xAE00B40A, .sleep ⟨45, 5⟩)] : List (Nat × Instr)),
    decodeTableWord 32 p.1 = some p.2 := by decide +kernel

theorem decodes_Placement : ∀ p ∈ (
    [(0xB00951BA, .pin ⟨9, 20, 27, 5⟩), (0xB04951BA, .unpin ⟨9, 20, 27, 5⟩), (0xB08951BA, .taff ⟨9, 20, 27, 5⟩),
     (0xB0C951BA, .migr ⟨9, 20, 27, 5⟩), (0xB12D480B, .pgcnt ⟨45, 18, 5, true⟩), (0xB14951BA, .twin ⟨9, 20, 27, 5⟩),
     (0xB1AC480B, .tqry ⟨44, 18, 5, true⟩), (0xB1AC501B, .tqryOp ⟨44, 20, 5, true⟩)] : List (Nat × Instr)),
    decodeTableWord 32 p.1 = some p.2 := by decide +kernel

theorem decodes_Queues : ∀ p ∈ (
    [(0xB403128A, .enq ⟨3, 4, 40, 5⟩), (0xB46C100A, .stq ⟨44, 4, 5⟩), (0xB480000A, .idemb ⟨5⟩),
     (0xB4C0000A, .ideme ⟨5⟩), (0xB50351BA, .dlaunch ⟨3, 20, 27, 5⟩)] : List (Nat × Instr)),
    decodeTableWord 32 p.1 = some p.2 := by decide +kernel

theorem decodes_System : ∀ p ∈ (
    [(0xB80002DA, .trap ⟨45, 5⟩), (0xB86C400B, .sysc ⟨44, 16, 5, true⟩), (0xB880000A, .fcall ⟨5⟩),
     (0xB8C0000A, .rett ⟨5⟩), (0xB92D00FA, .s2v ⟨45, 15, 5⟩), (0xB9404A0A, .v2s ⟨18, 32, 5⟩),
     (0xB980B00A, .tlbi ⟨44, 5⟩)] : List (Nat × Instr)),
    decodeTableWord 32 p.1 = some p.2 := by decide +kernel
/-- A memory prefix is read so before a memory word (R42): scope 1, order 3, v4 45. -/
theorem decodes_MemoryPrefix : (decode 0xF9C5A000 0x80000000).toOption = some (.memoryPrefix ⟨1, 3, 45⟩) ∧
    (decode 0xF9C5A000 0x00000000).toOption = some (.arithmeticPrefix ⟨3, true, 0, 45⟩) := by decide +kernel

/-- Reserved majors and funcs, and fields that must be 0 or that name nothing, are refused (R28, R45). -/
theorem refuses_words : ∀ w ∈ ([0x34000000, 0x3C000000, 0x9C000000, 0xC0000000, 0xEC000000, 0x02C00000, 0x00020431, 0xFC000001,
    0x10000010, 0x14C10420, 0x81890190, 0xF8280000, 0xAC000000] : List Nat), decodeTableWord 32 w = none := by
  decide +kernel

/-! ## Ill-formed terms, one for each check of WellFormed -/

theorem wf_refuses : ∀ i ∈ ([.clauseHeader ⟨0, 0, 0, 0, false, false⟩, .clauseHeader ⟨1, 0, 12, 0, false, false⟩,
    .clauseHeader ⟨1, 0, 0, 14, false, false⟩, .arithmeticPrefix ⟨0, false, 5, 0⟩, .iadd ⟨0, 0, 0, 0, true⟩,
    .imadw ⟨1, 0, 0, 0, false⟩, .imadw ⟨0, 1, 0, 0, false⟩, .imadw ⟨0, 0, 1, 0, false⟩, .add64 ⟨0, 1, 0, 0, false⟩, .add64 ⟨0, 0, 1, 0, false⟩, .shl64 ⟨0, 1, 0, 0, false⟩,
    .qbc ⟨0, 0, 4, 0, true⟩, .redi ⟨0, 0, 8, 0⟩, .redf ⟨0, 0, 5, 0⟩, .lmask ⟨0, 6⟩, .sgset ⟨1, 0⟩,
    .ceq ⟨0, 0, 1, 1, 0, 0, 0⟩, .clt ⟨3, 0, 0, 0, 1, 0, 0⟩, .brx ⟨1, 0, false⟩, .ld8z ⟨0, 0, 1, true, 0, false⟩,
    .ld8z ⟨0, 1, 0, true, 0, false⟩, .ld64 ⟨1, 0, 0, false, 0, false⟩, .ld128 ⟨2, 0, 0, false, 0, false⟩,
    .st128 ⟨2, 0, 0, false, 0⟩, .lds64 ⟨1, 0, 0, false⟩, .sts128 ⟨2, 0, 0⟩, .mta ⟨1, 0, 0, false, 0, false⟩,
    .gang ⟨0, 1, 0⟩, .gang ⟨1, 0, 0⟩, .mmas ⟨0, 0, 0, false, 3, 0, false⟩, .mmag ⟨0, 31, 0, false, 0, 0, false⟩,
    .acrd ⟨2, 0, 0, 0, false⟩, .cpyst ⟨1, 0, 0⟩, .rowmaj ⟨0, 0, 0, 0⟩, .bara ⟨0, 0, 0⟩, .barw ⟨0, 1, 0⟩,
    .warm ⟨0, 1, 0, false⟩, .waitv ⟨0, false, 0, 2, 0⟩, .tlwait ⟨0, 3, 0⟩, .tlrd ⟨1, 0, 0⟩, .tqry ⟨1, 0, 0, false⟩,
    .tqryOp ⟨1, 0, 0, false⟩, .enq ⟨0, 5, 0, 0⟩, .enq ⟨0, 0, 4, 0⟩, .stq ⟨0, 5, 0⟩, .sysc ⟨0, 4, 0, false⟩,
    .s2v ⟨0, 38, 0⟩, .s2v ⟨1, 11, 0⟩, .v2s ⟨1, 32, 0⟩, .tlbi ⟨1, 0⟩] : List Instr), i.wf = false := by
  decide +kernel

/-! ## Steps -/

/-- The registers of the one thread after a step at a word, from a state with two registers set. -/
noncomputable def after1 (w : Nat) (a b : Word) : Answer :=
  step (withThread (fun t => (t.setReg 1 a).setReg 3 b) (State.reset.withFetchWord 32 w))
noncomputable def regAfter (w : Nat) (a b : Word) (n : Nat) : Word := (thOf (ranOf (after1 w a b))).reg n

theorem test_step_runs : goesOn (step (State.reset.withFetchWord 32 0)) = true ∧
    (thOf (ranOf (step (State.reset.withFetchWord 32 0)))).pc = 0x1004 := by decide +kernel

/-- IADD v2, v1, v3 wraps (R94). -/
theorem test_iadd_wraps : regAfter 0x00020430 0xFFFFFFFF 2 2 = 1 := by decide +kernel

/-- IMULHS v2, v1, v3 of two large negative numbers (R94). -/
theorem test_imulhs : regAfter 0x00C20430 0x80000000 0x80000000 2 = 0x40000000 := by decide +kernel

/-- SAR v2, v1, v3 by more than the width fills with the sign (R95). -/
theorem test_sar_far : regAfter 0x0A020430 0x80000001 40 2 = 0xFFFFFFFF := by decide +kernel

/-- IADDSS v2, v1, v3 saturates (R94). -/
theorem test_iaddss_saturates : regAfter 0x02420430 0x7FFFFFFF 1 2 = 0x7FFFFFFF := by decide +kernel

/-- CLZ v2, v1 (R96). -/
theorem test_clz : regAfter 0x10420400 0x00010000 0 2 = 15 := by decide +kernel

/-- FADD v2, v1, v3: 1 + 2^−24 is a tie to even (R111). -/
theorem test_fadd_tie : regAfter 0x20020430 0x3F800000 0x33800000 2 = 0x3F800000 := by decide +kernel

/-- FMUL v2, v1, v3 of 0 and infinity is the canonical NaN and raises NV (R110, R116). -/
theorem test_fmul_invalid : regAfter 0x20820430 0 0x7F800000 2 = 0x7FC00000 ∧
    (thOf (ranOf (after1 0x20820430 0 0x7F800000))).fpstat = 1 := by decide +kernel

/-- F2IS v2, v1 saturates (R121). -/
theorem test_f2is_saturates : regAfter 0x2C020400 0x4F800000 0 2 = 0x7FFFFFFF := by decide +kernel

/-- CLT.S32 p1, p2, v1, v3 (R73). -/
theorem test_clt_signed : (thOf (ranOf (after1 0x48050218 0xFFFFFFFF 1))).pred 1 = true ∧
    (thOf (ranOf (after1 0x48050218 0xFFFFFFFF 1))).pred 2 = false := by decide +kernel

/-- ST32 v1, [w0 + v3] performs where it says: 4 bytes at 0x2000, little-endian (R4, R162). -/
theorem test_st32 : let s := ranOf (after1 0x84810060 0x11223344 0x2000)
    let t := ranOf (exec (.storeAcknowledgement ((s.ops.map (·.id)).headD 0)) s)
    (t.coreBytes 0 0x1FFF 6) = [0, 0x44, 0x33, 0x22, 0x11, 0] := by decide +kernel

/-- A reserved opcode and an illegal field park their thread at the word (R28, R368). -/
theorem test_illegal : (thOf (ranOf (step (State.reset.withFetchWord 32 0x34000000)))).fcode = 0x01 ∧
    (thOf (ranOf (step (State.reset.withFetchWord 32 0x00020431)))).fcode = 0x02 ∧
    (thOf (ranOf (step (State.reset.withFetchWord 32 0x00020431)))).fpc = 0x1000 := by decide +kernel

/-- TRAP 5 parks the thread behind itself with its code in %finfo (R377). -/
theorem test_trap : (thOf (ranOf (step (State.reset.withFetchWord 32 0xB8000050)))).fcode = 0x40 ∧
    (thOf (ranOf (step (State.reset.withFetchWord 32 0xB8000050)))).finfo = 0x500 ∧
    (thOf (ranOf (step (State.reset.withFetchWord 32 0xB8000050)))).fpc = 0x1004 := by decide +kernel

/-- TLBI is privileged (R394). -/
theorem test_tlbi : (thOf (ranOf (after1 0xB9800000 0 0))).fcode = 0x05 := by decide +kernel

end Sys2Proof.Tests

end
end

