-- ==== Sys2Proof/Proofs/AgendaFrame.lean ====
section
/-!
Every part of the device's work keeps the agenda: a frame lemma for each function of the state.
-/

namespace Sys2Proof.Machine

/-! ## The state that a result carries; where it carries none, the one before -/

/-- The state that a register fill leaves. -/
def Filled.state : Filled → State
  | .ok s _ => s
  | .waits s => s
  | .fault s _ => s
@[simp] theorem Filled.state_ok (s : State) (bs : List Byte) : (.ok s bs : Filled).state = s := by rfl
@[simp] theorem Filled.state_waits (s : State) : (.waits s : Filled).state = s := by rfl
@[simp] theorem Filled.state_fault (s : State) (gen : BitVec 16) : (.fault s gen : Filled).state = s := by rfl

/-- The state that an access leaves. -/
def Performed.state : Performed → State
  | .done s _ _ => s
  | .waits s => s
  | .fault s _ => s
@[simp] theorem Performed.state_done (s : State) (bs : List Byte) (b : Bool) : (.done s bs b : Performed).state = s := by rfl
@[simp] theorem Performed.state_waits (s : State) : (.waits s : Performed).state = s := by rfl
@[simp] theorem Performed.state_fault (s : State) (d : FaultDetail) : (.fault s d : Performed).state = s := by rfl

/-- The state that the end of an operation leaves. -/
def Landed.state : Landed → State
  | .done s _ _ => s
  | .waits s => s
  | .fault s _ => s
@[simp] theorem Landed.state_done (s : State) (vals : List Word) (fp : BitVec 5) : (.done s vals fp : Landed).state = s := by rfl
@[simp] theorem Landed.state_waits (s : State) : (.waits s : Landed).state = s := by rfl
@[simp] theorem Landed.state_fault (s : State) (d : FaultDetail) : (.fault s d : Landed).state = s := by rfl

/-- The state that the fetch of columns leaves. -/
def Fetched.state : Fetched → State
  | .cols s _ => s
  | .waits s => s
  | .fault s _ => s
@[simp] theorem Fetched.state_cols (s : State) (cs : List (List FVal)) : (.cols s cs : Fetched).state = s := by rfl
@[simp] theorem Fetched.state_waits (s : State) : (.waits s : Fetched).state = s := by rfl
@[simp] theorem Fetched.state_fault (s : State) (d : FaultDetail) : (.fault s d : Fetched).state = s := by rfl

/-- The state that rows of a tile leave. -/
def RowsDone.state (s : State) : RowsDone → State
  | .done t => t
  | .waits _ => s
  | .fault t _ => t
@[simp] theorem RowsDone.state_done (s t : State) : (.done t : RowsDone).state s = t := by rfl
@[simp] theorem RowsDone.state_waits (s : State) (pa : Nat) : (.waits pa : RowsDone).state s = s := by rfl
@[simp] theorem RowsDone.state_fault (s t : State) (d : FaultDetail) : (.fault t d : RowsDone).state s = t := by rfl

/-- The state that units of a copy leave. -/
def CopyRun.state : CopyRun → State
  | .done s _ => s
  | .waits s _ => s
  | .fault s _ _ => s
@[simp] theorem CopyRun.state_done (s : State) (op : CopyOp) : (.done s op : CopyRun).state = s := by rfl
@[simp] theorem CopyRun.state_waits (s : State) (op : CopyOp) : (.waits s op : CopyRun).state = s := by rfl
@[simp] theorem CopyRun.state_fault (s : State) (op : CopyOp) (d : FaultDetail) : (.fault s op d : CopyRun).state = s := by rfl

/-- The state that a plan of the row engine leaves. -/
def Planned.state {α : Type} (s : State) : Planned α → State
  | .ok _ => s
  | .waits t => t
  | .fault _ => s
@[simp] theorem Planned.state_ok {α : Type} (s : State) (a : α) : (.ok a : Planned α).state s = s := by rfl
@[simp] theorem Planned.state_waits {α : Type} (s t : State) : (.waits t : Planned α).state s = t := by rfl
@[simp] theorem Planned.state_fault {α : Type} (s : State) (d : FaultDetail) : (.fault d : Planned α).state s = s := by rfl

/-- The state that an evaluation of a WAITV leaves. -/
def Evaluated.state : Evaluated → State
  | .done s _ => s
  | .waits s => s
  | .fault s _ => s
@[simp] theorem Evaluated.state_done (s : State) (met : Nat) : (.done s met : Evaluated).state = s := by rfl
@[simp] theorem Evaluated.state_waits (s : State) : (.waits s : Evaluated).state = s := by rfl
@[simp] theorem Evaluated.state_fault (s : State) (d : FaultDetail) : (.fault s d : Evaluated).state = s := by rfl

/-- The state that a request for pool ownership leaves. -/
def Acquired.state (s : State) : Acquired → State
  | .held => s
  | .waits t => t
  | .fault _ => s
@[simp] theorem Acquired.state_held (s : State) : (.held : Acquired).state s = s := by rfl
@[simp] theorem Acquired.state_waits (s t : State) : (.waits t : Acquired).state s = t := by rfl
@[simp] theorem Acquired.state_fault (s : State) (d : FaultDetail) : (.fault d : Acquired).state s = s := by rfl

/-- The state that a move of the device's own accord leaves. -/
def OwnMove.state (s : State) : OwnMove → State
  | .started t => t
  | .waits t => t
  | .barred => s
@[simp] theorem OwnMove.state_started (s t : State) : (.started t : OwnMove).state s = t := by rfl
@[simp] theorem OwnMove.state_waits (s t : State) : (.waits t : OwnMove).state s = t := by rfl
@[simp] theorem OwnMove.state_barred (s : State) : (.barred : OwnMove).state s = s := by rfl

/-- The state that the read of a launch descriptor leaves. -/
def ReadDesc.state : ReadDesc → State
  | .ok s _ => s
  | .waits s => s
  | .fault s _ => s
@[simp] theorem ReadDesc.state_ok (s : State) (d : Descriptor) : (.ok s d : ReadDesc).state = s := by rfl
@[simp] theorem ReadDesc.state_waits (s : State) : (.waits s : ReadDesc).state = s := by rfl
@[simp] theorem ReadDesc.state_fault (s : State) (d : FaultDetail) : (.fault s d : ReadDesc).state = s := by rfl

end Sys2Proof.Machine

namespace Sys2Proof.Proofs

open Sys2Proof Sys2Proof.Machine Sys2Proof.Laws

/-! ## How a change of the state is put together -/

@[simp] theorem ite_agenda (c : Prop) [Decidable c] (s t : State) :
    (if c then s else t).agenda = if c then s.agenda else t.agenda := apply_ite _ _ _ _

/-- A change made for each element of a list in turn keeps the agenda where each turn does. -/
@[simp] theorem foldl_agenda {α : Type} {f : State → α → State} (h : ∀ s x, (f s x).agenda = s.agenda) (l : List α)
    (s : State) : (l.foldl f s).agenda = s.agenda := by
  induction l generalizing s with
  | nil => rfl
  | cons x l ih => rw [List.foldl_cons, ih, h]

/-! ## Memory -/

@[simp] theorem mapFrame_agenda (s : State) (pa : Nat) (f : Frame → Frame) : (s.mapFrame pa f).agenda = s.agenda := by
  unfold State.mapFrame
  split <;> simp

@[simp] theorem updFrame_agenda (s : State) (pa base size : Nat) (f : Frame → Frame) :
    (s.updFrame pa base size f).agenda = s.agenda := by simp [State.updFrame]

@[simp] theorem countAccess_agenda (s : State) (pa n : Nat) (write : Bool) :
    (s.countAccess pa n write).agenda = s.agenda := by simp [State.countAccess]

@[simp] theorem noteFrame_agenda (s : State) (pa size part : Nat) : (s.noteFrame pa size part).agenda = s.agenda := by
  unfold State.noteFrame
  split <;> simp

@[simp] theorem logEvent_agenda (s : State) (kind source : Nat) : (s.logEvent kind source).agenda = s.agenda := by rfl

@[simp] theorem noteActivates_agenda (s : State) (stack part n : Nat) (row : Bool) :
    (s.noteActivates stack part n row).agenda = s.agenda := by rfl

@[simp] theorem demandActivate_agenda (s : State) (pa : Nat) : (s.demandActivate pa).agenda = s.agenda := by rfl

@[simp] theorem unclear_agenda (s : State) (pa : Nat) (fold : BitVec 16) (open_ : Bool) :
    (s.unclear pa fold open_).agenda = s.agenda := by simp [State.unclear]

@[simp] theorem tierWrite_agenda (s : State) (pa : Nat) (bs : List Byte) (fold : BitVec 16) (open_ : Bool) :
    (s.tierWrite pa bs fold open_).agenda = s.agenda := by
  simp only [State.tierWrite]
  (repeat' split) <;> simp

@[simp] theorem noteCorrection_agenda (s : State) (u : Nat) :
    (s.noteCorrection u).agenda = s.agenda := by simp [State.noteCorrection]

@[simp] theorem correctUnits_agenda (s : State) (units : List Nat) (one : Nat) (fold : BitVec 16) (open_ : Bool)
    (good : Nat → Bool) :
    (s.correctUnits units one fold open_ good).agenda = s.agenda := by simp [State.correctUnits]

@[simp] theorem stampUnit_agenda (s : State) (u : Nat) (fold : BitVec 16) (open_ bad : Bool) :
    (s.stampUnit u fold open_ bad).agenda = s.agenda := by rfl

@[simp] theorem l2Store_agenda (s : State) (n : Nat) (x : L2Sector) :
    (s.l2Store n x).agenda = s.agenda := by simp [State.l2Store]

@[simp] theorem l2WriteBack_agenda (s : State) (n : Nat) : (s.l2WriteBack n).agenda = s.agenda := by
  unfold State.l2WriteBack
  split <;> simp

@[simp] theorem l2Drop_agenda (s : State) (n : Nat) : (s.l2Drop n).agenda = s.agenda := by rfl

@[simp] theorem l2Leave_agenda (s : State) (n : Nat) : (s.l2Leave n).agenda = s.agenda := by simp [State.l2Leave]

@[simp] theorem l2Evict_agenda (s : State) (line : Nat) : (s.l2Evict line).agenda = s.agenda :=
  foldl_agenda (fun s k => by split <;> simp) _ s

@[simp] theorem l2Room_agenda (s : State) (n : Nat) : (s.l2Room n).agenda = s.agenda := by simp [State.l2Room]

@[simp] theorem l2Fill_agenda (s : State) (n : Nat) (fold : BitVec 16) (open_ : Bool) :
    (s.l2Fill n fold open_).agenda = s.agenda := by
  unfold State.l2Fill
  split <;> simp

@[simp] theorem l2Write_agenda (s : State) (pa : Nat) (bs : List Byte) (fold : BitVec 16) (open_ : Bool) :
    (s.l2Write pa bs fold open_).agenda = s.agenda := by simp [State.l2Write]

@[simp] theorem l2Patch_agenda (s : State) (pa : Nat) (bs : List Byte) :
    (s.l2Patch pa bs).agenda = s.agenda := by simp [State.l2Patch]

@[simp] theorem l1WriteUnit_agenda (s : State) (l : L1Line) (k : Nat) :
    (s.l1WriteUnit l k).agenda = s.agenda := by simp [State.l1WriteUnit]

@[simp] theorem l1WriteBack_agenda (s : State) (n line : Nat) : (s.l1WriteBack n line).agenda = s.agenda := by
  unfold State.l1WriteBack
  split <;> simp

@[simp] theorem l1Drop_agenda (s : State) (n line : Nat) : (s.l1Drop n line).agenda = s.agenda := by rfl

@[simp] theorem l1Renew_agenda (s : State) (n line : Nat) (gen : BitVec 16) :
    (s.l1Renew n line gen).agenda = s.agenda := by
  unfold State.l1Renew
  split <;> simp

@[simp] theorem l1Trim_agenda (s : State) (n k : Nat) : (s.l1Trim n k).agenda = s.agenda :=
  foldl_agenda (fun s _ => by split <;> simp) _ s

@[simp] theorem l1Room_agenda (s : State) (n line : Nat) : (s.l1Room n line).agenda = s.agenda := by simp [State.l1Room]

@[simp] theorem l1Fill_agenda (s : State) (n line : Nat) (l : Leaf) :
    (s.l1Fill n line l).agenda = s.agenda := by simp [State.l1Fill]

@[simp] theorem l1Write_agenda (s : State) (n pa : Nat) (bs : List Byte) (leaf : Leaf) (dirty : Bool) :
    (s.l1Write n pa bs leaf dirty).agenda = s.agenda := by
  simp only [State.l1Write]
  (repeat' split) <;> simp

@[simp] theorem l1WriteBackAll_agenda (s : State) (n : Nat) :
    (s.l1WriteBackAll n).agenda = s.agenda := by simp [State.l1WriteBackAll]

@[simp] theorem l1Discard_agenda (s : State) (n : Nat) : (s.l1Discard n).agenda = s.agenda := by rfl

@[simp] theorem invalidateOthers_agenda (s : State) (n line : Nat) :
    (s.invalidateOthers n line).agenda = s.agenda := by rfl

@[simp] theorem triggerWhere_agenda (s : State) (hit : Workgroup → Watch → Bool) :
    (s.triggerWhere hit).agenda = s.agenda := by rfl

@[simp] theorem triggerWatches_agenda (s : State) (line : Nat) (coh : Bool) :
    (s.triggerWatches line coh).agenda = s.agenda := by rfl

/-! ## Translate -/

@[simp] theorem tlbInsert_agenda (s : State) (core part : Nat) (l : Leaf) :
    (s.tlbInsert core part l).agenda = s.agenda := by simp [State.tlbInsert]

@[simp] theorem tlbDrop_agenda (s : State) (core part va : Nat) : (s.tlbDrop core part va).agenda = s.agenda := by rfl

@[simp] theorem setGranule_agenda (s : State) (pa : Nat) (f : Granule → Granule) :
    (s.setGranule pa f).agenda = s.agenda := by
  unfold State.setGranule
  split <;> simp

@[simp] theorem requestPool_agenda (s : State) (pa : Nat) (write : Bool) :
    (s.requestPool pa write).agenda = s.agenda := by simp [State.requestPool]

@[simp] theorem holdPool_agenda (s : State) (who : List Nat) (pa : Nat) (write : Bool) :
    (s.holdPool who pa write).agenda = s.agenda := by simp [State.holdPool]

@[simp] theorem fetchTlb_agenda (s : State) (core part : Nat) (va : DWord) :
    (s.fetchTlb core part va).agenda = s.agenda := by
  unfold State.fetchTlb
  (repeat' split) <;> simp

/-! ## Ops -/

@[simp] theorem raise_agenda (s : State) (r : TRef) (d : FaultDetail) (site : Site) :
    (s.raise r d site).agenda = s.agenda := by rfl

@[simp] theorem raiseAll_agenda (s : State) (g : Group) (d : FaultDetail) (pc : DWord) :
    (s.raiseAll g d pc).agenda = s.agenda := by rfl

@[simp] theorem settle_agenda (s : State) (id : Nat) : (s.settle id).agenda = s.agenda := by
  unfold State.settle
  split <;> simp

@[simp] theorem rangeFaults_agenda (s : State) (g : Group) (w : WordRule) (regs : List Nat) :
    (s.rangeFaults g w regs).agenda = s.agenda := by rfl

theorem peek_agenda (s : State) (core part : Nat) (va : DWord) (n : Nat) :
    (s.peek core part va n).state.agenda = s.agenda := by
  unfold State.peek
  dsimp only
  (repeat' split) <;> simp

@[simp] theorem countFill_agenda (s : State) (core : Nat) : (s.countFill core).agenda = s.agenda := by rfl

@[simp] theorem fillReg_agenda (s : State) (g : Group) (r : TRef) (n : Nat) : (s.fillReg g r n).agenda = s.agenda := by
  unfold State.fillReg
  split
  · next w t _ _ =>
    have h := peek_agenda s w.core w.part (BitVec.ofNat 64 (w.homeOf r.warp r.lane n)) 4
    dsimp only
    generalize s.peek _ _ _ _ = x at h ⊢
    cases x <;> simp_all
  · rfl

@[simp] theorem fillFor_agenda (s : State) (g : Group) (rs : List TRef) (acts : Thread → Bool) (srcs : List Nat) :
    (s.fillFor g rs acts srcs).agenda = s.agenda :=
  foldl_agenda (fun s r => by split <;> simp) _ s

@[simp] theorem fillSources_agenda (w : WordRule) (acts : Thread → Bool) (srcs : List Nat) (g : Group) (s : State) :
    (fillSources w acts srcs g s).agenda = s.agenda := by simp [fillSources]

@[simp] theorem finishOp_agenda (s : State) (o : PendingOp) (vals : List Word) (fp : BitVec 5) (keep : Nat) :
    (s.finishOp o vals fp keep).agenda = s.agenda := by rfl

@[simp] theorem taintActing_agenda (s : State) (g : Group) (acts : Thread → Bool) :
    (s.taintActing g acts).agenda = s.agenda := by rfl

@[simp] theorem postRecord_agenda (s : State) (r : FaultRecord) : (s.postRecord r).agenda = s.agenda := by rfl

@[simp] theorem formRecord_agenda (s : State) (core : Nat) : (s.formRecord core).agenda = s.agenda := by
  unfold State.formRecord
  split <;> simp

@[simp] theorem reportRecord_agenda (s : State) (r : FaultRecord) :
    (s.reportRecord r).agenda = s.agenda := by simp [State.reportRecord]

@[simp] theorem queueThread_agenda (s : State) (w : Workgroup) (t : Thread) (hfail : Bool) :
    (s.queueThread w t hfail).agenda = s.agenda := by rfl

@[simp] theorem handlerFails_agenda (s : State) (w : Workgroup) (t : Thread) :
    (s.handlerFails w t).agenda = s.agenda := by simp [State.handlerFails]

@[simp] theorem tryHandler_agenda (s : State) (w : Workgroup) (t : Thread) : (s.tryHandler w t).agenda = s.agenda := by
  unfold State.tryHandler
  split <;> simp

@[simp] theorem trapEntry_agenda (s : State) (w : Workgroup) (t : Thread) :
    (s.trapEntry w t).agenda = s.agenda := by simp [State.trapEntry]

@[simp] theorem rett_agenda (s : State) (g : Group) (w : Workgroup) (t : Thread) :
    (s.rett g w t).agenda = s.agenda := by
  unfold State.rett
  (repeat' split) <;> simp

/-! ## WarpRegs -/

/-! ## Sfu -/

@[simp] theorem issueOps_agenda (s : State) (g : Group) (acts : Thread → Bool) (fs : Option Bool)
    (mk : TRef → Thread → OpKind × Nat × Nat) : (s.issueOps g acts fs mk).agenda = s.agenda :=
  foldl_agenda (fun s r => by split <;> simp) _ s

/-! ## Barrier -/

@[simp] theorem arrive_agenda (fuel : Nat) (s : State) (r : TRef) (b cnt : Nat) (wait : Bool) (site : Site) :
    (s.arrive fuel r b cnt wait site).agenda = s.agenda := by
  induction fuel generalizing s r b cnt wait site with
  | zero => rfl
  | succ fuel ih =>
    unfold State.arrive
    split
    · rfl
    · split
      · simp
      · split
        · simp
        · dsimp only
          split
          · simp
          · refine (foldl_agenda (fun s t => ?_) _ _).trans (by simp)
            split
            · split <;> simp [ih]
            · rfl

@[simp] theorem applyHeld_agenda (s : State) (wg b : Nat) : (s.applyHeld wg b).agenda = s.agenda :=
  foldl_agenda (fun s t => by split <;> simp) _ s

@[simp] theorem recountB0_agenda (s : State) (wg : Nat) : (s.recountB0 wg).agenda = s.agenda := by
  unfold State.recountB0
  split <;> simp

@[simp] theorem barrierStall_agenda (s : State) (wg b : Nat) : (s.barrierStall wg b).agenda = s.agenda := by
  unfold State.barrierStall
  split <;> simp

/-! ## CrossLane -/

@[simp] theorem joinHeld_agenda (g : Group) (s : State) : (joinHeld g s).agenda = s.agenda := by rfl

/-! ## Access -/

@[simp] theorem orderActions_agenda (s : State) (core order scope : Nat) :
    (s.orderActions core order scope).agenda = s.agenda := by simp [State.orderActions]

@[simp] theorem fenceStep_agenda (s : State) (f : PendingOp) : (s.fenceStep f).agenda = s.agenda := by
  unfold State.fenceStep
  split <;> simp

@[simp] theorem retireFences_agenda (s : State) : (s.retireFences).agenda = s.agenda := by simp [State.retireFences]

@[simp] theorem reject_agenda (s : State) (core part : Nat) (a : Access) (c : BitVec 8) :
    (s.reject core part a c).state.agenda = s.agenda := by simp [State.reject]

@[simp] theorem readData_agenda (s : State) (core : Nat) (a : Access) :
    (s.readData core a).state.agenda = s.agenda := by
  unfold State.readData
  dsimp only
  (repeat' split) <;> simp

@[simp] theorem performRead_agenda (s : State) (core part : Nat) (a : Access) :
    (s.performRead core part a).state.agenda = s.agenda := by
  unfold State.performRead
  split <;> simp

@[simp] theorem landBytes_agenda (s : State) (core pa : Nat) (bs : List Byte) (l : Leaf) :
    (s.landBytes core pa bs l).agenda = s.agenda := by
  unfold State.landBytes
  split <;> simp

@[simp] theorem showStore_agenda (s : State) (core : Nat) (o : PendingOp) (a : Access) (bs : List Byte) :
    (s.showStore core o a bs).agenda = s.agenda := by simp [State.showStore]

@[simp] theorem performWrite_agenda (s : State) (core part : Nat) (a : Access) (bs : List Byte) :
    (s.performWrite core part a bs).state.agenda = s.agenda := by
  unfold State.performWrite
  split <;> simp

@[simp] theorem atomData_agenda (s : State) (core : Nat) (a : Access) :
    (s.atomData core a).state.agenda = s.agenda := by
  unfold State.atomData
  dsimp only
  (repeat' split) <;> simp

@[simp] theorem performAtomic_agenda (s : State) (core part : Nat) (a : Access) (f : List Byte → Option (List Byte)) :
    (s.performAtomic core part a f).state.agenda = s.agenda := by
  unfold State.performAtomic
  split
  · simp
  · simp
  · have h := atomData_agenda s core a
    dsimp only
    generalize s.atomData core a = x at h ⊢
    cases x with
    | done t old _ => dsimp only; split <;> simp_all
    | waits t => exact h
    | fault t d => exact h

@[simp] theorem failOp_agenda (s : State) (o : PendingOp) (d : FaultDetail) : (s.failOp o d).agenda = s.agenda :=
  (foldl_agenda (fun _ _ => updThread_agenda ..) _ _).trans (dropOp_agenda s o)

@[simp] theorem impreciseRecord_agenda (s : State) (o : PendingOp) (d : FaultDetail) :
    (s.impreciseRecord o d).agenda = s.agenda := by
  unfold State.impreciseRecord
  (repeat' split) <;> simp

@[simp] theorem countLatency_agenda (s : State) (core issued : Nat) :
    (s.countLatency core issued).agenda = s.agenda := by rfl

@[simp] theorem settleLoad_agenda (s : State) (core : Nat) (o : PendingOp) (beyond : Bool) :
    (s.settleLoad core o beyond).agenda = s.agenda := by simp [State.settleLoad]

@[simp] theorem issueAccess_agenda (s : State) (g : Group) (r : TRef) (fs : Option Bool) (word : Nat) (va : DWord)
    (n : Nat) (need : Rights) (order scope : Nat) (mk : Access → OpKind) (dst ndst : Nat) :
    (s.issueAccess g r fs word va n need order scope mk dst ndst).agenda = s.agenda := by
  simp only [State.issueAccess]
  (repeat' split) <;> simp

/-- What is done for each acting member in turn keeps the agenda where each turn does. -/
@[simp] theorem eachActing_agenda (s : State) (g : Group) (acts : Thread → Bool) {f : Nat → TRef → Thread → State → State}
    (h : ∀ k r t s, (f k r t s).agenda = s.agenda) : (s.eachActing g acts f).agenda = s.agenda :=
  foldl_agenda (fun s r => by split <;> simp [h]) _ s

/-! ## EngineAccess -/

@[simp] theorem engineReadPiece_agenda (s : State) (who : List Nat) (core part : Nat) (fmt : Nat → Bool) (p : Nat × Nat) :
    (s.engineReadPiece who core part fmt p).state.agenda = s.agenda := by
  unfold State.engineReadPiece
  dsimp only
  (repeat' split) <;> simp

@[simp] theorem engineReadFrom_agenda (s : State) (who : List Nat) (core part : Nat) (fmt : Nat → Bool)
    (ps : List (Nat × Nat)) (acc : List Byte) :
    (s.engineReadFrom who core part fmt ps acc).state.agenda = s.agenda := by
  induction ps generalizing s acc with
  | nil => simp [State.engineReadFrom]
  | cons p ps ih =>
    have h := engineReadPiece_agenda s who core part fmt p
    unfold State.engineReadFrom
    generalize s.engineReadPiece who core part fmt p = x at h ⊢
    cases x with
    | done t bs _ => exact (ih t _).trans h
    | waits t => exact h
    | fault t d => exact h

@[simp] theorem engineRead_agenda (s : State) (who : List Nat) (core part va n : Nat) (fmt : Nat → Bool) :
    (s.engineRead who core part va n fmt).state.agenda = s.agenda := engineReadFrom_agenda ..

@[simp] theorem engineWritePiece_agenda (s : State) (core part : Nat) (va : DWord) (bs : List Byte) :
    (s.engineWritePiece core part va bs).agenda = s.agenda := by
  unfold State.engineWritePiece
  split <;> simp

@[simp] theorem engineWrite_agenda (s : State) (core part : Nat) (va : Nat) (bs : List Byte) :
    (s.engineWrite core part va bs).agenda = s.agenda := by simp [State.engineWrite]

/-! ## LoadStore -/

@[simp] theorem landed_state (p : Performed) (vals : List Byte → List Word) : (p.landed vals).state = p.state := by
  cases p <;> rfl

@[simp] theorem landDecode_agenda (s : State) (core part func : Nat) (o : PendingOp) (a e : Access) :
    (s.landDecode core part func o a e).state.agenda = s.agenda := by
  unfold State.landDecode
  dsimp only
  split
  · simp
  · simp
  · simp
  · simp
  · have he := readData_agenda s core e
    generalize s.readData core e = x at he ⊢
    cases x with
    | done t es b =>
      have ha := readData_agenda t core a
      dsimp only
      generalize t.readData core a = y at ha ⊢
      cases y with
      | done u bs b' => dsimp only; split <;> simp_all
      | waits u => simp_all [Performed.landed]
      | fault u d => simp_all [Performed.landed]
    | waits t => simp_all [Performed.landed]
    | fault t d => simp_all [Performed.landed]

@[simp] theorem landLoad_agenda (s : State) (o : PendingOp) (func : Nat) (a : Access) (entry : Option Access) :
    (s.landLoad o func a entry).state.agenda = s.agenda := by
  unfold State.landLoad
  cases entry with
  | some e => simp
  | none =>
    have h := performRead_agenda s (s.opCore o) (s.opPart o) a
    dsimp only
    generalize s.performRead _ _ a = x at h ⊢
    cases x <;> simp_all [Performed.landed]

@[simp] theorem complete_agenda {s : State} (o : PendingOp) (keep : Nat) {r : Landed} (h : r.state.agenda = s.agenda) :
    (s.complete o keep r).agenda = s.agenda := by
  cases r <;> simp_all [State.complete]

@[simp] theorem spillReg_agenda (s : State) (r : TRef) (n : Nat) : (s.spillReg r n).agenda = s.agenda := by
  unfold State.spillReg
  split
  · next w t _ _ =>
    dsimp only
    split
    · simp
    · next l _ =>
      have h := performWrite_agenda s w.core w.part (mkAccess (BitVec.ofNat 64 (w.homeOf r.warp r.lane n)) 4 l 0 0)
        (leBytes 4 (t.reg n).toNat)
      generalize s.performWrite _ _ _ _ = x at h ⊢
      cases x <;> simp_all
  · rfl

@[simp] theorem landAtom_agenda (s : State) (o : PendingOp) (func : Nat) (a : Access) (x c : DWord) (helper : Bool) :
    (s.landAtom o func a x c helper).state.agenda = s.agenda := by
  unfold State.landAtom
  dsimp only
  split
  · simp
  · have h := performAtomic_agenda s (s.opCore o) (s.opPart o) a
      fun bs => ((atomOp func (bytesToDWord bs) x c).1).map fun v => leBytes (atomSize func) v.toNat
    generalize s.performAtomic _ _ a _ = y at h ⊢
    cases y <;> exact h

@[simp] theorem cacheAct_agenda (s : State) (core func : Nat) (a : Access) :
    (s.cacheAct core func a).agenda = s.agenda := by
  unfold State.cacheAct
  split <;> simp

theorem landStore_agenda {s : State} {o : PendingOp} {r : Landed} (h : s.landStore o = some r) :
    r.state.agenda = s.agenda := by
  unfold State.landStore at h
  dsimp only at h
  split at h
  · cases h; simp
  · cases h; simp
  · cases h; simp
  · cases h

@[simp] theorem settleStore_agenda {s : State} (o : PendingOp) {r : Landed} (h : r.state.agenda = s.agenda) :
    (s.settleStore o r).agenda = s.agenda := by
  cases r <;> simp_all [State.settleStore]

theorem ackStore_agenda {s : State} (o : PendingOp) {r : Landed} (h : r.state.agenda = s.agenda) :
    (s.ackStore o r).agenda = s.agenda := by
  unfold State.ackStore
  (repeat' split) <;> simp_all

@[simp] theorem serviceStore_agenda (s : State) (x : ServiceStore) {ending : State → State}
    (h : (ending s).agenda = s.agenda) : (s.serviceStore x ending).agenda = s.agenda := by
  unfold State.serviceStore
  dsimp only
  (repeat' split) <;> simp [h]

@[simp] theorem serviceResume_agenda (s : State) (x : ServiceStore) :
    (s.serviceResume x).agenda = s.agenda := by simp [State.serviceResume]

@[simp] theorem landSpad_agenda (s : State) (wg func a : Nat) (x : Word) (helper : Bool) :
    (s.landSpad wg func a x helper).1.agenda = s.agenda := by
  unfold State.landSpad
  dsimp only
  (repeat' split) <;> simp

@[simp] theorem prefetch_agenda (s : State) (core part : Nat) (va : DWord) (intoL1 : Bool) :
    (s.prefetch core part va intoL1).agenda = s.agenda := by
  unfold State.prefetch
  split <;> simp

/-! ## Quant -/

@[simp] theorem fillQuant_agenda (w : WordRule) (acts : Thread → Bool) (vq : Nat) (srcs : List Nat) (g : Group) (s : State) :
    (fillQuant w acts vq srcs g s).agenda = s.agenda := by
  refine (foldl_agenda (fun s r => ?_) _ _).trans (by simp)
  split <;> simp

@[simp] theorem quantEach_agenda (s : State) (g : Group) (r : TRef) (t : Thread) (vq : Nat)
    {f : Thread → Word → List Word → State → State} (h : ∀ t x xs s, (f t x xs s).agenda = s.agenda) :
    (s.quantEach g r t vq f).agenda = s.agenda := by
  unfold State.quantEach
  dsimp only
  split <;> simp [h]

/-! ## Engine -/

@[simp] theorem addOpFor_agenda (s : State) (g : Group) (rs : List TRef) (fs : Option Bool) (kind : OpKind)
    (dst ndst : Nat) :
    (s.addOpFor g rs fs kind dst ndst).agenda = s.agenda := by rfl

@[simp] theorem raiseThese_agenda (s : State) (rs : List TRef) (d : FaultDetail) (site : Site) :
    (s.raiseThese rs d site).agenda = s.agenda := by simp [State.raiseThese]

/-- What is done for each home warp in turn keeps the agenda where each turn does. -/
@[simp] theorem eachWarp_agenda (s : State) (g : Group) (acts : Thread → Bool) {f : Nat × Nat → List TRef → State → State}
    (h : ∀ w rs s, (f w rs s).agenda = s.agenda) : (s.eachWarp g acts f).agenda = s.agenda :=
  foldl_agenda (fun s w => by simp [h]) _ s

@[simp] theorem liftTlwait_agenda (s : State) (core k : Nat) :
    (s.liftTlwait core k).agenda = s.agenda := by simp [State.liftTlwait]

@[simp] theorem retireOps_agenda (s : State) (core k : Nat) : (s.retireOps core k).agenda = s.agenda := by
  unfold State.retireOps
  split <;> simp

@[simp] theorem completeNumber_agenda (s : State) (core k num : Nat) :
    (s.completeNumber core k num).agenda = s.agenda := by simp [State.completeNumber]

@[simp] theorem commandActions_agenda (s : State) (core order scope : Nat) :
    (s.commandActions core order scope).agenda = s.agenda := by simp [State.commandActions]

/-! ## Matrix -/

@[simp] theorem updGang_agenda (s : State) (wg key : Nat) (f : Gang → Gang) :
    (s.updGang wg key f).agenda = s.agenda := by rfl

@[simp] theorem raiseMatrix_agenda (s : State) (r : TRef) (d : FaultDetail) (site : Site) :
    (s.raiseMatrix r d site).agenda = s.agenda := by rfl

@[simp] theorem raiseMatrixAll_agenda (s : State) (rs : List TRef) (d : FaultDetail) (site : Site) :
    (s.raiseMatrixAll rs d site).agenda = s.agenda := by simp [State.raiseMatrixAll]

@[simp] theorem formGang_agenda (s : State) (wg warp : Nat) (x : BitVec 32) :
    (s.formGang wg warp x).agenda = s.agenda := by rfl

@[simp] theorem fillProducts_agenda (s : State) (g : Group) (func : Nat) (o : MmaArgs) :
    (s.fillProducts g func o).agenda = s.agenda :=
  foldl_agenda (fun s r => by split <;> simp) _ s

@[simp] theorem parkAtRendezvous_agenda (s : State) (r : TRef) (t : Thread) (d : Late) (site : Site) :
    (s.parkAtRendezvous r t d site).agenda = s.agenda := by rfl

@[simp] theorem sendProduct_agenda (s : State) (g : Group) (func : Nat) (o : MmaArgs) (r : TRef) :
    (s.sendProduct g func o r).agenda = s.agenda := by
  simp only [State.sendProduct]
  (repeat' split) <;> simp

@[simp] theorem failRendezvous_agenda (s : State) (wg : Nat) (as : List Arrival) :
    (s.failRendezvous wg as).agenda = s.agenda := by simp [State.failRendezvous]

@[simp] theorem acceptProduct_agenda (s : State) (wg : Nat) (x : Gang) (as : List Arrival) (a : Arrival) :
    (s.acceptProduct wg x as a).agenda = s.agenda := by simp [State.acceptProduct]

@[simp] theorem bEntries_agenda (s : State) (who : List Nat) (core part : Nat) (l : Leaf) (va : Nat) (hs : List Nat)
    (acc : List (BitVec 16)) : (s.bEntries who core part l va hs acc).1.state.agenda = s.agenda := by
  induction hs generalizing s acc with
  | nil => simp [State.bEntries]
  | cons h hs ih =>
    have hr := engineRead_agenda s who core part (entryAddress l (va + h * blockBytes l.format)).toNat 2 (· == 0)
    unfold State.bEntries
    dsimp only
    generalize s.engineRead who core part _ _ _ = x at hr ⊢
    cases metaFault l va with
    | some d => simp
    | none => cases x with
      | done t bs _ => dsimp only; split <;> simp_all
      | waits t => exact hr
      | fault t d => exact hr

@[simp] theorem memColumn_agenda (s : State) (core part : Nat) (op : MatOp) (step n : Nat) :
    (s.memColumn core part op step n).state.agenda = s.agenda := by
  unfold State.memColumn
  dsimp only
  split
  · simp
  · next l _ =>
    have he := bEntries_agenda s (engineAgent 3 core op.id) core part l
      (op.bAddr + BitVec.ofNat 64 (n * ctlPitch op.control + step * bBytes (ctlBfmt op.control))).toNat
      (List.range (bBlocks (ctlBfmt op.control))) []
    generalize s.bEntries _ core part l _ _ [] = x at he ⊢
    obtain ⟨x, es⟩ := x
    cases x with
    | done t bs b =>
      have hd := engineRead_agenda t (engineAgent 3 core op.id) core part
        (op.bAddr + BitVec.ofNat 64 (n * ctlPitch op.control + step * bBytes (ctlBfmt op.control))).toNat
        (bBytes (ctlBfmt op.control)) (· == bPage (ctlBfmt op.control))
      dsimp only
      generalize t.engineRead _ core part _ _ _ = y at hd ⊢
      cases y <;> simp_all
    | waits t => exact he
    | fault t d => exact he

@[simp] theorem fetchColumns_agenda (s : State) (core part : Nat) (op : MatOp) (step : Nat) (ns : List Nat)
    (acc : List (List FVal)) : (s.fetchColumns core part op step ns acc).state.agenda = s.agenda := by
  induction ns generalizing s acc with
  | nil => simp [State.fetchColumns]
  | cons n ns ih =>
    unfold State.fetchColumns
    split
    · split
      · simp
      · exact ih s _
    · have h := memColumn_agenda s core part op step n
      generalize s.memColumn core part op step n = x at h ⊢
      cases x with
      | cols t cs => exact (ih t _).trans h
      | waits t => exact h
      | fault t d => exact h

@[simp] theorem fetchStep_agenda (s : State) (core : Nat) (op : MatOp) (step : Nat) :
    (s.fetchStep core op step).state.agenda = s.agenda := fetchColumns_agenda ..

@[simp] theorem updMatOp_agenda (s : State) (core id : Nat) (f : MatOp → MatOp) :
    (s.updMatOp core id f).agenda = s.agenda := by rfl

@[simp] theorem postGang_agenda (s : State) (wg key : Nat) : (s.postGang wg key).agenda = s.agenda := by
  unfold State.postGang
  (repeat' split) <;> simp

@[simp] theorem interrupt_agenda (s : State) (core : Nat) (op : MatOp) (step : Nat) (d : FaultDetail) :
    (s.interrupt core op step d).agenda = s.agenda := by
  unfold State.interrupt
  dsimp only
  rw [wakeGroups_agenda, postGang_agenda, applyLate_agenda]
  refine (foldl_agenda (fun s id => settle_agenda s id) _ _).trans ?_
  refine (foldl_agenda (fun s r => by split <;> simp) _ _).trans ?_
  refine (foldl_agenda (fun s a => by split <;> simp) _ _).trans ?_
  simp

@[simp] theorem abandonGang_agenda (s : State) (wg key : Nat) : (s.abandonGang wg key).agenda = s.agenda := by
  unfold State.abandonGang
  split
  · rfl
  · dsimp only
    split
    · rfl
    · exact (updGang_agenda ..).trans (foldl_agenda (fun _ _ => updThread_agenda ..) _ _)

@[simp] theorem issuerResumed_agenda (s : State) (r : TRef) (inh : Bool) :
    (s.issuerResumed r inh).agenda = s.agenda := by
  unfold State.issuerResumed
  split <;> simp

@[simp] theorem issuerLeft_agenda (s : State) (r : TRef) (inh : Bool) : (s.issuerLeft r inh).agenda = s.agenda := by
  unfold State.issuerLeft
  split <;> simp

/-! ## Tile -/

@[simp] theorem tileRows_agenda (s : State) (who : List Nat) (wg tile : Nat) (store : Bool) (c : List DWord)
    (rows : List Nat) : ((s.tileRows who wg tile store c rows).state s).agenda = s.agenda := by
  suffices h : ∀ (u : State), u.agenda = s.agenda →
      ((u.tileRows who wg tile store c rows).state s).agenda = s.agenda from h s rfl
  induction rows with
  | nil => intro u h; simpa [State.tileRows] using h
  | cons a rows ih =>
    intro u h
    unfold State.tileRows
    dsimp only
    split
    · simpa using h
    · simp
    · split
      · exact ih _ (by simpa using h)
      · have hr := engineRead_agenda u who (u.coreOf wg) (u.partOf wg) (tcAddr c + BitVec.ofNat 64 (a * tcPitch c)).toNat
          (tcCols c * tcSize c) (· == 0)
        generalize u.engineRead who _ _ _ _ _ = x at hr ⊢
        cases x with
        | done t bs b => exact ih _ (hr.trans h)
        | waits t => exact h
        | fault t d => exact hr.trans h

@[simp] theorem tileMemory_agenda (s : State) (o : PendingOp) (wg func tile : Nat) (c : List DWord) :
    (s.tileMemory o wg func tile c).agenda = s.agenda := by
  have hc := commandActions_agenda s (s.coreOf wg) (tcOrder c) (tcScope c)
  unfold State.tileMemory
  dsimp only
  generalize s.commandActions _ _ _ = u at hc ⊢
  have h := tileRows_agenda u (engineAgent 7 (u.coreOf wg) o.id) wg tile (func == 6) c (List.range (tcRows c))
  generalize u.tileRows _ wg tile _ c _ = x at h ⊢
  cases x <;> simp_all

@[simp] theorem ownersOnly_agenda (s : State) (g : Group) (acts : Thread → Bool) :
    (s.ownersOnly g acts).agenda = s.agenda := by simp [State.ownersOnly]

/-! ## Rings -/

@[simp] theorem serveNone_agenda (s : State) (wg q : Nat) :
    (s.serveNone wg q).agenda = s.agenda := by simp [State.serveNone]

@[simp] theorem defineRing_agenda (s : State) (g : Group) (w : Workgroup) (rs : List TRef) (q : Nat) (d : DWord) :
    (s.defineRing g w rs q d).agenda = s.agenda := by
  unfold State.defineRing
  (repeat' split) <;> simp

@[simp] theorem releaseSlot_agenda (s : State) (g : Group) (w : Workgroup) (warp q : Nat) (rs : List TRef)
    (v : Word) :
    (s.releaseSlot g w warp q rs v).agenda = s.agenda := by
  simp only [State.releaseSlot]
  (repeat' split) <;> simp

/-! ## Copy -/

@[simp] theorem enqueueCopy_agenda (s : State) (g : Group) (w : Workgroup) (warp kind ws : Nat) (c : List DWord) :
    (s.enqueueCopy g w warp kind ws c).agenda = s.agenda := by rfl

@[simp] theorem issueCopy_agenda (s : State) (g : Group) (w : Workgroup) (warp kind pd ws : Nat) (rs : List TRef)
    (c : List DWord) :
    (s.issueCopy g w warp kind pd ws rs c).agenda = s.agenda := by
  unfold State.issueCopy
  split <;> simp

@[simp] theorem fillSlot_agenda (s : State) (op : CopyOp) (bs : List Byte) : (s.fillSlot op bs).1.agenda = s.agenda := by
  unfold State.fillSlot
  dsimp only
  (repeat' split) <;> simp

/-- A copy's unit that reads keeps the agenda where the read does and what is done with the bytes does. -/
theorem ofRead_agenda {a : List Instr} {op : CopyOp} {p : Performed} {f : State → List Byte → CopyRun}
    (hp : p.state.agenda = a) (hf : ∀ s bs, s.agenda = a → (f s bs).state.agenda = a) :
    (CopyRun.ofRead op p f).state.agenda = a := by
  cases p with
  | done s bs b => exact hf s bs hp
  | waits s => exact hp
  | fault s d => exact hp

@[simp] theorem readBlockEntry_agenda (s : State) (op : CopyOp) (l : Leaf) (va : Nat) :
    (s.readBlockEntry op l va).state.agenda = s.agenda := by
  unfold State.readBlockEntry
  split <;> simp

@[simp] theorem quantBlock_agenda (s : State) (op : CopyOp) (col : Bool) (line k : Nat) :
    (s.quantBlock op col line k).state.agenda = s.agenda := by
  unfold State.quantBlock
  dsimp only
  (repeat' split) <;> simp

@[simp] theorem copyUnit_agenda (s : State) (op : CopyOp) (fmt : Nat) (u : CopyUnit) :
    (s.copyUnit op fmt u).state.agenda = s.agenda := by
  unfold State.copyUnit
  cases u with
  | raw va n =>
    dsimp only
    split
    · simp
    · exact ofRead_agenda (engineRead_agenda ..) fun t bs ht => by simp [ht]
  | decoded va =>
    dsimp only
    split
    · simp
    · refine ofRead_agenda (readBlockEntry_agenda ..) fun t es ht => ?_
      split
      · exact ht
      · exact ofRead_agenda ((engineRead_agenda ..).trans ht) fun u bs hu => by simp [hu]
  | entry va =>
    dsimp only
    split
    · simp
    · exact ofRead_agenda (readBlockEntry_agenda ..) fun t es ht => by simp [ht]
  | out off va n => dsimp only; split <;> simp
  | block col line k => simp

@[simp] theorem runUnits_agenda (fmt : Nat) (us : List CopyUnit) (s : State) (op : CopyOp) :
    (State.runUnits fmt us s op).state.agenda = s.agenda := by
  induction us generalizing s op with
  | nil => simp [State.runUnits]
  | cons u us ih =>
    have h := copyUnit_agenda s op fmt u
    unfold State.runUnits
    generalize s.copyUnit op fmt u = x at h ⊢
    cases x with
    | done t op' => exact (ih t _).trans h
    | waits t op' => exact h
    | fault t op' d => exact h

@[simp] theorem runCopy_agenda (s : State) (op : CopyOp) (n : Nat) : (s.runCopy op n).state.agenda = s.agenda := by
  unfold State.runCopy
  split <;> simp

@[simp] theorem setCopy_agenda (s : State) (op : CopyOp) : (s.setCopy op).agenda = s.agenda := by rfl

@[simp] theorem noteCopy_agenda (s : State) (op : CopyOp) : (s.noteCopy op).agenda = s.agenda := by rfl

@[simp] theorem markSlot_agenda (s : State) (wg : Nat) (op : CopyOp) : (s.markSlot wg op).1.agenda = s.agenda := by
  unfold State.markSlot
  (repeat' split) <;> simp

@[simp] theorem endCopy_agenda (s : State) (op : CopyOp) : (s.endCopy op).agenda = s.agenda := by
  unfold State.endCopy
  dsimp only
  split <;> simp

@[simp] theorem stopCopy_agenda (s : State) (op : CopyOp) :
    (s.stopCopy op).agenda = s.agenda := by simp [State.stopCopy]

@[simp] theorem deliverTo_agenda (s : State) (op : CopyOp) (member : Nat) :
    (s.deliverTo op member).agenda = s.agenda := by
  unfold State.deliverTo
  (repeat' split) <;> simp

/-! ## Refresh -/

@[simp] theorem setRefresh_agenda (s : State) (x : Refresh) : (s.setRefresh x).agenda = s.agenda := by rfl

/-! ## Row -/

@[simp] theorem enqueueRow_agenda (s : State) (g : Group) (w : Workgroup) (warp func ws : Nat) (c : List DWord)
    (wc : DWord) :
    (s.enqueueRow g w warp func ws c wc).agenda = s.agenda := by rfl

@[simp] theorem setRow_agenda (s : State) (x : RowOp) : (s.setRow x).agenda = s.agenda := by rfl

@[simp] theorem endRow_agenda (s : State) (x : RowOp) : (s.endRow x).agenda = s.agenda := by simp [State.endRow]

@[simp] theorem holdRow_agenda (s : State) (x : RowOp) (d : FaultDetail) :
    (s.holdRow x d).agenda = s.agenda := by simp [State.holdRow]

@[simp] theorem faultRow_agenda (s : State) (x : RowOp) (d : FaultDetail) :
    (s.faultRow x d).agenda = s.agenda := by simp [State.faultRow]

@[simp] theorem planRow_agenda (s : State) (x : RowOp) (isDst : Bool) (va : DWord) :
    ((s.planRow x isDst va).state s).agenda = s.agenda := by
  unfold State.planRow
  dsimp only
  (repeat' split) <;> simp

@[simp] theorem planRows_agenda (s : State) (x : RowOp) (isDst : Bool) (vas : List DWord) :
    ((s.planRows x isDst vas).state s).agenda = s.agenda := by
  induction vas with
  | nil => simp [State.planRows]
  | cons va vas ih =>
    have h := planRow_agenda s x isDst va
    unfold State.planRows
    generalize s.planRow x isDst va = p at h ⊢
    generalize s.planRows x isDst vas = ps at ih ⊢
    cases p with
    | ok r => cases ps <;> simp_all
    | waits t => exact h
    | fault d => simp

@[simp] theorem planOperands_agenda (s : State) (x : RowOp) (isDst : Bool) (os : List (List DWord)) :
    ((s.planOperands x isDst os).state s).agenda = s.agenda := by
  induction os generalizing isDst with
  | nil => simp [State.planOperands]
  | cons o os ih =>
    have h := planRows_agenda s x isDst o
    have ih := ih false
    unfold State.planOperands
    generalize s.planRows x isDst o = p at h ⊢
    generalize s.planOperands x false os = ps at ih ⊢
    cases p with
    | ok rs =>
      dsimp only
      generalize (x.func != 6 && _) = unlike
      cases unlike
      · cases ps <;> simp_all
      · simp
    | waits t => exact h
    | fault d => simp

@[simp] theorem planCoeffs_agenda (s : State) (x : RowOp) : (s.planCoeffs x).state.agenda = s.agenda := by
  unfold State.planCoeffs
  split <;> simp

@[simp] theorem invalidateRows_agenda (s : State) (pas : List Nat) (ls : List Leaf) :
    (s.invalidateRows pas ls).agenda = s.agenda := by simp [State.invalidateRows]

/-- The state that a part of a row operation leaves. -/
def carried {α β : Type} : Except (State × α) (State × β) → State
  | .error x => x.1
  | .ok x => x.1

@[simp] theorem carried_error {α β : Type} (x : State × α) : carried (.error x : Except (State × α) (State × β)) = x.1 := by
  rfl

@[simp] theorem carried_ok {α β : Type} (x : State × β) : carried (.ok x : Except (State × α) (State × β)) = x.1 := by rfl

@[simp] theorem readRow_agenda (s : State) (pa : Nat) (l : Leaf) : (carried (s.readRow pa l)).agenda = s.agenda := by
  unfold State.readRow
  dsimp only
  (repeat' split) <;> simp

theorem writeRow_agenda {s t : State} {pa : Nat} {l : Leaf} {fold : BitVec 16} {bs : List Byte}
    (h : s.writeRow pa l fold bs = some t) : t.agenda = s.agenda := by
  unfold State.writeRow at h
  split at h
  · cases h
  · cases h; simp

@[simp] theorem rowStep_agenda (s : State) (x : RowOp) (st : RowStep) : (carried (s.rowStep x st)).agenda = s.agenda := by
  unfold State.rowStep
  cases st with
  | row r =>
    have ha := readRow_agenda s ((x.rows.getD 1 []).getD (if x.func = 1 then 0 else r) 0)
      (x.leafOf 1 (if x.func = 1 then 0 else r))
    dsimp only
    generalize s.readRow _ _ = a at ha ⊢
    obtain ⟨t, c⟩ | ⟨t, as⟩ := a
    · exact ha
    · have hb : (carried (if usesB x.func = true then t.readRow ((x.rows.getD 2 []).getD r 0) (x.leafOf 2 r)
          else .ok (t, []))).agenda = s.agenda := by split <;> simpa using ha
      dsimp only
      generalize (if usesB x.func = true then _ else _) = b at hb ⊢
      obtain ⟨u, c⟩ | ⟨u, bs⟩ := b
      · exact hb
      · have hc : (carried (if x.func = 5 then u.readRow ((x.rows.getD 3 []).getD r 0) (x.leafOf 3 r)
            else .ok (u, []))).agenda = s.agenda := by split <;> simpa using hb
        dsimp only
        generalize (if x.func = 5 then _ else _) = c at hc ⊢
        obtain ⟨v, c⟩ | ⟨v, cs⟩ := c
        · exact hc
        · dsimp only
          split
          · exact hc
          · next h => exact (writeRow_agenda h).trans hc
  | dstRead =>
    have h := readRow_agenda s ((x.rows.getD 0 []).getD 0 0) (x.leafOf 0 0)
    dsimp only
    generalize s.readRow _ _ = a at h ⊢
    obtain ⟨t, c⟩ | ⟨t, bs⟩ := a <;> exact h
  | source i half =>
    have h := readRow_agenda s ((x.rows.getD 1 []).getD i 0) (x.leafOf 1 i)
    dsimp only
    generalize s.readRow _ _ = a at h ⊢
    obtain ⟨t, c⟩ | ⟨t, bs⟩ := a <;> exact h
  | dstWrite =>
    dsimp only
    split
    · simp
    · next h => exact writeRow_agenda h

@[simp] theorem rekeyFrame_agenda (s : State) (l : Leaf) (fold : BitVec 16) :
    (s.rekeyFrame l fold).agenda = s.agenda := by simp [State.rekeyFrame]

@[simp] theorem writePteKeys_agenda (s : State) (pte : Nat) (fold gen : BitVec 16) :
    (s.writePteKeys pte fold gen).agenda = s.agenda := by simp [State.writePteKeys]

@[simp] theorem dropTranslations_agenda (s : State) (part lo len : Nat) :
    (s.dropTranslations part lo len).agenda = s.agenda := by rfl

@[simp] theorem triggerRange_agenda (s : State) (pa len : Nat) : (s.triggerRange pa len).agenda = s.agenda := by rfl

@[simp] theorem adoptKeys_agenda (s : State) (x : RowOp) :
    (s.adoptKeys x).agenda = s.agenda := by simp [State.adoptKeys]

@[simp] theorem finishRow_agenda (s : State) (x : RowOp) :
    (s.finishRow x).agenda = s.agenda := by simp [State.finishRow]

@[simp] theorem failRow_agenda (s : State) (x : RowOp) (code : BitVec 8) :
    (s.failRow x code).agenda = s.agenda := by simp [State.failRow]

@[simp] theorem stepPool_agenda (s : State) (x : RowOp) (st : RowStep) :
    ((s.stepPool x st).state s).agenda = s.agenda := by
  unfold State.stepPool
  dsimp only
  generalize x.rowsOf st = rows
  split
  · simp
  · split
    · simp
    · split <;> simp

@[simp] theorem doRowStep_agenda (s : State) (x : RowOp) (st : RowStep) : (s.doRowStep x st).agenda = s.agenda := by
  have h := rowStep_agenda s x st
  unfold State.doRowStep
  generalize s.rowStep x st = y at h ⊢
  obtain ⟨t, c⟩ | ⟨t, x'⟩ := y
  · simpa using h
  · dsimp only
    split <;> simpa using h

/-! ## Sync -/

@[simp] theorem evictWatch_agenda (s : State) (core : Nat) (r : TRef) : (s.evictWatch core r).agenda = s.agenda := by
  simp only [State.evictWatch]
  (repeat' split) <;> simp

@[simp] theorem armWatch_agenda (s : State) (core : Nat) (a : Access) (r : TRef) :
    (s.armWatch core a r).agenda = s.agenda := by simp [State.armWatch]

@[simp] theorem waitv_agenda (s : State) (g : Group) (r : TRef) (t : Thread) (o : WaitvArgs) :
    (s.waitv g r t o).agenda = s.agenda := by
  simp only [State.waitv]
  (repeat' split) <;> simp

@[simp] theorem evaluate_agenda (s : State) (r : TRef) (core part : Nat) (cs : List Cond) (met : Nat) :
    (s.evaluate r core part cs met).state.agenda = s.agenda := by
  induction cs generalizing s met with
  | nil => simp [State.evaluate]
  | cons c cs ih =>
    unfold State.evaluate
    split
    · simp
    · next l _ =>
      have h := performRead_agenda (s.tlbInsert core part l) core part (mkAccess (BitVec.ofNat 64 c.addr) 4 l 0 2)
      generalize (s.tlbInsert core part l).performRead core part _ = x at h ⊢
      cases x with
      | done t bs b => exact (ih t _).trans (by simpa using h)
      | waits t => dsimp only; split <;> simpa using h
      | fault t d => simpa using h

@[simp] theorem settleWaitv_agenda (s : State) (r : TRef) (cs : List Cond) (all : Bool) (vt met : Nat) :
    (s.settleWaitv r cs all vt met).agenda = s.agenda := by rfl

@[simp] theorem tlwait_agenda (s : State) (r : TRef) (tl : Nat) (n : DWord) :
    (s.tlwait r tl n).agenda = s.agenda := by simp [State.tlwait]

/-! ## Tier -/

@[simp] theorem enqueueTier_agenda (s : State) (g : Group) (w : Workgroup) (warp func ws : Nat) (addr x : DWord) :
    (s.enqueueTier g w warp func ws addr x).agenda = s.agenda := by rfl

@[simp] theorem flushRange_agenda (s : State) (pa len : Nat) :
    (s.flushRange pa len).agenda = s.agenda := by simp [State.flushRange]

@[simp] theorem giveUp_agenda (s : State) (pa : Nat) : (s.giveUp pa).agenda = s.agenda := by simp [State.giveUp]

@[simp] theorem countPath_agenda (s : State) (part func : Nat) (host : Bool) :
    (s.countPath part func host).agenda = s.agenda := by rfl

@[simp] theorem poolBrings_agenda (s : State) (a : Nat) (x : PoolNews) : (s.poolBrings a x).agenda = s.agenda :=
  have h (mem keyed poison cleared news) : ({ s with
      mem := mem, keyed := keyed, poison := poison, cleared := cleared, poolNews := news } : State).agenda = s.agenda := rfl
  h ..

@[simp] theorem poolArrives_agenda (s : State) (pa : Nat) : (s.poolArrives pa).agenda = s.agenda := by
  unfold State.poolArrives
  dsimp only
  (repeat' split) <;> simp

@[simp] theorem acquire_agenda (s : State) (who : List Nat) (part : Nat) (l : Leaf) (bases : List Nat) :
    ((s.acquire who part l bases).state s).agenda = s.agenda := by
  induction bases with
  | nil => simp [State.acquire]
  | cons base rest ih =>
    unfold State.acquire
    split
    · exact ih
    · dsimp only; split <;> simp

@[simp] theorem acquirePage_agenda (s : State) (x : TierOp) (l : Leaf) :
    ((s.acquirePage x l).state s).agenda = s.agenda := acquire_agenda ..

@[simp] theorem mapPool_agenda (s : State) (pa size : Nat) (old new : PoolState) :
    (s.mapPool pa size old new).agenda = s.agenda := by rfl

@[simp] theorem serveDeferred_agenda (s : State) (pa size : Nat) :
    (s.serveDeferred pa size).agenda = s.agenda := by simp [State.serveDeferred]

@[simp] theorem unpinned_agenda (s : State) (pa size : Nat) :
    (s.unpinned pa size).agenda = s.agenda := by simp [State.unpinned]

@[simp] theorem updPteByte_agenda (s : State) (pte : Nat) (f : Byte → Byte) :
    (s.updPteByte pte f).agenda = s.agenda := by simp [State.updPteByte]

@[simp] theorem setPinBits_agenda (s : State) (part : Nat) (l : Leaf) (b : Bool) :
    (s.setPinBits part l b).agenda = s.agenda := foldl_agenda (fun _ _ => updPteByte_agenda ..) _ _

@[simp] theorem setAffinity_agenda (s : State) (part : Nat) (l : Leaf) (arg : BitVec 4) :
    (s.setAffinity part l arg).agenda = s.agenda := by simp [State.setAffinity]

@[simp] theorem updTier_agenda (s : State) (core num : Nat) (f : TierOp → TierOp) :
    (s.updTier core num f).agenda = s.agenda := by rfl

@[simp] theorem setTier_agenda (s : State) (x : TierOp) : (s.setTier x).agenda = s.agenda := by rfl

@[simp] theorem startMove_agenda (s : State) (part : Nat) (l : Leaf) (target : Nat) (op : Option (Nat × Nat)) :
    (s.startMove part l target op).agenda = s.agenda := by simp [State.startMove]

@[simp] theorem updMove_agenda (s : State) (id : Nat) (f : Move → Move) : (s.updMove id f).agenda = s.agenda := by rfl

@[simp] theorem faultTier_agenda (s : State) (x : TierOp) (d : FaultDetail) :
    (s.faultTier x d).agenda = s.agenda := by simp [State.faultTier]

@[simp] theorem copyFrame_agenda (s : State) (src dst size : Nat) :
    (s.copyFrame src dst size).agenda = s.agenda := by rfl

@[simp] theorem drainMove_agenda (s : State) (m : Move) : (s.drainMove m).agenda = s.agenda := by simp [State.drainMove]

@[simp] theorem restampLines_agenda (s : State) (m : Move) (gen : BitVec 16) :
    (s.restampLines m gen).agenda = s.agenda := by rfl

@[simp] theorem triggerMove_agenda (s : State) (m : Move) : (s.triggerMove m).agenda = s.agenda := by rfl

@[simp] theorem spaceFrees_agenda (s : State) (part : Nat) : (s.spaceFrees part).agenda = s.agenda := by rfl

@[simp] theorem remapOne_agenda (s : State) (pte target : Nat) (gen : BitVec 16) :
    (s.remapOne pte target gen).agenda = s.agenda := by simp [State.remapOne]

@[simp] theorem remapPage_agenda (s : State) (m : Move) (gen : BitVec 16) :
    (s.remapPage m gen).agenda = s.agenda := by simp [State.remapPage]

@[simp] theorem dropFrame_agenda (s : State) (part base size : Nat) :
    (s.dropFrame part base size).agenda = s.agenda := by rfl

@[simp] theorem cancelMoves_agenda (s : State) (x : TierOp) :
    (s.cancelMoves x).agenda = s.agenda := by simp [State.cancelMoves]

@[simp] theorem openWindow_agenda (s : State) (part addr len : Nat) :
    (s.openWindow part addr len).agenda = s.agenda := by rfl

@[simp] theorem closeWindow_agenda (s : State) (part addr : Nat) : (s.closeWindow part addr).agenda = s.agenda := by rfl

@[simp] theorem pinPage_agenda (s : State) (x : TierOp) (l : Leaf) : (s.pinPage x l).agenda = s.agenda := by
  have h := acquirePage_agenda s x l
  unfold State.pinPage
  split
  · rfl
  · generalize s.acquirePage x l = y at h ⊢
    cases y with
    | held => dsimp only; split <;> simp
    | waits t => exact h
    | fault d => simp

@[simp] theorem unpinPage_agenda (s : State) (x : TierOp) (l : Leaf) :
    (s.unpinPage x l).agenda = s.agenda := by simp [State.unpinPage]

@[simp] theorem migratePage_agenda (s : State) (x : TierOp) (l : Leaf) (target : Nat) :
    (s.migratePage x l target).agenda = s.agenda := by
  have h := acquirePage_agenda s x l
  unfold State.migratePage
  dsimp only
  generalize s.acquirePage x l = y at h ⊢
  iterate 8 (split; · simp)
  cases y with
  | held => dsimp only; split <;> simp
  | waits t => exact h
  | fault d => simp

@[simp] theorem tierPage_agenda (s : State) (x : TierOp) : (s.tierPage x).agenda = s.agenda := by
  unfold State.tierPage
  (repeat' split) <;> simp

@[simp] theorem ownMove_agenda (s : State) (part : Nat) (l : Leaf) (tier : Nat) :
    ((s.ownMove part l tier).state s).agenda = s.agenda := by
  have h := acquire_agenda s (engineAgent 9 part l.vbase) part l [l.pa]
  unfold State.ownMove
  split
  · simp
  · split <;> simp_all

/-! ## Launch -/

@[simp] theorem readBytes_agenda (s : State) (core part addr n : Nat) :
    (s.readBytes core part addr n).1.agenda = s.agenda := by
  have h := engineRead_agenda s (engineAgent 4 core addr) core part addr n (fun _ => true)
  unfold State.readBytes
  dsimp only
  generalize s.engineRead _ core part addr n _ = x at h ⊢
  cases x with
  | done t bs b => exact h
  | waits t => exact h
  | fault t d =>
    have h2 := engineRead_agenda t (engineAgent 4 core addr) core part addr n (fun _ => true)
    dsimp only
    generalize t.engineRead _ core part addr n _ = y at h2 ⊢
    cases y <;> exact h2.trans h

@[simp] theorem askPool_agenda (s : State) (part pa : Nat) (write : Bool) :
    (s.askPool part pa write).agenda = s.agenda := by simp [State.askPool]

@[simp] theorem enroll_agenda (s : State) (p : Partition) (d : Descriptor) : (s.enroll p d).1.agenda = s.agenda := by rfl

/-- The state that the read of the stage descriptors leaves. -/
def stagesState {α : Type} : Except Performed (State × α) → State
  | .error p => p.state
  | .ok x => x.1

theorem readStages_agenda (s : State) (who : List Nat) (core part : Nat) (as : List Nat) (acc : List (List DWord)) :
    (stagesState (s.readStages who core part as acc)).agenda = s.agenda := by
  induction as generalizing s acc with
  | nil => rfl
  | cons a as ih =>
    have h := engineRead_agenda s who core part a 256 (fun _ => true)
    unfold State.readStages
    generalize s.engineRead who core part a 256 _ = x at h ⊢
    cases x with
    | done t bs b => exact (ih t _).trans h
    | waits t => exact h
    | fault t d => exact h

@[simp] theorem readDescriptor_agenda (s : State) (who : List Nat) (core part addr : Nat) :
    (s.readDescriptor who core part addr).state.agenda = s.agenda := by
  have h := engineRead_agenda s who core part addr 64 (fun _ => true)
  unfold State.readDescriptor
  generalize s.engineRead who core part addr 64 _ = x at h ⊢
  cases x with
  | waits t => exact h
  | fault t d => exact h
  | done t bs b =>
    have h2 := readStages_agenda t who core part
      ((List.range (stageCount (qwords bs))).map fun i => stageTable (qwords bs) + 256 * i) []
    dsimp only
    generalize t.readStages who core part _ [] = y at h2 ⊢
    rcases y with (_ | _ | _) | ⟨u, ss⟩ <;> exact h2.trans h

@[simp] theorem beginLaunch_agenda (s : State) (g : Group) (w : Nat × Nat) (rs : List TRef) (o : DlArgs) :
    (s.beginLaunch g w rs o).agenda = s.agenda := by
  simp only [State.beginLaunch]
  (repeat' split) <;> simp

@[simp] theorem endLaunch_agenda (s : State) (l : Launch) (ok : Bool) (value : Nat) :
    (s.endLaunch l ok value).agenda = s.agenda := by simp [State.endLaunch]

/-! ## Sched -/

@[simp] theorem queueHead_agenda (s : State) (core part : Nat) (q : Queue) :
    (s.queueHead core part q).1.agenda = s.agenda := by
  have h := readBytes_agenda s core part q.qbase 32
  unfold State.queueHead
  generalize s.readBytes core part q.qbase 32 = x at h ⊢
  obtain ⟨t, _ | bs⟩ := x <;> exact h

@[simp] theorem setQueueWord_agenda (s : State) (core part : Nat) (q : Queue) (i v : Nat) :
    (s.setQueueWord core part q i v).agenda = s.agenda := by simp [State.setQueueWord]

@[simp] theorem updStage_agenda (s : State) (part handle stage : Nat) (f : Stage → Stage) :
    (s.updStage part handle stage f).agenda = s.agenda := by rfl

@[simp] theorem updQueue_agenda (s : State) (part handle j : Nat) (f : Queue → Queue) :
    (s.updQueue part handle j f).agenda = s.agenda := by rfl

@[simp] theorem pushItem_agenda (s : State) (w : Workgroup) (q : Queue) (r : TRef) (t : Thread) (pd vs : Nat) :
    (s.pushItem w q r t pd vs).agenda = s.agenda := by
  unfold State.pushItem
  dsimp only
  split <;> simp

@[simp] theorem withdraw_agenda (s : State) (part handle : Nat) (stage : Nat → Bool) :
    (s.withdraw part handle stage).agenda = s.agenda :=
  foldl_agenda (fun _ _ => updCore_agenda ..) _ _

@[simp] theorem checkEntry_agenda (s : State) (id : Nat) : (s.checkEntry id).agenda = s.agenda := by
  unfold State.checkEntry
  split <;> simp

@[simp] theorem placeNew_agenda (s : State) (part : Nat) (p : Pipeline) (i : Nat) (st : Stage)
    (core member cohort seq pos : Nat) (item : List Word) (slots : List (Nat × Nat)) (base : Nat) :
    (s.placeNew part p i st core member cohort seq pos item slots base).agenda = s.agenda := by simp [State.placeNew]

@[simp] theorem readItem_agenda (s : State) (core part : Nat) (q : Queue) (x : Nat) :
    (s.readItem core part q x).1.agenda = s.agenda := by
  have h := readBytes_agenda s core part (q.itemAt x) 32
  unfold State.readItem
  generalize s.readBytes core part _ 32 = y at h ⊢
  obtain ⟨t, _ | bs⟩ := y <;> exact h

@[simp] theorem consume_agenda (s : State) (core part handle j x : Nat) :
    (s.consume core part handle j x).agenda = s.agenda := by
  unfold State.consume
  dsimp only
  split <;> simp

@[simp] theorem startEntry_agenda (s : State) (part : Nat) (p : Pipeline) (i : Nat) (st : Stage)
    (core member cohort seq pos : Nat) : (s.startEntry part p i st core member cohort seq pos).agenda = s.agenda := by
  unfold State.startEntry
  split
  · rfl
  · dsimp only
    split <;> simp

@[simp] theorem assign_agenda (s : State) (core part : Nat) (p : Pipeline) (i : Nat) (st : Stage) (n : Nat) :
    (s.assign core part p i st n).1.agenda = s.agenda := by
  unfold State.assign
  dsimp only
  split <;> simp

@[simp] theorem leaveGroups_agenda (s : State) (id : Nat) :
    (s.leaveGroups id).agenda = s.agenda := by simp [State.leaveGroups]

@[simp] theorem stopIssue_agenda (s : State) (id : Nat) : (s.stopIssue id).agenda = s.agenda := by simp [State.stopIssue]

@[simp] theorem setVerdict_agenda (s : State) (id : Nat) (v : Verdict) :
    (s.setVerdict id v).agenda = s.agenda := by simp [State.setVerdict]

@[simp] theorem evict_agenda (s : State) (w : Workgroup) : (s.evict w).agenda = s.agenda := by simp [State.evict]

@[simp] theorem decideVictim_agenda (s : State) (w : Workgroup) (bound : Nat) :
    (s.decideVictim w bound).agenda = s.agenda := by
  unfold State.decideVictim
  split <;> simp

theorem preempt_agenda {s t : State} {part : Partition} {handle stage : Nat} (h : s.preempt part handle stage = some t) :
    t.agenda = s.agenda := by
  unfold State.preempt at h
  dsimp only at h
  split at h
  · cases h
  · split at h
    · cases h
    · obtain ⟨-, h⟩ := Option.ite_none_left_eq_some.1 h
      generalize List.mergeSort _ _ = options at h
      obtain _ | ⟨⟨c, vs⟩, _⟩ := options
      · cases h
      · rw [← Option.some.inj h]; simp

@[simp] theorem spillAll_agenda (s : State) (w : Workgroup) :
    (s.spillAll w).agenda = s.agenda := by simp [State.spillAll]

@[simp] theorem memberGone_agenda (s : State) (w : Workgroup) : (s.memberGone w).agenda = s.agenda := by rfl

@[simp] theorem loseWindow_agenda (s : State) (w : Workgroup) : (s.loseWindow w).agenda = s.agenda := by rfl

@[simp] theorem resumeCaches_agenda (s : State) (core : Nat) :
    (s.resumeCaches core).agenda = s.agenda := by simp [State.resumeCaches]

@[simp] theorem reapply_agenda (s : State) (r : TRef) : (s.reapply r).agenda = s.agenda := by
  unfold State.reapply
  split
  · split
    · split <;> simp
    · split <;> simp
    · split <;> simp
    · split <;> simp
    · rfl
  · rfl

@[simp] theorem removeWg_agenda (s : State) (w : Workgroup) : (s.removeWg w).agenda = s.agenda := by rfl

@[simp] theorem landSeen_agenda (s : State) (o : PendingOp) : (s.landSeen o).agenda = s.agenda := by
  unfold State.landSeen
  split
  · next a bs _ =>
    have h := performWrite_agenda s (s.coreOf ((o.who.map (·.wg)).headD 0)) (s.partOf ((o.who.map (·.wg)).headD 0)) a bs
    dsimp only
    generalize s.performWrite _ _ a bs = x at h ⊢
    cases x <;> simp_all
  · rfl

@[simp] theorem killWg_agenda (s : State) (id : Nat) : (s.killWg id).agenda = s.agenda := by
  unfold State.killWg
  split <;> simp

/-! ## System -/

@[simp] theorem rettThread_agenda (s : State) (g : Group) (r : TRef) (t : Thread) :
    (s.rettThread g r t).agenda = s.agenda := by
  unfold State.rettThread
  split <;> simp

@[simp] theorem setSpecial_agenda (s : State) (r : TRef) (n : Nat) (x : DWord) :
    (s.setSpecial r n x).agenda = s.agenda := by
  unfold State.setSpecial
  split <;> simp

@[simp] theorem watchRecord_agenda (s : State) (w : Workgroup) : (s.watchRecord w).agenda = s.agenda := by
  unfold State.watchRecord
  split <;> simp

@[simp] theorem deviceWrite_agenda (s : State) (pa : Nat) (bs : List Byte) :
    (s.deviceWrite pa bs).agenda = s.agenda := by simp [State.deviceWrite]

@[simp] theorem dropRecord_agenda (s : State) (part seq : Nat) : (s.dropRecord part seq).agenda = s.agenda := by rfl

@[simp] theorem reapplyTo_agenda (s : State) (r : TRef) : (s.reapplyTo r).agenda = s.agenda := by simp [State.reapplyTo]

@[simp] theorem resumeWorkgroup_agenda (s : State) (wg : Nat) (who : List TRef) :
    (s.resumeWorkgroup wg who).agenda = s.agenda := by simp [State.resumeWorkgroup]

@[simp] theorem answerGangs_agenda (s : State) (wg : Nat) : (s.answerGangs wg).agenda = s.agenda := by rfl

@[simp] theorem resumeThread_agenda (s : State) (skip : Bool) (r : TRef) :
    (s.resumeThread skip r).agenda = s.agenda := by
  unfold State.resumeThread
  split <;> simp

@[simp] theorem killRecord_agenda (s : State) (part wg : Nat) :
    (s.killRecord part wg).agenda = s.agenda := by simp [State.killRecord]

@[simp] theorem deliverThread_agenda (s : State) (w : Workgroup) (r : TRef) :
    (s.deliverThread w r).agenda = s.agenda := by
  unfold State.deliverThread
  split <;> simp

@[simp] theorem serviceLoad_agenda (s : State) (core part va size : Nat) :
    (s.serviceLoad core part va size).agenda = s.agenda := by
  have h := engineRead_agenda s (engineAgent 6 core va) serviceCore part va size (fun _ => true)
  unfold State.serviceLoad
  split
  · rfl
  · generalize s.engineRead _ serviceCore part va size _ = x at h ⊢
    cases x <;> exact h

@[simp] theorem serviceStart_agenda (s : State) (x : ServiceStore) : (s.serviceStart x).agenda = s.agenda := by
  unfold State.serviceStart
  dsimp only
  split
  · rfl
  · exact serviceStore_agenda _ _ rfl

/-! ## Form -/

@[simp] theorem formGroup_agenda (s : State) (core picker : Nat) (cs : List Contender) (lead : Contender) :
    (s.formGroup core picker cs lead).agenda = s.agenda := by rfl

/-! ## Host -/

@[simp] theorem updHost_agenda (s : State) (f : HostSide → HostSide) : (s.updHost f).agenda = s.agenda := by rfl

@[simp] theorem restart_agenda (s : State) : (s.restart).agenda = s.agenda := by rfl

@[simp] theorem boot_agenda (s : State) : (s.boot).agenda = s.agenda := by rfl

@[simp] theorem respond_agenda (s : State) (port code : Nat) (payload : List Nat) :
    (s.respond port code payload).agenda = s.agenda := by rfl

@[simp] theorem setSpdm_agenda (s : State) (port n : Nat) : (s.setSpdm port n).agenda = s.agenda := by rfl

@[simp] theorem respondFree_agenda (s : State) (port code n : Nat) (head : List Nat) :
    (s.respondFree port code n head).agenda = s.agenda := by rfl

@[simp] theorem updSem_agenda (s : State) (f : Semaphore → Semaphore) : (s.updSem f).agenda = s.agenda := by rfl

@[simp] theorem answer_agenda (s : State) (port value : Nat) : (s.answer port value).agenda = s.agenda := by rfl

@[simp] theorem assignCores_agenda (s : State) (cores : List Nat) :
    (s.assignCores cores).agenda = s.agenda := by simp [State.assignCores]

theorem createPartition_agenda {s t : State} {seq : Nat} {spec : PartSpec} (h : s.createPartition seq spec = some t) :
    t.agenda = s.agenda := by
  unfold State.createPartition at h
  dsimp only at h
  split at h
  · cases h; simp
  · cases h

theorem addResources_agenda {s t : State} {part : Nat} {spec : PartSpec} (h : s.addResources part spec = some t) :
    t.agenda = s.agenda := by
  unfold State.addResources at h
  split at h
  · cases h; simp
  · cases h

@[simp] theorem shiftPending_agenda (s : State) (cores : List Nat) (dst : Nat) :
    (s.shiftPending cores dst).agenda = s.agenda :=
  (updCore_agenda ..).trans (foldl_agenda (fun _ _ => updCore_agenda ..) _ _)

theorem removeCores_agenda {s t : State} {part : Nat} {cores : List Nat} (h : s.removeCores part cores = some t) :
    t.agenda = s.agenda := by
  obtain ⟨p, -, h⟩ := Option.bind_eq_some_iff.1 h
  dsimp only at h
  split at h
  · cases h
  · cases h; simp

@[simp] theorem flushFrames_agenda (s : State) (part : Nat) :
    (s.flushFrames part).agenda = s.agenda := by simp [State.flushFrames]

theorem removeSlices_agenda {s t : State} {part : Nat} {slices : List Nat} (h : s.removeSlices part slices = some t) :
    t.agenda = s.agenda := by
  obtain ⟨p, -, h⟩ := Option.bind_eq_some_iff.1 h
  dsimp only at h
  split at h
  · cases h
  · cases h; simp

@[simp] theorem moveOut_agenda (s : State) (part tier : Nat) (ls : List Leaf) (need : Nat) :
    (s.moveOut part tier ls need).agenda = s.agenda := by
  induction ls generalizing s need with
  | nil => rfl
  | cons l ls ih =>
    unfold State.moveOut
    (repeat' split) <;> simp [ih]

@[simp] theorem shrinkOn_agenda (s : State) (part tier share : Nat) : (s.shrinkOn part tier share).agenda = s.agenda :=
  moveOut_agenda ..

theorem shrinkTier_agenda {s t : State} {part tier share : Nat} (h : s.shrinkTier part tier share = some t) :
    t.agenda = s.agenda := by
  obtain ⟨p, -, h⟩ := Option.bind_eq_some_iff.1 h
  split at h
  · cases h
  · cases h; simp

@[simp] theorem finishDestroy_agenda (s : State) (part : Nat) :
    (s.finishDestroy part).agenda = s.agenda := by simp [State.finishDestroy]

@[simp] theorem beginDestroy_agenda (s : State) (part : Nat) : (s.beginDestroy part).agenda = s.agenda := by
  unfold State.beginDestroy
  dsimp only
  refine (foldl_agenda (fun _ _ => updCore_agenda ..) _ _).trans ?_
  simp

theorem begin_agenda {s t : State} {seq : Nat} {c : HostCommand} (h : s.begin_ seq c = some t) :
    t.agenda = s.agenda := by
  cases c with
  | create spec => exact createPartition_agenda h
  | addResources part spec => exact addResources_agenda h
  | removeCores part cores => exact removeCores_agenda h
  | removeSlices part slices => exact removeSlices_agenda h
  | shrinkTier part tier share => exact shrinkTier_agenda h
  | destroy part =>
    rw [State.begin_] at h
    split at h
    · cases h; simp
    · cases h

@[simp] theorem finish_agenda (s : State) (c : HostCommand) : (s.finish c).agenda = s.agenda := by
  cases c with
  | destroy part => exact finishDestroy_agenda s part
  | _ => rfl

@[simp] theorem carryOn_agenda (s : State) (port : Nat) (c : HostCommand) : (s.carryOn port c).agenda = s.agenda := by
  unfold State.carryOn
  split <;> simp

@[simp] theorem beginCommand_agenda (s : State) (port seq : Nat) (c : HostCommand) :
    (s.beginCommand port seq c).agenda = s.agenda := by
  unfold State.beginCommand
  split
  · simp
  · split
    · next h => simp [begin_agenda h]
    · simp

@[simp] theorem lookAfter_agenda (s : State) : (s.lookAfter).agenda = s.agenda := by
  unfold State.lookAfter
  split <;> simp

@[simp] theorem countThermal_agenda (s : State) : (s.countThermal).agenda = s.agenda := by rfl

/-! ## Run -/

@[simp] theorem tick_agenda (s : State) : (s.tick).agenda = s.agenda := by rfl

end Sys2Proof.Proofs
end

