-- ==== Sys2Proof/Proofs/Answers.lean ====
section
/-!
Every word and every event answers a next state with the agenda of the one before.
-/

namespace Sys2Proof.Proofs

open Sys2Proof Sys2Proof.Machine Sys2Proof.Laws

/-- The answer to s is a next state, with the agenda of s. -/
def Answers (s : State) (a : Answer) : Prop := ∃ t, a = .next t ∧ t.agenda = s.agenda

@[simp] theorem answers_next (s t : State) : Answers s (.next t) ↔ t.agenda = s.agenda := by simp [Answers]

@[simp] theorem answers_ite (s : State) (c : Prop) [Decidable c] (a b : Answer) :
    Answers s (if c then a else b) ↔ if c then Answers s a else Answers s b := by split <;> rfl

/-! ## Ops -/

/-- A group is in flight and issues next. -/
def InFlight (s : State) : Prop := ∃ g, s.current = some g

/-- R66: the issue of a word by a group in flight, whether it faults, holds or has its effect. -/
theorem issue_answers {s : State} (h : InFlight s) {w : WordRule} {regs : List Nat} {fill : Group → State → State}
    {hold : Group → State → Bool} {effect : Group → State → State} (hf : ∀ g s, (fill g s).agenda = s.agenda)
    (he : ∀ g s, (effect g s).agenda = s.agenda) : Answers s (issue w regs fill hold effect s) := by
  obtain ⟨g, hg⟩ := h
  unfold issue
  rw [hg]
  dsimp only
  split
  · simp
  · simp [hf, he]

@[simp] theorem noFill_eq (g : Group) (s : State) : noFill g s = s := by rfl

/-! ## Operands -/

theorem arithWord_answers {s : State} (h : InFlight s) (w : WordRule) (vd nd : Nat) (srcs : List Nat)
    (guard : Thread → Bool)
    (f : Group → Thread → List Word × BitVec 5) :
    Answers s (arithWord w vd nd srcs guard f s) := by
  unfold arithWord
  exact issue_answers h (fun g s => by simp) fun g s => by simp

theorem intV3_answers {s : State} (h : InFlight s) (o : V3Args) (f : Word → Word → Word) :
    Answers s (intV3 o f s) := arithWord_answers h ..

theorem intV2_answers {s : State} (h : InFlight s) (o : V2Args) (f : Word → Word) :
    Answers s (intV2 o f s) := arithWord_answers h ..

theorem intVI_answers {s : State} (h : InFlight s) (o : VIArgs) (imm : Group → BitVec 6 → Word)
    (f : Word → Word → Word) :
    Answers s (intVI o imm f s) := arithWord_answers h ..

theorem intThird_answers {s : State} (h : InFlight s) (o : V3Args) (f : Word → Word → Word → Word) :
    Answers s (intThird o f s) := by
  unfold intThird
  exact issue_answers h (fun g s => by simp) fun g s => by simp

theorem intThird64_answers {s : State} (h : InFlight s) (o : V3Args) (f : Word → Word → DWord → DWord) :
    Answers s (intThird64 o f s) := by
  unfold intThird64
  exact issue_answers h (fun g s => by simp) fun g s => by simp

/-! ## Integer -/

theorem intPair_answers {s : State} (h : InFlight s) (o : V3Args) (nb : Nat) (f : DWord → Thread → DWord) :
    Answers s (intPair o nb f s) := arithWord_answers h ..

/-! ## WarpRegs -/

theorem warpWord_answers {s : State} (h : InFlight s) (guard : BitVec 3) (wd : BitVec 5) (f : Warp → DWord) :
    Answers s (warpWord guard wd f s) := by
  unfold warpWord
  exact issue_answers h (fun g s => by simp) fun g s => by simp

theorem warp3_answers {s : State} (h : InFlight s) (o : W3Args) (f : DWord → DWord → DWord) :
    Answers s (warp3 o f s) := warpWord_answers h ..

theorem execV2w_answers {s : State} (h : InFlight s) (o : WVArgs) : Answers s (execV2w o s) := by
  unfold execV2w
  exact issue_answers h (fun g s => by simp) fun g s => foldl_agenda (fun s w => by split <;> simp) _ _

theorem execW2v_answers {s : State} (h : InFlight s) (o : VWArgs) : Answers s (execW2v o s) := by
  unfold execW2v
  exact issue_answers h (fun _ _ => rfl) fun _ _ => rfl

/-! ## Float -/

theorem floatV3_answers {s : State} (h : InFlight s) (o : V3Args) (rnd : Bool) (f : Nat → Word → Word → FResult) :
    Answers s (floatV3 o rnd f s) := arithWord_answers h ..

theorem floatV2_answers {s : State} (h : InFlight s) (o : V2Args) (rnd : Bool) (f : Nat → Word → FResult) :
    Answers s (floatV2 o rnd f s) := arithWord_answers h ..

theorem floatThird_answers {s : State} (h : InFlight s) (o : V3Args) (f : Nat → Word → Word → Word → FResult) :
    Answers s (floatThird o f s) := by
  unfold floatThird
  exact issue_answers h (fun g s => by simp) fun g s => by simp

/-! ## Sfu -/

theorem sfuWord_answers {s : State} (h : InFlight s) (fn : Nat) (o : SfuArgs) :
    Answers s (sfuWord fn o s) := by
  unfold sfuWord
  exact issue_answers h (fun g s => by simp) fun g s => by simp

theorem execSfuComplete_answers (op keep : Nat) (s : State) : Answers s (execSfuComplete op keep s) := by
  unfold execSfuComplete
  (repeat' split) <;> simp

/-! ## Compare -/

theorem compareWord_answers {s : State} (h : InFlight s) (c : CmpCond) (o : CmpArgs) :
    Answers s (compareWord c o s) := by
  unfold compareWord
  exact issue_answers h (fun g s => by simp) fun g s => by simp

theorem predWord_answers {s : State} (h : InFlight s) (pd guard : BitVec 3) (neg : Bool) (f : Thread → Bool) :
    Answers s (predWord pd guard neg f s) := by
  unfold predWord
  exact issue_answers h (fun g s => by simp) fun g s => by simp

theorem pred3_answers {s : State} (h : InFlight s) (o : P3Args) (f : Bool → Bool → Bool) :
    Answers s (pred3 o f s) := predWord_answers h ..

/-! ## Fetch -/

@[simp] theorem modifierFault_answers (s : State) (g : Group) (code : BitVec 8) : Answers s (s.modifierFault g code) := by
  simp [State.modifierFault]

@[simp] theorem fetchFault_answers (code : BitVec 8) (g : Group) (s : State) : Answers s (fetchFault code g s) := by
  simp [fetchFault]

/-! ## Control -/

theorem execClauseHeader_answers {s : State} (h : InFlight s) (o : HeaderArgs) : Answers s (execClauseHeader o s) := by
  obtain ⟨g, hg⟩ := h
  simp [execClauseHeader, hg]

theorem modifierWord_answers {s : State} (h : InFlight s) (misplaced : Mods → Bool) (add : Mods → DWord → Mods) :
    Answers s (modifierWord misplaced add s) := by
  obtain ⟨g, hg⟩ := h
  simp [modifierWord, hg]

theorem transferWord_answers {s : State} (h : InFlight s) (regs srcs : List Nat) (guard : BitVec 3) (neg : Bool)
    (l : Link) (target : Group → Thread → DWord) :
    Answers s (transferWord regs srcs guard neg l target s) := by
  unfold transferWord
  exact issue_answers h (fun g s => by simp) fun g s => by simp

theorem execExit_answers {s : State} (h : InFlight s) (o : CtlGArgs) : Answers s (execExit o s) := by
  unfold execExit
  exact issue_answers h (fun g s => by simp) fun g s => by simp

theorem execDemote_answers {s : State} (h : InFlight s) (o : CtlGArgs) : Answers s (execDemote o s) := by
  unfold execDemote
  exact issue_answers h (fun _ _ => rfl) fun _ _ => rfl

theorem execYield_answers {s : State} (h : InFlight s) (o : CtlGArgs) : Answers s (execYield o s) := by
  unfold execYield
  exact issue_answers h (fun _ _ => rfl) fun _ _ => rfl

theorem execNop_answers {s : State} (h : InFlight s) (o : CtlGArgs) : Answers s (execNop o s) := by
  unfold execNop
  exact issue_answers h (fun _ _ => rfl) fun _ _ => rfl

theorem execBkpt_answers {s : State} (h : InFlight s) (o : CtlBArgs) : Answers s (execBkpt o s) := by
  unfold execBkpt
  exact issue_answers h (fun _ _ => rfl) fun _ _ => rfl

/-! ## CrossLane -/

theorem crossWord_answers {s : State} (h : InFlight s) (regs srcs : List Nat) (f : Workgroup → Thread → Thread) :
    Answers s (crossWord regs srcs f s) := by
  unfold crossWord
  exact issue_answers h (fun g s => by dsimp only; split <;> simp) fun g s => by simp

theorem shuffleWord_answers {s : State} (h : InFlight s) (o : X3Args) (countsWrap : Bool) (raw : Nat → Nat → Int) :
    Answers s (shuffleWord o countsWrap raw s) := crossWord_answers h ..

theorem quadWord_answers {s : State} (h : InFlight s) (o : X2Args) (x : Nat) :
    Answers s (quadWord o x s) := shuffleWord_answers h ..

theorem execSgset_answers {s : State} (h : InFlight s) (o : XSetArgs) : Answers s (execSgset o s) := by
  unfold execSgset
  exact issue_answers h (fun g s => by simp) fun _ _ => rfl

/-! ## LoadStore -/

theorem loadWord_answers {s : State} (h : InFlight s) (func : Nat) (o : MArgs) :
    Answers s (loadWord func o s) := by
  unfold loadWord
  exact issue_answers h (fun g s => by simp) fun g s => by simp

theorem decodeLoadWord_answers {s : State} (h : InFlight s) (func : Nat) (o : MArgs) :
    Answers s (decodeLoadWord func o s) := by
  unfold decodeLoadWord
  exact issue_answers h (fun g s => by simp) fun g s =>
    eachActing_agenda _ _ _ fun k r t s => by dsimp only; split <;> simp

theorem execLoadComplete_answers (op keep : Nat) (s : State) : Answers s (execLoadComplete op keep s) := by
  unfold execLoadComplete
  (repeat' split) <;> simp

theorem execRegisterSpill_answers (wg warp lane : Nat) (regs : BitVec 64) (s : State) :
    Answers s (execRegisterSpill wg warp lane regs s) := by
  simp only [execRegisterSpill]
  (repeat' split) <;> simp

theorem storeLike_answers {s : State} (h : InFlight s) (o : MSArgs) (n nregs : Nat) (need : Rights) (taints : Bool)
    (mk : Thread → Access → OpKind) :
    Answers s (storeLike o n nregs need taints mk s) := by
  unfold storeLike
  exact issue_answers h (fun g s => by simp) fun g s =>
    (taintActing_agenda ..).trans (eachActing_agenda _ _ _ fun k r t s => by dsimp only; (repeat' split) <;> simp)

theorem storeWord_answers {s : State} (h : InFlight s) (func : Nat) (o : MSArgs) :
    Answers s (storeWord func o s) := storeLike_answers h ..

theorem atomWord_answers {s : State} (h : InFlight s) (func : Nat) (v4 : V4Use) (o : MArgs) :
    Answers s (atomWord func v4 o s) := by
  unfold atomWord
  exact issue_answers h (fun g s => by simp) fun g s => by simp

theorem execAtomComplete_answers (op keep : Nat) (s : State) : Answers s (execAtomComplete op keep s) := by
  unfold execAtomComplete
  (repeat' split) <;> simp

theorem redmWord_answers {s : State} (h : InFlight s) (func : Nat) (o : MSArgs) :
    Answers s (redmWord func o s) := storeLike_answers h ..

theorem execStoreAcknowledgement_answers (op : Nat) (s : State) : Answers s (execStoreAcknowledgement op s) := by
  unfold execStoreAcknowledgement
  split
  · split
    · next h => simp [ackStore_agenda _ (landStore_agenda h)]
    · simp
  · simp

theorem execDeferredStorePerform_answers (op : Nat) (s : State) : Answers s (execDeferredStorePerform op s) := by
  unfold execDeferredStorePerform
  split
  · next o _ =>
    cases hr : s.landStore o with
    | none => simp
    | some r =>
      have h := landStore_agenda hr
      cases r <;> simp_all
  · simp
  · simp

theorem spadLoadWord_answers {s : State} (h : InFlight s) (func nregs : Nat) (reads : Bool) (o : SpArgs) :
    Answers s (spadLoadWord func nregs reads o s) := by
  unfold spadLoadWord
  exact issue_answers h (fun g s => by simp) fun g s =>
    eachActing_agenda _ _ _ fun k r t s => by dsimp only; split <;> simp

theorem spadStoreWord_answers {s : State} (h : InFlight s) (func nregs : Nat) (o : SpSArgs) :
    Answers s (spadStoreWord func nregs o s) := by
  unfold spadStoreWord
  exact issue_answers h (fun g s => by simp) fun g s =>
    eachActing_agenda _ _ _ fun k r t s => by dsimp only; split <;> simp

theorem execSpadLoadComplete_answers (op keep : Nat) (s : State) :
    Answers s (execSpadLoadComplete op keep s) := by
  unfold execSpadLoadComplete
  (repeat' split) <;> simp

theorem execFence_answers {s : State} (h : InFlight s) (o : FenArgs) : Answers s (execFence o s) := by
  unfold execFence
  exact issue_answers h (fun g s => by simp) fun g s => by
    split
    · rfl
    · exact (retireFences_agenda _).trans (eachActing_agenda _ _ _ fun _ _ _ _ => addOp_agenda ..)

theorem cacheWord_answers {s : State} (h : InFlight s) (func : Nat) (need : Rights) (o : McArgs) :
    Answers s (cacheWord func need o s) := by
  unfold cacheWord
  exact issue_answers h (fun g s => by simp) fun g s =>
    eachActing_agenda _ _ _ fun k r t s => by dsimp only; (repeat' split) <;> simp

theorem prefetchWord_answers {s : State} (h : InFlight s) (intoL1 : Bool) (o : McArgs) :
    Answers s (prefetchWord intoL1 o s) := by
  unfold prefetchWord
  exact issue_answers h (fun g s => by simp) fun g s => by simp

theorem execLineEviction_answers (core : Nat) (l2 : Bool) (line : Nat) (s : State) :
    Answers s (execLineEviction core l2 line s) := by simp [execLineEviction]

/-! ## Quant -/

theorem execQst_answers {s : State} (h : InFlight s) (o : MArgs) : Answers s (execQst o s) := by
  unfold execQst
  exact issue_answers h (fun g s => by simp) fun g s =>
    eachActing_agenda _ _ _ fun k r t s => quantEach_agenda _ _ _ _ _ fun t x xs s => by
      dsimp only
      (repeat' split) <;> simp

theorem quantWord_answers {s : State} (h : InFlight s) (o : QbArgs) (f : Word → List Word → List Word × BitVec 5) :
    Answers s (quantWord o f s) := by
  unfold quantWord
  exact issue_answers h (fun g s => by simp) fun g s =>
    eachActing_agenda _ _ _ fun _ _ _ _ => quantEach_agenda _ _ _ _ _ fun _ _ _ _ => addOp_agenda ..

theorem execSbchk_answers {s : State} (h : InFlight s) (o : MArgs) : Answers s (execSbchk o s) := by
  unfold execSbchk
  exact issue_answers h (fun g s => by simp) fun g s =>
    eachActing_agenda _ _ _ fun k r t s => by dsimp only; (repeat' split) <;> simp

theorem execMta_answers {s : State} (h : InFlight s) (o : MArgs) : Answers s (execMta o s) := by
  unfold execMta
  exact issue_answers h (fun g s => by simp) fun g s =>
    eachActing_agenda _ _ _ fun k r t s => by dsimp only; (repeat' split) <;> simp

theorem execQblkComplete_answers (op keep : Nat) (s : State) : Answers s (execQblkComplete op keep s) := by
  unfold execQblkComplete
  (repeat' split) <;> simp

/-! ## Matrix -/

theorem execGang_answers {s : State} (h : InFlight s) (o : GangFArgs) : Answers s (execGang o s) := by
  unfold execGang
  exact issue_answers h (fun g s => by simp) fun g s =>
    eachWarp_agenda _ _ _ fun w rs s => by (repeat' split) <;> simp

theorem productWord_answers {s : State} (h : InFlight s) (func : Nat) (o : MmaArgs) :
    Answers s (productWord func o s) := by
  unfold productWord
  exact issue_answers h (fun g s => by simp) fun _ _ => rfl

theorem execRendezvousAccept_answers (wg gang : Nat) (s : State) :
    Answers s (execRendezvousAccept wg gang s) := by
  unfold execRendezvousAccept
  (repeat' split) <;> simp

theorem execRendezvousTimeout_answers (wg gang : Nat) (s : State) :
    Answers s (execRendezvousTimeout wg gang s) := by
  unfold execRendezvousTimeout
  split <;> simp

theorem execMatrixOpStart_answers (core : Nat) (s : State) : Answers s (execMatrixOpStart core s) := by
  unfold execMatrixOpStart
  (repeat' split) <;> simp

theorem execMatrixKStep_answers (core : Nat) (s : State) : Answers s (execMatrixKStep core s) := by
  unfold execMatrixKStep
  split
  · simp
  · next op _ =>
    have h := fetchStep_agenda s core op op.first
    dsimp only
    generalize s.fetchStep core op _ = x at h ⊢
    cases x <;> simp_all

theorem execMatrixOpComplete_answers (core : Nat) (s : State) : Answers s (execMatrixOpComplete core s) := by
  unfold execMatrixOpComplete
  split <;> simp

theorem execBFetchFault_answers (core : Nat) (s : State) : Answers s (execBFetchFault core s) := by
  unfold execBFetchFault
  split
  · simp
  · next op _ =>
    have h := fetchStep_agenda s core op op.first
    dsimp only
    generalize s.fetchStep core op _ = x at h ⊢
    cases x <;> simp_all

theorem execMatrixReissue_answers (wg gang : Nat) (s : State) : Answers s (execMatrixReissue wg gang s) := by
  unfold execMatrixReissue
  split <;> simp

/-! ## Tile -/

theorem execAcz_answers {s : State} (h : InFlight s) (o : TileArgs) : Answers s (execAcz o s) := by
  unfold execAcz
  exact issue_answers h (fun g s => by simp) fun g s =>
    eachWarp_agenda _ _ _ fun w rs s => by (repeat' split) <;> simp

theorem execAcrd_answers {s : State} (h : InFlight s) (o : TileVArgs) : Answers s (execAcrd o s) := by
  unfold execAcrd
  exact issue_answers h (fun g s => by simp) fun g s =>
    eachActing_agenda _ _ _ fun k r t s => by dsimp only; (repeat' split) <;> simp

theorem execAcwr_answers {s : State} (h : InFlight s) (o : TileVArgs) : Answers s (execAcwr o s) := by
  unfold execAcwr
  exact issue_answers h (fun g s => by simp) fun g s =>
    eachActing_agenda _ _ _ fun k r t s => by dsimp only; (repeat' split) <;> simp

theorem tileMemoryWord_answers {s : State} (h : InFlight s) (func : Nat) (o : TileKArgs) :
    Answers s (tileMemoryWord func o s) := by
  unfold tileMemoryWord
  exact issue_answers h (fun g s => by simp) fun g s =>
    eachWarp_agenda _ _ _ fun w rs s => by dsimp only; (repeat' split) <;> simp

theorem execTileTransferComplete_answers (op keep : Nat) (s : State) :
    Answers s (execTileTransferComplete op keep s) := by
  unfold execTileTransferComplete
  (repeat' split) <;> simp

theorem execMprg_answers {s : State} (h : InFlight s) (o : MprgArgs) : Answers s (execMprg o s) := by
  unfold execMprg
  exact issue_answers h (fun g s => by simp) fun g s => by
    have hr := (eachActing_agenda (s.ownersOnly g fun t => t.guard o.guard false) g (fun t => t.guard o.guard false)
      (fun _ r _ s => updThread_agenda s r fun t => t.setReg o.vd.toNat (s.mprogOf r))).trans (ownersOnly_agenda ..)
    split
    · exact hr
    · exact (eachWarp_agenda _ _ _ fun w rs s => by dsimp only; split <;> simp).trans hr

theorem execMrel_answers {s : State} (h : InFlight s) (o : G0Args) : Answers s (execMrel o s) := by
  unfold execMrel
  exact issue_answers h (fun g s => by simp) fun g s => by simp

/-! ## Rings -/

theorem execRingdef_answers {s : State} (h : InFlight s) (o : RingDefArgs) : Answers s (execRingdef o s) := by
  unfold execRingdef
  exact issue_answers h (fun g s => by simp) fun g s =>
    eachWarp_agenda _ _ _ fun w rs s => by (repeat' split) <;> simp

theorem execAwaitf_answers {s : State} (h : InFlight s) (o : AwaitArgs) : Answers s (execAwaitf o s) := by
  unfold execAwaitf
  exact issue_answers h (fun g s => by simp) fun g s =>
    eachWarp_agenda _ _ _ fun w rs s => by (repeat' split) <;> simp

theorem execAwaitfService_answers (op keep : Nat) (s : State) : Answers s (execAwaitfService op keep s) := by
  unfold execAwaitfService
  (repeat' split) <;> simp

theorem execAwaitfTimeout_answers (op keep : Nat) (s : State) : Answers s (execAwaitfTimeout op keep s) := by
  unfold execAwaitfTimeout
  split <;> simp

theorem execRels_answers {s : State} (h : InFlight s) (o : RelsArgs) : Answers s (execRels o s) := by
  unfold execRels
  exact issue_answers h (fun g s => by simp) fun g s =>
    eachWarp_agenda _ _ _ fun w rs s => by (repeat' split) <;> simp

theorem execReleaseReportArrival_answers (idx : Nat) (s : State) :
    Answers s (execReleaseReportArrival idx s) := by
  unfold execReleaseReportArrival
  split <;> simp

/-! ## Copy -/

theorem copyWord_answers {s : State} (h : InFlight s) (kind : Nat) (k : BitVec 3) (pd : BitVec 3) (ws : BitVec 5)
    (guard : BitVec 3) :
    Answers s (copyWord kind k pd ws guard s) := by
  unfold copyWord
  exact issue_answers h (fun g s => by simp) fun g s =>
    eachWarp_agenda _ _ _ fun w rs s => by dsimp only; split <;> simp

theorem statusWord_answers {s : State} (h : InFlight s) (k : Nat) (o : StatVArgs) :
    Answers s (statusWord k o s) := by
  unfold statusWord
  exact issue_answers h (fun g s => by simp) fun g s =>
    eachActing_agenda _ _ _ fun _ _ _ _ => updThread_agenda ..

theorem execCopyCommandStart_answers (core : Nat) (s : State) : Answers s (execCopyCommandStart core s) := by
  unfold execCopyCommandStart
  split <;> simp

theorem execCopyOpComplete_answers (core num : Nat) (s : State) : Answers s (execCopyOpComplete core num s) := by
  unfold execCopyOpComplete
  split
  · simp
  · next op _ =>
    have h := runCopy_agenda s op (s.picks.headD 0)
    generalize s.runCopy op _ = x at h ⊢
    cases x <;> simp_all

theorem execCopyTranslationFault_answers (core num : Nat) (s : State) :
    Answers s (execCopyTranslationFault core num s) := by
  unfold execCopyTranslationFault
  split
  · simp
  · next op _ =>
    have h := runCopy_agenda s op 0
    generalize s.runCopy op _ = x at h ⊢
    cases x <;> simp_all

theorem execMulticastDelivery_answers (core num member : Nat) (s : State) :
    Answers s (execMulticastDelivery core num member s) := by
  unfold execMulticastDelivery
  split
  · simp
  · next op _ =>
    have h := runCopy_agenda s op 0
    generalize s.runCopy op _ = x at h ⊢
    cases x <;> simp_all

/-! ## Refresh -/

theorem execPerBankRefreshDue_answers (stack pch : Nat) (s : State) :
    Answers s (execPerBankRefreshDue stack pch s) := by simp [execPerBankRefreshDue]

theorem execPostponedRefreshIssue_answers (stack pch : Nat) (s : State) :
    Answers s (execPostponedRefreshIssue stack pch s) := by
  simp only [execPostponedRefreshIssue]
  (repeat' split) <;> simp

theorem execAllBankRefresh_answers (stack pch : Nat) (s : State) :
    Answers s (execAllBankRefresh stack pch s) := by simp [execAllBankRefresh]

theorem execRefreshEnd_answers (stack pch : Nat) (s : State) :
    Answers s (execRefreshEnd stack pch s) := by simp [execRefreshEnd]

/-! ## Row -/

theorem rowWord_answers {s : State} (h : InFlight s) (func : Nat) (k : BitVec 3) (ws : BitVec 5) (wc : Option (BitVec 5))
    (guard : BitVec 3) :
    Answers s (rowWord func k ws wc guard s) := by
  unfold rowWord
  exact issue_answers h (fun g s => by simp) fun g s =>
    eachWarp_agenda _ _ _ fun w rs s => by dsimp only; (repeat' split) <;> simp

theorem execRowPlan_answers (core num : Nat) (s : State) : Answers s (execRowPlan core num s) := by
  unfold execRowPlan
  split
  · simp
  · next x _ =>
    split
    · simp
    · have hc := commandActions_agenda s core x.order x.scope
      dsimp only
      generalize s.commandActions core _ _ = u at hc ⊢
      have hp := planOperands_agenda u x true x.operands
      generalize u.planOperands x true _ = plan at hp ⊢
      cases plan with
      | fault d => simpa using hc
      | waits t => simpa using hp.trans hc
      | ok os =>
        have hn : ((os.flatten.foldl (fun s r => s.noteFrame r.1.pa r.1.size x.part) u).planCoeffs x).state.agenda =
            s.agenda := by simpa using hc
        dsimp only
        generalize State.planCoeffs _ x = y at hn ⊢
        cases y <;> simp_all

theorem execRowStackAccept_answers (core num : Nat) (s : State) :
    Answers s (execRowStackAccept core num s) := by
  unfold execRowStackAccept
  split <;> simp

theorem execRowSweep_answers (core num : Nat) (s : State) : Answers s (execRowSweep core num s) := by
  unfold execRowSweep
  split <;> simp

theorem execRowStep_answers (core num : Nat) (s : State) : Answers s (execRowStep core num s) := by
  unfold execRowStep
  split
  · simp
  · next x _ =>
    have h := stepPool_agenda s x x.nextStep
    dsimp only
    generalize s.stepPool x _ = y at h ⊢
    split
    · simp
    · split
      · cases y <;> simp_all
      · simp

theorem execRowResume_answers (core num : Nat) (s : State) : Answers s (execRowResume core num s) := by
  unfold execRowResume
  (repeat' split) <;> simp

/-! ## Sync -/

theorem threadWord_answers {s : State} (h : InFlight s) (rule : WordRule) (guard : BitVec 3) (regs srcs : List Nat)
    (hold : Group → State → Bool)
    {f : Group → TRef → Thread → State → State} (hf : ∀ g r t s, (f g r t s).agenda = s.agenda) :
    Answers s (threadWord rule guard regs srcs hold f s) := by
  unfold threadWord
  exact issue_answers h (fun g s => by simp) fun g s => by simp [hf]

theorem arrivalWord_answers {s : State} (h : InFlight s) (wait : Bool) (o : BarFArgs) :
    Answers s (arrivalWord wait o s) := threadWord_answers h _ _ _ _ _ fun _ _ _ _ => arrive_agenda ..

theorem execBars_answers {s : State} (h : InFlight s) (o : BarsArgs) : Answers s (execBars o s) := by
  unfold execBars
  exact threadWord_answers h _ _ _ _ _ fun g r t s => by split <;> simp

theorem execBarrierTimerExpiry_answers (wg bar : Nat) (s : State) :
    Answers s (execBarrierTimerExpiry wg bar s) := by
  unfold execBarrierTimerExpiry
  (repeat' split) <;> simp

theorem execWarm_answers {s : State} (h : InFlight s) (o : PairQArgs) : Answers s (execWarm o s) := by
  unfold execWarm
  exact issue_answers h (fun g s => by simp) fun g s => by simp

theorem execWarmComplete_answers (op keep : Nat) (s : State) : Answers s (execWarmComplete op keep s) := by
  unfold execWarmComplete
  split
  · next o _ =>
    split
    · next a _ =>
      have h := performRead_agenda s (s.opCore o) (s.opPart o) a
      split
      · simp
      · generalize s.performRead _ _ a = x at h ⊢
        cases x with
        | done t bs b => exact (answers_next ..).2 ((complete_agenda o keep (by simp)).trans h)
        | waits t => exact (answers_next ..).2 (complete_agenda o keep h)
        | fault t d => exact (answers_next ..).2 (complete_agenda o keep h)
    · simp
  · simp

theorem execWwait_answers {s : State} (h : InFlight s) (o : G0Args) : Answers s (execWwait o s) :=
  threadWord_answers h _ _ _ _ _ fun _ _ _ _ => updThread_agenda ..

theorem execSpuriousTrigger_answers (wg warp lane : Nat) (s : State) :
    Answers s (execSpuriousTrigger wg warp lane s) := by simp [execSpuriousTrigger]

theorem execWwaitTimeout_answers (wg warp lane : Nat) (s : State) :
    Answers s (execWwaitTimeout wg warp lane s) := by
  simp only [execWwaitTimeout]
  (repeat' split) <;> simp

theorem execWaitv_answers {s : State} (h : InFlight s) (o : WaitvArgs) : Answers s (execWaitv o s) :=
  threadWord_answers h _ _ _ _ _ fun _ _ _ _ => waitv_agenda ..

theorem execWaitvEvaluation_answers (wg warp lane : Nat) (s : State) :
    Answers s (execWaitvEvaluation wg warp lane s) := by
  unfold execWaitvEvaluation
  dsimp only
  split
  · next cs all vt d _ site _ =>
    have h := evaluate_agenda s { wg := wg, warp := warp, lane := lane } (s.coreOf wg) (s.partOf wg) cs 0
    generalize s.evaluate _ _ _ cs 0 = x at h ⊢
    cases x <;> simp_all
  · simp

theorem execWaitvDeadline_answers (wg warp lane : Nat) (s : State) :
    Answers s (execWaitvDeadline wg warp lane s) := by
  simp only [execWaitvDeadline]
  (repeat' split) <;> simp

theorem execTlwait_answers {s : State} (h : InFlight s) (o : TlwArgs) : Answers s (execTlwait o s) :=
  threadWord_answers h _ _ _ _ _ fun _ _ _ _ => tlwait_agenda ..

theorem execTlrd_answers {s : State} (h : InFlight s) (o : TlrArgs) : Answers s (execTlrd o s) :=
  threadWord_answers h _ _ _ _ _ fun _ _ _ _ => updThread_agenda ..

theorem execSleep_answers {s : State} (h : InFlight s) (o : SlpArgs) : Answers s (execSleep o s) := by
  unfold execSleep
  exact threadWord_answers h _ _ _ _ _ fun g r t s => by dsimp only; split <;> simp

theorem execSleepExpiry_answers (wg warp lane : Nat) (s : State) :
    Answers s (execSleepExpiry wg warp lane s) := by
  simp only [execSleepExpiry]
  (repeat' split) <;> simp

/-! ## Tier -/

theorem rangeWord_answers {s : State} (h : InFlight s) (func : Nat) (o : RangeFArgs) :
    Answers s (rangeWord func o s) := by
  unfold rangeWord
  exact issue_answers h (fun g s => by simp) fun g s =>
    eachWarp_agenda _ _ _ fun w rs s => by dsimp only; (repeat' split) <;> simp

theorem queryWord_answers {s : State} (h : InFlight s) (kind n : Nat) (o : PairQArgs) :
    Answers s (queryWord kind n o s) := by
  unfold queryWord
  exact issue_answers h (fun g s => by simp) fun g s => eachActing_agenda _ _ _ fun k r t s => by split <;> simp

theorem execTqryOp_answers {s : State} (h : InFlight s) (o : QOpArgs) : Answers s (execTqryOp o s) := by
  unfold execTqryOp
  exact issue_answers h (fun g s => by simp) fun g s => eachActing_agenda _ _ _ fun _ _ _ _ => addOp_agenda ..

theorem execQueryComplete_answers (op keep : Nat) (s : State) : Answers s (execQueryComplete op keep s) := by
  unfold execQueryComplete
  (repeat' split) <;> simp

theorem execPoolRemoteRequest_answers (granule : Nat) (excl : Bool) (s : State) :
    Answers s (execPoolRemoteRequest granule excl s) := by
  unfold execPoolRemoteRequest
  (repeat' split) <;> simp

theorem execPoolGrant_answers (granule : Nat) (excl : Bool) (s : State) :
    Answers s (execPoolGrant granule excl s) := by
  unfold execPoolGrant
  (repeat' split) <;> simp

theorem execPoolStateChange_answers (granule state : Nat) (s : State) :
    Answers s (execPoolStateChange granule state s) := by
  unfold execPoolStateChange
  (repeat' split) <;> simp

theorem execPoolWaitLimitExpiry_answers (op : Nat) (s : State) : Answers s (execPoolWaitLimitExpiry op s) := by
  unfold execPoolWaitLimitExpiry
  (repeat' split) <;> simp

theorem execMoveCopyPhase_answers (move : Nat) (s : State) : Answers s (execMoveCopyPhase move s) := by
  unfold execMoveCopyPhase
  split
  · next m _ =>
    have h := acquire_agenda s (engineAgent 8 0 m.id) m.part m.leaf [m.target, m.leaf.pa]
    generalize s.acquire _ _ _ _ = x at h ⊢
    split
    · simp
    · cases x with
      | held => simp
      | waits t => simpa using h
      | fault d => dsimp only; split <;> simp
  · simp

theorem execMoveSwitch_answers (move : Nat) (s : State) : Answers s (execMoveSwitch move s) := by
  unfold execMoveSwitch
  split <;> simp

theorem execMoveCommit_answers (move : Nat) (s : State) : Answers s (execMoveCommit move s) := by
  simp only [execMoveCommit]
  (repeat' split) <;> simp

theorem execMoveRetire_answers (move : Nat) (s : State) : Answers s (execMoveRetire move s) := by
  unfold execMoveRetire
  (repeat' split) <;> simp

theorem execTierCommandAccept_answers (core num : Nat) (s : State) :
    Answers s (execTierCommandAccept core num s) := by
  unfold execTierCommandAccept
  split <;> simp

theorem execTierOpComplete_answers (core num : Nat) (s : State) :
    Answers s (execTierOpComplete core num s) := by
  unfold execTierOpComplete
  split <;> simp

theorem execMigrHostReport_answers (core num : Nat) (moved : Bool) (s : State) :
    Answers s (execMigrHostReport core num moved s) := by
  unfold execMigrHostReport
  split <;> simp

theorem execCounterHalving_answers (s : State) :
    Answers s (execCounterHalving s) := by simp [execCounterHalving]

theorem execPromotionPolicy_answers (part page : Nat) (s : State) : Answers s (execPromotionPolicy part page s) := by
  unfold execPromotionPolicy
  split
  · next p l _ _ =>
    dsimp only
    split
    · simp
    · split
      · simp
      · next t _ =>
        have h := ownMove_agenda s part l t
        generalize s.ownMove part l t = x at h ⊢
        cases x <;> simp_all
  · simp

theorem execFrameRetirement_answers (part page : Nat) (s : State) : Answers s (execFrameRetirement part page s) := by
  unfold execFrameRetirement
  split
  · next p l _ _ =>
    have h := ownMove_agenda s part l (tierOf l.pa)
    generalize s.ownMove part l _ = x at h ⊢
    cases x <;> simp_all
  · simp

theorem execManagementPageMove_answers (part page tier frame : Nat) (s : State) :
    Answers s (execManagementPageMove part page tier frame s) := by
  unfold execManagementPageMove
  split <;> simp

theorem execFrameGenerationChange_answers (frame gen : Nat) (s : State) :
    Answers s (execFrameGenerationChange frame gen s) := by simp [execFrameGenerationChange]

theorem execTlbEntryDrop_answers (core page : Nat) (s : State) :
    Answers s (execTlbEntryDrop core page s) := by simp [execTlbEntryDrop]

/-! ## Launch -/

theorem execDlaunch_answers {s : State} (h : InFlight s) (o : DlArgs) : Answers s (execDlaunch o s) := by
  unfold execDlaunch
  exact issue_answers h (fun g s => by simp) fun _ _ => rfl

theorem execDescriptorReadComplete_answers (launch : Nat) (s : State) :
    Answers s (execDescriptorReadComplete launch s) := by
  unfold execDescriptorReadComplete
  split
  · simp
  · next l _ =>
    have h := (readDescriptor_agenda (s.commandActions (s.coreOf l.wg) 2 2) (engineAgent 5 (s.coreOf l.wg) l.id)
      (s.coreOf l.wg) l.part l.desc).trans (commandActions_agenda ..)
    split
    · simp
    · dsimp only
      generalize State.readDescriptor _ _ _ _ _ = x at h ⊢
      cases x with
      | waits t => simpa using h
      | fault t d => simpa using h
      | ok t d => dsimp only; (repeat' split) <;> simpa using h

/-! ## Sched -/

theorem execEnq_answers {s : State} (h : InFlight s) (o : EnqFArgs) : Answers s (execEnq o s) := by
  unfold execEnq
  dsimp only
  refine issue_answers h (fun g s => ?_) fun g s => eachActing_agenda _ _ _ fun k r t s => by (repeat' split) <;> simp
  generalize State.pushLacks _ g _ _ = lacks
  cases lacks <;> simp

theorem execStq_answers {s : State} (h : InFlight s) (o : StqFArgs) : Answers s (execStq o s) := by
  unfold execStq
  exact issue_answers h (fun g s => by cases s.readLacks g _ _ <;> simp) fun g s =>
    eachActing_agenda _ _ _ fun k r t s => by dsimp only; (repeat' split) <;> simp

theorem execIdemb_answers {s : State} (h : InFlight s) (o : G0Args) : Answers s (execIdemb o s) :=
  threadWord_answers h _ _ _ _ _ fun _ _ _ _ => rfl

theorem execIdeme_answers {s : State} (h : InFlight s) (o : G0Args) : Answers s (execIdeme o s) :=
  threadWord_answers h _ _ _ _ _ fun _ _ _ _ => updThread_agenda ..

theorem execWorkgroupStart_answers (handle stage : Nat) (cores : List Nat) (s : State) :
    Answers s (execWorkgroupStart handle stage cores s) := by
  simp only [execWorkgroupStart]
  (repeat' split) <;> simp

theorem execStealRequest_answers (core : Nat) (s : State) : Answers s (execStealRequest core s) := by
  simp only [execStealRequest]
  (repeat' split) <;> simp

theorem execPreemptionRequest_answers (handle stage : Nat) (s : State) :
    Answers s (execPreemptionRequest handle stage s) := by
  unfold execPreemptionRequest
  split
  · next h =>
    obtain ⟨part, -, h⟩ := List.exists_of_findSome?_eq_some h
    simp [preempt_agenda h]
  · simp

theorem execDrainBoundExpiry_answers (wg : Nat) (s : State) : Answers s (execDrainBoundExpiry wg s) := by
  unfold execDrainBoundExpiry
  (repeat' split) <;> simp

theorem execWorkgroupSave_answers (wg : Nat) (s : State) : Answers s (execWorkgroupSave wg s) := by
  simp only [execWorkgroupSave]
  (repeat' split) <;> simp

theorem execWorkgroupFlush_answers (wg : Nat) (s : State) : Answers s (execWorkgroupFlush wg s) := by
  unfold execWorkgroupFlush
  split <;> simp

theorem execWorkgroupResume_answers (wg core : Nat) (s : State) :
    Answers s (execWorkgroupResume wg core s) := by
  unfold execWorkgroupResume
  (repeat' split) <;> simp

theorem execWorkgroupEnd_answers (wg : Nat) (s : State) : Answers s (execWorkgroupEnd wg s) := by
  unfold execWorkgroupEnd
  split <;> simp

theorem execPipelineComplete_answers (part handle : Nat) (s : State) :
    Answers s (execPipelineComplete part handle s) := by
  simp only [execPipelineComplete]
  (repeat' split) <;> simp

theorem execBandwidthWindowRelease_answers (_part : Nat) (s : State) :
    Answers s (execBandwidthWindowRelease _part s) := by simp [execBandwidthWindowRelease]

/-! ## System -/

theorem illegalWord_answers {s : State} (h : InFlight s) (code : BitVec 8) : Answers s (illegalWord code s) := by
  obtain ⟨g, hg⟩ := h
  simp [illegalWord, hg]

theorem illegalFields_answers {s : State} (h : InFlight s) (w : Word) : Answers s (illegalFields w s) := by
  have hw := illegalWord_answers h codeIllegalEncoding
  obtain ⟨g, hg⟩ := h
  simp [illegalFields, hg, hw]

theorem execTrap_answers {s : State} (h : InFlight s) (o : TrapFArgs) : Answers s (execTrap o s) := by
  unfold execTrap
  exact issue_answers h (fun g s => by simp) fun g s => by simp

theorem execSysc_answers {s : State} (h : InFlight s) (o : SyscFArgs) : Answers s (execSysc o s) := by
  unfold execSysc
  exact issue_answers h (fun g s => by simp) fun g s => by simp

theorem execSyscComplete_answers (op : Nat) (result : BitVec 64) (keep : Nat) (s : State) :
    Answers s (execSyscComplete op result keep s) := by
  unfold execSyscComplete
  (repeat' split) <;> simp

theorem execFcall_answers {s : State} (h : InFlight s) (o : G0Args) : Answers s (execFcall o s) := by
  unfold execFcall
  exact threadWord_answers h _ _ _ _ _ fun g r t s => by split <;> simp

theorem execRett_answers {s : State} (h : InFlight s) (o : G0Args) : Answers s (execRett o s) :=
  threadWord_answers h _ _ _ _ _ fun _ _ _ _ => rettThread_agenda ..

theorem execS2v_answers {s : State} (h : InFlight s) (o : S2vFArgs) : Answers s (execS2v o s) := by
  unfold execS2v
  exact threadWord_answers h _ _ _ _ _ fun g r t s => by dsimp only; (repeat' split) <;> simp

theorem execV2s_answers {s : State} (h : InFlight s) (o : V2sFArgs) : Answers s (execV2s o s) := by
  unfold execV2s
  exact threadWord_answers h _ _ _ _ _ fun g r t s => by simp

theorem execTlbi_answers {s : State} (h : InFlight s) (o : TlbiFArgs) : Answers s (execTlbi o s) :=
  threadWord_answers h _ _ _ _ _ fun _ _ _ _ => raise_agenda ..

theorem execTrapEntry_answers (wg warp lane : Nat) (s : State) : Answers s (execTrapEntry wg warp lane s) := by
  unfold execTrapEntry
  (repeat' split) <;> simp

theorem execFaultRecordQueued_answers (core : Nat) (s : State) : Answers s (execFaultRecordQueued core s) := by
  simp only [execFaultRecordQueued]
  (repeat' split) <;> simp

theorem resumeOrSkip_answers (skip : Bool) (part seq : Nat) (s : State) : Answers s (resumeOrSkip skip part seq s) := by
  unfold resumeOrSkip
  dsimp only
  (repeat' split) <;> simp

theorem execResumeAction_answers (part seq : Nat) (s : State) : Answers s (execResumeAction part seq s) :=
  resumeOrSkip_answers ..

theorem execSkipAction_answers (part seq : Nat) (s : State) : Answers s (execSkipAction part seq s) :=
  resumeOrSkip_answers ..

theorem execKillAction_answers (part seq : Nat) (s : State) : Answers s (execKillAction part seq s) := by
  unfold execKillAction
  split <;> simp

theorem execDeliverAction_answers (part seq : Nat) (s : State) : Answers s (execDeliverAction part seq s) := by
  unfold execDeliverAction
  (repeat' split) <;> simp

theorem execEngineFaultService_answers (part seq : Nat) (stop : Bool) (s : State) :
    Answers s (execEngineFaultService part seq stop s) := by
  simp only [execEngineFaultService]
  (repeat' split) <;> simp

theorem execWatchdogExpiry_answers (wg : Nat) (s : State) : Answers s (execWatchdogExpiry wg s) := by
  unfold execWatchdogExpiry
  split <;> simp

theorem execTlbInvalidation_answers (part : Nat) (scope : InvScope) (s : State) :
    Answers s (execTlbInvalidation part scope s) := by simp [execTlbInvalidation]

theorem execServiceCoreAccess_answers (part : Nat) (acc : ServiceAccess) (s : State) :
    Answers s (execServiceCoreAccess part acc s) := by
  unfold execServiceCoreAccess
  (repeat' split) <;> simp

/-! ## Form -/

theorem execIssueGroupFormation_answers (core picker : Nat) (s : State) :
    Answers s (execIssueGroupFormation core picker s) := by
  simp only [execIssueGroupFormation]
  (repeat' split) <;> simp

theorem execYieldMarkExpiry_answers (wg warp lane : Nat) (s : State) :
    Answers s (execYieldMarkExpiry wg warp lane s) := by simp [execYieldMarkExpiry]

theorem execCollectiveStallTimeout_answers (wg warp lane : Nat) (s : State) :
    Answers s (execCollectiveStallTimeout wg warp lane s) := by
  unfold execCollectiveStallTimeout
  (repeat' split) <;> simp

theorem execCollectiveHoldTimeout_answers (group : Nat) (s : State) :
    Answers s (execCollectiveHoldTimeout group s) := by
  unfold execCollectiveHoldTimeout
  (repeat' split) <;> simp

/-! ## Host -/

theorem execPackageReset_answers (s : State) : Answers s (execPackageReset s) := by simp [execPackageReset]

theorem execThermalReset_answers (_die : Nat) (s : State) :
    Answers s (execThermalReset _die s) := by simp [execThermalReset]

theorem execPowerLoss_answers (s : State) : Answers s (execPowerLoss s) := by simp [execPowerLoss]

theorem spdmFrom_answers (s : State) (port need : Nat) {f : State → State} (h : (f s).agenda = s.agenda) :
    Answers s (s.spdmFrom port need f) := by
  simp [State.spdmFrom, h]

theorem execGetVersion_answers (port : Nat) (s : State) :
    Answers s (execGetVersion port s) :=
  spdmFrom_answers _ _ _ (by simp)

theorem execGetCapabilities_answers (port : Nat) (s : State) :
    Answers s (execGetCapabilities port s) :=
  spdmFrom_answers _ _ _ (by simp)

theorem execNegotiateAlgorithms_answers (port asym hash : Nat) (s : State) :
    Answers s (execNegotiateAlgorithms port asym hash s) :=
  spdmFrom_answers _ _ _ (by simp)

theorem execGetDigests_answers (port : Nat) (s : State) :
    Answers s (execGetDigests port s) :=
  spdmFrom_answers _ _ _ (by simp)

theorem execGetCertificate_answers (port slot : Nat) (s : State) :
    Answers s (execGetCertificate port slot s) :=
  spdmFrom_answers _ _ _ (by simp)

theorem execChallenge_answers (port nonce : Nat) (s : State) :
    Answers s (execChallenge port nonce s) :=
  spdmFrom_answers _ _ _ (by simp)

theorem execGetMeasurements_answers (port index : Nat) (s : State) : Answers s (execGetMeasurements port index s) :=
  spdmFrom_answers _ _ _ (by (repeat' split) <;> simp)

theorem execDeviceStatusWrite_answers (port fn vf val : Nat) (s : State) :
    Answers s (execDeviceStatusWrite port fn vf val s) := by simp [execDeviceStatusWrite]

theorem execSemaphoreClaim_answers (port0 port1 : Bool) (s : State) :
    Answers s (execSemaphoreClaim port0 port1 s) := by simp [execSemaphoreClaim]

theorem execLeaseRenew_answers (port : Nat) (s : State) :
    Answers s (execLeaseRenew port s) := by simp [execLeaseRenew]

theorem execSemaphoreRelease_answers (port : Nat) (s : State) :
    Answers s (execSemaphoreRelease port s) := by simp [execSemaphoreRelease]

theorem execLeaseExpiry_answers (s : State) : Answers s (execLeaseExpiry s) := by simp [execLeaseExpiry]

theorem command_answers (s : State) (port seq : Nat) {f : Option State} (h : ∀ t ∈ f, t.agenda = s.agenda) :
    Answers s (s.command port seq f) := by
  unfold State.command
  cases f <;> simp_all

theorem lifecycle_answers (s : State) (port seq : Nat) (c : HostCommand) : Answers s (s.lifecycle port seq c) := by
  simp [State.lifecycle]

theorem execCreatePartition_answers (port seq : Nat) (spec : PartSpec) (s : State) :
    Answers s (execCreatePartition port seq spec s) :=
  lifecycle_answers ..

theorem execResizeAddResources_answers (port seq part : Nat) (spec : PartSpec) (s : State) :
    Answers s (execResizeAddResources port seq part spec s) :=
  lifecycle_answers ..

theorem execResizeRemoveCores_answers (port seq part : Nat) (cores : List Nat) (s : State) :
    Answers s (execResizeRemoveCores port seq part cores s) :=
  lifecycle_answers ..

theorem execResizeRemoveSlices_answers (port seq part : Nat) (slices : List Nat) (s : State) :
    Answers s (execResizeRemoveSlices port seq part slices s) :=
  lifecycle_answers ..

theorem execResizeShrinkTierShare_answers (port seq part tier share : Nat) (s : State) :
    Answers s (execResizeShrinkTierShare port seq part tier share s) :=
  lifecycle_answers ..

theorem execDestroyPartition_answers (port seq part : Nat) (s : State) :
    Answers s (execDestroyPartition port seq part s) :=
  lifecycle_answers ..

theorem execSetPowerLimit_answers (port seq watts : Nat) (s : State) : Answers s (execSetPowerLimit port seq watts s) :=
  command_answers _ _ _ (by simp)

theorem execFirmwareUpdate_answers (port seq version : Nat) (s : State) :
    Answers s (execFirmwareUpdate port seq version s) := command_answers _ _ _ (by simp)

theorem execHostLaunch_answers (port part : Nat) (desc : BitVec 64) (s : State) :
    Answers s (execHostLaunch port part desc s) := by
  have h := readDescriptor_agenda s (engineAgent 5 serviceCore port) serviceCore part desc.toNat
  unfold execHostLaunch
  generalize s.readDescriptor _ _ _ _ = x at h ⊢
  split
  · simp
  · split
    · simp
    · cases x with
      | waits t => simpa using h
      | fault t d => simpa using h
      | ok t d => dsimp only; split <;> simpa using h

theorem execCapabilityTableRead_answers (_part : Nat) (s : State) :
    Answers s (execCapabilityTableRead _part s) := by simp [execCapabilityTableRead]

theorem execPowerControllerUpdate_answers (factor : Nat) (s : State) :
    Answers s (execPowerControllerUpdate factor s) := by simp [execPowerControllerUpdate]

theorem execThermalThrottle_answers (_die : Nat) (s : State) :
    Answers s (execThermalThrottle _die s) := by simp [execThermalThrottle]

theorem execLifetimeCounterFlush_answers (s : State) :
    Answers s (execLifetimeCounterFlush s) := by simp [execLifetimeCounterFlush]

theorem execPartitionSettingWrite_answers (part : Nat) (setting : Setting) (s : State) :
    Answers s (execPartitionSettingWrite part setting s) := by simp [execPartitionSettingWrite]

end Sys2Proof.Proofs
end

