-- ==== Sys2Proof/Proofs/Events.lean ====
section
/-!
What the device does of its own accord is an event; the answer of exec for each instruction.
-/

namespace Sys2Proof.Proofs

open Sys2Proof Sys2Proof.Machine Sys2Proof.Laws

/-! ## What the device does of its own accord is an event -/

/-- Every instruction of a list is an event. -/
abbrev AllEvents (es : List Instr) : Prop := ∀ e ∈ es, Instr.isEvent e = true

theorem allEvents_nil : AllEvents [] := List.forall_mem_nil _

theorem allEvents_cons {e : Instr} {es : List Instr} (h : Instr.isEvent e = true) (hs : AllEvents es) : AllEvents (e :: es) :=
  List.forall_mem_cons.2 ⟨h, hs⟩

theorem allEvents_append {es fs : List Instr} (he : AllEvents es) (hf : AllEvents fs) : AllEvents (es ++ fs) :=
  List.forall_mem_append.2 ⟨he, hf⟩

theorem allEvents_map {α : Type} {f : α → Instr} (h : ∀ x, Instr.isEvent (f x) = true) (l : List α) : AllEvents (l.map f) :=
  List.forall_mem_map.2 fun x _ => h x

theorem allEvents_flatMap {α : Type} {f : α → List Instr} (h : ∀ x, AllEvents (f x)) (l : List α) :
    AllEvents (l.flatMap f) := fun e he => by
  obtain ⟨x, -, hx⟩ := List.mem_flatMap.1 he
  exact h x e hx

theorem allEvents_ite {c : Prop} [Decidable c] {es fs : List Instr} (he : AllEvents es) (hf : AllEvents fs) :
    AllEvents (if c then es else fs) := by split <;> assumption

/-- A list that is written out holds events only where evaluation says so. -/
theorem allEvents_of_all {es : List Instr} (h : es.all Instr.isEvent = true) : AllEvents es := List.all_eq_true.1 h

theorem pendingOp_allEvents (keep : Nat) (o : PendingOp) : AllEvents (o.events keep) := by
  unfold PendingOp.events
  split <;> exact allEvents_of_all rfl

theorem thread_allEvents (t : Thread) (wg : Nat) : AllEvents (t.events wg) := by
  unfold Thread.events
  refine allEvents_append (allEvents_append (allEvents_append ?_ ?_) ?_) ?_
  · split <;> exact allEvents_of_all rfl
  all_goals exact allEvents_ite (allEvents_of_all rfl) (allEvents_of_all rfl)

theorem workgroup_allEvents (w : Workgroup) (cores : List Nat) : AllEvents (w.events cores) := by
  unfold Workgroup.events
  split
  · refine allEvents_append (allEvents_append (allEvents_append (allEvents_append ?_ ?_) ?_) ?_) ?_
    · exact allEvents_flatMap (fun t => thread_allEvents t w.id) _
    · exact allEvents_map (fun _ => rfl) _
    · exact allEvents_flatMap (fun _ => allEvents_of_all rfl) _
    · exact allEvents_ite (allEvents_map (fun _ => rfl) _) allEvents_nil
    · exact allEvents_of_all rfl
  · exact allEvents_map (fun _ => rfl) _

theorem copyOp_allEvents (x : CopyOp) : AllEvents x.events :=
  allEvents_ite allEvents_nil (allEvents_append (allEvents_of_all rfl) (allEvents_map (fun _ => rfl) _))

theorem rowOp_allEvents (x : RowOp) : AllEvents x.events := allEvents_ite allEvents_nil (allEvents_of_all rfl)

theorem tierOp_allEvents (x : TierOp) : AllEvents x.events := allEvents_ite allEvents_nil (allEvents_of_all rfl)

theorem partition_allEvents (s : State) (p : Partition) : AllEvents (s.partEvents p) :=
  allEvents_flatMap (fun x => allEvents_cons rfl fun e he => by
    obtain ⟨es, hes, he⟩ := List.mem_flatten.1 he
    obtain ⟨i, _, rfl⟩ := List.mem_mapIdx.1 hes
    exact allEvents_cons rfl (allEvents_map (fun _ => rfl) _) e he) _

theorem state_allEvents (s : State) : AllEvents s.events := by
  unfold State.events
  iterate 18 refine allEvents_append ?_ ?_
  · exact allEvents_flatMap (pendingOp_allEvents _) _
  · exact allEvents_flatMap (fun w => workgroup_allEvents w _) _
  · exact allEvents_flatMap (fun _ => allEvents_of_all rfl) _
  · exact allEvents_flatMap copyOp_allEvents _
  · exact allEvents_flatMap rowOp_allEvents _
  · exact allEvents_flatMap tierOp_allEvents _
  · exact allEvents_flatMap (fun _ => allEvents_of_all rfl) _
  · exact allEvents_map (fun _ => rfl) _
  · exact allEvents_map (fun _ => rfl) _
  · exact allEvents_ite allEvents_nil (allEvents_of_all rfl)
  · exact allEvents_map (fun _ => rfl) _
  · exact allEvents_map (fun _ => rfl) _
  · exact allEvents_flatMap (partition_allEvents s) _
  · exact allEvents_map (fun _ => rfl) _
  · exact allEvents_ite (allEvents_of_all rfl) allEvents_nil
  · exact allEvents_ite (allEvents_of_all rfl) allEvents_nil
  · exact allEvents_of_all rfl
  · exact allEvents_flatMap (fun _ => allEvents_of_all rfl) _
  · exact allEvents_flatMap (fun _ => allEvents_map (fun _ => rfl) _) _

/-- Log 4: what the device chooses to do next is one of its events. -/
theorem choice_isEvent {s : State} {e : Instr} (h : s.choice = some e) : Instr.isEvent e = true :=
  state_allEvents s e (List.mem_filter.1 (List.mem_of_getElem? h)).1
/-- Every event answers a next state, and every word does where a group is in flight; the agenda stays. -/
theorem exec_answers {i : Instr} {s : State} (h : Instr.isEvent i = false → InFlight s) : Answers s (exec i s) := by
  cases i with
  | clauseHeader _ => exact execClauseHeader_answers (h rfl) ..
  | hint _ | immediateExtension _ | arithmeticPrefix _ | memoryPrefix _ =>
    dsimp only [exec]; exact modifierWord_answers (h rfl) ..
  | iadd _ | isub _ | imul _ | imulhs _ | imulhu _ | imins _ | imaxs _ | iminu _ | imaxu _ | iaddss _
  | isubss _ | and _ | or _ | xor _ | andn _ | orn _ | xnor _ | shl _ | shr _ | sar _ | rotl _ | rotr _
  | bfez _ | bfes _ => dsimp only [exec]; exact intV3_answers (h rfl) ..
  | iaddI _ | isubI _ | imulI _ | imulhsI _ | imulhuI _ | iminsI _ | imaxsI _ | iminuI _ | imaxuI _ | iaddssI _
  | isubssI _ | andI _ | orI _ | xorI _ | andnI _ | ornI _ | xnorI _ | shlI _ | shrI _ | sarI _ | rotlI _
  | rotrI _ => dsimp only [exec]; exact intVI_answers (h rfl) ..
  | popc _ | clz _ | ctz _ | brev _ | bswap _ | mov _ | sext8 _ | sext16 _ | zext8 _ | zext16 _ =>
    dsimp only [exec]; exact intV2_answers (h rfl) ..
  | bfi _ | fshl _ | bsel _ | imad _ | imadhs _ | imadhu _ | isad _ | idp4 _ | idp4z _ =>
    dsimp only [exec]; exact intThird_answers (h rfl) ..
  | imadw _ | imadws _ => dsimp only [exec]; exact intThird64_answers (h rfl) ..
  | movi _ | sel _ => dsimp only [exec]; exact arithWord_answers (h rfl) ..
  | add64 _ | sub64 _ | shl64 _ | shr64 _ => dsimp only [exec]; exact intPair_answers (h rfl) ..
  | wadd _ | wsub _ | wmul _ | wand _ | wor _ | wxor _ | wshl _ | wshr _ =>
    dsimp only [exec]; exact warp3_answers (h rfl) ..
  | wmov _ | wmovi _ | wlea _ => dsimp only [exec]; exact warpWord_answers (h rfl) ..
  | v2w _ => exact execV2w_answers (h rfl) ..
  | w2v _ => exact execW2v_answers (h rfl) ..
  | fadd _ | fsub _ | fmul _ | fmin _ | fmax _ | fminm _ | fmaxm _ | fcpysgn _ | hadd2 _ | hmul2 _ | hmin2 _
  | hmax2 _ | badd2 _ | bmul2 _ | bmin2 _ | bmax2 _ | f2h2 _ | f2b2 _ | fldexp _ =>
    dsimp only [exec]; exact floatV3_answers (h rfl) ..
  | fabs _ | fneg _ | fsat _ | f2is _ | f2iz _ | is2f _ | iz2f _ | h2fl _ | h2fh _ | b2fl _ | b2fh _ | frnd _
  | fclass _ | fexp _ => dsimp only [exec]; exact floatV2_answers (h rfl) ..
  | ffma _ | ffms _ | fnma _ | hfma2 _ | bfma2 _ => dsimp only [exec]; exact floatThird_answers (h rfl) ..
  | rcp _ | rsq _ | sqrt _ | ex2 _ | lg2 _ | sint _ | cost _ | tanh _ | logi _ =>
    dsimp only [exec]; exact sfuWord_answers (h rfl) ..
  | sfuComplete _ _ => exact execSfuComplete_answers ..
  | shfi _ | shfu _ | shfd _ | shfx _ | qbc _ => dsimp only [exec]; exact shuffleWord_answers (h rfl) ..
  | qswx _ | qswy _ | qswd _ => dsimp only [exec]; exact quadWord_answers (h rfl) ..
  | vany _ | vall _ | vbal _ | matchX _ | redi _ | redf _ | lmask _ =>
    dsimp only [exec]; exact crossWord_answers (h rfl) ..
  | sgset _ => exact execSgset_answers (h rfl) ..
  | ceq _ | cne _ | clt _ | cle _ | cgt _ | cge _ | ctany _ | ctnone _ =>
    dsimp only [exec]; exact compareWord_answers (h rfl) ..
  | pand _ | por _ | pxor _ | pandn _ => dsimp only [exec]; exact pred3_answers (h rfl) ..
  | pnot _ | pmov _ | pseti _ => dsimp only [exec]; exact predWord_answers (h rfl) ..
  | bra _ | call _ | brx _ | callx _ | ret _ => dsimp only [exec]; exact transferWord_answers (h rfl) ..
  | exit _ => exact execExit_answers (h rfl) ..
  | demote _ => exact execDemote_answers (h rfl) ..
  | yield _ => exact execYield_answers (h rfl) ..
  | nop _ => dsimp only [exec]; exact execNop_answers (h rfl) ..
  | bkpt _ => exact execBkpt_answers (h rfl) ..
  | ld8z _ | ld8s _ | ld16z _ | ld16s _ | ld32 _ | ld64 _ | ld128 _ =>
    dsimp only [exec]; exact loadWord_answers (h rfl) ..
  | ldf32 _ | ldfb16 _ => dsimp only [exec]; exact decodeLoadWord_answers (h rfl) ..
  | loadComplete _ _ => exact execLoadComplete_answers ..
  | registerSpill _ _ _ _ => exact execRegisterSpill_answers ..
  | st8 _ | st16 _ | st32 _ | st64 _ | st128 _ => dsimp only [exec]; exact storeWord_answers (h rfl) ..
  | deferredStorePerform _ => exact execDeferredStorePerform_answers ..
  | lds32 _ | lds64 _ | lds128 _ | atsadd _ | atsmax _ => dsimp only [exec]; exact spadLoadWord_answers (h rfl) ..
  | sts32 _ | sts64 _ | sts128 _ => dsimp only [exec]; exact spadStoreWord_answers (h rfl) ..
  | spadLoadComplete _ _ => exact execSpadLoadComplete_answers ..
  | aadd _ | amins _ | amaxs _ | aminz _ | amaxz _ | aand _ | aor _ | axor _ | aswp _ | acas _ | aincw _
  | adecw _ | afadd _ | aadd64 _ | acas64 _ | aswp64 _ => dsimp only [exec]; exact atomWord_answers (h rfl) ..
  | atomComplete _ _ => exact execAtomComplete_answers ..
  | radd _ | rmins _ | rmaxs _ | rminz _ | rmaxz _ | rand _ | ror _ | rxor _ | rswp _ | rfadd _ | radd64 _ =>
    dsimp only [exec]; exact redmWord_answers (h rfl) ..
  | fence _ => exact execFence_answers (h rfl) ..
  | cflush _ | cwb _ | cinv _ => dsimp only [exec]; exact cacheWord_answers (h rfl) ..
  | pfl2 _ | pfl1 _ => dsimp only [exec]; exact prefetchWord_answers (h rfl) ..
  | qst _ => exact execQst_answers (h rfl) ..
  | qsel _ | qerr _ => dsimp only [exec]; exact quantWord_answers (h rfl) ..
  | sbchk _ => exact execSbchk_answers (h rfl) ..
  | mta _ => exact execMta_answers (h rfl) ..
  | qblkComplete _ _ => exact execQblkComplete_answers ..
  | gang _ => exact execGang_answers (h rfl) ..
  | mmas _ | mmag _ => dsimp only [exec]; exact productWord_answers (h rfl) ..
  | rendezvousAccept _ _ => exact execRendezvousAccept_answers ..
  | rendezvousTimeout _ _ => exact execRendezvousTimeout_answers ..
  | matrixOpStart _ => exact execMatrixOpStart_answers ..
  | matrixKStep _ => exact execMatrixKStep_answers ..
  | bFetchFault _ => exact execBFetchFault_answers ..
  | matrixReissue _ _ => exact execMatrixReissue_answers ..
  | matrixOpComplete _ => exact execMatrixOpComplete_answers ..
  | acz _ => exact execAcz_answers (h rfl) ..
  | acrd _ => exact execAcrd_answers (h rfl) ..
  | acwr _ => exact execAcwr_answers (h rfl) ..
  | acst _ | acld _ => dsimp only [exec]; exact tileMemoryWord_answers (h rfl) ..
  | tileTransferComplete _ _ => exact execTileTransferComplete_answers ..
  | mprg _ => exact execMprg_answers (h rfl) ..
  | mrel _ => exact execMrel_answers (h rfl) ..
  | cpyin _ | cpyout _ | cpymc _ | cpyq2 _ => dsimp only [exec]; exact copyWord_answers (h rfl) ..
  | ringdef _ => exact execRingdef_answers (h rfl) ..
  | awaitf _ => exact execAwaitf_answers (h rfl) ..
  | rels _ => exact execRels_answers (h rfl) ..
  | cpyst _ | rowst _ => dsimp only [exec]; exact statusWord_answers (h rfl) ..
  | copyCommandStart _ => exact execCopyCommandStart_answers ..
  | copyTranslationFault _ _ => exact execCopyTranslationFault_answers ..
  | copyOpComplete _ _ => exact execCopyOpComplete_answers ..
  | multicastDelivery _ _ _ => exact execMulticastDelivery_answers ..
  | releaseReportArrival _ => exact execReleaseReportArrival_answers ..
  | awaitfService _ _ => exact execAwaitfService_answers ..
  | awaitfTimeout _ _ => exact execAwaitfTimeout_answers ..
  | rowcpy _ | rowfill _ | rowand _ | rowor _ | rownot _ | rowmaj _ | rowsaxpy _ =>
    dsimp only [exec]; exact rowWord_answers (h rfl) ..
  | rowPlan _ _ => exact execRowPlan_answers ..
  | rowStackAccept _ _ => exact execRowStackAccept_answers ..
  | rowSweep _ _ => exact execRowSweep_answers ..
  | rowStep _ _ => exact execRowStep_answers ..
  | rowResume _ _ => exact execRowResume_answers ..
  | perBankRefreshDue _ _ => exact execPerBankRefreshDue_answers ..
  | postponedRefreshIssue _ _ => exact execPostponedRefreshIssue_answers ..
  | allBankRefresh _ _ => exact execAllBankRefresh_answers ..
  | bara _ | barw _ => dsimp only [exec]; exact arrivalWord_answers (h rfl) ..
  | bars _ => exact execBars_answers (h rfl) ..
  | warm _ => exact execWarm_answers (h rfl) ..
  | warmComplete _ _ => exact execWarmComplete_answers ..
  | wwait _ => exact execWwait_answers (h rfl) ..
  | spuriousTrigger _ _ _ => exact execSpuriousTrigger_answers ..
  | wwaitTimeout _ _ _ => exact execWwaitTimeout_answers ..
  | waitv _ => exact execWaitv_answers (h rfl) ..
  | waitvEvaluation _ _ _ => exact execWaitvEvaluation_answers ..
  | waitvDeadline _ _ _ => exact execWaitvDeadline_answers ..
  | tlwait _ => exact execTlwait_answers (h rfl) ..
  | tlrd _ => exact execTlrd_answers (h rfl) ..
  | sleep _ => exact execSleep_answers (h rfl) ..
  | sleepExpiry _ _ _ => exact execSleepExpiry_answers ..
  | barrierTimerExpiry _ _ => exact execBarrierTimerExpiry_answers ..
  | pin _ | unpin _ | taff _ | migr _ | twin _ => dsimp only [exec]; exact rangeWord_answers (h rfl) ..
  | pgcnt _ | tqry _ => dsimp only [exec]; exact queryWord_answers (h rfl) ..
  | tqryOp _ => exact execTqryOp_answers (h rfl) ..
  | queryComplete _ _ => exact execQueryComplete_answers ..
  | tierOpComplete _ _ => exact execTierOpComplete_answers ..
  | moveCopyPhase _ => exact execMoveCopyPhase_answers ..
  | moveSwitch _ => exact execMoveSwitch_answers ..
  | moveCommit _ => exact execMoveCommit_answers ..
  | moveRetire _ => exact execMoveRetire_answers ..
  | counterHalving => exact execCounterHalving_answers ..
  | promotionPolicy _ _ => exact execPromotionPolicy_answers ..
  | frameRetirement _ _ => exact execFrameRetirement_answers ..
  | poolRemoteRequest _ _ => exact execPoolRemoteRequest_answers ..
  | poolGrant _ _ => exact execPoolGrant_answers ..
  | poolWaitLimitExpiry _ => exact execPoolWaitLimitExpiry_answers ..
  | poolStateChange _ _ => exact execPoolStateChange_answers ..
  | enq _ => exact execEnq_answers (h rfl) ..
  | stq _ => exact execStq_answers (h rfl) ..
  | idemb _ => exact execIdemb_answers (h rfl) ..
  | ideme _ => exact execIdeme_answers (h rfl) ..
  | dlaunch _ => exact execDlaunch_answers (h rfl) ..
  | descriptorReadComplete _ => exact execDescriptorReadComplete_answers ..
  | trap _ => exact execTrap_answers (h rfl) ..
  | sysc _ => exact execSysc_answers (h rfl) ..
  | syscComplete _ _ _ => exact execSyscComplete_answers ..
  | fcall _ => exact execFcall_answers (h rfl) ..
  | rett _ => exact execRett_answers (h rfl) ..
  | s2v _ => exact execS2v_answers (h rfl) ..
  | v2s _ => exact execV2s_answers (h rfl) ..
  | tlbi _ => exact execTlbi_answers (h rfl) ..
  | issueGroupFormation _ _ => exact execIssueGroupFormation_answers ..
  | yieldMarkExpiry _ _ _ => exact execYieldMarkExpiry_answers ..
  | collectiveStallTimeout _ _ _ => exact execCollectiveStallTimeout_answers ..
  | collectiveHoldTimeout _ => exact execCollectiveHoldTimeout_answers ..
  | trapEntry _ _ _ => exact execTrapEntry_answers ..
  | faultRecordQueued _ => exact execFaultRecordQueued_answers ..
  | resumeAction _ _ => exact execResumeAction_answers ..
  | skipAction _ _ => exact execSkipAction_answers ..
  | deliverAction _ _ => exact execDeliverAction_answers ..
  | killAction _ _ => exact execKillAction_answers ..
  | engineFaultService _ _ _ => exact execEngineFaultService_answers ..
  | watchdogExpiry _ => exact execWatchdogExpiry_answers ..
  | tlbInvalidation _ _ => exact execTlbInvalidation_answers ..
  | workgroupStart _ _ _ => exact execWorkgroupStart_answers ..
  | stealRequest _ => exact execStealRequest_answers ..
  | preemptionRequest _ _ => exact execPreemptionRequest_answers ..
  | drainBoundExpiry _ => exact execDrainBoundExpiry_answers ..
  | workgroupSave _ => exact execWorkgroupSave_answers ..
  | workgroupFlush _ => exact execWorkgroupFlush_answers ..
  | workgroupResume _ _ => exact execWorkgroupResume_answers ..
  | workgroupEnd _ => exact execWorkgroupEnd_answers ..
  | pipelineComplete _ _ => exact execPipelineComplete_answers ..
  | bandwidthWindowRelease _ => dsimp only [exec]; exact execBandwidthWindowRelease_answers ..
  | packageReset => exact execPackageReset_answers ..
  | getVersion _ => exact execGetVersion_answers ..
  | getCapabilities _ => exact execGetCapabilities_answers ..
  | negotiateAlgorithms _ _ _ => exact execNegotiateAlgorithms_answers ..
  | getDigests _ => exact execGetDigests_answers ..
  | getCertificate _ _ => exact execGetCertificate_answers ..
  | challenge _ _ => exact execChallenge_answers ..
  | getMeasurements _ _ => exact execGetMeasurements_answers ..
  | deviceStatusWrite _ _ _ _ => exact execDeviceStatusWrite_answers ..
  | semaphoreClaim _ _ => exact execSemaphoreClaim_answers ..
  | leaseRenew _ => exact execLeaseRenew_answers ..
  | semaphoreRelease _ => exact execSemaphoreRelease_answers ..
  | leaseExpiry => exact execLeaseExpiry_answers ..
  | createPartition _ _ _ => exact execCreatePartition_answers ..
  | resizeRemoveCores _ _ _ _ => exact execResizeRemoveCores_answers ..
  | resizeRemoveSlices _ _ _ _ => exact execResizeRemoveSlices_answers ..
  | resizeShrinkTierShare _ _ _ _ _ => exact execResizeShrinkTierShare_answers ..
  | destroyPartition _ _ _ => exact execDestroyPartition_answers ..
  | setPowerLimit _ _ _ => exact execSetPowerLimit_answers ..
  | firmwareUpdate _ _ _ => exact execFirmwareUpdate_answers ..
  | hostLaunch _ _ _ => exact execHostLaunch_answers ..
  | capabilityTableRead _ => dsimp only [exec]; exact execCapabilityTableRead_answers ..
  | powerControllerUpdate _ => exact execPowerControllerUpdate_answers ..
  | thermalThrottle _ => dsimp only [exec]; exact execThermalThrottle_answers ..
  | thermalReset _ => dsimp only [exec]; exact execThermalReset_answers ..
  | lifetimeCounterFlush => exact execLifetimeCounterFlush_answers ..
  | reservedOpcode _ => dsimp only [exec]; exact illegalWord_answers (h rfl) ..
  | serviceCoreAccess _ _ => exact execServiceCoreAccess_answers ..
  | storeAcknowledgement _ => exact execStoreAcknowledgement_answers ..
  | lineEviction _ _ _ => exact execLineEviction_answers ..
  | refreshEnd _ _ => exact execRefreshEnd_answers ..
  | tierCommandAccept _ _ => exact execTierCommandAccept_answers ..
  | frameGenerationChange _ _ => exact execFrameGenerationChange_answers ..
  | tlbEntryDrop _ _ => exact execTlbEntryDrop_answers ..
  | powerLoss => exact execPowerLoss_answers ..
  | migrHostReport _ _ _ => exact execMigrHostReport_answers ..
  | managementPageMove _ _ _ _ => exact execManagementPageMove_answers ..
  | partitionSettingWrite _ _ => exact execPartitionSettingWrite_answers ..
  | resizeAddResources _ _ _ _ => exact execResizeAddResources_answers ..

end Sys2Proof.Proofs
end

