-- ==== Sys2Proof/Proofs/Fetch.lean ====
section
/-!
A fetch sees and changes the memory side of the state alone (R28, R104, R392); bytes that stand plain.
-/

namespace Sys2Proof.Proofs

open Sys2Proof Sys2Proof.Machine Sys2Proof.Laws Sys2Proof.Safety Sys2Proof.Claims

/-! ## Fetches leave the issue side of the state alone and do not see it -/

/-- The memory side of s with the issue side of x: what comes next, the threads and the groups in flight. -/
def under (x s : State) : State :=
  { s with agenda := x.agenda, picks := x.picks, together := x.together, wgs := x.wgs, groups := x.groups }

theorem under_self (s : State) : under s s = s := rfl

theorem current_under (x s : State) : (under x s).current = x.current := rfl

theorem foldl_under {α : Type} {f : State → α → State} (h : ∀ x s a, f (under x s) a = under x (f s a)) (l : List α)
    (x s : State) : l.foldl f (under x s) = under x (l.foldl f s) := by
  induction l generalizing s with
  | nil => rfl
  | cons a l ih => rw [List.foldl_cons, List.foldl_cons, h, ih]

@[simp] theorem frame?_under (x s : State) (pa : Nat) : (under x s).frame? pa = s.frame? pa := rfl

@[simp] theorem moveAt?_under (x s : State) (pa : Nat) : (under x s).moveAt? pa = s.moveAt? pa := rfl

@[simp] theorem isCleared_under (x s : State) (pa : Nat) : (under x s).isCleared pa = s.isCleared pa := rfl

@[simp] theorem l2Sector?_under (x s : State) (n : Nat) : (under x s).l2Sector? n = s.l2Sector? n := rfl

@[simp] theorem updCore_under (x s : State) (n : Nat) (f : Core → Core) :
    (under x s).updCore n f = under x (s.updCore n f) := rfl

@[simp] theorem mapFrame_under (x s : State) (pa : Nat) (f : Frame → Frame) :
    (under x s).mapFrame pa f = under x (s.mapFrame pa f) := by
  simp only [State.mapFrame, frame?_under]
  split <;> rfl

@[simp] theorem countAccess_under (x s : State) (pa n : Nat) (write : Bool) :
    (under x s).countAccess pa n write = under x (s.countAccess pa n write) :=
  mapFrame_under x s (s.counterAddr pa) _

@[simp] theorem noteFrame_under (x s : State) (pa size part : Nat) :
    (under x s).noteFrame pa size part = under x (s.noteFrame pa size part) := by
  unfold State.noteFrame
  rw [frame?_under]
  split
  · split
    · rfl
    · split
      · rfl
      · dsimp only; rw [mapFrame_under]; rfl
  · rfl

@[simp] theorem demandActivate_under (x s : State) (pa : Nat) :
    (under x s).demandActivate pa = under x (s.demandActivate pa) := rfl

@[simp] theorem unclear_under (x s : State) (pa : Nat) (fold : BitVec 16) (open_ : Bool) :
    (under x s).unclear pa fold open_ = under x (s.unclear pa fold open_) := by
  unfold State.unclear
  rw [isCleared_under]
  split <;> rfl

@[simp] theorem tierWrite_under (x s : State) (pa : Nat) (bs : List Byte) (fold : BitVec 16) (open_ : Bool) :
    (under x s).tierWrite pa bs fold open_ = under x (s.tierWrite pa bs fold open_) := by
  unfold State.tierWrite
  rw [unclear_under]
  dsimp only
  rw [moveAt?_under]
  split
  · split <;> rfl
  · rfl

@[simp] theorem noteCorrection_under (x s : State) (u : Nat) :
    (under x s).noteCorrection u = under x (s.noteCorrection u) := by
  let source := if tierOf (u * 64) = 0 then stackOf (u * 64) else 7 + tierOf (u * 64)
  let counted : State :=
    { s with lifetime := { s.lifetime with corrections := bump source 1 s.lifetime.corrections } }
  exact congrArg (State.logEvent · 0 source) (mapFrame_under x counted (u * 64) fun f => { f with errors := f.errors + 1 })

@[simp] theorem correctUnits_under (x s : State) (units : List Nat) (one : Nat) (fold : BitVec 16) (open_ : Bool)
    (good : Nat → Bool) :
    (under x s).correctUnits units one fold open_ good = under x (s.correctUnits units one fold open_ good) :=
  foldl_under (fun x s u => noteCorrection_under x s u.1) _ x s

@[simp] theorem stampUnit_under (x s : State) (u : Nat) (fold : BitVec 16) (open_ bad : Bool) :
    (under x s).stampUnit u fold open_ bad = under x (s.stampUnit u fold open_ bad) := rfl

@[simp] theorem l2Store_under (x s : State) (n : Nat) (y : L2Sector) :
    (under x s).l2Store n y = under x (s.l2Store n y) := by
  unfold State.l2Store
  rw [demandActivate_under, tierWrite_under, countAccess_under]
  exact foldl_under (fun x s k => stampUnit_under ..) _ _ _

@[simp] theorem l2Drop_under (x s : State) (n : Nat) : (under x s).l2Drop n = under x (s.l2Drop n) := rfl

@[simp] theorem l2Evict_under (x s : State) (line : Nat) : (under x s).l2Evict line = under x (s.l2Evict line) :=
  foldl_under (fun x s k => by
    rw [l2Sector?_under]
    split
    · split
      · rw [l2Store_under, l2Drop_under]
      · rfl
    · rfl) _ x s

@[simp] theorem l2Lines_under (x s : State) : (under x s).l2Lines = s.l2Lines := by rfl

@[simp] theorem homeSlice_under (x s : State) (n : Nat) : (under x s).homeSlice n = s.homeSlice n := by rfl

theorem withFresh_under (x s : State) (n : Nat) : ({ under x s with fresh := n } : State) = under x { s with fresh := n } := by
  rfl

@[simp] theorem l2Room_under (x s : State) (n : Nat) : (under x s).l2Room n = under x (s.l2Room n) := by
  have hl : (under x s).l2 = s.l2 := rfl
  have hf : (under x s).fresh = s.fresh := rfl
  unfold State.l2Room
  rw [hl, hf, apply_ite (under x)]
  simp only [l2Lines_under, homeSlice_under, foldl_under l2Evict_under, withFresh_under]

@[simp] theorem checkDamaged_under (x s : State) (u : Nat) (fold : BitVec 16) (open_ : Bool) (hit : Option Poison) :
    (under x s).checkDamaged u fold open_ hit = s.checkDamaged u fold open_ hit := rfl

@[simp] theorem unitBytes_under (x s : State) (u : Nat) (fold : BitVec 16) (open_ : Bool) :
    (under x s).unitBytes u fold open_ = s.unitBytes u fold open_ := rfl

theorem appendL2_under (x s : State) (y : L2Sector) :
    ({ under x s with damage := (under x s).damage.tail, l2 := (under x s).l2 ++ [y] } : State) =
      under x { s with damage := s.damage.tail, l2 := s.l2 ++ [y] } := rfl

@[simp] theorem l2Fill_under (x s : State) (n : Nat) (fold : BitVec 16) (open_ : Bool) :
    (under x s).l2Fill n fold open_ = under x (s.l2Fill n fold open_) := by
  unfold State.l2Fill
  rw [l2Sector?_under]
  split
  · rfl
  · simp only [l2Room_under, demandActivate_under, countAccess_under, correctUnits_under, checkDamaged_under,
      unitBytes_under, isCleared_under, appendL2_under]
    rfl

@[simp] theorem tlbInsert_under (x s : State) (core part : Nat) (l : Leaf) :
    (under x s).tlbInsert core part l = under x (s.tlbInsert core part l) := by
  unfold State.tlbInsert
  dsimp only
  rw [noteFrame_under]
  generalize s.noteFrame l.pa l.size part = t
  rw [updCore_under, show (under x t).core core = t.core core from rfl]
  split
  · rfl
  · generalize t.updCore core _ = t'
    rw [show (under x t').l2tlb = t'.l2tlb from rfl]
    split <;> rfl

@[simp] theorem tlbDrop_under (x s : State) (core part va : Nat) :
    (under x s).tlbDrop core part va = under x (s.tlbDrop core part va) := rfl

theorem walkFrom_under (x s : State) (va level table : Nat) :
    (under x s).walkFrom va level table = s.walkFrom va level table := by
  induction level generalizing table with
  | zero => rfl
  | succ l ih => unfold State.walkFrom; simp only [ih]; rfl

@[simp] theorem translate_under (x s : State) (core part : Nat) (va : DWord) (need : Rights) :
    (under x s).translate core part va need = s.translate core part va need := by
  have hleaf : (under x s).findLeaf core part va.toNat = s.findLeaf core part va.toNat := by
    unfold State.findLeaf State.walk
    rw [show (under x s).tlbHit core part va.toNat = s.tlbHit core part va.toNat from rfl,
      show (under x s).rootOf part = s.rootOf part from rfl]
    simp only [walkFrom_under]
  unfold State.translate
  rw [hleaf]

@[simp] theorem engineCheck_under (x s : State) (who : List Nat) (part pa : Nat) (l : Leaf) (write : Bool) :
    (under x s).engineCheck who part pa l write = s.engineCheck who part pa l write := rfl

@[simp] theorem homeAddr_under (x s : State) (pa : Nat) : (under x s).homeAddr pa = s.homeAddr pa := rfl

@[simp] theorem poisonAt_under (x s : State) (pa n : Nat) : (under x s).poisonAt pa n = s.poisonAt pa n := rfl

@[simp] theorem l2Bytes_under (x s : State) (pa n : Nat) : (under x s).l2Bytes pa n = s.l2Bytes pa n := rfl

@[simp] theorem fetchWord_under (x s : State) (core part : Nat) (va : DWord) :
    (under x s).fetchWord core part va = s.fetchWord core part va := by
  simp only [State.fetchWord, translate_under, engineCheck_under, homeAddr_under, tlbInsert_under, l2Fill_under,
    poisonAt_under, l2Bytes_under]

@[simp] theorem fetchWaits_under (x s : State) (core part : Nat) (va : DWord) :
    (under x s).fetchWaits core part va = s.fetchWaits core part va := by
  simp only [State.fetchWaits, translate_under, engineCheck_under]

@[simp] theorem fetchTlb_under (x s : State) (core part : Nat) (va : DWord) :
    (under x s).fetchTlb core part va = under x (s.fetchTlb core part va) := by
  simp only [State.fetchTlb, translate_under, engineCheck_under, homeAddr_under, tlbInsert_under, l2Fill_under,
    tlbDrop_under]
  cases s.translate core part va { x := true } with
  | error _ => rfl
  | ok l => dsimp only; split <;> rfl

/-- A fetch leaves the current issue group what it was. -/
theorem fetchTlb_current (s : State) (core part : Nat) (va : DWord) :
    (s.fetchTlb core part va).current = s.current := by
  have h := congrArg State.current (fetchTlb_under s s core part va)
  rwa [under_self, current_under] at h

@[simp] theorem modified_under (x s : State) (core part n : Nat) (pc : DWord) :
    (under x s).modified core part n pc = s.modified core part n pc := by
  induction n generalizing pc with
  | zero => rfl
  | succ n ih => simp only [State.modified, fetchWord_under, ih]

/-! ## A fetch of bytes that stand plain (R145, R151, R152) -/

/-- What a translation that enters the TLBs leaves behind: frames, cores and the second TLB may change. -/
theorem tlbInsert_eq (s : State) (core part : Nat) (l : Leaf) :
    ∃ fs cs ts, s.tlbInsert core part l = { s with frames := fs, cores := cs, l2tlb := ts } := by
  have hnote : ∃ fs, s.noteFrame l.pa l.size part = { s with frames := fs } := by
    unfold State.noteFrame
    split
    · split
      · exact ⟨_, rfl⟩
      · split
        · exact ⟨_, rfl⟩
        · unfold State.mapFrame
          dsimp only
          split <;> exact ⟨_, rfl⟩
    · exact ⟨_, rfl⟩
  obtain ⟨fs, hfs⟩ := hnote
  unfold State.tlbInsert
  rw [hfs]
  dsimp only
  split
  · exact ⟨_, _, _, rfl⟩
  · split <;> exact ⟨_, _, _, rfl⟩

theorem tlbInsert_l2Bytes (s : State) (core part : Nat) (l : Leaf) (pa n : Nat) :
    (s.tlbInsert core part l).l2Bytes pa n = s.l2Bytes pa n := by
  obtain ⟨fs, cs, ts, h⟩ := tlbInsert_eq s core part l
  rw [h]
  rfl

theorem tlbInsert_moves (s : State) (core part : Nat) (l : Leaf) : (s.tlbInsert core part l).moves = s.moves := by
  obtain ⟨fs, cs, ts, h⟩ := tlbInsert_eq s core part l
  rw [h]

theorem homeAddr_of_no_moves {s : State} (h : s.moves = []) (pa : Nat) : s.homeAddr pa = pa := by
  simp [State.homeAddr, State.moveAt?, h]

theorem l2Room_of_room {s : State} {n : Nat} (h : RoomInL2 s n) : s.l2Room n = s := by
  have hroom : (decide (s.l2.length < 4096) || s.l2.any (·.sector / 8 == n / 8)) = true := by
    simpa [RoomInL2] using h
  exact if_pos hroom

theorem mapFrame_l2 (s : State) (pa : Nat) (f : Frame → Frame) : (s.mapFrame pa f).l2 = s.l2 := by
  unfold State.mapFrame
  split <;> rfl

theorem noteCorrection_l2 (s : State) (u : Nat) : (s.noteCorrection u).l2 = s.l2 :=
  mapFrame_l2 ..

theorem correctUnits_l2 (s : State) (units : List Nat) (one : Nat) (fold : BitVec 16) (open_ : Bool) (good : Nat → Bool) :
    (s.correctUnits units one fold open_ good).l2 = s.l2 := by
  unfold State.correctUnits
  induction units.zipIdx.filter _ generalizing s with
  | nil => rfl
  | cons u us ih => rw [List.foldl_cons, ih, noteCorrection_l2]

/-- A unit that is cleared, or stands unpoisoned under the keys that read it. -/
def PlainUnit (s : State) (fold : BitVec 16) (open_ : Bool) (u : Nat) : Prop :=
  s.isCleared (u * 64) = true ∨ (s.sameKeys u fold open_ = true ∧ ∀ x ∈ s.poison, x.1 ≠ u)

theorem checkDamaged_of_plain {s : State} {u : Nat} {fold : BitVec 16} {open_ : Bool} (h : PlainUnit s fold open_ u) :
    s.checkDamaged u fold open_ none = none := by
  have hunit : s.checkUnit u fold open_ = none := by
    rcases h with h | ⟨hkeys, hpoison⟩
    · simp [State.checkUnit, h]
    · have hfind : s.poison.find? (·.1 == u) = none := List.find?_eq_none.mpr fun x hx => by simpa using hpoison x hx
      simp [State.checkUnit, hkeys, hfind]
  simp [State.checkDamaged, hunit]

theorem unitBytes_of_plain {s : State} {u : Nat} {fold : BitVec 16} {open_ : Bool} (h : PlainUnit s fold open_ u) :
    s.unitBytes u fold open_ = s.tierBytes (u * 64) 64 := by
  rcases h with h | ⟨hkeys, -⟩
  · simp [State.unitBytes, h]
  · simp [State.unitBytes, hkeys]

/-- A sector as its tier holds it, with no unit marked. -/
def sectorOfTier (s : State) (n : Nat) (fold : BitVec 16) (open_ : Bool) : L2Sector :=
  { sector := n, fold := fold, open_ := open_, dirty := false, bad := [],
    data := s.tierBytes (n * 2 * 64) 64 ++ s.tierBytes ((n * 2 + 1) * 64) 64 }

/-- A sector of plain units comes into L2 as the tier holds it, with no unit marked. -/
theorem l2Fill_l2_of_absent {s : State} {n : Nat} {fold : BitVec 16} {open_ : Bool} (habsent : s.l2Sector? n = none)
    (hroom : RoomInL2 s n) (hdamage : s.damage = []) (hunits : ∀ u ∈ [n * 2, n * 2 + 1], PlainUnit s fold open_ u) :
    (s.l2Fill n fold open_).l2 = s.l2 ++ [sectorOfTier s n fold open_] := by
  have h0 : PlainUnit (s.demandActivate (n * 128)) fold open_ (n * 2) := hunits _ (by simp)
  have h1 : PlainUnit (s.demandActivate (n * 128)) fold open_ (n * 2 + 1) := hunits _ (by simp)
  have hd : (s.demandActivate (n * 128)).damage.headD (0, 0, 0) = (0, 0, 0) := congrArg (List.headD · (0, 0, 0)) hdamage
  have hnone (i : Nat) : damageOf (0, 0, 0) i = none := by simp [damageOf]
  unfold State.l2Fill
  rw [habsent]
  simp only [l2Room_of_room hroom, hd, hnone, correctUnits_l2, State.countAccess, mapFrame_l2, unitBytes_of_plain h0,
    unitBytes_of_plain h1, List.filterMap_cons, List.filterMap_nil, checkDamaged_of_plain h0, checkDamaged_of_plain h1,
    Option.map_none]
  rfl

/-- A sector of plain units that L2 lacked is the one that it brought in. -/
theorem l2Sector?_l2Fill_of_absent {s : State} {n : Nat} {fold : BitVec 16} {open_ : Bool}
    (habsent : s.l2Sector? n = none) (hroom : RoomInL2 s n) (hdamage : s.damage = [])
    (hunits : ∀ u ∈ [n * 2, n * 2 + 1], PlainUnit s fold open_ u) :
    (s.l2Fill n fold open_).l2Sector? n = some (sectorOfTier s n fold open_) := by
  rw [State.l2Sector?, l2Fill_l2_of_absent habsent hroom hdamage hunits, List.find?_append]
  rw [State.l2Sector?] at habsent
  simp [habsent, sectorOfTier]

theorem l2Fill_of_present {s : State} {n : Nat} {x : L2Sector} (h : s.l2Sector? n = some x) (fold : BitVec 16)
    (open_ : Bool) : s.l2Fill n fold open_ = s := by
  simp only [State.l2Fill, h]

theorem l2Byte_eq_of_absent {s : State} {a : Nat} (h : s.l2Sector? (a / 128) = none) : s.l2Byte a = s.tierByte a := by
  simp [State.l2Byte, h]

/-- The byte at an offset of a sector that is read whole from its tier. -/
theorem sectorOfTier_getD (s : State) (n i : Nat) (fold : BitVec 16) (open_ : Bool) (h : i < 128) :
    (sectorOfTier s n fold open_).data.getD i 0 = s.tierByte (n * 128 + i) := by
  have hlen (a : Nat) : (s.tierBytes a 64).length = 64 := by simp [State.tierBytes]
  rw [sectorOfTier, List.getD_eq_getElem?_getD, List.getElem?_append, hlen]
  split
  · simp only [State.tierBytes, List.getElem?_map, List.getElem?_range ‹i < 64›, Option.map_some, Option.getD_some]
    congr 1; omega
  · rw [State.tierBytes, List.getElem?_map, List.getElem?_range (by omega), Option.map_some, Option.getD_some]
    congr 1; omega

section
variable {s : State} {pa n : Nat} {l : Leaf} (h : Plain s pa n l)
include h

/-- The sector of plain bytes, once it is in L2: none of its marked units meets them. -/
theorem plain_l2Fill_poisonAt : (s.l2Fill (pa / 128) l.fold l.open_).poisonAt pa n = none := by
  obtain ⟨-, hsec⟩ := h
  cases hx : s.l2Sector? (pa / 128) with
  | some x =>
    simp only [hx] at hsec
    rw [l2Fill_of_present hx]
    simpa [State.poisonAt, hx] using hsec.2
  | none =>
    simp only [hx] at hsec
    obtain ⟨hroom, hdamage, hunits⟩ := hsec
    simp only [State.poisonAt, l2Sector?_l2Fill_of_absent hx hroom hdamage hunits]
    rfl

theorem plain_l2Fill_l2Bytes : (s.l2Fill (pa / 128) l.fold l.open_).l2Bytes pa n = s.l2Bytes pa n := by
  obtain ⟨hfit, hsec⟩ := h
  cases hx : s.l2Sector? (pa / 128) with
  | some x => rw [l2Fill_of_present hx]
  | none =>
    simp only [hx] at hsec
    obtain ⟨hroom, hdamage, hunits⟩ := hsec
    refine List.map_congr_left fun i hi => ?_
    have hi : i < n := List.mem_range.mp hi
    have hline : (pa + i) / 128 = pa / 128 := by omega
    rw [l2Byte_eq_of_absent (s := s) (hline ▸ hx)]
    simp only [State.l2Byte, hline, l2Sector?_l2Fill_of_absent hx hroom hdamage hunits]
    rw [sectorOfTier_getD s _ _ _ _ (Nat.mod_lt _ (by decide))]
    congr 1; omega

end

theorem length_l2Bytes (s : State) (pa n : Nat) : (s.l2Bytes pa n).length = n := by simp [State.l2Bytes]

/-- The bytes of the word that four bytes make, lowest first (R4). -/
theorem wordBytes_ofLe {bs : List Byte} (h : bs.length = 4) : wordBytes (BitVec.ofNat 32 (ofLe bs)) = bs := by
  obtain ⟨a, b, c, d, rfl⟩ : ∃ a b c d, bs = [a, b, c, d] := by
    match bs, h with
    | [a, b, c, d], _ => exact ⟨a, b, c, d, rfl⟩
  have := a.isLt
  have := b.isLt
  have := c.isLt
  have := d.isLt
  simp only [wordBytes, ofLe, List.cons.injEq, and_true]
  refine ⟨?_, ?_, ?_, ?_⟩ <;>
    (apply BitVec.eq_of_toNat_eq
     simp only [BitVec.extractLsb'_toNat, BitVec.toNat_ofNat, Nat.shiftRight_eq_div_pow]
     omega)

section
variable {s : State} {core part : Nat} {va : DWord} {l : Leaf} (hl : s.translate core part va { x := true } = .ok l)
  (hserved : s.engineCheck (fetchAgent core part va) part (l.phys va.toNat) l false = .yes)
include hl hserved

theorem fetchWaits_of_served : s.fetchWaits core part va = none := by
  simp only [State.fetchWaits, hl, hserved]

variable (hmoves : s.moves = [])
include hmoves

theorem fetchTlb_of_served :
    s.fetchTlb core part va = (s.tlbInsert core part l).l2Fill (l.phys va.toNat / 128) l.fold l.open_ := by
  have hhome := homeAddr_of_no_moves ((tlbInsert_moves s core part l).trans hmoves) (l.phys va.toNat)
  simp only [State.fetchTlb, hl, hserved, hhome]

theorem fetchWord_of_plain (hplain : Plain (s.tlbInsert core part l) (l.phys va.toNat) 4 l) :
    ∃ w : Word, s.fetchWord core part va = .ok w ∧ wordBytes w = s.l2Bytes (l.phys va.toNat) 4 := by
  refine ⟨BitVec.ofNat 32 (ofLe (s.l2Bytes (l.phys va.toNat) 4)), ?_, wordBytes_ofLe (length_l2Bytes ..)⟩
  simp only [State.fetchWord, hl, hserved, homeAddr_of_no_moves hmoves, plain_l2Fill_poisonAt hplain,
    plain_l2Fill_l2Bytes hplain, tlbInsert_l2Bytes]

end

end Sys2Proof.Proofs
end

