-- ==== Sys2Proof/Proofs/Faulting.lean ====
section
/-!
A word that faults in every member of its group (R27, R29, R62).
-/

namespace Sys2Proof.Proofs

open Sys2Proof Sys2Proof.Machine Sys2Proof.Laws Sys2Proof.Safety Sys2Proof.Claims

/-! ## The major opcode of a word -/

theorem majorOf_eq (w : Word) : majorOf w = w.toNat / 2 ^ 26 := by
  unfold majorOf
  rw [BitVec.extractLsb'_toNat, Nat.shiftRight_eq_div_pow, Nat.mod_eq_of_lt]
  have := w.isLt
  omega

/-! ## A word that faults in every member (R27, R29, R62) -/

section
variable {s : State} {g : Group}

/-- No thread names the group as its own. -/
def Memberless (s : State) (id : Nat) : Prop := ∀ w ∈ s.wgs, ∀ t ∈ w.threads, t.group ≠ some id

theorem active_of_memberless (h : Memberless s g.id) : s.active g = [] :=
  List.eq_nil_iff_forall_not_mem.mpr fun r hr => by
    obtain ⟨-, t, ht, hgroup⟩ := mem_active hr
    obtain ⟨w, hw, htw⟩ := thread?_mem ht
    exact h w hw t htw hgroup

theorem mapGroup_of_memberless {id : Nat} (h : Memberless s id) (f : Workgroup → Thread → Thread) : s.mapGroup id f = s :=
  mapGroup_id fun w hw t ht hg => absurd hg (h w hw t ht)

/-- A group without members is gone once it has settled, at the end of its clause or before. -/
theorem settle_of_memberless {id : Nat} (hfind : s.groups.find? (·.id == id) = some g) (h : Memberless s id)
    (hlate : ∀ w ∈ s.wgs, ∀ t ∈ w.threads, t.late = none) :
    s.settle id = { s with groups := s.groups.filter (·.id != id) } := by
  obtain rfl : g.id = id := by simpa using List.find?_some hfind
  rw [settle_of hfind, active_of_memberless h]
  split
  · unfold State.endClause
    rw [mapGroup_of_memberless h]
    exact applyLate_id hlate
  · rfl

theorem uncountLate_of_none {t : Thread} (hlate : t.late = none) : t.uncountLate = t := by
  cases t
  subst hlate
  rfl

/-- A member that executes leaves its group with a fault, wherever it stood. -/
theorem raise_of_executes {t : Thread} (hex : t.executes = true) (hlate : t.late = none) (d : FaultDetail) (site : Site) :
    (t.raise d site).group = none ∧ (t.raise d site).late = none ∧
      ∀ pc, ({ t with pc := pc } : Thread).raise d site = t.raise d site := by
  have hmoved (pc : DWord) : ({ t with pc := pc } : Thread).uncountLate = { t with pc := pc } := uncountLate_of_none hlate
  unfold Thread.raise Thread.record
  rw [if_pos hex, uncountLate_of_none hlate]
  refine ⟨rfl, hlate, fun pc => ?_⟩
  rw [if_pos (show ({ t with pc := pc } : Thread).executes = true from hex), hmoved]
  rfl

/-- The members of a group have taken a fault. -/
def raisedThreads (g : Group) (d : FaultDetail) (site : Site) (w : Workgroup) : List Thread :=
  updateWhere (fun t => t.group == some g.id) (fun t => t.raise d site) w.threads

/-- A workgroup whose threads of group g execute and have no late fault. -/
def Executing (g : Group) (w : Workgroup) : Prop :=
  ∀ t ∈ w.threads, t.late = none ∧ (inGroup g t → t.executes = true)

theorem raisedThreads_mem {d : FaultDetail} {site : Site} {w : Workgroup} (hw : Executing g w) {t : Thread}
    (ht : t ∈ raisedThreads g d site w) : t.group ≠ some g.id ∧ t.late = none := by
  obtain ⟨t0, ht0, rfl⟩ := List.mem_map.mp ht
  obtain ⟨hlate, hex⟩ := hw t0 ht0
  split <;> rename_i hg
  · obtain ⟨hgroup, hlate', -⟩ := raise_of_executes (hex (by simpa using hg)) hlate d site
    exact ⟨by simp [hgroup], hlate'⟩
  · exact ⟨by simpa using hg, hlate⟩

theorem workedThreads_raise {d : FaultDetail} {site : Site} {w : Workgroup} (hw : Executing g w) :
    workedThreads g (fun _ t => t.raise d site) w = raisedThreads g d site w := by
  refine List.map_congr_left fun t ht => ?_
  obtain ⟨hlate, hex⟩ := hw t ht
  by_cases hg : inGroup g t
  · rw [if_pos hg, if_pos (by simpa using hg)]
    exact (raise_of_executes (hex hg) hlate d site).2.2 _
  · rw [if_neg hg, if_neg (by simpa using hg)]

theorem map_landed_raisedThreads {d : FaultDetail} {site : Site} {w : Workgroup} (hw : Executing g w) :
    (raisedThreads g d site w).map (landed s g w) = raisedThreads g d site w := by
  refine (List.map_congr_left fun t ht => ?_).trans (List.map_id _)
  exact if_neg fun h => (raisedThreads_mem hw ht).1 h.2

variable (h : Standing s g false) (d : FaultDetail) (site : Site)
include h

theorem standing_executing {w : Workgroup} (hw : w ∈ s.wgs) : Executing g w := by
  obtain ⟨-, -, -, -, hall⟩ := h
  exact hall w hw

/-- Once its members have taken a fault, the group has none. -/
theorem standing_raised_memberless {u : State}
    (hu : u.wgs = s.wgs.map fun w => withThreads w (raisedThreads g d site w)) :
    Memberless u g.id ∧ ∀ w ∈ u.wgs, ∀ t ∈ w.threads, t.late = none := by
  have hall : ∀ w ∈ u.wgs, ∀ t ∈ w.threads, t.group ≠ some g.id ∧ t.late = none := by
    rw [hu]
    intro w' hw' t ht
    obtain ⟨w, hw, rfl⟩ := List.mem_map.mp hw'
    exact raisedThreads_mem (standing_executing h hw) ht
  exact ⟨fun w hw t ht => (hall w hw t ht).1, fun w hw t ht => (hall w hw t ht).2⟩

/-- What a fault of every member leaves: each has parked, and the group is gone. -/
theorem standing_after_raise : after s g (fun _ t => t.raise d site) =
    placed s (s.wgs.map fun w => withThreads w (raisedThreads g d site w)) (s.groups.filter (·.id != g.id)) := by
  have hworked : (s.wgs.map fun w => withThreads w (workedThreads g (fun _ t => t.raise d site) w)) =
      s.wgs.map fun w => withThreads w (raisedThreads g d site w) :=
    List.map_congr_left fun w hw => by rw [workedThreads_raise (standing_executing h hw)]
  have hlanded : (s.wgs.map fun w =>
      withThreads w ((workedThreads g (fun _ t => t.raise d site) w).map (landed s g w))) =
      s.wgs.map fun w => withThreads w (raisedThreads g d site w) :=
    List.map_congr_left fun w hw => by
      have hex := standing_executing h hw
      rw [workedThreads_raise hex, map_landed_raisedThreads hex]
  have hempty : emptied g (s.wgs.map fun w => withThreads w (raisedThreads g d site w)) = true :=
    List.isEmpty_iff.mpr (active_of_memberless (standing_raised_memberless h d site rfl).1)
  rw [after, hworked, hlanded, groupsAfter, if_pos (Or.inr hempty)]

/-- The fault of a whole group: every member parks, and the group is gone. -/
theorem standing_parked :
    ((s.mapGroup g.id fun _ t => t.raise d site).advance g).settle g.id = after s g fun _ t => t.raise d site := by
  let parked := placed s (s.wgs.map fun w => withThreads w (raisedThreads g d site w))
    (updateWhere (fun x => x.id == g.id) (behindWord g) s.groups)
  obtain ⟨hgone, hlate⟩ := standing_raised_memberless h d site (u := parked) rfl
  obtain ⟨-, hfind, -, -, -⟩ := id h
  have hadvance : (s.mapGroup g.id fun _ t => t.raise d site).advance g = parked := by
    unfold State.advance
    rw [mapGroup_of_memberless (standing_raised_memberless h d site rfl).1]
    rfl
  have hfind' : parked.groups.find? (·.id == g.id) = some (behindWord g g) := by
    refine (find?_updateWhere fun x => ?_).trans ?_
    · by_cases hx : x.id = g.id <;> simp [hx, behindWord]
    · simp [hfind]
  rw [hadvance, settle_of_memberless hfind' hgone hlate, standing_after_raise h]
  exact congrArg (placed s _) (filter_updateWhere fun x hx => hx)

theorem standing_illegalWord (code : BitVec 8) : illegalWord code s = .next (parkedAt s g { code := code }) := by
  obtain ⟨hc, -⟩ := id h
  unfold illegalWord
  rw [hc]
  exact congrArg _ (standing_parked h { code := code } (g.site g.pc))

theorem standing_illegalFields (w : Word) :
    illegalFields w s = .next (if w.toNat / 2 ^ 26 = 60 ∨ w.toNat / 2 ^ 26 = 61 ∨ w.toNat / 2 ^ 26 = 62 then
      after s g fun _ t => t.raise { code := 0x02 } (s.modifierSite g) else parkedAt s g { code := 0x02 }) := by
  obtain ⟨hc, -⟩ := id h
  unfold illegalFields
  rw [hc, majorOf_eq]
  by_cases hmod : 0x3C ≤ w.toNat / 2 ^ 26 ∧ w.toNat / 2 ^ 26 ≤ 0x3E
  · rw [if_pos (by omega)]
    exact (if_pos hmod).trans (congrArg _ (standing_parked h _ _))
  · rw [if_neg (by omega)]
    exact (if_neg hmod).trans (standing_illegalWord h _)

theorem standing_reservedOpcode (w : BitVec 32) : exec (.reservedOpcode w) s = .next (parkedAt s g { code := 0x01 }) := by
  dsimp only [exec, execReservedOpcode]
  exact standing_illegalWord h codeIllegalOpcode

end

end Sys2Proof.Proofs
end

