-- ==== Sys2Proof/Proofs/Step.lean ====
section
/-!
What a step runs (R62, R104), and that with events only in the agenda no step stops.
-/

namespace Sys2Proof.Proofs

open Sys2Proof Sys2Proof.Machine Sys2Proof.Laws Sys2Proof.Safety Sys2Proof.Claims

/-! ## A step, by what the agenda and the groups say -/

theorem step_of_agenda {s : State} {e : Instr} {rest : List Instr} (h : s.tick.agenda = e :: rest) :
    step s = if Instr.isEvent e then exec e { s.tick.wakeGroups with agenda := rest } else .fault .agendaWord := by
  unfold step
  simp only [h]

theorem step_of_group {s : State} {g : Group} (ha : s.tick.agenda = []) (hc : s.tick.current = some g) :
    step s = if s.tick.together.headD false && s.tick.atWreg g
      then { s.tick with together := s.tick.together.tail }.stepClk g
      else { s.tick with together := s.tick.together.tail }.stepWord g := by
  unfold step
  simp only [ha, hc]

theorem step_of_choice {s : State} {e : Instr} (ha : s.tick.agenda = []) (hc : s.tick.current = none)
    (he : s.tick.wakeGroups.choice = some e) :
    step s = exec e { s.tick.wakeGroups with picks := s.tick.wakeGroups.picks.tail } := by
  unfold step
  simp only [ha, hc, he]

theorem step_of_idle {s : State} (ha : s.tick.agenda = []) (hc : s.tick.current = none)
    (he : s.tick.wakeGroups.choice = none) : step s = .next s.tick.wakeGroups := by
  unfold step
  simp only [ha, hc, he]

/-! ## The next word of a group, by what its fetch answers -/

section
variable {s : State} {g : Group}

theorem stepWord_of_error {c : BitVec 8} (hwait : s.fetchWaits g.core (s.groupPart g) g.pc = none)
    (hc : s.fetchWord g.core (s.groupPart g) g.pc = .error c) : s.stepWord g = fetchFault c g s := by
  simp only [State.stepWord, hwait, hc]

variable {w : Word} (hwait : s.fetchWaits g.core (s.groupPart g) g.pc = none)
  (hw : s.fetchWord g.core (s.groupPart g) g.pc = .ok w)
include hwait hw

theorem stepWord_of_ok {i : Instr} (hi : decode w (s.lookAhead g w) = .ok i) :
    s.stepWord g = exec i (s.fetchTlb g.core (s.groupPart g) g.pc) := by
  simp only [State.stepWord, hwait, hw, hi]

theorem stepWord_of_illegalOpcode (hi : decode w (s.lookAhead g w) = .error .illegalOpcode) :
    s.stepWord g = exec (.reservedOpcode w) (s.fetchTlb g.core (s.groupPart g) g.pc) := by
  simp only [State.stepWord, hwait, hw, hi]

theorem stepWord_of_illegalEncoding (hi : decode w (s.lookAhead g w) = .error .illegalEncoding) :
    s.stepWord g = illegalFields w (s.fetchTlb g.core (s.groupPart g) g.pc) := by
  simp only [State.stepWord, hwait, hw, hi]

end

/-! ## What the next word of a group does not depend on -/

theorem lookAhead_of_majorOf_ne (s : State) (g : Group) {w : Word} (h : majorOf w ≠ 0x3E) : s.lookAhead g w = 0 :=
  if_neg h

/-- `u` without the first of its choices of two words in one clk. -/
def chosen (u : State) : State := { u with together := u.together.tail }

theorem chosen_eq_under (u : State) : chosen u = under (chosen u) u := rfl

@[simp] theorem chosen_groupPart (u : State) (g : Group) : (chosen u).groupPart g = u.groupPart g := by rfl

@[simp] theorem chosen_fetchWaits (u : State) (core part : Nat) (va : DWord) :
    (chosen u).fetchWaits core part va = u.fetchWaits core part va := by
  rw [chosen_eq_under, fetchWaits_under]

@[simp] theorem chosen_fetchWord (u : State) (core part : Nat) (va : DWord) :
    (chosen u).fetchWord core part va = u.fetchWord core part va := by
  rw [chosen_eq_under, fetchWord_under]

@[simp] theorem chosen_lookAhead (u : State) (g : Group) (w : Word) : (chosen u).lookAhead g w = u.lookAhead g w := by
  unfold State.lookAhead
  rw [chosen_groupPart, chosen_eq_under, modified_under]

theorem clkBegun_eq_under (g : Group) (u : State) : clkBegun g u = under (clkBegun g u) u := rfl

@[simp] theorem clkBegun_fetchWaits (g : Group) (u : State) (core part : Nat) (va : DWord) :
    (clkBegun g u).fetchWaits core part va = u.fetchWaits core part va := by
  rw [clkBegun_eq_under, fetchWaits_under]

@[simp] theorem clkBegun_fetchWord (g : Group) (u : State) (core part : Nat) (va : DWord) :
    (clkBegun g u).fetchWord core part va = u.fetchWord core part va := by
  rw [clkBegun_eq_under, fetchWord_under]

/-- Workgroups that keep their number, partition and threads. -/
def KeepsThreads (f : Workgroup → Workgroup) : Prop :=
  ∀ w, (f w).id = w.id ∧ (f w).part = w.part ∧ (f w).threads = w.threads

theorem wg?_mapWgs {f : Workgroup → Workgroup} (hf : KeepsThreads f) (s : State) (n : Nat) :
    ({ s with wgs := s.wgs.map f } : State).wg? n = (s.wg? n).map f := by
  have hid : ((fun w : Workgroup => w.id == n) ∘ f) = fun w => w.id == n := funext fun w => by simp [(hf w).1]
  simp only [State.wg?, List.find?_map, hid]

theorem groupPart_mapWgs {f : Workgroup → Workgroup} (hf : KeepsThreads f) (s : State) (g : Group) :
    ({ s with wgs := s.wgs.map f } : State).groupPart g = s.groupPart g := by
  have hpart (n : Nat) : ({ s with wgs := s.wgs.map f } : State).partOf n = s.partOf n := by
    have hp : Workgroup.part ∘ f = Workgroup.part := funext fun w => (hf w).2.1
    simp only [State.partOf, wg?_mapWgs hf, Option.map_map]
    rw [show ((fun x : Workgroup => x.part) ∘ f) = fun x => x.part from hp]
  have hthread (r : TRef) : ({ s with wgs := s.wgs.map f } : State).thread? r = s.thread? r := by
    simp only [State.thread?, wg?_mapWgs hf]
    cases s.wg? r.wg with
    | none => rfl
    | some w => exact congrArg (List.find? _) (hf w).2.2
  simp only [State.groupPart, State.active, hthread, hpart]

@[simp] theorem clkBegun_groupPart (g h : Group) (u : State) : (clkBegun g u).groupPart h = u.groupPart h :=
  groupPart_mapWgs (fun w => by split <;> exact ⟨rfl, rfl, rfl⟩) u h

theorem beginClk_eq (g : Group) (u : State) : u.beginClk g.core g.picker = clkBegun g u := by
  simp only [State.beginClk, Warp.keep, clkBegun, Bool.and_eq_true, beq_iff_eq]

theorem endClk_eq (u : State) : u.endClk = clkOver u := rfl

theorem pairs_iff (g h : Group) : g.pairs h = true ↔ g.core = h.core ∧ g.picker = h.picker ∧ g.id < h.id := by
  simp only [Group.pairs, Bool.and_eq_true, beq_iff_eq, decide_eq_true_eq, and_assoc]

theorem atWreg_of_ok {s : State} {g : Group} {w : Word} (h : s.fetchWord g.core (s.groupPart g) g.pc = .ok w) :
    s.atWreg g = true ↔ majorOf w = 7 := by
  simp only [State.atWreg, h, beq_iff_eq]

/-! ## Two words of one picker in one clk (R104) -/

section
variable {v t : State} {g h : Group} (hfirst : (v.beginClk g.core g.picker).stepWord g = .next t)
include hfirst

theorem stepClk_of_last (hc : t.current = none) : v.stepClk g = .next (clkOver t) := by
  simp only [State.stepClk, hfirst, hc, endClk_eq]

theorem stepClk_of_single (hc : t.current = some h) (hno : ¬(g.pairs h = true ∧ t.atWreg h = true)) :
    v.stepClk g = .next (clkOver t) := by
  simp only [State.stepClk, hfirst, hc, endClk_eq, Bool.and_eq_true, if_neg hno]

theorem stepClk_of_pair {t' : State} (hc : t.current = some h) (hp : g.pairs h = true ∧ t.atWreg h = true)
    (hsecond : t.stepWord h = .next t') : v.stepClk g = .next (clkOver t') := by
  simp only [State.stepClk, hfirst, hc, endClk_eq, Bool.and_eq_true, if_pos hp, hsecond]

end

/-! ## The next word of the current issue group -/

section
variable {s : State} {g : Group} (ha : s.tick.agenda = []) (hc : s.tick.current = some g)
include ha hc

theorem step_of_word (hone : ¬(s.tick.together.headD false = true ∧ s.tick.atWreg g = true)) :
    step s = (chosen s.tick).stepWord g :=
  (step_of_group ha hc).trans (if_neg (by rwa [Bool.and_eq_true]))

theorem step_of_clk (htwo : s.tick.together.headD false = true ∧ s.tick.atWreg g = true) :
    step s = (chosen s.tick).stepClk g :=
  (step_of_group ha hc).trans (if_pos (by rwa [Bool.and_eq_true]))

variable (hwait : s.tick.fetchWaits g.core (s.tick.groupPart g) g.pc = none)
include hwait

theorem step_of_unfetched {c : BitVec 8} (hf : s.tick.fetchWord g.core (s.tick.groupPart g) g.pc = .error c) :
    step s = fetchFault c g (chosen s.tick) := by
  have hone : ¬(s.tick.together.headD false = true ∧ s.tick.atWreg g = true) := fun h => by
    simp [State.atWreg, hf] at h
  rw [step_of_word ha hc hone]
  exact stepWord_of_error (by simpa using hwait) (by simpa using hf)

variable {w : Word} (hw : s.tick.fetchWord g.core (s.tick.groupPart g) g.pc = .ok w)
include hw

/-- The step of a single word runs what the word decodes to. -/
theorem step_of_single (hone : s.tick.together.headD false = false ∨ w.toNat / 2 ^ 26 ≠ 7) :
    (∀ i, decode w (s.tick.lookAhead g w) = .ok i →
      step s = exec i ((chosen s.tick).fetchTlb g.core (s.tick.groupPart g) g.pc)) ∧
    (decode w (s.tick.lookAhead g w) = .error .illegalOpcode →
      step s = exec (.reservedOpcode w) ((chosen s.tick).fetchTlb g.core (s.tick.groupPart g) g.pc)) ∧
    (decode w (s.tick.lookAhead g w) = .error .illegalEncoding →
      step s = illegalFields w ((chosen s.tick).fetchTlb g.core (s.tick.groupPart g) g.pc)) := by
  have hone' : ¬(s.tick.together.headD false = true ∧ s.tick.atWreg g = true) := by
    rw [atWreg_of_ok hw, majorOf_eq]
    rintro ⟨h1, h2⟩
    rcases hone with h | h
    · exact Bool.false_ne_true (h.symm.trans h1)
    · exact h h2
  have hwait' : (chosen s.tick).fetchWaits g.core ((chosen s.tick).groupPart g) g.pc = none := by simpa using hwait
  have hw' : (chosen s.tick).fetchWord g.core ((chosen s.tick).groupPart g) g.pc = .ok w := by simpa using hw
  rw [step_of_word ha hc hone', ← chosen_groupPart, ← chosen_lookAhead]
  exact ⟨fun i => stepWord_of_ok hwait' hw', stepWord_of_illegalOpcode hwait' hw', stepWord_of_illegalEncoding hwait' hw'⟩

omit ha hc in
/-- The first of two words of one clk runs with the registers of the beginning of the clk kept. -/
theorem beginClk_stepWord (hwreg : w.toNat / 2 ^ 26 = 7) {i : Instr} (hi : decode w (s.tick.lookAhead g w) = .ok i) :
    ((chosen s.tick).beginClk g.core g.picker).stepWord g =
      exec i ((clkBegun g (chosen s.tick)).fetchTlb g.core ((chosen s.tick).groupPart g) g.pc) := by
  have hmajor : majorOf w ≠ 0x3E := by rw [majorOf_eq, hwreg]; decide
  rw [beginClk_eq, stepWord_of_ok (by simpa using hwait) (by simpa using hw)
    (by rw [lookAhead_of_majorOf_ne _ _ hmajor]; rwa [lookAhead_of_majorOf_ne _ _ hmajor] at hi), clkBegun_groupPart]

theorem step_of_pair (htwo : s.tick.together.headD false = true ∧ w.toNat / 2 ^ 26 = 7) {i : Instr} {t : State}
    (hi : decode w (s.tick.lookAhead g w) = .ok i)
    (ht : exec i ((clkBegun g (chosen s.tick)).fetchTlb g.core ((chosen s.tick).groupPart g) g.pc) = .next t) :
    (t.current = none → step s = .next (clkOver t)) ∧
    ∀ h, t.current = some h →
      (g.core ≠ h.core ∨ g.picker ≠ h.picker ∨ h.id ≤ g.id → step s = .next (clkOver t)) ∧
      (g.core = h.core → g.picker = h.picker → g.id < h.id → t.fetchWaits h.core (t.groupPart h) h.pc = none →
        ∀ (x : Word) (j : Instr) (t' : State), t.fetchWord h.core (t.groupPart h) h.pc = .ok x →
          decode x (t.lookAhead h x) = .ok j → exec j (t.fetchTlb h.core (t.groupPart h) h.pc) = .next t' →
          step s = .next (clkOver (if x.toNat / 2 ^ 26 = 7 then t' else t))) := by
  have hwreg : s.tick.atWreg g = true := by rw [atWreg_of_ok hw, majorOf_eq, htwo.2]
  have hfirst := (beginClk_stepWord hwait hw htwo.2 hi).trans ht
  rw [step_of_clk ha hc ⟨htwo.1, hwreg⟩]
  refine ⟨stepClk_of_last hfirst, fun h hh => ⟨fun hne => stepClk_of_single hfirst hh fun hp => ?_, ?_⟩⟩
  · obtain ⟨h1, h2, h3⟩ := (pairs_iff g h).mp hp.1
    rcases hne with hne | hne | hne
    · exact hne h1
    · exact hne h2
    · omega
  · intro h1 h2 h3 hwait' x j t' hx hj ht'
    have hpair : g.pairs h = true := (pairs_iff g h).mpr ⟨h1, h2, h3⟩
    have hat : t.atWreg h = true ↔ x.toNat / 2 ^ 26 = 7 := by rw [atWreg_of_ok hx, majorOf_eq]
    split
    · exact stepClk_of_pair hfirst hh ⟨hpair, hat.mpr ‹_›⟩ ((stepWord_of_ok hwait' hx hj).trans ht')
    · exact stepClk_of_single hfirst hh fun hp => ‹¬_› (hat.mp hp.2)

end

/-! ## A step never stops with events in the agenda -/

theorem stepWord_answers {s : State} {g : Group} (h : InFlight s) : Answers s (s.stepWord g) := by
  have hkeep (part : Nat) : InFlight (s.fetchTlb g.core part g.pc) ∧
      (s.fetchTlb g.core part g.pc).agenda = s.agenda :=
    ⟨by rwa [InFlight, fetchTlb_current], fetchTlb_agenda ..⟩
  have hword {a : Answer} (part : Nat) (ha : Answers (s.fetchTlb g.core part g.pc) a) : Answers s a := by
    obtain ⟨t, hnext, hagenda⟩ := ha
    exact ⟨t, hnext, hagenda.trans (hkeep part).2⟩
  unfold State.stepWord
  dsimp only
  split
  · exact (answers_next ..).mpr (holdPool_agenda ..)
  · split
    · exact fetchFault_answers ..
    · have hin := (hkeep (s.groupPart g)).1
      split
      · exact hword _ (exec_answers fun _ => hin)
      · exact hword _ (exec_answers fun _ => hin)
      · exact hword _ (illegalFields_answers hin _)

theorem stepClk_answers {s : State} {g : Group} (h : InFlight s) : Answers s (s.stepClk g) := by
  obtain ⟨t, hnext, hagenda⟩ : Answers s ((s.beginClk g.core g.picker).stepWord g) :=
    stepWord_answers (s := s.beginClk g.core g.picker) h
  unfold State.stepClk
  rw [hnext]
  dsimp only
  split
  · rename_i g' hc
    split
    · obtain ⟨t', hnext', hagenda'⟩ := stepWord_answers (g := g') ⟨g', hc⟩
      rw [hnext']
      exact (answers_next ..).mpr (hagenda'.trans hagenda)
    · exact (answers_next ..).mpr hagenda
  · exact (answers_next ..).mpr hagenda

theorem exec_event {e : Instr} (h : Instr.isEvent e = true) (s : State) : Answers s (exec e s) :=
  exec_answers fun hno => absurd h (by simp [hno])

/-- Every step with events only in the agenda answers a state whose agenda is what was left of it. -/
theorem step_answers {s : State} (h : AgendaOk s) :
    ∃ t, step s = .next t ∧ (t.agenda = s.agenda ∨ t.agenda = s.agenda.tail) := by
  have htick := tick_agenda s
  cases hag : s.agenda with
  | cons e rest =>
    obtain ⟨t, hnext, hagenda⟩ := exec_event (h e (by simp [hag])) { s.tick.wakeGroups with agenda := rest }
    refine ⟨t, ?_, Or.inr hagenda⟩
    rw [step_of_agenda (htick.trans hag), if_pos (h e (by simp [hag])), hnext]
  | nil =>
    have hempty : s.tick.agenda = [] := htick.trans hag
    suffices ∃ u, u.agenda = s.agenda ∧ Answers u (step s) by
      obtain ⟨u, hu, t, hnext, hagenda⟩ := this
      exact ⟨t, hnext, Or.inl ((hagenda.trans hu).trans hag)⟩
    cases hc : s.tick.current with
    | some g =>
      have hin : InFlight (chosen s.tick) := ⟨g, hc⟩
      refine ⟨chosen s.tick, htick, ?_⟩
      rw [step_of_group hempty hc]
      split
      · exact stepClk_answers hin
      · exact stepWord_answers hin
    | none =>
      cases he : s.tick.wakeGroups.choice with
      | some e =>
        rw [step_of_choice hempty hc he]
        exact ⟨_, htick, exec_event (choice_isEvent he) _⟩
      | none =>
        rw [step_of_idle hempty hc he]
        exact ⟨_, htick, (answers_next ..).mpr rfl⟩

theorem step_agendaOk {s : State} (h : AgendaOk s) : ∃ t, step s = .next t ∧ AgendaOk t := by
  obtain ⟨t, hnext, hagenda | hagenda⟩ := step_answers h
  · exact ⟨t, hnext, by rwa [AgendaOk, hagenda]⟩
  · exact ⟨t, hnext, fun e he => h e (List.mem_of_mem_tail (hagenda ▸ he))⟩

/-- Settles O57: each clause by the lemma that says what a step is in that case; no step stops because every instruction
answers a next state that keeps the agenda. -/
theorem aStepRunsTheDecodedWordOrTheEvent : Obligations.AStepRunsTheDecodedWordOrTheEvent := by
  unfold Obligations.AStepRunsTheDecodedWordOrTheEvent
  refine ⟨fun s => ⟨Config.stepClk s.fresh, rfl⟩, ?_, ?_, ?_, ?_, ?_, fun s => step_agendaOk⟩
  · rintro s u g rfl ha hc hwait
    exact ⟨fun w hw => ⟨step_of_single ha hc hwait hw, fun htwo i t => step_of_pair ha hc hwait hw htwo⟩,
      fun c => step_of_unfetched ha hc hwait⟩
  · intro s core part va l hl hserved hmoves hplain
    exact ⟨fetchWaits_of_served hl hserved, fetchTlb_of_served hl hserved hmoves,
      fetchWord_of_plain hl hserved hmoves hplain⟩
  · exact fun s g w h => ⟨standing_reservedOpcode h w, standing_illegalFields h w⟩
  · rintro s u e rest rfl hag
    rw [step_of_agenda hag]
    exact ⟨fun h => if_pos h, fun h => if_neg (by simp [h])⟩
  · intro s e h
    obtain ⟨t, hnext, -⟩ := exec_event h s
    exact ⟨t, hnext⟩

end Sys2Proof.Proofs
end

