-- ==== Sys2Proof/Proofs/Reset.lean ====
section
/-!
The state right after reset.
-/

/- One kernel check at a time: each would take a thread's stack of its own. -/
set_option Elab.async false

namespace Sys2Proof.Safety

open Sys2Proof Sys2Proof.Machine Sys2Proof.Laws

theorem core_reset (c : Nat) : State.reset.core c = Core.reset := by
  change (List.replicate 128 Core.reset).getD c Core.reset = Core.reset
  rw [List.getD_eq_getElem?_getD, List.getElem?_getD_replicate_default_eq]

theorem timeline_reset (c k : Nat) : State.reset.timeline c k = Timeline.reset := by
  rw [State.timeline, core_reset]
  change (Vector.replicate 3 Timeline.reset).toList.getD k Timeline.reset = Timeline.reset
  rw [Vector.toList_replicate, List.getD_eq_getElem?_getD, List.getElem?_getD_replicate_default_eq]

/-- Settles O56: the fields of the reset state, its cores one by one, and the invariants, which hold of empty lists. -/
theorem resetLeavesTheEmptyPackage : Obligations.ResetLeavesTheEmptyPackage := by
  unfold Obligations.ResetLeavesTheEmptyPackage
  dsimp only
  have hcores (c : Nat) : (State.reset.core c).l1 = [] ∧ (State.reset.core c).tlb = [] ∧
      (State.reset.core c).lathist = Vector.replicate 8 0 ∧
      ∀ k < 3, (State.reset.timeline c k).next = 1 ∧ (State.reset.timeline c k).retired = 0 := by
    rw [core_reset]
    exact ⟨rfl, rfl, rfl, fun k _ => by rw [timeline_reset]; exact ⟨rfl, rfl⟩⟩
  refine ⟨⟨rfl, rfl, rfl, rfl, rfl, rfl, rfl, List.length_replicate, fun c _ => hcores c, rfl, rfl, rfl, rfl, rfl, rfl, rfl,
    fun _ _ _ => rfl, rfl, rfl, rfl⟩, ⟨wf_nil, fun _ hw => absurd hw List.not_mem_nil⟩, ?_, fun a => rfl⟩
  exact fun _ he => absurd he List.not_mem_nil

end Sys2Proof.Safety
end

