-- ==== Sys2Proof/Proofs/Cells.lean ====
section
/-!
What each change of the state does to the lists of cells of memory and of the scratchpad windows: it keeps them canonical.
-/

/- One kernel check at a time: each would take a thread's stack of its own. -/
set_option Elab.async false

namespace Sys2Proof.Safety

open Sys2Proof Sys2Proof.Machine Sys2Proof.Laws

/-! ## How a change of the state is put together -/

theorem CellsOk.ite {c : Prop} [Decidable c] {s t : State} (hs : CellsOk s) (ht : CellsOk t) :
    CellsOk (if c then s else t) := by
  split
  · exact hs
  · exact ht

/-- A change made for each element of a list in turn keeps the canonical form where each turn does. -/
theorem CellsOk.foldl {α : Type} {f : State → α → State} (hf : ∀ s x, CellsOk s → CellsOk (f s x)) {l : List α}
    {s : State} (h : CellsOk s) : CellsOk (l.foldl f s) := by
  induction l generalizing s with
  | nil => exact h
  | cons x l ih => exact ih (hf s x h)

theorem CellsOk.congr {s t : State} (h : CellsOk s) (hm : t.mem = s.mem) (hw : t.wgs = s.wgs) : CellsOk t := by
  rwa [CellsOk, hm, hw]

/-- Workgroups change, each into one whose window is in canonical form. -/
theorem CellsOk.withWgs {s : State} (h : CellsOk s) {ws : List Workgroup}
    (hw : ∀ w ∈ ws, w.scratch = [] ∨ ∃ v ∈ s.wgs, w.scratch = v.scratch) : CellsOk { s with wgs := ws } := by
  refine ⟨h.1, fun w hmem => ?_⟩
  obtain he | ⟨v, hv, he⟩ := hw w hmem
  · exact he ▸ wf_nil
  · exact he ▸ h.2 v hv

theorem CellsOk.mapWgs {s : State} (h : CellsOk s) {f : Workgroup → Workgroup}
    (hf : ∀ w, Memory.wf w.scratch → Memory.wf (f w).scratch) : CellsOk { s with wgs := s.wgs.map f } := by
  refine ⟨h.1, fun w hw => ?_⟩
  obtain ⟨v, hv, rfl⟩ := List.mem_map.1 hw
  exact hf v (h.2 v hv)

/-! ## Ops -/

theorem CellsOk.updWg {s : State} (h : CellsOk s) {id : Nat} {f : Workgroup → Workgroup}
    (hf : ∀ w, Memory.wf w.scratch → Memory.wf (f w).scratch) : CellsOk (s.updWg id f) :=
  h.mapWgs fun w hw => by split <;> [exact hf w hw; exact hw]

/-- A workgroup changes, and not its window. -/
theorem CellsOk.editWg {s : State} (h : CellsOk s) {id : Nat} {f : Workgroup → Workgroup}
    (hf : ∀ w, (f w).scratch = w.scratch := by intros; rfl) : CellsOk (s.updWg id f) :=
  h.updWg fun w hw => hf w ▸ hw

/-- The bytes of a scratchpad window are written. -/
@[simp] theorem CellsOk.setScratch {s : State} (h : CellsOk s) {wg a : Nat} {bs : List Byte} :
    CellsOk (s.updWg wg fun w => { w with scratch := Memory.setBytes w.scratch a bs }) :=
  h.updWg fun _ hw => wf_setBytes hw a bs

@[simp] theorem CellsOk.updThread {s : State} (h : CellsOk s) {r : TRef} {f : Thread → Thread} :
    CellsOk (s.updThread r f) :=
  h.editWg

@[simp] theorem CellsOk.updThreads {s : State} (h : CellsOk s) {rs : List TRef} {f : Thread → Thread} :
    CellsOk (s.updThreads rs f) := h.mapWgs fun _ hw => hw

@[simp] theorem CellsOk.updWarp {s : State} (h : CellsOk s) {wg w : Nat} {f : Warp → Warp} :
    CellsOk (s.updWarp wg w f) :=
  h.editWg

@[simp] theorem CellsOk.mapGroup {s : State} (h : CellsOk s) {id : Nat} {f : Workgroup → Thread → Thread} :
    CellsOk (s.mapGroup id f) := h.mapWgs fun _ hw => hw

@[simp] theorem CellsOk.updGroup {s : State} (h : CellsOk s) {id : Nat} {f : Group → Group} : CellsOk (s.updGroup id f) :=
  h

@[simp] theorem CellsOk.updCore {s : State} (h : CellsOk s) {n : Nat} {f : Core → Core} : CellsOk (s.updCore n f) := h

@[simp] theorem CellsOk.updPart {s : State} (h : CellsOk s) {n : Nat} {f : Partition → Partition} :
    CellsOk (s.updPart n f) := h

@[simp] theorem CellsOk.updOp {s : State} (h : CellsOk s) {id : Nat} {f : PendingOp → PendingOp} :
    CellsOk (s.updOp id f) := h

@[simp] theorem CellsOk.dropOp {s : State} (h : CellsOk s) {o : PendingOp} : CellsOk (s.dropOp o) :=
  h.updThreads (f := (·.subFlag o.flag))

@[simp] theorem CellsOk.applyLate {s : State} (h : CellsOk s) : CellsOk s.applyLate :=
  h.mapWgs fun w hw => by unfold Workgroup.applyLate; dsimp only; split <;> exact hw

@[simp] theorem CellsOk.advance {s : State} (h : CellsOk s) {g : Group} : CellsOk (s.advance g) :=
  h.mapGroup (f := fun _ t => { t with pc := g.pc + 4 })

@[simp] theorem CellsOk.holdGroup {s : State} (h : CellsOk s) {g : Group} : CellsOk (s.holdGroup g) := h

@[simp] theorem CellsOk.endClause {s : State} (h : CellsOk s) {g : Group} : CellsOk (s.endClause g) := by
  have h' := h.mapGroup (id := g.id) (f := fun w t =>
    { t.finishClause g with group := none, mid := none, readyAt := s.time, collSince := none, sgw := w.widthOf t })
  exact CellsOk.applyLate (s := { s.mapGroup g.id _ with groups := _ }) h'

@[simp] theorem CellsOk.wakeGroups {s : State} (h : CellsOk s) : CellsOk s.wakeGroups := h

@[simp] theorem CellsOk.addOp {s : State} (h : CellsOk s) {g : Group} {r : TRef} {fs : Option Bool} {word : Nat}
    {kind : OpKind} {dst ndst : Nat} : CellsOk (s.addOp g r fs word kind dst ndst) := by
  unfold State.addOp
  exact h.updThread

/-! ## Memory -/

@[simp] theorem CellsOk.mapFrame {s : State} (h : CellsOk s) {pa : Nat} {f : Frame → Frame} :
    CellsOk (s.mapFrame pa f) := by
  unfold State.mapFrame
  split <;> exact h

@[simp] theorem CellsOk.updFrame {s : State} (h : CellsOk s) {pa base size : Nat} {f : Frame → Frame} :
    CellsOk (s.updFrame pa base size f) := by
  unfold State.updFrame
  grind [CellsOk.mapFrame, CellsOk.congr]

@[simp] theorem CellsOk.countAccess {s : State} (h : CellsOk s) {pa n : Nat} {write : Bool} :
    CellsOk (s.countAccess pa n write) := h.mapFrame

@[simp] theorem CellsOk.noteFrame {s : State} (h : CellsOk s) {pa size part : Nat} :
    CellsOk (s.noteFrame pa size part) := by
  unfold State.noteFrame
  grind [CellsOk.mapFrame, CellsOk.congr]

@[simp] theorem CellsOk.logEvent {s : State} (h : CellsOk s) {kind source : Nat} : CellsOk (s.logEvent kind source) := h

@[simp] theorem CellsOk.noteActivates {s : State} (h : CellsOk s) {stack part n : Nat} {row : Bool} :
    CellsOk (s.noteActivates stack part n row) := h

@[simp] theorem CellsOk.demandActivate {s : State} (h : CellsOk s) {pa : Nat} : CellsOk (s.demandActivate pa) := h

@[simp] theorem CellsOk.unclear {s : State} (h : CellsOk s) {pa : Nat} {fold : BitVec 16} {open_ : Bool} :
    CellsOk (s.unclear pa fold open_) := by
  unfold State.unclear
  split
  · exact ⟨wf_clear h.1 _ _, h.2⟩
  · exact h

@[simp] theorem CellsOk.tierWrite {s : State} (h : CellsOk s) {pa : Nat} {bs : List Byte} {fold : BitVec 16}
    {open_ : Bool} : CellsOk (s.tierWrite pa bs fold open_) := by
  have hu := h.unclear (pa := pa) (fold := fold) (open_ := open_)
  unfold State.tierWrite
  dsimp only
  split
  · split
    · exact hu
    · exact ⟨wf_setBytes hu.1 _ _, hu.2⟩
  · exact ⟨wf_setBytes hu.1 _ _, hu.2⟩

@[simp] theorem CellsOk.noteCorrection {s : State} (h : CellsOk s) {u : Nat} : CellsOk (s.noteCorrection u) := by
  unfold State.noteCorrection
  grind [CellsOk.mapFrame, CellsOk.logEvent, CellsOk.congr]

@[simp] theorem CellsOk.correctUnits {s : State} (h : CellsOk s) {units : List Nat} {one : Nat} {fold : BitVec 16}
    {open_ : Bool} {good : Nat → Bool} : CellsOk (s.correctUnits units one fold open_ good) :=
  .foldl (fun _ _ h => h.noteCorrection) h

@[simp] theorem CellsOk.stampUnit {s : State} (h : CellsOk s) {u : Nat} {fold : BitVec 16} {open_ bad : Bool} :
    CellsOk (s.stampUnit u fold open_ bad) := h

@[simp] theorem CellsOk.l2Store {s : State} (h : CellsOk s) {n : Nat} {x : L2Sector} : CellsOk (s.l2Store n x) :=
  .foldl (fun _ _ hs => hs.stampUnit) h.demandActivate.tierWrite.countAccess

@[simp] theorem CellsOk.l2WriteBack {s : State} (h : CellsOk s) {n : Nat} : CellsOk (s.l2WriteBack n) := by
  unfold State.l2WriteBack
  grind [CellsOk.l2Store, CellsOk.congr]

@[simp] theorem CellsOk.l2Drop {s : State} (h : CellsOk s) {n : Nat} : CellsOk (s.l2Drop n) := h

@[simp] theorem CellsOk.l2Leave {s : State} (h : CellsOk s) {n : Nat} : CellsOk (s.l2Leave n) := by
  unfold State.l2Leave
  grind [CellsOk.l2WriteBack, CellsOk.l2Drop, CellsOk.congr]

@[simp] theorem CellsOk.l2Evict {s : State} (h : CellsOk s) {line : Nat} : CellsOk (s.l2Evict line) :=
  .foldl (fun s k hs => by
    split
    · exact CellsOk.l2Drop (.ite hs.l2Store hs)
    · exact hs) h

theorem CellsOk.evictLines {s : State} (h : CellsOk s) (lines : List Nat) (n : Nat) :
    CellsOk { lines.foldl State.l2Evict s with fresh := n } := by
  have hl : CellsOk (lines.foldl State.l2Evict s) := .foldl (fun _ _ hs => hs.l2Evict) h
  exact ⟨hl.1, hl.2⟩

@[simp] theorem CellsOk.l2Room {s : State} (h : CellsOk s) {n : Nat} : CellsOk (s.l2Room n) := .ite h (h.evictLines _ _)

@[simp] theorem CellsOk.l2Fill {s : State} (h : CellsOk s) {n : Nat} {fold : BitVec 16} {open_ : Bool} :
    CellsOk (s.l2Fill n fold open_) := by
  unfold State.l2Fill
  split
  · exact h
  · simp only [CellsOk]
    exact CellsOk.correctUnits h.l2Room.demandActivate.countAccess

@[simp] theorem CellsOk.l2Write {s : State} (h : CellsOk s) {pa : Nat} {bs : List Byte} {fold : BitVec 16}
    {open_ : Bool} : CellsOk (s.l2Write pa bs fold open_) := h.l2Fill

@[simp] theorem CellsOk.l2Patch {s : State} (h : CellsOk s) {pa : Nat} {bs : List Byte} : CellsOk (s.l2Patch pa bs) :=
  h.l2Write

@[simp] theorem CellsOk.l1WriteUnit {s : State} (h : CellsOk s) {l : L1Line} {k : Nat} :
    CellsOk (s.l1WriteUnit l k) := by
  unfold State.l1WriteUnit
  grind [CellsOk.l2Write, CellsOk.foldl, CellsOk.congr]

@[simp] theorem CellsOk.l1WriteBack {s : State} (h : CellsOk s) {n line : Nat} : CellsOk (s.l1WriteBack n line) := by
  unfold State.l1WriteBack
  grind [CellsOk.l1WriteUnit, CellsOk.updCore, CellsOk.congr]

@[simp] theorem CellsOk.l1Drop {s : State} (h : CellsOk s) {n line : Nat} : CellsOk (s.l1Drop n line) := h

@[simp] theorem CellsOk.l1Renew {s : State} (h : CellsOk s) {n line : Nat} {gen : BitVec 16} :
    CellsOk (s.l1Renew n line gen) := by
  unfold State.l1Renew
  grind [CellsOk.l1WriteBack, CellsOk.l1Drop, CellsOk.congr]

@[simp] theorem CellsOk.l1Trim {s : State} (h : CellsOk s) {n k : Nat} : CellsOk (s.l1Trim n k) := by
  unfold State.l1Trim
  grind [CellsOk.foldl, CellsOk.l1WriteBack, CellsOk.l1Drop, CellsOk.congr]

@[simp] theorem CellsOk.l1Room {s : State} (h : CellsOk s) {n line : Nat} : CellsOk (s.l1Room n line) := by
  unfold State.l1Room
  grind [CellsOk.l1Trim, CellsOk.congr]

@[simp] theorem CellsOk.l1Fill {s : State} (h : CellsOk s) {n line : Nat} {l : Leaf} : CellsOk (s.l1Fill n line l) :=
  h.l1Renew.l1Room

@[simp] theorem CellsOk.l1Write {s : State} (h : CellsOk s) {n pa : Nat} {bs : List Byte} {leaf : Leaf}
    {dirty : Bool} : CellsOk (s.l1Write n pa bs leaf dirty) := by
  unfold State.l1Write
  grind [CellsOk.l1Renew, CellsOk.updCore, CellsOk.l1Room, CellsOk.congr]

@[simp] theorem CellsOk.l1WriteBackAll {s : State} (h : CellsOk s) {n : Nat} : CellsOk (s.l1WriteBackAll n) :=
  .foldl (fun _ _ h => h.l1WriteBack) h

@[simp] theorem CellsOk.l1Discard {s : State} (h : CellsOk s) {n : Nat} : CellsOk (s.l1Discard n) := h

@[simp] theorem CellsOk.invalidateOthers {s : State} (h : CellsOk s) {n line : Nat} :
    CellsOk (s.invalidateOthers n line) := h

theorem wf_foldl_set {α : Type} {m : List Host.Cell} (h : Memory.wf m) (l : List α) (at_ : α → Nat)
    (byte : α → Byte) : Memory.wf (l.foldl (fun m c => Memory.set m (at_ c) (byte c)) m) := by
  induction l generalizing m with
  | nil => exact h
  | cons c l ih => exact ih (wf_set h _ _)

@[simp] theorem CellsOk.triggerWhere {s : State} (h : CellsOk s) {hit : Workgroup → Watch → Bool} :
    CellsOk (s.triggerWhere hit) := h.mapWgs fun _ hw => hw

@[simp] theorem CellsOk.triggerWatches {s : State} (h : CellsOk s) {line : Nat} {coh : Bool} :
    CellsOk (s.triggerWatches line coh) := h.triggerWhere

/-! ## Translate -/

@[simp] theorem CellsOk.tlbInsert {s : State} (h : CellsOk s) {core part : Nat} {l : Leaf} :
    CellsOk (s.tlbInsert core part l) := by
  unfold State.tlbInsert
  grind [CellsOk.noteFrame, CellsOk.updCore, CellsOk.congr]

@[simp] theorem CellsOk.tlbDrop {s : State} (h : CellsOk s) {core part va : Nat} : CellsOk (s.tlbDrop core part va) := h

@[simp] theorem CellsOk.setGranule {s : State} (h : CellsOk s) {pa : Nat} {f : Granule → Granule} :
    CellsOk (s.setGranule pa f) := by
  unfold State.setGranule
  split <;> exact h

@[simp] theorem CellsOk.requestPool {s : State} (h : CellsOk s) {pa : Nat} {write : Bool} :
    CellsOk (s.requestPool pa write) := h.setGranule

@[simp] theorem CellsOk.holdPool {s : State} (h : CellsOk s) {who : List Nat} {pa : Nat} {write : Bool} :
    CellsOk (s.holdPool who pa write) := h.requestPool.setGranule

@[simp] theorem CellsOk.fetchTlb {s : State} (h : CellsOk s) {core part : Nat} {va : DWord} :
    CellsOk (s.fetchTlb core part va) := by
  unfold State.fetchTlb
  grind [CellsOk.tlbDrop, CellsOk.tlbInsert, CellsOk.l2Fill, CellsOk.congr]

/-! ## Ops -/

@[simp] theorem CellsOk.raise {s : State} (h : CellsOk s) {r : TRef} {d : FaultDetail} {site : Site} :
    CellsOk (s.raise r d site) := h.updThread

@[simp] theorem CellsOk.raiseAll {s : State} (h : CellsOk s) {g : Group} {d : FaultDetail} {pc : DWord} :
    CellsOk (s.raiseAll g d pc) := h.mapGroup

@[simp] theorem CellsOk.settle {s : State} (h : CellsOk s) {id : Nat} : CellsOk (s.settle id) := by
  unfold State.settle
  grind [CellsOk.endClause, CellsOk.congr]

@[simp] theorem CellsOk.rangeFaults {s : State} (h : CellsOk s) {g : Group} {w : WordRule} {regs : List Nat} :
    CellsOk (s.rangeFaults g w regs) := h.mapGroup

@[simp] theorem CellsOk.peek {s : State} (h : CellsOk s) {core part : Nat} {va : DWord} {n : Nat} :
    CellsOk (s.peek core part va n).state := by
  unfold State.peek
  split
  · exact h
  · dsimp only
    split
    · exact h.holdPool
    · exact h.tlbDrop
    · split
      · exact h.tlbInsert.l1Renew
      · split
        · exact h.tlbInsert.l1Renew.l2Fill
        · exact h.tlbInsert.l1Renew.l2Fill.l1Fill

@[simp] theorem CellsOk.countFill {s : State} (h : CellsOk s) {core : Nat} : CellsOk (s.countFill core) := h

@[simp] theorem CellsOk.fillReg {s : State} (h : CellsOk s) {g : Group} {r : TRef} {n : Nat} :
    CellsOk (s.fillReg g r n) := by
  unfold State.fillReg
  split
  · next w t _ _ =>
    have hp := h.peek (core := w.core) (part := w.part) (va := BitVec.ofNat 64 (w.homeOf r.warp r.lane n)) (n := 4)
    dsimp only
    split
    · generalize s.peek _ _ _ _ = x at hp ⊢
      cases x with
      | ok u bs => exact hp.updThread
      | waits u => exact hp
      | fault u gen => exact hp.countFill.raise
    · exact h
  · exact h

@[simp] theorem CellsOk.fillFor {s : State} (h : CellsOk s) {g : Group} {rs : List TRef} {acts : Thread → Bool}
    {srcs : List Nat} : CellsOk (s.fillFor g rs acts srcs) := by
  unfold State.fillFor
  grind [CellsOk.foldl, CellsOk.fillReg, CellsOk.congr]

@[simp] theorem CellsOk.fillSources {s : State} (h : CellsOk s) {w : WordRule} {acts : Thread → Bool}
    {srcs : List Nat} {g : Group} : CellsOk (fillSources w acts srcs g s) := h.fillFor

@[simp] theorem CellsOk.finishOp {s : State} (h : CellsOk s) {o : PendingOp} {vals : List Word} {fp : BitVec 5}
    {keep : Nat} : CellsOk (s.finishOp o vals fp keep) := by
  rw [finishOp_eq]
  exact h.mapWgs fun w hw => hw

@[simp] theorem CellsOk.taintActing {s : State} (h : CellsOk s) {g : Group} {acts : Thread → Bool} :
    CellsOk (s.taintActing g acts) := h.mapGroup

@[simp] theorem CellsOk.postRecord {s : State} (h : CellsOk s) {r : FaultRecord} : CellsOk (s.postRecord r) := h

@[simp] theorem CellsOk.formRecord {s : State} (h : CellsOk s) {core : Nat} : CellsOk (s.formRecord core) := by
  unfold State.formRecord
  grind [CellsOk.updCore, CellsOk.postRecord, CellsOk.congr]

@[simp] theorem CellsOk.reportRecord {s : State} (h : CellsOk s) {r : FaultRecord} : CellsOk (s.reportRecord r) :=
  h.updCore.formRecord

@[simp] theorem CellsOk.queueThread {s : State} (h : CellsOk s) {w : Workgroup} {t : Thread} {hfail : Bool} :
    CellsOk (s.queueThread w t hfail) := h.postRecord.updThread

@[simp] theorem CellsOk.handlerFails {s : State} (h : CellsOk s) {w : Workgroup} {t : Thread} :
    CellsOk (s.handlerFails w t) := by
  unfold State.handlerFails
  grind [CellsOk.queueThread, CellsOk.updThread, CellsOk.congr]

@[simp] theorem CellsOk.tryHandler {s : State} (h : CellsOk s) {w : Workgroup} {t : Thread} :
    CellsOk (s.tryHandler w t) := by
  unfold State.tryHandler
  grind [CellsOk.handlerFails, CellsOk.updThread, CellsOk.congr]

@[simp] theorem CellsOk.trapEntry {s : State} (h : CellsOk s) {w : Workgroup} {t : Thread} :
    CellsOk (s.trapEntry w t) := by
  unfold State.trapEntry
  grind [CellsOk.handlerFails, CellsOk.tryHandler, CellsOk.queueThread, CellsOk.congr]

@[simp] theorem CellsOk.rett {s : State} (h : CellsOk s) {g : Group} {w : Workgroup} {t : Thread} :
    CellsOk (s.rett g w t) := by
  unfold State.rett
  grind [CellsOk.raise, CellsOk.updThread, CellsOk.congr]

/-! ## Sfu -/

@[simp] theorem CellsOk.issueOps {s : State} (h : CellsOk s) {g : Group} {acts : Thread → Bool} {fs : Option Bool}
    {mk : TRef → Thread → OpKind × Nat × Nat} : CellsOk (s.issueOps g acts fs mk) := by
  unfold State.issueOps
  grind [CellsOk.foldl, CellsOk.addOp, CellsOk.congr]

/-! ## Barrier -/

@[simp] theorem CellsOk.arrive {fuel : Nat} {s : State} (h : CellsOk s) {r : TRef} {b cnt : Nat} {wait : Bool}
    {site : Site} : CellsOk (s.arrive fuel r b cnt wait site) := by
  induction fuel generalizing s r b cnt wait site with
  | zero => exact h
  | succ fuel ih =>
    unfold State.arrive
    split
    · exact h
    · split
      · exact h.updThread
      · split
        · exact h.raise
        · next x _ =>
          have hx : CellsOk ((s.updWg r.wg fun w => w.setBar b x).updThread r fun t =>
            { t with hold := if wait then some (.barrier b site) else none }) := (h.editWg).updThread
          dsimp only
          split
          · exact hx
          · refine CellsOk.foldl (fun s t hs => ?_) hx.editWg
            split
            · split
              · exact ih hs.updThread
              · exact hs
            · exact hs

@[simp] theorem CellsOk.applyHeld {s : State} (h : CellsOk s) {wg b : Nat} : CellsOk (s.applyHeld wg b) := by
  unfold State.applyHeld
  grind [CellsOk.foldl, CellsOk.updThread, CellsOk.arrive, CellsOk.congr]

@[simp] theorem CellsOk.recountB0 {s : State} (h : CellsOk s) {wg : Nat} : CellsOk (s.recountB0 wg) := by
  unfold State.recountB0
  split
  · exact h
  · dsimp only
    split
    · exact h
    · exact h.editWg.applyHeld

@[simp] theorem CellsOk.barrierStall {s : State} (h : CellsOk s) {wg b : Nat} : CellsOk (s.barrierStall wg b) := by
  unfold State.barrierStall
  split
  · exact h
  · dsimp only
    split
    · exact h.editWg
    · exact h.editWg

/-! ## CrossLane -/

@[simp] theorem CellsOk.joinHeld {s : State} (h : CellsOk s) {g : Group} : CellsOk (joinHeld g s) :=
  h.mapWgs fun _ hw => hw

/-! ## Access -/

@[simp] theorem CellsOk.orderActions {s : State} (h : CellsOk s) {core order scope : Nat} :
    CellsOk (s.orderActions core order scope) := by
  unfold State.orderActions
  grind [CellsOk.l1WriteBackAll, CellsOk.l1Discard, CellsOk.congr]

@[simp] theorem CellsOk.fenceStep {s : State} (h : CellsOk s) {f : PendingOp} : CellsOk (s.fenceStep f) := by
  unfold State.fenceStep
  grind [CellsOk.orderActions, CellsOk.congr]

@[simp] theorem CellsOk.retireFences {s : State} (h : CellsOk s) : CellsOk (s.retireFences) :=
  .foldl (fun _ _ h => h.fenceStep) h

@[simp] theorem CellsOk.reject {s : State} (h : CellsOk s) {core part : Nat} {a : Access} {c : BitVec 8} :
    CellsOk ((s.reject core part a c).state) := h

@[simp] theorem CellsOk.readData {s : State} (h : CellsOk s) {core : Nat} {a : Access} :
    CellsOk ((s.readData core a).state) := by
  unfold State.readData
  dsimp only
  split
  · exact h.l1Renew.orderActions
  · split
    · exact h.l1Renew.l2Fill
    · exact h.l1Renew.l2Fill.l1Fill.orderActions

theorem CellsOk.landed {p : Performed} (h : CellsOk p.state) {vals : List Byte → List Word} :
    CellsOk (p.landed vals).state := by rwa [Proofs.landed_state]

@[simp] theorem CellsOk.performRead {s : State} (h : CellsOk s) {core part : Nat} {a : Access} :
    CellsOk (s.performRead core part a).state := by
  unfold State.performRead
  split
  · exact h.requestPool
  · exact h.reject
  · exact h.readData

@[simp] theorem CellsOk.landBytes {s : State} (h : CellsOk s) {core pa : Nat} {bs : List Byte} {l : Leaf} :
    CellsOk (s.landBytes core pa bs l) := by
  unfold State.landBytes
  grind [CellsOk.l1Write, CellsOk.l2Write, CellsOk.invalidateOthers, CellsOk.triggerWatches, CellsOk.congr]

@[simp] theorem CellsOk.showStore {s : State} (h : CellsOk s) {core : Nat} {o : PendingOp} {a : Access}
    {bs : List Byte} : CellsOk (s.showStore core o a bs) := h.l1Write

@[simp] theorem CellsOk.performWrite {s : State} (h : CellsOk s) {core part : Nat} {a : Access} {bs : List Byte} :
    CellsOk (s.performWrite core part a bs).state := by
  unfold State.performWrite
  split
  · exact h.requestPool
  · exact h.reject
  · exact h.orderActions.landBytes

@[simp] theorem CellsOk.atomData {s : State} (h : CellsOk s) {core : Nat} {a : Access} :
    CellsOk (s.atomData core a).state := by
  unfold State.atomData
  split
  · exact h.readData
  · have hd : CellsOk (if a.leaf.cls == .priv then
        (s.l1WriteBack core (s.homeAddr a.pa / 128)).l1Drop core (s.homeAddr a.pa / 128) else s) :=
      .ite h.l1WriteBack.l1Drop h
    dsimp only
    split
    · exact hd.l2Fill
    · exact hd.l2Fill

@[simp] theorem CellsOk.performAtomic {s : State} (h : CellsOk s) {core part : Nat} {a : Access}
    {f : List Byte → Option (List Byte)} : CellsOk (s.performAtomic core part a f).state := by
  unfold State.performAtomic
  split
  · exact h.requestPool
  · exact h.reject
  · have hd := h.atomData (core := core) (a := a)
    dsimp only
    generalize s.atomData core a = x at hd ⊢
    cases x with
    | done t old _ =>
      dsimp only
      split
      · exact CellsOk.orderActions (s := t) hd
      · have ho := CellsOk.orderActions (s := t) hd (core := core)
          (order := if isRelease a.order then 2 else 0) (scope := a.scope)
        exact (CellsOk.ite ho.l2Write ho.landBytes).orderActions
    | waits t => exact hd
    | fault t d => exact hd

@[simp] theorem CellsOk.failOp {s : State} (h : CellsOk s) {o : PendingOp} {d : FaultDetail} :
    CellsOk (s.failOp o d) := by
  unfold State.failOp
  grind [CellsOk.foldl, CellsOk.updThread, CellsOk.dropOp, CellsOk.congr]

@[simp] theorem CellsOk.impreciseRecord {s : State} (h : CellsOk s) {o : PendingOp} {d : FaultDetail} :
    CellsOk (s.impreciseRecord o d) := by
  unfold State.impreciseRecord
  grind [CellsOk.reportRecord, CellsOk.congr]

@[simp] theorem CellsOk.countLatency {s : State} (h : CellsOk s) {core issued : Nat} :
    CellsOk (s.countLatency core issued) := h

@[simp] theorem CellsOk.settleLoad {s : State} (h : CellsOk s) {core : Nat} {o : PendingOp} {beyond : Bool} :
    CellsOk (s.settleLoad core o beyond) := by
  unfold State.settleLoad
  split <;> exact h

@[simp] theorem CellsOk.issueAccess {s : State} (h : CellsOk s) {g : Group} {r : TRef} {fs : Option Bool}
    {word : Nat} {va : DWord} {n : Nat} {need : Rights} {order scope : Nat} {mk : Access → OpKind} {dst ndst : Nat} :
    CellsOk (s.issueAccess g r fs word va n need order scope mk dst ndst) := by
  unfold State.issueAccess
  grind [CellsOk.raise, CellsOk.tlbInsert, CellsOk.addOp, CellsOk.congr]

theorem CellsOk.eachActing {s : State} (h : CellsOk s) {g : Group} {acts : Thread → Bool}
    {f : Nat → TRef → Thread → State → State} (hf : ∀ k r t s, CellsOk s → CellsOk (f k r t s)) :
    CellsOk (s.eachActing g acts f) :=
  .foldl (fun s r hs => by
    split
    · split
      · exact hf _ _ _ _ hs
      · exact hs
    · exact hs) h

/-! ## EngineAccess -/

@[simp] theorem CellsOk.engineReadPiece {s : State} (h : CellsOk s) {who : List Nat} {core part : Nat}
    {fmt : Nat → Bool} {p : Nat × Nat} : CellsOk (s.engineReadPiece who core part fmt p).state := by
  unfold State.engineReadPiece
  dsimp only
  split
  · exact h
  · split
    · exact h.holdPool
    · exact h.tlbDrop
    · split
      · exact h.tlbInsert.l2Fill
      · exact h.tlbInsert.l2Fill

@[simp] theorem CellsOk.engineReadFrom {s : State} (h : CellsOk s) {who : List Nat} {core part : Nat}
    {fmt : Nat → Bool} {ps : List (Nat × Nat)} {acc : List Byte} :
    CellsOk (s.engineReadFrom who core part fmt ps acc).state := by
  induction ps generalizing s acc with
  | nil => exact h
  | cons p ps ih =>
    have hp := h.engineReadPiece (who := who) (core := core) (part := part) (fmt := fmt) (p := p)
    unfold State.engineReadFrom
    generalize s.engineReadPiece who core part fmt p = x at hp ⊢
    cases x with
    | done t bs _ => exact ih hp
    | waits t => exact hp
    | fault t d => exact hp

@[simp] theorem CellsOk.engineRead {s : State} (h : CellsOk s) {who : List Nat} {core part va n : Nat}
    {fmt : Nat → Bool} : CellsOk ((s.engineRead who core part va n fmt).state) := h.engineReadFrom

@[simp] theorem CellsOk.engineWritePiece {s : State} (h : CellsOk s) {core part : Nat} {va : DWord} {bs : List Byte} :
    CellsOk (s.engineWritePiece core part va bs) := by
  unfold State.engineWritePiece
  grind [CellsOk.tlbInsert, CellsOk.l2Write, CellsOk.invalidateOthers, CellsOk.triggerWatches, CellsOk.congr]

@[simp] theorem CellsOk.engineWrite {s : State} (h : CellsOk s) {core part : Nat} {va : Nat} {bs : List Byte} :
    CellsOk (s.engineWrite core part va bs) :=
  .foldl (fun _ _ h => h.engineWritePiece) h

/-! ## LoadStore -/

@[simp] theorem CellsOk.landDecode {s : State} (h : CellsOk s) {core part func : Nat} {o : PendingOp} {a e : Access} :
    CellsOk (s.landDecode core part func o a e).state := by
  unfold State.landDecode
  dsimp only
  split
  · exact h.requestPool
  · exact CellsOk.landed h.reject
  · exact h.requestPool
  · exact CellsOk.landed h.reject
  · have he := h.readData (core := core) (a := e)
    generalize s.readData core e = x at he ⊢
    cases x with
    | done t es b =>
      have ha := CellsOk.readData (s := t) he (core := core) (a := a)
      dsimp only
      generalize t.readData core a = y at ha ⊢
      cases y with
      | done u bs b' =>
        dsimp only
        split
        · exact ha
        · exact CellsOk.settleLoad (s := u) ha
      | waits u => exact CellsOk.landed ha
      | fault u d => exact CellsOk.landed ha
    | waits t => exact CellsOk.landed he
    | fault t d => exact CellsOk.landed he

@[simp] theorem CellsOk.landLoad {s : State} (h : CellsOk s) {o : PendingOp} {func : Nat} {a : Access}
    {entry : Option Access} : CellsOk (s.landLoad o func a entry).state := by
  unfold State.landLoad
  cases entry with
  | some e => exact h.landDecode
  | none =>
    have hp := h.performRead (core := s.opCore o) (part := s.opPart o) (a := a)
    dsimp only
    generalize s.performRead _ _ a = x at hp ⊢
    cases x with
    | done t bs b => exact CellsOk.settleLoad (s := t) hp
    | waits t => exact CellsOk.landed hp
    | fault t d => exact CellsOk.landed hp

theorem CellsOk.complete {s : State} {o : PendingOp} {keep : Nat} {r : Landed} (h : CellsOk r.state) :
    CellsOk (s.complete o keep r) := by
  cases r with
  | done t vals fp => exact CellsOk.retireFences (CellsOk.finishOp (s := t) h)
  | waits t => exact h
  | fault t d => exact CellsOk.retireFences (CellsOk.failOp (s := t) h)

@[simp] theorem CellsOk.spillReg {s : State} (h : CellsOk s) {r : TRef} {n : Nat} : CellsOk (s.spillReg r n) := by
  unfold State.spillReg
  split
  · next w t _ _ =>
    dsimp only
    split
    · exact h.countFill.updThread
    · next l _ =>
      have hp := h.performWrite (core := w.core) (part := w.part)
        (a := mkAccess (BitVec.ofNat 64 (w.homeOf r.warp r.lane n)) 4 l 0 0) (bs := leBytes 4 (t.reg n).toNat)
      generalize s.performWrite _ _ _ _ = x at hp ⊢
      cases x with
      | done u bs b => exact CellsOk.updThread (s := u) hp
      | waits u => exact hp
      | fault u d => exact (CellsOk.countFill (s := u) hp).updThread
  · exact h

@[simp] theorem CellsOk.landAtom {s : State} (h : CellsOk s) {o : PendingOp} {func : Nat} {a : Access} {x c : DWord}
    {helper : Bool} : CellsOk (s.landAtom o func a x c helper).state := by
  unfold State.landAtom
  dsimp only
  split
  · exact CellsOk.landed h.performRead
  · have hp := h.performAtomic (core := s.opCore o) (part := s.opPart o) (a := a)
      (f := fun bs => ((atomOp func (bytesToDWord bs) x c).1).map fun v => leBytes (atomSize func) v.toNat)
    generalize s.performAtomic (s.opCore o) (s.opPart o) a _ = y at hp ⊢
    cases y <;> exact hp

@[simp] theorem CellsOk.cacheAct {s : State} (h : CellsOk s) {core func : Nat} {a : Access} :
    CellsOk (s.cacheAct core func a) := by
  unfold State.cacheAct
  grind [CellsOk.l1WriteBack, CellsOk.l1Drop, CellsOk.l2Leave, CellsOk.congr]

theorem CellsOk.landStore {s : State} (hs : CellsOk s) {o : PendingOp} {r : Landed} (h : s.landStore o = some r) :
    CellsOk r.state := by
  unfold State.landStore at h
  dsimp only at h
  split at h
  · cases h; exact hs.performWrite.landed
  · cases h; exact hs.performAtomic.landed
  · cases h; exact hs.cacheAct
  · cases h

theorem CellsOk.settleStore {s : State} (hs : CellsOk s) {o : PendingOp} {r : Landed} (h : CellsOk r.state) :
    CellsOk (s.settleStore o r) := by
  cases r with
  | done t vals fp => exact CellsOk.retireFences (CellsOk.dropOp h)
  | waits t => exact h
  | fault t d =>
    refine CellsOk.ite (.ite hs hs.impreciseRecord) (.ite ?_ ?_)
    · exact CellsOk.retireFences (CellsOk.dropOp (CellsOk.impreciseRecord h))
    · exact CellsOk.retireFences (CellsOk.dropOp h)

theorem CellsOk.ackStore {s : State} (hs : CellsOk s) {o : PendingOp} {r : Landed} (h : CellsOk r.state) :
    CellsOk (s.ackStore o r) := by
  refine CellsOk.ite hs (.ite ?_ (hs.settleStore h))
  split
  · exact hs.showStore.retireFences
  · exact hs

theorem CellsOk.serviceStore {s : State} (h : CellsOk s) {x : ServiceStore} {ending : State → State}
    (he : CellsOk (ending s)) : CellsOk (s.serviceStore x ending) := by
  unfold State.serviceStore
  dsimp only
  split
  · exact he
  · split
    · exact he.engineWrite
    · exact h.holdPool
    · exact h.ite he

@[simp] theorem CellsOk.serviceResume {s : State} (h : CellsOk s) {x : ServiceStore} : CellsOk (s.serviceResume x) :=
  h.ite (h.serviceStore h)

@[simp] theorem CellsOk.landSpad {s : State} (h : CellsOk s) {wg func a : Nat} {x : Word} {helper : Bool} :
    CellsOk (s.landSpad wg func a x helper).1 := by
  unfold State.landSpad
  split
  · exact h
  · dsimp only
    split
    · exact h
    · exact h
    · exact h.ite h.setScratch
    · exact h.ite h.setScratch
    · exact h

@[simp] theorem CellsOk.prefetch {s : State} (h : CellsOk s) {core part : Nat} {va : DWord} {intoL1 : Bool} :
    CellsOk (s.prefetch core part va intoL1) := by
  unfold State.prefetch
  split
  · exact h
  · exact .ite h (.ite h (.ite h (.ite h.tlbInsert.l2Fill.l1Fill h.tlbInsert.l2Fill)))

/-! ## Quant -/

@[simp] theorem CellsOk.fillQuant {s : State} (h : CellsOk s) {w : WordRule} {acts : Thread → Bool} {vq : Nat}
    {srcs : List Nat} {g : Group} : CellsOk (fillQuant w acts vq srcs g s) :=
  .foldl (fun s r hs => by
    split
    · exact .ite (.foldl (fun s n hs => hs.fillReg) hs) hs
    · exact hs) h.fillSources

theorem CellsOk.quantEach {s : State} (h : CellsOk s) {g : Group} {r : TRef} {t : Thread} {vq : Nat}
    {f : Thread → Word → List Word → State → State} (hf : ∀ t x xs s, CellsOk s → CellsOk (f t x xs s)) :
    CellsOk (s.quantEach g r t vq f) := by
  unfold State.quantEach
  dsimp only
  split
  · exact h.raise
  · exact hf _ _ _ _ h

/-! ## Engine -/

@[simp] theorem CellsOk.addOpFor {s : State} (h : CellsOk s) {g : Group} {rs : List TRef} {fs : Option Bool}
    {kind : OpKind} {dst ndst : Nat} : CellsOk (s.addOpFor g rs fs kind dst ndst) := h.updThreads

@[simp] theorem CellsOk.raiseThese {s : State} (h : CellsOk s) {rs : List TRef} {d : FaultDetail} {site : Site} :
    CellsOk (s.raiseThese rs d site) :=
  .foldl (fun _ _ h => h.raise) h

theorem CellsOk.eachWarp {s : State} (h : CellsOk s) {g : Group} {acts : Thread → Bool}
    {f : Nat × Nat → List TRef → State → State} (hf : ∀ w rs s, CellsOk s → CellsOk (f w rs s)) :
    CellsOk (s.eachWarp g acts f) := .foldl (fun _ _ hs => hs.ite (hf _ _ _ hs)) h

@[simp] theorem CellsOk.liftTlwait {s : State} (h : CellsOk s) {core k : Nat} : CellsOk (s.liftTlwait core k) := by
  unfold State.liftTlwait
  dsimp only
  split
  · exact CellsOk.orderActions (h.mapWgs fun w hw => by split <;> exact hw)
  · exact h

@[simp] theorem CellsOk.retireOps {s : State} (h : CellsOk s) {core k : Nat} : CellsOk (s.retireOps core k) := by
  unfold State.retireOps
  split <;> exact h

@[simp] theorem CellsOk.completeNumber {s : State} (h : CellsOk s) {core k num : Nat} :
    CellsOk (s.completeNumber core k num) := h.updCore.retireOps.liftTlwait

@[simp] theorem CellsOk.commandActions {s : State} (h : CellsOk s) {core order scope : Nat} :
    CellsOk (s.commandActions core order scope) := h.orderActions

/-! ## Matrix -/

@[simp] theorem CellsOk.updGang {s : State} (h : CellsOk s) {wg key : Nat} {f : Gang → Gang} :
    CellsOk (s.updGang wg key f) :=
  h.editWg fun w => by unfold Workgroup.updGang; split <;> rfl

@[simp] theorem CellsOk.raiseMatrix {s : State} (h : CellsOk s) {r : TRef} {d : FaultDetail} {site : Site} :
    CellsOk (s.raiseMatrix r d site) := h.raise

@[simp] theorem CellsOk.raiseMatrixAll {s : State} (h : CellsOk s) {rs : List TRef} {d : FaultDetail} {site : Site} :
    CellsOk (s.raiseMatrixAll rs d site) :=
  .foldl (fun _ _ h => h.raiseMatrix) h

@[simp] theorem CellsOk.formGang {s : State} (h : CellsOk s) {wg warp : Nat} {x : BitVec 32} :
    CellsOk (s.formGang wg warp x) :=
  h.editWg

@[simp] theorem CellsOk.fillProducts {s : State} (h : CellsOk s) {g : Group} {func : Nat} {o : MmaArgs} :
    CellsOk (s.fillProducts g func o) := by
  unfold State.fillProducts
  grind [CellsOk.foldl, CellsOk.fillReg, CellsOk.congr]

@[simp] theorem CellsOk.parkAtRendezvous {s : State} (h : CellsOk s) {r : TRef} {t : Thread} {d : Late}
    {site : Site} : CellsOk (s.parkAtRendezvous r t d site) := h.updThread.editWg

@[simp] theorem CellsOk.sendProduct {s : State} (h : CellsOk s) {g : Group} {func : Nat} {o : MmaArgs} {r : TRef} :
    CellsOk (s.sendProduct g func o r) := by
  unfold State.sendProduct
  grind [CellsOk.parkAtRendezvous, CellsOk.raiseMatrix, CellsOk.updThread, CellsOk.updGang, CellsOk.congr]

@[simp] theorem CellsOk.failRendezvous {s : State} (h : CellsOk s) {wg : Nat} {as : List Arrival} :
    CellsOk (s.failRendezvous wg as) :=
  .foldl (fun _ _ hs => hs.settle) (CellsOk.wakeGroups
    (.foldl (fun _ _ hs => hs.updThread.raiseMatrix) (h.editWg (f := fun w => w.dropArrivals (as.map (·.who))))))

@[simp] theorem CellsOk.acceptProduct {s : State} (h : CellsOk s) {wg : Nat} {x : Gang} {as : List Arrival}
    {a : Arrival} : CellsOk (s.acceptProduct wg x as a) := by
  have ht : CellsOk (as.foldl (fun s a => if a.guard then s.updThread a.who fun t => t.addFlag a.flag else s) s) :=
    .foldl (fun _ _ hs => .ite hs.updThread hs) h
  unfold State.acceptProduct State.wakeGroups State.updCore
  simp only [CellsOk]
  exact CellsOk.updGang ht.editWg

@[simp] theorem CellsOk.bEntries {s : State} (h : CellsOk s) {who : List Nat} {core part : Nat} {l : Leaf}
    {va : Nat} {hs : List Nat} {acc : List (BitVec 16)} : CellsOk (s.bEntries who core part l va hs acc).1.state := by
  induction hs generalizing s acc with
  | nil => exact h
  | cons k ks ih =>
    have hr := h.engineRead (who := who) (core := core) (part := part)
      (va := (entryAddress l (va + k * blockBytes l.format)).toNat) (n := 2) (fmt := (· == 0))
    unfold State.bEntries
    dsimp only
    generalize s.engineRead who core part _ _ _ = x at hr ⊢
    cases metaFault l va with
    | some d => exact h
    | none => cases x with
      | done t bs b =>
        dsimp only
        split
        · exact ih hr
        · exact hr
      | waits t => exact hr
      | fault t d => exact hr

@[simp] theorem CellsOk.memColumn {s : State} (h : CellsOk s) {core part : Nat} {op : MatOp} {step n : Nat} :
    CellsOk (s.memColumn core part op step n).state := by
  unfold State.memColumn
  dsimp only
  split
  · exact h
  · next l _ =>
    have he := h.bEntries (who := engineAgent 3 core op.id) (core := core) (part := part) (l := l)
      (va := (op.bAddr + BitVec.ofNat 64 (n * ctlPitch op.control + step * bBytes (ctlBfmt op.control))).toNat)
      (hs := List.range (bBlocks (ctlBfmt op.control))) (acc := [])
    generalize s.bEntries _ core part l _ _ [] = x at he ⊢
    obtain ⟨x, es⟩ := x
    cases x with
    | done t bs b =>
      have hd := CellsOk.engineRead (s := t) he (who := engineAgent 3 core op.id) (core := core) (part := part)
        (va := (op.bAddr + BitVec.ofNat 64 (n * ctlPitch op.control + step * bBytes (ctlBfmt op.control))).toNat)
        (n := bBytes (ctlBfmt op.control)) (fmt := (· == bPage (ctlBfmt op.control)))
      dsimp only
      generalize t.engineRead _ core part _ _ _ = y at hd ⊢
      cases y <;> exact hd
    | waits t => exact he
    | fault t d => exact he

@[simp] theorem CellsOk.fetchColumns {s : State} (h : CellsOk s) {core part : Nat} {op : MatOp} {step : Nat}
    {ns : List Nat} {acc : List (List FVal)} : CellsOk (s.fetchColumns core part op step ns acc).state := by
  induction ns generalizing s acc with
  | nil => exact h
  | cons n ns ih =>
    unfold State.fetchColumns
    split
    · split
      · exact h
      · exact ih h
    · have hm := h.memColumn (core := core) (part := part) (op := op) (step := step) (n := n)
      generalize s.memColumn core part op step n = x at hm ⊢
      cases x with
      | cols t cs => exact ih hm
      | waits t => exact hm
      | fault t d => exact hm

@[simp] theorem CellsOk.fetchStep {s : State} (h : CellsOk s) {core : Nat} {op : MatOp} {step : Nat} :
    CellsOk ((s.fetchStep core op step).state) := h.fetchColumns

@[simp] theorem CellsOk.updMatOp {s : State} (h : CellsOk s) {core id : Nat} {f : MatOp → MatOp} :
    CellsOk (s.updMatOp core id f) := h

@[simp] theorem CellsOk.postGang {s : State} (h : CellsOk s) {wg key : Nat} : CellsOk (s.postGang wg key) := by
  unfold State.postGang
  grind [CellsOk.foldl, CellsOk.postRecord, CellsOk.updThreads, CellsOk.updGang, CellsOk.congr]

@[simp] theorem CellsOk.interrupt {s : State} (h : CellsOk s) {core : Nat} {op : MatOp} {step : Nat}
    {d : FaultDetail} : CellsOk (s.interrupt core op step d) := by
  unfold State.interrupt
  dsimp only
  refine CellsOk.wakeGroups (CellsOk.postGang (CellsOk.applyLate (.foldl (fun _ _ hs => hs.settle) ?_)))
  refine .foldl (fun _ _ hs => hs.ite hs.updThread) (.foldl (fun _ _ hs => ?_) ?_)
  · split
    · exact hs.updThread.updGang
    · exact hs
  · exact CellsOk.updWg (CellsOk.updGang (CellsOk.updGang h.updCore)) fun _ hw => hw

@[simp] theorem CellsOk.abandonGang {s : State} (h : CellsOk s) {wg key : Nat} : CellsOk (s.abandonGang wg key) := by
  unfold State.abandonGang
  grind [CellsOk.foldl, CellsOk.updThread, CellsOk.updGang, CellsOk.congr]

@[simp] theorem CellsOk.issuerResumed {s : State} (h : CellsOk s) {r : TRef} {inh : Bool} :
    CellsOk (s.issuerResumed r inh) := by
  unfold State.issuerResumed
  grind [CellsOk.foldl, CellsOk.updThread, CellsOk.updGang, CellsOk.congr]

@[simp] theorem CellsOk.issuerLeft {s : State} (h : CellsOk s) {r : TRef} {inh : Bool} :
    CellsOk (s.issuerLeft r inh) := by
  unfold State.issuerLeft
  grind [CellsOk.foldl, CellsOk.abandonGang, CellsOk.congr]

/-! ## Tile -/

theorem scratch_loadRow (w : Workgroup) (tile row : Nat) (c : List DWord) (bs : List Byte) :
    (w.loadRow tile row c bs).scratch = w.scratch :=
  List.foldlRecOn (motive := fun v : Workgroup => v.scratch = w.scratch) _ _ rfl fun _ hv _ _ => hv

theorem CellsOk.tileRows {s u : State} (hs : CellsOk s) (h : CellsOk u) {who : List Nat} {wg tile : Nat}
    {store : Bool} {c : List DWord} {rows : List Nat} : CellsOk ((u.tileRows who wg tile store c rows).state s) := by
  induction rows generalizing u with
  | nil => exact h
  | cons a rows ih =>
    unfold State.tileRows
    dsimp only
    split
    · exact h
    · exact hs
    · split
      · exact ih h.engineWrite
      · have hr := h.engineRead (who := who) (core := u.coreOf wg) (part := u.partOf wg)
          (va := (tcAddr c + BitVec.ofNat 64 (a * tcPitch c)).toNat) (n := tcCols c * tcSize c) (fmt := (· == 0))
        generalize u.engineRead who _ _ _ _ _ = x at hr ⊢
        cases x with
        | done t bs b => exact ih (CellsOk.editWg (s := t) hr fun w => scratch_loadRow w ..)
        | waits t => exact h
        | fault t d => exact hr

@[simp] theorem CellsOk.tileMemory {s : State} (h : CellsOk s) {o : PendingOp} {wg func tile : Nat} {c : List DWord} :
    CellsOk (s.tileMemory o wg func tile c) := by
  have hc := h.commandActions (core := s.coreOf wg) (order := tcOrder c) (scope := tcScope c)
  unfold State.tileMemory
  dsimp only
  generalize s.commandActions _ _ _ = u at hc ⊢
  have ht := CellsOk.tileRows hc hc (who := engineAgent 7 (u.coreOf wg) o.id) (wg := wg) (tile := tile) (store := func == 6)
    (c := c) (rows := List.range (tcRows c))
  generalize u.tileRows _ wg tile _ c _ = x at ht ⊢
  cases x with
  | done t => exact CellsOk.finishOp ht
  | waits pa => exact CellsOk.holdPool ht
  | fault t d => exact CellsOk.failOp ht

@[simp] theorem CellsOk.ownersOnly {s : State} (h : CellsOk s) {g : Group} {acts : Thread → Bool} :
    CellsOk (s.ownersOnly g acts) := h.eachActing fun _ _ _ _ hs => hs.ite hs.raiseMatrix

/-! ## Rings -/

@[simp] theorem CellsOk.serveNone {s : State} (h : CellsOk s) {wg q : Nat} : CellsOk (s.serveNone wg q) :=
  .foldl (fun _ _ h => h.finishOp) h

@[simp] theorem CellsOk.defineRing {s : State} (h : CellsOk s) {g : Group} {w : Workgroup} {rs : List TRef}
    {q : Nat} {d : DWord} : CellsOk (s.defineRing g w rs q d) := by
  unfold State.defineRing
  split
  · exact h.raiseThese
  · split
    · exact h.raiseThese
    · exact CellsOk.updWg h.serveNone fun _ hw => hw

@[simp] theorem CellsOk.releaseSlot {s : State} (h : CellsOk s) {g : Group} {w : Workgroup} {warp q : Nat}
    {rs : List TRef} {v : Word} : CellsOk (s.releaseSlot g w warp q rs v) := by
  unfold State.releaseSlot
  split
  · exact h.raiseThese
  · next x _ =>
    have hx : CellsOk (s.updWg w.id fun w => w.setRing q (some x)) := h.editWg
    dsimp only
    split
    · split
      · exact hx
      · exact hx
    · exact hx

/-! ## Copy -/

theorem scratch_updRing (w : Workgroup) (q : Nat) (f : Ring → Ring) : (w.updRing q f).scratch = w.scratch := by
  unfold Workgroup.updRing
  split <;> rfl

@[simp] theorem CellsOk.enqueueCopy {s : State} (h : CellsOk s) {g : Group} {w : Workgroup} {warp kind ws : Nat}
    {c : List DWord} : CellsOk (s.enqueueCopy g w warp kind ws c) := by
  unfold State.enqueueCopy
  dsimp only
  generalize (if kind == 0 || kind == 2 then w.ring? (cpRing c) else none) = ring
  refine CellsOk.editWg (s := s.takeNumber w.core 0) h fun v => ?_
  have hr : (if ring.isSome then v.updRing (cpRing c) (·.claimSlot) else v).scratch = v.scratch := by
    split
    · exact scratch_updRing v ..
    · rfl
  split <;> exact hr

@[simp] theorem CellsOk.issueCopy {s : State} (h : CellsOk s) {g : Group} {w : Workgroup} {warp kind pd ws : Nat}
    {rs : List TRef} {c : List DWord} : CellsOk (s.issueCopy g w warp kind pd ws rs c) := by
  unfold State.issueCopy
  grind [CellsOk.updThreads, CellsOk.raiseThese, CellsOk.enqueueCopy, CellsOk.congr]

@[simp] theorem CellsOk.fillSlot {s : State} (h : CellsOk s) {op : CopyOp} {bs : List Byte} :
    CellsOk (s.fillSlot op bs).1 := by
  unfold State.fillSlot
  dsimp only
  split
  · exact h
  · split
    · split
      · exact h.setScratch
      · exact h
    · exact h

theorem CellsOk.ofRead {op : CopyOp} {p : Performed} {f : State → List Byte → CopyRun} (h : CellsOk p.state)
    (hf : ∀ s bs, CellsOk s → CellsOk (f s bs).state) : CellsOk (CopyRun.ofRead op p f).state := by
  cases p with
  | done s bs b => exact hf s bs h
  | waits s => exact h
  | fault s d => exact h

@[simp] theorem CellsOk.readBlockEntry {s : State} (h : CellsOk s) {op : CopyOp} {l : Leaf} {va : Nat} :
    CellsOk (s.readBlockEntry op l va).state := by
  unfold State.readBlockEntry
  split
  · exact h
  · exact h.engineRead

@[simp] theorem CellsOk.quantBlock {s : State} (h : CellsOk s) {op : CopyOp} {col : Bool} {line k : Nat} :
    CellsOk (s.quantBlock op col line k).state := by
  unfold State.quantBlock
  dsimp only
  split
  · exact h
  · exact h.holdPool
  · split
    · exact h
    · split
      · exact h
      · exact h
      · exact h.holdPool
      · exact h.engineWrite.engineWrite

@[simp] theorem CellsOk.copyUnit {s : State} (h : CellsOk s) {op : CopyOp} {fmt : Nat} {u : CopyUnit} :
    CellsOk (s.copyUnit op fmt u).state := by
  unfold State.copyUnit
  cases u with
  | raw va n =>
    dsimp only
    split
    · exact h
    · exact .ofRead h.engineRead fun t bs ht => ht.fillSlot
  | decoded va =>
    dsimp only
    split
    · exact h
    · refine .ofRead h.readBlockEntry fun t es ht => ?_
      split
      · exact ht
      · exact .ofRead ht.engineRead fun u bs hu => hu.fillSlot
  | entry va =>
    dsimp only
    split
    · exact h
    · exact .ofRead h.readBlockEntry fun t es ht => ht.fillSlot
  | out off va n =>
    dsimp only
    split
    · exact h
    · exact h.holdPool
    · exact h.engineWrite
  | block col line k => exact h.quantBlock

@[simp] theorem CellsOk.runUnits {s : State} (h : CellsOk s) {fmt : Nat} {us : List CopyUnit} {op : CopyOp} :
    CellsOk (State.runUnits fmt us s op).state := by
  induction us generalizing s op with
  | nil => exact h
  | cons u us ih =>
    have hu := h.copyUnit (op := op) (fmt := fmt) (u := u)
    unfold State.runUnits
    generalize s.copyUnit op fmt u = x at hu ⊢
    cases x with
    | done t op' => exact ih hu
    | waits t op' => exact hu
    | fault t op' d => exact hu

@[simp] theorem CellsOk.runCopy {s : State} (h : CellsOk s) {op : CopyOp} {n : Nat} :
    CellsOk (s.runCopy op n).state := by
  unfold State.runCopy
  split
  · exact h
  · exact h.runUnits

@[simp] theorem CellsOk.setCopy {s : State} (h : CellsOk s) {op : CopyOp} : CellsOk (s.setCopy op) := h

@[simp] theorem CellsOk.noteCopy {s : State} (h : CellsOk s) {op : CopyOp} : CellsOk (s.noteCopy op) := h

@[simp] theorem CellsOk.markSlot {s : State} (h : CellsOk s) {wg : Nat} {op : CopyOp} :
    CellsOk (s.markSlot wg op).1 := by
  unfold State.markSlot
  split
  · split
    · exact h.editWg fun w => scratch_updRing w ..
    · exact h
  · exact h

@[simp] theorem CellsOk.endCopy {s : State} (h : CellsOk s) {op : CopyOp} : CellsOk (s.endCopy op) := by
  have hm : CellsOk (if op.kind == 0 then s.markSlot op.wg op else (s, op)).1 := by
    split
    · exact h.markSlot
    · exact h
  exact hm.noteCopy.completeNumber

@[simp] theorem CellsOk.stopCopy {s : State} (h : CellsOk s) {op : CopyOp} : CellsOk (s.stopCopy op) := by
  unfold State.stopCopy
  grind [CellsOk.setCopy, CellsOk.endCopy, CellsOk.congr]

@[simp] theorem CellsOk.deliverTo {s : State} (h : CellsOk s) {op : CopyOp} {member : Nat} :
    CellsOk (s.deliverTo op member) := by
  unfold State.deliverTo
  dsimp only
  split
  · exact h.noteCopy
  · split
    · exact h.noteCopy
    · split
      · exact h.noteCopy
      · refine CellsOk.noteCopy (h.updWg fun v hv => ?_)
        rw [scratch_updRing]
        split
        · exact wf_setBytes hv _ _
        · exact hv

/-! ## Refresh -/

@[simp] theorem CellsOk.setRefresh {s : State} (h : CellsOk s) {x : Refresh} : CellsOk (s.setRefresh x) := h

/-! ## Row -/

@[simp] theorem CellsOk.enqueueRow {s : State} (h : CellsOk s) {g : Group} {w : Workgroup} {warp func ws : Nat}
    {c : List DWord} {wc : DWord} : CellsOk (s.enqueueRow g w warp func ws c wc) := by
  unfold State.enqueueRow
  dsimp only
  have hu := CellsOk.editWg (s := s.takeNumber w.core 1) h (id := w.id)
    (f := fun v => if ws = 0 then { v with marks := v.marks.set 1 (s.nextNumber w.core 1) }
      else ({ v with marks := v.marks.set 1 (s.nextNumber w.core 1) } : Workgroup).updWarp warp fun x =>
        x.setReg ws (BitVec.ofNat 64 (s.nextNumber w.core 1))) fun v => by split <;> rfl
  exact hu

@[simp] theorem CellsOk.setRow {s : State} (h : CellsOk s) {x : RowOp} : CellsOk (s.setRow x) := h

@[simp] theorem CellsOk.endRow {s : State} (h : CellsOk s) {x : RowOp} : CellsOk (s.endRow x) := h.setRow.completeNumber

@[simp] theorem CellsOk.holdRow {s : State} (h : CellsOk s) {x : RowOp} {d : FaultDetail} : CellsOk (s.holdRow x d) :=
  h.setRow.reportRecord

@[simp] theorem CellsOk.faultRow {s : State} (h : CellsOk s) {x : RowOp} {d : FaultDetail} :
    CellsOk (s.faultRow x d) := by
  unfold State.faultRow
  grind [CellsOk.holdRow, CellsOk.endRow, CellsOk.congr]

@[simp] theorem CellsOk.planRow {s : State} (h : CellsOk s) {x : RowOp} {isDst : Bool} {va : DWord} :
    CellsOk ((s.planRow x isDst va).state s) := by
  unfold State.planRow
  dsimp only
  split
  · exact h
  · repeat' first | exact h | exact h.holdPool | split

@[simp] theorem CellsOk.planRows {s : State} (h : CellsOk s) {x : RowOp} {isDst : Bool} {vas : List DWord} :
    CellsOk ((s.planRows x isDst vas).state s) := by
  induction vas with
  | nil => exact h
  | cons va vas ih =>
    have hr := h.planRow (x := x) (isDst := isDst) (va := va)
    unfold State.planRows
    generalize s.planRow x isDst va = p at hr ⊢
    generalize s.planRows x isDst vas = ps at ih ⊢
    cases p with
    | ok r =>
      cases ps with
      | ok rs => exact h
      | waits t => exact ih
      | fault d => exact h
    | waits t => exact hr
    | fault d => exact h

@[simp] theorem CellsOk.planOperands {s : State} (h : CellsOk s) {x : RowOp} {isDst : Bool} {os : List (List DWord)} :
    CellsOk ((s.planOperands x isDst os).state s) := by
  induction os generalizing isDst with
  | nil => exact h
  | cons o os ih =>
    have hr := h.planRows (x := x) (isDst := isDst) (vas := o)
    have ih := ih (isDst := false)
    unfold State.planOperands
    generalize s.planRows x isDst o = p at hr ⊢
    generalize s.planOperands x false os = ps at ih ⊢
    cases p with
    | ok rs =>
      dsimp only
      generalize (x.func != 6 && _) = unlike
      cases unlike with
      | false =>
        cases ps with
        | ok rss => exact h
        | waits t => exact ih
        | fault d => exact h
      | true => exact h
    | waits t => exact hr
    | fault d => exact h

@[simp] theorem CellsOk.planCoeffs {s : State} (h : CellsOk s) {x : RowOp} : CellsOk (s.planCoeffs x).state := by
  unfold State.planCoeffs
  split
  · exact h.engineRead
  · exact h

@[simp] theorem CellsOk.invalidateRows {s : State} (h : CellsOk s) {pas : List Nat} {ls : List Leaf} :
    CellsOk (s.invalidateRows pas ls) := by
  unfold State.invalidateRows
  grind [CellsOk.foldl, CellsOk.l2Drop, CellsOk.invalidateOthers, CellsOk.triggerWatches, CellsOk.congr]

@[simp] theorem CellsOk.readRow {s : State} (h : CellsOk s) {pa : Nat} {l : Leaf} :
    CellsOk (Proofs.carried (s.readRow pa l)) := by
  unfold State.readRow
  dsimp only
  split
  · exact h
  · split
    · exact CellsOk.congr h.countAccess.correctUnits rfl rfl
    · exact CellsOk.congr h.countAccess.correctUnits rfl rfl

theorem CellsOk.writeRow {s t : State} (hs : CellsOk s) {pa : Nat} {l : Leaf} {fold : BitVec 16} {bs : List Byte}
    (h : s.writeRow pa l fold bs = some t) : CellsOk t := by
  unfold State.writeRow at h
  split at h
  · cases h
  · cases h
    exact .foldl (fun _ _ hs => hs.stampUnit) hs.tierWrite.countAccess

@[simp] theorem CellsOk.rowStep {s : State} (h : CellsOk s) {x : RowOp} {st : RowStep} :
    CellsOk (Proofs.carried (s.rowStep x st)) := by
  unfold State.rowStep
  cases st with
  | row r =>
    have ha := h.readRow (pa := (x.rows.getD 1 []).getD (if x.func = 1 then 0 else r) 0)
      (l := x.leafOf 1 (if x.func = 1 then 0 else r))
    dsimp only
    generalize s.readRow _ _ = a at ha ⊢
    obtain ⟨t, c⟩ | ⟨t, as⟩ := a
    · exact ha
    · have hb : CellsOk (Proofs.carried (if usesB x.func = true then t.readRow ((x.rows.getD 2 []).getD r 0) (x.leafOf 2 r)
          else .ok (t, []))) := by
        split
        · exact CellsOk.readRow ha
        · exact ha
      dsimp only
      generalize (if usesB x.func = true then _ else _) = b at hb ⊢
      obtain ⟨u, c⟩ | ⟨u, bs⟩ := b
      · exact hb
      · have hc : CellsOk (Proofs.carried (if x.func = 5 then u.readRow ((x.rows.getD 3 []).getD r 0) (x.leafOf 3 r)
            else .ok (u, []))) := by
          split
          · exact CellsOk.readRow hb
          · exact hb
        dsimp only
        generalize (if x.func = 5 then _ else _) = c at hc ⊢
        obtain ⟨v, c⟩ | ⟨v, cs⟩ := c
        · exact hc
        · dsimp only
          split
          · exact hc
          · next hw => exact CellsOk.writeRow (s := v) hc hw
  | dstRead =>
    have hr := h.readRow (pa := (x.rows.getD 0 []).getD 0 0) (l := x.leafOf 0 0)
    dsimp only
    generalize s.readRow _ _ = a at hr ⊢
    obtain ⟨t, c⟩ | ⟨t, bs⟩ := a <;> exact hr
  | source i half =>
    have hr := h.readRow (pa := (x.rows.getD 1 []).getD i 0) (l := x.leafOf 1 i)
    dsimp only
    generalize s.readRow _ _ = a at hr ⊢
    obtain ⟨t, c⟩ | ⟨t, bs⟩ := a <;> exact hr
  | dstWrite =>
    dsimp only
    split
    · exact h
    · next hw => exact h.writeRow hw

@[simp] theorem CellsOk.rekeyFrame {s : State} (h : CellsOk s) {l : Leaf} {fold : BitVec 16} :
    CellsOk (s.rekeyFrame l fold) := h.updFrame

@[simp] theorem CellsOk.writePteKeys {s : State} (h : CellsOk s) {pte : Nat} {fold gen : BitVec 16} :
    CellsOk (s.writePteKeys pte fold gen) :=
  .foldl (fun _ _ h => h.l2Patch) h

@[simp] theorem CellsOk.dropTranslations {s : State} (h : CellsOk s) {part lo len : Nat} :
    CellsOk (s.dropTranslations part lo len) := h

@[simp] theorem CellsOk.triggerRange {s : State} (h : CellsOk s) {pa len : Nat} : CellsOk (s.triggerRange pa len) :=
  h.triggerWhere

@[simp] theorem CellsOk.adoptKeys {s : State} (h : CellsOk s) {x : RowOp} : CellsOk (s.adoptKeys x) := by
  unfold State.adoptKeys
  grind [CellsOk.foldl, CellsOk.rekeyFrame, CellsOk.writePteKeys, CellsOk.dropTranslations, CellsOk.triggerRange,
    CellsOk.congr]

@[simp] theorem CellsOk.finishRow {s : State} (h : CellsOk s) {x : RowOp} : CellsOk (s.finishRow x) :=
  h.adoptKeys.invalidateRows.endRow

@[simp] theorem CellsOk.failRow {s : State} (h : CellsOk s) {x : RowOp} {code : BitVec 8} :
    CellsOk (s.failRow x code) := by
  unfold State.failRow
  grind [CellsOk.invalidateRows, CellsOk.endRow, CellsOk.congr]

@[simp] theorem CellsOk.stepPool {s : State} (h : CellsOk s) {x : RowOp} {st : RowStep} :
    CellsOk ((s.stepPool x st).state s) := by
  unfold State.stepPool
  dsimp only
  generalize x.rowsOf st = rows
  split
  · exact h
  · split
    · exact h.holdPool
    · split
      · exact h
      · exact h

@[simp] theorem CellsOk.doRowStep {s : State} (h : CellsOk s) {x : RowOp} {st : RowStep} :
    CellsOk (s.doRowStep x st) := by
  have hr := h.rowStep (x := x) (st := st)
  unfold State.doRowStep
  generalize s.rowStep x st = y at hr ⊢
  obtain ⟨t, c⟩ | ⟨t, x'⟩ := y
  · exact CellsOk.failRow hr
  · exact .ite (CellsOk.finishRow hr) hr

/-! ## Sync -/

@[simp] theorem CellsOk.evictWatch {s : State} (h : CellsOk s) {core : Nat} {r : TRef} :
    CellsOk (s.evictWatch core r) := by
  unfold State.evictWatch
  grind [CellsOk.updThread, CellsOk.congr]

@[simp] theorem CellsOk.armWatch {s : State} (h : CellsOk s) {core : Nat} {a : Access} {r : TRef} :
    CellsOk (s.armWatch core a r) := h.evictWatch.updThread

@[simp] theorem CellsOk.waitv {s : State} (h : CellsOk s) {g : Group} {r : TRef} {t : Thread} {o : WaitvArgs} :
    CellsOk (s.waitv g r t o) := by
  unfold State.waitv
  grind [CellsOk.raise, CellsOk.updThread, CellsOk.congr]

@[simp] theorem CellsOk.evaluate {s : State} (h : CellsOk s) {r : TRef} {core part : Nat} {cs : List Cond}
    {met : Nat} : CellsOk ((s.evaluate r core part cs met).state) := by
  induction cs generalizing s met with
  | nil => exact h
  | cons c cs ih =>
    unfold State.evaluate
    split
    · exact h
    · next l _ =>
      have hp := (h.tlbInsert (core := core) (part := part) (l := l)).performRead (core := core) (part := part)
        (a := mkAccess (BitVec.ofNat 64 c.addr) 4 l 0 2)
      generalize State.performRead _ core part _ = x at hp ⊢
      cases x with
      | done u bs b => exact ih (s := u) hp
      | waits u =>
        dsimp only
        split
        · exact hp
        · exact CellsOk.holdPool (s := u) hp
      | fault u d => exact hp

@[simp] theorem CellsOk.settleWaitv {s : State} (h : CellsOk s) {r : TRef} {cs : List Cond} {all : Bool}
    {vt met : Nat} : CellsOk (s.settleWaitv r cs all vt met) := h.updThread

@[simp] theorem CellsOk.tlwait {s : State} (h : CellsOk s) {r : TRef} {tl : Nat} {n : DWord} :
    CellsOk (s.tlwait r tl n) := by
  unfold State.tlwait
  grind [CellsOk.orderActions, CellsOk.updThread, CellsOk.congr]

/-! ## Tier -/

@[simp] theorem CellsOk.enqueueTier {s : State} (h : CellsOk s) {g : Group} {w : Workgroup} {warp func ws : Nat}
    {addr x : DWord} : CellsOk (s.enqueueTier g w warp func ws addr x) := by
  unfold State.enqueueTier
  dsimp only
  refine CellsOk.updWg (s := s.takeNumber w.core 2) h fun v hv => ?_
  split <;> exact hv

@[simp] theorem CellsOk.flushRange {s : State} (h : CellsOk s) {pa len : Nat} : CellsOk (s.flushRange pa len) :=
  .foldl (fun _ _ hs => hs.l2Leave) (.foldl (fun _ _ hs => .foldl (fun _ _ hs => hs.l1WriteBack.l1Drop) hs) h)

@[simp] theorem CellsOk.giveUp {s : State} (h : CellsOk s) {pa : Nat} : CellsOk (s.giveUp pa) :=
  h.flushRange.triggerRange.setGranule

@[simp] theorem CellsOk.countPath {s : State} (h : CellsOk s) {part func : Nat} {host : Bool} :
    CellsOk (s.countPath part func host) := h

@[simp] theorem CellsOk.poolBrings {s : State} (h : CellsOk s) {a : Nat} {x : PoolNews} :
    CellsOk (s.poolBrings a x) := by
  unfold State.poolBrings
  dsimp only
  generalize List.map _ (List.range 4096) = bs
  exact ⟨wf_setBytes h.1 _ bs, h.2⟩

@[simp] theorem CellsOk.poolArrives {s : State} (h : CellsOk s) {pa : Nat} : CellsOk (s.poolArrives pa) := by
  unfold State.poolArrives
  dsimp only
  refine .ite h.setGranule ?_
  split
  · exact h.setGranule.poolBrings
  · exact h.setGranule

@[simp] theorem CellsOk.acquire {s : State} (h : CellsOk s) {who : List Nat} {part : Nat} {l : Leaf}
    {bases : List Nat} : CellsOk ((s.acquire who part l bases).state s) := by
  induction bases with
  | nil => exact h
  | cons base rest ih =>
    unfold State.acquire
    split
    · exact ih
    · dsimp only
      split
      · exact h.holdPool
      · exact h

@[simp] theorem CellsOk.acquirePage {s : State} (h : CellsOk s) {x : TierOp} {l : Leaf} :
    CellsOk ((s.acquirePage x l).state s) := h.acquire

@[simp] theorem CellsOk.mapPool {s : State} (h : CellsOk s) {pa size : Nat} {old new : PoolState} :
    CellsOk (s.mapPool pa size old new) := h

@[simp] theorem CellsOk.serveDeferred {s : State} (h : CellsOk s) {pa size : Nat} : CellsOk (s.serveDeferred pa size) :=
  .foldl (fun _ _ h => h.giveUp) h

@[simp] theorem CellsOk.unpinned {s : State} (h : CellsOk s) {pa size : Nat} : CellsOk (s.unpinned pa size) :=
  h.mapPool.serveDeferred

@[simp] theorem CellsOk.updPteByte {s : State} (h : CellsOk s) {pte : Nat} {f : Byte → Byte} :
    CellsOk (s.updPteByte pte f) :=
  .foldl (fun _ _ h => h.l2Patch) h

@[simp] theorem CellsOk.setPinBits {s : State} (h : CellsOk s) {part : Nat} {l : Leaf} {b : Bool} :
    CellsOk (s.setPinBits part l b) :=
  .foldl (fun _ _ h => h.updPteByte) h

@[simp] theorem CellsOk.setAffinity {s : State} (h : CellsOk s) {part : Nat} {l : Leaf} {arg : BitVec 4} :
    CellsOk (s.setAffinity part l arg) := h.updPteByte.updFrame

@[simp] theorem CellsOk.updTier {s : State} (h : CellsOk s) {core num : Nat} {f : TierOp → TierOp} :
    CellsOk (s.updTier core num f) := h

@[simp] theorem CellsOk.setTier {s : State} (h : CellsOk s) {x : TierOp} : CellsOk (s.setTier x) := h

@[simp] theorem CellsOk.startMove {s : State} (h : CellsOk s) {part : Nat} {l : Leaf} {target : Nat}
    {op : Option (Nat × Nat)} : CellsOk (s.startMove part l target op) := h.updFrame

@[simp] theorem CellsOk.updMove {s : State} (h : CellsOk s) {id : Nat} {f : Move → Move} : CellsOk (s.updMove id f) := h

@[simp] theorem CellsOk.faultTier {s : State} (h : CellsOk s) {x : TierOp} {d : FaultDetail} :
    CellsOk (s.faultTier x d) := by
  unfold State.faultTier
  grind [CellsOk.setTier, CellsOk.reportRecord, CellsOk.congr]

@[simp] theorem CellsOk.copyFrame {s : State} (h : CellsOk s) {src dst size : Nat} :
    CellsOk (s.copyFrame src dst size) :=
  ⟨wf_foldl_set (wf_clear h.1 _ _) _ _ _, h.2⟩

@[simp] theorem CellsOk.drainMove {s : State} (h : CellsOk s) {m : Move} : CellsOk (s.drainMove m) := by
  have hw : CellsOk (m.held.foldl (fun s b => { s with mem := Memory.set s.mem b.1 b.2 }) s) :=
    CellsOk.foldl (f := fun (s : State) (b : Nat × Byte) => { s with mem := Memory.set s.mem b.1 b.2 })
      (fun _ _ hs => ⟨wf_set hs.1 _ _, hs.2⟩) h
  exact CellsOk.triggerRange (CellsOk.flushRange (s := State.updMove _ m.id _) hw)

@[simp] theorem CellsOk.restampLines {s : State} (h : CellsOk s) {m : Move} {gen : BitVec 16} :
    CellsOk (s.restampLines m gen) := h

@[simp] theorem CellsOk.triggerMove {s : State} (h : CellsOk s) {m : Move} : CellsOk (s.triggerMove m) := by
  unfold State.triggerMove
  grind [CellsOk.triggerRange, CellsOk.congr]

@[simp] theorem CellsOk.spaceFrees {s : State} (h : CellsOk s) {part : Nat} : CellsOk (s.spaceFrees part) := h

@[simp] theorem CellsOk.remapOne {s : State} (h : CellsOk s) {pte target : Nat} {gen : BitVec 16} :
    CellsOk (s.remapOne pte target gen) := by
  unfold State.remapOne
  grind [CellsOk.l2Patch, CellsOk.congr]

@[simp] theorem CellsOk.remapPage {s : State} (h : CellsOk s) {m : Move} {gen : BitVec 16} :
    CellsOk (s.remapPage m gen) :=
  .foldl (fun _ _ h => h.remapOne) h

@[simp] theorem CellsOk.dropFrame {s : State} (h : CellsOk s) {part base size : Nat} :
    CellsOk (s.dropFrame part base size) := h

@[simp] theorem CellsOk.cancelMoves {s : State} (h : CellsOk s) {x : TierOp} : CellsOk (s.cancelMoves x) :=
  .foldl (fun _ _ h => h.mapFrame) h

@[simp] theorem CellsOk.openWindow {s : State} (h : CellsOk s) {part addr len : Nat} :
    CellsOk (s.openWindow part addr len) := h

@[simp] theorem CellsOk.closeWindow {s : State} (h : CellsOk s) {part addr : Nat} : CellsOk (s.closeWindow part addr) :=
  h

@[simp] theorem CellsOk.pinPage {s : State} (h : CellsOk s) {x : TierOp} {l : Leaf} : CellsOk (s.pinPage x l) := by
  have ha := h.acquirePage (x := x) (l := l)
  unfold State.pinPage
  generalize s.acquirePage x l = r at ha ⊢
  refine .ite h ?_
  cases r with
  | waits t => exact ha
  | fault d => exact h.faultTier
  | held => exact .ite h.setTier (CellsOk.setTier (.ite h.updFrame.setPinBits.mapPool h.updFrame))

@[simp] theorem CellsOk.unpinPage {s : State} (h : CellsOk s) {x : TierOp} {l : Leaf} : CellsOk (s.unpinPage x l) :=
  .ite h.setTier (CellsOk.setTier (.ite h.updFrame.setPinBits.unpinned h.updFrame))

@[simp] theorem CellsOk.migratePage {s : State} (h : CellsOk s) {x : TierOp} {l : Leaf} {target : Nat} :
    CellsOk (s.migratePage x l target) := by
  have ha := h.acquirePage (x := x) (l := l)
  unfold State.migratePage
  generalize s.acquirePage x l = r at ha ⊢
  refine .ite h (.ite h.setTier (.ite h.setTier (.ite h.setTier (.ite h.setTier (.ite (.ite h h.setTier)
    (.ite h.setTier (.ite h.setTier ?_)))))))
  cases r with
  | waits t => exact ha
  | fault d => exact h.faultTier
  | held =>
    dsimp only
    split
    · exact h
    · exact h.startMove.setTier.countPath

@[simp] theorem CellsOk.tierPage {s : State} (h : CellsOk s) {x : TierOp} : CellsOk (s.tierPage x) := by
  unfold State.tierPage
  grind [CellsOk.faultTier, CellsOk.noteFrame, CellsOk.pinPage, CellsOk.unpinPage, CellsOk.setAffinity,
    CellsOk.setTier, CellsOk.migratePage, CellsOk.congr]

@[simp] theorem CellsOk.ownMove {s : State} (h : CellsOk s) {part : Nat} {l : Leaf} {tier : Nat} :
    CellsOk ((s.ownMove part l tier).state s) := by
  have ha := h.acquire (who := engineAgent 9 part l.vbase) (part := part) (l := l) (bases := [l.pa])
  unfold State.ownMove
  generalize s.acquire _ _ _ _ = r at ha ⊢
  split
  · exact h
  · split
    · exact h.noteFrame.startMove
    · exact ha
    · exact h

/-! ## Launch -/

@[simp] theorem CellsOk.readBytes {s : State} (h : CellsOk s) {core part addr n : Nat} :
    CellsOk (s.readBytes core part addr n).1 := by
  have hr := h.engineRead (who := engineAgent 4 core addr) (core := core) (part := part) (va := addr) (n := n)
    (fmt := fun _ => true)
  unfold State.readBytes
  dsimp only
  generalize s.engineRead _ core part addr n _ = x at hr ⊢
  cases x with
  | done t bs b => exact hr
  | waits t => exact hr
  | fault t d =>
    have h2 := CellsOk.engineRead (s := t) hr (who := engineAgent 4 core addr) (core := core) (part := part) (va := addr)
      (n := n) (fmt := fun _ => true)
    dsimp only
    generalize t.engineRead _ core part addr n _ = y at h2 ⊢
    cases y <;> exact h2

@[simp] theorem CellsOk.askPool {s : State} (h : CellsOk s) {part pa : Nat} {write : Bool} :
    CellsOk (s.askPool part pa write) := by
  unfold State.askPool
  grind [CellsOk.requestPool, CellsOk.congr]

@[simp] theorem CellsOk.enroll {s : State} (h : CellsOk s) {p : Partition} {d : Descriptor} : CellsOk ((s.enroll p d).1) :=
  h

@[simp] theorem CellsOk.readStages {s : State} (h : CellsOk s) {who : List Nat} {core part : Nat} {as : List Nat}
    {acc : List (List DWord)} : CellsOk (Proofs.stagesState (s.readStages who core part as acc)) := by
  induction as generalizing s acc with
  | nil => exact h
  | cons a as ih =>
    have hr := h.engineRead (who := who) (core := core) (part := part) (va := a) (n := 256) (fmt := fun _ => true)
    unfold State.readStages
    generalize s.engineRead who core part a 256 _ = x at hr ⊢
    cases x with
    | done t bs b => exact ih hr
    | waits t => exact hr
    | fault t d => exact hr

@[simp] theorem CellsOk.readDescriptor {s : State} (h : CellsOk s) {who : List Nat} {core part addr : Nat} :
    CellsOk (s.readDescriptor who core part addr).state := by
  have hr := h.engineRead (who := who) (core := core) (part := part) (va := addr) (n := 64) (fmt := fun _ => true)
  unfold State.readDescriptor
  generalize s.engineRead who core part addr 64 _ = x at hr ⊢
  cases x with
  | waits t => exact hr
  | fault t d => exact hr
  | done t bs b =>
    have h2 := CellsOk.readStages (s := t) hr (who := who) (core := core) (part := part)
      (as := (List.range (stageCount (qwords bs))).map fun i => stageTable (qwords bs) + 256 * i) (acc := [])
    dsimp only
    generalize t.readStages who core part _ [] = y at h2 ⊢
    rcases y with (_ | _ | _) | ⟨u, ss⟩ <;> exact h2

@[simp] theorem CellsOk.beginLaunch {s : State} (h : CellsOk s) {g : Group} {w : Nat × Nat} {rs : List TRef}
    {o : DlArgs} : CellsOk (s.beginLaunch g w rs o) := by
  unfold State.beginLaunch
  grind [CellsOk.raiseThese, CellsOk.updThreads, CellsOk.congr]

@[simp] theorem CellsOk.endLaunch {s : State} (h : CellsOk s) {l : Launch} {ok : Bool} {value : Nat} :
    CellsOk (s.endLaunch l ok value) := by
  unfold State.endLaunch
  grind [CellsOk.updThreads, CellsOk.updWarp, CellsOk.wakeGroups, CellsOk.congr]

/-! ## Sched -/

@[simp] theorem CellsOk.queueHead {s : State} (h : CellsOk s) {core part : Nat} {q : Queue} :
    CellsOk ((s.queueHead core part q).1) := by
  unfold State.queueHead
  grind [CellsOk.readBytes, CellsOk.congr]

@[simp] theorem CellsOk.setQueueWord {s : State} (h : CellsOk s) {core part : Nat} {q : Queue} {i v : Nat} :
    CellsOk (s.setQueueWord core part q i v) := h.engineWrite

@[simp] theorem CellsOk.updStage {s : State} (h : CellsOk s) {part handle stage : Nat} {f : Stage → Stage} :
    CellsOk (s.updStage part handle stage f) := h

@[simp] theorem CellsOk.updQueue {s : State} (h : CellsOk s) {part handle j : Nat} {f : Queue → Queue} :
    CellsOk (s.updQueue part handle j f) := h

@[simp] theorem CellsOk.pushItem {s : State} (h : CellsOk s) {w : Workgroup} {q : Queue} {r : TRef} {t : Thread}
    {pd vs : Nat} : CellsOk (s.pushItem w q r t pd vs) := by
  unfold State.pushItem
  grind [CellsOk.queueHead, CellsOk.updThread, CellsOk.orderActions, CellsOk.setQueueWord, CellsOk.engineWrite,
    CellsOk.congr]

@[simp] theorem CellsOk.withdraw {s : State} (h : CellsOk s) {part handle : Nat} {stage : Nat → Bool} :
    CellsOk (s.withdraw part handle stage) :=
  .foldl (fun _ _ h => h.updCore) h

@[simp] theorem CellsOk.checkEntry {s : State} (h : CellsOk s) {id : Nat} : CellsOk (s.checkEntry id) := by
  unfold State.checkEntry
  grind [CellsOk.raise, CellsOk.updWg, CellsOk.congr]

@[simp] theorem CellsOk.placeNew {s : State} (h : CellsOk s) {part : Nat} {p : Pipeline} {i : Nat} {st : Stage}
    {core member cohort seq pos : Nat} {item : List Word} {slots : List (Nat × Nat)} {base : Nat} :
    CellsOk (s.placeNew part p i st core member cohort seq pos item slots base) := by
  unfold State.placeNew
  apply CellsOk.checkEntry
  apply CellsOk.l1Trim
  apply CellsOk.orderActions
  refine ⟨h.1, fun w hw => ?_⟩
  obtain hw | hw := List.mem_append.1 hw
  · exact h.2 w hw
  · rw [List.mem_singleton.1 hw]
    exact wf_nil

@[simp] theorem CellsOk.readItem {s : State} (h : CellsOk s) {core part : Nat} {q : Queue} {x : Nat} :
    CellsOk ((s.readItem core part q x).1) := by
  unfold State.readItem
  grind [CellsOk.readBytes, CellsOk.congr]

@[simp] theorem CellsOk.consume {s : State} (h : CellsOk s) {core part handle j x : Nat} :
    CellsOk (s.consume core part handle j x) := by
  unfold State.consume
  grind [CellsOk.queueHead, CellsOk.updQueue, CellsOk.setQueueWord, CellsOk.congr]

@[simp] theorem CellsOk.startEntry {s : State} (h : CellsOk s) {part : Nat} {p : Pipeline} {i : Nat} {st : Stage}
    {core member cohort seq pos : Nat} : CellsOk (s.startEntry part p i st core member cohort seq pos) := by
  unfold State.startEntry
  grind [CellsOk.withdraw, CellsOk.readItem, CellsOk.placeNew, CellsOk.consume, CellsOk.congr]

@[simp] theorem CellsOk.assign {s : State} (h : CellsOk s) {core part : Nat} {p : Pipeline} {i : Nat} {st : Stage}
    {n : Nat} : CellsOk ((s.assign core part p i st n).1) := by
  unfold State.assign
  grind [CellsOk.updStage, CellsOk.queueHead, CellsOk.setQueueWord, CellsOk.congr]

@[simp] theorem CellsOk.leaveGroups {s : State} (h : CellsOk s) {id : Nat} : CellsOk (s.leaveGroups id) :=
  CellsOk.wakeGroups (.foldl (fun _ _ hs => hs.settle) h.editWg)

@[simp] theorem CellsOk.stopIssue {s : State} (h : CellsOk s) {id : Nat} : CellsOk (s.stopIssue id) :=
  .foldl (fun _ _ hs => hs.serveNone) h.leaveGroups

@[simp] theorem CellsOk.setVerdict {s : State} (h : CellsOk s) {id : Nat} {v : Verdict} : CellsOk (s.setVerdict id v) :=
  have hv := h.editWg (id := id) (f := fun w => { w with verdict := v })
  CellsOk.ite hv.stopIssue hv

@[simp] theorem CellsOk.evict {s : State} (h : CellsOk s) {w : Workgroup} : CellsOk (s.evict w) := h.setVerdict

@[simp] theorem CellsOk.decideVictim {s : State} (h : CellsOk s) {w : Workgroup} {bound : Nat} :
    CellsOk (s.decideVictim w bound) := by
  unfold State.decideVictim
  grind [CellsOk.setVerdict, CellsOk.evict, CellsOk.congr]

theorem CellsOk.preempt {s t : State} (hs : CellsOk s) {part : Partition} {handle stage : Nat}
    (h : s.preempt part handle stage = some t) : CellsOk t := by
  unfold State.preempt at h
  dsimp only at h
  split at h
  · cases h
  · split at h
    · cases h
    · obtain ⟨-, h⟩ := Option.ite_none_left_eq_some.1 h
      generalize List.mergeSort _ _ = options at h
      obtain _ | ⟨⟨c, vs⟩, _⟩ := options
      · cases h
      · rw [← Option.some.inj h]
        simp only [CellsOk]
        exact CellsOk.foldl (fun _ _ hs => hs.decideVictim) hs.updCore

@[simp] theorem CellsOk.spillAll {s : State} (h : CellsOk s) {w : Workgroup} : CellsOk (s.spillAll w) := by
  unfold State.spillAll
  grind [CellsOk.foldl, CellsOk.spillReg, CellsOk.congr]

@[simp] theorem CellsOk.memberGone {s : State} (h : CellsOk s) {w : Workgroup} : CellsOk (s.memberGone w) :=
  h.mapWgs fun v hv => by split <;> exact hv

@[simp] theorem CellsOk.loseWindow {s : State} (h : CellsOk s) {w : Workgroup} : CellsOk (s.loseWindow w) := h

@[simp] theorem CellsOk.resumeCaches {s : State} (h : CellsOk s) {core : Nat} : CellsOk (s.resumeCaches core) :=
  h.l1WriteBackAll

@[simp] theorem CellsOk.reapply {s : State} (h : CellsOk s) {r : TRef} : CellsOk (s.reapply r) := by
  unfold State.reapply
  grind [CellsOk.updThread, CellsOk.arrive, CellsOk.waitv, CellsOk.tlwait, CellsOk.orderActions, CellsOk.congr]

@[simp] theorem CellsOk.removeWg {s : State} (h : CellsOk s) {w : Workgroup} : CellsOk (s.removeWg w) :=
  ⟨h.1, fun v hv => h.memberGone.2 v (List.mem_filter.1 hv).1⟩

@[simp] theorem CellsOk.landSeen {s : State} (h : CellsOk s) {o : PendingOp} : CellsOk (s.landSeen o) := by
  unfold State.landSeen
  split
  · next a bs _ =>
    have hp := h.performWrite (core := s.coreOf ((o.who.map (·.wg)).headD 0))
      (part := s.partOf ((o.who.map (·.wg)).headD 0)) (a := a) (bs := bs)
    dsimp only
    generalize s.performWrite _ _ a bs = x at hp ⊢
    cases x with
    | done t _ _ => exact hp
    | waits t => exact CellsOk.l1Drop (s := t) hp
    | fault t d => exact CellsOk.l1Drop (s := t) hp
  · exact h

@[simp] theorem CellsOk.killWg {s : State} (h : CellsOk s) {id : Nat} : CellsOk (s.killWg id) := by
  unfold State.killWg
  grind [CellsOk.foldl, CellsOk.landSeen, CellsOk.setVerdict, CellsOk.loseWindow, CellsOk.updCore, CellsOk.removeWg,
    CellsOk.retireFences, CellsOk.congr]

/-! ## System -/

@[simp] theorem CellsOk.rettThread {s : State} (h : CellsOk s) {g : Group} {r : TRef} {t : Thread} :
    CellsOk (s.rettThread g r t) := by
  unfold State.rettThread
  grind [CellsOk.rett, CellsOk.issuerResumed, CellsOk.reapply, CellsOk.issuerLeft, CellsOk.congr]

@[simp] theorem CellsOk.setSpecial {s : State} (h : CellsOk s) {r : TRef} {n : Nat} {x : DWord} :
    CellsOk (s.setSpecial r n x) := by
  unfold State.setSpecial
  grind [CellsOk.updThread, CellsOk.updWg, CellsOk.congr]

@[simp] theorem CellsOk.watchRecord {s : State} (h : CellsOk s) {w : Workgroup} : CellsOk (s.watchRecord w) := by
  unfold State.watchRecord
  grind [CellsOk.postRecord, CellsOk.updWg, CellsOk.congr]

@[simp] theorem CellsOk.deviceWrite {s : State} (h : CellsOk s) {pa : Nat} {bs : List Byte} :
    CellsOk (s.deviceWrite pa bs) := h.l2Patch.invalidateOthers.triggerWatches

@[simp] theorem CellsOk.dropRecord {s : State} (h : CellsOk s) {part seq : Nat} : CellsOk (s.dropRecord part seq) := h

@[simp] theorem CellsOk.reapplyTo {s : State} (h : CellsOk s) {r : TRef} : CellsOk (s.reapplyTo r) := by
  unfold State.reapplyTo
  grind [CellsOk.reapply, CellsOk.congr]

@[simp] theorem CellsOk.resumeWorkgroup {s : State} (h : CellsOk s) {wg : Nat} {who : List TRef} :
    CellsOk (s.resumeWorkgroup wg who) := by
  unfold State.resumeWorkgroup
  grind [CellsOk.updWg, CellsOk.foldl, CellsOk.reapplyTo, CellsOk.congr]

@[simp] theorem CellsOk.answerGangs {s : State} (h : CellsOk s) {wg : Nat} : CellsOk (s.answerGangs wg) := by
  unfold State.answerGangs
  grind [CellsOk.updWg, CellsOk.congr]

@[simp] theorem CellsOk.resumeThread {s : State} (h : CellsOk s) {skip : Bool} {r : TRef} :
    CellsOk (s.resumeThread skip r) := by
  unfold State.resumeThread
  grind [CellsOk.updThread, CellsOk.issuerLeft, CellsOk.reapplyTo, CellsOk.issuerResumed, CellsOk.congr]

@[simp] theorem CellsOk.killRecord {s : State} (h : CellsOk s) {part wg : Nat} : CellsOk (s.killRecord part wg) :=
  h.killWg

@[simp] theorem CellsOk.deliverThread {s : State} (h : CellsOk s) {w : Workgroup} {r : TRef} :
    CellsOk (s.deliverThread w r) := by
  unfold State.deliverThread
  grind [CellsOk.tryHandler, CellsOk.congr]

@[simp] theorem CellsOk.serviceLoad {s : State} (h : CellsOk s) {core part va size : Nat} :
    CellsOk (s.serviceLoad core part va size) := by
  have hr := h.engineRead (who := engineAgent 6 core va) (core := serviceCore) (part := part) (va := va) (n := size)
    (fmt := fun _ => true)
  unfold State.serviceLoad
  split
  · exact h
  · generalize s.engineRead _ serviceCore part va size _ = x at hr ⊢
    cases x with
    | done t bs b => exact hr
    | waits t => exact hr
    | fault t d => exact hr

@[simp] theorem CellsOk.serviceStart {s : State} (h : CellsOk s) {x : ServiceStore} : CellsOk (s.serviceStart x) := by
  unfold State.serviceStart
  dsimp only
  split
  · exact h
  · refine CellsOk.serviceStore ?_ h
    exact h

/-! ## Form -/

@[simp] theorem CellsOk.formGroup {s : State} (h : CellsOk s) {core picker : Nat} {cs : List Contender}
    {lead : Contender} : CellsOk (s.formGroup core picker cs lead) := by
  unfold State.formGroup
  grind [CellsOk.updThreads, CellsOk.congr]

/-! ## Host -/

@[simp] theorem CellsOk.updHost {s : State} (h : CellsOk s) {f : HostSide → HostSide} : CellsOk (s.updHost f) := h

theorem CellsOk.restart {s : State} : CellsOk s.restart := ⟨wf_nil, fun _ hw => absurd hw List.not_mem_nil⟩

@[simp] theorem CellsOk.boot {s : State} (h : CellsOk s) : CellsOk s.boot := h

@[simp] theorem CellsOk.respond {s : State} (h : CellsOk s) {port code : Nat} {payload : List Nat} :
    CellsOk (s.respond port code payload) := h

@[simp] theorem CellsOk.setSpdm {s : State} (h : CellsOk s) {port n : Nat} : CellsOk (s.setSpdm port n) := h

@[simp] theorem CellsOk.respondFree {s : State} (h : CellsOk s) {port code n : Nat} {head : List Nat} :
    CellsOk (s.respondFree port code n head) := h

@[simp] theorem CellsOk.updSem {s : State} (h : CellsOk s) {f : Semaphore → Semaphore} : CellsOk (s.updSem f) := h

@[simp] theorem CellsOk.answer {s : State} (h : CellsOk s) {port value : Nat} : CellsOk (s.answer port value) := h

@[simp] theorem CellsOk.assignCores {s : State} (h : CellsOk s) {cores : List Nat} : CellsOk (s.assignCores cores) :=
  .foldl (fun _ _ h => h.l1WriteBackAll.updCore) h

theorem CellsOk.createPartition {s t : State} (hs : CellsOk s) {seq : Nat} {spec : PartSpec}
    (h : s.createPartition seq spec = some t) : CellsOk t := by
  unfold State.createPartition at h
  dsimp only at h
  split at h
  · cases h; exact hs.assignCores
  · cases h

theorem CellsOk.addResources {s t : State} (hs : CellsOk s) {part : Nat} {spec : PartSpec}
    (h : s.addResources part spec = some t) : CellsOk t := by
  unfold State.addResources at h
  split at h
  · cases h; exact hs.assignCores
  · cases h

@[simp] theorem CellsOk.shiftPending {s : State} (h : CellsOk s) {cores : List Nat} {dst : Nat} :
    CellsOk (s.shiftPending cores dst) :=
  .foldl (fun _ _ h => h.updCore) h

@[simp] theorem CellsOk.flushFrames {s : State} (h : CellsOk s) {part : Nat} : CellsOk (s.flushFrames part) :=
  .foldl (fun _ _ h => h.flushRange.triggerRange) h

@[simp] theorem CellsOk.moveOut {s : State} (h : CellsOk s) {part tier : Nat} {ls : List Leaf} {need : Nat} :
    CellsOk (s.moveOut part tier ls need) := by
  induction ls generalizing s need with
  | nil => exact h
  | cons l ls ih =>
    unfold State.moveOut
    split
    · exact h
    · split
      · exact ih h
      · split
        · exact ih h
        · exact ih h.noteFrame.startMove

@[simp] theorem CellsOk.shrinkOn {s : State} (h : CellsOk s) {part tier share : Nat} :
    CellsOk (s.shrinkOn part tier share) := h.moveOut

theorem CellsOk.removeCores {s t : State} (hs : CellsOk s) {part : Nat} {cores : List Nat}
    (h : s.removeCores part cores = some t) : CellsOk t := by
  obtain ⟨p, -, h⟩ := Option.bind_eq_some_iff.1 h
  dsimp only at h
  split at h
  · cases h
  · cases h
    exact CellsOk.updPart (CellsOk.shiftPending (.foldl (fun _ _ hs => hs.setVerdict) hs))

theorem CellsOk.removeSlices {s t : State} (hs : CellsOk s) {part : Nat} {slices : List Nat}
    (h : s.removeSlices part slices = some t) : CellsOk t := by
  obtain ⟨p, -, h⟩ := Option.bind_eq_some_iff.1 h
  dsimp only at h
  split at h
  · cases h
  · cases h
    exact hs.flushFrames.updPart

theorem CellsOk.shrinkTier {s t : State} (hs : CellsOk s) {part tier share : Nat}
    (h : s.shrinkTier part tier share = some t) : CellsOk t := by
  obtain ⟨p, -, h⟩ := Option.bind_eq_some_iff.1 h
  split at h
  · cases h
  · cases h
    exact hs.updPart.shrinkOn

@[simp] theorem CellsOk.finishDestroy {s : State} (h : CellsOk s) {part : Nat} : CellsOk (s.finishDestroy part) := by
  have hf (held : List (Nat × Nat)) :
      CellsOk (held.foldl (fun s f => (s.flushRange f.1 f.2).triggerRange f.1 f.2) s) :=
    .foldl (fun _ _ hs => hs.flushRange.triggerRange) h
  simp only [State.finishDestroy, CellsOk]
  refine CellsOk.foldl (fun _ _ hs => hs.unpinned) ?_
  exact hf _

@[simp] theorem CellsOk.beginDestroy {s : State} (h : CellsOk s) {part : Nat} : CellsOk (s.beginDestroy part) := by
  unfold State.beginDestroy
  grind [CellsOk.foldl, CellsOk.killWg, CellsOk.updCore, CellsOk.updPart, CellsOk.congr]

@[simp] theorem CellsOk.finish {s : State} (h : CellsOk s) {c : HostCommand} : CellsOk (s.finish c) := by
  unfold State.finish
  grind [CellsOk.finishDestroy, CellsOk.congr]

@[simp] theorem CellsOk.carryOn {s : State} (h : CellsOk s) {port : Nat} {c : HostCommand} :
    CellsOk (s.carryOn port c) := by
  unfold State.carryOn
  grind [CellsOk.finish, CellsOk.answer, CellsOk.updHost, CellsOk.congr]

theorem CellsOk.begin_ {s t : State} (hs : CellsOk s) {seq : Nat} {c : HostCommand} (h : s.begin_ seq c = some t) :
    CellsOk t := by
  cases c with
  | create spec => exact hs.createPartition h
  | addResources part spec => exact hs.addResources h
  | removeCores part cores => exact hs.removeCores h
  | removeSlices part slices => exact hs.removeSlices h
  | shrinkTier part tier share => exact hs.shrinkTier h
  | destroy part =>
    rw [State.begin_] at h
    split at h
    · cases h
      exact hs.beginDestroy
    · cases h

@[simp] theorem CellsOk.beginCommand {s : State} (h : CellsOk s) {port seq : Nat} {c : HostCommand} :
    CellsOk (s.beginCommand port seq c) := by
  unfold State.beginCommand
  split
  · exact h.answer
  · split
    · next hb => exact (h.begin_ hb).carryOn
    · exact h.answer

@[simp] theorem CellsOk.lookAfter {s : State} (h : CellsOk s) : CellsOk (s.lookAfter) := by
  unfold State.lookAfter
  grind [CellsOk.shrinkTier, CellsOk.shrinkOn, CellsOk.carryOn, CellsOk.updHost, CellsOk.beginCommand, CellsOk.congr]

@[simp] theorem CellsOk.countThermal {s : State} (h : CellsOk s) : CellsOk (s.countThermal) := h

/-! ## Run -/

@[simp] theorem CellsOk.tick {s : State} (h : CellsOk s) : CellsOk s.tick := h.mapWgs fun _ hw => hw

end Sys2Proof.Safety
end

