-- ==== Sys2Proof/Proofs/CellsKept.lean ====
section
/-!
Every word, every event and every step keeps the lists of cells canonical.
-/

/- One kernel check at a time: each would take a thread's stack of its own. -/
set_option Elab.async false

namespace Sys2Proof.Safety

open Sys2Proof Sys2Proof.Machine Sys2Proof.Laws Sys2Proof.Proofs

/-- An answer's next state, where it is one, has the canonical form. -/
def AnswerOk : Answer → Prop
  | .next t => CellsOk t
  | _ => True

@[simp] theorem answerOk_next (t : State) : AnswerOk (.next t) ↔ CellsOk t := Iff.rfl

@[simp] theorem answerOk_refused (x : Refusal) : AnswerOk (.refused x) ↔ True := Iff.rfl

@[simp] theorem answerOk_ite (c : Prop) [Decidable c] (a b : Answer) :
    AnswerOk (if c then a else b) ↔ if c then AnswerOk a else AnswerOk b := by split <;> rfl

@[simp] theorem cellsOk_ite (c : Prop) [Decidable c] (s t : State) :
    CellsOk (if c then s else t) ↔ if c then CellsOk s else CellsOk t := by split <;> rfl

/-! ## Ops -/

theorem AnswerOk.ite {c : Prop} [Decidable c] {a b : Answer} (ha : AnswerOk a) (hb : AnswerOk b) :
    AnswerOk (if c then a else b) := by
  split
  · exact ha
  · exact hb

/-- R66: the issue of a word, whether it faults, holds or has its effect. -/
theorem issue_ok {s : State} (h : CellsOk s) {w : WordRule} {regs : List Nat} {fill : Group → State → State}
    {hold : Group → State → Bool} {effect : Group → State → State} (hf : ∀ g s, CellsOk s → CellsOk (fill g s))
    (he : ∀ g s, CellsOk s → CellsOk (effect g s)) : AnswerOk (issue w regs fill hold effect s) := by
  unfold issue
  split
  · trivial
  · next g _ =>
    have hr : CellsOk (fill g (s.rangeFaults g w regs)) := hf g _ h.rangeFaults
    split
    · exact h.raiseAll.advance.settle
    · dsimp only
      split
      · exact hr.advance.settle
      · split
        · exact hr.holdGroup
        · exact (he g _ hr.advance).settle

/-! ## Operands -/

theorem arithWord_ok {s : State} (h : CellsOk s) (w : WordRule) (vd nd : Nat) (srcs : List Nat)
    (guard : Thread → Bool) (f : Group → Thread → List Word × BitVec 5) :
    AnswerOk (arithWord w vd nd srcs guard f s) := by
  unfold arithWord
  exact issue_ok h (fun g s hs => by simp [hs]) fun g s hs => by simp [hs]

theorem intV3_ok {s : State} (h : CellsOk s) (o : V3Args) (f : Word → Word → Word) : AnswerOk (intV3 o f s) :=
  arithWord_ok h ..

theorem intV2_ok {s : State} (h : CellsOk s) (o : V2Args) (f : Word → Word) : AnswerOk (intV2 o f s) :=
  arithWord_ok h ..

theorem intVI_ok {s : State} (h : CellsOk s) (o : VIArgs) (imm : Group → BitVec 6 → Word) (f : Word → Word → Word) :
    AnswerOk (intVI o imm f s) := arithWord_ok h ..

theorem intThird_ok {s : State} (h : CellsOk s) (o : V3Args) (f : Word → Word → Word → Word) :
    AnswerOk (intThird o f s) := by
  unfold intThird
  exact issue_ok h (fun g s hs => by simp [hs]) fun g s hs => by simp [hs]

theorem intThird64_ok {s : State} (h : CellsOk s) (o : V3Args) (f : Word → Word → DWord → DWord) :
    AnswerOk (intThird64 o f s) := by
  unfold intThird64
  exact issue_ok h (fun g s hs => by simp [hs]) fun g s hs => by simp [hs]

/-! ## Integer -/

theorem intPair_ok {s : State} (h : CellsOk s) (o : V3Args) (nb : Nat) (f : DWord → Thread → DWord) :
    AnswerOk (intPair o nb f s) := arithWord_ok h ..

/-! ## WarpRegs -/

theorem warpWord_ok {s : State} (h : CellsOk s) (guard : BitVec 3) (wd : BitVec 5) (f : Warp → DWord) :
    AnswerOk (warpWord guard wd f s) := by
  unfold warpWord
  exact issue_ok h (fun _ _ hs => hs) fun _ _ hs => .foldl (fun _ _ hs => .ite hs.updWarp hs) hs

theorem warp3_ok {s : State} (h : CellsOk s) (o : W3Args) (f : DWord → DWord → DWord) : AnswerOk (warp3 o f s) :=
  warpWord_ok h ..

theorem execV2w_ok {s : State} (h : CellsOk s) (o : WVArgs) : AnswerOk (execV2w o s) := by
  unfold execV2w
  refine issue_ok h (fun _ _ hs => hs.fillFor) fun g s hs => .foldl (fun s w hs => ?_) hs
  split
  · exact hs.updWarp
  · exact hs

theorem execW2v_ok {s : State} (h : CellsOk s) (o : VWArgs) : AnswerOk (execW2v o s) := by
  unfold execW2v
  exact issue_ok h (fun _ _ hs => hs) fun _ _ hs => hs.mapGroup

/-! ## Float -/

theorem floatV3_ok {s : State} (h : CellsOk s) (o : V3Args) (rnd : Bool) (f : Nat → Word → Word → FResult) :
    AnswerOk (floatV3 o rnd f s) := arithWord_ok h ..

theorem floatV2_ok {s : State} (h : CellsOk s) (o : V2Args) (rnd : Bool) (f : Nat → Word → FResult) :
    AnswerOk (floatV2 o rnd f s) := arithWord_ok h ..

theorem floatThird_ok {s : State} (h : CellsOk s) (o : V3Args) (f : Nat → Word → Word → Word → FResult) :
    AnswerOk (floatThird o f s) := by
  unfold floatThird
  exact issue_ok h (fun g s hs => by simp [hs]) fun g s hs => by simp [hs]

/-! ## Sfu -/

theorem sfuWord_ok {s : State} (h : CellsOk s) (fn : Nat) (o : SfuArgs) : AnswerOk (sfuWord fn o s) := by
  unfold sfuWord
  exact issue_ok h (fun g s hs => by simp [hs]) fun g s hs => by simp [hs]

theorem execSfuComplete_ok (op keep : Nat) {s : State} (h : CellsOk s) : AnswerOk (execSfuComplete op keep s) := by
  unfold execSfuComplete
  (repeat' split) <;> simp [h]

/-! ## Compare -/

theorem compareWord_ok {s : State} (h : CellsOk s) (c : CmpCond) (o : CmpArgs) : AnswerOk (compareWord c o s) := by
  unfold compareWord
  exact issue_ok h (fun g s hs => by simp [hs]) fun g s hs => by simp [hs]

theorem predWord_ok {s : State} (h : CellsOk s) (pd guard : BitVec 3) (neg : Bool) (f : Thread → Bool) :
    AnswerOk (predWord pd guard neg f s) := by
  unfold predWord
  exact issue_ok h (fun g s hs => by simp [hs]) fun g s hs => by simp [hs]

theorem pred3_ok {s : State} (h : CellsOk s) (o : P3Args) (f : Bool → Bool → Bool) : AnswerOk (pred3 o f s) :=
  predWord_ok h ..

/-! ## Fetch -/

@[simp] theorem modifierFault_ok {s : State} (h : CellsOk s) (g : Group) (code : BitVec 8) :
    AnswerOk (s.modifierFault g code) := h.mapGroup.advance.settle

@[simp] theorem fetchFault_ok (code : BitVec 8) (g : Group) {s : State} (h : CellsOk s) : AnswerOk (fetchFault code g s) :=
  h.fetchTlb.raiseAll.advance.settle

/-! ## Control -/

theorem execClauseHeader_ok {s : State} (h : CellsOk s) (o : HeaderArgs) : AnswerOk (execClauseHeader o s) := by
  unfold execClauseHeader
  split
  · trivial
  · split
    · exact CellsOk.settle (s := { (s.mapGroup _ _).updGroup _ _ with picks := _ }) h.mapGroup
    · split <;> exact h.raiseAll.advance.settle

theorem modifierWord_ok {s : State} (h : CellsOk s) (misplaced : Mods → Bool) (add : Mods → DWord → Mods) :
    AnswerOk (modifierWord misplaced add s) := by
  unfold modifierWord
  split
  · trivial
  · split
    · exact modifierFault_ok h ..
    · split
      · exact modifierFault_ok h ..
      · exact h.mapGroup

theorem transferWord_ok {s : State} (h : CellsOk s) (regs srcs : List Nat) (guard : BitVec 3) (neg : Bool)
    (l : Link) (target : Group → Thread → DWord) : AnswerOk (transferWord regs srcs guard neg l target s) := by
  unfold transferWord
  exact issue_ok h (fun g s hs => by simp [hs]) fun g s hs => by simp [hs]

theorem execExit_ok {s : State} (h : CellsOk s) (o : CtlGArgs) : AnswerOk (execExit o s) := by
  unfold execExit
  exact issue_ok h (fun _ _ hs => hs) fun _ _ hs => .foldl (fun _ _ hs => hs.updThread.recountB0) hs

theorem execDemote_ok {s : State} (h : CellsOk s) (o : CtlGArgs) : AnswerOk (execDemote o s) := by
  unfold execDemote
  exact issue_ok h (fun _ _ hs => hs) fun _ _ hs => hs.mapGroup

theorem execYield_ok {s : State} (h : CellsOk s) (o : CtlGArgs) : AnswerOk (execYield o s) := by
  unfold execYield
  exact issue_ok h (fun _ _ hs => hs) fun _ _ hs => hs.mapGroup

theorem execNop_ok {s : State} (h : CellsOk s) (o : CtlGArgs) : AnswerOk (execNop o s) := by
  unfold execNop
  exact issue_ok h (fun _ _ hs => hs) fun _ _ hs => hs

theorem execBkpt_ok {s : State} (h : CellsOk s) (o : CtlBArgs) : AnswerOk (execBkpt o s) := by
  unfold execBkpt
  exact issue_ok h (fun _ _ hs => hs) fun _ _ hs => hs.mapGroup

/-! ## CrossLane -/

theorem crossWord_ok {s : State} (h : CellsOk s) (regs srcs : List Nat) (f : Workgroup → Thread → Thread) :
    AnswerOk (crossWord regs srcs f s) := by
  unfold crossWord
  refine issue_ok h (fun g s hs => ?_) fun _ _ hs => hs.mapGroup
  dsimp only
  split
  · exact hs.joinHeld.fillFor
  · exact hs.joinHeld

theorem shuffleWord_ok {s : State} (h : CellsOk s) (o : X3Args) (countsWrap : Bool) (raw : Nat → Nat → Int) :
    AnswerOk (shuffleWord o countsWrap raw s) := crossWord_ok h ..

theorem quadWord_ok {s : State} (h : CellsOk s) (o : X2Args) (x : Nat) : AnswerOk (quadWord o x s) :=
  shuffleWord_ok h ..

theorem execSgset_ok {s : State} (h : CellsOk s) (o : XSetArgs) : AnswerOk (execSgset o s) := by
  unfold execSgset
  exact issue_ok h (fun _ _ hs => hs.joinHeld) fun _ _ hs => CellsOk.mapWgs hs.mapGroup fun _ hw => hw

/-! ## LoadStore -/

theorem loadWord_ok {s : State} (h : CellsOk s) (func : Nat) (o : MArgs) : AnswerOk (loadWord func o s) := by
  unfold loadWord
  exact issue_ok h (fun _ _ hs => hs.fillSources) fun _ _ hs => hs.eachActing fun _ _ _ _ hs => hs.issueAccess

theorem decodeLoadWord_ok {s : State} (h : CellsOk s) (func : Nat) (o : MArgs) :
    AnswerOk (decodeLoadWord func o s) := by
  unfold decodeLoadWord
  refine issue_ok h (fun _ _ hs => hs.fillSources) fun g s hs => hs.eachActing fun k r t s hs => ?_
  dsimp only
  split
  · exact hs.raise
  · exact hs.tlbInsert.tlbInsert.addOp

theorem execLoadComplete_ok (op keep : Nat) {s : State} (h : CellsOk s) : AnswerOk (execLoadComplete op keep s) := by
  unfold execLoadComplete
  (repeat' split) <;> simp [h, CellsOk.complete]

theorem execRegisterSpill_ok (wg warp lane : Nat) (regs : BitVec 64) {s : State} (h : CellsOk s) :
    AnswerOk (execRegisterSpill wg warp lane regs s) := by
  unfold execRegisterSpill
  dsimp only
  split
  · split
    · exact h
    · exact CellsOk.foldl (fun _ _ hs => .ite hs.spillReg hs) h
  · exact h

theorem storeLike_ok {s : State} (h : CellsOk s) (o : MSArgs) (n nregs : Nat) (need : Rights) (taints : Bool)
    (mk : Thread → Access → OpKind) : AnswerOk (storeLike o n nregs need taints mk s) := by
  unfold storeLike
  refine issue_ok h (fun _ _ hs => hs.fillSources) fun g s hs => (hs.eachActing fun k r t s hs => ?_).taintActing
  dsimp only
  (repeat' split) <;> simp [hs]

theorem storeWord_ok {s : State} (h : CellsOk s) (func : Nat) (o : MSArgs) : AnswerOk (storeWord func o s) :=
  storeLike_ok h ..

theorem atomWord_ok {s : State} (h : CellsOk s) (func : Nat) (v4 : V4Use) (o : MArgs) :
    AnswerOk (atomWord func v4 o s) := by
  unfold atomWord
  exact issue_ok h (fun _ _ hs => hs.fillSources) fun _ _ hs =>
    (hs.eachActing fun _ _ _ _ hs => .ite hs.issueAccess hs.issueAccess).taintActing

theorem execAtomComplete_ok (op keep : Nat) {s : State} (h : CellsOk s) : AnswerOk (execAtomComplete op keep s) := by
  unfold execAtomComplete
  (repeat' split) <;> simp [h, CellsOk.complete]

theorem redmWord_ok {s : State} (h : CellsOk s) (func : Nat) (o : MSArgs) : AnswerOk (redmWord func o s) :=
  storeLike_ok h ..

theorem execStoreAcknowledgement_ok (op : Nat) {s : State} (h : CellsOk s) :
    AnswerOk (execStoreAcknowledgement op s) := by
  unfold execStoreAcknowledgement
  split
  · split
    · next hr => exact h.ackStore (h.landStore hr)
    · exact h
  · exact h

theorem execDeferredStorePerform_ok (op : Nat) {s : State} (h : CellsOk s) :
    AnswerOk (execDeferredStorePerform op s) := by
  unfold execDeferredStorePerform
  split
  · refine .ite h ?_
    split
    · next t _ _ hr =>
      have ht : CellsOk t := h.landStore hr
      exact h.settleStore (r := .done t [] 0) ht
    · next hr => exact h.settleStore (h.landStore hr)
    · exact h
  · exact h.serviceResume
  · exact h

theorem spadLoadWord_ok {s : State} (h : CellsOk s) (func nregs : Nat) (reads : Bool) (o : SpArgs) :
    AnswerOk (spadLoadWord func nregs reads o s) := by
  unfold spadLoadWord
  exact issue_ok h (fun g s hs => by simp [hs]) fun g s hs =>
    CellsOk.eachActing hs fun k r t s hs => by dsimp only; split <;> simp [hs]

theorem spadStoreWord_ok {s : State} (h : CellsOk s) (func nregs : Nat) (o : SpSArgs) :
    AnswerOk (spadStoreWord func nregs o s) := by
  unfold spadStoreWord
  refine issue_ok h (fun _ _ hs => hs.fillSources) fun g s hs => hs.eachActing fun k r t s hs => ?_
  dsimp only
  split
  · exact hs.raise
  · exact .ite hs hs.setScratch

theorem execSpadLoadComplete_ok (op keep : Nat) {s : State} (h : CellsOk s) :
    AnswerOk (execSpadLoadComplete op keep s) := by
  unfold execSpadLoadComplete
  split
  · split
    · split
      · exact h
      · exact h.landSpad.finishOp.retireFences
    · exact h
  · exact h

theorem execFence_ok {s : State} (h : CellsOk s) (o : FenArgs) : AnswerOk (execFence o s) := by
  unfold execFence
  exact issue_ok h (fun _ _ hs => hs) fun _ _ hs =>
    .ite hs (CellsOk.retireFences (hs.eachActing fun _ _ _ _ hs => hs.addOp))

theorem cacheWord_ok {s : State} (h : CellsOk s) (func : Nat) (need : Rights) (o : McArgs) :
    AnswerOk (cacheWord func need o s) := by
  unfold cacheWord
  exact issue_ok h (fun g s hs => by simp [hs]) fun g s hs =>
    CellsOk.eachActing hs fun k r t s hs => by dsimp only; (repeat' split) <;> simp [hs]

theorem prefetchWord_ok {s : State} (h : CellsOk s) (intoL1 : Bool) (o : McArgs) :
    AnswerOk (prefetchWord intoL1 o s) := by
  unfold prefetchWord
  exact issue_ok h (fun _ _ hs => hs.fillSources) fun _ _ hs => hs.eachActing fun _ _ _ _ hs => hs.prefetch

theorem execLineEviction_ok (core : Nat) (l2 : Bool) (line : Nat) {s : State} (h : CellsOk s) :
    AnswerOk (execLineEviction core l2 line s) := by
  unfold execLineEviction
  split
  · exact h.l2Leave
  · exact h.l1WriteBack.l1Drop

/-! ## Quant -/

theorem execQst_ok {s : State} (h : CellsOk s) (o : MArgs) : AnswerOk (execQst o s) := by
  unfold execQst
  refine issue_ok h (fun _ _ hs => hs.fillQuant) fun g s hs => hs.eachActing fun k r t s hs =>
    hs.quantEach fun t x xs s hs => ?_
  dsimp only
  split
  · split
    · exact hs.raise
    · exact hs.addOp
  · split
    · exact hs.raise
    · exact hs.tlbInsert.tlbInsert.addOp.addOp.addOp

theorem quantWord_ok {s : State} (h : CellsOk s) (o : QbArgs) (f : Word → List Word → List Word × BitVec 5) :
    AnswerOk (quantWord o f s) := by
  unfold quantWord
  exact issue_ok h (fun _ _ hs => hs.fillQuant) fun _ _ hs =>
    hs.eachActing fun _ _ _ _ hs => hs.quantEach fun _ _ _ _ hs => hs.addOp

theorem execSbchk_ok {s : State} (h : CellsOk s) (o : MArgs) : AnswerOk (execSbchk o s) := by
  unfold execSbchk
  refine issue_ok h (fun _ _ hs => hs.fillSources) fun g s hs => hs.eachActing fun k r t s hs => ?_
  dsimp only
  split
  · exact hs.raise
  · split
    · exact hs.raise
    · exact hs.tlbInsert.tlbInsert.addOp

theorem execMta_ok {s : State} (h : CellsOk s) (o : MArgs) : AnswerOk (execMta o s) := by
  unfold execMta
  exact issue_ok h (fun g s hs => by simp [hs]) fun g s hs =>
    CellsOk.eachActing hs fun k r t s hs => by dsimp only; (repeat' split) <;> simp [hs]

theorem execQblkComplete_ok (op keep : Nat) {s : State} (h : CellsOk s) : AnswerOk (execQblkComplete op keep s) := by
  unfold execQblkComplete
  (repeat' split) <;> simp [h, CellsOk.complete]

/-! ## Matrix -/

theorem execGang_ok {s : State} (h : CellsOk s) (o : GangFArgs) : AnswerOk (execGang o s) := by
  unfold execGang
  exact issue_ok h (fun g s hs => by simp [hs]) fun g s hs =>
    CellsOk.eachWarp hs fun w rs s hs => by (repeat' split) <;> simp [hs]

theorem productWord_ok {s : State} (h : CellsOk s) (func : Nat) (o : MmaArgs) : AnswerOk (productWord func o s) := by
  unfold productWord
  refine issue_ok h (fun g s hs => .ite hs ?_) fun _ _ hs => hs
  have hf : CellsOk ((s.commandActions g.core g.order g.scope).fillProducts g func o) := hs.commandActions.fillProducts
  exact .ite hf (CellsOk.updGroup (CellsOk.foldl (fun _ _ hs => hs.sendProduct) hf))

theorem execRendezvousAccept_ok (wg gang : Nat) {s : State} (h : CellsOk s) :
    AnswerOk (execRendezvousAccept wg gang s) := by
  unfold execRendezvousAccept
  (repeat' split) <;> simp [h]

theorem execRendezvousTimeout_ok (wg gang : Nat) {s : State} (h : CellsOk s) :
    AnswerOk (execRendezvousTimeout wg gang s) := by
  unfold execRendezvousTimeout
  split <;> simp [h]

theorem execMatrixOpStart_ok (core : Nat) {s : State} (h : CellsOk s) : AnswerOk (execMatrixOpStart core s) := by
  unfold execMatrixOpStart
  (repeat' split) <;> simp [h]

theorem scratch_kStepTile (w : Workgroup) (op : MatOp) (step : Nat) (cols : List (List FVal)) :
    (w.kStepTile op step cols).scratch = w.scratch :=
  List.foldlRecOn (motive := fun v : Workgroup => v.scratch = w.scratch) _ _ rfl fun _ hv _ _ =>
    List.foldlRecOn (motive := fun v : Workgroup => v.scratch = w.scratch) _ _ hv fun _ hv _ _ => hv

theorem execMatrixKStep_ok (core : Nat) {s : State} (h : CellsOk s) : AnswerOk (execMatrixKStep core s) := by
  unfold execMatrixKStep
  split
  · exact h
  · next op _ =>
    have hf := h.fetchStep (core := core) (op := op) (step := op.first)
    dsimp only
    generalize s.fetchStep core op _ = x at hf ⊢
    refine .ite h ?_
    cases x with
    | fault t d => exact h
    | waits t => exact hf
    | cols t cols => exact CellsOk.updMatOp (CellsOk.updGang (CellsOk.editWg (s := t) hf fun w => scratch_kStepTile w ..))

theorem execMatrixOpComplete_ok (core : Nat) {s : State} (h : CellsOk s) : AnswerOk (execMatrixOpComplete core s) := by
  unfold execMatrixOpComplete
  split
  · exact h
  · next op _ =>
    have ht : CellsOk (op.issuers.foldl (fun s a => if a.guard then s.updThread a.who fun t => t.subFlag a.flag else s) s) :=
      .foldl (fun _ _ hs => .ite hs.updThread hs) h
    exact CellsOk.updGang (CellsOk.updCore ht)

theorem execBFetchFault_ok (core : Nat) {s : State} (h : CellsOk s) : AnswerOk (execBFetchFault core s) := by
  unfold execBFetchFault
  split
  · exact h
  · next op _ =>
    have hf := h.fetchStep (core := core) (op := op) (step := op.first)
    dsimp only
    generalize s.fetchStep core op _ = x at hf ⊢
    refine .ite h ?_
    cases x with
    | fault t d => exact CellsOk.interrupt (s := t) hf
    | waits t => exact h
    | cols t cols => exact h

theorem execMatrixReissue_ok (wg gang : Nat) {s : State} (h : CellsOk s) : AnswerOk (execMatrixReissue wg gang s) := by
  unfold execMatrixReissue
  split <;> simp [h]

/-! ## Tile -/

theorem execAcz_ok {s : State} (h : CellsOk s) (o : TileArgs) : AnswerOk (execAcz o s) := by
  unfold execAcz
  exact issue_ok h (fun g s hs => by simp [hs]) fun g s hs =>
    CellsOk.eachWarp hs fun w rs s hs => by (repeat' split) <;> simp [hs]

theorem execAcrd_ok {s : State} (h : CellsOk s) (o : TileVArgs) : AnswerOk (execAcrd o s) := by
  unfold execAcrd
  exact issue_ok h (fun g s hs => by simp [hs]) fun g s hs =>
    CellsOk.eachActing hs fun k r t s hs => by dsimp only; (repeat' split) <;> simp [hs]

theorem execAcwr_ok {s : State} (h : CellsOk s) (o : TileVArgs) : AnswerOk (execAcwr o s) := by
  unfold execAcwr
  exact issue_ok h (fun g s hs => by simp [hs]) fun g s hs =>
    CellsOk.eachActing hs fun k r t s hs => by dsimp only; (repeat' split) <;> simp [hs]

theorem tileMemoryWord_ok {s : State} (h : CellsOk s) (func : Nat) (o : TileKArgs) :
    AnswerOk (tileMemoryWord func o s) := by
  unfold tileMemoryWord
  exact issue_ok h (fun g s hs => by simp [hs]) fun g s hs =>
    CellsOk.eachWarp hs fun w rs s hs => by dsimp only; (repeat' split) <;> simp [hs]

theorem scratch_tileSets (w : Workgroup) (is : List Nat) (tile row : Nat) (col : Nat → Nat) (x : Nat → Word) :
    (is.foldl (fun w i => w.tileSet tile row (col i) (x i)) w).scratch = w.scratch :=
  List.foldlRecOn (motive := fun v : Workgroup => v.scratch = w.scratch) _ _ rfl fun _ hv _ _ => hv

theorem execTileTransferComplete_ok (op keep : Nat) {s : State} (h : CellsOk s) :
    AnswerOk (execTileTransferComplete op keep s) := by
  unfold execTileTransferComplete
  split
  · split
    · refine .ite h ?_
      split
      · exact CellsOk.finishOp h.editWg
      · exact h.finishOp
      · exact CellsOk.finishOp (h.editWg fun w => scratch_tileSets w ..)
      · exact h.tileMemory.retireFences
    · exact h
  · exact h

theorem execMprg_ok {s : State} (h : CellsOk s) (o : MprgArgs) : AnswerOk (execMprg o s) := by
  unfold execMprg
  refine issue_ok h (fun _ _ hs => hs) fun g s hs => ?_
  have hr := (hs.ownersOnly (g := g) (acts := fun t => t.guard o.guard false)).eachActing (g := g)
    (acts := fun t => t.guard o.guard false) (f := fun _ r _ s => s.updThread r fun t => t.setReg o.vd.toNat (s.mprogOf r))
    fun _ _ _ _ hs => hs.updThread
  exact .ite hr (CellsOk.eachWarp hr fun _ _ _ hs => .ite hs hs.abandonGang.updGang)

theorem execMrel_ok {s : State} (h : CellsOk s) (o : G0Args) : AnswerOk (execMrel o s) := by
  unfold execMrel
  exact issue_ok h (fun _ _ hs => hs) fun _ _ hs =>
    CellsOk.eachWarp hs.ownersOnly fun _ _ _ hs => .ite hs hs.updGang

/-! ## Rings -/

theorem execRingdef_ok {s : State} (h : CellsOk s) (o : RingDefArgs) : AnswerOk (execRingdef o s) := by
  unfold execRingdef
  exact issue_ok h (fun g s hs => by simp [hs]) fun g s hs =>
    CellsOk.eachWarp hs fun w rs s hs => by (repeat' split) <;> simp [hs]

theorem execAwaitf_ok {s : State} (h : CellsOk s) (o : AwaitArgs) : AnswerOk (execAwaitf o s) := by
  unfold execAwaitf
  exact issue_ok h (fun g s hs => by simp [hs]) fun g s hs =>
    CellsOk.eachWarp hs fun w rs s hs => by (repeat' split) <;> simp [hs]

theorem execAwaitfService_ok (op keep : Nat) {s : State} (h : CellsOk s) : AnswerOk (execAwaitfService op keep s) := by
  unfold execAwaitfService
  split
  · split
    · split
      · refine .ite ?_ h
        split
        · exact CellsOk.finishOp (h.editWg fun w => scratch_updRing w ..)
        · exact h
      · exact h
    · exact h
  · exact h

theorem execAwaitfTimeout_ok (op keep : Nat) {s : State} (h : CellsOk s) : AnswerOk (execAwaitfTimeout op keep s) := by
  unfold execAwaitfTimeout
  split <;> simp [h]

theorem execRels_ok {s : State} (h : CellsOk s) (o : RelsArgs) : AnswerOk (execRels o s) := by
  unfold execRels
  exact issue_ok h (fun g s hs => by simp [hs]) fun g s hs =>
    CellsOk.eachWarp hs fun w rs s hs => by (repeat' split) <;> simp [hs]

theorem execReleaseReportArrival_ok (idx : Nat) {s : State} (h : CellsOk s) :
    AnswerOk (execReleaseReportArrival idx s) := by
  unfold execReleaseReportArrival
  split
  · exact h
  · exact .ite h (h.editWg fun w => scratch_updRing w ..)

/-! ## Copy -/

theorem copyWord_ok {s : State} (h : CellsOk s) (kind : Nat) (k : BitVec 3) (pd : BitVec 3) (ws : BitVec 5)
    (guard : BitVec 3) : AnswerOk (copyWord kind k pd ws guard s) := by
  unfold copyWord
  exact issue_ok h (fun g s hs => by simp [hs]) fun g s hs =>
    CellsOk.eachWarp hs fun w rs s hs => by dsimp only; split <;> simp [hs]

theorem statusWord_ok {s : State} (h : CellsOk s) (k : Nat) (o : StatVArgs) : AnswerOk (statusWord k o s) := by
  unfold statusWord
  exact issue_ok h (fun _ _ hs => hs) fun _ _ hs => hs.eachActing fun _ _ _ _ hs => hs.updThread

theorem execCopyCommandStart_ok (core : Nat) {s : State} (h : CellsOk s) : AnswerOk (execCopyCommandStart core s) := by
  unfold execCopyCommandStart
  split <;> simp [h]

theorem execCopyOpComplete_ok (core num : Nat) {s : State} (h : CellsOk s) :
    AnswerOk (execCopyOpComplete core num s) := by
  unfold execCopyOpComplete
  split
  · exact h
  · next op _ =>
    have hr := h.runCopy (op := op) (n := s.picks.headD 0)
    generalize s.runCopy op _ = x at hr ⊢
    refine .ite h (.ite h.endCopy (.ite h ?_))
    cases x with
    | done t op' => exact CellsOk.ite (CellsOk.setCopy (s := t) hr) (CellsOk.endCopy (s := t) hr)
    | waits t op' => exact CellsOk.setCopy (s := t) hr
    | fault t op' d => exact .ite h (CellsOk.endCopy (s := t) hr)

theorem execCopyTranslationFault_ok (core num : Nat) {s : State} (h : CellsOk s) :
    AnswerOk (execCopyTranslationFault core num s) := by
  unfold execCopyTranslationFault
  split
  · exact h
  · next op _ =>
    have hr := h.runCopy (op := op) (n := 0)
    generalize s.runCopy op _ = x at hr ⊢
    refine .ite h ?_
    cases x with
    | done t op' => exact h
    | waits t op' => exact h
    | fault t op' d => exact .ite (CellsOk.setCopy (s := t) hr).reportRecord h

theorem execMulticastDelivery_ok (core num member : Nat) {s : State} (h : CellsOk s) :
    AnswerOk (execMulticastDelivery core num member s) := by
  unfold execMulticastDelivery
  split
  · exact h
  · next op _ =>
    have hr := h.runCopy (op := op) (n := 0)
    generalize s.runCopy op _ = x at hr ⊢
    refine .ite h (.ite h.deliverTo ?_)
    cases x with
    | done t op' => exact (CellsOk.setCopy (s := t) hr).deliverTo
    | waits t op' => exact CellsOk.setCopy (s := t) hr
    | fault t op' d => exact .ite h (CellsOk.setCopy (s := t) hr).deliverTo

/-! ## Refresh -/

theorem execPerBankRefreshDue_ok (stack pch : Nat) {s : State} (h : CellsOk s) :
    AnswerOk (execPerBankRefreshDue stack pch s) := .ite h h

theorem execPostponedRefreshIssue_ok (stack pch : Nat) {s : State} (h : CellsOk s) :
    AnswerOk (execPostponedRefreshIssue stack pch s) := by
  simp only [execPostponedRefreshIssue]
  (repeat' split) <;> simp [h]

theorem execAllBankRefresh_ok (stack pch : Nat) {s : State} (h : CellsOk s) : AnswerOk (execAllBankRefresh stack pch s) :=
  .ite h h

theorem execRefreshEnd_ok (stack pch : Nat) {s : State} (h : CellsOk s) : AnswerOk (execRefreshEnd stack pch s) :=
  .ite h h

/-! ## Row -/

theorem rowWord_ok {s : State} (h : CellsOk s) (func : Nat) (k : BitVec 3) (ws : BitVec 5) (wc : Option (BitVec 5))
    (guard : BitVec 3) : AnswerOk (rowWord func k ws wc guard s) := by
  unfold rowWord
  exact issue_ok h (fun g s hs => by simp [hs]) fun g s hs =>
    CellsOk.eachWarp hs fun w rs s hs => by dsimp only; (repeat' split) <;> simp [hs]

theorem execRowPlan_ok (core num : Nat) {s : State} (h : CellsOk s) : AnswerOk (execRowPlan core num s) := by
  unfold execRowPlan
  split
  · exact h
  · next x _ =>
    refine .ite h ?_
    have hc : CellsOk (s.commandActions core x.order x.scope) := h.commandActions
    dsimp only
    generalize s.commandActions core _ _ = u at hc ⊢
    have hp := hc.planOperands (x := x) (isDst := true) (os := x.operands)
    generalize u.planOperands x true _ = plan at hp ⊢
    cases plan with
    | fault d => exact hc.faultRow
    | waits t => exact hp
    | ok os =>
      have hn : CellsOk ((os.flatten.foldl (fun s r => s.noteFrame r.1.pa r.1.size x.part) u).planCoeffs x).state :=
        CellsOk.planCoeffs (.foldl (fun _ _ hs => hs.noteFrame) hc)
      dsimp only
      generalize State.planCoeffs _ x = y at hn ⊢
      cases y with
      | fault t d => exact CellsOk.faultRow (s := t) hn
      | waits t => exact hn
      | done t bs b => exact hn

theorem execRowStackAccept_ok (core num : Nat) {s : State} (h : CellsOk s) :
    AnswerOk (execRowStackAccept core num s) := by
  unfold execRowStackAccept
  split <;> simp [h]

theorem execRowSweep_ok (core num : Nat) {s : State} (h : CellsOk s) : AnswerOk (execRowSweep core num s) := by
  unfold execRowSweep
  split
  · exact h
  · have hw (srcs : List Nat) : CellsOk (srcs.foldl (fun s pa =>
        (rowSectors (s.homeAddr pa)).foldl (fun s n => s.l2WriteBack n) s) s) :=
      .foldl (fun _ _ hs => .foldl (fun _ _ hs => hs.l2WriteBack) hs) h
    refine .ite h (.ite (hw _) ?_)
    dsimp only [answerOk_next]
    refine CellsOk.setRow ?_
    split
    · refine CellsOk.foldl (fun _ _ hs => hs.logEvent) ?_
      simp only [CellsOk]
      exact CellsOk.invalidateRows (hw _)
    · exact (hw _).invalidateRows

theorem execRowStep_ok (core num : Nat) {s : State} (h : CellsOk s) : AnswerOk (execRowStep core num s) := by
  unfold execRowStep
  split
  · exact h
  · next x _ =>
    have hp := h.stepPool (x := x) (st := x.nextStep)
    have hq : CellsOk { s with picks := s.picks.tail } := h
    dsimp only
    generalize s.stepPool x _ = y at hp ⊢
    generalize { s with picks := s.picks.tail } = u at hq ⊢
    refine .ite h (.ite ?_ (.ite hq.setRow (.ite hq hq.noteActivates.doRowStep)))
    cases y with
    | waits t => exact hp
    | fault d => exact h.holdRow
    | ok r => exact CellsOk.doRowStep (.foldl (fun _ _ hs => hs.demandActivate) h)

theorem execRowResume_ok (core num : Nat) {s : State} (h : CellsOk s) : AnswerOk (execRowResume core num s) := by
  unfold execRowResume
  (repeat' split) <;> simp [h]

/-! ## Sync -/

theorem threadWord_ok {s : State} (h : CellsOk s) (rule : WordRule) (guard : BitVec 3) (regs srcs : List Nat)
    (hold : Group → State → Bool) {f : Group → TRef → Thread → State → State}
    (hf : ∀ g r t s, CellsOk s → CellsOk (f g r t s)) : AnswerOk (threadWord rule guard regs srcs hold f s) := by
  unfold threadWord
  exact issue_ok h (fun _ _ hs => hs.fillSources) fun _ _ hs => hs.eachActing fun _ _ _ _ hs => hf _ _ _ _ hs

theorem arrivalWord_ok {s : State} (h : CellsOk s) (wait : Bool) (o : BarFArgs) : AnswerOk (arrivalWord wait o s) :=
  threadWord_ok h _ _ _ _ _ fun _ _ _ _ hs => hs.arrive

theorem execBars_ok {s : State} (h : CellsOk s) (o : BarsArgs) : AnswerOk (execBars o s) := by
  unfold execBars
  refine threadWord_ok h _ _ _ _ _ fun g r t s hs => ?_
  split
  · exact hs.updThread
  · exact hs

theorem execBarrierTimerExpiry_ok (wg bar : Nat) {s : State} (h : CellsOk s) :
    AnswerOk (execBarrierTimerExpiry wg bar s) := by
  unfold execBarrierTimerExpiry
  (repeat' split) <;> simp [h]

theorem execWarm_ok {s : State} (h : CellsOk s) (o : PairQArgs) : AnswerOk (execWarm o s) := by
  unfold execWarm
  exact issue_ok h (fun _ _ hs => hs.fillSources) fun _ _ hs => hs.eachActing fun _ _ _ _ hs => hs.issueAccess

theorem execWarmComplete_ok (op keep : Nat) {s : State} (h : CellsOk s) : AnswerOk (execWarmComplete op keep s) := by
  unfold execWarmComplete
  split
  · next o _ =>
    split
    · next a _ =>
      have hp := h.performRead (core := s.opCore o) (part := s.opPart o) (a := a)
      generalize s.performRead _ _ a = x at hp ⊢
      refine .ite h ?_
      cases x with
      | done t bs b =>
        exact CellsOk.complete (r := .done _ _ _) (CellsOk.foldl (s := t) (fun _ _ hs => hs.armWatch) hp)
      | waits t => exact CellsOk.complete (r := .waits t) hp
      | fault t d => exact CellsOk.complete (r := .fault t d) hp
    · exact h
  · exact h

theorem execWwait_ok {s : State} (h : CellsOk s) (o : G0Args) : AnswerOk (execWwait o s) :=
  threadWord_ok h _ _ _ _ _ fun _ _ _ _ hs => hs.updThread

theorem execSpuriousTrigger_ok (wg warp lane : Nat) {s : State} (h : CellsOk s) :
    AnswerOk (execSpuriousTrigger wg warp lane s) := by simp [execSpuriousTrigger, h]

theorem execWwaitTimeout_ok (wg warp lane : Nat) {s : State} (h : CellsOk s) :
    AnswerOk (execWwaitTimeout wg warp lane s) := by
  simp only [execWwaitTimeout]
  (repeat' split) <;> simp [h]

theorem execWaitv_ok {s : State} (h : CellsOk s) (o : WaitvArgs) : AnswerOk (execWaitv o s) :=
  threadWord_ok h _ _ _ _ _ fun _ _ _ _ hs => hs.waitv

theorem execWaitvEvaluation_ok (wg warp lane : Nat) {s : State} (h : CellsOk s) :
    AnswerOk (execWaitvEvaluation wg warp lane s) := by
  unfold execWaitvEvaluation
  dsimp only
  split
  · next cs all vt d _ site _ =>
    have he := h.evaluate (r := { wg := wg, warp := warp, lane := lane }) (core := s.coreOf wg) (part := s.partOf wg)
      (cs := cs) (met := 0)
    generalize s.evaluate _ _ _ cs 0 = x at he ⊢
    refine .ite h ?_
    cases x with
    | fault t d => exact CellsOk.raise (s := t) he
    | waits t => exact he
    | done t met => exact CellsOk.settleWaitv (s := t) he
  · exact h

theorem execWaitvDeadline_ok (wg warp lane : Nat) {s : State} (h : CellsOk s) :
    AnswerOk (execWaitvDeadline wg warp lane s) := by
  simp only [execWaitvDeadline]
  (repeat' split) <;> simp [h]

theorem execTlwait_ok {s : State} (h : CellsOk s) (o : TlwArgs) : AnswerOk (execTlwait o s) :=
  threadWord_ok h _ _ _ _ _ fun _ _ _ _ hs => hs.tlwait

theorem execTlrd_ok {s : State} (h : CellsOk s) (o : TlrArgs) : AnswerOk (execTlrd o s) :=
  threadWord_ok h _ _ _ _ _ fun _ _ _ _ hs => hs.updThread

theorem execSleep_ok {s : State} (h : CellsOk s) (o : SlpArgs) : AnswerOk (execSleep o s) := by
  unfold execSleep
  exact threadWord_ok h _ _ _ _ _ fun _ _ _ _ hs => .ite hs hs.updThread

theorem execSleepExpiry_ok (wg warp lane : Nat) {s : State} (h : CellsOk s) :
    AnswerOk (execSleepExpiry wg warp lane s) := by
  simp only [execSleepExpiry]
  (repeat' split) <;> simp [h]

/-! ## Tier -/

theorem rangeWord_ok {s : State} (h : CellsOk s) (func : Nat) (o : RangeFArgs) : AnswerOk (rangeWord func o s) := by
  unfold rangeWord
  exact issue_ok h (fun g s hs => by simp [hs]) fun g s hs =>
    CellsOk.eachWarp hs fun w rs s hs => by dsimp only; (repeat' split) <;> simp [hs]

theorem queryWord_ok {s : State} (h : CellsOk s) (kind n : Nat) (o : PairQArgs) : AnswerOk (queryWord kind n o s) := by
  unfold queryWord
  exact issue_ok h (fun g s hs => by simp [hs]) fun g s hs =>
    CellsOk.eachActing hs fun k r t s hs => by split <;> simp [hs]

theorem execTqryOp_ok {s : State} (h : CellsOk s) (o : QOpArgs) : AnswerOk (execTqryOp o s) := by
  unfold execTqryOp
  exact issue_ok h (fun _ _ hs => hs) fun _ _ hs => hs.eachActing fun _ _ _ _ hs => hs.addOp

theorem execQueryComplete_ok (op keep : Nat) {s : State} (h : CellsOk s) : AnswerOk (execQueryComplete op keep s) := by
  unfold execQueryComplete
  (repeat' split) <;> simp [h]

theorem execPoolRemoteRequest_ok (granule : Nat) (excl : Bool) {s : State} (h : CellsOk s) :
    AnswerOk (execPoolRemoteRequest granule excl s) := by
  unfold execPoolRemoteRequest
  refine .ite h ?_
  split
  · exact h
  · exact CellsOk.ite h.giveUp h
  · exact h.giveUp
  · exact h.setGranule
  · exact CellsOk.ite h.flushRange.triggerRange.setGranule h

theorem execPoolGrant_ok (granule : Nat) (excl : Bool) {s : State} (h : CellsOk s) :
    AnswerOk (execPoolGrant granule excl s) := by
  unfold execPoolGrant
  split
  · split
    · exact .ite h (CellsOk.ite h.poolArrives.setGranule.countPath h.poolArrives.setGranule)
    · exact h
  · exact h

theorem execPoolStateChange_ok (granule state : Nat) {s : State} (h : CellsOk s) :
    AnswerOk (execPoolStateChange granule state s) := by
  have hc : CellsOk (s.countPath (s.ownerOf granule) 1 true) := h.countPath
  unfold execPoolStateChange
  refine .ite h ?_
  dsimp only
  generalize s.countPath _ 1 true = u at hc ⊢
  split
  · exact hc.giveUp.setGranule
  · exact hc.poolArrives.setGranule
  · exact hc.poolArrives.setGranule
  · exact hc.poolArrives.setGranule
  · exact hc.setGranule
  · exact hc

theorem execPoolWaitLimitExpiry_ok (op : Nat) {s : State} (h : CellsOk s) :
    AnswerOk (execPoolWaitLimitExpiry op s) := by
  unfold execPoolWaitLimitExpiry
  split
  · exact h
  · next o _ =>
    have hf (d : FaultDetail) : CellsOk (s.settleStore o (.fault s d)) := h.settleStore (r := .fault s d) h
    dsimp only
    split
    · refine .ite h ?_
      split
      · exact hf _
      · exact hf _
      · exact h.failOp.retireFences
    · exact h

theorem execMoveCopyPhase_ok (move : Nat) {s : State} (h : CellsOk s) : AnswerOk (execMoveCopyPhase move s) := by
  unfold execMoveCopyPhase
  split
  · next m _ =>
    have ha := h.acquire (who := engineAgent 8 0 m.id) (part := m.part) (l := m.leaf) (bases := [m.target, m.leaf.pa])
    generalize s.acquire _ _ _ _ = x at ha ⊢
    refine .ite h ?_
    cases x with
    | held => exact h
    | waits t => exact ha
    | fault d =>
      dsimp only
      split
      · exact CellsOk.ite h.faultTier h
      · exact h
  · exact h

theorem execMoveSwitch_ok (move : Nat) {s : State} (h : CellsOk s) : AnswerOk (execMoveSwitch move s) := by
  unfold execMoveSwitch
  split
  · exact .ite h h.drainMove.copyFrame.updMove
  · exact h

theorem execMoveCommit_ok (move : Nat) {s : State} (h : CellsOk s) : AnswerOk (execMoveCommit move s) := by
  unfold execMoveCommit
  split
  · refine .ite h (CellsOk.updMove (CellsOk.triggerMove ?_))
    split
    · exact h.remapPage.updFrame.setTier
    · exact h.remapPage.updFrame
  · exact h

theorem execMoveRetire_ok (move : Nat) {s : State} (h : CellsOk s) : AnswerOk (execMoveRetire move s) := by
  unfold execMoveRetire
  split
  · next m _ =>
    have hl (f : Frame → Frame) : CellsOk (((((s.dropTranslations m.part m.leaf.vbase m.leaf.size).dropFrame m.part m.leaf.pa
        m.leaf.size).triggerMove m).restampLines m (m.leaf.gen + 1)).updFrame m.leaf.pa m.leaf.pa m.leaf.size f) :=
      h.dropTranslations.dropFrame.triggerMove.restampLines.updFrame
    refine .ite h (CellsOk.spaceFrees ?_)
    simp only [CellsOk]
    split
    · exact CellsOk.updTier (hl _)
    · exact hl _
  · exact h

theorem execTierCommandAccept_ok (core num : Nat) {s : State} (h : CellsOk s) :
    AnswerOk (execTierCommandAccept core num s) := by
  unfold execTierCommandAccept
  split
  · exact h
  · exact .ite h (.ite (.ite h.commandActions.closeWindow.setTier h.commandActions.openWindow.setTier)
      h.commandActions.setTier)

theorem execTierOpComplete_ok (core num : Nat) {s : State} (h : CellsOk s) :
    AnswerOk (execTierOpComplete core num s) := by
  unfold execTierOpComplete
  split
  · exact h
  · exact .ite h (.ite h.tierPage (.ite h h.setTier.completeNumber))

theorem execMigrHostReport_ok (core num : Nat) (moved : Bool) {s : State} (h : CellsOk s) :
    AnswerOk (execMigrHostReport core num moved s) := by
  unfold execMigrHostReport
  split
  · exact h
  · exact .ite h (.ite h.setTier.countPath h.setTier)

theorem execCounterHalving_ok {s : State} (h : CellsOk s) : AnswerOk (execCounterHalving s) := .ite h h

theorem execPromotionPolicy_ok (part page : Nat) {s : State} (h : CellsOk s) :
    AnswerOk (execPromotionPolicy part page s) := by
  unfold execPromotionPolicy
  split
  · next p l _ _ =>
    refine .ite h ?_
    dsimp only
    split
    · exact h
    · next t _ =>
      have hm := h.ownMove (part := part) (l := l) (tier := t)
      generalize s.ownMove part l t = x at hm ⊢
      refine .ite h ?_
      cases x with
      | started u => exact hm
      | waits u => exact hm
      | barred => exact h
  · exact h

theorem execFrameRetirement_ok (part page : Nat) {s : State} (h : CellsOk s) :
    AnswerOk (execFrameRetirement part page s) := by
  unfold execFrameRetirement
  split
  · next p l _ _ =>
    have hm := h.ownMove (part := part) (l := l) (tier := tierOf l.pa)
    generalize s.ownMove part l _ = x at hm ⊢
    refine .ite h (.ite h.countPath.updPart ?_)
    cases x with
    | started u => exact CellsOk.updFrame (s := u) hm
    | waits u => exact hm
    | barred => exact h
  · exact h

theorem execManagementPageMove_ok (part page tier frame : Nat) {s : State} (h : CellsOk s) :
    AnswerOk (execManagementPageMove part page tier frame s) := by
  unfold execManagementPageMove
  split
  · exact .ite h (CellsOk.startMove (CellsOk.unpinned (.foldl (fun _ _ hs => hs.updPteByte) h.noteFrame.updFrame)))
  · exact h

theorem execFrameGenerationChange_ok (frame gen : Nat) {s : State} (h : CellsOk s) :
    AnswerOk (execFrameGenerationChange frame gen s) := h.updFrame.triggerRange

theorem execTlbEntryDrop_ok (core page : Nat) {s : State} (h : CellsOk s) : AnswerOk (execTlbEntryDrop core page s) := h

/-! ## Launch -/

theorem execDlaunch_ok {s : State} (h : CellsOk s) (o : DlArgs) : AnswerOk (execDlaunch o s) := by
  unfold execDlaunch
  exact issue_ok h (fun _ _ hs => .ite hs (CellsOk.updGroup (hs.eachWarp fun _ _ _ hs => hs.beginLaunch))) fun _ _ hs => hs

theorem execDescriptorReadComplete_ok (launch : Nat) {s : State} (h : CellsOk s) :
    AnswerOk (execDescriptorReadComplete launch s) := by
  unfold execDescriptorReadComplete
  split
  · exact h
  · next l _ =>
    have hr := (h.commandActions (core := s.coreOf l.wg) (order := 2) (scope := 2)).readDescriptor
      (who := engineAgent 5 (s.coreOf l.wg) l.id) (core := s.coreOf l.wg) (part := l.part) (addr := l.desc)
    refine .ite h ?_
    dsimp only
    generalize State.readDescriptor _ _ _ _ _ = x at hr ⊢
    cases x with
    | waits t => exact hr
    | fault t d =>
      refine CellsOk.settle ?_
      simp only [State.wakeGroups, CellsOk]
      exact CellsOk.raiseThese (s := t) hr
    | ok t d =>
      dsimp only
      split
      · exact hr
      · split
        · exact CellsOk.endLaunch (s := t) hr
        · exact CellsOk.endLaunch (CellsOk.enroll (s := t) hr)

/-! ## Sched -/

theorem execEnq_ok {s : State} (h : CellsOk s) (o : EnqFArgs) : AnswerOk (execEnq o s) := by
  unfold execEnq
  dsimp only
  refine issue_ok h (fun g s hs => ?_) fun g s hs => hs.eachActing fun k r t s hs => ?_
  · generalize State.pushLacks _ g _ _ = lacks
    cases lacks with
    | none => exact hs.fillSources
    | some x => exact hs.fillSources.askPool
  · split
    · exact hs
    · refine .ite hs.raise (.ite hs.updThread ?_)
      split
      · exact hs.pushItem
      · exact hs.updThread

theorem execStq_ok {s : State} (h : CellsOk s) (o : StqFArgs) : AnswerOk (execStq o s) := by
  unfold execStq
  refine issue_ok h (fun g s hs => ?_) fun g s hs => hs.eachActing fun k r t s hs => ?_
  · generalize s.readLacks g _ _ = lacks
    cases lacks with
    | none => exact hs
    | some x => exact hs.askPool
  · split
    · exact hs
    · split
      · exact hs.updThread
      · exact hs.queueHead.updThread

theorem execIdemb_ok {s : State} (h : CellsOk s) (o : G0Args) : AnswerOk (execIdemb o s) :=
  threadWord_ok h _ _ _ _ _ fun _ _ _ _ hs => hs.updThread.editWg

theorem execIdeme_ok {s : State} (h : CellsOk s) (o : G0Args) : AnswerOk (execIdeme o s) :=
  threadWord_ok h _ _ _ _ _ fun _ _ _ _ hs => hs.updThread

theorem execWorkgroupStart_ok (handle stage : Nat) (cores : List Nat) {s : State} (h : CellsOk s) :
    AnswerOk (execWorkgroupStart handle stage cores s) := by
  unfold execWorkgroupStart
  dsimp only
  split
  · exact h
  · split
    · split
      · exact h.askPool
      · refine .ite h ?_
        split
        · exact h.askPool
        · refine .ite ?_ (.ite h (CellsOk.foldl (fun _ _ hs => hs.startEntry) h.assign))
          split
          · exact .ite h h.updCore.startEntry
          · exact .ite h (.ite h.assign.startEntry (.ite h h.assign.updCore))
    · exact h

theorem execStealRequest_ok (core : Nat) {s : State} (h : CellsOk s) : AnswerOk (execStealRequest core s) := by
  unfold execStealRequest
  dsimp only
  split
  · exact h
  · refine .ite h ?_
    split
    · exact h
    · exact h.updCore.updCore

theorem execPreemptionRequest_ok (handle stage : Nat) {s : State} (h : CellsOk s) :
    AnswerOk (execPreemptionRequest handle stage s) := by
  unfold execPreemptionRequest
  split
  · next hp =>
    obtain ⟨part, -, hp⟩ := List.exists_of_findSome?_eq_some hp
    exact h.preempt hp
  · exact h

theorem execDrainBoundExpiry_ok (wg : Nat) {s : State} (h : CellsOk s) : AnswerOk (execDrainBoundExpiry wg s) := by
  unfold execDrainBoundExpiry
  split
  · exact h
  · split
    · exact .ite h h.evict
    · exact h

theorem execWorkgroupSave_ok (wg : Nat) {s : State} (h : CellsOk s) : AnswerOk (execWorkgroupSave wg s) := by
  unfold execWorkgroupSave
  split
  · exact h
  · refine .ite h ?_
    dsimp only
    split
    · exact h.holdPool
    · exact CellsOk.ite h h.reportRecord
    · refine CellsOk.editWg (CellsOk.orderActions ?_)
      simp only [CellsOk]
      exact h.spillAll.engineWrite

theorem execWorkgroupFlush_ok (wg : Nat) {s : State} (h : CellsOk s) : AnswerOk (execWorkgroupFlush wg s) := by
  unfold execWorkgroupFlush
  split
  · exact h
  · exact .ite h (h.loseWindow.memberGone.updWg fun _ _ => wf_nil)

theorem execWorkgroupResume_ok (wg core : Nat) {s : State} (h : CellsOk s) :
    AnswerOk (execWorkgroupResume wg core s) := by
  unfold execWorkgroupResume
  split
  · exact h
  · next w _ =>
    split
    · exact h
    · split
      · split
        · exact h.askPool
        · refine .ite h ?_
          split
          · exact h
          · dsimp only
            generalize (w.place == Place.flushed) = flushed
            rw [answerOk_next, cellsOk_ite]
            cases flushed with
            | true =>
              refine CellsOk.checkEntry (CellsOk.l1Trim ?_)
              simp only [CellsOk]
              exact CellsOk.editWg (h.resumeCaches.withdraw)
            | false =>
              refine CellsOk.foldl (fun _ _ hs => hs.reapply) (CellsOk.l1Trim ?_)
              simp only [CellsOk]
              exact CellsOk.editWg (CellsOk.withdraw (.foldl (fun _ _ hs => hs.updCore.liftTlwait) h.resumeCaches))
      · exact h

theorem execWorkgroupEnd_ok (wg : Nat) {s : State} (h : CellsOk s) : AnswerOk (execWorkgroupEnd wg s) := by
  unfold execWorkgroupEnd
  split
  · exact .ite h.removeWg h
  · exact h

theorem execPipelineComplete_ok (part handle : Nat) {s : State} (h : CellsOk s) :
    AnswerOk (execPipelineComplete part handle s) := by
  unfold execPipelineComplete
  split
  · next p _ _ _ =>
    have hw : CellsOk (p.cores.foldl (fun s c => s.l1WriteBackAll c) s) := .foldl (fun _ _ hs => hs.l1WriteBackAll) h
    dsimp only
    split
    · exact h.askPool
    · refine .ite h (CellsOk.updPart (CellsOk.withdraw ?_))
      split
      · exact hw.engineWrite
      · exact hw
  · exact h

theorem execBandwidthWindowRelease_ok (_part : Nat) {s : State} (h : CellsOk s) :
    AnswerOk (execBandwidthWindowRelease _part s) := h

/-! ## System -/

theorem illegalWord_ok {s : State} (h : CellsOk s) (code : BitVec 8) : AnswerOk (illegalWord code s) := by
  unfold illegalWord
  split
  · trivial
  · exact h.raiseAll.advance.settle

theorem illegalFields_ok {s : State} (h : CellsOk s) (w : Word) : AnswerOk (illegalFields w s) := by
  unfold illegalFields
  split
  · trivial
  · exact .ite (modifierFault_ok h ..) (illegalWord_ok h ..)

theorem execTrap_ok {s : State} (h : CellsOk s) (o : TrapFArgs) : AnswerOk (execTrap o s) := by
  unfold execTrap
  exact issue_ok h (fun _ _ hs => hs) fun _ _ hs => hs.taintActing.mapGroup

theorem execSysc_ok {s : State} (h : CellsOk s) (o : SyscFArgs) : AnswerOk (execSysc o s) := by
  unfold execSysc
  exact issue_ok h (fun _ _ hs => hs.fillSources) fun _ _ hs =>
    (hs.eachActing fun _ _ _ _ hs => .ite hs.updThread hs.addOp).taintActing

theorem execSyscComplete_ok (op : Nat) (result : BitVec 64) (keep : Nat) {s : State} (h : CellsOk s) :
    AnswerOk (execSyscComplete op result keep s) := by
  unfold execSyscComplete
  split
  · split
    · exact .ite h h.orderActions.updPart.finishOp
    · exact h
  · exact h

theorem execFcall_ok {s : State} (h : CellsOk s) (o : G0Args) : AnswerOk (execFcall o s) := by
  unfold execFcall
  exact threadWord_ok h _ _ _ _ _ fun _ _ _ _ hs => .ite hs hs.updThread

theorem execRett_ok {s : State} (h : CellsOk s) (o : G0Args) : AnswerOk (execRett o s) :=
  threadWord_ok h _ _ _ _ _ fun _ _ _ _ hs => hs.rettThread

theorem execS2v_ok {s : State} (h : CellsOk s) (o : S2vFArgs) : AnswerOk (execS2v o s) := by
  unfold execS2v
  refine threadWord_ok h _ _ _ _ _ fun g r t s hs => ?_
  split
  · exact hs
  · exact .ite hs.raise hs.updThread

theorem execV2s_ok {s : State} (h : CellsOk s) (o : V2sFArgs) : AnswerOk (execV2s o s) := by
  unfold execV2s
  exact threadWord_ok h _ _ _ _ _ fun _ _ _ _ hs => .ite hs.raise hs.setSpecial

theorem execTlbi_ok {s : State} (h : CellsOk s) (o : TlbiFArgs) : AnswerOk (execTlbi o s) :=
  threadWord_ok h _ _ _ _ _ fun _ _ _ _ hs => hs.raise

theorem execTrapEntry_ok (wg warp lane : Nat) {s : State} (h : CellsOk s) :
    AnswerOk (execTrapEntry wg warp lane s) := by
  unfold execTrapEntry
  split
  · exact h
  · split
    · exact h
    · refine .ite h (.ite h.watchRecord (.ite h ?_))
      split
      · exact h.trapEntry
      · exact h.trapEntry
      · exact CellsOk.foldl (fun _ _ hs => hs.postGang) h
      · exact h

theorem execFaultRecordQueued_ok (core : Nat) {s : State} (h : CellsOk s) :
    AnswerOk (execFaultRecordQueued core s) := by
  unfold execFaultRecordQueued
  dsimp only
  split
  · exact h.formRecord
  · split
    · exact h.formRecord.updCore
    · exact .ite h.formRecord h.formRecord.updCore.deviceWrite.updPart

theorem resumeOrSkip_ok (skip : Bool) (part seq : Nat) {s : State} (h : CellsOk s) :
    AnswerOk (resumeOrSkip skip part seq s) := by
  have hd : CellsOk (s.dropRecord part seq) := h.dropRecord
  have hr (rs : List TRef) {u : State} (hu : CellsOk u) : CellsOk (rs.foldl (fun s x => s.resumeThread skip x) u) :=
    .foldl (fun _ _ hs => hs.resumeThread) hu
  unfold resumeOrSkip
  split
  · exact h
  · dsimp only
    split
    · exact hr _ hd
    · exact .ite (CellsOk.foldl (fun _ _ hs => .ite hs hs.abandonGang) (hr _ (.ite hd hd.answerGangs)))
        (hr _ (.ite hd hd.answerGangs))
    · exact hd
    · exact hd.resumeWorkgroup
    · exact h

theorem execResumeAction_ok (part seq : Nat) {s : State} (h : CellsOk s) : AnswerOk (execResumeAction part seq s) :=
  resumeOrSkip_ok _ _ _ h

theorem execSkipAction_ok (part seq : Nat) {s : State} (h : CellsOk s) : AnswerOk (execSkipAction part seq s) :=
  resumeOrSkip_ok _ _ _ h

theorem execKillAction_ok (part seq : Nat) {s : State} (h : CellsOk s) : AnswerOk (execKillAction part seq s) := by
  unfold execKillAction
  split
  · exact .ite h.killRecord h
  · exact h

theorem execDeliverAction_ok (part seq : Nat) {s : State} (h : CellsOk s) :
    AnswerOk (execDeliverAction part seq s) := by
  unfold execDeliverAction
  split
  · exact h
  · refine .ite h ?_
    split
    · exact h.dropRecord
    · exact .ite h.killRecord (CellsOk.foldl (fun _ _ hs => hs.deliverThread) (.ite h.dropRecord.editWg h.dropRecord))

theorem execEngineFaultService_ok (part seq : Nat) (stop : Bool) {s : State} (h : CellsOk s) :
    AnswerOk (execEngineFaultService part seq stop s) := by
  have hd : CellsOk (s.dropRecord part seq) := h.dropRecord
  unfold execEngineFaultService
  split
  · exact h
  · dsimp only
    split
    · split
      · exact .ite hd (.ite hd.stopCopy hd.setCopy)
      · exact hd
    · split
      · exact .ite hd (.ite hd.failRow hd.setRow)
      · exact hd
    · split
      · exact .ite hd (.ite hd.setTier.cancelMoves hd.setTier)
      · exact hd
    · exact h

theorem execWatchdogExpiry_ok (wg : Nat) {s : State} (h : CellsOk s) : AnswerOk (execWatchdogExpiry wg s) := by
  unfold execWatchdogExpiry
  split
  · exact h
  · exact .ite h h.leaveGroups.editWg

theorem execTlbInvalidation_ok (part : Nat) (scope : InvScope) {s : State} (h : CellsOk s) :
    AnswerOk (execTlbInvalidation part scope s) := h.dropTranslations.triggerWhere

theorem execServiceCoreAccess_ok (part : Nat) (acc : ServiceAccess) {s : State} (h : CellsOk s) :
    AnswerOk (execServiceCoreAccess part acc s) := by
  unfold execServiceCoreAccess
  split
  · exact h
  · split
    · exact h.serviceLoad
    · exact h.serviceStart
    · exact h

/-! ## Form -/

theorem execIssueGroupFormation_ok (core picker : Nat) {s : State} (h : CellsOk s) :
    AnswerOk (execIssueGroupFormation core picker s) := by
  unfold execIssueGroupFormation
  refine .ite h.applyLate ?_
  dsimp only
  split
  · exact h.applyLate
  · exact h.applyLate.formGroup

theorem execYieldMarkExpiry_ok (wg warp lane : Nat) {s : State} (h : CellsOk s) :
    AnswerOk (execYieldMarkExpiry wg warp lane s) := h.updThread

theorem execCollectiveStallTimeout_ok (wg warp lane : Nat) {s : State} (h : CellsOk s) :
    AnswerOk (execCollectiveStallTimeout wg warp lane s) := by
  unfold execCollectiveStallTimeout
  split
  · exact h
  · split
    · exact h
    · exact .ite h h.updThreads

theorem execCollectiveHoldTimeout_ok (group : Nat) {s : State} (h : CellsOk s) :
    AnswerOk (execCollectiveHoldTimeout group s) := by
  unfold execCollectiveHoldTimeout
  split
  · exact h
  · dsimp only
    split
    · exact .ite h h.mapGroup.settle
    · exact h

/-! ## Host -/

theorem execPackageReset_ok (s : State) : AnswerOk (execPackageReset s) := CellsOk.restart.boot

theorem execThermalReset_ok (die : Nat) (s : State) : AnswerOk (execThermalReset die s) := CellsOk.restart.boot

theorem execPowerLoss_ok (s : State) : AnswerOk (execPowerLoss s) := by
  simp only [execPowerLoss, answerOk_next, CellsOk]
  exact CellsOk.restart

theorem spdmFrom_ok {s : State} (h : CellsOk s) (port need : Nat) {f : State → State} (hf : CellsOk (f s)) :
    AnswerOk (s.spdmFrom port need f) := .ite h (.ite h hf)

theorem execGetVersion_ok (port : Nat) {s : State} (h : CellsOk s) : AnswerOk (execGetVersion port s) :=
  spdmFrom_ok h _ _ h

theorem execGetCapabilities_ok (port : Nat) {s : State} (h : CellsOk s) : AnswerOk (execGetCapabilities port s) :=
  spdmFrom_ok h _ _ h

theorem execNegotiateAlgorithms_ok (port asym hash : Nat) {s : State} (h : CellsOk s) :
    AnswerOk (execNegotiateAlgorithms port asym hash s) :=
  spdmFrom_ok h _ _ (.ite h h)

theorem execGetDigests_ok (port : Nat) {s : State} (h : CellsOk s) : AnswerOk (execGetDigests port s) :=
  spdmFrom_ok h _ _ h

theorem execGetCertificate_ok (port slot : Nat) {s : State} (h : CellsOk s) :
    AnswerOk (execGetCertificate port slot s) :=
  spdmFrom_ok h _ _ h

theorem execChallenge_ok (port nonce : Nat) {s : State} (h : CellsOk s) : AnswerOk (execChallenge port nonce s) :=
  spdmFrom_ok h _ _ h

theorem execGetMeasurements_ok (port index : Nat) {s : State} (h : CellsOk s) :
    AnswerOk (execGetMeasurements port index s) :=
  spdmFrom_ok h _ _ (.ite h (.ite h (by split <;> exact h)))

theorem execDeviceStatusWrite_ok (port fn vf val : Nat) {s : State} (h : CellsOk s) :
    AnswerOk (execDeviceStatusWrite port fn vf val s) := .ite h h

theorem execSemaphoreClaim_ok (port0 port1 : Bool) {s : State} (h : CellsOk s) :
    AnswerOk (execSemaphoreClaim port0 port1 s) := .ite h h

theorem execLeaseRenew_ok (port : Nat) {s : State} (h : CellsOk s) : AnswerOk (execLeaseRenew port s) := .ite h h

theorem execSemaphoreRelease_ok (port : Nat) {s : State} (h : CellsOk s) : AnswerOk (execSemaphoreRelease port s) :=
  .ite h h

theorem execLeaseExpiry_ok {s : State} (h : CellsOk s) : AnswerOk (execLeaseExpiry s) := h

theorem command_ok {s : State} (h : CellsOk s) (port seq : Nat) {f : Option State}
    (hf : ∀ t, f = some t → CellsOk t) : AnswerOk (s.command port seq f) := by
  refine .ite h (.ite h ?_)
  cases f with
  | none => exact h
  | some t => exact (hf t rfl).answer

theorem lifecycle_ok {s : State} (h : CellsOk s) (port seq : Nat) (c : HostCommand) : AnswerOk (s.lifecycle port seq c) :=
  .ite h (.ite h.lookAfter (.ite h h.beginCommand))

theorem execCreatePartition_ok (port seq : Nat) (spec : PartSpec) {s : State} (h : CellsOk s) :
    AnswerOk (execCreatePartition port seq spec s) := lifecycle_ok h ..

theorem execResizeAddResources_ok (port seq part : Nat) (spec : PartSpec) {s : State} (h : CellsOk s) :
    AnswerOk (execResizeAddResources port seq part spec s) := lifecycle_ok h ..

theorem execResizeRemoveCores_ok (port seq part : Nat) (cores : List Nat) {s : State} (h : CellsOk s) :
    AnswerOk (execResizeRemoveCores port seq part cores s) := lifecycle_ok h ..

theorem execResizeRemoveSlices_ok (port seq part : Nat) (slices : List Nat) {s : State} (h : CellsOk s) :
    AnswerOk (execResizeRemoveSlices port seq part slices s) := lifecycle_ok h ..

theorem execResizeShrinkTierShare_ok (port seq part tier share : Nat) {s : State} (h : CellsOk s) :
    AnswerOk (execResizeShrinkTierShare port seq part tier share s) := lifecycle_ok h ..

theorem execDestroyPartition_ok (port seq part : Nat) {s : State} (h : CellsOk s) :
    AnswerOk (execDestroyPartition port seq part s) := lifecycle_ok h ..

theorem execSetPowerLimit_ok (port seq watts : Nat) {s : State} (h : CellsOk s) :
    AnswerOk (execSetPowerLimit port seq watts s) :=
  command_ok h _ _ fun t ht => by
    obtain ⟨-, ht⟩ := Option.ite_none_right_eq_some.1 ht
    cases ht
    exact h

theorem execFirmwareUpdate_ok (port seq version : Nat) {s : State} (h : CellsOk s) :
    AnswerOk (execFirmwareUpdate port seq version s) :=
  command_ok h _ _ fun t ht => by
    cases ht
    exact h

theorem execHostLaunch_ok (port part : Nat) (desc : BitVec 64) {s : State} (h : CellsOk s) :
    AnswerOk (execHostLaunch port part desc s) := by
  have hr := h.readDescriptor (who := engineAgent 5 serviceCore port) (core := serviceCore) (part := part)
    (addr := desc.toNat)
  unfold execHostLaunch
  generalize s.readDescriptor _ _ _ _ = x at hr ⊢
  split
  · exact h
  · refine .ite h ?_
    cases x with
    | waits t => exact hr
    | fault t d => exact CellsOk.answer (s := t) hr
    | ok t d =>
      dsimp only
      split
      · exact CellsOk.answer (s := t) hr
      · exact CellsOk.answer (CellsOk.enroll (s := t) hr)

theorem execCapabilityTableRead_ok (_part : Nat) {s : State} (h : CellsOk s) :
    AnswerOk (execCapabilityTableRead _part s) := .ite h h

theorem execPowerControllerUpdate_ok (factor : Nat) {s : State} (h : CellsOk s) :
    AnswerOk (execPowerControllerUpdate factor s) := .ite h h

theorem execThermalThrottle_ok (_die : Nat) {s : State} (h : CellsOk s) : AnswerOk (execThermalThrottle _die s) := h

theorem execLifetimeCounterFlush_ok {s : State} (h : CellsOk s) : AnswerOk (execLifetimeCounterFlush s) := h

theorem execPartitionSettingWrite_ok (part : Nat) (setting : Setting) {s : State} (h : CellsOk s) :
    AnswerOk (execPartitionSettingWrite part setting s) := h

/-! ## Every word and every event -/

/-- Every word and every event. -/
theorem exec_ok {i : Instr} {s : State} (h : CellsOk s) : AnswerOk (exec i s) := by
  cases i with
  | clauseHeader _ => exact execClauseHeader_ok h ..
  | hint _ | immediateExtension _ | arithmeticPrefix _ | memoryPrefix _ =>
    dsimp only [exec]; exact modifierWord_ok h ..
  | iadd _ | isub _ | imul _ | imulhs _ | imulhu _ | imins _ | imaxs _ | iminu _ | imaxu _ | iaddss _
  | isubss _ | and _ | or _ | xor _ | andn _ | orn _ | xnor _ | shl _ | shr _ | sar _ | rotl _ | rotr _
  | bfez _ | bfes _ => dsimp only [exec]; exact intV3_ok h ..
  | iaddI _ | isubI _ | imulI _ | imulhsI _ | imulhuI _ | iminsI _ | imaxsI _ | iminuI _ | imaxuI _ | iaddssI _
  | isubssI _ | andI _ | orI _ | xorI _ | andnI _ | ornI _ | xnorI _ | shlI _ | shrI _ | sarI _ | rotlI _
  | rotrI _ => dsimp only [exec]; exact intVI_ok h ..
  | popc _ | clz _ | ctz _ | brev _ | bswap _ | mov _ | sext8 _ | sext16 _ | zext8 _ | zext16 _ =>
    dsimp only [exec]; exact intV2_ok h ..
  | bfi _ | fshl _ | bsel _ | imad _ | imadhs _ | imadhu _ | isad _ | idp4 _ | idp4z _ =>
    dsimp only [exec]; exact intThird_ok h ..
  | imadw _ | imadws _ => dsimp only [exec]; exact intThird64_ok h ..
  | movi _ | sel _ => dsimp only [exec]; exact arithWord_ok h ..
  | add64 _ | sub64 _ | shl64 _ | shr64 _ => dsimp only [exec]; exact intPair_ok h ..
  | wadd _ | wsub _ | wmul _ | wand _ | wor _ | wxor _ | wshl _ | wshr _ =>
    dsimp only [exec]; exact warp3_ok h ..
  | wmov _ | wmovi _ | wlea _ => dsimp only [exec]; exact warpWord_ok h ..
  | v2w _ => exact execV2w_ok h ..
  | w2v _ => exact execW2v_ok h ..
  | fadd _ | fsub _ | fmul _ | fmin _ | fmax _ | fminm _ | fmaxm _ | fcpysgn _ | hadd2 _ | hmul2 _ | hmin2 _
  | hmax2 _ | badd2 _ | bmul2 _ | bmin2 _ | bmax2 _ | f2h2 _ | f2b2 _ | fldexp _ =>
    dsimp only [exec]; exact floatV3_ok h ..
  | fabs _ | fneg _ | fsat _ | f2is _ | f2iz _ | is2f _ | iz2f _ | h2fl _ | h2fh _ | b2fl _ | b2fh _ | frnd _
  | fclass _ | fexp _ => dsimp only [exec]; exact floatV2_ok h ..
  | ffma _ | ffms _ | fnma _ | hfma2 _ | bfma2 _ => dsimp only [exec]; exact floatThird_ok h ..
  | rcp _ | rsq _ | sqrt _ | ex2 _ | lg2 _ | sint _ | cost _ | tanh _ | logi _ =>
    dsimp only [exec]; exact sfuWord_ok h ..
  | sfuComplete _ _ => exact execSfuComplete_ok (h := h) ..
  | shfi _ | shfu _ | shfd _ | shfx _ | qbc _ => dsimp only [exec]; exact shuffleWord_ok h ..
  | qswx _ | qswy _ | qswd _ => dsimp only [exec]; exact quadWord_ok h ..
  | vany _ | vall _ | vbal _ | matchX _ | redi _ | redf _ | lmask _ =>
    dsimp only [exec]; exact crossWord_ok h ..
  | sgset _ => exact execSgset_ok h ..
  | ceq _ | cne _ | clt _ | cle _ | cgt _ | cge _ | ctany _ | ctnone _ =>
    dsimp only [exec]; exact compareWord_ok h ..
  | pand _ | por _ | pxor _ | pandn _ => dsimp only [exec]; exact pred3_ok h ..
  | pnot _ | pmov _ | pseti _ => dsimp only [exec]; exact predWord_ok h ..
  | bra _ | call _ | brx _ | callx _ | ret _ => dsimp only [exec]; exact transferWord_ok h ..
  | exit _ => exact execExit_ok h ..
  | demote _ => exact execDemote_ok h ..
  | yield _ => exact execYield_ok h ..
  | nop _ => dsimp only [exec]; exact execNop_ok h ..
  | bkpt _ => exact execBkpt_ok h ..
  | ld8z _ | ld8s _ | ld16z _ | ld16s _ | ld32 _ | ld64 _ | ld128 _ =>
    dsimp only [exec]; exact loadWord_ok h ..
  | ldf32 _ | ldfb16 _ => dsimp only [exec]; exact decodeLoadWord_ok h ..
  | loadComplete _ _ => exact execLoadComplete_ok (h := h) ..
  | registerSpill _ _ _ _ => exact execRegisterSpill_ok (h := h) ..
  | st8 _ | st16 _ | st32 _ | st64 _ | st128 _ => dsimp only [exec]; exact storeWord_ok h ..
  | deferredStorePerform _ => exact execDeferredStorePerform_ok (h := h) ..
  | lds32 _ | lds64 _ | lds128 _ | atsadd _ | atsmax _ => dsimp only [exec]; exact spadLoadWord_ok h ..
  | sts32 _ | sts64 _ | sts128 _ => dsimp only [exec]; exact spadStoreWord_ok h ..
  | spadLoadComplete _ _ => exact execSpadLoadComplete_ok (h := h) ..
  | aadd _ | amins _ | amaxs _ | aminz _ | amaxz _ | aand _ | aor _ | axor _ | aswp _ | acas _ | aincw _
  | adecw _ | afadd _ | aadd64 _ | acas64 _ | aswp64 _ => dsimp only [exec]; exact atomWord_ok h ..
  | atomComplete _ _ => exact execAtomComplete_ok (h := h) ..
  | radd _ | rmins _ | rmaxs _ | rminz _ | rmaxz _ | rand _ | ror _ | rxor _ | rswp _ | rfadd _ | radd64 _ =>
    dsimp only [exec]; exact redmWord_ok h ..
  | fence _ => exact execFence_ok h ..
  | cflush _ | cwb _ | cinv _ => dsimp only [exec]; exact cacheWord_ok h ..
  | pfl2 _ | pfl1 _ => dsimp only [exec]; exact prefetchWord_ok h ..
  | qst _ => exact execQst_ok h ..
  | qsel _ | qerr _ => dsimp only [exec]; exact quantWord_ok h ..
  | sbchk _ => exact execSbchk_ok h ..
  | mta _ => exact execMta_ok h ..
  | qblkComplete _ _ => exact execQblkComplete_ok (h := h) ..
  | gang _ => exact execGang_ok h ..
  | mmas _ | mmag _ => dsimp only [exec]; exact productWord_ok h ..
  | rendezvousAccept _ _ => exact execRendezvousAccept_ok (h := h) ..
  | rendezvousTimeout _ _ => exact execRendezvousTimeout_ok (h := h) ..
  | matrixOpStart _ => exact execMatrixOpStart_ok (h := h) ..
  | matrixKStep _ => exact execMatrixKStep_ok (h := h) ..
  | bFetchFault _ => exact execBFetchFault_ok (h := h) ..
  | matrixReissue _ _ => exact execMatrixReissue_ok (h := h) ..
  | matrixOpComplete _ => exact execMatrixOpComplete_ok (h := h) ..
  | acz _ => exact execAcz_ok h ..
  | acrd _ => exact execAcrd_ok h ..
  | acwr _ => exact execAcwr_ok h ..
  | acst _ | acld _ => dsimp only [exec]; exact tileMemoryWord_ok h ..
  | tileTransferComplete _ _ => exact execTileTransferComplete_ok (h := h) ..
  | mprg _ => exact execMprg_ok h ..
  | mrel _ => exact execMrel_ok h ..
  | cpyin _ | cpyout _ | cpymc _ | cpyq2 _ => dsimp only [exec]; exact copyWord_ok h ..
  | ringdef _ => exact execRingdef_ok h ..
  | awaitf _ => exact execAwaitf_ok h ..
  | rels _ => exact execRels_ok h ..
  | cpyst _ | rowst _ => dsimp only [exec]; exact statusWord_ok h ..
  | copyCommandStart _ => exact execCopyCommandStart_ok (h := h) ..
  | copyTranslationFault _ _ => exact execCopyTranslationFault_ok (h := h) ..
  | copyOpComplete _ _ => exact execCopyOpComplete_ok (h := h) ..
  | multicastDelivery _ _ _ => exact execMulticastDelivery_ok (h := h) ..
  | releaseReportArrival _ => exact execReleaseReportArrival_ok (h := h) ..
  | awaitfService _ _ => exact execAwaitfService_ok (h := h) ..
  | awaitfTimeout _ _ => exact execAwaitfTimeout_ok (h := h) ..
  | rowcpy _ | rowfill _ | rowand _ | rowor _ | rownot _ | rowmaj _ | rowsaxpy _ =>
    dsimp only [exec]; exact rowWord_ok h ..
  | rowPlan _ _ => exact execRowPlan_ok (h := h) ..
  | rowStackAccept _ _ => exact execRowStackAccept_ok (h := h) ..
  | rowSweep _ _ => exact execRowSweep_ok (h := h) ..
  | rowStep _ _ => exact execRowStep_ok (h := h) ..
  | rowResume _ _ => exact execRowResume_ok (h := h) ..
  | perBankRefreshDue _ _ => exact execPerBankRefreshDue_ok (h := h) ..
  | postponedRefreshIssue _ _ => exact execPostponedRefreshIssue_ok (h := h) ..
  | allBankRefresh _ _ => exact execAllBankRefresh_ok (h := h) ..
  | bara _ | barw _ => dsimp only [exec]; exact arrivalWord_ok h ..
  | bars _ => exact execBars_ok h ..
  | warm _ => exact execWarm_ok h ..
  | warmComplete _ _ => exact execWarmComplete_ok (h := h) ..
  | wwait _ => exact execWwait_ok h ..
  | spuriousTrigger _ _ _ => exact execSpuriousTrigger_ok (h := h) ..
  | wwaitTimeout _ _ _ => exact execWwaitTimeout_ok (h := h) ..
  | waitv _ => exact execWaitv_ok h ..
  | waitvEvaluation _ _ _ => exact execWaitvEvaluation_ok (h := h) ..
  | waitvDeadline _ _ _ => exact execWaitvDeadline_ok (h := h) ..
  | tlwait _ => exact execTlwait_ok h ..
  | tlrd _ => exact execTlrd_ok h ..
  | sleep _ => exact execSleep_ok h ..
  | sleepExpiry _ _ _ => exact execSleepExpiry_ok (h := h) ..
  | barrierTimerExpiry _ _ => exact execBarrierTimerExpiry_ok (h := h) ..
  | pin _ | unpin _ | taff _ | migr _ | twin _ => dsimp only [exec]; exact rangeWord_ok h ..
  | pgcnt _ | tqry _ => dsimp only [exec]; exact queryWord_ok h ..
  | tqryOp _ => exact execTqryOp_ok h ..
  | queryComplete _ _ => exact execQueryComplete_ok (h := h) ..
  | tierOpComplete _ _ => exact execTierOpComplete_ok (h := h) ..
  | moveCopyPhase _ => exact execMoveCopyPhase_ok (h := h) ..
  | moveSwitch _ => exact execMoveSwitch_ok (h := h) ..
  | moveCommit _ => exact execMoveCommit_ok (h := h) ..
  | moveRetire _ => exact execMoveRetire_ok (h := h) ..
  | counterHalving => exact execCounterHalving_ok (h := h) ..
  | promotionPolicy _ _ => exact execPromotionPolicy_ok (h := h) ..
  | frameRetirement _ _ => exact execFrameRetirement_ok (h := h) ..
  | poolRemoteRequest _ _ => exact execPoolRemoteRequest_ok (h := h) ..
  | poolGrant _ _ => exact execPoolGrant_ok (h := h) ..
  | poolWaitLimitExpiry _ => exact execPoolWaitLimitExpiry_ok (h := h) ..
  | poolStateChange _ _ => exact execPoolStateChange_ok (h := h) ..
  | enq _ => exact execEnq_ok h ..
  | stq _ => exact execStq_ok h ..
  | idemb _ => exact execIdemb_ok h ..
  | ideme _ => exact execIdeme_ok h ..
  | dlaunch _ => exact execDlaunch_ok h ..
  | descriptorReadComplete _ => exact execDescriptorReadComplete_ok (h := h) ..
  | trap _ => exact execTrap_ok h ..
  | sysc _ => exact execSysc_ok h ..
  | syscComplete _ _ _ => exact execSyscComplete_ok (h := h) ..
  | fcall _ => exact execFcall_ok h ..
  | rett _ => exact execRett_ok h ..
  | s2v _ => exact execS2v_ok h ..
  | v2s _ => exact execV2s_ok h ..
  | tlbi _ => exact execTlbi_ok h ..
  | issueGroupFormation _ _ => exact execIssueGroupFormation_ok (h := h) ..
  | yieldMarkExpiry _ _ _ => exact execYieldMarkExpiry_ok (h := h) ..
  | collectiveStallTimeout _ _ _ => exact execCollectiveStallTimeout_ok (h := h) ..
  | collectiveHoldTimeout _ => exact execCollectiveHoldTimeout_ok (h := h) ..
  | trapEntry _ _ _ => exact execTrapEntry_ok (h := h) ..
  | faultRecordQueued _ => exact execFaultRecordQueued_ok (h := h) ..
  | resumeAction _ _ => exact execResumeAction_ok (h := h) ..
  | skipAction _ _ => exact execSkipAction_ok (h := h) ..
  | deliverAction _ _ => exact execDeliverAction_ok (h := h) ..
  | killAction _ _ => exact execKillAction_ok (h := h) ..
  | engineFaultService _ _ _ => exact execEngineFaultService_ok (h := h) ..
  | watchdogExpiry _ => exact execWatchdogExpiry_ok (h := h) ..
  | tlbInvalidation _ _ => exact execTlbInvalidation_ok (h := h) ..
  | workgroupStart _ _ _ => exact execWorkgroupStart_ok (h := h) ..
  | stealRequest _ => exact execStealRequest_ok (h := h) ..
  | preemptionRequest _ _ => exact execPreemptionRequest_ok (h := h) ..
  | drainBoundExpiry _ => exact execDrainBoundExpiry_ok (h := h) ..
  | workgroupSave _ => exact execWorkgroupSave_ok (h := h) ..
  | workgroupFlush _ => exact execWorkgroupFlush_ok (h := h) ..
  | workgroupResume _ _ => exact execWorkgroupResume_ok (h := h) ..
  | workgroupEnd _ => exact execWorkgroupEnd_ok (h := h) ..
  | pipelineComplete _ _ => exact execPipelineComplete_ok (h := h) ..
  | bandwidthWindowRelease _ => dsimp only [exec]; exact execBandwidthWindowRelease_ok (h := h) ..
  | packageReset => exact execPackageReset_ok ..
  | getVersion _ => exact execGetVersion_ok (h := h) ..
  | getCapabilities _ => exact execGetCapabilities_ok (h := h) ..
  | negotiateAlgorithms _ _ _ => exact execNegotiateAlgorithms_ok (h := h) ..
  | getDigests _ => exact execGetDigests_ok (h := h) ..
  | getCertificate _ _ => exact execGetCertificate_ok (h := h) ..
  | challenge _ _ => exact execChallenge_ok (h := h) ..
  | getMeasurements _ _ => exact execGetMeasurements_ok (h := h) ..
  | deviceStatusWrite _ _ _ _ => exact execDeviceStatusWrite_ok (h := h) ..
  | semaphoreClaim _ _ => exact execSemaphoreClaim_ok (h := h) ..
  | leaseRenew _ => exact execLeaseRenew_ok (h := h) ..
  | semaphoreRelease _ => exact execSemaphoreRelease_ok (h := h) ..
  | leaseExpiry => exact execLeaseExpiry_ok (h := h) ..
  | createPartition _ _ _ => exact execCreatePartition_ok (h := h) ..
  | resizeRemoveCores _ _ _ _ => exact execResizeRemoveCores_ok (h := h) ..
  | resizeRemoveSlices _ _ _ _ => exact execResizeRemoveSlices_ok (h := h) ..
  | resizeShrinkTierShare _ _ _ _ _ => exact execResizeShrinkTierShare_ok (h := h) ..
  | destroyPartition _ _ _ => exact execDestroyPartition_ok (h := h) ..
  | setPowerLimit _ _ _ => exact execSetPowerLimit_ok (h := h) ..
  | firmwareUpdate _ _ _ => exact execFirmwareUpdate_ok (h := h) ..
  | hostLaunch _ _ _ => exact execHostLaunch_ok (h := h) ..
  | capabilityTableRead _ => dsimp only [exec]; exact execCapabilityTableRead_ok (h := h) ..
  | powerControllerUpdate _ => exact execPowerControllerUpdate_ok (h := h) ..
  | thermalThrottle _ => dsimp only [exec]; exact execThermalThrottle_ok (h := h) ..
  | thermalReset _ => dsimp only [exec]; exact execThermalReset_ok ..
  | lifetimeCounterFlush => exact execLifetimeCounterFlush_ok (h := h) ..
  | reservedOpcode _ => dsimp only [exec]; exact illegalWord_ok h ..
  | serviceCoreAccess _ _ => exact execServiceCoreAccess_ok (h := h) ..
  | storeAcknowledgement _ => exact execStoreAcknowledgement_ok (h := h) ..
  | lineEviction _ _ _ => exact execLineEviction_ok (h := h) ..
  | refreshEnd _ _ => exact execRefreshEnd_ok (h := h) ..
  | tierCommandAccept _ _ => exact execTierCommandAccept_ok (h := h) ..
  | frameGenerationChange _ _ => exact execFrameGenerationChange_ok (h := h) ..
  | tlbEntryDrop _ _ => exact execTlbEntryDrop_ok (h := h) ..
  | powerLoss => exact execPowerLoss_ok ..
  | migrHostReport _ _ _ => exact execMigrHostReport_ok (h := h) ..
  | managementPageMove _ _ _ _ => exact execManagementPageMove_ok (h := h) ..
  | partitionSettingWrite _ _ => exact execPartitionSettingWrite_ok (h := h) ..
  | resizeAddResources _ _ _ _ => exact execResizeAddResources_ok (h := h) ..

/-! ## A step -/

theorem stepWord_ok {s : State} (h : CellsOk s) (g : Group) : AnswerOk (s.stepWord g) := by
  unfold State.stepWord
  dsimp only
  split
  · exact h.holdPool.holdGroup
  · split
    · exact fetchFault_ok _ _ h
    · split
      · exact exec_ok h.fetchTlb
      · exact exec_ok h.fetchTlb
      · exact illegalFields_ok h.fetchTlb _

theorem CellsOk.beginClk {s : State} (h : CellsOk s) {core picker : Nat} : CellsOk (s.beginClk core picker) :=
  h.mapWgs fun w hw => by split <;> exact hw

theorem CellsOk.endClk {s : State} (h : CellsOk s) : CellsOk s.endClk := h.mapWgs fun _ hw => hw

theorem stepClk_ok {s : State} (h : CellsOk s) (g : Group) : AnswerOk (s.stepClk g) := by
  have hfirst := stepWord_ok (h.beginClk (core := g.core) (picker := g.picker)) g
  unfold State.stepClk
  generalize State.stepWord _ g = a at hfirst ⊢
  cases a with
  | next t =>
    dsimp only
    split
    · next k _ =>
      split
      · have hsecond := stepWord_ok (s := t) hfirst k
        generalize State.stepWord t k = b at hsecond ⊢
        cases b with
        | next u => exact CellsOk.endClk (s := u) hsecond
        | fault f => trivial
        | refused r => trivial
      · exact CellsOk.endClk (s := t) hfirst
    · exact CellsOk.endClk (s := t) hfirst
  | fault f => trivial
  | refused r => trivial

theorem step_ok {s : State} (h : CellsOk s) : AnswerOk (step s) := by
  have ht : CellsOk s.tick := h.tick
  have hc : CellsOk (chosen s.tick) := ht
  cases hag : s.tick.agenda with
  | cons e rest =>
    rw [step_of_agenda hag]
    refine .ite (exec_ok ?_) trivial
    exact ht
  | nil =>
    cases hcur : s.tick.current with
    | some g =>
      rw [step_of_group hag hcur]
      exact .ite (stepClk_ok hc g) (stepWord_ok hc g)
    | none =>
      cases he : s.tick.wakeGroups.choice with
      | some e =>
        rw [step_of_choice hag hcur he]
        refine exec_ok ?_
        exact ht
      | none =>
        rw [step_of_idle hag hcur he]
        exact ht

/-- Settles O60: every operation of the model that writes a byte keeps the list of cells canonical, and so does every step. -/
theorem everyStepKeepsMemoryCanonical : Obligations.EveryStepKeepsMemoryCanonical := by
  unfold Obligations.EveryStepKeepsMemoryCanonical
  intro s t h hs
  have ht := step_ok h
  rwa [hs] at ht

end Sys2Proof.Safety
end

