-- ==== Sys2Proof/Proofs/Twins.lean ====
section
/-!
Two threads of one name: what a status word does to both, where the statements speak of each.
-/

/- One kernel check at a time: each would take a thread's stack of its own. -/
set_option Elab.async false

namespace Sys2Proof.Proofs

open Sys2Proof Sys2Proof.Machine Sys2Proof.Laws Sys2Proof.Safety Sys2Proof.Claims

/-! ## Two threads of one name

`Alone` says that the group names one member and that every thread in the group has that name; it does not say that only
one thread has it. -/

/-- The package of one thread that is about to run a word. -/
def single : State := State.reset.withFetchWord 32 0

/-- It with a second thread of the name of the first, whose p1 alone differs. -/
def twins : State :=
  { single with
    wgs := single.wgs.map fun w => withThreads w ([true, false].flatMap fun b => w.threads.map (·.setPred 1 b)) }

/-- Their workgroup, and the thread that is found under their name. -/
def twinsWg : Workgroup := twins.wgs.headD (trialWorkgroup 0)
def twin : Thread := twinsWg.threads.headD (startThread 0 false false 0 0 0 0)
def twinName : TRef := ⟨0, 0, 0⟩

theorem alone_twins : Alone twins (trialGroup 0) twinName twinsWg twin := by
  repeat' apply And.intro
  all_goals decide +kernel

theorem ready_twins : Ready twins (trialGroup 0) {} (registers 1 2) := by
  repeat' apply And.intro
  all_goals decide +kernel

/-- CPYST and ROWST for v1, under p1. -/
def statusInto : StatVArgs := { vd := 1, ws := 0, guard := 1 }

/-- v1 of the threads of a state. -/
def v1s (s : State) : List Word := s.wgs.flatMap fun w => w.threads.map (·.reg 1)

/-- v1 of the threads behind an answer. -/
def answeredV1s (a : Answer) : List Word :=
  match a with
  | .next t => v1s t
  | _ => []

/-- What the statements say of a status word under p1 on timeline k, for the status bit of an expired number. -/
def underP1 (k bit : Nat) : State := after twins (trialGroup 0) fun _ t =>
  if t.pred 1 = true then t.setRegs 1 (statusRead twins 0 k bit (twins.warpReg twinName 0)) else t

/-- The word writes both threads, whose name is the same; only one of them has a true predicate. -/
theorem cpyst_twins : answeredV1s (exec (.cpyst statusInto) twins) = [0x40000, 0x40000] ∧
    v1s (underP1 0 18) = [0x40000, 0] := by
  decide +kernel

theorem rowst_twins : answeredV1s (exec (.rowst statusInto) twins) = [0x80000, 0x80000] ∧
    v1s (underP1 1 19) = [0x80000, 0] := by
  decide +kernel

/-- Refutes O36: `Alone` allows a workgroup that lists two threads of one name. ROWST asks the guard of the first and
writes the registers of both; the statement leaves the second, whose predicate is false, as it was. -/
theorem not_rowCommandsTakeANumber : ¬ Obligations.RowCommandsTakeANumber := by
  unfold Obligations.RowCommandsTakeANumber
  intro h
  have hrun : exec (.rowst statusInto) twins = .next (underP1 1 19) :=
    (h twins (trialGroup 0) twinName twinsWg twin alone_twins rfl).2 statusInto ready_twins
  obtain ⟨hboth, hone⟩ := rowst_twins
  rw [hrun] at hboth
  exact absurd (hone.symm.trans hboth) (by decide)

/-- Refutes O34: as for ROWST in O36, CPYST asks the guard of the first of two threads of one name and writes both. -/
theorem not_copyCommandsTakeANumberAndAnEntry : ¬ Obligations.CopyCommandsTakeANumberAndAnEntry := by
  unfold Obligations.CopyCommandsTakeANumberAndAnEntry
  intro h
  have hrun : exec (.cpyst statusInto) twins = .next (underP1 0 18) :=
    (h twins (trialGroup 0) twinName twinsWg twin alone_twins rfl).2 statusInto ready_twins
  obtain ⟨hboth, hone⟩ := cpyst_twins
  rw [hrun] at hboth
  exact absurd (hone.symm.trans hboth) (by decide)

end Sys2Proof.Proofs
end

