-- ==== Sys2Proof/Proofs/Stray.lean ====
section
/-!
A record that is still to be formed and names another core: where it goes, as the statements count a core's records.
-/

/- One kernel check at a time: each would take a thread's stack of its own. -/
set_option Elab.async false

namespace Sys2Proof.Proofs

open Sys2Proof Sys2Proof.Machine Sys2Proof.Laws Sys2Proof.Safety Sys2Proof.Claims

/-! ## A record that names another core

A core's list of records still to be formed is the model's own, and nothing ties the core that a record in it names to
the core that lists it. Where the two differ, the record leaves the one core's lists for the other's. -/

/-- A record in the list of core 0 that names core 1. -/
def strayRecord : FaultRecord :=
  { seq := 0, code := 0, kind := 0, hfail := false, core := 1, slot := 0, warp := 0, lane := 0, pc := 0, addr := 0, info := 0,
    gen := 0, wmask := 0, handle := 0, ref := 0, raised := 0, part := 0, wg := 0, who := [] }

/-- The package of one thread, with that record about to be formed. -/
def straying : State := single.updCore 0 fun c => { c with unformed := [strayRecord] }

/-- The records of core 0, formed and not. -/
def records0 (s : State) : List FaultRecord := (s.core 0).records ++ (s.core 0).unformed

/-- How many of them an answer leaves. -/
def answeredRecords (a : Answer) : Nat :=
  match a with
  | .next t => (records0 t).length
  | _ => 0

/-! ### A store of an outdated generation -/

/-- A byte of the one page, under a generation that its frame does not have. -/
def outdated : Access :=
  { va := 0x100, pa := 0x100, size := 1, leaf := { trialLeaf with gen := 1 }, order := 0, scope := 0 }

/-- A store to it, and the package in which it is outstanding. -/
def outdatedStore : PendingOp :=
  newOp straying (trialGroup 0) twinName twin none (.store outdated [0]) 0 0

def storing : State := withOp outdatedStore straying

theorem performs_outdatedStore : Performs storing outdatedStore := by
  refine ⟨by decide +kernel, by decide +kernel, fun f hf => ?_, by decide +kernel⟩
  rw [List.mem_singleton.1 hf]
  exact trivial

/-- The store's record joins the list while the other leaves it. -/
theorem records_storing : (records0 storing).length = 1 ∧
    answeredRecords (exec (.storeAcknowledgement outdatedStore.id) storing) = 1 := by
  decide +kernel

/-- Refutes O19: the record of a rejected store is not the one that its core's records have gained, where the core lists
a record of another core before it: that one goes to the core that it names. -/
theorem not_storesWriteTheirBytesAndNoOthers : ¬ Obligations.StoresWriteTheirBytesAndNoOthers := by
  unfold Obligations.StoresWriteTheirBytesAndNoOthers
  intro h
  obtain ⟨-, -, hrejects⟩ := h storing outdatedStore outdated [0] rfl rfl (by decide)
  obtain ⟨hstale, -, -⟩ := hrejects twinName (storing.wgs.headD (trialWorkgroup 0)) (Or.inl ⟨performs_outdatedStore, rfl, Or.inl rfl⟩)
    rfl rfl (by decide +kernel)
  obtain ⟨t, hrun, -, -, -, -, -, z, hrecords, -⟩ := hstale (by decide +kernel) (by decide +kernel)
  obtain ⟨hbefore, hafter⟩ := records_storing
  rw [hrun] at hafter
  rw [show storing.opCore outdatedStore = 0 by decide +kernel] at hrecords
  have hlength : (records0 t).length = (records0 storing ++ [z]).length := congrArg List.length hrecords
  rw [List.length_append, hbefore] at hlength
  exact absurd (hlength.symm.trans hafter) (by simp)

/-! ### A copy from a page that is not mapped -/

/-- A CPYOUT of four bytes to an address that no page maps, number 1 of core 0. -/
def farCopyOut : CopyOp :=
  { core := 0, num := 1, wg := 0, warp := 0, kind := 1, cmd := [2 ^ 30, 4, 0, 0], order := 0, scope := 0, reserved := false,
    ring := 0, slot := 0, phase := false, ident := 0, stage := .running, fault := 0, partial_ := false, dropped := 0,
    exc := 0, units := 0, fmt := none, shape := [], deliver := [], data := [], snap := none, handle := 0, pipeStage := 0,
    cohort := 0, homeSlot := 0, issuedBy := 0, part := 0, window := 4 }

/-- The package in which it runs. -/
def copying : State := { straying with copies := [farCopyOut] }

/-- The operation stops at a page that is not present, and core 0 still has its one record. -/
def stopsFar (r : CopyRun) : Bool :=
  match r with
  | .fault s op d => op.core == 0 && d.code == 0x11 && decide (0 < s.cores.length) && (records0 s).length == 1
  | _ => false

theorem stopsFar_of {r : CopyRun} (h : stopsFar r = true) : ∃ s op d, r = .fault s op d ∧ op.core = 0 ∧
    d.code = 0x11 ∧ 0 < s.cores.length ∧ (records0 s).length = 1 := by
  cases r with
  | fault s op d => exact ⟨s, op, d, rfl, by simpa [stopsFar, and_assoc] using h⟩
  | done s op => simp [stopsFar] at h
  | waits s op => simp [stopsFar] at h

/-- The operation's record joins the list while the other leaves it. -/
theorem records_copying : stopsFar (copying.runCopy farCopyOut 0) = true ∧
    answeredRecords (exec (.copyTranslationFault 0 1) copying) = 1 := by
  decide +kernel

/-- Refutes O35: as for O19, the record of a translation fault is not what its core's records have gained, where the core
lists a record of another core before it. -/
theorem not_copyOperationsRunAndComplete : ¬ Obligations.CopyOperationsRunAndComplete := by
  unfold Obligations.CopyOperationsRunAndComplete
  intro h
  obtain ⟨hstops, hafter⟩ := records_copying
  obtain ⟨s, op, d, hrun, hcore, hcode, hlt, hbefore⟩ := stopsFar_of hstops
  obtain ⟨-, -, -, -, -, hfault⟩ := h.2.2.1 copying s 0 1 farCopyOut op rfl rfl
  obtain ⟨t, z, hexec, -, hrecords, -⟩ := hfault d rfl hrun (Or.inl hcode) hcore hlt
  rw [hexec] at hafter
  have hlength : (records0 t).length = (records0 s ++ [z]).length := congrArg List.length hrecords
  rw [List.length_append, hbefore] at hlength
  exact absurd (hlength.symm.trans hafter) (by simp)

end Sys2Proof.Proofs
end

