-- ==== Sys2Proof/Proofs/Prefetch.lean ====
section
/-!
Words of one member that check an address: cache operations, which leave an access, and prefetches, which bring in a
sector and a line as the core reads them already.
-/

/- One kernel check at a time: each would take a thread's stack of its own. -/
set_option Elab.async false

namespace Sys2Proof.Proofs

open Sys2Proof Sys2Proof.Machine Sys2Proof.Laws Sys2Proof.Safety Sys2Proof.Claims

/-! ## The one member of a group -/

theorem alone_eachActing {s : State} {g : Group} {r : TRef} {w : Workgroup} {th : Thread} (ha : Alone s g r w th)
    (acts : Thread → Bool) (f : Nat → TRef → Thread → State → State) :
    s.eachActing g acts f = if acts th then f s.nextId r th s else s := by
  simp only [State.eachActing, alone_active ha, List.foldl_cons, List.foldl_nil, alone_thread ha]

theorem guard_false_eq (t : Thread) (gd : BitVec 3) : t.guard gd false = t.pred gd.toNat := by
  simp [Thread.guard]

/-! ## Workgroups and warps of a state whose workgroups have changed one by one -/

theorem wg?_of_map {s t : State} {Y : Workgroup → Workgroup} (hw : t.wgs = s.wgs.map Y) (hid : ∀ v, (Y v).id = v.id)
    (id : Nat) : t.wg? id = (s.wg? id).map Y := by
  simp only [State.wg?, hw, List.find?_map]
  congr 2
  funext v
  simp [hid]

theorem advance_wg? (s : State) (g : Group) (id : Nat) :
    (s.advance g).wg? id = (s.wg? id).map fun w => withThreads w (workedThreads g (fun _ t => t) w) :=
  wg?_of_map (advance_wgs s g) (fun _ => rfl) id

@[simp] theorem advance_warpReg (s : State) (g : Group) (r : TRef) (n : Nat) : (s.advance g).warpReg r n = s.warpReg r n := by
  simp only [State.warpReg, State.warp?, advance_wg?]
  cases s.wg? r.wg <;> rfl

@[simp] theorem advance_coreOf (s : State) (g : Group) (id : Nat) : (s.advance g).coreOf id = s.coreOf id := by
  simp only [State.coreOf, advance_wg?]
  cases s.wg? id <;> rfl

@[simp] theorem advance_partOf (s : State) (g : Group) (id : Nat) : (s.advance g).partOf id = s.partOf id := by
  simp only [State.partOf, advance_wg?]
  cases s.wg? id <;> rfl

theorem alone_coreOf {s : State} {g : Group} {r : TRef} {w : Workgroup} {th : Thread} (ha : Alone s g r w th) :
    s.coreOf r.wg = w.core := by
  simp [State.coreOf, ha.2.1]

theorem alone_partOf {s : State} {g : Group} {r : TRef} {w : Workgroup} {th : Thread} (ha : Alone s g r w th) :
    s.partOf r.wg = w.part := by
  simp [State.partOf, ha.2.1]

/-! ## A word whose effect is on its one member -/

theorem raise_late {t : Thread} (h : t.late = none) (d : FaultDetail) (site : Site) : (t.raise d site).late = none := by
  by_cases hex : t.executes = true
  · exact (raise_of_executes hex h d site).2.1
  · rw [Thread.raise, if_neg hex, h]

/-- What is left of the issue, whatever the effect of the word has changed besides. -/
theorem ready_effect {s : State} {g : Group} {rule : WordRule} {regs : List Nat} (h : Ready s g rule regs)
    {fill : Group → State → State} {hold : Group → State → Bool} {effect : Group → State → State}
    (hf : fill g s = s) (hh : hold g s = false) {P : State} (he : effect g (s.advance g) = P) {X : Workgroup → Workgroup}
    (hw : P.wgs = s.wgs.map X) (hg : P.groups = updateWhere (fun x => x.id == g.id) (behindWord g) s.groups)
    (ht : P.time = s.time) (hl : ∀ w ∈ s.wgs, ∀ t ∈ (X w).threads, t.late = none) :
    Machine.issue rule regs fill hold effect s = .next { P with
      wgs := s.wgs.map fun w => withThreads (X w) ((X w).threads.map (landed s g (X w))),
      groups := groupsAfter s g (s.wgs.map X) } := by
  rw [ready_issue h hf hh, he, settle_general h hw hg ht hl]

theorem ready_updThread {s : State} {g : Group} {rule : WordRule} {regs : List Nat} (h : Ready s g rule regs)
    {r : TRef} {w : Workgroup} {th : Thread} (ha : Alone s g r w th) {fill : Group → State → State}
    {hold : Group → State → Bool} {effect : Group → State → State} {f : Thread → Thread}
    (hf : fill g s = s) (hh : hold g s = false) (he : effect g (s.advance g) = (s.advance g).updThread r f)
    (hl : ∀ t, t.late = none → (f t).late = none) :
    Machine.issue rule regs fill hold effect s = .next (after s g fun _ t => f t) := by
  have hA := alone_advance ha
  rw [updThread_eq_mapGroup hA.2.2.2.2.2, advance_mapGroup (F := fun _ t => f t) (fun _ _ => rfl)] at he
  rw [ready_issue h hf hh, he, settle_placed h]
  · rfl
  · intro v hv t ht
    obtain ⟨t0, ht0, rfl⟩ := List.mem_map.1 ht
    have h0 := (h.2.2.2.2.2 v hv t0 ht0).1
    split_ifs
    · exact hl _ h0
    · exact h0

theorem ready_nothing {s : State} {g : Group} {rule : WordRule} {regs : List Nat} (h : Ready s g rule regs)
    {fill : Group → State → State} {hold : Group → State → Bool} {effect : Group → State → State}
    (hf : fill g s = s) (hh : hold g s = false) (he : effect g (s.advance g) = s.advance g) :
    Machine.issue rule regs fill hold effect s = .next (after s g fun _ t => t) :=
  ready_mapGroup h hf hh (he.trans (mapGroup_id fun _ _ _ _ _ => rfl).symm) (fun _ _ => rfl) fun _ _ => rfl

theorem ready_parks {s : State} {g : Group} {rule : WordRule} {regs : List Nat} (h : Ready s g rule regs)
    {r : TRef} {w : Workgroup} {th : Thread} (ha : Alone s g r w th) {fill : Group → State → State}
    {hold : Group → State → Bool} {effect : Group → State → State} {d : FaultDetail}
    (hf : fill g s = s) (hh : hold g s = false) (he : effect g (s.advance g) = (s.advance g).raise r d (g.site g.pc)) :
    Machine.issue rule regs fill hold effect s = .next (parkedAt s g d) :=
  ready_updThread h ha hf hh he fun _ ht => raise_late ht _ _

/-! ## The checks of an access (R156) -/

theorem checkAccess_eq (s : State) (core part : Nat) (va : DWord) (n : Nat) (need : Rights) :
    s.checkAccess core part va n need = checked s core part va n need := by
  unfold State.checkAccess checked State.translate State.faultGen
  by_cases hrange : va.toNat ≥ 2 ^ 57
  · simp only [hrange, if_true]
    rfl
  simp only [hrange, if_false, bne_iff_ne]
  split
  · rfl
  cases s.findLeaf core part va.toNat with
  | error c => simp
  | ok l =>
    have hrights : (!need.granted l) = ((need.r && !l.r) || (need.w && !l.w) || (need.x && !l.x)) := by
      simp only [Rights.granted, Bool.not_and, Bool.not_or, Bool.not_not]
    simp only [hrights]
    by_cases hr : (need.r && !l.r || need.w && !l.w || need.x && !l.x) = true
    · simp only [hr, if_true]
      rfl
    · by_cases hf : 7 ≤ l.format <;> simp only [hr, hf, if_true, if_false] <;> rfl

theorem translate_of_checked {s : State} {core part : Nat} {va : DWord} {n : Nat} {need : Rights} {l : Leaf}
    (h : checked s core part va n need = .ok l) : s.translate core part va need = .ok l := by
  rw [← checkAccess_eq] at h
  unfold State.checkAccess at h
  split_ifs at h
  cases ht : s.translate core part va need with
  | error c => simp [ht] at h
  | ok m => simpa [ht] using h

/-- A check that fails at a single byte is one that the translation fails. -/
theorem translate_of_refused {s : State} {core part : Nat} {va : DWord} {need : Rights} {d : FaultDetail}
    (h : checked s core part va 1 need = .error d) : ∃ c, s.translate core part va need = .error c := by
  rw [← checkAccess_eq] at h
  unfold State.checkAccess at h
  split_ifs at h with hrange hodd
  · exact ⟨_, if_pos hrange⟩
  · simp [Nat.mod_one] at hodd
  · cases ht : s.translate core part va need with
    | error c => exact ⟨c, rfl⟩
    | ok m => simp [ht] at h

theorem findLeaf_under (x s : State) (core part va : Nat) : (under x s).findLeaf core part va = s.findLeaf core part va := by
  unfold State.findLeaf State.walk
  rw [show (under x s).tlbHit core part va = s.tlbHit core part va from rfl,
    show (under x s).rootOf part = s.rootOf part from rfl]
  simp only [walkFrom_under]

theorem checked_under (x s : State) (core part : Nat) (va : DWord) (n : Nat) (need : Rights) :
    checked (under x s) core part va n need = checked s core part va n need := by
  unfold checked
  rw [findLeaf_under]

@[simp] theorem advance_checked (s : State) (g : Group) (core part : Nat) (va : DWord) (n : Nat) (need : Rights) :
    checked (s.advance g) core part va n need = checked s core part va n need :=
  checked_under (s.advance g) s core part va n need

/-! ## The TLBs change nothing that an issue depends on -/

theorem advance_tlbInsert (s : State) (g : Group) (core part : Nat) (l : Leaf) :
    (s.advance g).tlbInsert core part l = (s.tlbInsert core part l).advance g := by
  have h := tlbInsert_under (s.advance g) s core part l
  obtain ⟨fs, cs, ts, ht⟩ := tlbInsert_eq s core part l
  rw [ht] at h ⊢
  exact h

theorem ready_tlbInsert {s : State} {g : Group} {rule : WordRule} {regs : List Nat} (h : Ready s g rule regs)
    (core part : Nat) (l : Leaf) : Ready (s.tlbInsert core part l) g rule regs := by
  obtain ⟨fs, cs, ts, ht⟩ := tlbInsert_eq s core part l
  rw [ht]
  exact h

theorem alone_tlbInsert {s : State} {g : Group} {r : TRef} {w : Workgroup} {th : Thread} (h : Alone s g r w th)
    (core part : Nat) (l : Leaf) : Alone (s.tlbInsert core part l) g r w th := by
  obtain ⟨fs, cs, ts, ht⟩ := tlbInsert_eq s core part l
  rw [ht]
  exact h

theorem tlbInsert_withOp (op : PendingOp) (s : State) (core part : Nat) (l : Leaf) :
    (withOp op s).tlbInsert core part l = withOp op (s.tlbInsert core part l) := by
  have hnote : (withOp op s).noteFrame l.pa l.size part = withOp op (s.noteFrame l.pa l.size part) := by
    unfold State.noteFrame State.mapFrame
    rw [show (withOp op s).frame? l.pa = s.frame? l.pa from rfl]
    split
    · split
      · rfl
      · split
        · rfl
        · split <;> rfl
    · rfl
  unfold State.tlbInsert
  dsimp only
  rw [hnote]
  generalize s.noteFrame l.pa l.size part = t
  rw [show ∀ f, (withOp op t).updCore core f = withOp op (t.updCore core f) from fun _ => rfl,
    show (withOp op t).core core = t.core core from rfl]
  split
  · rfl
  · generalize t.updCore core _ = t'
    rw [show (withOp op t').l2tlb = t'.l2tlb from rfl]
    split <;> rfl

theorem after_tlbInsert (s : State) (g : Group) (F : Workgroup → Thread → Thread) (core part : Nat) (l : Leaf) :
    (after s g F).tlbInsert core part l = after (s.tlbInsert core part l) g F := by
  have h := tlbInsert_under (after s g F) s core part l
  obtain ⟨fs, cs, ts, ht⟩ := tlbInsert_eq s core part l
  rw [ht] at h ⊢
  exact h

/-! ## An access of the one member -/

/-- The address that the member forms stands before and behind the word. -/
theorem advance_address (s : State) (g : Group) (r : TRef) (th : Thread) (pc : DWord) (mode : Bool) (wb : BitVec 5)
    (vo : BitVec 6) : (s.advance g).address g r { th with pc := pc } mode wb vo = s.address g r th mode wb vo := by
  unfold State.address
  rw [advance_warpReg]
  rfl

/-- An operation that counts on no flag changes no thread. -/
theorem alone_addOp_unflagged {s : State} {g : Group} {rule : WordRule} {regs : List Nat} (h : Ready s g rule regs)
    {r : TRef} {w : Workgroup} {th : Thread} (ha : Alone s g r w th) (k : OpKind) (d n : Nat) :
    ((s.advance g).addOp g r none s.nextId k d n).settle g.id = afterOp s g (newOp s g r th none k d n) := by
  have hA := alone_advance ha
  have hth := alone_thread hA
  have hops : ((s.advance g).addOp g r none s.nextId k d n) =
      { (s.advance g).updThread r (fun t => t.addFlag none) with
        ops := s.ops ++ [newOp s g r th none k d n], nextId := s.nextId + 1 } := by
    unfold State.addOp
    simp only [hth]
    rfl
  rw [hops, updThread_eq_mapGroup hA.2.2.2.2.2, advance_mapGroup (F := fun _ t => t.addFlag none) (fun _ _ => rfl)]
  refine settle_general (X := fun w => withThreads w (workedThreads g (fun _ t => t.addFlag none) w))
    (P := { placed s (s.wgs.map fun w => withThreads w (workedThreads g (fun _ t => t.addFlag none) w))
      (updateWhere (fun x => x.id == g.id) (behindWord g) s.groups) with
        ops := s.ops ++ [newOp s g r th none k d n], nextId := s.nextId + 1 }) h rfl rfl rfl ?_
  intro v hv t ht
  obtain ⟨t0, ht0, rfl⟩ := List.mem_map.1 ht
  have h0 := (h.2.2.2.2.2 v hv t0 ht0).1
  split_ifs <;> exact h0

/-- The same behind a translation that the TLBs have taken in. -/
theorem settle_issued {s : State} {g : Group} {rule : WordRule} {regs : List Nat} (h : Ready s g rule regs)
    {r : TRef} {w : Workgroup} {th : Thread} (ha : Alone s g r w th) (l : Leaf) (k : OpKind) (d n : Nat) :
    (((s.tlbInsert w.core w.part l).advance g).addOp g r none s.nextId k d n).settle g.id =
      issued s g r w th none l k d n := by
  have hsettle := alone_addOp_unflagged (ready_tlbInsert h w.core w.part l) (alone_tlbInsert ha w.core w.part l) k d n
  have hafter : issued s g r w th none l k d n =
      afterOp (s.tlbInsert w.core w.part l) g (newOp s g r th none k d n) := by
    unfold issued afterOp
    rw [tlbInsert_withOp, after_tlbInsert]
  rw [hafter]
  obtain ⟨fs, cs, ts, ht⟩ := tlbInsert_eq s w.core w.part l
  rw [ht] at hsettle ⊢
  exact hsettle

/-- The effect of a cache operation on the one member. -/
theorem alone_cacheEffect {s : State} {g : Group} {r : TRef} {w : Workgroup} {th : Thread} (ha : Alone s g r w th)
    (func : Nat) (need : Rights) (o : McArgs) :
    ((s.advance g).eachActing g (fun t => t.guard o.guard false) fun word r t s =>
      let va := s.address g r t o.mode o.wb o.vo
      if t.isHelper then match checkRange va 1 with
        | some d => s.raise r d (g.site g.pc)
        | none => s
      else s.issueAccess g r none word va 1 need 0 2 (.cache func) 0 0) =
    if th.pred o.guard.toNat = true then
      if th.isHelper = true then match checkRange (s.address g r th o.mode o.wb o.vo) 1 with
        | some d => (s.advance g).raise r d (g.site g.pc)
        | none => s.advance g
      else match checked s w.core w.part (s.address g r th o.mode o.wb o.vo) 1 need with
        | .error d => (s.advance g).raise r d (g.site g.pc)
        | .ok l => (((s.tlbInsert w.core w.part l).advance g).addOp g r none s.nextId
            (.cache func (reaching (s.address g r th o.mode o.wb o.vo) 1 l 0 2)) 0 0)
    else s.advance g := by
  rw [alone_eachActing (alone_advance ha)]
  simp only [State.issueAccess, advance_address, advance_coreOf, advance_partOf, alone_coreOf ha, alone_partOf ha,
    checkAccess_eq, advance_checked, advance_tlbInsert, guard_false_eq]
  rfl

theorem isHelper_iff (t : Thread) : t.isHelper = true ↔ t.status = .helper := by
  simp [Thread.isHelper]

theorem cacheWord_alone {s : State} {g : Group} {r : TRef} {w : Workgroup} {th : Thread} (ha : Alone s g r w th)
    (func : Nat) (need : Rights) {o : McArgs} (h : Ready s g { ext := true } (addressed o.mode o.vo)) :
    cacheWord func need o s = .next (if th.pred o.guard.toNat = true then
      written s g r w th (s.address g r th o.mode o.wb o.vo) 1 need fun l =>
        .cache func (reaching (s.address g r th o.mode o.wb o.vo) 1 l 0 2)
      else after s g fun _ t => t) := by
  have he := alone_cacheEffect ha func need o
  have hf (w : WordRule) (acts : Thread → Bool) (srcs : List Nat) := ready_fillSources h w acts srcs
  unfold cacheWord written
  by_cases hg : th.pred o.guard.toNat = true
  case neg =>
    rw [if_neg hg] at he ⊢
    exact ready_nothing h (hf ..) rfl he
  rw [if_pos hg] at he ⊢
  by_cases hh : th.status = .helper
  case pos =>
    rw [if_pos ((isHelper_iff th).2 hh)] at he
    rw [if_pos hh]
    unfold checkRange at he
    by_cases hr : 2 ^ 57 ≤ (s.address g r th o.mode o.wb o.vo).toNat
    · rw [if_pos hr] at he ⊢
      exact ready_parks h ha (hf ..) rfl he
    · rw [if_neg hr, if_neg (by simp [Nat.mod_one])] at he ⊢
      exact ready_nothing h (hf ..) rfl he
  case neg =>
    rw [if_neg (fun x => hh ((isHelper_iff th).1 x))] at he
    rw [if_neg hh]
    cases hc : checked s w.core w.part (s.address g r th o.mode o.wb o.vo) 1 need with
    | error d =>
      rw [hc] at he
      exact ready_parks h ha (hf ..) rfl he
    | ok l =>
      rw [hc] at he
      refine (ready_issue h (hf ..) rfl).trans (congrArg Host.Outcome.next ((congrArg (State.settle · g.id) he).trans ?_))
      exact settle_issued h ha l _ 0 0

/-! ## Bookkeeping of the tiers -/

/-- The counters of frames, the activates of the stacks, the lifetime counts and the errors still to come may differ; no
byte of the package does. -/
def Booked (s t : State) : Prop :=
  ∃ fs as lf dm, t = { s with frames := fs, activates := as, lifetime := lf, damage := dm }

theorem booked_refl (s : State) : Booked s s := ⟨_, _, _, _, rfl⟩

theorem Booked.trans {s t u : State} (h : Booked s t) (k : Booked t u) : Booked s u := by
  obtain ⟨_, _, _, _, rfl⟩ := h
  obtain ⟨_, _, _, _, rfl⟩ := k
  exact ⟨_, _, _, _, rfl⟩

theorem booked_mapFrame (s : State) (pa : Nat) (f : Frame → Frame) : Booked s (s.mapFrame pa f) := by
  unfold State.mapFrame
  split
  · exact ⟨_, _, _, _, rfl⟩
  · exact booked_refl s

theorem booked_countAccess (s : State) (pa n : Nat) (write : Bool) : Booked s (s.countAccess pa n write) :=
  booked_mapFrame ..

theorem booked_demandActivate (s : State) (pa : Nat) : Booked s (s.demandActivate pa) := ⟨_, _, _, _, rfl⟩

theorem booked_noteCorrection (s : State) (u : Nat) : Booked s (s.noteCorrection u) := by
  let source := if tierOf (u * 64) = 0 then stackOf (u * 64) else 7 + tierOf (u * 64)
  let counted : State :=
    { s with lifetime := { s.lifetime with corrections := bump source 1 s.lifetime.corrections } }
  have hcounted : Booked s counted := ⟨_, _, _, _, rfl⟩
  exact (hcounted.trans (booked_mapFrame counted (u * 64) fun f => { f with errors := f.errors + 1 })).trans
    ⟨_, _, _, _, rfl⟩

theorem booked_correctUnits (s : State) (units : List Nat) (one : Nat) (fold : BitVec 16) (open_ : Bool)
    (good : Nat → Bool) : Booked s (s.correctUnits units one fold open_ good) := by
  unfold State.correctUnits
  induction units.zipIdx.filter _ generalizing s with
  | nil => exact booked_refl s
  | cons u us ih => exact (booked_noteCorrection s u.1).trans (ih _)

/-- A fill that needs no room leaves all but L2 and the books as they were. -/
theorem l2Fill_booked {s : State} {n : Nat} (h : (s.l2Sector? n).isSome = true ∨ RoomInL2 s n) (fold : BitVec 16)
    (open_ : Bool) : ∃ u l2, Booked s u ∧ s.l2Fill n fold open_ = { u with l2 := l2 } := by
  cases hx : s.l2Sector? n with
  | some x => exact ⟨s, s.l2, booked_refl s, l2Fill_of_present hx ..⟩
  | none =>
    have hroom : RoomInL2 s n := h.resolve_left (by simp [hx])
    unfold State.l2Fill
    rw [hx, l2Room_of_room hroom]
    refine ⟨_, _, ?_, rfl⟩
    exact ((booked_demandActivate ..).trans ((booked_countAccess ..).trans (booked_correctUnits ..))).trans ⟨_, _, _, _, rfl⟩

/-! ## A line comes into L1 -/

theorem l1Renew_of_fresh {s : State} {core pa : Nat} {gen : BitVec 16} (h : FreshLine s core pa gen) :
    s.l1Renew core (pa / 128) gen = s := by
  unfold State.l1Renew
  split
  · rfl
  · rw [if_pos (by simpa using h _ ‹_›)]

theorem l1Room_of_room {s : State} {core pa : Nat} {gen : BitVec 16} (h : LineRoom s core pa gen) :
    s.l1Room core (pa / 128) = s := by
  obtain ⟨-, hroom⟩ := h
  unfold State.l1Room
  split
  · rfl
  · rename_i habsent
    have hlen := hroom.resolve_left habsent
    have hnone : (s.core core).l1.length - (s.l1Capacity core - 1) = 0 := by omega
    unfold State.l1Trim
    rw [hnone]
    rfl

/-- The bytes of a line as L1 takes them in: those that it holds, or that no marked unit covers. -/
def lineBytes (s : State) (core n : Nat) : List (Nat × Byte × Bool) :=
  ((List.range 128).filter fun i =>
    (s.l1Byte? core (n * 128 + i)).isSome || (s.poisonAt (n * 128 + i) 1).isNone).map fun i =>
      (i, s.coreByte core (n * 128 + i), ((s.core core).l1Line? n).any fun l => l.bytes.any fun b => b.1 == i && b.2.2)

/-- A line of a page as L1 takes it in. -/
def lineOf (s : State) (core n : Nat) (l : Leaf) : L1Line :=
  { line := n, cls := l.cls, gen := l.gen, fold := l.fold, open_ := l.open_, bytes := lineBytes s core n }

theorem l1Fill_of_room {s : State} {core pa : Nat} {l : Leaf} (h : LineRoom s core pa l.gen) :
    s.l1Fill core (pa / 128) l = s.updCore core fun c =>
      { c with l1 := lineOf s core (pa / 128) l :: c.l1.filter (·.line != pa / 128) } := by
  unfold State.l1Fill
  rw [l1Renew_of_fresh h.1, l1Room_of_room h]
  rfl

theorem core_updCore_other {s : State} {m n : Nat} (h : m ≠ n) (f : Core → Core) : (s.updCore n f).core m = s.core m := by
  simp [State.core, State.updCore, List.getD_eq_getElem?_getD, h.symm]

theorem core_updCore_of_lt {s : State} {n : Nat} (h : n < s.cores.length) (f : Core → Core) :
    (s.updCore n f).core n = f (s.core n) := by
  simp [State.core, State.updCore, List.getD_eq_getElem?_getD, h]

theorem updCore_of_ge {s : State} {n : Nat} (h : s.cores.length ≤ n) (f : Core → Core) : s.updCore n f = s := by
  unfold State.updCore
  rw [List.modify_eq_self h]

theorem find?_beq_of_mem {l : List Nat} {i : Nat} (h : i ∈ l) : l.find? (· == i) = some i := by
  cases hf : l.find? (· == i) with
  | none => exact absurd (List.find?_eq_none.1 hf i h) (by simp)
  | some x =>
    have hx : (x == i) = true := List.find?_some (p := (· == i)) hf
    rw [eq_of_beq hx]

theorem find?_lineBytes (s : State) (core n : Nat) {i : Nat} (hi : i < 128) :
    ((lineBytes s core n).find? (·.1 == i)).map (·.2.1) =
      if ((s.l1Byte? core (n * 128 + i)).isSome || (s.poisonAt (n * 128 + i) 1).isNone) = true
      then some (s.coreByte core (n * 128 + i)) else none := by
  unfold lineBytes
  rw [List.find?_map, Option.map_map]
  split
  case isTrue h =>
    exact congrArg (Option.map _) (find?_beq_of_mem (List.mem_filter.2 ⟨List.mem_range.2 hi, by exact h⟩))
  case isFalse h =>
    rw [Option.map_eq_none_iff, List.find?_eq_none]
    intro x hmem heq
    have hx : x = i := eq_of_beq heq
    subst hx
    exact h (List.mem_filter.1 hmem).2

theorem core_l1_cons {c : Core} {x : L1Line} {n : Nat} (hx : x.line = n) (m : Nat) :
    ({ c with l1 := x :: c.l1.filter (·.line != n) } : Core).l1Line? m = if m = n then some x else c.l1Line? m := by
  unfold Core.l1Line?
  rw [List.find?_cons]
  split
  case h_1 h => rw [if_pos (by rw [← hx]; exact (eq_of_beq h).symm)]
  case h_2 h =>
    have hne : m ≠ n := by rintro rfl; simp [hx] at h
    rw [if_neg hne, List.find?_filter]
    congr 1
    funext y
    by_cases hy : y.line = m <;> simp [hy, hne]

/-- What L1 reads once a line has come in. -/
theorem l1Byte?_cons {s : State} {core n : Nat} {x : L1Line} (hx : x.line = n) (hc : core < s.cores.length) (a : Nat) :
    (s.updCore core fun c => { c with l1 := x :: c.l1.filter (·.line != n) }).l1Byte? core a =
      if a / 128 = n then (x.bytes.find? (·.1 == a % 128)).map (·.2.1) else s.l1Byte? core a := by
  unfold State.l1Byte?
  rw [core_updCore_of_lt hc, core_l1_cons hx]
  by_cases h : a / 128 = n
  · simp only [if_pos h]
  · simp only [if_neg h]

theorem coreByte_congr {s t : State} {m a : Nat} (ho : t.ops = s.ops) (hm : t.moves = s.moves)
    (hb : (s.early? m a) = none → (t.l1Byte? m a).getD (t.l2Byte a) = (s.l1Byte? m a).getD (s.l2Byte a)) :
    t.coreByte m a = s.coreByte m a := by
  have hhome : t.homeAddr = s.homeAddr := by
    funext pa
    unfold State.homeAddr State.moveAt?
    rw [hm]
  have hbyte : t.earlyByte m a = s.earlyByte m a := by
    funext o
    unfold State.earlyByte
    rw [hhome]
  have hearly : t.early? m a = s.early? m a := by
    unfold State.early?
    rw [ho, hbyte]
  unfold State.coreByte
  rw [hearly]
  cases he : s.early? m a with
  | none => exact hb he
  | some b => rfl

/-- What a line brings into L1 is what the core has read there before. -/
theorem l1Fill_coreByte {s : State} {core pa : Nat} {l : Leaf} (h : LineRoom s core pa l.gen) (m a : Nat) :
    (s.l1Fill core (pa / 128) l).coreByte m a = s.coreByte m a := by
  rw [l1Fill_of_room h]
  by_cases hc : core < s.cores.length
  case neg => rw [updCore_of_ge (Nat.le_of_not_lt hc)]
  refine coreByte_congr rfl rfl fun he => ?_
  change Option.getD _ (s.l2Byte a) = _
  by_cases hm : m = core
  case neg => simp only [State.l1Byte?, core_updCore_other hm]
  subst hm
  rw [l1Byte?_cons (n := pa / 128) (x := lineOf s m (pa / 128) l) rfl hc]
  split
  case isFalse => rfl
  case isTrue hline =>
    have ha : pa / 128 * 128 + a % 128 = a := by omega
    change Option.getD (((lineBytes s m (pa / 128)).find? _).map _) _ = _
    rw [find?_lineBytes s m (pa / 128) (Nat.mod_lt _ (by decide)), ha]
    split
    case isTrue => 
      rw [State.coreByte, he]
      rfl
    case isFalse hclean =>
      have : s.l1Byte? m a = none := by
        cases hb : s.l1Byte? m a with
        | none => rfl
        | some b => simp [hb] at hclean
      rw [this]

/-! ## What a fetch leaves as it was -/

/-- The workgroups, groups, operations and moves and the clock stay, and every byte as it is read and held. -/
structure Fetched (s t : State) : Prop where
  wgs : t.wgs = s.wgs
  groups : t.groups = s.groups
  ops : t.ops = s.ops
  time : t.time = s.time
  coreByte : ∀ m a, t.coreByte m a = s.coreByte m a
  tierByte : ∀ a, t.tierByte a = s.tierByte a

theorem Fetched.trans {s t u : State} (h : Fetched s t) (k : Fetched t u) : Fetched s u where
  wgs := k.wgs.trans h.wgs
  groups := k.groups.trans h.groups
  ops := k.ops.trans h.ops
  time := k.time.trans h.time
  coreByte m a := (k.coreByte m a).trans (h.coreByte m a)
  tierByte a := (k.tierByte a).trans (h.tierByte a)

theorem tlbInsert_l1 (s : State) (core part : Nat) (l : Leaf) (m : Nat) :
    ((s.tlbInsert core part l).core m).l1 = (s.core m).l1 := by
  have hnote : ∀ n, (s.noteFrame l.pa l.size part).core n = s.core n := by
    intro n
    unfold State.noteFrame State.mapFrame
    split
    · split
      · rfl
      · split
        · rfl
        · split <;> rfl
    · rfl
  have hupd : ∀ (t : State) (f : List TlbEntry → List TlbEntry),
      ((t.updCore core fun c => { c with tlb := f c.tlb }).core m).l1 = (t.core m).l1 := by
    intro t f
    by_cases hm : m = core
    · subst hm
      by_cases hc : m < t.cores.length
      · rw [core_updCore_of_lt hc]
      · rw [updCore_of_ge (Nat.le_of_not_lt hc)]
    · rw [core_updCore_other hm]
  unfold State.tlbInsert
  dsimp only
  rw [← hnote]
  split
  · rfl
  · split
    · exact hupd _ fun t => (_ :: t).take 256
    · exact hupd _ fun t => (_ :: t).take 256

theorem l1Byte?_of_l1 {s t : State} {m : Nat} (h : (t.core m).l1 = (s.core m).l1) (a : Nat) :
    t.l1Byte? m a = s.l1Byte? m a := by
  simp only [State.l1Byte?, Core.l1Line?, h]

theorem fetched_tlbInsert (s : State) (core part : Nat) (l : Leaf) : Fetched s (s.tlbInsert core part l) := by
  have hl1 (m a : Nat) := l1Byte?_of_l1 (tlbInsert_l1 s core part l m) a
  obtain ⟨fs, cs, ts, h⟩ := tlbInsert_eq s core part l
  rw [h] at hl1 ⊢
  exact ⟨rfl, rfl, rfl, rfl, fun m a => coreByte_congr rfl rfl fun _ => by rw [hl1]; rfl, fun _ => rfl⟩

theorem plain_roomOrHeld {s : State} {pa n : Nat} {l : Leaf} (h : Plain s pa n l) :
    (s.l2Sector? (pa / 128)).isSome = true ∨ RoomInL2 s (pa / 128) := by
  obtain ⟨-, hsec⟩ := h
  cases hx : s.l2Sector? (pa / 128) with
  | some x => exact Or.inl rfl
  | none =>
    simp only [hx] at hsec
    exact Or.inr hsec.1

/-- A plain fill of a sector changes L2 and the books. -/
theorem plain_l2Fill_booked {s : State} {pa n : Nat} {l : Leaf} (h : Plain s pa n l) :
    ∃ u l2, Booked s u ∧ s.l2Fill (pa / 128) l.fold l.open_ = { u with l2 := l2 } :=
  l2Fill_booked (plain_roomOrHeld h) ..

theorem plain_l2Fill_tierByte {s : State} {pa n : Nat} {l : Leaf} (h : Plain s pa n l) (a : Nat) :
    (s.l2Fill (pa / 128) l.fold l.open_).tierByte a = s.tierByte a := by
  obtain ⟨u, l2, ⟨_, _, _, _, rfl⟩, hfill⟩ := plain_l2Fill_booked h
  rw [hfill]
  rfl

theorem plain_l2Fill_sector {s : State} {pa n : Nat} {l : Leaf} (h : Plain s pa n l) :
    ((s.l2Fill (pa / 128) l.fold l.open_).l2Sector? (pa / 128)).isSome = true := by
  obtain ⟨-, hsec⟩ := h
  cases hx : s.l2Sector? (pa / 128) with
  | some x => rw [l2Fill_of_present hx, hx]; rfl
  | none =>
    simp only [hx] at hsec
    obtain ⟨hroom, hdamage, hunits⟩ := hsec
    rw [l2Sector?_l2Fill_of_absent hx hroom hdamage hunits]
    rfl

/-- A sector that L2 brings in plain reads as before, and so does every other. -/
theorem plain_l2Fill_l2Byte {s : State} {pa n : Nat} {l : Leaf} (h : Plain s pa n l) (a : Nat) :
    (s.l2Fill (pa / 128) l.fold l.open_).l2Byte a = s.l2Byte a := by
  have htier := plain_l2Fill_tierByte h a
  obtain ⟨-, hsec⟩ := h
  cases hx : s.l2Sector? (pa / 128) with
  | some x => rw [l2Fill_of_present hx]
  | none =>
    simp only [hx] at hsec
    obtain ⟨hroom, hdamage, hunits⟩ := hsec
    by_cases ha : a / 128 = pa / 128
    · have hbyte := sectorOfTier_getD s (pa / 128) (a % 128) l.fold l.open_ (Nat.mod_lt _ (by decide))
      rw [l2Byte_eq_of_absent (s := s) (ha ▸ hx), State.l2Byte, ha, l2Sector?_l2Fill_of_absent hx hroom hdamage hunits]
      dsimp only
      rw [hbyte]
      congr 1; omega
    · have hother : (s.l2Fill (pa / 128) l.fold l.open_).l2Sector? (a / 128) = s.l2Sector? (a / 128) := by
        rw [State.l2Sector?, l2Fill_l2_of_absent hx hroom hdamage hunits, List.find?_append]
        simp [State.l2Sector?, sectorOfTier, Ne.symm ha]
      unfold State.l2Byte
      rw [hother, htier]

theorem fetched_l2Fill {s : State} {pa n : Nat} {l : Leaf} (h : Plain s pa n l) :
    Fetched s (s.l2Fill (pa / 128) l.fold l.open_) := by
  have hl2 := plain_l2Fill_l2Byte h
  obtain ⟨u, l2, ⟨_, _, _, _, rfl⟩, hfill⟩ := plain_l2Fill_booked h
  rw [hfill] at hl2 ⊢
  exact ⟨rfl, rfl, rfl, rfl, fun m a => coreByte_congr rfl rfl fun _ => by rw [hl2]; rfl, fun _ => rfl⟩

theorem fetched_l1Fill {s : State} {core pa : Nat} {l : Leaf} (h : LineRoom s core pa l.gen) :
    Fetched s (s.l1Fill core (pa / 128) l) := by
  have hb := l1Fill_coreByte h
  rw [l1Fill_of_room h] at hb ⊢
  exact ⟨rfl, rfl, rfl, rfl, hb, fun _ => rfl⟩

/-! ## Prefetches (R166) -/

section
variable {s : State} {core part : Nat} {va : DWord} {l : Leaf} (hl : checked s core part va 1 { r := true } = .ok l)
include hl

theorem prefetch_idle (h : ¬ Granted s (reaching va 1 l 0 2) false ∨ s.isCleared (s.homeAddr (reaching va 1 l 0 2).pa) = true)
    (intoL1 : Bool) : s.prefetch core part va intoL1 = s := by
  unfold State.prefetch
  rw [translate_of_checked hl]
  change (if _ then s else if s.isCleared (s.homeAddr (reaching va 1 l 0 2).pa) = true then s else _) = s
  rcases h with h | h
  · refine if_pos ?_
    rw [Granted, not_and_or, Bool.not_eq_true, Bool.not_eq_true] at h
    rw [Bool.or_eq_true, Bool.not_eq_true', Bool.not_eq_true']
    exact h
  · rw [if_pos h, ite_self]

theorem prefetch_fetches (hg : Granted s (reaching va 1 l 0 2) false)
    (hc : s.isCleared (s.homeAddr (reaching va 1 l 0 2).pa) = false) (intoL1 : Bool) :
    s.prefetch core part va intoL1 =
      (let n := s.homeAddr (reaching va 1 l 0 2).pa / 128
      let t := (s.tlbInsert core part l).l2Fill n l.fold l.open_
      if (t.poisonAt (n * 128) 128).isSome = true then s else if intoL1 = true then t.l1Fill core n l else t) := by
  unfold State.prefetch
  rw [translate_of_checked hl]
  change (if _ then s else if s.isCleared (s.homeAddr (reaching va 1 l 0 2).pa) = true then s else _) = _
  obtain ⟨hserved, hgen⟩ := hg
  rw [if_neg, if_neg (by simp [hc])]
  · rfl
  · rw [Bool.or_eq_true, Bool.not_eq_true', Bool.not_eq_true', not_or, Bool.not_eq_false, Bool.not_eq_false]
    exact ⟨hserved, hgen⟩

end

theorem prefetch_refused {s : State} {core part : Nat} {va : DWord} {d : FaultDetail}
    (h : checked s core part va 1 { r := true } = .error d) (intoL1 : Bool) : s.prefetch core part va intoL1 = s := by
  obtain ⟨c, hc⟩ := translate_of_refused h
  unfold State.prefetch
  rw [hc]

/-- A sector that L2 holds with a marked unit. -/
theorem poisonAt_of_held {s : State} {n : Nat} {x : L2Sector} (hx : s.l2Sector? n = some x)
    (hbad : ∃ u ∈ x.bad, u.1 / 2 = n) : (s.poisonAt (n * 128) 128).isSome = true := by
  obtain ⟨u, hu, hn⟩ := hbad
  have hline : n * 128 / 128 = n := by omega
  unfold State.poisonAt
  rw [hline, hx]
  simp only [Option.isSome_map, List.find?_isSome]
  refine ⟨u, hu, ?_⟩
  simp only [Bool.and_eq_true, decide_eq_true_eq]
  omega

theorem checkDamaged_of_poison {s : State} {u : Nat} (hpoison : ∃ x ∈ s.poison, x.1 = u)
    (hclear : s.isCleared (u * 64) = false) (fold : BitVec 16) (open_ : Bool) (hit : Option Poison) :
    ∃ p, s.checkDamaged u fold open_ hit = some p := by
  obtain ⟨x, hx, rfl⟩ := hpoison
  obtain ⟨y, hy⟩ := Option.isSome_iff_exists.1 (List.find?_isSome (p := (·.1 == x.1)).2 ⟨x, hx, by simp⟩)
  refine ⟨y.2, ?_⟩
  simp only [State.checkDamaged, State.checkUnit, hclear, hy, Bool.false_eq_true, if_false]

/-- The sector that a fill appends, and its marked units. -/
theorem l2Fill_appends {s : State} {n : Nat} (habsent : s.l2Sector? n = none) (hroom : RoomInL2 s n) (fold : BitVec 16)
    (open_ : Bool) : ∃ x, (s.l2Fill n fold open_).l2 = s.l2 ++ [x] ∧ x.sector = n ∧
      x.bad = [n * 2, n * 2 + 1].filterMap fun u => ((s.demandActivate (n * 128)).checkDamaged u fold open_
        (damageOf ((s.demandActivate (n * 128)).damage.headD (0, 0, 0)) (u % 2))).map fun p => (u, p) := by
  unfold State.l2Fill
  rw [habsent, l2Room_of_room hroom]
  simp only [correctUnits_l2, State.countAccess, mapFrame_l2]
  exact ⟨_, rfl, rfl, rfl⟩

/-- A poisoned unit of a page that is not cleared is marked in the sector that L2 brings in. -/
theorem l2Fill_marks {s : State} {n : Nat} (habsent : s.l2Sector? n = none) (hroom : RoomInL2 s n)
    (hpoison : ∃ u ∈ s.poison, u.1 / 2 = n) (hclear : s.isCleared (n * 128) = false) (fold : BitVec 16) (open_ : Bool) :
    ∃ x, (s.l2Fill n fold open_).l2Sector? n = some x ∧ ∃ u ∈ x.bad, u.1 / 2 = n := by
  obtain ⟨u, hu, hn⟩ := hpoison
  have hpage : (s.demandActivate (n * 128)).isCleared (u.1 * 64) = false := by
    have hsame : u.1 * 64 / 4096 = n * 128 / 4096 := by omega
    change s.cleared.contains _ = _
    rw [hsame]
    exact hclear
  have hmem : u.1 ∈ [n * 2, n * 2 + 1] := by
    simp only [List.mem_cons, List.not_mem_nil, or_false]
    omega
  obtain ⟨x, hl2, hsector, hbad⟩ := l2Fill_appends habsent hroom fold open_
  refine ⟨x, ?_, ?_⟩
  · rw [State.l2Sector?] at habsent ⊢
    rw [hl2, List.find?_append, habsent, Option.none_or, List.find?_cons_of_pos (by simp [hsector])]
  · obtain ⟨p, hp⟩ := checkDamaged_of_poison (s := s.demandActivate (n * 128)) ⟨u, hu, rfl⟩ hpage fold open_
      (damageOf ((s.demandActivate (n * 128)).damage.headD (0, 0, 0)) (u.1 % 2))
    exact ⟨(u.1, p), hbad ▸ List.mem_filterMap.2 ⟨u.1, hmem, by rw [hp]; rfl⟩, hn⟩

theorem l1Capacity_congr {s t : State} (h : t.wgs = s.wgs) (core : Nat) : t.l1Capacity core = s.l1Capacity core := by
  unfold State.l1Capacity
  rw [h]

theorem advance_l1Capacity (s : State) (g : Group) (core : Nat) : (s.advance g).l1Capacity core = s.l1Capacity core := by
  unfold State.l1Capacity
  rw [advance_wgs, List.find?_map]
  simp only [Option.map_map]
  rfl

theorem lineRoom_congr {s t : State} {core pa : Nat} {gen : BitVec 16} (hl1 : (t.core core).l1 = (s.core core).l1)
    (hcap : t.l1Capacity core = s.l1Capacity core) (h : LineRoom s core pa gen) : LineRoom t core pa gen := by
  unfold LineRoom FreshLine Core.l1Line? at h ⊢
  rw [hl1, hcap]
  exact h

theorem plain_l2Fill_cores {s : State} {pa n : Nat} {l : Leaf} (h : Plain s pa n l) :
    (s.l2Fill (pa / 128) l.fold l.open_).cores = s.cores := by
  obtain ⟨u, l2, ⟨_, _, _, _, rfl⟩, hfill⟩ := plain_l2Fill_booked h
  rw [hfill]

theorem tlbInsert_cores_length (s : State) (core part : Nat) (l : Leaf) :
    (s.tlbInsert core part l).cores.length = s.cores.length := by
  have hnote : (s.noteFrame l.pa l.size part).cores = s.cores := by
    unfold State.noteFrame State.mapFrame
    split
    · split
      · rfl
      · split
        · rfl
        · split <;> rfl
    · rfl
  unfold State.tlbInsert
  dsimp only
  rw [← hnote]
  split
  · rfl
  · split <;> exact List.length_modify ..

theorem l1Fill_sector {s : State} {core pa : Nat} {l : Leaf} (h : LineRoom s core pa l.gen) (n : Nat) :
    (s.l1Fill core (pa / 128) l).l2Sector? n = s.l2Sector? n := by
  rw [l1Fill_of_room h]
  rfl

theorem l1Fill_line {s : State} {core pa : Nat} {l : Leaf} (h : LineRoom s core pa l.gen) (hc : core < s.cores.length) :
    (((s.l1Fill core (pa / 128) l).core core).l1Line? (pa / 128)).isSome = true := by
  rw [l1Fill_of_room h, core_updCore_of_lt hc, core_l1_cons (n := pa / 128) (x := lineOf s core (pa / 128) l) rfl, if_pos rfl]
  rfl

/-- A prefetch of a plain sector: all bytes stay, the sector is in L2, and the line in L1 if it is to be. -/
theorem prefetch_plain {s : State} {core part : Nat} {va : DWord} {l : Leaf} {intoL1 : Bool}
    (hl : checked s core part va 1 { r := true } = .ok l) (hg : Granted s (reaching va 1 l 0 2) false)
    (hc : s.isCleared (s.homeAddr (reaching va 1 l 0 2).pa) = false)
    (hplain : Plain (s.tlbInsert core part l) (s.homeAddr (reaching va 1 l 0 2).pa / 128 * 128) 128 l)
    (hroom : intoL1 = true → LineRoom s core (s.homeAddr (reaching va 1 l 0 2).pa) l.gen) :
    Fetched s (s.prefetch core part va intoL1) ∧
      ((s.prefetch core part va intoL1).l2Sector? (s.homeAddr (reaching va 1 l 0 2).pa / 128)).isSome = true ∧
      (intoL1 = true → core < s.cores.length → (((s.prefetch core part va intoL1).core core).l1Line?
        (s.homeAddr (reaching va 1 l 0 2).pa / 128)).isSome = true) := by
  rw [prefetch_fetches hl hg hc]
  generalize s.homeAddr (reaching va 1 l 0 2).pa = pa at hplain hroom ⊢
  have hn : pa / 128 * 128 / 128 = pa / 128 := by omega
  have hpoison := plain_l2Fill_poisonAt hplain
  have hfetched := (fetched_tlbInsert s core part l).trans (fetched_l2Fill hplain)
  have hsector := plain_l2Fill_sector hplain
  have hcores := plain_l2Fill_cores hplain
  rw [hn] at hpoison hfetched hsector hcores
  dsimp only
  rw [hpoison, if_neg (by simp)]
  cases intoL1 with
  | false => exact ⟨hfetched, hsector, fun h => absurd h (by simp)⟩
  | true =>
    have hroom' : LineRoom ((s.tlbInsert core part l).l2Fill (pa / 128) l.fold l.open_) core pa l.gen := by
      refine lineRoom_congr ?_ (l1Capacity_congr hfetched.wgs core) (hroom rfl)
      rw [State.core, hcores]
      exact tlbInsert_l1 s core part l core
    refine ⟨hfetched.trans (fetched_l1Fill hroom'), (l1Fill_sector hroom' _).symm ▸ hsector, fun _ hlt => ?_⟩
    refine l1Fill_line hroom' ?_
    rw [hcores, tlbInsert_cores_length]
    exact hlt

/-- A prefetch of a sector with a marked unit does nothing. -/
theorem prefetch_marked {s : State} {core part : Nat} {va : DWord} {l : Leaf} (intoL1 : Bool)
    (hl : checked s core part va 1 { r := true } = .ok l)
    (hm : (∃ x, s.l2Sector? (s.homeAddr (reaching va 1 l 0 2).pa / 128) = some x ∧
        ∃ u ∈ x.bad, u.1 / 2 = s.homeAddr (reaching va 1 l 0 2).pa / 128) ∨
      (s.l2Sector? (s.homeAddr (reaching va 1 l 0 2).pa / 128) = none ∧
        RoomInL2 s (s.homeAddr (reaching va 1 l 0 2).pa / 128) ∧
        ∃ u ∈ s.poison, u.1 / 2 = s.homeAddr (reaching va 1 l 0 2).pa / 128)) :
    s.prefetch core part va intoL1 = s := by
  by_cases hg : Granted s (reaching va 1 l 0 2) false
  case neg => exact prefetch_idle hl (Or.inl hg) intoL1
  cases hc : s.isCleared (s.homeAddr (reaching va 1 l 0 2).pa) with
  | true => exact prefetch_idle hl (Or.inr hc) intoL1
  | false =>
    rw [prefetch_fetches hl hg hc]
    generalize s.homeAddr (reaching va 1 l 0 2).pa = pa at hm hc ⊢
    dsimp only
    refine if_pos ?_
    obtain ⟨fs, cs, ts, ht⟩ := tlbInsert_eq s core part l
    rw [ht]
    rcases hm with ⟨x, hx, hbad⟩ | ⟨habsent, hroom, hpoison⟩
    · rw [l2Fill_of_present (s := { s with frames := fs, cores := cs, l2tlb := ts }) (x := x) hx]
      exact poisonAt_of_held (x := x) hx hbad
    · have hpage : s.isCleared (pa / 128 * 128) = false := by
        have hsame : pa / 128 * 128 / 4096 = pa / 4096 := by omega
        rw [State.isCleared, hsame]
        exact hc
      obtain ⟨x, hx, hbad⟩ := l2Fill_marks (s := { s with frames := fs, cores := cs, l2tlb := ts }) habsent hroom hpoison
        hpage l.fold l.open_
      exact poisonAt_of_held hx hbad

/-! ## The words -/

section
variable {s : State} {g : Group} {r : TRef} {w : Workgroup} {th : Thread} (ha : Alone s g r w th) {o : McArgs}
  (h : Ready s g { ext := true } (addressed o.mode o.vo)) (intoL1 : Bool)
include ha

/-- The effect of a prefetch on the one member. -/
theorem alone_prefetchEffect : ((s.advance g).eachActing g (fun t => t.guard o.guard false) fun _ r t s =>
      s.prefetch (s.coreOf r.wg) (s.partOf r.wg) (s.address g r t o.mode o.wb o.vo) intoL1) =
    if th.pred o.guard.toNat = true then
      (s.advance g).prefetch w.core w.part (s.address g r th o.mode o.wb o.vo) intoL1 else s.advance g := by
  rw [alone_eachActing (alone_advance ha)]
  simp only [advance_address, advance_coreOf, advance_partOf, alone_coreOf ha, alone_partOf ha, guard_false_eq]
  rfl

include h

theorem prefetchWord_unguarded (hp : th.pred o.guard.toNat = false) :
    prefetchWord intoL1 o s = .next (after s g fun _ t => t) := by
  unfold prefetchWord
  exact ready_nothing h (ready_fillSources h ..) rfl ((alone_prefetchEffect ha intoL1).trans (if_neg (by simp [hp])))

theorem prefetchWord_idle (hi : (s.advance g).prefetch w.core w.part (s.address g r th o.mode o.wb o.vo) intoL1 =
    s.advance g) : prefetchWord intoL1 o s = .next (after s g fun _ t => t) := by
  unfold prefetchWord
  refine ready_nothing h (ready_fillSources h ..) rfl ((alone_prefetchEffect ha intoL1).trans ?_)
  rw [hi, ite_self]

theorem prefetchWord_fetches (hp : th.pred o.guard.toNat = true)
    (hf : Fetched (s.advance g) ((s.advance g).prefetch w.core w.part (s.address g r th o.mode o.wb o.vo) intoL1)) :
    prefetchWord intoL1 o s = .next
      { (s.advance g).prefetch w.core w.part (s.address g r th o.mode o.wb o.vo) intoL1 with
        wgs := (after s g fun _ t => t).wgs, groups := (after s g fun _ t => t).groups } := by
  unfold prefetchWord
  refine ready_effect h (ready_fillSources h ..) rfl ((alone_prefetchEffect ha intoL1).trans (if_pos hp))
    (X := fun w => withThreads w (workedThreads g (fun _ t => t) w)) (hf.wgs.trans (advance_wgs s g)) hf.groups hf.time ?_
  intro v hv t ht
  obtain ⟨t0, ht0, rfl⟩ := List.mem_map.1 ht
  have h0 := (h.2.2.2.2.2 v hv t0 ht0).1
  split_ifs <;> exact h0

end

@[simp] theorem advance_granted (s : State) (g : Group) (a : Access) (write : Bool) :
    Granted (s.advance g) a write = Granted s a write := rfl

@[simp] theorem advance_plain (s : State) (g : Group) (pa n : Nat) (l : Leaf) :
    Plain (s.advance g) pa n l = Plain s pa n l := rfl

/-- The bytes that the cores read depend on the operations, the moves, the L1s and L2 with its tiers. -/
theorem fetched_sameBytes {s P : State} {g : Group} (hf : Fetched (s.advance g) P) (ws : List Workgroup) (gs : List Group) :
    SameBytes { s with wgs := ws } { P with wgs := ws, groups := gs } := by
  refine ⟨fun m a => ?_, hf.tierByte, rfl⟩
  have hbefore : (s.advance g).coreByte m a = ({ s with wgs := ws } : State).coreByte m a := rfl
  have hbehind : ({ P with wgs := ws, groups := gs } : State).coreByte m a = P.coreByte m a := rfl
  rw [← hbefore, hbehind, hf.coreByte]

/-- Settles O24: a cache operation checks its address and leaves one access; a prefetch that is served brings in a sector
and a line as the core reads them already, so that no byte changes. -/
theorem cacheControlAndPrefetchWords : Obligations.CacheControlAndPrefetchWords := by
  unfold Obligations.CacheControlAndPrefetchWords
  intro s g r w th o ha h va stays
  refine ⟨fun p hp => ?_, fun p hp => ?_⟩
  · have hexec : exec (p.1 o) s = cacheWord p.2.1 p.2.2 o s := by
      simp only [cacheWords, List.mem_cons, List.not_mem_nil, or_false] at hp
      rcases hp with rfl | rfl | rfl <;> rfl
    rw [hexec, cacheWord_alone ha _ _ h]
    exact ⟨fun hg => by rw [if_neg (by simp [hg])], fun hg => by rw [if_pos hg]⟩
  · have hexec : exec (p.1 o) s = prefetchWord p.2 o s := by
      simp only [List.mem_cons, List.not_mem_nil, or_false] at hp
      rcases hp with rfl | rfl <;> rfl
    rw [hexec]
    refine ⟨prefetchWord_unguarded ha h p.2, fun d hd => ?_, fun l hg hl => ⟨fun hidle => ?_, fun hmarked => ?_, ?_⟩⟩
    · exact prefetchWord_idle ha h p.2 (prefetch_refused ((advance_checked ..).trans hd) p.2)
    · exact prefetchWord_idle ha h p.2 (prefetch_idle ((advance_checked ..).trans hl) hidle p.2)
    · exact prefetchWord_idle ha h p.2 (prefetch_marked p.2 ((advance_checked ..).trans hl) hmarked)
    · intro hgrant hclear hplain hroom
      have hl' : checked (s.advance g) w.core w.part va 1 { r := true } = .ok l := (advance_checked ..).trans hl
      have hplain' : Plain ((s.advance g).tlbInsert w.core w.part l) (s.homeAddr (reaching va 1 l 0 2).pa / 128 * 128) 128 l := by
        rw [advance_tlbInsert, advance_plain]
        exact hplain
      have hroom' : p.2 = true → LineRoom (s.advance g) w.core (s.homeAddr (reaching va 1 l 0 2).pa) l.gen :=
        fun hp2 => lineRoom_congr (s := s) rfl (advance_l1Capacity ..) (hroom hp2)
      have hgrant' : Granted (s.advance g) (reaching va 1 l 0 2) false := by rwa [advance_granted]
      obtain ⟨hf, hsector, hline⟩ := prefetch_plain (s := s.advance g) hl' hgrant' hclear hplain' hroom'
      have hrun := prefetchWord_fetches ha h p.2 hg hf
      exact ⟨_, hrun, rfl, rfl, hf.ops, fetched_sameBytes hf _ _, hsector, hline⟩

end Sys2Proof.Proofs
end

