-- ==== Sys2Proof/Proofs/RowSteps.lean ====
section
/-!
Row operations: what a step reads, writes and leaves, and what its events do with it.
-/

/- One kernel check at a time: each would take a thread's stack of its own. -/
set_option Elab.async false

namespace Sys2Proof.Proofs

open Sys2Proof Sys2Proof.Machine Sys2Proof.Laws Sys2Proof.Safety Sys2Proof.Claims

/-! ## Frames whose counters alone differ -/

/-- Every address lies in a frame of the same owner and generation. -/
def SameFrames (s t : State) : Prop :=
  ∀ pa, (t.frame pa).owner = (s.frame pa).owner ∧ (t.frame pa).gen = (s.frame pa).gen

theorem sameFrames_refl (s : State) : SameFrames s s := fun _ => ⟨rfl, rfl⟩

theorem SameFrames.trans {s t u : State} (h : SameFrames s t) (k : SameFrames t u) : SameFrames s u :=
  fun pa => ⟨(k pa).1.trans (h pa).1, (k pa).2.trans (h pa).2⟩

theorem sameFrames_of_frames {s t : State} (h : t.frames = s.frames) : SameFrames s t := by
  intro pa
  unfold State.frame State.frame?
  rw [h]
  exact ⟨rfl, rfl⟩

/-- A change of frames that keeps where they lie, their owners and their generations. -/
theorem sameFrames_mapFrame (s : State) (pa : Nat) {f : Frame → Frame}
    (hf : ∀ x, (f x).base = x.base ∧ (f x).size = x.size ∧ (f x).owner = x.owner ∧ (f x).gen = x.gen) :
    SameFrames s (s.mapFrame pa f) := by
  unfold State.mapFrame
  split
  case h_2 => exact sameFrames_refl s
  case h_1 g _ =>
    intro q
    unfold State.frame State.frame?
    dsimp only
    rw [find?_updateWhere fun x => by split <;> simp [hf]]
    cases s.frames.find? _ with
    | none => exact ⟨rfl, rfl⟩
    | some x =>
      simp only [Option.map_some, Option.getD_some]
      split
      · exact ⟨(hf x).2.2.1, (hf x).2.2.2⟩
      · exact ⟨rfl, rfl⟩

theorem sameFrames_countAccess (s : State) (pa n : Nat) (write : Bool) : SameFrames s (s.countAccess pa n write) :=
  sameFrames_mapFrame s _ fun x => by split <;> exact ⟨rfl, rfl, rfl, rfl⟩

theorem sameFrames_noteCorrection (s : State) (u : Nat) : SameFrames s (s.noteCorrection u) := by
  let source := if tierOf (u * 64) = 0 then stackOf (u * 64) else 7 + tierOf (u * 64)
  let counted : State :=
    { s with lifetime := { s.lifetime with corrections := bump source 1 s.lifetime.corrections } }
  exact (sameFrames_of_frames (s := s) (t := counted) rfl).trans
    ((sameFrames_mapFrame counted (u * 64) (f := fun f => { f with errors := f.errors + 1 })
      fun _ => ⟨rfl, rfl, rfl, rfl⟩).trans (sameFrames_of_frames rfl))

theorem sameFrames_correctUnits (s : State) (units : List Nat) (one : Nat) (fold : BitVec 16) (open_ : Bool)
    (good : Nat → Bool) : SameFrames s (s.correctUnits units one fold open_ good) := by
  unfold State.correctUnits
  induction units.zipIdx.filter _ generalizing s with
  | nil => exact sameFrames_refl s
  | cons u us ih => exact (sameFrames_noteCorrection s u.1).trans (ih _)

/-- What an access to the tiers leaves for the next one: the books may differ, but not the frames' owners and generations. -/
structure Counted (s t : State) : Prop where
  booked : Booked s t
  frames : SameFrames s t

theorem Counted.trans {s t u : State} (h : Counted s t) (k : Counted t u) : Counted s u :=
  ⟨h.booked.trans k.booked, h.frames.trans k.frames⟩

theorem counted_refl (s : State) : Counted s s := ⟨booked_refl s, sameFrames_refl s⟩

section
variable {s t : State} (h : Counted s t)
include h

theorem counted_genOk (l : Leaf) (pa : Nat) : t.genOk l pa = s.genOk l pa := by
  unfold State.genOk
  rw [(h.frames pa).2]

theorem counted_tierByte (a : Nat) : t.tierByte a = s.tierByte a := by
  obtain ⟨⟨_, _, _, _, rfl⟩, -⟩ := h
  rfl

theorem counted_sameKeys (u : Nat) (fold : BitVec 16) (open_ : Bool) : t.sameKeys u fold open_ = s.sameKeys u fold open_ := by
  have hkey : t.pageKey (u * 64) open_ = s.pageKey (u * 64) open_ := by
    unfold State.pageKey State.keyAt
    rw [(h.frames _).1]
    obtain ⟨⟨_, _, _, _, rfl⟩, -⟩ := h
    rfl
  unfold State.sameKeys
  rw [hkey]
  obtain ⟨⟨_, _, _, _, rfl⟩, -⟩ := h
  rfl

/-- A row that a step can read stays one, while no errors are to come. -/
theorem counted_rowPlain (hd : t.damage = []) {pa : Nat} {l : Leaf} (hp : RowPlain s pa l) : RowPlain t pa l := by
  obtain ⟨hmove, halign, -, hgen, hunits⟩ := hp
  have hgen' := (counted_genOk h l pa).trans hgen
  have hunits' : ∀ u, pa / 64 ≤ u → u < pa / 64 + 32 → s.isCleared (u * 64) = true ∨
      (t.sameKeys u l.fold l.open_ = true ∧ ∀ x ∈ s.poison, x.1 ≠ u) := by
    intro u h1 h2
    rw [counted_sameKeys h]
    exact hunits u h1 h2
  obtain ⟨⟨_, _, _, _, rfl⟩, -⟩ := h
  exact ⟨hmove, halign, hd, hgen', hunits'⟩

end

/-! ## Bytes of the tiers in runs -/

theorem length_tierBytes (s : State) (a n : Nat) : (s.tierBytes a n).length = n := by simp [State.tierBytes]

theorem tierBytes_getD (s : State) (a : Nat) {n i : Nat} (h : i < n) (d : Byte) :
    (s.tierBytes a n).getD i d = s.tierByte (a + i) := by
  rw [State.tierBytes, List.getD_eq_getElem?_getD, List.getElem?_map, List.getElem?_range h]
  rfl

theorem tierBytes_append (s : State) (a m n : Nat) : s.tierBytes a (m + n) = s.tierBytes a m ++ s.tierBytes (a + m) n := by
  simp only [State.tierBytes, List.range_add, List.map_append, List.map_map]
  congr 1
  refine List.map_congr_left fun i _ => ?_
  simp only [Function.comp, Nat.add_assoc]

/-- Units one behind the other. -/
theorem flatMap_tierBytes (s : State) (a k : Nat) :
    ((List.range k).flatMap fun i => s.tierBytes (a + i * 64) 64) = s.tierBytes a (k * 64) := by
  induction k with
  | zero => simp [State.tierBytes]
  | succ k ih => rw [List.range_succ, List.flatMap_append, ih, Nat.succ_mul, tierBytes_append]; simp

/-! ## A source row (R279) -/

theorem mapFrame_damage (s : State) (pa : Nat) (f : Frame → Frame) : (s.mapFrame pa f).damage = s.damage := by
  unfold State.mapFrame
  split <;> rfl

theorem noteCorrection_damage (s : State) (u : Nat) : (s.noteCorrection u).damage = s.damage :=
  mapFrame_damage ..

theorem correctUnits_damage (s : State) (units : List Nat) (one : Nat) (fold : BitVec 16) (open_ : Bool)
    (good : Nat → Bool) : (s.correctUnits units one fold open_ good).damage = s.damage := by
  unfold State.correctUnits
  induction units.zipIdx.filter _ generalizing s with
  | nil => rfl
  | cons u us ih => rw [List.foldl_cons, ih, noteCorrection_damage]

theorem tierBytes_congr {s t : State} (h : ∀ a, t.tierByte a = s.tierByte a) (a n : Nat) :
    t.tierBytes a n = s.tierBytes a n := by
  unfold State.tierBytes
  simp only [h]

/-- A plain row is read as the tier holds it, and the read changes the books alone. -/
theorem readRow_plain {s : State} {pa : Nat} {l : Leaf} (h : RowPlain s pa l) :
    ∃ t, s.readRow pa l = .ok (t, s.tierBytes pa 2048) ∧ Counted s t ∧ t.damage = [] := by
  obtain ⟨hmove, halign, hdamage, hgen, hunits⟩ := h
  have hhome : s.homeAddr pa = pa := by simp [State.homeAddr, hmove]
  have hplain : ∀ i ∈ List.range 32, PlainUnit s l.fold l.open_ (pa / 64 + i) := fun i hi =>
    hunits _ (Nat.le_add_right ..) (by have := List.mem_range.1 hi; omega)
  have hnone (i : Nat) : damageOf (0, 0, 0) i = none := by simp [damageOf]
  have hgood : ((List.range 32).map fun i => pa / 64 + i).findSome?
      (fun u => s.checkDamaged u l.fold l.open_ (damageOf (0, 0, 0) (u % 32))) = none := by
    rw [List.findSome?_eq_none_iff]
    intro u hu
    obtain ⟨i, hi, rfl⟩ := List.mem_map.1 hu
    rw [hnone]
    exact checkDamaged_of_plain (hplain i hi)
  have hbytes : ((List.range 32).map fun i => pa / 64 + i).flatMap (fun u => s.unitBytes u l.fold l.open_) =
      s.tierBytes pa 2048 := by
    rw [List.flatMap_map, ← flatMap_tierBytes s pa 32]
    refine List.flatMap_congr fun i hi => ?_
    rw [unitBytes_of_plain (hplain i hi)]
    congr 1
    omega
  unfold State.readRow
  rw [hgen, hhome, hdamage]
  simp only [Bool.not_true, Bool.false_eq_true, if_false, List.headD_nil, hgood, hbytes]
  refine ⟨_, rfl, ⟨?_, ?_⟩, ?_⟩
  · exact ((booked_countAccess ..).trans (booked_correctUnits ..)).trans ⟨_, _, _, _, rfl⟩
  · exact ((sameFrames_countAccess _ _ _ _).trans (sameFrames_correctUnits _ _ _ _ _ _)).trans (sameFrames_of_frames rfl)
  · exact congrArg List.tail ((correctUnits_damage ..).trans ((mapFrame_damage ..).trans hdamage))

/-! ## A destination row (R278) -/

theorem get_clear (m : List Host.Cell) (a n x : Nat) :
    Memory.get (Memory.clear m a n) x = if a ≤ x ∧ x < a + n then 0 else Memory.get m x := by
  induction m with
  | nil => split <;> rfl
  | cons c m ih =>
    obtain ⟨k, b⟩ := c
    unfold Memory.clear at ih ⊢
    rw [List.filter_cons]
    split
    case isTrue hk =>
      simp only [Memory.get, ih]
      by_cases hx : k = x
      · subst hx
        have hout : k < a ∨ a + n ≤ k := by simpa using hk
        rw [if_pos rfl, if_neg (by omega), if_pos rfl]
      · simp [hx]
    case isFalse hk =>
      rw [ih]
      by_cases hx : k = x
      · subst hx
        have : a ≤ k ∧ k < a + n := by simpa using hk
        simp [this]
      · simp [Memory.get, hx]

theorem unclear_isCleared (s : State) (fold : BitVec 16) (open_ : Bool) {pa a : Nat} (ha : pa / 4096 = a / 4096) :
    (s.unclear pa fold open_).isCleared a = false := by
  unfold State.unclear
  split
  case isFalse hc => rw [State.isCleared, ← ha]; simpa [State.isCleared] using hc
  case isTrue =>
    unfold State.isCleared
    rw [← ha]
    simp

theorem unclear_moveAt? (s : State) (pa : Nat) (fold : BitVec 16) (open_ : Bool) (a : Nat) :
    (s.unclear pa fold open_).moveAt? a = s.moveAt? a := by
  unfold State.unclear
  split <;> rfl

theorem wf_unclear {s : State} (hwf : Memory.wf s.mem) (pa : Nat) (fold : BitVec 16) (open_ : Bool) :
    Memory.wf (s.unclear pa fold open_).mem := by
  unfold State.unclear
  split
  · exact wf_clear hwf _ _
  · exact hwf

section
variable {s : State} {pa : Nat} (hmoves : ∀ a, pa / 4096 = a / 4096 → s.moveAt? a = none)
include hmoves

/-- Where no page moves, the tier's bytes are the cells', or zeros. -/
theorem tierByte_of_still {a : Nat} (ha : pa / 4096 = a / 4096) :
    s.tierByte a = if s.isCleared a = true then 0 else Memory.get s.mem a := by
  unfold State.tierByte
  rw [hmoves a ha]

/-- A page that is not cleared any more reads as it did. -/
theorem unclear_tierByte (fold : BitVec 16) (open_ : Bool) (a : Nat) :
    (s.unclear pa fold open_).tierByte a = s.tierByte a := by
  unfold State.unclear
  split
  case isFalse => rfl
  case isTrue hc =>
    by_cases ha : pa / 4096 = a / 4096
    · have hin : pa / 4096 * 4096 ≤ a ∧ a < pa / 4096 * 4096 + 4096 := by omega
      have hclear : s.isCleared a = true := by rw [State.isCleared, ← ha]; exact hc
      rw [tierByte_of_still (s := s) hmoves ha, if_pos hclear]
      unfold State.tierByte
      split
      · rfl
      · change (match s.moveAt? a with | some m => _ | none => Memory.get (Memory.clear s.mem _ _) a) = _
        rw [hmoves a ha]
        dsimp only
        rw [get_clear, if_pos hin]
    · have hout : ¬ (pa / 4096 * 4096 ≤ a ∧ a < pa / 4096 * 4096 + 4096) := by omega
      have hclear : (s.cleared.filter (· != pa / 4096)).contains (a / 4096) = s.cleared.contains (a / 4096) := by
        rw [Bool.eq_iff_iff]
        simp only [List.contains_iff_mem, List.mem_filter, bne_iff_ne]
        exact ⟨And.left, fun h => ⟨h, Ne.symm ha⟩⟩
      unfold State.tierByte State.isCleared
      simp only [hclear, get_clear, if_neg hout]
      rfl

/-- A write within a page that does not move: its bytes read as written, the others as before. -/
theorem tierWrite_tierByte (hwf : Memory.wf s.mem) {bs : List Byte} (hfit : pa % 4096 + bs.length ≤ 4096) (fold : BitVec 16)
    (open_ : Bool) (a : Nat) : (s.tierWrite pa bs fold open_).tierByte a =
      if pa ≤ a ∧ a < pa + bs.length then bs.getD (a - pa) 0 else s.tierByte a := by
  unfold State.tierWrite
  have hmove := unclear_moveAt? s pa fold open_
  have hbyte := unclear_tierByte hmoves fold open_ a
  have hcleared (b : Nat) (hb : pa / 4096 = b / 4096) := unclear_isCleared s fold open_ hb
  have hwf' := wf_unclear hwf pa fold open_
  generalize s.unclear pa fold open_ = u at *
  dsimp only
  rw [hmove, hmoves pa rfl]
  dsimp only
  split
  case isTrue ha =>
    obtain ⟨i, rfl⟩ := Nat.exists_eq_add_of_le ha.1
    have hi : i < bs.length := by omega
    have hpage : pa / 4096 = (pa + i) / 4096 := by omega
    have hstill : ∀ b, pa / 4096 = b / 4096 → ({ u with mem := Memory.setBytes u.mem pa bs } : State).moveAt? b = none :=
      fun b hb => (hmove b).trans (hmoves b hb)
    have hheld : ({ u with mem := Memory.setBytes u.mem pa bs } : State).isCleared (pa + i) = false := hcleared _ hpage
    rw [tierByte_of_still hstill hpage, hheld]
    simp only [Bool.false_eq_true, if_false, get_setBytes_inside hwf' pa bs i hi, Nat.add_sub_cancel_left,
      List.getD_eq_getElem?_getD, List.getElem?_eq_getElem hi, Option.getD_some]
  case isFalse ha =>
    rw [← hbyte]
    unfold State.tierByte
    simp only [get_setBytes_outside u.mem bs (a := pa) (a' := a) (by omega)]
    rfl

end

/-- Stamps change the keys and the poison of units alone. -/
theorem foldl_stampUnit (s : State) (us : List Nat) (fold : BitVec 16) (open_ bad : Bool) :
    ∃ ks ps, us.foldl (fun s u => s.stampUnit u fold open_ bad) s = { s with keyed := ks, poison := ps } := by
  induction us generalizing s with
  | nil => exact ⟨_, _, rfl⟩
  | cons u us ih =>
    obtain ⟨ks, ps, h⟩ := ih (s.stampUnit u fold open_ bad)
    exact ⟨ks, ps, h⟩

theorem tierWrite_keeps (s : State) (pa : Nat) (bs : List Byte) (fold : BitVec 16) (open_ : Bool) :
    (s.tierWrite pa bs fold open_).wgs = s.wgs ∧ (s.tierWrite pa bs fold open_).ops = s.ops := by
  have hkeeps : (s.unclear pa fold open_).wgs = s.wgs ∧ (s.unclear pa fold open_).ops = s.ops := by
    unfold State.unclear
    split <;> exact ⟨rfl, rfl⟩
  unfold State.tierWrite
  dsimp only
  split
  · split <;> exact hkeeps
  · exact hkeeps

theorem writeRow_stale {s : State} {pa : Nat} {l : Leaf} (h : s.genOk l pa = false) (fold : BitVec 16) (bs : List Byte) :
    s.writeRow pa l fold bs = none := by
  unfold State.writeRow
  rw [h]
  rfl

/-- A row that does not move is written as it is given. -/
theorem writeRow_plain {s : State} {pa : Nat} {l : Leaf} (hgen : s.genOk l pa = true) (halign : pa % 2048 = 0)
    (hmoves : ∀ a, pa / 4096 = a / 4096 → s.moveAt? a = none) (hwf : Memory.wf s.mem) {bs : List Byte}
    (hlen : bs.length = 2048) (fold : BitVec 16) :
    ∃ t, s.writeRow pa l fold bs = some t ∧ t.wgs = s.wgs ∧ t.ops = s.ops ∧
      ∀ a, t.tierByte a = if pa ≤ a ∧ a < pa + 2048 then bs.getD (a - pa) 0 else s.tierByte a := by
  have hhome : s.homeAddr pa = pa := by simp [State.homeAddr, hmoves pa rfl]
  have hbyte := tierWrite_tierByte hmoves hwf (bs := bs) (by omega) fold l.open_
  obtain ⟨hwgs, hops⟩ := tierWrite_keeps s pa bs fold l.open_
  unfold State.writeRow
  rw [hgen, hhome]
  dsimp only [Bool.not_true, Bool.false_eq_true, if_false]
  refine ⟨_, rfl, ?_⟩
  rw [hlen] at hbyte
  generalize s.tierWrite pa bs fold l.open_ = u at *
  obtain ⟨_, _, _, _, hcount⟩ := booked_countAccess u pa 16 true
  rw [hcount]
  obtain ⟨ks, ps, hstamp⟩ := foldl_stampUnit (u.countAccess pa 16 true) ((List.range 32).map fun i => pa / 64 + i) fold l.open_ false
  rw [hcount] at hstamp
  rw [hstamp]
  exact ⟨hwgs, hops, hbyte⟩

/-! ## The function of a row step (R280) -/

theorem zipWith_getD {f : Byte → Byte → Byte} {a b : List Byte} {i : Nat} (ha : i < a.length) (hb : i < b.length) :
    (List.zipWith f a b).getD i 0 = f (a.getD i 0) (b.getD i 0) := by
  simp [List.getD_eq_getElem?_getD, ha, hb]

/-- The sources that a function uses are as long as the first. -/
def SourcesFit (func : Nat) (a b c : List Byte) : Prop :=
  (func = 2 ∨ func = 3 ∨ func = 5 → b.length = a.length) ∧ (func = 5 → c.length = a.length)

theorem length_rowLogic {func : Nat} (hf : func ≤ 5) {a b c : List Byte} (h : SourcesFit func a b c) :
    (rowLogic func a b c).length = a.length := by
  obtain ⟨hb, hc⟩ := h
  interval_cases func
  · rfl
  · rfl
  · simp [rowLogic, hb]
  · simp [rowLogic, hb]
  · simp [rowLogic]
  · simp [rowLogic, hb, hc]

theorem rowLogic_getD {func : Nat} (hf : func ≤ 5) {a b c : List Byte} (h : SourcesFit func a b c) {i : Nat}
    (hi : i < a.length) : (rowLogic func a b c).getD i 0 = rowByte func (a.getD i 0) (b.getD i 0) (c.getD i 0) := by
  obtain ⟨hb, hc⟩ := h
  interval_cases func
  · rfl
  · rfl
  · exact zipWith_getD hi (by rwa [hb (by decide)])
  · exact zipWith_getD hi (by rwa [hb (by decide)])
  · simp [rowLogic, rowByte, List.getD_eq_getElem?_getD, hi]
  · have hb' := hb (by decide)
    have hc' := hc rfl
    simp [rowLogic, rowByte, List.getD_eq_getElem?_getD, hi, hb', hc']

/-- A function does not depend on a source that it does not use. -/
theorem rowByte_congr {func : Nat} (a : Byte) {b b' c c' : Byte} (hb : func = 2 ∨ func = 3 ∨ func = 5 → b = b')
    (hc : func = 5 → c = c') : rowByte func a b c = rowByte func a b' c' := by
  unfold rowByte
  by_cases h2 : func = 2
  · rw [if_pos h2, if_pos h2, hb (Or.inl h2)]
  by_cases h3 : func = 3
  · rw [if_neg h2, if_neg h2, if_pos h3, if_pos h3, hb (Or.inr (Or.inl h3))]
  by_cases h5 : func = 5
  · rw [hb (Or.inr (Or.inr h5)), hc h5]
  · simp only [h2, h3, h5, if_false]

theorem usesB_iff {func : Nat} (hf : func ≤ 5) : usesB func = true ↔ func = 2 ∨ func = 3 ∨ func = 5 := by
  interval_cases func <;> decide

/-! ## A step of a row -/

/-- Where row r of operand i lies, and its leaf: ROWFILL reads its one source row each time. -/
def placeOf (x : RowOp) (r i : Nat) : Nat := (x.rows.getD i []).getD (if i = 1 ∧ x.func = 1 then 0 else r) 0
def pageOf (x : RowOp) (r i : Nat) : Leaf := x.leafOf i (if i = 1 ∧ x.func = 1 then 0 else r)

theorem placeOf_source (x : RowOp) (r : Nat) : placeOf x r 1 = (x.rows.getD 1 []).getD (if x.func = 1 then 0 else r) 0 := by
  simp [placeOf]

theorem pageOf_source (x : RowOp) (r : Nat) : pageOf x r 1 = x.leafOf 1 (if x.func = 1 then 0 else r) := by simp [pageOf]

theorem placeOf_other (x : RowOp) (r : Nat) {i : Nat} (h : i ≠ 1) : placeOf x r i = (x.rows.getD i []).getD r 0 := by
  simp [placeOf, h]

theorem pageOf_other (x : RowOp) (r : Nat) {i : Nat} (h : i ≠ 1) : pageOf x r i = x.leafOf i r := by simp [pageOf, h]

/-- The fold key under which a step writes its row (R276). -/
def foldOf (x : RowOp) (r : Nat) : BitVec 16 :=
  if (decide (x.path < 2) && !(pageOf x r 0).open_) = true then (pageOf x r 1).fold else (pageOf x r 0).fold

/-- A read that a step makes only for some functions. -/
theorem readIf_plain {s : State} {pa : Nat} {l : Leaf} {used : Prop} [Decidable used] (hd : s.damage = [])
    (h : used → RowPlain s pa l) : ∃ t bs, (if used then s.readRow pa l else .ok (s, [])) = .ok (t, bs) ∧ Counted s t ∧
      t.damage = [] ∧ (used → bs = s.tierBytes pa 2048) := by
  by_cases hu : used
  · obtain ⟨t, hread, hcount, hd'⟩ := readRow_plain (h hu)
    exact ⟨t, _, by rw [if_pos hu, hread], hcount, hd', fun _ => rfl⟩
  · exact ⟨s, [], by rw [if_neg hu], counted_refl s, hd, fun h => absurd h hu⟩

section
variable {s : State} {x : RowOp} {r : Nat} (hf : x.func ≤ 5) (h1 : RowPlain s (placeOf x r 1) (pageOf x r 1))
  (h2 : x.func = 2 ∨ x.func = 3 ∨ x.func = 5 → RowPlain s (placeOf x r 2) (pageOf x r 2))
  (h3 : x.func = 5 → RowPlain s (placeOf x r 3) (pageOf x r 3))
include hf h1 h2 h3

/-- The sources of a step are read one after the other, each as the step finds it; then the destination is written. -/
theorem rowStep_reads : ∃ t a b c, Counted s t ∧ SourcesFit x.func a b c ∧ a.length = 2048 ∧
    (∀ i < 2048, rowByte x.func (a.getD i 0) (b.getD i 0) (c.getD i 0) = rowByte x.func (s.tierByte (placeOf x r 1 + i))
      (s.tierByte (placeOf x r 2 + i)) (s.tierByte (placeOf x r 3 + i))) ∧
    s.rowStep x (.row r) = match t.writeRow (placeOf x r 0) (pageOf x r 0) (foldOf x r) (rowLogic x.func a b c) with
      | none => .error (t, codeGenStale)
      | some u => .ok (u, { x with upc := r + 1 }) := by
  obtain ⟨t1, hread1, hc1, hd1⟩ := readRow_plain h1
  obtain ⟨t2, b, hread2, hc2, hd2, hb⟩ := readIf_plain (used := usesB x.func = true) hd1 fun hu =>
    counted_rowPlain hc1 hd1 (h2 ((usesB_iff hf).1 hu))
  obtain ⟨t3, c, hread3, hc3, hd3, hc⟩ := readIf_plain (used := x.func = 5) hd2 fun hu =>
    counted_rowPlain hc2 hd2 (counted_rowPlain hc1 hd1 (h3 hu))
  have hb' : x.func = 2 ∨ x.func = 3 ∨ x.func = 5 → b = s.tierBytes (placeOf x r 2) 2048 := fun hu =>
    (hb ((usesB_iff hf).2 hu)).trans (tierBytes_congr (counted_tierByte hc1) ..)
  have hc' : x.func = 5 → c = s.tierBytes (placeOf x r 3) 2048 := fun hu =>
    (hc hu).trans (tierBytes_congr (counted_tierByte (hc1.trans hc2)) ..)
  have hlen := length_tierBytes s (placeOf x r 1) 2048
  refine ⟨t3, s.tierBytes (placeOf x r 1) 2048, b, c, (hc1.trans hc2).trans hc3, ⟨fun hu => ?_, fun hu => ?_⟩, hlen,
    fun i hi => ?_, ?_⟩
  · rw [hb' hu, hlen, length_tierBytes]
  · rw [hc' hu, hlen, length_tierBytes]
  · rw [tierBytes_getD s _ hi]
    refine rowByte_congr _ (fun hu => ?_) fun hu => ?_
    · rw [hb' hu, tierBytes_getD s _ hi]
    · rw [hc' hu, tierBytes_getD s _ hi]
  · have h12 : (2 : Nat) ≠ 1 := by decide
    have h13 : (3 : Nat) ≠ 1 := by decide
    rw [placeOf_source, pageOf_source] at hread1
    rw [placeOf_other x r h12, pageOf_other x r h12] at hread2
    rw [placeOf_other x r h13, pageOf_other x r h13] at hread3
    unfold State.rowStep
    simp only [hread1, hread2, hread3]
    unfold foldOf
    rw [placeOf_source, pageOf_source, placeOf_other x r Nat.zero_ne_one, pageOf_other x r Nat.zero_ne_one] <;> rfl

end

/-! ## What an error of a step leaves -/

theorem readRow_booked {s : State} {pa : Nat} {l : Leaf} :
    (∀ u c, s.readRow pa l = .error (u, c) → Booked s u) ∧ ∀ t bs, s.readRow pa l = .ok (t, bs) → Booked s t := by
  have hread : ∀ us one fold open_ good dm, Booked s
      { (s.countAccess (s.homeAddr pa) 16 false).correctUnits us one fold open_ good with damage := dm } := fun _ _ _ _ _ _ =>
    ((booked_countAccess ..).trans (booked_correctUnits ..)).trans ⟨_, _, _, _, rfl⟩
  unfold State.readRow
  split
  case isTrue =>
    refine ⟨fun u c h => ?_, fun t bs h => by simp at h⟩
    obtain ⟨rfl, -⟩ := Prod.mk.inj (Except.error.inj h)
    exact booked_refl s
  case isFalse =>
    dsimp only
    split
    · refine ⟨fun u c h => ?_, fun t bs h => by simp at h⟩
      obtain ⟨rfl, -⟩ := Prod.mk.inj (Except.error.inj h)
      exact hread ..
    · refine ⟨fun u c h => by simp at h, fun t bs h => ?_⟩
      obtain ⟨rfl, -⟩ := Prod.mk.inj (Except.ok.inj h)
      exact hread ..

theorem readIf_booked {s : State} {pa : Nat} {l : Leaf} {used : Prop} [Decidable used] :
    (∀ u c, (if used then s.readRow pa l else .ok (s, [])) = .error (u, c) → Booked s u) ∧
      ∀ t bs, (if used then s.readRow pa l else .ok (s, [])) = .ok (t, bs) → Booked s t := by
  by_cases hu : used
  · simpa only [hu, if_true] using readRow_booked
  · simp only [hu, if_false]
    refine ⟨fun u c h => by simp at h, fun t bs h => ?_⟩
    obtain ⟨rfl, -⟩ := Prod.mk.inj (Except.ok.inj h)
    exact booked_refl s

/-- A step that ends in an error has read, and has written nothing. -/
theorem rowStep_error_booked {s : State} {x : RowOp} {st : RowStep} {u : State} {c : BitVec 8}
    (h : s.rowStep x st = .error (u, c)) : Booked s u := by
  unfold State.rowStep at h
  dsimp only at h
  cases st with
  | row r =>
    dsimp only at h
    split at h
    case h_1 e he => exact readRow_booked.1 _ _ (he.trans (congrArg _ (Except.error.inj h)))
    case h_2 t1 a h1 =>
      have hb1 := readRow_booked.2 _ _ h1
      split at h
      case h_1 e he => exact hb1.trans (readIf_booked.1 _ _ (he.trans (congrArg _ (Except.error.inj h))))
      case h_2 t2 b h2 =>
        have hb2 := hb1.trans (readIf_booked.2 _ _ h2)
        split at h
        case h_1 e he => exact hb2.trans (readIf_booked.1 _ _ (he.trans (congrArg _ (Except.error.inj h))))
        case h_2 t3 c' h3 =>
          have hb3 := hb2.trans (readIf_booked.2 _ _ h3)
          split at h
          · obtain ⟨rfl, -⟩ := Prod.mk.inj (Except.error.inj h)
            exact hb3
          · simp at h
  | dstRead =>
    dsimp only at h
    split at h
    case h_1 e he => exact readRow_booked.1 _ _ (he.trans (congrArg _ (Except.error.inj h)))
    case h_2 => simp at h
  | source i half =>
    dsimp only at h
    split at h
    case h_1 e he => exact readRow_booked.1 _ _ (he.trans (congrArg _ (Except.error.inj h)))
    case h_2 => simp at h
  | dstWrite =>
    dsimp only at h
    split at h
    · obtain ⟨rfl, -⟩ := Prod.mk.inj (Except.error.inj h)
      exact booked_refl s
    · simp at h

/-! ## The end of a row operation (R269, R284) -/

/-- The tiers, the operations' rows and the timelines stay. -/
structure RowsStay (s t : State) : Prop where
  mem : t.mem = s.mem
  rows : t.rows = s.rows
  timeline : ∀ c k, t.timeline c k = s.timeline c k
  cores : t.cores.length = s.cores.length

theorem rowsStay_refl (s : State) : RowsStay s s := ⟨rfl, rfl, fun _ _ => rfl, rfl⟩

theorem RowsStay.trans {s t u : State} (h : RowsStay s t) (k : RowsStay t u) : RowsStay s u :=
  ⟨k.mem.trans h.mem, k.rows.trans h.rows, fun c j => (k.timeline c j).trans (h.timeline c j), k.cores.trans h.cores⟩

theorem Booked.rowsStay {s t : State} (h : Booked s t) : RowsStay s t := by
  obtain ⟨_, _, _, _, rfl⟩ := h
  exact ⟨rfl, rfl, fun _ _ => rfl, rfl⟩

theorem rowsStay_foldl {α : Type} {f : State → α → State} (h : ∀ s a, RowsStay s (f s a)) (l : List α) (s : State) :
    RowsStay s (l.foldl f s) := by
  induction l generalizing s with
  | nil => exact rowsStay_refl s
  | cons a l ih => exact (h s a).trans (ih _)

theorem timeline_of_cores {s t : State} (h : ∀ c, (t.core c).tl = (s.core c).tl) (c k : Nat) :
    t.timeline c k = s.timeline c k := by
  unfold State.timeline
  rw [h]

theorem rowsStay_invalidateOthers (s : State) (n line : Nat) : RowsStay s (s.invalidateOthers n line) := by
  refine ⟨rfl, rfl, timeline_of_cores fun c => ?_, List.length_mapIdx⟩
  unfold State.core State.invalidateOthers
  simp only [List.getD_eq_getElem?_getD, List.getElem?_mapIdx]
  cases s.cores[c]? with
  | none => rfl
  | some x => simp only [Option.map_some, Option.getD_some]; split <;> rfl

theorem rowsStay_invalidateRows (s : State) (pas : List Nat) (ls : List Leaf) : RowsStay s (s.invalidateRows pas ls) := by
  have hdrop (s : State) (n : Nat) : RowsStay s (s.l2Drop n) := ⟨rfl, rfl, fun _ _ => rfl, rfl⟩
  unfold State.invalidateRows
  refine rowsStay_foldl (fun s r => rowsStay_foldl (fun s n => ?_) _ _) _ _
  dsimp only
  split
  · exact (hdrop s n).trans ((rowsStay_invalidateOthers (s.l2Drop n) _ n).trans ⟨rfl, rfl, fun _ _ => rfl, rfl⟩)
  · exact hdrop s n

theorem rowsStay_updCore (s : State) (n : Nat) {f : Core → Core} (hf : ∀ c, (f c).tl = c.tl) : RowsStay s (s.updCore n f) := by
  refine ⟨rfl, rfl, timeline_of_cores fun c => ?_, List.length_modify ..⟩
  by_cases hc : c = n
  · subst hc
    by_cases hlt : c < s.cores.length
    · rw [core_updCore_of_lt hlt, hf]
    · rw [updCore_of_ge (Nat.le_of_not_lt hlt)]
  · rw [core_updCore_other hc]

theorem rowsStay_acquire (s : State) (core : Nat) : RowsStay s (s.orderActions core 1 2) :=
  rowsStay_updCore s core (f := fun c => { c with l1 := c.l1.filter (·.cls != .readShared) }) fun _ => rfl

theorem rowsStay_liftTlwait (s : State) (core k : Nat) : RowsStay s (s.liftTlwait core k) := by
  have hwgs (ws : List Workgroup) : RowsStay s { s with wgs := ws } := ⟨rfl, rfl, fun _ _ => rfl, rfl⟩
  unfold State.liftTlwait
  dsimp only
  split
  · exact (hwgs _).trans (rowsStay_acquire _ core)
  · exact rowsStay_refl s

theorem rowsStay_setStatus (s : State) (core k num : Nat) (hi lo : Word) : RowsStay s (s.setStatus core k num hi lo) :=
  rowsStay_updCore s core fun _ => rfl

theorem timeline_completed {s : State} {core : Nat} (h : core < s.cores.length) (x : Timeline) :
    (s.updCore core fun c => { c with tl := c.tl.setIfInBounds 1 x }).timeline core 1 = x := by
  rw [State.timeline, core_updCore_of_lt h]
  simp [List.getD_eq_getElem?_getD]

/-- What a number leaves of its timeline and of the rows when it completes. -/
theorem completeNumber_rows (s : State) (core num : Nat) : ∃ tl : Timeline,
    (s.completeNumber core 1 num).mem = s.mem ∧ (s.completeNumber core 1 num).timeline core 1 = tl ∧
    (core < s.cores.length → tl = (s.timeline core 1).complete num) ∧
    (s.completeNumber core 1 num).rows =
      s.rows.filter fun z => !(z.core == core && z.stage == .done && decide (z.num ≤ tl.retired)) := by
  let t := s.updCore core fun c => { c with tl := c.tl.setIfInBounds 1 ((s.timeline core 1).complete num) }
  obtain ⟨hmem, hrows, htl, -⟩ := rowsStay_liftTlwait (t.retireOps core 1) core 1
  refine ⟨t.timeline core 1, hmem, htl core 1, fun h => timeline_completed h _, hrows.trans ?_⟩
  rfl

/-- A row operation that has ended: with its status, in the timeline of its core, and out of the queue if it has retired. -/
theorem endRow_keeps (s : State) (y : RowOp) : ∃ tl : Timeline,
    (s.endRow y).mem = s.mem ∧ (s.endRow y).timeline y.core 1 = tl ∧
    (y.core < s.cores.length → tl = (s.timeline y.core 1).complete y.num) ∧
    (s.endRow y).rows = (s.rows.map fun z => if z.is y = true then { y with stage := .done } else z).filter fun z =>
      !(z.core == y.core && z.stage == .done && decide (z.num ≤ tl.retired)) := by
  let s1 : State := { s with rows := s.rows.map fun z => if z.is y = true then { y with stage := .done } else z }
  obtain ⟨hmem, hrows, htl, hcores⟩ := rowsStay_setStatus s1 y.core 1 y.num ({ y with stage := .done } : RowOp).status.2
    ({ y with stage := .done } : RowOp).status.1
  obtain ⟨tl, hm, ht, hc, hr⟩ := completeNumber_rows (s.setRow { y with stage := .done }) y.core y.num
  refine ⟨tl, hm.trans hmem, ht, fun h => ?_, hr.trans (congrArg _ hrows)⟩
  rw [hc (hcores.symm ▸ h)]
  exact congrArg (Timeline.complete · y.num) (htl y.core 1)

theorem is_iff (x y : RowOp) : x.is y = true ↔ x.core = y.core ∧ x.num = y.num := by
  simp [RowOp.is]

/-- A step that ends in an error completes its operation with the error's code; no byte and no other operation changes. -/
theorem failRow_ends {s u : State} (hu : RowsStay s u) (x : RowOp) (c : BitVec 8) :
    (u.failRow x c).mem = s.mem ∧
    (∀ y ∈ (u.failRow x c).rows, y.is x = true →
      y.stage = .done ∧ y.fault = c.toNat ∧ ((u.failRow x c).timeline x.core 1).retired < x.num) ∧
    (∀ y, y.is x = false → (y ∈ (u.failRow x c).rows → y ∈ s.rows) ∧
      (y ∈ s.rows → y.stage ≠ .done → y ∈ (u.failRow x c).rows)) ∧
    (x.core < s.cores.length → (u.failRow x c).timeline x.core 1 = (s.timeline x.core 1).complete x.num) := by
  let v := if x.swept then u.invalidateRows (x.rows.headD []) (x.leaves.headD []) else u
  have hv : RowsStay s v := by
    refine hu.trans ?_
    dsimp only [v]
    split
    · exact rowsStay_invalidateRows ..
    · exact rowsStay_refl u
  obtain ⟨tl, hmem, htl, hcomplete, hrows⟩ := endRow_keeps v { x with fault := c.toNat }
  have hfail : u.failRow x c = v.endRow { x with fault := c.toNat } := rfl
  rw [hfail, hrows, htl, hmem, hv.mem, hv.rows]
  refine ⟨rfl, fun y hy hyx => ?_, fun y hyx => ⟨fun hy => ?_, fun hy hdone => ?_⟩, fun h => ?_⟩
  · obtain ⟨hy, hkept⟩ := List.mem_filter.1 hy
    obtain ⟨z, -, rfl⟩ := List.mem_map.1 hy
    by_cases hz : z.is x = true
    · rw [if_pos (by exact hz)] at hkept ⊢
      refine ⟨rfl, rfl, ?_⟩
      simpa using hkept
    · rw [if_neg (by exact hz)] at hyx
      exact absurd hyx hz
  · obtain ⟨z, hz, rfl⟩ := List.mem_map.1 (List.mem_filter.1 hy).1
    by_cases hzx : z.is x = true
    · rw [if_pos (by exact hzx)] at hyx
      exact Bool.noConfusion (hyx.symm.trans ((is_iff _ _).2 ⟨rfl, rfl⟩))
    · rwa [if_neg (by exact hzx)]
  · refine List.mem_filter.2 ⟨List.mem_map.2 ⟨y, hy, if_neg (by change ¬ y.is x = true; simp [hyx])⟩, ?_⟩
    simp [hdone]
  · exact (hcomplete (hv.cores.symm ▸ h)).trans (congrArg (Timeline.complete · x.num) (hv.timeline x.core 1))

/-- A pool that serves a write serves a read. -/
theorem poolServes_read {s : State} {pa : Nat} (h : s.poolServes pa true = true) (write : Bool) :
    s.poolServes pa write = true := by
  cases write with
  | true => exact h
  | false =>
    unfold State.poolServes at h ⊢
    cases hs : s.poolState (s.homeAddr pa) <;> simp_all

theorem stepPool_served {s : State} {x : RowOp} {st : RowStep} (h : ∀ pa ∈ x.rowsOf st, s.poolServes pa true = true) :
    s.stepPool x st = .ok () := by
  unfold State.stepPool
  dsimp only
  rw [List.find?_eq_none.2 fun pa hpa => by rw [poolServes_read (h pa hpa)]; decide]

/-! ## The events of a row operation (R275, R284, R288) -/

section
variable {s : State} {core num : Nat} {x : RowOp} (hx : s.rowOp? core num = some x)
include hx

theorem rowOp?_names : x.core = core ∧ x.num = num := by
  simpa using List.find?_some hx

theorem execRowStep_pool (hs : x.steps s.time = true) (hp : x.path = 2)
    (hrows : ∀ pa ∈ x.rowsOf x.nextStep, s.poolServes pa true = true ∧ s.windowFull pa = false) :
    exec (.rowStep core num) s = .next (((x.rowsOf x.nextStep).foldl (fun s pa => s.demandActivate (s.homeAddr pa)) s).doRowStep
      x x.nextStep) := by
  have hany : (x.rowsOf x.nextStep).any s.windowFull = false := by
    rw [List.any_eq_false]
    exact fun pa hpa => by rw [(hrows pa hpa).2]; decide
  change execRowStep core num s = _
  unfold execRowStep
  rw [hx]
  simp only [hs, hany, hp, stepPool_served fun pa hpa => (hrows pa hpa).1, Bool.not_true, Bool.or_self, Bool.false_eq_true,
    if_false, if_true]

/-- On the other paths demand is looked for, then the activate budget. -/
theorem execRowStep_path (hs : x.steps s.time = true) (hp : x.path ≠ 2)
    (hrows : ∀ pa ∈ x.rowsOf x.nextStep, s.windowFull pa = false) :
    exec (.rowStep core num) s =
      (let b : State := { s with picks := s.picks.tail }
      let stack := stackOf ((x.rowsOf x.nextStep).headD 0)
      let n := s.stepActivates x x.nextStep
      if (x.stage == .running && (s.picks.headD 0 % 2 == 1 || s.refreshDemand x x.nextStep)) = true then
        .next (b.setRow { x with stage := .suspended s.time s.time, susp := min (x.susp + 1) 65535 })
      else if s.activatesFit stack x.part n = false then .next b
      else .next ((b.noteActivates stack x.part n true).doRowStep { x with
        busyOn := distinct ((x.rowsOf x.nextStep).map fun pa => (stackOf pa, channelOf pa)),
        busyUntil := s.time + x.stepTime } x.nextStep)) := by
  have hany : (x.rowsOf x.nextStep).any s.windowFull = false := by
    rw [List.any_eq_false]
    exact fun pa hpa => by rw [hrows pa hpa]; decide
  change execRowStep core num s = _
  unfold execRowStep
  rw [hx]
  simp only [hs, hany, hp, Bool.not_true, Bool.or_self, Bool.false_eq_true, if_false, Bool.not_eq_true']
  rfl

end

/-! ## What steps compute -/

/-- Everything that a read of the tiers leaves for the write behind it. -/
theorem Booked.keeps {s t : State} (h : Booked s t) :
    t.wgs = s.wgs ∧ t.ops = s.ops ∧ t.mem = s.mem ∧ ∀ a, t.moveAt? a = s.moveAt? a := by
  obtain ⟨_, _, _, _, rfl⟩ := h
  exact ⟨rfl, rfl, rfl, fun _ => rfl⟩

section
variable {s : State} {x : RowOp} {r : Nat} (hf : x.func ≤ 5) (h1 : RowPlain s (placeOf x r 1) (pageOf x r 1))
  (h2 : x.func = 2 ∨ x.func = 3 ∨ x.func = 5 → RowPlain s (placeOf x r 2) (pageOf x r 2))
  (h3 : x.func = 5 → RowPlain s (placeOf x r 3) (pageOf x r 3))
include hf h1 h2 h3

theorem rowStep_stale (hgen : s.genOk (pageOf x r 0) (placeOf x r 0) = false) :
    ∃ u, s.rowStep x (.row r) = .error (u, 0x13) := by
  obtain ⟨t, a, b, c, hcount, -, -, -, hstep⟩ := rowStep_reads hf h1 h2 h3
  rw [writeRow_stale ((counted_genOk hcount ..).trans hgen)] at hstep
  exact ⟨t, hstep⟩

theorem rowStep_writes (hgen : s.genOk (pageOf x r 0) (placeOf x r 0) = true) (halign : placeOf x r 0 % 2048 = 0)
    (hmoves : ∀ a, placeOf x r 0 / 4096 = a / 4096 → s.moveAt? a = none) (hwf : Memory.wf s.mem) :
    ∃ t, s.rowStep x (.row r) = .ok (t, { x with upc := r + 1 }) ∧ t.wgs = s.wgs ∧ t.ops = s.ops ∧
      ∀ a, t.tierByte a = if placeOf x r 0 ≤ a ∧ a < placeOf x r 0 + 2048 then
        rowByte x.func (s.tierByte (placeOf x r 1 + (a - placeOf x r 0))) (s.tierByte (placeOf x r 2 + (a - placeOf x r 0)))
          (s.tierByte (placeOf x r 3 + (a - placeOf x r 0))) else s.tierByte a := by
  obtain ⟨t, a, b, c, hcount, hfit, hlen, hbytes, hstep⟩ := rowStep_reads hf h1 h2 h3
  obtain ⟨hwgs, hops, hmem, hmove⟩ := hcount.booked.keeps
  obtain ⟨u, hwrite, huwgs, huops, hubyte⟩ := writeRow_plain ((counted_genOk hcount ..).trans hgen) halign
    (fun y hy => (hmove y).trans (hmoves y hy)) (hmem.symm ▸ hwf) ((length_rowLogic hf hfit).trans hlen) (foldOf x r)
  rw [hwrite] at hstep
  refine ⟨u, hstep, huwgs.trans hwgs, huops.trans hops, fun y => (hubyte y).trans ?_⟩
  split
  case isTrue hy =>
    have hi : y - placeOf x r 0 < 2048 := by omega
    rw [rowLogic_getD hf hfit (by rwa [hlen]), hbytes _ hi]
  case isFalse => exact counted_tierByte hcount y

end

theorem saxpyStep_lane (first : Bool) (a : Word) {xs lanes : List Word} (hlen : xs.length = lanes.length) {j : Nat}
    (hj : j < xs.length) : (saxpyStep first a xs lanes).1[j]? = some (if first then
      (rounded32 0 ((f32 a).mul (f32 (xs.getD j 0)))).1
      else (rounded32 0 ((f32 a).fma 0 (f32 (xs.getD j 0)) (f32 (lanes.getD j 0)))).1) := by
  have hj' : j < lanes.length := hlen ▸ hj
  unfold saxpyStep
  simp only [List.getElem?_map, List.getElem?_zipWith, List.getElem?_eq_getElem hj, List.getElem?_eq_getElem hj',
    Option.map_some, List.getD_eq_getElem?_getD, Option.getD_some]
  cases first <;> rfl

theorem doRowStep_goesOn {s s' : State} {x x' : RowOp} {st : RowStep} (h : s.rowStep x st = .ok (s', x'))
    (hmore : x'.finishedBy st = false) : s.doRowStep x st = s'.setRow { x' with stage := .running } := by
  unfold State.doRowStep
  rw [h]
  simp only [hmore, Bool.false_eq_true, if_false]

theorem doRowStep_fails {s u : State} {x : RowOp} {st : RowStep} {c : BitVec 8} (h : s.rowStep x st = .error (u, c)) :
    s.doRowStep x st = u.failRow x c := by
  unfold State.doRowStep
  rw [h]

/-- Settles O37: a step reads its source rows plainly one after the other and writes the function of their bytes; its event
looks for demand and the activate budget first, and an error ends the operation. -/
theorem rowOperationsComputeTheirRows : Obligations.RowOperationsComputeTheirRows := by
  unfold Obligations.RowOperationsComputeTheirRows
  refine ⟨?_, fun first a xs lanes hlen j hj => saxpyStep_lane first a hlen hj, ?_, ?_, ?_, ?_⟩
  · intro s x r hf at_ leaf h1 h2 h3 halign hmoves hwf
    exact ⟨rowStep_stale hf h1 h2 h3, fun hgen => rowStep_writes hf h1 h2 h3 hgen halign hmoves hwf⟩
  · intro s core num x hx hs hp hrows b
    obtain ⟨rfl, rfl⟩ := rowOp?_names hx
    have hexec := execRowStep_pool hx hs hp hrows
    refine ⟨fun u c herr => ?_, fun s' x' hok hmore => ?_⟩
    · have hb : RowsStay s b := rowsStay_foldl (fun s pa => (booked_demandActivate s (s.homeAddr pa)).rowsStay) _ _
      exact ⟨u.failRow x c, hexec.trans (congrArg _ (doRowStep_fails herr)),
        failRow_ends (hb.trans (rowStep_error_booked herr).rowsStay) x c⟩
    · exact hexec.trans (congrArg _ (doRowStep_goesOn hok hmore))
  · intro s core num x hx hp hrun hbusy hrows hdemand
    have hs : x.steps s.time = true := by simp [RowOp.steps, hrun, hbusy]
    have hwanted : (x.stage == .running && (s.picks.headD 0 % 2 == 1 || s.refreshDemand x x.nextStep)) = true := by
      simpa [hrun] using hdemand
    exact ⟨_, (execRowStep_path hx hs hp hrows).trans (if_pos hwanted), rfl, rfl⟩
  · intro s core num x hx hp hs hrows hfree stack n b
    have hunwanted : ¬ (x.stage == .running && (s.picks.headD 0 % 2 == 1 || s.refreshDemand x x.nextStep)) = true := by
      rcases hfree with hstage | ⟨hpick, hrefresh⟩
      · simp [hstage]
      · rw [hpick, hrefresh]
        simp
    have hexec := (execRowStep_path hx hs hp hrows).trans (if_neg hunwanted)
    refine ⟨fun hfull => hexec.trans (if_pos hfull), fun hfits s' x' hok hmore => ?_⟩
    have hlast : x.stepTime = if x.path = 0 then 140 else if x.func = 6 then 192 else 300 := by
      unfold RowOp.stepTime clkOfNs
      split_ifs <;> rfl
    have hroom : ¬ s.activatesFit stack x.part n = false := by rw [hfits]; decide
    refine (hexec.trans (if_neg hroom)).trans ?_
    rw [hlast]
    exact congrArg _ (doRowStep_goesOn hok hmore)
  · intro s core num since quiet x hx hsusp
    have hexec : exec (.rowResume core num) s =
        if (decide (quiet + 32 ≤ s.time) && !s.refreshDemand x x.nextStep || decide (since + 4000 ≤ s.time)) = true then
          .next (s.setRow { x with stage := .resumed (s.time + 24) }) else .next s := by
      change execRowResume core num s = _
      unfold execRowResume
      rw [hx]
      simp only [hsusp]
      rfl
    refine ⟨fun hready => hexec.trans (if_pos ?_), fun hquiet hsince => hexec.trans (if_neg ?_), fun hdemand now => ?_⟩
    · simpa using hready
    · rcases hquiet with hquiet | hdemand
      · simp only [Bool.or_eq_true, Bool.and_eq_true, decide_eq_true_eq]
        omega
      · simp [hdemand, hsince]
    · unfold State.noteRow
      simp only [hsusp, hdemand, if_true]

end Sys2Proof.Proofs
end

