-- ==== Sys2Proof/Proofs/Uncleared.lean ====
section
/-!
A granule that is cleared and written again: the refutation of O55. The granules of a destroyed partition are marked
cleared, and its pool granules are given up only then; a dirty L1 line that goes with one of these takes a sector of a
full L2, and the line that leaves for it may lie in a granule just marked, whose mark its dirty bytes take away.
-/

/- One kernel check at a time: each would take a thread's stack of its own. -/
set_option Elab.async false

namespace Sys2Proof.Proofs

open Sys2Proof Sys2Proof.Machine Sys2Proof.Laws Sys2Proof.Safety Sys2Proof.Claims

/-! ### What never marks a granule cleared -/

theorem foldl_cleared_subset {α : Type} {f : State → α → State} (h : ∀ s a, (f s a).cleared ⊆ s.cleared)
    (l : List α) (s : State) : (l.foldl f s).cleared ⊆ s.cleared := by
  induction l generalizing s with
  | nil => exact List.Subset.refl _
  | cons a l ih => exact List.Subset.trans (ih (f s a)) (h s a)

@[simp] theorem mapFrame_cleared (s : State) (pa : Nat) (f : Frame → Frame) : (s.mapFrame pa f).cleared = s.cleared := by
  unfold State.mapFrame
  split <;> rfl

@[simp] theorem countAccess_cleared (s : State) (pa n : Nat) (write : Bool) :
    (s.countAccess pa n write).cleared = s.cleared :=
  mapFrame_cleared ..

theorem noteCorrection_cleared (s : State) (u : Nat) : (s.noteCorrection u).cleared = s.cleared := by
  simp [State.noteCorrection, State.logEvent]

theorem correctUnits_cleared_subset (s : State) (units : List Nat) (one : Nat) (fold : BitVec 16) (open_ : Bool)
    (good : Nat → Bool) : (s.correctUnits units one fold open_ good).cleared ⊆ s.cleared :=
  foldl_cleared_subset (fun s x => by rw [noteCorrection_cleared]; exact List.Subset.refl _) ..

theorem unclear_cleared_subset (s : State) (pa : Nat) (fold : BitVec 16) (open_ : Bool) :
    (s.unclear pa fold open_).cleared ⊆ s.cleared := by
  unfold State.unclear
  split
  · exact List.filter_subset_self ..
  · exact List.Subset.refl _

theorem notMem_unclear_cleared (s : State) (pa : Nat) (fold : BitVec 16) (open_ : Bool) :
    pa / 4096 ∉ (s.unclear pa fold open_).cleared := by
  unfold State.unclear
  split
  · simp
  · next h => simpa [State.isCleared] using h

theorem tierWrite_cleared (s : State) (pa : Nat) (bs : List Byte) (fold : BitVec 16) (open_ : Bool) :
    (s.tierWrite pa bs fold open_).cleared = (s.unclear pa fold open_).cleared := by
  unfold State.tierWrite
  dsimp only
  split
  · split <;> rfl
  · rfl

theorem l2Store_cleared (s : State) (n : Nat) (x : L2Sector) :
    (s.l2Store n x).cleared = ((s.demandActivate (n * 128)).unclear (n * 128) x.fold x.open_).cleared := by
  simp [State.l2Store, State.stampUnit, tierWrite_cleared]

theorem l2Store_cleared_subset (s : State) (n : Nat) (x : L2Sector) : (s.l2Store n x).cleared ⊆ s.cleared :=
  l2Store_cleared s n x ▸ unclear_cleared_subset ..

/-- One sector of a line that leaves the L2. -/
def evictSector (line : Nat) (s : State) (k : Nat) : State :=
  match s.l2Sector? (line * 8 + k) with
  | some x => (if x.dirty then s.l2Store (line * 8 + k) x else s).l2Drop (line * 8 + k)
  | none => s

theorem l2Evict_eq_foldl (s : State) (line : Nat) : s.l2Evict line = (List.range 8).foldl (evictSector line) s := rfl

theorem evictSector_cleared_subset (line : Nat) (s : State) (k : Nat) : (evictSector line s k).cleared ⊆ s.cleared := by
  unfold evictSector
  split
  · split
    · exact l2Store_cleared_subset ..
    · exact List.Subset.refl _
  · exact List.Subset.refl _

theorem l2Evict_cleared_subset (s : State) (line : Nat) : (s.l2Evict line).cleared ⊆ s.cleared :=
  foldl_cleared_subset (evictSector_cleared_subset line) ..

theorem evictLines_cleared_subset (s : State) (lines : List Nat) (n : Nat) :
    ({ lines.foldl State.l2Evict s with fresh := n } : State).cleared ⊆ s.cleared :=
  foldl_cleared_subset l2Evict_cleared_subset lines s

theorem l2Room_cleared_subset (s : State) (n : Nat) : (s.l2Room n).cleared ⊆ s.cleared := by
  unfold State.l2Room
  split
  · exact List.Subset.refl _
  · exact evictLines_cleared_subset ..

theorem l2Fill_cleared_subset_room {s : State} {n : Nat} (h : s.l2Sector? n = none) (fold : BitVec 16) (open_ : Bool) :
    (s.l2Fill n fold open_).cleared ⊆ (s.l2Room n).cleared := by
  simp only [State.l2Fill, h]
  exact List.Subset.trans (correctUnits_cleared_subset ..) (by simp [State.demandActivate])

theorem l2Fill_cleared_subset (s : State) (n : Nat) (fold : BitVec 16) (open_ : Bool) :
    (s.l2Fill n fold open_).cleared ⊆ s.cleared := by
  cases h : s.l2Sector? n with
  | none => exact List.Subset.trans (l2Fill_cleared_subset_room h ..) (l2Room_cleared_subset ..)
  | some x => simp [State.l2Fill, h]

theorem l2Write_cleared (s : State) (pa : Nat) (bs : List Byte) (fold : BitVec 16) (open_ : Bool) :
    (s.l2Write pa bs fold open_).cleared = (s.l2Fill (pa / 128) fold open_).cleared := rfl

theorem l2Write_cleared_subset (s : State) (pa : Nat) (bs : List Byte) (fold : BitVec 16) (open_ : Bool) :
    (s.l2Write pa bs fold open_).cleared ⊆ s.cleared :=
  l2Fill_cleared_subset s ..

theorem l1WriteUnit_cleared_subset (s : State) (l : L1Line) (k : Nat) : (s.l1WriteUnit l k).cleared ⊆ s.cleared := by
  unfold State.l1WriteUnit
  dsimp only
  split
  · exact l2Write_cleared_subset ..
  · exact foldl_cleared_subset (fun _ _ => l2Write_cleared_subset ..) _ s

theorem l2WriteBack_cleared_subset (s : State) (n : Nat) : (s.l2WriteBack n).cleared ⊆ s.cleared := by
  unfold State.l2WriteBack
  split
  · exact List.Subset.refl _
  · split
    · exact List.Subset.refl _
    · exact l2Store_cleared_subset ..

theorem l2Leave_cleared_subset (s : State) (n : Nat) : (s.l2Leave n).cleared ⊆ s.cleared := by
  unfold State.l2Leave
  dsimp only
  split <;> exact l2WriteBack_cleared_subset ..

@[simp] theorem setGranule_cleared (s : State) (pa : Nat) (f : Granule → Granule) :
    (s.setGranule pa f).cleared = s.cleared := by
  unfold State.setGranule
  split <;> rfl

/-! ### The package -/

/-- The frame of the partition: 4 MiB and 128 bytes more, which lie in a pool granule of their own. -/
def grownFrame : Frame := { Frame.blank 0 (2 ^ 22 + 128) with owner := some 0 }

/-- The move of another partition whose window over the 4 MiB is full: no sector of them is written back. -/
def fullMove : Move :=
  { id := 0, part := 1, leaf := { trialLeaf with vbase := 0, size := 2 ^ 22, pa := 0 }, target := 2 ^ 23, phase := 1,
    held := [], count := 64, op := none }

/-- A dirty sector of 4 MiB: the first of a line. -/
def dirtySector (k : Nat) : L2Sector :=
  { sector := 8 * k, fold := 0, open_ := true, dirty := true, data := [], bad := [] }

/-- A dirty byte of the pool granule, behind the bytes of the frame. -/
def dirtyLine : L1Line :=
  { line := 2 ^ 15 + 2, cls := .priv, gen := 0, fold := 0, open_ := true, bytes := [(0, 1, true)] }

/-- The pool granule, which another package asks for. -/
def askedGranule : Granule := { Granule.blank (2 ^ 22) with state := .exclusive, deferred := some true }

/-- The first sector of every line of the 4 MiB. -/
def dirtySectors : List L2Sector := (List.range 4096).map dirtySector

/-- A partition is being destroyed; the L2 holds some sectors, and some granules are marked cleared. -/
def crowdedWith (l2 : List L2Sector) (gs : List Nat) : State :=
  { State.reset with
    parts := [{ trialPartition with ptroot := 2 ^ 23 }], frames := [grownFrame], moves := [fullMove],
    granules := [askedGranule], l2 := l2, cleared := gs, cores := [{ Core.reset with l1 := [dirtyLine] }],
    host := { State.reset.host with booted := true, running := some (0, .destroy 0) } }

@[simp] theorem crowdedWith_l2 (l2 : List L2Sector) (gs : List Nat) : (crowdedWith l2 gs).l2 = l2 := rfl

theorem crowdedWith_l2Sector? (l2 : List L2Sector) (gs : List Nat) (n : Nat) :
    (crowdedWith l2 gs).l2Sector? n = l2.find? (·.sector == n) := rfl

theorem find?_dirtySectors_some {k : Nat} (hk : k < 4096) :
    dirtySectors.find? (·.sector == 8 * k) = some (dirtySector k) := by
  have hfind : (List.range 4096).find? ((fun x : L2Sector => x.sector == 8 * k) ∘ dirtySector) = some k := by
    rw [List.find?_range_eq_some]
    refine ⟨by simp [dirtySector], by simpa using hk, fun j hj => ?_⟩
    simp [dirtySector]
    omega
  rw [dirtySectors, List.find?_map, hfind, Option.map_some]

theorem find?_dirtySectors_none {n : Nat} (hn : 2 ^ 15 ≤ n) : dirtySectors.find? (·.sector == n) = none := by
  simp only [dirtySectors, List.find?_eq_none, List.mem_map, List.mem_range, forall_exists_index, and_imp]
  rintro x k hk rfl
  simp [dirtySector]
  omega

/-! ### The first flush leaves everything where it is -/

theorem crowdedWith_windowFull (l2 : List L2Sector) (gs : List Nat) {pa : Nat} (hpa : pa < 2 ^ 22) :
    (crowdedWith l2 gs).windowFull pa = true := by
  have hmove : (crowdedWith l2 gs).moveAt? pa = some fullMove := by
    have hin : pa < 4194304 := hpa
    simp [State.moveAt?, show (crowdedWith l2 gs).moves = [fullMove] from rfl, fullMove, hin]
  simp [State.windowFull, hmove, fullMove]

theorem l2Leave_eq_self {s : State} {n : Nat} {x : L2Sector} (hx : s.l2Sector? n = some x) (hdirty : x.dirty = true)
    (hfull : s.windowFull (n * 128) = true) : s.l2Leave n = s := by
  have hback : s.l2WriteBack n = s := by simp [State.l2WriteBack, hx, hfull]
  simp [State.l2Leave, hback, hx, hdirty]

theorem foldl_eq_self {α : Type} {f : State → α → State} {s : State} {l : List α} (h : ∀ a ∈ l, f s a = s) :
    l.foldl f s = s := by
  induction l with
  | nil => rfl
  | cons a l ih =>
    rw [List.foldl_cons, h a List.mem_cons_self]
    exact ih fun b hb => h b (List.mem_cons_of_mem _ hb)

/-- The L1 line lies behind the range, and no window lets a sector of it go. -/
theorem crowdedWith_flushRange (gs : List Nat) :
    (crowdedWith dirtySectors gs).flushRange 0 (2 ^ 22 + 128) = crowdedWith dirtySectors gs := by
  have hl1 : (List.range (crowdedWith dirtySectors gs).cores.length).foldl (fun s c =>
      (((s.core c).l1.filter fun l => decide (0 / 128 ≤ l.line) && decide (l.line < (0 + (2 ^ 22 + 128)) / 128)).map
        (·.line)).foldl (fun s n => (s.l1WriteBack c n).l1Drop c n) s) (crowdedWith dirtySectors gs) =
      crowdedWith dirtySectors gs := rfl
  simp only [State.flushRange, hl1, crowdedWith_l2]
  refine foldl_eq_self fun n hn => ?_
  obtain ⟨x, hx, rfl⟩ := List.mem_map.1 hn
  rw [dirtySectors] at hx
  obtain ⟨k, hk, rfl⟩ := List.mem_map.1 (List.mem_of_mem_filter hx)
  have hlt := List.mem_range.1 hk
  have hsector : (crowdedWith dirtySectors gs).l2Sector? (8 * k) = some (dirtySector k) := by
    rw [crowdedWith_l2Sector?, find?_dirtySectors_some hlt]
  exact l2Leave_eq_self hsector rfl (crowdedWith_windowFull _ _ (show 8 * k * 128 < 2 ^ 22 by omega))

/-! ### The sector that leaves for the byte of the granule -/

theorem distinct_eq_self {l : List Nat} (h : l.Nodup) : distinct l = l := by
  induction l with
  | nil => rfl
  | cons x xs ih =>
    obtain ⟨hx, hxs⟩ := List.nodup_cons.1 h
    rw [distinct, ih hxs, List.filter_eq_self.2 fun y hy => by simp; rintro rfl; exact hx hy]

theorem crowdedWith_l2Lines (gs : List Nat) : (crowdedWith dirtySectors gs).l2Lines = List.range 4096 := by
  have hlines : dirtySectors.map (·.sector / 8) = List.range 4096 := by
    rw [dirtySectors, List.map_map]
    exact (List.map_congr_left (g := id) fun k _ => by simp [dirtySector]).trans (List.map_id _)
  rw [State.l2Lines, crowdedWith_l2, hlines, distinct_eq_self List.nodup_range]

theorem crowdedWith_homeSlice (l2 : List L2Sector) (gs : List Nat) {n : Nat} (hn : n ≤ 4096) :
    (crowdedWith l2 gs).homeSlice n = 0 := by
  have hframe : (crowdedWith l2 gs).frame (n * 1024) = grownFrame := by
    have hin : n * 1024 < 4194432 := by omega
    simp [State.frame, State.frame?, show (crowdedWith l2 gs).frames = [grownFrame] from rfl, grownFrame,
      Frame.blank, hin]
  have hslices : (crowdedWith l2 gs).slicesAt (n * 1024) = [0] := by
    rw [State.slicesAt, hframe]
    rfl
  simp [State.homeSlice, hslices, Nat.mod_one]

theorem take_one_drop_range {n k : Nat} (hk : k < n) : ((List.range n ++ List.range n).drop k).take 1 = [k] := by
  have hlength : k < (List.range n).length := by rwa [List.length_range]
  rw [List.drop_append_of_le_length hlength.le, List.drop_eq_getElem_cons hlength, List.getElem_range]
  rfl

/-- One line of the 4 MiB leaves. -/
theorem crowdedWith_l2Room (gs : List Nat) : ∃ k < 4096, ∃ n, (crowdedWith dirtySectors gs).l2Room (2 ^ 15 + 2) =
    { (crowdedWith dirtySectors gs).l2Evict k with fresh := n } := by
  have hlength : dirtySectors.length = 4096 := by simp [dirtySectors]
  have hany : dirtySectors.any (·.sector / 8 == (2 ^ 15 + 2) / 8) = false := by
    rw [List.any_eq_false, dirtySectors]
    intro x hx
    obtain ⟨k, hk, rfl⟩ := List.mem_map.1 hx
    have hlt := List.mem_range.1 hk
    simp [dirtySector]
    omega
  have hslice : (crowdedWith dirtySectors gs).l2Lines.filter (fun l => (crowdedWith dirtySectors gs).homeSlice l ==
      (crowdedWith dirtySectors gs).homeSlice ((2 ^ 15 + 2) / 8)) = List.range 4096 := by
    rw [crowdedWith_l2Lines, List.filter_eq_self]
    intro k hk
    rw [crowdedWith_homeSlice _ _ (List.mem_range.1 hk).le, crowdedWith_homeSlice _ _ (by decide)]
    rfl
  have hk := Nat.mod_lt (Config.freeNat (crowdedWith dirtySectors gs).fresh) (show 0 < 4096 by decide)
  refine ⟨_, hk, (crowdedWith dirtySectors gs).fresh + 1, ?_⟩
  unfold State.l2Room
  rw [if_neg (by rw [crowdedWith_l2, hlength, hany]; decide)]
  simp only [hslice, List.length_range, Nat.add_sub_cancel_left, take_one_drop_range hk, List.foldl_cons, List.foldl_nil]

/-- A dirty sector leaves for its tier, and its granule no longer counts as cleared. -/
theorem notMem_l2Evict_cleared {s : State} {k : Nat} {x : L2Sector} (hx : s.l2Sector? (k * 8) = some x)
    (hdirty : x.dirty = true) : k / 4 ∉ (s.l2Evict k).cleared := by
  have hfirst : evictSector k s 0 = (s.l2Store (k * 8) x).l2Drop (k * 8) := by
    simp [evictSector, hx, hdirty]
  have hout : k / 4 ∉ (evictSector k s 0).cleared := by
    rw [hfirst, show k / 4 = k * 8 * 128 / 4096 by omega]
    exact l2Store_cleared s _ _ ▸ notMem_unclear_cleared _ _ _ _
  rw [l2Evict_eq_foldl, List.range_succ_eq_map, List.foldl_cons]
  exact fun h => hout (foldl_cleared_subset (evictSector_cleared_subset k) _ _ h)

/-! ### The granule is given up -/

theorem crowdedWith_l2Fill (gs : List Nat) (fold : BitVec 16) (open_ : Bool) :
    ∃ k < 4096, k / 4 ∉ ((crowdedWith dirtySectors gs).l2Fill (2 ^ 15 + 2) fold open_).cleared := by
  obtain ⟨k, hk, n, hroom⟩ := crowdedWith_l2Room gs
  have habsent : (crowdedWith dirtySectors gs).l2Sector? (2 ^ 15 + 2) = none := by
    rw [crowdedWith_l2Sector?, find?_dirtySectors_none (by decide)]
  have hsector : (crowdedWith dirtySectors gs).l2Sector? (k * 8) = some (dirtySector k) := by
    rw [Nat.mul_comm k 8, crowdedWith_l2Sector?, find?_dirtySectors_some hk]
  refine ⟨k, hk, fun h => notMem_l2Evict_cleared hsector rfl ?_⟩
  have hcleared := congrArg State.cleared hroom
  dsimp only at hcleared
  rw [← hcleared]
  exact l2Fill_cleared_subset_room habsent fold open_ h

/-- The one dirty byte of the line goes to the L2. -/
theorem crowdedWith_l1WriteUnit (l2 : List L2Sector) (gs : List Nat) :
    (crowdedWith l2 gs).l1WriteUnit dirtyLine 0 = (crowdedWith l2 gs).l2Write ((2 ^ 15 + 2) * 128) [1] 0 true := rfl

theorem crowdedWith_l1WriteBack (l2 : List L2Sector) (gs : List Nat) :
    ((crowdedWith l2 gs).l1WriteBack 0 (2 ^ 15 + 2)).cleared ⊆
      ((crowdedWith l2 gs).l2Fill (2 ^ 15 + 2) 0 true).cleared := by
  have hline : ((crowdedWith l2 gs).core 0).l1Line? (2 ^ 15 + 2) = some dirtyLine := rfl
  have hgen : (crowdedWith l2 gs).genCurrent (2 ^ 15 + 2) dirtyLine.gen = true := rfl
  have hdiv : (2 ^ 15 + 2) * 128 / 128 = 2 ^ 15 + 2 := rfl
  simp only [State.l1WriteBack, hline, hgen, if_true, crowdedWith_l1WriteUnit, updCore_cleared]
  refine List.Subset.trans (l1WriteUnit_cleared_subset ..) ?_
  rw [l2Write_cleared, hdiv]
  exact List.Subset.refl _

theorem crowdedWith_flushGranule (l2 : List L2Sector) (gs : List Nat) :
    ((crowdedWith l2 gs).flushRange (2 ^ 22) 4096).cleared ⊆ ((crowdedWith l2 gs).l2Fill (2 ^ 15 + 2) 0 true).cleared :=
  List.Subset.trans (foldl_cleared_subset l2Leave_cleared_subset ..) (crowdedWith_l1WriteBack l2 gs)

@[simp] theorem giveUp_cleared (s : State) (pa : Nat) :
    (s.giveUp pa).cleared = (s.flushRange (pa / 4096 * 4096) 4096).cleared := by
  simp [State.giveUp, State.triggerRange, State.triggerWhere]

/-- Another package's request is served once the granule is no longer pinned. -/
theorem crowdedWith_unpinned (l2 : List L2Sector) (gs : List Nat) :
    (crowdedWith l2 gs).unpinned 0 (2 ^ 22 + 128) = (crowdedWith l2 gs).giveUp (2 ^ 22) := rfl

/-! ### The command ends -/

theorem crowdedWith_readPte {pa : Nat} (h : 2 ^ 22 ≤ pa) : (crowdedWith dirtySectors []).readPte pa = 0 := by
  have hbyte (i : Nat) : (crowdedWith dirtySectors []).l2Byte (pa + i) = 0 := by
    have habsent : (crowdedWith dirtySectors []).l2Sector? ((pa + i) / 128) = none := by
      rw [crowdedWith_l2Sector?, find?_dirtySectors_none (by omega)]
    have hmove : (crowdedWith dirtySectors []).moveAt? (pa + i) = none := by
      have hout : ¬ pa + i < 4194304 := by omega
      simp [State.moveAt?, show (crowdedWith dirtySectors []).moves = [fullMove] from rfl, fullMove, hout]
    rw [l2Byte_eq_of_absent habsent, State.tierByte, hmove]
    rfl
  simp only [State.readPte, State.l2Bytes, hbyte]
  decide

/-- The partition's page table is empty: it owns its frame by the home agent's entry alone. -/
theorem crowdedWith_framesOf : (crowdedWith dirtySectors []).framesOf 0 = [] := by
  have hroot : ((crowdedWith dirtySectors []).rootOf 0).toNat = 2 ^ 23 := rfl
  have hleaves : (crowdedWith dirtySectors []).leaves 0 = [] := by
    rw [State.leaves, hroot, State.leavesFrom, List.flatMap_eq_nil_iff]
    intro i _
    have hentry : (crowdedWith dirtySectors []).readPte (2 ^ 23 + 16 * i) = 0 := crowdedWith_readPte (by omega)
    simp only [hentry]
    rfl
  rw [State.framesOf, hleaves, List.foldl_nil]

theorem finishDestroy_cleared {s : State} {part pa size : Nat} (hpages : s.framesOf part = [])
    (hframes : (s.frames.filter fun f => f.owner == some part).map (fun f => (f.base, f.size)) = [(pa, size)]) :
    ∃ gs, (s.finishDestroy part).cleared =
      (State.unpinned { (s.flushRange pa size).triggerRange pa size with cleared := gs } pa size).cleared := by
  simp only [State.finishDestroy, hpages, hframes, List.map_nil, List.nil_append, List.foldl_cons, List.foldl_nil]
  exact ⟨_, rfl⟩

theorem crowdedWith_triggerRange (l2 : List L2Sector) (gs : List Nat) (pa size : Nat) :
    (crowdedWith l2 gs).triggerRange pa size = crowdedWith l2 gs := rfl

theorem crowdedWith_clear (l2 : List L2Sector) (gs gs' : List Nat) :
    { crowdedWith l2 gs with cleared := gs' } = crowdedWith l2 gs' := rfl

/-- Some page of the 4 MiB is not marked cleared when the partition is gone. -/
theorem crowdedWith_finishDestroy : ∃ k < 4096, k / 4 ∉ ((crowdedWith dirtySectors []).finishDestroy 0).cleared := by
  obtain ⟨gs, hgs⟩ := finishDestroy_cleared (pa := 0) (size := 2 ^ 22 + 128) crowdedWith_framesOf rfl
  rw [crowdedWith_flushRange, crowdedWith_triggerRange, crowdedWith_clear, crowdedWith_unpinned, giveUp_cleared,
    Nat.div_mul_cancel (by decide)] at hgs
  obtain ⟨k, hk, hout⟩ := crowdedWith_l2Fill gs 0 true
  exact ⟨k, hk, fun h => hout (crowdedWith_flushGranule _ _ (hgs ▸ h))⟩

theorem lookAfter_cleared {s : State} {port part : Nat} (hrun : s.host.running = some (port, .destroy part))
    (hquiet : s.quiet part = true) : s.lookAfter.cleared = (s.finishDestroy part).cleared := by
  simp [State.lookAfter, hrun, State.carryOn, State.commandDone, hquiet, State.finish, State.answer, State.updHost]

theorem exec_destroyPartition_other {s : State} {port : Nat} (hboot : s.host.booted = true) (hport : 1 < port)
    (seq part : Nat) : exec (.destroyPartition port seq part) s = .next s.lookAfter := by
  show s.lifecycle port seq (.destroy part) = .next s.lookAfter
  simp [State.lifecycle, hboot, hport]

/-- Refutes O55: a granule of the partition that has just been marked cleared is written again, and its mark goes, where
a pool granule given up behind it drives a dirty sector of it out of a full L2. -/
theorem not_hostCommandsChangePartitions : ¬ Obligations.HostCommandsChangePartitions := by
  unfold Obligations.HostCommandsChangePartitions
  intro h
  obtain ⟨-, hevents⟩ := h.1 (crowdedWith dirtySectors []) 2 0 0 0 0 0 0 [] []
    { number := 0, cores := [], slices := [], shares := [], activates := 0, prioCeiling := 0, root := 0, fqBase := 0,
      fqDepth := 0 }
  obtain ⟨-, -, hcommands⟩ := hevents (.destroyPartition 2 0 0) (by simp) rfl (Nat.le_refl 2)
  obtain ⟨hdestroy, -⟩ := hcommands 0 { trialPartition with ptroot := 2 ^ 23 }
    ⟨rfl, fun q hq _ => List.mem_singleton.1 hq⟩
  obtain ⟨t, hrun, -, -, hcleared⟩ := (hdestroy rfl).2 rfl
  rw [exec_destroyPartition_other rfl (by decide)] at hrun
  obtain ⟨k, hk, hout⟩ := crowdedWith_finishDestroy
  have hin := hcleared grownFrame List.mem_cons_self rfl rfl (k / 4) (show k / 4 < 1024 by omega)
  rw [← Host.Outcome.next.inj hrun, lookAfter_cleared (port := 0) (part := 0) rfl rfl] at hin
  exact hout (by simpa [grownFrame, Frame.blank] using hin)

end Sys2Proof.Proofs
end

