-- ==== Sys2Proof/Proofs/Encoding.lean ====
section
/-!
Words and instructions: every word is read back to its instruction, and a decoded word encodes back to its own bits
(02_encoding R26 to R49).
-/

set_option Elab.async false

namespace Sys2Proof.Proofs

open Sys2Proof Sys2Proof.Machine Sys2Proof.Laws

/-! ## Reading words back -/

/-- Every instruction with a word is read back from it; an event has no word. -/
theorem readback (i : Instr) : Readback.Statement i := by
  cases i with
  | clauseHeader o => exact Readback.clauseHeader o
  | hint o => exact Readback.hint o
  | immediateExtension o => exact Readback.immediateExtension o
  | arithmeticPrefix o => exact Readback.arithmeticPrefix o
  | memoryPrefix o => exact Readback.memoryPrefix o
  | iadd o => exact Readback.iadd o
  | isub o => exact Readback.isub o
  | imul o => exact Readback.imul o
  | imulhs o => exact Readback.imulhs o
  | imulhu o => exact Readback.imulhu o
  | imins o => exact Readback.imins o
  | imaxs o => exact Readback.imaxs o
  | iminu o => exact Readback.iminu o
  | imaxu o => exact Readback.imaxu o
  | iaddss o => exact Readback.iaddss o
  | isubss o => exact Readback.isubss o
  | iaddI o => exact Readback.iaddI o
  | isubI o => exact Readback.isubI o
  | imulI o => exact Readback.imulI o
  | imulhsI o => exact Readback.imulhsI o
  | imulhuI o => exact Readback.imulhuI o
  | iminsI o => exact Readback.iminsI o
  | imaxsI o => exact Readback.imaxsI o
  | iminuI o => exact Readback.iminuI o
  | imaxuI o => exact Readback.imaxuI o
  | iaddssI o => exact Readback.iaddssI o
  | isubssI o => exact Readback.isubssI o
  | and o => exact Readback.and o
  | or o => exact Readback.or o
  | xor o => exact Readback.xor o
  | andn o => exact Readback.andn o
  | orn o => exact Readback.orn o
  | xnor o => exact Readback.xnor o
  | shl o => exact Readback.shl o
  | shr o => exact Readback.shr o
  | sar o => exact Readback.sar o
  | rotl o => exact Readback.rotl o
  | rotr o => exact Readback.rotr o
  | andI o => exact Readback.andI o
  | orI o => exact Readback.orI o
  | xorI o => exact Readback.xorI o
  | andnI o => exact Readback.andnI o
  | ornI o => exact Readback.ornI o
  | xnorI o => exact Readback.xnorI o
  | shlI o => exact Readback.shlI o
  | shrI o => exact Readback.shrI o
  | sarI o => exact Readback.sarI o
  | rotlI o => exact Readback.rotlI o
  | rotrI o => exact Readback.rotrI o
  | popc o => exact Readback.popc o
  | clz o => exact Readback.clz o
  | ctz o => exact Readback.ctz o
  | brev o => exact Readback.brev o
  | bfez o => exact Readback.bfez o
  | bfes o => exact Readback.bfes o
  | bfi o => exact Readback.bfi o
  | fshl o => exact Readback.fshl o
  | bsel o => exact Readback.bsel o
  | bswap o => exact Readback.bswap o
  | imad o => exact Readback.imad o
  | imadhs o => exact Readback.imadhs o
  | imadhu o => exact Readback.imadhu o
  | imadw o => exact Readback.imadw o
  | imadws o => exact Readback.imadws o
  | isad o => exact Readback.isad o
  | idp4 o => exact Readback.idp4 o
  | idp4z o => exact Readback.idp4z o
  | mov o => exact Readback.mov o
  | movi o => exact Readback.movi o
  | sel o => exact Readback.sel o
  | sext8 o => exact Readback.sext8 o
  | sext16 o => exact Readback.sext16 o
  | zext8 o => exact Readback.zext8 o
  | zext16 o => exact Readback.zext16 o
  | add64 o => exact Readback.add64 o
  | sub64 o => exact Readback.sub64 o
  | shl64 o => exact Readback.shl64 o
  | shr64 o => exact Readback.shr64 o
  | wadd o => exact Readback.wadd o
  | wsub o => exact Readback.wsub o
  | wmul o => exact Readback.wmul o
  | wand o => exact Readback.wand o
  | wor o => exact Readback.wor o
  | wxor o => exact Readback.wxor o
  | wshl o => exact Readback.wshl o
  | wshr o => exact Readback.wshr o
  | wmov o => exact Readback.wmov o
  | wmovi o => exact Readback.wmovi o
  | v2w o => exact Readback.v2w o
  | w2v o => exact Readback.w2v o
  | wlea o => exact Readback.wlea o
  | fadd o => exact Readback.fadd o
  | fsub o => exact Readback.fsub o
  | fmul o => exact Readback.fmul o
  | fmin o => exact Readback.fmin o
  | fmax o => exact Readback.fmax o
  | fminm o => exact Readback.fminm o
  | fmaxm o => exact Readback.fmaxm o
  | fcpysgn o => exact Readback.fcpysgn o
  | fabs o => exact Readback.fabs o
  | fneg o => exact Readback.fneg o
  | fsat o => exact Readback.fsat o
  | ffma o => exact Readback.ffma o
  | ffms o => exact Readback.ffms o
  | fnma o => exact Readback.fnma o
  | hadd2 o => exact Readback.hadd2 o
  | hmul2 o => exact Readback.hmul2 o
  | hfma2 o => exact Readback.hfma2 o
  | hmin2 o => exact Readback.hmin2 o
  | hmax2 o => exact Readback.hmax2 o
  | badd2 o => exact Readback.badd2 o
  | bmul2 o => exact Readback.bmul2 o
  | bfma2 o => exact Readback.bfma2 o
  | bmin2 o => exact Readback.bmin2 o
  | bmax2 o => exact Readback.bmax2 o
  | f2is o => exact Readback.f2is o
  | f2iz o => exact Readback.f2iz o
  | is2f o => exact Readback.is2f o
  | iz2f o => exact Readback.iz2f o
  | f2h2 o => exact Readback.f2h2 o
  | h2fl o => exact Readback.h2fl o
  | h2fh o => exact Readback.h2fh o
  | f2b2 o => exact Readback.f2b2 o
  | b2fl o => exact Readback.b2fl o
  | b2fh o => exact Readback.b2fh o
  | frnd o => exact Readback.frnd o
  | fclass o => exact Readback.fclass o
  | fexp o => exact Readback.fexp o
  | fldexp o => exact Readback.fldexp o
  | rcp o => exact Readback.rcp o
  | rsq o => exact Readback.rsq o
  | sqrt o => exact Readback.sqrt o
  | ex2 o => exact Readback.ex2 o
  | lg2 o => exact Readback.lg2 o
  | sint o => exact Readback.sint o
  | cost o => exact Readback.cost o
  | tanh o => exact Readback.tanh o
  | logi o => exact Readback.logi o
  | shfi o => exact Readback.shfi o
  | shfu o => exact Readback.shfu o
  | shfd o => exact Readback.shfd o
  | shfx o => exact Readback.shfx o
  | qswx o => exact Readback.qswx o
  | qswy o => exact Readback.qswy o
  | qswd o => exact Readback.qswd o
  | qbc o => exact Readback.qbc o
  | vany o => exact Readback.vany o
  | vall o => exact Readback.vall o
  | vbal o => exact Readback.vbal o
  | matchX o => exact Readback.matchX o
  | redi o => exact Readback.redi o
  | redf o => exact Readback.redf o
  | lmask o => exact Readback.lmask o
  | sgset o => exact Readback.sgset o
  | ceq o => exact Readback.ceq o
  | cne o => exact Readback.cne o
  | clt o => exact Readback.clt o
  | cle o => exact Readback.cle o
  | cgt o => exact Readback.cgt o
  | cge o => exact Readback.cge o
  | ctany o => exact Readback.ctany o
  | ctnone o => exact Readback.ctnone o
  | pand o => exact Readback.pand o
  | por o => exact Readback.por o
  | pxor o => exact Readback.pxor o
  | pandn o => exact Readback.pandn o
  | pnot o => exact Readback.pnot o
  | pmov o => exact Readback.pmov o
  | pseti o => exact Readback.pseti o
  | bra o => exact Readback.bra o
  | call o => exact Readback.call o
  | brx o => exact Readback.brx o
  | callx o => exact Readback.callx o
  | ret o => exact Readback.ret o
  | exit o => exact Readback.exit o
  | demote o => exact Readback.demote o
  | yield o => exact Readback.yield o
  | nop o => exact Readback.nop o
  | bkpt o => exact Readback.bkpt o
  | ld8z o => exact Readback.ld8z o
  | ld8s o => exact Readback.ld8s o
  | ld16z o => exact Readback.ld16z o
  | ld16s o => exact Readback.ld16s o
  | ld32 o => exact Readback.ld32 o
  | ld64 o => exact Readback.ld64 o
  | ld128 o => exact Readback.ld128 o
  | ldf32 o => exact Readback.ldf32 o
  | ldfb16 o => exact Readback.ldfb16 o
  | st8 o => exact Readback.st8 o
  | st16 o => exact Readback.st16 o
  | st32 o => exact Readback.st32 o
  | st64 o => exact Readback.st64 o
  | st128 o => exact Readback.st128 o
  | lds32 o => exact Readback.lds32 o
  | lds64 o => exact Readback.lds64 o
  | lds128 o => exact Readback.lds128 o
  | sts32 o => exact Readback.sts32 o
  | sts64 o => exact Readback.sts64 o
  | sts128 o => exact Readback.sts128 o
  | atsadd o => exact Readback.atsadd o
  | atsmax o => exact Readback.atsmax o
  | aadd o => exact Readback.aadd o
  | amins o => exact Readback.amins o
  | amaxs o => exact Readback.amaxs o
  | aminz o => exact Readback.aminz o
  | amaxz o => exact Readback.amaxz o
  | aand o => exact Readback.aand o
  | aor o => exact Readback.aor o
  | axor o => exact Readback.axor o
  | aswp o => exact Readback.aswp o
  | acas o => exact Readback.acas o
  | aincw o => exact Readback.aincw o
  | adecw o => exact Readback.adecw o
  | afadd o => exact Readback.afadd o
  | aadd64 o => exact Readback.aadd64 o
  | acas64 o => exact Readback.acas64 o
  | aswp64 o => exact Readback.aswp64 o
  | radd o => exact Readback.radd o
  | rmins o => exact Readback.rmins o
  | rmaxs o => exact Readback.rmaxs o
  | rminz o => exact Readback.rminz o
  | rmaxz o => exact Readback.rmaxz o
  | rand o => exact Readback.rand o
  | ror o => exact Readback.ror o
  | rxor o => exact Readback.rxor o
  | rswp o => exact Readback.rswp o
  | rfadd o => exact Readback.rfadd o
  | radd64 o => exact Readback.radd64 o
  | fence o => exact Readback.fence o
  | cflush o => exact Readback.cflush o
  | cwb o => exact Readback.cwb o
  | cinv o => exact Readback.cinv o
  | pfl2 o => exact Readback.pfl2 o
  | pfl1 o => exact Readback.pfl1 o
  | qst o => exact Readback.qst o
  | qsel o => exact Readback.qsel o
  | qerr o => exact Readback.qerr o
  | sbchk o => exact Readback.sbchk o
  | mta o => exact Readback.mta o
  | gang o => exact Readback.gang o
  | mmas o => exact Readback.mmas o
  | mmag o => exact Readback.mmag o
  | acz o => exact Readback.acz o
  | acrd o => exact Readback.acrd o
  | acwr o => exact Readback.acwr o
  | acst o => exact Readback.acst o
  | acld o => exact Readback.acld o
  | mprg o => exact Readback.mprg o
  | mrel o => exact Readback.mrel o
  | cpyin o => exact Readback.cpyin o
  | cpyout o => exact Readback.cpyout o
  | cpymc o => exact Readback.cpymc o
  | cpyq2 o => exact Readback.cpyq2 o
  | ringdef o => exact Readback.ringdef o
  | awaitf o => exact Readback.awaitf o
  | rels o => exact Readback.rels o
  | cpyst o => exact Readback.cpyst o
  | rowcpy o => exact Readback.rowcpy o
  | rowfill o => exact Readback.rowfill o
  | rowand o => exact Readback.rowand o
  | rowor o => exact Readback.rowor o
  | rownot o => exact Readback.rownot o
  | rowmaj o => exact Readback.rowmaj o
  | rowsaxpy o => exact Readback.rowsaxpy o
  | rowst o => exact Readback.rowst o
  | bara o => exact Readback.bara o
  | barw o => exact Readback.barw o
  | bars o => exact Readback.bars o
  | warm o => exact Readback.warm o
  | wwait o => exact Readback.wwait o
  | waitv o => exact Readback.waitv o
  | tlwait o => exact Readback.tlwait o
  | tlrd o => exact Readback.tlrd o
  | sleep o => exact Readback.sleep o
  | pin o => exact Readback.pin o
  | unpin o => exact Readback.unpin o
  | taff o => exact Readback.taff o
  | migr o => exact Readback.migr o
  | pgcnt o => exact Readback.pgcnt o
  | twin o => exact Readback.twin o
  | tqry o => exact Readback.tqry o
  | tqryOp o => exact Readback.tqryOp o
  | enq o => exact Readback.enq o
  | stq o => exact Readback.stq o
  | idemb o => exact Readback.idemb o
  | ideme o => exact Readback.ideme o
  | dlaunch o => exact Readback.dlaunch o
  | trap o => exact Readback.trap o
  | sysc o => exact Readback.sysc o
  | fcall o => exact Readback.fcall o
  | rett o => exact Readback.rett o
  | s2v o => exact Readback.s2v o
  | v2s o => exact Readback.v2s o
  | tlbi o => exact Readback.tlbi o  | _ => exact fun w _ h => nomatch (show (none : Option Word) = some w from h)

/-- The instructions with a word are those that are no events. -/
theorem isSome_encode (i : Instr) : i.encode.isSome = i.isWord := by cases i <;> rfl

/-- The reading of a prefix word that the major of the word behind it calls for (R42). -/
theorem memPrefixMajor_iff (m : Word) :
    memPrefixMajor (majorOf m) = true ↔ m.toNat / 2 ^ 26 ∈ [0x20, 0x21, 0x23, 0x24, 0x25, 0x28, 0x29, 0x2A, 0x2C] := by
  simp [memPrefixMajor, majorOf_eq, or_assoc]

/-- Decoding undoes encoding, for a prefix word under its own reading. -/
theorem decode_of_encode {i : Instr} {w m : Word} (hwf : i.wf = true) (henc : i.encode = some w)
    (ha : ∀ o, i = .arithmeticPrefix o → memPrefixMajor (majorOf m) = false)
    (hm : ∀ o, i = .memoryPrefix o → memPrefixMajor (majorOf m) = true) : decode w m = .ok i := by
  have hread : rawDecode (!memPrefixMajor (majorOf m)) w = some i :=
    readback i w _ henc (fun o ho => by simp [ha o ho]) (fun o ho => by simp [hm o ho])
  simp [decode, hread, hwf, henc]

/-- What decodes is well-formed and encodes to the word that it was read from. -/
theorem decode_ok {i : Instr} {w m : Word} (h : decode w m = .ok i) : i.encode = some w ∧ i.wf = true := by
  unfold decode at h
  split at h
  · cases h
  · split at h
    · next j _ hj =>
      obtain rfl := Except.ok.inj h
      simpa [and_comm] using hj
    · cases h

/-- But for prefix words, one word stands for one instruction. -/
theorem encode_injective {i j : Instr} {w : Word} (hi : i.encode = some w) (hj : j.encode = some w)
    (ha : ∀ o, i ≠ .arithmeticPrefix o) (hm : ∀ o, i ≠ .memoryPrefix o) : i = j := by
  have hi' : ∀ arith, rawDecode arith w = some i :=
    fun arith => readback i w arith hi (fun o ho => absurd ho (ha o)) fun o ho => absurd ho (hm o)
  by_cases h : ∃ o, j = .memoryPrefix o
  · obtain ⟨o, rfl⟩ := h
    have hj' := readback _ w false hj (fun _ ho => by cases ho) fun _ _ => rfl
    exact Option.some.inj ((hi' false).symm.trans hj')
  · have hj' := readback _ w true hj (fun _ _ => rfl) fun o ho => absurd ⟨o, ho⟩ h
    exact Option.some.inj ((hi' true).symm.trans hj')

/-- A word is spelled by its bytes. -/
theorem wordOfBytes_extract (w : Word) :
    wordOfBytes (w.extractLsb' 0 8) (w.extractLsb' 8 8) (w.extractLsb' 16 8) (w.extractLsb' 24 8) = w := by
  apply BitVec.eq_of_getLsbD_eq
  intro i hi
  simp only [wordOfBytes, BitVec.getLsbD_append, BitVec.getLsbD_extractLsb']
  split_ifs with h0 h1 h2
  · simp [h0]
  · simp [h1, show 8 + (i - 8) = i by omega]
  · simp [h2, show 16 + (i - 8 - 8) = i by omega]
  · simp [show i - 8 - 8 - 8 < 8 by omega, show 24 + (i - 8 - 8 - 8) = i by omega]

/-- Decoding from bytes is decoding the two words that they spell. -/
theorem decodeBytes_wordBytes (w m : Word) : decodeBytes (wordBytes w ++ wordBytes m) = decode w m := by
  show decode (wordOfBytes _ _ _ _) (wordOfBytes _ _ _ _) = _
  rw [wordOfBytes_extract, wordOfBytes_extract]

/-- The reserved majors (R49). -/
def reservedMajors : List Nat :=
  [0x0D, 0x0F, 0x1B, 0x1C, 0x1D, 0x1E, 0x1F, 0x27, 0x2F, 0x30, 0x31, 0x32, 0x33, 0x34, 0x35, 0x36, 0x37, 0x38, 0x39, 0x3A,
    0x3B]

/-- A reserved major names no instruction. -/
theorem rawDecode_reserved {w : Word} (h : majorOf w ∈ reservedMajors) (arith : Bool) : rawDecode arith w = none := by
  unfold rawDecode
  simp only [reservedMajors, List.mem_cons, List.not_mem_nil, or_false] at h
  rcases h with h | h | h | h | h | h | h | h | h | h | h | h | h | h | h | h | h | h | h | h | h <;> (rw [h]; rfl)

/-- Settles O59: the constructors' own lemmas read every word back, the decoder checks its answer by encoding it again,
and a reserved major has no entry. -/
theorem encodingAndDecodingAgree : Obligations.EncodingAndDecodingAgree := by
  unfold Obligations.EncodingAndDecodingAgree
  refine ⟨fun i w m hwf henc => ?_, fun w m i h => ?_, fun i j w => encode_injective, fun w m h => ?_⟩
  · intro memory ha hm
    have hdec : decode w m = .ok i := decode_of_encode hwf henc
      (fun o ho => Bool.eq_false_iff.2 fun h => ha ⟨o, ho⟩ ((memPrefixMajor_iff m).1 h))
      (fun o ho => (memPrefixMajor_iff m).2 (hm ⟨o, ho⟩))
    exact ⟨hdec, (decodeBytes_wordBytes w m).trans hdec⟩
  · obtain ⟨henc, hwf⟩ := decode_ok h
    exact ⟨henc, hwf, by rw [← isSome_encode, henc, Option.isSome_some]⟩
  · rw [← majorOf_eq] at h
    unfold decode
    rw [rawDecode_reserved h]

/-- Settles O58: each word is the encoding of a well-formed instruction; the last is that of an instruction whose guard is
not well-formed. -/
theorem wordsOfTheEncodingTablesDecode : Obligations.WordsOfTheEncodingTablesDecode := by
  unfold Obligations.WordsOfTheEncodingTablesDecode
  have reads {i : Instr} {w : Word} (m : Word) (hwf : i.wf = true) (henc : i.encode = some w)
      (ha : ∀ o, i ≠ .arithmeticPrefix o) (hm : ∀ o, i ≠ .memoryPrefix o) : decode w m = .ok i :=
    decode_of_encode hwf henc (fun o ho => absurd ho (ha o)) fun o ho => absurd ho (hm o)
  intro m
  refine ⟨reads m rfl rfl nofun nofun, reads m rfl rfl nofun nofun, reads m rfl rfl nofun nofun, reads m rfl rfl nofun nofun,
    reads m rfl rfl nofun nofun, reads m rfl rfl nofun nofun, reads m rfl rfl nofun nofun, reads m rfl rfl nofun nofun, ?_⟩
  have hread : rawDecode (!memPrefixMajor (majorOf m)) 0x05C413F1 =
      some (.iminuI { vd := 4, va := 4, imm := 63, guard := 0, neg := true }) :=
    readback _ _ _ rfl nofun nofun
  unfold decode
  rw [hread]
  rfl

end Sys2Proof.Proofs
end

