-- ==== Sys2Proof/Proofs/IntegerTables.lean ====
section
/-!
The results of the integer words: each function of the model is the entry of its table, by exact arithmetic
(04_integer R94 to R100).
-/

set_option Elab.async false

namespace Sys2Proof.Proofs

open Sys2Proof Sys2Proof.Machine Sys2Proof.Laws Sys2Proof.Safety Sys2Proof.Claims

/-! ## Fields and halves of words -/

theorem field_eq {n : Nat} (x : BitVec n) (hi lo : Nat) : field x hi lo = x.toNat / 2 ^ lo % 2 ^ (hi + 1 - lo) := rfl

theorem shiftCount_eq (b : Word) : shiftCount b = b.toNat % 256 := by simp [shiftCount, field_eq]

theorem lo32_eq (x : DWord) : lo32 x = BitVec.ofNat 32 x.toNat := by
  apply BitVec.eq_of_toNat_eq
  simp [lo32]

theorem hi32_eq (x : DWord) : hi32 x = BitVec.ofNat 32 (x.toNat / 2 ^ 32) := by
  apply BitVec.eq_of_toNat_eq
  simp [hi32, Nat.shiftRight_eq_div_pow]

/-- The two registers of a pair hold its halves (R48). -/
theorem words_eq (x : DWord) : words x = [lo32 x, hi32 x] := by rw [words, lo32_eq, hi32_eq]

/-- A value put over another in one word. -/
theorem append_eq_ofNat {m n : Nat} (x : BitVec m) (y : BitVec n) :
    x ++ y = BitVec.ofNat (m + n) (x.toNat * 2 ^ n + y.toNat) := by
  apply BitVec.eq_of_toNat_eq
  have hx := x.isLt
  have hy := y.isLt
  have hlt : x.toNat * 2 ^ n + y.toNat < 2 ^ (m + n) := by
    calc x.toNat * 2 ^ n + y.toNat < x.toNat * 2 ^ n + 2 ^ n := by omega
      _ = (x.toNat + 1) * 2 ^ n := by ring
      _ ≤ 2 ^ m * 2 ^ n := Nat.mul_le_mul_right _ hx
      _ = 2 ^ (m + n) := (Nat.pow_add 2 m n).symm
  rw [BitVec.toNat_append, BitVec.toNat_ofNat, Nat.mod_eq_of_lt hlt, ← Nat.shiftLeft_add_eq_or_of_lt hy,
    Nat.shiftLeft_eq]

/-- The pair of two registers (R48). -/
theorem reg64_eq (t : Thread) (n : Nat) : t.reg64 n = pairOf t n := append_eq_ofNat _ _

/-! ## Arithmetic (R94) -/

theorem add_eq (a b : Word) : a + b = BitVec.ofNat 32 (a.toNat + b.toNat) := by
  apply BitVec.eq_of_toNat_eq; simp

theorem sub_eq (a b : Word) : a - b = BitVec.ofInt 32 ((a.toNat : Int) - b.toNat) := by
  have hb := b.isLt
  apply BitVec.eq_of_toNat_eq
  rw [BitVec.toNat_sub, BitVec.toNat_ofInt]
  omega

theorem mul_eq (a b : Word) : a * b = BitVec.ofNat 32 (a.toNat * b.toNat) := by
  apply BitVec.eq_of_toNat_eq; simp

theorem zext_mul_toNat (a b : Word) : (zext 64 a * zext 64 b).toNat = a.toNat * b.toNat := by
  have : a.toNat * b.toNat < 2 ^ 32 * 2 ^ 32 := Nat.mul_lt_mul'' a.isLt b.isLt
  have ha := a.isLt
  have hb := b.isLt
  simp only [zext, BitVec.toNat_mul, BitVec.toNat_setWidth]
  rw [Nat.mod_eq_of_lt (a := a.toNat) (by omega), Nat.mod_eq_of_lt (a := b.toNat) (by omega), Nat.mod_eq_of_lt (by omega)]

theorem sext_mul_eq (a b : Word) : sext 64 a * sext 64 b = BitVec.ofInt 64 (a.toInt * b.toInt) := by
  rw [BitVec.ofInt_mul]
  simp [sext, BitVec.signExtend]

theorem mulHighU_eq (a b : Word) : mulHighU a b = BitVec.ofNat 32 (a.toNat * b.toNat / 2 ^ 32) := by
  rw [mulHighU, hi32_eq, zext_mul_toNat]

/-- The high half of a 64-bit value given by an integer. -/
theorem hi32_ofInt (x : Int) : hi32 (BitVec.ofInt 64 x) = BitVec.ofInt 32 (x / 2 ^ 32) := by
  apply BitVec.eq_of_toInt_eq
  rw [hi32_eq, BitVec.toInt_ofInt, BitVec.toInt_eq_toNat_bmod, BitVec.toNat_ofNat, BitVec.toNat_ofInt]
  rw [show ((x % ((2 ^ 64 : Nat) : Int)).toNat / 2 ^ 32 % 2 ^ 32 : Nat) = ((x / 2 ^ 32) % 2 ^ 32).toNat by omega]
  rw [Int.toNat_of_nonneg (by omega)]
  exact Int.emod_bmod _ _

theorem mulHighS_eq (a b : Word) : mulHighS a b = BitVec.ofInt 32 (a.toInt * b.toInt / 2 ^ 32) := by
  rw [mulHighS, sext_mul_eq, hi32_ofInt]

theorem minS_eq (a b : Word) : minS a b = if a.toInt ≤ b.toInt then a else b := by
  simp [minS, BitVec.sle]

theorem maxS_eq (a b : Word) : maxS a b = if a.toInt ≤ b.toInt then b else a := by
  simp [maxS, BitVec.sle]

theorem minU_eq (a b : Word) : minU a b = if a.toNat ≤ b.toNat then a else b := by
  simp [minU, BitVec.ule]

theorem maxU_eq (a b : Word) : maxU a b = if a.toNat ≤ b.toNat then b else a := by
  simp [maxU, BitVec.ule]

theorem sat32_eq (x : Int) : sat32 x = saturated x := by
  unfold sat32 saturated
  split_ifs with hlo hhi
  · rw [show max (-2147483648) (min 2147483647 x) = -2147483648 by omega]; rfl
  · rw [show max (-2147483648) (min 2147483647 x) = 2147483647 by omega]; rfl
  · rw [show max (-2147483648) (min 2147483647 x) = x by omega]

/-! ## Shifts (R95, R100) -/

theorem shl32_eq (a b : Word) :
    shl32 a b = if b.toNat % 256 < 32 then BitVec.ofNat 32 (a.toNat * 2 ^ (b.toNat % 256)) else 0 := by
  rw [shl32, shiftCount_eq]
  congr 1
  apply BitVec.eq_of_toNat_eq
  simp [Nat.shiftLeft_eq]

theorem shr32_eq (a b : Word) :
    shr32 a b = if b.toNat % 256 < 32 then BitVec.ofNat 32 (a.toNat / 2 ^ (b.toNat % 256)) else 0 := by
  rw [shr32, shiftCount_eq]
  congr 1
  apply BitVec.eq_of_toNat_eq
  rw [BitVec.toNat_ushiftRight, BitVec.toNat_ofNat, Nat.shiftRight_eq_div_pow,
    Nat.mod_eq_of_lt ((Nat.div_le_self _ _).trans_lt a.isLt)]

theorem sar32_eq (a b : Word) : sar32 a b = BitVec.ofInt 32 (a.toInt / 2 ^ min (b.toNat % 256) 31) := by
  rw [sar32, shiftCount_eq, ← BitVec.ofInt_toInt (x := a.sshiftRight _), BitVec.toInt_sshiftRight,
    Int.shiftRight_eq_div_pow]
  norm_cast

theorem rotl32_eq (a b : Word) :
    rotl32 a b = BitVec.ofNat 32 (a.toNat * 2 ^ (b.toNat % 32) + a.toNat / 2 ^ (32 - b.toNat % 32)) := by
  have ha := a.isLt
  have hk : b.toNat % 32 < 32 := Nat.mod_lt _ (by omega)
  rw [rotl32, field_eq]
  simp only [Nat.pow_zero, Nat.div_one, Nat.reduceAdd, Nat.reduceSub, Nat.reducePow]
  generalize b.toNat % 32 = k at hk ⊢
  have hlow : a.toNat / 2 ^ (32 - k) < 2 ^ k := by
    rw [Nat.div_lt_iff_lt_mul (by positivity), ← Nat.pow_add, show k + (32 - k) = 32 by omega]
    exact ha
  apply BitVec.eq_of_toNat_eq
  rw [BitVec.toNat_rotateLeft, BitVec.toNat_ofNat, ← Nat.shiftLeft_eq, Nat.shiftLeft_add_eq_or_of_lt hlow, Nat.or_mod_two_pow,
    Nat.mod_eq_of_lt hk, Nat.shiftRight_eq_div_pow, Nat.mod_eq_of_lt (a := a.toNat / _) ((Nat.div_le_self _ _).trans_lt ha)]

theorem rotr32_eq (a b : Word) :
    rotr32 a b = BitVec.ofNat 32 (a.toNat / 2 ^ (b.toNat % 32) + a.toNat * 2 ^ (32 - b.toNat % 32)) := by
  have ha := a.isLt
  have hk : b.toNat % 32 < 32 := Nat.mod_lt _ (by omega)
  rw [rotr32, field_eq]
  simp only [Nat.pow_zero, Nat.div_one, Nat.reduceAdd, Nat.reduceSub, Nat.reducePow]
  generalize b.toNat % 32 = k at hk ⊢
  have hlow : a.toNat / 2 ^ k < 2 ^ (32 - k) := by
    rw [Nat.div_lt_iff_lt_mul (by positivity), ← Nat.pow_add, show 32 - k + k = 32 by omega]
    exact ha
  apply BitVec.eq_of_toNat_eq
  rw [BitVec.toNat_rotateRight, BitVec.toNat_ofNat, Nat.add_comm, ← Nat.shiftLeft_eq, Nat.shiftLeft_add_eq_or_of_lt hlow,
    Nat.or_mod_two_pow, Nat.mod_eq_of_lt hk, Nat.shiftRight_eq_div_pow,
    Nat.mod_eq_of_lt (a := a.toNat / _) ((Nat.div_le_self _ _).trans_lt ha), Nat.lor_comm]

theorem shl64_eq (a : DWord) (b : Word) : shl64 a b = shiftedBy true a (b.toNat % 256) := by
  rw [shl64, shiftCount_eq, shiftedBy]
  by_cases h : b.toNat % 256 < 64
  · rw [if_pos h, if_neg (by omega), if_pos rfl]
    apply BitVec.eq_of_toNat_eq
    simp [Nat.shiftLeft_eq]
  · rw [if_neg h, if_pos (by omega)]

theorem shr64_eq (a : DWord) (b : Word) : shr64 a b = shiftedBy false a (b.toNat % 256) := by
  rw [shr64, shiftCount_eq, shiftedBy]
  by_cases h : b.toNat % 256 < 64
  · rw [if_pos h, if_neg (by omega), if_neg (by simp)]
    apply BitVec.eq_of_toNat_eq
    rw [BitVec.toNat_ushiftRight, BitVec.toNat_ofNat, Nat.shiftRight_eq_div_pow,
      Nat.mod_eq_of_lt ((Nat.div_le_self _ _).trans_lt a.isLt)]
  · rw [if_neg h, if_pos (by omega)]

/-! ## Fields, bytes and sums of products (R96 to R99) -/

theorem fieldWidth_eq (ctl : Word) : fieldWidth ctl = widthOf ctl := by
  simp [fieldWidth, widthOf, fieldPos, field_eq]

theorem fieldMask_eq (ctl : Word) :
    fieldMask ctl = BitVec.ofNat 32 ((2 ^ widthOf ctl - 1) * 2 ^ (ctl.toNat % 256)) := by
  simp [fieldMask, fieldWidth_eq, fieldPos, field_eq]

theorem fieldInsert_eq (a ctl c : Word) : fieldInsert a ctl c =
    (c &&& ~~~(BitVec.ofNat 32 ((2 ^ widthOf ctl - 1) * 2 ^ (ctl.toNat % 256)))) |||
      ((a <<< (ctl.toNat % 256)) &&& BitVec.ofNat 32 ((2 ^ widthOf ctl - 1) * 2 ^ (ctl.toNat % 256))) := by
  simp [fieldInsert, fieldMask_eq, fieldPos, field_eq]

theorem funnelShift_eq (a b c : Word) :
    funnelShift a b c = BitVec.ofNat 32 ((a.toNat * 2 ^ 32 + b.toNat) * 2 ^ (c.toNat % 32) / 2 ^ 32) := by
  have hs : field c 4 0 = c.toNat % 32 := by simp [field_eq]
  rw [funnelShift, hs, hi32_eq, append_eq_ofNat]
  apply BitVec.eq_of_toNat_eq
  simp only [BitVec.toNat_ofNat, BitVec.toNat_shiftLeft, Nat.shiftLeft_eq]
  generalize c.toNat % 32 = k
  have ha := a.isLt
  have hb := b.isLt
  rw [Nat.mod_eq_of_lt (a := a.toNat * 2 ^ 32 + b.toNat) (by omega)]
  omega

/-- A byte of a word. -/
theorem byteOf_eq (a : Word) (i : Nat) : byteOf a i = BitVec.ofNat 8 (a.toNat / 2 ^ (8 * i)) := by
  apply BitVec.eq_of_toNat_eq
  simp [byteOf, Nat.shiftRight_eq_div_pow]

theorem sumBytes_eq (f : Byte → Byte → Int) (a b : Word) : sumBytes f a b = overBytes f a b := by
  simp only [sumBytes, overBytes, byteOf_eq, List.range_succ, List.range_zero, List.nil_append, List.map_cons,
    List.map_nil, List.cons_append, List.sum_cons, List.sum_nil]
  ring

theorem absDiffSum_eq (a b c : Word) : absDiffSum a b c =
    BitVec.ofInt 32 (c.toNat + overBytes (fun x y => ((x.toNat : Int) - y.toNat).natAbs) a b) := by
  rw [absDiffSum, sumBytes_eq]

theorem dotS_eq (a b c : Word) :
    dotS a b c = BitVec.ofInt 32 (c.toNat + overBytes (fun x y => x.toInt * y.toInt) a b) := by
  rw [dotS, sumBytes_eq]

theorem dotU_eq (a b c : Word) :
    dotU a b c = BitVec.ofInt 32 (c.toNat + overBytes (fun x y => (x.toNat * y.toNat : Nat)) a b) := by
  rw [dotU, sumBytes_eq]
  simp only [Nat.cast_mul]

theorem imad_eq (a b c : Word) : a * b + c = BitVec.ofNat 32 (a.toNat * b.toNat + c.toNat) := by
  apply BitVec.eq_of_toNat_eq; simp

theorem imadhs_eq (a b c : Word) : mulHighS a b + c = BitVec.ofInt 32 (a.toInt * b.toInt / 2 ^ 32 + c.toNat) := by
  rw [mulHighS_eq, BitVec.ofInt_add]
  congr 1
  simp

theorem imadhu_eq (a b c : Word) : mulHighU a b + c = BitVec.ofNat 32 (a.toNat * b.toNat / 2 ^ 32 + c.toNat) := by
  rw [mulHighU_eq]
  apply BitVec.eq_of_toNat_eq; simp

theorem imadw_eq (a b : Word) (c : DWord) :
    zext 64 a * zext 64 b + c = BitVec.ofNat 64 (a.toNat * b.toNat + c.toNat) := by
  apply BitVec.eq_of_toNat_eq
  rw [BitVec.toNat_add, zext_mul_toNat, BitVec.toNat_ofNat]

theorem imadws_eq (a b : Word) (c : DWord) :
    sext 64 a * sext 64 b + c = BitVec.ofInt 64 (a.toInt * b.toInt + c.toNat) := by
  rw [sext_mul_eq, BitVec.ofInt_add]
  congr 1
  simp

/-! ## Bytes selected (R98) -/

/-- The byte that BSEL takes at place k, before signs and zeros. -/
theorem selected_eq (a b c : Word) (k : Nat) : (b ++ a).extractLsb' (8 * field c (3 * k + 2) (3 * k)) 8 =
    BitVec.ofNat 8 ((b.toNat * 2 ^ 32 + a.toNat) / 2 ^ (8 * (c.toNat / 2 ^ (3 * k) % 8))) := by
  have hf : field c (3 * k + 2) (3 * k) = c.toNat / 2 ^ (3 * k) % 8 := by
    rw [field_eq, show 3 * k + 2 + 1 - 3 * k = 3 by omega]; rfl
  have hlt : b.toNat * 2 ^ 32 + a.toNat < 2 ^ (32 + 32) := by
    have ha := a.isLt
    have hb := b.isLt
    omega
  rw [hf]
  apply BitVec.eq_of_toNat_eq
  rw [append_eq_ofNat, BitVec.extractLsb'_toNat, BitVec.toNat_ofNat, BitVec.toNat_ofNat, Nat.mod_eq_of_lt hlt,
    Nat.shiftRight_eq_div_pow]

/-- A byte put above a result of fewer bytes is added to it at its place. -/
theorem append_byte_eq (x : Byte) {n : Nat} (r : BitVec n) :
    (x ++ r).setWidth 32 = r.setWidth 32 + BitVec.ofNat 32 (x.toNat * 2 ^ n) := by
  have hlt : x.toNat * 2 ^ n + r.toNat < 2 ^ (8 + n) := by
    have hx := x.isLt
    have hr := r.isLt
    rw [Nat.pow_add]
    nlinarith
  apply BitVec.eq_of_toNat_eq
  rw [append_eq_ofNat]
  simp only [BitVec.toNat_setWidth, BitVec.toNat_ofNat, BitVec.toNat_add]
  rw [Nat.mod_eq_of_lt hlt, Nat.add_mod_mod, Nat.mod_add_mod, Nat.add_comm]

/-- A step of BSEL puts the selected byte above the bytes below it, of which `below` is the highest. -/
theorem selectStep_eq (a b c : Word) (k n : Nat) (hn : n = 8 * k) (r : BitVec n) (below : Byte) (hk : k < 4)
    (h : 1 ≤ k → below.getLsbD 7 = r.getLsbD (n - 1)) :
    selectStep a b c (r.setWidth 32) k = (selectByte a b c k below ++ r).setWidth 32 := by
  subst hn
  have hbit : 1 ≤ k → (r.setWidth 32).getLsbD (8 * k - 1) = below.getLsbD 7 := by
    intro h1
    rw [BitVec.getLsbD_setWidth, h h1]
    simp
    omega
  have hx : ∀ x : Byte, x = selectByte a b c k below → selectStep a b c (r.setWidth 32) k =
      r.setWidth 32 + BitVec.ofNat 32 (x.toNat * 2 ^ (8 * k)) := by
    rintro x rfl
    unfold selectStep selectByte
    rw [selected_eq]
    by_cases h1 : 1 ≤ k
    · simp only [hbit h1, ge_iff_le, h1, true_and, decide_true, Bool.true_and]
    · simp only [ge_iff_le, h1, false_and, decide_false, Bool.false_and, if_false, Bool.false_eq_true]
  rw [hx _ rfl, append_byte_eq]

theorem byteSelect_eq (a b c : Word) : byteSelect a b c = [0, 1, 2, 3].foldl (selectStep a b c) 0 := by
  unfold byteSelect
  simp only [List.foldl_cons, List.foldl_nil]
  generalize hx0 : selectByte a b c 0 0 = x0
  generalize hx1 : selectByte a b c 1 x0 = x1
  generalize hx2 : selectByte a b c 2 x1 = x2
  generalize hx3 : selectByte a b c 3 x2 = x3
  have h0 := selectStep_eq a b c 0 0 rfl 0#0 0 (by omega) (by omega)
  have h1 := selectStep_eq a b c 1 8 rfl x0 x0 (by omega) (fun _ => rfl)
  have h2 := selectStep_eq a b c 2 16 rfl (x1 ++ x0) x1 (by omega) (fun _ => by rw [BitVec.getLsbD_append]; rfl)
  have h3 := selectStep_eq a b c 3 24 rfl (x2 ++ (x1 ++ x0)) x2 (by omega) (fun _ => by rw [BitVec.getLsbD_append]; rfl)
  have e0 : selectStep a b c 0 0 = x0.setWidth 32 := by
    rw [show (0 : Word) = (0#0).setWidth 32 from rfl, h0, hx0]
    simp
  rw [e0, h1, hx1, h2, hx2, h3, hx3]
  apply BitVec.eq_of_getLsbD_eq
  intro i hi
  simp only [BitVec.getLsbD_append, BitVec.getLsbD_setWidth, hi, decide_true, Bool.true_and]
  grind

end Sys2Proof.Proofs
end

