-- ==== Sys2Proof/Proofs/IntegerWords.lean ====
section
/-!
The integer words with an immediate or a third source, those over pairs, and SEL (04_integer R90 to R102).
-/

set_option Elab.async false

namespace Sys2Proof.Proofs

open Sys2Proof Sys2Proof.Machine Sys2Proof.Laws Sys2Proof.Safety Sys2Proof.Claims

/-! ## What an arithmetic word does to a member -/

@[simp] theorem setRegs_late (t : Thread) (n : Nat) (xs : List Word) : (t.setRegs n xs).late = t.late := by
  induction xs generalizing t n with
  | nil => rfl
  | cons x xs ih => rw [Thread.setRegs, ih, setReg_late]

@[simp] theorem arithmetic_late (g : Group) (act : Bool) (vd : Nat) (r : List Word × BitVec 5) (t : Thread) :
    (arithmetic g act vd r t).late = t.late := by
  unfold arithmetic
  split_ifs <;> simp

/-- One member of an arithmetic word that has as many results as destinations (R43, R92). -/
theorem arith_eq (g : Group) (act : Bool) (vd nd : Nat) (f : Thread → List Word × BitVec 5) (t : Thread)
    (hn : (f t).1.length = nd) : t.arith g.arith act vd nd f = arithmetic g act vd (f t) t := by
  subst hn
  unfold Thread.arith arithmetic
  cases act
  · rfl
  · rw [← List.map_const]
    rfl

/-- A ready arithmetic word gives each member its results. -/
theorem ready_arith {s : State} {g : Group} {rule : WordRule} {regs : List Nat} (h : Ready s g rule regs)
    {fill : Group → State → State} (hfill : fill g s = s) {guard : Thread → Bool} {vd nd : Nat}
    {f : Group → Thread → List Word × BitVec 5} {r : Thread → List Word × BitVec 5} (hr : ∀ t, f g t = r t)
    (hn : ∀ t, (r t).1.length = nd) :
    issue rule regs fill noHold (fun g s => s.mapGroup g.id fun _ t => t.arith g.arith (guard t) vd nd (f g)) s =
      .next (after s g fun _ t => arithmetic g (guard t) vd (r t) t) := by
  have hf : (fun (_ : Workgroup) t => t.arith g.arith (guard t) vd nd (f g)) =
      fun _ t => arithmetic g (guard t) vd (r t) t := by
    obtain rfl : f g = r := funext hr
    exact funext fun _ => funext fun t => arith_eq g _ vd nd _ t (hn t)
  exact ready_mapGroup h hfill rfl (congrArg _ hf) (fun _ _ => rfl) fun _ _ => arithmetic_late ..

section

variable {s : State} {g : Group}

/-! ## Immediates (R41, R90) -/

theorem extended_eq (e : BitVec 26) (imm : BitVec 6) : e ++ imm = BitVec.ofNat 32 (e.toNat * 64 + imm.toNat) :=
  append_eq_ofNat e imm

theorem immS_eq (g : Group) (imm : BitVec 6) : g.immS imm = immediate g true imm := by
  unfold Group.immS Group.extended immediate
  cases g.mods.ext with
  | some e => exact extended_eq _ _
  | none => rfl

theorem immZ_eq (g : Group) (imm : BitVec 6) : g.immZ imm = immediate g false imm := by
  unfold Group.immZ Group.extended immediate
  cases g.mods.ext with
  | some e => exact extended_eq _ _
  | none => exact BitVec.eq_of_toNat_eq (by simp [zext])

/-- A word with an immediate writes its function of v[va] and the immediate. -/
theorem intVI_eq {o : VIArgs} (h : Ready s g { plainArith with ext := true } [o.vd.toNat, o.va.toNat])
    {imm : Group → BitVec 6 → Word} {signed : Bool} (himm : imm g o.imm = immediate g signed o.imm)
    {f f' : Word → Word → Word} (hf : ∀ a b, f a b = f' a b) :
    intVI o imm f s = .next (after s g fun _ t => arithmetic g (t.guard o.guard o.neg) o.vd.toNat
      ([f' (t.reg o.va.toNat) (immediate g signed o.imm)], 0) t) := by
  unfold intVI arithWord
  refine ready_arith h ?_ (fun t => ?_) fun _ => rfl
  · exact ready_fillSources h _ _ _
  · rw [himm, hf]

/-- The words with an immediate: each is its function of v[va] and the immediate that its func extends (R90). -/
def ImmediateWord (p : (VIArgs → Instr) × (Word → Word → Word) × Bool) : Prop :=
  ∃ f : Word → Word → Word, (∀ o s, exec (p.1 o) s = intVI o (if p.2.2 then Group.immS else Group.immZ) f s) ∧
    ∀ a b, f a b = p.2.1 a b

theorem arithmeticImmediates_eq :
    ∀ p ∈ (arithmeticImmediates.zip arithmeticResult).map (fun p => (p.1, p.2, true)), ImmediateWord p := by
  simp only [arithmeticImmediates, arithmeticResult, List.zip_cons_cons, List.zip_nil_right, List.map_cons, List.map_nil,
    List.forall_mem_cons, List.not_mem_nil, false_imp_iff, implies_true, and_true]
  exact ⟨⟨fun a b => a + b, fun _ _ => rfl, add_eq⟩, ⟨fun a b => a - b, fun _ _ => rfl, sub_eq⟩, ⟨fun a b => a * b, fun _ _ => rfl, mul_eq⟩,
    ⟨mulHighS, fun _ _ => rfl, mulHighS_eq⟩, ⟨mulHighU, fun _ _ => rfl, mulHighU_eq⟩, ⟨minS, fun _ _ => rfl, minS_eq⟩,
    ⟨maxS, fun _ _ => rfl, maxS_eq⟩, ⟨minU, fun _ _ => rfl, minU_eq⟩, ⟨maxU, fun _ _ => rfl, maxU_eq⟩,
    ⟨addSat, fun _ _ => rfl, fun _ _ => sat32_eq _⟩, ⟨subSat, fun _ _ => rfl, fun _ _ => sat32_eq _⟩⟩

theorem logicImmediates_eq :
    ∀ p ∈ (logicImmediates.zip logicResult).mapIdx (fun n p => (p.1, p.2, decide (n ≤ 5))), ImmediateWord p := by
  simp only [logicImmediates, logicResult, List.zip_cons_cons, List.zip_nil_right, List.mapIdx_cons, List.mapIdx_nil,
    List.forall_mem_cons, List.not_mem_nil, false_imp_iff, implies_true, and_true]
  exact ⟨⟨fun a b => a &&& b, fun _ _ => rfl, fun _ _ => rfl⟩, ⟨fun a b => a ||| b, fun _ _ => rfl, fun _ _ => rfl⟩, ⟨fun a b => a ^^^ b, fun _ _ => rfl, fun _ _ => rfl⟩,
    ⟨fun a b => a &&& ~~~b, fun _ _ => rfl, fun _ _ => rfl⟩, ⟨fun a b => a ||| ~~~b, fun _ _ => rfl, fun _ _ => rfl⟩, ⟨fun a b => ~~~(a ^^^ b), fun _ _ => rfl, fun _ _ => rfl⟩,
    ⟨shl32, fun _ _ => rfl, shl32_eq⟩, ⟨shr32, fun _ _ => rfl, shr32_eq⟩, ⟨sar32, fun _ _ => rfl, sar32_eq⟩,
    ⟨rotl32, fun _ _ => rfl, rotl32_eq⟩, ⟨rotr32, fun _ _ => rfl, rotr32_eq⟩⟩

/-- Settles O2: each word is its function of R94 or R95 and forms its immediate as its func says; the functions agree with
the tables. -/
theorem immediateWordsUseTheImmediateOfTheirFunc : Obligations.ImmediateWordsUseTheImmediateOfTheirFunc := by
  unfold Obligations.ImmediateWordsUseTheImmediateOfTheirFunc
  intro s g o h
  refine ⟨fun p hp => ?_, fun m hm => ?_⟩
  · obtain ⟨f, hexec, hf⟩ := (List.mem_append.1 hp).elim (arithmeticImmediates_eq p) (logicImmediates_eq p)
    rw [hexec]
    refine intVI_eq h ?_ hf
    cases p.2.2
    · exact immZ_eq g o.imm
    · exact immS_eq g o.imm
  · show execMovi m s = _
    unfold execMovi arithWord
    refine ready_arith hm ?_ (fun t => ?_) fun _ => rfl
    · exact ready_fillSources hm _ _ _
    · rw [immS_eq]

/-! ## Words of a third source (R91, R96 to R99) -/

/-- A word of a third source writes its function of v[va], v[vb] and that source. -/
theorem intThird_eq {o : V3Args} (h : Ready s g { plainArith with v4 := .reg } [o.vd.toNat, o.va.toNat, o.vb.toNat])
    {f f' : Word → Word → Word → Word} (hf : ∀ a b c, f a b c = f' a b c) :
    intThird o f s = .next (after s g fun _ t => arithmetic g (t.guard o.guard o.neg) o.vd.toNat
      ([f' (t.reg o.va.toNat) (t.reg o.vb.toNat) (t.reg (thirdSource g o.vd.toNat))], 0) t) := by
  unfold intThird
  refine ready_arith h ?_ (fun t => ?_) fun _ => rfl
  · exact ready_fillSources h _ _ _
  · rw [hf]; rfl

/-- A word of a third source pair writes its function, a pair. -/
theorem intThird64_eq {o : V3Args}
    (h : Ready s g { plainArith with v4 := .pair } [o.vd.toNat, o.vd.toNat + 1, o.va.toNat, o.vb.toNat])
    {f f' : Word → Word → DWord → DWord} (hf : ∀ a b c, f a b c = f' a b c) :
    intThird64 o f s = .next (after s g fun _ t => arithmetic g (t.guard o.guard o.neg) o.vd.toNat
      (words (f' (t.reg o.va.toNat) (t.reg o.vb.toNat) (pairOf t (thirdSource g o.vd.toNat))), 0) t) := by
  unfold intThird64
  refine ready_arith h ?_ (fun t => ?_) fun _ => rfl
  · exact ready_fillSources h _ _ _
  · rw [words_eq, ← hf, ← reg64_eq]; rfl

/-! ## Words over pairs (R100, R102) -/

/-- A word over pairs writes its function of the pair at va and of the thread, a pair. -/
theorem intPair_eq {o : V3Args} {nb : Nat}
    (h : Ready s g plainArith ([o.vd.toNat, o.vd.toNat + 1, o.va.toNat, o.va.toNat + 1] ++ registers o.vb.toNat nb))
    {f f' : DWord → Thread → DWord} (hf : ∀ a t, f a t = f' a t) :
    intPair o nb f s = .next (after s g fun _ t => arithmetic g (t.guard o.guard o.neg) o.vd.toNat
      (words (f' (pairOf t o.va.toNat) t), 0) t) := by
  unfold intPair arithWord
  refine ready_arith h ?_ (fun t => ?_) fun _ => rfl
  · exact ready_fillSources h _ _ _
  · rw [words_eq, ← hf, ← reg64_eq]

theorem add64_eq (a b : DWord) : a + b = BitVec.ofNat 64 (a.toNat + b.toNat) := by
  apply BitVec.eq_of_toNat_eq; simp

theorem sub64_eq (a b : DWord) : a - b = BitVec.ofInt 64 ((a.toNat : Int) - b.toNat) := by
  have hb := b.isLt
  apply BitVec.eq_of_toNat_eq
  rw [BitVec.toNat_sub, BitVec.toNat_ofInt]
  omega

/-- The words of a third source, by the functions of the model. -/
theorem thirdWords_eq : ∀ p ∈ thirdWords, ∃ f : Word → Word → Word → Word,
    (∀ o s, exec (p.1 o) s = intThird o f s) ∧ ∀ a b c, f a b c = p.2 a b c := by
  simp only [thirdWords, List.forall_mem_cons, List.not_mem_nil, false_imp_iff, implies_true, and_true]
  exact ⟨⟨fieldInsert, fun _ _ => rfl, fieldInsert_eq⟩, ⟨funnelShift, fun _ _ => rfl, funnelShift_eq⟩, ⟨byteSelect, fun _ _ => rfl, byteSelect_eq⟩,
    ⟨fun a b c => a * b + c, fun _ _ => rfl, imad_eq⟩, ⟨fun a b c => mulHighS a b + c, fun _ _ => rfl, imadhs_eq⟩, ⟨fun a b c => mulHighU a b + c, fun _ _ => rfl, imadhu_eq⟩,
    ⟨absDiffSum, fun _ _ => rfl, absDiffSum_eq⟩, ⟨dotS, fun _ _ => rfl, dotS_eq⟩, ⟨dotU, fun _ _ => rfl, dotU_eq⟩⟩

/-- The words of a third source pair, by the functions of the model. -/
theorem wideWords_eq : ∀ p ∈ wideWords, ∃ f : Word → Word → DWord → DWord,
    (∀ o s, exec (p.1 o) s = intThird64 o f s) ∧ ∀ a b c, f a b c = p.2 a b c := by
  simp only [wideWords, List.forall_mem_cons, List.not_mem_nil, false_imp_iff, implies_true, and_true]
  exact ⟨⟨fun a b c => zext 64 a * zext 64 b + c, fun _ _ => rfl, imadw_eq⟩, ⟨fun a b c => sext 64 a * sext 64 b + c, fun _ _ => rfl, imadws_eq⟩⟩

/-- Settles O3: each word is its function of R96 to R102, which agrees with the table, written to one register or two. -/
theorem thirdSourcePairAndSelectWords : Obligations.ThirdSourcePairAndSelectWords := by
  unfold Obligations.ThirdSourcePairAndSelectWords
  intro s g o
  refine ⟨fun h => ?_, fun h => ?_, fun h => ⟨?_, ?_⟩, fun h => ?_, fun h => ?_⟩
  · intro p hp
    obtain ⟨f, hexec, hf⟩ := thirdWords_eq p hp
    rw [hexec]
    exact intThird_eq h hf
  · intro p hp
    obtain ⟨f, hexec, hf⟩ := wideWords_eq p hp
    rw [hexec]
    exact intThird64_eq h hf
  · show intPair o 2 (fun a t => a + t.reg64 o.vb.toNat) s = _
    exact intPair_eq h (f' := fun a t => BitVec.ofNat 64 (a.toNat + (pairOf t o.vb.toNat).toNat)) fun a t => by
      rw [reg64_eq, add64_eq]
  · show intPair o 2 (fun a t => a - t.reg64 o.vb.toNat) s = _
    exact intPair_eq h (f' := fun a t => BitVec.ofInt 64 (a.toNat - (pairOf t o.vb.toNat).toNat)) fun a t => by
      rw [reg64_eq, sub64_eq]
  · simp only [List.forall_mem_cons, List.not_mem_nil, false_imp_iff, implies_true, and_true]
    change intPair o 1 (fun a t => shl64 a (t.reg o.vb.toNat)) s = _ ∧ intPair o 1 (fun a t => shr64 a (t.reg o.vb.toNat)) s = _
    exact ⟨intPair_eq h (f' := fun a t => shiftedBy true a ((t.reg o.vb.toNat).toNat % 256)) fun a t => shl64_eq _ _,
      intPair_eq h (f' := fun a t => shiftedBy false a ((t.reg o.vb.toNat).toNat % 256)) fun a t => shr64_eq _ _⟩
  · show execSel o s = _
    unfold execSel arithWord
    refine ready_arith h ?_ (fun _ => rfl) fun _ => rfl
    exact ready_fillSources h _ _ _

end

end Sys2Proof.Proofs
end

