-- ==== Sys2Proof/Proofs/Transfers.lean ====
section
/-!
Transfers (03_control R77 to R81): a transfer as a change of the member that takes it.
-/

set_option Elab.async false

namespace Sys2Proof.Proofs

open Sys2Proof Sys2Proof.Machine Sys2Proof.Laws Sys2Proof.Safety Sys2Proof.Claims

/-- The issue of a word whose whole effect is on the members, which gives no late fault to a thread without one. -/
theorem ready_members {s : State} {g : Group} {rule : WordRule} {regs : List Nat} (h : Ready s g rule regs)
    {fill : Group → State → State} {hold : Group → State → Bool} {effect : Group → State → State}
    {F : Workgroup → Thread → Thread} (hf : fill g s = s) (hh : hold g s = false)
    (he : effect g (s.advance g) = (s.advance g).mapGroup g.id F)
    (hw : ∀ w t, F (withThreads w (workedThreads g (fun _ t => t) w)) t = F w t)
    (hl : ∀ w t, t.late = none → (F w t).late = none) :
    Machine.issue rule regs fill hold effect s = .next (after s g F) := by
  rw [ready_issue h hf hh, he, advance_mapGroup hw, settle_placed h]
  · rfl
  · intro w hw' t ht
    obtain ⟨t0, ht0, rfl⟩ := List.mem_map.1 ht
    have h0 := (h.2.2.2.2.2 w hw' t0 ht0).1
    split_ifs
    · exact hl _ _ h0
    · exact h0

/-! ## Links and targets -/

/-- Whether a transfer links, and whether it returns. -/
def isCall (l : Link) : Bool := l == .call
def isRet (l : Link) : Bool := l == .ret

/-- The link registers and the depth (R77, R79). -/
theorem linked_eq (t : Thread) (l : Link) (link : DWord) : t.linked l link = linkedBy (isCall l) (isRet l) link t := by
  cases l with
  | none => rfl
  | call =>
    have hset : t.setReg64 14 link = t.setRegs 14 (words link) := by rw [words_eq]; rfl
    exact congrArg (fun u : Thread => { u with depth := min (t.depth + 1) 65535 }) hset
  | ret => rfl

theorem linkedBy_late (call ret : Bool) (link : DWord) (t : Thread) : (linkedBy call ret link t).late = t.late := by
  cases call <;> cases ret <;> rfl

/-- A target that is no address of a word (R80). -/
theorem badTargetBits_iff (target : DWord) :
    badTargetBits target = true ↔ target.toNat % 4 ≠ 0 ∨ 2 ^ 57 ≤ target.toNat := by
  simp [badTargetBits]

/-- The fetch of a target (R80). -/
theorem targetFault_eq (s : State) (core part : Nat) (target : DWord) :
    s.targetFault core part target = match s.fetchWord core part target with
      | .error c => some c
      | .ok x => if majorOf x = 0x3F then none else some 0x04 := by
  unfold State.targetFault
  cases s.fetchWord core part target with
  | error c => rfl
  | ok x =>
    refine if_congr ?_ rfl rfl
    rw [majorOf, ← BitVec.toNat_inj]
    rfl

/-- A target is fetched from memory, which the issue of the word leaves alone. -/
theorem targetFault_advance (s : State) (g : Group) (core part : Nat) (target : DWord) :
    (s.advance g).targetFault core part target = s.targetFault core part target := by
  rw [targetFault_eq, targetFault_eq]
  exact congrArg (fun x => match x with
    | .error c => some c
    | .ok x => if majorOf x = 0x3F then none else some 0x04) (fetchWord_under (s.advance g) s core part target)

/-- One thread's transfer (R80). -/
theorem transfer_eq (s : State) (g : Group) (w : Workgroup) (l : Link) (t : Thread) (target : DWord) :
    t.transfer (s.advance g) g w l target = transferred s g (isCall l) (isRet l) w t target := by
  unfold Thread.transfer transferred
  refine if_congr (badTargetBits_iff target) rfl ?_
  rw [targetFault_advance, targetFault_eq, linked_eq]
  cases s.fetchWord w.core w.part target with
  | error c => rfl
  | ok x =>
    by_cases hx : majorOf x = 0x3F
    · simp only [hx, if_true]
    · simp only [hx, if_false]
      rfl

theorem transferred_late (s : State) (g : Group) (call ret : Bool) (w : Workgroup) {t : Thread} (ht : t.late = none)
    (target : DWord) : (transferred s g call ret w t target).late = none := by
  have hlink : (finished g (linkedBy call ret (g.pc + 4) t)).late = none := (linkedBy_late ..).trans ht
  unfold transferred
  split_ifs
  · exact raise_late ht _ _
  · split
    · exact raise_late hlink _ _
    · split_ifs
      · exact hlink
      · exact raise_late hlink _ _

/-! ## The words -/

/-- A ready transfer sends each member with a true guard to its target. -/
theorem transferWord_eq {s : State} {g : Group} {regs srcs : List Nat} (h : Ready s g lastRule (regs ++ srcs))
    (guard : BitVec 3) (neg : Bool) (l : Link) {target : Group → Thread → DWord} {target' : Thread → DWord}
    (htarget : ∀ t, target g t = target' t) :
    transferWord regs srcs guard neg l target s = .next (after s g fun w t =>
      if t.guard guard neg = true then transferred s g (isCall l) (isRet l) w t (target' t) else t) := by
  unfold transferWord
  refine ready_members h (ready_fillSources h ..) rfl ?_ (fun w t => rfl) fun w t ht => ?_
  · simp only [transfer_eq, htarget]
  · split_ifs
    · exact transferred_late s g _ _ w ht _
    · exact ht

/-- Settles O12: each word is a transfer with its registers, link and target. -/
theorem transfersGoToTheirTargetAndLink : Obligations.TransfersGoToTheirTargetAndLink := by
  unfold Obligations.TransfersGoToTheirTargetAndLink
  intro s g
  refine ⟨fun o => ⟨fun h => ?_, fun h => ?_⟩, fun o => ⟨fun h => ?_, fun h => ?_⟩, fun o h => ?_⟩
  · exact transferWord_eq (regs := []) (srcs := []) h o.guard o.neg .none fun _ => rfl
  · exact transferWord_eq (regs := [14, 15]) (srcs := []) h o.guard o.neg .call fun _ => rfl
  · exact transferWord_eq (regs := []) (srcs := [o.va.toNat, o.va.toNat + 1]) h o.guard o.neg .none
      fun t => reg64_eq t o.va.toNat
  · exact transferWord_eq (regs := [14, 15]) (srcs := [o.va.toNat, o.va.toNat + 1]) h o.guard o.neg .call
      fun t => reg64_eq t o.va.toNat
  · exact transferWord_eq (regs := []) (srcs := [14, 15]) h o.guard o.neg .ret fun t => reg64_eq t 14

end Sys2Proof.Proofs
end

