-- ==== Sys2Proof/Proofs/Headers.lean ====
section
/-!
Clause headers and modifier words (02_encoding R29, R31, R37, R61): where each is read into the group, and where it faults.
-/

set_option Elab.async false

namespace Sys2Proof.Proofs

open Sys2Proof Sys2Proof.Machine Sys2Proof.Laws Sys2Proof.Safety Sys2Proof.Claims

/-! ## Members behind a word that the group has read -/

/-- A change of the threads that leaves their names and groups keeps the members of a group. -/
theorem active_of_keptNames {s u : State} {f : Thread → Thread} (hu : u.wgs = s.wgs.map fun w => withThreads w (w.threads.map f))
    (hf : ∀ t, (f t).warp = t.warp ∧ (f t).lane = t.lane ∧ (f t).group = t.group) {g g' : Group}
    (hm : g'.members = g.members) (hid : g'.id = g.id) : u.active g' = s.active g := by
  unfold State.active
  rw [hm, hid]
  refine List.filter_congr fun r _ => ?_
  have hthread : u.thread? r = (s.thread? r).map f := by
    unfold State.thread?
    rw [wg?_of_map hu fun _ => rfl]
    cases s.wg? r.wg with
    | none => rfl
    | some w =>
      show (w.threads.map f).find? _ = (w.threads.find? _).map f
      rw [List.find?_map]
      congr 2
      funext t
      simp only [Function.comp, hf t]
  rw [hthread]
  cases s.thread? r with
  | none => rfl
  | some t => exact congrArg (· == some g.id) (hf t).2.2

/-- The members keep their names and groups as they go behind a word. -/
theorem readInto_active (s : State) {g : Group} (f : Group → Group) {g' : Group} (hm : g'.members = g.members)
    (hid : g'.id = g.id) : (readInto s g f).active g' = s.active g := by
  refine active_of_keptNames (f := fun t => if inGroup g t then { t with pc := g.pc + 4 } else t) rfl (fun t => ?_) hm hid
  split_ifs <;> exact ⟨rfl, rfl, rfl⟩

/-- A word read into the group: its members go behind it, the group is changed. -/
theorem readInto_eq (s : State) (g : Group) (f : Group → Group) :
    { (s.mapGroup g.id fun _ t => { t with pc := g.pc + 4 }).updGroup g.id f with picks := s.picks.tail } =
      readInto s g f := by
  simp only [readInto, State.mapGroup, State.updGroup, withThreads, workedThreads, updateWhere, inGroup, beq_iff_eq]

/-! ## Headers -/

section
variable {s : State} {g : Group}

/-- The group once it has read the header of its clause. -/
def opened (g : Group) (o : HeaderArgs) (x : Group) : Group :=
  { x with pc := g.pc + 4, atHeader := false, mods := Mods.none,
           ctx := { hdr := g.pc, left := o.len.toNat, fa := o.fa, fb := o.fb, y := o.y, c := o.c } }

/-- A group that has words left and members goes on. -/
theorem readInto_settle (hfind : s.groups.find? (·.id == g.id) = some g) (hactive : s.active g ≠ []) {f : Group → Group}
    (hid : ∀ x, (f x).id = x.id) (hm : (f g).members = g.members) (hleft : (f g).ctx.left ≠ 0) :
    (readInto s g f).settle g.id = readInto s g f := by
  have hfind' : (readInto s g f).groups.find? (·.id == g.id) = some (f g) := by
    have hmap : (readInto s g f).groups = updateWhere (fun x => x.id == g.id) f s.groups := by
      simp [readInto, updateWhere]
    rw [hmap, find?_updateWhere, hfind]
    · simp
    · intro x
      split_ifs <;> simp [hid]
  rw [settle_of hfind', if_neg (by simp [hleft]), if_neg]
  rw [readInto_active s f hm (hid g)]
  simpa using hactive

/-- A group at a clause start opens the clause of its header. -/
theorem execClauseHeader_opens (h : Standing s g true) (o : HeaderArgs) (ho : 1 ≤ o.len.toNat) :
    exec (.clauseHeader o) s = .next (readInto s g (opened g o)) := by
  obtain ⟨hc, hfind, hactive, hat, -⟩ := h
  have hsettle : (readInto s g (opened g o)).settle g.id = readInto s g (opened g o) :=
    readInto_settle hfind hactive (fun _ => rfl) rfl (Nat.ne_of_gt ho)
  show execClauseHeader o s = _
  unfold execClauseHeader
  rw [hc]
  refine (if_pos hat).trans (congrArg _ ?_)
  exact (congrArg (fun u : State => u.settle g.id) (readInto_eq s g (opened g o))).trans hsettle

/-- Among the words of a clause a header faults in every member. -/
theorem execClauseHeader_faults (h : Standing s g false) (o : HeaderArgs) :
    exec (.clauseHeader o) s = .next (if g.mods.count = 0 then
        after s g fun _ t => t.raise { code := codeIllegalEncoding } (g.site g.pc)
      else after s g fun _ t =>
        t.raise { code := codeIllegalPrefix } (g.site (g.pc - BitVec.ofNat 64 (4 * g.mods.count)))) := by
  obtain ⟨hc, -, -, hat, -⟩ := id h
  show execClauseHeader o s = _
  unfold execClauseHeader
  rw [hc]
  by_cases hm : g.mods.count = 0
  · simp only [hat, hm, bne_self_eq_false, Bool.false_eq_true, if_false, if_true]
    exact congrArg _ (standing_parked h _ _)
  · simp only [hat, hm, bne_iff_ne, ne_eq, not_false_eq_true, Bool.false_eq_true, if_false, if_true]
    exact congrArg _ (standing_parked h _ _)

theorem count_eq_zero_iff (m : Mods) : m.count = 0 ↔ m = Mods.none := by
  obtain ⟨hint, arith, mem, ext⟩ := m
  cases hint <;> cases arith <;> cases mem <;> cases ext <;> simp [Mods.count, Mods.none]

/-! ## Modifier words -/

/-- A modifier word in its place, with a word behind it, waits for its instruction. -/
theorem modifierWord_waits (h : Standing s g false) (hleft : 2 ≤ g.ctx.left) {misplaced : Mods → Bool}
    {add : Mods → DWord → Mods} (hm : misplaced g.mods = false) :
    modifierWord misplaced add s = .next (readInto s g (behindModifier g (add g.mods g.pc))) := by
  obtain ⟨hc, -, -, hat, -⟩ := h
  have hlast : (g.ctx.left == 1) = false := by simp; omega
  unfold modifierWord
  rw [hc]
  simp only [hat, hm, hlast, Bool.or_self, Bool.false_eq_true, if_false]
  exact congrArg _ (readInto_eq s g _)

/-- A modifier word out of its place, or last in its clause, faults in every member. -/
theorem modifierWord_faults (h : Standing s g false) {misplaced : Mods → Bool} {add : Mods → DWord → Mods}
    (hm : misplaced g.mods = true ∨ g.ctx.left = 1) : modifierWord misplaced add s =
      .next (after s g fun _ t => t.raise { code := codeIllegalPrefix } (s.modifierSite g)) := by
  obtain ⟨hc, -, -, hat, -⟩ := id h
  have hmis : (misplaced g.mods || g.ctx.left == 1) = true := by simpa using hm
  unfold modifierWord
  rw [hc]
  simp only [hat, hmis, Bool.false_eq_true, if_false, if_true]
  exact congrArg _ (standing_parked h _ _)

theorem prefixMisplaced_iff (m : Mods) : prefixMisplaced m = true ↔ m.arith ≠ none ∨ m.mem ≠ none ∨ m.ext ≠ none := by
  simp [prefixMisplaced, Option.isSome_iff_ne_none, or_assoc]

theorem hintMisplaced_iff (m : Mods) : (m.count != 0) = true ↔ m ≠ Mods.none := by
  simp [← count_eq_zero_iff]

/-! ## Where the fault of a modifier word is recorded (R369) -/

/-- The last word of its clause has only itself behind it. -/
theorem modifierSite_last (h : Standing s g false) (hleft : g.ctx.left = 1) :
    (s.modifierSite g).next = g.pc + 4 ∧ (s.modifierSite g).nextIn = none := by
  obtain ⟨-, -, -, hat, -⟩ := h
  simp [State.modifierSite, hat, hleft, State.modifierRun]

/-- Before an instruction, the next address lies behind that. -/
theorem modifierSite_before (h : Standing s g false) (hleft : 2 ≤ g.ctx.left) {w : Word}
    (hw : s.fetchWord g.core (s.groupPart g) (g.pc + 4) = .ok w) (hmajor : w.toNat / 2 ^ 26 < 60 ∨ w.toNat / 2 ^ 26 = 63) :
    (s.modifierSite g).next = g.pc + 8 ∧ (s.modifierSite g).nextIn =
      if g.ctx.left = 2 then none else some { g.ctx with left := g.ctx.left - 2 } := by
  obtain ⟨-, -, -, hat, -⟩ := h
  have hrun : s.modifierRun g.core (s.groupPart g) (g.ctx.left - 1) g.pc = 2 := by
    obtain ⟨k, hk⟩ : ∃ k, g.ctx.left - 1 = k + 1 := ⟨g.ctx.left - 2, by omega⟩
    rw [hk, State.modifierRun, hw]
    exact if_neg (by rw [majorOf_eq]; omega)
  simp only [State.modifierSite, hat, hrun, Bool.false_eq_true, if_false]
  exact ⟨rfl, if_congr (by omega) rfl rfl⟩

theorem modifierSite_resume (h : Standing s g false) : (s.modifierSite g).pc = g.pc ∧
    (s.modifierSite g).resume = (g.site g.pc).resume ∧ (s.modifierSite g).resumeIn = (g.site g.pc).resumeIn := by
  obtain ⟨-, -, -, hat, -⟩ := h
  simp only [State.modifierSite, hat, Bool.false_eq_true, if_false, and_true]
  simp only [Group.site, hat, Bool.false_eq_true, if_false]

end

/-- Settles O14: a header opens its clause or faults, a modifier word waits or faults, by the place where it stands. -/
theorem headersOpenClausesAndModifiersAreReadInOrder : Obligations.HeadersOpenClausesAndModifiersAreReadInOrder := by
  unfold Obligations.HeadersOpenClausesAndModifiersAreReadInOrder
  intro s g
  refine ⟨fun o h ho => execClauseHeader_opens h o ho, fun h hleft => ⟨fun o hm => ?_, fun ha hm he => ⟨fun o => ?_, fun o => ?_⟩,
    fun he o => ?_⟩, fun c pc h hplace o => ?_, fun h _ => ⟨fun o hm => ?_, fun o hm => ?_, fun hm => ⟨fun o => ?_, fun o => ?_⟩⟩,
    fun h hleft => ?_⟩
  · exact modifierWord_waits (misplaced := fun m => m.count != 0) (add := fun m pc => { m with hint := some (pc, o) })
      h hleft (by simp [hm, Mods.count, Mods.none])
  · exact modifierWord_waits (misplaced := prefixMisplaced) (add := fun m pc => { m with arith := some (pc, o) })
      h hleft (by simp [prefixMisplaced, ha, hm, he])
  · exact modifierWord_waits (misplaced := prefixMisplaced) (add := fun m pc => { m with mem := some (pc, o) })
      h hleft (by simp [prefixMisplaced, ha, hm, he])
  · exact modifierWord_waits (misplaced := fun m => m.ext.isSome) (add := fun m pc => { m with ext := some (pc, o.ext) })
      h hleft (by simp [he])
  · rw [execClauseHeader_faults h]
    obtain ⟨hnone, rfl, rfl⟩ | ⟨hsome, rfl, rfl⟩ := hplace
    · rw [if_pos ((count_eq_zero_iff _).2 hnone)]
    · rw [if_neg (mt (count_eq_zero_iff _).1 hsome)]
  · exact modifierWord_faults (misplaced := fun m => m.count != 0) (add := fun m pc => { m with hint := some (pc, o) })
      h (hm.imp_left (hintMisplaced_iff _).2)
  · exact modifierWord_faults (misplaced := fun m => m.ext.isSome) (add := fun m pc => { m with ext := some (pc, o.ext) })
      h (hm.imp_left Option.isSome_iff_ne_none.2)
  · exact modifierWord_faults (misplaced := prefixMisplaced) (add := fun m pc => { m with arith := some (pc, o) })
      h (by rw [prefixMisplaced_iff]; tauto)
  · exact modifierWord_faults (misplaced := prefixMisplaced) (add := fun m pc => { m with mem := some (pc, o) })
      h (by rw [prefixMisplaced_iff]; tauto)
  · obtain ⟨hpc, hresume, hresumeIn⟩ := modifierSite_resume h
    exact ⟨hpc, hresume, hresumeIn, modifierSite_last h, fun hl w => modifierSite_before h hl⟩

end Sys2Proof.Proofs
end

