-- ==== Sys2Proof/Proofs/DecodingFaults.lean ====
section
/-!
Decoding faults (02_encoding R27 to R45, R48, R63, R189, R192): which place and which modifier words a word does not take,
and that such a word parks every member.
-/

set_option Elab.async false

namespace Sys2Proof.Proofs

open Sys2Proof Sys2Proof.Machine Sys2Proof.Laws Sys2Proof.Safety Sys2Proof.Claims

/-! ## A fault of every member, at a clause start or among the words of a clause -/

section
variable {s : State} {g : Group} {header : Bool}

/-- Every member parks, and the group is gone, wherever it stood. -/
theorem standing_raiseAll (h : Standing s g header) (d : FaultDetail) (pc : DWord) :
    ((s.raiseAll g d pc).advance g).settle g.id = after s g fun _ t => t.raise d (g.site pc) := by
  obtain ⟨-, hfind, -, -, hexec⟩ := h
  have hraised : (s.wgs.map fun w => withThreads w (workedThreads g (fun _ t => t.raise d (g.site pc)) w)) =
      s.wgs.map fun w => withThreads w (raisedThreads g d (g.site pc) w) :=
    List.map_congr_left fun w hw => by rw [workedThreads_raise (hexec w hw)]
  have hlanded : (s.wgs.map fun w =>
      withThreads w ((workedThreads g (fun _ t => t.raise d (g.site pc)) w).map (landed s g w))) =
      s.wgs.map fun w => withThreads w (raisedThreads g d (g.site pc) w) :=
    List.map_congr_left fun w hw => by rw [workedThreads_raise (hexec w hw), map_landed_raisedThreads (hexec w hw)]
  have hparked : ∀ u : State, u.wgs = s.wgs.map (fun w => withThreads w (raisedThreads g d (g.site pc) w)) →
      ∀ w ∈ u.wgs, ∀ t ∈ w.threads, t.group ≠ some g.id ∧ t.late = none := by
    intro u hu w' hw' t ht
    obtain ⟨w, hw, rfl⟩ := List.mem_map.mp (hu ▸ hw')
    exact raisedThreads_mem (hexec w hw) ht
  have hgone (u : State) (hu) : Memberless u g.id := fun w hw t ht => (hparked u hu w hw t ht).1
  let parked := placed s (s.wgs.map fun w => withThreads w (raisedThreads g d (g.site pc) w))
    (updateWhere (fun x => x.id == g.id) (behindWord g) s.groups)
  have hadvance : (s.raiseAll g d pc).advance g = parked := by
    unfold State.advance
    rw [mapGroup_of_memberless (hgone (s.raiseAll g d pc) rfl)]
    rfl
  have hfind' : parked.groups.find? (·.id == g.id) = some (behindWord g g) := by
    refine (find?_updateWhere fun x => ?_).trans ?_
    · by_cases hx : x.id = g.id <;> simp [hx, behindWord]
    · simp [hfind]
  have hempty : emptied g (s.wgs.map fun w => withThreads w (raisedThreads g d (g.site pc) w)) = true :=
    List.isEmpty_iff.mpr (active_of_memberless (hgone _ rfl))
  rw [hadvance, settle_of_memberless hfind' (hgone parked rfl) fun w hw t ht => (hparked parked rfl w hw t ht).2,
    after, hraised, hlanded, groupsAfter, if_pos (Or.inr hempty)]
  exact congrArg (placed s _) (filter_updateWhere fun x hx => hx)

/-- A word with a decoding fault parks every member and does nothing else. -/
theorem issue_of_wordFault (h : Standing s g header) {rule : WordRule} {code : BitVec 8} {pc : DWord}
    (hfault : g.wordFault rule = some (code, pc)) (regs : List Nat) (fill : Group → State → State)
    (hold : Group → State → Bool) (effect : Group → State → State) :
    issue rule regs fill hold effect s = .next (after s g fun _ t => t.raise { code := code } (g.site pc)) := by
  obtain ⟨hc, -⟩ := id h
  unfold Machine.issue
  rw [hc]
  dsimp only
  rw [hfault]
  exact congrArg _ (standing_raiseAll h _ _)

end

/-! ## Which places and modifier words a word does not take -/

section
variable {g : Group} {rule : WordRule}

/-- What the prefix names is its v4 field, 0 without a prefix. -/
theorem v4_of_prefixRead {m : Mods} {x : DWord × BitVec 6} (h : prefixRead m = some x) : m.v4 = (x.2.toNat, x.1) := by
  obtain ⟨hint, _ | ⟨pc, a⟩, _ | ⟨pc', y⟩, ext⟩ := m
  · cases h
  all_goals
    obtain rfl := Option.some.inj h
    rfl

theorem v4_of_no_prefix {m : Mods} (h : prefixRead m = none) : m.v4 = (0, 0) := by
  obtain ⟨hint, _ | ⟨pc, a⟩, _ | ⟨pc', y⟩, ext⟩ := m
  · rfl
  all_goals cases h

theorem outOfPlace_iff : outOfPlace g rule ↔
    (rule.last && g.ctx.left != 1) = true ∨ (rule.xlane && !g.ctx.c) = true ∨
      (rule.sc && (g.mods.mem.map fun m => m.2.order.toNat) != some 3) = true ∨
      ((rule.v4 == .compare || rule.v4 == .comparePair) && g.mods.v4.1 == 0) = true := by
  have horder : (∀ pc x, g.mods.mem = some (pc, x) → x.order ≠ 3) ↔
      (g.mods.mem.map fun m => m.2.order.toNat) ≠ some 3 := by
    rcases g.mods.mem with _ | ⟨pc, x⟩
    · simp
    · simp [Prod.ext_iff, ← BitVec.toNat_inj (x := x.order)]
  have hcompare : ((∀ pc a, g.mods.arith = some (pc, a) → a.v4 = 0) ∧
      ∀ pc x, g.mods.arith = none → g.mods.mem = some (pc, x) → x.v4 = 0) ↔ g.mods.v4.1 = 0 := by
    have hzero (n : BitVec 6) : n = 0#6 ↔ n.toNat = 0 := BitVec.toNat_inj.symm
    unfold Mods.v4
    rcases g.mods.arith with _ | ⟨pc, a⟩ <;> rcases g.mods.mem with _ | ⟨pc', x⟩ <;> simp [Prod.ext_iff, hzero]
  unfold outOfPlace
  rw [horder, hcompare]
  simp

theorem oddPair_iff : oddPair g rule ↔
    ((rule.v4 == .pair || rule.v4 == .comparePair) && g.mods.v4.1 % 2 == 1) = true := by
  have hodd : (∃ pc n, prefixRead g.mods = some (pc, n) ∧ n.toNat % 2 = 1) ↔ g.mods.v4.1 % 2 = 1 := by
    cases hread : prefixRead g.mods with
    | none => simp [v4_of_no_prefix hread]
    | some x => simp [v4_of_prefixRead hread, Prod.ext_iff]
  unfold oddPair
  rw [hodd]
  simp

/-- ILLEGAL_ENCODING of a word by its place and its modifier words (R31, R32, R45, R48, R189, R192). -/
theorem encodingFault_inPlace (hat : g.atHeader = false) :
    (outOfPlace g rule → g.encodingFault rule = some g.pc) ∧
    (¬ outOfPlace g rule → oddPair g rule → g.encodingFault rule = some g.mods.v4.2) ∧
    (¬ outOfPlace g rule → ¬ oddPair g rule → g.encodingFault rule = none) := by
  rw [outOfPlace_iff, oddPair_iff]
  unfold Group.encodingFault
  simp only [hat, Bool.false_eq_true, if_false]
  split_ifs <;> simp_all

/-- A word that takes its prefix faults at the extension word where it has no immediate (R41). -/
theorem prefixFault_of_extension (rule : WordRule) (ext : Option (DWord × BitVec 26)) :
    (if (!rule.ext) = true then ext.map (·.1) else none) = if rule.ext = false then ext.map (·.1) else none := by
  cases rule.ext <;> rfl

/-- ILLEGAL_PREFIX of a word by the modifier words before it (R37, R41 to R44). -/
theorem prefixFault_cases :
    (refusesPrefix g rule ∧ ∃ x, prefixRead g.mods = some x ∧ g.prefixFault rule = some x.1) ∨
    (¬ refusesPrefix g rule ∧ g.prefixFault rule = if rule.ext = false then g.mods.ext.map (·.1) else none) := by
  unfold refusesPrefix Group.prefixFault prefixRead
  rcases g.mods.arith with _ | ⟨pc, a⟩
  · rcases g.mods.mem with _ | ⟨pc, x⟩
    · right
      rcases g.mods.ext with _ | e <;> cases rule.ext <;> simp
    · by_cases hbad : (rule.prefixKind != .mem || !rule.orders.contains x.order.toNat || (x.v4 != 0 && rule.v4 == .none)) = true
      · left
        simp only [hbad, if_true]
        simpa [or_assoc] using hbad
      · right
        simp only [hbad, prefixFault_of_extension]
        simpa [or_assoc] using hbad
  · by_cases hbad : (rule.prefixKind != .arith || (a.rnd != 0 && !rule.rnd) || (a.v4 != 0 && rule.v4 == .none)) = true
    · left
      simp only [hbad, if_true]
      simpa [or_assoc] using hbad
    · right
      simp only [hbad, prefixFault_of_extension]
      simpa [or_assoc] using hbad

/-- No decoding fault: the word stands in its place and takes its modifier words. -/
theorem wordFault_eq_none_iff : g.wordFault rule = none ↔ g.atHeader = false ∧ ¬ outOfPlace g rule ∧
    ¬ oddPair g rule ∧ ¬ refusesPrefix g rule ∧ ¬ refusesExtension g rule := by
  obtain hat | hat := Bool.eq_false_or_eq_true g.atHeader
  · simp [Group.wordFault, Group.encodingFault, hat]
  · obtain ⟨hplace, hodd, hnone⟩ := encodingFault_inPlace (rule := rule) hat
    unfold Group.wordFault refusesExtension
    by_cases h1 : outOfPlace g rule
    · simp [hplace h1, h1]
    by_cases h2 : oddPair g rule
    · simp [hodd h1 h2, h2]
    rw [hnone h1 h2]
    obtain ⟨h3, x, hx, hfault⟩ | ⟨h3, hfault⟩ := prefixFault_cases (g := g) (rule := rule)
    · simp [hfault, h3]
    · cases hext : rule.ext <;> simp [hfault, hat, h1, h2, h3, hext]

end

/-! ## Words by their rules -/

/-- A word that issues by a rule has the decoding faults of the rule. -/
theorem decodes_of_issue {rule : WordRule} {i : Instr} {regs : List Nat} {fill : Group → State → State}
    {hold : Group → State → Bool} {effect : Group → State → State}
    (hexec : ∀ s, exec i s = issue rule regs fill hold effect s) : Decodes rule i := by
  intro s g header h
  have hfaults {code : BitVec 8} {pc : DWord} (hfault : g.wordFault rule = some (code, pc)) :
      faultsWith i s g code pc := (hexec s).trans (issue_of_wordFault h hfault ..)
  obtain ⟨-, -, -, hat, -⟩ := id h
  refine ⟨fun hheader => hfaults ?_, fun hheader => ?_⟩
  · simp [Group.wordFault, Group.encodingFault, hat, hheader, codeIllegalEncoding]
  obtain ⟨hplace, hodd, hnone⟩ := encodingFault_inPlace (rule := rule) (hat.trans hheader)
  refine ⟨fun h1 => hfaults ?_, fun h1 h2 x hx => hfaults ?_, fun h1 h2 => ?_⟩
  · rw [Group.wordFault, hplace h1]; rfl
  · rw [Group.wordFault, hodd h1 h2, v4_of_prefixRead hx]; rfl
  have hprefix : g.wordFault rule = (g.prefixFault rule).map fun pc => (codeIllegalPrefix, pc) := by
    rw [Group.wordFault, hnone h1 h2]
  obtain ⟨h3, y, hy, hfault⟩ | ⟨h3, hfault⟩ := prefixFault_cases (g := g) (rule := rule)
  · refine ⟨fun _ x hx => hfaults ?_, fun hn => absurd h3 hn⟩
    obtain rfl := Option.some.inj (hy.symm.trans hx)
    rw [hprefix, hfault]; rfl
  · refine ⟨fun hp => absurd hp h3, fun _ hr x hx => hfaults ?_⟩
    rw [hprefix, hfault, if_pos hr.2, hx]; rfl

/-- The integer words of two sources and those over pairs. -/
theorem integerWords_decode (o : V3Args) :
    ∀ i ∈ arithmeticWords ++ logicWords ++ fieldWords.map (·.1) ++ [.add64, .sub64, .shl64, .shr64],
      Decodes plainArith (i o) := by
  simp only [arithmeticWords, logicWords, fieldWords, List.map_cons, List.map_nil, List.cons_append, List.nil_append,
    List.forall_mem_cons, List.not_mem_nil, false_imp_iff, implies_true, and_true]
  and_intros
  all_goals
    apply decodes_of_issue
    intro s
    dsimp only [
      exec, execIadd, execIsub, execImul, execImulhs, execImulhu, execImins, execImaxs, execIminu, execImaxu,
      execIaddss, execIsubss, execAnd, execOr, execXor, execAndn, execOrn, execXnor, execShl, execShr, execSar,
      execRotl, execRotr, execBfez, execBfes, execAdd64, execSub64, execShl64, execShr64, intV3, intPair, arithWord]
    rfl

/-- The words of a third source. -/
theorem thirdWords_decode (o : V3Args) :
    ∀ p ∈ thirdWords, Decodes { plainArith with v4 := .reg } (p.1 o) := by
  simp only [thirdWords, List.forall_mem_cons, List.not_mem_nil, false_imp_iff, implies_true, and_true]
  and_intros
  all_goals
    apply decodes_of_issue
    intro s
    dsimp only [
      exec, execBfi, execFshl, execBsel, execImad, execImadhs, execImadhu, execIsad, execIdp4, execIdp4z, intThird]
    rfl

/-- The words of a third source pair. -/
theorem wideWords_decode (o : V3Args) :
    ∀ p ∈ wideWords, Decodes { plainArith with v4 := .pair } (p.1 o) := by
  simp only [wideWords, List.forall_mem_cons, List.not_mem_nil, false_imp_iff, implies_true, and_true]
  and_intros
  all_goals
    apply decodes_of_issue
    intro s
    dsimp only [exec, execImadw, execImadws, intThird64]
    rfl

/-- The float words of two sources. -/
theorem floatWords_decode (o : V3Args) :
    ∀ p ∈ floatWords, Decodes (floatArith p.2.1 false) (p.1 o) := by
  simp only [floatWords, List.forall_mem_cons, List.not_mem_nil, false_imp_iff, implies_true, and_true]
  and_intros
  all_goals
    apply decodes_of_issue
    intro s
    dsimp only [
      exec, execFadd, execFsub, execFmul, execFmin, execFmax, execFminm, execFmaxm, execFcpysgn, execHadd2,
      execHmul2, execHmin2, execHmax2, execBadd2, execBmul2, execBmin2, execBmax2, execF2h2, execF2b2, execFldexp,
      floatV3, arithWord]
    rfl

/-- The fused multiply-adds. -/
theorem fusedWords_decode (o : V3Args) :
    ∀ p ∈ fusedWords, Decodes (floatArith true true) (p.1 o) := by
  simp only [fusedWords, List.forall_mem_cons, List.not_mem_nil, false_imp_iff, implies_true, and_true]
  and_intros
  all_goals
    apply decodes_of_issue
    intro s
    dsimp only [exec, execFfma, execFfms, execFnma, execHfma2, execBfma2, floatThird]
    rfl

/-- The words with an immediate. -/
theorem immediateWords_decode (o : VIArgs) :
    ∀ i ∈ arithmeticImmediates ++ logicImmediates, Decodes { plainArith with ext := true } (i o) := by
  simp only [arithmeticImmediates, logicImmediates, List.cons_append, List.nil_append,
    List.forall_mem_cons, List.not_mem_nil, false_imp_iff, implies_true, and_true]
  and_intros
  all_goals
    apply decodes_of_issue
    intro s
    dsimp only [
      exec, execIaddI, execIsubI, execImulI, execImulhsI, execImulhuI, execIminsI, execImaxsI, execIminuI,
      execImaxuI, execIaddssI, execIsubssI, execAndI, execOrI, execXorI, execAndnI, execOrnI, execXnorI, execShlI,
      execShrI, execSarI, execRotlI, execRotrI, intVI, arithWord]
    rfl

/-- The integer words of one source. -/
theorem unaryWords_decode (o : V2Args) :
    ∀ p ∈ unaryWords, Decodes plainArith (p.1 o) := by
  simp only [unaryWords, List.forall_mem_cons, List.not_mem_nil, false_imp_iff, implies_true, and_true]
  and_intros
  all_goals
    apply decodes_of_issue
    intro s
    dsimp only [
      exec, execPopc, execClz, execCtz, execBrev, execBswap, execMov, execSext8, execSext16, execZext8, execZext16,
      intV2, arithWord]
    rfl

/-- The float words of one source. -/
theorem floatUnaryWords_decode (o : V2Args) :
    ∀ p ∈ floatUnaryWords, Decodes (floatArith p.2.1 false) (p.1 o) := by
  simp only [floatUnaryWords, List.forall_mem_cons, List.not_mem_nil, false_imp_iff, implies_true, and_true]
  and_intros
  all_goals
    apply decodes_of_issue
    intro s
    dsimp only [
      exec, execFabs, execFneg, execFsat, execF2is, execF2iz, execIs2f, execIz2f, execH2fl, execH2fh, execB2fl,
      execB2fh, execFrnd, execFclass, execFexp, floatV2, arithWord]
    rfl

/-- The words of the special function unit. -/
theorem sfuWords_decode (o : SfuArgs) :
    ∀ p ∈ sfuWords, Decodes (floatArith (p.2 == 2) false) (p.1 o) := by
  simp only [sfuWords, List.forall_mem_cons, List.not_mem_nil, false_imp_iff, implies_true, and_true]
  and_intros
  all_goals
    apply decodes_of_issue
    intro s
    dsimp only [
      exec, execRcp, execRsq, execSqrt, execEx2, execLg2, execSint, execCost, execTanh, execLogi, sfuWord]
    rfl

/-- The words of the warp registers. -/
theorem warpWords_decode (o : W3Args) :
    ∀ p ∈ warpWords, Decodes {} (p.1 o) := by
  simp only [warpWords, List.forall_mem_cons, List.not_mem_nil, false_imp_iff, implies_true, and_true]
  and_intros
  all_goals
    apply decodes_of_issue
    intro s
    dsimp only [
      exec, execWadd, execWsub, execWmul, execWand, execWor, execWxor, execWshl, execWshr, warp3, warpWord]
    rfl

/-- The compare words. -/
theorem compareWords_decode (o : CmpArgs) :
    ∀ p ∈ compareWords, Decodes {} (p.1 o) := by
  simp only [compareWords, List.forall_mem_cons, List.not_mem_nil, false_imp_iff, implies_true, and_true]
  and_intros
  all_goals
    apply decodes_of_issue
    intro s
    dsimp only [exec, execCeq, execCne, execClt, execCle, execCgt, execCge, execCtany, execCtnone, compareWord]

/-- The shuffles. -/
theorem shuffleWords_decode (o : X3Args) :
    ∀ p ∈ shuffleWords, Decodes crossRule (p.1 o) := by
  simp only [shuffleWords, List.forall_mem_cons, List.not_mem_nil, false_imp_iff, implies_true, and_true]
  and_intros
  all_goals
    apply decodes_of_issue
    intro s
    dsimp only [exec, execShfi, execShfu, execShfd, execShfx, execQbc, shuffleWord, crossWord]
    rfl

/-- The reductions over a group. -/
theorem reductionWords_decode (o : XRedArgs) :
    Decodes crossRule (.redi o) ∧ Decodes crossRule (.redf o) := by
  and_intros
  all_goals
    apply decodes_of_issue
    intro s
    dsimp only [exec, execRedi, execRedf, crossWord]
    rfl

/-- The relative transfers. -/
theorem relativeTransfers_decode (o : BrArgs) :
    Decodes lastRule (.bra o) ∧ Decodes lastRule (.call o) := by
  and_intros
  all_goals
    apply decodes_of_issue
    intro s
    dsimp only [exec, execBra, execCall, transferWord]
    rfl

/-- The transfers through a pair. -/
theorem indirectTransfers_decode (o : CtlJArgs) :
    Decodes lastRule (.brx o) ∧ Decodes lastRule (.callx o) := by
  and_intros
  all_goals
    apply decodes_of_issue
    intro s
    dsimp only [exec, execBrx, execCallx, transferWord]
    rfl

/-- RET and EXIT. -/
theorem controlWords_decode (o : CtlGArgs) :
    Decodes lastRule (.ret o) ∧ Decodes lastRule (.exit o) := by
  and_intros
  all_goals
    apply decodes_of_issue
    intro s
    dsimp only [exec, execRet, execExit, transferWord]
    rfl

/-- The loads. -/
theorem loadWords_decode (o : MArgs) :
    ∀ i ∈ [Instr.ld8z, .ld8s, .ld16z, .ld16s, .ld32, .ld64, .ld128, .ldf32, .ldfb16],
      Decodes { ext := true, prefixKind := .mem, orders := [0, 1] } (i o) := by
  simp only [List.forall_mem_cons, List.not_mem_nil, false_imp_iff, implies_true, and_true]
  and_intros
  all_goals
    apply decodes_of_issue
    intro s
    dsimp only [
      exec, execLd8z, execLd8s, execLd16z, execLd16s, execLd32, execLd64, execLd128, execLdf32, execLdfb16, loadWord,
      decodeLoadWord]
    rfl

/-- The atomic words. -/
theorem atomicWords_decode (o : MArgs) :
    Decodes { ext := true, prefixKind := .mem, orders := [0, 1, 2, 3] } (.aadd o) ∧
      Decodes { ext := true, prefixKind := .mem, orders := [0, 1, 2, 3], v4 := .compare } (.acas o) ∧
      Decodes { ext := true, prefixKind := .mem, orders := [0, 1, 2, 3], v4 := .comparePair } (.acas64 o) := by
  and_intros
  all_goals
    apply decodes_of_issue
    intro s
    dsimp only [exec, execAadd, execAcas, execAcas64, atomWord]
    rfl

/-- The stores and a reduction to memory. -/
theorem storeWords_decode (o : MSArgs) :
    ∀ i ∈ [Instr.st8, .st16, .st32, .st64, .st128, .radd],
      Decodes { ext := true, prefixKind := .mem, orders := [0, 2] } (i o) := by
  simp only [List.forall_mem_cons, List.not_mem_nil, false_imp_iff, implies_true, and_true]
  and_intros
  all_goals
    apply decodes_of_issue
    intro s
    dsimp only [
      exec, execSt8, execSt16, execSt32, execSt64, execSt128, execRadd, storeWord, redmWord, storeLike]
    rfl

/-- DEMOTE. -/
theorem demote_decode (o : CtlGArgs) :
    Decodes {} (.demote o) := by
  all_goals
    apply decodes_of_issue
    intro s
    dsimp only [exec, execDemote]

/-- The fence. -/
theorem fence_decode (o : FenArgs) : Decodes { prefixKind := .mem, orders := [0, 1, 2, 3], sc := o.sc } (.fence o) := by
  apply decodes_of_issue
  intro s
  dsimp only [exec, execFence]

/-- Settles O15: a word's decoding faults are those of the rule by which it issues. -/
theorem decodingFaultsParkEveryMember : Obligations.DecodingFaultsParkEveryMember :=
  ⟨fun _ _ => wordFault_eq_none_iff,
    fun o => ⟨integerWords_decode o, thirdWords_decode o, wideWords_decode o, floatWords_decode o, fusedWords_decode o⟩,
    immediateWords_decode, fun o => ⟨unaryWords_decode o, floatUnaryWords_decode o⟩, sfuWords_decode, warpWords_decode,
    compareWords_decode, shuffleWords_decode, reductionWords_decode, relativeTransfers_decode, indirectTransfers_decode,
    fun o => ⟨(controlWords_decode o).1, (controlWords_decode o).2, demote_decode o⟩, fun o => ⟨loadWords_decode o, atomicWords_decode o⟩, storeWords_decode, fence_decode⟩

end Sys2Proof.Proofs
end

