-- ==== Sys2Proof/Proofs/Loads.lean ====
section
/-!
Loads at their issue (07_memory R156, R160, R161): the checks of one member's address, its flag and the access left
outstanding.
-/

set_option Elab.async false

namespace Sys2Proof.Proofs

open Sys2Proof Sys2Proof.Machine Sys2Proof.Laws Sys2Proof.Safety Sys2Proof.Claims

section
variable {s : State} {g : Group} {r : TRef} {w : Workgroup} {th : Thread} (ha : Alone s g r w th)
include ha

/-! ## The flag of the one member (R34) -/

theorem alone_flagFull {fs : Bool} {acts : Thread → Bool} (hroom : acts th = true → flagRoom g fs th) :
    flagFull fs acts g s = false := by
  unfold flagFull
  cases hflag : g.flagOf fs with
  | none => rfl
  | some f =>
    have hfull : (acts th && decide (63 ≤ th.flag f)) = false := by
      cases hact : acts th with
      | false => rfl
      | true => simpa using hroom hact f hflag
    simpa [alone_active ha, alone_thread ha] using hfull

/-- An operation behind a translation that the TLBs have taken in. -/
theorem settle_tlbInsert_addOp {rule : WordRule} {regs : List Nat} (h : Ready s g rule regs) (core part : Nat) (l : Leaf)
    (fs : Bool) (k : OpKind) (d n : Nat) :
    (((s.tlbInsert core part l).advance g).addOp g r (some fs) s.nextId k d n).settle g.id =
      (afterOp s g (newOp s g r th (g.flagOf fs) k d n)).tlbInsert core part l := by
  have hsettle := alone_addOp (ready_tlbInsert h core part l) (alone_tlbInsert ha core part l) fs k d n
  unfold afterOp
  rw [tlbInsert_withOp, after_tlbInsert]
  obtain ⟨fs, cs, ts, ht⟩ := tlbInsert_eq s core part l
  rw [ht] at hsettle ⊢
  exact hsettle

/-! ## An access of the one member -/

/-- What the one member does behind the word, if its guard is true. -/
theorem alone_guarded (guard : BitVec 3) (f : Nat → TRef → Thread → State → State) :
    (s.advance g).eachActing g (fun t => t.guard guard false) f =
      if th.pred guard.toNat = true then f s.nextId r { th with pc := g.pc + 4 } (s.advance g) else s.advance g := by
  rw [alone_eachActing (alone_advance ha), guard_false_eq]
  rfl

/-- The one member's checks stand before the word as behind it. -/
theorem alone_issueAccess (fs : Option Bool) (va : DWord) (n : Nat) (need : Rights) (order scope : Nat)
    (mk : Access → OpKind) (dst ndst : Nat) :
    (s.advance g).issueAccess g r fs s.nextId va n need order scope mk dst ndst =
      match checked s w.core w.part va n need with
      | .error d => (s.advance g).raise r d (g.site g.pc)
      | .ok l => ((s.tlbInsert w.core w.part l).advance g).addOp g r fs s.nextId (mk (reaching va n l order scope))
          dst ndst := by
  simp only [State.issueAccess, advance_coreOf, advance_partOf, alone_coreOf ha, alone_partOf ha, checkAccess_eq,
    advance_checked, advance_tlbInsert]
  rfl

section
variable {rule : WordRule} {regs : List Nat} (h : Ready s g rule regs) {fill : Group → State → State}
  {hold : Group → State → Bool} {effect : Group → State → State} (hf : fill g s = s) (hh : hold g s = false)
include h hf hh

/-- A word whose effect is one access of its one member that counts on a flag. -/
theorem ready_access {va : DWord} {n : Nat} {need : Rights} {fs : Bool} {order scope : Nat} {mk : Access → OpKind}
    {dst ndst : Nat}
    (he : effect g (s.advance g) = (s.advance g).issueAccess g r (some fs) s.nextId va n need order scope mk dst ndst) :
    Machine.issue rule regs fill hold effect s = .next (match checked s w.core w.part va n need with
      | .error d => parkedAt s g d
      | .ok l => issued s g r w th (g.flagOf fs) l (mk (reaching va n l order scope)) dst ndst) := by
  rw [alone_issueAccess ha] at he
  cases hc : checked s w.core w.part va n need with
  | error d =>
    rw [hc] at he
    exact ready_parks h ha hf hh he
  | ok l =>
    rw [hc] at he
    rw [ready_issue h hf hh, he]
    exact congrArg _ (settle_tlbInsert_addOp ha h w.core w.part l ..)

end

/-! ## Loads (R160) -/

theorem alone_loadEffect (func : Nat) (o : MArgs) :
    ((s.advance g).eachActing g (fun t => t.guard o.guard false) fun word r t s =>
      s.issueAccess g r (some o.fs) word (s.address g r t o.mode o.wb o.vo) (loadShape func).1 { r := true } g.order g.scope
        (.load func · none) o.vd.toNat (loadShape func).2) =
    if th.pred o.guard.toNat = true then
      (s.advance g).issueAccess g r (some o.fs) s.nextId (s.address g r th o.mode o.wb o.vo) (loadShape func).1
        { r := true } g.order g.scope (.load func · none) o.vd.toNat (loadShape func).2
    else s.advance g := by
  rw [alone_guarded ha, advance_address]

theorem loadWord_alone {o : MArgs} {func : Nat}
    (h : Ready s g (accessRule [0, 1] .none) (registers o.vd.toNat (loadShape func).2 ++ addressed o.mode o.vo))
    (hroom : th.pred o.guard.toNat = true → flagRoom g o.fs th) :
    loadWord func o s = .next (if th.pred o.guard.toNat = true then
      match checked s w.core w.part (s.address g r th o.mode o.wb o.vo) (loadShape func).1 { r := true } with
      | .error d => parkedAt s g d
      | .ok l => issued s g r w th (g.flagOf o.fs) l
          (.load func (reaching (s.address g r th o.mode o.wb o.vo) (loadShape func).1 l g.order g.scope) none)
          o.vd.toNat (loadShape func).2
      else after s g fun _ t => t) := by
  have hf (w : WordRule) (acts : Thread → Bool) (srcs : List Nat) := ready_fillSources h w acts srcs
  have hh : flagFull o.fs (fun t => t.guard o.guard false) g s = false :=
    alone_flagFull ha fun hact => hroom ((guard_false_eq th o.guard).symm.trans hact)
  have he := alone_loadEffect ha func o
  unfold loadWord
  by_cases hp : th.pred o.guard.toNat = true
  · rw [if_pos hp] at he ⊢
    exact ready_access ha h (mk := (.load func · none)) (hf ..) hh he
  · rw [if_neg hp] at he ⊢
    exact ready_nothing h (hf ..) hh he

end

/-! ## The checks of a decoding load (R161) -/

/-- An access to a page that is not plain is to one of the formats 1 to 6. -/
theorem format_of_checked {s : State} {core part : Nat} {va : DWord} {n : Nat} {need : Rights} {l : Leaf}
    (h : checked s core part va n need = .ok l) : l.format < 7 := by
  unfold checked at h
  split_ifs at h
  cases hl : s.findLeaf core part va.toNat with
  | error c => simp [hl] at h
  | ok x =>
    rw [hl] at h
    dsimp only at h
    split_ifs at h with hr hf
    obtain rfl := Except.ok.inj h
    exact Nat.lt_of_not_le hf

theorem entryLeaf_eq (s : State) (core part : Nat) (l : Leaf) (va : DWord) (need : Rights) :
    s.entryLeaf core part l va.toNat need = entryPage s core part l va need := by
  unfold State.entryLeaf entryPage metaFault
  dsimp only
  rw [checkAccess_eq]
  by_cases hm : 2 ^ 57 ≤ l.metaBase.toNat
  · simp only [ge_iff_le, hm, if_true]
    rfl
  · simp only [ge_iff_le, hm, if_false]
    cases checked s core part (entryAddress l va.toNat) 2 need with
    | error d => rfl
    | ok m => by_cases hp : m.format = 0 <;> simp [hp] <;> rfl

theorem checkDecode_eq (s : State) (core part : Nat) (va : DWord) :
    s.checkDecode core part va = decodable s core part va := by
  unfold State.checkDecode decodable
  rw [checkAccess_eq]
  cases hc : checked s core part va 1 { r := true } with
  | error d => rfl
  | ok l =>
    have hformat := format_of_checked hc
    have hpage : (!isFormatPage l) = true ↔ l.format = 0 := by
      simp only [isFormatPage, Bool.not_eq_true', Bool.and_eq_false_iff, decide_eq_false_iff_not]
      omega
    simp only [hpage, bne_iff_ne, entryLeaf_eq]
    rfl

@[simp] theorem advance_entryPage (s : State) (g : Group) (core part : Nat) (l : Leaf) (va : DWord) (need : Rights) :
    entryPage (s.advance g) core part l va need = entryPage s core part l va need := by
  unfold entryPage
  simp only [advance_checked]

@[simp] theorem advance_decodable (s : State) (g : Group) (core part : Nat) (va : DWord) :
    decodable (s.advance g) core part va = decodable s core part va := by
  unfold decodable
  simp only [advance_checked, advance_entryPage]

/-- The access of a decoding load to the elements, aligned as they are read. -/
def elementsAccess (g : Group) (va : DWord) (l : Leaf) : Access :=
  let n := max 2 (blockWidth l.format / 2)
  { reaching (va - BitVec.ofNat 64 (va.toNat % n)) n l g.order g.scope with va := va.toNat }

/-- Its access to the block's entry. -/
def entryAccess (g : Group) (va : DWord) (l m : Leaf) : Access := reaching (entryAddress l va.toNat) 2 m 0 g.scope

section
variable {s : State} {g : Group} {r : TRef} {w : Workgroup} {th : Thread} (ha : Alone s g r w th)
include ha

theorem alone_decodeEffect (func : Nat) (o : MArgs) :
    ((s.advance g).eachActing g (fun t => t.guard o.guard false) fun word r t s =>
      let va := s.address g r t o.mode o.wb o.vo
      match s.checkDecode (s.coreOf r.wg) (s.partOf r.wg) va with
      | .error d => s.raise r d (g.site g.pc)
      | .ok (l, m) =>
        let n := max 2 (decodeSpan l.format)
        let acc := mkAccess (va - BitVec.ofNat 64 (va.toNat % n)) n l g.order g.scope
        let acc := { acc with va := va.toNat }
        let entry := mkAccess (entryAddress l va.toNat) 2 m 0 g.scope
        let core := s.coreOf r.wg
        let part := s.partOf r.wg
        ((s.tlbInsert core part l).tlbInsert core part m).addOp g r (some o.fs) word (.load func acc (some entry))
          o.vd.toNat (loadShape func).2) =
    if th.pred o.guard.toNat = true then
      match decodable s w.core w.part (s.address g r th o.mode o.wb o.vo) with
      | .error d => (s.advance g).raise r d (g.site g.pc)
      | .ok (l, m) => (((s.tlbInsert w.core w.part l).tlbInsert w.core w.part m).advance g).addOp g r (some o.fs) s.nextId
          (.load func (elementsAccess g (s.address g r th o.mode o.wb o.vo) l)
            (some (entryAccess g (s.address g r th o.mode o.wb o.vo) l m))) o.vd.toNat (loadShape func).2
    else s.advance g := by
  rw [alone_guarded ha]
  simp only [advance_address, advance_coreOf, advance_partOf, alone_coreOf ha, alone_partOf ha, checkDecode_eq,
    advance_decodable, advance_tlbInsert]
  rfl

theorem decodeLoadWord_alone {o : MArgs} {func : Nat}
    (h : Ready s g (accessRule [0, 1] .none) (registers o.vd.toNat (loadShape func).2 ++ addressed o.mode o.vo))
    (hroom : th.pred o.guard.toNat = true → flagRoom g o.fs th) :
    decodeLoadWord func o s = .next (if th.pred o.guard.toNat = true then
      match decodable s w.core w.part (s.address g r th o.mode o.wb o.vo) with
      | .error d => parkedAt s g d
      | .ok (l, m) => (issued s g r w th (g.flagOf o.fs) l
          (.load func (elementsAccess g (s.address g r th o.mode o.wb o.vo) l)
            (some (entryAccess g (s.address g r th o.mode o.wb o.vo) l m)))
          o.vd.toNat (loadShape func).2).tlbInsert w.core w.part m
      else after s g fun _ t => t) := by
  have hf (w : WordRule) (acts : Thread → Bool) (srcs : List Nat) := ready_fillSources h w acts srcs
  have hh : flagFull o.fs (fun t => t.guard o.guard false) g s = false :=
    alone_flagFull ha fun hact => hroom ((guard_false_eq th o.guard).symm.trans hact)
  have he := alone_decodeEffect ha func o
  unfold decodeLoadWord
  by_cases hp : th.pred o.guard.toNat = true
  case neg =>
    rw [if_neg hp] at he ⊢
    exact ready_nothing h (hf ..) hh he
  rw [if_pos hp] at he ⊢
  cases hc : decodable s w.core w.part (s.address g r th o.mode o.wb o.vo) with
  | error d =>
    rw [hc] at he
    exact ready_parks h ha (hf ..) hh he
  | ok x =>
    obtain ⟨l, m⟩ := x
    rw [hc] at he
    refine (ready_issue h (hf ..) hh).trans (congrArg Host.Outcome.next ((congrArg (State.settle · g.id) he).trans ?_))
    have hsettle := settle_tlbInsert_addOp (alone_tlbInsert ha w.core w.part l) (ready_tlbInsert h w.core w.part l)
      w.core w.part m o.fs (.load func (elementsAccess g (s.address g r th o.mode o.wb o.vo) l)
        (some (entryAccess g (s.address g r th o.mode o.wb o.vo) l m))) o.vd.toNat (loadShape func).2
    have hissued (k : OpKind) (d n : Nat) : issued s g r w th (g.flagOf o.fs) l k d n =
        afterOp (s.tlbInsert w.core w.part l) g (newOp s g r th (g.flagOf o.fs) k d n) := by
      unfold issued afterOp
      rw [tlbInsert_withOp, after_tlbInsert]
    dsimp only
    rw [hissued]
    obtain ⟨fs, cs, ts, ht⟩ := tlbInsert_eq s w.core w.part l
    rw [ht] at hsettle ⊢
    exact hsettle

end

/-- Settles O16: a load checks its address and leaves one access on its flag. -/
theorem loadWordsLeaveOneCheckedAccess : Obligations.LoadWordsLeaveOneCheckedAccess := by
  unfold Obligations.LoadWordsLeaveOneCheckedAccess
  intro s g r w th o ha
  refine ⟨fun p hp h => ?_, fun p hp h => ?_⟩
  · obtain ⟨hexec, hshape⟩ : exec (p.1 o) s = loadWord p.2.1 o s ∧ loadShape p.2.1 = p.2.2 := by
      simp only [loads, List.mem_cons, List.not_mem_nil, or_false] at hp
      rcases hp with rfl | rfl | rfl | rfl | rfl | rfl | rfl <;> exact ⟨rfl, rfl⟩
    rw [hexec, ← hshape]
    rw [← hshape] at h
    refine ⟨fun hg => ?_, fun hg hroom => ?_⟩
    · rw [loadWord_alone ha h (fun hp => absurd hp (by simp [hg])), if_neg (by simp [hg])]
    · refine (loadWord_alone ha h fun _ => hroom).trans ((congrArg Host.Outcome.next (if_pos hg)).trans ?_)
      cases checked .. <;> rfl
  · obtain ⟨hexec, hshape⟩ : exec (p.1 o) s = decodeLoadWord p.2.1 o s ∧ (loadShape p.2.1).2 = p.2.2 := by
      simp only [List.mem_cons, List.not_mem_nil, or_false] at hp
      rcases hp with rfl | rfl <;> exact ⟨rfl, rfl⟩
    rw [hexec, ← hshape]
    rw [← hshape] at h
    refine ⟨fun hg => ?_, fun hg hroom => ?_⟩
    · rw [decodeLoadWord_alone ha h (fun hp => absurd hp (by simp [hg])), if_neg (by simp [hg])]
    · refine (decodeLoadWord_alone ha h fun _ => hroom).trans ((congrArg Host.Outcome.next (if_pos hg)).trans ?_)
      cases decodable .. <;> rfl

end Sys2Proof.Proofs
end

