-- ==== Sys2Proof/Proofs/Taints.lean ====
section
/-!
Reductions and atomic words for two threads of one name (12_sandbox R360): each thread is tainted by its own guard.
-/

set_option Elab.async false

namespace Sys2Proof.Proofs

open Sys2Proof Sys2Proof.Machine Sys2Proof.Laws Sys2Proof.Safety Sys2Proof.Claims

/-- Two threads of one name: p1 of the one that is found under it is false, p1 of the other true. -/
def unevenTwins : State :=
  { single with
    wgs := single.wgs.map fun w => withThreads w ([false, true].flatMap fun b => w.threads.map (·.setPred 1 b)) }

/-- Their workgroup, and the thread that is found under their name. -/
def unevenWg : Workgroup := unevenTwins.wgs.headD (trialWorkgroup 0)
def idleTwin : Thread := unevenWg.threads.headD (startThread 0 false false 0 0 0 0)

theorem alone_unevenTwins : Alone unevenTwins (trialGroup 0) twinName unevenWg idleTwin := by
  repeat' apply And.intro
  all_goals decide +kernel

theorem ready_unevenTwins : Ready unevenTwins (trialGroup 0) (accessRule [0, 2] .none) [1, 2] ∧
    Ready unevenTwins (trialGroup 0) (accessRule [0, 1, 2, 3] .none) [1, 2] := by
  repeat' apply And.intro
  all_goals decide +kernel

/-- A reduction and an atomic word with v1 at the address in v2, under p1. -/
def reduceUnderP1 : MSArgs := { vs := 1, vo := 2, wb := 0, mode := false, guard := 1 }
def atomUnderP1 : MArgs := { vd := 1, vo := 2, wb := 0, mode := false, guard := 1, fs := false }

/-- Which threads of an answer are tainted. -/
def answeredTaints (a : Answer) : List Bool :=
  match a with
  | .next t => t.wgs.flatMap fun w => w.threads.map (·.taint)
  | _ => []

theorem radd_unevenTwins : answeredTaints (exec (.radd reduceUnderP1) unevenTwins) = [false, true] := by decide +kernel

theorem aadd_unevenTwins : answeredTaints (exec (.aadd atomUnderP1) unevenTwins) = [false, true] := by decide +kernel

theorem taints_unchanged :
    answeredTaints (.next (after unevenTwins (trialGroup 0) fun _ t => t)) = [false, false] := by decide +kernel

theorem p1_idleTwin : idleTwin.pred 1 = false := by decide +kernel

/-- Refutes O18: `Alone` allows a workgroup that lists two threads of one name. RADD asks the guard of the first, which
is false, and leaves no access; the second, whose guard is true, becomes tainted, where the statement has nothing change. -/
theorem not_storesAndReductionsLeaveOneCheckedAccess : ¬ Obligations.StoresAndReductionsLeaveOneCheckedAccess := by
  unfold Obligations.StoresAndReductionsLeaveOneCheckedAccess
  intro h
  have hrun : exec (.radd reduceUnderP1) unevenTwins = .next (after unevenTwins (trialGroup 0) fun _ t => t) :=
    ((h unevenTwins (trialGroup 0) twinName unevenWg idleTwin reduceUnderP1 alone_unevenTwins).2 (.radd, 0)
      List.mem_cons_self ready_unevenTwins.1).1 p1_idleTwin
  have htaints := radd_unevenTwins
  rw [hrun, taints_unchanged] at htaints
  exact absurd htaints (by decide)

/-- Refutes O21: as for RADD in O18, AADD taints the second of two threads of one name by its own guard. -/
theorem not_atomicWordsLeaveOneCheckedAccess : ¬ Obligations.AtomicWordsLeaveOneCheckedAccess := by
  unfold Obligations.AtomicWordsLeaveOneCheckedAccess
  intro h
  have hrun : exec (.aadd atomUnderP1) unevenTwins = .next (after unevenTwins (trialGroup 0) fun _ t => t) :=
    (h unevenTwins (trialGroup 0) twinName unevenWg idleTwin atomUnderP1 alone_unevenTwins (.aadd, 0, .none)
      List.mem_cons_self ready_unevenTwins.2).1 p1_idleTwin
  have htaints := aadd_unevenTwins
  rw [hrun, taints_unchanged] at htaints
  exact absurd htaints (by decide)

end Sys2Proof.Proofs
end

