-- ==== Sys2Proof/Proofs/Scratchpad.lean ====
section
/-!
Scratchpad words (07_memory R144, R163, R164): their checks, the window's bytes, and what their completion returns.
-/

set_option Elab.async false

namespace Sys2Proof.Proofs

open Sys2Proof Sys2Proof.Machine Sys2Proof.Laws Sys2Proof.Safety Sys2Proof.Claims

/-! ## Completions without fences -/

theorem retireFences_of_noFence {s : State} (h : NoFence s) : s.retireFences = s := by
  have hnone : (s.ops.filter fun f => match f.kind with
      | .fence .. => true
      | _ => false) = [] := by
    refine List.filter_eq_nil_iff.2 fun f hf => ?_
    have := h f hf
    cases hk : f.kind <;> simp_all
  unfold State.retireFences
  exact congrArg (List.foldl State.fenceStep s) hnone

theorem noFence_completed {s : State} (h : NoFence s) (o : PendingOp) (vals : List Word) (fp : BitVec 5) (keep : Nat) :
    NoFence (completed s o vals fp keep) :=
  fun f hf => h f (List.mem_of_mem_filter hf)

/-- What a completion does while no fence waits. -/
theorem retireFences_finishOp {s : State} (h : NoFence s) (o : PendingOp) (vals : List Word) (fp : BitVec 5) (keep : Nat) :
    (s.finishOp o vals fp keep).retireFences = completed s o vals fp keep := by
  rw [finishOp_eq]
  exact retireFences_of_noFence (noFence_completed h o vals fp keep)

/-! ## The bytes of a window -/

theorem drop_getBytes (m : List Host.Cell) (a n k : Nat) :
    (Memory.getBytes m a n).drop k = Memory.getBytes m (a + k) (n - k) := by
  induction k generalizing a n with
  | zero => rfl
  | succ k ih =>
    cases n with
    | zero => simp [Memory.getBytes]
    | succ n =>
      rw [Memory.getBytes, List.drop_succ_cons, ih]
      congr 1 <;> omega

theorem take_getBytes (m : List Host.Cell) (a : Nat) {n k : Nat} (h : k ≤ n) :
    (Memory.getBytes m a n).take k = Memory.getBytes m a k := by
  induction k generalizing a n with
  | zero => rfl
  | succ k ih =>
    obtain ⟨n, rfl⟩ : ∃ j, n = j + 1 := ⟨n - 1, by omega⟩
    rw [Memory.getBytes, List.take_succ_cons, ih _ (by omega), Memory.getBytes]

theorem wordAt_getBytes (w : Workgroup) (a : Nat) {n i : Nat} (h : 4 * i + 4 ≤ n) :
    wordAt (Memory.getBytes w.scratch a n) i = windowWord w (a + 4 * i) := by
  unfold wordAt windowWord
  rw [drop_getBytes, take_getBytes _ _ (by omega)]

theorem length_leBytes (n x : Nat) : (leBytes n x).length = n := by
  induction n generalizing x with
  | zero => rfl
  | succ n ih => rw [leBytes, List.length_cons, ih]

theorem length_flatMap_leBytes (f : Nat → Nat) (is : List Nat) :
    (is.flatMap fun i => leBytes 4 (f i)).length = 4 * is.length := by
  induction is with
  | nil => rfl
  | cons i is ih => rw [List.flatMap_cons, List.length_append, length_leBytes, ih, List.length_cons]; omega

/-- The bytes of k registers are the first of those of four. -/
theorem regBytes_eq (t : Thread) (n : Nat) {k : Nat} (hk : k ≤ 4) :
    t.regBytes n (4 * k) = sourceBytes t n (4 * k) := by
  have hsplit : List.range 4 = List.range k ++ (List.range (4 - k)).map (k + ·) := by
    rw [← List.range_add, Nat.add_sub_cancel' hk]
  have hlength := length_flatMap_leBytes (fun i => (t.reg (n + i)).toNat) (List.range k)
  rw [List.length_range] at hlength
  unfold Thread.regBytes sourceBytes registers
  rw [show (4 * k + 3) / 4 = k by omega, List.flatMap_map, hsplit, List.flatMap_append]
  exact (List.take_of_length_le hlength.le).trans (List.take_left' hlength).symm

/-! ## A word that changes its workgroup -/

theorem emptied_congr (g : Group) (ws : List Workgroup) {X Y : Workgroup → Workgroup} (hx : ∀ w, (X w).id = w.id)
    (hy : ∀ w, (Y w).id = w.id) (h : ∀ w, (X w).threads = (Y w).threads) :
    emptied g (ws.map X) = emptied g (ws.map Y) := by
  have hthread (r : TRef) : ({ State.reset with wgs := ws.map X } : State).thread? r =
      ({ State.reset with wgs := ws.map Y } : State).thread? r := by
    have hwg {Z : Workgroup → Workgroup} (hz : ∀ w, (Z w).id = w.id) (id : Nat) :
        ({ State.reset with wgs := ws.map Z } : State).wg? id = (({ State.reset with wgs := ws } : State).wg? id).map Z :=
      wg?_of_map rfl hz id
    unfold State.thread?
    rw [hwg hx, hwg hy]
    cases ({ State.reset with wgs := ws } : State).wg? r.wg with
    | none => rfl
    | some w => simp [Workgroup.thread?, h]
  unfold emptied State.active
  simp only [hthread]

/-- A change of one workgroup that is no change of its threads, its warps or its name. -/
structure LeavesThreads (f : Workgroup → Workgroup) : Prop where
  id : ∀ w, (f w).id = w.id
  warps : ∀ w, (f w).warps = w.warps
  threads : ∀ w ts, f (withThreads w ts) = withThreads (f w) ts

theorem ready_updWg {s : State} {g : Group} {rule : WordRule} {regs : List Nat} (h : Ready s g rule regs)
    {fill : Group → State → State} {hold : Group → State → Bool} {effect : Group → State → State} (hf : fill g s = s)
    (hh : hold g s = false) {wg : Nat} {f : Workgroup → Workgroup}
    (he : effect g (s.advance g) = (s.advance g).updWg wg f) (hl : LeavesThreads f) :
    Machine.issue rule regs fill hold effect s = .next ((after s g fun _ t => t).updWg wg f) := by
  obtain ⟨hid, hwarps, hthreads⟩ := hl
  let F (w : Workgroup) : Workgroup := if (w.id == wg) = true then f w else w
  have hFid (w : Workgroup) : (F w).id = w.id := by
    dsimp only [F]; split
    · exact hid w
    · rfl
  have hFthreads (w : Workgroup) (ts : List Thread) : F (withThreads w ts) = withThreads (F w) ts := by
    dsimp only [F]
    by_cases hw : (w.id == wg) = true
    · rw [if_pos hw, if_pos (by exact hw), hthreads]
    · rw [if_neg hw, if_neg (by exact hw)]
  have hlanded (w : Workgroup) : landed s g (F w) = landed s g w := by
    have hFwarps : (F w).warps = w.warps := by
      dsimp only [F]; split
      · exact hwarps w
      · rfl
    funext t
    unfold landed Workgroup.warp?
    rw [hFwarps]
  let X (w : Workgroup) : Workgroup := withThreads (F w) (workedThreads g (fun _ t => t) w)
  have hwgs : ((s.advance g).updWg wg f).wgs = s.wgs.map X := by
    show (s.advance g).wgs.map F = _
    rw [advance_wgs, List.map_map]
    exact List.map_congr_left fun w _ => hFthreads w _
  have hlate : ∀ w ∈ s.wgs, ∀ t ∈ (X w).threads, t.late = none := by
    intro w hw t ht
    obtain ⟨t0, ht0, rfl⟩ := List.mem_map.1 ht
    have h0 := (h.2.2.2.2.2 w hw t0 ht0).1
    split_ifs <;> exact h0
  rw [ready_effect h hf hh he hwgs rfl rfl hlate]
  have hgroups : groupsAfter s g (s.wgs.map X) =
      groupsAfter s g (s.wgs.map fun w => withThreads w (workedThreads g (fun _ t => t) w)) := by
    unfold groupsAfter
    rw [emptied_congr g s.wgs (X := X) (Y := fun w => withThreads w (workedThreads g (fun _ t => t) w)) hFid
      (fun _ => rfl) fun _ => rfl]
  have hmap : (s.wgs.map fun w => withThreads (X w) ((X w).threads.map (landed s g (X w)))) =
      (s.wgs.map fun w => withThreads w ((workedThreads g (fun _ t => t) w).map (landed s g w))).map F := by
    rw [List.map_map]
    refine List.map_congr_left fun w _ => ?_
    rw [Function.comp, hFthreads]
    show withThreads (F w) ((workedThreads g (fun _ t => t) w).map (landed s g (F w))) = _
    rw [hlanded]
  rw [hgroups, hmap]
  rfl

/-! ## The words at issue -/

theorem withWindow_eq (wg a : Nat) (bs : List Byte) (s : State) :
    withWindow wg a bs s = s.updWg wg fun w => { w with scratch := Memory.setBytes w.scratch a bs } := by
  simp only [withWindow, State.updWg, updateWhere, beq_iff_eq]

theorem spadFault_eq (w : Workgroup) (a : DWord) (n : Nat) : spadFault w.window a n = windowFault w a n := by
  simp only [spadFault, windowFault, gt_iff_lt, bne_iff_ne]
  rfl

section
variable {s : State} {g : Group} {r : TRef} {w : Workgroup} {th : Thread} (ha : Alone s g r w th)
include ha

theorem alone_advance_windowOf : (s.advance g).windowOf r.wg = w.window := by
  simp only [State.windowOf, advance_wg?, ha.2.1]
  rfl

theorem alone_spadLoadEffect (func n k : Nat) (o : SpArgs) :
    ((s.advance g).eachActing g (fun t => t.guard o.guard false) fun word r t s =>
      let a := g.spadAddress t o.vo
      match spadFault (s.windowOf r.wg) a n with
      | some d => s.raise r d (g.site g.pc)
      | none => s.addOp g r (some o.fs) word (.spad func a.toNat (t.reg o.vd.toNat) t.isHelper) o.vd.toNat k) =
    if th.pred o.guard.toNat = true then match windowFault w (g.spadAddress th o.vo) n with
      | some d => (s.advance g).raise r d (g.site g.pc)
      | none => (s.advance g).addOp g r (some o.fs) s.nextId
          (.spad func (g.spadAddress th o.vo).toNat (th.reg o.vd.toNat) (th.status == .helper)) o.vd.toNat k
    else s.advance g := by
  rw [alone_guarded ha]
  simp only [alone_advance_windowOf ha, spadFault_eq]
  rfl

theorem alone_spadStoreEffect (n : Nat) (o : SpSArgs) :
    ((s.advance g).eachActing g (fun t => t.guard o.guard false) fun _ r t s =>
      let a := g.spadAddress t o.vo
      match spadFault (s.windowOf r.wg) a n with
      | some d => s.raise r d (g.site g.pc)
      | none =>
        if t.isHelper then s
        else s.updWg r.wg fun w => { w with scratch := Memory.setBytes w.scratch a.toNat (t.regBytes o.vs.toNat n) }) =
    if th.pred o.guard.toNat = true then match windowFault w (g.spadAddress th o.vo) n with
      | some d => (s.advance g).raise r d (g.site g.pc)
      | none => if th.isHelper = true then s.advance g else (s.advance g).updWg r.wg fun w =>
          { w with scratch := Memory.setBytes w.scratch (g.spadAddress th o.vo).toNat (th.regBytes o.vs.toNat n) }
    else s.advance g := by
  rw [alone_guarded ha]
  simp only [alone_advance_windowOf ha, spadFault_eq]
  rfl

theorem spadLoadWord_alone {func k : Nat} {reads : Bool} {o : SpArgs}
    (h : Ready s g { ext := true } (o.vo.toNat :: registers o.vd.toNat k))
    (hroom : th.pred o.guard.toNat = true → flagRoom g o.fs th) :
    spadLoadWord func k reads o s = .next (if th.pred o.guard.toNat = true then
      match windowFault w (g.spadAddress th o.vo) (spadSize func) with
      | some d => parkedAt s g d
      | none => afterOp s g (newOp s g r th (g.flagOf o.fs)
          (.spad func (g.spadAddress th o.vo).toNat (th.reg o.vd.toNat) (th.status == .helper)) o.vd.toNat k)
      else after s g fun _ t => t) := by
  have hf (w : WordRule) (acts : Thread → Bool) (srcs : List Nat) := ready_fillSources h w acts srcs
  have hh : flagFull o.fs (fun t => t.guard o.guard false) g s = false :=
    alone_flagFull ha fun hact => hroom ((guard_false_eq th o.guard).symm.trans hact)
  have he := alone_spadLoadEffect ha func (spadSize func) k o
  unfold spadLoadWord
  by_cases hp : th.pred o.guard.toNat = true
  case neg =>
    rw [if_neg hp] at he ⊢
    exact ready_nothing h (hf ..) hh he
  rw [if_pos hp] at he ⊢
  cases hc : windowFault w (g.spadAddress th o.vo) (spadSize func) with
  | some d =>
    rw [hc] at he
    exact ready_parks h ha (hf ..) hh he
  | none =>
    rw [hc] at he
    refine (ready_issue h (hf ..) hh).trans (congrArg Host.Outcome.next ((congrArg (State.settle · g.id) he).trans ?_))
    exact alone_addOp h ha ..

theorem spadStoreWord_alone {func k : Nat} {o : SpSArgs}
    (h : Ready s g { ext := true } (o.vo.toNat :: registers o.vs.toNat k))
    (hgo : th.pred o.guard.toNat = true → s.spadMustWait r (spadFoot (g.spadAddress th o.vo) (spadSize func) true) = false) :
    spadStoreWord func k o s = .next (if th.pred o.guard.toNat = true then
      match windowFault w (g.spadAddress th o.vo) (spadSize func) with
      | some d => parkedAt s g d
      | none => if th.status = .helper then after s g fun _ t => t
          else withWindow r.wg (g.spadAddress th o.vo).toNat (th.regBytes o.vs.toNat (spadSize func)) (after s g fun _ t => t)
      else after s g fun _ t => t) := by
  have hf (w : WordRule) (acts : Thread → Bool) (srcs : List Nat) := ready_fillSources h w acts srcs
  have hh : ((s.active g).any fun r => (s.thread? r).any fun t => t.guard o.guard false &&
      s.spadMustWait r (spadFoot (g.spadAddress t o.vo) (spadSize func) true)) = false := by
    simpa [alone_active ha, alone_thread ha, guard_false_eq] using hgo
  have he := alone_spadStoreEffect ha (spadSize func) o
  unfold spadStoreWord
  by_cases hp : th.pred o.guard.toNat = true
  case neg =>
    rw [if_neg hp] at he ⊢
    exact ready_nothing h (hf ..) hh he
  rw [if_pos hp] at he ⊢
  cases hc : windowFault w (g.spadAddress th o.vo) (spadSize func) with
  | some d =>
    rw [hc] at he
    exact ready_parks h ha (hf ..) hh he
  | none =>
    rw [hc] at he
    dsimp only at he ⊢
    rw [withWindow_eq]
    by_cases hhelper : th.status = .helper
    · rw [if_pos ((isHelper_iff th).2 hhelper)] at he
      rw [if_pos hhelper]
      exact ready_nothing h (hf ..) hh he
    · rw [if_neg fun x => hhelper ((isHelper_iff th).1 x)] at he
      rw [if_neg hhelper]
      exact ready_updWg h (hf ..) hh he ⟨fun _ => rfl, fun _ => rfl, fun _ _ => rfl⟩

end

/-! ## Completion (R163, R164) -/

section
variable {s : State} {o : PendingOp} {func a : Nat} {x : Word} {helper : Bool} (hp : Performs s o)
  (hk : o.kind = .spad func a x helper) {w : Workgroup} {r : TRef} (hwho : o.who = [r])
include hp hk hwho

/-- What a scratchpad operation does when it completes. -/
theorem spadLoadComplete_eq (keep : Nat) (hfence : NoFence (s.landSpad r.wg func a x helper).1) :
    exec (.spadLoadComplete o.id keep) s = .next (completed (s.landSpad r.wg func a x helper).1 o
      (s.landSpad r.wg func a x helper).2 0 keep) := by
  obtain ⟨hop, hwaits, -, -⟩ := hp
  show execSpadLoadComplete o.id keep s = _
  unfold execSpadLoadComplete
  rw [hop]
  dsimp only
  rw [hk]
  dsimp only
  rw [if_neg (by simp [hwaits]), hwho]
  exact congrArg _ (retireFences_finishOp hfence ..)

end

theorem landSpad_load {s : State} {wg : Nat} {w : Workgroup} (hw : s.wg? wg = some w) {func : Nat} (hfunc : func ≤ 2)
    (a : Nat) (x : Word) (helper : Bool) : s.landSpad wg func a x helper =
      (s, (List.range (spadBytes func / 4)).map fun i => windowWord w (a + 4 * i)) := by
  unfold State.landSpad
  rw [hw]
  obtain rfl | rfl | rfl : func = 0 ∨ func = 1 ∨ func = 2 := by omega
  all_goals simp [spadSize, spadBytes, wordAt_getBytes, List.range_succ]

theorem landSpad_atomic {s : State} {wg : Nat} {w : Workgroup} (hw : s.wg? wg = some w) {func : Nat}
    (hfunc : func = 6 ∨ func = 7) (a : Nat) (x : Word) (helper : Bool) : s.landSpad wg func a x helper =
      (let old := windowWord w a
      let new := if func = 6 then BitVec.ofNat 32 (old.toNat + x.toNat) else if old.toInt ≤ x.toInt then x else old
      (if helper then s else withWindow wg a (leBytes 4 new.toNat) s, [old])) := by
  unfold State.landSpad
  rw [hw]
  have hold : wordAt (Memory.getBytes w.scratch a 4) 0 = windowWord w a := wordAt_getBytes w a (by omega)
  rcases hfunc with rfl | rfl
  · simp only [spadSize, hold, withWindow_eq, if_true, add_eq]
  · simp only [spadSize, hold, withWindow_eq, maxS_eq]
    rfl

/-- Settles O20: a scratchpad word checks the window and leaves its operation, or writes it; what it returns are the
window's words. -/
theorem scratchpadWordsReadAndWriteTheirWindow : Obligations.ScratchpadWordsReadAndWriteTheirWindow := by
  unfold Obligations.ScratchpadWordsReadAndWriteTheirWindow
  refine ⟨fun s g r w th o ha p hp h => ?_, fun s g r w th o ha p hp h => ?_,
    fun s o keep func a x helper w r hperf hk hwho hw => ⟨fun hfunc => ?_, fun hfunc => ?_⟩⟩
  · obtain ⟨reads, hexec, hsize⟩ : ∃ reads, exec (p.1 o) s = spadLoadWord p.2.1 p.2.2 reads o s ∧
        spadSize p.2.1 = spadBytes p.2.1 := by
      simp only [spadLoads, List.mem_cons, List.not_mem_nil, or_false] at hp
      rcases hp with rfl | rfl | rfl | rfl | rfl
      exacts [⟨false, rfl, rfl⟩, ⟨false, rfl, rfl⟩, ⟨false, rfl, rfl⟩, ⟨true, rfl, rfl⟩, ⟨true, rfl, rfl⟩]
    rw [hexec, ← hsize]
    refine ⟨fun hg => ?_, fun hg hroom => ?_⟩
    · rw [spadLoadWord_alone ha h fun hp => absurd hp (by simp [hg]), if_neg (by simp [hg])]
    · refine (spadLoadWord_alone ha h fun _ => hroom).trans ((congrArg Host.Outcome.next (if_pos hg)).trans ?_)
      cases windowFault .. <;> rfl
  · obtain ⟨func, hexec, hsize, hk⟩ : ∃ func, exec (p.1 o) s = spadStoreWord func p.2 o s ∧ spadSize func = 4 * p.2 ∧
        p.2 ≤ 4 := by
      simp only [spadStores, List.mem_cons, List.not_mem_nil, or_false] at hp
      rcases hp with rfl | rfl | rfl
      exacts [⟨3, rfl, rfl, by decide⟩, ⟨4, rfl, rfl, by decide⟩, ⟨5, rfl, rfl, by decide⟩]
    rw [hexec, ← regBytes_eq th o.vs.toNat hk, ← hsize]
    refine ⟨fun hg => ?_, fun hg hgo => ?_⟩
    · rw [spadStoreWord_alone ha h fun hp => absurd hp (by simp [hg]), if_neg (by simp [hg])]
    · refine (spadStoreWord_alone ha h fun _ => hgo).trans ((congrArg Host.Outcome.next (if_pos hg)).trans ?_)
      cases windowFault .. <;> rfl
  · have hland := landSpad_load hw hfunc a x helper
    rw [spadLoadComplete_eq hperf hk hwho keep (by rw [hland]; exact hperf.2.2.1), hland]
  · have hland := landSpad_atomic hw hfunc a x helper
    rw [spadLoadComplete_eq hperf hk hwho keep, hland]
    rw [hland]
    obtain ⟨-, -, hfence, -⟩ := hperf
    cases helper
    · exact fun f hf => hfence f hf
    · exact hfence

end Sys2Proof.Proofs
end

