-- ==== Sys2Proof/Proofs/OneMember.lean ====
section
/-!
The one member of a group behind its word: what is left of the issue once it has done its part.
-/

set_option Elab.async false

namespace Sys2Proof.Proofs

open Sys2Proof Sys2Proof.Machine Sys2Proof.Laws Sys2Proof.Safety Sys2Proof.Claims

section
variable {s : State} {g : Group} {rule : WordRule} {regs : List Nat} (h : Ready s g rule regs)

section
include h

theorem settle_advance : (s.advance g).settle g.id = after s g fun _ t => t := by
  have hsame : s.advance g = (s.advance g).mapGroup g.id fun _ t => t := (mapGroup_id fun _ _ _ _ _ => rfl).symm
  rw [hsame, advance_mapGroup (F := fun _ t => t) fun _ _ => rfl, settle_placed h]
  · rfl
  · intro v hv t ht
    obtain ⟨t0, ht0, rfl⟩ := List.mem_map.1 ht
    have h0 := (h.2.2.2.2.2 v hv t0 ht0).1
    split_ifs <;> exact h0

end

variable {r : TRef} {w : Workgroup} {th : Thread} (ha : Alone s g r w th)
include h ha

theorem settle_updThread {f : Thread → Thread} (hl : ∀ t, t.late = none → (f t).late = none) :
    ((s.advance g).updThread r f).settle g.id = after s g fun _ t => f t := by
  rw [updThread_eq_mapGroup (alone_advance ha).2.2.2.2.2, advance_mapGroup (F := fun _ t => f t) fun _ _ => rfl,
    settle_placed h]
  · rfl
  · intro v hv t ht
    obtain ⟨t0, ht0, rfl⟩ := List.mem_map.1 ht
    have h0 := (h.2.2.2.2.2 v hv t0 ht0).1
    split_ifs
    · exact hl _ h0
    · exact h0

theorem settle_raise (d : FaultDetail) : ((s.advance g).raise r d (g.site g.pc)).settle g.id = parkedAt s g d :=
  settle_updThread h ha fun _ ht => raise_late ht _ _

/-- A word that its one member runs where its guard is true. -/
theorem ready_guarded {fill : Group → State → State} {hold : Group → State → Bool} {guard : BitVec 3}
    {F : Group → Nat → TRef → Thread → State → State} {R : State} (hf : fill g s = s) (hh : hold g s = false)
    (hrun : th.pred guard.toNat = true →
      (F g s.nextId r { th with pc := g.pc + 4 } (s.advance g)).settle g.id = R) :
    Machine.issue rule regs fill hold (fun g s => s.eachActing g (fun t => t.guard guard false) (F g)) s =
      .next (if th.pred guard.toNat = true then R else after s g fun _ t => t) := by
  have he := alone_guarded ha guard (F g)
  rw [ready_issue h hf hh]
  rw [he]
  split
  case isTrue hp => exact congrArg _ (hrun hp)
  case isFalse hp => exact congrArg _ (settle_advance h)

end

end Sys2Proof.Proofs
end

