-- ==== Sys2Proof/Proofs/QuantisingWords.lean ====
section
/-!
Quantising words at their issue (09_block_formats R211 to R218): the checks of the block and its pages, the report on the
flag and the two stores.
-/

set_option Elab.async false

namespace Sys2Proof.Proofs

open Sys2Proof Sys2Proof.Machine Sys2Proof.Laws Sys2Proof.Safety Sys2Proof.Claims

/-! ## The control value and the block (R212) -/

theorem quantFmt_eq (c : Word) : quantFmt c = formatOf c := rfl

theorem quantAllow_eq (c : Word) : quantAllow c = c.toNat % 16 := by simp [quantAllow, field_eq]

theorem quantSel_eq (c : Word) : quantSel c = c.toNat / 256 % 4 := rfl

theorem quantCheck_eq (budget vq : Nat) (c : Word) : quantCheck budget vq c = blockFault budget vq c := rfl

theorem quantInput_eq (t : Thread) (vq : Nat) : t.quantInput vq (quantFmt (t.reg vq)) = blockInput t vq := rfl

theorem quantise_eq (t : Thread) (vq : Nat) :
    quantise (quantFmt (t.reg vq)) (quantAllow (t.reg vq)) (t.quantInput vq (quantFmt (t.reg vq))) = quantised t vq := by
  rw [quantAllow_eq]
  rfl

theorem report_eq (q : Quantised) : q.report = reportOf q := by
  unfold Quantised.report reportOf
  rw [append_eq_ofNat, append_eq_ofNat]
  cases q.uf
  · simp
  · simp
    congr 1
    omega

theorem flags_eq (q : Quantised) : q.flags = reportBits q := rfl

section
variable {s : State} {g : Group} {r : TRef} {w : Workgroup} {th : Thread} (ha : Alone s g r w th)
include ha

theorem alone_advance_budget : (s.advance g).budget r = budgetOf w th := by
  obtain ⟨-, hw, hth, -⟩ := ha
  have hname := List.find?_some hth
  simp only [Bool.and_eq_true, beq_iff_eq] at hname
  unfold State.budget State.warp? budgetOf
  simp only [advance_wg?, hw, hname.1]
  rfl

/-- No register of the ready member is cold, so nothing is filled. -/
theorem alone_fillQuant {rule : WordRule} {regs : List Nat} (h : Ready s g rule regs) (rule' : WordRule)
    (acts : Thread → Bool) (vq : Nat) (srcs : List Nat) : fillQuant rule' acts vq srcs g s = s := by
  have hcold : th.cold = 0 := by
    obtain ⟨v, hv, htv⟩ := thread?_mem (alone_thread ha)
    exact ((h.2.2.2.2.2 v hv th htv).2 (alone_inGroup ha)).1
  unfold fillQuant
  rw [ready_fillSources h]
  simp [alone_active ha, alone_thread ha, hcold]

/-- The checks of the one member's block stand before the word as behind it. -/
theorem alone_quantEach (vq : Nat) (pc : DWord) (f : Thread → Word → List Word → State → State) :
    (s.advance g).quantEach g r { th with pc := pc } vq f =
      match blockFault (budgetOf w th) vq (th.reg vq) with
      | some d => (s.advance g).raise r d (g.site g.pc)
      | none => f { th with pc := pc } (th.reg vq) (blockInput th vq) (s.advance g) := by
  unfold State.quantEach
  rw [alone_advance_budget ha]
  rfl

/-! ## QSEL and QERR (R215, R216) -/

theorem quantWord_alone {o : QbArgs} (h : Ready s g {} [o.vq.toNat])
    (hroom : th.pred o.guard.toNat = true → flagRoom g o.fs th) (f : Word → List Word → List Word × BitVec 5)
    {vals : List Word} {fp : BitVec 5} (hvals : f (th.reg o.vq.toNat) (blockInput th o.vq.toNat) = (vals, fp)) :
    quantWord o f s = .next (if th.pred o.guard.toNat = true then
      match blockFault (budgetOf w th) o.vq.toNat (th.reg o.vq.toNat) with
      | some d => parkedAt s g d
      | none => afterOp s g (newOp s g r th (g.flagOf o.fs) (.qblk vals fp) o.vq.toNat vals.length)
      else after s g fun _ t => t) := by
  have hh : flagFull o.fs (fun t => t.guard o.guard false) g s = false :=
    alone_flagFull ha fun hact => hroom ((guard_false_eq th o.guard).symm.trans hact)
  refine ready_guarded h ha (alone_fillQuant ha h ..) hh fun _ => ?_
  rw [alone_quantEach ha]
  cases blockFault (budgetOf w th) o.vq.toNat (th.reg o.vq.toNat) with
  | some d => exact settle_raise h ha d
  | none =>
    dsimp only
    rw [hvals]
    exact alone_addOp h ha ..

end

/-! ## Operations without a flag, and a second one of a word -/

/-- An operation that counts on no flag is only added to the list. -/
theorem addOp_none_eq {s : State} {g : Group} {r : TRef} {th : Thread} (hth : s.thread? r = some th) (word : Nat)
    (k : OpKind) (d n : Nat) :
    s.addOp g r none word k d n = withOp { newOp s g r th none k d n with word := word } s := by
  have hsame : (s.updThread r fun t => t.addFlag none) = s := by
    unfold State.updThread State.updWg Workgroup.updThread updateWhere
    simp [Thread.addFlag]
  unfold State.addOp
  simp only [hth, hsame]
  rfl

theorem thread?_withOp (op : PendingOp) (s : State) (r : TRef) : (withOp op s).thread? r = s.thread? r := rfl

section
variable {s : State} {g : Group} {r : TRef} {w : Workgroup} {th : Thread} (ha : Alone s g r w th)
include ha

/-- One operation of a word whose first operation has some number. -/
theorem alone_addOp_word {rule : WordRule} {regs : List Nat} (h : Ready s g rule regs) (fs : Bool) (word : Nat)
    (k : OpKind) (d n : Nat) :
    ((s.advance g).addOp g r (some fs) word k d n).settle g.id =
      afterOp s g { newOp s g r th (g.flagOf fs) k d n with word := word } := by
  have hA := alone_advance ha
  let op : PendingOp := { newOp s g r th (g.flagOf fs) k d n with word := word }
  let X (w : Workgroup) : Workgroup := withThreads w (workedThreads g (fun _ t => t.addFlag (g.flagOf fs)) w)
  have hadd : (s.advance g).addOp g r (some fs) word k d n =
      withOp op (placed s (s.wgs.map X) (updateWhere (fun x => x.id == g.id) (behindWord g) s.groups)) := by
    have hupd := advance_mapGroup (s := s) (g := g) (F := fun _ t => t.addFlag (g.flagOf fs)) fun _ _ => rfl
    unfold State.addOp
    simp only [alone_thread hA, updThread_eq_mapGroup hA.2.2.2.2.2, hupd]
    rfl
  have hlate : ∀ v ∈ s.wgs, ∀ t ∈ (X v).threads, t.late = none := by
    intro v hv t ht
    obtain ⟨t0, ht0, rfl⟩ := List.mem_map.1 ht
    have h0 := (h.2.2.2.2.2 v hv t0 ht0).1
    split_ifs
    · simp [h0]
    · exact h0
  rw [hadd]
  exact settle_general (P := withOp op (placed s (s.wgs.map X)
    (updateWhere (fun x => x.id == g.id) (behindWord g) s.groups))) h rfl rfl rfl hlate

/-- The two stores of a block and its report. -/
theorem alone_threeOps {rule : WordRule} {regs : List Nat} (h : Ready s g rule regs) (fs : Bool)
    (data entry report : OpKind) (vq : Nat) :
    ((((s.advance g).addOp g r none s.nextId data 0 0).addOp g r none s.nextId entry 0 0).addOp g r (some fs) s.nextId
      report vq 1).settle g.id = threeOps s g r th (g.flagOf fs) data entry report vq := by
  have hth := alone_thread (alone_advance ha)
  rw [addOp_none_eq hth, addOp_none_eq ((thread?_withOp ..).trans hth)]
  exact alone_addOp_word (s := withOp { newOp s g r th none entry 0 0 with id := s.nextId + 1 }
    (withOp (newOp s g r th none data 0 0) s)) ha h fs s.nextId report vq 1

end

/-! ## Pages of a block (R213, R217, R218) -/

theorem quantTarget_eq (s : State) (core part fmt : Nat) (va : DWord) :
    s.quantTarget core part fmt va = blockPages s core part fmt va := by
  unfold State.quantTarget blockPages
  rw [checkAccess_eq]
  simp only [bne_iff_ne, entryLeaf_eq]
  rfl

@[simp] theorem advance_blockPages (s : State) (g : Group) (core part fmt : Nat) (va : DWord) :
    blockPages (s.advance g) core part fmt va = blockPages s core part fmt va := by
  unfold blockPages
  simp only [advance_checked, advance_entryPage]

theorem formatLeaf_eq (s : State) (core part : Nat) (va : DWord) :
    s.formatLeaf core part va = formatPage s core part va := by
  unfold State.formatLeaf formatPage
  rw [checkAccess_eq]
  cases hc : checked s core part va 1 { r := true } with
  | error d => rfl
  | ok l =>
    have hformat := format_of_checked hc
    by_cases hplain : l.format = 0
    · simp [isFormatPage, hplain]
      rfl
    · have : isFormatPage l = true := by simp [isFormatPage]; omega
      simp [this, hplain]

@[simp] theorem advance_formatPage (s : State) (g : Group) (core part : Nat) (va : DWord) :
    formatPage (s.advance g) core part va = formatPage s core part va := by
  unfold formatPage
  simp only [advance_checked]

/-- An operation behind two translations that the TLBs have taken in. -/
theorem issued_eq (s : State) (g : Group) (r : TRef) (w : Workgroup) (th : Thread) (flag : Option Nat) (l : Leaf)
    (k : OpKind) (d n : Nat) : issued s g r w th flag l k d n =
      afterOp (s.tlbInsert w.core w.part l) g (newOp s g r th flag k d n) := by
  unfold issued afterOp
  rw [tlbInsert_withOp, after_tlbInsert]

section
variable {s : State} {g : Group} {r : TRef} {w : Workgroup} {th : Thread} (ha : Alone s g r w th)
include ha

theorem settle_two_tlbInserts {rule : WordRule} {regs : List Nat} (h : Ready s g rule regs) (l m : Leaf) (fs : Bool)
    (k : OpKind) (d n : Nat) :
    ((((s.tlbInsert w.core w.part l).tlbInsert w.core w.part m).advance g).addOp g r (some fs) s.nextId k d n).settle g.id =
      (issued s g r w th (g.flagOf fs) l k d n).tlbInsert w.core w.part m := by
  have hsettle := settle_tlbInsert_addOp (alone_tlbInsert ha w.core w.part l) (ready_tlbInsert h w.core w.part l)
    w.core w.part m fs k d n
  rw [issued_eq]
  obtain ⟨fs, cs, ts, ht⟩ := tlbInsert_eq s w.core w.part l
  rw [ht] at hsettle ⊢
  exact hsettle

theorem settle_threeOps {rule : WordRule} {regs : List Nat} (h : Ready s g rule regs) (l m : Leaf) (fs : Bool)
    (data entry report : OpKind) (vq : Nat) :
    ((((((s.tlbInsert w.core w.part l).tlbInsert w.core w.part m).advance g).addOp g r none s.nextId data 0 0).addOp g r none
      s.nextId entry 0 0).addOp g r (some fs) s.nextId report vq 1).settle g.id =
      ((threeOps s g r th (g.flagOf fs) data entry report vq).tlbInsert w.core w.part l).tlbInsert w.core w.part m := by
  have hsettle := alone_threeOps (alone_tlbInsert (alone_tlbInsert ha w.core w.part l) w.core w.part m)
    (ready_tlbInsert (ready_tlbInsert h w.core w.part l) w.core w.part m) fs data entry report vq
  unfold threeOps
  simp only [tlbInsert_withOp, after_tlbInsert]
  unfold threeOps at hsettle
  obtain ⟨fs, cs, ts, ht⟩ := tlbInsert_eq (s.tlbInsert w.core w.part l) w.core w.part m
  obtain ⟨fs', cs', ts', ht'⟩ := tlbInsert_eq s w.core w.part l
  rw [ht, ht'] at hsettle ⊢
  exact hsettle

/-! ## SBCHK and MTA (R217, R218) -/

theorem sbchk_alone {o : MArgs} (h : Ready s g { ext := true } (o.vd.toNat :: addressed o.mode o.vo))
    (hroom : th.pred o.guard.toNat = true → flagRoom g o.fs th) :
    execSbchk o s = .next (if th.pred o.guard.toNat = true then
      match formatPage s w.core w.part (s.address g r th o.mode o.wb o.vo) with
      | .error d => parkedAt s g d
      | .ok l => match entryPage s w.core w.part l (s.address g r th o.mode o.wb o.vo) { r := true } with
        | .error d => parkedAt s g d
        | .ok m => (issued s g r w th (g.flagOf o.fs) l
            (.sbchk l.format (reaching (entryAddress l (s.address g r th o.mode o.wb o.vo).toNat) 2 m 0 2))
            o.vd.toNat 1).tlbInsert w.core w.part m
      else after s g fun _ t => t) := by
  have hh : flagFull o.fs (fun t => t.guard o.guard false) g s = false :=
    alone_flagFull ha fun hact => hroom ((guard_false_eq th o.guard).symm.trans hact)
  refine ready_guarded h ha (ready_fillSources h ..) hh fun _ => ?_
  simp only [advance_address, advance_coreOf, advance_partOf, alone_coreOf ha, alone_partOf ha, formatLeaf_eq,
    entryLeaf_eq, advance_formatPage, advance_entryPage, advance_tlbInsert]
  cases formatPage s w.core w.part (s.address g r th o.mode o.wb o.vo) with
  | error d => exact settle_raise h ha d
  | ok l =>
    dsimp only
    cases entryPage s w.core w.part l (s.address g r th o.mode o.wb o.vo) { r := true } with
    | error d => exact settle_raise h ha d
    | ok m => exact settle_two_tlbInserts ha h ..

theorem mta_alone {o : MArgs} (h : Ready s g { ext := true } (registers o.vd.toNat 2 ++ addressed o.mode o.vo))
    (hroom : th.pred o.guard.toNat = true → flagRoom g o.fs th) :
    execMta o s = .next (if th.pred o.guard.toNat = true then
      match formatPage s w.core w.part (s.address g r th o.mode o.wb o.vo) with
      | .error d => parkedAt s g d
      | .ok l => issued s g r w th (g.flagOf o.fs) l
          (.qblk (words (entryAddress l (s.address g r th o.mode o.wb o.vo).toNat)) 0) o.vd.toNat 2
      else after s g fun _ t => t) := by
  have hh : flagFull o.fs (fun t => t.guard o.guard false) g s = false :=
    alone_flagFull ha fun hact => hroom ((guard_false_eq th o.guard).symm.trans hact)
  refine ready_guarded h ha (ready_fillSources h ..) hh fun _ => ?_
  simp only [advance_address, advance_coreOf, advance_partOf, alone_coreOf ha, alone_partOf ha, formatLeaf_eq,
    advance_formatPage, advance_tlbInsert]
  cases formatPage s w.core w.part (s.address g r th o.mode o.wb o.vo) with
  | error d => exact settle_raise h ha d
  | ok l =>
    dsimp only
    rw [words_eq]
    exact settle_tlbInsert_addOp ha h ..

/-! ## QST (R213) -/

/-- What QST does once the block is in order. -/
theorem settle_qst {rule : WordRule} {regs : List Nat} (h : Ready s g rule regs) (fs : Bool) (va : DWord) (fmt vq : Nat)
    (q : Quantised) :
    (if th.isHelper = true then match checkRange va (blockBytes fmt) with
      | some d => (s.advance g).raise r d (g.site g.pc)
      | none => (s.advance g).addOp g r (some fs) s.nextId (.qblk [q.report] q.flags) vq 1
    else match blockPages s w.core w.part fmt va with
      | .error d => (s.advance g).raise r d (g.site g.pc)
      | .ok (l, m) =>
        ((((((s.tlbInsert w.core w.part l).tlbInsert w.core w.part m).advance g).addOp g r none s.nextId
          (.store (mkAccess va (blockBytes fmt) l 0 2) q.bytes) 0 0).addOp g r none s.nextId
          (.store (mkAccess (entryAddress l va.toNat) 2 m 0 2) (leBytes 2 q.entry.toNat)) 0 0).addOp g r (some fs) s.nextId
          (.qblk [q.report] q.flags) vq 1)).settle g.id =
    if th.status = .helper then
      if 2 ^ 57 ≤ va.toNat then parkedAt s g { code := 0x12, addr := va }
      else if va.toNat % bytesOf fmt ≠ 0 then parkedAt s g { code := 0x10, addr := va }
      else afterOp s g (newOp s g r th (g.flagOf fs) (.qblk [reportOf q] (reportBits q)) vq 1)
    else match blockPages s w.core w.part fmt va with
      | .error d => parkedAt s g d
      | .ok x => ((threeOps s g r th (g.flagOf fs) (.store (reaching va (bytesOf fmt) x.1 0 2) q.bytes)
          (.store (reaching (entryAddress x.1 va.toNat) 2 x.2 0 2) (leBytes 2 q.entry.toNat))
          (.qblk [reportOf q] (reportBits q)) vq).tlbInsert w.core w.part x.1).tlbInsert w.core w.part x.2 := by
  have hbytes : blockBytes fmt = bytesOf fmt := rfl
  rw [report_eq, flags_eq, hbytes]
  by_cases hhelper : th.status = .helper
  case pos =>
    rw [if_pos ((isHelper_iff th).2 hhelper), if_pos hhelper]
    unfold checkRange
    by_cases hrange : 2 ^ 57 ≤ va.toNat
    · rw [if_pos hrange, if_pos hrange]
      exact settle_raise h ha _
    rw [if_neg hrange, if_neg hrange]
    by_cases halign : va.toNat % bytesOf fmt ≠ 0
    · rw [if_pos halign, if_pos (by simpa using halign)]
      exact settle_raise h ha _
    · rw [if_neg halign, if_neg (by simpa using halign)]
      exact alone_addOp h ha ..
  case neg =>
    rw [if_neg fun x => hhelper ((isHelper_iff th).1 x), if_neg hhelper]
    cases blockPages s w.core w.part fmt va with
    | error d => exact settle_raise h ha d
    | ok x =>
      obtain ⟨l, m⟩ := x
      exact settle_threeOps ha h ..

theorem qst_alone {o : MArgs} (h : Ready s g { ext := true } (o.vd.toNat :: addressed o.mode o.vo))
    (hroom : th.pred o.guard.toNat = true → flagRoom g o.fs th) :
    let va := s.address g r th o.mode o.wb o.vo
    let fmt := formatOf (th.reg o.vd.toNat)
    let q := quantised th o.vd.toNat
    let report : OpKind := .qblk [reportOf q] (reportBits q)
    execQst o s = .next (if th.pred o.guard.toNat = true then
      match blockFault (budgetOf w th) o.vd.toNat (th.reg o.vd.toNat) with
      | some d => parkedAt s g d
      | none => if th.status = .helper then
          if 2 ^ 57 ≤ va.toNat then parkedAt s g { code := 0x12, addr := va }
          else if va.toNat % bytesOf fmt ≠ 0 then parkedAt s g { code := 0x10, addr := va }
          else afterOp s g (newOp s g r th (g.flagOf o.fs) report o.vd.toNat 1)
        else match blockPages s w.core w.part fmt va with
          | .error d => parkedAt s g d
          | .ok x => ((threeOps s g r th (g.flagOf o.fs) (.store (reaching va (bytesOf fmt) x.1 0 2) q.bytes)
              (.store (reaching (entryAddress x.1 va.toNat) 2 x.2 0 2) (leBytes 2 q.entry.toNat)) report
              o.vd.toNat).tlbInsert w.core w.part x.1).tlbInsert w.core w.part x.2
      else after s g fun _ t => t) := by
  intro va fmt q report
  have hh : flagFull o.fs (fun t => t.guard o.guard false) g s = false :=
    alone_flagFull ha fun hact => hroom ((guard_false_eq th o.guard).symm.trans hact)
  refine ready_guarded h ha (alone_fillQuant ha h ..) hh fun _ => ?_
  rw [alone_quantEach ha]
  cases blockFault (budgetOf w th) o.vd.toNat (th.reg o.vd.toNat) with
  | some d => exact settle_raise h ha d
  | none =>
    simp only [advance_address, advance_coreOf, advance_partOf, alone_coreOf ha, alone_partOf ha, quantTarget_eq,
      advance_blockPages, advance_tlbInsert, quantAllow_eq]
    exact settle_qst ha h o.fs va fmt o.vd.toNat q

end

/-- Settles O26: a quantising word checks its block and its pages, and leaves its report on the flag, QST its two stores
too. -/
theorem quantisingWordsReportOnTheirFlag : Obligations.QuantisingWordsReportOnTheirFlag := by
  unfold Obligations.QuantisingWordsReportOnTheirFlag
  intro s g r w th ha
  refine ⟨fun o h => ?_, fun o h => ?_, fun o h => ?_⟩
  · intro vq q e p hp
    obtain ⟨f, hexec, hvals⟩ : ∃ f, exec p.1 s = quantWord o f s ∧ f (th.reg vq) (blockInput th vq) = (p.2.1, p.2.2) := by
      simp only [List.mem_cons, List.not_mem_nil, or_false] at hp
      rcases hp with rfl | rfl
      · refine ⟨_, rfl, ?_⟩
        rw [quantAllow_eq]
        dsimp only
        rw [report_eq, flags_eq]
        rfl
      · exact ⟨_, rfl, rfl⟩
    rw [hexec]
    refine ⟨fun hg => ?_, fun hg hroom => ?_⟩
    · rw [quantWord_alone ha h (fun hp => absurd hp (by simp [hg])) f hvals, if_neg (by simp [hg])]
    · refine (quantWord_alone ha h (fun _ => hroom) f hvals).trans ((congrArg Host.Outcome.next (if_pos hg)).trans ?_)
      cases blockFault .. <;> rfl
  · intro vq va fmt q report
    refine ⟨fun hg => ?_, fun hg hroom => ?_, fun hg => ?_, fun hg hroom => ?_⟩
    · refine (qst_alone ha h fun hp => absurd hp (by simp [hg])).trans ?_
      rw [if_neg (by simp [hg])]
    · refine (qst_alone ha h fun _ => hroom).trans ((congrArg Host.Outcome.next (if_pos hg)).trans ?_)
      cases blockFault (budgetOf w th) vq (th.reg vq) with
      | some d => rfl
      | none => cases blockPages s w.core w.part fmt va <;> rfl
    · refine (sbchk_alone ha h fun hp => absurd hp (by simp [hg])).trans ?_
      rw [if_neg (by simp [hg])]
    · refine (sbchk_alone ha h fun _ => hroom).trans ((congrArg Host.Outcome.next (if_pos hg)).trans ?_)
      cases formatPage s w.core w.part va with
      | error d => rfl
      | ok l => cases entryPage s w.core w.part l va { r := true } <;> rfl
  · intro va
    refine ⟨fun hg => ?_, fun hg hroom => ?_⟩
    · refine (mta_alone ha h fun hp => absurd hp (by simp [hg])).trans ?_
      rw [if_neg (by simp [hg])]
    · refine (mta_alone ha h fun _ => hroom).trans ((congrArg Host.Outcome.next (if_pos hg)).trans ?_)
      cases formatPage s w.core w.part va <;> rfl

end Sys2Proof.Proofs
end

