-- ==== Sys2Proof/Proofs/ExitedMember.lean ====
section
/-!
Progress words of a member that no longer executes (10_matrix R241).
-/

set_option Elab.async false

namespace Sys2Proof.Proofs

open Sys2Proof Sys2Proof.Machine Sys2Proof.Laws Sys2Proof.Safety Sys2Proof.Claims

/-- A group whose one member has exited, in a workgroup without tiles; its v1 holds 1. -/
def exitedMember : State :=
  { single with
    wgs := single.wgs.map fun w =>
      { w with ownsTiles := false, threads := w.threads.map fun t => { t with status := .exited }.setReg 1 1 } }

def exitedWg : Workgroup := exitedMember.wgs.headD (trialWorkgroup 0)
def exitedThread : Thread := exitedWg.threads.headD (startThread 0 false false 0 0 0 0)

theorem alone_exitedMember : Alone exitedMember (trialGroup 0) twinName exitedWg exitedThread := by
  repeat' apply And.intro
  all_goals decide +kernel

theorem ready_exitedMember : Ready exitedMember (trialGroup 0) {} [1] := by
  repeat' apply And.intro
  all_goals decide +kernel

/-- MPRG into v1. -/
def progressIntoV1 : MprgArgs := { vd := 1, clr := false, guard := 0 }

/-- What the statement says of MPRG in a workgroup without tiles. -/
def refusedProgress : State := parkedAt exitedMember (trialGroup 0) (matrixFault exitedMember twinName { code := 0x23 })

theorem v1_mprg_exitedMember : answeredV1s (exec (.mprg progressIntoV1) exitedMember) = [0] := by decide +kernel

theorem v1_refusedProgress : v1s refusedProgress = [1] := by decide +kernel

theorem p0_exitedThread : exitedThread.pred 0 = true ∧ exitedWg.ownsTiles = false := by decide +kernel

/-- Refutes O28: neither `Ready` nor `Alone` says that the member executes. A thread that has exited does not park, so that
MPRG, which in a workgroup without tiles parks the member and then writes the members left, writes its register, where the
statement has it refused. -/
theorem not_gangAndTileWords : ¬ Obligations.GangAndTileWords := by
  unfold Obligations.GangAndTileWords
  intro h
  obtain ⟨-, hmprg, -⟩ := h exitedMember (trialGroup 0) twinName exitedWg exitedThread alone_exitedMember
  obtain ⟨-, hrefused, -⟩ := hmprg progressIntoV1 ready_exitedMember
  have hrun : exec (.mprg progressIntoV1) exitedMember = .next refusedProgress :=
    hrefused p0_exitedThread.1 p0_exitedThread.2
  have hwrites := v1_mprg_exitedMember
  rw [hrun] at hwrites
  exact absurd (v1_refusedProgress.symm.trans hwrites) (by decide)

end Sys2Proof.Proofs
end

