-- ==== Sys2Proof/Proofs/Namesakes.lean ====
section
/-!
A load and a store that bear one number (08_consistency R178): the load's completion removes both.
-/

set_option Elab.async false

namespace Sys2Proof.Proofs

open Sys2Proof Sys2Proof.Machine Sys2Proof.Laws Sys2Proof.Safety Sys2Proof.Claims

/-- Bytes of the one page. -/
def pageBytes (a n : Nat) : Access := { va := a, pa := a, size := n, leaf := trialLeaf, order := 0, scope := 0 }

/-- A relaxed load of a word at 0x100. -/
def wordLoad : PendingOp := newOp single (trialGroup 0) twinName twin none (.load 4 (pageBytes 0x100 4) none) 1 1

/-- A store of 0xFF at 0x200 that the threads of core 0 see early; it bears the number of the load. -/
def namesakeStore : PendingOp :=
  { newOp single (trialGroup 0) twinName twin none (.store (pageBytes 0x200 1) [0xFF]) 0 0 with seen := some (0, 0) }

/-- The package in which both are outstanding. -/
def namesakes : State := { single with ops := [wordLoad, namesakeStore], nextId := 2 }

theorem performs_wordLoad : Performs namesakes wordLoad := by
  refine ⟨by decide +kernel, by decide +kernel, fun f hf => ?_, by decide +kernel⟩
  simp only [namesakes, List.mem_cons, List.not_mem_nil, or_false] at hf
  rcases hf with rfl | rfl <;> exact trivial

theorem granted_wordLoad : Granted namesakes (pageBytes 0x100 4) false := by
  unfold Granted
  decide +kernel

/-- The word comes from the tier, through an empty L2, to an empty L1. -/
theorem readable_wordLoad : Readable namesakes (namesakes.opCore wordLoad) (pageBytes 0x100 4) := by
  have habsent : (namesakes.core (namesakes.opCore wordLoad)).l1Line? (namesakes.homeAddr 0x100 / 128) = none := by
    decide +kernel
  have hfresh : FreshLine namesakes (namesakes.opCore wordLoad) (namesakes.homeAddr 0x100) 0 := by
    intro x hx
    rw [habsent] at hx
    cases hx
  have hsector : namesakes.l2Sector? (namesakes.homeAddr (pageBytes 0x100 4).pa / 128) = none := by decide +kernel
  refine ⟨by decide +kernel, hfresh, Or.inr ⟨⟨by decide +kernel, ?_⟩, hfresh, Or.inr (by decide +kernel)⟩⟩
  rw [hsector]
  refine ⟨Or.inl (by decide +kernel), ?_⟩
  decide +kernel

/-- The byte at 0x200 as a thread of core 0 reads it. -/
def byteSeen (s : State) : Byte := s.coreByte 0 0x200

def answeredByteSeen (a : Answer) : Byte :=
  match a with
  | .next t => byteSeen t
  | _ => 0

theorem byteSeen_namesakes : byteSeen namesakes = 0xFF ∧
    answeredByteSeen (exec (.loadComplete wordLoad.id 0) namesakes) = 0 := by
  decide +kernel

/-- Refutes O17: nothing says that outstanding operations bear different numbers. The completion of a relaxed load removes
every operation of its number; where a store that its core's threads see early is another, they read its byte no more. -/
theorem not_loadsReturnTheBytesOfMemory : ¬ Obligations.LoadsReturnTheBytesOfMemory := by
  unfold Obligations.LoadsReturnTheBytesOfMemory
  rintro ⟨hload, -⟩
  obtain ⟨t, hrun, -, -, hsame, -⟩ := hload namesakes wordLoad 0 4 (pageBytes 0x100 4) performs_wordLoad rfl (by decide) rfl
    granted_wordLoad readable_wordLoad
  obtain ⟨hbytes, -⟩ := hsame rfl
  obtain ⟨hbefore, hbehind⟩ := byteSeen_namesakes
  rw [hrun] at hbehind
  have hkept : byteSeen t = byteSeen namesakes := hbytes 0 0x200
  exact absurd (hbehind.symm.trans (hkept.trans hbefore)) (by decide)

end Sys2Proof.Proofs
end

