-- ==== Sys2Proof/Proofs/BlockEntries.lean ====
section
/-!
Entries of blocks (09_block_formats R197, R198): the check of an entry is a sum of its bits' contributions, so that no
change of one bit passes.
-/

set_option Elab.async false

namespace Sys2Proof.Proofs

open Sys2Proof Sys2Proof.Machine Sys2Proof.Laws Sys2Proof.Safety Sys2Proof.Claims

/-- The sum without carries of the numbers that a function gives for the elements of a list. -/
def xorSum (f : Nat → Nat) (l : List Nat) : Nat := l.foldl (fun a i => a ^^^ f i) 0

theorem foldl_xor_xor (f k : Nat → Nat) (l : List Nat) (a b : Nat) :
    l.foldl (fun x i => x ^^^ f i) a ^^^ l.foldl (fun x i => x ^^^ k i) b =
      l.foldl (fun x i => x ^^^ (f i ^^^ k i)) (a ^^^ b) := by
  induction l generalizing a b with
  | nil => rfl
  | cons i is ih =>
    simp only [List.foldl_cons]
    rw [ih]
    congr 1
    rw [Nat.xor_assoc, Nat.xor_left_comm (f i), ← Nat.xor_assoc]

theorem xorSum_xor (f k : Nat → Nat) (l : List Nat) : xorSum f l ^^^ xorSum k l = xorSum (fun i => f i ^^^ k i) l :=
  foldl_xor_xor f k l 0 0

/-- What bit i of an entry contributes to its check (R197). -/
def contribution (i : Nat) : Nat := checkTable.getD i 0

/-- The contributions of the set bits. -/
def contributed (p : Nat → Bool) : Nat := xorSum (fun i => if p i then contribution i else 0) (List.range 10)

theorem contributed_xor (p q : Nat → Bool) : contributed p ^^^ contributed q = contributed fun i => p i ^^ q i := by
  unfold contributed
  rw [xorSum_xor]
  congr 1
  funext i
  cases hp : p i <;> cases hq : q i <;> simp [hp, hq]

theorem checkBits_eq (m : Nat) : checkBits m = contributed m.testBit := by
  unfold checkBits contributed xorSum
  rw [List.foldl_filter]
  congr 1
  funext a i
  cases hbit : m.testBit i
  · simp [hbit]
  · simp [hbit, contribution, checkTable]

theorem checkOf_eq (sel scale : Nat) : checkOf sel scale = contributed (sel * 256 + scale).testBit := by
  unfold checkOf contributed xorSum
  simp only [Nat.testBit_eq_decide_div_mod_eq, decide_eq_true_eq]
  rfl

theorem contributed_lt (p : Nat → Bool) : contributed p < 8 := by
  have hlt (l : List Nat) (a : Nat) (ha : a < 2 ^ 3) :
      l.foldl (fun x i => x ^^^ if p i then contribution i else 0) a < 2 ^ 3 := by
    induction l generalizing a with
    | nil => exact ha
    | cons i is ih =>
      refine ih _ (Nat.xor_lt_two_pow ha ?_)
      have : contribution i < 2 ^ 3 := by
        by_cases hi : i < 10
        · revert i; decide
        · have : contribution i = 0 := by
            unfold contribution checkTable
            rw [List.getD_eq_default _ _ (by simpa using hi)]
          omega
      split
      · exact this
      · decide
  exact hlt _ 0 (by decide)

/-- R198 as the statements write it. -/
theorem entryValid_iff (e : BitVec 16) : entryValid e = true ↔ ValidEntry e.toNat := by
  have he := e.isLt
  have hm : entrySel e * 256 + entryScale e = e.toNat % 2 ^ 10 := by
    simp only [entrySel, entryScale, field_eq]
    omega
  simp only [entryValid, ValidEntry, Bool.and_eq_true, beq_iff_eq, checkOf_eq, checkBits_eq, hm]
  simp only [field_eq]
  refine and_congr ?_ Iff.rfl
  omega

theorem toNat_entryOf {sel scale : Nat} (hsel : sel < 4) (hscale : scale < 256) :
    (entryOf sel scale).toNat = checkOf sel scale * 1024 + (sel * 256 + scale) := by
  have hcheck := contributed_lt (sel * 256 + scale).testBit
  rw [← checkOf_eq] at hcheck
  unfold entryOf
  rw [BitVec.toNat_ofNat]
  omega

theorem entryValid_entryOf {sel scale : Nat} (hsel : sel < 4) (hscale : scale < 256) :
    entryValid (entryOf sel scale) = true := by
  have hcheck := contributed_lt (sel * 256 + scale).testBit
  rw [entryValid_iff, toNat_entryOf hsel hscale, checkOf_eq, ValidEntry, checkBits_eq]
  have hm : (contributed (sel * 256 + scale).testBit * 1024 + (sel * 256 + scale)) % 2 ^ 10 = sel * 256 + scale := by omega
  rw [hm]
  omega

/-- One bit is not an entry that the check would accept. -/
theorem single_bit_differs : ∀ i < 16, 2 ^ i / 2 ^ 13 = 0 →
    2 ^ i / 2 ^ 10 % 2 ^ 3 ≠ contributed (2 ^ i % 2 ^ 10 : Nat).testBit := by
  decide

theorem checkBits_xor (m n : Nat) : checkBits (m ^^^ n) = checkBits m ^^^ contributed n.testBit := by
  rw [checkBits_eq, checkBits_eq, contributed_xor]
  congr 1
  funext i
  exact Nat.testBit_xor ..

/-- A valid entry with one bit changed is not valid. -/
theorem not_validEntry_xor {e i : Nat} (h : ValidEntry e) (hi : i < 16) : ¬ ValidEntry (e ^^^ 2 ^ i) := by
  rintro ⟨htop, hcheck⟩
  obtain ⟨htop', hcheck'⟩ := h
  rw [Nat.xor_div_two_pow, htop', Nat.zero_xor] at htop
  rw [show 8 = 2 ^ 3 from rfl, Nat.xor_div_two_pow, Nat.xor_mod_two_pow, Nat.xor_mod_two_pow, checkBits_xor, ← hcheck',
    show 8 = 2 ^ 3 from rfl] at hcheck
  exact single_bit_differs i hi htop (Nat.xor_right_inj.1 hcheck)

theorem not_entryValid_flipped {sel scale i : Nat} (hsel : sel < 4) (hscale : scale < 256) (hi : i < 16) :
    entryValid (entryOf sel scale ^^^ (1#16 <<< i)) = false := by
  have hvalid := (entryValid_iff _).1 (entryValid_entryOf hsel hscale)
  rw [← Bool.not_eq_true, entryValid_iff, BitVec.toNat_xor]
  have hbit : (1#16 <<< i).toNat = 2 ^ i := by
    rw [BitVec.toNat_shiftLeft, BitVec.toNat_ofNat, Nat.shiftLeft_eq]
    have : 2 ^ i < 2 ^ 16 := Nat.pow_lt_pow_right (by decide) hi
    rw [Nat.mod_eq_of_lt] <;> omega
  rw [hbit]
  exact not_validEntry_xor hvalid hi

end Sys2Proof.Proofs
end

