-- ==== Sys2Proof/Proofs/Codebook.lean ====
section
/-!
The codebook of YLX (09_block_formats R202): the first 512 vectors of {1, 3, 5}^8 by their sums of squares and then in
lexicographic order.
-/

set_option Elab.async false

namespace Sys2Proof.Proofs

open Sys2Proof Sys2Proof.Machine Sys2Proof.Laws Sys2Proof.Safety Sys2Proof.Claims

/-- A vector of odd magnitudes. -/
def OddVector (v : List Nat) : Prop := ∀ m ∈ v, m = 1 ∨ m = 3 ∨ m = 5

/-- The sum of squares of a vector. -/
def squareSum (v : List Nat) : Nat := (v.map fun m => m ^ 2).sum

theorem squareSum_cons (m : Nat) (v : List Nat) : squareSum (m :: v) = m ^ 2 + squareSum v := rfl

theorem oddVector_cons {m : Nat} {v : List Nat} : OddVector (m :: v) ↔ (m = 1 ∨ m = 3 ∨ m = 5) ∧ OddVector v :=
  List.forall_mem_cons

/-- Every square of an odd magnitude is 1 more than a multiple of 8. -/
theorem squareSum_oddVector {v : List Nat} (h : OddVector v) : squareSum v % 8 = v.length % 8 ∧ v.length ≤ squareSum v := by
  induction v with
  | nil => exact ⟨rfl, Nat.le_refl _⟩
  | cons m v ih =>
    obtain ⟨hm, hv⟩ := oddVector_cons.1 h
    obtain ⟨hmod, hle⟩ := ih hv
    rw [squareSum_cons, List.length_cons]
    rcases hm with rfl | rfl | rfl <;> omega

/-- A shell holds the vectors of its length and sum of squares. -/
theorem mem_shell {n k : Nat} {v : List Nat} : v ∈ shell n k ↔ v.length = n ∧ OddVector v ∧ squareSum v = k := by
  induction n generalizing k v with
  | zero =>
    unfold shell
    split
    case isTrue h =>
      subst h
      rw [List.mem_singleton, List.length_eq_zero_iff]
      constructor
      · rintro rfl
        exact ⟨rfl, List.forall_mem_nil _, rfl⟩
      · exact And.left
    case isFalse h =>
      simp only [List.not_mem_nil, false_iff, List.length_eq_zero_iff]
      rintro ⟨rfl, -, hk⟩
      exact h hk.symm
  | succ n ih =>
    unfold shell
    rw [List.mem_flatMap]
    constructor
    · rintro ⟨m, hm, hv⟩
      split at hv
      case isFalse => exact absurd hv List.not_mem_nil
      case isTrue hle =>
        obtain ⟨u, hu, rfl⟩ := List.mem_map.1 hv
        obtain ⟨hlength, hodd, hsum⟩ := ih.1 hu
        refine ⟨by rw [List.length_cons, hlength], oddVector_cons.2 ⟨by simpa using hm, hodd⟩, ?_⟩
        rw [squareSum_cons, hsum, Nat.pow_two]
        omega
    · rintro ⟨hlength, hodd, hsum⟩
      obtain _ | ⟨m, u⟩ := v
      · simp at hlength
      obtain ⟨hm, hu⟩ := oddVector_cons.1 hodd
      rw [List.length_cons, Nat.add_right_cancel_iff] at hlength
      rw [squareSum_cons, Nat.pow_two] at hsum
      obtain ⟨-, hle⟩ := squareSum_oddVector hu
      refine ⟨m, by simpa using hm, ?_⟩
      rw [if_pos (by omega)]
      exact List.mem_map.2 ⟨u, ih.2 ⟨hlength, hu, by omega⟩, rfl⟩

/-- A shell stands in lexicographic order. -/
theorem pairwise_shell (n k : Nat) : (shell n k).Pairwise (· < ·) := by
  induction n generalizing k with
  | zero => unfold shell; split <;> simp
  | succ n ih =>
    unfold shell
    refine List.pairwise_flatMap.2 ⟨fun m _ => ?_, ?_⟩
    · split
      · exact List.pairwise_map.2 ((ih _).imp fun h => List.cons_lt_cons_iff.2 (Or.inr ⟨rfl, h⟩))
      · exact List.Pairwise.nil
    · have hrising : [1, 3, 5].Pairwise (· < ·) := by decide
      refine hrising.imp fun {a b} hab u hu v hv => ?_
      split at hu
      case isFalse => exact absurd hu List.not_mem_nil
      split at hv
      case isFalse => exact absurd hv List.not_mem_nil
      obtain ⟨u, -, rfl⟩ := List.mem_map.1 hu
      obtain ⟨v, -, rfl⟩ := List.mem_map.1 hv
      exact List.cons_lt_cons_iff.2 (Or.inl hab)

/-- The shells from which the codebook is taken. -/
def innerShells : List (List Nat) := [8, 16, 24, 32, 40, 48, 56].flatMap (shell 8)

theorem mem_innerShells {v : List Nat} : v ∈ innerShells ↔ latticeVector v ∧ squareSum v ≤ 56 := by
  unfold innerShells
  simp only [List.mem_flatMap, mem_shell]
  constructor
  · rintro ⟨k, hk, hlength, hodd, hsum⟩
    refine ⟨⟨hlength, hodd⟩, ?_⟩
    simp only [List.mem_cons, List.not_mem_nil, or_false] at hk
    omega
  · rintro ⟨⟨hlength, hodd⟩, hsum⟩
    obtain ⟨hmod, hle⟩ := squareSum_oddVector hodd
    refine ⟨squareSum v, ?_, hlength, hodd, rfl⟩
    simp only [List.mem_cons, List.not_mem_nil, or_false]
    omega

theorem pairwise_innerShells : innerShells.Pairwise vectorBefore := by
  refine List.pairwise_flatMap.2 ⟨fun k _ => ?_, ?_⟩
  · refine (pairwise_shell 8 k).imp_of_mem fun hu hv h => Or.inr ⟨?_, h⟩
    exact (mem_shell.1 hu).2.2.trans (mem_shell.1 hv).2.2.symm
  · have hrising : [8, 16, 24, 32, 40, 48, 56].Pairwise (· < ·) := by decide
    refine hrising.imp fun hab u hu v hv => Or.inl ?_
    have hsu := (mem_shell.1 hu).2.2
    have hsv := (mem_shell.1 hv).2.2
    unfold squareSum at hsu hsv
    dsimp only
    omega

theorem length_innerShells : 512 ≤ innerShells.length := by decide +kernel

theorem length_ylxBook : ylxBook.length = 512 := List.length_take_of_le length_innerShells

theorem pairwise_ylxBook : ylxBook.Pairwise vectorBefore := pairwise_innerShells.sublist (List.take_sublist ..)

theorem latticeVector_of_mem_ylxBook {v : List Nat} (h : v ∈ ylxBook) : latticeVector v :=
  (mem_innerShells.1 (List.mem_of_mem_take h)).1

/-- A vector that the codebook leaves out comes behind each that it holds. -/
theorem vectorBefore_of_not_mem_ylxBook {v : List Nat} (hv : latticeVector v) (hout : v ∉ ylxBook) {u : List Nat}
    (hu : u ∈ ylxBook) : vectorBefore u v := by
  by_cases hin : v ∈ innerShells
  · have hsplit : innerShells = ylxBook ++ innerShells.drop 512 := (List.take_append_drop ..).symm
    have hdrop : v ∈ innerShells.drop 512 := by
      rw [hsplit] at hin
      exact (List.mem_append.1 hin).resolve_left hout
    have hpair := pairwise_innerShells
    rw [hsplit] at hpair
    exact (List.pairwise_append.1 hpair).2.2 u hu v hdrop
  · have hsu := (mem_innerShells.1 (List.mem_of_mem_take hu)).2
    have hsv : ¬ squareSum v ≤ 56 := fun h => hin (mem_innerShells.2 ⟨hv, h⟩)
    left
    unfold squareSum at hsu hsv
    dsimp only
    omega

end Sys2Proof.Proofs
end

