-- ==== Sys2Proof/Proofs/QuantReports.lean ====
section
/-!
Reports of quantising words (09_block_formats R211, R217): their completion, and the entry that SBCHK reads.
-/

set_option Elab.async false

namespace Sys2Proof.Proofs

open Sys2Proof Sys2Proof.Machine Sys2Proof.Laws Sys2Proof.Safety Sys2Proof.Claims

/-! ## A read of bytes that are there to be had -/

/-- What a read may change, as a completion sees it: neither workgroups nor operations. -/
structure LeavesThreadsAndOps (s t : State) : Prop where
  wgs : t.wgs = s.wgs
  ops : t.ops = s.ops

theorem leaves_orderActions_acquire (s : State) (core scope : Nat) (acquire : Bool) :
    LeavesThreadsAndOps s (s.orderActions core (if acquire then 1 else 0) scope) := by
  unfold State.orderActions
  by_cases hscope : scope = 0
  · rw [if_pos hscope]
    exact ⟨rfl, rfl⟩
  · rw [if_neg hscope]
    cases acquire <;> exact ⟨rfl, rfl⟩

theorem readData_of_readable {s : State} {core : Nat} {a : Access} (h : Readable s core a) :
    ∃ t beyond, s.readData core a = .done t (s.coreBytes core (s.homeAddr a.pa) a.size) beyond ∧
      LeavesThreadsAndOps s t := by
  obtain ⟨-, hfresh, hbytes⟩ := h
  unfold State.readData
  dsimp only
  rw [l1Renew_of_fresh hfresh]
  split
  case isTrue => exact ⟨_, _, rfl, leaves_orderActions_acquire ..⟩
  case isFalse hnot =>
    obtain ⟨hplain, hroom⟩ := hbytes.resolve_left fun hall => hnot (by simpa using hall)
    have hfetched := fetched_l2Fill hplain
    have hroom' : LineRoom (s.l2Fill (s.homeAddr a.pa / 128) a.leaf.fold a.leaf.open_) core (s.homeAddr a.pa) a.leaf.gen := by
      refine lineRoom_congr ?_ (l1Capacity_congr hfetched.wgs core) hroom
      rw [State.core, plain_l2Fill_cores hplain]
      rfl
    obtain ⟨hwgs, -, hops, -, hcore, -⟩ := hfetched.trans (fetched_l1Fill hroom')
    rw [plain_l2Fill_poisonAt hplain]
    obtain ⟨hwgs', hops'⟩ := leaves_orderActions_acquire
      ((s.l2Fill (s.homeAddr a.pa / 128) a.leaf.fold a.leaf.open_).l1Fill core (s.homeAddr a.pa / 128) a.leaf) core a.scope
      (isAcquire a.order)
    refine ⟨_, _, congrArg (Performed.done _ · true) ?_, hwgs'.trans hwgs, hops'.trans hops⟩
    unfold State.coreBytes
    simp only [hcore]

theorem performRead_of_granted {s : State} {core part : Nat} {a : Access} (hg : Granted s a false) (h : Readable s core a) :
    ∃ t beyond, s.performRead core part a = .done t (s.coreBytes core (s.homeAddr a.pa) a.size) beyond ∧
      LeavesThreadsAndOps s t := by
  obtain ⟨hpool, hgen⟩ := hg
  have hserved : s.homeCheck part a.pa a.leaf false = .yes := by simp [State.homeCheck, hpool, hgen]
  unfold State.performRead
  rw [hserved]
  exact readData_of_readable h

/-! ## Completion (R211, R217) -/

theorem qblkComplete_report {s : State} {o : PendingOp} (hop : s.op? o.id = some o) {vals : List Word} {fp : BitVec 5}
    (hk : o.kind = .qblk vals fp) (keep : Nat) : exec (.qblkComplete o.id keep) s = .next (completed s o vals fp keep) := by
  show execQblkComplete o.id keep s = _
  unfold execQblkComplete
  rw [hop]
  dsimp only
  rw [hk]
  exact congrArg _ (finishOp_eq ..)

/-- What SBCHK returns of an entry (R217). -/
theorem sbchkResult_eq {fmt e : Nat} (hfmt : fmt < 8) (he : e < 2 ^ 16) :
    sbchkResult fmt (BitVec.ofNat 16 e) =
      BitVec.ofNat 32 (e + (if entryValid (BitVec.ofNat 16 e) then 0 else 65536) + 131072 * fmt) := by
  unfold sbchkResult
  rw [append_eq_ofNat, append_eq_ofNat, append_eq_ofNat]
  generalize entryValid (BitVec.ofNat 16 e) = valid
  apply BitVec.eq_of_toNat_eq
  cases valid <;> simp <;> omega

theorem ofLe_lt (bs : List Byte) : ofLe bs < 256 ^ bs.length := by
  induction bs with
  | nil => exact Nat.one_pos
  | cons b bs ih =>
    have hb := b.isLt
    rw [ofLe, List.length_cons, Nat.pow_succ]
    omega

theorem completed_wgs {s t : State} (h : t.wgs = s.wgs) (o : PendingOp) (vals : List Word) (fp : BitVec 5) (keep : Nat) :
    (completed t o vals fp keep).wgs = (completed s o vals fp keep).wgs := by
  unfold completed
  rw [h]

theorem qblkComplete_sbchk {s : State} {o : PendingOp} (hp : Performs s o) {fmt : Nat} {a : Access}
    (hk : o.kind = .sbchk fmt a) (hsize : a.size = 2) (hfmt : fmt < 8) (hg : Granted s a false)
    (hr : Readable s (s.opCore o) a) (keep : Nat) :
    let e := ofLe (s.coreBytes (s.opCore o) (s.homeAddr a.pa) 2)
    ∃ t, exec (.qblkComplete o.id keep) s = .next t ∧ t.ops = s.ops.filter (·.id != o.id) ∧
      t.wgs = (completed s o [BitVec.ofNat 32 (e + (if entryValid (BitVec.ofNat 16 e) then 0 else 65536) + 131072 * fmt)]
        0 keep).wgs := by
  intro e
  obtain ⟨hop, hwaits, hfence, -⟩ := hp
  obtain ⟨u, beyond, hread, hwgs, hops⟩ := performRead_of_granted (part := s.opPart o) hg hr
  have he : e < 2 ^ 16 := by
    have hlength : (s.coreBytes (s.opCore o) (s.homeAddr a.pa) 2).length = 2 := by simp [State.coreBytes]
    have hlt := ofLe_lt (s.coreBytes (s.opCore o) (s.homeAddr a.pa) 2)
    rwa [hlength] at hlt
  have hfence' : NoFence u := by
    unfold NoFence
    rw [hops]
    exact hfence
  refine ⟨completed u o [sbchkResult fmt (BitVec.ofNat 16 e)] 0 keep, ?_, ?_, ?_⟩
  · show execQblkComplete o.id keep s = _
    unfold execQblkComplete
    rw [hop]
    dsimp only
    rw [hk]
    dsimp only
    rw [if_neg (by simp [hwaits]), hread, hsize]
    exact congrArg _ (retireFences_finishOp hfence' ..)
  · exact congrArg (List.filter fun x => x.id != o.id) hops
  · rw [sbchkResult_eq hfmt he]
    exact completed_wgs hwgs ..

end Sys2Proof.Proofs
end

