-- ==== Sys2Proof/Proofs/NearestCodes.lean ====
section
/-!
Nearest codes (09_block_formats R199 to R201, R206): the first least element of a list, and the codes of a block's elements.
-/

set_option Elab.async false

namespace Sys2Proof.Proofs

open Sys2Proof Sys2Proof.Machine Sys2Proof.Laws Sys2Proof.Safety Sys2Proof.Claims

/-! ## The first least element -/

/-- A fold that goes over to an element only where it is less finds the least one, and the first of those: R says which of
two stands first. -/
theorem foldl_least {α β : Type} [LinearOrder β] (f : α → β) {R : α → α → Prop} (hR : ∀ a b, R a b → ¬ R b a)
    {upd : α → α → α} (hupd : ∀ x y, upd x y = if f y < f x then y else x) (b : α) (l : List α)
    (h : (b :: l).Pairwise R) :
    l.foldl upd b ∈ b :: l ∧
      ∀ c ∈ b :: l, f (l.foldl upd b) ≤ f c ∧ (f (l.foldl upd b) = f c → c = l.foldl upd b ∨ R (l.foldl upd b) c) := by
  induction l generalizing b with
  | nil => simp
  | cons x l ih =>
    obtain ⟨hb, hxl⟩ := List.pairwise_cons.1 h
    obtain ⟨hx, hl⟩ := List.pairwise_cons.1 hxl
    rw [List.foldl_cons, hupd]
    by_cases hlt : f x < f b
    · rw [if_pos hlt]
      obtain ⟨hmem, hleast⟩ := ih x hxl
      refine ⟨List.mem_cons_of_mem _ hmem, List.forall_mem_cons.2 ⟨?_, hleast⟩⟩
      have hbelow := (hleast x List.mem_cons_self).1.trans_lt hlt
      exact ⟨hbelow.le, fun heq => absurd heq hbelow.ne⟩
    · rw [if_neg hlt]
      have hbl : (b :: l).Pairwise R := List.pairwise_cons.2 ⟨fun y hy => hb y (List.mem_cons_of_mem _ hy), hl⟩
      obtain ⟨hmem, hleast⟩ := ih b hbl
      have hatb := hleast b List.mem_cons_self
      refine ⟨?_, List.forall_mem_cons.2 ⟨hatb, List.forall_mem_cons.2 ⟨?_, fun c hc =>
        hleast c (List.mem_cons_of_mem _ hc)⟩⟩⟩
      · rcases List.mem_cons.1 hmem with hr | hr
        · rw [hr]; exact List.mem_cons_self
        · exact List.mem_cons_of_mem _ (List.mem_cons_of_mem _ hr)
      · refine ⟨hatb.1.trans (not_lt.1 hlt), fun heq => Or.inr ?_⟩
        have hsame : f (l.foldl upd b) = f b := le_antisymm hatb.1 ((not_lt.1 hlt).trans heq.ge)
        rcases List.mem_cons.1 hmem with hr | hr
        · rw [hr]; exact hb x List.mem_cons_self
        · have hbr := hb _ (List.mem_cons_of_mem x hr)
          rcases hatb.2 hsame with hbase | hbase
          · rw [← hbase]; exact hb x List.mem_cons_self
          · exact absurd hbase (hR _ _ hbr)

/-! ## Values of codes (R199 to R201) -/

theorem units_eq (n : Bool) (m : Nat) (e q : Int) : units n m e q = scaled n m e q := by
  unfold units scaled
  cases n <;> simp

theorem intVal_signedCode {w c : Nat} (hw : 1 ≤ w) (hc : c < 2 ^ w) : intVal (signedCode w c) = integerCode w c := by
  obtain ⟨k, rfl⟩ : ∃ k, w = k + 1 := ⟨w - 1, by omega⟩
  have hpow : (2 : Int) ^ (k + 1) = ((2 ^ (k + 1) : Nat) : Int) := by push_cast; rfl
  unfold intVal signedCode integerCode
  rw [Nat.add_sub_cancel, hpow]
  generalize 2 ^ (k + 1) = p at hc ⊢
  by_cases hsign : c < 2 ^ k
  · rw [if_neg (by omega), if_pos hsign]
    simp
  · rw [if_pos (by omega), if_neg hsign]
    congr 1
    · simpa using hc
    · omega

theorem smallFloat_eq (n : Bool) (e f k : Nat) (bias : Int) : smallFloat n e f k bias = smallNumber n e f k bias := by
  unfold smallFloat smallNumber
  rw [Nat.add_comm f]

theorem sb8Value_eq {sel c : Nat} (hc : c < 2 ^ 8) : sb8Value sel c = elementOf 8 sel c := by
  unfold sb8Value elementOf
  match sel with
  | 0 => exact intVal_signedCode (by decide) hc
  | 1 => simp only [smallFloat_eq]; rfl
  | 2 => simp only [smallFloat_eq]; rfl
  | _ + 3 => simp only [smallFloat_eq]; rfl

theorem sb4Value_eq {sel c : Nat} (hc : c < 2 ^ 4) : sb4Value sel c = elementOf 4 sel c := by
  unfold sb4Value elementOf
  match sel with
  | 0 => exact intVal_signedCode (by decide) hc
  | 1 => simp only [smallFloat_eq]; rfl
  | 2 => revert c; decide
  | _ + 3 => rfl

theorem sb2Value_eq {sel c : Nat} (hc : c < 2 ^ 2) : sb2Value sel c = elementOf 2 sel c := by
  unfold sb2Value elementOf
  match sel with
  | 0 => exact intVal_signedCode (by decide) hc
  | 1 => revert c; decide
  | _ + 2 =>
    change FVal.fin (decide (2 * (c : Int) - 3 < 0)) (2 * (c : Int) - 3).natAbs (-1) =
      FVal.fin (decide (c < 2)) (if c = 0 ∨ c = 3 then 3 else 1) (-1)
    revert c; decide

/-- The widths of the formats. -/
theorem blockWidth_cases (fmt : Nat) : blockWidth fmt = 8 ∨ blockWidth fmt = 4 ∨ blockWidth fmt = 2 := by
  unfold blockWidth
  split
  · exact Or.inl rfl
  · split
    · exact Or.inr (Or.inl rfl)
    · exact Or.inr (Or.inr rfl)

theorem codeValue_eq {w : Nat} (hw : w = 8 ∨ w = 4 ∨ w = 2) {sel c : Nat} (hc : c < 2 ^ w) :
    codeValue w sel c = elementOf w sel c := by
  rcases hw with rfl | rfl | rfl
  · exact sb8Value_eq hc
  · exact sb4Value_eq hc
  · exact sb2Value_eq hc

/-- Code 0 is finite under every selector. -/
theorem finite_code_zero {w : Nat} (hw : w = 8 ∨ w = 4 ∨ w = 2) (sel : Nat) : ∃ n m e, elementOf w sel 0 = .fin n m e := by
  rcases hw with rfl | rfl | rfl
  all_goals match sel with
    | 0 => exact ⟨_, _, _, rfl⟩
    | 1 => exact ⟨_, _, _, rfl⟩
    | 2 => exact ⟨_, _, _, rfl⟩
    | _ + 3 => exact ⟨_, _, _, rfl⟩

/-! ## The nearest code (R206) -/

/-- The finite codes of a selector, with their values. -/
theorem mem_finiteCodes {w : Nat} (hw : w = 8 ∨ w = 4 ∨ w = 2) {sel : Nat} {x : Int} {p : Nat × Int} :
    p ∈ finiteCodes w sel x ↔
      p.1 < 2 ^ w ∧ (∃ n m e, elementOf w sel p.1 = .fin n m e) ∧ p.2 = inUnits (elementOf w sel p.1) x := by
  unfold finiteCodes
  rw [List.mem_filterMap]
  constructor
  · rintro ⟨c, hc, hp⟩
    rw [List.mem_range] at hc
    rw [codeValue_eq hw hc] at hp
    cases hv : elementOf w sel c with
    | nan b => rw [hv] at hp; cases hp
    | inf b => rw [hv] at hp; cases hp
    | fin n m e =>
      rw [hv] at hp
      obtain rfl := Option.some.inj hp
      exact ⟨hc, ⟨n, m, e, hv⟩, by rw [hv]; exact units_eq ..⟩
  · rintro ⟨hc, ⟨n, m, e, hv⟩, hval⟩
    refine ⟨p.1, List.mem_range.2 hc, ?_⟩
    rw [codeValue_eq hw hc, hv]
    rw [hv] at hval
    exact congrArg some (Prod.ext rfl ((units_eq ..).trans hval.symm))

theorem pairwise_finiteCodes (w sel : Nat) (x : Int) : (finiteCodes w sel x).Pairwise (fun a b => a.1 < b.1) := by
  refine List.pairwise_filterMap.2 (List.pairwise_lt_range.imp fun hab p hp q hq => ?_)
  split at hp
  · obtain rfl := Option.some.inj hp
    split at hq
    · obtain rfl := Option.some.inj hq
      exact hab
    · cases hq
  · cases hp

/-- How far a code's value lies from a target, and how large it is. -/
def nearness (t : Int) (p : Nat × Int) : Nat ×ₗ Nat := toLex ((t - p.2).natAbs, p.2.natAbs)

/-- The nearest code is one of the codes; none is nearer, none as near is smaller, and none as near and as large is lower. -/
theorem nearestCode_least {codes : List (Nat × Int)} (hne : codes ≠ []) (h : codes.Pairwise fun a b => a.1 < b.1) (t : Int) :
    nearestCode codes t ∈ codes ∧ ∀ c ∈ codes, nearness t (nearestCode codes t) ≤ nearness t c ∧
      (nearness t (nearestCode codes t) = nearness t c → (nearestCode codes t).1 ≤ c.1) := by
  obtain ⟨b, l, rfl⟩ := List.exists_cons_of_ne_nil hne
  have hupd (x y : Nat × Int) : (if (t - y.2).natAbs < (t - x.2).natAbs ∨
      ((t - y.2).natAbs = (t - x.2).natAbs ∧ y.2.natAbs < x.2.natAbs) then y else x) =
      if nearness t y < nearness t x then y else x := by
    simp only [nearness, Prod.Lex.toLex_lt_toLex]
  obtain ⟨hmem, hleast⟩ := foldl_least (nearness t) (fun _ _ hab hba => absurd hab (Nat.lt_asymm hba)) hupd b l h
  have hfold : nearestCode (b :: l) t = l.foldl (fun x y => if (t - y.2).natAbs < (t - x.2).natAbs ∨
      ((t - y.2).natAbs = (t - x.2).natAbs ∧ y.2.natAbs < x.2.natAbs) then y else x) b := by
    unfold nearestCode
    rw [List.headD_cons, List.foldl_cons, ite_self]
  rw [hfold]
  refine ⟨hmem, fun c hc => ⟨(hleast c hc).1, fun heq => ?_⟩⟩
  rcases (hleast c hc).2 heq with rfl | hlt
  · exact Nat.le_refl _
  · exact Nat.le_of_lt hlt

end Sys2Proof.Proofs
end

