-- ==== Sys2Proof/Proofs/BlockBytes.lean ====
section
/-!
Blocks of codes (09_block_formats R195, R202, R207): packing into bytes, and the index of least error.
-/

set_option Elab.async false

namespace Sys2Proof.Proofs

open Sys2Proof Sys2Proof.Machine Sys2Proof.Laws Sys2Proof.Safety Sys2Proof.Claims

/-! ## Numbers that are packed into bytes -/

theorem ofLe_leBytes (n x : Nat) : ofLe (leBytes n x) = x % 256 ^ n := by
  induction n generalizing x with
  | zero => simp [leBytes, ofLe, Nat.mod_one]
  | succ n ih =>
    rw [leBytes, ofLe, ih, BitVec.toNat_ofNat, show 256 ^ (n + 1) = 256 * 256 ^ n from Nat.pow_succ', Nat.mod_mul]

theorem ofLe_append (a b : List Byte) : ofLe (a ++ b) = ofLe a + 256 ^ a.length * ofLe b := by
  induction a with
  | nil => simp [ofLe]
  | cons x a ih =>
    rw [List.cons_append, ofLe, ofLe, ih, List.length_cons, Nat.pow_succ]
    ring

/-- Codes of w bits, the first in the low bits, as one number. -/
def packed (w : Nat) : List Nat → Nat
  | [] => 0
  | c :: cs => c + 2 ^ w * packed w cs

theorem packed_lt {w : Nat} {cs : List Nat} (h : ∀ c ∈ cs, c < 2 ^ w) : packed w cs < 2 ^ (w * cs.length) := by
  induction cs with
  | nil => exact Nat.one_pos
  | cons c cs ih =>
    obtain ⟨hc, hcs⟩ := List.forall_mem_cons.1 h
    have hrest := ih hcs
    rw [packed, List.length_cons, Nat.mul_succ, Nat.add_comm (w * _), Nat.pow_add]
    have hmul : 2 ^ w * (packed w cs + 1) ≤ 2 ^ w * 2 ^ (w * cs.length) := Nat.mul_le_mul_left _ hrest
    rw [Nat.mul_succ] at hmul
    omega

/-- Each code is read back from where it lies. -/
theorem packed_code {w : Nat} {cs : List Nat} (h : ∀ c ∈ cs, c < 2 ^ w) (i : Nat) :
    packed w cs / 2 ^ (i * w) % 2 ^ w = cs.getD i 0 := by
  induction cs generalizing i with
  | nil => simp [packed]
  | cons c cs ih =>
    obtain ⟨hc, hcs⟩ := List.forall_mem_cons.1 h
    cases i with
    | zero => simp [packed, Nat.mod_eq_of_lt hc]
    | succ i =>
      have hdrop : (c + 2 ^ w * packed w cs) / 2 ^ w = packed w cs := by
        rw [Nat.add_mul_div_left _ _ (Nat.two_pow_pos w), Nat.div_eq_of_lt hc, Nat.zero_add]
      rw [packed, Nat.succ_mul, Nat.add_comm (i * w), Nat.pow_add, ← Nat.div_div_eq_div_mul, hdrop, ih hcs,
        List.getD_cons_succ]

theorem foldl_mapIdx_eq_packed (w j a : Nat) (cs : List Nat) :
    (cs.mapIdx fun i c => c * 2 ^ ((i + j) * w)).foldl (· + ·) a = a + 2 ^ (j * w) * packed w cs := by
  induction cs generalizing j a with
  | nil => simp [packed]
  | cons c cs ih =>
    have hshift : (fun i (c : Nat) => c * 2 ^ ((i + 1 + j) * w)) = fun i c => c * 2 ^ ((i + (j + 1)) * w) := by
      funext i c
      rw [Nat.add_assoc, Nat.add_comm 1]
    rw [List.mapIdx_cons, List.foldl_cons, hshift, ih, packed, Nat.zero_add, Nat.succ_mul, Nat.pow_add]
    ring

theorem packCodes_eq (w : Nat) (cs : List Nat) (bytes : Nat) : packCodes w cs bytes = leBytes bytes (packed w cs) := by
  have h := foldl_mapIdx_eq_packed w 0 0 cs
  simp only [Nat.add_zero, Nat.zero_mul, Nat.pow_zero, Nat.one_mul, Nat.zero_add] at h
  unfold packCodes
  rw [h]

/-- Each code of a block is read back from its bytes (R195). -/
theorem storedCode_packCodes {w bytes : Nat} {cs : List Nat} (h : ∀ c ∈ cs, c < 2 ^ w) (hfit : 8 * bytes = w * cs.length)
    (i : Nat) : storedCode w (packCodes w cs bytes) i = cs.getD i 0 := by
  have hlt := packed_lt h
  have hpow : 256 ^ bytes = 2 ^ (w * cs.length) := by rw [← hfit, Nat.pow_mul]
  unfold storedCode
  rw [packCodes_eq, ofLe_leBytes, hpow, Nat.mod_eq_of_lt hlt, packed_code h]

theorem ofLe_flatMap_leBytes {cs : List Nat} (h : ∀ c ∈ cs, c < 2 ^ 16) : ofLe (cs.flatMap (leBytes 2)) = packed 16 cs := by
  induction cs with
  | nil => rfl
  | cons c cs ih =>
    obtain ⟨hc, hcs⟩ := List.forall_mem_cons.1 h
    rw [List.flatMap_cons, ofLe_append, ofLe_leBytes, length_leBytes, ih hcs, packed]
    omega

/-- Each index of a block is read back from its bytes (R202). -/
theorem storedCode_flatMap {cs : List Nat} (h : ∀ c ∈ cs, c < 2 ^ 16) (i : Nat) :
    storedCode 16 (cs.flatMap (leBytes 2)) i = cs.getD i 0 := by
  unfold storedCode
  rw [ofLe_flatMap_leBytes h, packed_code h]

/-! ## Sums over a list -/

theorem foldl_add_eq_sum (l : List Nat) : l.foldl (· + ·) 0 = l.sum := List.sum_eq_foldl.symm

/-- A sum over the elements is one over their places. -/
theorem sum_map_eq_sum_range {α : Type} (f : α → Nat) (d : α) (l : List α) :
    (l.map f).sum = ((List.range l.length).map fun i => f (l.getD i d)).sum := by
  congr 1
  refine List.ext_getElem (by simp) fun i h _ => ?_
  rw [List.length_map] at h
  simp [List.getD_eq_getElem?_getD, h]

/-! ## The vector of an index (R202) -/

/-- The sign of element k of an index: bits 9 to 15, the last by parity. -/
def latticeSign (index k : Nat) : Nat :=
  if k = 7 then ([0, 1, 2, 3, 4, 5, 6].map fun i => index / 2 ^ (9 + i) % 2).sum % 2 else index / 2 ^ (9 + k) % 2

/-- The magnitude of element k of an index. -/
def latticeMagnitude (index k : Nat) : Nat := (ylxBook.getD (index % 512) []).getD k 0

theorem length_book_vector (index : Nat) : (ylxBook.getD (index % 512) []).length = 8 := by
  have hlt : index % 512 < ylxBook.length := by
    rw [length_ylxBook]
    exact Nat.mod_lt _ (by decide)
  rw [List.getD_eq_getElem _ _ hlt]
  exact (latticeVector_of_mem_ylxBook (List.getElem_mem hlt)).1

/-- The elements of an index, doubled. -/
theorem ylxVector_eq (index : Nat) : ylxVector index = (List.range 8).map fun k =>
    if latticeSign index k = 1 then -(latticeMagnitude index k : Int) else latticeMagnitude index k := by
  have hlength := length_book_vector index
  have hsigns : ∀ k < 8, ∀ h, (((List.range 7).map fun k => index / 2 ^ (9 + k) % 2) ++
      [((List.range 7).map fun k => index / 2 ^ (9 + k) % 2).foldl (· + ·) 0 % 2])[k]'h = latticeSign index k := by
    intro k hk h
    unfold latticeSign
    by_cases hlast : k = 7
    · subst hlast
      rw [List.getElem_append_right (by simp), if_pos rfl, foldl_add_eq_sum]
      rfl
    · rw [List.getElem_append_left (by simp; omega), if_neg hlast]
      simp
  unfold ylxVector latticeMagnitude
  dsimp only
  refine List.ext_getElem ?_ fun k hk hk' => ?_
  · rw [List.length_zipWith, hlength]
    simp
  · have hk8 : k < 8 := by simpa using hk'
    rw [List.getElem_zipWith, List.getElem_map, List.getElem_range, hsigns k hk8,
      List.getD_eq_getElem _ _ (by omega : k < (ylxBook.getD (index % 512) []).length)]

theorem length_ylxVector (index : Nat) : (ylxVector index).length = 8 := by
  rw [ylxVector_eq, List.length_map, List.length_range]

/-- An element of an index at exponent x, in units. -/
theorem inUnits_latticeElement (index k : Nat) (x : Int) : inUnits (latticeElement index k) x =
    (if latticeSign index k = 1 then -(latticeMagnitude index k : Int) else latticeMagnitude index k) *
      2 ^ (x + 148).toNat := by
  have hexp : -1 + x - -149 = x + 148 := by omega
  have helement : latticeElement index k = .fin (decide (latticeSign index k = 1)) (latticeMagnitude index k) (-1) := rfl
  rw [helement, inUnits, scaled, hexp]
  by_cases hsign : latticeSign index k = 1 <;> simp [hsign]

/-! ## The index of least error (R207) -/

/-- The model's error of an index is that of its elements. -/
theorem ylxError_eq {ts : List Int} (h : ts.length = 8) (x : Int) (index : Nat) :
    ylxError ts x index = latticeError (fun k => ts.getD k 0) x index := by
  unfold ylxError latticeError
  rw [foldl_add_eq_sum, ylxVector_eq]
  congr 1
  refine List.ext_getElem (by simp [h]) fun k hk hk' => ?_
  have hk8 : k < ts.length := by
    rw [h]
    simpa using hk'
  simp only [List.getElem_zipWith, List.getElem_map, List.getElem_range, inUnits_latticeElement,
    List.getD_eq_getElem _ _ hk8]

/-- A fold that keeps the number of least value met finds the least number of least value. -/
theorem foldl_range_least (f : Nat → Nat) {n : Nat} (hn : 0 < n) :
    let r := ((List.range n).foldl (fun best i => let e := f i; if e < best.2 then (i, e) else best) (0, f 0)).1
    r < n ∧ ∀ other < n, f r ≤ f other ∧ (f r = f other → r ≤ other) := by
  obtain ⟨n, rfl⟩ : ∃ k, n = k + 1 := ⟨n - 1, by omega⟩
  have hpairs (b : Nat) (l : List Nat) : l.foldl (fun best i => let e := f i; if e < best.2 then (i, e) else best)
      (b, f b) = (l.foldl (fun best i => if f i < f best then i else best) b,
        f (l.foldl (fun best i => if f i < f best then i else best) b)) := by
    induction l generalizing b with
    | nil => rfl
    | cons i l ih =>
      simp only [List.foldl_cons]
      split
      · exact ih i
      · exact ih b
  have hrange : List.range (n + 1) = 0 :: (List.range n).map Nat.succ := List.range_succ_eq_map
  have hpairwise : (0 :: (List.range n).map Nat.succ).Pairwise (· < ·) := by
    rw [← hrange]
    exact List.pairwise_lt_range
  obtain ⟨hmem, hleast⟩ := foldl_least f (R := (· < ·)) (fun _ _ hab hba => absurd hab (Nat.lt_asymm hba))
    (upd := fun best i => if f i < f best then i else best) (fun _ _ => rfl) 0 _ hpairwise
  have hfold : (List.range (n + 1)).foldl (fun best i => if f i < f best then i else best) 0 =
      ((List.range n).map Nat.succ).foldl (fun best i => if f i < f best then i else best) 0 := by
    rw [hrange, List.foldl_cons, if_neg (Nat.lt_irrefl _)]
  rw [← hfold, ← hrange] at hmem hleast
  intro r
  have hr : r = (List.range (n + 1)).foldl (fun best i => if f i < f best then i else best) 0 :=
    congrArg Prod.fst (hpairs 0 _)
  rw [hr]
  refine ⟨List.mem_range.1 hmem, fun other hother => ?_⟩
  obtain ⟨hle, hfirst⟩ := hleast other (List.mem_range.2 hother)
  refine ⟨hle, fun heq => ?_⟩
  rcases hfirst heq with hsame | hlt
  · exact hsame.ge
  · exact Nat.le_of_lt hlt

/-- The definition as an equation of functions: applied to its arguments, the kernel would run the fold to compare it. -/
theorem ylxIndex_def : ylxIndex = fun ts x => ((List.range 65536).foldl (fun best i =>
    let e := ylxError ts x i
    if e < best.2 then (i, e) else best) (0, ylxError ts x 0)).1 := Eq.refl _

theorem ylxIndex_eq (ts : List Int) (x : Int) : ylxIndex ts x = ((List.range 65536).foldl (fun best i =>
    let e := ylxError ts x i
    if e < best.2 then (i, e) else best) (0, ylxError ts x 0)).1 := congrFun (congrFun ylxIndex_def ts) x

/-- The index that quantising takes is the lowest of least error. -/
theorem ylxIndex_least (ts : List Int) (x : Int) : ylxIndex ts x < 65536 ∧ ∀ other < 65536,
    ylxError ts x (ylxIndex ts x) ≤ ylxError ts x other ∧
      (ylxError ts x (ylxIndex ts x) = ylxError ts x other → ylxIndex ts x ≤ other) := by
  have hpos : 0 < 65536 := by decide
  rw [ylxIndex_eq]
  generalize 65536 = n at hpos ⊢
  exact foldl_range_least (ylxError ts x) hpos

end Sys2Proof.Proofs
end

