-- ==== Sys2Proof/Proofs/Candidates.lean ====
section
/-!
The candidate of a selector (09_block_formats R205 to R208): the codes or indices that its bytes hold, and its error.
-/

set_option Elab.async false

namespace Sys2Proof.Proofs

open Sys2Proof Sys2Proof.Machine Sys2Proof.Laws Sys2Proof.Safety Sys2Proof.Claims

/-! ## The parts of a candidate -/

theorem candidate_sel (fmt sel : Nat) (us : List Int) : (candidate fmt sel us).sel = sel := by
  unfold candidate
  dsimp only
  split <;> rfl

theorem candidate_x (fmt sel : Nat) (us : List Int) :
    (candidate fmt sel us).x = exponentFor (blockWidth fmt) sel (us.foldl (fun a v => max a v.natAbs) 0) := by
  unfold candidate
  dsimp only
  split <;> rfl

/-- The bytes and the error where each element has a code of its own. -/
theorem candidate_of_codes {fmt sel : Nat} (h : ¬(blockWidth fmt = 2 ∧ sel = 3)) (us : List Int) :
    let near := nearestCode (finiteCodes (blockWidth fmt) sel (clampX (candidate fmt sel us).x))
    (candidate fmt sel us).bytes = packCodes (blockWidth fmt) (us.map fun u => (near u).1) (blockBytes fmt) ∧
      (candidate fmt sel us).error = (us.map fun u => (u - (near u).2).natAbs ^ 2).sum := by
  rw [candidate_x]
  unfold candidate
  dsimp only
  rw [if_neg h]
  dsimp only
  rw [List.map_map, foldl_add_eq_sum, List.zipWith_map_right, List.zipWith_self]
  exact ⟨rfl, rfl⟩

/-- The eight elements of a run. -/
def runAt (us : List Int) (j : Nat) : List Int := (us.drop (8 * j)).take 8

theorem runs8_eq (n : Nat) (us : List Int) : runs8 n us = (List.range n).map (runAt us) := by
  induction n generalizing us with
  | zero => rfl
  | succ n ih =>
    rw [runs8, ih, List.range_succ_eq_map, List.map_cons, List.map_map]
    refine congrArg (_ :: ·) (List.map_congr_left fun j _ => ?_)
    unfold runAt
    rw [List.drop_drop, Function.comp_apply, Nat.mul_succ, Nat.add_comm]

/-- What is chosen for each run, and the sum over the runs; for any choice, so that the kernel never runs the search. -/
theorem runs8_chosen (choose : List Int → Nat) (miss : List Int → Nat → Nat) (n : Nat) (us : List Int) :
    (runs8 n us).map choose = (List.range n).map (fun j => choose (runAt us j)) ∧
      (List.zipWith miss (runs8 n us) ((runs8 n us).map choose)).foldl (· + ·) 0 =
        ((List.range n).map fun j => miss (runAt us j) (choose (runAt us j))).sum := by
  rw [runs8_eq, List.map_map, foldl_add_eq_sum, List.zipWith_map, List.zipWith_self]
  exact ⟨rfl, rfl⟩

/-- The bytes and the error of the codebook's indices. -/
theorem candidate_of_indices {fmt sel : Nat} (h : blockWidth fmt = 2 ∧ sel = 3) (us : List Int) :
    let x := clampX (candidate fmt sel us).x
    (candidate fmt sel us).bytes =
        ((List.range (blockLen fmt / 8)).map fun j => ylxIndex (runAt us j) x).flatMap (leBytes 2) ∧
      (candidate fmt sel us).error =
        ((List.range (blockLen fmt / 8)).map fun j => ylxError (runAt us j) x (ylxIndex (runAt us j) x)).sum := by
  rw [candidate_x]
  unfold candidate
  dsimp only
  rw [if_pos h]
  dsimp only
  obtain ⟨hindices, herror⟩ := runs8_chosen (fun r => ylxIndex r (clampX (exponentFor (blockWidth fmt) sel
    (us.foldl (fun a v => max a v.natAbs) 0)))) (fun r i => ylxError r (clampX (exponentFor (blockWidth fmt) sel
    (us.foldl (fun a v => max a v.natAbs) 0))) i) (blockLen fmt / 8) us
  exact ⟨congrArg (List.flatMap (leBytes 2)) hindices, herror⟩

/-! ## Lengths -/

theorem length_packCodes (w : Nat) (cs : List Nat) (bytes : Nat) : (packCodes w cs bytes).length = bytes :=
  length_leBytes ..

theorem length_flatMap_indices (is : List Nat) : (is.flatMap (leBytes 2)).length = 2 * is.length := by
  induction is with
  | nil => rfl
  | cons i is ih => rw [List.flatMap_cons, List.length_append, length_leBytes, ih, List.length_cons]; omega

theorem blockLen_cases (fmt : Nat) : blockLen fmt = 32 ∨ blockLen fmt = 16 := by
  unfold blockLen
  split
  · exact Or.inl rfl
  · exact Or.inr rfl

/-- A block's bytes hold its codes and no more. -/
theorem blockBytes_fit (fmt : Nat) : 8 * blockBytes fmt = blockWidth fmt * blockLen fmt := by
  unfold blockBytes
  rcases blockLen_cases fmt with hlen | hlen <;> rcases blockWidth_cases fmt with hw | hw | hw <;> rw [hlen, hw]

theorem length_candidate_bytes (fmt sel : Nat) (us : List Int) : (candidate fmt sel us).bytes.length = bytesOf fmt := by
  by_cases h : blockWidth fmt = 2 ∧ sel = 3
  · rw [(candidate_of_indices h us).1, length_flatMap_indices, List.length_map, List.length_range]
    change _ = blockBytes fmt
    unfold blockBytes
    rw [h.1]
    rcases blockLen_cases fmt with hlen | hlen <;> rw [hlen]
  · rw [(candidate_of_codes h us).1, length_packCodes]
    rfl

/-! ## Nearest codes (R206) -/

theorem finiteCodes_ne_nil (fmt sel : Nat) (x : Int) : finiteCodes (blockWidth fmt) sel x ≠ [] :=
  List.ne_nil_of_mem ((mem_finiteCodes (p := (0, inUnits (elementOf _ sel 0) x)) (blockWidth_cases fmt)).2
    ⟨Nat.two_pow_pos _, finite_code_zero (blockWidth_cases fmt) sel, rfl⟩)

/-- The nearest code as the statement says it: its value is that of its element, and no finite code is better. -/
theorem nearestCode_spec (fmt sel : Nat) (x t : Int) :
    let w := blockWidth fmt
    let c := nearestCode (finiteCodes w sel x) t
    c.1 < 2 ^ w ∧ (∃ n m e, elementOf w sel c.1 = .fin n m e) ∧ c.2 = inUnits (elementOf w sel c.1) x ∧
      ∀ j < 2 ^ w, (∃ n m e, elementOf w sel j = .fin n m e) →
        let y : Int := inUnits (elementOf w sel j) x
        (t - c.2).natAbs ≤ (t - y).natAbs ∧ ((t - c.2).natAbs = (t - y).natAbs → c.2.natAbs ≤ y.natAbs ∧
          (c.2.natAbs = y.natAbs → c.1 ≤ j)) := by
  intro w c
  have hw := blockWidth_cases fmt
  obtain ⟨hmem, hleast⟩ := nearestCode_least (finiteCodes_ne_nil fmt sel x) (pairwise_finiteCodes _ sel x) t
  obtain ⟨hlt, hfin, hval⟩ := (mem_finiteCodes hw).1 hmem
  refine ⟨hlt, hfin, hval, fun j hj hfinite => ?_⟩
  obtain ⟨hle, heq⟩ := hleast (j, inUnits (elementOf w sel j) x) ((mem_finiteCodes hw).2 ⟨hj, hfinite, rfl⟩)
  rcases Prod.Lex.toLex_le_toLex.1 hle with hless | ⟨hsame, hmagnitude⟩
  · exact ⟨hless.le, fun h => absurd h hless.ne⟩
  · exact ⟨hsame.le, fun _ => ⟨hmagnitude, fun h => heq (congrArg toLex (Prod.ext hsame h))⟩⟩

/-- The code that a candidate's bytes hold for an element is the nearest one. -/
theorem storedCode_candidate {fmt sel : Nat} (h : ¬(blockWidth fmt = 2 ∧ sel = 3)) {us : List Int}
    (hlen : us.length = elementsOf fmt) {i : Nat} (hi : i < us.length) :
    storedCode (blockWidth fmt) (candidate fmt sel us).bytes i =
      (nearestCode (finiteCodes (blockWidth fmt) sel (clampX (candidate fmt sel us).x)) (us.getD i 0)).1 := by
  rw [(candidate_of_codes h us).1, storedCode_packCodes]
  · simp [List.getD_eq_getElem?_getD, hi]
  · intro c hc
    obtain ⟨u, -, rfl⟩ := List.mem_map.1 hc
    exact (nearestCode_spec fmt sel _ u).1
  · rw [List.length_map, hlen]
    exact blockBytes_fit fmt

/-! ## Runs of eight (R207) -/

theorem latticeError_congr {f g : Nat → Int} (h : ∀ k < 8, f k = g k) (x : Int) (index : Nat) :
    latticeError f x index = latticeError g x index := by
  unfold latticeError
  refine congrArg List.sum (List.map_congr_left fun k hk => ?_)
  rw [h k (List.mem_range.1 hk)]

/-- The model's error of a run is that of the elements from its place on. -/
theorem ylxError_runAt {us : List Int} {j : Nat} (h : 8 * j + 8 ≤ us.length) (x : Int) (index : Nat) :
    ylxError (runAt us j) x index = latticeError (fun k => us.getD (8 * j + k) 0) x index := by
  have hlength : (runAt us j).length = 8 := by
    unfold runAt
    rw [List.length_take, List.length_drop]
    omega
  rw [ylxError_eq hlength]
  refine latticeError_congr (fun k hk => ?_) x index
  simp [runAt, List.getD_eq_getElem?_getD, hk]

theorem getD_map_range (f : Nat → Nat) {n j : Nat} (h : j < n) : ((List.range n).map f).getD j 0 = f j := by
  simp [List.getD_eq_getElem?_getD, h]

/-- The index that a candidate's bytes hold for a run is the one of least error. -/
theorem storedCode_indices {fmt sel : Nat} (h : blockWidth fmt = 2 ∧ sel = 3) (us : List Int) {j : Nat}
    (hj : j < blockLen fmt / 8) :
    storedCode 16 (candidate fmt sel us).bytes j = ylxIndex (runAt us j) (clampX (candidate fmt sel us).x) := by
  have hsmall : ∀ c ∈ (List.range (blockLen fmt / 8)).map fun j =>
      ylxIndex (runAt us j) (clampX (candidate fmt sel us).x), c < 2 ^ 16 := by
    refine List.forall_mem_map.2 fun k _ => ?_
    exact (ylxIndex_least ..).1.trans_eq (by norm_num)
  rw [(candidate_of_indices h us).1, storedCode_flatMap hsmall]
  exact getD_map_range _ hj

/-! ## What a candidate's bytes hold -/

/-- R206: each stored code is the nearest finite one, and the error is the sum of the squares. -/
theorem candidate_codes_nearest {fmt sel : Nat} (h : ¬(blockWidth fmt = 2 ∧ sel = 3)) {us : List Int}
    (hlen : us.length = elementsOf fmt) :
    let w := blockWidth fmt
    let c := candidate fmt sel us
    let x := max (-127) (min 127 c.x)
    (∀ i < us.length,
        let t := us.getD i 0
        let k := storedCode w c.bytes i
        let v := inUnits (elementOf w sel k) x
        (∃ n m e, elementOf w sel k = .fin n m e) ∧ ∀ j < 2 ^ w, (∃ n m e, elementOf w sel j = .fin n m e) →
          let y : Int := inUnits (elementOf w sel j) x
          (t - v).natAbs ≤ (t - y).natAbs ∧ ((t - v).natAbs = (t - y).natAbs → v.natAbs ≤ y.natAbs ∧
            (v.natAbs = y.natAbs → k ≤ j))) ∧
      c.error = ((List.range us.length).map fun i =>
        (us.getD i 0 - inUnits (elementOf w sel (storedCode w c.bytes i)) x).natAbs ^ 2).sum := by
  intro w c x
  refine ⟨fun i hi => ?_, ?_⟩
  · obtain ⟨-, hfin, hval, hbest⟩ := nearestCode_spec fmt sel x (us.getD i 0)
    intro t k
    have hk : k = (nearestCode (finiteCodes w sel x) t).1 := storedCode_candidate h hlen hi
    rw [hval, ← hk] at hbest
    rw [← hk] at hfin
    exact ⟨hfin, hbest⟩
  · refine (candidate_of_codes h us).2.trans ((sum_map_eq_sum_range _ 0 us).trans ?_)
    refine congrArg List.sum (List.map_congr_left fun i hi => ?_)
    obtain ⟨-, -, hval, -⟩ := nearestCode_spec fmt sel x (us.getD i 0)
    have hk : storedCode w c.bytes i = _ := storedCode_candidate h hlen (List.mem_range.1 hi)
    rw [hk]
    exact congrArg (fun v : Int => (us.getD i 0 - v).natAbs ^ 2) hval

/-- R207: each stored index is the lowest of least error, and the error is the sum of theirs. -/
theorem candidate_indices_least {fmt sel : Nat} (h : blockWidth fmt = 2 ∧ sel = 3) {us : List Int}
    (hlen : us.length = elementsOf fmt) :
    let c := candidate fmt sel us
    let x := max (-127) (min 127 c.x)
    (∀ j < us.length / 8, let ts (k : Nat) : Int := us.getD (8 * j + k) 0
        let index := storedCode 16 c.bytes j
        ∀ other < 65536, latticeError ts x index ≤ latticeError ts x other ∧
          (latticeError ts x index = latticeError ts x other → index ≤ other)) ∧
      c.error = ((List.range (us.length / 8)).map fun j =>
        latticeError (fun k => us.getD (8 * j + k) 0) x (storedCode 16 c.bytes j)).sum := by
  intro c x
  have hruns : us.length / 8 = blockLen fmt / 8 := by rw [hlen]; rfl
  have hstored (j : Nat) (hj : j < us.length / 8) : storedCode 16 c.bytes j = ylxIndex (runAt us j) x :=
    storedCode_indices h us (hruns ▸ hj)
  have hwhole (j : Nat) (hj : j < us.length / 8) : 8 * j + 8 ≤ us.length := by omega
  refine ⟨fun j hj => ?_, ?_⟩
  · intro ts index other hother
    have hindex : index = ylxIndex (runAt us j) x := hstored j hj
    have hleast := (ylxIndex_least (runAt us j) x).2 other hother
    rw [ylxError_runAt (hwhole j hj), ylxError_runAt (hwhole j hj), ← hindex] at hleast
    exact hleast
  · rw [hruns]
    refine (candidate_of_indices h us).2.trans (congrArg List.sum (List.map_congr_left fun j hj => ?_))
    have hj' : j < us.length / 8 := hruns ▸ List.mem_range.1 hj
    rw [hstored j hj']
    exact ylxError_runAt (hwhole j hj') ..

end Sys2Proof.Proofs
end

