-- ==== Sys2Proof/Proofs/Quantising.lean ====
section
/-!
Quantising a block (09_block_formats R205 to R210): special blocks, the exponent of a selector, and the choice among selectors.
-/

set_option Elab.async false

namespace Sys2Proof.Proofs

open Sys2Proof Sys2Proof.Machine Sys2Proof.Laws Sys2Proof.Safety Sys2Proof.Claims

/-! ## The exponent of a selector (R205) -/

/-- Whether a maximum fits an exponent may be asked in any unit. -/
theorem fitsAt_iff {amax : Nat} {v : Nat × Int} {x : Int} {p q : Nat} (h : (q : Int) - p = v.2 + x + 149) :
    fitsAt amax v x ↔ amax * 2 ^ p ≤ v.1 * 2 ^ q := by
  refine ⟨fun hfits => hfits p q h, fun hle p' q' h' => ?_⟩
  have hsame : p + q' = p' + q := by omega
  refine Nat.le_of_mul_le_mul_right (c := 2 ^ q) ?_ (Nat.two_pow_pos q)
  calc amax * 2 ^ p' * 2 ^ q = amax * 2 ^ p * 2 ^ q' := by
        rw [Nat.mul_assoc, Nat.mul_assoc, ← Nat.pow_add, ← Nat.pow_add, hsame]
    _ ≤ v.1 * 2 ^ q * 2 ^ q' := Nat.mul_le_mul_right _ hle
    _ = v.1 * 2 ^ q' * 2 ^ q := Nat.mul_right_comm ..

theorem vmaxOf_pos (width sel : Nat) : 0 < (vmaxOf width sel).1 := by
  unfold vmaxOf
  split
  · split <;> decide
  · split <;> split <;> decide

/-- The model's test of an exponent asks in the smaller of the two units. -/
theorem fits_test_iff (amax : Nat) (v : Nat × Int) (x : Int) :
    ((amax : Int) * 2 ^ (-149 - min (-149) (v.2 + x)).toNat ≤ (v.1 : Int) * 2 ^ (v.2 + x - min (-149) (v.2 + x)).toNat) ↔
      fitsAt amax v x := by
  rw [fitsAt_iff (p := (-149 - min (-149) (v.2 + x)).toNat) (q := (v.2 + x - min (-149) (v.2 + x)).toNat) (by omega)]
  exact_mod_cast Iff.rfl

theorem log2Floor_eq {m : Nat} (hm : 0 < m) (e : Int) : log2Floor m e = e + Nat.log2 m := by
  unfold log2Floor bitLength
  rw [if_neg hm.ne']
  omega

/-- The exponent is the difference of the two logarithms, or one more where the maximum does not fit that. -/
theorem exponentFor_cases {amax : Nat} (hamax : 0 < amax) (width sel : Nat) :
    let v := vmaxOf width sel
    let x := -149 + (Nat.log2 amax : Int) - (v.2 + Nat.log2 v.1)
    (fitsAt amax v x ∧ exponentFor width sel amax = x) ∨ (¬ fitsAt amax v x ∧ exponentFor width sel amax = x + 1) := by
  unfold exponentFor
  dsimp only
  rw [← log2Floor_eq hamax, ← log2Floor_eq (vmaxOf_pos width sel)]
  split
  next hfits => exact Or.inl ⟨(fits_test_iff ..).1 (of_decide_eq_true hfits), rfl⟩
  next hfits => exact Or.inr ⟨fun h => hfits (decide_eq_true ((fits_test_iff ..).2 h)), rfl⟩

/-- The exponent is the least at which the maximum fits. -/
theorem exponentFor_least {amax : Nat} (hamax : 0 < amax) (width sel : Nat) :
    fitsAt amax (vmaxOf width sel) (exponentFor width sel amax) ∧
      ¬ fitsAt amax (vmaxOf width sel) (exponentFor width sel amax - 1) := by
  have hvmax := vmaxOf_pos width sel
  have hcases := exponentFor_cases hamax width sel
  generalize vmaxOf width sel = v at hvmax hcases ⊢
  have ha_le := Nat.log2_self_le hamax.ne'
  have ha_lt := Nat.lt_log2_self (n := amax)
  have hb_le := Nat.log2_self_le hvmax.ne'
  have hb_lt := Nat.lt_log2_self (n := v.1)
  dsimp only at hcases
  generalize Nat.log2 amax = a at ha_le ha_lt hcases
  generalize Nat.log2 v.1 = b at hb_le hb_lt hcases
  rcases hcases with ⟨hfits, hx⟩ | ⟨hfits, hx⟩ <;> rw [hx]
  · refine ⟨hfits, fun hless => ?_⟩
    rw [fitsAt_iff (p := b + 1) (q := a) (by omega)] at hless
    have hlt : v.1 * 2 ^ a < amax * 2 ^ (b + 1) := calc
      v.1 * 2 ^ a < 2 ^ (b + 1) * 2 ^ a := Nat.mul_lt_mul_of_pos_right hb_lt (Nat.two_pow_pos a)
      _ ≤ 2 ^ (b + 1) * amax := Nat.mul_le_mul_left _ ha_le
      _ = amax * 2 ^ (b + 1) := Nat.mul_comm ..
    omega
  · refine ⟨(fitsAt_iff (p := b) (q := a + 1) (by omega)).2 ?_, by rwa [add_sub_cancel_right]⟩
    calc amax * 2 ^ b ≤ 2 ^ (a + 1) * v.1 := Nat.mul_le_mul ha_lt.le hb_le
      _ = v.1 * 2 ^ (a + 1) := Nat.mul_comm ..

/-! ## Special blocks (R205, R209) -/

/-- A block with a NaN or an infinity. -/
theorem specialBlock_of_nonfinite {xs : List Word} (h : ∃ x ∈ xs, (f32 x).isNan = true ∨ ∃ n, f32 x = .inf n) :
    specialBlock (xs.map f32) = 2 := by
  obtain ⟨x, hx, hv⟩ := h
  unfold specialBlock
  rw [if_pos]
  refine List.any_eq_true.2 ⟨f32 x, List.mem_map_of_mem hx, ?_⟩
  rcases hv with hnan | ⟨n, hinf⟩
  · cases hval : f32 x with
    | nan b => rfl
    | inf n => rfl
    | fin n m e => rw [hval] at hnan; cases hnan
  · rw [hinf]

/-- A block of finite values is special when they are all zero. -/
theorem specialBlock_of_finite {xs : List Word} (h : ∀ x ∈ xs, ∃ n m e, f32 x = .fin n m e) :
    specialBlock (xs.map f32) = if (xs.map f32).all (fun v => Machine.unitsOf v == 0) then 1 else 0 := by
  unfold specialBlock
  rw [if_neg]
  rw [Bool.not_eq_true, List.any_eq_false]
  refine List.forall_mem_map.2 fun x hx => ?_
  obtain ⟨n, m, e, hval⟩ := h x hx
  rw [hval]
  exact Bool.false_ne_true

theorem specialBlock_of_nonzero {xs : List Word} (h : ∀ x ∈ xs, ∃ n m e, f32 x = .fin n m e)
    (hnonzero : ∃ x ∈ xs, unitsOf (f32 x) ≠ 0) : specialBlock (xs.map f32) = 0 := by
  obtain ⟨x, hx, hne⟩ := hnonzero
  rw [specialBlock_of_finite h, if_neg]
  intro hall
  exact hne (beq_iff_eq.1 (List.all_eq_true.1 hall (f32 x) (List.mem_map_of_mem hx)))

/-- A pattern that is zero but for its sign reads as a zero. -/
theorem f32_of_zero {x : Word} (h : x.toNat % 2 ^ 31 = 0) : ∃ n, f32 x = .fin n 0 fp32.qmin := by
  have hexponent : x.toNat / 2 ^ (fp32.p - 1) % 2 ^ (fp32.width - fp32.p) = 0 := by
    change x.toNat / 2 ^ 23 % 2 ^ 8 = 0
    omega
  have hfraction : x.toNat % 2 ^ (fp32.p - 1) = 0 := by
    change x.toNat % 2 ^ 23 = 0
    omega
  unfold f32 Fmt.decode
  dsimp only
  rw [hexponent, hfraction, if_neg (by decide), if_pos rfl]
  exact ⟨_, rfl⟩

theorem unitsOf_zero (n : Bool) (e : Int) : Machine.unitsOf (.fin n 0 e) = 0 := by
  refine (units_eq ..).trans ?_
  simp [scaled]

theorem specialBlock_of_zeros {xs : List Word} (h : ∀ x ∈ xs, x.toNat % 2 ^ 31 = 0) : specialBlock (xs.map f32) = 1 := by
  have hzero : ∀ x ∈ xs, ∃ n, f32 x = .fin n 0 fp32.qmin := fun x hx => f32_of_zero (h x hx)
  rw [specialBlock_of_finite fun x hx => (hzero x hx).imp fun n hn => ⟨0, fp32.qmin, hn⟩, if_pos]
  refine List.all_eq_true.2 (List.forall_mem_map.2 fun x hx => ?_)
  obtain ⟨n, hn⟩ := hzero x hx
  rw [hn]
  exact beq_iff_eq.2 (unitsOf_zero n _)

theorem quantise_of_nonfinite {xs : List Word} (h : specialBlock (xs.map f32) = 2) (fmt allow : Nat) :
    (quantise fmt allow xs).entry = 0x0CFF ∧ (quantise fmt allow xs).bytes = List.replicate (blockBytes fmt) 0 := by
  unfold quantise
  simp only [h, and_self]

theorem quantise_of_zeros {xs : List Word} (h : specialBlock (xs.map f32) = 1) (fmt allow : Nat) :
    (quantise fmt allow xs).entry = 0x007F ∧ (quantise fmt allow xs).bytes = List.replicate (blockBytes fmt) 0 := by
  unfold quantise
  simp only [h, and_self]

/-! ## The selector of least error (R208) -/

/-- The selectors that an allow mask admits, as the model lists them. -/
def selectorsOf (allow : Nat) : List Nat := (List.range 4).filter fun k => allow = 0 ∨ allow / 2 ^ k % 2 = 1

theorem mem_selectorsOf {allow k : Nat} : k ∈ selectorsOf allow ↔ admitted allow k := by
  unfold selectorsOf admitted
  rw [List.mem_filter, List.mem_range, decide_eq_true_eq]

theorem pairwise_selectorsOf (allow : Nat) : (selectorsOf allow).Pairwise (· < ·) :=
  List.pairwise_lt_range.filter _

theorem selectorsOf_ne_nil : ∀ allow < 16, selectorsOf allow ≠ [] := by decide

/-- The fold over candidates follows the fold over their selectors. -/
theorem foldl_best_map (c : Nat → Candidate) (k : Nat) (ks : List Nat) :
    (ks.map c).foldl (fun b d => if d.error < b.error then d else b) (c k) =
      c (ks.foldl (fun b d => if (c d).error < (c b).error then d else b) k) := by
  induction ks generalizing k with
  | nil => rfl
  | cons d ks ih =>
    rw [List.map_cons, List.foldl_cons, List.foldl_cons, ← ih]
    split <;> rfl

theorem quantise_of_selectors {xs : List Word} (h : specialBlock (xs.map f32) = 0) {allow k : Nat} {ks : List Nat}
    (hsels : selectorsOf allow = k :: ks) (fmt : Nat) :
    let c (sel : Nat) : Candidate := candidate fmt sel ((xs.map f32).map Machine.unitsOf)
    let best := (ks.map c).foldl (fun b d => if d.error < b.error then d else b) (c k)
    (quantise fmt allow xs).bytes = best.bytes ∧
      (quantise fmt allow xs).entry = entryOf best.sel (clampX best.x + 127).toNat := by
  unfold selectorsOf at hsels
  unfold quantise
  simp only [h, hsels, List.map_cons, and_self]

/-- An ordinary block is quantised by the admitted selector of least error, the lowest at a tie. -/
theorem quantise_least {xs : List Word} (h : specialBlock (xs.map f32) = 0) {allow : Nat} (hallow : allow < 16) (fmt : Nat) :
    let c (sel : Nat) : Candidate := candidate fmt sel (xs.map fun x => unitsOf (f32 x))
    ∃ sel, admitted allow sel ∧ (quantise fmt allow xs).bytes = (c sel).bytes ∧
      (quantise fmt allow xs).entry = entryOf sel ((max (-127) (min 127 (c sel).x)) + 127).toNat ∧
      ∀ k, admitted allow k → (c sel).error ≤ (c k).error ∧ ((c sel).error = (c k).error → sel ≤ k) := by
  intro c
  obtain ⟨k, ks, hsels⟩ := List.exists_cons_of_ne_nil (selectorsOf_ne_nil allow hallow)
  obtain ⟨hbytes, hentry⟩ := quantise_of_selectors h hsels fmt
  rw [List.map_map] at hbytes hentry
  have hbest := foldl_best_map c k ks
  obtain ⟨hmem, hleast⟩ := foldl_least (fun sel => (c sel).error) (R := (· < ·))
    (fun _ _ hab hba => absurd hab (Nat.lt_asymm hba))
    (upd := fun b d => if (c d).error < (c b).error then d else b) (fun _ _ => rfl) k ks
    (hsels ▸ pairwise_selectorsOf allow)
  rw [← hsels] at hmem hleast
  refine ⟨_, mem_selectorsOf.1 hmem, hbytes.trans (congrArg Candidate.bytes hbest), hentry.trans ?_, fun j hj => ?_⟩
  · refine (congrArg (fun b : Candidate => entryOf b.sel (clampX b.x + 127).toNat) hbest).trans ?_
    exact congrArg (fun sel => entryOf sel _) (candidate_sel ..)
  · obtain ⟨hle, hfirst⟩ := hleast j (mem_selectorsOf.2 hj)
    refine ⟨hle, fun heq => ?_⟩
    rcases hfirst heq with hsame | hlt
    · exact hsame.ge
    · exact Nat.le_of_lt hlt

/-! ## The error that QERR returns (R216) -/

theorem quantError_eq {xs : List Word} (h : ∀ x ∈ xs, ∃ n m e, f32 x = .fin n m e)
    (hnonzero : ∃ x ∈ xs, unitsOf (f32 x) ≠ 0) (fmt sel : Nat) : quantError fmt sel xs =
      (BitVec.ofNat 32
        (fp32.round 0 (.fin false (candidate fmt sel (xs.map fun x => unitsOf (f32 x))).error (-298))).1, 0) := by
  have hnv : nvOf (xs.map f32) = 0 := by
    unfold nvOf
    rw [if_neg]
    rw [Bool.not_eq_true, List.any_eq_false]
    refine List.forall_mem_map.2 fun x hx => ?_
    obtain ⟨n, m, e, hval⟩ := h x hx
    rw [hval]
    exact Bool.false_ne_true
  unfold quantError
  simp only [specialBlock_of_nonzero h hnonzero, hnv, List.map_map, Function.comp_def]

/-- Settles O27, each part from the lemma that says it. -/
theorem quantReportsLandAndQuantisingErrsLeast : Obligations.QuantReportsLandAndQuantisingErrsLeast := by
  unfold Obligations.QuantReportsLandAndQuantisingErrsLeast
  refine ⟨fun s o keep vals fp hop hk => qblkComplete_report hop hk keep,
    fun s o keep fmt a hp hk hsize hfmt hg hr => qblkComplete_sbchk hp hk hsize hfmt hg hr keep, fun sel scale hsel hscale => ⟨entryValid_entryOf hsel hscale,
    fun i hi => not_entryValid_flipped hsel hscale hi⟩, entryValid_iff, ⟨length_ylxBook, pairwise_ylxBook,
    fun v hv => latticeVector_of_mem_ylxBook hv, fun v hv hnot u hu => vectorBefore_of_not_mem_ylxBook hv hnot hu⟩,
    ?_, ?_, ?_, ?_, ?_, ?_⟩
  · intro fmt sel us _ _ _ hlen _
    exact ⟨candidate_x .., length_candidate_bytes .., fun h => candidate_codes_nearest h hlen,
      fun h => candidate_indices_least h hlen⟩
  · intro fmt sel xs _ _ hfinite hnonzero
    exact quantError_eq hfinite hnonzero fmt sel
  · intro x n m e hval
    rw [hval]
    exact units_eq ..
  · intro width _ sel amax hamax
    exact exponentFor_least hamax width sel
  · intro fmt allow xs _ _ hallow hfinite hnonzero
    exact quantise_least (specialBlock_of_nonzero hfinite hnonzero) hallow fmt
  · intro fmt allow xs _ _
    exact ⟨fun h => quantise_of_nonfinite (specialBlock_of_nonfinite h) fmt allow,
      fun h => quantise_of_zeros (specialBlock_of_zeros h) fmt allow⟩

end Sys2Proof.Proofs
end

