-- ==== Sys2Proof/Proofs/Compares.lean ====
section
/-!
Compares (03_control R73 to R75): the result by type, the two predicates by ctype.
-/

set_option Elab.async false

namespace Sys2Proof.Proofs

open Sys2Proof Sys2Proof.Machine Sys2Proof.Laws Sys2Proof.Safety Sys2Proof.Claims

/-! ## Predicates of a thread (R50) -/

@[simp] theorem setPred_late (t : Thread) (n : Nat) (b : Bool) : (t.setPred n b).late = t.late := by
  unfold Thread.setPred
  split_ifs <;> rfl

@[simp] theorem orFpstat_keeps_late (t : Thread) (b : BitVec 5) : (t.orFpstat b).late = t.late := rfl

/-- A guard that is not negated. -/
theorem guard_plain (t : Thread) (n : BitVec 3) : t.guard n false = t.pred n.toNat := Bool.bne_false _

/-! ## The result (R73) -/

/-- R73: a NaN sets NV in an ordered condition. -/
def isOrdered (c : CmpCond) : Bool := c == .lt || c == .le || c == .gt || c == .ge

/-- R73: the conditions that hold on a NaN. -/
def holdsOnNan (c : CmpCond) : Bool := c == .ne || c == .tany

/-- Only a NaN is a signalling NaN. -/
theorem isSignalling_of_not_isNan {v : FVal} (h : v.isNan = false) : v.isSignalling = false := by
  cases v with
  | nan signalling => cases h
  | inf neg => rfl
  | fin neg m e => rfl

/-- R73: FP32 operands, one of them a NaN or none. -/
theorem onFloat_eq (c : CmpCond) (a b : Word) : c.onFloat a b =
    if (f32 a).isNan || (f32 b).isNan then
      (holdsOnNan c, if isOrdered c || (f32 a).isSignalling || (f32 b).isSignalling then 1 else 0)
    else (c.onInt (fp32.orderKey a.toNat) (fp32.orderKey b.toNat) false, 0) := by
  unfold CmpCond.onFloat
  cases hnan : (f32 a).isNan || (f32 b).isNan
  · obtain ⟨ha, hb⟩ := Bool.or_eq_false_iff.1 hnan
    simp [hnan, nvOf, isSignalling_of_not_isNan ha, isSignalling_of_not_isNan hb]
  · cases hord : isOrdered c <;> simp [isOrdered] at hord <;>
      simp [hnan, hord, nvOf, holdsOnNan, fpNV]

/-- The result of a compare is that of its table. -/
theorem result_eq (c : CmpCond) (o : CmpArgs) (t : Thread) :
    c.result o t = compared c.onInt (isOrdered c) (holdsOnNan c) o t := by
  have hne {n : Nat} (x y : BitVec n) : (x &&& y != 0) = decide (x &&& y ≠ 0) := by
    rw [Bool.eq_iff_iff, bne_iff_ne, decide_eq_true_iff]
  unfold CmpCond.result compared
  simp only [hne, onFloat_eq, reg64_eq]
  split <;> simp_all

/-! ## The predicates (R74) -/

theorem combine_eq (ctype : BitVec 3) (old r : Bool) : combine ctype.toNat old r = predicatesOf ctype.toNat old r := by
  revert ctype old r
  decide

/-- The words, each with its condition. -/
theorem compareWords_eq : ∀ p ∈ compareWords, ∃ c : CmpCond, (∀ o s, exec (p.1 o) s = compareWord c o s) ∧
    c.onInt = p.2.1 ∧ isOrdered c = p.2.2.1 ∧ holdsOnNan c = p.2.2.2 := by
  simp only [compareWords, List.forall_mem_cons, List.not_mem_nil, false_imp_iff, implies_true, and_true]
  exact ⟨⟨.eq, fun _ _ => rfl, rfl, rfl, rfl⟩, ⟨.ne, fun _ _ => rfl, rfl, rfl, rfl⟩, ⟨.lt, fun _ _ => rfl, rfl, rfl, rfl⟩,
    ⟨.le, fun _ _ => rfl, rfl, rfl, rfl⟩, ⟨.gt, fun _ _ => rfl, rfl, rfl, rfl⟩, ⟨.ge, fun _ _ => rfl, rfl, rfl, rfl⟩,
    ⟨.tany, fun _ _ => rfl, rfl, rfl, rfl⟩, ⟨.tnone, fun _ _ => rfl, rfl, rfl, rfl⟩⟩

/-- One member of a compare, by the tables. -/
theorem compare_eq (t : Thread) (c : CmpCond) (o : CmpArgs) : t.compare c o =
    if t.pred o.guard.toNat = true then
      let r := compared c.onInt (isOrdered c) (holdsOnNan c) o t
      let n := predicatesOf o.ctype.toNat (t.pred o.pd1.toNat) r.1
      ((t.setPred o.pd1.toNat n.1).setPred o.pd2.toNat n.2).orFpstat r.2
    else if o.ctype.toNat = 1 then (t.setPred o.pd1.toNat false).setPred o.pd2.toNat false
    else t := by
  unfold Thread.compare
  simp only [guard_plain, result_eq, combine_eq]

theorem compare_late (t : Thread) (c : CmpCond) (o : CmpArgs) : (t.compare c o).late = t.late := by
  unfold Thread.compare
  dsimp only
  split_ifs <;> simp

/-- Settles O10: each word is a compare by its condition, and a ready compare acts on its members by the tables. -/
theorem comparesWriteTheirPredicatesByType : Obligations.ComparesWriteTheirPredicatesByType := by
  unfold Obligations.ComparesWriteTheirPredicatesByType
  intro s g o h p hp
  obtain ⟨c, hexec, hcond, hordered, hnan⟩ := compareWords_eq p hp
  rw [hexec, ← hcond, ← hordered, ← hnan]
  simp only [← compare_eq]
  exact ready_mapGroup h (ready_fillSources h ..) rfl rfl (fun _ _ => rfl) fun _ t => compare_late t c o

end Sys2Proof.Proofs
end

