-- ==== Sys2Proof/Proofs/PredicateLogic.lean ====
section
/-!
Predicate logic (03_control R76): what the words write, which words of their major they are, and the modifier words before
them.
-/

set_option Elab.async false

namespace Sys2Proof.Proofs

open Sys2Proof Sys2Proof.Machine Sys2Proof.Laws Sys2Proof.Safety Sys2Proof.Claims

/-! ## Predicates of a thread (R50) -/

/-- The bit that a write of p[n] is about. -/
theorem getLsbD_one_shiftLeft : ∀ n k : BitVec 3, (1#8 <<< n.toNat).getLsbD k.toNat = decide (k = n) := by decide

/-- p[n] holds what was written, the others what they held. -/
theorem pred_setPred (t : Thread) (b : Bool) {n k : BitVec 3} (hn : n ≠ 0) :
    (t.setPred n.toNat b).pred k.toNat = if k = n then b else t.pred k.toNat := by
  have hn0 : n.toNat ≠ 0 := fun h => hn (BitVec.eq_of_toNat_eq h)
  have hk : k.toNat < 8 := k.isLt
  unfold Thread.setPred Thread.pred
  rw [if_neg hn0]
  cases b <;> by_cases hkn : k = n <;>
    simp only [Bool.false_eq_true, if_true, if_false, BitVec.getLsbD_or, BitVec.getLsbD_and, BitVec.getLsbD_not,
      getLsbD_one_shiftLeft, hk, hkn, hn0, decide_true, decide_false, beq_eq_false_iff_ne, ne_eq, not_false_eq_true,
      Bool.not_true, Bool.not_false, Bool.and_true, Bool.and_false, Bool.or_true, Bool.or_false]

/-! ## What a word writes -/

theorem predWord_late (t : Thread) (act : Bool) (n : Nat) (b : Bool) :
    (if act = true then t.setPred n b else t).late = t.late := by
  split_ifs
  · exact setPred_late ..
  · rfl

/-- A ready predicate word writes p[pd] of the members with a true guard. -/
theorem predWord_eq {s : State} {g : Group} (h : Ready s g hintRule []) (pd guard : BitVec 3) (neg : Bool) (f : Thread → Bool) :
    predWord pd guard neg f s = .next (after s g fun _ t => if t.guard guard neg = true then t.setPred pd.toNat (f t) else t) :=
  ready_mapGroup h rfl rfl rfl (fun _ _ => rfl) fun _ _ => predWord_late ..

/-- The words of two sources, each with its function. -/
theorem predicateWords_eq : ∀ p ∈ predicateWords, ∀ o s, exec (p.1 o) s = pred3 o p.2 s := by
  simp only [predicateWords, List.forall_mem_cons, List.not_mem_nil, false_imp_iff, implies_true, and_true]
  exact ⟨fun _ _ => rfl, fun _ _ => rfl, fun _ _ => rfl, fun _ _ => rfl⟩

/-! ## Modifier words -/

/-- A predicate word takes neither kind of modifier word: it parks every member at the one that was read. -/
theorem predWord_modified {s : State} {g : Group} {pc : DWord} (h : Standing s g false) (hm : ModifiedBy g.mods pc)
    (pd guard : BitVec 3) (neg : Bool) (f : Thread → Bool) :
    predWord pd guard neg f s = .next (after s g fun _ t => t.raise { code := 0x03 } (g.site pc)) := by
  obtain ⟨-, -, -, hat, -⟩ := id h
  refine issue_of_wordFault h ?_ [] noFill noHold _
  have hencoding : g.encodingFault {} = none := by simp [Group.encodingFault, hat]
  have hprefix : g.prefixFault {} = some pc := by
    unfold Group.prefixFault
    obtain ⟨e, hmods⟩ | ⟨a, hmods⟩ | ⟨x, hmods⟩ := hm <;> rw [hmods] <;> rfl
  rw [Group.wordFault, hencoding, hprefix]
  rfl

/-! ## Which words of the major are predicate-logic words -/

/-- A word that decodes to a predicate-logic word. -/
def IsPredicateLogic (i : Instr) : Prop :=
  (∃ o, ∃ p ∈ predicateWords, i = p.1 o) ∨ (∃ o, i = .pnot o) ∨ (∃ o, i = .pmov o) ∨ ∃ o, i = .pseti o

/-- A value put over another, as numbers. -/
theorem toNat_append_sum {m n : Nat} (x : BitVec m) (y : BitVec n) : (x ++ y).toNat = x.toNat * 2 ^ n + y.toNat := by
  rw [BitVec.toNat_append, ← Nat.shiftLeft_add_eq_or_of_lt y.isLt, Nat.shiftLeft_eq]

theorem toNat_extract (w : Word) (lo n : Nat) : (w.extractLsb' lo n).toNat = w.toNat / 2 ^ lo % 2 ^ n := by
  rw [BitVec.extractLsb'_toNat, Nat.shiftRight_eq_div_pow]

theorem toNat_bit (w : Word) (i : Nat) : (BitVec.ofBool (w.getLsbD i)).toNat = w.toNat / 2 ^ i % 2 := by
  rw [BitVec.toNat_ofBool, BitVec.getLsbD, Nat.toNat_testBit]

section
variable {w : Word} {func : BitVec 4} (hmajor : w.toNat / 2 ^ 26 = 0x18) (hfunc : w.toNat / 2 ^ 22 % 16 = func.toNat)
include hmajor hfunc

/-- A word of three predicates encodes to itself where its fixed fields hold 0. -/
theorem P3Args_fits : (P3Args.ofWord w).toWord 0x18 func = w ↔
    w.toNat / 2 ^ 4 % 2 ^ 8 = 0 ∧ w.toNat / 2 ^ 12 % 2 = 0 := by
  rw [← BitVec.toNat_inj]
  simp only [P3Args.toWord, P3Args.ofWord, toNat_append_sum, toNat_extract, toNat_bit, BitVec.ofNat_eq_ofNat, BitVec.reduceToNat]
  norm_num at hmajor hfunc ⊢
  omega

/-- A word of two predicates does so where pb holds 0 as well. -/
theorem P2Args_fits : (P2Args.ofWord w).toWord 0x18 func = w ↔
    w.toNat / 2 ^ 4 % 2 ^ 8 = 0 ∧ w.toNat / 2 ^ 12 % 2 = 0 ∧ w.toNat / 2 ^ 13 % 8 = 0 := by
  rw [← BitVec.toNat_inj]
  simp only [P2Args.toWord, P2Args.ofWord, toNat_append_sum, toNat_extract, toNat_bit, BitVec.ofNat_eq_ofNat, BitVec.reduceToNat]
  norm_num at hmajor hfunc ⊢
  omega

/-- PSETI has an immediate and no source. -/
theorem PIArgs_fits : (PIArgs.ofWord w).toWord 0x18 func = w ↔
    w.toNat / 2 ^ 4 % 2 ^ 8 = 0 ∧ w.toNat / 2 ^ 13 % 8 = 0 ∧ w.toNat / 2 ^ 16 % 8 = 0 := by
  rw [← BitVec.toNat_inj]
  simp only [PIArgs.toWord, PIArgs.ofWord, toNat_append_sum, toNat_extract, toNat_bit, BitVec.ofNat_eq_ofNat, BitVec.reduceToNat]
  norm_num at hmajor hfunc ⊢
  omega

end

/-- The guard field of a word is p0 negated. -/
theorem guardOk_word (w : Word) : guardOk (w.extractLsb' 1 3) (w.getLsbD 0) = true ↔ w.toNat % 16 ≠ 1 := by
  have hguard : w.extractLsb' 1 3 = 0 ↔ w.toNat / 2 % 8 = 0 := by
    rw [← BitVec.toNat_inj, toNat_extract]
    rfl
  have hneg : w.getLsbD 0 = true ↔ w.toNat % 2 = 1 := by
    rw [BitVec.getLsbD, Nat.testBit_zero, decide_eq_true_iff]
  have hnegated : guardOk (w.extractLsb' 1 3) (w.getLsbD 0) = true ↔ ¬ (w.getLsbD 0 = true ∧ w.extractLsb' 1 3 = 0) := by
    simp [guardOk, imp_iff_not_or]
  rw [hnegated, hguard, hneg]
  omega

/-- A word is accepted where its guard is not p0 negated and its fixed fields are as the format shows. -/
theorem accepted_iff {w x : Word} {i : Instr} {fixed : Prop} (hwf : i.wf = guardOk (w.extractLsb' 1 3) (w.getLsbD 0))
    (hencode : i.encode = some x) (hfits : x = w ↔ fixed) :
    (i.wf && i.encode == some w) = true ↔ w.toNat % 16 ≠ 1 ∧ fixed := by
  rw [Bool.and_eq_true, beq_iff_eq, hwf, hencode, guardOk_word, Option.some_inj, hfits]

/-- What a word of the major reads as, and when it is accepted. -/
theorem decodePred_read {w : Word} (hmajor : w.toNat / 2 ^ 26 = 0x18) (hfunc : w.toNat / 2 ^ 22 % 16 ≤ 6) :
    ∃ i, decodePred w (funcOf w) = some i ∧ IsPredicateLogic i ∧
      ((i.wf && i.encode == some w) = true ↔ ¬ badPredicateWord w) := by
  have hread : funcOf w = w.toNat / 2 ^ 22 % 16 := toNat_extract w 22 4
  rw [hread]
  unfold badPredicateWord
  have hcases : w.toNat / 2 ^ 22 % 16 ∈ [0, 1, 2, 3, 4, 5, 6] := by simp; omega
  simp only [List.mem_cons, List.not_mem_nil, or_false] at hcases
  rcases hcases with hf | hf | hf | hf | hf | hf | hf <;> rw [hf]
  · exact ⟨.pand (.ofWord w), rfl, .inl ⟨_, _, .head _, rfl⟩,
      (accepted_iff rfl rfl (P3Args_fits (func := 0) hmajor hf)).trans (by omega)⟩
  · exact ⟨.por (.ofWord w), rfl, .inl ⟨_, _, .tail _ (.head _), rfl⟩,
      (accepted_iff rfl rfl (P3Args_fits (func := 1) hmajor hf)).trans (by omega)⟩
  · exact ⟨.pxor (.ofWord w), rfl, .inl ⟨_, _, .tail _ (.tail _ (.head _)), rfl⟩,
      (accepted_iff rfl rfl (P3Args_fits (func := 2) hmajor hf)).trans (by omega)⟩
  · exact ⟨.pandn (.ofWord w), rfl, .inl ⟨_, _, .tail _ (.tail _ (.tail _ (.head _))), rfl⟩,
      (accepted_iff rfl rfl (P3Args_fits (func := 3) hmajor hf)).trans (by omega)⟩
  · exact ⟨.pnot (.ofWord w), rfl, .inr (.inl ⟨_, rfl⟩),
      (accepted_iff rfl rfl (P2Args_fits (func := 4) hmajor hf)).trans (by omega)⟩
  · exact ⟨.pmov (.ofWord w), rfl, .inr (.inr (.inl ⟨_, rfl⟩)),
      (accepted_iff rfl rfl (P2Args_fits (func := 5) hmajor hf)).trans (by omega)⟩
  · exact ⟨.pseti (.ofWord w), rfl, .inr (.inr (.inr ⟨_, rfl⟩)),
      (accepted_iff rfl rfl (PIArgs_fits (func := 6) hmajor hf)).trans (by omega)⟩

/-- R76: a word of the major with one of the funcs is a predicate-logic word, or refused. -/
theorem decode_predicateMajor {w : Word} (m : Word) (hmajor : w.toNat / 2 ^ 26 = 0x18) (hfunc : w.toNat / 2 ^ 22 % 16 ≤ 6) :
    (badPredicateWord w → decode w m = .error .illegalEncoding) ∧
      (¬ badPredicateWord w → ∃ i, decode w m = .ok i ∧ IsPredicateLogic i) := by
  obtain ⟨i, hread, hkind, haccepted⟩ := decodePred_read hmajor hfunc
  unfold decode
  rw [rawDecode_24 _ ((majorOf_eq w).trans hmajor), hread]
  exact ⟨fun hbad => if_neg fun hok => haccepted.1 hok hbad, fun hgood => ⟨i, if_pos (haccepted.2 hgood), hkind⟩⟩

/-- Settles O11: what the words write, what a predicate register holds, which words of the major they are, and the modifier
words that they do not take. -/
theorem predicateLogicWritesOnePredicate : Obligations.PredicateLogicWritesOnePredicate := by
  unfold Obligations.PredicateLogicWritesOnePredicate
  refine ⟨fun s g h => ⟨fun o p hp => ?_, fun o => ⟨?_, ?_⟩, fun o => ?_⟩,
    fun t b => ⟨rfl, rfl, fun n k hn => pred_setPred t b hn⟩, fun w m hmajor hfunc => decode_predicateMajor m hmajor hfunc,
    fun m => ⟨?_, ?_⟩, fun s g pc h _ hm => ⟨fun o p hp => ?_, fun o => ⟨?_, ?_⟩, fun o => ?_⟩⟩
  · rw [predicateWords_eq p hp]
    exact predWord_eq h ..
  · exact predWord_eq h ..
  · exact predWord_eq h ..
  · exact predWord_eq h ..
  · exact decode_of_encode rfl rfl nofun nofun
  · exact decode_of_encode rfl rfl nofun nofun
  · rw [predicateWords_eq p hp]
    exact predWord_modified h hm ..
  · exact predWord_modified h hm ..
  · exact predWord_modified h hm ..
  · exact predWord_modified h hm ..

end Sys2Proof.Proofs
end

