-- ==== Sys2Proof/Proofs/Formation.lean ====
section
/-!
Issue groups (03_control R64 to R72): the rank of ready threads, the group that forms around the highest, and the limits of
yield marks and collective waits.
-/

set_option Elab.async false

namespace Sys2Proof.Proofs

open Sys2Proof Sys2Proof.Machine Sys2Proof.Laws Sys2Proof.Safety Sys2Proof.Claims

/-! ## Rank (R69) -/

theorem yieldMarked_iff (t : Thread) : t.yieldMarked = true ↔ ∃ n, t.yieldMark = some n ∧ n < 16 := by
  cases hmark : t.yieldMark <;> simp [Thread.yieldMarked, hmark]

/-- R69 as a linear order: the lower of two contenders in the order is the higher in rank. -/
def rankOf (c : Contender) : ℕ ×ₗ ℕ ×ₗ ℕ ×ₗ ℕ :=
  toLex (c.t.yieldMarked.toNat, toLex (c.t.readyAt, toLex (c.slot, c.t.lane)))

theorem rankOf_lt_iff (a b : Contender) : rankOf a < rankOf b ↔
    a.t.yieldMarked.toNat < b.t.yieldMarked.toNat ∨ (a.t.yieldMarked.toNat = b.t.yieldMarked.toNat ∧
      (a.t.readyAt < b.t.readyAt ∨ (a.t.readyAt = b.t.readyAt ∧
        (a.slot < b.slot ∨ (a.slot = b.slot ∧ a.t.lane < b.t.lane))))) := by
  simp only [rankOf, Prod.Lex.toLex_lt_toLex]

theorem above_iff (a b : Contender) : a.above b = true ↔ rankOf a < rankOf b := by
  rw [rankOf_lt_iff]
  unfold Contender.above
  cases a.t.yieldMarked <;> cases b.t.yieldMarked <;>
    simp only [Bool.toNat_true, Bool.toNat_false] <;> split_ifs <;> simp_all

theorem outranks_iff (a b : Contender) : Outranks a b ↔ rankOf a < rankOf b := by
  rw [rankOf_lt_iff]
  unfold Outranks
  simp only [← yieldMarked_iff]
  cases a.t.yieldMarked <;> cases b.t.yieldMarked <;> simp

theorem highest_eq_none_iff (cs : List Contender) : highest cs = none ↔ cs = [] := by
  cases cs with
  | nil => exact iff_of_true rfl rfl
  | cons c cs =>
    refine iff_of_false (fun h => ?_) (List.cons_ne_nil c cs)
    rw [highest] at h
    split at h <;> cases h

/-- The highest of a list is one of it, and none is above it. -/
theorem highest_some {cs : List Contender} {lead : Contender} (h : highest cs = some lead) :
    lead ∈ cs ∧ ∀ c ∈ cs, rankOf lead ≤ rankOf c := by
  induction cs generalizing lead with
  | nil => cases h
  | cons c cs ih =>
    rw [highest] at h
    cases hd : highest cs with
    | none =>
      obtain rfl := (highest_eq_none_iff cs).1 hd
      obtain rfl : c = lead := by simpa [hd] using h
      simp
    | some d =>
      obtain ⟨hmem, hleast⟩ := ih hd
      obtain rfl : (if d.above c then d else c) = lead := by simpa [hd] using h
      split
      case isTrue habove =>
        exact ⟨List.mem_cons_of_mem _ hmem, List.forall_mem_cons.2 ⟨((above_iff d c).1 habove).le, hleast⟩⟩
      case isFalse habove =>
        have hle : rankOf c ≤ rankOf d := not_lt.1 (mt (above_iff d c).2 habove)
        exact ⟨List.mem_cons_self, List.forall_mem_cons.2 ⟨le_rfl, fun x hx => hle.trans (hleast x hx)⟩⟩

/-! ## Contenders (R64) -/

/-- A candidate is a thread of its workgroup, which is in the package. -/
theorem mem_candidates {s : State} {core picker : Nat} {c : Contender} (h : c ∈ s.candidates core picker) :
    c.wg ∈ s.wgs ∧ c.t ∈ c.wg.threads := by
  obtain ⟨w, hw, hc⟩ := List.mem_flatMap.1 h
  obtain ⟨t, ht, hsome⟩ := List.mem_filterMap.1 hc
  split at hsome
  · split_ifs at hsome
    obtain rfl := Option.some.inj hsome
    exact ⟨List.mem_of_mem_filter hw, ht⟩
  · cases hsome

/-! ## The members of a group (R65) -/

section
variable {lead : Contender} {collective : Bool} {cs : List Contender}

/-- The member of one lane. -/
def memberAt (lead : Contender) (collective : Bool) (cs : List Contender) (lane : Nat) : Option TRef :=
  if lane = lead.t.lane then some (named lead)
  else (highest (cs.filter fun c => c.t.lane == lane && lead.joins c collective)).map named

theorem membersOf_eq : membersOf lead collective cs = (List.range 32).filterMap (memberAt lead collective cs) := rfl

/-- A contender that joins stands where its leader stands. -/
theorem joins_place {c : Contender} (h : lead.joins c collective = true) : c.t.pc = lead.t.pc ∧ c.t.mid = lead.t.mid := by
  simp only [Contender.joins, Bool.and_eq_true, beq_iff_eq] at h
  exact h.1

/-- The member of a lane is a contender of that lane which stands at the leader's place. -/
theorem memberAt_some (hlead : lead ∈ cs) {lane : Nat} {r : TRef} (h : memberAt lead collective cs lane = some r) :
    ∃ c ∈ cs, named c = r ∧ c.t.lane = lane ∧ c.t.pc = lead.t.pc ∧ c.t.mid = lead.t.mid := by
  unfold memberAt at h
  split_ifs at h with hlane
  · exact ⟨lead, hlead, Option.some.inj h, hlane.symm, rfl, rfl⟩
  · obtain ⟨c, hc, rfl⟩ := Option.map_eq_some_iff.1 h
    obtain ⟨hmem, htest⟩ := List.mem_filter.1 (highest_some hc).1
    obtain ⟨hl, hjoins⟩ := Bool.and_eq_true_iff.1 htest
    exact ⟨c, hmem, rfl, by simpa using hl, joins_place hjoins⟩

/-- A lane in which some contender joins has a member. -/
theorem exists_memberAt {c : Contender} (hc : c ∈ cs) (hjoins : lead.joins c collective = true) :
    ∃ r, memberAt lead collective cs c.t.lane = some r := by
  unfold memberAt
  split_ifs with hlane
  · exact ⟨_, rfl⟩
  · cases hhigh : highest (cs.filter fun d => d.t.lane == c.t.lane && lead.joins d collective) with
    | some d => exact ⟨named d, rfl⟩
    | none =>
      rw [highest_eq_none_iff, List.filter_eq_nil_iff] at hhigh
      exact absurd (by simp [hjoins]) (hhigh c hc)

theorem mem_membersOf {r : TRef} : r ∈ membersOf lead collective cs ↔
    ∃ lane < 32, memberAt lead collective cs lane = some r := by
  simp [membersOf_eq, List.mem_filterMap]

theorem lead_mem_membersOf (hlane : lead.t.lane < 32) : named lead ∈ membersOf lead collective cs :=
  mem_membersOf.2 ⟨lead.t.lane, hlane, if_pos rfl⟩

theorem length_membersOf : (membersOf lead collective cs).length ≤ 32 := by
  rw [membersOf_eq]
  exact (List.length_filterMap_le ..).trans (by simp)

/-- One member a lane, in lane order. -/
theorem pairwise_membersOf (hlead : lead ∈ cs) :
    (membersOf lead collective cs).Pairwise fun a b => a.lane < b.lane := by
  rw [membersOf_eq, List.pairwise_filterMap]
  refine List.pairwise_lt_range.imp fun {m n} hlt a ha b hb => ?_
  obtain ⟨c, -, rfl, hc, -⟩ := memberAt_some hlead ha
  obtain ⟨d, -, rfl, hd, -⟩ := memberAt_some hlead hb
  exact (hc.symm ▸ hd.symm ▸ hlt : c.t.lane < d.t.lane)

end

/-! ## Formation (R65, R67) -/

/-- Whether the group of a leader is that of a collective clause. -/
def collectiveOf (s : State) (lead : Contender) : Bool := match lead.t.mid with
  | some m => m.c
  | none => s.standing lead.wg lead.t == .collective

/-- The group around a leader. -/
def formed (s : State) (core picker : Nat) (cs : List Contender) (lead : Contender) : Group :=
  { id := s.nextId, core := core, picker := picker, pc := lead.t.pc, atHeader := lead.t.mid.isNone,
    ctx := lead.t.mid.getD (unread lead.t.pc), members := membersOf lead (collectiveOf s lead) cs, mods := Mods.none,
    held := false, collHold := none, sent := false }

/-- A change of the threads that a list names, and of nothing else of the package. -/
theorem updThreads_eq (s : State) (rs : List TRef) (f : Thread → Thread) : s.updThreads rs f =
    { s with wgs := s.wgs.map fun w => withThreads w (w.threads.map fun t => if t.ref w.id ∈ rs then f t else t) } := by
  simp only [State.updThreads, updateWhere, List.contains_iff_mem, withThreads]

/-- Two changes of threads that no name has both of. -/
theorem updThreads_updThreads (s : State) {rs qs : List TRef} {f h : Thread → Thread} (hname : ∀ t wg, (f t).ref wg = t.ref wg)
    (hdisjoint : ∀ r ∈ rs, r ∉ qs) : ((s.updThreads rs f).updThreads qs h).wgs = s.wgs.map fun w =>
      withThreads w (w.threads.map fun t => if t.ref w.id ∈ rs then f t else if t.ref w.id ∈ qs then h t else t) := by
  simp only [updThreads_eq, List.map_map]
  refine List.map_congr_left fun w _ => ?_
  simp only [Function.comp_def, withThreads, List.map_map]
  congr 1
  refine List.map_congr_left fun t _ => ?_
  by_cases hmem : t.ref w.id ∈ rs
  · simp [hmem, hname, hdisjoint _ hmem]
  · simp [hmem]

section
variable {s : State} {core picker : Nat} {cs : List Contender} {lead : Contender}

theorem formGroup_groups : (s.formGroup core picker cs lead).groups = s.groups ++ [formed s core picker cs lead] := rfl

/-- Members join the group, those that were passed over count it (R69). -/
theorem formGroup_wgs : (s.formGroup core picker cs lead).wgs = s.wgs.map fun w =>
    withThreads w (w.threads.map (formedThread s.nextId (formed s core picker cs lead).members
      ((cs.map named).filter fun r => !(formed s core picker cs lead).members.contains r) w)) :=
  updThreads_updThreads s (fun _ _ => rfl) fun r hr hpassed => by simpa [hr] using (List.mem_filter.1 hpassed).2

/-- What forms: the group around a ready thread that none outranks, with its members one a lane. -/
theorem formation_spec (hlane : ∀ c ∈ cs, c.t.lane < 32) (hhigh : highest cs = some lead) :
    (∀ c ∈ cs, ¬ Outranks c lead) ∧ named lead ∈ (formed s core picker cs lead).members ∧
      (∀ r ∈ (formed s core picker cs lead).members, ∃ c ∈ cs, named c = r ∧ c.t.pc = lead.t.pc ∧ c.t.mid = lead.t.mid) ∧
      ∀ c ∈ cs, s.standing lead.wg lead.t = .ready → lead.t.mid = none → c.t.pc = lead.t.pc → c.t.mid = none →
        ∃ r ∈ (formed s core picker cs lead).members, r.lane = c.t.lane := by
  obtain ⟨hlead, hleast⟩ := highest_some hhigh
  refine ⟨fun c hc hout => ?_, lead_mem_membersOf (hlane lead hlead), fun r hr => ?_,
    fun c hc hstand hmid hpc hcmid => ?_⟩
  · exact ((outranks_iff c lead).1 hout).not_ge (hleast c hc)
  · obtain ⟨lane, -, hr⟩ := mem_membersOf.1 hr
    obtain ⟨c, hc, hname, -, hplace⟩ := memberAt_some hlead hr
    exact ⟨c, hc, hname, hplace⟩
  · have hplain : collectiveOf s lead = false := by simp [collectiveOf, hmid, hstand]
    have hjoins : lead.joins c (collectiveOf s lead) = true := by simp [Contender.joins, hplain, hpc, hmid, hcmid]
    obtain ⟨r, hr⟩ := exists_memberAt hc hjoins
    obtain ⟨d, -, rfl, hd, -⟩ := memberAt_some hlead hr
    exact ⟨named d, mem_membersOf.2 ⟨_, hlane c hc, hr⟩, hd⟩

end

section
variable {s : State} {core picker : Nat} (hthreads : ∀ w ∈ s.wgs, ∀ t ∈ w.threads, t.late = none ∧ t.lane < 32)
include hthreads

/-- Nothing forms while four groups are in flight or nobody is ready. -/
theorem formation_none (h : 4 ≤ (s.groups.filter fun g => g.core == core && g.picker == picker).length ∨
    s.candidates core picker = []) : exec (.issueGroupFormation core picker) s = .next s := by
  show execIssueGroupFormation core picker s = _
  unfold execIssueGroupFormation
  rw [applyLate_id fun w hw t ht => (hthreads w hw t ht).1]
  dsimp only
  split
  case isTrue => rfl
  case isFalse hfew =>
    rw [h.resolve_left hfew]
    rfl

/-- Else the highest-ranked ready thread leads a group. -/
theorem formation_next {lead : Contender} (hfew : (s.groups.filter fun g => g.core == core && g.picker == picker).length < 4)
    (hhigh : highest (s.candidates core picker) = some lead) : exec (.issueGroupFormation core picker) s =
      .next (s.formGroup core picker (s.candidates core picker) lead) := by
  show execIssueGroupFormation core picker s = _
  unfold execIssueGroupFormation
  rw [applyLate_id fun w hw t ht => (hthreads w hw t ht).1]
  dsimp only
  rw [if_neg (Nat.not_le.2 hfew), hhigh]

end

/-! ## Marks and the limits of collective waits (R69, R71, R72) -/

/-- A change of one thread by its name. -/
theorem updThread_eq_ofThread (s : State) (r : TRef) (f : Thread → Thread) : s.updThread r f = ofThread r f s := by
  unfold State.updThread State.updWg ofThread inWorkgroup Workgroup.updThread updateWhere
  simp only [beq_iff_eq, Bool.and_eq_true]

/-- A mark that 16 formations have passed over ends. -/
theorem yieldMarkExpiry_eq (s : State) (r : TRef) : exec (.yieldMarkExpiry r.wg r.warp r.lane) s = .next (ofThread r (fun t =>
    if (∃ n, t.yieldMark = some n ∧ 16 ≤ n) then { t with yieldMark := none } else t) s) := by
  refine congrArg Host.Outcome.next ((updThread_eq_ofThread s r _).trans (congrArg (ofThread r · s) (funext fun t => ?_)))
  refine if_congr ?_ rfl rfl
  cases t.yieldMark <;> simp

/-- A tick is 20 clk (R3). -/
theorem clkOfTicks_eq (n : Nat) : clkOfTicks n = 20 * n := Nat.mul_comm n 20

section
variable {s : State} {r : TRef} {w : Workgroup} {th : Thread}

/-- R71: the first of the sub-group has waited for longer than %colto. -/
def stalled (s : State) (w : Workgroup) (th : Thread) : Prop :=
  ∃ m ∈ s.waiters w th, ∃ n, m.collSince = some n ∧ n + 20 * w.colto < s.time

theorem waitsTooLong_iff (s : State) (w : Workgroup) (th : Thread) :
    ((s.waiters w th).any fun m => m.collSince.any fun n => decide (n + clkOfTicks w.colto < s.time)) = true ↔
      stalled s w th := by
  simp only [List.any_eq_true, Option.any_eq_true, decide_eq_true_iff, clkOfTicks_eq, stalled]

/-- The timeout acts on a thread that waits for others of its sub-group, more than %colto after the first began to wait. -/
theorem collectiveStall_eq (hw : s.wg? r.wg = some w) (hth : w.thread? r.warp r.lane = some th) :
    (w.colto ≠ 0 ∧ s.standing w th = .collective ∧ s.gathered w th = false ∧ stalled s w th →
      exec (.collectiveStallTimeout r.wg r.warp r.lane) s =
        .next { s with wgs := s.wgs.map (stallIn ((s.waiters w th).map fun m => m.ref r.wg)) }) ∧
    (w.colto = 0 ∨ s.gathered w th = true ∨ ¬ stalled s w th →
      exec (.collectiveStallTimeout r.wg r.warp r.lane) s = .next s) := by
  show (_ → execCollectiveStallTimeout r.wg r.warp r.lane s = _) ∧ (_ → execCollectiveStallTimeout r.wg r.warp r.lane s = _)
  unfold execCollectiveStallTimeout
  rw [hw]
  dsimp only
  rw [hth]
  dsimp only
  have hstays : (w.colto == 0 || s.standing w th != .collective || s.gathered w th ||
      !((s.waiters w th).any fun m => m.collSince.any fun n => decide (n + clkOfTicks w.colto < s.time))) = true ↔
      w.colto = 0 ∨ s.standing w th ≠ .collective ∨ s.gathered w th = true ∨ ¬ stalled s w th := by
    simp [← waitsTooLong_iff, or_assoc]
  refine ⟨fun h => ?_, fun h => if_pos (hstays.2 (by tauto))⟩
  obtain ⟨hlimit, hstand, hapart, hstall⟩ := h
  rw [if_neg (mt hstays.1 (by simp [hlimit, hstand, hapart, hstall])), updThreads_eq]
  rfl

end

/-- R72: where members stand that are held at a cross-lane word: at its first modifier word, or the word. -/
theorem holdSite_eq {g : Group} (hat : g.atHeader = false) : g.holdSite.pc = g.pc - BitVec.ofNat 64 (4 * g.mods.count) ∧
    g.holdSite.resume = g.pc - BitVec.ofNat 64 (4 * g.mods.count) := by
  simp [Group.holdSite, Group.site, hat]

/-- The fields that a fault of an executing thread gives it (R368). -/
theorem raise_fields {t : Thread} (hex : t.executes = true) (d : FaultDetail) (site : Site) :
    (t.raise d site).status = .parked (decide (t.status = .helper)) ∧ (t.raise d site).pc = site.resume ∧
      (t.raise d site).fpc = site.pc ∧ (t.raise d site).fcode = d.code ∧ (t.raise d site).group = none := by
  rw [Thread.raise, if_pos hex]
  exact ⟨rfl, rfl, rfl, rfl, rfl⟩

/-- Where every member executes, none is left once all have taken a fault. -/
theorem memberless_of_raised {s : State} {g : Group}
    (hex : ∀ v ∈ s.wgs, ∀ t ∈ v.threads, inGroup g t → t.executes = true) (d : FaultDetail) (site : Site) :
    Memberless (s.mapGroup g.id fun _ t => t.raise d site) g.id := by
  intro w hw t ht
  obtain ⟨v, hv, rfl⟩ := List.mem_map.1 hw
  obtain ⟨x, hx, rfl⟩ := List.mem_map.1 ht
  split
  case isTrue hin =>
    obtain ⟨-, -, -, -, hgroup⟩ := raise_fields (hex v hv x hx (by simpa using hin)) d site
    simp [hgroup]
  case isFalse hout => simpa using hout

/-- R72: every member of a held group has parked where it is held, and the group is gone. -/
def heldParked (s : State) (g : Group) : State :=
  { s with wgs := s.wgs.map fun w => withThreads w (raisedThreads g { code := 0x22 } g.holdSite w),
           groups := s.groups.filter fun x => x.id != g.id }

section
variable {s : State} {g : Group} {since : Nat} {r : TRef} {w : Workgroup} (hfind : s.groups.find? (·.id == g.id) = some g)
  (hsince : g.collHold = some since) (hfirst : (s.active g).head? = some r) (hw : s.wg? r.wg = some w)
include hfind hsince hfirst hw

theorem collectiveHold_eq : exec (.collectiveHoldTimeout g.id) s =
    if w.colto = 0 ∨ s.time < since + 20 * w.colto then .next s
    else .next ((s.mapGroup g.id fun _ t => t.raise { code := 0x22 } g.holdSite).settle g.id) := by
  show execCollectiveHoldTimeout g.id s = _
  unfold execCollectiveHoldTimeout
  rw [hfind]
  simp only [hsince, hfirst, Option.bind_some, hw, Option.map_some, Option.getD_some, Bool.or_eq_true, decide_eq_true_iff,
    clkOfTicks_eq]
  rfl

/-- Once %colto has passed every member parks where the group is held, and the group is gone. -/
theorem collectiveHold_parks (hlimit : w.colto ≠ 0) (hlong : since + 20 * w.colto ≤ s.time) (hleft : 1 ≤ g.ctx.left)
    (hex : ∀ v ∈ s.wgs, ∀ t ∈ v.threads, inGroup g t → t.executes = true) :
    exec (.collectiveHoldTimeout g.id) s = .next (heldParked s g) := by
  have hgone := memberless_of_raised hex { code := 0x22 } g.holdSite
  have hfind' : (s.mapGroup g.id fun _ t => t.raise { code := 0x22 } g.holdSite).groups.find? (·.id == g.id) = some g := hfind
  rw [collectiveHold_eq hfind hsince hfirst hw, if_neg (by omega), settle_of hfind', if_neg (by simp; omega),
    active_of_memberless hgone]
  rfl

end

/-- What the members record, thread by thread; nobody else changes. -/
theorem raised_threads {g : Group} (hat : g.atHeader = false) {v : Workgroup}
    (hex : ∀ t ∈ v.threads, inGroup g t → t.executes = true) :
    (raisedThreads g { code := 0x22 } g.holdSite v).map (fun x => (x.status, x.pc, x.fpc, x.fcode, x.group)) =
      v.threads.map fun x => if inGroup g x then (.parked (decide (x.status = .helper)), g.pc - BitVec.ofNat 64 (4 * g.mods.count),
        g.pc - BitVec.ofNat 64 (4 * g.mods.count), 0x22, none)
      else (x.status, x.pc, x.fpc, x.fcode, x.group) := by
  obtain ⟨hpc, hresume⟩ := holdSite_eq hat
  rw [raisedThreads, updateWhere, List.map_map]
  refine List.map_congr_left fun t ht => ?_
  by_cases hin : inGroup g t
  · obtain ⟨hstatus, hp, hf, hcode, hgroup⟩ := raise_fields (hex t ht hin) { code := 0x22 } g.holdSite
    simp only [Function.comp, if_pos hin, if_pos (beq_iff_eq.2 hin), hstatus, hp, hf, hcode, hgroup, hpc, hresume]
  · simp only [Function.comp, if_neg hin, if_neg (mt beq_iff_eq.1 hin)]

/-- A workgroup that alone bears its number is the one that the number finds. -/
theorem wg?_of_unique {s : State} {v : Workgroup} (hv : v ∈ s.wgs) (hone : ∀ y ∈ s.wgs, y.id = v.id → y = v) :
    s.wg? v.id = some v := by
  cases hfound : s.wg? v.id with
  | none => exact absurd (by simp) (List.find?_eq_none.1 hfound v hv)
  | some y => rw [hone y (List.mem_of_find?_eq_some hfound) (by simpa using List.find?_some hfound)]

/-- Settles O51: the group around the highest-ranked ready thread, the end of a mark, and the two limits of collective
waits, each from the lemma that says it. -/
theorem issueGroupsFormByRank : Obligations.IssueGroupsFormByRank := by
  unfold Obligations.IssueGroupsFormByRank
  refine ⟨fun s core picker hthreads => ⟨formation_none hthreads, fun hfew hready => ?_⟩, yieldMarkExpiry_eq,
    fun s r w th hw hth => ⟨fun hearly => ?_, fun hlimit hstand hapart hstall => ?_⟩,
    fun s g since r w hfind hsince hfirst hw => ⟨fun hearly => (collectiveHold_eq hfind hsince hfirst hw).trans (if_pos hearly),
      fun hlimit hlong hat hleft hex => ?_⟩⟩
  · obtain ⟨lead, hhigh⟩ := Option.ne_none_iff_exists'.1 (mt (highest_eq_none_iff _).1 hready)
    have hlane : ∀ c ∈ s.candidates core picker, c.t.lane < 32 := fun c hc =>
      (hthreads _ (mem_candidates hc).1 _ (mem_candidates hc).2).2
    have hlead := (highest_some hhigh).1
    obtain ⟨hrank, hmember, hplace, hjoin⟩ := formation_spec (core := core) (picker := picker) hlane hhigh
    refine ⟨_, lead, hlead, formed s core picker (s.candidates core picker) lead, formation_next hthreads hfew hhigh, hrank, rfl, rfl,
      rfl, rfl, rfl, ?_, fun m hm => ?_, rfl, rfl, hmember, length_membersOf, pairwise_membersOf hlead, hplace, hjoin,
      formGroup_wgs⟩
    · exact Option.isNone_iff_eq_none
    · simp [formed, hm]
  · refine (collectiveStall_eq hw hth).2 (hearly.imp_right (Or.imp_right fun hnot hstall => ?_))
    obtain ⟨m, hm, n, hn, hlate⟩ := hstall
    exact (hnot m hm n hn).not_gt hlate
  · exact (collectiveStall_eq hw hth).1 ⟨hlimit, hstand, hapart, hstall⟩
  · refine ⟨_, collectiveHold_parks hfind hsince hfirst hw hlimit hlong hleft hex, rfl, rfl, ?_, fun v hv hone => ?_⟩
    · simp [heldParked, withThreads]
    · have hfound := wg?_of_map (s := s) (t := heldParked s g) rfl (fun _ => rfl) v.id
      rw [wg?_of_unique hv hone] at hfound
      exact ⟨_, hfound, raised_threads hat (hex v hv)⟩

end Sys2Proof.Proofs
end

