-- ==== Sys2Proof/Proofs/FirstBarrier.lean ====
section
/-!
The count of b0 after an exit (13_sync_wait R298, R300): when its phase completes, and what that does to the workgroup.
-/

set_option Elab.async false

namespace Sys2Proof.Proofs

open Sys2Proof Sys2Proof.Machine Sys2Proof.Laws Sys2Proof.Safety Sys2Proof.Claims

/-! ## Threads at a barrier -/

/-- R298: whether a thread waits on the present phase. -/
theorem any_waitsOn (h : Option Hold) (b : Nat) : (h.any fun x => x.waitsOn b) = match h with
    | some (.barrier k _) => k == b
    | _ => false := by
  rcases h with _ | h
  · rfl
  · cases h <;> rfl

theorem passes_eq (t : Thread) (b now : Nat) : t.passes b now = releasedBy b now t := by
  unfold Thread.passes releasedBy
  simp only [any_waitsOn]
  rfl

/-- A thread that passes a barrier: its hold and the one that it keeps are over where they wait on it. -/
theorem passes_fields (t : Thread) (b now : Nat) : t.passes b now =
    { t with kept := if (t.kept.any fun x => x.waitsOn b) = true then none else t.kept,
             hold := if (t.hold.any fun x => x.waitsOn b) = true then none else t.hold,
             readyAt := if (t.hold.any fun x => x.waitsOn b) = true then now else t.readyAt } := by
  unfold Thread.passes Thread.lift
  by_cases hk : (t.kept.any fun x => x.waitsOn b) = true <;> by_cases hh : (t.hold.any fun x => x.waitsOn b) = true <;>
    simp only [hk, hh, if_true, if_false, Bool.false_eq_true]

/-- A held arrival does not wait on the present phase. -/
theorem heldAt_passes (t : Thread) (b now : Nat) :
    ((t.passes b now).hold.any fun x => x.heldAt b) = t.hold.any fun x => x.heldAt b := by
  rw [passes_fields]
  rcases hh : t.hold with _ | h
  · rfl
  · cases h with
    | barrier k site => by_cases hk : k = b <;> simp [Hold.waitsOn, Hold.heldAt, hk]
    | _ => rfl

@[simp] theorem passes_executes (t : Thread) (b now : Nat) : (t.passes b now).executes = t.executes := by
  rw [passes_fields]
  rfl

/-! ## Workgroups whose phase of b0 completes -/

theorem notExited_eq (w : Workgroup) : w.notExited = remaining w := by
  unfold Workgroup.notExited remaining
  congr 1
  refine List.filter_congr fun t _ => ?_
  rw [Bool.eq_iff_iff, bne_iff_ne, decide_eq_true_iff]

/-- The threads whose arrival at b is held, in the order of the workgroup. -/
def heldAtBarrier (w : Workgroup) (b : Nat) : List Thread :=
  w.threads.filter fun t => (t.hold.any fun x => x.heldAt b) && t.executes

theorem heldArrivals_perm (w : Workgroup) (b : Nat) : (w.heldArrivals b).Perm (heldAtBarrier w b) :=
  List.mergeSort_perm ..

theorem heldArrivals_eq_nil_iff (w : Workgroup) (b : Nat) : w.heldArrivals b = [] ↔ heldAtBarrier w b = [] := by
  rw [← List.length_eq_zero_iff, (heldArrivals_perm w b).length_eq, List.length_eq_zero_iff]

theorem heldArrivals_eq_singleton_iff (w : Workgroup) (b : Nat) (t : Thread) :
    w.heldArrivals b = [t] ↔ heldAtBarrier w b = [t] := by
  constructor
  · intro h
    exact List.perm_singleton.1 (h ▸ (heldArrivals_perm w b).symm)
  · intro h
    exact List.perm_singleton.1 (h ▸ heldArrivals_perm w b)

/-- R298: a phase of b0 is over in a workgroup: the bit flips, the set is empty, and every thread that waits goes on. -/
def phaseOver (phase : Bool) (now : Nat) (w : Workgroup) : Workgroup :=
  { w.setBar 0 { Barrier.reset with phase := !phase } with threads := w.threads.map fun t => t.passes 0 now }

theorem heldAtBarrier_phaseOver (phase : Bool) (now : Nat) (w : Workgroup) :
    heldAtBarrier (phaseOver phase now w) 0 = (heldAtBarrier w 0).map fun t => t.passes 0 now := by
  unfold heldAtBarrier phaseOver
  rw [List.filter_map]
  congr 1
  refine List.filter_congr fun t _ => ?_
  simp [heldAt_passes]

@[simp] theorem bar_setBar (w : Workgroup) (x : Barrier) : (w.setBar 0 x).bar 0 = x := by
  simp [Workgroup.bar, Workgroup.setBar]

theorem bar_phaseOver (phase : Bool) (now : Nat) (w : Workgroup) :
    (phaseOver phase now w).bar 0 = { Barrier.reset with phase := !phase } := bar_setBar w _

theorem notExited_phaseOver (phase : Bool) (now : Nat) (w : Workgroup) :
    (phaseOver phase now w).notExited = w.notExited := by
  unfold Workgroup.notExited phaseOver
  rw [List.filter_map, List.length_map]
  congr 1
  refine List.filter_congr fun t _ => ?_
  rw [Function.comp, passes_fields]

/-! ## The recount (R300) -/

/-- The phase of b0 goes on: nobody has arrived, or somebody is still to arrive. -/
def phaseGoesOn (w : Workgroup) : Prop := (w.bar 0).arrivals = [] ∨ (w.bar 0).arrivals.length < w.notExited

theorem wg?_updWg (s : State) (id : Nat) {f : Workgroup → Workgroup} (hid : ∀ v, (f v).id = v.id) :
    (s.updWg id f).wg? id = (s.wg? id).map f := by
  have hmap := wg?_of_map (s := s) (t := s.updWg id f) (Y := fun v => if v.id == id then f v else v) rfl
    (fun v => by split_ifs <;> simp [hid]) id
  rw [hmap]
  cases hw : s.wg? id with
  | none => rfl
  | some w => simp [show w.id = id by simpa using List.find?_some hw]

theorem updWg_updWg (s : State) (id : Nat) {f : Workgroup → Workgroup} (h : Workgroup → Workgroup) (hid : ∀ v, (f v).id = v.id) :
    (s.updWg id f).updWg id h = s.updWg id fun v => h (f v) := by
  unfold State.updWg
  rw [map_updateWhere_updateWhere fun v => by rw [hid]]

section
variable {s : State} {i : Nat} {w : Workgroup} (hw : s.wg? i = some w)
include hw

theorem recountB0_eq : s.recountB0 i = if (w.bar 0).arrivals.isEmpty || decide ((w.bar 0).arrivals.length < w.notExited) then s
    else (s.updWg i (phaseOver (w.bar 0).phase s.time)).applyHeld i 0 := by
  unfold State.recountB0
  rw [hw]
  rfl

theorem recountB0_of_goesOn (h : phaseGoesOn w) : s.recountB0 i = s := by
  rw [recountB0_eq hw, if_pos]
  simpa [phaseGoesOn] using h

theorem recountB0_of_over (h : ¬ phaseGoesOn w) :
    s.recountB0 i = (s.updWg i (phaseOver (w.bar 0).phase s.time)).applyHeld i 0 := by
  rw [recountB0_eq hw, if_neg]
  simpa [phaseGoesOn] using h

theorem applyHeld_of_none (h : w.heldArrivals 0 = []) : s.applyHeld i 0 = s := by
  unfold State.applyHeld
  rw [hw, Option.map_some, Option.getD_some, h]
  rfl

/-- Where no arrival is held, the phase is over and nothing more happens. -/
theorem recountB0_of_noneHeld (h : ¬ phaseGoesOn w) (hheld : w.heldArrivals 0 = []) :
    s.recountB0 i = s.updWg i (phaseOver (w.bar 0).phase s.time) := by
  rw [recountB0_of_over hw h]
  refine applyHeld_of_none (w := phaseOver (w.bar 0).phase s.time w) ?_ ?_
  · rw [wg?_updWg s i (f := phaseOver (w.bar 0).phase s.time) fun _ => rfl, hw]
    rfl
  · rw [heldArrivals_eq_nil_iff, heldAtBarrier_phaseOver, (heldArrivals_eq_nil_iff w 0).1 hheld]
    rfl

end

/-- A workgroup's barrier and threads, changed together. -/
theorem withBarrier_inWorkgroup (s : State) (i : Nat) (x : Barrier) (f : Thread → Thread) :
    withBarrier i 0 x (inWorkgroup i f s) = s.updWg i fun v => { v.setBar 0 x with threads := v.threads.map f } := by
  unfold withBarrier inWorkgroup State.updWg updateWhere
  simp only [List.map_map]
  congr 1
  refine List.map_congr_left fun v _ => ?_
  by_cases hv : v.id = i <;> simp [hv, Workgroup.setBar]

/-! ## A held arrival enters the next phase (R298) -/

/-- The first arrival at b0 in its phase, where others are still to arrive. -/
def firstArrival (now : Nat) (r : TRef) (site : Site) (v w : Workgroup) : Workgroup :=
  (v.setBar 0 { (w.bar 0) with arrivals := [r], count := w.notExited, timer := some now }).updThread r.warp r.lane fun t =>
    { t with hold := some (.barrier 0 site) }

theorem arrive_first {s : State} {r : TRef} {w : Workgroup} (hw : s.wg? r.wg = some w) (hempty : (w.bar 0).arrivals = [])
    (hmore : 2 ≤ w.notExited) (fuel c : Nat) (site : Site) :
    s.arrive (fuel + 1) r 0 c true site = s.updWg r.wg fun v => firstArrival s.time r site v w := by
  have hcount : w.countArrival 0 c r s.time =
      some { (w.bar 0) with arrivals := [r], count := w.notExited, timer := some s.time } := by
    simp [Workgroup.countArrival, hempty]
  unfold State.arrive
  rw [hw]
  simp only [hempty, List.contains_nil, Bool.false_eq_true, if_false, hcount, List.length_singleton]
  rw [if_pos (show 1 < w.notExited from hmore)]
  exact updWg_updWg s r.wg _ fun _ => rfl

/-- A thread that a workgroup finds is found in the same workgroup with other threads of the same names. -/
theorem thread?_phaseOver (phase : Bool) (now : Nat) (w : Workgroup) (warp lane : Nat) :
    (phaseOver phase now w).thread? warp lane = (w.thread? warp lane).map fun t => t.passes 0 now := by
  unfold Workgroup.thread? phaseOver
  rw [List.find?_map]
  congr 2
  funext t
  rw [Function.comp, passes_fields]

/-- The workgroup once its phase is over and thread h, whose arrival was held, has arrived in the next one. -/
def enteredNext (now : Nat) (h : Thread) (site : Site) (w v : Workgroup) : Workgroup :=
  { v.setBar 0 ⟨!(w.bar 0).phase, [h.ref w.id], w.notExited, false, some now⟩ with
    threads := v.threads.map fun t => if t.warp = h.warp ∧ t.lane = h.lane then
        { t.passes 0 now with hold := some (.barrier 0 site), readyAt := now }
      else t.passes 0 now }

/-- The one held arrival at b0 is applied. -/
theorem applyHeld_of_one {s : State} {i : Nat} {w : Workgroup} (hw : s.wg? i = some w) {h : Thread} (hheld : w.heldArrivals 0 = [h])
    {c since : Nat} {wait : Bool} {site : Site} (hhold : h.hold = some (.arrival 0 c wait since site))
    (hname : s.thread? (h.ref i) = some h) : s.applyHeld i 0 =
      (s.updThread (h.ref i) fun t => t.lift s.time).arrive arriveFuel (h.ref i) 0 c wait site := by
  unfold State.applyHeld
  rw [hw, Option.map_some, Option.getD_some, hheld, List.foldl_cons, List.foldl_nil, hname, Option.bind_some, hhold]
  rfl

/-- A change of one thread leaves the barriers and what its change leaves. -/
theorem notExited_updThread (w : Workgroup) (warp lane : Nat) {f : Thread → Thread} (hf : ∀ t, (f t).status = t.status) :
    (w.updThread warp lane f).notExited = w.notExited := by
  unfold Workgroup.notExited Workgroup.updThread updateWhere
  rw [List.filter_map, List.length_map]
  congr 1
  refine List.filter_congr fun t _ => ?_
  rw [Function.comp]
  split_ifs
  · rw [hf]
  · rfl

theorem setBar_phaseOver (phase : Bool) (now : Nat) (w : Workgroup) (x : Barrier) :
    (phaseOver phase now w).setBar 0 x = { w.setBar 0 x with threads := w.threads.map fun t => t.passes 0 now } := by
  unfold phaseOver Workgroup.setBar
  simp

/-- The thread whose arrival was held goes on from the old phase and arrives in the next. -/
theorem firstArrival_phaseOver (now : Nat) (h : Thread) (site : Site) (w v : Workgroup) :
    firstArrival now (h.ref w.id) site ((phaseOver (w.bar 0).phase now v).updThread h.warp h.lane fun t => t.lift now)
        ((phaseOver (w.bar 0).phase now w).updThread h.warp h.lane fun t => t.lift now) = enteredNext now h site w v := by
  have hbar : ((phaseOver (w.bar 0).phase now w).updThread h.warp h.lane fun t => t.lift now).bar 0 =
      { Barrier.reset with phase := !(w.bar 0).phase } := bar_phaseOver _ now w
  have hcount : ((phaseOver (w.bar 0).phase now w).updThread h.warp h.lane fun t => t.lift now).notExited = w.notExited := by
    rw [notExited_updThread _ _ _ fun t => by rfl, notExited_phaseOver]
  have hthread (t : Thread) : (t.passes 0 now).warp = t.warp ∧ (t.passes 0 now).lane = t.lane := by
    rw [passes_fields]
    exact ⟨rfl, rfl⟩
  unfold firstArrival enteredNext
  rw [hbar, hcount]
  simp only [Workgroup.updThread, Workgroup.setBar, phaseOver, updateWhere, List.map_map, Vector.setIfInBounds_setIfInBounds]
  congr 1
  refine List.map_congr_left fun t _ => ?_
  obtain ⟨hwarp, hlane⟩ := hthread t
  by_cases hname : t.warp = h.warp ∧ t.lane = h.lane
  · simp [Thread.ref, Thread.lift, hwarp, hlane, hname]
  · simp only [Function.comp, hwarp, hlane, Thread.ref, Bool.and_eq_true, beq_iff_eq, hname, if_false]

section
variable {s : State} {w : Workgroup} (hw : s.wg? w.id = some w)
include hw

/-- Where one arrival is held, its thread enters the next phase. -/
theorem recountB0_of_oneHeld (hover : ¬ phaseGoesOn w) {h : Thread} (hheld : w.heldArrivals 0 = [h]) {c since : Nat} {site : Site}
    (hhold : h.hold = some (.arrival 0 c true since site)) (hname : w.thread? h.warp h.lane = some h)
    (hmore : 2 ≤ w.notExited) :
    s.recountB0 w.id = s.updWg w.id (enteredNext s.time h site w) := by
  let turned := phaseOver (w.bar 0).phase s.time
  let lifted (v : Workgroup) : Workgroup := (turned v).updThread h.warp h.lane fun t => t.lift s.time
  let passed := h.passes 0 s.time
  have hpassed : passed = { h with kept := passed.kept } := by
    refine (passes_fields ..).trans ?_
    simp [passed, passes_fields, hhold, Hold.waitsOn]
  have hu : (s.updWg w.id turned).wg? w.id = some (turned w) := by
    rw [wg?_updWg s w.id (f := turned) fun _ => rfl, hw, Option.map_some]
  have hone : (turned w).heldArrivals 0 = [passed] := by
    rw [heldArrivals_eq_singleton_iff, heldAtBarrier_phaseOver, (heldArrivals_eq_singleton_iff w 0 h).1 hheld]
    rfl
  have href : passed.ref w.id = h.ref w.id := by rw [hpassed]; rfl
  have hstill : passed.hold = some (.arrival 0 c true since site) := by rw [hpassed]; exact hhold
  have hfound : (s.updWg w.id turned).thread? (passed.ref w.id) = some passed := by
    rw [href, State.thread?, show (h.ref w.id).wg = w.id from rfl, hu]
    exact (thread?_phaseOver ..).trans (congrArg _ hname)
  have hlifted : (s.updWg w.id turned).updThread (h.ref w.id) (fun t => t.lift s.time) = s.updWg w.id lifted :=
    updWg_updWg s w.id _ fun _ => rfl
  have hcount : (lifted w).notExited = w.notExited := by
    rw [notExited_updThread _ _ _ fun t => by rfl, notExited_phaseOver]
  have hfoundLifted : (s.updWg w.id lifted).wg? (h.ref w.id).wg = some (lifted w) := by
    rw [show (h.ref w.id).wg = w.id from rfl, wg?_updWg s w.id (f := lifted) fun _ => rfl, hw, Option.map_some]
  have hempty : ((lifted w).bar 0).arrivals = [] := by
    rw [show (lifted w).bar 0 = _ from bar_phaseOver _ s.time w]
    rfl
  have hturned := applyHeld_of_one hu hone hstill hfound
  rw [href, updWg_time, hlifted, show arriveFuel = 1024 + 1 from rfl,
    arrive_first hfoundLifted hempty (hmore.trans hcount.ge)] at hturned
  have henter : (fun v => firstArrival s.time (h.ref w.id) site (lifted v) (lifted w)) = enteredNext s.time h site w :=
    funext fun v => firstArrival_phaseOver s.time h site w v
  have hcombined := updWg_updWg s w.id (f := lifted) (fun v => firstArrival s.time (h.ref w.id) site v (lifted w)) fun _ => rfl
  calc s.recountB0 w.id = (s.updWg w.id turned).applyHeld w.id 0 := recountB0_of_over hw hover
    _ = (s.updWg w.id lifted).updWg w.id fun v => firstArrival s.time (h.ref w.id) site v (lifted w) := hturned
    _ = s.updWg w.id fun v => firstArrival s.time (h.ref w.id) site (lifted v) (lifted w) := hcombined
    _ = s.updWg w.id (enteredNext s.time h site w) := by rw [henter]

end

/-- R300: the recount of b0 by the contents of the barrier, as the statement has it. -/
theorem recountB0_spec (s : State) (w : Workgroup) (hw : s.wg? w.id = some w) :
    ((barrierOf w 0).arrivals = [] ∨ (barrierOf w 0).arrivals.length < remaining w → s.recountB0 w.id = s) ∧
    ((barrierOf w 0).arrivals ≠ [] → remaining w ≤ (barrierOf w 0).arrivals.length → w.heldArrivals 0 = [] →
      s.recountB0 w.id = withBarrier w.id 0 { Barrier.reset with phase := !(barrierOf w 0).phase }
        (inWorkgroup w.id (releasedBy 0 s.time) s)) ∧
    ((barrierOf w 0).arrivals ≠ [] → remaining w ≤ (barrierOf w 0).arrivals.length → ∀ h c site since,
      w.heldArrivals 0 = [h] → h.hold = some (.arrival 0 c true since site) → w.thread? h.warp h.lane = some h →
      2 ≤ remaining w → s.recountB0 w.id =
        withBarrier w.id 0 ⟨!(barrierOf w 0).phase, [h.ref w.id], remaining w, false, some s.time⟩
          (inWorkgroup w.id (fun t => if t.warp = h.warp ∧ t.lane = h.lane then
              { releasedBy 0 s.time t with hold := some (.barrier 0 site), readyAt := s.time }
            else releasedBy 0 s.time t) s)) := by
  have hpasses : releasedBy 0 s.time = fun t => t.passes 0 s.time := funext fun t => (passes_eq t 0 s.time).symm
  simp only [← notExited_eq, hpasses, withBarrier_inWorkgroup]
  have hbar : barrierOf w 0 = w.bar 0 := rfl
  rw [hbar]
  refine ⟨recountB0_of_goesOn hw, fun hsome hall hheld => ?_, fun hsome hall h c site since hheld hhold hname hmore => ?_⟩
  · exact recountB0_of_noneHeld hw (not_or.2 ⟨hsome, hall.not_gt⟩) hheld
  · exact recountB0_of_oneHeld hw (not_or.2 ⟨hsome, hall.not_gt⟩) hheld hhold hname hmore

end Sys2Proof.Proofs
end

