-- ==== Sys2Proof/Proofs/ControlWords.lean ====
section
/-!
DEMOTE, YIELD, NOP and BKPT, and EXIT of a group of one member (03_control R82 to R86).
-/

set_option Elab.async false

namespace Sys2Proof.Proofs

open Sys2Proof Sys2Proof.Machine Sys2Proof.Laws Sys2Proof.Safety Sys2Proof.Claims

/-! ## Words that act on each member alone -/

section
variable {s : State} {g : Group} (h : Ready s g hintRule [])
include h

/-- R83: no helper becomes live again. -/
theorem demote_ready (o : CtlGArgs) : exec (.demote o) s = .next (after s g fun _ t =>
    if t.guard o.guard o.neg = true ∧ t.status = .live then { t with status := .helper } else t) := by
  have hcond (t : Thread) : (t.guard o.guard o.neg && t.status == .live) = true ↔
      t.guard o.guard o.neg = true ∧ t.status = .live := by simp
  show execDemote o s = _
  unfold execDemote
  simp only [hcond]
  refine ready_members h rfl rfl rfl (fun _ _ => rfl) fun _ t ht => ?_
  split_ifs <;> exact ht

theorem yield_ready (o : CtlGArgs) : exec (.yield o) s = .next (after s g fun _ t =>
    if t.guard o.guard o.neg = true then { t with yieldMark := some 0 } else t) := by
  show execYield o s = _
  unfold execYield
  refine ready_members h rfl rfl rfl (fun _ _ => rfl) fun _ t ht => ?_
  split_ifs <;> exact ht

theorem nop_ready (o : CtlGArgs) : exec (.nop o) s = .next (after s g fun _ t => t) := by
  show execNop o s = _
  unfold execNop
  exact ready_nothing h rfl rfl rfl

/-- R86: the fault is recorded at the word behind, where the thread resumes. -/
theorem bkpt_ready (o : CtlBArgs) : exec (.bkpt o) s = .next (after s g fun _ t =>
    if t.guard o.guard o.neg = true then t.raise { code := 0x41, reg := o.code.toNat }
      { pc := g.pc + 4, resume := g.pc + 4, resumeIn := g.ctx.step, next := g.pc + 4, nextIn := g.ctx.step }
    else t) := by
  show execBkpt o s = _
  unfold execBkpt
  refine ready_members h rfl rfl rfl (fun _ _ => rfl) fun _ t ht => ?_
  split_ifs
  · exact raise_late ht _ _
  · exact ht

end

/-! ## The parts of an arrival (R298) -/

/-- The thread's arrival counts in the barrier x. -/
def countedIn (s : State) (r : TRef) (b : Nat) (x : Barrier) (wait : Bool) (site : Site) : State :=
  (s.updWg r.wg fun w => w.setBar b x).updThread r fun t => { t with hold := if wait then some (.barrier b site) else none }

/-- The phase of x is complete at barrier b. -/
def phaseComplete (s : State) (wg b : Nat) (x : Barrier) : State :=
  s.updWg wg fun w => { w.setBar b { Barrier.reset with phase := !x.phase } with threads := w.threads.map fun t => t.passes b s.time }

/-- A thread whose arrival was held arrives now. -/
def enterHeld (fuel wg b : Nat) (s : State) (t : Thread) : State :=
  match (s.thread? (t.ref wg)).bind (·.hold) with
  | some (.arrival k c wt _ st) =>
    if k == b then (s.updThread (t.ref wg) fun t => t.lift s.time).arrive fuel (t.ref wg) b c wt st else s
  | _ => s

/-- The threads whose arrivals at b are held. -/
def heldOf (s : State) (wg b : Nat) : List Thread := ((s.wg? wg).map (·.heldArrivals b)).getD []

/-- The thread's arrival is held: it has arrived in this phase already. -/
def heldBack (s : State) (r : TRef) (b cnt : Nat) (wait : Bool) (site : Site) : State :=
  { s.updThread r (fun t => { t with hold := some (.arrival b cnt wait s.nextId site) }) with nextId := s.nextId + 1 }

/-- The held arrivals at b enter the phase that has begun, oldest first. -/
def enterAll (fuel wg b : Nat) (s : State) : State := (heldOf s wg b).foldl (enterHeld fuel wg b) s

/-- R298, Arrive and Complete, by what becomes of the arrival. -/
theorem arrive_succ (fuel : Nat) (s : State) (r : TRef) (b cnt : Nat) (wait : Bool) (site : Site) :
    s.arrive (fuel + 1) r b cnt wait site = (s.wg? r.wg).elim s fun w =>
      if (w.bar b).arrivals.contains r then heldBack s r b cnt wait site
      else (w.countArrival b cnt r s.time).elim (s.raise r { code := codeBarrierCount } site) fun x =>
        if x.arrivals.length < x.count then countedIn s r b x wait site
        else enterAll fuel r.wg b (phaseComplete (countedIn s r b x wait site) r.wg b x) := by
  rw [State.arrive]
  cases s.wg? r.wg with
  | none => rfl
  | some w =>
    dsimp only [Option.elim]
    refine if_congr Iff.rfl rfl ?_
    cases w.countArrival b cnt r s.time <;> rfl

theorem applyHeld_eq (s : State) (wg b : Nat) : s.applyHeld wg b = enterAll arriveFuel wg b s := rfl

/-! ## An arrival and the groups in flight -/

/-- The same package with other groups in flight. -/
def regrouped (gs : List Group) (s : State) : State := { s with groups := gs }

theorem enterAll_regrouped (gs : List Group) {fuel : Nat}
    (harrive : ∀ s r b cnt wait site, (regrouped gs s).arrive fuel r b cnt wait site = regrouped gs (s.arrive fuel r b cnt wait site))
    (wg b : Nat) (s : State) : enterAll fuel wg b (regrouped gs s) = regrouped gs (enterAll fuel wg b s) := by
  refine List.foldl_hom (regrouped gs) fun u t => ?_
  unfold enterHeld
  rw [show (regrouped gs u).thread? = u.thread? from rfl]
  split
  · split
    · exact harrive (u.updThread (t.ref wg) fun t => t.lift u.time) ..
    · rfl
  · rfl

/-- An arrival neither reads nor changes the groups in flight. -/
theorem arrive_regrouped (gs : List Group) (fuel : Nat) (s : State) (r : TRef) (b cnt : Nat) (wait : Bool) (site : Site) :
    (regrouped gs s).arrive fuel r b cnt wait site = regrouped gs (s.arrive fuel r b cnt wait site) := by
  induction fuel generalizing s r b cnt wait site with
  | zero => rfl
  | succ fuel ih =>
    rw [arrive_succ, arrive_succ, show (regrouped gs s).wg? r.wg = s.wg? r.wg from rfl, show (regrouped gs s).time = s.time from rfl]
    cases s.wg? r.wg with
    | none => rfl
    | some w =>
      dsimp only [Option.elim]
      rw [apply_ite (regrouped gs)]
      refine if_congr Iff.rfl rfl ?_
      cases w.countArrival b cnt r s.time with
      | none => rfl
      | some x =>
        dsimp only [Option.elim]
        rw [apply_ite (regrouped gs)]
        exact if_congr Iff.rfl rfl
          (enterAll_regrouped gs ih r.wg b (phaseComplete (countedIn s r b x wait site) r.wg b x))

theorem recountB0_regrouped (gs : List Group) (s : State) (i : Nat) :
    (regrouped gs s).recountB0 i = regrouped gs (s.recountB0 i) := by
  cases hw : s.wg? i with
  | none =>
    unfold State.recountB0
    rw [show (regrouped gs s).wg? i = s.wg? i from rfl, hw]
  | some w =>
    rw [recountB0_eq hw, recountB0_eq (s := regrouped gs s) hw, apply_ite (regrouped gs)]
    refine if_congr Iff.rfl rfl ?_
    rw [applyHeld_eq, applyHeld_eq, ← enterAll_regrouped gs (arrive_regrouped gs arriveFuel)]
    rfl

/-! ## An arrival and a group without members -/

/-- No thread names the group as its own, and no late fault waits. -/
def Vacant (id : Nat) (s : State) : Prop := ∀ w ∈ s.wgs, ∀ t ∈ w.threads, t.group ≠ some id ∧ t.late = none

section
variable {id : Nat} {s : State} (h : Vacant id s)
include h

theorem vacant_updWg (i : Nat) {f : Workgroup → Workgroup}
    (hf : ∀ w, ∀ t ∈ (f w).threads, ∃ u ∈ w.threads,
      (u.group ≠ some id ∧ u.late = none) → t.group ≠ some id ∧ t.late = none) :
    Vacant id (s.updWg i f) := by
  intro w' hw' t ht
  obtain ⟨w, hw, rfl⟩ := List.mem_map.1 hw'
  split at ht
  · obtain ⟨u, hu, himp⟩ := hf w t ht
    exact himp (h w hw u hu)
  · exact h w hw t ht

theorem vacant_updThread (r : TRef) {f : Thread → Thread}
    (hf : ∀ t, t.group ≠ some id ∧ t.late = none → (f t).group ≠ some id ∧ (f t).late = none) :
    Vacant id (s.updThread r f) := by
  refine vacant_updWg h _ fun w t ht => ?_
  obtain ⟨u, hu, rfl⟩ := List.mem_map.1 ht
  refine ⟨u, hu, fun hvac => ?_⟩
  split
  · exact hf u hvac
  · exact hvac

theorem vacant_phaseComplete (wg b : Nat) (x : Barrier) : Vacant id (phaseComplete s wg b x) := by
  refine vacant_updWg h _ fun w t ht => ?_
  obtain ⟨u, hu, rfl⟩ := List.mem_map.1 ht
  exact ⟨u, hu, fun hvac => by rw [passes_fields]; exact hvac⟩

theorem vacant_countedIn (r : TRef) (b : Nat) (x : Barrier) (wait : Bool) (site : Site) :
    Vacant id (countedIn s r b x wait site) :=
  vacant_updThread (vacant_updWg h r.wg (f := fun w => w.setBar b x) fun _ t ht => ⟨t, ht, fun hvac => hvac⟩) r
    fun _ hvac => hvac

theorem vacant_raise (r : TRef) (d : FaultDetail) (site : Site) : Vacant id (s.raise r d site) := by
  refine vacant_updThread h _ fun t hvac => ⟨?_, raise_late hvac.2 d site⟩
  by_cases hex : t.executes = true
  · simp [(raise_of_executes hex hvac.2 d site).1]
  · rw [Thread.raise, if_neg hex]
    exact hvac.1

theorem vacant_enterAll {fuel : Nat}
    (harrive : ∀ s r b cnt wait site, Vacant id s → Vacant id (s.arrive fuel r b cnt wait site)) (wg b : Nat) :
    Vacant id (enterAll fuel wg b s) := by
  unfold enterAll
  generalize heldOf s wg b = ts
  induction ts generalizing s with
  | nil => exact h
  | cons t ts ih =>
    refine ih ?_
    unfold enterHeld
    split
    · split
      · exact harrive _ _ _ _ _ _ (vacant_updThread h _ fun _ hvac => hvac)
      · exact h
    · exact h

end

theorem vacant_arrive {id : Nat} (fuel : Nat) (s : State) (r : TRef) (b cnt : Nat) (wait : Bool) (site : Site) (h : Vacant id s) :
    Vacant id (s.arrive fuel r b cnt wait site) := by
  induction fuel generalizing s r b cnt wait site with
  | zero => exact h
  | succ fuel ih =>
    rw [arrive_succ]
    cases s.wg? r.wg with
    | none => exact h
    | some w =>
      dsimp only [Option.elim]
      split
      · exact vacant_updThread h _ fun _ hvac => hvac
      · cases w.countArrival b cnt r s.time with
        | none => exact vacant_raise h r _ site
        | some x =>
          dsimp only [Option.elim]
          split
          · exact vacant_countedIn h r b x wait site
          · exact vacant_enterAll (vacant_phaseComplete (vacant_countedIn h r b x wait site) r.wg b x) ih r.wg b

theorem vacant_recountB0 {id : Nat} {s : State} (h : Vacant id s) (i : Nat) : Vacant id (s.recountB0 i) := by
  cases hw : s.wg? i with
  | none =>
    unfold State.recountB0
    rw [hw]
    exact h
  | some w =>
    rw [recountB0_eq hw]
    split
    · exact h
    · exact vacant_enterAll (vacant_phaseComplete h i 0 (w.bar 0)) (vacant_arrive arriveFuel) i 0

/-! ## EXIT (R82) -/

/-- The members that end: those with a true guard. -/
def goingOf (s : State) (g : Group) (o : CtlGArgs) : List TRef :=
  (s.active g).filter fun r => (s.thread? r).any fun t => t.guard o.guard o.neg

/-- One thread ends, and the count of b0 falls. -/
def exitOne (s : State) (r : TRef) : State := (s.updThread r Thread.exit).recountB0 r.wg

/-- A ready EXIT ends the members with a true guard one after the other. -/
theorem exit_ready {s : State} {g : Group} (h : Ready s g lastRule []) (o : CtlGArgs) : exec (.exit o) s =
    .next (((goingOf (s.advance g) g o).foldl exitOne (s.advance g)).settle g.id) := by
  show execExit o s = _
  unfold execExit
  exact ready_issue h rfl rfl

/-! ## A group of one member -/

/-- A member that has ended is out of the group. -/
theorem workedThreads_ended {g : Group} {w : Workgroup} (hlate : ∀ t ∈ w.threads, t.late = none) {t : Thread}
    (ht : t ∈ workedThreads g (fun _ t => ended t) w) : t.group ≠ some g.id ∧ t.late = none := by
  obtain ⟨u, hu, rfl⟩ := List.mem_map.1 ht
  have hl := hlate u hu
  split
  case isTrue hin => exact ⟨nofun, hl⟩
  case isFalse hout => exact ⟨hout, hl⟩

section
variable {s : State} {g : Group} (h : Ready s g lastRule [])
include h

/-- Once every member has ended, the group is gone. -/
theorem after_ended : after s g (fun _ t => ended t) =
    placed s (s.wgs.map fun w => withThreads w (workedThreads g (fun _ t => ended t) w)) (s.groups.filter (·.id != g.id)) ∧
    Vacant g.id (after s g fun _ t => ended t) := by
  have hlate : ∀ w ∈ s.wgs, ∀ t ∈ w.threads, t.late = none := by
    obtain ⟨-, -, -, -, -, hall⟩ := h
    exact fun w hw t ht => (hall w hw t ht).1
  have hvacant {u : State} (hu : u.wgs = s.wgs.map fun w => withThreads w (workedThreads g (fun _ t => ended t) w)) :
      Vacant g.id u := by
    intro w' hw' t ht
    obtain ⟨w, hw, rfl⟩ := List.mem_map.1 (hu ▸ hw')
    exact workedThreads_ended (hlate w hw) ht
  have hlanded : (s.wgs.map fun w => withThreads w ((workedThreads g (fun _ t => ended t) w).map (landed s g w))) =
      s.wgs.map fun w => withThreads w (workedThreads g (fun _ t => ended t) w) := by
    refine List.map_congr_left fun w hw => congrArg _ ((List.map_congr_left fun t ht => ?_).trans (List.map_id _))
    exact if_neg fun hin => (workedThreads_ended (hlate w hw) ht).1 hin.2
  have hempty : emptied g (s.wgs.map fun w => withThreads w (workedThreads g (fun _ t => ended t) w)) = true :=
    List.isEmpty_iff.2 (active_of_memberless fun w hw t ht => (hvacant rfl w hw t ht).1)
  have heq := congrArg₂ (placed s) hlanded (if_pos (Or.inr hempty) : groupsAfter s g _ = s.groups.filter (·.id != g.id))
  refine ⟨heq, ?_⟩
  rw [show after s g _ = _ from heq]
  exact hvacant rfl

variable {r : TRef} {w : Workgroup} {th : Thread} (ha : Alone s g r w th) (o : CtlGArgs)
include ha

omit h in
/-- The one member ends where its guard is true. -/
theorem alone_goingOf : goingOf (s.advance g) g o = if th.guard o.guard o.neg = true then [r] else [] := by
  have hA := alone_advance ha
  rw [goingOf, alone_active hA, List.filter_singleton, alone_thread hA, Option.any_some, Bool.cond_eq_ite]
  rfl

theorem exit_alone_stays (hguard : th.guard o.guard o.neg = false) : exec (.exit o) s = .next (after s g fun _ t => t) := by
  rw [exit_ready h, alone_goingOf ha, if_neg (by simp [hguard]), List.foldl_nil, settle_advance h]

/-- The recount comes before the group goes, or after it: it does not look at groups. -/
theorem exit_alone_ends (hguard : th.guard o.guard o.neg = true) :
    exec (.exit o) s = .next ((after s g fun _ t => ended t).recountB0 r.wg) := by
  obtain ⟨-, hfind, -⟩ := id h
  obtain ⟨-, -, -, -, -, honly⟩ := alone_advance ha
  obtain ⟨hafter, hvacant⟩ := after_ended h
  let A := after s g fun _ t => ended t
  let moved := updateWhere (fun x => x.id == g.id) (behindWord g) s.groups
  have hended : (s.advance g).updThread r Thread.exit = regrouped moved A := by
    rw [show A = _ from hafter]
    show (s.advance g).updThread r ended = _
    rw [updThread_eq_mapGroup honly, advance_mapGroup (F := fun _ t => ended t) fun _ _ => rfl]
    rfl
  have hmoved : moved.find? (·.id == g.id) = some (behindWord g g) := by
    refine (find?_updateWhere fun x => ?_).trans ?_
    · by_cases hx : x.id = g.id <;> simp [hx, behindWord]
    · simp [hfind]
  have hgone : moved.filter (·.id != g.id) = A.groups := by
    rw [show A = _ from hafter]
    exact filter_updateWhere fun x hx => hx
  have hvacant' : Vacant g.id (regrouped moved (A.recountB0 r.wg)) := vacant_recountB0 hvacant r.wg
  have hsettled := settle_of_memberless (s := regrouped moved (A.recountB0 r.wg)) hmoved
    (fun w hw t ht => (hvacant' w hw t ht).1) fun w hw t ht => (hvacant' w hw t ht).2
  rw [exit_ready h, alone_goingOf ha, if_pos hguard, List.foldl_cons, List.foldl_nil, exitOne, hended, recountB0_regrouped]
  rw [hsettled]
  refine congrArg _ (?_ : regrouped (moved.filter (·.id != g.id)) (A.recountB0 r.wg) = _)
  rw [hgone, ← recountB0_regrouped]
  rfl

end

end Sys2Proof.Proofs
end

