-- ==== Sys2Proof/Proofs/ExitOfSeveral.lean ====
section
/-!
EXIT of several members (03_control R82, 13_sync_wait R300), where no arrival at b0 is held: the exits, each with its recount of
b0, leave what the exits leave that are made together, with the recounts after them.
-/

set_option Elab.async false

namespace Sys2Proof.Proofs

open Sys2Proof Sys2Proof.Machine Sys2Proof.Laws Sys2Proof.Safety Sys2Proof.Claims

/-! ## The recount within a workgroup -/

/-- A workgroup once b0 has been recounted in it, where no arrival is held. -/
def recounted (now : Nat) (w : Workgroup) : Workgroup :=
  if (w.bar 0).arrivals = [] ∨ (w.bar 0).arrivals.length < w.notExited then w else phaseOver (w.bar 0).phase now w

theorem recounted_of_goesOn (now : Nat) {w : Workgroup} (h : phaseGoesOn w) : recounted now w = w := if_pos h

theorem recounted_of_over (now : Nat) {w : Workgroup} (h : ¬ phaseGoesOn w) :
    recounted now w = phaseOver (w.bar 0).phase now w := if_neg h

/-- Nobody has arrived in a phase that has begun. -/
theorem phaseGoesOn_phaseOver (phase : Bool) (now : Nat) (w : Workgroup) : phaseGoesOn (phaseOver phase now w) := by
  left
  rw [bar_phaseOver]
  rfl

@[simp] theorem recounted_id (now : Nat) (w : Workgroup) : (recounted now w).id = w.id := by
  unfold recounted
  split_ifs <;> rfl

/-- A second recount finds nothing. -/
theorem recounted_recounted (now : Nat) (w : Workgroup) : recounted now (recounted now w) = recounted now w := by
  by_cases hgo : phaseGoesOn w
  · rw [recounted_of_goesOn now hgo, recounted_of_goesOn now hgo]
  · rw [recounted_of_over now hgo, recounted_of_goesOn now (phaseGoesOn_phaseOver ..)]

/-- A recount changes threads only as they pass the barrier. -/
theorem recounted_threads (now : Nat) (w : Workgroup) :
    (recounted now w).threads = w.threads ∨ (recounted now w).threads = w.threads.map fun t => t.passes 0 now := by
  unfold recounted
  split_ifs
  · exact Or.inl rfl
  · exact Or.inr rfl

/-! ## Held arrivals -/

/-- The thread's arrival at b0 is held. -/
def heldHere (t : Thread) : Bool := (t.hold.any fun x => x.heldAt 0) && t.executes

/-- A change that gives no thread a held arrival leaves a workgroup without one. -/
theorem heldAtBarrier_of_map {w v : Workgroup} {f : Thread → Thread} (hv : v.threads = w.threads.map f)
    (hf : ∀ t, heldHere (f t) = true → heldHere t = true) (h : heldAtBarrier w 0 = []) : heldAtBarrier v 0 = [] := by
  refine List.filter_eq_nil_iff.2 fun t ht => ?_
  obtain ⟨u, hu, rfl⟩ := List.mem_map.1 (hv ▸ ht)
  exact fun hheld => List.filter_eq_nil_iff.1 h u hu (hf u hheld)

theorem heldHere_ended (t : Thread) : heldHere (ended t) = false := rfl

theorem heldAtBarrier_recounted (now : Nat) {w : Workgroup} (h : heldAtBarrier w 0 = []) :
    heldAtBarrier (recounted now w) 0 = [] := by
  unfold recounted
  split_ifs
  · exact h
  · rw [heldAtBarrier_phaseOver, h]
    rfl

/-! ## Changes of the workgroups, one by one -/

/-- A package with its workgroups changed. -/
def onWgs (f : Workgroup → Workgroup) (s : State) : State := { s with wgs := s.wgs.map f }

/-- A change of the workgroup of one number. -/
def atWg (i : Nat) (f : Workgroup → Workgroup) (w : Workgroup) : Workgroup := if w.id = i then f w else w

theorem atWg_induction {p : Workgroup → Prop} {i : Nat} {f : Workgroup → Workgroup} {w : Workgroup} (hf : p (f w)) (hw : p w) :
    p (atWg i f w) := by
  unfold atWg
  split_ifs
  · exact hf
  · exact hw

theorem onWgs_onWgs (f h : Workgroup → Workgroup) (s : State) : onWgs h (onWgs f s) = onWgs (fun w => h (f w)) s := by
  simp only [onWgs, List.map_map, Function.comp_def]

theorem atWg_atWg {i : Nat} {f : Workgroup → Workgroup} (hf : ∀ w, (f w).id = w.id) (h : Workgroup → Workgroup) (w : Workgroup) :
    atWg i h (atWg i f w) = atWg i (fun w => h (f w)) w := by
  by_cases hi : w.id = i <;> simp [atWg, hi, hf]

theorem updWg_eq_onWgs (s : State) (i : Nat) (f : Workgroup → Workgroup) : s.updWg i f = onWgs (atWg i f) s := by
  simp only [State.updWg, updateWhere, onWgs, beq_iff_eq]
  rfl

/-- The workgroups have numbers of their own, and no arrival at b0 is held. -/
def Quiet (s : State) : Prop := ∀ w ∈ s.wgs, s.wg? w.id = some w ∧ heldAtBarrier w 0 = []

theorem quiet_of_map {s u : State} (h : Quiet s) {f : Workgroup → Workgroup} (hu : u.wgs = s.wgs.map f)
    (hid : ∀ w, (f w).id = w.id) (hheld : ∀ w, heldAtBarrier w 0 = [] → heldAtBarrier (f w) 0 = []) : Quiet u := by
  intro v hv
  obtain ⟨w, hw, rfl⟩ := List.mem_map.1 (hu ▸ hv)
  obtain ⟨hfind, hnone⟩ := h w hw
  refine ⟨?_, hheld w hnone⟩
  rw [hid, wg?_of_map hu hid, hfind]
  rfl

/-- The recount of a quiet package is the recount of one workgroup. -/
theorem recountB0_of_quiet {s : State} (h : Quiet s) (i : Nat) : s.recountB0 i = onWgs (atWg i (recounted s.time)) s := by
  cases hw : s.wg? i with
  | none =>
    have hother (v : Workgroup) (hv : v ∈ s.wgs) : atWg i (recounted s.time) v = v :=
      if_neg (by simpa using List.find?_eq_none.1 hw v hv)
    unfold State.recountB0
    rw [hw, onWgs, List.map_congr_left hother, List.map_id']
  | some w =>
    have hid : w.id = i := by simpa using List.find?_some hw
    have hsame (v : Workgroup) (hv : v ∈ s.wgs) (hvi : v.id = i) : v = w :=
      Option.some.inj ((h v hv).1.symm.trans (hvi ▸ hw))
    have hmap (f : Workgroup → Workgroup) (hf : recounted s.time w = f w) : onWgs (atWg i (recounted s.time)) s = s.updWg i f := by
      rw [updWg_eq_onWgs]
      refine congrArg (fun ws => { s with wgs := ws }) (List.map_congr_left fun v hv => ?_)
      by_cases hvi : v.id = i
      · rw [atWg, atWg, if_pos hvi, if_pos hvi, hsame v hv hvi, hf]
      · rw [atWg, atWg, if_neg hvi, if_neg hvi]
    obtain ⟨-, hnone⟩ := h w (List.mem_of_find?_eq_some hw)
    by_cases hgo : phaseGoesOn w
    · rw [recountB0_of_goesOn hw hgo, hmap id (recounted_of_goesOn _ hgo)]
      simp [State.updWg, updateWhere]
    · rw [recountB0_of_noneHeld hw hgo ((heldArrivals_eq_nil_iff w 0).2 hnone), hmap _ (recounted_of_over _ hgo)]

/-- Steps that each change the workgroups of a quiet package, one after the other. -/
theorem foldl_onWgs {step : State → TRef → State} {φ : TRef → Workgroup → Workgroup} {now : Nat}
    (hstep : ∀ s r, Quiet s → s.time = now → step s r = onWgs (φ r) s) (hid : ∀ r w, (φ r w).id = w.id)
    (hheld : ∀ r w, heldAtBarrier w 0 = [] → heldAtBarrier (φ r w) 0 = []) (rs : List TRef) {s : State} (h : Quiet s)
    (htime : s.time = now) : rs.foldl step s = onWgs (fun w => rs.foldl (fun w r => φ r w) w) s := by
  induction rs generalizing s with
  | nil => simp [onWgs]
  | cons r rs ih =>
    rw [List.foldl_cons, hstep s r h htime, ih (quiet_of_map (u := onWgs (φ r) s) h rfl (hid r) (hheld r)) htime, onWgs_onWgs]
    rfl

/-- The names in a workgroup. -/
def namesIn (rs : List TRef) (i : Nat) : List TRef := rs.filter fun r => r.wg = i

/-- A workgroup is changed for its own names. -/
theorem foldl_atWg {f : TRef → Workgroup → Workgroup} (hid : ∀ r w, (f r w).id = w.id) (rs : List TRef) (w : Workgroup) :
    rs.foldl (fun w r => atWg r.wg (f r) w) w = (namesIn rs w.id).foldl (fun w r => f r w) w := by
  induction rs generalizing w with
  | nil => rfl
  | cons r rs ih =>
    rw [List.foldl_cons, ih]
    by_cases hr : w.id = r.wg
    · rw [atWg, if_pos hr, hid, namesIn, namesIn, List.filter_cons_of_pos (by simp [hr]), List.foldl_cons]
    · rw [atWg, if_neg hr, namesIn, namesIn, List.filter_cons_of_neg (by simpa using Ne.symm hr)]

/-! ## Exits within a workgroup -/

/-- The thread of a name ends. -/
def exitAt (r : TRef) (w : Workgroup) : Workgroup := w.updThread r.warp r.lane ended

/-- Whether a thread of the workgroup has one of the names. -/
def namedIn (rs : List TRef) (t : Thread) : Bool := rs.any fun r => t.warp == r.warp && t.lane == r.lane

/-- The threads of some names end. -/
def endNamed (rs : List TRef) (t : Thread) : Thread := if namedIn rs t = true then ended t else t

theorem endNamed_cons (r : TRef) (rs : List TRef) (t : Thread) :
    endNamed (r :: rs) t = endNamed rs (if t.warp == r.warp && t.lane == r.lane then ended t else t) := by
  by_cases hr : (t.warp == r.warp && t.lane == r.lane) = true
  · have htwice : endNamed rs (ended t) = ended t := by
      unfold endNamed
      split_ifs <;> rfl
    rw [if_pos hr, htwice]
    simp [endNamed, namedIn, hr]
  · rw [if_neg hr]
    simp [endNamed, namedIn, hr]

theorem foldl_exitAt (rs : List TRef) (w : Workgroup) :
    rs.foldl (fun w r => exitAt r w) w = withThreads w (w.threads.map (endNamed rs)) := by
  induction rs generalizing w with
  | nil =>
    have hnone : endNamed [] = id := rfl
    rw [hnone, List.map_id]
    rfl
  | cons r rs ih =>
    have hboth : endNamed (r :: rs) = endNamed rs ∘ fun t => if t.warp == r.warp && t.lane == r.lane then ended t else t :=
      funext (endNamed_cons r rs)
    rw [List.foldl_cons, ih, hboth, ← List.map_map]
    rfl

/-- The threads of the names wait for nothing. -/
def Free (rs : List TRef) (w : Workgroup) : Prop := ∀ t ∈ w.threads, namedIn rs t = true → t.hold = none

theorem free_exitAt {rs : List TRef} {w : Workgroup} (h : Free rs w) (r : TRef) : Free rs (exitAt r w) := by
  intro t ht hname
  obtain ⟨u, hu, rfl⟩ := List.mem_map.1 ht
  split_ifs at hname ⊢
  · rfl
  · exact h u hu hname

theorem notExited_exitAt_le (r : TRef) (w : Workgroup) : (exitAt r w).notExited ≤ w.notExited := by
  unfold Workgroup.notExited exitAt Workgroup.updThread updateWhere
  simp only [← List.countP_eq_length_filter, List.countP_map]
  refine List.countP_mono_left fun t _ ht => ?_
  rw [Function.comp] at ht
  split_ifs at ht
  · exact absurd ht (by simp [ended])
  · exact ht

/-- A thread that waits for nothing passes the barrier before it ends or after. -/
theorem ended_passes {t : Thread} (h : t.hold = none) (now : Nat) : ended (t.passes 0 now) = (ended t).passes 0 now := by
  simp [passes_fields, ended, h]

theorem exitAt_phaseOver {r : TRef} {w : Workgroup} (h : Free [r] w) (phase : Bool) (now : Nat) :
    exitAt r (phaseOver phase now w) = phaseOver phase now (exitAt r w) := by
  simp only [exitAt, phaseOver, Workgroup.updThread, updateWhere, Workgroup.setBar, List.map_map]
  congr 1
  refine List.map_congr_left fun t ht => ?_
  have hname : (t.passes 0 now).warp = t.warp ∧ (t.passes 0 now).lane = t.lane := by
    rw [passes_fields]
    exact ⟨rfl, rfl⟩
  by_cases hr : (t.warp == r.warp && t.lane == r.lane) = true
  · have hfree := h t ht (by simpa [namedIn] using hr)
    simp only [Function.comp, hname, hr, if_true, ended_passes hfree]
  · simp only [Function.comp, hname, hr, if_false, Bool.false_eq_true]

/-- A recount before an exit is made up for by the one behind it. -/
theorem recounted_exitAt_recounted {r : TRef} {w : Workgroup} (h : Free [r] w) (now : Nat) :
    recounted now (exitAt r (recounted now w)) = recounted now (exitAt r w) := by
  by_cases hgo : phaseGoesOn w
  · rw [recounted_of_goesOn now hgo]
  · obtain ⟨hsome, hall⟩ := not_or.1 hgo
    have hover : ¬ phaseGoesOn (exitAt r w) :=
      not_or.2 ⟨hsome, fun hless => hall (hless.trans_le (notExited_exitAt_le r w))⟩
    rw [recounted_of_over now hgo, exitAt_phaseOver h, recounted_of_over now hover]
    exact recounted_of_goesOn now (phaseGoesOn_phaseOver ..)

theorem foldl_recounted_exitAt {rs : List TRef} {w : Workgroup} (h : Free rs w) (now : Nat) :
    rs.foldl (fun w r => recounted now (exitAt r w)) (recounted now w) = recounted now (rs.foldl (fun w r => exitAt r w) w) := by
  induction rs generalizing w with
  | nil => rfl
  | cons r rs ih =>
    have hhead : Free [r] w := fun t ht hname => h t ht (by simp_all [namedIn])
    have htail : Free rs w := fun t ht hname => h t ht (by simp_all [namedIn])
    rw [List.foldl_cons, List.foldl_cons, recounted_exitAt_recounted hhead, ih (free_exitAt htail r)]

theorem foldl_recounted (rs : List TRef) (now : Nat) (w : Workgroup) :
    rs.foldl (fun w _ => recounted now w) (recounted now w) = recounted now w := by
  induction rs with
  | nil => rfl
  | cons r rs ih => rw [List.foldl_cons, recounted_recounted, ih]

/-- The recount in the workgroups of some names. -/
def recountedFor (rs : List TRef) (now : Nat) (w : Workgroup) : Workgroup :=
  if namesIn rs w.id = [] then w else recounted now w

@[simp] theorem recountedFor_id (rs : List TRef) (now : Nat) (w : Workgroup) : (recountedFor rs now w).id = w.id := by
  unfold recountedFor
  split_ifs
  · rfl
  · exact recounted_id now w

theorem recountedFor_threads (rs : List TRef) (now : Nat) (w : Workgroup) :
    (recountedFor rs now w).threads = w.threads ∨ (recountedFor rs now w).threads = w.threads.map fun t => t.passes 0 now := by
  unfold recountedFor
  split_ifs
  · exact Or.inl rfl
  · exact recounted_threads now w

/-- A recount gives no thread a late fault. -/
theorem late_recountedFor (rs : List TRef) (now : Nat) {w : Workgroup} (h : ∀ t ∈ w.threads, t.late = none) :
    ∀ t ∈ (recountedFor rs now w).threads, t.late = none := by
  intro t ht
  rcases recountedFor_threads rs now w with hts | hts
  · exact h t (hts ▸ ht)
  · obtain ⟨u, hu, rfl⟩ := List.mem_map.1 (hts ▸ ht)
    rw [passes_fields]
    exact h u hu

/-! ## Exits and recounts of a package -/

theorem heldAtBarrier_exitAt (r : TRef) {w : Workgroup} (h : heldAtBarrier w 0 = []) : heldAtBarrier (exitAt r w) 0 = [] := by
  refine heldAtBarrier_of_map (f := fun t => if t.warp == r.warp && t.lane == r.lane then ended t else t) rfl (fun t ht => ?_) h
  split_ifs at ht
  · exact absurd ht (by simp [heldHere_ended])
  · exact ht

theorem exitOne_of_quiet {s : State} (h : Quiet s) (r : TRef) :
    exitOne s r = onWgs (atWg r.wg fun w => recounted s.time (exitAt r w)) s := by
  have hexit : s.updThread r Thread.exit = onWgs (atWg r.wg (exitAt r)) s := updWg_eq_onWgs ..
  have hquiet : Quiet (onWgs (atWg r.wg (exitAt r)) s) :=
    quiet_of_map h rfl (fun w => atWg_induction (p := fun v => v.id = w.id) rfl rfl)
      fun w hw => atWg_induction (p := fun v => heldAtBarrier v 0 = []) (heldAtBarrier_exitAt r hw) hw
  rw [exitOne, hexit, recountB0_of_quiet hquiet, onWgs_onWgs]
  exact congrArg (onWgs · s) (funext fun w => atWg_atWg (f := exitAt r) (fun _ => rfl) _ w)

/-- The threads of some names end, and b0 is recounted in their workgroups. -/
def endedFor (rs : List TRef) (now : Nat) (w : Workgroup) : Workgroup :=
  recountedFor rs now (withThreads w (w.threads.map (endNamed (namesIn rs w.id))))

/-- Exits one after the other leave what the exits of the same names leave together, recounted in their workgroups. -/
theorem foldl_exitOne {s : State} (h : Quiet s) {rs : List TRef} (hfree : ∀ w ∈ s.wgs, Free (namesIn rs w.id) w) :
    rs.foldl exitOne s = onWgs (endedFor rs s.time) s := by
  have hfold := foldl_onWgs (step := exitOne) (φ := fun r => atWg r.wg fun w => recounted s.time (exitAt r w)) (now := s.time)
    (fun u r hu hnow => hnow ▸ exitOne_of_quiet hu r)
    (fun r w => atWg_induction (p := fun v => v.id = w.id) (recounted_id ..) rfl)
    (fun r w hw => atWg_induction (p := fun v => heldAtBarrier v 0 = [])
      (heldAtBarrier_recounted _ (heldAtBarrier_exitAt r hw)) hw) rs h rfl
  refine hfold.trans (congrArg (fun ws => { s with wgs := ws }) (List.map_congr_left fun w hw => ?_))
  refine (foldl_atWg (f := fun r w => recounted s.time (exitAt r w)) (fun r w => recounted_id ..) rs w).trans ?_
  have hown := hfree w hw
  have hfor (v : Workgroup) (hv : v.id = w.id) :
      recountedFor rs s.time v = if namesIn rs w.id = [] then v else recounted s.time v := by rw [recountedFor, hv]
  rw [endedFor, hfor (withThreads w (w.threads.map (endNamed (namesIn rs w.id)))) rfl, ← foldl_exitAt]
  cases hnames : namesIn rs w.id with
  | nil => rfl
  | cons r own =>
    rw [hnames] at hown
    have htail : Free own w := fun t ht hname => hown t ht (by simp_all [namedIn])
    exact foldl_recounted_exitAt (free_exitAt htail r) s.time

/-- Recounts one after the other. -/
theorem foldl_recountB0 {s : State} (h : Quiet s) (rs : List TRef) :
    rs.foldl (fun u r => u.recountB0 r.wg) s = onWgs (recountedFor rs s.time) s := by
  have hfold := foldl_onWgs (step := fun u r => u.recountB0 r.wg) (φ := fun r => atWg r.wg (recounted s.time)) (now := s.time)
    (fun u r hu hnow => hnow ▸ recountB0_of_quiet hu r.wg)
    (fun r w => atWg_induction (p := fun v => v.id = w.id) (recounted_id ..) rfl)
    (fun r w hw => atWg_induction (p := fun v => heldAtBarrier v 0 = []) (heldAtBarrier_recounted _ hw) hw) rs h rfl
  refine hfold.trans (congrArg (fun f => onWgs f s) (funext fun w => ?_))
  refine (foldl_atWg (f := fun _ w => recounted s.time w) (fun r w => recounted_id ..) rs w).trans ?_
  unfold recountedFor
  cases namesIn rs w.id with
  | nil => rfl
  | cons r own => exact foldl_recounted own s.time w

/-! ## A ready EXIT -/

/-- A thread behind the last word of its clause passes the barrier before it leaves the group or after. -/
theorem landed_passes (s : State) (g : Group) (w : Workgroup) (t : Thread) :
    landed s g w (t.passes 0 s.time) = (landed s g w t).passes 0 s.time := by
  by_cases hland : g.ctx.left = 1 ∧ inGroup g t
  · have hpassed : g.ctx.left = 1 ∧ inGroup g (t.passes 0 s.time) := by simpa [passes_fields, inGroup] using hland
    rw [landed, landed, if_pos hland, if_pos hpassed]
    simp only [passes_fields, ite_self]
  · have hpassed : ¬ (g.ctx.left = 1 ∧ inGroup g (t.passes 0 s.time)) := by simpa [passes_fields, inGroup] using hland
    rw [landed, landed, if_neg hland, if_neg hpassed]

/-- The threads of a workgroup behind the word wait at the next clause start, where the clause is over. -/
def settled (s : State) (g : Group) (w : Workgroup) : Workgroup := withThreads w (w.threads.map (landed s g w))

theorem landed_status (s : State) (g : Group) (w : Workgroup) (t : Thread) :
    (landed s g w t).status = t.status ∧ (landed s g w t).hold = t.hold := by
  unfold landed
  split_ifs <;> exact ⟨rfl, rfl⟩

theorem notExited_settled (s : State) (g : Group) (w : Workgroup) : (settled s g w).notExited = w.notExited := by
  unfold Workgroup.notExited settled withThreads
  rw [List.filter_map, List.length_map]
  congr 1
  refine List.filter_congr fun t _ => ?_
  rw [Function.comp, (landed_status s g w t).1]

theorem settled_phaseOver (s : State) (g : Group) (phase : Bool) (w : Workgroup) :
    settled s g (phaseOver phase s.time w) = phaseOver phase s.time (settled s g w) := by
  simp only [settled, phaseOver, withThreads, Workgroup.setBar, List.map_map]
  congr 1
  exact List.map_congr_left fun t _ => landed_passes s g w t

theorem settled_recounted (s : State) (g : Group) (w : Workgroup) :
    settled s g (recounted s.time w) = recounted s.time (settled s g w) := by
  unfold recounted
  rw [show (settled s g w).bar 0 = w.bar 0 from rfl, notExited_settled, ← settled_phaseOver]
  exact apply_ite (settled s g) ..

theorem settled_recountedFor (s : State) (g : Group) (rs : List TRef) (w : Workgroup) :
    settled s g (recountedFor rs s.time w) = recountedFor rs s.time (settled s g w) := by
  unfold recountedFor
  rw [show (settled s g w).id = w.id from rfl, ← settled_recounted]
  exact apply_ite (settled s g) ..

/-- A recount leaves a group the members that it has. -/
theorem emptied_recountedFor (g : Group) (rs : List TRef) (now : Nat) (wgs : List Workgroup) :
    emptied g (wgs.map (recountedFor rs now)) = emptied g wgs := by
  have hgroup (v : Workgroup) (warp lane : Nat) :
      (((recountedFor rs now v).thread? warp lane).any fun t => t.group == some g.id) =
        (v.thread? warp lane).any fun t => t.group == some g.id := by
    unfold Workgroup.thread?
    rcases recountedFor_threads rs now v with hts | hts
    · rw [hts]
    · rw [hts, List.find?_map, Option.any_map]
      have hpasses (t : Thread) : (t.passes 0 now).warp = t.warp ∧ (t.passes 0 now).lane = t.lane ∧
          (t.passes 0 now).group = t.group := by
        rw [passes_fields]
        exact ⟨rfl, rfl, rfl⟩
      simp only [Function.comp_def, hpasses]
  unfold emptied State.active
  congr 1
  refine List.filter_congr fun r _ => ?_
  unfold State.thread?
  rw [wg?_of_map (s := { State.reset with wgs := wgs }) (Y := recountedFor rs now) rfl (recountedFor_id rs now)]
  cases ({ State.reset with wgs := wgs } : State).wg? r.wg with
  | none => rfl
  | some v => exact hgroup v r.warp r.lane

/-- What EXIT does to a member. -/
def exitWhere (o : CtlGArgs) (t : Thread) : Thread := if t.guard o.guard o.neg = true then ended t else t

/-- A workgroup once the members with a true guard have ended behind the word. -/
def exitBehind (g : Group) (o : CtlGArgs) (w : Workgroup) : Workgroup :=
  withThreads w (workedThreads g (fun _ t => exitWhere o t) w)

theorem exitWhere_late (o : CtlGArgs) (t : Thread) : (exitWhere o t).late = t.late := by
  unfold exitWhere
  split_ifs <;> rfl

theorem heldHere_of_exitWhere {o : CtlGArgs} {t : Thread} (h : heldHere (exitWhere o t) = true) : heldHere t = true := by
  unfold exitWhere at h
  split_ifs at h
  · exact absurd h (by simp [heldHere_ended])
  · exact h

/-- A member goes behind the word. -/
def behind (g : Group) (t : Thread) : Thread := if inGroup g t then { t with pc := g.pc + 4 } else t

theorem behind_fields (g : Group) (t : Thread) : (behind g t).warp = t.warp ∧ (behind g t).lane = t.lane ∧
    (behind g t).group = t.group ∧ (behind g t).p = t.p := by
  unfold behind
  split_ifs <;> exact ⟨rfl, rfl, rfl, rfl⟩

theorem thread?_map_behind (g : Group) (w : Workgroup) (warp lane : Nat) :
    (withThreads w (w.threads.map (behind g))).thread? warp lane = (w.thread? warp lane).map (behind g) := by
  unfold Workgroup.thread? withThreads
  rw [List.find?_map]
  congr 2
  funext t
  simp only [Function.comp, behind_fields]

/-- The members that end are the same behind the word. -/
theorem goingOf_advance (s : State) (g : Group) (o : CtlGArgs) : goingOf (s.advance g) g o = goingOf s g o := by
  have hwgs : (s.advance g).wgs = s.wgs.map fun w => withThreads w (w.threads.map (behind g)) := advance_wgs s g
  have hactive : (s.advance g).active g = s.active g :=
    active_of_keptNames hwgs (fun t => by simp only [behind_fields, and_self]) rfl rfl
  unfold goingOf
  rw [hactive]
  refine List.filter_congr fun r _ => ?_
  unfold State.thread?
  rw [wg?_of_map hwgs fun _ => rfl]
  cases s.wg? r.wg with
  | none => rfl
  | some w =>
    show Option.any _ ((withThreads w (w.threads.map (behind g))).thread? r.warp r.lane) = _
    rw [thread?_map_behind, Option.any_map]
    simp only [Thread.guard, Thread.pred, behind_fields]

section
variable {s : State} {g : Group} (hnamed : Named s g) (o : CtlGArgs) {w : Workgroup} (hw : w ∈ s.wgs)
include hnamed hw

/-- The names that end are those of the members with a true guard. -/
theorem namedIn_goingOf {t : Thread} (ht : t ∈ w.threads) :
    namedIn (namesIn (goingOf s g o) w.id) t = true ↔ inGroup g t ∧ t.guard o.guard o.neg = true := by
  obtain ⟨hfind, hthreads⟩ := hnamed w hw
  obtain ⟨hself, hmember⟩ := hthreads t ht
  have hthread : s.thread? (t.ref w.id) = some t := by
    unfold State.thread?
    rw [show (t.ref w.id).wg = w.id from rfl, hfind]
    exact hself
  have hgoing : t.ref w.id ∈ goingOf s g o ↔ inGroup g t ∧ t.guard o.guard o.neg = true := by
    simp only [goingOf, State.active, List.mem_filter, hthread, Option.any_some, beq_iff_eq, ← hmember, inGroup, and_self]
  rw [← hgoing]
  simp only [namedIn, namesIn, List.any_eq_true, List.mem_filter, Bool.and_eq_true, beq_iff_eq, decide_eq_true_eq]
  constructor
  · rintro ⟨r, ⟨hr, hwg⟩, hwarp, hlane⟩
    rwa [Thread.ref, ← hwg, hwarp, hlane]
  · exact fun hr => ⟨t.ref w.id, ⟨hr, rfl⟩, rfl, rfl⟩

/-- The exits by name are the exits of the members behind the word. -/
theorem endNamed_behind : ((workedThreads g (fun _ t => t) w).map (endNamed (namesIn (goingOf s g o) w.id))) =
    workedThreads g (fun _ t => exitWhere o t) w := by
  simp only [workedThreads, List.map_map]
  refine List.map_congr_left fun t ht => ?_
  have hend := namedIn_goingOf hnamed o hw ht
  show (if namedIn _ (behind g t) = true then ended (behind g t) else behind g t) = _
  have hname : namedIn (namesIn (goingOf s g o) w.id) (behind g t) = namedIn (namesIn (goingOf s g o) w.id) t := by
    simp only [namedIn, behind_fields]
  rw [hname]
  by_cases hin : inGroup g t
  · rw [behind, if_pos hin, if_pos hin]
    exact if_congr (hend.trans (and_iff_right hin)) rfl rfl
  · rw [behind, if_neg hin, if_neg hin, if_neg fun hnamed => hin (hend.1 hnamed).1]

/-- A group whose members wait for nothing ends threads that wait for nothing. -/
theorem free_behind (hhold : ∀ t ∈ w.threads, inGroup g t → t.hold = none) :
    Free (namesIn (goingOf s g o) w.id) (withThreads w (workedThreads g (fun _ t => t) w)) := by
  intro t ht hname
  obtain ⟨u, hu, rfl⟩ := List.mem_map.1 ht
  have hend := namedIn_goingOf hnamed o hw hu
  split_ifs at hname ⊢ with hin
  · exact hhold u hu hin
  · exact absurd (hend.1 hname).1 hin

end

section
variable {s : State} {g : Group} (hnamed : Named s g) (hheld : ∀ w ∈ s.wgs, w.heldArrivals 0 = [])
include hnamed hheld

theorem quiet_of_named : Quiet s := fun w hw => ⟨(hnamed w hw).1, (heldArrivals_eq_nil_iff w 0).1 (hheld w hw)⟩

theorem quiet_advance : Quiet (s.advance g) :=
  quiet_of_map (quiet_of_named hnamed hheld) (advance_wgs s g) (fun _ => rfl) fun _ hw =>
    heldAtBarrier_of_map rfl (fun t ht => by split_ifs at ht <;> exact ht) hw

/-- No member gets a held arrival as it goes behind the word and does F, which gives none. -/
theorem quiet_after {F : Workgroup → Thread → Thread} (hF : ∀ w t, heldHere (F w t) = true → heldHere t = true) :
    Quiet (after s g F) := by
  refine quiet_of_map (quiet_of_named hnamed hheld) (f := fun w => settled s g (withThreads w (workedThreads g F w))) rfl
    (fun _ => rfl) fun w hw => ?_
  have hworked : heldAtBarrier (withThreads w (workedThreads g F w)) 0 = [] := by
    refine heldAtBarrier_of_map rfl (fun t ht => ?_) hw
    split_ifs at ht
    · have hbefore := hF w _ ht
      exact hbefore
    · exact ht
  refine heldAtBarrier_of_map rfl (fun t ht => ?_) hworked
  rwa [heldHere, Thread.executes, (landed_status s g _ t).1, (landed_status s g _ t).2] at ht

end

/-- EXIT of several members: the exits first, the recounts after them. -/
theorem exit_several {s : State} {g : Group} (h : Ready s g lastRule []) (hnamed : Named s g)
    (hhold : ∀ w ∈ s.wgs, ∀ t ∈ w.threads, inGroup g t → t.hold = none) (hheld : ∀ w ∈ s.wgs, w.heldArrivals 0 = [])
    (o : CtlGArgs) : exec (.exit o) s =
      .next ((goingOf s g o).foldl (fun u r => u.recountB0 r.wg) (after s g fun _ t => exitWhere o t)) := by
  obtain ⟨-, -, -, -, -, hready⟩ := id h
  let going := goingOf s g o
  have hexits : going.foldl exitOne (s.advance g) = onWgs (endedFor going s.time) (s.advance g) := by
    refine foldl_exitOne (quiet_advance hnamed hheld) fun v hv => ?_
    obtain ⟨w, hw, rfl⟩ := List.mem_map.1 (advance_wgs s g ▸ hv)
    exact free_behind hnamed o hw (hhold w hw)
  have hwgs : (onWgs (endedFor going s.time) (s.advance g)).wgs = s.wgs.map fun w => recountedFor going s.time (exitBehind g o w) := by
    rw [onWgs, advance_wgs, List.map_map]
    refine List.map_congr_left fun w hw => ?_
    exact congrArg (fun ts => recountedFor going s.time (withThreads w ts)) (endNamed_behind hnamed o hw)
  have hlate : ∀ w ∈ s.wgs, ∀ t ∈ (recountedFor going s.time (exitBehind g o w)).threads, t.late = none := by
    refine fun w hw => late_recountedFor going s.time fun t ht => ?_
    obtain ⟨u, hu, rfl⟩ := List.mem_map.1 ht
    have hnone := (hready w hw u hu).1
    split_ifs
    · exact (exitWhere_late o _).trans hnone
    · exact hnone
  have hsettled : (s.wgs.map fun w => settled s g (recountedFor going s.time (exitBehind g o w))) =
      (s.wgs.map fun w => settled s g (exitBehind g o w)).map (recountedFor going s.time) := by
    rw [List.map_map]
    exact List.map_congr_left fun w _ => settled_recountedFor s g going (exitBehind g o w)
  have hgroups : groupsAfter s g (s.wgs.map fun w => recountedFor going s.time (exitBehind g o w)) =
      groupsAfter s g (s.wgs.map (exitBehind g o)) := by
    rw [groupsAfter, groupsAfter, ← emptied_recountedFor g going s.time (s.wgs.map (exitBehind g o)), List.map_map]
    rfl
  have hafter : Quiet (after s g fun _ t => exitWhere o t) := quiet_after hnamed hheld fun _ _ => heldHere_of_exitWhere
  rw [exit_ready h, goingOf_advance, show (goingOf s g o).foldl exitOne _ = _ from hexits,
    settle_general h hwgs rfl rfl hlate, foldl_recountB0 hafter]
  exact congrArg _ (congrArg₂ (placed s) hsettled hgroups)

/-! ## The statement -/

/-- Settles O13: what a word does to its members is a change of each, and EXIT is one of them with its recounts of b0. -/
theorem controlWordsEndDemoteMarkAndBreak : Obligations.ControlWordsEndDemoteMarkAndBreak :=
  ⟨fun _ _ o =>
    ⟨fun h => ⟨demote_ready h o, yield_ready h o, nop_ready h o, bkpt_ready h⟩,
      fun _ _ _ h ha => ⟨exit_alone_stays h ha o, exit_alone_ends h ha o⟩,
      fun h hnamed hhold hheld => exit_several h hnamed hhold hheld o⟩,
    recountB0_spec⟩

end Sys2Proof.Proofs
end
